-- ==== Sys2Proof/Word.lean ====
section
/-! DEFINITION. The word types of the machine and its sparse tables. -/

namespace Sys2Proof

/-- One byte of any memory (R2). -/
abbrev Byte := BitVec 8

/-- A lane value, an FP32 word, a 4 B memory word. -/
abbrev Word := BitVec 32

/-- A pointer, a PC, a uniform register, an instruction word. -/
abbrev DWord := BitVec 64

/-- A set of lanes of one warp: bit i stands for lane i (R151). -/
abbrev LaneMask := BitVec 32

/-- A sparse table: keys strictly rising, an absent key having no entry. -/
abbrev Tbl (α : Type) := List (Nat × α)

end Sys2Proof
end

