-- ==== Sys2Proof/Syntax.lean ====
section
/-! DEFINITION. The instructions and events of the opcode table (spec/opcode_table.json), one constructor a row.
Register numbers and immediates are plain numbers; WellFormed bounds them. A field that R42 says is ignored is not kept. -/

namespace Sys2Proof

/-- GNEG and GUARD (R28, R30, R38): a p register in the lane set, a q register in the uniform set. -/
structure Guard where
  neg : Bool
  n   : Nat
  deriving DecidableEq, Repr

/-- A 10-bit v operand field (R29): number, last-use, keep. -/
structure Src where
  reg  : Nat
  lu   : Bool
  keep : Bool
  deriving DecidableEq, Repr

/-- Integer types (R39). -/
inductive IntTy | s32 | n32 | s64 | n64 | s16x2 | n16x2 | s8x4 | n8x4
  deriving DecidableEq, Repr

/-- Floating-point types (R39). -/
inductive FpTy | f32 | f32x2 | f64 | f16x2 | bf16x2 | f16 | bf16
  deriving DecidableEq, Repr

/-- Packed FP8 types (R39). -/
inductive F8Ty | e4m3x4 | e5m2x4
  deriving DecidableEq, Repr

/-- Rounding field (R39). -/
inductive Rm | rn | rz | ru | rd
  deriving DecidableEq, Repr

/-- Operations of LOGIC and PLOGIC (R188). -/
inductive LogicOp | and | or | xor | andn | orn | xnor | not | pass
  deriving DecidableEq, Repr

/-- Comparisons of CMP and USETP (R188, R212). -/
inductive CmpOp | eq | ne | lt | le | gt | ge
  deriving DecidableEq, Repr

/-- Comparisons of FCMP (R191). -/
inductive FCmpOp | eq | ne | lt | le | gt | ge | num | nan
  deriving DecidableEq, Repr

/-- Format codes of the conversions (R194), in code order. -/
inductive CvtFmt
  | f32 | f64 | f16 | bf16 | e4m3 | e5m2 | e3m2 | e2m3 | e2m1
  | s32 | n32 | s64 | n64 | s16 | n16 | s8 | n8 | mxint8
  deriving DecidableEq, Repr

/-- Modes of XLANE (R197). -/
inductive XMode | at | back | fwd | flip
  deriving DecidableEq, Repr

/-- Operations of WRED and WSCAN (R199): the integer class with its type, or the floating class. -/
inductive RedOp
  | iadd | imin | imax | iand | ior | ixor
  deriving DecidableEq, Repr
inductive FRedOp | add | min | max
  deriving DecidableEq, Repr
inductive RedForm
  | int (op : RedOp) (t : IntTy)
  | fp (op : FRedOp) (t : FpTy) (rm : Rm) (ftz : Bool)
  deriving DecidableEq, Repr

/-- Selectors of WIDR (R202). -/
inductive WidSel | wid | lane | warp | tcause | tpc | taddr | depth | active | split
  deriving DecidableEq, Repr

/-- Coherence policy field (R22); `dflt` takes the pointer's default. -/
inductive Policy | dflt | own | wt | sis | wis | nc
  deriving DecidableEq, Repr

/-- Memory order (R36). -/
inductive Order | plain | acq | rel | acqRel
  deriving DecidableEq, Repr

/-- Scope (R36). -/
inductive Scope | thread | warp | block | core | yard | device | system
  deriving DecidableEq, Repr

/-- L2 replacement-class hint (R36). -/
inductive CacheClass | dflt | stream | pinned | reuse1 | reuse2 | reuse4 | reuse8
  deriving DecidableEq, Repr

/-- Atomic operations (R36). -/
inductive AtomOp
  | add | smin | smax | umin | umax | and | or | xor | exch | cas | incw | addb | fadd | fmin | fmax | hadd
  deriving DecidableEq, Repr

/-- Selectors of FRAGIN READ (R379). -/
inductive FragSel | x | y | seq | cov | prim | z | tile | face
  deriving DecidableEq, Repr

/-- Selectors of RQHIT (R420). -/
inductive HitSel | t | u | v | tri | primid | face | state | fstat | faddrLo | faddrHi
  deriving DecidableEq, Repr

/-- Selectors of SGET (R128). -/
inductive SgetSel
  | lid | var | core | part | qleft | chunk | waiting | preempt | role | seed | depth | freereg | flags | args | blin
  deriving DecidableEq, Repr

/-- Selectors of SPUT (R129). -/
inductive SputSel | swhint | yieldblk | cls
  deriving DecidableEq, Repr

/-- Selectors of SREG (R216). -/
inductive SregSel
  | bwid | warp | split | fflags | spadsz | localsz | wdogleft | widths
  | ext (i : Nat) | m (i : Nat) | tc (i : Nat)
  deriving DecidableEq, Repr

/-- The payload operations of BARP (R301). -/
inductive BarOp | fadd | fmin | fmax | iadd | umin | umax | smin | smax | and | or | xor
  deriving DecidableEq, Repr

/-- The scopes of TFENCE (R257). -/
inductive TScope | yard | device | system
  deriving DecidableEq, Repr

/-- Integer instructions (R39, R188): guard, type, SAT. -/
structure IntF where
  g   : Guard
  t   : IntTy
  sat : Bool
  deriving DecidableEq, Repr

/-- Floating-point instructions (R39, R190, R193): guard, lookahead, type, rounding, FTZ, SAT. -/
structure FpF where
  g   : Guard
  la  : Nat
  t   : FpTy
  rm  : Rm
  ftz : Bool
  sat : Bool
  deriving DecidableEq, Repr

/-- Packed FP8 instructions (R39, R192). -/
structure F8F where
  g    : Guard
  t    : F8Ty
  rm   : Rm
  satf : Bool
  deriving DecidableEq, Repr

/-- Conversions (R194): guard, lookahead, formats, rounding, FTZ, SAT or SATF. -/
structure CvtF where
  g   : Guard
  la  : Nat
  fd  : CvtFmt
  fs  : CvtFmt
  rm  : Rm
  ftz : Bool
  sat : Bool
  deriving DecidableEq, Repr

/-- Fields of LD, ST and PREF beside DATA (R35, VM-A); `size` is log2 of the bytes. -/
structure MemF where
  g      : Guard
  base   : Nat
  baseLu : Bool
  off    : Int
  cls    : CacheClass
  pol    : Policy
  ord    : Order
  scope  : Scope
  size   : Nat
  deriving DecidableEq, Repr

/-- Fields of ATOM and RED (R35, VM-B); `status` 0 none, 1–3 for p4–p6. -/
structure AtomF where
  g      : Guard
  op     : AtomOp
  base   : Nat
  baseLu : Bool
  opb    : Nat
  opbLu  : Bool
  pol    : Policy
  ord    : Order
  scope  : Scope
  size   : Nat
  deriving DecidableEq, Repr

/-- Fields of ULD (R238). -/
structure UldF where
  g     : Guard
  la    : Nat
  base  : Nat
  off   : Int
  cls   : CacheClass
  pol   : Policy
  ord   : Order
  scope : Scope
  size  : Nat
  deriving DecidableEq, Repr

/-- UADD to USHR (R211): guard, W32, S. -/
structure UniF where
  g   : Guard
  w32 : Bool
  s   : Bool
  deriving DecidableEq, Repr

/-- The flags of RQINIT (R416). -/
structure RayFlags where
  cb : Bool
  cf : Bool
  op : Bool
  no : Bool
  fh : Bool
  deriving DecidableEq, Repr

/-- Who asks for a pre-emption, resumption or cancel (R93): the sealed control record at the head of the parse order, or
the Farrier by its own interface, naming the launch. -/
inductive Asker
  | record
  | farrier (launch : Nat)
  deriving DecidableEq, Repr

/-- The uncorrectable error of an L2_MISS_FILL (R266): none, one that the DRAM reports for the sectors that arrive, or one that SECDED finds in 8 B of
the line in the L2. -/
inductive MemErr | none | dram | l2 (chunk : Nat)
  deriving DecidableEq, Repr

/-- How the host reads a line (R280). -/
inductive HostRead | shared | own | uncached
  deriving DecidableEq, Repr

/-- Accesses of a peer at this device's remote window (R431): a get, a put, or a remote reduction (an OP of R336). -/
inductive WindowKind
  | get (bytes : Nat)
  | put (data : List Byte)
  | reduce (op : Nat) (x : Nat)
  deriving DecidableEq, Repr

/-- An entry of the peer table (R431). -/
structure PeerAddr where
  ip   : BitVec 128
  port : BitVec 16
  deriving DecidableEq, Repr

/-- What the boot ROM finds of a firmware image's signature (R439): the vendor key that it names, and whether it verifies under that key. -/
structure ImageSig where
  key : List Byte
  ok  : Bool
  deriving DecidableEq, Repr

/-- Requests through the CXL.io mailbox (R432, R439, R441), those that configure the fabric (R431) and the power cap (R432), and the
start of a firmware block (R438) among them (log entry 22). -/
inductive MailboxReq
  | clearHealth
  | discardAll (asid : Nat)
  | discardRange (asid start len : Nat)
  | raiseVersion (v : Nat)
  | revokeKey (digest : Nat)
  | readHealth
  | setPeer (peer : Nat) (entry : Option PeerAddr)
  | setWindow (base bytes : Nat)
  | setPowerCap (watts : Nat)
  | startFirmware (asid : Nat) (pc : Nat)
  deriving DecidableEq, Repr

/-- A save that is attempted (R123): the block, and whether it meets an uncorrectable memory error (R126; log entry 54). -/
structure SaveTry where
  block : Nat
  err   : Bool
  deriving DecidableEq, Repr

/-- What the Farrier resets (R279). -/
inductive ResetTarget
  | core (n : Nat)
  | hostLink
  deriving DecidableEq, Repr

/-- The rows of the opcode table. Rows from `sealWrite` on are events: their operands say which of the waiting things the
event is about, or what the outside world supplies. -/
inductive Instr
  -- lane group 0x0, sequencer (R145–R166)
  | nop (g : Guard)
  | bra (g : Guard) (prio : Nat) (off : Int)
  | braU (g : Guard) (prio : Nat) (off : Int)
  | brx (g : Guard) (prio : Nat) (treg : Nat) (lu : Bool)
  | call (g : Guard) (prio : Nat) (off : Int)
  | callx (g : Guard) (prio : Nat) (treg : Nat) (lu : Bool)
  | ret (g : Guard)
  | land (g : Guard)
  | join (g : Guard) (m : Nat)
  | leave (g : Guard) (m : Nat)
  | waitm (g : Guard) (m : Nat)
  | mclr (g : Guard) (m : Nat)
  | trap (g : Guard) (n : Nat)
  | tret (g : Guard)
  | tretNext (g : Guard)
  | tkill (g : Guard)
  | tkillW (g : Guard)
  | wdog (g : Guard) (n : Nat)
  | yield (g : Guard)
  | exit (g : Guard)
  | bkpt (g : Guard) (n : Nat)
  -- lane group 0x1, integer (R188, R189)
  | add (f : IntF) (d : Nat) (a b : Src)
  | addVi (f : IntF) (d : Nat) (a : Src) (imm : Nat)
  | sub (f : IntF) (d : Nat) (a b : Src)
  | subVi (f : IntF) (d : Nat) (a : Src) (imm : Nat)
  | mul (f : IntF) (d : Nat) (a b : Src)
  | mulVi (f : IntF) (d : Nat) (a : Src) (imm : Nat)
  | mulhi (f : IntF) (d : Nat) (a b : Src)
  | muladd (f : IntF) (d : Nat) (a b c : Src)
  | sum3 (f : IntF) (mb mc : Bool) (d : Nat) (a b c : Src)
  | dot4 (f : IntF) (sa sb : Bool) (d : Nat) (a b c : Src)
  | min (f : IntF) (d : Nat) (a b : Src)
  | minVi (f : IntF) (d : Nat) (a : Src) (imm : Nat)
  | max (f : IntF) (d : Nat) (a b : Src)
  | maxVi (f : IntF) (d : Nat) (a : Src) (imm : Nat)
  | abs (f : IntF) (d : Nat) (a : Src)
  | logic (f : IntF) (op : LogicOp) (d : Nat) (a b : Src)
  | logicVi (f : IntF) (op : LogicOp) (d : Nat) (a : Src) (imm : Nat)
  | plogic (g : Guard) (op : LogicOp) (d a b c : Nat)
  | shl (f : IntF) (wrap : Bool) (d : Nat) (a b : Src)
  | shlVi (f : IntF) (wrap : Bool) (d : Nat) (a : Src) (imm : Nat)
  | shr (f : IntF) (wrap : Bool) (d : Nat) (a b : Src)
  | shrVi (f : IntF) (wrap : Bool) (d : Nat) (a : Src) (imm : Nat)
  | funnel (f : IntF) (r wrap : Bool) (d : Nat) (a b c : Src)
  | scadd (f : IntF) (sh : Nat) (d : Nat) (a b : Src)
  | bcnt (f : IntF) (d : Nat) (a : Src)
  | lzc (f : IntF) (d : Nat) (a : Src)
  | bitrev (f : IntF) (d : Nat) (a : Src)
  | xfld (f : IntF) (d : Nat) (a b : Src)
  | ifld (f : IntF) (d : Nat) (a b c : Src)
  | mkmask (f : IntF) (d : Nat) (a b : Src)
  | cmp (f : IntF) (op : CmpOp) (d : Nat) (a b : Src) (c : Nat)
  | cmpVi (f : IntF) (op : CmpOp) (d : Nat) (a : Src) (imm : Nat)
  | pick (f : IntF) (p : Nat) (d : Nat) (a b : Src)
  | pickVi (f : IntF) (p : Nat) (d : Nat) (a : Src) (imm : Nat)
  | mov (f : IntF) (d : Nat) (a : Src)
  | movi (g : Guard) (d : Nat) (imm : Nat)
  -- lane group 0x2, floating point (R190–R192)
  | fadd (f : FpF) (d : Nat) (a b : Src)
  | faddVi (f : FpF) (d : Nat) (a : Src) (imm : Nat)
  | fmul (f : FpF) (d : Nat) (a b : Src)
  | fmulVi (f : FpF) (d : Nat) (a : Src) (imm : Nat)
  | fma (f : FpF) (d : Nat) (a b c : Src)
  | fmin (f : FpF) (d : Nat) (a b : Src)
  | fminVi (f : FpF) (d : Nat) (a : Src) (imm : Nat)
  | fmax (f : FpF) (d : Nat) (a b : Src)
  | fmaxVi (f : FpF) (d : Nat) (a : Src) (imm : Nat)
  | fcmp (g : Guard) (t : FpTy) (op : FCmpOp) (u : Bool) (d : Nat) (a b : Src) (c : Nat)
  | fcmpVi (g : Guard) (t : FpTy) (op : FCmpOp) (u : Bool) (d : Nat) (a : Src) (imm : Nat)
  | fclass (g : Guard) (t : FpTy) (d : Nat) (a : Src)
  | fabs (f : FpF) (d : Nat) (a : Src)
  | fneg (f : FpF) (d : Nat) (a : Src)
  | fround (f : FpF) (d : Nat) (a : Src)
  | fdot2 (f : FpF) (d : Nat) (a b c : Src)
  | fscale (f : FpF) (d : Nat) (a b : Src)
  | f8add (f : F8F) (d : Nat) (a b : Src)
  | f8mul (f : F8F) (d : Nat) (a b : Src)
  | f8fma (f : F8F) (d : Nat) (a b c : Src)
  | f8min (f : F8F) (d : Nat) (a b : Src)
  | f8max (f : F8F) (d : Nat) (a b : Src)
  -- lane group 0x3, special functions and conversions (R193–R196)
  | recip (f : FpF) (d : Nat) (a : Src)
  | rsqrt (f : FpF) (d : Nat) (a : Src)
  | sqrt (f : FpF) (d : Nat) (a : Src)
  | exp2 (f : FpF) (d : Nat) (a : Src)
  | log2 (f : FpF) (d : Nat) (a : Src)
  | sin (f : FpF) (d : Nat) (a : Src)
  | cos (f : FpF) (d : Nat) (a : Src)
  | tanh (f : FpF) (d : Nat) (a : Src)
  | cvt (f : CvtF) (d : Nat) (a : Src)
  | cvti (f : CvtF) (d : Nat) (a : Src)
  | cvtf (f : CvtF) (d : Nat) (a : Src)
  | cvtsr (f : CvtF) (d : Nat) (a c : Src)
  | mxq (f : CvtF) (d : Nat) (a : Src)
  | mxdq (f : CvtF) (d : Nat) (a : Src)
  | pkcvt (f : CvtF) (d : Nat) (a b : Src)
  -- lane group 0x4, cross-lane and identity (R197–R202)
  | xlane (g : Guard) (la : Nat) (mode : XMode) (p : Nat) (d : Nat) (a b : Src)
  | pollMask (g : Guard) (d p : Nat)
  | pollAny (g : Guard) (d p : Nat)
  | pollAll (g : Guard) (d p : Nat)
  | pollSame (g : Guard) (d p : Nat)
  | wred (g : Guard) (la : Nat) (op : RedForm) (d : Nat) (a : Src)
  | wscan (g : Guard) (la : Nat) (ex : Bool) (op : RedForm) (d : Nat) (a : Src)
  | eqmask (g : Guard) (la : Nat) (t : IntTy) (d : Nat) (a : Src)
  | bytepSel (g : Guard) (d : Nat) (a b c : Src)
  | bytepLut16L (g : Guard) (d : Nat) (a b : Src)
  | bytepLut16H (g : Guard) (d : Nat) (a b : Src)
  | quadx (g : Guard) (la : Nat) (pat : Nat) (d : Nat) (a : Src)
  | lead (g : Guard) (d : Nat)
  | rng (g : Guard) (la : Nat) (p : Nat) (d : Nat) (a : Src)
  | widr (g : Guard) (sel : WidSel) (d : Nat)
  | clock (g : Guard) (dev : Bool) (d : Nat)
  | ptst (g : Guard) (d : Nat) (a : Src)
  | ptstClr (g : Guard) (d : Nat) (a : Src)
  -- lane group 0x5, memory (R235–R237, R240, R250, R251)
  | ld (f : MemF) (la : Nat) (split : Bool) (d : Nat)
  | st (f : MemF) (data : Nat) (dataLu : Bool)
  | atom (f : AtomF) (la : Nat) (status : Nat) (d : Nat)
  | red (f : AtomF)
  | lds (g : Guard) (la : Nat) (pol : Policy) (cls : CacheClass) (d : Nat) (a b : Src)
  | sst (g : Guard) (pol : Policy) (cls : CacheClass) (a b c : Src)
  | pref (f : MemF)
  -- lane group 0x6, raster and order (R379–R387)
  | ordenter (g : Guard)
  | ordexit (g : Guard)
  | fraginOpen (g : Guard) (a : Src)
  | fraginWave (g : Guard) (d : Nat)
  | fraginRead (g : Guard) (sel : FragSel) (d : Nat)
  | fkill (g : Guard)
  | covw (g : Guard) (d : Nat) (a : Src)
  | bary (g : Guard) (d : Nat) (a b c : Src)
  -- lane group 0x7, fragment lists (R402–R406)
  | flins (g : Guard) (d : Nat) (a b c : Src)
  | flhead (g : Guard) (la : Nat) (d : Nat) (a : Src)
  | flnode (g : Guard) (la : Nat) (d : Nat) (a : Src)
  | flclrInit (g : Guard) (a b c : Src)
  | flclrPix (g : Guard) (a : Src)
  | flbudgetSet (g : Guard) (a b : Src)
  | flbudgetGet (g : Guard) (d : Nat) (a : Src)
  | flbudgetRule (g : Guard) (a : Src)
  | flbudgetRrd (g : Guard) (d : Nat)
  | flmrg (g : Guard) (a b c : Src)
  | flmrgOne (g : Guard) (a b c : Src)
  -- lane group 0x8, ray (R416–R424)
  | rqinit (g : Guard) (fl : RayFlags) (a b : Src)
  | rqstep (g : Guard) (la : Nat) (d : Nat)
  | rqhit (g : Guard) (la : Nat) (cand : Bool) (sel : HitSel) (d : Nat)
  | rqcommit (g : Guard)
  | rqcommitEnd (g : Guard)
  | rqappend (g : Guard) (cand : Bool) (d : Nat) (a c : Src)
  | morton (g : Guard) (d : Nat) (a b c : Src)
  | bbox (g : Guard) (la : Nat) (d : Nat) (a : Src)
  | bvpack (g : Guard) (d : Nat) (a : Src)
  -- uniform group 0x0 (R209–R220)
  | umov (g : Guard) (d a : Nat)
  | umovQ (g : Guard) (d a : Nat)
  | umovQ2s (g : Guard) (d a : Nat)
  | umovS2q (g : Guard) (d a : Nat)
  | umovi (g : Guard) (d imm : Nat)
  | umoviHi (g : Guard) (d imm : Nat)
  | uadd (f : UniF) (d a b : Nat)
  | uaddUi (f : UniF) (d a imm : Nat)
  | usub (f : UniF) (d a b : Nat)
  | usubUi (f : UniF) (d a imm : Nat)
  | umul (f : UniF) (hi : Bool) (d a b : Nat)
  | umulUi (f : UniF) (hi : Bool) (d a imm : Nat)
  | uand (f : UniF) (d a b : Nat)
  | uandUi (f : UniF) (d a imm : Nat)
  | uor (f : UniF) (d a b : Nat)
  | uorUi (f : UniF) (d a imm : Nat)
  | uxor (f : UniF) (d a b : Nat)
  | uxorUi (f : UniF) (d a imm : Nat)
  | ushl (f : UniF) (d a b : Nat)
  | ushlUi (f : UniF) (d a imm : Nat)
  | ushr (f : UniF) (d a b : Nat)
  | ushrUi (f : UniF) (d a imm : Nat)
  | usetp (f : UniF) (op : CmpOp) (d a b c : Nat)
  | usetpUi (f : UniF) (op : CmpOp) (d a imm : Nat)
  | usel (g : Guard) (q d a b : Nat)
  | uselUi (g : Guard) (q d a imm : Nat)
  | v2s (g : Guard) (mode : Nat) (w64 : Bool) (d : Nat) (a : Src) (b : Nat)
  | s2v (g : Guard) (w64 : Bool) (d a : Nat)
  | sregR (g : Guard) (d : Nat) (sel : SregSel)
  | sregW (g : Guard) (sel : SregSel) (a : Nat)
  | tshape (g : Guard) (n a : Nat)
  -- uniform group 0x1, load-store (R238, R239, R248, R257–R259, R133)
  | uld (f : UldF) (d : Nat)
  | sdef (g : Guard) (a b c : Nat)
  | fence (g : Guard) (ord : Order) (scope : Scope)
  | tfence (g : Guard) (sc : TScope)
  | tfenceRange (g : Guard) (sc : TScope) (a b : Nat)
  | tfenceAll (g : Guard) (sc : TScope)
  | bind (g : Guard) (size : Nat) (base start len : Nat)
  | unbind (g : Guard) (size : Nat) (base : Nat)
  | ipf (g : Guard) (a : Nat) (d : Int) (n : Nat)
  -- uniform group 0x2, sync (R300–R317)
  | barSync (g : Guard) (q bar a : Nat)
  | barArrive (g : Guard) (q bar a : Nat)
  | barWait (g : Guard) (q bar : Nat)
  | barp (g : Guard) (op : BarOp) (d bar b a : Nat)
  | bardrop (g : Guard) (bar : Nat)
  | arrivec (g : Guard) (ord : Order) (scope : Scope) (base opb q : Nat)
  | cwait (g : Guard) (useTarget : Bool) (acq : Bool) (scope : Scope) (base opb : Nat)
  | cwaitb (g : Guard) (acq : Bool) (scope : Scope) (base opb : Nat)
  | monitor (g : Guard) (base : Nat)
  | mwait (g : Guard)
  | qpush (g : Guard) (base opb q : Nat)
  | qpop (g : Guard) (d base q : Nat)
  | park (g : Guard) (d base q : Nat)
  | fulfil (g : Guard) (base opb q : Nat)
  -- uniform group 0x3, dispatch (R96, R116, R128–R131)
  | launch (g : Guard) (d a : Nat)
  | vsp (g : Guard) (k : Nat)
  | sget (g : Guard) (sel : SgetSel) (d : Nat)
  | sput (g : Guard) (sel : SputSel) (a : Nat)
  | sleep (g : Guard) (n : Nat)
  | progrd (g : Guard) (d pg : Nat)
  -- uniform group 0x4, copy (R330–R343)
  | cpy (g : Guard) (a : Nat)
  | cpym (g : Guard) (a : Nat)
  | redv (g : Guard) (a : Nat)
  | cguardClr (g : Guard) (n : Nat)
  | cguardSet (g : Guard) (n q : Nat)
  | cguardRd (g : Guard) (d n : Nat)
  | cpres (g : Guard) (q pg : Nat)
  | cabort (g : Guard) (pg : Nat)
  | cabortAll (g : Guard)
  -- uniform group 0x5, matrix (R358–R369)
  | tld (g : Guard) (col : Bool) (t a b c : Nat)
  | tst (g : Guard) (col : Bool) (t a b c : Nat)
  | tzero (g : Guard) (t b : Nat)
  | tcvt (g : Guard) (rm : Rm) (satf : Bool) (d a b : Nat)
  | msign (g : Guard) (cv : Nat)
  | msignArm (g : Guard) (cv a : Nat)
  | msignRd (g : Guard) (d cv : Nat)
  | mma (g : Guard) (cv a b : Nat)
  | mmax (g : Guard) (cv a b c : Nat)
  | aclr (g : Guard) (a b : Nat)
  | ald (g : Guard) (t a b : Nat)
  | ast (g : Guard) (t a b : Nat)
  | acvt (g : Guard) (rm : Rm) (satf : Bool) (t a b : Nat)
  | eset (g : Guard) (e a : Nat)
  | esetRd (g : Guard) (d e : Nat)
  -- uniform group 0xF, system (R438)
  | csrr (g : Guard) (d csr : Nat)
  | csrw (g : Guard) (csr a : Nat)
  | halt (g : Guard)
  -- events of the dispatch engine (R85–R127)
  | sealWrite (slot : Nat) (v : Byte)
  | launchRecord
  | heldRecordParse
  | preEmpt (by' : Asker)
  | resume (by' : Asker)
  | cancel (by' : Asker)
  | launchComplete (launch : Nat)
  | blockAdmit
  | admissionReserve
  | quantumEnd (block : Nat)
  | blockSave (try_ : SaveTry)
  | blockResume (cores : List Nat)
  | switchRendezvous (block : Nat)
  | switchMove (block : Nat)
  | issueClassUpdate (block : Nat)
  -- events of the sequencer and the lane engine
  | icacheFill (core part : Nat)
  | issueSelect (core part : Nat)
  | heldClear (warp : Nat)
  | trapDeliver (warp entry : Nat)
  | asyncTrap (i : Nat)
  | watchdog (warp : Nat)
  | waitmRelease (warp m : Nat)
  | resultArrive (warp result : Nat)
  | poolGrant (core part : Nat)
  | spill (core part : Nat)
  | absentLineRelease (warp entry : Nat)
  | commandQueueRelease (warp entry : Nat)
  -- events of the copy and matrix engines
  | guardDiscard (core cmd : Nat)
  | copyCommandStart (core cmd : Nat)
  | copyUnitDone (core cmd : Nat)
  | copyFault (core cmd : Nat)
  | cpymDestFault (core cmd dest : Nat)
  | matrixCommandStart (core cmd : Nat)
  | gangMmaStart (core cmd : Nat)
  | matrixUnitDone (core cmd : Nat)
  | matrixCommandComplete (core cmd : Nat)
  | signatureCount (warp i : Nat)
  | matrixEccError (core : Nat) (region : Bool) (n : Nat)
  -- events of the home engine and the L1s (R262–R280)
  | rdS (msg : Nat)
  | rdL (msg : Nat)
  | rdN (msg : Nat)
  | ownRq (msg : Nat)
  | upg (msg : Nat)
  | wrT (msg : Nat)
  | wrN (msg : Nat)
  | atomicReq (msg : Nat)
  | wb (msg : Nat)
  | fwd (msg : Nat)
  | rcl (msg : Nat)
  | inv (msg : Nat)
  | grant (msg : Nat) (victim : Option Nat)
  | homeAck (msg : Nat)
  | l2MissFill (line : Nat) (victim : Option Nat) (err : MemErr)
  | victimForce (line victim : Nat)
  | agentFence (agent : Nat)
  | hostMemrd (kind : HostRead) (line : Nat)
  | hostMemwr (pa : Nat) (data : List (Option Byte))
  | bisnpAnswer (msg : Nat) (data : List Byte)
  | hostSnoop (core line : Nat) (invalidate : Bool)
  -- events of the sync and dispatch waits
  | cwaitRetest (warp entry : Nat)
  | arrivecRankRelease (warp entry : Nat)
  | monitorRegistered (warp entry : Nat)
  | monitorTimeout (warp : Nat)
  | queueSlotStep (warp entry : Nat)
  | parkRetest (core : Nat) (addr : Nat)
  | sleepWake (warp entry : Nat)
  | launchAnswer (warp entry : Nat)
  -- events of the raster, fragment-list and ray engines
  | fragmentDelivery (warp entry : Nat) (pick : List Nat)
  | ordenterRelease (warp lane : Nat)
  | ordexitRelease (warp lane : Nat)
  | gateEntryFree (core entry : Nat)
  | flclrRun (core cmd : Nat)
  | rayStep (core cmd : Nat)
  -- the fabric, the host and module management
  | peerTimeout (peer : Nat)
  | peerAck (id : Nat) (refused : Bool)
  | readySet (bit : Nat)
  | coreReset (t : ResetTarget)
  | overcurrent (on : Bool)
  | thermalThrottle
  | thermalShutdown
  | farrierWatchdogMiss
  | firmwareVerify (data : List Byte) (version : Nat) (signed : ImageSig)
  | spdmRequest (nonce : Nat)
  | healthUpdate (hours corrected : List Nat)
  | fatalError (cause pa agent : Nat)
  | reset
  | remoteWindowAccess (off : Nat) (k : WindowKind)
  | farrierMailboxRequest (r : MailboxReq)
  | haltedCoreRestart (core : Nat)
  | writeAcknowledged (msg : Nat)
  | translationWalk (core asid va : Nat)
  deriving DecidableEq, Repr

end Sys2Proof
end

