-- ==== Sys2Proof/WellFormed.lean ====
section
/-! DEFINITION. Which terms of Instr stand for an instruction word: register numbers inside their kind and aligned to
the width of the operand (R29), immediates in their range, and the modifier values that each description allows
(R39, R42). Events are always well-formed: their operands come from outside the program. -/

namespace Sys2Proof

/-- Registers that one operand of an integer type takes (R187). -/
def IntTy.regs : IntTy → Nat
  | .s64 | .n64 => 2
  | _ => 1

/-- S32, N32, S64, N64 (R188). -/
def IntTy.isScalar : IntTy → Bool
  | .s32 | .n32 | .s64 | .n64 => true
  | _ => false

/-- S32 and N32. -/
def IntTy.is32 : IntTy → Bool
  | .s32 | .n32 => true
  | _ => false

/-- The signed types. -/
def IntTy.isSigned : IntTy → Bool
  | .s32 | .s64 | .s16x2 | .s8x4 => true
  | _ => false

/-- Registers that one operand of a floating-point type takes (R187). -/
def FpTy.regs : FpTy → Nat
  | .f32x2 | .f64 => 2
  | _ => 1

/-- Registers that a value of a conversion format takes (R194). -/
def CvtFmt.regs : CvtFmt → Nat
  | .f64 | .s64 | .n64 => 2
  | _ => 1

/-- Codes 0 to 3: FP32, FP64, FP16, BF16. -/
def CvtFmt.isWide : CvtFmt → Bool
  | .f32 | .f64 | .f16 | .bf16 => true
  | _ => false

/-- Codes 9 to 16. -/
def CvtFmt.isInt : CvtFmt → Bool
  | .s32 | .n32 | .s64 | .n64 | .s16 | .n16 | .s8 | .n8 => true
  | _ => false

/-- Codes 0 to 8. -/
def CvtFmt.isFloat : CvtFmt → Bool
  | .f32 | .f64 | .f16 | .bf16 | .e4m3 | .e5m2 | .e3m2 | .e2m3 | .e2m1 => true
  | _ => false

/-- Codes 4 to 8 and 17: the formats of MXQ and MXDQ (R195). -/
def CvtFmt.isMx : CvtFmt → Bool
  | .e4m3 | .e5m2 | .e3m2 | .e2m3 | .e2m1 | .mxint8 => true
  | _ => false

namespace Wf

/-- A guard names one of eight predicates. -/
def guard (g : Guard) : Bool := g.n < 8
/-- A v register that starts a group of n (R29). -/
def v (n r : Nat) : Bool := r < 256 && r % n == 0
/-- A v source. -/
def src (n : Nat) (s : Src) : Bool := v n s.reg
def p (r : Nat) : Bool := r < 8
def s (r : Nat) : Bool := r < 64
def m (r : Nat) : Bool := r < 12
def t (r : Nat) : Bool := r < 16
def cv (r : Nat) : Bool := r < 8
def imm20 (n : Nat) : Bool := n < 1048576
def imm32 (n : Nat) : Bool := n < 4294967296
def la (n : Nat) : Bool := n < 16
def off12 (i : Int) : Bool := -2048 ≤ i && i < 2048
def off24 (i : Int) : Bool := -8388608 ≤ i && i < 8388608

/-- An integer instruction: guard, allowed type, SAT allowed (R188). -/
def int (f : IntF) (ty sat : Bool) : Bool := guard f.g && ty && (sat || !f.sat)

/-- Lookahead of group 0x2: only the F64 forms of the listed indices are (L) (R40). -/
def fp (f : FpF) (ty l rn : Bool) : Bool :=
  guard f.g && la f.la && ty && (f.la == 0 || (l && f.t == .f64)) && (!rn || f.rm == .rn)

/-- Special functions: all are (L) (R40, R193). -/
def sfu (f : FpF) (f64 rn : Bool) : Bool :=
  guard f.g && la f.la && (!rn || f.rm == .rn) &&
    (match f.t with | .f32 | .f16x2 | .bf16x2 => true | .f64 => f64 | _ => false)

/-- The immediate types of the VI forms (R32). -/
def fpImm (t : FpTy) : Bool := match t with | .f32 | .f32x2 | .f64 => true | _ => false

/-- The types of FCMP and FCLASS (R191). -/
def fcmpTy (t : FpTy) : Bool := match t with | .f32 | .f64 | .f16 | .bf16 => true | _ => false

/-- Packed FP8 (R192). -/
def f8 (f : F8F) (minmax : Bool) : Bool := guard f.g && (!minmax || (f.rm == .rn && !f.satf))

/-- Conversions: FTZ and SAT where R194 allows them. -/
def cvtF (f : CvtF) (fd fs : Bool) : Bool :=
  guard f.g && la f.la && fd && fs && (!f.ftz || (f.fd.isWide && f.fs.isWide)) && (!f.fd.isInt || !f.sat)

/-- Registers of an access of 2^k bytes (R224). -/
def accessRegs (k : Nat) : Nat := match k with | 3 => 2 | 4 => 4 | 5 => 8 | _ => 1

def mem (f : MemF) (sizes : Bool) (ords : Bool) : Bool :=
  guard f.g && v 2 f.base && off12 f.off && sizes && ords

/-- Sizes and orders of ATOM and RED (R36). -/
def atomF (f : AtomF) : Bool :=
  guard f.g && v 2 f.base &&
    (f.size == 2 || f.size == 3 || (f.size == 1 && (f.op == .fadd || f.op == .hadd)))

/-- CAS, INCW and ADDB take two operands (R36). -/
def twoOperands (o : AtomOp) : Bool := match o with | .cas | .incw | .addb => true | _ => false

/-- Registers of OPB (R36). -/
def opbRegs (f : AtomF) : Nat := (if f.size == 3 then 2 else 1) * (if twoOperands f.op then 2 else 1)

/-- A group of n registers and one of m share none. -/
def disjoint (a n b k : Nat) : Bool := a + n ≤ b || b + k ≤ a

def sregSel (x : SregSel) : Bool :=
  match x with | .ext i => i < 6 | .m i => i < 12 | .tc i => i < 16 | _ => true

/-- NOT and PASS read no B (R188), so their B field is ignored (R42). -/
def unary (o : LogicOp) : Bool := o == .not || o == .pass

/-- The integer class takes S32 to N64, the floating class F32 and F64 (R199). -/
def redForm (o : RedForm) : Bool :=
  match o with | .int _ t => t.isScalar | .fp _ t _ _ => t == .f32 || t == .f64

def redRegs (o : RedForm) : Nat := match o with | .int _ t => t.regs | .fp _ t _ _ => t.regs

/-- The CSR numbers of R436. -/
def csr (n : Nat) : Bool := n < 13 || n == 16 || (256 ≤ n && n < 512)

def uni (f : UniF) (d a : Nat) : Bool := guard f.g && s d && s a

end Wf

open Wf in
/-- The term stands for an instruction word, or is an event. -/
def Instr.wellFormed (i : Instr) : Bool :=
  match i with
  | .nop g | .land g | .tret g | .tretNext g | .tkill g | .tkillW g | .yield g | .exit g | .ret g => guard g
  | .bra g pr off | .braU g pr off | .call g pr off => guard g && pr < 64 && off24 off
  | .brx g pr r _ | .callx g pr r _ => guard g && pr < 64 && v 2 r
  | .join g n | .leave g n | .waitm g n | .mclr g n => guard g && m n
  | .trap g n | .wdog g n | .bkpt g n => guard g && imm20 n
  -- integer (R188)
  | .add f d a b | .sub f d a b | .mul f d a b =>
      int f true true && v f.t.regs d && src f.t.regs a && src f.t.regs b
  | .addVi f d a n | .subVi f d a n | .mulVi f d a n =>
      int f f.t.isScalar true && v f.t.regs d && src f.t.regs a && imm20 n
  | .mulhi f d a b => int f f.t.isScalar false && v f.t.regs d && src f.t.regs a && src f.t.regs b
  | .muladd f d a b c =>
      int f true true && v f.t.regs d && src f.t.regs a && src f.t.regs b && src f.t.regs c
  | .sum3 f _ _ d a b c =>
      int f f.t.isScalar true && v f.t.regs d && src f.t.regs a && src f.t.regs b && src f.t.regs c
  | .dot4 f _ _ d a b c => int f f.t.is32 true && v 1 d && src 1 a && src 1 b && src 1 c
  | .min f d a b | .max f d a b =>
      int f true false && v f.t.regs d && src f.t.regs a && src f.t.regs b
  | .minVi f d a n | .maxVi f d a n =>
      int f f.t.isScalar false && v f.t.regs d && src f.t.regs a && imm20 n
  | .abs f d a => int f f.t.isSigned true && v f.t.regs d && src f.t.regs a
  | .logic f op d a b =>
      int f f.t.isScalar false && v f.t.regs d && src f.t.regs a && src f.t.regs b &&
        (!unary op || b == { reg := 0, lu := false, keep := false })
  | .logicVi f _ d a n => int f f.t.isScalar false && v f.t.regs d && src f.t.regs a && imm20 n
  | .plogic g op d a b c => guard g && p d && p a && p b && p c && (!unary op || b == 0)
  | .shl f _ d a b => int f f.t.isScalar true && v f.t.regs d && src f.t.regs a && src 1 b
  | .shlVi f _ d a n => int f f.t.isScalar true && v f.t.regs d && src f.t.regs a && imm20 n
  | .shr f _ d a b => int f f.t.isScalar false && v f.t.regs d && src f.t.regs a && src 1 b
  | .shrVi f _ d a n => int f f.t.isScalar false && v f.t.regs d && src f.t.regs a && imm20 n
  | .funnel f _ _ d a b c => int f f.t.is32 false && v 1 d && src 1 a && src 1 b && src 1 c
  | .scadd f sh d a b => int f f.t.is32 false && sh < 8 && v 2 d && src 2 a && src 1 b
  | .bcnt f d a | .lzc f d a => int f f.t.isScalar true && v 1 d && src f.t.regs a
  | .bitrev f d a => int f f.t.isScalar true && v f.t.regs d && src f.t.regs a
  | .xfld f d a b => int f f.t.isScalar true && v f.t.regs d && src f.t.regs a && src 1 b
  | .ifld f d a b c =>
      int f f.t.isScalar true && v f.t.regs d && src f.t.regs a && src f.t.regs b && src 1 c
  | .mkmask f d a b => int f f.t.isScalar true && v f.t.regs d && src 1 a && src 1 b
  | .cmp f _ d a b c => int f f.t.isScalar false && p d && src f.t.regs a && src f.t.regs b && p c
  | .cmpVi f _ d a n => int f f.t.isScalar false && p d && src f.t.regs a && imm20 n
  | .pick f q d a b => int f f.t.isScalar false && p q && v f.t.regs d && src f.t.regs a && src f.t.regs b
  | .pickVi f q d a n => int f f.t.isScalar false && p q && v f.t.regs d && src f.t.regs a && imm20 n
  | .mov f d a => int f f.t.isScalar false && v f.t.regs d && src f.t.regs a
  | .movi g d n => guard g && v 1 d && imm32 n
  -- floating point (R190–R192)
  | .fadd f d a b | .fmul f d a b =>
      fp f true true false && v f.t.regs d && src f.t.regs a && src f.t.regs b
  | .faddVi f d a n | .fmulVi f d a n =>
      fp f (fpImm f.t) true false && v f.t.regs d && src f.t.regs a && imm20 n
  | .fma f d a b c =>
      fp f true true false && v f.t.regs d && src f.t.regs a && src f.t.regs b && src f.t.regs c
  | .fmin f d a b | .fmax f d a b =>
      fp f true true true && v f.t.regs d && src f.t.regs a && src f.t.regs b
  | .fminVi f d a n | .fmaxVi f d a n =>
      fp f (fpImm f.t) true true && v f.t.regs d && src f.t.regs a && imm20 n
  | .fcmp g t op u d a b c =>
      guard g && fcmpTy t && (!u || (op != .num && op != .nan)) && p d && src t.regs a && src t.regs b && p c
  | .fcmpVi g t op u d a n =>
      guard g && (t == .f32 || t == .f64) && (!u || (op != .num && op != .nan)) && p d && src t.regs a && imm20 n
  | .fclass g t d a => guard g && fcmpTy t && v 1 d && src t.regs a
  | .fabs f d a | .fneg f d a => fp f true false true && v f.t.regs d && src f.t.regs a
  | .fround f d a => fp f true true false && v f.t.regs d && src f.t.regs a
  | .fdot2 f d a b c =>
      fp f (f.t == .f16x2 || f.t == .bf16x2) true false && v 1 d && src 1 a && src 1 b && src 1 c
  | .fscale f d a b =>
      fp f (f.t == .f32 || f.t == .f64) true false && v f.t.regs d && src f.t.regs a && src 1 b
  | .f8add f d a b | .f8mul f d a b => f8 f false && v 1 d && src 1 a && src 1 b
  | .f8fma f d a b c => f8 f false && v 1 d && src 1 a && src 1 b && src 1 c
  | .f8min f d a b | .f8max f d a b => f8 f true && v 1 d && src 1 a && src 1 b
  -- special functions and conversions (R193–R196)
  | .recip f d a | .rsqrt f d a | .sqrt f d a => sfu f true false && v f.t.regs d && src f.t.regs a
  | .exp2 f d a | .log2 f d a | .sin f d a | .cos f d a | .tanh f d a =>
      sfu f false true && v f.t.regs d && src f.t.regs a
  | .cvt f d a => cvtF f f.fd.isFloat f.fs.isFloat && v f.fd.regs d && src f.fs.regs a
  | .cvti f d a => cvtF f f.fd.isInt f.fs.isWide && v f.fd.regs d && src f.fs.regs a
  | .cvtf f d a => cvtF f f.fd.isWide f.fs.isInt && v f.fd.regs d && src f.fs.regs a
  | .cvtsr f d a c =>
      cvtF f (f.fd.isFloat && f.fd != .f32 && f.fd != .f64) (f.fs == .f32) && f.rm == .rn &&
        v 1 d && src 1 a && src 1 c
  | .mxq f d a => cvtF f f.fd.isMx (f.fs == .f32) && v 1 d && src 1 a
  | .mxdq f d a => cvtF f (f.fd == .f32) f.fs.isMx && v 1 d && src 1 a
  | .pkcvt f d a b =>
      let n := if f.fd == .e4m3 || f.fd == .e5m2 then 2 else 1
      cvtF f (f.fd == .f16 || f.fd == .bf16 || f.fd == .e4m3 || f.fd == .e5m2) (f.fs == .f32) &&
        v 1 d && src n a && src n b
  -- cross-lane and identity (R197–R202)
  | .xlane g l _ q d a b => guard g && la l && p q && v 1 d && src 1 a && src 1 b
  | .pollMask g d a => guard g && v 1 d && p a
  | .pollAny g d a | .pollAll g d a | .pollSame g d a => guard g && p d && p a
  | .wred g l op d a => guard g && la l && redForm op && v (redRegs op) d && src (redRegs op) a
  | .wscan g l _ op d a => guard g && la l && redForm op && v (redRegs op) d && src (redRegs op) a
  | .eqmask g l t d a => guard g && la l && t.isScalar && v 1 d && src t.regs a
  | .bytepSel g d a b c => guard g && v 1 d && src 1 a && src 1 b && src 1 c
  | .bytepLut16L g d a b | .bytepLut16H g d a b => guard g && v 1 d && src 4 a && src 1 b
  | .quadx g l pat d a => guard g && la l && pat < 256 && v 1 d && src 1 a
  | .lead g d => guard g && p d
  | .rng g l q d a => guard g && la l && p q && v 4 d && src 2 a && disjoint d 4 a.reg 2
  | .widr g _ d => guard g && v 2 d
  | .clock g _ d => guard g && v 2 d
  | .ptst g d a => guard g && p d && src 1 a
  | .ptstClr g d a => guard g && v 1 d && src 1 a
  -- memory (R235–R251)
  | .ld f l _ d =>
      mem f (f.size < 6) (f.ord == .plain || f.ord == .acq) && la l && v (accessRegs f.size) d
  | .st f d _ => mem f (f.size < 6) (f.ord == .plain || f.ord == .rel) && v (accessRegs f.size) d
  | .atom f l stat d =>
      atomF f && la l && (stat == 0 || (stat < 4 && (f.op == .cas || f.op == .addb))) &&
        v (accessRegs f.size) d && v (opbRegs f) f.opb
  | .red f =>
      atomF f && !(twoOperands f.op || f.op == .exch) && (f.ord == .plain || f.ord == .rel) &&
        v (opbRegs f) f.opb
  | .lds g l _ _ d a b => guard g && la l && v 1 d && src 1 a && src 1 b
  | .sst g _ _ a b c => guard g && src 1 a && src 1 b && src 1 c
  | .pref f => mem f (f.size < 6) (f.ord == .plain)
  -- raster and order
  | .ordenter g | .ordexit g | .fkill g => guard g
  | .fraginOpen g a => guard g && src 2 a
  | .fraginWave g d => guard g && v 1 d
  | .fraginRead g _ d => guard g && v 1 d
  | .covw g d a => guard g && v 1 d && src 1 a
  | .bary g d a b c =>
      guard g && v 8 d && src 8 a && src 2 b && src 1 c && disjoint d 8 a.reg 8 && disjoint d 8 b.reg 2 &&
        disjoint d 8 c.reg 1
  -- fragment lists
  | .flins g d a b c => guard g && v 1 d && src 1 a && src 1 b && src 2 c
  | .flhead g l d a => guard g && la l && v 2 d && src 1 a
  | .flnode g l d a => guard g && la l && v 4 d && src 1 a
  | .flclrInit g a b c => guard g && src 2 a && src 1 b && src 1 c
  | .flclrPix g a => guard g && src 1 a
  | .flbudgetSet g a b => guard g && src 1 a && src 1 b
  | .flbudgetGet g d a => guard g && v 1 d && src 1 a
  | .flbudgetRule g a => guard g && src 1 a
  | .flbudgetRrd g d => guard g && v 1 d
  | .flmrg g a b c | .flmrgOne g a b c => guard g && src 1 a && src 1 b && src 2 c
  -- ray
  | .rqinit g fl a b => guard g && !(fl.op && fl.no) && src 8 a && src 2 b
  | .rqstep g l d => guard g && la l && v 1 d
  | .rqhit g l _ _ d => guard g && la l && v 1 d
  | .rqcommit g | .rqcommitEnd g => guard g
  | .rqappend g _ d a c => guard g && v 1 d && src 1 a && src 2 c
  | .morton g d a b c => guard g && v 1 d && src 4 a && src 4 b && src 4 c
  | .bbox g l d a => guard g && la l && v 8 d && src 8 a
  | .bvpack g d a => guard g && v 1 d && src 8 a
  -- uniform group 0x0
  | .umov g d a => guard g && s d && s a
  | .umovQ g d a => guard g && p d && p a
  | .umovQ2s g d a => guard g && s d && p a
  | .umovS2q g d a => guard g && p d && s a
  | .umovi g d n | .umoviHi g d n => guard g && s d && imm32 n
  | .uadd f d a b | .usub f d a b | .uand f d a b | .uor f d a b | .uxor f d a b | .ushl f d a b
  | .ushr f d a b => uni f d a && s b
  | .uaddUi f d a n | .usubUi f d a n | .uandUi f d a n | .uorUi f d a n | .uxorUi f d a n
  | .ushlUi f d a n | .ushrUi f d a n => uni f d a && imm20 n
  | .umul f _ d a b => uni f d a && s b
  | .umulUi f _ d a n => uni f d a && imm20 n
  | .usetp f _ d a b c => guard f.g && p d && s a && s b && p c
  | .usetpUi f _ d a n => guard f.g && p d && s a && imm20 n
  | .usel g q d a b => guard g && p q && s d && s a && s b
  | .uselUi g q d a n => guard g && p q && s d && s a && imm20 n
  | .v2s g mode w d a b => guard g && mode < 3 && s d && src (if w then 2 else 1) a && s b && (mode == 1 || b == 0)
  | .s2v g w d a => guard g && v (if w then 2 else 1) d && s a
  | .sregR g d sel => guard g && s d && sregSel sel
  | .sregW g sel a => guard g && sel == .fflags && s a
  | .tshape g n a => guard g && t n && s a
  -- uniform group 0x1
  | .uld f d =>
      guard f.g && la f.la && s f.base && off12 f.off && f.size < 4 && (f.ord == .plain || f.ord == .acq) && s d
  | .sdef g a b c => guard g && s a && s b && s c
  | .fence g o _ => guard g && o != .plain
  | .tfence g _ | .tfenceAll g _ => guard g
  | .tfenceRange g _ a b => guard g && s a && s b
  | .bind g k b lo ln => guard g && (k == 2 || k == 3) && s b && s lo && s ln
  | .unbind g k b => guard g && (k == 2 || k == 3) && s b
  | .ipf g a d n => guard g && s a && -32768 ≤ d && d < 32768 && 1 ≤ n && n ≤ 16
  -- uniform group 0x2
  | .barSync g q b a | .barArrive g q b a => guard g && p q && t b && s a
  | .barWait g q b => guard g && p q && t b
  | .barp g _ d bar b a => guard g && s d && t bar && s b && s a
  | .bardrop g b => guard g && t b
  | .arrivec g _ _ b o q => guard g && s b && s o && p q
  | .cwait g tg _ _ b o => guard g && s b && s o && (!tg || o == 0)
  | .cwaitb g _ _ b o => guard g && s b && s o
  | .monitor g b => guard g && s b
  | .mwait g => guard g
  | .qpush g b o q | .fulfil g b o q => guard g && s b && s o && p q
  | .qpop g d b q | .park g d b q => guard g && s d && s b && p q
  -- uniform group 0x3
  | .launch g d a => guard g && s d && s a
  | .vsp g k => guard g && k < 32
  | .sget g _ d => guard g && s d
  | .sput g _ a => guard g && s a
  | .sleep g n => guard g && imm20 n
  | .progrd g d n => guard g && s d && p n
  -- uniform group 0x4
  | .cpy g a | .cpym g a | .redv g a => guard g && s a
  | .cguardClr g n => guard g && t n
  | .cguardSet g n q => guard g && t n && p q
  | .cguardRd g d n => guard g && s d && t n
  | .cpres g q n => guard g && p q && p n
  | .cabort g n => guard g && p n
  | .cabortAll g => guard g
  -- uniform group 0x5
  | .tld g _ x a b c | .tst g _ x a b c => guard g && t x && s a && s b && s c
  | .tzero g x b => guard g && t x && s b
  | .tcvt g _ _ d a b => guard g && t d && t a && s b
  | .msign g n => guard g && cv n
  | .msignArm g n a => guard g && cv n && s a
  | .msignRd g d n => guard g && s d && cv n
  | .mma g n a b => guard g && cv n && s a && s b
  | .mmax g n a b c => guard g && cv n && s a && s b && s c
  | .aclr g a b => guard g && s a && s b
  | .ald g x a b | .ast g x a b => guard g && t x && s a && s b
  | .acvt g _ _ x a b => guard g && t x && s a && s b
  | .eset g e a => guard g && cv e && s a
  | .esetRd g d e => guard g && s d && cv e
  -- uniform group 0xF
  | .csrr g d n => guard g && s d && csr n
  | .csrw g n a => guard g && csr n && s a
  | .halt g => guard g
  -- events
  | .sealWrite .. | .launchRecord | .heldRecordParse | .preEmpt .. | .resume .. | .cancel ..
  | .launchComplete .. | .blockAdmit | .admissionReserve | .quantumEnd .. | .blockSave .. | .blockResume ..
  | .switchRendezvous .. | .switchMove .. | .issueClassUpdate .. | .icacheFill .. | .issueSelect ..
  | .heldClear .. | .trapDeliver .. | .asyncTrap .. | .watchdog .. | .waitmRelease .. | .resultArrive ..
  | .poolGrant .. | .spill .. | .absentLineRelease .. | .commandQueueRelease .. | .guardDiscard ..
  | .copyCommandStart .. | .copyUnitDone .. | .copyFault .. | .cpymDestFault .. | .matrixCommandStart ..
  | .gangMmaStart .. | .matrixUnitDone .. | .matrixCommandComplete .. | .signatureCount .. | .matrixEccError ..
  | .rdS .. | .rdL .. | .rdN .. | .ownRq .. | .upg .. | .wrT .. | .wrN .. | .atomicReq .. | .wb ..
  | .fwd .. | .rcl .. | .inv .. | .grant .. | .homeAck .. | .l2MissFill .. | .victimForce .. | .agentFence ..
  | .hostMemrd .. | .hostMemwr .. | .bisnpAnswer .. | .hostSnoop .. | .cwaitRetest .. | .arrivecRankRelease ..
  | .monitorRegistered .. | .monitorTimeout .. | .queueSlotStep .. | .parkRetest .. | .sleepWake ..
  | .launchAnswer .. | .fragmentDelivery .. | .ordenterRelease .. | .ordexitRelease .. | .gateEntryFree ..
  | .flclrRun .. | .rayStep .. | .peerTimeout .. | .peerAck .. | .readySet .. | .coreReset .. | .overcurrent ..
  | .thermalThrottle | .thermalShutdown | .farrierWatchdogMiss | .firmwareVerify .. | .spdmRequest ..
  | .healthUpdate .. | .fatalError .. | .reset | .remoteWindowAccess .. | .farrierMailboxRequest ..
  | .haltedCoreRestart .. | .writeAcknowledged .. | .translationWalk .. => true

end Sys2Proof
end

