-- ==== Sys2Proof/Decode.lean ====
section
/-! DEFINITION. From a 64-bit word to an instruction or a decode fault (R27–R43), and the encoder, both written from the
formats of R28–R38 and the maps of R40 and R41. A field that R42 says is ignored reads as 0. -/

namespace Sys2Proof

/-- The two fates of a word that is not a valid instruction (R42), and a word of fewer than eight bytes. -/
inductive DecodeFault
  | illegalInstruction
  | illegalEncoding
  | shortWord
  deriving DecidableEq, Repr

/-! Codes of the enumerated fields. -/

def boolOf (n : Nat) : Bool := n % 2 == 1
def natOf (b : Bool) : Nat := if b then 1 else 0

def IntTy.code : IntTy → Nat
  | .s32 => 0 | .n32 => 1 | .s64 => 2 | .n64 => 3 | .s16x2 => 4 | .n16x2 => 5 | .s8x4 => 6 | .n8x4 => 7
def IntTy.ofCode (n : Nat) : IntTy :=
  match n with
  | 0 => .s32 | 1 => .n32 | 2 => .s64 | 3 => .n64 | 4 => .s16x2 | 5 => .n16x2 | 6 => .s8x4 | _ => .n8x4

def FpTy.code : FpTy → Nat
  | .f32 => 0 | .f32x2 => 1 | .f64 => 2 | .f16x2 => 3 | .bf16x2 => 4 | .f16 => 5 | .bf16 => 6
def FpTy.ofCode (n : Nat) : Option FpTy :=
  match n with
  | 0 => some .f32 | 1 => some .f32x2 | 2 => some .f64 | 3 => some .f16x2 | 4 => some .bf16x2 | 5 => some .f16
  | 6 => some .bf16 | _ => none

def Rm.code : Rm → Nat
  | .rn => 0 | .rz => 1 | .ru => 2 | .rd => 3
def Rm.ofCode (n : Nat) : Rm :=
  match n with | 0 => .rn | 1 => .rz | 2 => .ru | _ => .rd

def LogicOp.code : LogicOp → Nat
  | .and => 0 | .or => 1 | .xor => 2 | .andn => 3 | .orn => 4 | .xnor => 5 | .not => 6 | .pass => 7
def LogicOp.ofCode (n : Nat) : LogicOp :=
  match n with
  | 0 => .and | 1 => .or | 2 => .xor | 3 => .andn | 4 => .orn | 5 => .xnor | 6 => .not | _ => .pass

def CmpOp.code : CmpOp → Nat
  | .eq => 0 | .ne => 1 | .lt => 2 | .le => 3 | .gt => 4 | .ge => 5
def CmpOp.ofCode (n : Nat) : Option CmpOp :=
  match n with
  | 0 => some .eq | 1 => some .ne | 2 => some .lt | 3 => some .le | 4 => some .gt | 5 => some .ge | _ => none

def FCmpOp.code : FCmpOp → Nat
  | .eq => 0 | .ne => 1 | .lt => 2 | .le => 3 | .gt => 4 | .ge => 5 | .num => 6 | .nan => 7
def FCmpOp.ofCode (n : Nat) : FCmpOp :=
  match n with
  | 0 => .eq | 1 => .ne | 2 => .lt | 3 => .le | 4 => .gt | 5 => .ge | 6 => .num | _ => .nan

def CvtFmt.code : CvtFmt → Nat
  | .f32 => 0 | .f64 => 1 | .f16 => 2 | .bf16 => 3 | .e4m3 => 4 | .e5m2 => 5 | .e3m2 => 6 | .e2m3 => 7 | .e2m1 => 8
  | .s32 => 9 | .n32 => 10 | .s64 => 11 | .n64 => 12 | .s16 => 13 | .n16 => 14 | .s8 => 15 | .n8 => 16 | .mxint8 => 17
def CvtFmt.ofCode (n : Nat) : Option CvtFmt :=
  match n with
  | 0 => some .f32 | 1 => some .f64 | 2 => some .f16 | 3 => some .bf16 | 4 => some .e4m3 | 5 => some .e5m2
  | 6 => some .e3m2 | 7 => some .e2m3 | 8 => some .e2m1 | 9 => some .s32 | 10 => some .n32 | 11 => some .s64
  | 12 => some .n64 | 13 => some .s16 | 14 => some .n16 | 15 => some .s8 | 16 => some .n8 | 17 => some .mxint8
  | _ => none

def XMode.code : XMode → Nat
  | .at => 0 | .back => 1 | .fwd => 2 | .flip => 3
def XMode.ofCode (n : Nat) : XMode :=
  match n with | 0 => .at | 1 => .back | 2 => .fwd | _ => .flip

def RedOp.code : RedOp → Nat
  | .iadd => 0 | .imin => 1 | .imax => 2 | .iand => 3 | .ior => 4 | .ixor => 5
def RedOp.ofCode (n : Nat) : Option RedOp :=
  match n with
  | 0 => some .iadd | 1 => some .imin | 2 => some .imax | 3 => some .iand | 4 => some .ior | 5 => some .ixor
  | _ => none

def FRedOp.code : FRedOp → Nat
  | .add => 0 | .min => 1 | .max => 2
def FRedOp.ofCode (n : Nat) : Option FRedOp :=
  match n with | 0 => some .add | 1 => some .min | 2 => some .max | _ => none

def WidSel.code : WidSel → Nat
  | .wid => 0 | .lane => 1 | .warp => 2 | .tcause => 3 | .tpc => 4 | .taddr => 5 | .depth => 6 | .active => 7
  | .split => 8
def WidSel.ofCode (n : Nat) : Option WidSel :=
  match n with
  | 0 => some .wid | 1 => some .lane | 2 => some .warp | 3 => some .tcause | 4 => some .tpc | 5 => some .taddr
  | 6 => some .depth | 7 => some .active | 8 => some .split | _ => none

/-- POLICY of R22: 110 and 111 are illegal. -/
def Policy.code : Policy → Nat
  | .dflt => 0 | .own => 1 | .wt => 2 | .sis => 3 | .wis => 4 | .nc => 5
def Policy.ofCode (n : Nat) : Option Policy :=
  match n with
  | 0 => some .dflt | 1 => some .own | 2 => some .wt | 3 => some .sis | 4 => some .wis | 5 => some .nc | _ => none

def Order.code : Order → Nat
  | .plain => 0 | .acq => 1 | .rel => 2 | .acqRel => 3
def Order.ofCode (n : Nat) : Order :=
  match n with | 0 => .plain | 1 => .acq | 2 => .rel | _ => .acqRel

def Scope.code : Scope → Nat
  | .thread => 0 | .warp => 1 | .block => 2 | .core => 3 | .yard => 4 | .device => 5 | .system => 6
def Scope.ofCode (n : Nat) : Option Scope :=
  match n with
  | 0 => some .thread | 1 => some .warp | 2 => some .block | 3 => some .core | 4 => some .yard | 5 => some .device
  | 6 => some .system | _ => none

def CacheClass.code : CacheClass → Nat
  | .dflt => 0 | .stream => 1 | .pinned => 2 | .reuse1 => 3 | .reuse2 => 4 | .reuse4 => 5 | .reuse8 => 6
def CacheClass.ofCode (n : Nat) : Option CacheClass :=
  match n with
  | 0 => some .dflt | 1 => some .stream | 2 => some .pinned | 3 => some .reuse1 | 4 => some .reuse2
  | 5 => some .reuse4 | 6 => some .reuse8 | _ => none

def AtomOp.code : AtomOp → Nat
  | .add => 0 | .smin => 1 | .smax => 2 | .umin => 3 | .umax => 4 | .and => 5 | .or => 6 | .xor => 7
  | .exch => 8 | .cas => 9 | .incw => 10 | .addb => 11 | .fadd => 12 | .fmin => 13 | .fmax => 14 | .hadd => 15
def AtomOp.ofCode (n : Nat) : AtomOp :=
  match n with
  | 0 => .add | 1 => .smin | 2 => .smax | 3 => .umin | 4 => .umax | 5 => .and | 6 => .or | 7 => .xor
  | 8 => .exch | 9 => .cas | 10 => .incw | 11 => .addb | 12 => .fadd | 13 => .fmin | 14 => .fmax | _ => .hadd

def FragSel.code : FragSel → Nat
  | .x => 0 | .y => 1 | .seq => 2 | .cov => 3 | .prim => 4 | .z => 5 | .tile => 6 | .face => 7
def FragSel.ofCode (n : Nat) : Option FragSel :=
  match n with
  | 0 => some .x | 1 => some .y | 2 => some .seq | 3 => some .cov | 4 => some .prim | 5 => some .z
  | 6 => some .tile | 7 => some .face | _ => none

def HitSel.code : HitSel → Nat
  | .t => 0 | .u => 1 | .v => 2 | .tri => 3 | .primid => 4 | .face => 5 | .state => 6 | .fstat => 7
  | .faddrLo => 8 | .faddrHi => 9
def HitSel.ofCode (n : Nat) : Option HitSel :=
  match n with
  | 0 => some .t | 1 => some .u | 2 => some .v | 3 => some .tri | 4 => some .primid | 5 => some .face
  | 6 => some .state | 7 => some .fstat | 8 => some .faddrLo | 9 => some .faddrHi | _ => none

def SgetSel.code : SgetSel → Nat
  | .lid => 0 | .var => 1 | .core => 2 | .part => 3 | .qleft => 4 | .chunk => 5 | .waiting => 6 | .preempt => 7
  | .role => 8 | .seed => 9 | .depth => 10 | .freereg => 11 | .flags => 12 | .args => 13 | .blin => 14
def SgetSel.ofCode (n : Nat) : Option SgetSel :=
  match n with
  | 0 => some .lid | 1 => some .var | 2 => some .core | 3 => some .part | 4 => some .qleft | 5 => some .chunk
  | 6 => some .waiting | 7 => some .preempt | 8 => some .role | 9 => some .seed | 10 => some .depth
  | 11 => some .freereg | 12 => some .flags | 13 => some .args | 14 => some .blin | _ => none

def SputSel.code : SputSel → Nat
  | .swhint => 0 | .yieldblk => 1 | .cls => 2
def SputSel.ofCode (n : Nat) : Option SputSel :=
  match n with | 0 => some .swhint | 1 => some .yieldblk | 2 => some .cls | _ => none

/-- Selectors of R216. -/
def SregSel.code : SregSel → Nat
  | .bwid => 0 | .warp => 1 | .split => 2 | .fflags => 3 | .spadsz => 4 | .localsz => 5 | .wdogleft => 6
  | .widths => 14 | .ext i => 8 + i | .m i => 16 + i | .tc i => 32 + i
def SregSel.ofCode (n : Nat) : Option SregSel :=
  match n with
  | 0 => some .bwid | 1 => some .warp | 2 => some .split | 3 => some .fflags | 4 => some .spadsz
  | 5 => some .localsz | 6 => some .wdogleft | 14 => some .widths
  | _ =>
    if 8 ≤ n && n < 14 then some (.ext (n - 8))
    else if 16 ≤ n && n < 28 then some (.m (n - 16))
    else if 32 ≤ n && n < 48 then some (.tc (n - 32))
    else none

def BarOp.code : BarOp → Nat
  | .fadd => 0 | .fmin => 1 | .fmax => 2 | .iadd => 3 | .umin => 4 | .umax => 5 | .smin => 6 | .smax => 7
  | .and => 8 | .or => 9 | .xor => 10
def BarOp.ofCode (n : Nat) : Option BarOp :=
  match n with
  | 0 => some .fadd | 1 => some .fmin | 2 => some .fmax | 3 => some .iadd | 4 => some .umin | 5 => some .umax
  | 6 => some .smin | 7 => some .smax | 8 => some .and | 9 => some .or | 10 => some .xor | _ => none

def TScope.code : TScope → Nat
  | .yard => 4 | .device => 5 | .system => 6
def TScope.ofCode (n : Nat) : Option TScope :=
  match n with | 4 => some .yard | 5 => some .device | 6 => some .system | _ => none

/-! Reading fields. -/

/-- Bits [lo + n − 1 : lo] of w. -/
def fld (w lo n : Nat) : Nat := w / 2 ^ lo % 2 ^ n

/-- An n-bit field in two's complement. -/
def sfld (w lo n : Nat) : Int :=
  if fld w lo n < 2 ^ (n - 1) then (fld w lo n : Int) else (fld w lo n : Int) - 2 ^ n

namespace W
/-- GNEG and GUARD (R28). -/
def g (w : Nat) : Guard := { neg := boolOf (fld w 52 1), n := fld w 49 3 }
def la (w : Nat) : Nat := fld w 45 4
def d (w : Nat) : Nat := fld w 37 8
/-- The 10-bit operand fields of a v register (R29). -/
def src (w lo : Nat) : Src := { reg := fld w (lo + 2) 8, lu := boolOf (fld w (lo + 1) 1), keep := boolOf (fld w lo 1) }
def a (w : Nat) : Src := src w 27
def b (w : Nat) : Src := src w 17
def c (w : Nat) : Src := src w 7
/-- The register parts alone, where last-use and keep are ignored (R38). -/
def ra (w : Nat) : Nat := fld w 29 8
def rb (w : Nat) : Nat := fld w 19 8
def rc (w : Nat) : Nat := fld w 9 8
def imm (w : Nat) : Nat := fld w 7 20
def imm32 (w : Nat) : Nat := fld w 5 32
def mod (w : Nat) : Nat := fld w 0 7
def md (w lo n : Nat) : Nat := fld w lo n
def intF (w : Nat) : IntF := { g := g w, t := IntTy.ofCode (fld w 4 3), sat := boolOf (fld w 3 1) }
def fpF (w : Nat) (t : FpTy) (la : Nat) : FpF :=
  { g := g w, la := la, t := t, rm := Rm.ofCode (fld w 2 2), ftz := boolOf (fld w 1 1), sat := boolOf (fld w 0 1) }
def cvtF (w : Nat) (fd fs : CvtFmt) : CvtF :=
  { g := g w, la := la w, fd := fd, fs := fs, rm := Rm.ofCode (fld w 2 2), ftz := boolOf (fld w 1 1),
    sat := boolOf (fld w 0 1) }
def uniF (w : Nat) : UniF := { g := g w, w32 := boolOf (fld w 0 1), s := boolOf (fld w 1 1) }
end W

/-- Lane group 0x0 (R166). -/
def buildLane0 (ix w : Nat) : Option Instr :=
  let g := W.g w
  let m := W.mod w
  match ix with
  | 0 => if m = 0 then some (.nop g) else none
  | 1 => if boolOf (fld w 48 1) then some (.braU g (fld w 42 6) (sfld w 18 24))
         else some (.bra g (fld w 42 6) (sfld w 18 24))
  | 2 => some (.brx g (fld w 42 6) (fld w 10 8) (boolOf (fld w 9 1)))
  | 3 => some (.call g (fld w 42 6) (sfld w 18 24))
  | 4 => some (.callx g (fld w 42 6) (fld w 10 8) (boolOf (fld w 9 1)))
  | 5 => some (.ret g)
  | 6 => if m = 0 then some (.land g) else none
  | 7 => if m = 0 then some (.join g (W.d w)) else none
  | 8 => if m = 0 then some (.leave g (W.d w)) else none
  | 9 => if m = 0 then some (.waitm g (W.d w)) else none
  | 10 => if m = 0 then some (.mclr g (W.d w)) else none
  | 11 => if m = 0 then some (.trap g (W.imm w)) else none
  | 12 => if m = 0 then some (.tret g) else if m = 1 then some (.tretNext g) else none
  | 13 => if m = 0 then some (.tkill g) else if m = 1 then some (.tkillW g) else none
  | 14 => if m = 0 then some (.wdog g (W.imm w)) else none
  | 15 => if m = 0 then some (.yield g) else none
  | 16 => if m = 0 then some (.exit g) else none
  | 17 => if m = 0 then some (.bkpt g (W.imm w)) else none
  | _ => none

/-- Lane group 0x1 (R188). -/
def buildLane1 (ix w : Nat) : Option Instr :=
  let f := W.intF w
  let d := W.d w
  let a := W.a w
  let b := W.b w
  let c := W.c w
  let lo := fld w 0 3
  match ix with
  | 0 => if lo = 0 then some (.add f d a b) else none
  | 1 => if lo = 0 then some (.sub f d a b) else none
  | 2 => if lo = 0 then some (.mul f d a b) else none
  | 3 => if lo = 0 then some (.mulhi f d a b) else none
  | 4 => if lo = 0 then some (.muladd f d a b c) else none
  | 5 => if fld w 2 1 = 0 then some (.sum3 f (boolOf (fld w 1 1)) (boolOf (fld w 0 1)) d a b c) else none
  | 6 => if fld w 0 1 = 0 then some (.dot4 f (boolOf (fld w 2 1)) (boolOf (fld w 1 1)) d a b c) else none
  | 7 => if lo = 0 then some (.min f d a b) else none
  | 8 => if lo = 0 then some (.max f d a b) else none
  | 9 => if lo = 0 then some (.abs f d a) else none
  | 10 => some (.logic f (LogicOp.ofCode lo) d a (if lo = 6 ∨ lo = 7 then { reg := 0, lu := false, keep := false } else b))
  | 11 => if fld w 3 4 = 0 then some (.plogic f.g (LogicOp.ofCode lo) d a.reg (if lo = 6 ∨ lo = 7 then 0 else b.reg) c.reg) else none
  | 12 => if fld w 0 2 = 0 then some (.shl f (boolOf (fld w 2 1)) d a b) else none
  | 13 => if fld w 0 2 = 0 then some (.shr f (boolOf (fld w 2 1)) d a b) else none
  | 14 => if fld w 0 1 = 0 then some (.funnel f (boolOf (fld w 2 1)) (boolOf (fld w 1 1)) d a b c) else none
  | 15 => some (.scadd f lo d a b)
  | 16 => if lo = 0 then some (.bcnt f d a) else none
  | 17 => if lo = 0 then some (.lzc f d a) else none
  | 18 => if lo = 0 then some (.bitrev f d a) else none
  | 19 => if lo = 0 then some (.xfld f d a b) else none
  | 20 => if lo = 0 then some (.ifld f d a b c) else none
  | 21 => if lo = 0 then some (.mkmask f d a b) else none
  | 22 => (CmpOp.ofCode lo).map fun o => .cmp f o d a b c.reg
  | 23 => some (.pick f lo d a b)
  | 24 => if lo = 0 then some (.mov f d a) else none
  | 25 => some (.movi f.g d (W.imm32 w))
  | 32 => if lo = 0 then some (.addVi f d a (W.imm w)) else none
  | 33 => if lo = 0 then some (.subVi f d a (W.imm w)) else none
  | 34 => if lo = 0 then some (.mulVi f d a (W.imm w)) else none
  | 39 => if lo = 0 then some (.minVi f d a (W.imm w)) else none
  | 40 => if lo = 0 then some (.maxVi f d a (W.imm w)) else none
  | 42 => some (.logicVi f (LogicOp.ofCode lo) d a (W.imm w))
  | 44 => if fld w 0 2 = 0 then some (.shlVi f (boolOf (fld w 2 1)) d a (W.imm w)) else none
  | 45 => if fld w 0 2 = 0 then some (.shrVi f (boolOf (fld w 2 1)) d a (W.imm w)) else none
  | 54 => (CmpOp.ofCode lo).map fun o => .cmpVi f o d a (W.imm w)
  | 55 => some (.pickVi f lo d a (W.imm w))
  | _ => none

/-- LA of a group 0x2 instruction: kept for the F64 forms that are (L), with their VI forms (DEDUCED, log entry 29), ignored elsewhere (R31, R40). -/
def fpLa (ix : Nat) (t : FpTy) (w : Nat) : Nat :=
  if t = .f64 ∧ ix % 32 ≠ 7 ∧ ix % 32 ≠ 8 then W.la w else 0

/-- Lane group 0x2 (R190–R192). -/
def buildLane2 (ix w : Nat) : Option Instr :=
  let g := W.g w
  let d := W.d w
  let a := W.a w
  let b := W.b w
  let c := W.c w
  if 12 ≤ ix ∧ ix ≤ 16 then
    if fld w 1 1 = 0 ∧ fld w 5 2 = 0 then
      let f : F8F := { g := g, t := if boolOf (fld w 4 1) then .e5m2x4 else .e4m3x4, rm := Rm.ofCode (fld w 2 2),
                       satf := boolOf (fld w 0 1) }
      match ix with
      | 12 => some (.f8add f d a b)
      | 13 => some (.f8mul f d a b)
      | 14 => some (.f8fma f d a b c)
      | 15 => some (.f8min f d a b)
      | _ => some (.f8max f d a b)
    else none
  else
    match FpTy.ofCode (fld w 4 3) with
    | none => none
    | some t =>
      let f := W.fpF w t (fpLa ix t w)
      match ix with
      | 0 => some (.fadd f d a b)
      | 1 => some (.fmul f d a b)
      | 2 => some (.fma f d a b c)
      | 3 => some (.fmin f d a b)
      | 4 => some (.fmax f d a b)
      | 5 => some (.fcmp g t (FCmpOp.ofCode (fld w 1 3)) (boolOf (fld w 0 1)) d a b c.reg)
      | 6 => if fld w 0 4 = 0 then some (.fclass g t d a) else none
      | 7 => some (.fabs f d a)
      | 8 => some (.fneg f d a)
      | 9 => some (.fround f d a)
      | 10 => some (.fdot2 f d a b c)
      | 11 => some (.fscale f d a b)
      | 32 => some (.faddVi f d a (W.imm w))
      | 33 => some (.fmulVi f d a (W.imm w))
      | 35 => some (.fminVi f d a (W.imm w))
      | 36 => some (.fmaxVi f d a (W.imm w))
      | 37 => some (.fcmpVi g t (FCmpOp.ofCode (fld w 1 3)) (boolOf (fld w 0 1)) d a (W.imm w))
      | _ => none

/-- Lane group 0x3 (R193–R196). -/
def buildLane3 (ix w : Nat) : Option Instr :=
  let d := W.d w
  let a := W.a w
  if ix < 8 then
    match FpTy.ofCode (fld w 4 3) with
    | none => none
    | some t =>
      let f := W.fpF w t (W.la w)
      match ix with
      | 0 => some (.recip f d a)
      | 1 => some (.rsqrt f d a)
      | 2 => some (.sqrt f d a)
      | 3 => some (.exp2 f d a)
      | 4 => some (.log2 f d a)
      | 5 => some (.sin f d a)
      | 6 => some (.cos f d a)
      | _ => some (.tanh f d a)
  else if fld w 4 3 = 0 then
    match CvtFmt.ofCode (fld w 22 5), CvtFmt.ofCode (fld w 17 5) with
    | some fd, some fs =>
      let f := W.cvtF w fd fs
      match ix with
      | 8 => some (.cvt f d a)
      | 9 => some (.cvti f d a)
      | 10 => some (.cvtf f d a)
      | 11 => some (.cvtsr f d a (W.c w))
      | 12 => some (.mxq f d a)
      | 13 => some (.mxdq f d a)
      | 14 => some (.pkcvt f d a (W.c w))
      | _ => none
    | _, _ => none
  else none

/-- The operation field of WRED and WSCAN, without EX (R199). Bits [24:22] of SRCB, as bits [26:25] of a QUADX, are only said to be 0: the word's
fate is that of a must-be-zero field without a meaning, ignored (R42; DEDUCED, log entry 28). -/
def buildRed (w : Nat) : Option RedForm :=
  match fld w 25 2 with
  | 0 => if fld w 0 4 = 0 then (RedOp.ofCode (fld w 17 4)).map fun o => .int o (IntTy.ofCode (fld w 4 3)) else none
  | 1 =>
    match FRedOp.ofCode (fld w 17 4), FpTy.ofCode (fld w 4 3) with
    | some o, some t =>
      if fld w 0 1 = 0 then some (.fp o t (Rm.ofCode (fld w 2 2)) (boolOf (fld w 1 1))) else none
    | _, _ => none
  | _ => none

/-- Lane group 0x4 (R197–R202). -/
def buildLane4 (ix w : Nat) : Option Instr :=
  let g := W.g w
  let la := W.la w
  let d := W.d w
  let a := W.a w
  let b := W.b w
  let c := W.c w
  let m := W.mod w
  match ix with
  | 0 => if fld w 5 2 = 0 then some (.xlane g la (XMode.ofCode (fld w 0 2)) (fld w 2 3) d a b) else none
  | 1 =>
    match m with
    | 0 => some (.pollMask g d a.reg)
    | 1 => some (.pollAny g d a.reg)
    | 2 => some (.pollAll g d a.reg)
    | 3 => some (.pollSame g d a.reg)
    | _ => none
  | 2 => if fld w 21 1 = 0 then (buildRed w).map fun o => .wred g la o d a else none
  | 3 => (buildRed w).map fun o => .wscan g la (boolOf (fld w 21 1)) o d a
  | 4 => if fld w 0 4 = 0 then some (.eqmask g la (IntTy.ofCode (fld w 4 3)) d a) else none
  | 5 =>
    match m with
    | 0 => some (.bytepSel g d a b c)
    | 1 => some (.bytepLut16L g d a b)
    | 2 => some (.bytepLut16H g d a b)
    | _ => none
  | 6 => if m = 0 then some (.quadx g la (fld w 17 8) d a) else none
  | 7 => if m = 0 then some (.lead g d) else none
  | 8 => if fld w 3 4 = 0 then some (.rng g la (fld w 0 3) d a) else none
  | 9 => (WidSel.ofCode m).map fun x => .widr g x d
  | 10 => if m < 2 then some (.clock g (m == 1) d) else none
  | 11 => if m = 0 then some (.ptst g d a) else if m = 1 then some (.ptstClr g d a) else none
  | _ => none

/-- The VM-A fields (R35, R36). -/
def buildMemF (w : Nat) : Option MemF :=
  match CacheClass.ofCode (fld w 12 3), Policy.ofCode (fld w 9 3), Scope.ofCode (fld w 4 3) with
  | some cl, some po, some sc =>
    some { g := W.g w, base := fld w 29 8, baseLu := boolOf (fld w 28 1), off := sfld w 15 12, cls := cl, pol := po,
           ord := Order.ofCode (fld w 7 2), scope := sc, size := fld w 1 3 }
  | _, _, _ => none

/-- The VM-B fields (R35, R36). -/
def buildAtomF (w : Nat) : Option AtomF :=
  match Policy.ofCode (fld w 9 3), Scope.ofCode (fld w 4 3) with
  | some po, some sc =>
    some { g := W.g w, op := AtomOp.ofCode (fld w 12 4), base := fld w 29 8, baseLu := boolOf (fld w 28 1),
           opb := fld w 19 8, opbLu := boolOf (fld w 18 1), pol := po, ord := Order.ofCode (fld w 7 2), scope := sc,
           size := fld w 1 3 }
  | _, _ => none

/-- Lane group 0x5 (R235–R251). -/
def buildLane5 (ix w : Nat) : Option Instr :=
  let g := W.g w
  match ix with
  | 0 => (buildMemF w).map fun f => .ld f (W.la w) (boolOf (fld w 0 1)) (W.d w)
  | 1 => if fld w 0 1 = 0 then (buildMemF w).map fun f => .st f (W.d w) (boolOf (fld w 27 1)) else none
  | 2 => if fld w 0 1 = 0 then (buildAtomF w).map fun f => .atom f (W.la w) (fld w 16 2) (W.d w) else none
  | 3 => if fld w 0 1 = 0 ∧ fld w 16 2 = 0 then (buildAtomF w).map fun f => .red f else none
  | 4 =>
    match Policy.ofCode (fld w 0 3), CacheClass.ofCode (fld w 3 3) with
    | some po, some cl => if fld w 6 1 = 0 then some (.lds g (W.la w) po cl (W.d w) (W.a w) (W.b w)) else none
    | _, _ => none
  | 5 =>
    match Policy.ofCode (fld w 0 3), CacheClass.ofCode (fld w 3 3) with
    | some po, some cl => if fld w 6 1 = 0 then some (.sst g po cl (W.a w) (W.b w) (W.c w)) else none
    | _, _ => none
  | 6 => if fld w 0 1 = 0 then (buildMemF w).map fun f => .pref f else none
  | _ => none

/-- Lane group 0x6 (R388). -/
def buildLane6 (ix w : Nat) : Option Instr :=
  let g := W.g w
  let m := W.mod w
  match ix with
  | 0 => if m = 0 then some (.ordenter g) else none
  | 1 => if m = 0 then some (.ordexit g) else none
  | 2 =>
    match fld w 4 3 with
    | 0 => if fld w 0 4 = 0 then some (.fraginWave g (W.d w)) else none
    | 1 => if fld w 0 4 = 0 then some (.fraginOpen g (W.a w)) else none
    | 2 => (FragSel.ofCode (fld w 0 4)).map fun sel => .fraginRead g sel (W.d w)
    | _ => none
  | 3 => if m = 0 then some (.fkill g) else none
  | 4 => if m = 0 then some (.covw g (W.d w) (W.a w)) else none
  | 5 => if m = 0 then some (.bary g (W.d w) (W.a w) (W.b w) (W.c w)) else none
  | _ => none

/-- Lane group 0x7 (R409). -/
def buildLane7 (ix w : Nat) : Option Instr :=
  let g := W.g w
  let d := W.d w
  let a := W.a w
  let b := W.b w
  let c := W.c w
  let m := W.mod w
  match ix with
  | 0 => if m = 0 then some (.flins g d a b c) else none
  | 1 => if m = 0 then some (.flhead g (W.la w) d a) else none
  | 2 => if m = 0 then some (.flnode g (W.la w) d a) else none
  | 3 => if m = 1 then some (.flclrInit g a b c) else if m = 0 then some (.flclrPix g a) else none
  | 4 =>
    match m with
    | 0 => some (.flbudgetSet g a b)
    | 1 => some (.flbudgetGet g d a)
    | 2 => some (.flbudgetRule g a)
    | 3 => some (.flbudgetRrd g d)
    | _ => none
  | 5 => if m = 0 then some (.flmrg g a b c) else if m = 1 then some (.flmrgOne g a b c) else none
  | _ => none

/-- Lane group 0x8 (R427). -/
def buildLane8 (ix w : Nat) : Option Instr :=
  let g := W.g w
  let d := W.d w
  let a := W.a w
  let b := W.b w
  let c := W.c w
  let m := W.mod w
  match ix with
  | 0 =>
    if fld w 5 2 = 0 then
      some (.rqinit g { cb := boolOf (fld w 0 1), cf := boolOf (fld w 1 1), op := boolOf (fld w 2 1),
                        no := boolOf (fld w 3 1), fh := boolOf (fld w 4 1) } a b)
    else none
  | 1 => if m = 0 then some (.rqstep g (W.la w) d) else none
  | 2 =>
    if fld w 4 2 = 0 then (HitSel.ofCode (fld w 0 4)).map fun x => .rqhit g (W.la w) (boolOf (fld w 6 1)) x d else none
  | 3 => if m = 0 then some (.rqcommit g) else if m = 1 then some (.rqcommitEnd g) else none
  | 4 => if m < 2 then some (.rqappend g (m == 1) d a c) else none
  | 5 => if m = 0 then some (.morton g d a b c) else none
  | 6 => if m = 0 then some (.bbox g (W.la w) d a) else none
  | 7 => if m = 0 then some (.bvpack g d a) else none
  | _ => none

/-- Uniform group 0x0 (R209–R220). S is read of UAND, UOR and UXOR as of the rest of UADD to USHR (log entry 139). -/
def buildUni0 (ix w : Nat) : Option Instr :=
  let g := W.g w
  let d := W.d w
  let a := W.ra w
  let b := W.rb w
  let m := W.mod w
  let f := W.uniF w
  match ix with
  | 0 =>
    match m with
    | 0 => some (.umov g d a)
    | 1 => some (.umovQ g d a)
    | 2 => some (.umovQ2s g d a)
    | 3 => some (.umovS2q g d a)
    | _ => none
  | 1 => if boolOf (fld w 0 1) then some (.umoviHi g d (W.imm32 w)) else some (.umovi g d (W.imm32 w))
  | 2 => if fld w 2 5 = 0 then some (.uadd f d a b) else none
  | 3 => if fld w 2 5 = 0 then some (.usub f d a b) else none
  | 4 => if fld w 3 4 = 0 then some (.umul f (boolOf (fld w 2 1)) d a b) else none
  | 5 => if fld w 2 5 = 0 then some (.uand f d a b) else none
  | 6 => if fld w 2 5 = 0 then some (.uor f d a b) else none
  | 7 => if fld w 2 5 = 0 then some (.uxor f d a b) else none
  | 8 => if fld w 2 5 = 0 then some (.ushl f d a b) else none
  | 9 => if fld w 2 5 = 0 then some (.ushr f d a b) else none
  | 10 =>
    if fld w 2 1 = 0 ∧ fld w 6 1 = 0 then (CmpOp.ofCode (fld w 3 3)).map fun o => .usetp f o d a b (W.rc w) else none
  | 11 => if fld w 3 4 = 0 then some (.usel g (fld w 0 3) d a b) else none
  | 12 =>
    if fld w 0 4 = 0 then
      some (.v2s g (fld w 5 2) (boolOf (fld w 4 1)) d (W.a w) (if fld w 5 2 = 1 then b else 0))
    else none
  | 13 => if fld w 0 4 = 0 ∧ fld w 5 2 = 0 then some (.s2v g (boolOf (fld w 4 1)) d a) else none
  | 14 =>
    (SregSel.ofCode (fld w 0 6)).map fun x => if boolOf (fld w 6 1) then .sregW g x a else .sregR g d x
  | 15 => if m = 0 then some (.tshape g d a) else none
  | 34 => if fld w 2 5 = 0 then some (.uaddUi f d a (W.imm w)) else none
  | 35 => if fld w 2 5 = 0 then some (.usubUi f d a (W.imm w)) else none
  | 36 => if fld w 3 4 = 0 then some (.umulUi f (boolOf (fld w 2 1)) d a (W.imm w)) else none
  | 37 => if fld w 2 5 = 0 then some (.uandUi f d a (W.imm w)) else none
  | 38 => if fld w 2 5 = 0 then some (.uorUi f d a (W.imm w)) else none
  | 39 => if fld w 2 5 = 0 then some (.uxorUi f d a (W.imm w)) else none
  | 40 => if fld w 2 5 = 0 then some (.ushlUi f d a (W.imm w)) else none
  | 41 => if fld w 2 5 = 0 then some (.ushrUi f d a (W.imm w)) else none
  | 42 =>
    if fld w 2 1 = 0 ∧ fld w 6 1 = 0 then (CmpOp.ofCode (fld w 3 3)).map fun o => .usetpUi f o d a (W.imm w) else none
  | 43 => if fld w 3 4 = 0 then some (.uselUi g (fld w 0 3) d a (W.imm w)) else none
  | _ => none

/-- Uniform group 0x1 (R238, R239, R248, R257–R259, R133). -/
def buildUni1 (ix w : Nat) : Option Instr :=
  let g := W.g w
  let d := W.d w
  let a := W.ra w
  let b := W.rb w
  let m := W.mod w
  match ix with
  | 0 =>
    if fld w 0 1 = 0 then
      (buildMemF w).map fun f =>
        .uld { g := g, la := W.la w, base := f.base, off := f.off, cls := f.cls, pol := f.pol, ord := f.ord,
               scope := f.scope, size := f.size } d
    else none
  | 1 => if m = 0 then some (.sdef g a b (W.rc w)) else none
  | 2 => if fld w 5 2 = 0 then (Scope.ofCode (fld w 2 3)).map fun s => .fence g (Order.ofCode (fld w 0 2)) s else none
  | 3 =>
    if fld w 5 2 = 0 then
      match TScope.ofCode (fld w 0 3) with
      | none => none
      | some s =>
        match fld w 3 2 with
        | 0 => some (.tfence g s)
        | 1 => some (.tfenceRange g s a b)
        | 2 => some (.tfenceAll g s)
        | _ => none
    else none
  | 4 =>
    if fld w 12 4 = 0 ∧ fld w 16 2 = 0 ∧ fld w 4 8 = 0 ∧ fld w 0 1 = 0 then some (.bind g (fld w 1 3) a d b) else none
  | 5 => if fld w 4 14 = 0 ∧ fld w 0 1 = 0 then some (.unbind g (fld w 1 3) a) else none
  | 6 => if m = 0 then some (.ipf g a (sfld w 11 16) (fld w 7 4 + 1)) else none
  | _ => none

/-- Every VM-B field but BASE, OPB and DATA is zero. -/
def plainUm (w : Nat) : Bool := fld w 0 18 == 0

/-- Uniform group 0x2 (R321). The OPB of CWAIT.T, which R306 requires to be 0, is a named field: a word with another value there is an
illegal encoding (log entry 27). -/
def buildUni2 (ix w : Nat) : Option Instr :=
  let g := W.g w
  let d := W.d w
  let a := W.ra w
  let b := W.rb w
  let c := W.rc w
  match ix with
  | 0 =>
    match W.mod w with
    | 0 => some (.barSync g d c a)
    | 1 => some (.barArrive g d c a)
    | 2 => if a = 63 then some (.barWait g d c) else none
    | _ => none
  | 1 => if fld w 4 3 = 0 then (BarOp.ofCode (fld w 0 4)).map fun o => .barp g o d c b a else none
  | 2 => if W.mod w = 0 then some (.bardrop g c) else none
  | 3 =>
    if fld w 9 9 = 0 ∧ fld w 1 3 = 3 ∧ fld w 0 1 = 0 then
      (Scope.ofCode (fld w 4 3)).map fun s => .arrivec g (Order.ofCode (fld w 7 2)) s a b d
    else none
  | 4 =>
    if fld w 9 3 = 0 ∧ fld w 13 5 = 0 ∧ fld w 1 3 = 3 ∧ fld w 0 1 = 0 ∧ fld w 8 1 = 0 ∧ (fld w 12 1 = 0 ∨ b = 0) then
      (Scope.ofCode (fld w 4 3)).map fun s => .cwait g (boolOf (fld w 12 1)) (boolOf (fld w 7 1)) s a b
    else none
  | 5 =>
    if fld w 9 9 = 0 ∧ fld w 0 4 = 0 ∧ fld w 8 1 = 0 then
      (Scope.ofCode (fld w 4 3)).map fun s => .cwaitb g (boolOf (fld w 7 1)) s a b
    else none
  | 6 => if plainUm w then some (.monitor g a) else none
  | 7 => if W.mod w = 0 then some (.mwait g) else none
  | 8 => if plainUm w then some (.qpush g a b d) else none
  | 9 => if plainUm w then some (.qpop g d a b) else none
  | 10 => if plainUm w then some (.park g d a b) else none
  | 11 => if plainUm w then some (.fulfil g a b d) else none
  | _ => none

/-- Uniform group 0x3 (R96, R116, R128–R131). -/
def buildUni3 (ix w : Nat) : Option Instr :=
  let g := W.g w
  let d := W.d w
  let a := W.ra w
  let m := W.mod w
  match ix with
  | 0 => if m = 0 then some (.launch g d a) else none
  | 1 => if m = 0 then some (.vsp g (W.imm w)) else none
  | 2 => (SgetSel.ofCode m).map fun x => .sget g x d
  | 3 => (SputSel.ofCode m).map fun x => .sput g x a
  | 4 => if m = 0 then some (.sleep g (W.imm w)) else none
  | 5 => if m = 0 then some (.progrd g d a) else none
  | _ => none

/-- Uniform group 0x4 (R330–R343). -/
def buildUni4 (ix w : Nat) : Option Instr :=
  let g := W.g w
  let d := W.d w
  let a := W.ra w
  let m := W.mod w
  match ix with
  | 0 => if m = 0 then some (.cpy g a) else none
  | 1 => if m = 0 then some (.cpym g a) else none
  | 2 => if m = 0 then some (.redv g a) else none
  | 3 =>
    match m with
    | 0 => some (.cguardClr g (W.rc w))
    | 1 => some (.cguardSet g (W.rc w) a)
    | 2 => some (.cguardRd g d (W.rc w))
    | _ => none
  | 4 => if m = 0 then some (.cpres g d a) else none
  | 5 => if m = 0 then some (.cabort g a) else if m = 1 then some (.cabortAll g) else none
  | _ => none

/-- Uniform group 0x5 (R373). -/
def buildUni5 (ix w : Nat) : Option Instr :=
  let g := W.g w
  let d := W.d w
  let a := W.ra w
  let b := W.rb w
  let c := W.rc w
  let m := W.mod w
  let rm := Rm.ofCode (fld w 2 2)
  let satf := boolOf (fld w 0 1)
  match ix with
  | 0 => if m < 2 then some (.tld g (m == 1) d a b c) else none
  | 1 => if m < 2 then some (.tst g (m == 1) d a b c) else none
  | 2 => if m = 0 then some (.tzero g d b) else none
  | 3 => if fld w 1 1 = 0 ∧ fld w 4 3 = 0 then some (.tcvt g rm satf d a b) else none
  | 4 =>
    match m with
    | 0 => some (.msign g c)
    | 1 => some (.msignArm g c a)
    | 2 => some (.msignRd g d c)
    | _ => none
  | 5 => if m = 0 then some (.mma g d a b) else none
  | 6 => if m = 0 then some (.mmax g d a b c) else none
  | 7 => if m = 0 then some (.aclr g a b) else none
  | 8 => if m = 0 then some (.ald g d a b) else none
  | 9 => if m = 0 then some (.ast g d a b) else none
  | 10 => if fld w 1 1 = 0 ∧ fld w 4 3 = 0 then some (.acvt g rm satf d a b) else none
  | 11 => if m = 0 then some (.eset g c a) else if m = 1 then some (.esetRd g d c) else none
  | _ => none

/-- Uniform group 0xF (R438). -/
def buildUniF (ix w : Nat) : Option Instr :=
  let g := W.g w
  if W.mod w = 0 then
    match ix with
    | 0 => some (.csrr g (W.d w) (fld w 7 10))
    | 1 => some (.csrw g (fld w 7 10) (W.ra w))
    | 2 => some (.halt g)
    | _ => none
  else none

/-- The opcodes of R40 and R41; every other one raises the illegal-instruction trap (R42). -/
def opcodeAssigned (uni : Bool) (grp ix : Nat) : Bool :=
  if uni then
    match grp with
    | 0 => ix < 16 || (34 ≤ ix && ix ≤ 43)
    | 1 => ix < 7
    | 2 => ix < 12
    | 3 => ix < 6
    | 4 => ix < 6
    | 5 => ix < 12
    | 15 => ix < 3
    | _ => false
  else
    match grp with
    | 0 => ix < 18
    | 1 => ix < 26 || [32, 33, 34, 39, 40, 42, 44, 45, 54, 55].contains ix
    | 2 => ix < 17 || [32, 33, 35, 36, 37].contains ix
    | 3 => ix < 15
    | 4 => ix < 12
    | 5 => ix < 7
    | 6 => ix < 6
    | 7 => ix < 6
    | 8 => ix < 8
    | _ => false

/-- The instruction that an assigned opcode and its fields name, before register numbers are checked. -/
def buildInstr (uni : Bool) (grp ix w : Nat) : Option Instr :=
  if uni then
    match grp with
    | 0 => buildUni0 ix w
    | 1 => buildUni1 ix w
    | 2 => buildUni2 ix w
    | 3 => buildUni3 ix w
    | 4 => buildUni4 ix w
    | 5 => buildUni5 ix w
    | 15 => buildUniF ix w
    | _ => none
  else
    match grp with
    | 0 => buildLane0 ix w
    | 1 => buildLane1 ix w
    | 2 => buildLane2 ix w
    | 3 => buildLane3 ix w
    | 4 => buildLane4 ix w
    | 5 => buildLane5 ix w
    | 6 => buildLane6 ix w
    | 7 => buildLane7 ix w
    | 8 => buildLane8 ix w
    | _ => none

/-- The instruction of a word, or its decode fault (R42, R43). -/
def decodeNat (w : Nat) : Except DecodeFault Instr :=
  let uni := boolOf (fld w 63 1)
  if opcodeAssigned uni (fld w 59 4) (fld w 53 6) then
    match buildInstr uni (fld w 59 4) (fld w 53 6) w with
    | some i => if i.wellFormed then .ok i else .error .illegalEncoding
    | none => .error .illegalEncoding
  else .error .illegalInstruction

/-- Decoding of an instruction word. -/
def decodeWord (w : DWord) : Except DecodeFault Instr := decodeNat w.toNat

/-- A little-endian number (R2). -/
def natOfBytes (l : List Byte) : Nat := l.foldr (fun b n => b.toNat + 256 * n) 0

/-- The k low bytes of n, least significant first (R2). -/
def bytesOfNat (k n : Nat) : List Byte := (List.range k).map fun i => BitVec.ofNat 8 (n / 256 ^ i)

/-- Decoding of the first eight bytes of a list, with the rest of it. -/
def decodeBytes (l : List Byte) : Except DecodeFault (Instr × List Byte) :=
  if l.length < 8 then .error .shortWord
  else (decodeNat (natOfBytes (l.take 8))).map fun i => (i, l.drop 8)

/-- The system group (R42): outside firmware context its words raise the illegal-instruction trap. -/
def isSystemWord (w : DWord) : Bool := fld w.toNat 59 5 == 31

/-- The word has the form of LAND (R149). -/
def isLandWord (w : DWord) : Bool := fld w.toNat 63 1 == 0 && fld w.toNat 53 10 == 6

/-- What the decoder reads from a word numbered as the opcode table numbers it: every instruction is one 64-bit word. -/
def decodeTableWord (nbits w : Nat) : Option Instr :=
  match decodeBytes (bytesOfNat 8 (w % 2 ^ nbits)) with
  | .ok (i, _) => some i
  | .error _ => none

/-! The encoder. -/

def Src.code (s : Src) : Nat := s.reg * 4 + natOf s.lu * 2 + natOf s.keep

/-- An integer in n-bit two's complement. -/
def sCode (i : Int) (n : Nat) : Nat := (i % (2 ^ n : Nat)).toNat

/-- SET, OPCODE, GNEG and GUARD above a 49-bit body (R28). -/
def encHead (set grp ix : Nat) (g : Guard) (body : Nat) : Nat :=
  set * 2 ^ 63 + grp * 2 ^ 59 + ix * 2 ^ 53 + natOf g.neg * 2 ^ 52 + g.n * 2 ^ 49 + body

/-- Format V with its operand fields as numbers (R28). -/
def encV (set grp ix : Nat) (g : Guard) (la d a b c mod : Nat) : Nat :=
  encHead set grp ix g (la * 2 ^ 45 + d * 2 ^ 37 + a * 2 ^ 27 + b * 2 ^ 17 + c * 2 ^ 7 + mod)

/-- Format VI (R32). -/
def encVI (set grp ix : Nat) (g : Guard) (la d a imm mod : Nat) : Nat :=
  encHead set grp ix g (la * 2 ^ 45 + d * 2 ^ 37 + a * 2 ^ 27 + imm * 2 ^ 7 + mod)

/-- Format VL or UL (R34, R38). -/
def encVL (set grp ix : Nat) (g : Guard) (d imm half : Nat) : Nat :=
  encHead set grp ix g (d * 2 ^ 37 + imm * 2 ^ 5 + half)

/-- Format VB (R37). -/
def encVB (ix : Nat) (g : Guard) (uni prio : Nat) (off : Int) (treg : Nat) (lu : Bool) : Nat :=
  encHead 0 0 ix g (uni * 2 ^ 48 + prio * 2 ^ 42 + sCode off 24 * 2 ^ 18 + treg * 2 ^ 10 + natOf lu * 2 ^ 9)

/-- Format VM-A (R35). -/
def encVMA (set grp ix : Nat) (f : MemF) (la d : Nat) (dataLu split : Bool) : Nat :=
  encHead set grp ix f.g (la * 2 ^ 45 + d * 2 ^ 37 + f.base * 2 ^ 29 + natOf f.baseLu * 2 ^ 28 + natOf dataLu * 2 ^ 27 +
    sCode f.off 12 * 2 ^ 15 + f.cls.code * 2 ^ 12 + f.pol.code * 2 ^ 9 + f.ord.code * 2 ^ 7 + f.scope.code * 2 ^ 4 +
    f.size * 2 + natOf split)

/-- Format VM-B (R35). -/
def encVMB (set grp ix : Nat) (g : Guard) (la d base : Nat) (baseLu : Bool) (opb : Nat) (opbLu : Bool)
    (status aop pol ord scope size : Nat) : Nat :=
  encHead set grp ix g (la * 2 ^ 45 + d * 2 ^ 37 + base * 2 ^ 29 + natOf baseLu * 2 ^ 28 + opb * 2 ^ 19 +
    natOf opbLu * 2 ^ 18 + status * 2 ^ 16 + aop * 2 ^ 12 + pol * 2 ^ 9 + ord * 2 ^ 7 + scope * 2 ^ 4 + size * 2)

/-- MOD of the integer class (R39). -/
def IntF.mod (f : IntF) (lo : Nat) : Nat := f.t.code * 16 + natOf f.sat * 8 + lo
/-- MOD of the floating-point class (R39). -/
def FpF.mod (f : FpF) : Nat := f.t.code * 16 + f.rm.code * 4 + natOf f.ftz * 2 + natOf f.sat
/-- MOD of the packed FP8 class (R39). -/
def F8F.mod (f : F8F) : Nat := (match f.t with | .e4m3x4 => 0 | .e5m2x4 => 16) + f.rm.code * 4 + natOf f.satf
/-- MOD of a conversion (R194). -/
def CvtF.mod (f : CvtF) : Nat := f.rm.code * 4 + natOf f.ftz * 2 + natOf f.sat
/-- SRCB of a conversion (R194). -/
def CvtF.fmts (f : CvtF) : Nat := f.fd.code * 32 + f.fs.code
/-- MOD of UADD to USHR (R211). -/
def UniF.mod (f : UniF) : Nat := natOf f.s * 2 + natOf f.w32
/-- MOD of WRED and WSCAN (R199). -/
def RedForm.mod (o : RedForm) : Nat :=
  match o with | .int _ t => t.code * 16 | .fp _ t rm ftz => t.code * 16 + rm.code * 4 + natOf ftz * 2
/-- SRCB of WRED and WSCAN, without EX (R199). -/
def RedForm.srcb (o : RedForm) : Nat := match o with | .int op _ => op.code | .fp op _ _ _ => 256 + op.code

def encI (ix : Nat) (f : IntF) (d a b c lo : Nat) : Nat := encV 0 1 ix f.g 0 d a b c (f.mod lo)
def encIVi (ix : Nat) (f : IntF) (d a imm lo : Nat) : Nat := encVI 0 1 ix f.g 0 d a imm (f.mod lo)
def encF (grp ix : Nat) (f : FpF) (d a b c : Nat) : Nat := encV 0 grp ix f.g f.la d a b c f.mod
def encFVi (ix : Nat) (f : FpF) (d a imm : Nat) : Nat := encVI 0 2 ix f.g f.la d a imm f.mod
def encF8 (ix : Nat) (f : F8F) (d a b c : Nat) : Nat := encV 0 2 ix f.g 0 d a b c f.mod
def encCvt (ix : Nat) (f : CvtF) (d a c : Nat) : Nat := encV 0 3 ix f.g f.la d a f.fmts c f.mod
def encUn (ix : Nat) (f : UniF) (d a b hi : Nat) : Nat := encV 1 0 ix f.g 0 d (a * 4) (b * 4) 0 (f.mod + hi * 4)
def encUnUi (ix : Nat) (f : UniF) (d a imm hi : Nat) : Nat := encVI 1 0 ix f.g 0 d (a * 4) imm (f.mod + hi * 4)
/-- Format U: register numbers in their operand fields (R38). -/
def encU (grp ix : Nat) (g : Guard) (d a b c mod : Nat) : Nat := encV 1 grp ix g 0 d (a * 4) (b * 4) (c * 4) mod
/-- A UM word of the sync group with no field but those given (R321). -/
def encUm (ix : Nat) (g : Guard) (d base opb : Nat) : Nat := encVMB 1 2 ix g 0 d base false opb false 0 0 0 0 0 0

/-- The word of an instruction as a number; none for an event. -/
def encodeNat (i : Instr) : Option Nat :=
  match i with
  | .nop g => some (encV 0 0 0 g 0 0 0 0 0 0)
  | .bra g pr off => some (encVB 1 g 0 pr off 0 false)
  | .braU g pr off => some (encVB 1 g 1 pr off 0 false)
  | .brx g pr r lu => some (encVB 2 g 0 pr 0 r lu)
  | .call g pr off => some (encVB 3 g 0 pr off 0 false)
  | .callx g pr r lu => some (encVB 4 g 0 pr 0 r lu)
  | .ret g => some (encVB 5 g 0 0 0 0 false)
  | .land g => some (encV 0 0 6 g 0 0 0 0 0 0)
  | .join g m => some (encV 0 0 7 g 0 m 0 0 0 0)
  | .leave g m => some (encV 0 0 8 g 0 m 0 0 0 0)
  | .waitm g m => some (encV 0 0 9 g 0 m 0 0 0 0)
  | .mclr g m => some (encV 0 0 10 g 0 m 0 0 0 0)
  | .trap g n => some (encVI 0 0 11 g 0 0 0 n 0)
  | .tret g => some (encV 0 0 12 g 0 0 0 0 0 0)
  | .tretNext g => some (encV 0 0 12 g 0 0 0 0 0 1)
  | .tkill g => some (encV 0 0 13 g 0 0 0 0 0 0)
  | .tkillW g => some (encV 0 0 13 g 0 0 0 0 0 1)
  | .wdog g n => some (encVI 0 0 14 g 0 0 0 n 0)
  | .yield g => some (encV 0 0 15 g 0 0 0 0 0 0)
  | .exit g => some (encV 0 0 16 g 0 0 0 0 0 0)
  | .bkpt g n => some (encVI 0 0 17 g 0 0 0 n 0)
  | .add f d a b => some (encI 0 f d a.code b.code 0 0)
  | .addVi f d a n => some (encIVi 32 f d a.code n 0)
  | .sub f d a b => some (encI 1 f d a.code b.code 0 0)
  | .subVi f d a n => some (encIVi 33 f d a.code n 0)
  | .mul f d a b => some (encI 2 f d a.code b.code 0 0)
  | .mulVi f d a n => some (encIVi 34 f d a.code n 0)
  | .mulhi f d a b => some (encI 3 f d a.code b.code 0 0)
  | .muladd f d a b c => some (encI 4 f d a.code b.code c.code 0)
  | .sum3 f mb mc d a b c => some (encI 5 f d a.code b.code c.code (natOf mb * 2 + natOf mc))
  | .dot4 f sa sb d a b c => some (encI 6 f d a.code b.code c.code (natOf sa * 4 + natOf sb * 2))
  | .min f d a b => some (encI 7 f d a.code b.code 0 0)
  | .minVi f d a n => some (encIVi 39 f d a.code n 0)
  | .max f d a b => some (encI 8 f d a.code b.code 0 0)
  | .maxVi f d a n => some (encIVi 40 f d a.code n 0)
  | .abs f d a => some (encI 9 f d a.code 0 0 0)
  | .logic f op d a b => some (encI 10 f d a.code b.code 0 op.code)
  | .logicVi f op d a n => some (encIVi 42 f d a.code n op.code)
  | .plogic g op d a b c => some (encV 0 1 11 g 0 d (a * 4) (b * 4) (c * 4) op.code)
  | .shl f wr d a b => some (encI 12 f d a.code b.code 0 (natOf wr * 4))
  | .shlVi f wr d a n => some (encIVi 44 f d a.code n (natOf wr * 4))
  | .shr f wr d a b => some (encI 13 f d a.code b.code 0 (natOf wr * 4))
  | .shrVi f wr d a n => some (encIVi 45 f d a.code n (natOf wr * 4))
  | .funnel f r wr d a b c => some (encI 14 f d a.code b.code c.code (natOf r * 4 + natOf wr * 2))
  | .scadd f sh d a b => some (encI 15 f d a.code b.code 0 sh)
  | .bcnt f d a => some (encI 16 f d a.code 0 0 0)
  | .lzc f d a => some (encI 17 f d a.code 0 0 0)
  | .bitrev f d a => some (encI 18 f d a.code 0 0 0)
  | .xfld f d a b => some (encI 19 f d a.code b.code 0 0)
  | .ifld f d a b c => some (encI 20 f d a.code b.code c.code 0)
  | .mkmask f d a b => some (encI 21 f d a.code b.code 0 0)
  | .cmp f op d a b c => some (encI 22 f d a.code b.code (c * 4) op.code)
  | .cmpVi f op d a n => some (encIVi 54 f d a.code n op.code)
  | .pick f p d a b => some (encI 23 f d a.code b.code 0 p)
  | .pickVi f p d a n => some (encIVi 55 f d a.code n p)
  | .mov f d a => some (encI 24 f d a.code 0 0 0)
  | .movi g d n => some (encVL 0 1 25 g d n 0)
  | .fadd f d a b => some (encF 2 0 f d a.code b.code 0)
  | .faddVi f d a n => some (encFVi 32 f d a.code n)
  | .fmul f d a b => some (encF 2 1 f d a.code b.code 0)
  | .fmulVi f d a n => some (encFVi 33 f d a.code n)
  | .fma f d a b c => some (encF 2 2 f d a.code b.code c.code)
  | .fmin f d a b => some (encF 2 3 f d a.code b.code 0)
  | .fminVi f d a n => some (encFVi 35 f d a.code n)
  | .fmax f d a b => some (encF 2 4 f d a.code b.code 0)
  | .fmaxVi f d a n => some (encFVi 36 f d a.code n)
  | .fcmp g t op u d a b c => some (encV 0 2 5 g 0 d a.code b.code (c * 4) (t.code * 16 + op.code * 2 + natOf u))
  | .fcmpVi g t op u d a n => some (encVI 0 2 37 g 0 d a.code n (t.code * 16 + op.code * 2 + natOf u))
  | .fclass g t d a => some (encV 0 2 6 g 0 d a.code 0 0 (t.code * 16))
  | .fabs f d a => some (encF 2 7 f d a.code 0 0)
  | .fneg f d a => some (encF 2 8 f d a.code 0 0)
  | .fround f d a => some (encF 2 9 f d a.code 0 0)
  | .fdot2 f d a b c => some (encF 2 10 f d a.code b.code c.code)
  | .fscale f d a b => some (encF 2 11 f d a.code b.code 0)
  | .f8add f d a b => some (encF8 12 f d a.code b.code 0)
  | .f8mul f d a b => some (encF8 13 f d a.code b.code 0)
  | .f8fma f d a b c => some (encF8 14 f d a.code b.code c.code)
  | .f8min f d a b => some (encF8 15 f d a.code b.code 0)
  | .f8max f d a b => some (encF8 16 f d a.code b.code 0)
  | .recip f d a => some (encF 3 0 f d a.code 0 0)
  | .rsqrt f d a => some (encF 3 1 f d a.code 0 0)
  | .sqrt f d a => some (encF 3 2 f d a.code 0 0)
  | .exp2 f d a => some (encF 3 3 f d a.code 0 0)
  | .log2 f d a => some (encF 3 4 f d a.code 0 0)
  | .sin f d a => some (encF 3 5 f d a.code 0 0)
  | .cos f d a => some (encF 3 6 f d a.code 0 0)
  | .tanh f d a => some (encF 3 7 f d a.code 0 0)
  | .cvt f d a => some (encCvt 8 f d a.code 0)
  | .cvti f d a => some (encCvt 9 f d a.code 0)
  | .cvtf f d a => some (encCvt 10 f d a.code 0)
  | .cvtsr f d a c => some (encCvt 11 f d a.code c.code)
  | .mxq f d a => some (encCvt 12 f d a.code 0)
  | .mxdq f d a => some (encCvt 13 f d a.code 0)
  | .pkcvt f d a b => some (encCvt 14 f d a.code b.code)
  | .xlane g la mode p d a b => some (encV 0 4 0 g la d a.code b.code 0 (p * 4 + mode.code))
  | .pollMask g d p => some (encV 0 4 1 g 0 d (p * 4) 0 0 0)
  | .pollAny g d p => some (encV 0 4 1 g 0 d (p * 4) 0 0 1)
  | .pollAll g d p => some (encV 0 4 1 g 0 d (p * 4) 0 0 2)
  | .pollSame g d p => some (encV 0 4 1 g 0 d (p * 4) 0 0 3)
  | .wred g la op d a => some (encV 0 4 2 g la d a.code op.srcb 0 op.mod)
  | .wscan g la ex op d a => some (encV 0 4 3 g la d a.code (op.srcb + natOf ex * 16) 0 op.mod)
  | .eqmask g la t d a => some (encV 0 4 4 g la d a.code 0 0 (t.code * 16))
  | .bytepSel g d a b c => some (encV 0 4 5 g 0 d a.code b.code c.code 0)
  | .bytepLut16L g d a b => some (encV 0 4 5 g 0 d a.code b.code 0 1)
  | .bytepLut16H g d a b => some (encV 0 4 5 g 0 d a.code b.code 0 2)
  | .quadx g la pat d a => some (encV 0 4 6 g la d a.code pat 0 0)
  | .lead g d => some (encV 0 4 7 g 0 d 0 0 0 0)
  | .rng g la p d a => some (encV 0 4 8 g la d a.code 0 0 p)
  | .widr g sel d => some (encV 0 4 9 g 0 d 0 0 0 sel.code)
  | .clock g dev d => some (encV 0 4 10 g 0 d 0 0 0 (natOf dev))
  | .ptst g d a => some (encV 0 4 11 g 0 d a.code 0 0 0)
  | .ptstClr g d a => some (encV 0 4 11 g 0 d a.code 0 0 1)
  | .ld f la split d => some (encVMA 0 5 0 f la d false split)
  | .st f d lu => some (encVMA 0 5 1 f 0 d lu false)
  | .atom f la stat d =>
      some (encVMB 0 5 2 f.g la d f.base f.baseLu f.opb f.opbLu stat f.op.code f.pol.code f.ord.code f.scope.code f.size)
  | .red f =>
      some (encVMB 0 5 3 f.g 0 0 f.base f.baseLu f.opb f.opbLu 0 f.op.code f.pol.code f.ord.code f.scope.code f.size)
  | .lds g la pol cls d a b => some (encV 0 5 4 g la d a.code b.code 0 (cls.code * 8 + pol.code))
  | .sst g pol cls a b c => some (encV 0 5 5 g 0 0 a.code b.code c.code (cls.code * 8 + pol.code))
  | .pref f => some (encVMA 0 5 6 f 0 0 false false)
  | .ordenter g => some (encV 0 6 0 g 0 0 0 0 0 0)
  | .ordexit g => some (encV 0 6 1 g 0 0 0 0 0 0)
  | .fraginOpen g a => some (encV 0 6 2 g 0 0 a.code 0 0 16)
  | .fraginWave g d => some (encV 0 6 2 g 0 d 0 0 0 0)
  | .fraginRead g sel d => some (encV 0 6 2 g 0 d 0 0 0 (32 + sel.code))
  | .fkill g => some (encV 0 6 3 g 0 0 0 0 0 0)
  | .covw g d a => some (encV 0 6 4 g 0 d a.code 0 0 0)
  | .bary g d a b c => some (encV 0 6 5 g 0 d a.code b.code c.code 0)
  | .flins g d a b c => some (encV 0 7 0 g 0 d a.code b.code c.code 0)
  | .flhead g la d a => some (encV 0 7 1 g la d a.code 0 0 0)
  | .flnode g la d a => some (encV 0 7 2 g la d a.code 0 0 0)
  | .flclrInit g a b c => some (encV 0 7 3 g 0 0 a.code b.code c.code 1)
  | .flclrPix g a => some (encV 0 7 3 g 0 0 a.code 0 0 0)
  | .flbudgetSet g a b => some (encV 0 7 4 g 0 0 a.code b.code 0 0)
  | .flbudgetGet g d a => some (encV 0 7 4 g 0 d a.code 0 0 1)
  | .flbudgetRule g a => some (encV 0 7 4 g 0 0 a.code 0 0 2)
  | .flbudgetRrd g d => some (encV 0 7 4 g 0 d 0 0 0 3)
  | .flmrg g a b c => some (encV 0 7 5 g 0 0 a.code b.code c.code 0)
  | .flmrgOne g a b c => some (encV 0 7 5 g 0 0 a.code b.code c.code 1)
  | .rqinit g fl a b =>
      some (encV 0 8 0 g 0 0 a.code b.code 0
        (natOf fl.fh * 16 + natOf fl.no * 8 + natOf fl.op * 4 + natOf fl.cf * 2 + natOf fl.cb))
  | .rqstep g la d => some (encV 0 8 1 g la d 0 0 0 0)
  | .rqhit g la cand sel d => some (encV 0 8 2 g la d 0 0 0 (natOf cand * 64 + sel.code))
  | .rqcommit g => some (encV 0 8 3 g 0 0 0 0 0 0)
  | .rqcommitEnd g => some (encV 0 8 3 g 0 0 0 0 0 1)
  | .rqappend g cand d a c => some (encV 0 8 4 g 0 d a.code 0 c.code (natOf cand))
  | .morton g d a b c => some (encV 0 8 5 g 0 d a.code b.code c.code 0)
  | .bbox g la d a => some (encV 0 8 6 g la d a.code 0 0 0)
  | .bvpack g d a => some (encV 0 8 7 g 0 d a.code 0 0 0)
  | .umov g d a => some (encU 0 0 g d a 0 0 0)
  | .umovQ g d a => some (encU 0 0 g d a 0 0 1)
  | .umovQ2s g d a => some (encU 0 0 g d a 0 0 2)
  | .umovS2q g d a => some (encU 0 0 g d a 0 0 3)
  | .umovi g d n => some (encVL 1 0 1 g d n 0)
  | .umoviHi g d n => some (encVL 1 0 1 g d n 1)
  | .uadd f d a b => some (encUn 2 f d a b 0)
  | .uaddUi f d a n => some (encUnUi 34 f d a n 0)
  | .usub f d a b => some (encUn 3 f d a b 0)
  | .usubUi f d a n => some (encUnUi 35 f d a n 0)
  | .umul f hi d a b => some (encUn 4 f d a b (natOf hi))
  | .umulUi f hi d a n => some (encUnUi 36 f d a n (natOf hi))
  | .uand f d a b => some (encUn 5 f d a b 0)
  | .uandUi f d a n => some (encUnUi 37 f d a n 0)
  | .uor f d a b => some (encUn 6 f d a b 0)
  | .uorUi f d a n => some (encUnUi 38 f d a n 0)
  | .uxor f d a b => some (encUn 7 f d a b 0)
  | .uxorUi f d a n => some (encUnUi 39 f d a n 0)
  | .ushl f d a b => some (encUn 8 f d a b 0)
  | .ushlUi f d a n => some (encUnUi 40 f d a n 0)
  | .ushr f d a b => some (encUn 9 f d a b 0)
  | .ushrUi f d a n => some (encUnUi 41 f d a n 0)
  | .usetp f op d a b c => some (encV 1 0 10 f.g 0 d (a * 4) (b * 4) (c * 4) (op.code * 8 + f.mod))
  | .usetpUi f op d a n => some (encVI 1 0 42 f.g 0 d (a * 4) n (op.code * 8 + f.mod))
  | .usel g q d a b => some (encU 0 11 g d a b 0 q)
  | .uselUi g q d a n => some (encVI 1 0 43 g 0 d (a * 4) n q)
  | .v2s g mode w64 d a b => some (encV 1 0 12 g 0 d a.code (b * 4) 0 (mode * 32 + natOf w64 * 16))
  | .s2v g w64 d a => some (encU 0 13 g d a 0 0 (natOf w64 * 16))
  | .sregR g d sel => some (encU 0 14 g d 0 0 0 sel.code)
  | .sregW g sel a => some (encU 0 14 g 0 a 0 0 (64 + sel.code))
  | .tshape g n a => some (encU 0 15 g n a 0 0 0)
  | .uld f d =>
      some (encVMA 1 1 0
        { g := f.g, base := f.base, baseLu := false, off := f.off, cls := f.cls, pol := f.pol, ord := f.ord,
          scope := f.scope, size := f.size } f.la d false false)
  | .sdef g a b c => some (encU 1 1 g 0 a b c 0)
  | .fence g o sc => some (encU 1 2 g 0 0 0 0 (sc.code * 4 + o.code))
  | .tfence g sc => some (encU 1 3 g 0 0 0 0 sc.code)
  | .tfenceRange g sc a b => some (encU 1 3 g 0 a b 0 (8 + sc.code))
  | .tfenceAll g sc => some (encU 1 3 g 0 0 0 0 (16 + sc.code))
  | .bind g k b lo ln => some (encVMB 1 1 4 g 0 lo b false ln false 0 0 0 0 0 k)
  | .unbind g k b => some (encVMB 1 1 5 g 0 0 b false 0 false 0 0 0 0 0 k)
  | .ipf g a d n => some (encVI 1 1 6 g 0 0 (a * 4) (sCode d 16 * 16 + (n - 1)) 0)
  | .barSync g q b a => some (encU 2 0 g q a 0 b 0)
  | .barArrive g q b a => some (encU 2 0 g q a 0 b 1)
  | .barWait g q b => some (encU 2 0 g q 63 0 b 2)
  | .barp g op d bar b a => some (encU 2 1 g d a b bar op.code)
  | .bardrop g b => some (encU 2 2 g 0 0 0 b 0)
  | .arrivec g o sc b op q => some (encVMB 1 2 3 g 0 q b false op false 0 0 0 o.code sc.code 3)
  | .cwait g tg acq sc b op => some (encVMB 1 2 4 g 0 0 b false op false 0 (natOf tg) 0 (natOf acq) sc.code 3)
  | .cwaitb g acq sc b op => some (encVMB 1 2 5 g 0 0 b false op false 0 0 0 (natOf acq) sc.code 0)
  | .monitor g b => some (encUm 6 g 0 b 0)
  | .mwait g => some (encU 2 7 g 0 0 0 0 0)
  | .qpush g b op q => some (encUm 8 g q b op)
  | .qpop g d b q => some (encUm 9 g d b q)
  | .park g d b q => some (encUm 10 g d b q)
  | .fulfil g b op q => some (encUm 11 g q b op)
  | .launch g d a => some (encU 3 0 g d a 0 0 0)
  | .vsp g k => some (encVI 1 3 1 g 0 0 0 k 0)
  | .sget g sel d => some (encU 3 2 g d 0 0 0 sel.code)
  | .sput g sel a => some (encU 3 3 g 0 a 0 0 sel.code)
  | .sleep g n => some (encVI 1 3 4 g 0 0 0 n 0)
  | .progrd g d pg => some (encU 3 5 g d pg 0 0 0)
  | .cpy g a => some (encU 4 0 g 0 a 0 0 0)
  | .cpym g a => some (encU 4 1 g 0 a 0 0 0)
  | .redv g a => some (encU 4 2 g 0 a 0 0 0)
  | .cguardClr g n => some (encU 4 3 g 0 0 0 n 0)
  | .cguardSet g n q => some (encU 4 3 g 0 q 0 n 1)
  | .cguardRd g d n => some (encU 4 3 g d 0 0 n 2)
  | .cpres g q pg => some (encU 4 4 g q pg 0 0 0)
  | .cabort g pg => some (encU 4 5 g 0 pg 0 0 0)
  | .cabortAll g => some (encU 4 5 g 0 0 0 0 1)
  | .tld g col t a b c => some (encU 5 0 g t a b c (natOf col))
  | .tst g col t a b c => some (encU 5 1 g t a b c (natOf col))
  | .tzero g t b => some (encU 5 2 g t 0 b 0 0)
  | .tcvt g rm satf d a b => some (encU 5 3 g d a b 0 (rm.code * 4 + natOf satf))
  | .msign g n => some (encU 5 4 g 0 0 0 n 0)
  | .msignArm g n a => some (encU 5 4 g 0 a 0 n 1)
  | .msignRd g d n => some (encU 5 4 g d 0 0 n 2)
  | .mma g n a b => some (encU 5 5 g n a b 0 0)
  | .mmax g n a b c => some (encU 5 6 g n a b c 0)
  | .aclr g a b => some (encU 5 7 g 0 a b 0 0)
  | .ald g t a b => some (encU 5 8 g t a b 0 0)
  | .ast g t a b => some (encU 5 9 g t a b 0 0)
  | .acvt g rm satf t a b => some (encU 5 10 g t a b 0 (rm.code * 4 + natOf satf))
  | .eset g e a => some (encU 5 11 g 0 a 0 e 0)
  | .esetRd g d e => some (encU 5 11 g d 0 0 e 1)
  | .csrr g d n => some (encV 1 15 0 g 0 d 0 0 n 0)
  | .csrw g n a => some (encV 1 15 1 g 0 0 (a * 4) 0 n 0)
  | .halt g => some (encU 15 2 g 0 0 0 0 0)
  | .sealWrite .. | .launchRecord | .heldRecordParse | .preEmpt .. | .resume .. | .cancel ..
  | .launchComplete .. | .blockAdmit | .admissionReserve | .quantumEnd .. | .blockSave .. | .blockResume ..
  | .switchRendezvous .. | .switchMove .. | .issueClassUpdate .. | .icacheFill .. | .issueSelect ..
  | .heldClear .. | .trapDeliver .. | .asyncTrap .. | .watchdog .. | .waitmRelease .. | .resultArrive ..
  | .poolGrant .. | .spill .. | .absentLineRelease .. | .commandQueueRelease .. | .guardDiscard ..
  | .copyCommandStart .. | .copyUnitDone .. | .copyFault .. | .cpymDestFault .. | .matrixCommandStart ..
  | .gangMmaStart .. | .matrixUnitDone .. | .matrixCommandComplete .. | .signatureCount .. | .matrixEccError ..
  | .rdS .. | .rdL .. | .rdN .. | .ownRq .. | .upg .. | .wrT .. | .wrN .. | .atomicReq .. | .wb ..
  | .fwd .. | .rcl .. | .inv .. | .grant .. | .homeAck .. | .l2MissFill .. | .victimForce .. | .agentFence ..
  | .hostMemrd .. | .hostMemwr .. | .bisnpAnswer .. | .hostSnoop .. | .cwaitRetest .. | .arrivecRankRelease ..
  | .monitorRegistered .. | .monitorTimeout .. | .queueSlotStep .. | .parkRetest .. | .sleepWake ..
  | .launchAnswer .. | .fragmentDelivery .. | .ordenterRelease .. | .ordexitRelease .. | .gateEntryFree ..
  | .flclrRun .. | .rayStep .. | .peerTimeout .. | .peerAck .. | .readySet .. | .coreReset .. | .overcurrent ..
  | .thermalThrottle | .thermalShutdown | .farrierWatchdogMiss | .firmwareVerify .. | .spdmRequest ..
  | .healthUpdate .. | .fatalError .. | .reset | .remoteWindowAccess .. | .farrierMailboxRequest ..
  | .haltedCoreRestart .. | .writeAcknowledged .. | .translationWalk .. => none

/-- The word of an instruction (R27); none for an event, which has no word. -/
def encode (i : Instr) : Option DWord := (encodeNat i).map (BitVec.ofNat 64)

/-- The rows of the opcode table that are events: they have no word. -/
def Instr.isEvent (i : Instr) : Bool :=
  match i with
  | .sealWrite .. | .launchRecord | .heldRecordParse | .preEmpt .. | .resume .. | .cancel ..
  | .launchComplete .. | .blockAdmit | .admissionReserve | .quantumEnd .. | .blockSave .. | .blockResume ..
  | .switchRendezvous .. | .switchMove .. | .issueClassUpdate .. | .icacheFill .. | .issueSelect ..
  | .heldClear .. | .trapDeliver .. | .asyncTrap .. | .watchdog .. | .waitmRelease .. | .resultArrive ..
  | .poolGrant .. | .spill .. | .absentLineRelease .. | .commandQueueRelease .. | .guardDiscard ..
  | .copyCommandStart .. | .copyUnitDone .. | .copyFault .. | .cpymDestFault .. | .matrixCommandStart ..
  | .gangMmaStart .. | .matrixUnitDone .. | .matrixCommandComplete .. | .signatureCount .. | .matrixEccError ..
  | .rdS .. | .rdL .. | .rdN .. | .ownRq .. | .upg .. | .wrT .. | .wrN .. | .atomicReq .. | .wb ..
  | .fwd .. | .rcl .. | .inv .. | .grant .. | .homeAck .. | .l2MissFill .. | .victimForce .. | .agentFence ..
  | .hostMemrd .. | .hostMemwr .. | .bisnpAnswer .. | .hostSnoop .. | .cwaitRetest .. | .arrivecRankRelease ..
  | .monitorRegistered .. | .monitorTimeout .. | .queueSlotStep .. | .parkRetest .. | .sleepWake ..
  | .launchAnswer .. | .fragmentDelivery .. | .ordenterRelease .. | .ordexitRelease .. | .gateEntryFree ..
  | .flclrRun .. | .rayStep .. | .peerTimeout .. | .peerAck .. | .readySet .. | .coreReset .. | .overcurrent ..
  | .thermalThrottle | .thermalShutdown | .farrierWatchdogMiss | .firmwareVerify .. | .spdmRequest ..
  | .healthUpdate .. | .fatalError .. | .reset | .remoteWindowAccess .. | .farrierMailboxRequest ..
  | .haltedCoreRestart .. | .writeAcknowledged .. | .translationWalk .. => true
  | _ => false

end Sys2Proof
end

