-- ==== Sys2Proof/Config.lean ====
section
/-! DEFINITION. Values that the manual leaves open: constants with no body, each applied to the model's counter of free
values or to what the value depends on. Nothing can be proved of any of them but that it is some value. -/

namespace Sys2Proof.Config

/-- A byte read from a peer over the fabric: the draw and the byte's address there (R227, R431); log entry 9. -/
opaque freePeerByte : Nat → Nat → Byte

/-- An element of a tile read under a shape other than the one it was written under: the shape it was written under, the
shape it is read under, the tile, the element index and the number of the draw (R352); log entry 10. -/
opaque freeTileElem : Nat → Nat → Nat → Nat → Nat → Nat

/-- A waiter-link byte of a queue header, which the device keeps in a form of its own (R312); log entry 11. -/
opaque freeWaiterByte : Nat → Byte

/-- A byte of the sections of a save area (R125); log entry 12. -/
opaque freeSaveByte : Nat → Byte

/-- The form in which a dump gives the values of the CSRs, core by core, the frontiers of the resident warps and the error logs, each as numbers
(R442); log entry 13. -/
opaque freeDumpForm : List Nat → List Nat → List Nat → List Byte

/-- The value at which the health counters saturate (R441); log entry 14. -/
opaque counterMax : Nat

/-- The digest of a vendor key is held in the fuses (R439); log entry 71. -/
opaque vendorKey : Nat → Bool

/-- The measurement register that the n-th measurement since reset extends (R440); log entry 45. -/
opaque measRegister : Nat → Nat

/-- An SPDM signature over a nonce and the measurements (R440); log entry 14. -/
opaque freeSignature : Nat → List (Nat × Nat) → Nat

/-- How far a core's DEV clock is off at a cycle; taken modulo 33 ns (R202); log entry 15. -/
opaque devSkew : Nat → Nat → Nat

/-- The value of a host line that the host owned and had to give back inside one step of the model (R280); log entry 16. -/
opaque freeHostWord : Nat → Word

/-- An accumulator element that a gang MMA writes when the four cores hold operands that do not fit together (R367); log
entry 20. -/
opaque freeAcc : Nat → Word

/-- The set of its slice into which a line falls (R262); log entry 21. -/
opaque l2Set : Nat → Nat

/-- The set into which a line falls in an L1 of a number of sets (R228); log entry 21. -/
opaque l1Set : Nat → Nat → Nat

end Sys2Proof.Config
end

