-- ==== Sys2Proof/Machine/Tbl.lean ====
section
/-! DEFINITION. Sparse tables as lists with strictly rising keys, and the bytes of a memory as such a table in canonical
form: no entry equals what an unlisted address reads as. -/

namespace Sys2Proof.Machine

/-- The entry of a key, if there is one. -/
def tget {α : Type} (t : Tbl α) (k : Nat) : Option α :=
  match t with
  | [] => none
  | (j, x) :: r => if j = k then some x else tget r k

/-- The entry of a key, or a value that absence stands for. -/
def tgetD {α : Type} (t : Tbl α) (k : Nat) (d : α) : α := (tget t k).getD d

/-- Sets the entry of a key. -/
def tset {α : Type} (t : Tbl α) (k : Nat) (x : α) : Tbl α :=
  match t with
  | [] => [(k, x)]
  | (j, y) :: r => if k < j then (k, x) :: (j, y) :: r else if k = j then (k, x) :: r else (j, y) :: tset r k x

/-- Removes the entry of a key. -/
def tdel {α : Type} (t : Tbl α) (k : Nat) : Tbl α := t.filter fun e => e.1 != k

/-- Changes the entry of a key, if there is one. -/
def tmod {α : Type} (t : Tbl α) (k : Nat) (f : α → α) : Tbl α :=
  match t with
  | [] => []
  | (j, x) :: r => if j = k then (j, f x) :: r else (j, x) :: tmod r k f

/-- Sets an entry, or removes it if the value is what absence stands for. -/
def tput {α : Type} [DecidableEq α] (t : Tbl α) (k : Nat) (x d : α) : Tbl α := if x = d then tdel t k else tset t k x

/-- Keys strictly rising. -/
def tsorted {α : Type} (t : Tbl α) : Bool :=
  match t with
  | [] => true
  | (j, _) :: r => (match r with | [] => true | (k, _) :: _ => j < k) && tsorted r

/-- A byte of a memory; an unlisted address reads 0x00. -/
def mget (m : Tbl Byte) (a : Nat) : Byte := tgetD m a 0

/-- Writes a byte, keeping the canonical form. -/
def mput (m : Tbl Byte) (a : Nat) (b : Byte) : Tbl Byte := tput m a b 0

/-- The canonical form of a memory: addresses strictly rising, no entry equal to the unlisted 0x00. -/
def Memory.wf (m : Tbl Byte) : Bool := tsorted m && m.all fun e => e.2 != 0

/-- n bytes from address a up. -/
def mgetBytes (m : Tbl Byte) (a n : Nat) : List Byte := (List.range n).map fun i => mget m (a + i)

/-- Writes bytes from address a up. -/
def mputBytes (m : Tbl Byte) (a : Nat) (l : List Byte) : Tbl Byte :=
  match l with
  | [] => m
  | b :: r => mputBytes (mput m a b) (a + 1) r

/-- The little-endian number of n bytes at a (R2). -/
def mgetNat (m : Tbl Byte) (a n : Nat) : Nat :=
  match n with
  | 0 => 0
  | k + 1 => (mget m a).toNat + 256 * mgetNat m (a + 1) k

/-- Writes the n low bytes of x, least significant first (R2). -/
def mputNat (m : Tbl Byte) (a n x : Nat) : Tbl Byte :=
  match n with
  | 0 => m
  | k + 1 => mputNat (mput m a (BitVec.ofNat 8 x)) (a + 1) k (x / 256)

/-- The first element that satisfies p, replaced by its image. -/
def modFirst {α : Type} (l : List α) (p : α → Bool) (f : α → α) : List α :=
  match l with
  | [] => []
  | x :: r => if p x then f x :: r else x :: modFirst r p f

/-- Inserts into a list sorted by a key, after equal keys. -/
def insertBy {α : Type} (key : α → Nat) (x : α) (l : List α) : List α :=
  match l with
  | [] => [x]
  | y :: r => if key x < key y then x :: y :: r else y :: insertBy key x r

/-- A list sorted by a key, stable. -/
def sortBy {α : Type} (key : α → Nat) (l : List α) : List α := l.foldl (fun acc x => insertBy key x acc) []

/-- The lanes of a mask, ascending. -/
def lanesOf (m : LaneMask) : List Nat := (List.range 32).filter fun l => m.getLsbD l

/-- The mask of one lane. -/
def laneBit (l : Nat) : LaneMask := BitVec.ofNat 32 (2 ^ l)

/-- The mask of a list of lanes. -/
def maskOf (ls : List Nat) : LaneMask := ls.foldl (fun m l => m ||| laneBit l) 0

/-- The lowest lane of a mask, 0 for the empty mask. -/
def lowLane (m : LaneMask) : Nat := (lanesOf m).headD 0

/-- Bits [lo + n − 1 : lo] of a number (R49). -/
def nbits (x lo n : Nat) : Nat := x / 2 ^ lo % 2 ^ n

/-- x with its bits [lo + n − 1 : lo] replaced by v. -/
def setBits (x lo n v : Nat) : Nat := x - nbits x lo n * 2 ^ lo + v % 2 ^ n * 2 ^ lo

end Sys2Proof.Machine
end

