-- ==== Sys2Proof/Machine/State.lean ====
section
/-! DEFINITION. The machine's state as plain data: everything that the manual says the device holds, the messages in
flight between its engines, and the model's own fields (schedule, focus, cur, fresh, nextId: log entries 1 and 2). -/

namespace Sys2Proof.Machine

/-! ## Lanes, frontier entries, results (chapters 5 and 6) -/

/-- One lane of one v register: 32 bits and the poison tag (R168). -/
structure LaneVal where
  bits   : Word
  poison : Bool
  deriving DecidableEq, Repr

/-- The value of an unmapped register or of an unwritten lane of a fresh mapping (R171, R173). -/
def LaneVal.unmapped : LaneVal := { bits := 0xFFFFFFFF, poison := true }

/-- The line of a monitor or of an object (R306, R308), named by its space: device line number, or a block's scratchpad line. -/
inductive MonLine
  | device (line : Nat)
  | scratch (block line : Nat)
  deriving DecidableEq, Repr

/-- What a parked split waits on (R20); absent lines are named by block and line, a pool request by its registers and how many of them its
instruction reads unmapped (R173); a CABORT waits for the commands that it stops (R343). -/
inductive Wait
  | absentLine (lines : List (Nat × Nat))
  | ordenter
  | ordexit (cmds : Tbl (List Nat))
  | listOrder
  | barrier (bar phase : Nat) (qd : Option Nat) (sd : Option Nat) (consume : Bool)
  | waitm (m : Nat)
  | counter (addr : DWord) (thr : Option Nat) (acq : Bool) (scope : Scope)
  | rank (addr : DWord) (acq : Bool) (scope : Scope) (qd : Nat)
  | byteCount (addr : DWord) (phase : Nat) (acq : Bool) (scope : Scope)
  | monitor
  | queueLink (link sd qd : Nat)
  | queuePush (slot : DWord) (index : Nat) (item : DWord) (qd : Nat)
  | queuePop (slot : DWord) (index cap : Nat) (sd qd : Nat)
  | future (addr : DWord) (sd qd : Nat)
  | pool (regs : List Nat) (unread : Nat)
  | commandQueue
  | switchPoint (k : Nat)
  | sleep (until_ : Nat)
  | launch (id : Nat)
  | registration (line : Nat)
  | fragment (d : Nat)
  | detAccess (op : Nat)
  | member (block : Nat)
  | abort (cmds : List Nat)
  deriving DecidableEq, Repr

/-- The STATE of a frontier entry (R135, R137). `issuing` marks the entry of the instruction that a step executes, and `asked` one whose next
instruction the partition looks at before it chooses; both last within a step. -/
inductive EntryState
  | ready
  | asked
  | issuing
  | pending
  | parked (w : Wait)
  | trap
  deriving DecidableEq, Repr

/-- Where an outstanding result goes: a v register, a p register or an s register. -/
inductive Dest
  | v (r : Nat)
  | p (r : Nat)
  | s (r : Nat)
  deriving DecidableEq, Repr

/-- A frontier entry (R135). `need` and `rel` say what a pending entry waits for: registers with outstanding results, and how
far earlier accesses must have got before a ready one issues (relMet; log entry 18). `eid` names it for the model's events; `heldUntil` is the cc at which HELD clears (R143). -/
structure Entry where
  eid       : Nat
  pc        : DWord
  prio      : Nat
  mask      : LaneMask
  st        : EntryState
  age       : Nat := 0
  held      : Bool := false
  heldUntil : Nat := 0
  late      : Bool := false
  need      : List Dest := []
  rel       : Nat := 0
  deriving DecidableEq, Repr

/-- A lane's trap registers and call depth are per lane (R146, R155): TCAUSE by its fields, TPC, TADDR. -/
structure LaneTrap where
  inh    : Bool := false
  tprio  : Nat := 0
  detail : Nat := 0
  cause  : Nat := 0
  tpc    : DWord := 0
  taddr  : DWord := 0
  deriving DecidableEq, Repr

/-- One lane of an outstanding result: instructions left in its lookahead window, the destinations that a write in the
window reached, and the values once they have arrived (R185). -/
structure LaneRes where
  left : Nat
  kept : List Nat := []
  vals : Option (List (DWord × Bool)) := none
  deriving DecidableEq, Repr

/-- An outstanding result (R10, R137, R185): its destinations, its lanes, the values on their way by lane, and whether all of
them have come together; for a uniform load `uld` is its PC and PRIO, at which a poisoned value traps (R207). -/
structure Result where
  id    : Nat
  dests : List Dest
  lanes : Tbl LaneRes
  data  : Tbl (List (DWord × Bool)) := []
  done  : Bool := false
  uld   : Option (DWord × Nat) := none
  deriving DecidableEq, Repr

/-- Last-use bits held back while lanes are parked at the instruction (R172): the registers and the lanes still there. -/
structure HeldFree where
  pc    : DWord
  regs  : List Nat
  lanes : LaneMask
  deriving DecidableEq, Repr

/-- A warp's monitor (R308). -/
structure Monitor where
  line  : MonLine
  armed : Bool
  fired : Bool
  armedAt : Nat
  deriving DecidableEq, Repr

/-- Lanes that left a barrier wait through an asynchronous trap (R303). -/
structure TrapMark where
  bar   : Nat
  phase : Nat
  pc    : DWord
  lanes : LaneMask
  deriving DecidableEq, Repr

/-- A pending signature: the cv it is for and the commands that must end first (R361). -/
structure PendingSig where
  cv   : Nat
  cmds : List Nat
  deriving DecidableEq, Repr

/-- The fragment that a lane holds, with its Gate entry (R376, R379, R380). -/
structure Frag where
  pass  : Nat
  x     : Nat
  y     : Nat
  seq   : Nat
  cov   : Nat
  prim  : Nat
  z     : Word
  tile  : Nat
  front : Bool
  gate  : Nat
  closed : Bool := false
  deriving DecidableEq, Repr

/-- A candidate or committed hit of a ray query (R415): exact values as fractions. -/
structure Hit where
  t      : ℚ
  u      : ℚ
  v      : ℚ
  tri    : Nat
  primid : Word
  front  : Bool
  deriving DecidableEq, Repr

/-- STATE of a ray query (R415, R420). -/
inductive QueryState | active | candidate | ended
  deriving DecidableEq, Repr

/-- A lane's ray query (R415): `depth` is SP, `comm` and `cand` the committed hit and the candidate; TCUR is the t of the first, or
TMAX. The stack lies in the local window. -/
structure RayQuery where
  st     : QueryState
  flags  : RayFlags
  ptr    : DWord
  ray    : List Word
  poison : Bool
  bytes  : Nat
  nodeOff : Nat
  nodeCnt : Nat
  triOff : Nat
  triCnt : Nat
  depth  : Nat := 1
  cand   : Option Hit := none
  comm   : Option Hit := none
  overflow : Bool := false
  fault  : Bool := false
  fstat  : Nat := 0
  faddr  : DWord := 0
  deriving DecidableEq, Repr

/-- A resident or saved warp: its registers, frontier and control state. `left` are the entries, as they were parked, of lanes
released from a wait in this cc (R167). `due` are the flags of instructions that still run, with the cc of their
retirement (R72). -/
structure Warp where
  block   : Nat
  idx     : Nat
  core    : Nat
  part    : Nat
  slot    : Nat
  role    : Nat := 0
  floor   : Nat
  ceil    : Nat
  live    : LaneMask
  entries : List Entry
  v       : Tbl LaneVal := []
  mapped  : BitVec 256 := 0
  spilled : BitVec 256 := 0
  pv      : Tbl LaneMask := []
  pp      : Tbl LaneMask := []
  s       : Tbl DWord := []
  q       : BitVec 8 := 0
  m       : Tbl LaneMask := []
  fflags  : Word := 0
  due     : List (Nat × Word) := []
  depth   : Tbl Nat := []
  traps   : Tbl LaneTrap := []
  budget  : Option Nat := none
  age     : Nat := 0
  lastIssue : Nat := 0
  cls     : Nat := 1
  clsHold : Bool := false
  monitor : Option Monitor := none
  tokens  : Tbl Nat := []
  marks   : List TrapMark := []
  sigs    : List PendingSig := []
  results : List Result := []
  heldFrees : List HeldFree := []
  left    : List Entry := []
  frags   : Tbl Frag := []
  inside  : LaneMask := 0
  orderCmds : Tbl (List Nat) := []
  rays    : Tbl RayQuery := []
  opened  : Tbl Nat := []
  tileDue : Bool := false
  deriving DecidableEq, Repr

/-! ## Barriers, opens, blocks (chapters 1, 9, 10) -/

/-- OPENR of a word: the holders of open reads (R229, R268). -/
abbrev OpenR := List Nat

/-- OPENW and OPENR of a word. -/
structure WordOpens where
  w : Option Nat := none
  r : OpenR := []
  deriving DecidableEq, Repr

/-- How a phase of a barrier ended: the warp whose arrival completed it, the result of its payloads, the last arriver of
deterministic mode (R299, R301). -/
structure PhaseEnd where
  lastBy : Option Nat
  res : DWord
  det : Option Nat
  deriving DecidableEq, Repr

/-- A named barrier (R293). `out` are the warps not in COUNTED, `dropped` those marked to leave it, `contrib` the payloads of
the warps that have arrived, `vals` those of each warp's lanes, `ends` how earlier phases ended. -/
structure Barrier where
  phase   : Word := 0
  out     : List Nat := []
  arrived : Tbl LaneMask := []
  count   : Option Nat := none
  named   : Bool := false
  op      : Option BarOp := none
  contrib : Tbl DWord := []
  vals    : Tbl (Tbl DWord) := []
  dropped : List Nat := []
  ends    : Tbl PhaseEnd := []
  deriving DecidableEq, Repr

/-- An asynchronous trap waiting to be taken (R159). -/
structure AsyncTrap where
  warp   : Nat
  lanes  : LaneMask
  cause  : Nat
  detail : Nat
  addr   : DWord
  deriving DecidableEq, Repr

/-- The life of a block: `rendezvous` says that every live thread stands at one switch point (R116). -/
inductive BlockState
  | running
  | saved
  | rendezvous (k : Nat)
  deriving DecidableEq, Repr

/-- A byte-count barrier object (R332): the block in whose region it lies, and its offset there. -/
structure Obj where
  block : Nat
  off   : Nat
  deriving DecidableEq, Repr

/-- A resident or saved block (R26, R100–R106). `absent` are its absent lines, each with the objects of the copies that write
it (R13, R14); `named` the guard slots that it has named (R339) and `gwrites` those that it has written with CGUARD (R345), `saveReq` a
save that has been requested, `stopping` one that has begun, so that its warps do not issue (R123), `quantumEnd` the device time in ns at which its quantum ends (R121), `savedAt` the cc of
its save. -/
structure Block where
  launch  : Nat
  lin     : Nat
  wid     : DWord
  core    : Nat
  base    : Nat
  variant : Nat
  warps   : Nat
  st      : BlockState := .running
  saveReq : Bool := false
  stopping : Bool := false
  slot    : Nat
  spadBase : Nat
  spadBytes : Nat
  spad    : Tbl Byte := []
  absent  : Tbl (List Obj) := []
  opens   : Tbl WordOpens := []
  named   : List Nat := []
  gwrites : List Nat := []
  bars    : Tbl Barrier := []
  exited  : List Nat := []
  hint    : Nat := 0
  quantumEnd : Nat
  mrule   : Nat := 256
  mact    : Bool := false
  flBinding : Option DWord := none
  flPixels : Nat := 0
  flPages  : Nat := 0
  pass    : Option Nat := none
  firmware : Bool := false
  savedAt : Nat := 0
  deriving DecidableEq, Repr

/-! ## Launches (chapter 4) -/

structure Variant where
  pcOff   : Nat
  floor   : Nat
  ceil    : Nat
  spad    : Nat
  deriving DecidableEq, Repr
structure Role where
  pcOff   : Nat
  variant : Nat
  warps   : Nat
  deriving DecidableEq, Repr

/-- An entry record as the dispatch engine reads it (R53, R54). -/
structure EntryRec where
  codeBase   : DWord
  warps      : Nat
  vmask      : Nat
  carryRegs  : Nat
  carryBound : Nat
  switchCnt  : Nat
  roleCnt    : Nat
  variants   : List Variant
  roles      : List Role
  switch     : List (List Nat)
  deriving DecidableEq, Repr

/-- An accepted launch: the record's fields (R88, R89), its entry record, its identity and its progress. `waitSince` is the device time in ns at which
its earliest unadmitted unit began to count as waiting, `openSince` that at which the launch last became eligible (R110, R118). -/
structure Launch where
  id        : Nat
  asid      : Nat
  depth     : Nat
  entry     : EntryRec
  args      : DWord
  seed      : DWord
  flags     : Word
  wdog      : Nat
  widths    : List Nat
  extents   : List Nat
  gangField : Nat
  localSize : Nat
  localSlots : Nat
  localBase : DWord
  argCount  : Nat
  argStride : Nat
  chunkMin  : Nat
  pinQuota  : Nat
  complete  : DWord
  queues    : List DWord
  nextUnit  : Nat := 0
  admitted  : List Nat := []
  done      : Nat := 0
  next      : Nat := 0
  dealt     : Tbl Nat := []
  slotsUsed : List Nat := []
  pinned    : Nat := 0
  held      : Bool := false
  cancelled : Bool := false
  lost      : Bool := false
  firmware  : Bool := false
  refresh   : Bool := false
  waitSince : Nat := 0
  openSince : Nat := 0
  deriving DecidableEq, Repr

/-- A place in the waiting order (R99, R121): the blocks of a launch that have not been admitted, or a saved unit. -/
inductive WaitItem
  | fresh (launch : Nat)
  | saved (blocks : List Nat) (since : Nat)
  deriving DecidableEq, Repr

/-! ## Memory system (chapters 8 and 9) -/

/-- STATE of a word in an L1 (R229). -/
inductive L1St | invalid | shared | leased | owned
  deriving DecidableEq, Repr
structure L1Word where
  st     : L1St
  dirty  : Bool
  val    : Word
  poison : Bool
  deriving DecidableEq, Repr

/-- An L1 line: its lease expiry, the virtual line of its last fill (log entry 19), its words, and the opens of other agents that fills and forwards carried (R229, R281). -/
structure L1Line where
  expiry : Nat := 0
  vline  : Nat := 0
  words  : Tbl L1Word := []
  others : Tbl WordOpens := []
  deriving DecidableEq, Repr

/-- A cached translation (R256): who holds it (core n is n, yard y is 1000 + y), its tag and its leaf entry. -/
structure TlbEntry where
  holder : Nat
  asid   : Nat
  va     : Nat
  size   : Nat
  pte    : DWord
  deriving DecidableEq, Repr

/-- A walk-cache entry of a yard (R256): a non-leaf entry of a level, for the virtual addresses that it covers. -/
structure WalkEntry where
  yard : Nat
  asid : Nat
  lv   : Nat
  va   : Nat
  pte  : DWord
  deriving DecidableEq, Repr

/-- A bound region (R258). -/
structure Binding where
  block : Nat
  word  : DWord
  size  : Nat
  start : Nat
  len   : Nat
  deriving DecidableEq, Repr

/-- What an LSU operation is. -/
inductive OpKind | load | store | atomic | red | prefetch
  deriving DecidableEq, Repr

/-- A lane's access inside one sector: byte offset in the sector, bytes, pointer, and the data of a store or the operands of an
atomic. -/
structure LaneAcc where
  lane : Nat
  off  : Nat
  size : Nat
  vaddr : DWord
  x    : Nat
  y    : Nat
  deriving DecidableEq, Repr

/-- The progress of one sector's part of an operation. -/
inductive PartState | unsent | sent (req : Nat) | done
  deriving DecidableEq, Repr
/-- The part of an operation in one sector; `hit` are lanes that the L1 could serve and that wait because they share a word with one that it could
not (R153, R227). -/
structure OpPart where
  sec   : Nat
  words : BitVec 32
  accs  : List LaneAcc
  st    : PartState := .unsent
  hit   : LaneMask := 0
  deriving DecidableEq, Repr

/-- Where an LSU operation goes: device memory, coherent or uncached host memory, a remote peer, the scratchpad of a member of block lin's gang that
has still to start (R109). -/
inductive MemSpace | device | host | hostUncached | remote (peer : Nat) | member (lin : Nat)
  deriving DecidableEq, Repr

/-- An access that the load-store engine has accepted and not completed (R10, R231). `raced` are the lanes whose race check
failed in deterministic mode, with the word's address (R283); `hold` keeps an operation while its instruction issues, and `sentAt` is
the device time at which it began, in ns. -/
structure LsuOp where
  id     : Nat
  launch : Nat
  warp   : Nat
  lanes  : LaneMask
  kind   : OpKind
  space  : MemSpace
  pol    : Policy
  cls    : CacheClass
  aop    : AtomOp := .add
  ord    : Order
  scope  : Scope
  checked : Bool
  det    : Bool
  region : Option (Nat × Nat) := none
  result : Option Nat := none
  parts  : List OpPart
  raced  : Tbl DWord := []
  hold   : Bool := false
  sentAt : Nat := 0
  deriving DecidableEq, Repr

/-- The requests of R270. -/
inductive ReqKind | rdS | rdL | rdN | ownRq | upg | wrT | wrN | at | wb
  deriving DecidableEq, Repr

/-- A request at a home (R270–R274) for words of one sector, or of one line for a write-back. With `op` 0 one that is no write-back is the
request of an engine or of the host that then acts on the words itself (log entry 17), and `served` says that the home has served it. `arrived` is
its place in the arrival order once it has reached the slice, `waiting` the agents whose answers are outstanding (true: to an invalidation), `prep` the words recalled,
forwarded or invalidated for it in the round that has just ended; `op` is the operation that it serves. -/
structure Req where
  id     : Nat
  agent  : Nat
  kind   : ReqKind
  line   : Nat
  words  : BitVec 32
  op     : Nat := 0
  data   : Tbl Word := []
  poison : BitVec 32 := 0
  clean  : BitVec 32 := 0
  arrived : Option Nat := none
  waiting : List (Nat × Bool) := []
  prep   : BitVec 32 := 0
  converted : Bool := false
  served : Bool := false
  deriving DecidableEq, Repr

inductive SnoopKind | fwd | rcl | inv
  deriving DecidableEq, Repr

/-- A forward, recall or invalidation on its way to an agent (R271); a forward carries the opens of other agents (R281). -/
structure Snoop where
  id    : Nat
  kind  : SnoopKind
  agent : Nat
  line  : Nat
  words : BitVec 32
  txn   : Nat
  sentAt : Nat
  others : Tbl WordOpens := []
  deriving DecidableEq, Repr

/-- A grant or fill on its way to an agent (R271): the words of the request, those granted as owned, those registered and
those leased among them and the sector's other words, the data, the opens it carries, an atomic's old values and statuses
by lane. -/
structure Reply where
  id     : Nat
  agent  : Nat
  req    : Nat
  op     : Nat
  line   : Nat
  words  : BitVec 32
  own    : BitVec 32 := 0
  share  : BitVec 32 := 0
  lease  : BitVec 32 := 0
  data   : Tbl Word := []
  poison : BitVec 32 := 0
  others : Tbl WordOpens := []
  raced  : LaneMask := 0
  olds   : Tbl (DWord × Bool × Bool) := []
  deriving DecidableEq, Repr

/-- An answer on its way to the home (R271, R277, R278). -/
structure HomeAns where
  id    : Nat
  agent : Nat
  txn   : Nat
  kind  : SnoopKind
  line  : Nat
  words : BitVec 32
  data  : Tbl Word
  poison : BitVec 32
  inWb  : Bool := false
  crossed : Bool := false
  gone  : Bool := false
  deriving DecidableEq, Repr

/-- The acknowledgement of a performed write (R272), with the merged words where the writer keeps or allocates a registered
copy (R230). -/
structure WriteAck where
  id    : Nat
  agent : Nat
  line  : Nat
  req   : Nat
  op    : Nat
  kind  : ReqKind
  words : BitVec 32 := 0
  share : BitVec 32 := 0
  data  : Tbl Word := []
  poison : BitVec 32 := 0
  deriving DecidableEq, Repr

inductive Msg
  | req (r : Req)
  | snoop (r : Snoop)
  | reply (r : Reply)
  | answer (r : HomeAns)
  | ack (r : WriteAck)
  deriving DecidableEq, Repr

/-- A line in a write-back buffer (R274, R278). -/
structure WbLine where
  req   : Nat
  line  : Nat
  words : BitVec 32
  data  : Tbl Word
  poison : BitVec 32
  deriving DecidableEq, Repr

/-- An owner record (R267); `answered` is STATE O. -/
structure OwnRec where
  agent    : Nat
  answered : Bool
  wmask    : BitVec 32
  deriving DecidableEq, Repr

/-- HOST of a line (R267). -/
inductive HostCopy | none | shared | owned
  deriving DecidableEq, Repr

/-- The directory state of a line (R267, R268). -/
structure DirLine where
  sharers : BitVec 216 := 0
  owners  : List OwnRec := []
  host    : HostCopy := .none
  opens   : Tbl WordOpens := []
  busy    : Tbl Nat := []
  deriving DecidableEq, Repr

/-- A line of the L2 (R262, R264, R266). -/
structure L2Line where
  valid  : BitVec 4
  dirty  : BitVec 4
  data   : Tbl Word
  poison : BitVec 32
  cls    : CacheClass
  count  : Nat
  pinner : Nat
  lru    : Nat
  deriving DecidableEq, Repr

/-- A line miss in flight (R263): the sectors still to arrive, and the cc since which it waits for them or for a way (R275). -/
structure Miss where
  line    : Nat
  sectors : BitVec 4
  since   : Nat
  deriving DecidableEq, Repr

/-! ## Commands (chapters 1, 11, 12, 14, 15) -/

/-- A footprint region (R17, R326, R355): space code (16 for a tile register), whose address space or region it lies in, first
line, lines. -/
structure Footprint where
  space : Nat
  owner : Nat
  first : Nat
  lines : Nat
  write : Bool
  deriving DecidableEq, Repr

/-- A copy request record (R323). -/
structure CopyReq where
  src   : DWord
  dst   : DWord
  c0    : Nat
  c1    : Nat
  c2    : Nat
  ctrl  : Nat
  s1    : Int
  s2    : Int
  d1    : Int
  d2    : Int
  done  : DWord
  issue : Nat
  mask  : Nat
  foot  : List (DWord × Nat × Nat)
  deriving DecidableEq, Repr

/-- The state of a command: in the queue, started, stopped at a save, faulted (R16, R334, R335, R370). -/
inductive CmdState | queued | running | stopped | faulted
  deriving DecidableEq, Repr

inductive CopyKind | cpy | cpym | redv
  deriving DecidableEq, Repr

/-- What a command is. -/
inductive CmdKind
  | copy (k : CopyKind) (r : CopyReq)
  | tld (col : Bool) (t : Nat) (ptr : DWord) (pitch : Nat)
  | tst (col : Bool) (t : Nat) (ptr : DWord) (pitch : Nat)
  | tzero (t : Nat)
  | tcvt (rm : Rm) (satf : Bool) (d a : Nat)
  | mma (x : Bool) (cv : Nat) (desc : DWord) (kw : DWord)
  | aclr (aw : DWord)
  | ald (t : Nat) (aw : DWord)
  | ast (t : Nat) (aw : DWord)
  | acvt (rm : Rm) (satf : Bool) (t : Nat) (aw : DWord)
  | flclr (init : Bool) (area : DWord) (pixels pages rule : Nat) (list : List Nat)
  | rqstep (lanes : LaneMask) (result : Nat)
  deriving DecidableEq, Repr

/-- Where a 4-byte word that a command reads lies: device memory, host memory, a region, its core's accumulator store. -/
inductive WordPlace
  | dev (w : Nat)
  | host (w : Nat)
  | spad (block w : Nat)
  | acc (w : Nat)
  deriving DecidableEq, Repr

/-- A command in a core's queue (R16–R18); `warp` is its warp's index in the block. `guard` is the slot that it still waits
on, `gout` the slot that it has still to resolve, `cleared` the scratchpad lines whose presence bits it cleared (block, line),
`words` the device words that it has opened, `held` the words that its units read in parts (R19), `shapes` and `scales` what it captured at acceptance (R366), `phase` the cv
phase that it captured, `gang` the quadrant of a gang MMA (R367), `err` the cause that its object is to receive (R356), `sent` its outstanding put, `since` the device
time in ns at which it last got on. `refused` says that the test of its guard has found it false (R338), `aborting` says that it ends once its put is answered
(R343); of a CPYM `marks` are the watermarks of its destinations and `bufs` the units read from NEXT on (R337). `gslot` is the guard slot that the
command names (R345). -/
structure Cmd where
  id     : Nat
  block  : Nat
  warp   : Nat
  kind   : CmdKind
  st     : CmdState := .queued
  feet   : List Footprint := []
  guard  : Option Nat := none
  gout   : Option Nat := none
  pg     : Option Nat := none
  done   : DWord := 0
  next   : Nat := 0
  units  : Nat := 0
  fcause : Nat := 0
  failMask : Nat := 0
  cleared : List (Nat × Nat) := []
  words  : List Nat := []
  held   : List (WordPlace × Word) := []
  shapes : Tbl Word := []
  scales : Tbl Word := []
  phase  : Option Nat := none
  gang   : Option Nat := none
  err    : Option Nat := none
  sent   : Option Nat := none
  since  : Nat := 0
  refused : Bool := false
  aborting : Bool := false
  marks  : Tbl Nat := []
  bufs   : List (List Byte) := []
  gslot  : Option Nat := none
  deriving DecidableEq, Repr

/-- A tile register group: the shape under which it was written and its elements and scales by index (R349, R352). -/
structure Tile where
  shape : Option Nat := none
  elems : Tbl Nat := []
  scales : Tbl Nat := []
  deriving DecidableEq, Repr

/-- A convergence register cvN (R349, R361); `sigCc` and `sigN` are the cc of the last signature counted and how many that cc
counted, `oldPhase` PHASE before them, `oldSigned` the signatures counted before them (R374). -/
structure Cv where
  expect : Nat := 0
  signed : Nat := 0
  phase  : Nat := 0
  gang   : Bool := false
  quad   : Nat := 0
  sigCc  : Nat := 0
  sigN   : Nat := 0
  oldPhase : Nat := 0
  oldSigned : Nat := 0
  deriving DecidableEq, Repr

/-- A claim of a block on a matrix register (R350): kind 0 tile, 1 region, 2 cv, 3 e. -/
structure Claim where
  kind  : Nat
  n     : Nat
  block : Nat
  deriving DecidableEq, Repr

/-- An entry of the Gate (R380). Once its lane is `leaving`, `cmds` and `ops` are the commands and accesses it stays for (R382). -/
structure GateEntry where
  pass   : Nat
  member : Nat
  warp   : Nat
  lane   : Nat
  x      : Nat
  y      : Nat
  cov    : Nat
  seq    : Nat
  inside : Bool
  cmds   : List Nat := []
  ops    : List Nat := []
  leaving : Bool := false
  deriving DecidableEq, Repr

/-- An entry of the Stall table (R317). -/
structure StallEntry where
  addr : DWord
  asid : Nat
  block : Nat
  deriving DecidableEq, Repr

/-- One core: its load-store, sync, copy, matrix, raster-and-order, fragment-list and ray engines. `slotCc` is the cc of the last CGUARD write of a
guard slot (R340). `old` keeps the values that tc
and e registers (16 + n) had before the cc of their last write, with that cc (R221, R374). -/
structure Core where
  split   : Nat := 0
  l1      : Tbl L1Line := []
  opens   : Tbl WordOpens := []
  wbuf    : List WbLine := []
  ops     : List LsuOp := []
  bindings : List Binding := []
  cmds    : List Cmd := []
  guards  : Tbl Nat := []
  slotCc  : Tbl Nat := []
  tiles   : Tbl Tile := []
  tcs     : Tbl Word := []
  es      : Tbl Word := []
  cvs     : Tbl Cv := []
  acc     : Tbl Word := []
  claims  : List Claim := []
  gate    : Tbl GateEntry := []
  stall   : List StallEntry := []
  old     : Tbl (Nat × Word) := []
  trapVec : DWord := 0
  halted  : Bool := false
  needsReset : Bool := false
  deriving DecidableEq, Repr

/-- The choice of a partition whose instruction has still to issue (R140, R142): the warp, its pipe and the cc that it keeps it, and the other
eligible warps. -/
structure Turn where
  warp   : Nat
  pipe   : Nat
  keep   : Nat
  others : List Nat
  issued : Bool := false
  deriving DecidableEq, Repr

/-- One issue partition: its instruction-fetch freeze (address space, line, and the warp and PC that missed), its escape holder and whether that has been above its floor (R180), its choice, the warps that
are to age when this cc has passed (R142), its pipes' acceptance times and what issued this cc. -/
structure Part where
  frozen : Option (Nat × Nat × Nat × Nat) := none
  holder : Option Nat := none
  above  : Bool := false
  turn   : Option Turn := none
  aging  : List Nat := []
  pipes  : Tbl Nat := []
  issuedAt : Nat := 0
  issued : List (Nat × Nat) := []
  deriving DecidableEq, Repr

/-- A line of a yard's instruction cache (R132), tagged by address space and virtual line. -/
structure ILine where
  yard  : Nat
  asid  : Nat
  vline : Nat
  words : List DWord
  deriving DecidableEq, Repr

/-! ## Render passes (chapter 13) -/

/-- A member of a render pass (R377, R378): its block and number; whether the tile that it has reached is `tile` (TILES_X ×
TILES_Y once the pass has ended for it), the fragments still to be delivered in it (in immediate mode, all), whether every
fragment of the tile has been delivered, the warps to which status 2 is due, and those that received it and have not waved
since. -/
structure PassMember where
  block : Nat
  num   : Nat
  tile  : Nat := 0
  queue : List Frag := []
  fin   : Bool := false
  owed  : List Nat := []
  got   : List Nat := []
  deriving DecidableEq, Repr

/-- A render pass (R374–R379): its record's bytes, its gang, and the primitives that the rasteriser keeps, by number, as their
words. -/
structure Pass where
  ptr     : DWord
  launch  : Nat
  gang    : Nat
  rec_    : List Nat
  size    : Nat
  members : List PassMember := []
  prims   : List (Nat × List Word) := []
  started : Bool := false
  deriving DecidableEq, Repr

/-! ## Host, fabric and management (chapter 16) -/

/-- A request of the host that the device holds until it can be served (R280, R435): a read of a line, or a write of enabled bytes. -/
inductive HostReq
  | rd (kind : HostRead) (line : Nat)
  | wr (pa : Nat) (data : List (Option Byte))
  deriving DecidableEq, Repr

/-- What the Farrier is told, newest first. -/
inductive Notice
  | unhandledTrap (launch cause : Nat) (pc : DWord)
  | completionFault (launch : Nat) (ptr : DWord)
  | agentFenced (agent line : Nat)
  | openLost (line words : Nat)
  | memoryError (pa : Nat)
  | contextLost (launch : Nat)
  | listFault (addr : DWord)
  | matrixError (core : Nat)
  | endOfLife (part : Nat)
  | firmware (image : Nat) (accepted : Bool)
  | fatal (cause pa agent : Nat)
  | copyFault (core : Nat) (cause : Nat)
  | primitive (launch : Nat) (addr : DWord)
  deriving DecidableEq, Repr

/-- A put on its way to a peer, or a reduction there with its OP of R336, sent at a device time in ns. -/
structure PeerPut where
  id   : Nat
  peer : Nat
  core : Nat
  op   : Nat
  cmd  : Nat
  off  : Nat
  data : List Byte
  red  : Option Nat := none
  sentAt : Nat
  deriving DecidableEq, Repr

/-- The mailbox answers and reports that the host can read (R440, R441). -/
inductive Report
  | health (counters : List Nat)
  | measured (nonce : Nat) (measurements : Tbl Nat) (signature : Nat)
  | refused
  | done
  deriving DecidableEq, Repr

/-- Why the machine stops for good. -/
inductive Fault
  /-- Compute-die power has been removed at 125 °C (R432): the manual describes no further step but a module reset. Raised by
  step itself in a state whose `powered` is false. Safe. -/
  | poweredOff
  deriving DecidableEq, Repr

/-- Why an instruction has no next state here. -/
inductive Refusal
  /-- The instruction has no meaning in the model yet; the string is its mnemonic. Raised by the dispatch alone. Safe. -/
  | notModelled (mnemonic : String)
  /-- A program instruction was given to exec in a state in which no split has been selected for issue, so it has no lanes
  to act on. `step` never does this. Safe. -/
  | noIssuingSplit
  deriving DecidableEq, Repr

/-- The machine. `retests` are the warps of which a parked split is to re-read its object, with the line that was touched (R306, R307, R317). -/
structure State where
  -- the model's own fields
  schedule : List (Nat × Instr) := []
  focus    : Nat := 0
  cur      : Option (Nat × Nat) := none
  fresh    : Nat := 0
  nextId   : Nat := 1
  -- time and power
  now      : Nat := 0
  devTicks : Nat := 0
  clockMhz : Nat := 1200
  powered  : Bool := true
  stalled  : Bool := false
  powerCap : Nat := 3600
  hwCapped : Bool := false
  restarts : Nat := 0
  -- memory
  dram     : Tbl Byte := []
  dramPoison : List Nat := []
  l2       : Tbl L2Line := []
  dir      : Tbl DirLine := []
  misses   : List Miss := []
  net      : List Msg := []
  hostMem  : Tbl Byte := []
  hostCached : Tbl (List Nat) := []
  hostHeld : List HostReq := []
  fenced   : List Nat := []
  waiters  : Tbl (List (Nat × Nat)) := []
  tlb      : List TlbEntry := []
  wcache   : List WalkEntry := []
  accepts  : Tbl (Nat × Nat) := []
  -- cores, partitions, yards
  cores    : Tbl Core := []
  parts    : Tbl Part := []
  icache   : List ILine := []
  -- blocks and warps
  blocks   : Tbl Block := []
  warps    : Tbl Warp := []
  asyncs   : List AsyncTrap := []
  retests  : List (Nat × MonLine) := []
  savedWarps : Tbl (List Warp) := []
  savedCmds : Tbl (List Cmd) := []
  savedCore : Tbl Core := []
  -- dispatch
  launchCtr : Nat := 1
  launches : Tbl Launch := []
  waiting  : List WaitItem := []
  reserved : Option (WaitItem × Nat) := none
  reservedCores : List Nat := []
  sealedSlots : List Nat := []
  heldSlots : List Nat := []
  childQueue : List (Nat × Nat × DWord × List Byte) := []
  saveUsed : Tbl (Nat × Nat) := []
  -- passes
  passes   : Tbl Pass := []
  -- CSRs (R436)
  ready    : DWord := 0
  svcMode  : Nat := 1
  lwinBase : DWord := 0
  ctxBase  : DWord := 0
  ctxSize  : DWord := 0
  asTable  : DWord := 0
  wdogMax  : Nat := 0
  quantumUs : Nat := 1000
  leaseLen : Nat := 4096
  swpol    : Nat := 0x1003
  spadSplit : Nat := 0
  fabTimeout : Nat := 10000
  dumpBase : DWord := 0
  slotAsid : Tbl Nat := []
  -- host, fabric, management
  peers    : Tbl PeerAddr := []
  windowBase : Nat := 0
  windowBytes : Nat := 0
  puts     : List PeerPut := []
  hostLinkRefused : Bool := false
  image    : Option (Nat × Nat) := none
  fusedVersion : Nat := 0
  revoked  : List Nat := []
  measurements : Tbl Nat := []
  stages   : Nat := 0
  health   : List Nat := []
  uncorrected : Nat := 0
  badPas   : List Nat := []
  eol      : List Nat := []
  reports  : List Report := []
  notices  : List Notice := []
  fatal    : Bool := false
  events   : Tbl Nat := []
  deriving DecidableEq, Repr

/-- The machine right after reset (R434): every CSR at its reset value, memory zeroed, caches and directory empty, nothing
resident, and the fields of log entries 1 to 7 at the values they name. -/
def State.reset : State := {}

end Sys2Proof.Machine
end

