-- ==== Sys2Proof/Machine/Access.lean ====
section
/-! DEFINITION. Reading and changing the parts of State: cores, partitions, warps, blocks, launches, event counters. -/

namespace Sys2Proof.Machine

/-- Adds an element to the end of a list if the condition holds. -/
def pushIf {α : Type} (c : Bool) (l : List α) (x : α) : List α := if c then l ++ [x] else l

/-- The events that the device counts. -/
inductive Ev
  | scheduleSlip | race | laneKilled | doubleTrap | unhandledTrap | uniformityViolation | lookaheadViolation | unmappedRead
  | registerRange | poolStall | bindOverflow | stallOverflow | openLost | poisonDrop | primitiveDropped | fragmentLost
  | loftExhausted | insertDropped | budgetRefused | eccCorrected | listFault | copyFault | rayFault
  deriving DecidableEq, Repr

/-- The key of an event's counter. -/
def Ev.code : Ev → Nat
  | .scheduleSlip => 0
  | .race => 1
  | .laneKilled => 2
  | .doubleTrap => 3
  | .unhandledTrap => 4
  | .uniformityViolation => 5
  | .lookaheadViolation => 6
  | .unmappedRead => 7
  | .registerRange => 8
  | .poolStall => 9
  | .bindOverflow => 10
  | .stallOverflow => 11
  | .openLost => 12
  | .poisonDrop => 13
  | .primitiveDropped => 14
  | .fragmentLost => 15
  | .loftExhausted => 16
  | .insertDropped => 17
  | .budgetRefused => 18
  | .eccCorrected => 19
  | .listFault => 20
  | .copyFault => 21
  | .rayFault => 22

/-- Event(name), n times (R49). -/
def State.count (s : State) (e : Ev) (n : Nat) : State :=
  if n = 0 then s else { s with events := tset s.events e.code (tgetD s.events e.code 0 + n) }

/-- A new name for a message, an entry, an operation or a command. -/
def State.newId (s : State) : State × Nat := ({ s with nextId := s.nextId + 1 }, s.nextId)

/-- The next draw of free values. -/
def State.nextDraw (s : State) : State := { s with fresh := s.fresh + 1 }

/-- The space of an operation that a part of this model performs: device memory or the yard's scratchpads. -/
def MemSpace.here (x : MemSpace) : Bool := match x with | .device | .member _ => true | _ => false

/-- The number of the next free value. -/
def State.draw (s : State) : State × Nat := ({ s with fresh := s.fresh + 1 }, s.fresh)

/-- No instruction is chosen to execute next. -/
def State.idle (s : State) : State := { s with cur := none }

/-- Tells the Farrier something. -/
def State.tell (s : State) (n : Notice) : State := { s with notices := n :: s.notices }

def State.core (s : State) (n : Nat) : Core := tgetD s.cores n {}
def State.setCore (s : State) (n : Nat) (c : Core) : State := { s with cores := tset s.cores n c }
def State.modCore (s : State) (n : Nat) (f : Core → Core) : State := s.setCore n (f (s.core n))

/-- Partitions are keyed 16 × core + partition. -/
def State.part (s : State) (k : Nat) : Part := tgetD s.parts k {}
def State.modPart (s : State) (k : Nat) (f : Part → Part) : State := { s with parts := tset s.parts k (f (s.part k)) }

def State.warp? (s : State) (g : Nat) : Option Warp := tget s.warps g
def State.setWarp (s : State) (g : Nat) (w : Warp) : State := { s with warps := tset s.warps g w }
def State.modWarp (s : State) (g : Nat) (f : Warp → Warp) : State := { s with warps := tmod s.warps g f }

def State.block? (s : State) (b : Nat) : Option Block := tget s.blocks b
def State.modBlock (s : State) (b : Nat) (f : Block → Block) : State := { s with blocks := tmod s.blocks b f }

def State.launch? (s : State) (l : Nat) : Option Launch := tget s.launches l
def State.modLaunch (s : State) (l : Nat) (f : Launch → Launch) : State := { s with launches := tmod s.launches l f }

/-- The core, the partition of the device and the requester number (R229) of a warp. -/
def coreOf (g : Nat) : Nat := g / 256
def partOf (g : Nat) : Nat := g / 16
def reqOf (g : Nat) : Nat := g % 256

/-- The block and the launch of a warp. -/
def State.blockOf (s : State) (g : Nat) : Option Block := (s.warp? g).bind fun w => s.block? w.block
def State.launchOf (s : State) (g : Nat) : Option Launch := (s.blockOf g).bind fun b => s.launch? b.launch

/-- The launch flags (R89). -/
def Launch.det (l : Launch) : Bool := l.flags.getLsbD 0
def Launch.strictUni (l : Launch) : Bool := l.flags.getLsbD 1
def Launch.debug (l : Launch) : Bool := l.flags.getLsbD 2
def Launch.codeRefresh (l : Launch) : Bool := l.flags.getLsbD 3
def Launch.gangCompat (l : Launch) : Bool := l.flags.getLsbD 4
def Launch.batch (l : Launch) : Bool := l.flags.getLsbD 5
def Launch.yardGang (l : Launch) : Bool := l.flags.getLsbD 6

/-- A flag of a warp's launch; false where there is none. -/
def State.flagOf (s : State) (g : Nat) (f : Launch → Bool) : Bool := ((s.launchOf g).map f).getD false

/-- The address-space id of a warp's launch (R252). -/
def State.asidOf (s : State) (g : Nat) : Nat := ((s.launchOf g).map Launch.asid).getD 0

/-- The warps of a block that are resident, with their keys. -/
def State.warpsOf (s : State) (b : Nat) : Tbl Warp := s.warps.filter fun e => e.2.block == b

/-- Folds a state change over a list. -/
def forEach {α : Type} (l : List α) (s : State) (f : State → α → State) : State := l.foldl f s

/-- Device time in ns (R202). A tick is 1/2,162,160 ns, so that a cc at every multiple of 75 MHz up to 1,200 MHz is a whole number
of ticks (R432, R433). -/
def State.devNs (s : State) : Nat := s.devTicks / 2162160

/-- Time passes: cc, and device time at the present clock rate (R433). -/
def State.pass (s : State) (dt : Nat) : State :=
  { s with now := s.now + dt, devTicks := s.devTicks + dt * (28828800 / (s.clockMhz / 75)) }

/-- WID of a lane (R24): the block's WID with field 0 = 32 × warp + lane. -/
def laneWid (b : Block) (w : Warp) (lane : Nat) : DWord := b.wid + BitVec.ofNat 64 (32 * w.idx + lane)

/-- The members of a block's gang (R25): linear indices that agree above the gang field. -/
def gangSize (l : Launch) : Nat :=
  if l.gangField = 0 then 1 else ((l.extents.drop 1).take l.gangField).foldl (· * ·) 1
def gangOf (l : Launch) (lin : Nat) : Nat := lin / gangSize l
/-- Number of a block within its gang (R362). -/
def memberOf (l : Launch) (lin : Nat) : Nat := lin % gangSize l

/-- A resident block of the same launch and gang on a core (R15), which only a YARD_GANG launch has (R108). -/
def State.memberOn (s : State) (launch lin core : Nat) : Option (Nat × Block) :=
  (s.launch? launch).bind fun l => if !l.yardGang then none else
    s.blocks.find? fun e => e.2.core == core && e.2.launch == launch && gangOf l e.2.lin == gangOf l lin
      && (match e.2.st with | .saved => false | _ => true)
def State.gangBlockOn (s : State) (b : Block) (core : Nat) : Option (Nat × Block) := s.memberOn b.launch b.lin core

/-- Under GANG_COMPAT a member of a block's gang has still to start, or is saved (R109). -/
def State.membersWait (s : State) (launch lin : Nat) : Bool :=
  match s.launch? launch with
  | none => false
  | some l =>
    l.gangCompat && (List.range (gangSize l)).any fun i =>
      let n := gangOf l lin * gangSize l + i
      !l.admitted.contains n || s.blocks.any fun e => e.2.launch == launch && e.2.lin == n
        && (match e.2.st with | .saved => true | _ => false)
def State.gangWaits (s : State) (b : Block) : Bool := s.membersWait b.launch b.lin

/-- The value that a tc register (n) or an e register (16 + n) is captured with at an acceptance (R221, R374). -/
def Core.captured (c : Core) (now n : Nat) (x : Word) : Word :=
  match tget c.old n with
  | some o => if o.1 = now then o.2 else x
  | none => x
/-- Keeps the value of such a register before the first write of a cc. -/
def Core.keepOld (c : Core) (now n : Nat) (x : Word) : Core :=
  match tget c.old n with
  | some o => if o.1 = now then c else { c with old := tset c.old n (now, x) }
  | none => { c with old := tset c.old n (now, x) }

end Sys2Proof.Machine
end

