-- ==== Sys2Proof/Machine/Regs.lean ====
section
/-! DEFINITION. The registers of a warp: v with its renaming and poison, p, s, q, m and FFLAGS (R168–R173, R206, R71). -/

namespace Sys2Proof.Machine

/-- Key of lane l of v register r. -/
def vkey (r l : Nat) : Nat := 32 * r + l

/-- v register r is mapped. -/
def Warp.isMapped (w : Warp) (r : Nat) : Bool := w.mapped.getLsbD r
def Warp.isSpilled (w : Warp) (r : Nat) : Bool := w.spilled.getLsbD r

/-- V.Read (R49, R169, R173): an unmapped register reads as all ones with poison. -/
def Warp.vget (w : Warp) (r l : Nat) : LaneVal :=
  if w.isMapped r then tgetD w.v (vkey r l) .unmapped else .unmapped

/-- Sets bit r of a register set. -/
def setBit256 (m : BitVec 256) (r : Nat) (b : Bool) : BitVec 256 :=
  if b then m ||| BitVec.ofNat 256 (2 ^ r) else m &&& ~~~ BitVec.ofNat 256 (2 ^ r)

/-- The values with register r mapped: a fresh mapping reads as poison in every lane (R171). -/
def Warp.vbase (w : Warp) (r : Nat) : Tbl LaneVal := if w.isMapped r then w.v else w.v.filter fun e => e.1 / 32 != r

/-- Maps a register, if it is below the ceiling (R169, R171). -/
def Warp.vmap (w : Warp) (r : Nat) : Warp :=
  if r < w.ceil then { w with v := w.vbase r, mapped := setBit256 w.mapped r true } else w

/-- V.Write of one lane (R169, R171): maps the register on its first write; nothing at or above the ceiling. -/
def Warp.vput (w : Warp) (r l : Nat) (x : LaneVal) : Warp :=
  if r < w.ceil then
    { w with v := tput (w.vbase r) (vkey r l) x .unmapped
             mapped := setBit256 w.mapped r true }
  else w

/-- Frees a v register: its physical register or its spill record (R172). -/
def Warp.vfree (w : Warp) (r : Nat) : Warp :=
  { w with v := w.v.filter fun e => e.1 / 32 != r
           mapped := setBit256 w.mapped r false
           spilled := setBit256 w.spilled r false }

/-- The warp's count: its mapped v registers (R170). -/
def Warp.vcount (w : Warp) : Nat := ((List.range 256).filter fun r => w.mapped.getLsbD r).length

/-- p register r in lane l: value and poison; p7 reads true and unpoisoned (R168). -/
def Warp.pget (w : Warp) (r l : Nat) : Bool := r == 7 || (tgetD w.pv r 0).getLsbD l
def Warp.ppoison (w : Warp) (r l : Nat) : Bool := r != 7 && (tgetD w.pp r 0).getLsbD l

/-- Sets bit l of a lane mask. -/
def setLane (m : LaneMask) (l : Nat) (b : Bool) : LaneMask := if b then m ||| laneBit l else m &&& ~~~ laneBit l

/-- Writes p register r in lane l; a write to p7 is discarded. -/
def Warp.pput (w : Warp) (r l : Nat) (b poison : Bool) : Warp :=
  if r < 7 then
    { w with pv := tput w.pv r (setLane (tgetD w.pv r 0) l b) 0
             pp := tput w.pp r (setLane (tgetD w.pp r 0) l poison) 0 }
  else w

/-- S.Read and S.Write: s63 reads zero and discards writes (R206). -/
def Warp.sget (w : Warp) (r : Nat) : DWord := if r = 63 then 0 else tgetD w.s r 0
def Warp.sput (w : Warp) (r : Nat) (x : DWord) : Warp := if r < 63 then { w with s := tput w.s r x 0 } else w

/-- q registers: q7 reads true and discards writes (R206). -/
def Warp.qget (w : Warp) (r : Nat) : Bool := r == 7 || w.q.getLsbD r
def Warp.qput (w : Warp) (r : Nat) (b : Bool) : Warp :=
  if r < 7 then { w with q := if b then w.q ||| BitVec.ofNat 8 (2 ^ r) else w.q &&& ~~~ BitVec.ofNat 8 (2 ^ r) } else w

/-- m registers (R151). -/
def Warp.mget (w : Warp) (r : Nat) : LaneMask := tgetD w.m r 0
def Warp.mput (w : Warp) (r : Nat) (x : LaneMask) : Warp := { w with m := tput w.m r x 0 }

/-- A value of n registers from r up in lane l, little-endian, poisoned if any of them is. -/
def Warp.vgetN (w : Warp) (r n l : Nat) : Nat × Bool :=
  match n with
  | 0 => (0, false)
  | k + 1 =>
    let a := w.vget r l
    let b := Warp.vgetN w (r + 1) k l
    (a.bits.toNat + 2 ^ 32 * b.1, a.poison || b.2)

/-- Writes a value over n registers from r up in lane l. -/
def Warp.vputN (w : Warp) (r n l : Nat) (x : Nat) (poison : Bool) : Warp :=
  match n with
  | 0 => w
  | k + 1 => Warp.vputN (w.vput r l { bits := BitVec.ofNat 32 x, poison := poison }) (r + 1) k l (x / 2 ^ 32) poison

/-- Poisons lane l of register r, keeping its bits (R176, Guard): a fresh mapping is poisoned as it stands. -/
def Warp.vpoison (w : Warp) (r l : Nat) : Warp := w.vput r l { bits := (w.vget r l).bits, poison := true }
def Warp.ppoisonAt (w : Warp) (r l : Nat) : Warp := w.pput r l (w.pget r l) true

/-- Sets sticky flags of one element position (R71). -/
def flagBits (nv dz ovf unf nx : Bool) (p : Nat) : Word :=
  BitVec.ofNat 32 ((if nv then 2 ^ p else 0) + (if dz then 2 ^ (4 + p) else 0) + (if ovf then 2 ^ (8 + p) else 0)
    + (if unf then 2 ^ (12 + p) else 0) + (if nx then 2 ^ (16 + p) else 0))

/-- n consecutive registers from r. -/
def regsFrom (r n : Nat) : List Nat := (List.range n).map fun i => r + i

end Sys2Proof.Machine
end

