-- ==== Sys2Proof/Machine/Frontier.lean ====
section
/-! DEFINITION. A warp's frontier: entries, merging, releases of parked splits, and the warp's monitor (R135–R138, R308). -/

namespace Sys2Proof.Machine

/-- May take part in a merge (R138). -/
def Entry.mergeable (e : Entry) : Bool :=
  match e.st with
  | .ready => true
  | .pending => !e.late
  | _ => false

/-- Two entries with one PC, merged (R138). -/
def Entry.merge (a b : Entry) : Entry :=
  { eid := a.eid, pc := a.pc, prio := max a.prio b.prio, mask := a.mask ||| b.mask
    st := if a.st == .pending || b.st == .pending then .pending else .ready
    age := max a.age b.age, need := a.need ++ b.need, rel := max a.rel b.rel }

/-- Adds an entry to a list in which no two entries can merge. -/
def addEntry (l : List Entry) (e : Entry) : List Entry :=
  match l with
  | [] => [e]
  | x :: r => if x.mergeable && e.mergeable && x.pc == e.pc then x.merge e :: r else x :: addEntry r e

/-- Merges all entries of a frontier (R138). -/
def mergeAll (l : List Entry) : List Entry := l.foldl addEntry []

def Warp.merge (w : Warp) : Warp := { w with entries := mergeAll w.entries }

def Warp.entry? (w : Warp) (eid : Nat) : Option Entry := w.entries.find? fun e => e.eid == eid

def Warp.modEntry (w : Warp) (eid : Nat) (f : Entry → Entry) : Warp :=
  { w with entries := modFirst w.entries (fun e => e.eid == eid) f }

/-- Takes lanes out of every entry (R135: no entry is empty). -/
def Warp.dropLanes (w : Warp) (m : LaneMask) : Warp :=
  { w with entries := (w.entries.map fun e => { e with mask := e.mask &&& ~~~ m }).filter fun e => e.mask != 0 }

/-- A parked split becomes ready at a PC (R20, R137). -/
def Warp.release (w : Warp) (eid : Nat) (pc : DWord) : Warp :=
  (w.modEntry eid fun e => { e with st := .ready, pc := pc }).merge

/-- A wait that a trap in the cc of its release undoes (R167): neither a hand-off (R314), nor an access that has been performed. -/
def EntryState.rewaits (st : EntryState) : Bool :=
  match st with
  | .parked (.queueLink _ _ _) | .parked (.detAccess _) => false
  | .parked _ => true
  | _ => false

/-- Lanes of an entry leave their wait: an asynchronous trap of this cc finds them still there (R167). -/
def Warp.noteLeft (w : Warp) (eid : Nat) (m : LaneMask) : Warp :=
  match (w.entry? eid).filter fun e => e.st.rewaits with
  | some e => { w with left := w.left ++ [{ e with mask := e.mask &&& m }] }
  | none => w

/-- A parked split becomes ready after its instruction. -/
def Warp.releaseNext (w : Warp) (eid : Nat) : Warp :=
  ((w.noteLeft eid (BitVec.allOnes 32)).modEntry eid fun e => { e with st := .ready, pc := e.pc + 8 }).merge

/-- A parked split becomes ready at its own instruction, which it executes again. -/
def Warp.releaseAgain (w : Warp) (eid : Nat) : Warp :=
  (w.modEntry eid fun e => { e with st := .ready }).merge

/-- Some lanes of a parked split become ready at a PC; the others stay. -/
def releaseLanesList (l : List Entry) (eid nid : Nat) (m : LaneMask) (pc : DWord) : List Entry :=
  match l with
  | [] => []
  | e :: r =>
    if e.eid == eid then
      let go := { e with eid := if e.mask &&& ~~~ m = 0 then e.eid else nid, mask := e.mask &&& m, pc := pc, st := .ready }
      let stay := { e with mask := e.mask &&& ~~~ m }
      (if stay.mask = 0 then [] else [stay]) ++ (if go.mask = 0 then [] else [go]) ++ r
    else e :: releaseLanesList r eid nid m pc

def State.releaseLanes (s : State) (g eid : Nat) (m : LaneMask) (pc : DWord) : State :=
  let n := s.newId
  n.1.modWarp g fun w => ({ (w.noteLeft eid m) with entries := releaseLanesList w.entries eid n.2 m pc } : Warp).merge

/-- FIRED of a warp's monitor is set: the splits parked on it are released together and ARMED is cleared (R309, R310). -/
def Warp.fire (w : Warp) : Warp :=
  match w.monitor with
  | none => w
  | some m =>
    if m.armed then
      if w.entries.any (fun e => e.st == .parked .monitor) then
        ({ w with monitor := some { m with armed := false, fired := true }
                  left := w.left ++ w.entries.filter fun e => e.st == .parked .monitor
                  entries := w.entries.map fun e =>
                    if e.st == .parked .monitor then { e with st := .ready, pc := e.pc + 8 } else e } : Warp).merge
      else { w with monitor := some { m with fired := true } }
    else w

/-- The object in memory that a parked split watches, with its bytes (R305–R307, R317). -/
def Entry.watches (e : Entry) : Option (DWord × Nat) :=
  match e.st with
  | .parked (.counter p _ _ _) => some (p, 8)
  | .parked (.rank p _ _ _) => some (p, 8)
  | .parked (.byteCount p _ _ _) => some (p, 16)
  | .parked (.future p _ _) => some (p, 16)
  | _ => none

/-- A warp has such a split. -/
def Warp.watching (w : Warp) : Bool := w.entries.any fun e => e.watches.isSome

/-- Fires the monitors on a line of the warps that satisfy p; those of them with parked splits that watch an object there are to re-read it. -/
def State.fireWhere (s : State) (line : MonLine) (sel : Nat → Bool) : State :=
  { s with
    warps := s.warps.map fun e =>
      if sel e.1 && (match e.2.monitor with | some m => m.line == line | none => false) then (e.1, e.2.fire) else e
    retests := s.retests ++
      (s.warps.filter fun e => sel e.1 && e.2.watching && !s.retests.contains (e.1, line)).map fun e => (e.1, line) }

/-- An invalidation, recall, eviction or write of a device line at a core's L1 (R309). -/
def State.fireCore (s : State) (core line : Nat) : State := s.fireWhere (.device line) fun g => coreOf g == core

/-- A write to a scratchpad line (R309). -/
def State.fireScratch (s : State) (block line : Nat) : State := s.fireWhere (.scratch block line) fun _ => true

/-- Depth of a lane (R146); its trap registers (R155). -/
def Warp.depthOf (w : Warp) (l : Nat) : Nat := tgetD w.depth l 0
def Warp.setDepth (w : Warp) (l d : Nat) : Warp := { w with depth := tput w.depth l d 0 }
def Warp.trapOf (w : Warp) (l : Nat) : LaneTrap := tgetD w.traps l {}
def Warp.setTrap (w : Warp) (l : Nat) (t : LaneTrap) : Warp := { w with traps := tput w.traps l t {} }

/-- The lanes of a set that run their trap handler (INH = 1). -/
def Warp.inhLanes (w : Warp) (m : LaneMask) : LaneMask := maskOf ((lanesOf m).filter fun l => (w.trapOf l).inh)

end Sys2Proof.Machine
end

