-- ==== Sys2Proof/Machine/Mem.lean ====
section
/-! DEFINITION. Memory: the value of a word at its home, recalls and invalidations in the L1s, translation, pointers,
scratchpad lines, and accesses that the model performs in one step of the machine (log entry 17). Chapters 1, 8, 9. -/

namespace Sys2Proof.Machine

/-! ## Bits and bytes of words -/

/-- Byte k of a word (R2). -/
def wordByte (x : Word) (k : Nat) : Byte := BitVec.ofNat 8 (nbits x.toNat (8 * k) 8)

/-- A word with byte k replaced. -/
def setByte (x : Word) (k : Nat) (b : Byte) : Word := BitVec.ofNat 32 (setBits x.toNat (8 * k) 8 b.toNat)

/-- Little-endian number of a list of bytes, and back. -/
def natOfLe (l : List Byte) : Nat :=
  match l with
  | [] => 0
  | b :: r => b.toNat + 256 * natOfLe r
def leOfNat (n x : Nat) : List Byte :=
  match n with
  | 0 => []
  | k + 1 => BitVec.ofNat 8 x :: leOfNat k (x / 256)

def bit32 (i : Nat) : BitVec 32 := BitVec.ofNat 32 (2 ^ i)

/-! ## The home's word (R262, R266) -/

/-- A word of device DRAM; the words of a poisoned sector read poisoned (R266). Words are numbered pa ÷ 4. -/
def State.dramWord (s : State) (w : Nat) : Word × Bool :=
  (BitVec.ofNat 32 (mgetNat s.dram (4 * w) 4), s.dramPoison.contains (w / 8))

/-- The home's value of a word: the L2 where its sector is valid, else DRAM. -/
def State.homeWord (s : State) (w : Nat) : Word × Bool :=
  match tget s.l2 (w / 32) with
  | some l =>
    if l.valid.getLsbD (w % 32 / 8) then (tgetD l.data (w % 32) 0, l.poison.getLsbD (w % 32)) else s.dramWord w
  | none => s.dramWord w

/-- A fresh line of the L2. -/
def L2Line.fresh : L2Line :=
  { valid := 0, dirty := 0, data := [], poison := 0, cls := .dflt, count := 0, pinner := 0, lru := 0 }

/-! ## The directory (R267, R268) -/

def State.dirLine (s : State) (line : Nat) : DirLine := tgetD s.dir line {}
def State.setDir (s : State) (line : Nat) (d : DirLine) : State := { s with dir := tput s.dir line d {} }
def State.modDir (s : State) (line : Nat) (f : DirLine → DirLine) : State := s.setDir line (f (s.dirLine line))

/-- The agent that owns a word (R269), if any. -/
def DirLine.ownerOf (d : DirLine) (i : Nat) : Option Nat := (d.owners.find? fun o => o.wmask.getLsbD i).map OwnRec.agent

/-- Takes words out of an agent's owner record; an empty record goes. -/
def DirLine.disown (d : DirLine) (agent : Nat) (ws : BitVec 32) : DirLine :=
  { d with owners := (d.owners.map fun o => if o.agent == agent then { o with wmask := o.wmask &&& ~~~ ws } else o).filter
             fun o => o.wmask != 0 }

/-! ## Sets, victims and misses of the L2 (R262–R264, R266, R275) -/

/-- The home slice of a line (R9). -/
def sliceOf (line : Nat) : Nat :=
  nbits line 0 7 ^^^ nbits line 7 7 ^^^ nbits line 14 7 ^^^ nbits line 21 7 ^^^ nbits line 28 3

/-- The set of its slice, one of 8,192, into which a line falls (R262); which one is not given (log entry 21). -/
def l2Index (line : Nat) : Nat := Config.l2Set line % 8192

/-- The lines of a line's set in the L2. -/
def State.setWays (s : State) (line : Nat) : List Nat :=
  ((s.l2.filter fun e => sliceOf e.1 == sliceOf line).filter fun e => l2Index e.1 == l2Index line).map fun e => e.1

/-- The lines that share a full set of the L2 with a line that is not in it (R262: sixteen ways); empty where the line has a way or the
set has one free. -/
def State.fullSet (s : State) (line : Nat) : List Nat :=
  if s.l2.length < 16 || (tget s.l2 line).isSome then []
  else
    let ways := s.setWays line
    if ways.length < 16 then [] else ways

/-- Rank of a line as a victim, reuse counters within rank 3 (R264). -/
def L2Line.rank (l : L2Line) : Nat :=
  match l.cls with
  | .stream => 1
  | .dflt | .pinned => 2
  | .reuse1 | .reuse2 | .reuse4 | .reuse8 => if l.count = 0 then 1 else 3 + l.count

/-- A line is pinned by a launch that is not complete (R264). -/
def State.pinHeld (s : State) (line : Nat) : Bool := (tget s.l2 line).any fun l => l.cls == .pinned && (s.launch? l.pinner).isSome

/-- A line holds owner words, opens or a busy word (R275). -/
def DirLine.held (d : DirLine) : Bool := !(d.owners.isEmpty && d.busy.isEmpty && d.opens.isEmpty)

/-- A line may be chosen as a victim of the L2 while its set has another candidate (R264, R275). -/
def evictable (s : State) (line : Nat) : Bool := (tget s.l2 line).isSome && !(s.dirLine line).held && !s.pinHeld line

/-- The victim among lines (R264): an eligible way of the lowest rank, of these one touched longest ago (log entry 21). -/
def victimsOf (s : State) (ways : List Nat) : List Nat :=
  let ok := ways.filter (evictable s)
  let rank (v : Nat) : Nat := ((tget s.l2 v).map L2Line.rank).getD 0
  let low := ok.filter fun v => ok.all fun u => rank v ≤ rank u
  let lru (v : Nat) : Nat := ((tget s.l2 v).map L2Line.lru).getD 0
  low.filter fun v => low.all fun u => lru v ≤ lru u

/-- A line has a way in its set of the L2, or can be given one. -/
def State.l2Open (s : State) (line : Nat) : Bool := let full := s.fullSet line; full.isEmpty || !(victimsOf s full).isEmpty

/-- Writes a line's dirty sectors, and those with a poisoned word, to DRAM and drops it; a sector with a poisoned word reads back
poisoned (R266). -/
def evictL2 (s : State) (line : Nat) : State :=
  match tget s.l2 line with
  | none => s
  | some l =>
    let bad (k : Nat) : Bool := (List.range 8).any fun i => l.poison.getLsbD (8 * k + i)
    let s := forEach ((List.range 4).filter fun k => l.valid.getLsbD k && (l.dirty.getLsbD k || bad k)) s fun s k =>
      let ws := (List.range 8).map fun i => 8 * k + i
      let sec := 4 * line + k
      let clean := s.dramPoison.filter fun x => x != sec
      { s with dram := ws.foldl (fun m i => mputNat m (128 * line + 4 * i) 4 (tgetD l.data i 0).toNat) s.dram
               dramPoison := if bad k then clean ++ [sec] else clean }
    { s with l2 := tdel s.l2 line }

/-- Room for a line in its set where an access of one step brings it in (log entry 17). -/
def State.l2Room (s : State) (line : Nat) : State :=
  match victimsOf s (s.fullSet line) with
  | v :: _ => evictL2 s v
  | [] => s

/-- Makes the sector of a word valid in the L2 (R262): its eight words come from DRAM. In a set that can give no way it stays in DRAM. -/
def State.fillSector (s : State) (w : Nat) : State :=
  let line := w / 32
  let sec := w % 32 / 8
  let l := tgetD s.l2 line L2Line.fresh
  if l.valid.getLsbD sec || !s.l2Open line then s
  else
    let ws := (List.range 8).map fun i => 32 * line + 8 * sec + i
    let l := ws.foldl (fun (l : L2Line) w =>
      let v := s.dramWord w
      { l with data := tput l.data (w % 32) v.1 0
               poison := if v.2 then l.poison ||| bit32 (w % 32) else l.poison &&& ~~~ bit32 (w % 32) }) l
    let s := s.l2Room line
    { s with l2 := tset s.l2 line { l with valid := l.valid ||| BitVec.ofNat 4 (2 ^ sec), lru := s.now } }

/-- Twelve ways of the set of a line are pinned (R264). -/
def pinsFull (s : State) (line : Nat) : Bool :=
  12 ≤ ((s.setWays line).filter fun v => (tget s.l2 v).any fun l => l.cls == .pinned).length

/-- A line's replacement class after an access (R232, R264): the class, the reuse counter, the pinning launch. A pin over the quota, or of a
thirteenth way, acts as default. -/
def touchLine (s : State) (line : Nat) (cls : CacheClass) (launch : Nat) : State :=
  match tget s.l2 line with
  | none => s
  | some l =>
    let quota : Bool := match s.launch? launch with | some x => x.pinned < x.pinQuota | none => false
    let unpin (s : State) : State := if l.cls == .pinned then s.modLaunch l.pinner fun x => { x with pinned := x.pinned - 1 } else s
    let set (s : State) (l' : L2Line) : State := { s with l2 := tset s.l2 line { l' with lru := s.now } }
    let plain : State := match l.cls with
      | .reuse1 | .reuse2 | .reuse4 | .reuse8 => set s { l with count := l.count - 1 }
      | _ => set s l
    match cls with
    | .dflt => plain
    | .stream => set (unpin s) { l with cls := .stream, count := 0 }
    | .pinned =>
      if l.cls != .pinned && quota && !pinsFull s line then
        set (s.modLaunch launch fun x => { x with pinned := x.pinned + 1 }) { l with cls := .pinned, pinner := launch }
      else plain
    | .reuse1 => set (unpin s) { l with cls := .reuse1, count := 1 }
    | .reuse2 => set (unpin s) { l with cls := .reuse2, count := 2 }
    | .reuse4 => set (unpin s) { l with cls := .reuse4, count := 4 }
    | .reuse8 => set (unpin s) { l with cls := .reuse8, count := 8 }

/-- The sector of a word is valid in the L2. -/
def State.sectorValid (s : State) (w : Nat) : Bool :=
  match tget s.l2 (w / 32) with
  | some l => l.valid.getLsbD (w % 32 / 8)
  | none => false

/-- A line miss for the sector of a word (R263): it joins the one in flight or takes an entry, if the slice has one. -/
def State.wantSector (s : State) (w : Nat) : State :=
  let line := w / 32
  let sec := BitVec.ofNat 4 (2 ^ (w % 32 / 8))
  if s.sectorValid w then s
  else if s.misses.any fun m => m.line == line then
    { s with misses := s.misses.map fun m => if m.line == line then { m with sectors := m.sectors ||| sec } else m }
  else if (s.misses.filter fun m => sliceOf m.line == sliceOf line).length < 512 then
    { s with misses := s.misses ++ [{ line := line, sectors := sec, since := s.now }] }
  else s

/-- The words of n bytes of device memory. -/
def wordSpan (pa n : Nat) : List Nat := if n = 0 then [] else (List.range ((pa + n - 1) / 4 - pa / 4 + 1)).map fun i => pa / 4 + i

/-- A word is busy (R272). -/
def State.wordBusy (s : State) (w : Nat) : Bool := (tget (s.dirLine (w / 32)).busy (w % 32)).isSome

/-- A slice accepts a request of an agent now: requests that reach it in one cc are accepted in ascending agent id (R272). -/
def State.mayAccept (s : State) (line agent : Nat) : Bool :=
  match tget s.accepts (sliceOf line) with
  | some a => a.1 != s.now || a.2 ≤ agent
  | none => true
def State.accepted (s : State) (line agent : Nat) : State := { s with accepts := tset s.accepts (sliceOf line) (s.now, agent) }

/-- The set of words within their line. -/
def lineMask (ws : List Nat) : BitVec 32 := ws.foldl (fun m w => m ||| bit32 (w % 32)) 0

def State.send (s : State) (f : Nat → Msg) : State := let n := s.newId; { n.1 with net := n.1.net ++ [f n.2] }

/-! ## Engines that act on words at their home (R263, R269–R272; log entry 17)

The sync, copy, fragment-list and ray engines, instruction fetch, table walks and the host act on device words in one step, at a moment at which
the homes can serve them; until then requests of theirs wait at the homes like any others. -/

/-- The request of such an agent. -/
def Req.ahead (r : Req) : Bool := r.op == 0 && r.kind != .wb
def Req.has (r : Req) (w : Nat) : Bool := r.line == w / 32 && r.words.getLsbD (w % 32)

/-- A word is on its way to an agent that is to own it. -/
def State.grantComing (s : State) (w : Nat) : Bool := s.net.any fun m => match m with
  | .reply r => r.line == w / 32 && r.own.getLsbD (w % 32)
  | _ => false

/-- A request of another agent, or of an L1, waits at the home for a word (R272: arrival order). -/
def State.waitedFor (s : State) (agent w : Nat) : Bool := s.net.any fun m => match m with
  | .req r => r.arrived.isSome && r.has w && !(r.agent == agent && r.ahead)
  | _ => false

/-- The home has served a request of an agent for a word. -/
def State.hasServed (s : State) (agent w : Nat) : Bool := s.net.any fun m => match m with
  | .req r => r.served && r.agent == agent && r.has w
  | _ => false

/-- What the homes have served of a line's words for such agents is void: the host owns them from now on (R280). -/
def State.unserve (s : State) (line : Nat) : State :=
  { s with net := s.net.filter fun m => match m with
      | .req r => !(r.served && r.ahead && r.line == line)
      | _ => true }

/-- The word is in the L2, or the access covers its whole sector, which then needs no fetch (R262). -/
def State.wordThere (s : State) (whole : List Nat) (w : Nat) : Bool :=
  s.sectorValid w || (((List.range 8).all fun i => whole.contains (8 * (w / 8) + i)) && s.l2Open (w / 32))

/-- The host owns a word and has not answered for it (R280). -/
def State.hostHolds (s : State) (agent w : Nat) : Bool :=
  agent != 255 && (s.dirLine (w / 32)).ownerOf (w % 32) == some 255 && !s.hasServed agent w

/-- An agent may act on words now; it writes those of `whole` in full. -/
def State.homeReady (s : State) (agent : Nat) (whole ws : List Nat) : Bool :=
  ws.all fun w => s.wordThere whole w && !s.wordBusy w && !s.grantComing w && !s.waitedFor agent w && !s.hostHolds agent w
    && s.mayAccept (w / 32) agent

/-- The requests that an agent sends for words that it may not act on yet: one for each sector of which a word is not in the L2, the host's, or busy and not
yet served for it. -/
def State.homeAsk (s : State) (agent : Nat) (kind : ReqKind) (whole ws : List Nat) : State :=
  let need := ws.filter fun w => !s.wordThere whole w || (s.wordBusy w && !s.hasServed agent w) || s.hostHolds agent w
  forEach (need.map fun w => w / 8).dedup s fun s sec =>
    let words := lineMask (need.filter fun w => w / 8 == sec)
    let sent : Bool := s.net.any fun m => match m with
      | .req r => r.agent == agent && r.ahead && !r.served && r.line == sec / 4 && (r.words &&& words) != 0
      | _ => false
    if sent then s else s.send fun n => .req { id := n, agent := agent, kind := kind, line := sec / 4, words := words }

/-- The slices have taken an agent's access to words: its turn, the lines' replacement state (R264), and its requests for them and those that have been
served, which are done. -/
def State.homeTaken (s : State) (agent : Nat) (ws : List Nat) (cls : CacheClass := .dflt) (launch : Nat := 0) : State :=
  let s := forEach (ws.map fun w => w / 32).dedup s fun s l => touchLine (s.accepted l agent) l cls launch
  { s with net := s.net.filter fun m => match m with
      | .req r => !(r.agent == agent && r.ahead && r.waiting.isEmpty && (r.served || ws.any r.has))
      | _ => true }

/-- The line monitor of the launch window (R86): a write to a slot's second line that leaves its seal byte nonzero puts the slot
among those to be parsed, once until the device clears the byte (R87). -/
def State.sealSeen (s : State) (line : Nat) : State :=
  let off := 128 * line - s.lwinBase.toNat
  let slot := off / 256
  if s.lwinBase.toNat ≤ 128 * line && off < 2 ^ 16 && off % 256 == 128 && !s.sealedSlots.contains slot && !s.heldSlots.contains slot
      && wordByte (s.homeWord (32 * line + 31)).1 3 != 0 then
    { s with sealedSlots := s.sealedSlots ++ [slot] }
  else s

/-- A word with bytes (index in the word, byte) merged into it. -/
def mergeBytes (x : Word) (bs : List (Nat × Byte)) : Word := bs.foldl (fun x b => setByte x b.1 b.2) x

/-- Bytes that make up a whole word. -/
def wholeWord (bs : List (Nat × Byte)) : Bool := (List.range 4).all fun k => bs.any fun b => b.1 == k

/-- Merges bytes into the home's copy of a word; a write of all four clears its poison (R266). -/
def State.homeMerge (s : State) (w : Nat) (bs : List (Nat × Byte)) : State :=
  let s := s.fillSector w
  let line := w / 32
  let i := w % 32
  State.sealSeen (line := line) <|
    if s.sectorValid w then
      { s with l2 := tmod s.l2 line fun l =>
          { l with data := tput l.data i (mergeBytes (tgetD l.data i 0) bs) 0
                   dirty := l.dirty ||| BitVec.ofNat 4 (2 ^ (i / 8))
                   poison := if wholeWord bs then l.poison &&& ~~~ bit32 i else l.poison } }
    else { s with dram := mputNat s.dram (4 * w) 4 (mergeBytes (s.dramWord w).1 bs).toNat }

/-- Writes a whole word with its poison bit at the home. -/
def State.homePut (s : State) (w : Nat) (x : Word) (poison : Bool) : State :=
  let s := s.homeMerge w ((List.range 4).map fun k => (k, wordByte x k))
  if !poison then s
  else if s.sectorValid w then { s with l2 := tmod s.l2 (w / 32) fun l => { l with poison := l.poison ||| bit32 (w % 32) } }
  else { s with dramPoison := if s.dramPoison.contains (w / 8) then s.dramPoison else s.dramPoison ++ [w / 8] }

/-! ## The L1s -/

def State.l1Line (s : State) (core line : Nat) : Option L1Line := tget (s.core core).l1 line
def State.l1Word (s : State) (core w : Nat) : Option L1Word := (s.l1Line core (w / 32)).bind fun l => tget l.words (w % 32)

/-- Removes a word from an L1; a line with no word left goes. -/
def State.l1Drop (s : State) (core w : Nat) : State :=
  s.modCore core fun c =>
    match tget c.l1 (w / 32) with
    | none => c
    | some l =>
      let ws := tdel l.words (w % 32)
      { c with l1 := if ws.isEmpty then tdel c.l1 (w / 32) else tset c.l1 (w / 32) { l with words := ws } }

/-- Puts a word into an L1. -/
def State.l1Set (s : State) (core w : Nat) (x : L1Word) : State :=
  s.modCore core fun c =>
    let l := tgetD c.l1 (w / 32) {}
    { c with l1 := tset c.l1 (w / 32) { l with words := tset l.words (w % 32) x } }

/-- The value that an owning core holds of a word, or has sent: its L1 word, its write-back on the way (R278), or its answer to a
recall on the way. -/
def State.ownedValue (s : State) (core w : Nat) : Option (Word × Bool) :=
  let i := w % 32
  match (s.l1Word core w).filter fun x => x.st == .owned with
  | some x => some (x.val, x.poison)
  | none =>
    let sent (b : WbLine) : Bool := b.line == w / 32 && b.words.getLsbD i && s.net.any fun m => match m with
      | .req r => r.id == b.req
      | _ => false
    match (s.core core).wbuf.find? sent with
    | some b => (tget b.data i).map fun v => (v, b.poison.getLsbD i)
    | none => s.net.findSome? fun m => match m with
      | .answer r => if r.agent == core && r.line == w / 32 && r.kind == .rcl then
          (tget r.data i).map fun v => (v, r.poison.getLsbD i) else none
      | _ => none

/-- The present value of a word in coherence order (R285): its owner's, else the home's. The host's copy counts as the
home's: what the host has written to a line that it owns reaches the device when it answers. -/
def State.cohWord (s : State) (w : Nat) : Word × Bool :=
  match (s.dirLine (w / 32)).ownerOf (w % 32) with
  | some a => if a < 216 then (s.ownedValue a w).getD (s.homeWord w) else s.homeWord w
  | none => s.homeWord w

/-- The value of a word that core a owns reaches home. -/
def State.mergeOwned (s : State) (a w : Nat) : State :=
  match s.ownedValue a w with
  | some v => s.homePut w v.1 v.2
  | none => s

/-- A message without the value of a word that has been taken from core a: its write-backs (which still name the word, and complete what waits for
them: R278), its answers to recalls, and grants on their way to it (the access then starts again, as after a recall that follows the grant: R290). -/
def Msg.without (a w : Nat) (m : Msg) : Msg :=
  let b := bit32 (w % 32)
  match m with
  | .req r => if r.kind == .wb && r.agent == a && r.line == w / 32 then
      .req { r with data := tdel r.data (w % 32) } else .req r
  | .answer r => if r.agent == a && r.line == w / 32 then .answer { r with data := tdel r.data (w % 32) } else .answer r
  | .reply r => if r.agent == a && r.line == w / 32 && r.own.getLsbD (w % 32) then
      .reply { r with own := r.own &&& ~~~ b, data := tdel r.data (w % 32) } else .reply r
  | m => m

/-- The values of a word in core a's write-back buffer and in its messages go. -/
def State.dropHeld (s : State) (a w : Nat) : State :=
  let s := s.modCore a fun c => { c with wbuf := c.wbuf.map fun b =>
    if b.line == w / 32 then { b with data := tdel b.data (w % 32) } else b }
  { s with net := s.net.map (Msg.without a w) }

/-- The host gives back a line that it owns, whole (R280, BISnpInv), in one step; its words have free values (log entry 16). -/
def State.hostBack (s : State) (line : Nat) : State :=
  let ws := (List.range 32).filter fun i => (s.dirLine line).ownerOf i == some 255
  let s := forEach ws s fun s i => let d := s.draw; d.1.homePut (32 * line + i) (Config.freeHostWord d.2) false
  s.modDir line fun d => { (d.disown 255 (BitVec.allOnes 32)) with host := .none }

/-- Takes a word back from its owner, merging its value (R271, RCL): done in one step. -/
def State.recallNow (s : State) (w : Nat) : State :=
  match (s.dirLine (w / 32)).ownerOf (w % 32) with
  | none => s
  | some a =>
    if a < 216 then
      (((((s.mergeOwned a w).dropHeld a w).l1Drop a w).modDir (w / 32) fun d => d.disown a (bit32 (w % 32)))).fireCore a (w / 32)
    else s.hostBack (w / 32)

/-- A bank ALU takes its turn at words for an agent: each is recalled from its owner first (R265, R291). -/
def State.aluTaken (s : State) (agent : Nat) (ws : List Nat) : State := forEach ws (s.homeTaken agent ws) State.recallNow

/-- Core n's registered copy of a word goes. -/
def State.dropShared (s : State) (w core : Nat) : State :=
  match s.l1Word core w with
  | some x => if x.st == .shared then s.l1Drop core w else s
  | none => s

/-- A fill or an acknowledgement that registers copies of a line is on its way to a core. -/
def State.fillComing (s : State) (line core : Nat) : Bool := s.net.any fun m => match m with
  | .reply r => r.agent == core && r.line == line && r.share != 0
  | .ack r => r.agent == core && r.line == line && r.share != 0
  | _ => false

/-- A core that holds nothing of a line, and to which no registered copy of it is on its way, is no sharer of it. -/
def State.unshare (s : State) (line core : Nat) : State :=
  if (s.l1Line core line).isSome || s.fillComing line core then s
  else s.modDir line fun d => { d with sharers := d.sharers &&& ~~~ BitVec.ofNat 216 (2 ^ core) }

/-- A message after an invalidation of a word at a core, in one step: a registered copy on its way does not stay (the fill arrives first,
then the invalidation: R290), and an upgrade that the invalidation crosses is converted (R277). -/
def Msg.crossInv (core w : Nat) (m : Msg) : Msg :=
  let b := bit32 (w % 32)
  match m with
  | .reply r => if r.agent == core && r.line == w / 32 then .reply { r with share := r.share &&& ~~~ b } else .reply r
  | .ack r => if r.agent == core && r.line == w / 32 then .ack { r with share := r.share &&& ~~~ b } else .ack r
  | .req r => if r.kind == .upg && r.agent == core && r.line == w / 32 && r.words.getLsbD (w % 32) then
      .req { r with converted := true } else .req r
  | m => m

/-- Drops a core's registered copy of a word (R271, INV). -/
def State.invOne (s : State) (w core : Nat) : State :=
  let s := s.dropShared w core
  ((({ s with net := s.net.map (Msg.crossInv core w) } : State).unshare (w / 32) core)).fireCore core (w / 32)

/-- The cores in a line's SHARERS. -/
def DirLine.sharerList (d : DirLine) : List Nat := (List.range 216).filter fun n => d.sharers.getLsbD n

/-- Invalidates every registered copy of a word, in one step. -/
def State.invNow (s : State) (w : Nat) : State :=
  let s := forEach (s.dirLine (w / 32)).sharerList s fun s n => s.invOne w n
  if (s.dirLine (w / 32)).host == .shared then s.modDir (w / 32) fun d => { d with host := .none } else s

/-- Reads n bytes of device physical memory at their present values, with whether a word of them is poisoned. -/
def State.cohRead (s : State) (pa n : Nat) : List Byte × Bool :=
  ((List.range n).map fun i => wordByte (s.cohWord ((pa + i) / 4)).1 ((pa + i) % 4),
   (List.range n).any fun i => (s.cohWord ((pa + i) / 4)).2)

/-- Groups bytes at consecutive addresses by word. -/
def byWord (pa : Nat) (bs : List Byte) (acc : Tbl (List (Nat × Byte))) : Tbl (List (Nat × Byte)) :=
  match bs with
  | [] => acc
  | b :: r => byWord (pa + 1) r (tset acc (pa / 4) (tgetD acc (pa / 4) [] ++ [(pa % 4, b)]))

/-- Writes bytes of device physical memory at the home: owners recalled, registered copies invalidated, merged, in one
step. -/
def State.cohWrite (s : State) (pa : Nat) (bs : List Byte) : State :=
  forEach (byWord pa bs []) s fun s e => ((s.recallNow e.1).homeMerge e.1 e.2).invNow e.1

/-! ## Translation (R252–R256) -/

/-- A leaf found by a walk: its entry and log2 of the page size. -/
structure Leaf where
  pte  : Nat
  size : Nat
  deriving DecidableEq, Repr

/-- log2 of the bytes that an entry of a level maps, and of the next table's alignment. -/
def levelShift (lv : Nat) : Nat := match lv with | 3 => 43 | 2 => 30 | 1 => 21 | _ => 16
def levelBits (lv : Nat) : Nat := match lv with | 3 => 14 | 2 => 13 | 1 => 9 | _ => 5

/-- An entry that a walk has read: its level, its physical address and its value. -/
structure WalkStep where
  lv  : Nat
  pa  : Nat
  pte : Nat
  deriving DecidableEq, Repr

/-- The walk from a table of level lv at physical address t (R253–R255): the entries read, and the leaf or the DETAIL of the failure.
A walk is an RD-N (R270), so an entry that an L1 owns is read at its owner (R271). A leaf whose TGT is the reserved 11 is a malformed entry, DETAIL 4
(log entry 138). -/
def walkTable (s : State) (va lv t : Nat) : List WalkStep × Except Nat Leaf :=
  let a := t + 8 * nbits va (levelShift lv) (levelBits lv)
  let e := s.cohRead a 8
  let x := natOfLe e.1
  let addr := nbits x 8 48 * 256
  let leaf := nbits x 1 1 == 1
  let me : WalkStep := { lv := lv, pa := a, pte := x }
  if e.2 then ([me], .error 6)
  else if nbits x 0 1 = 0 then ([me], .error 1)
  else if nbits x 56 8 ≠ 0 || nbits x 2 2 ≠ 0 || (leaf && lv == 3) || (!leaf && lv == 0) then ([me], .error 4)
  else if leaf then
    if addr % 2 ^ levelShift lv ≠ 0 || nbits x 6 2 = 3 || (nbits x 6 2 = 0 && 2 ^ 38 ≤ addr) then ([me], .error 4)
    else ([me], .ok { pte := x, size := levelShift lv })
  else
    match lv with
    | 0 => ([me], .error 4)
    | k + 1 =>
      if nbits x 6 2 ≠ 0 || addr % 2 ^ (levelBits k + 3) ≠ 0 || 2 ^ 38 ≤ addr then ([me], .error 4)
      else
        let r := walkTable s va k addr
        (me :: r.1, r.2)

/-- The root table of an address-space id, or the DETAIL with which its entry fails (R252). -/
def asRoot (s : State) (asid : Nat) : Except Nat Nat :=
  let e := s.cohRead (s.asTable.toNat + 16 * asid) 16
  let x := natOfLe e.1
  let root := nbits x 12 44 * 4096
  if e.2 then .error 6
  else if nbits x 0 1 = 0 then .error 1
  else if nbits x 1 11 ≠ 0 || nbits x 56 72 ≠ 0 then .error 4
  else if 2 ^ 38 ≤ root || root % 2 ^ 17 ≠ 0 then .error 4
  else .ok root

/-- A walk of an address-space id and a virtual address from the root (R252). -/
def walk (s : State) (asid va : Nat) : List WalkStep × Except Nat Leaf :=
  match asRoot s asid with
  | .error d => ([], .error d)
  | .ok root => walkTable s va 3 root

/-- The walk-cache entry of a yard nearest to the leaf for an address (R256). -/
def wcFind (s : State) (yard asid va : Nat) : Option WalkEntry :=
  [1, 2, 3].findSome? fun lv => s.wcache.find? fun e => e.yard == yard && e.asid == asid && e.lv == lv && e.va == va / 2 ^ levelShift lv

/-- A walk for a core: it starts at its yard's walk cache where that has an entry (R256). -/
def walkFor (s : State) (core asid va : Nat) : List WalkStep × Except Nat Leaf :=
  match wcFind s (core / 8) asid va with
  | some e => walkTable s va (e.lv - 1) (nbits e.pte.toNat 8 48 * 256)
  | none => walk s asid va

/-- The cached translation of an address among those of some holders. -/
def tlbFind (s : State) (holder : Nat → Bool) (asid va : Nat) : Option Leaf :=
  (s.tlb.find? fun t => holder t.holder && t.asid == asid && t.va == va / 2 ^ t.size).map fun t => { pte := t.pte.toNat, size := t.size }

/-- What an access does. -/
inductive AccKind | read | write | fetch
  deriving DecidableEq, Repr

/-- Translates a virtual address of a pointer space for an access of a core (R255): physical address or DETAIL. The cached translations are the core's own
and its yard's (R256), for a fetch the yard's alone (R132). -/
def translate (s : State) (core asid space va : Nat) (k : AccKind) : Except Nat Nat :=
  let holder (h : Nat) : Bool := (h == core && k != .fetch) || h == 1000 + core / 8
  match (match tlbFind s holder asid va with | some l => Except.ok l | none => (walkFor s core asid va).2) with
  | .error d => .error d
  | .ok l =>
    let tgt := nbits l.pte 6 2
    let want := if space ≤ 3 then 0 else if space = 4 then 1 else 2
    if tgt ≠ want then .error 5
    else if k == .write && nbits l.pte 4 1 = 0 then .error 2
    else if k == .fetch && nbits l.pte 5 1 = 0 then .error 3
    else .ok (nbits l.pte 8 48 * 256 + va % 2 ^ l.size)

/-! ## Pointers (R21–R23) -/

/-- A trap of one lane: cause, DETAIL, TADDR (R155). -/
structure TrapInfo where
  cause  : Nat
  detail : Nat
  addr   : DWord
  deriving DecidableEq, Repr

/-- Where a checked pointer leads. -/
inductive Loc
  | dev (pa : Nat) (isLocal : Bool)
  | host (ha : Nat) (cached : Bool)
  | peer (id off : Nat)
  | spad (block off : Nat) (yard : Bool)
  | wait (block : Nat)
  deriving DecidableEq, Repr

def spaceOf (p : DWord) : Nat := nbits p.toNat 60 4

/-- Bits that must be zero in a pointer are zero, and its space code is assigned (R21). -/
def ptrWellFormed (p : DWord) : Bool :=
  let x := p.toNat
  match spaceOf p with
  | 0 | 1 | 2 | 3 | 4 | 5 => nbits x 57 3 == 0
  | 6 => true
  | 8 => nbits x 20 40 == 0
  | 9 => nbits x 23 37 == 0
  | 10 => nbits x 24 36 == 0
  | 12 => nbits x 32 28 == 0
  | _ => false

/-- The largest ceiling among the present variants (R106). -/
def Launch.cMax (l : Launch) : Nat := l.entry.variants.foldl (fun m v => max m v.ceil) 0

/-- Bytes of a local slot (R106). -/
def Launch.slotBytes (l : Launch) : Nat := 32 * l.entry.warps * l.localSize + 128 * l.entry.warps * l.cMax

/-- Device virtual address of a block's local slot. -/
def localSlot (l : Launch) (b : Block) : Nat := l.localBase.toNat + b.slot * l.slotBytes

/-- Device virtual address of the local window of thread t (R106). -/
def localWindow (l : Launch) (b : Block) (t : Nat) : Nat := localSlot l b + t * l.localSize

/-- Device virtual address of warp w's spill area (R106, R182). -/
def spillArea (l : Launch) (b : Block) (w : Nat) : Nat :=
  localSlot l b + 32 * l.entry.warps * l.localSize + 128 * l.cMax * w

/-- The space checks of a lane or uniform access of n bytes (R21, R23, R226 step 3): address-space DETAIL, if it fails. -/
def spaceFault (s : State) (g : Nat) (p : DWord) (n : Nat) : Option Nat :=
  let x := p.toNat
  if !ptrWellFormed p then some 1
  else
    match s.blockOf g, s.launchOf g with
    | some b, some l =>
      match spaceOf p with
      | 8 => if b.spadBytes < nbits x 0 20 + n then some 2 else none
      | 9 =>
        let core := coreOf g / 8 * 8 + nbits x 20 3
        match s.gangBlockOn b core with
        | some t => if t.2.spadBytes < nbits x 0 20 + n then some 2 else none
        | none => if s.gangWaits b then none else some 5
      | 10 => some 4
      | 12 => if l.localSize < nbits x 0 32 + n then some 2 else none
      | _ => none
    | _, _ => none

/-- The peer table names a peer id (R225, R431). -/
def State.peerKnown (s : State) (p : Nat) : Bool := (tget s.peers p).isSome

/-- A port is ready: traffic to peers is spread over the ports that are (R431, R434). -/
def State.fabUp (s : State) : Bool := nbits s.ready.toNat 5 4 != 0

/-- Translation of a pointer that passed its space checks (R226 step 6): where it leads, or the translation DETAIL. -/
def resolve (s : State) (g lane : Nat) (p : DWord) (k : AccKind) : Except Nat Loc :=
  let x := p.toNat
  let va := nbits x 0 57
  match s.warp? g, s.blockOf g, s.launchOf g with
  | some w, some b, some l =>
    match spaceOf p with
    | 4 => match translate s (coreOf g) l.asid 4 va k with | .ok a => .ok (.host a true) | .error d => .error d
    | 5 => match translate s (coreOf g) l.asid 5 va k with | .ok a => .ok (.host a false) | .error d => .error d
    | 6 => if s.peerKnown (nbits x 48 12) then .ok (.peer (nbits x 48 12) (nbits x 0 48)) else .error 7
    | 8 => .ok (.spad w.block (nbits x 0 20) false)
    | 9 =>
      match s.gangBlockOn b (coreOf g / 8 * 8 + nbits x 20 3) with
      | some t => .ok (.spad t.1 (nbits x 0 20) true)
      | none => .ok (.wait w.block)
    | 12 =>
      match translate s (coreOf g) l.asid 0 (localWindow l b (32 * w.idx + lane) + nbits x 0 32) k with
      | .ok a => .ok (.dev a true)
      | .error d => .error d
    | _ => match translate s (coreOf g) l.asid (spaceOf p) va k with | .ok a => .ok (.dev a false) | .error d => .error d
  | _, _, _ => .error 1

/-- The full check of one access in the order of R226, steps 3, 5 and 6 (policy is the caller's): where it leads, or the
lane's trap. -/
def checkAccess (s : State) (g lane : Nat) (p : DWord) (n : Nat) (k : AccKind) : Except TrapInfo Loc :=
  match spaceFault s g p n with
  | some d => .error { cause := 0x10, detail := d, addr := p }
  | none =>
    if p.toNat % n ≠ 0 then .error { cause := 0x13, detail := 0, addr := p }
    else
      match resolve s g lane p k with
      | .error d => .error { cause := 0x11, detail := d, addr := p }
      | .ok x => .ok x

/-! ## Scratchpad (R12–R14) -/

/-- Lines of a region that n bytes at an offset touch. -/
def linesOf (off n : Nat) : List Nat := (List.range ((off + n - 1) / 128 - off / 128 + 1)).map fun i => off / 128 + i

/-- The presence bit of a line of a block's region is clear (R12). -/
def State.isAbsent (s : State) (b line : Nat) : Bool := ((s.block? b).bind fun x => tget x.absent line).isSome

/-- The absent lines among those of an access. -/
def absentOf (s : State) (b off n : Nat) : List Nat :=
  match s.block? b with
  | some x => if n = 0 then [] else (linesOf off n).filter fun l => (tget x.absent l).isSome
  | none => []

def spadRead (s : State) (b off n : Nat) : List Byte :=
  match s.block? b with
  | some x => mgetBytes x.spad off n
  | none => []

/-- Writes scratchpad bytes; a write fires the monitors on its lines (R309). -/
def spadWrite (s : State) (b off : Nat) (bs : List Byte) : State :=
  let s := s.modBlock b fun x => { x with spad := mputBytes x.spad off bs }
  if bs.isEmpty then s else forEach (linesOf off bs.length) s fun s l => s.fireScratch b l

/-! ## Host memory -/

/-- L1 line number of a host line. -/
def hostLine (ha : Nat) : Nat := 2 ^ 60 + ha / 128

/-- Gives a host line back from every L1 that holds it, dirty words first (R430). -/
def State.hostRecall (s : State) (hl : Nat) : State :=
  let s := forEach (tgetD s.hostCached hl []) s fun s n =>
    let s : State := match s.l1Line n (2 ^ 60 + hl) with
      | some l => forEach l.words s fun s e =>
          if e.2.dirty then { s with hostMem := mputNat s.hostMem (128 * hl + 4 * e.1) 4 e.2.val.toNat } else s
      | none => s
    s.modCore n fun c => { c with l1 := tdel c.l1 (2 ^ 60 + hl) }
  { s with hostCached := tdel s.hostCached hl }

/-- The present bytes of host memory: a dirty L1 copy counts. -/
def State.hostRead (s : State) (ha n : Nat) : List Byte :=
  (List.range n).map fun i =>
    let a := ha + i
    let dirty := (tgetD s.hostCached (a / 128) []).filterMap fun c =>
      (s.l1Line c (2 ^ 60 + a / 128)).bind fun l => (tget l.words (a % 128 / 4)).bind fun w => if w.dirty then some w.val else none
    match dirty.head? with
    | some v => wordByte v (a % 4)
    | none => mget s.hostMem a

/-- Writes host memory; copies held by L1s are given back first. -/
def State.hostWrite (s : State) (ha : Nat) (bs : List Byte) : State :=
  let s := if bs.isEmpty then s else forEach (linesOf ha bs.length) s fun s l => s.hostRecall l
  { s with hostMem := mputBytes s.hostMem ha bs }

/-! ## Accesses in one step -/

/-- Bytes of a peer, free values: those of one draw agree at an address (R227, R431). -/
def peerByte (draw peer off : Nat) : Byte := Config.freePeerByte draw (peer * 2 ^ 48 + off)

/-- Reads n bytes where a checked pointer leads: bytes and poison. Whoever reads from a peer makes the next draw when its accesses are done. -/
def readLoc (s : State) (x : Loc) (n : Nat) : List Byte × Bool :=
  match x with
  | .dev a _ => s.cohRead a n
  | .host a _ => (s.hostRead a n, false)
  | .peer id o => ((List.range n).map fun i => peerByte s.fresh id (o + i), false)
  | .spad b o _ => (spadRead s b o n, false)
  | .wait _ => (List.replicate n 0, false)

/-- Writes bytes where a checked pointer leads: at the home for device memory, where the core's own copy of a word goes whatever its state
(R265, R291). A write to a peer leaves the device as a put. -/
def writeLoc (s : State) (core : Nat) (x : Loc) (bs : List Byte) : State :=
  match x with
  | .dev a _ =>
    let s := forEach (wordSpan a bs.length) (s.cohWrite a bs) fun s w => s.l1Drop core w
    forEach (if bs.isEmpty then [] else linesOf a bs.length) s fun s l => s.fireCore core l
  | .host a _ => s.hostWrite a bs
  | .peer p o =>
    let n := s.newId
    { n.1 with puts := n.1.puts ++ [{ id := n.2, peer := p, core := core, op := 0, cmd := 0, off := o, data := bs, sentAt := s.devNs }] }
  | .spad b o _ => spadWrite s b o bs
  | .wait _ => s

/-- Reads a record or object of n bytes at a device or scratchpad pointer on behalf of a warp: bytes and the offset of the
first poisoned word. -/
def firstPoison (s : State) (x : Loc) (n : Nat) : Option Nat :=
  match x with
  | .dev a _ => ((List.range ((n + 3) / 4)).find? fun i => (s.cohWord (a / 4 + i)).2).map fun i => 4 * i
  | _ => none

/-! ## Opens (R229, R281) -/

/-- An agent's opens on a word of the home end (R281). -/
def WordOpens.close (o : WordOpens) (a : Nat) : WordOpens :=
  { w := if o.w = some a then none else o.w, r := o.r.filter fun x => x != a }

def WordOpens.addR (o : WordOpens) (a : Nat) : WordOpens := if o.r.contains a then o else { o with r := o.r ++ [a] }
def WordOpens.addW (o : WordOpens) (a : Nat) : WordOpens := match o.w with | none => { o with w := some a } | some _ => o

/-- An access by a to a word races with an open of another holder (R229, R281). -/
def WordOpens.races (o : WordOpens) (a : Nat) (write : Bool) : Bool :=
  (match o.w with | some b => b != a | none => false) || (write && o.r.any fun b => b != a)

/-- The opens of o that still stand in p. -/
def WordOpens.meet (o p : WordOpens) : WordOpens :=
  { w := if o.w = p.w then o.w else none, r := o.r.filter fun a => p.r.contains a }

def WordOpens.holds (o : WordOpens) (a : Nat) : Bool := o.w == some a || o.r.contains a

def openGet (t : Tbl WordOpens) (w : Nat) : WordOpens := tgetD t w {}
def openPut (t : Tbl WordOpens) (w : Nat) (o : WordOpens) : Tbl WordOpens := tput t w o {}

/-- Closes an agent's opens at the home on a word. -/
def State.homeClose (s : State) (agent w : Nat) : State :=
  s.modDir (w / 32) fun d => { d with opens := openPut d.opens w ((openGet d.opens w).close agent) }

/-- Closes a requester's opens in its core's L1 on the device words that satisfy p (R231). -/
def State.closeL1 (s : State) (core req : Nat) (sel : Nat → Bool) : State :=
  s.modCore core fun c =>
    { c with opens := (c.opens.map fun e => if sel e.1 then (e.1, e.2.close req) else e).filter fun e => e.2 != {} }

/-- A warp's release at yard scope or wider on the words that satisfy sel (device word, virtual word): its opens close in the
L1, and the agent's open at the home closes on each word that the warp opened unless another requester of the core still
holds one (R231). -/
def State.closeDev (s : State) (g : Nat) (sel : Nat × Nat → Bool) : State :=
  let ws := ((((s.warp? g).map Warp.opened).getD []).filter sel).map fun e => e.1
  let s := s.closeL1 (coreOf g) (reqOf g) fun w => ws.contains w
  let s := forEach ws s fun s w =>
    if (tget (s.core (coreOf g)).opens w).isNone then s.homeClose (coreOf g) w else s
  s.modWarp g fun w => { w with opened := w.opened.filter fun x => !sel x }

/-- Closes a warp's opens in the scratchpads of its gang. -/
def State.closeSpad (s : State) (g : Nat) : State :=
  { s with blocks := s.blocks.map fun e =>
      if e.2.opens.any (fun o => o.2.holds g) then
        (e.1, { e.2 with opens := (e.2.opens.map fun o => (o.1, o.2.close g)).filter fun o => o.2 != {} })
      else e }

/-- A warp exits or is saved: all its opens are closed (R281). -/
def State.closeWarp (s : State) (g : Nat) : State := (s.closeDev g fun _ => true).closeSpad g

/-- A release at block or core scope (R231): the warp's opens close in the L1 and in the scratchpad. -/
def State.closeCore (s : State) (g : Nat) : State := (s.closeL1 (coreOf g) (reqOf g) fun _ => true).closeSpad g

end Sys2Proof.Machine
end

