-- ==== Sys2Proof/Machine/Gate.lean ====
section
/-! DEFINITION. The Gate: which fragments wait for which, leaving an ordered section, releasing a fragment (R380–R383). -/

namespace Sys2Proof.Machine

/-- A field of a pass record (R375): n bytes at an offset. -/
def Pass.field (p : Pass) (o n : Nat) : Nat := (List.range n).foldl (fun x i => x + 2 ^ (8 * i) * p.rec_.getD (o + i) 0) 0
def Pass.primCnt (p : Pass) : Nat := p.field 0x08 4
def Pass.tilesX (p : Pass) : Nat := p.field 0x0C 2
def Pass.tilesY (p : Pass) : Nat := p.field 0x0E 2
def Pass.tileMode (p : Pass) : Bool := p.field 0x10 1 == 0
def Pass.samples (p : Pass) : Nat := p.field 0x11 1
def Pass.cull (p : Pass) : Nat := p.field 0x12 2
def Pass.seqBase (p : Pass) : Nat := p.field 0x1C 4

/-- A sequence number as R376 compares it. -/
def seqKey (base q : Nat) : Nat := (q + 2 ^ 32 - base % 2 ^ 32) % 2 ^ 32

/-- Some other entry of the core must end its section first (R381): same pass and pixel, shared samples, lower sequence. -/
def gateBlocked (s : State) (core id : Nat) : Bool :=
  let gate := (s.core core).gate
  match tget gate id with
  | none => false
  | some e =>
    let base := ((tget s.passes e.pass).map Pass.seqBase).getD 0
    gate.any fun o => o.1 != id && o.2.pass == e.pass && o.2.x == e.x && o.2.y == e.y
      && (nbits o.2.cov 0 8 &&& nbits e.cov 0 8) != 0 && seqKey base o.2.seq < seqKey base e.seq

/-- Some command of a list is still in its core's queue or running. -/
def cmdsLive (s : State) (core : Nat) (l : List Nat) : Bool := (s.core core).cmds.any fun c => l.contains c.id

/-- The accesses of a lane that a release at core scope waits for (R284, R382). -/
def releaseOps (s : State) (g l : Nat) : List Nat :=
  (((s.core (coreOf g)).ops.filter fun o => o.warp == g && o.lanes.getLsbD l && match o.kind with
    | .store | .red => o.pol == .own
    | .atomic | .load => true
    | _ => false).map LsuOp.id)

/-- Some access of a list is still outstanding at its core. -/
def opsLive (s : State) (core : Nat) (l : List Nat) : Bool := (s.core core).ops.any fun o => l.contains o.id

/-- Frees a Gate entry. -/
def gateFree (s : State) (core id : Nat) : State := s.modCore core fun c => { c with gate := tdel c.gate id }

/-- A lane's section has ended: the lane keeps its fragment, marked closed (R382). -/
def Warp.closeFrag (w : Warp) (l : Nat) : Warp :=
  { w with frags := tmod w.frags l fun f => { f with closed := true }
           inside := w.inside &&& ~~~ laneBit l
           orderCmds := tdel w.orderCmds l }

/-- Step 3 of ORDEXIT for a lane whose commands have completed: the Gate entry is freed (R382). -/
def endSection (s : State) (g l : Nat) : State :=
  match (s.warp? g).bind fun w => tget w.frags l with
  | none => s
  | some f => (gateFree s (coreOf g) f.gate).modWarp g fun w => w.closeFrag l

/-- COVW changes the COV of the lane's Gate entry; one that the lane has left is the lane's no more (R382, R383). -/
def gateCov (s : State) (core id cov : Nat) : State :=
  s.modCore core fun c => { c with gate := tmod c.gate id fun e => if e.leaving then e else { e with cov := cov } }

/-- An implied ORDEXIT of a lane inside a section (R382): the lane does not wait, and its Gate entry stays until the accesses that the
release waits for and the commands posted since its ORDENTER have ended. -/
def leaveSection (s : State) (g l : Nat) : State :=
  match s.warp? g with
  | none => s
  | some w =>
    if w.inside.getLsbD l then
      match tget w.frags l with
      | none => s
      | some f =>
        let cmds := tgetD w.orderCmds l []
        let ops := releaseOps s g l
        let s := s.closeCore g
        let s := if cmdsLive s (coreOf g) cmds || !ops.isEmpty then
            s.modCore (coreOf g) fun c => { c with gate := tmod c.gate f.gate fun e =>
              { e with inside := false, leaving := true, cmds := cmds, ops := ops } }
          else gateFree s (coreOf g) f.gate
        s.modWarp g fun w => w.closeFrag l
    else s

/-- A lane releases its fragment (R379, R383): an implied ORDEXIT if it is inside, else its Gate entry is freed. -/
def releaseFragment (s : State) (g l : Nat) : State :=
  let s := leaveSection s g l
  match (s.warp? g).bind fun w => tget w.frags l with
  | none => s
  | some f =>
    let s := if f.closed then s else gateFree s (coreOf g) f.gate
    s.modWarp g fun w => { w with frags := tdel w.frags l }

/-- Implied ORDEXITs of a list of lanes, and releases of their fragments. -/
def leaveSections (s : State) (g : Nat) (m : LaneMask) : State := forEach (lanesOf m) s fun s l => leaveSection s g l
def releaseFragments (s : State) (g : Nat) (m : LaneMask) : State := forEach (lanesOf m) s fun s l => releaseFragment s g l

/-- A command that a split posts counts for the sections that its lanes are inside (R382). -/
def State.noteCmd (s : State) (g : Nat) (lanes : LaneMask) (id : Nat) : State :=
  s.modWarp g fun w =>
    { w with orderCmds := (lanesOf (lanes &&& w.inside)).foldl (fun t l => tset t l (tgetD t l [] ++ [id])) w.orderCmds }

end Sys2Proof.Machine
end

