-- ==== Sys2Proof/Machine/Commands.lean ====
section
/-! DEFINITION. The command queue of a core: completion objects, presence bits, guard slots, and how commands end
(R13, R16–R18, R332, R338–R344, R356). -/

namespace Sys2Proof.Machine

/-! ## Completion objects (R332) -/

/-- The object of n bytes that an own- or yard-scratchpad pointer of a block names, if it lies in a region. -/
def State.objAt (s : State) (b : Nat) (p : DWord) (n : Nat) : Option Obj :=
  match s.block? b with
  | none => none
  | some x =>
    let off := nbits p.toNat 0 20
    let t : Option (Nat × Block) := match spaceOf p with
      | 8 => some (b, x)
      | 9 => s.gangBlockOn x (x.core / 8 * 8 + nbits p.toNat 20 3)
      | _ => none
    t.bind fun t => if ptrWellFormed p && off + n ≤ t.2.spadBytes then some { block := t.1, off := off } else none

/-- A field of an object, and writing it. -/
def State.objGet (s : State) (o : Obj) (k n : Nat) : Nat := natOfLe (spadRead s o.block (o.off + k) n)
def State.objPut (s : State) (o : Obj) (k n x : Nat) : State := spadWrite s o.block (o.off + k) (leOfNat n x)

/-- FCAUSE of an object that is in error. -/
def State.objError (s : State) (o : Obj) : Option Nat :=
  if s.objGet o 12 1 % 2 = 1 then some (s.objGet o 14 1) else none

/-- Puts an object into error with a cause (R332, R335, R343). -/
def State.setObjError (s : State) (o : Obj) (cause : Nat) : State :=
  (s.objPut o 12 1 (s.objGet o 12 1 ||| 1)).objPut o 14 1 cause

/-- LEFT and the phases completed after b more bytes are counted (R332). -/
def countStep (expect left b : Nat) : Nat × Nat :=
  if b < left then (left - b, 0) else (expect - (b - left) % expect, 1 + (b - left) / expect)

/-- Counts b bytes to an object in one update (R332). -/
def State.countBytes (s : State) (o : Obj) (b : Nat) : State :=
  let e := s.objGet o 0 4
  let l := s.objGet o 4 4
  if b = 0 then s
  else if e = 0 || l = 0 || e < l then s.setObjError o 0x22
  else
    let r := countStep e l b
    (s.objPut o 4 4 r.1).objPut o 8 4 ((s.objGet o 8 4 + r.2) % 2 ^ 32)

/-! ## Presence bits (R13) -/

/-- Clears the presence bit of a line for a command whose objects are given; the answer says whether it was set. -/
def State.lineAbsent (s : State) (b line : Nat) (objs : List Obj) : State × Bool :=
  match s.block? b with
  | none => (s, false)
  | some x =>
    let old := tget x.absent line
    (s.modBlock b fun x => { x with absent := tset x.absent line (old.getD [] ++ objs) }, old.isNone)

/-- Sets the presence bit of a line. -/
def State.linePresent (s : State) (b line : Nat) : State := s.modBlock b fun x => { x with absent := tdel x.absent line }

/-- FCAUSE of an object in error among those of an absent line (R14). -/
def State.lineError (s : State) (b line : Nat) : Option Nat :=
  ((s.block? b).bind fun x => tget x.absent line).bind fun os => (os.filterMap fun o => s.objError o).head?

/-- A pointer to a scratchpad line, as a warp of a block would name it (TADDR of copy-fault, R328). -/
def State.linePtr (s : State) (mine b line : Nat) : DWord :=
  if mine = b then BitVec.ofNat 64 (8 * 2 ^ 60 + 128 * line)
  else BitVec.ofNat 64 (9 * 2 ^ 60 + ((s.block? b).map fun x => x.core % 8).getD 0 * 2 ^ 20 + 128 * line)

/-- The copy-fault of lanes of a block at absent lines, if one belongs to a copy whose object is in error (R14, R328). -/
def State.absentTrap (s : State) (mine : Nat) (lines : List (Nat × Nat)) : Option TrapInfo :=
  lines.findSome? fun l => (s.lineError l.1 l.2).map fun c => { cause := 0x30, detail := c, addr := s.linePtr mine l.1 l.2 }

/-! ## Commands -/

def CmdKind.isCopy : CmdKind → Bool
  | .copy _ _ => true
  | _ => false
def CmdKind.isMatrix : CmdKind → Bool
  | .copy _ _ => false
  | .flclr _ _ _ _ _ _ => false
  | .rqstep _ _ => false
  | _ => true
def CmdKind.isMma : CmdKind → Bool
  | .mma _ _ _ _ => true
  | _ => false
/-- The engine of a command: copy, matrix, fragment-list, ray. -/
def CmdKind.engine : CmdKind → Nat
  | .copy _ _ => 0
  | .flclr _ _ _ _ _ _ => 2
  | .rqstep _ _ => 3
  | _ => 1

def State.cmd? (s : State) (core id : Nat) : Option Cmd := (s.core core).cmds.find? fun c => c.id == id
def State.modCmd (s : State) (core id : Nat) (f : Cmd → Cmd) : State :=
  s.modCore core fun k => { k with cmds := k.cmds.map fun c => if c.id == id then f c else c }

/-- Two footprints order their commands (R17). -/
def Footprint.meets (a b : Footprint) : Bool :=
  a.space == b.space && a.owner == b.owner && (a.write || b.write)
    && a.first < b.first + b.lines && b.first < a.first + a.lines

/-- The commands that entered a core's queue before one. -/
def cmdsBefore (l : List Cmd) (id : Nat) : List Cmd :=
  match l with
  | [] => []
  | c :: r => if c.id == id then [] else c :: cmdsBefore r id

/-- An R17 edge into the command is outstanding. -/
def State.edgeInto (s : State) (core : Nat) (c : Cmd) : Bool :=
  (cmdsBefore (s.core core).cmds c.id).any fun o => o.feet.any fun f => c.feet.any fun g => f.meets g

/-- Its PG is held by a started command (R331). -/
def State.pgBusy (s : State) (core : Nat) (c : Cmd) : Bool :=
  c.pg.isSome && (s.core core).cmds.any fun o => o.id != c.id && o.pg == c.pg && o.st != .queued

/-- The state of a guard slot: 0 unresolved, 1 true, 2 false (R338). -/
def State.guardOf (s : State) (core n : Nat) : Nat := tgetD (s.core core).guards n 0
def State.setGuard (s : State) (core n v : Nat) : State := s.modCore core fun k => { k with guards := tput k.guards n v 0 }

/-- CGUARD writes a slot (R340, R341). -/
def State.cguard (s : State) (core n v : Nat) : State :=
  (s.setGuard core n v).modCore core fun k => { k with slotCc := tset k.slotCc n s.now }

/-- An earlier unstarted command of the same engine exists, and one that waits on its guard (R18, R338). -/
def State.earlierUnstarted (s : State) (core : Nat) (c : Cmd) : List Cmd :=
  (cmdsBefore (s.core core).cmds c.id).filter fun o => o.st == .queued && o.kind.engine == c.kind.engine
def State.heldBack (s : State) (core : Nat) (c : Cmd) : Bool := (s.earlierUnstarted core c).any fun o => o.guard.isSome

/-- Resolves GOUT, once for each command; in the cc of a CGUARD on the slot CGUARD's value remains (R340, R348). -/
def State.resolveOut (s : State) (core : Nat) (c : Cmd) (v : Bool) : State :=
  match c.gout with
  | some g =>
    let s := if tget (s.core core).slotCc g == some s.now then s else s.setGuard core g (if v then 1 else 2)
    s.modCmd core c.id fun c => { c with gout := none }
  | none => s

/-- Closes the opens of a command at the home, but for words that another command of the core has opened (R281). -/
def State.closeCmd (s : State) (core : Nat) (c : Cmd) : State :=
  forEach c.words s fun s w =>
    if (s.core core).cmds.any fun o => o.id != c.id && o.words.contains w then s else s.homeClose (256 + core) w

/-- A command leaves the queue and counts as completed (R17). -/
def State.endCmd (s : State) (core : Nat) (c : Cmd) (v : Bool) : State :=
  let s := (s.closeCmd core c).resolveOut core c v
  s.modCore core fun k => { k with cmds := k.cmds.filter fun o => o.id != c.id }

/-- A command is discarded (R18): the presence bits that it cleared are set again (R13). -/
def State.discardCmd (s : State) (core : Nat) (c : Cmd) : State :=
  let s := forEach c.cleared s fun s e => s.linePresent e.1 e.2
  s.endCmd core c false

/-- The pointer to a CPYM object or unit at destination core c of the yard (R337). -/
def coreField (p : DWord) (c : Nat) : DWord := BitVec.ofNat 64 (9 * 2 ^ 60 + c * 2 ^ 20 + nbits p.toNat 0 20)

/-- The destination cores of a CPYM that have not failed. -/
def Cmd.dests (c : Cmd) (r : CopyReq) : List Nat := (List.range 8).filter fun i => r.mask.testBit i && !c.failMask.testBit i

/-- The issuer's object of a CPYM (R323). -/
def CopyReq.issuePtr (r : CopyReq) : Option DWord :=
  if r.issue.testBit 31 then some (BitVec.ofNat 64 (8 * 2 ^ 60 + nbits r.issue 0 20)) else none

/-- The objects of a command: DONE, or for a CPYM those of its destinations and the issuer's. -/
def State.cmdObjs (s : State) (c : Cmd) : List Obj :=
  match c.kind with
  | .copy .cpym r =>
    ((c.dests r).filterMap fun i => s.objAt c.block (coreField c.done i) 16)
      ++ (r.issuePtr.bind fun p => s.objAt c.block p 16).toList
  | _ => if c.done = 0 then [] else (s.objAt c.block c.done 16).toList

/-- The splits of a core whose CABORT waits for commands none of which is left go on (R343). -/
def State.abortsDone (s : State) (core : Nat) : State :=
  let free (e : Entry) : Bool := match e.st with
    | .parked (.abort ids) => !(s.core core).cmds.any fun c => ids.contains c.id
    | _ => false
  { s with warps := s.warps.map fun x =>
      if coreOf x.1 = core then (x.1, (x.2.entries.filter free).foldl (fun (w : Warp) e => w.releaseNext e.eid) x.2) else x }

/-- Ends a copy command as CABORT does (R343). -/
def State.endAborted (s : State) (core : Nat) (c : Cmd) : State :=
  let s := forEach (s.cmdObjs c) s fun s o => s.setObjError o 0
  (s.endCmd core c false).abortsDone core

/-- A copy command is to end as by CABORT: at once, or when the put that it has sent is answered (R335 step 1, R343). -/
def State.abortCmd (s : State) (core : Nat) (c : Cmd) : State :=
  if c.st == .running && c.sent.isSome then s.modCmd core c.id fun c => { c with aborting := true } else s.endAborted core c

/-- Counts b bytes of a command to an object; an update that completes a phase is a release of every byte counted to the object, so that the opens
of those bytes end (R281, R332). -/
def State.countRelease (s : State) (id : Nat) (o : Obj) (b : Nat) : State :=
  let t := s.countBytes o b
  if t.objGet o 8 4 = s.objGet o 8 4 then t
  else
    forEach t.cores t fun t k =>
      forEach (k.2.cmds.filter fun c => (c.id == id || c.sent.isNone) && (t.cmdObjs c).contains o) t fun t c =>
        (t.closeCmd k.1 c).modCmd k.1 c.id fun c => { c with words := [] }

/-- The commands of a block. -/
def State.blockCmds (s : State) (b : Nat) : List Cmd :=
  match s.block? b with
  | none => []
  | some x => (s.core x.core).cmds.filter fun c => c.block == b

/-- An MMA or MMAX waits for its cv phase (R366). -/
def State.waitsPhase (s : State) (core : Nat) (c : Cmd) : Bool :=
  match c.kind, c.phase with
  | .mma _ cv _ _, some p => (tgetD (s.core core).cvs cv {}).phase == p
  | _, _ => false

/-- What happens to a block's commands when its last warp exits (R344, R371). -/
def State.exitCmds (s : State) (b core : Nat) : State :=
  forEach (s.blockCmds b) s fun s c =>
    let unresolved : Bool := match c.guard with | some g => s.guardOf core g == 0 | none => false
    match c.kind, c.st with
    | .copy _ _, .queued => if unresolved then s.discardCmd core c else s
    | .copy _ _, .faulted => s.abortCmd core c
    | .copy _ _, _ => s
    | .flclr _ _ _ _ _ _, _ => s
    | .rqstep _ _, _ => s
    | _, .queued => if unresolved || s.waitsPhase core c then s.discardCmd core c else s
    | _, _ => s

/-- Cancel: copies end as by CABORT.ALL, queued commands are discarded and those in flight end (R93, R344, R371). -/
def State.cancelCmds (s : State) (b core : Nat) : State :=
  forEach (s.blockCmds b) s fun s c =>
    match c.kind, c.st with
    | .copy _ _, _ => s.abortCmd core c
    | _, .queued => s.discardCmd core c
    | _, _ => s.endCmd core c false

/-- The guard slots that a block has named become unresolved (R339). -/
def State.freeGuards (s : State) (b : Nat) (keep : Nat → Bool) : State :=
  match s.block? b with
  | none => s
  | some x => (forEach (x.named.filter fun n => !keep n) s fun s n => s.setGuard x.core n 0).modBlock b fun x => { x with named := [], gwrites := [] }

/-- A block names guard slots. -/
def State.nameGuards (s : State) (b : Nat) (ns : List Nat) : State :=
  s.modBlock b fun x => { x with named := x.named ++ ns.filter fun n => !x.named.contains n }

/-- A block writes a guard slot with CGUARD (R339, R345). -/
def State.writeGuard (s : State) (b n : Nat) : State :=
  (s.nameGuards b [n]).modBlock b fun x => { x with gwrites := if x.gwrites.contains n then x.gwrites else x.gwrites ++ [n] }

end Sys2Proof.Machine
end

