-- ==== Sys2Proof/Machine/Fp.lean ====
section
/-! DEFINITION. Floating-point formats, Round, and the exact operations of chapter 3 (R59–R70). Values are exact rationals;
a result is rounded once. -/

namespace Sys2Proof.Machine

/-- Which special values a format has (R59). -/
inductive Specials | infNan | nanOnly | finite
  deriving DecidableEq, Repr

/-- A floating-point format (R59). -/
structure FpFmt where
  ebits : Nat
  mbits : Nat
  sp    : Specials
  deriving DecidableEq, Repr

def FpFmt.fp64 : FpFmt := { ebits := 11, mbits := 52, sp := .infNan }
def FpFmt.fp32 : FpFmt := { ebits := 8, mbits := 23, sp := .infNan }
def FpFmt.tf32 : FpFmt := { ebits := 8, mbits := 10, sp := .infNan }
def FpFmt.fp16 : FpFmt := { ebits := 5, mbits := 10, sp := .infNan }
def FpFmt.bf16 : FpFmt := { ebits := 8, mbits := 7, sp := .infNan }
def FpFmt.e4m3 : FpFmt := { ebits := 4, mbits := 3, sp := .nanOnly }
def FpFmt.e5m2 : FpFmt := { ebits := 5, mbits := 2, sp := .infNan }
def FpFmt.e3m2 : FpFmt := { ebits := 3, mbits := 2, sp := .finite }
def FpFmt.e2m3 : FpFmt := { ebits := 2, mbits := 3, sp := .finite }
def FpFmt.e2m1 : FpFmt := { ebits := 2, mbits := 1, sp := .finite }

def FpFmt.width (f : FpFmt) : Nat := 1 + f.ebits + f.mbits
def FpFmt.bias (f : FpFmt) : Nat := 2 ^ (f.ebits - 1) - 1
/-- Exponent of the smallest normal. -/
def FpFmt.emin (f : FpFmt) : Int := 1 - (f.bias : Int)
/-- All-ones exponent field. -/
def FpFmt.eAll (f : FpFmt) : Nat := 2 ^ f.ebits - 1

/-- 2 to an integer power, exactly. -/
def pow2 (e : Int) : ℚ := if 0 ≤ e then ((2 ^ e.toNat : Nat) : ℚ) else 1 / ((2 ^ (-e).toNat : Nat) : ℚ)

/-- The largest finite value (R59). -/
def FpFmt.maxFinite (f : FpFmt) : ℚ :=
  match f.sp with
  | .infNan => (2 - pow2 (-(f.mbits : Int))) * pow2 (f.bias : Int)
  | .nanOnly => 448
  | .finite => (2 - pow2 (-(f.mbits : Int))) * pow2 ((f.eAll : Int) - f.bias)

/-- The smallest normal value. -/
def FpFmt.minNormal (f : FpFmt) : ℚ := pow2 f.emin

/-- A value as a format holds it: NaN with its sign and kind, infinity, or a finite number with its sign and magnitude. -/
inductive FVal
  | nan (neg signalling : Bool)
  | inf (neg : Bool)
  | fin (neg : Bool) (mag : ℚ)
  deriving DecidableEq, Repr

def FVal.isNan : FVal → Bool
  | .nan _ _ => true
  | _ => false
def FVal.isSig : FVal → Bool
  | .nan _ s => s
  | _ => false
def FVal.isInf : FVal → Bool
  | .inf _ => true
  | _ => false
def FVal.neg : FVal → Bool
  | .nan n _ => n
  | .inf n => n
  | .fin n _ => n
def FVal.isZero : FVal → Bool
  | .fin _ m => m == 0
  | _ => false
/-- The signed value of a finite number, 0 otherwise. -/
def FVal.toRat : FVal → ℚ
  | .fin n m => if n then -m else m
  | _ => 0

/-- The value of an encoding (R59, R61). -/
def fpDecode (f : FpFmt) (x : Nat) : FVal :=
  let m := nbits x 0 f.mbits
  let e := nbits x f.mbits f.ebits
  let s := nbits x (f.mbits + f.ebits) 1 == 1
  let frac : ℚ := (m : ℚ) / ((2 ^ f.mbits : Nat) : ℚ)
  let normal := FVal.fin s ((1 + frac) * pow2 ((e : Int) - f.bias))
  if e = 0 then .fin s (frac * pow2 f.emin)
  else if e = f.eAll then
    match f.sp with
    | .infNan => if m = 0 then .inf s else .nan s (m < 2 ^ (f.mbits - 1))
    | .nanOnly => if m = 2 ^ f.mbits - 1 then .nan s false else normal
    | .finite => normal
  else normal

/-- A TF32 element of an FP32 word: bits [12:0] are ignored (R60). -/
def tf32Decode (x : Nat) : FVal := fpDecode .fp32 (x / 2 ^ 13 * 2 ^ 13)

/-- ⌊log2 q⌋ of a positive q. -/
def floorLog2 (q : ℚ) : Int :=
  let n := q.num.natAbs
  let d := q.den
  let k : Int := (Nat.log2 n : Int) - (Nat.log2 d : Int)
  if pow2 k ≤ q then k else k - 1

/-- The encoding of a sign and a magnitude that the format holds exactly. -/
def fpEncodeMag (f : FpFmt) (neg : Bool) (mag : ℚ) : Nat :=
  let s := if neg then 2 ^ (f.mbits + f.ebits) else 0
  if mag = 0 then s
  else
    let k := floorLog2 mag
    if k < f.emin then s + (mag / pow2 (f.emin - f.mbits)).num.natAbs
    else s + (k + f.bias).toNat * 2 ^ f.mbits + ((mag / pow2 k - 1) * ((2 ^ f.mbits : Nat) : ℚ)).num.natAbs

/-- The canonical NaN with a sign (R61); 0 in a format that has none. -/
def FpFmt.canonNan (f : FpFmt) (neg : Bool) : Nat :=
  let s := if neg then 2 ^ (f.mbits + f.ebits) else 0
  match f.sp with
  | .infNan => s + f.eAll * 2 ^ f.mbits + 2 ^ (f.mbits - 1)
  | .nanOnly => s + f.eAll * 2 ^ f.mbits + (2 ^ f.mbits - 1)
  | .finite => 0

/-- The encoding of infinity. -/
def FpFmt.infBits (f : FpFmt) (neg : Bool) : Nat :=
  (if neg then 2 ^ (f.mbits + f.ebits) else 0) + f.eAll * 2 ^ f.mbits

/-- The sticky conditions of one element (R71). -/
structure FpFlags where
  nv : Bool := false
  dz : Bool := false
  ovf : Bool := false
  unf : Bool := false
  nx : Bool := false
  deriving DecidableEq, Repr

def FpFlags.merge (a b : FpFlags) : FpFlags :=
  { nv := a.nv || b.nv, dz := a.dz || b.dz, ovf := a.ovf || b.ovf, unf := a.unf || b.unf, nx := a.nx || b.nx }

/-- The rounding modes of R65 and R67; RS carries its random bits. -/
inductive RMode | rn | rz | ru | rd | rs (r : Nat)
  deriving DecidableEq, Repr

def RMode.ofRm : Rm → RMode
  | .rn => .rn
  | .rz => .rz
  | .ru => .ru
  | .rd => .rd

/-- A non-negative q rounded to an integer; `neg` is the sign of the value rounded. -/
def roundMag (mode : RMode) (neg : Bool) (q : ℚ) : Nat :=
  let i := q.num.natAbs / q.den
  let r := q - (i : ℚ)
  match mode with
  | .rn => if r < 1 / 2 then i else if r = 1 / 2 then (if i % 2 = 0 then i else i + 1) else i + 1
  | .rz => i
  | .ru => if r = 0 || neg then i else i + 1
  | .rd => if r = 0 || !neg then i else i + 1
  | .rs n => if (r * 65536).num.natAbs / (r * 65536).den + n ≥ 65536 then i + 1 else i

/-- What a result that overflows becomes (R66). -/
def overflowBits (f : FpFmt) (mode : RMode) (satf neg : Bool) : Nat :=
  let big := fpEncodeMag f neg f.maxFinite
  if satf || f.sp == .finite then big
  else
    let beyond := match f.sp with | .infNan => f.infBits neg | _ => f.canonNan neg
    match mode with
    | .rn => beyond
    | .rs _ => beyond
    | .rz => big
    | .ru => if neg then big else beyond
    | .rd => if neg then beyond else big

/-- The magnitude of x rounded to the format's precision, the exponent range unbounded above (R65). -/
def roundToMag (f : FpFmt) (mode : RMode) (x : ℚ) : ℚ :=
  let a := if x < 0 then -x else x
  let e := max (floorLog2 a) f.emin - (f.mbits : Int)
  (roundMag mode (x < 0) (a / pow2 e) : ℚ) * pow2 e

/-- Round of a nonzero x, with the flags of R64, R66 and R68. -/
def fpRoundNz (f : FpFmt) (mode : RMode) (satf ftz : Bool) (x : ℚ) : Nat × FpFlags :=
  let neg : Bool := x < 0
  let a := if x < 0 then -x else x
  let r := roundToMag f mode x
  if f.maxFinite < r then (overflowBits f mode satf neg, { ovf := true, nx := true })
  else if r < f.minNormal then
    if ftz then (fpEncodeMag f neg 0, { unf := true, nx := true })
    else (fpEncodeMag f neg r, { unf := r != a, nx := r != a })
  else (fpEncodeMag f neg r, { nx := r != a })

/-- Round(x, fmt, mode); an exact zero takes the given sign (R65). -/
def fpRound (f : FpFmt) (mode : RMode) (satf ftz zneg : Bool) (x : ℚ) : Nat × FpFlags :=
  if x = 0 then (fpEncodeMag f zneg 0, {}) else fpRoundNz f mode satf ftz x

/-- An operand under FTZ: a subnormal becomes a zero of its own sign (R64). -/
def ftzIn (f : FpFmt) (ftz : Bool) (v : FVal) : FVal :=
  match v with
  | .fin n m => if ftz && m < f.minNormal then .fin n 0 else .fin n m
  | w => w

/-- The sign of the first NaN in operand order (R61). -/
def firstNan (l : List FVal) : Option Bool :=
  match l with
  | [] => none
  | .nan n _ :: _ => some n
  | _ :: r => firstNan r

/-- The NaN result of an operation with a NaN operand (R61), if there is one; `bad` says that it is an invalid operation besides. -/
def nanResult (f : FpFmt) (l : List FVal) (bad : Bool := false) : Option (Nat × FpFlags) :=
  (firstNan l).map fun n => (f.canonNan n, { nv := bad || l.any FVal.isSig })

/-- An invalid operation without a NaN operand (R61). -/
def invalidOp (f : FpFmt) : Nat × FpFlags := (f.canonNan false, { nv := true })

/-- The sign of an exact zero sum of two operands (R65). -/
def zeroSumSign (mode : RMode) (n m : Bool) : Bool := if n == m then n else mode == .rd

/-- The exact product of two operands that are not NaN: none for 0 × ∞. -/
def mulVal (a b : FVal) : Option FVal :=
  match a, b with
  | .fin n x, .fin m y => some (.fin (n != m) (x * y))
  | .inf n, .inf m => some (.inf (n != m))
  | .inf n, .fin m y => if y = 0 then none else some (.inf (n != m))
  | .fin n x, .inf m => if x = 0 then none else some (.inf (n != m))
  | _, _ => none

/-- Round of the exact sum of terms that are not NaN (R61, R65): opposite infinities are invalid. -/
def sumRound (f : FpFmt) (mode : RMode) (satf ftz : Bool) (l : List FVal) : Nat × FpFlags :=
  if l.any (fun v => v.isInf && v.neg) && l.any (fun v => v.isInf && !v.neg) then invalidOp f
  else if l.any FVal.isInf then
    let neg := l.any (fun v => v.isInf && v.neg)
    (f.infBits neg, {})
  else
    let zneg := if l.all FVal.neg then true else if l.all (fun v => !v.neg) then false else mode == .rd
    fpRound f mode satf ftz zneg ((l.map FVal.toRat).foldl (· + ·) 0)

/-- Round(a + b). -/
def fpAdd (f : FpFmt) (mode : RMode) (satf ftz : Bool) (x y : Nat) : Nat × FpFlags :=
  let a := ftzIn f ftz (fpDecode f x)
  let b := ftzIn f ftz (fpDecode f y)
  (nanResult f [a, b]).getD (sumRound f mode satf ftz [a, b])

/-- Round(a × b). -/
def fpMul (f : FpFmt) (mode : RMode) (satf ftz : Bool) (x y : Nat) : Nat × FpFlags :=
  let a := ftzIn f ftz (fpDecode f x)
  let b := ftzIn f ftz (fpDecode f y)
  (nanResult f [a, b]).getD
    (match mulVal a b with
      | none => invalidOp f
      | some (.inf n) => (f.infBits n, {})
      | some p => fpRound f mode satf ftz p.neg p.toRat)

/-- The product of two operands that are not NaN is 0 × ∞. -/
def mulBad (a b : FVal) : Bool := !a.isNan && !b.isNan && (mulVal a b).isNone

/-- Round(a × b + c), rounded once; 0 × ∞ is invalid whatever c is (R61). -/
def fpFma (f : FpFmt) (mode : RMode) (satf ftz : Bool) (x y z : Nat) : Nat × FpFlags :=
  let a := ftzIn f ftz (fpDecode f x)
  let b := ftzIn f ftz (fpDecode f y)
  let c := ftzIn f ftz (fpDecode f z)
  (nanResult f [a, b, c] (mulBad a b)).getD
    (match mulVal a b with
      | none => invalidOp f
      | some p => sumRound f mode satf ftz [p, c])

/-- a orders before b, −0 before +0 (R62); neither is NaN. -/
def fltOrd (a b : FVal) : Bool :=
  match a, b with
  | .inf n, .inf m => n && !m
  | .inf n, _ => n
  | _, .inf m => !m
  | a, b =>
    if a.isZero && b.isZero then a.neg && !b.neg else a.toRat < b.toRat

/-- FMIN or FMAX of two encodings (R62); FTZ acts on the operands and the result (R64). -/
def fpMinMax (f : FpFmt) (ftz isMax : Bool) (x y : Nat) : Nat × FpFlags :=
  let a := ftzIn f ftz (fpDecode f x)
  let b := ftzIn f ftz (fpDecode f y)
  let x := match a with | .fin n m => if m = 0 then fpEncodeMag f n 0 else x | _ => x
  let y := match b with | .fin n m => if m = 0 then fpEncodeMag f n 0 else y | _ => y
  let nv := a.isSig || b.isSig
  if a.isNan && b.isNan then (f.canonNan a.neg, { nv := nv })
  else if a.isNan then (y, { nv := nv })
  else if b.isNan then (x, { nv := nv })
  else if isMax then (if fltOrd a b then y else x, {})
  else (if fltOrd b a then y else x, {})

/-- A rounded to an integral value of its own format; the inexact flag is not set (R190). -/
def fpIntegral (f : FpFmt) (mode : RMode) (ftz : Bool) (x : Nat) : Nat × FpFlags :=
  let a := ftzIn f ftz (fpDecode f x)
  match a with
  | .nan n s => (f.canonNan n, { nv := s })
  | .inf n => (f.infBits n, {})
  | .fin n m =>
    let r : ℚ := (roundMag mode n m : Nat)
    (fpEncodeMag f n r, {})

/-- SAT (R69): the rounded result clamped to [+0, +1]. -/
def fpSat (f : FpFmt) (r : Nat × FpFlags) : Nat × FpFlags :=
  let one := fpEncodeMag f false 1
  match fpDecode f r.1 with
  | .nan _ _ => (0, { r.2 with nx := true })
  | .inf n => (if n then 0 else one, { r.2 with nx := true })
  | .fin n m =>
    if m = 0 then (0, r.2)
    else if n then (0, { r.2 with nx := true })
    else if 1 < m then (one, { r.2 with nx := true })
    else r

/-- Conversion of a value into a format (R61, R65, R66): an infinity or a NaN into a format that has none is invalid. The NaN that an infinity
becomes in E4M3 keeps its sign, as the overflow of R66 does (DEDUCED, log entry 32). -/
def fpConvert (f : FpFmt) (mode : RMode) (satf ftz : Bool) (v : FVal) : Nat × FpFlags :=
  match v with
  | .nan n s =>
    match f.sp with
    | .finite => (0, { nv := true })
    | _ => (f.canonNan n, { nv := s })
  | .inf n =>
    match f.sp with
    | .infNan => (f.infBits n, {})
    | .nanOnly => (if satf then fpEncodeMag f n f.maxFinite else f.canonNan n, { nv := true })
    | .finite => (fpEncodeMag f n f.maxFinite, { nv := true })
  | .fin n m => fpRound f mode satf ftz n (if n then -m else m)

/-- Conversion to an integer type with the given range (R70). -/
def fpToInt (mode : RMode) (lo hi : Int) (v : FVal) : Int × FpFlags :=
  match v with
  | .nan _ _ => (0, { nv := true })
  | .inf n => (if n then lo else hi, { nv := true })
  | .fin n m =>
    let r : Int := (roundMag mode n m : Nat)
    let i := if n then -r else r
    if i < lo then (lo, { nv := true })
    else if hi < i then (hi, { nv := true })
    else (i, { nx := ((r : Int) : ℚ) != m })

/-! Special functions: a rational that rounds, in every mode, as the exact value does. -/

/-- ⌊√n⌋ by the bits of the root, b of them. -/
def isqrtAux (n : Nat) (b r : Nat) : Nat :=
  match b with
  | 0 => r
  | k + 1 => let t := r + 2 ^ k; isqrtAux n k (if t * t ≤ n then t else r)
def isqrt (n : Nat) : Nat := isqrtAux n (Nat.log2 n / 2 + 1) 0

/-- Bits below the unit kept for irrational results. -/
def workBits : Nat := 256

/-- i ÷ 2^k if that is exact, else a point strictly between it and (i + 1) ÷ 2^k. -/
def stickyAt (i k : Nat) (exact : Bool) : ℚ :=
  if exact then (i : ℚ) / ((2 ^ k : Nat) : ℚ) else (2 * i + 1 : ℚ) / ((2 ^ (k + 1) : Nat) : ℚ)

/-- √q for a positive q: its bits down to 2^−k, with a sticky half below, k large enough for every rounding. -/
def sqrtSticky (q : ℚ) : ℚ :=
  let k := 1300
  let n := q.num.natAbs * 4 ^ k
  let i := isqrt (n / q.den)
  stickyAt i k (i * i * q.den == n)

/-- 1 ÷ √q for a positive q. -/
def rsqrtSticky (q : ℚ) : ℚ := sqrtSticky (1 / q)

/-- ln 2 × 2^320, rounded down: Σ over k of 1 ÷ (k × 2^k). -/
def ln2Fix : Nat := ((List.range 330).map fun k => 2 ^ 320 / ((k + 1) * 2 ^ (k + 1))).foldl (· + ·) 0

/-- Σ over i of x^i ÷ i!, fixed point with 320 fraction bits, n terms from term t of index i. -/
def expAux (x : Nat) (n i t acc : Nat) : Nat :=
  match n with
  | 0 => acc
  | k + 1 => let t' := t * x / 2 ^ 320 / i; expAux x k (i + 1) t' (acc + t')
/-- e^x for 0 ≤ x < 1, both with 320 fraction bits. -/
def expFix (x : Nat) : Nat := expAux x 80 1 (2 ^ 320) (2 ^ 320)

/-- A number with 320 fraction bits as a point off every rounding boundary. -/
def stickyFix (x : Nat) : ℚ := stickyAt (x / 2 ^ 64) workBits false

/-- 2^x: exact for an integer x; x is clamped where the result overflows or vanishes in every format. -/
def exp2Exact (x : ℚ) : ℚ :=
  if 2000 < x then pow2 2000
  else if x < -2000 then pow2 (-2000)
  else
    let n := x.floor
    let f := x - (n : ℚ)
    if f = 0 then pow2 n
    else pow2 n * stickyFix (expFix ((f.num.natAbs * ln2Fix) / f.den))

/-- Σ over odd powers of z of z^i ÷ i, 320 fraction bits. -/
def atanhAux (z2 : Nat) (n i t acc : Nat) : Nat :=
  match n with
  | 0 => acc
  | k + 1 => let t' := t * z2 / 2 ^ 320; atanhAux z2 k (i + 2) t' (acc + t' / (i + 2))

/-- log2 of m in [1, 2), 320 fraction bits. -/
def log2Fix (m : ℚ) : Nat :=
  let z := (m - 1) / (m + 1)
  let zf := z.num.natAbs * 2 ^ 320 / z.den
  let s := atanhAux (zf * zf / 2 ^ 320) 110 1 zf zf
  2 * s * 2 ^ 320 / ln2Fix

/-- log2 x for a positive x: exact for a power of two. -/
def log2Exact (x : ℚ) : ℚ :=
  let k := floorLog2 x
  let m := x / pow2 k
  if m = 1 then (k : ℚ) else (k : ℚ) + stickyFix (log2Fix m)

/-- 4 × (4 arctan(1/5) − arctan(1/239)) × 2^320: the arctangent series of 1/n, alternating. -/
def atanInvAux (n2 : Nat) (k i t : Nat) (sub : Bool) (acc : Nat) : Nat :=
  match k with
  | 0 => acc
  | j + 1 => let a := t / i; atanInvAux n2 j (i + 2) (t / n2) (!sub) (if sub then acc - a else acc + a)
def piFix : Nat := 16 * atanInvAux 25 150 1 (2 ^ 320 / 5) false 0 - 4 * atanInvAux 57121 50 1 (2 ^ 320 / 239) false 0

/-- The sine series of y, 320 fraction bits. -/
def sinAux (y2 : Nat) (n i t : Nat) (sub : Bool) (acc : Nat) : Nat :=
  match n with
  | 0 => acc
  | k + 1 =>
    let t' := t * y2 / 2 ^ 320 / ((i + 1) * (i + 2))
    sinAux y2 k (i + 2) t' (!sub) (if sub then acc - t' else acc + t')

/-- sin(π × r) for 0 < r < 1/2. -/
def sinPiFirst (r : ℚ) : ℚ :=
  let y := r.num.natAbs * piFix / r.den
  stickyFix (sinAux (y * y / 2 ^ 320) 45 1 y true y)

/-- sin(π × x), exact where 2x is an integer. -/
def sinPiExact (x : ℚ) : ℚ :=
  let r := x - 2 * ((x / 2).floor : ℚ)
  if r = 0 || r = 1 then 0
  else if r = 1 / 2 then 1
  else if r = 3 / 2 then -1
  else if r < 1 / 2 then sinPiFirst r
  else if r < 1 then sinPiFirst (1 - r)
  else if r < 3 / 2 then -sinPiFirst (r - 1)
  else -sinPiFirst (2 - r)

/-- tanh x for a positive x: just below x when x is tiny, just below 1 when x is large. -/
def tanhExact (x : ℚ) : ℚ :=
  if x < pow2 (-40) then x * (1 - pow2 (-90))
  else if 100 < x then 1 - pow2 (-200)
  else
    let y := 2 * (x.num.natAbs * 2 ^ 320 / x.den)
    let n := y / ln2Fix
    let e := expFix (y % ln2Fix) * 2 ^ n
    stickyFix ((e - 2 ^ 320) * 2 ^ 320 / (e + 2 ^ 320))

end Sys2Proof.Machine
end

