-- ==== Sys2Proof/Machine/Barrier.lean ====
section
/-! DEFINITION. Named barriers: when a phase completes, what completing it does, and the WAITM test (R152, R293–R301). -/

namespace Sys2Proof.Machine

/-- Numbers of 64 bits as signed integers. -/
def s64 (x : DWord) : Int := x.toInt

/-- One step of the fold of a BARP (R83, R301). -/
def barFold (op : BarOp) (acc x : DWord) : DWord :=
  let f (r : Nat × FpFlags) : DWord := BitVec.ofNat 64 r.1
  let lo (y : DWord) : Nat := nbits y.toNat 0 32
  match op with
  | .fadd => f (fpAdd .fp32 .rn false false (lo acc) (lo x))
  | .fmin => f (fpMinMax .fp32 false false (lo acc) (lo x))
  | .fmax => f (fpMinMax .fp32 false true (lo acc) (lo x))
  | .iadd => acc + x
  | .umin => if x.toNat < acc.toNat then x else acc
  | .umax => if acc.toNat < x.toNat then x else acc
  | .smin => if s64 x < s64 acc then x else acc
  | .smax => if s64 acc < s64 x then x else acc
  | .and => acc &&& x
  | .or => acc ||| x
  | .xor => acc ^^^ x

/-- The result of a phase's payloads: the contributions in ascending warp index (R83). -/
def barResult (op : BarOp) (cs : Tbl DWord) : DWord :=
  match cs with
  | [] => 0
  | (_, x) :: r =>
    let first := match op with
      | .fadd | .fmin | .fmax => BitVec.ofNat 64 (nbits x.toNat 0 32)
      | _ => x
    r.foldl (fun acc e => barFold op acc e.2) first

/-- The lanes of warp idx of a block that have not ended, wherever its warps are. -/
def State.liveOf (s : State) (b idx : Nat) : LaneMask :=
  match (s.warpsOf b).find? fun e => e.2.idx == idx with
  | some e => e.2.live
  | none => 0

/-- Warp idx has arrived in a barrier's present phase (R294). -/
def State.hasArrived (s : State) (b : Nat) (br : Barrier) (idx : Nat) : Bool :=
  match tget br.arrived idx with
  | none => false
  | some m => s.liveOf b idx &&& ~~~ m == 0

/-- The warps that have arrived in the present phase. -/
def State.arrivals (s : State) (b : Nat) (br : Barrier) : List Nat :=
  (br.arrived.map fun e => e.1).filter fun i => s.hasArrived b br i

/-- COUNTED (R293). -/
def Block.counted (x : Block) (br : Barrier) : List Nat := (List.range x.warps).filter fun i => !br.out.contains i

/-- A split of the block waits on a phase of a barrier. -/
def State.barWaited (s : State) (b bar phase : Nat) : Bool :=
  (s.warpsOf b).any fun w => w.2.entries.any fun e => match e.st with
    | .parked (.barrier n p _ _ _) => n == bar && p == phase
    | _ => false

/-- The present phase is complete (R295). One in which nobody has arrived completes if every warp has left COUNTED, for those that wait on it. -/
def State.barDone (s : State) (b : Nat) (x : Block) (bar : Nat) (br : Barrier) : Bool :=
  let a := s.arrivals b br
  (!a.isEmpty || s.barWaited b bar br.phase.toNat) &&
    match br.count with
    | some e => e ≤ a.length
    | none => (x.counted br).all fun i => a.contains i

/-- Releases the splits of a warp that wait on a phase of a barrier: destinations written, token consumed (R295, R298). -/
def Warp.barRelease (w : Warp) (bar phase : Nat) (q : Bool) (res : DWord) : Warp :=
  let waits (e : Entry) : Bool := match e.st with
    | .parked (.barrier b p _ _ _) => b == bar && p == phase
    | _ => false
  let w' := (w.entries.filter waits).foldl (fun (w : Warp) e =>
    match e.st with
    | .parked (.barrier _ _ qd sd consume) =>
      let w := match qd with | some d => w.qput d q | none => w
      let w := match sd with | some d => w.sput d res | none => w
      if consume then { w with tokens := tdel w.tokens bar } else w
    | _ => w) w
  ({ w' with left := w'.left ++ w'.entries.filter waits, entries := w'.entries.map fun e => if waits e then { e with st := .ready, pc := e.pc + 8 } else e } : Warp).merge

/-- Completes the present phase of a barrier; `last` is the warp whose arrival completed it, none for an exit (R295, R299). -/
def State.barComplete (s : State) (b bar : Nat) (last : Option Nat) : State :=
  match s.block? b with
  | none => s
  | some x =>
    let br := tgetD x.bars bar {}
    let arr := s.arrivals b br
    let det := ((x.counted br).filter fun i => arr.contains i && !br.dropped.contains i).getLast?
    let res := match br.op with | some op => barResult op br.contrib | none => 0
    let ph := br.phase.toNat
    let isDet := ((s.launch? x.launch).map Launch.det).getD false
    let s := forEach ((s.warpsOf b).filter fun e => arr.contains e.2.idx) s fun s e => s.closeCore e.1
    let br' : Barrier :=
      { phase := br.phase + 1, out := br.out ++ br.dropped.filter fun i => !br.out.contains i
        ends := tset br.ends ph { lastBy := last, res := res, det := det } }
    let s := s.modBlock b fun x => { x with bars := tset x.bars bar br' }
    { s with warps := s.warps.map fun e =>
        if e.2.block == b then (e.1, e.2.barRelease bar ph ((if isDet then det else last) == some e.2.idx) res) else e }

/-- Tests one barrier after a change that may have completed its phase (R295). -/
def State.barTest (s : State) (b bar : Nat) (last : Option Nat) : State :=
  match s.block? b with
  | none => s
  | some x =>
    match tget x.bars bar with
    | none => s
    | some br => if s.barDone b x bar br then s.barComplete b bar last else s

/-- Gives the contributions of warps whose arrival has become complete: the value of the lowest live lane (R301). -/
def State.barContrib (s : State) (b bar : Nat) : State :=
  match s.block? b with
  | none => s
  | some x =>
    let br := tgetD x.bars bar {}
    let add := (s.arrivals b br).filter fun i => (tget br.contrib i).isNone
    let cs := add.foldl (fun t i =>
      match tget (tgetD br.vals i []) (lowLane (s.liveOf b i)) with
      | some v => tset t i v
      | none => t) br.contrib
    if add.isEmpty then s else s.modBlock b fun x => { x with bars := tset x.bars bar { br with contrib := cs } }

/-- Tests all barriers of a block after lanes of a warp have ended, which may make its arrival complete, or a warp has exited (R294, R295, R299). -/
def State.barTestAll (s : State) (b : Nat) (last : Option Nat) : State :=
  forEach (List.range 16) s fun s n => (s.barContrib b n).barTest b n last

/-- A warp that has exited leaves COUNTED of every barrier (R295). -/
def State.barExit (s : State) (b idx : Nat) : State :=
  s.modBlock b fun x =>
    { x with bars := (List.range 16).foldl (fun t n =>
        let br := tgetD t n {}
        tset t n { br with out := if br.out.contains idx then br.out else br.out ++ [idx] }) x.bars }

/-- The lanes of a warp parked at WAITM on mN (R152). -/
def Warp.waitmLanes (w : Warp) (n : Nat) : LaneMask :=
  (w.entries.filter fun e => e.st == .parked (.waitm n)).foldl (fun m e => m ||| e.mask) 0

/-- The test of R152 of one mask. -/
def Warp.waitmTest (w : Warp) (n : Nat) : Warp :=
  let ws := w.waitmLanes n
  if ws != 0 && w.mget n &&& ~~~ ws == 0 then
    ({ w with left := w.left ++ w.entries.filter fun e => e.st == .parked (.waitm n)
              entries := w.entries.map fun e =>
        if e.st == .parked (.waitm n) then { e with st := .ready, pc := e.pc + 8 } else e } : Warp).merge
  else w

/-- The test of R152 of every mask. -/
def Warp.waitmTests (w : Warp) : Warp := (List.range 12).foldl (fun w n => w.waitmTest n) w

end Sys2Proof.Machine
end

