-- ==== Sys2Proof/Machine/Frags.lean ====
section
/-! DEFINITION. Rasterisation: which samples a primitive covers, its fragments in a tile, and which member owns a tile
(R376, R377). -/

namespace Sys2Proof.Machine

/-- Positions of the samples of a pixel in sixteenths, by log2 of their number (R376). -/
def samplePos (n : Nat) : List (Nat × Nat) :=
  match n with
  | 0 => [(8, 8)]
  | 1 => [(4, 4), (12, 12)]
  | 2 => [(2, 6), (10, 2), (14, 10), (6, 14)]
  | _ => [(1, 9), (5, 1), (9, 13), (13, 5), (3, 5), (7, 15), (11, 3), (15, 11)]

/-- A point of the plane with its depth. -/
structure Vertex where
  x : ℚ
  y : ℚ
  z : ℚ
  deriving DecidableEq, Repr

/-- The vertices of a primitive from its nine coordinate words: none if one is NaN or infinite. -/
def primVerts (ws : List Word) : Option (Vertex × Vertex × Vertex) :=
  let vs := (ws.take 9).map fun w => fpDecode .fp32 w.toNat
  if vs.any fun v => v.isNan || v.isInf then none
  else
    let q (i : Nat) : ℚ := (vs.getD i (.fin false 0)).toRat
    some ({ x := q 0, y := q 1, z := q 2 }, { x := q 3, y := q 4, z := q 5 }, { x := q 6, y := q 7, z := q 8 })

/-- A of R376: twice the signed area. -/
def primArea (v : Vertex × Vertex × Vertex) : ℚ :=
  (v.2.1.x - v.1.x) * (v.2.2.y - v.1.y) - (v.2.2.x - v.1.x) * (v.2.1.y - v.1.y)

/-- The rasteriser keeps a primitive (R376). -/
def primKept (cull : Nat) (ws : List Word) : Bool :=
  match primVerts ws with
  | none => false
  | some v => let a := primArea v; a != 0 && !(cull.testBit 0 && a < 0) && !(cull.testBit 1 && 0 < a)

/-- A point lies on the inner side of an edge from a to b, or on it where it is top-left; `sg` is the sign of A. -/
def insideEdge (sg : ℚ) (a b : Vertex) (px py : ℚ) : Bool :=
  let e := sg * ((b.x - a.x) * (py - a.y) - (b.y - a.y) * (px - a.x))
  let topLeft := sg * (b.y - a.y) < 0 || (sg * (b.y - a.y) = 0 && 0 < sg * (b.x - a.x))
  0 < e || (e = 0 && topLeft)

/-- The samples of a pixel that a primitive covers. -/
def coverage (samples : Nat) (v : Vertex × Vertex × Vertex) (x y : Nat) : Nat :=
  let sg : ℚ := if 0 < primArea v then 1 else -1
  ((samplePos samples).zipIdx.filter fun s =>
    let px : ℚ := (x : ℚ) + (s.1.1 : ℚ) / 16
    let py : ℚ := (y : ℚ) + (s.1.2 : ℚ) / 16
    insideEdge sg v.1 v.2.1 px py && insideEdge sg v.2.1 v.2.2 px py && insideEdge sg v.2.2 v.1 px py).foldl (fun m s => m + 2 ^ s.2) 0

/-- Z of a pixel: the plane at its centre, rounded once. -/
def fragDepth (v : Vertex × Vertex × Vertex) (x y : Nat) : Word :=
  let a := primArea v
  let cx : ℚ := (x : ℚ) + 1 / 2 - v.1.x
  let cy : ℚ := (y : ℚ) + 1 / 2 - v.1.y
  let b1 := (cx * (v.2.2.y - v.1.y) - (v.2.2.x - v.1.x) * cy) / a
  let b2 := ((v.2.1.x - v.1.x) * cy - cx * (v.2.1.y - v.1.y)) / a
  BitVec.ofNat 32 (fpRound .fp32 .rn false false false (v.1.z + b1 * (v.2.1.z - v.1.z) + b2 * (v.2.2.z - v.1.z))).1

/-- The fragments of a primitive in tile T. -/
def primFrags (id : Nat) (p : Pass) (t : Nat) (e : Nat × List Word) : List Frag :=
  match primVerts e.2 with
  | none => []
  | some v =>
    let x0 := 32 * (t % p.tilesX)
    let y0 := 32 * (t / p.tilesX)
    let cells := (List.range 32).flatMap fun j => (List.range 32).map fun i => (x0 + i, y0 + j)
    cells.filterMap fun c =>
      let cov := coverage p.samples v c.1 c.2
      if cov = 0 then none
      else
        some { pass := id, x := c.1, y := c.2, seq := (p.seqBase + e.1) % 2 ^ 32, cov := cov, prim := (e.2.getD 9 0).toNat
               z := fragDepth v c.1 c.2, tile := t, front := 0 < primArea v, gate := 0 }

/-- The fragments of tile T in ascending sequence. -/
def tileFrags (id : Nat) (p : Pass) (t : Nat) : List Frag := p.prims.flatMap (primFrags id p t)

/-- The member that owns tile T (R377). -/
def tileOwner (p : Pass) (t : Nat) : Nat := (t % p.tilesX + 97 * (t / p.tilesX)) * 0x9E3B % 65536 % p.size

/-- The tiles of a member from T on. -/
def ownTiles (p : Pass) (num t : Nat) : List Nat :=
  (List.range (p.tilesX * p.tilesY)).filter fun n => t ≤ n && tileOwner p n == num

/-- The fragments that a member has not delivered. -/
def undelivered (id : Nat) (p : Pass) (m : PassMember) : Nat :=
  if !p.started then 0
  else m.queue.length +
    if p.tileMode then ((ownTiles p m.num (m.tile + 1)).map fun t => (tileFrags id p t).length).foldl (· + ·) 0 else 0

/-- A member that takes no more fragments: those undelivered are dropped (R389). -/
def PassMember.closed (p : Pass) (m : PassMember) : PassMember := { m with queue := [], fin := false, tile := p.tilesX * p.tilesY }

end Sys2Proof.Machine
end

