-- ==== Sys2Proof/Machine/Ops.lean ====
section
/-! DEFINITION. The shared operations of every instruction: outstanding results and lookahead windows, the register pool,
taking a trap and returning from one, ending lanes and warps, and issuing (chapters 1, 5, 6). -/

namespace Sys2Proof.Machine

/-! ## Outstanding results (R137, R185) -/

/-- The registers that an instruction names, for hazards, mapping and last-use; `gp` is the predicate of its guard. `seen` are the v sources read in
certain lanes and not in the active ones (R197, R214), `put` the p destinations written in certain lanes only (R201). `rel` is how far earlier accesses must
have got before it issues (relMet); `async` says that its destinations arrive later. `home` are the device words on which its engine acts at their
homes, `whole` those of them that it writes in full, `ask` the request that it sends for them (log entry 17). -/
structure Opnds where
  vr  : List Nat := []
  vw  : List Nat := []
  lu  : List Nat := []
  pr  : List Nat := []
  pw  : List Nat := []
  sr  : List Nat := []
  sw  : List Nat := []
  gp  : List Nat := []
  seen : List (Nat × LaneMask) := []
  put : List (Nat × LaneMask) := []
  rel : Nat := 0
  async : Bool := false
  home : List Nat := []
  whole : List Nat := []
  ask : ReqKind := .at
  deriving DecidableEq, Repr

/-- All registers read or written. -/
def Opnds.dests (o : Opnds) : List Dest :=
  (o.vr ++ o.vw).map Dest.v ++ (o.gp ++ o.pr ++ o.pw).map Dest.p ++ (o.sr ++ o.sw).map Dest.s

/-- The registers that an instruction reads in a lane of its split, active or not: its guard's predicate in every lane. -/
def Opnds.readsIn (o : Opnds) (act : LaneMask) (l : Nat) : List Dest :=
  o.gp.map Dest.p ++
    (if act.getLsbD l then (o.vr.filter fun r => !o.seen.any fun x => x.1 == r).map Dest.v ++ o.pr.map Dest.p ++ o.sr.map Dest.s else []) ++
    (o.seen.filter fun x => act != 0 && x.2.getLsbD l).map fun x => Dest.v x.1

/-- Registers written by an instruction, for the windows of earlier results (R185). -/
def Opnds.written (o : Opnds) : List Dest := o.vw.map Dest.v ++ o.pw.map Dest.p ++ o.sw.map Dest.s

/-- A destination that the instruction writes in a lane. -/
def Opnds.putsIn (o : Opnds) (l : Nat) (d : Dest) : Bool :=
  o.written.contains d && !o.put.any fun x => d == .p x.1 && !x.2.getLsbD l

/-- A destination that discards what is written to it: s63 and p7 (R168, R206). -/
def Dest.discards (d : Dest) : Bool := d == .s 63 || d == .p 7

/-- A destination is an s register. -/
def Dest.isS : Dest → Bool
  | .s _ => true
  | _ => false

/-- The registers among ds whose result is outstanding in a lane of m outside a lookahead window; an s register is one for the whole warp, and
lanes outside the window's split wait for it (R208, R223; log entry 129). -/
def Warp.waitsFor (w : Warp) (m : LaneMask) (ds : List Dest) : List Dest :=
  ds.filter fun d => !d.discards && w.results.any fun r => r.dests.contains d &&
    r.lanes.any fun l => if m.getLsbD l.1 then l.2.left == 0 else d.isS

/-- Register d has an outstanding result in some lane. -/
def Warp.outstanding (w : Warp) (d : Dest) : Bool := w.results.any fun r => r.dests.contains d && !r.lanes.isEmpty

/-- Writes the arrived values of one lane of a result to its destinations, except those that a write in the window reached. -/
def Warp.writeResult (w : Warp) (dests : List Dest) (lane : Nat) (lr : LaneRes) : Warp :=
  match lr.vals with
  | none => w
  | some vs =>
    ((dests.zip vs).zipIdx).foldl (fun (w : Warp) e =>
      if lr.kept.contains e.2 then w
      else
        match e.1.1 with
        | .v r => w.vput r lane { bits := BitVec.ofNat 32 e.1.2.1.toNat, poison := e.1.2.2 }
        | .p r => w.pput r lane (e.1.2.1 != 0) e.1.2.2
        | .s r => w.sput r e.1.2.1) w

/-- Indices of the s destinations of a result: written once, by the first lane that is settled. -/
def sIndices (ds : List Dest) : List Nat :=
  (ds.zipIdx.filter fun e => match e.1 with | .s _ => true | _ => false).map fun e => e.2

/-- Settles the lanes of a result whose window has closed and whose values have arrived; the rest of it stays (R185). -/
def settleStep (acc : Warp × List Result) (r : Result) : Warp × List Result :=
  let fin := r.lanes.filter fun l => l.2.left == 0 && l.2.vals.isSome
  let w := match fin with
    | [] => acc.1
    | f :: rest => rest.foldl (fun w l => w.writeResult r.dests l.1 { l.2 with kept := l.2.kept ++ sIndices r.dests })
        (acc.1.writeResult r.dests f.1 f.2)
  let left := r.lanes.filter fun l => !(l.2.left == 0 && l.2.vals.isSome)
  let left := if fin.isEmpty then left else left.map fun l => (l.1, { l.2 with kept := l.2.kept ++ sIndices r.dests })
  (w, if left.isEmpty then acc.2 else acc.2 ++ [{ r with lanes := left }])

/-- Settles every result of a warp. -/
def Warp.settleResults (w : Warp) : Warp :=
  let z := w.results.foldl settleStep ({ w with results := [] }, [])
  { z.1 with results := z.2 }

/-- Closes the windows of a set of lanes (R185: a trap taken by a lane). -/
def Warp.closeWindows (w : Warp) (m : LaneMask) : Warp :=
  ({ w with results := w.results.map fun r =>
      { r with lanes := r.lanes.map fun l => if m.getLsbD l.1 then (l.1, { l.2 with left := 0 }) else l } } : Warp).settleResults

/-- Drops the outstanding results of lanes that have ended (R161). -/
def Warp.dropResults (w : Warp) (m : LaneMask) : Warp :=
  { w with results := (w.results.map fun r => { r with lanes := r.lanes.filter fun l => !m.getLsbD l.1 }).filter
             fun r => !r.lanes.isEmpty }

/-- One instruction of an entry's lanes has issued: writes in windows are kept, and windows shrink (R185). Results named from
`lim` on belong to that instruction. -/
def Warp.afterIssue (w : Warp) (lim : Nat) (lanes written : LaneMask) (o : Opnds) : Warp :=
  ({ w with results := w.results.map fun r =>
      if lim ≤ r.id then r
      else { r with lanes := r.lanes.map fun l =>
        if lanes.getLsbD l.1 && 0 < l.2.left then
          (l.1, { l.2 with left := l.2.left - 1
                           kept := l.2.kept ++ if written.getLsbD l.1 then
                             (r.dests.zipIdx.filter fun e => o.putsIn l.1 e.1).map fun e => e.2 else [] })
        else l } } : Warp).settleResults

/-- The (lane, register) pairs of an instruction of lanes m, of which `act` are active, whose read lies in a lookahead window (R185). -/
def Warp.windowReads (w : Warp) (m act : LaneMask) (o : Opnds) : List (Nat × Dest) :=
  (lanesOf m).flatMap fun l =>
    ((o.readsIn act l).dedup.filter fun d => !d.discards && w.results.any fun r => r.dests.contains d && r.lanes.any fun x => x.1 == l && 0 < x.2.left).map fun d => (l, d)

/-- Number of a register, for TADDR (R156). -/
def Dest.num : Dest → Nat
  | .v r => r
  | .p r => r
  | .s r => r

/-- The earlier accesses of a set of lanes allow an access at a level (log entry 18): 1 no acquire is outstanding (R286); 2
besides, loads have returned and owned stores are performed in the L1; 3 besides, every device write is performed; 4
besides, writes to host and peers are acknowledged (R231). Level 5 is level 3 with every FLCLR of the warp's block completed
(R401), level 6 is level 3 with every RQSTEP of the lanes completed (R415), level 7 both; at level 9 the homes cannot serve the access yet
(R263, R272). -/
def relMet (s : State) (g lvl : Nat) (m : LaneMask) : Bool :=
  let b := ((s.warp? g).map Warp.block).getD 0
  let mine (c : Cmd) : Bool := c.block == b && c.warp == ((s.warp? g).map Warp.idx).getD 0
  let held := (s.core (coreOf g)).cmds.any fun c =>
    ((lvl = 5 || lvl = 7) && c.block == b && c.kind.engine == 2)
      || ((lvl = 6 || lvl = 7) && mine c && match c.kind with | .rqstep l _ => (l &&& m) != 0 | _ => false)
  let lvl := if 5 ≤ lvl && lvl ≤ 7 then 3 else lvl
  lvl != 9 && !held && !(s.core (coreOf g)).ops.any fun o =>
    o.warp == g && (o.lanes &&& m) != 0 &&
      match o.kind with
      | .store | .red => lvl ≥ 4 || (lvl ≥ 3 && o.space.here) || (lvl ≥ 2 && o.pol == .own)
      | .atomic => lvl ≥ 2 || o.ord == .acq || o.ord == .acqRel
      | .load => lvl ≥ 2 || o.ord == .acq
      | _ => false

/-- Pending entries of a warp whose sources are present become ready (R137), and ready ones that earlier accesses held back may issue. -/
def State.wake (s : State) (g : Nat) : State :=
  s.modWarp g fun w =>
    ({ w with entries := w.entries.map fun e =>
        let e := if e.rel != 0 && relMet s g e.rel e.mask then { e with rel := 0 } else e
        if e.st == .pending && (w.waitsFor e.mask e.need).isEmpty then { e with st := .ready, need := [] } else e } : Warp).merge

/-! ## The register pool (R178–R182) -/

/-- The effective floor F of a warp (R178). -/
def Warp.effFloor (w : Warp) : Nat := max w.floor ((w.ceil + 32) / 33)

/-- The warps of a partition. -/
def State.partWarps (s : State) (p : Nat) : Tbl Warp := s.warps.filter fun e => partOf e.1 == p

/-- E_p (R178). -/
def escapeReserve (ws : Tbl Warp) : Nat := ws.foldl (fun m e => max m (e.2.ceil - e.2.effFloor)) 0

/-- Free physical registers of a partition. -/
def State.freeRegs (s : State) (p : Nat) : Nat := 1024 - ((s.partWarps p).map fun e => e.2.vcount).foldl (· + ·) 0

/-- A request for n registers can be granted now (R179). -/
def canGrant (s : State) (g n : Nat) : Bool :=
  let p := partOf g
  let ws := s.partWarps p
  let e := escapeReserve ws
  let holder := (s.part p).holder
  let a := match holder.bind fun h => tget ws h with
    | some h => min e (h.vcount - h.effFloor)
    | none => 0
  if holder = some g then n ≤ s.freeRegs p else n + (e - a) ≤ s.freeRegs p

/-- The warp order of R140, each with the entry that it would issue or request for; of warps that issued in the same cc the lower slot goes first (log
entry 130). -/
def warpBefore (a b : Nat × Warp × Entry) : Bool :=
  let old (x : Nat × Warp × Entry) := x.2.1.age ≥ 1024
  if old a != old b then old a
  else if old a then a.1 < b.1
  else if a.2.1.cls != b.2.1.cls then b.2.1.cls < a.2.1.cls
  else if a.2.2.prio != b.2.2.prio then b.2.2.prio < a.2.2.prio
  else if a.2.1.lastIssue != b.2.1.lastIssue then a.2.1.lastIssue < b.2.1.lastIssue
  else a.1 < b.1

/-- The requests that wait in a partition: warp, entry, registers. -/
def poolRequests (s : State) (k : Nat) : List ((Nat × Warp × Entry) × List Nat) :=
  (s.partWarps k).flatMap fun x => x.2.entries.filterMap fun e =>
    match e.st with
    | .parked (.pool rs _) => some ((x.1, x.2, e), rs)
    | _ => none

/-- The still needed registers of a request: some may have been mapped since. -/
def stillNeeded (w : Warp) (rs : List Nat) : List Nat := rs.filter fun r => !w.isMapped r

/-- A request is reserved (R179). -/
def reservedReq (s : State) (k : Nat) (x : (Nat × Warp × Entry) × List Nat) : Bool :=
  let w := x.1.2.1
  let ent := if (s.part k).holder = some x.1.1 then w.ceil else w.effFloor
  w.vcount + (stillNeeded w x.2).length ≤ ent

/-- A split that issues may have n new registers at once (R179, R183): they can be granted, and no reserved request that ranks before it waits. -/
def mayGrant (s : State) (g : Nat) (w : Warp) (e : Entry) (n : Nat) : Bool :=
  canGrant s g n && !(poolRequests s (partOf g)).any fun x => reservedReq s (partOf g) x && warpBefore x.1 (g, w, e)

/-- The holder ceases to be holder when its count falls to its floor, or it is gone (R180). -/
def State.holderCheck (s : State) (p : Nat) : State :=
  match (s.part p).holder with
  | none => s
  | some h =>
    match s.warp? h with
    | some w =>
      if w.live = 0 || ((s.part p).above && w.vcount ≤ w.effFloor) then s.modPart p fun x => { x with holder := none, above := false }
      else s.modPart p fun x => { x with above := x.above || w.effFloor < w.vcount }
    | none => s.modPart p fun x => { x with holder := none, above := false }

/-- The instruction of the partition's choice has issued. -/
def State.turnDone (s : State) (p : Nat) : State :=
  match (s.part p).turn with
  | none => s
  | some t => s.modPart p fun x => { x with turn := some { t with issued := true } }

/-- The partition's own records after an instruction of it has issued: its escape holder and its choice (R142, R180). -/
def State.issueDone (s : State) (p : Nat) : State := (s.holderCheck p).turnDone p

/-- Virtual address of a spilled register's words and of its poison mask (R182). -/
def spillAddr (l : Launch) (b : Block) (w : Warp) (r : Nat) : Nat := spillArea l b w.idx + 128 * (r - w.effFloor)
def spillMaskAddr (l : Launch) (b : Block) (w : Warp) (r : Nat) : Nat :=
  spillArea l b w.idx + 128 * (w.ceil - w.effFloor) + 4 * (r - w.effFloor)

/-- Refills a spilled register from its record (R182): the DETAIL and address of a translation fault if it meets one. -/
def refill (s : State) (g r : Nat) : Except (Nat × Nat) State :=
  match s.warp? g, s.blockOf g, s.launchOf g with
  | some w, some b, some l =>
    let a := spillAddr l b w r
    let m := spillMaskAddr l b w r
    match translate s (coreOf g) l.asid 0 a .read, translate s (coreOf g) l.asid 0 m .read with
    | .ok pa, .ok pm =>
      let mask := natOfLe (s.cohRead pm 4).1
      let maskBad := (s.cohRead pm 4).2
      let w := (List.range 32).foldl (fun (w : Warp) l =>
        let x := s.cohRead (pa + 4 * l) 4
        { w with v := tput w.v (vkey r l)
                        { bits := BitVec.ofNat 32 (natOfLe x.1), poison := mask.testBit l || x.2 || maskBad } .unmapped }) w
      .ok (s.modWarp g fun _ => { w with mapped := setBit256 w.mapped r true, spilled := setBit256 w.spilled r false })
    | .error d, _ => .error (d, a)
    | _, .error d => .error (d, m)
  | _, _, _ => .ok s

/-- Refills every spilled register of a list. -/
def refillAll (s : State) (g : Nat) (rs : List Nat) : Except (Nat × Nat) State :=
  match rs with
  | [] => .ok s
  | r :: t =>
    match (s.warp? g).map fun w => w.isSpilled r with
    | some true => match refill s g r with | .ok s => refillAll s g t | .error e => .error e
    | _ => refillAll s g t

/-- The spilled sources that an instruction frees: it reads them from their records without mapping them (R204). -/
def borrowed (w : Warp) (o : Opnds) : List Nat :=
  o.vr.filter fun r => w.isSpilled r && o.lu.contains r && !o.vw.contains r && !w.outstanding (.v r)

/-- New physical registers that an instruction needs (R179): first writes, and refills of spilled registers. -/
def poolNeed (w : Warp) (o : Opnds) : List Nat :=
  ((o.vr.filter fun r => w.isSpilled r && !(borrowed w o).contains r) ++ o.vw.filter fun r => r < w.ceil && !w.isMapped r).dedup

/-- Borrowed registers that the instruction has not freed stay spilled: their records stand (R204). -/
def Warp.giveBack (w : Warp) (rs : List Nat) : Warp :=
  rs.foldl (fun (w : Warp) r => if w.isMapped r then { (w.vfree r) with spilled := setBit256 (w.vfree r).spilled r true } else w) w

/-! ## The end of lanes, warps and blocks (R161, R134) -/

/-- A split waits on a Stall-table entry: one with the same future, in the same address space, and in the same block where the
future lies in the block's own or its gang's scratchpad (R317). -/
def stallWaits (s : State) (core : Nat) (e : StallEntry) (g : Nat) (w : Warp) (y : Entry) : Bool :=
  coreOf g == core && s.asidOf g == e.asid && (nbits e.addr.toNat 60 4 ≤ 3 || w.block == e.block) &&
    match y.st with
    | .parked (.future a _ _) => a == e.addr
    | _ => false

/-- Stall-table entries of a core that no split waits on any more go (R317). -/
def State.stallTidy (s : State) (core : Nat) : State :=
  s.modCore core fun c => { c with stall := c.stall.filter fun e => s.warps.any fun x => x.2.entries.any fun y => stallWaits s core e x.1 x.2 y }

/-- Waiter links of splits that no longer wait are removed, with WCNT at byte 24 of the header (R314). -/
def State.linkTidy (s : State) : State :=
  forEach s.waiters s fun s h =>
    let linked (k : Nat) (e : Entry) : Bool := match e.st with
      | .parked (.queueLink n _ _) => n == k
      | _ => false
    let keep := h.2.filter fun x => (s.warp? x.1).any fun w => w.entries.any (linked x.2)
    if keep.length = h.2.length then s
    else
      let s := { s with waiters := if keep.isEmpty then tdel s.waiters h.1 else tset s.waiters h.1 keep }
      s.cohWrite (h.1 + 24) [BitVec.ofNat 8 keep.length]

/-- A block that has exited and whose commands have completed gives back everything it holds (R134, R389). -/
def State.blockFree (s : State) (b : Nat) : State :=
  match s.block? b with
  | none => s
  | some x =>
    let lost := (s.passes.flatMap fun (p : Nat × Pass) => (p.2.members.filter fun m => m.block == b).map (undelivered p.1 p.2)).foldl (· + ·) 0
    let s := (s.count .fragmentLost lost).freeGuards b fun _ => false
    let close (p : Pass) (m : PassMember) : PassMember := if m.block == b then m.closed p else m
    let s := { s with
      passes := s.passes.map fun (p : Nat × Pass) => (p.1, { p.2 with members := p.2.members.map (close p.2) })
      warps := s.warps.filter fun e => e.2.block != b
      blocks := tdel s.blocks b }
    let s := s.modCore x.core fun c =>
      { c with bindings := c.bindings.filter fun e => e.block != b
               claims := c.claims.filter fun e => e.block != b }
    let s := s.stallTidy x.core
    s.modLaunch x.launch fun l => { l with done := l.done + 1, slotsUsed := l.slotsUsed.filter fun n => n != x.slot }

/-- Every warp of the block has exited. -/
def Block.allExited (x : Block) : Bool := (List.range x.warps).all fun i => x.exited.contains i

/-- Every warp of the block has exited: with its last copy or matrix command its guard slots become unresolved (R339), with its last command it gives back
everything. -/
def State.blockExitTest (s : State) (b : Nat) : State :=
  match s.block? b with
  | none => s
  | some x =>
    if x.st == .saved || !x.allExited then s
    else if (s.blockCmds b).isEmpty then s.blockFree b
    else if (s.blockCmds b).any fun c => c.kind.isCopy || c.kind.isMatrix then s
    else s.freeGuards b fun _ => false

/-- The last warp of a block has exited: some of its commands end (R344, R371), and the block may be done. -/
def State.blockExit (s : State) (b : Nat) : State :=
  match s.block? b with
  | none => s
  | some x => if x.allExited then (s.exitCmds b x.core).blockExitTest b else s

/-- The warp has no lane left: its opens close, barriers are tested, the block may exit (R161, R281, R295). -/
def State.warpExit (s : State) (g : Nat) : State :=
  match s.warp? g with
  | none => s
  | some w =>
    let s := s.closeWarp g
    let s := s.modBlock w.block fun x => { x with exited := if x.exited.contains w.idx then x.exited else x.exited ++ [w.idx] }
    let s := s.barExit w.block w.idx
    let s := s.barTestAll w.block none
    s.blockExit w.block

/-- Ends lanes of a warp (R161): frontier, masks, results, queries and fragments; then what depends on them. -/
def State.endLanes (s : State) (g : Nat) (m : LaneMask) : State :=
  match s.warp? g with
  | none => s
  | some w =>
    let m := m &&& w.live
    if m = 0 then s
    else
      let s := releaseFragments s g m
      let s := s.modWarp g fun w =>
        let w := (w.dropLanes m).dropResults m
        ({ w with live := w.live &&& ~~~ m
                  m := (w.m.map fun e => (e.1, e.2 &&& ~~~ m)).filter fun e => e.2 != 0
                  rays := w.rays.filter fun e => !m.getLsbD e.1
                  heldFrees := w.heldFrees.map fun h => { h with lanes := h.lanes &&& ~~~ m }
                  marks := (w.marks.map fun k => { k with lanes := k.lanes &&& ~~~ m }).filter fun k => k.lanes != 0 } : Warp).waitmTests
      let s := (s.stallTidy (coreOf g)).linkTidy
      if w.live &&& ~~~ m = 0 then s.warpExit g else s.barTestAll w.block (some w.idx)

/-! ## Taking a trap and returning from one (R154–R160) -/

/-- The handler's address of a core (R157); 0 means no handler. -/
def Core.vec (c : Core) : DWord := BitVec.ofNat 64 (nbits c.trapVec.toNat 3 54 * 8)

/-- Takes the traps of lanes that have left their entry: TCAUSE, TPC, TADDR and TPRIO are written, INH is set, windows
close, ordered sections end, and the lanes form one entry in state trap at the vector with PRIO 63 (R154). A lane with INH
set, or with no handler, ends (R158). -/
def State.takeTraps (s : State) (g : Nat) (pc : DWord) (prio : Nat) (ts : List (Nat × TrapInfo)) : State :=
  match s.warp? g with
  | none => s
  | some w =>
    let vec := (s.core (coreOf g)).vec
    let dbl := ts.filter fun t => (w.trapOf t.1).inh
    let unh := if vec = 0 then ts.filter fun t => !(w.trapOf t.1).inh else []
    let go := if vec = 0 then [] else ts.filter fun t => !(w.trapOf t.1).inh
    let gom := maskOf (go.map fun t => t.1)
    let s := (s.count .doubleTrap dbl.length).count .unhandledTrap unh.length
    let s := forEach unh s fun s t => s.tell (.unhandledTrap (((s.blockOf g).map Block.launch).getD 0) t.2.cause pc)
    let s := leaveSections s g gom
    let n := s.newId
    let s := n.1.modWarp g fun w =>
      let w := go.foldl (fun (w : Warp) t =>
        w.setTrap t.1 { inh := true, tprio := prio, detail := t.2.detail, cause := t.2.cause, tpc := pc, taddr := t.2.addr }) w
      let w := w.closeWindows gom
      if gom = 0 then w
      else { w with entries := w.entries ++ [{ eid := n.2, pc := vec, prio := 63, mask := gom, st := .trap }] }
    s.endLanes g (maskOf ((dbl ++ unh).map fun t => t.1))

/-- TPC and TPRIO of a lane that returns from its handler, `next` eight bytes on (R160). -/
def Warp.trapReturn (w : Warp) (l : Nat) (next : Bool) : Warp × DWord × Nat :=
  let t := w.trapOf l
  (w.setTrap l { t with inh := false }, if next then t.tpc + 8 else t.tpc, t.tprio)

/-! ## Issuing (R10, R20, R137) -/

/-- What becomes of lanes at an instruction; lanes with no fate go on at PC + 8. -/
inductive Fate
  | to (pc : DWord) (prio : Nat)
  | park (w : Wait)
  | held (until_ : Nat)
  | late (need : List Dest)
  | trap (t : TrapInfo)
  | ended
  deriving DecidableEq, Repr

/-- Fates of disjoint sets of lanes. -/
abbrev Fates := List (LaneMask × Fate)

def fateLanes (fs : Fates) (p : Fate → Bool) : LaneMask := fs.foldl (fun m f => if p f.2 then m ||| f.1 else m) 0

def Fate.isTrap : Fate → Bool
  | .trap _ => true
  | _ => false
def Fate.isEnd : Fate → Bool
  | .ended => true
  | _ => false
/-- The lanes do not complete the instruction at this issue and will execute it again. -/
def Fate.isAgain : Fate → Bool
  | .park (.absentLine _) => true
  | .park (.pool _ _) => true
  | .park (.commandQueue) => true
  | .park (.member _) => true
  | .park .listOrder => true
  | _ => false

/-- The entry that a fate other than a trap or an end makes for its lanes. -/
def fateEntry (e : Entry) (eid : Nat) (m : LaneMask) (f : Fate) : Option Entry :=
  match f with
  | .to pc prio => some { eid := eid, pc := pc, prio := prio, mask := m, st := .ready, held := e.held, heldUntil := e.heldUntil }
  | .park w => some { eid := eid, pc := e.pc, prio := e.prio, mask := m, st := .parked w, held := e.held, heldUntil := e.heldUntil }
  | .held u => some { eid := eid, pc := e.pc + 8, prio := e.prio, mask := m, st := .ready, held := true, heldUntil := u }
  | .late need => some { eid := eid, pc := e.pc + 8, prio := e.prio, mask := m, st := .pending, late := true, need := need, held := e.held, heldUntil := e.heldUntil }
  | .trap _ => none
  | .ended => none

/-- The instruction that the model is executing: warp, its entry, the lanes of the split that issue it, the lanes that pass
the guard, and those whose guard predicate is poisoned. -/
structure Ctx where
  g     : Nat
  e     : Entry
  lanes : LaneMask
  act   : LaneMask
  pg    : LaneMask
  deriving DecidableEq, Repr

/-- The issuing entry goes on behind its instruction, without the lanes that have a fate of their own. -/
def Warp.stepOff (w : Warp) (e : Entry) (gone : LaneMask) : Warp :=
  { w with entries := (w.entries.map fun x =>
      if x.eid == e.eid then { x with mask := x.mask &&& ~~~ gone, pc := e.pc + 8, st := .ready, age := 0, late := false, rel := 0 }
      else x).filter fun x => x.mask != 0 }

/-- The tests of a frontier after an instruction: merging and WAITM (R138, R152). -/
def Warp.tidy (w : Warp) : Warp := w.merge.waitmTests

/-- A fate that keeps its lanes in the frontier gives them an entry. -/
def placeFate (g : Nat) (e : Entry) (s : State) (f : LaneMask × Fate) : State :=
  match fateEntry e s.nextId f.1 f.2 with
  | some x => s.newId.1.modWarp g fun w => { w with entries := w.entries ++ [x] }
  | none => s

/-- The lanes that trap, each with its trap. -/
def fateTraps (fs : Fates) : List (Nat × TrapInfo) :=
  fs.flatMap fun f => match f.2 with
    | .trap t => (lanesOf f.1).map fun l => (l, t)
    | _ => []

/-- Gives the lanes of the issuing entry their places (R137, R138); a lane that the instruction has ended takes no trap (R161). -/
def settle (s : State) (g : Nat) (e : Entry) (fs : Fates) : State :=
  let fs := fs.filter fun f => f.1 != 0
  let s := s.modWarp g fun w => w.stepOff e (fateLanes fs fun _ => true)
  let s := forEach fs s (placeFate g e)
  let ts := (fateTraps fs).filter fun t => ((s.warp? g).map Warp.live).any fun m => m.getLsbD t.1
  let s := if ts.isEmpty then s else s.takeTraps g e.pc e.prio ts
  let s := s.endLanes g (fateLanes fs Fate.isEnd)
  s.modWarp g Warp.tidy

/-- Keeps only the given lanes' values of a register that was freed and mapped afresh (R172). -/
def Warp.keepLanes (w : Warp) (r : Nat) (m : LaneMask) : Warp :=
  { w with v := w.v.filter fun e => e.1 / 32 != r || m.getLsbD (e.1 % 32) }

/-- The last-use bits of an instruction act (R172): `done` are the lanes whose destinations this step wrote. -/
def Warp.lastUse (w : Warp) (lim : Nat) (o : Opnds) (done : LaneMask) : Warp :=
  let act := o.lu.dedup.filter fun r => !(w.results.any fun x => x.id < lim && x.dests.contains (.v r) && !x.lanes.isEmpty)
  act.foldl (fun (w : Warp) r =>
    if o.vw.contains r && done != 0 then w.keepLanes r (if o.async then 0 else done) else w.vfree r) w

/-- Lanes that were parked at an instruction trap: its last-use bits have no effect at all, whatever its other lanes do (R172). -/
def Warp.voidHeld (w : Warp) (m : LaneMask) : Warp :=
  { w with heldFrees := (w.heldFrees.map fun h =>
      if (h.lanes &&& m) != 0 then { h with regs := [], lanes := h.lanes &&& ~~~ m } else h).filter fun h => h.lanes != 0 }

/-- The last-use bits when lanes of the split parked at the instruction, or come back from having parked (R172). -/
def Warp.lastUseHeld (w : Warp) (lim : Nat) (pc : DWord) (o : Opnds) (lanes again done : LaneMask) (trapped : Bool) : Warp :=
  match w.heldFrees.find? fun h => h.pc == pc && (h.lanes &&& lanes) != 0 with
  | some h =>
    let rest := (h.lanes &&& ~~~ lanes) ||| again
    let others := w.heldFrees.filter fun x => !(x == h)
    let regs := if trapped then [] else h.regs
    if rest = 0 then
      ({ w with heldFrees := others } : Warp).lastUse lim { o with lu := regs } done
    else { w with heldFrees := others ++ [{ h with lanes := rest, regs := regs }] }
  | none =>
    if o.lu.isEmpty then w
    else if again != 0 then { w with heldFrees := w.heldFrees ++ [{ pc := pc, regs := if trapped then [] else o.lu, lanes := again }] }
    else if trapped then w
    else w.lastUse lim o done

/-- The watchdog of a warp about to issue (R163): the lanes that trap instead of issuing, and the count. -/
def Warp.budgetTake (w : Warp) (m : LaneMask) : Warp × LaneMask :=
  let user := m &&& ~~~ w.inhLanes m
  match w.budget with
  | none => (w, 0)
  | some 0 => (w, user)
  | some (n + 1) => if user = 0 then (w, 0) else ({ w with budget := some n }, 0)

/-- The other entries age, HELD clears in them, and the warp's own age returns to 0 (R141–R143). -/
def Warp.aged (w : Warp) (eid now : Nat) : Warp :=
  { w with age := 0, lastIssue := now
           entries := w.entries.map fun e =>
             if e.eid == eid then e
             else { e with age := if e.st == .ready then min 1024 (e.age + 1) else e.age, held := false } }

/-- How a poisoned guard predicate acts: it has no visible effect (NOP, LAND, YIELD), drops the lane (PREF), traps first (R144), poisons the
destinations (R176), or is left to the instruction's own order of checks (R177). -/
inductive GuardKind | ignored | drops | traps | poisons | own
  deriving DecidableEq, Repr

def poisonTrap (a : DWord) : TrapInfo := { cause := 0x0B, detail := 0, addr := a }

/-- Lanes that pass the guard, and lanes whose guard is poisoned (R30). -/
def guardLanes (w : Warp) (gd : Guard) (m : LaneMask) : LaneMask × LaneMask :=
  let pg := if gd.n = 7 then 0 else m &&& tgetD w.pp gd.n 0
  let t := (lanesOf m).filter fun l => w.pget gd.n l != gd.neg
  (maskOf t &&& ~~~ pg, pg)

/-- The split that a step executes, if `cur` names one that is ready. -/
def State.issuing (s : State) : Option (Nat × Warp × Entry) :=
  s.cur.bind fun c => (s.warp? c.1).bind fun w => (w.entry? c.2).bind fun e => if e.st == .ready then some (c.1, w, e) else none

/-- The entry whose next instruction the partition looks at, or that issues it: the operands of an instruction that depend on the split. -/
def State.looking (s : State) : Option (Nat × Warp × Entry) :=
  s.cur.bind fun c => (s.warp? c.1).bind fun w => (w.entry? c.2).bind fun e =>
    if e.st == .ready || e.st == .asked then some (c.1, w, e) else none

/-- The present split does not issue: its entry is pending on results, or stays ready until earlier accesses have got far enough (R137). -/
def makePending (s : State) (g eid : Nat) (need : List Dest) (rel : Nat) : State :=
  s.idle.modWarp g fun w =>
    (w.modEntry eid fun e => { e with st := if need.isEmpty then .ready else .pending, need := need, rel := rel }).merge

/-- An access of a warp to a device word has not been performed (R285: program order on a word). -/
def State.wordPending (s : State) (g w : Nat) : Bool := (s.core (coreOf g)).ops.any fun o =>
  o.warp == g && o.space == .device && o.kind != .prefetch && o.parts.any fun q => q.st != .done && q.sec == w / 8 && q.words.getLsbD (w % 32)

/-- An instruction's engine may act on its device words now (log entry 17). -/
def homeOpen (s : State) (g : Nat) (o : Opnds) : Bool :=
  o.home.isEmpty || (s.homeReady (coreOf g) o.whole o.home && !o.home.any (s.wordPending g))

/-- What the next instruction of an entry waits for: results of its registers, and the level that earlier accesses, or the homes, have still to
reach. -/
def blockers (s : State) (g : Nat) (w : Warp) (e : Entry) (o : Opnds) : List Dest × Nat :=
  (w.waitsFor e.mask o.dests, if o.rel != 0 && !relMet s g o.rel e.mask then o.rel else if homeOpen s g o then 0 else 9)

/-- The split waits for what holds its instruction back; for words that the homes cannot serve yet the engine asks. -/
def holdBack (s : State) (g eid : Nat) (o : Opnds) (b : List Dest × Nat) : State :=
  makePending (if b.1.isEmpty && b.2 == 9 then s.homeAsk (coreOf g) o.ask o.whole o.home else s) g eid b.1 b.2

/-- The answer to a partition that looks at an entry (R137, R140). -/
def answerAsk (s : State) (o : Opnds) : Host.Outcome State Fault Refusal :=
  match s.looking with
  | none => .refused .noIssuingSplit
  | some (g, w, e) => .next (holdBack s g e.eid o (blockers s g w e o))

/-- The effect of an instruction: the new state and the fates of its lanes. -/
abbrev Body := State → Ctx → State × Fates

/-- Finishes the issue of a split whose instruction's body has given a state and fates: last-use bits, windows, ages, the lanes'
places. `lim` is the first name given by the instruction itself. -/
def finishBody (lim : Nat) (g : Nat) (e : Entry) (o : Opnds) (lanes act pg : LaneMask) (z : State × Fates) : State :=
  let trapped := fateLanes z.2 Fate.isTrap
  let again := fateLanes z.2 Fate.isAgain
  let done := (act ||| pg) &&& ~~~ trapped &&& ~~~ again
  let s := z.1.modWarp g fun w =>
    ((w.lastUseHeld lim e.pc o lanes again done (trapped != 0)).afterIssue lim lanes done o).aged e.eid z.1.now
  let s := settle s g e z.2
  s.idle.issueDone (partOf g)

/-- Runs the body of an instruction over a split that is about to issue, and finishes the issue. -/
def runBody (s : State) (g : Nat) (e : Entry) (o : Opnds) (lanes act pg : LaneMask) (pre : Fates) (body : Body) : State :=
  let z := body (s.modWarp g fun w => w.modEntry e.eid fun x => { x with st := .issuing })
    { g := g, e := e, lanes := lanes, act := act, pg := pg }
  finishBody s.nextId g e o lanes act pg (z.1, pre ++ z.2)

/-- Issues a lane or uniform instruction (R10): hazards, the watchdog, lookahead reads under DEBUG, the register pool, then the
body. `sel` gives the lanes that execute and those with a poisoned guard. -/
def issueCore (s : State) (o : Opnds) (sel : Warp → LaneMask → LaneMask × LaneMask) (kind : GuardKind) (body : Body) :
    Host.Outcome State Fault Refusal :=
  match s.issuing with
  | none => answerAsk s o
  | some (g, w, e) =>
    let b := blockers s g w e o
    if !b.1.isEmpty || b.2 != 0 then .next (holdBack s g e.eid o b)
    else
      let bt := w.budgetTake e.mask
      let lanes := e.mask &&& ~~~ bt.2
      let sl := sel w lanes
      let wr := w.windowReads lanes sl.1 (if kind == .ignored then { o with gp := [] } else o)
      let dbg := if s.flagOf g Launch.debug then wr else []
      let dm := maskOf (dbg.map fun x => x.1)
      let lanes := lanes &&& ~~~ dm
      let act := sl.1 &&& ~~~ dm
      let pg := sl.2 &&& ~~~ dm
      let readers := act ||| (if kind == .poisons then pg else 0)
      let pool := if readers = 0 then [] else poolNeed w o
      let lent := if readers = 0 then [] else borrowed w o
      let unread := if act = 0 then [] else o.vr.filter fun r => !(w.isMapped r) && !(w.isSpilled r)
      if !pool.isEmpty && !mayGrant s g w e pool.length then
        let s := (s.count .poolStall 1).modWarp g fun w =>
          w.modEntry e.eid fun x => { x with st := .parked (.pool pool (unread.filter fun r => pool.contains r).length) }
        .next s.idle
      else
        let wdog : Fates := [(bt.2, .trap { cause := 0x06, detail := 0, addr := 0 })]
        let dbgF : Fates := (lanesOf dm).map fun l =>
          (laneBit l, .trap { cause := 0x0E, detail := 0
                              addr := BitVec.ofNat 64 (((dbg.find? fun x => x.1 == l).map fun x => x.2.num).getD 0) })
        let pgF : Fates := if kind == .traps then [(pg, .trap (poisonTrap 0))] else []
        let s1 := s.modWarp g fun _ => bt.1
        let s1 := s1.count .lookaheadViolation wr.length
        let s1 := if act = 0 then s1
          else (s1.count .unmappedRead unread.length).count
            .registerRange (o.vw.filter fun r => w.ceil ≤ r).length
        match refillAll s1 g (if readers = 0 then [] else (o.vr ++ o.vw).filter fun r => w.isSpilled r) with
        | .error f =>
          .next (runBody s1 g e { vr := [] } lanes 0 0
            (wdog ++ dbgF ++ [(readers, .trap { cause := 0x11, detail := f.1, addr := BitVec.ofNat 64 f.2 })]
              ++ if kind == .traps || kind == .own then [(pg, .trap (poisonTrap 0))] else []) fun s _ => (s, []))
        | .ok s2 =>
          let s2 := if o.home.isEmpty then s2
            else if o.ask == .at then s2.aluTaken (coreOf g) o.home else s2.homeTaken (coreOf g) o.home
          let t := runBody s2 g e o lanes act (if kind == .traps then 0 else pg) (wdog ++ dbgF ++ pgF) body
          .next (if lent.isEmpty then t else t.modWarp g fun w => w.giveBack lent)

/-- Issues a lane instruction with its guard (R30). -/
def issueLane (s : State) (gd : Guard) (kind : GuardKind) (o : Opnds) (body : Body) : Host.Outcome State Fault Refusal :=
  issueCore s { o with gp := [gd.n] } (fun w m => guardLanes w gd m) kind body

/-- The operands of a uniform instruction whose guard is false: it acts on no memory (R205). -/
def Opnds.under (o : Opnds) (s : State) (gd : Guard) : Opnds :=
  if o.home.isEmpty || s.looking.all fun x => x.2.1.qget gd.n != gd.neg then o else { o with home := [], whole := [] }

/-- Issues a uniform instruction: its body runs once for the split if the guard is true (R205). -/
def issueUni (s : State) (gd : Guard) (o : Opnds) (body : Body) : Host.Outcome State Fault Refusal :=
  issueCore s (o.under s gd) (fun w m => (if w.qget gd.n != gd.neg then m else 0, 0)) .own fun s c =>
    if c.act = 0 then (s, []) else body s c

/-- All lanes of a split trap (R207, R291). -/
def trapAll (s : State) (c : Ctx) (t : TrapInfo) : State × Fates := (s, [(c.act, .trap t)])

/-- A decode fault: every lane of the split traps before the guard is evaluated (R11, R43). -/
def decodeTrap (s : State) (g : Nat) (e : Entry) (cause : Nat) (word : DWord) : State :=
  match s.warp? g with
  | none => s
  | some w =>
    let bt := w.budgetTake e.mask
    let lanes := e.mask &&& ~~~ bt.2
    runBody (s.modWarp g fun _ => bt.1) g e {} lanes 0 0
      [(bt.2, .trap { cause := 0x06, detail := 0, addr := 0 }), (lanes, .trap { cause := cause, detail := 0, addr := word })]
      fun s _ => (s, [])

end Sys2Proof.Machine
end

