-- ==== Sys2Proof/Machine/Fetch.lean ====
section
/-! DEFINITION. Fetching an instruction word from the yard's instruction cache, and what a step does with it (R132, R42). -/

namespace Sys2Proof.Machine

/-- The line of the instruction cache of a yard that holds a virtual line. -/
def State.iline? (s : State) (yard asid vline : Nat) : Option ILine :=
  s.icache.find? fun l => l.yard == yard && l.asid == asid && l.vline == vline

/-- The instruction word at a PC of a warp, if its line is in the yard's cache. -/
def fetchWord (s : State) (g : Nat) (pc : DWord) : Option DWord :=
  (s.iline? (coreOf g / 8) (s.asidOf g) (pc.toNat / 128)).map fun l => l.words.getD (pc.toNat / 8 % 16) 0

/-- A miss freezes the sequencer of the partition and counts a schedule-slip event (R132). -/
def fetchMiss (s : State) (g : Nat) (pc : DWord) : State :=
  let s := s.count .scheduleSlip 1
  { s.modPart (partOf g) fun p => { p with frozen := some (s.asidOf g, pc.toNat / 128, g, pc.toNat) } with cur := none }

/-- The instruction word at a device virtual address, as a fetch by a warp would see it (R148, R149): none where it does not translate or carries
poison. -/
def codeWord (s : State) (g va : Nat) : Option DWord :=
  match s.iline? (coreOf g / 8) (s.asidOf g) (va / 128) with
  | some l => some (l.words.getD (va / 8 % 16) 0)
  | none =>
    match translate s (coreOf g) (s.asidOf g) 0 (va / 8 * 8) .fetch with
    | .error _ => none
    | .ok pa => let x := s.cohRead pa 8; if x.2 then none else some (BitVec.ofNat 64 (natOfLe x.1))

/-- The block of a warp runs in firmware context (R438). -/
def inFirmware (s : State) (g : Nat) : Bool := ((s.blockOf g).map Block.firmware).getD false

/-- What the word at the PC of a split is: an instruction, or the cause of its decode fault (R42, R43). -/
def decodeAt (s : State) (g : Nat) (word : DWord) : Except Nat Instr :=
  if isSystemWord word.toNat && !inFirmware s g then .error 0x01
  else
    match decodeWord word with
    | .ok i => .ok i
    | .error .illegalInstruction => .error 0x01
    | .error _ => .error 0x02

/-- The device words of a virtual line of code, if it translates. -/
def codeSpan (s : State) (core asid vline : Nat) : List Nat :=
  match translate s core asid 0 (128 * vline) .fetch with
  | .ok pa => wordSpan pa 128
  | .error _ => []

/-- Reads a line of code for a fetch (R132), an RD-N at its present value (R270, R271): its words, or the DETAIL of the instruction-fetch fault: that of the walk (R255),
0 where the line carries poison or is outside the address space. -/
def readCodeLine (s : State) (core asid vline : Nat) : Except Nat (List DWord) :=
  if 2 ^ 57 ≤ 128 * vline then .error 0
  else
    match translate s core asid 0 (128 * vline) .fetch with
    | .error d => .error d
    | .ok pa =>
      let x := s.cohRead pa 128
      if x.2 then .error 0
      else .ok ((List.range 16).map fun i => BitVec.ofNat 64 (natOfLe ((x.1.drop (8 * i)).take 8)))

/-- Lines of a yard's instruction cache: 512 KiB of 128 B (R132). -/
def icacheLines : Nat := 4096

/-- Puts a line into a yard's instruction cache; the line that came first goes when it is full (log entry 21). -/
def State.putLine (s : State) (yard asid vline : Nat) (ws : List DWord) : State :=
  let rest := s.icache.filter fun l => !(l.yard == yard && l.asid == asid && l.vline == vline)
  let rest := if (rest.filter fun l => l.yard == yard).length < icacheLines then rest
    else (rest.reverse.eraseP fun l => l.yard == yard).reverse
  { s with icache := { yard := yard, asid := asid, vline := vline, words := ws } :: rest }

/-- A warp with a whole block and launch around it, for a state that has no split about to issue: core 0, partition 0,
slot 0, all lanes ready at address 0 (log entry 8). -/
def State.withSplit (s : State) (firmware : Bool) : State :=
  let w : Warp :=
    { block := 0, idx := 0, core := 0, part := 0, slot := 0, floor := 1, ceil := 256, live := BitVec.allOnes 32
      entries := [{ eid := 0, pc := 0, prio := 32, mask := BitVec.allOnes 32, st := .ready }] }
  let b : Block :=
    { launch := 0, lin := 0, wid := 0, core := 0, base := 0, variant := 0, warps := 1, slot := 0, spadBase := 0
      spadBytes := 262144, quantumEnd := 0, firmware := firmware }
  let v : Variant := { pcOff := 0, floor := 1, ceil := 256, spad := 262144 }
  let e : EntryRec :=
    { codeBase := 0, warps := 1, vmask := 1, carryRegs := 0, carryBound := 0, switchCnt := 0, roleCnt := 0, variants := [v]
      roles := [], switch := [] }
  let l : Launch :=
    { id := 0, asid := 0, depth := 0, entry := e, args := 0, seed := 0, flags := 0, wdog := 0, widths := [5, 0, 0, 0, 0, 0]
      extents := [32, 1, 1, 1, 1, 1], gangField := 0, localSize := 256, localSlots := 1, localBase := 0, argCount := 0
      argStride := 8, chunkMin := 1, pinQuota := 0, complete := 0, queues := [0, 0, 0, 0], admitted := [0] }
  { s with warps := tset s.warps 0 w, blocks := tset s.blocks 0 b, launches := tset s.launches 0 l, cur := some (0, 0) }

/-- A word placed where the split about to issue fetches its next instruction. -/
def State.placeWord (s : State) (word : DWord) : State :=
  match s.issuing with
  | none => s
  | some (g, _, e) =>
    let y := coreOf g / 8
    let a := s.asidOf g
    let vl := e.pc.toNat / 128
    let ws := ((s.iline? y a vl).map fun l => l.words).getD []
    s.putLine y a vl ((List.range 16).map fun i => if i = e.pc.toNat / 8 % 16 then word else ws.getD i 0)

end Sys2Proof.Machine
end

