-- ==== Sys2Proof/Machine/Operands.lean ====
section
/-! DEFINITION. Operand forms: the registers that operand fields name, immediates, and the common shapes of lane and uniform
instructions (R29, R30, R32, R176, R187). -/

namespace Sys2Proof.Machine

/-- Registers that a v source of n registers names, and those that its last-use bit frees. -/
def Src.regs (a : Src) (n : Nat) : List Nat := regsFrom a.reg n
def Src.luRegs (a : Src) (n : Nat) : List Nat := if a.lu then regsFrom a.reg n else []

/-- v sources with their widths in registers, as operands. -/
def srcOpnds (l : List (Src × Nat)) : Opnds :=
  { vr := l.flatMap fun x => Src.regs x.1 x.2, lu := l.flatMap fun x => Src.luRegs x.1 x.2 }

/-- The operands with destination registers added. -/
def Opnds.toV (o : Opnds) (d n : Nat) : Opnds := { o with vw := o.vw ++ regsFrom d n }
def Opnds.toP (o : Opnds) (d : Nat) : Opnds := { o with pw := d :: o.pw }
def Opnds.fromP (o : Opnds) (p : Nat) : Opnds := { o with pr := p :: o.pr }
def Opnds.later (o : Opnds) : Opnds := { o with async := true }

/-- The warp, the lanes and the active lanes of the split that is to issue, for operands that depend on values: none of them without such a split. -/
def lookingLanes (s : State) (gd : Guard) : Option (Nat × Warp × Entry × LaneMask) :=
  s.looking.map fun x => (x.1, x.2.1, x.2.2, (guardLanes x.2.1 gd x.2.2.mask).1)

/-- A 20-bit immediate sign-extended to a width (R32). -/
def immInt (imm w : Nat) : Nat := if imm < 2 ^ 19 then imm else (imm + 2 ^ w - 2 ^ 20) % 2 ^ w

/-- A 20-bit immediate as an FP32 word (R32). -/
def immF32 (imm : Nat) : Nat := imm * 2 ^ 12

/-- A lane's operand: its bits and its poison tag. -/
abbrev LaneOp := Nat × Bool

/-- V.Read of n registers (R49). -/
def vread (w : Warp) (a : Src) (n l : Nat) : LaneOp := w.vgetN a.reg n l

/-- A write of one lane's results: v groups as (register, count, value, poison), p registers as (number, value, poison). -/
structure LaneOut where
  v : List (Nat × Nat × Nat × Bool) := []
  p : List (Nat × Bool × Bool) := []
  flags : Word := 0
  deriving DecidableEq, Repr

/-- Applies one lane's results. -/
def Warp.putOut (w : Warp) (l : Nat) (o : LaneOut) : Warp :=
  let w := o.v.foldl (fun (w : Warp) x => w.vputN x.1 x.2.1 l x.2.2.1 x.2.2.2) w
  let w := o.p.foldl (fun (w : Warp) x => w.pput x.1 l x.2.1 x.2.2) w
  { w with fflags := w.fflags ||| o.flags }

/-- Lanes whose guard is poisoned: their destination lanes keep their values and become poisoned (R176). -/
def Warp.poisonDests (w : Warp) (m : LaneMask) (o : Opnds) : Warp :=
  (lanesOf m).foldl (fun (w : Warp) l =>
    let w := o.vw.foldl (fun (w : Warp) r => w.vpoison r l) w
    o.pw.foldl (fun (w : Warp) r => w.ppoisonAt r l) w) w

/-- The destinations of an instruction marked (L) with LA > 0 become an outstanding result with an open window in each lane
that executes it (R185); with LA = 0 they are written at once. -/
def Warp.deliver (w : Warp) (id la : Nat) (outs : List (Nat × LaneOut)) : Warp :=
  if la = 0 || outs.isEmpty then outs.foldl (fun (w : Warp) x => w.putOut x.1 x.2) w
  else
    let regsOf (o : LaneOut) : List (Dest × DWord × Bool) :=
      (o.v.flatMap fun x => (List.range x.2.1).map fun i =>
        (Dest.v (x.1 + i), BitVec.ofNat 64 (nbits x.2.2.1 (32 * i) 32), x.2.2.2)) ++
      o.p.map fun x => (Dest.p x.1, if x.2.1 then 1 else 0, x.2.2)
    let ds := match outs with
      | [] => []
      | x :: _ => (regsOf x.2).map fun e => e.1
    let r : Result :=
      { id := id, dests := ds, done := true
        lanes := outs.map fun x => (x.1, { left := la, vals := some ((regsOf x.2).map fun e => e.2) }) }
    let w := ds.foldl (fun (w : Warp) d => match d with | .v r => w.vmap r | _ => w) w
    { w with results := w.results ++ [r], fflags := outs.foldl (fun f x => f ||| x.2.flags) w.fflags }

/-- The result latency of a lane instruction that may raise flags (R186). -/
def latencyOf (word : Nat) : Nat :=
  let op := nbits word 53 10
  match op / 64 with
  | 2 => if nbits word 4 3 = 2 && op % 32 < 12 then 16 else 4
  | 3 => if nbits word 4 3 = 2 && op % 64 < 8 then 48 else 24
  | _ => 16

/-- Flags that an instruction raises are set until it retires: a clear meanwhile leaves them set (R72, R217). -/
def Warp.raise (w : Warp) (now lat : Nat) (f : Word) : Warp :=
  if f = 0 then w else { w with due := (w.due.filter fun d => now ≤ d.1) ++ [(now + lat, f)] }

/-- The cc that the instruction of a split takes to retire. -/
def splitLatency (s : State) (c : Ctx) : Nat := ((fetchWord s c.g c.e.pc).map fun x => latencyOf x.toNat).getD 0

/-- The flags that the lanes of an instruction raise. -/
def outFlags (outs : List (Nat × LaneOut)) : Word := outs.foldl (fun f x => f ||| x.2.flags) 0

/-- The common shape of a lane instruction of groups 0x1 to 0x4 (R187): `f` gives the results of each active lane from the
warp as it was before the instruction. -/
def laneOp (s : State) (g : Guard) (la : Nat) (o : Opnds) (f : State → Ctx → Warp → Nat → LaneOut) :
    Host.Outcome State Fault Refusal :=
  issueLane s g .poisons { o with async := la != 0 } fun s c =>
    match s.warp? c.g with
    | none => (s, [])
    | some w =>
      let outs := (lanesOf c.act).map fun l => (l, f s c w l)
      let n := s.newId
      (n.1.modWarp c.g fun w => ((w.deliver n.2 la outs).poisonDests c.pg o).raise s.now (splitLatency s c) (outFlags outs), [])

end Sys2Proof.Machine
end

