-- ==== Sys2Proof/Machine/Flags.lean ====
section
/-! DEFINITION. The sticky flags FFLAGS (R71, R72): which bits an element's conditions set. -/

namespace Sys2Proof.Machine

/-- The flag bits of conditions at element position p (R71). -/
def FpFlags.bits (f : FpFlags) (p : Nat) : Word := flagBits f.nv f.dz f.ovf f.unf f.nx p

/-- The flags of a lane: none if an operand is poisoned (R72). -/
def laneFlags (poison : Bool) (f : Word) : Word := if poison then 0 else f

/-- The flags of elements at positions 0 upward. -/
def elemFlags (l : List FpFlags) : Word := (l.zipIdx.map fun e => e.1.bits e.2).foldl (· ||| ·) 0

/-- SREG.W FFLAGS: a write clears the bits that are set in the value (R71, R216). -/
def clearFlags (fflags : Word) (x : DWord) : Word := fflags &&& ~~~ BitVec.ofNat 32 (nbits x.toNat 0 20)

/-- The flags of a warp's instructions that still run at a cc (R217). -/
def Warp.dueAt (w : Warp) (now : Nat) : Word := ((w.due.filter fun d => now ≤ d.1).map fun d => d.2).foldl (· ||| ·) 0

end Sys2Proof.Machine
end

