-- ==== Sys2Proof/Machine/LaneInt.lean ====
section
/-! DEFINITION. Lane group 0x1: integer instructions (R188, R189). -/

namespace Sys2Proof.Machine

/-- Element width, signedness, elements a register group and registers of an integer type (R39, R58). -/
def ityWidth (t : IntTy) : Nat :=
  match t with
  | .s32 | .n32 => 32
  | .s64 | .n64 => 64
  | .s16x2 | .n16x2 => 16
  | .s8x4 | .n8x4 => 8
def itySigned (t : IntTy) : Bool :=
  match t with
  | .s32 | .s64 | .s16x2 | .s8x4 => true
  | _ => false
def ityElems (t : IntTy) : Nat :=
  match t with
  | .s16x2 | .n16x2 => 2
  | .s8x4 | .n8x4 => 4
  | _ => 1
def ityRegs (t : IntTy) : Nat := match t with | .s64 | .n64 => 2 | _ => 1

/-- A w-bit number as an integer, signed or not. -/
def toI (signed : Bool) (w x : Nat) : Int := if signed && 2 ^ (w - 1) ≤ x then (x : Int) - (2 ^ w : Nat) else x

/-- An integer modulo 2^w. -/
def ofI (w : Nat) (i : Int) : Nat := (i % ((2 ^ w : Nat) : Int)).toNat

/-- The range of a type. -/
def loOf (signed : Bool) (w : Nat) : Int := if signed then -((2 ^ (w - 1) : Nat) : Int) else 0
def hiOf (signed : Bool) (w : Nat) : Int := if signed then ((2 ^ (w - 1) : Nat) : Int) - 1 else ((2 ^ w : Nat) : Int) - 1

/-- Sat(x, lo, hi) (R49). -/
def satI (x lo hi : Int) : Int := if x < lo then lo else if hi < x then hi else x

/-- An exact result as an element: clamped under SAT, else modulo 2^w (R188). -/
def fitI (t : IntTy) (sat : Bool) (i : Int) : Nat :=
  let w := ityWidth t
  ofI w (if sat then satI i (loOf (itySigned t) w) (hiOf (itySigned t) w) else i)

/-- Element i of a value. -/
def elemOf (w x i : Nat) : Nat := nbits x (w * i) w

/-- Packs elements, the first lowest. -/
def packElems (w : Nat) (l : List Nat) : Nat :=
  match l with
  | [] => 0
  | x :: r => x + 2 ^ w * packElems w r

/-- Applies an exact integer operation to the elements of two values. -/
def elemwise2 (t : IntTy) (sat : Bool) (f : Int → Int → Int) (a b : Nat) : Nat :=
  let w := ityWidth t
  packElems w ((List.range (ityElems t)).map fun i => fitI t sat (f (toI (itySigned t) w (elemOf w a i)) (toI (itySigned t) w (elemOf w b i))))

def elemwise3 (t : IntTy) (sat : Bool) (f : Int → Int → Int → Int) (a b c : Nat) : Nat :=
  let w := ityWidth t
  let e (x i : Nat) := toI (itySigned t) w (elemOf w x i)
  packElems w ((List.range (ityElems t)).map fun i => fitI t sat (f (e a i) (e b i) (e c i)))

def elemwise1 (t : IntTy) (sat : Bool) (f : Int → Int) (a : Nat) : Nat :=
  let w := ityWidth t
  packElems w ((List.range (ityElems t)).map fun i => fitI t sat (f (toI (itySigned t) w (elemOf w a i))))

/-- One v result of n registers. -/
def vout (d n x : Nat) (poison : Bool) : LaneOut := { v := [(d, n, x, poison)] }

/-- Two v sources and a v destination of the type's width. -/
def int2 (s : State) (f : IntF) (d : Nat) (a b : Src) (op : Nat → Nat → Nat) : Host.Outcome State Fault Refusal :=
  let n := ityRegs f.t
  laneOp s f.g 0 ((srcOpnds [(a, n), (b, n)]).toV d n) fun _ _ w l =>
    let x := vread w a n l
    let y := vread w b n l
    vout d n (op x.1 y.1) (x.2 || y.2)

/-- A v source and an immediate in place of B (R32). -/
def int2i (s : State) (f : IntF) (d : Nat) (a : Src) (imm : Nat) (op : Nat → Nat → Nat) : Host.Outcome State Fault Refusal :=
  let n := ityRegs f.t
  laneOp s f.g 0 ((srcOpnds [(a, n)]).toV d n) fun _ _ w l =>
    let x := vread w a n l
    vout d n (op x.1 (immInt imm (ityWidth f.t))) x.2

/-- One v source. -/
def int1 (s : State) (f : IntF) (d nd : Nat) (a : Src) (op : Nat → Nat) : Host.Outcome State Fault Refusal :=
  let n := ityRegs f.t
  laneOp s f.g 0 ((srcOpnds [(a, n)]).toV d nd) fun _ _ w l =>
    let x := vread w a n l
    vout d nd (op x.1) x.2

/-- Three v sources of given widths. -/
def int3 (s : State) (f : IntF) (d nd na nb nc : Nat) (a b c : Src) (op : Nat → Nat → Nat → Nat) :
    Host.Outcome State Fault Refusal :=
  laneOp s f.g 0 ((srcOpnds [(a, na), (b, nb), (c, nc)]).toV d nd) fun _ _ w l =>
    let x := vread w a na l
    let y := vread w b nb l
    let z := vread w c nc l
    vout d nd (op x.1 y.1 z.1) (x.2 || y.2 || z.2)

/-! ## Values (R188, R189) -/

def addVal (f : IntF) (a b : Nat) : Nat := elemwise2 f.t f.sat (fun x y => x + y) a b
def subVal (f : IntF) (a b : Nat) : Nat := elemwise2 f.t f.sat (fun x y => x - y) a b
def mulVal' (f : IntF) (a b : Nat) : Nat := elemwise2 f.t f.sat (fun x y => x * y) a b
def mulhiVal (f : IntF) (a b : Nat) : Nat :=
  let w := ityWidth f.t
  elemwise2 f.t false (fun x y => (x * y) / ((2 ^ w : Nat) : Int)) a b
def minVal (f : IntF) (a b : Nat) : Nat := elemwise2 f.t false (fun x y => if y < x then y else x) a b
def maxVal (f : IntF) (a b : Nat) : Nat := elemwise2 f.t false (fun x y => if x < y then y else x) a b
def absVal (f : IntF) (a : Nat) : Nat := elemwise1 f.t f.sat (fun x => if x < 0 then -x else x) a

/-- The complement of a w-bit number. -/
def notN (w x : Nat) : Nat := 2 ^ w - 1 - x % 2 ^ w

/-- The operations of LOGIC (R188). -/
def logicVal (op : LogicOp) (w a b : Nat) : Nat :=
  match op with
  | .and => a &&& b
  | .or => a ||| b
  | .xor => a ^^^ b
  | .andn => a &&& notN w b
  | .orn => a ||| notN w b
  | .xnor => notN w (a ^^^ b)
  | .not => notN w a
  | .pass => a

def logicBool (op : LogicOp) (a b : Bool) : Bool :=
  match op with
  | .and => a && b
  | .or => a || b
  | .xor => a != b
  | .andn => a && !b
  | .orn => a || !b
  | .xnor => a == b
  | .not => !a
  | .pass => a

/-- SHL (R189). -/
def shlVal (f : IntF) (wrap : Bool) (a b : Nat) : Nat :=
  let w := ityWidth f.t
  let k := if wrap then b % w else b
  let x := toI (itySigned f.t) w a
  if w ≤ k then (if f.sat then fitI f.t true (x * ((2 ^ w : Nat) : Int)) else 0)
  else fitI f.t f.sat (x * ((2 ^ k : Nat) : Int))

/-- SHR (R189). -/
def shrVal (f : IntF) (wrap : Bool) (a b : Nat) : Nat :=
  let w := ityWidth f.t
  let k := if wrap then b % w else b
  let x := toI (itySigned f.t) w a
  ofI w (x / ((2 ^ (if w ≤ k then w else k) : Nat) : Int))

/-- FUNNEL (R189). -/
def funnelVal (f : IntF) (r wrap : Bool) (a b c : Nat) : Nat :=
  let k := if wrap then c % 32 else if c < 32 then c else 32
  let x := b * 2 ^ 32 + a
  if r then ofI 32 (toI (itySigned f.t) 64 x / ((2 ^ k : Nat) : Int)) else nbits (x * 2 ^ k) 32 32

/-- Field extract (R189). -/
def xfldVal (f : IntF) (a b : Nat) : Nat :=
  let w := ityWidth f.t
  let pos := nbits b 0 8
  let len := min (nbits b 8 8) w
  if len = 0 then 0
  else
    let x := ofI len (toI (itySigned f.t) w a / ((2 ^ pos : Nat) : Int))
    ofI w (toI (itySigned f.t) len x)

/-- Field insert (R189). -/
def ifldVal (f : IntF) (a b c : Nat) : Nat :=
  let w := ityWidth f.t
  let pos := nbits c 0 8
  let len := min (nbits c 8 8) w
  let m := ((2 ^ len - 1) * 2 ^ pos) % 2 ^ w
  (a &&& notN w m) ||| ((b * 2 ^ pos) % 2 ^ w &&& m)

/-- MKMASK (R189). -/
def mkmaskVal (f : IntF) (a b : Nat) : Nat :=
  let w := ityWidth f.t
  if w ≤ a then 0 else ((2 ^ (min b w) - 1) * 2 ^ a) % 2 ^ w

/-- SCADD (R188): A + (Ext(B) × 2^s) mod 2^64. -/
def scaddVal (f : IntF) (sh a b : Nat) : Nat := ofI 64 ((a : Int) + toI (itySigned f.t) 32 b * ((2 ^ sh : Nat) : Int))

/-- Number of set bits, leading zeros, and reversal of a w-bit number. -/
def popcount (w x : Nat) : Nat := ((List.range w).filter fun i => x.testBit i).length
def lzcount (w x : Nat) : Nat := if x = 0 then w else w - 1 - Nat.log2 x
def bitrevVal (w x : Nat) : Nat := packElems 1 ((List.range w).map fun i => nbits x (w - 1 - i) 1)

/-- SUM3 (R188). -/
def sum3Val (f : IntF) (mb mc : Bool) (a b c : Nat) : Nat :=
  elemwise3 f.t f.sat (fun x y z => x + (if mb then -y else y) + (if mc then -z else z)) a b c

/-- DOT4 (R188). -/
def dot4Val (f : IntF) (sa sb : Bool) (a b c : Nat) : Nat :=
  let p := (List.range 4).map fun i => toI sa 8 (elemOf 8 a i) * toI sb 8 (elemOf 8 b i)
  fitI f.t f.sat (toI (itySigned f.t) 32 c + p.foldl (· + ·) 0)

/-- The comparisons of CMP and USETP. -/
def cmpInt (op : CmpOp) (x y : Int) : Bool :=
  match op with
  | .eq => x == y
  | .ne => x != y
  | .lt => x < y
  | .le => x ≤ y
  | .gt => y < x
  | .ge => y ≤ x

def cmpVal (t : IntTy) (op : CmpOp) (a b : Nat) : Bool :=
  cmpInt op (toI (itySigned t) (ityWidth t) a) (toI (itySigned t) (ityWidth t) b)

/-! ## Meanings -/

def execAdd (f : IntF) (d : Nat) (a b : Src) (s : State) : Host.Outcome State Fault Refusal := int2 s f d a b (addVal f)
def execAddVi (f : IntF) (d : Nat) (a : Src) (imm : Nat) (s : State) : Host.Outcome State Fault Refusal := int2i s f d a imm (addVal f)
def execSub (f : IntF) (d : Nat) (a b : Src) (s : State) : Host.Outcome State Fault Refusal := int2 s f d a b (subVal f)
def execSubVi (f : IntF) (d : Nat) (a : Src) (imm : Nat) (s : State) : Host.Outcome State Fault Refusal := int2i s f d a imm (subVal f)
def execMul (f : IntF) (d : Nat) (a b : Src) (s : State) : Host.Outcome State Fault Refusal := int2 s f d a b (mulVal' f)
def execMulVi (f : IntF) (d : Nat) (a : Src) (imm : Nat) (s : State) : Host.Outcome State Fault Refusal := int2i s f d a imm (mulVal' f)
def execMulhi (f : IntF) (d : Nat) (a b : Src) (s : State) : Host.Outcome State Fault Refusal := int2 s f d a b (mulhiVal f)
def execMuladd (f : IntF) (d : Nat) (a b c : Src) (s : State) : Host.Outcome State Fault Refusal :=
  let n := ityRegs f.t
  int3 s f d n n n n a b c fun x y z => elemwise3 f.t f.sat (fun x y z => x * y + z) x y z
def execSum3 (f : IntF) (mb mc : Bool) (d : Nat) (a b c : Src) (s : State) : Host.Outcome State Fault Refusal :=
  let n := ityRegs f.t
  int3 s f d n n n n a b c (sum3Val f mb mc)
def execDot4 (f : IntF) (sa sb : Bool) (d : Nat) (a b c : Src) (s : State) : Host.Outcome State Fault Refusal :=
  int3 s f d 1 1 1 1 a b c (dot4Val f sa sb)
def execMin (f : IntF) (d : Nat) (a b : Src) (s : State) : Host.Outcome State Fault Refusal := int2 s f d a b (minVal f)
def execMinVi (f : IntF) (d : Nat) (a : Src) (imm : Nat) (s : State) : Host.Outcome State Fault Refusal := int2i s f d a imm (minVal f)
def execMax (f : IntF) (d : Nat) (a b : Src) (s : State) : Host.Outcome State Fault Refusal := int2 s f d a b (maxVal f)
def execMaxVi (f : IntF) (d : Nat) (a : Src) (imm : Nat) (s : State) : Host.Outcome State Fault Refusal := int2i s f d a imm (maxVal f)
def execAbs (f : IntF) (d : Nat) (a : Src) (s : State) : Host.Outcome State Fault Refusal := int1 s f d (ityRegs f.t) a (absVal f)

/-- LOGIC (R188): NOT and PASS read A alone. -/
def execLogic (f : IntF) (op : LogicOp) (d : Nat) (a b : Src) (s : State) : Host.Outcome State Fault Refusal :=
  match op with
  | .not => int1 s f d (ityRegs f.t) a fun x => logicVal .not (ityWidth f.t) x 0
  | .pass => int1 s f d (ityRegs f.t) a fun x => logicVal .pass (ityWidth f.t) x 0
  | op => int2 s f d a b (logicVal op (ityWidth f.t))
def execLogicVi (f : IntF) (op : LogicOp) (d : Nat) (a : Src) (imm : Nat) (s : State) : Host.Outcome State Fault Refusal :=
  int2i s f d a imm (logicVal op (ityWidth f.t))

/-- PLOGIC (R188): poison under the arithmetic row of R176. -/
def execPlogic (g : Guard) (op : LogicOp) (d a b c : Nat) (s : State) : Host.Outcome State Fault Refusal :=
  let one := op == .not || op == .pass
  laneOp s g 0 (({ pr := if one then [a, c] else [a, b, c] } : Opnds).toP d) fun _ _ w l =>
    { p := [(d, logicBool op (w.pget a l) (!one && w.pget b l) && w.pget c l,
        w.ppoison a l || (!one && w.ppoison b l) || w.ppoison c l)] }

/-- A value operand and a 32-bit count (R189). -/
def intShift (s : State) (f : IntF) (d : Nat) (a b : Src) (op : Nat → Nat → Nat) : Host.Outcome State Fault Refusal :=
  let n := ityRegs f.t
  laneOp s f.g 0 ((srcOpnds [(a, n), (b, 1)]).toV d n) fun _ _ w l =>
    let x := vread w a n l
    let y := vread w b 1 l
    vout d n (op x.1 y.1) (x.2 || y.2)

/-- The count of a VI form of SHL or SHR: B at the operand's width, as the immediate gives it (R32, R189). -/
def execShl (f : IntF) (wrap : Bool) (d : Nat) (a b : Src) (s : State) : Host.Outcome State Fault Refusal :=
  intShift s f d a b (shlVal f wrap)
def execShlVi (f : IntF) (wrap : Bool) (d : Nat) (a : Src) (imm : Nat) (s : State) : Host.Outcome State Fault Refusal :=
  int2i s f d a imm (shlVal f wrap)
def execShr (f : IntF) (wrap : Bool) (d : Nat) (a b : Src) (s : State) : Host.Outcome State Fault Refusal :=
  intShift s f d a b (shrVal f wrap)
def execShrVi (f : IntF) (wrap : Bool) (d : Nat) (a : Src) (imm : Nat) (s : State) : Host.Outcome State Fault Refusal :=
  int2i s f d a imm (shrVal f wrap)
def execFunnel (f : IntF) (r wrap : Bool) (d : Nat) (a b c : Src) (s : State) : Host.Outcome State Fault Refusal :=
  int3 s f d 1 1 1 1 a b c (funnelVal f r wrap)

/-- SCADD (R188): A and D are pairs, B is one register. -/
def execScadd (f : IntF) (sh : Nat) (d : Nat) (a b : Src) (s : State) : Host.Outcome State Fault Refusal :=
  laneOp s f.g 0 ((srcOpnds [(a, 2), (b, 1)]).toV d 2) fun _ _ w l =>
    let x := vread w a 2 l
    let y := vread w b 1 l
    vout d 2 (scaddVal f sh x.1 y.1) (x.2 || y.2)

def execBcnt (f : IntF) (d : Nat) (a : Src) (s : State) : Host.Outcome State Fault Refusal := int1 s f d 1 a (popcount (ityWidth f.t))
def execLzc (f : IntF) (d : Nat) (a : Src) (s : State) : Host.Outcome State Fault Refusal := int1 s f d 1 a (lzcount (ityWidth f.t))
def execBitrev (f : IntF) (d : Nat) (a : Src) (s : State) : Host.Outcome State Fault Refusal :=
  int1 s f d (ityRegs f.t) a (bitrevVal (ityWidth f.t))
def execXfld (f : IntF) (d : Nat) (a b : Src) (s : State) : Host.Outcome State Fault Refusal := intShift s f d a b (xfldVal f)
def execIfld (f : IntF) (d : Nat) (a b c : Src) (s : State) : Host.Outcome State Fault Refusal :=
  let n := ityRegs f.t
  int3 s f d n n n 1 a b c (ifldVal f)
def execMkmask (f : IntF) (d : Nat) (a b : Src) (s : State) : Host.Outcome State Fault Refusal :=
  laneOp s f.g 0 ((srcOpnds [(a, 1), (b, 1)]).toV d (ityRegs f.t)) fun _ _ w l =>
    let x := vread w a 1 l
    let y := vread w b 1 l
    vout d (ityRegs f.t) (mkmaskVal f x.1 y.1) (x.2 || y.2)

/-- CMP (R188). -/
def execCmp (f : IntF) (op : CmpOp) (d : Nat) (a b : Src) (c : Nat) (s : State) : Host.Outcome State Fault Refusal :=
  let n := ityRegs f.t
  laneOp s f.g 0 (((srcOpnds [(a, n), (b, n)]).toP d).fromP c) fun _ _ w l =>
    let x := vread w a n l
    let y := vread w b n l
    { p := [(d, cmpVal f.t op x.1 y.1 && w.pget c l, x.2 || y.2 || w.ppoison c l)] }
def execCmpVi (f : IntF) (op : CmpOp) (d : Nat) (a : Src) (imm : Nat) (s : State) : Host.Outcome State Fault Refusal :=
  let n := ityRegs f.t
  laneOp s f.g 0 ((srcOpnds [(a, n)]).toP d) fun _ _ w l =>
    let x := vread w a n l
    { p := [(d, cmpVal f.t op x.1 (immInt imm (ityWidth f.t)), x.2)] }

/-- PICK (R188, R176): the chosen source's poison; a poisoned predicate gives B, poisoned. -/
def pickVal (w : Warp) (p l : Nat) (x y : LaneOp) : LaneOp :=
  if w.ppoison p l then (y.1, true) else if w.pget p l then x else y

def execPick (f : IntF) (p : Nat) (d : Nat) (a b : Src) (s : State) : Host.Outcome State Fault Refusal :=
  let n := ityRegs f.t
  laneOp s f.g 0 (((srcOpnds [(a, n), (b, n)]).toV d n).fromP p) fun _ _ w l =>
    let r := pickVal w p l (vread w a n l) (vread w b n l)
    vout d n r.1 r.2
def execPickVi (f : IntF) (p : Nat) (d : Nat) (a : Src) (imm : Nat) (s : State) : Host.Outcome State Fault Refusal :=
  let n := ityRegs f.t
  laneOp s f.g 0 (((srcOpnds [(a, n)]).toV d n).fromP p) fun _ _ w l =>
    let r := pickVal w p l (vread w a n l) (immInt imm (ityWidth f.t), false)
    vout d n r.1 r.2
def execMov (f : IntF) (d : Nat) (a : Src) (s : State) : Host.Outcome State Fault Refusal := int1 s f d (ityRegs f.t) a fun x => x

/-- MOVI writes an unpoisoned immediate (R175, R188). -/
def execMovi (g : Guard) (d : Nat) (imm : Nat) (s : State) : Host.Outcome State Fault Refusal :=
  laneOp s g 0 (({} : Opnds).toV d 1) fun _ _ _ _ => vout d 1 (imm % 2 ^ 32) false

end Sys2Proof.Machine
end

