-- ==== Sys2Proof/Machine/LaneFp.lean ====
section
/-! DEFINITION. Lane group 0x2: floating-point instructions and packed FP8 (R190–R192). -/

namespace Sys2Proof.Machine

/-- Format, elements and registers of a floating-point type (R39, R187). -/
def ftyFmt (t : FpTy) : FpFmt :=
  match t with
  | .f32 | .f32x2 => .fp32
  | .f64 => .fp64
  | .f16x2 | .f16 => .fp16
  | .bf16x2 | .bf16 => .bf16
def ftyElems (t : FpTy) : Nat := match t with | .f32x2 | .f16x2 | .bf16x2 => 2 | _ => 1
def ftyRegs (t : FpTy) : Nat := match t with | .f64 | .f32x2 => 2 | _ => 1

/-- Applies a function to the elements of values: packed results and flags by position (R58, R71). -/
def fpElems (fmt : FpFmt) (n : Nat) (f : Nat → Nat × FpFlags) : Nat × Word :=
  let rs := (List.range n).map f
  (packElems fmt.width (rs.map fun r => r.1), elemFlags (rs.map fun r => r.2))

/-- SAT of a result where the instruction has it (R69). -/
def satIf (fmt : FpFmt) (sat : Bool) (r : Nat × FpFlags) : Nat × FpFlags := if sat then fpSat fmt r else r

/-- An immediate B of a floating-point VI form (R32). -/
def fpImm (t : FpTy) (imm : Nat) : Nat :=
  match t with
  | .f32x2 => immF32 imm + 2 ^ 32 * immF32 imm
  | .f64 => (match fpDecode .fp32 (immF32 imm) with
      | .nan n _ => (if n then 2 ^ 63 else 0) + 2047 * 2 ^ 52 + nbits (immF32 imm) 0 23 * 2 ^ 29
      | v => (fpConvert .fp64 .rn false false v).1)
  | _ => immF32 imm

/-- A floating-point result of one lane. -/
def fout (d n : Nat) (poison : Bool) (r : Nat × Word) : LaneOut := { v := [(d, n, r.1, poison)], flags := laneFlags poison r.2 }

/-- Element i of an operand of a type. -/
def fel (t : FpTy) (x i : Nat) : Nat := elemOf (ftyFmt t).width x i

/-- Two-operand elementwise value. -/
def fp2Val (f : FpF) (op : FpFmt → RMode → Bool → Nat → Nat → Nat × FpFlags) (x y : Nat) : Nat × Word :=
  let fmt := ftyFmt f.t
  fpElems fmt (ftyElems f.t) fun i => satIf fmt f.sat (op fmt (RMode.ofRm f.rm) f.ftz (fel f.t x i) (fel f.t y i))
def fp3Val (f : FpF) (op : FpFmt → RMode → Bool → Nat → Nat → Nat → Nat × FpFlags) (x y z : Nat) : Nat × Word :=
  let fmt := ftyFmt f.t
  fpElems fmt (ftyElems f.t) fun i =>
    satIf fmt f.sat (op fmt (RMode.ofRm f.rm) f.ftz (fel f.t x i) (fel f.t y i) (fel f.t z i))
def fp1Val (f : FpF) (op : FpFmt → RMode → Bool → Nat → Nat × FpFlags) (x : Nat) : Nat × Word :=
  let fmt := ftyFmt f.t
  fpElems fmt (ftyElems f.t) fun i => satIf fmt f.sat (op fmt (RMode.ofRm f.rm) f.ftz (fel f.t x i))

def opAdd (fmt : FpFmt) (m : RMode) (ftz : Bool) (x y : Nat) : Nat × FpFlags := fpAdd fmt m false ftz x y
def opMul (fmt : FpFmt) (m : RMode) (ftz : Bool) (x y : Nat) : Nat × FpFlags := fpMul fmt m false ftz x y
def opFma (fmt : FpFmt) (m : RMode) (ftz : Bool) (x y z : Nat) : Nat × FpFlags := fpFma fmt m false ftz x y z
def opMin (fmt : FpFmt) (_ : RMode) (ftz : Bool) (x y : Nat) : Nat × FpFlags := fpMinMax fmt ftz false x y
def opMax (fmt : FpFmt) (_ : RMode) (ftz : Bool) (x y : Nat) : Nat × FpFlags := fpMinMax fmt ftz true x y

/-- Two v sources. -/
def fp2 (s : State) (f : FpF) (d : Nat) (a b : Src) (op : FpFmt → RMode → Bool → Nat → Nat → Nat × FpFlags) :
    Host.Outcome State Fault Refusal :=
  let n := ftyRegs f.t
  laneOp s f.g f.la ((srcOpnds [(a, n), (b, n)]).toV d n) fun _ _ w l =>
    let x := vread w a n l
    let y := vread w b n l
    fout d n (x.2 || y.2) (fp2Val f op x.1 y.1)

/-- A v source and an immediate. -/
def fp2i (s : State) (f : FpF) (d : Nat) (a : Src) (imm : Nat) (op : FpFmt → RMode → Bool → Nat → Nat → Nat × FpFlags) :
    Host.Outcome State Fault Refusal :=
  let n := ftyRegs f.t
  laneOp s f.g f.la ((srcOpnds [(a, n)]).toV d n) fun _ _ w l =>
    let x := vread w a n l
    fout d n x.2 (fp2Val f op x.1 (fpImm f.t imm))

def fp1 (s : State) (f : FpF) (d : Nat) (a : Src) (op : FpFmt → RMode → Bool → Nat → Nat × FpFlags) :
    Host.Outcome State Fault Refusal :=
  let n := ftyRegs f.t
  laneOp s f.g f.la ((srcOpnds [(a, n)]).toV d n) fun _ _ w l =>
    let x := vread w a n l
    fout d n x.2 (fp1Val f op x.1)

/-- FABS and FNEG: the sign cleared or inverted; a NaN gives R61. -/
def fpSign (isAbs : Bool) (fmt : FpFmt) (_ : RMode) (ftz : Bool) (x : Nat) : Nat × FpFlags :=
  match ftzIn fmt ftz (fpDecode fmt x) with
  | .nan n q => (fmt.canonNan n, { nv := q })
  | .inf n => (fmt.infBits (!isAbs && !n), {})
  | .fin n m => (fpEncodeMag fmt (!isAbs && !n) m, {})

def opRound (fmt : FpFmt) (m : RMode) (ftz : Bool) (x : Nat) : Nat × FpFlags := fpIntegral fmt m ftz x

/-- FDOT2 (R190): two products and an FP32 addend, rounded once to FP32. The packed operands' NaNs are taken in the order of the elements of A, then
of B, before C (R61; DEDUCED, log entry 33); a difference of infinities among the terms is invalid beside a NaN too (log entry 51). -/
def fdot2Val (f : FpF) (x y z : Nat) : Nat × Word :=
  let e := ftyFmt f.t
  let op (v i : Nat) := ftzIn e f.ftz (fpDecode e (elemOf 16 v i))
  let c := ftzIn .fp32 f.ftz (fpDecode .fp32 z)
  let terms := (mulVal (op x 0) (op y 0)).toList ++ (mulVal (op x 1) (op y 1)).toList ++ [c]
  let bad := mulBad (op x 0) (op y 0) || mulBad (op x 1) (op y 1)
    || (terms.any (fun v => v.isInf && v.neg) && terms.any fun v => v.isInf && !v.neg)
  let r := (nanResult .fp32 [op x 0, op x 1, op y 0, op y 1, c] bad).getD
    (match mulVal (op x 0) (op y 0), mulVal (op x 1) (op y 1) with
      | some p, some q => sumRound .fp32 (RMode.ofRm f.rm) false f.ftz [p, q, c]
      | _, _ => invalidOp .fp32)
  let r := satIf .fp32 f.sat r
  (r.1, r.2.bits 0)

/-- FSCALE (R190): Round(A × 2^B). The power is clamped where every result has overflowed or vanished. -/
def fscaleVal (f : FpF) (x b : Nat) : Nat × Word :=
  let fmt := ftyFmt f.t
  let k := toI true 32 b
  let k := if k < -5000 then -5000 else if 5000 < k then 5000 else k
  let r := match ftzIn fmt f.ftz (fpDecode fmt x) with
    | .nan n q => (fmt.canonNan n, { nv := q })
    | .inf n => (fmt.infBits n, {})
    | .fin n m => fpRound fmt (RMode.ofRm f.rm) false f.ftz n ((if n then -m else m) * pow2 k)
  let r := satIf fmt f.sat r
  (r.1, r.2.bits 0)

/-- The comparisons of FCMP (R191). -/
def fcmpVal (t : FpTy) (op : FCmpOp) (u : Bool) (x y : Nat) : Bool × FpFlags :=
  let fmt := ftyFmt t
  let a := fpDecode fmt x
  let b := fpDecode fmt y
  let nan := a.isNan || b.isNan
  let lt (a b : FVal) : Bool :=
    match a, b with
    | .inf n, .inf m => n && !m
    | .inf n, _ => n
    | _, .inf m => !m
    | a, b => a.toRat < b.toRat
  let eq : Bool := match a, b with
    | .inf n, .inf m => n == m
    | .inf _, _ => false
    | _, .inf _ => false
    | a, b => a.toRat == b.toRat
  let v := match op with
    | .num => !nan
    | .nan => nan
    | .eq => if nan then u else eq
    | .ne => if nan then u else !eq
    | .lt => if nan then u else lt a b
    | .le => if nan then u else lt a b || eq
    | .gt => if nan then u else lt b a
    | .ge => if nan then u else lt b a || eq
  (v, { nv := a.isSig || b.isSig })

/-- The one-hot class of FCLASS (R191). -/
def fclassVal (t : FpTy) (x : Nat) : Nat :=
  let fmt := ftyFmt t
  match fpDecode fmt x with
  | .nan _ q => if q then 2 ^ 8 else 2 ^ 9
  | .inf n => if n then 2 ^ 0 else 2 ^ 7
  | .fin n m =>
    if m = 0 then (if n then 2 ^ 3 else 2 ^ 4)
    else if m < fmt.minNormal then (if n then 2 ^ 2 else 2 ^ 5)
    else (if n then 2 ^ 1 else 2 ^ 6)

/-! ## Meanings -/

def execFadd (f : FpF) (d : Nat) (a b : Src) (s : State) : Host.Outcome State Fault Refusal := fp2 s f d a b opAdd
def execFaddVi (f : FpF) (d : Nat) (a : Src) (imm : Nat) (s : State) : Host.Outcome State Fault Refusal := fp2i s f d a imm opAdd
def execFmul (f : FpF) (d : Nat) (a b : Src) (s : State) : Host.Outcome State Fault Refusal := fp2 s f d a b opMul
def execFmulVi (f : FpF) (d : Nat) (a : Src) (imm : Nat) (s : State) : Host.Outcome State Fault Refusal := fp2i s f d a imm opMul
def execFma (f : FpF) (d : Nat) (a b c : Src) (s : State) : Host.Outcome State Fault Refusal :=
  let n := ftyRegs f.t
  laneOp s f.g f.la ((srcOpnds [(a, n), (b, n), (c, n)]).toV d n) fun _ _ w l =>
    let x := vread w a n l
    let y := vread w b n l
    let z := vread w c n l
    fout d n (x.2 || y.2 || z.2) (fp3Val f opFma x.1 y.1 z.1)
def execFmin (f : FpF) (d : Nat) (a b : Src) (s : State) : Host.Outcome State Fault Refusal := fp2 s f d a b opMin
def execFminVi (f : FpF) (d : Nat) (a : Src) (imm : Nat) (s : State) : Host.Outcome State Fault Refusal := fp2i s f d a imm opMin
def execFmax (f : FpF) (d : Nat) (a b : Src) (s : State) : Host.Outcome State Fault Refusal := fp2 s f d a b opMax
def execFmaxVi (f : FpF) (d : Nat) (a : Src) (imm : Nat) (s : State) : Host.Outcome State Fault Refusal := fp2i s f d a imm opMax

/-- FCMP (R191, R176). -/
def execFcmp (g : Guard) (t : FpTy) (op : FCmpOp) (u : Bool) (d : Nat) (a b : Src) (c : Nat) (s : State) :
    Host.Outcome State Fault Refusal :=
  let n := ftyRegs t
  laneOp s g 0 (((srcOpnds [(a, n), (b, n)]).toP d).fromP c) fun _ _ w l =>
    let x := vread w a n l
    let y := vread w b n l
    let p := x.2 || y.2 || w.ppoison c l
    let r := fcmpVal t op u (fel t x.1 0) (fel t y.1 0)
    { p := [(d, r.1 && w.pget c l, p)], flags := laneFlags p (r.2.bits 0) }
def execFcmpVi (g : Guard) (t : FpTy) (op : FCmpOp) (u : Bool) (d : Nat) (a : Src) (imm : Nat) (s : State) :
    Host.Outcome State Fault Refusal :=
  let n := ftyRegs t
  laneOp s g 0 ((srcOpnds [(a, n)]).toP d) fun _ _ w l =>
    let x := vread w a n l
    let r := fcmpVal t op u (fel t x.1 0) (fel t (fpImm t imm) 0)
    { p := [(d, r.1, x.2)], flags := laneFlags x.2 (r.2.bits 0) }

/-- FCLASS (R191). -/
def execFclass (g : Guard) (t : FpTy) (d : Nat) (a : Src) (s : State) : Host.Outcome State Fault Refusal :=
  let n := ftyRegs t
  laneOp s g 0 ((srcOpnds [(a, n)]).toV d 1) fun _ _ w l =>
    let x := vread w a n l
    vout d 1 (fclassVal t (fel t x.1 0)) x.2
def execFabs (f : FpF) (d : Nat) (a : Src) (s : State) : Host.Outcome State Fault Refusal := fp1 s f d a (fpSign true)
def execFneg (f : FpF) (d : Nat) (a : Src) (s : State) : Host.Outcome State Fault Refusal := fp1 s f d a (fpSign false)
def execFround (f : FpF) (d : Nat) (a : Src) (s : State) : Host.Outcome State Fault Refusal := fp1 s f d a opRound
def execFdot2 (f : FpF) (d : Nat) (a b c : Src) (s : State) : Host.Outcome State Fault Refusal :=
  laneOp s f.g f.la ((srcOpnds [(a, 1), (b, 1), (c, 1)]).toV d 1) fun _ _ w l =>
    let x := vread w a 1 l
    let y := vread w b 1 l
    let z := vread w c 1 l
    fout d 1 (x.2 || y.2 || z.2) (fdot2Val f x.1 y.1 z.1)
def execFscale (f : FpF) (d : Nat) (a b : Src) (s : State) : Host.Outcome State Fault Refusal :=
  let n := ftyRegs f.t
  laneOp s f.g f.la ((srcOpnds [(a, n), (b, 1)]).toV d n) fun _ _ w l =>
    let x := vread w a n l
    let y := vread w b 1 l
    fout d n (x.2 || y.2) (fscaleVal f x.1 y.1)

/-! ## Packed FP8 (R192, R73) -/

def f8Fmt (t : F8Ty) : FpFmt := match t with | .e4m3x4 => .e4m3 | .e5m2x4 => .e5m2

/-- A packed FP8 value of up to three operands. -/
def f8Val (f : F8F) (op : FpFmt → RMode → Bool → Nat → Nat → Nat → Nat × FpFlags) (x y z : Nat) : Nat × Word :=
  fpElems (f8Fmt f.t) 4 fun i => op (f8Fmt f.t) (RMode.ofRm f.rm) f.satf (elemOf 8 x i) (elemOf 8 y i) (elemOf 8 z i)

def f8two (s : State) (f : F8F) (d : Nat) (a b : Src) (op : FpFmt → RMode → Bool → Nat → Nat → Nat × FpFlags) :
    Host.Outcome State Fault Refusal :=
  laneOp s f.g 0 ((srcOpnds [(a, 1), (b, 1)]).toV d 1) fun _ _ w l =>
    let x := vread w a 1 l
    let y := vread w b 1 l
    fout d 1 (x.2 || y.2) (f8Val f (fun m r sf x y _ => op m r sf x y) x.1 y.1 0)

def execF8add (f : F8F) (d : Nat) (a b : Src) (s : State) : Host.Outcome State Fault Refusal :=
  f8two s f d a b fun m r sf x y => fpAdd m r sf false x y
def execF8mul (f : F8F) (d : Nat) (a b : Src) (s : State) : Host.Outcome State Fault Refusal :=
  f8two s f d a b fun m r sf x y => fpMul m r sf false x y
def execF8fma (f : F8F) (d : Nat) (a b c : Src) (s : State) : Host.Outcome State Fault Refusal :=
  laneOp s f.g 0 ((srcOpnds [(a, 1), (b, 1), (c, 1)]).toV d 1) fun _ _ w l =>
    let x := vread w a 1 l
    let y := vread w b 1 l
    let z := vread w c 1 l
    fout d 1 (x.2 || y.2 || z.2) (f8Val f (fun m r sf x y z => fpFma m r sf false x y z) x.1 y.1 z.1)
def execF8min (f : F8F) (d : Nat) (a b : Src) (s : State) : Host.Outcome State Fault Refusal :=
  f8two s f d a b fun m _ _ x y => fpMinMax m false false x y
def execF8max (f : F8F) (d : Nat) (a b : Src) (s : State) : Host.Outcome State Fault Refusal :=
  f8two s f d a b fun m _ _ x y => fpMinMax m false true x y

end Sys2Proof.Machine
end

