-- ==== Sys2Proof/Machine/Conv.lean ====
section
/-! DEFINITION. Lane group 0x3: special functions and conversions (R193–R196). -/

namespace Sys2Proof.Machine

/-! ## Special functions (R193) -/

/-- The eight special functions. -/
inductive Sfu | recip | rsqrt | sqrt | exp2 | log2 | sin | cos | tanh
  deriving DecidableEq, Repr

/-- The result of a special function for operands that the table of R193 names; none where the exact value is rounded. -/
def sfuSpecial (k : Sfu) (fmt : FpFmt) (v : FVal) : Option (Nat × FpFlags) :=
  let zero (n : Bool) : Nat := fpEncodeMag fmt n 0
  let one (n : Bool) : Nat := fpEncodeMag fmt n 1
  match v with
  | .nan n q => some (fmt.canonNan n, { nv := q })
  | .inf n =>
    match k with
    | .recip => some (zero n, {})
    | .rsqrt => some (if n then invalidOp fmt else (zero false, {}))
    | .sqrt => some (if n then invalidOp fmt else (fmt.infBits false, {}))
    | .exp2 => some (if n then zero false else fmt.infBits false, {})
    | .log2 => some (if n then invalidOp fmt else (fmt.infBits false, {}))
    | .sin | .cos => some (invalidOp fmt)
    | .tanh => some (one n, {})
  | .fin n m =>
    if m = 0 then
      match k with
      | .recip | .rsqrt => some (fmt.infBits n, { dz := true })
      | .sqrt => some (zero n, {})
      | .exp2 | .cos => some (one false, {})
      | .log2 => some (fmt.infBits true, { dz := true })
      | .sin | .tanh => some (zero n, {})
    else if n && (k == .rsqrt || k == .sqrt || k == .log2) then some (invalidOp fmt)
    else none

/-- The value that a special function of a finite nonzero operand rounds, and the sign of an exact zero. -/
def sfuExact (k : Sfu) (x : ℚ) : ℚ × Bool :=
  match k with
  | .recip => (1 / x, false)
  | .rsqrt => (rsqrtSticky x, false)
  | .sqrt => (sqrtSticky x, false)
  | .exp2 => (exp2Exact x, false)
  | .log2 => (log2Exact x, false)
  | .sin => (sinPiExact x, x < 0)
  | .cos => (sinPiExact (x + 1 / 2), false)
  | .tanh => (if x < 0 then -tanhExact (-x) else tanhExact x, false)

/-- One element of a special function. -/
def sfuElem (k : Sfu) (fmt : FpFmt) (m : RMode) (ftz : Bool) (x : Nat) : Nat × FpFlags :=
  let v := ftzIn fmt ftz (fpDecode fmt x)
  match sfuSpecial k fmt v with
  | some r => r
  | none => let e := sfuExact k v.toRat; fpRound fmt m false ftz e.2 e.1

def execRecip (f : FpF) (d : Nat) (a : Src) (s : State) : Host.Outcome State Fault Refusal := fp1 s f d a (sfuElem .recip)
def execRsqrt (f : FpF) (d : Nat) (a : Src) (s : State) : Host.Outcome State Fault Refusal := fp1 s f d a (sfuElem .rsqrt)
def execSqrt (f : FpF) (d : Nat) (a : Src) (s : State) : Host.Outcome State Fault Refusal := fp1 s f d a (sfuElem .sqrt)
def execExp2 (f : FpF) (d : Nat) (a : Src) (s : State) : Host.Outcome State Fault Refusal := fp1 s f d a (sfuElem .exp2)
def execLog2 (f : FpF) (d : Nat) (a : Src) (s : State) : Host.Outcome State Fault Refusal := fp1 s f d a (sfuElem .log2)
def execSin (f : FpF) (d : Nat) (a : Src) (s : State) : Host.Outcome State Fault Refusal := fp1 s f d a (sfuElem .sin)
def execCos (f : FpF) (d : Nat) (a : Src) (s : State) : Host.Outcome State Fault Refusal := fp1 s f d a (sfuElem .cos)
def execTanh (f : FpF) (d : Nat) (a : Src) (s : State) : Host.Outcome State Fault Refusal := fp1 s f d a (sfuElem .tanh)

/-! ## Conversions (R194–R196) -/

/-- The floating format of a format code (R194); MXINT8 and the integers have none and take FP32's. -/
def cvtFmt (c : CvtFmt) : FpFmt :=
  match c with
  | .f64 => .fp64
  | .f16 => .fp16
  | .bf16 => .bf16
  | .e4m3 => .e4m3
  | .e5m2 => .e5m2
  | .e3m2 => .e3m2
  | .e2m3 => .e2m3
  | .e2m1 => .e2m1
  | _ => .fp32

/-- Signedness and width of an integer format code; registers of any format code. -/
def cvtSigned (c : CvtFmt) : Bool := match c with | .s32 | .s64 | .s16 | .s8 => true | _ => false
def cvtWidth (c : CvtFmt) : Nat :=
  match c with
  | .s64 | .n64 => 64
  | .s16 | .n16 => 16
  | .s8 | .n8 => 8
  | _ => 32
def cvtRegs (c : CvtFmt) : Nat := match c with | .f64 | .s64 | .n64 => 2 | _ => 1

/-- MOD[0] is SAT for these destinations, SATF for the others (R194). -/
def cvtIsSat (c : CvtFmt) : Bool := match c with | .f32 | .f64 | .f16 | .bf16 => true | _ => false

/-- Round of a value into the destination format with its SAT or SATF. -/
def cvtRound (f : CvtF) (mode : RMode) (v : FVal) : Nat × FpFlags :=
  let fmt := cvtFmt f.fd
  satIf fmt (cvtIsSat f.fd && f.sat) (fpConvert fmt mode (!cvtIsSat f.fd && f.sat) f.ftz v)

/-- A source value of a floating format code, under FTZ. -/
def cvtSrc (f : CvtF) (x : Nat) : FVal :=
  let fmt := cvtFmt f.fs
  ftzIn fmt f.ftz (fpDecode fmt (nbits x 0 fmt.width))

/-- One lane of a conversion with a v destination. -/
def cvtOp (s : State) (f : CvtF) (d : Nat) (l : List (Src × Nat)) (nd : Nat) (op : Warp → Nat → Nat × Word) :
    Host.Outcome State Fault Refusal :=
  laneOp s f.g f.la ((srcOpnds l).toV d nd) fun _ _ w k =>
    fout d nd (l.any fun x => (vread w x.1 x.2 k).2) (op w k)

/-- CVT (R195). -/
def execCvt (f : CvtF) (d : Nat) (a : Src) (s : State) : Host.Outcome State Fault Refusal :=
  cvtOp s f d [(a, cvtRegs f.fs)] (cvtRegs f.fd) fun w l =>
    let r := cvtRound f (RMode.ofRm f.rm) (cvtSrc f (vread w a (cvtRegs f.fs) l).1)
    (r.1, r.2.bits 0)

/-- CVTI (R70, R195): narrow results are extended to 32 bits. -/
def cvtiVal (f : CvtF) (x : Nat) : Nat × FpFlags :=
  let wd := cvtWidth f.fd
  let sg := cvtSigned f.fd
  let r := fpToInt (RMode.ofRm f.rm) (loOf sg wd) (hiOf sg wd) (cvtSrc f x)
  (ofI (if wd = 64 then 64 else 32) r.1, r.2)

def execCvti (f : CvtF) (d : Nat) (a : Src) (s : State) : Host.Outcome State Fault Refusal :=
  cvtOp s f d [(a, cvtRegs f.fs)] (cvtRegs f.fd) fun w l =>
    let r := cvtiVal f (vread w a (cvtRegs f.fs) l).1
    (r.1, r.2.bits 0)

/-- CVTF (R195): an integer rounded into a floating format. -/
def cvtfVal (f : CvtF) (x : Nat) : Nat × FpFlags :=
  let wd := cvtWidth f.fs
  let i := toI (cvtSigned f.fs) wd (nbits x 0 wd)
  cvtRound f (RMode.ofRm f.rm) (.fin (i < 0) (i.natAbs : ℚ))

def execCvtf (f : CvtF) (d : Nat) (a : Src) (s : State) : Host.Outcome State Fault Refusal :=
  cvtOp s f d [(a, cvtRegs f.fs)] (cvtRegs f.fd) fun w l =>
    let r := cvtfVal f (vread w a (cvtRegs f.fs) l).1
    (r.1, r.2.bits 0)

/-- CVTSR (R67, R195): stochastic rounding by C's low 16 bits. -/
def execCvtsr (f : CvtF) (d : Nat) (a c : Src) (s : State) : Host.Outcome State Fault Refusal :=
  cvtOp s f d [(a, 1), (c, 1)] 1 fun w l =>
    let r := cvtRound f (.rs (nbits (vread w c 1 l).1 0 16)) (cvtSrc f (vread w a 1 l).1)
    (r.1, r.2.bits 0)

/-- PKCVT (R195): two FP32 values into a 16-bit pair, or four into FP8 elements. -/
def execPkcvt (f : CvtF) (d : Nat) (a b : Src) (s : State) : Host.Outcome State Fault Refusal :=
  let n := match f.fd with | .e4m3 | .e5m2 => 2 | _ => 1
  cvtOp s f d [(a, n), (b, n)] 1 fun w l =>
    let x := (vread w a n l).1
    let y := (vread w b n l).1
    fpElems (cvtFmt f.fd) (2 * n) fun i =>
      cvtRound f (RMode.ofRm f.rm) (cvtSrc f (if i < n then elemOf 32 x i else elemOf 32 y (i - n)))

/-- emax of R77. -/
def mxEmax (c : CvtFmt) : Int :=
  match c with
  | .e4m3 => 8
  | .e5m2 => 15
  | .e3m2 => 4
  | .e2m3 => 2
  | .e2m1 => 2
  | _ => 0

/-- The scale of a granule of 32 values (R77): none if a value is NaN or infinite. -/
def mxScale (c : CvtFmt) (vs : List FVal) : Option Int :=
  if vs.any fun v => v.isNan || v.isInf then none
  else
    let m := vs.foldl (fun (m : ℚ) v => max m (if v.toRat < 0 then -v.toRat else v.toRat)) 0
    if m = 0 then some (-127) else some (max (-127) (min 127 (floorLog2 m - mxEmax c)))

/-- One element of a granule quantised at scale 2^X (R77). -/
def mxElem (c : CvtFmt) (mode : RMode) (x : Int) (v : FVal) : Nat × FpFlags :=
  match c with
  | .mxint8 =>
    let q := v.toRat / pow2 x * 64
    let a := if q < 0 then -q else q
    let r := roundMag mode (q < 0) a
    let big : Bool := 127 < r
    let m : Nat := if big then 127 else r
    (ofI 8 (if q < 0 then -(m : Int) else m), { ovf := big, nx := big || (r : ℚ) != a })
  | c => fpRound (cvtFmt c) mode true false v.neg (v.toRat / pow2 x)

/-- A granule: its scale and 32 elements with the flags raised (R77). -/
def mxGranule (c : CvtFmt) (mode : RMode) (vs : List FVal) : Nat × List Nat × FpFlags :=
  match mxScale c vs with
  | none => (0xFF, vs.map fun _ => 0, { nv := true })
  | some x =>
    let es := vs.map fun v => mxElem c mode x v
    ((x + 127).toNat, es.map fun e => e.1, es.foldl (fun f e => f.merge e.2) {})

/-- MXQ (R196): one granule per warp; lanes outside Active supply +0. -/
def execMxq (f : CvtF) (d : Nat) (a : Src) (s : State) : Host.Outcome State Fault Refusal :=
  laneOp s f.g f.la ((srcOpnds [(a, 1)]).toV d 1) fun _ c w l =>
    let vs := (List.range 32).map fun i => if c.act.getLsbD i then fpDecode .fp32 (vread w a 1 i).1 else .fin false 0
    let poison := (lanesOf c.act).any fun i => (vread w a 1 i).2
    let r := mxGranule f.fd (RMode.ofRm f.rm) vs
    fout d 1 poison (r.1 * 256 + r.2.1.getD l 0, r.2.2.bits 0)

/-- MXDQ (R196). -/
def mxdqVal (f : CvtF) (x : Nat) : Nat × FpFlags :=
  let sc := nbits x 8 8
  if sc = 0xFF then satIf .fp32 (cvtIsSat f.fd && f.sat) (FpFmt.fp32.canonNan false, {})
  else
    let p := pow2 ((sc : Int) - 127)
    match f.fs with
    | .mxint8 =>
      let i := toI true 8 (nbits x 0 8)
      cvtRound f (RMode.ofRm f.rm) (.fin (i < 0) ((i.natAbs : ℚ) / 64 * p))
    | c =>
      match fpDecode (cvtFmt c) (nbits x 0 (cvtFmt c).width) with
      | .fin n m => cvtRound f (RMode.ofRm f.rm) (.fin n (m * p))
      | v => cvtRound f (RMode.ofRm f.rm) v

def execMxdq (f : CvtF) (d : Nat) (a : Src) (s : State) : Host.Outcome State Fault Refusal :=
  cvtOp s f d [(a, 1)] 1 fun w l =>
    let r := mxdqVal f (vread w a 1 l).1
    (r.1, r.2.bits 0)

end Sys2Proof.Machine
end

