-- ==== Sys2Proof/Machine/Coherence.lean ====
section
/-! DEFINITION. The L1 and the home as they serve the accesses of the load-store engine: atomics, races, hits, requests and
their service at the home (chapters 8 and 9). -/

namespace Sys2Proof.Machine

/-! ## Atomic operations (R242, R243) -/

/-- The FP format of a floating-point atomic of a size. -/
def atomFmt (size : Nat) : FpFmt := match size with | 2 => .bf16 | 4 => .fp32 | _ => .fp64

/-- A number of w bits as a signed integer. -/
def sgn (w x : Nat) : Int := if x < 2 ^ (w - 1) then (x : Int) else (x : Int) - 2 ^ w

/-- New value and status of an atomic on a word of a size. Of two NaNs the old value's sign is kept, as the first operand's (R61, R84; DEDUCED, log
entry 35). -/
def atomNew (op : AtomOp) (size old x y : Nat) : Nat × Bool :=
  let w := 8 * size
  match op with
  | .add => ((old + x) % 2 ^ w, false)
  | .smin => (if sgn w x < sgn w old then x else old, false)
  | .smax => (if sgn w old < sgn w x then x else old, false)
  | .umin => (if x < old then x else old, false)
  | .umax => (if old < x then x else old, false)
  | .and => (old &&& x, false)
  | .or => (old ||| x, false)
  | .xor => (old ^^^ x, false)
  | .exch => (x, false)
  | .cas => if old = x then (y, true) else (old, false)
  | .incw => (if x ≤ old then 0 else (old + y) % (x + 1), false)
  | .addb => if old + x ≤ y then (old + x, true) else (old, false)
  | .fadd => ((fpAdd (atomFmt size) .rn false false old x).1, false)
  | .fmin => ((fpMinMax (atomFmt size) false false old x).1, false)
  | .fmax => ((fpMinMax (atomFmt size) false true old x).1, false)
  | .hadd =>
    (((List.range (size / 2)).map fun i =>
      (fpAdd .fp16 .rn false false (nbits old (16 * i) 16) (nbits x (16 * i) 16)).1 * 2 ^ (16 * i)).foldl (· + ·) 0, false)

/-! ## Accesses of an operation -/

/-- The device words that a lane's access to a sector touches (a word is numbered pa ÷ 4). -/
def accWords (sec : Nat) (a : LaneAcc) : List Nat :=
  (List.range ((a.off + a.size - 1) / 4 - a.off / 4 + 1)).map fun i => 8 * sec + a.off / 4 + i

/-- Virtual address of the i-th word of an access. -/
def accVa (a : LaneAcc) (i : Nat) : DWord := BitVec.ofNat 64 (a.vaddr.toNat / 4 * 4 + 4 * i)

/-- The device words of a part. -/
def OpPart.wordList (q : OpPart) : List Nat := ((List.range 8).map fun i => 8 * q.sec + i).filter fun w => q.words.getLsbD (w % 32)

/-- A value of n bytes at an offset of a sector, from its words. -/
def accValue (f : Nat → Word × Bool) (sec off n : Nat) : Nat × Bool :=
  (natOfLe ((List.range n).map fun i => wordByte (f (8 * sec + (off + i) / 4)).1 ((off + i) % 4)),
   (List.range n).any fun i => (f (8 * sec + (off + i) / 4)).2)

/-- Bytes of a value that a lane's access writes, by word: (device word, index in the word, byte). -/
def accBytes (sec : Nat) (a : LaneAcc) (x : Nat) : List (Nat × Nat × Byte) :=
  (leOfNat a.size x).zipIdx.map fun b => (8 * sec + (a.off + b.2) / 4, (a.off + b.2) % 4, b.1)

/-- Changes an operation of a core. -/
def State.modOp (s : State) (core id : Nat) (f : LsuOp → LsuOp) : State :=
  s.modCore core fun c => { c with ops := c.ops.map fun o => if o.id == id then f o else o }

def State.op? (s : State) (core id : Nat) : Option LsuOp := (s.core core).ops.find? fun o => o.id == id

/-- Changes a result of a warp; one with no lane left goes. -/
def Warp.modResult (w : Warp) (rid : Nat) (f : Result → Result) : Warp :=
  let rs := w.results.map fun r => if r.id == rid then f r else r
  { w with results := rs.filter fun r => !r.lanes.isEmpty }

/-- Records the values of one lane of a result on their way (a uniform load gives every lane the one value). -/
def Result.put (r : Result) (lane : Nat) (vals : List (DWord × Bool)) : Result :=
  if r.dests.any Dest.isS then { r with data := r.lanes.map fun l => (l.1, vals) } else { r with data := tset r.data lane vals }

def State.resultData (s : State) (g rid lane : Nat) (vals : List (DWord × Bool)) : State :=
  s.modWarp g fun w => w.modResult rid fun r => r.put lane vals

/-- A value of n registers with one poison tag. -/
def regVals (n x : Nat) (poison : Bool) : List (DWord × Bool) :=
  (List.range n).map fun i => (BitVec.ofNat 64 (nbits x (32 * i) 32), poison)

/-- Registers of an access of a size (R224). -/
def sizeRegs (size : Nat) : Nat := if size ≤ 4 then 1 else size / 4

/-- Delivers a load's value to the lane's result. -/
def deliverLoad (s : State) (o : LsuOp) (lane size x : Nat) (poison : Bool) : State :=
  match o.result with
  | none => s
  | some rid =>
    match ((s.warp? o.warp).bind fun w => w.results.find? fun r => r.id == rid).map fun (r : Result) => r.dests with
    | some (Dest.s _ :: _) => s.resultData o.warp rid lane [(BitVec.ofNat 64 x, poison)]
    | _ => s.resultData o.warp rid lane (regVals (sizeRegs size) x poison)

/-- Delivers an atomic's old value and status; the status is used only where the instruction names a predicate. -/
def deliverAtom (s : State) (o : LsuOp) (lane size old : Nat) (st poison : Bool) : State :=
  match o.result with
  | none => s
  | some rid =>
    s.resultData o.warp rid lane (regVals (sizeRegs size) old poison ++ [((if st then 1 else 0 : DWord), poison)])

/-! ## Races (R229, R281–R283) -/

/-- An access to a device word races: with another requester's open in the L1, or with another agent's at the home. -/
def raceWord (s : State) (core req w : Nat) (write : Bool) : Bool :=
  (openGet (s.core core).opens w).races req write || (openGet (s.dirLine (w / 32)).opens w).races core write

/-- Opens a device word for a warp: in the L1 under its requester, at the home under its agent. -/
def openWord (s : State) (g w va : Nat) (write : Bool) : State :=
  let add (o : WordOpens) (a : Nat) : WordOpens := if write then o.addW a else o.addR a
  let s := s.modCore (coreOf g) fun c => { c with opens := openPut c.opens w (add (openGet c.opens w) (reqOf g)) }
  let s := s.modDir (w / 32) fun d => { d with opens := openPut d.opens w (add (openGet d.opens w) (coreOf g)) }
  s.modWarp g fun x => { x with opened := tset x.opened w va }

/-- The opens of other agents against which the L1 checks a word that it serves itself (R281): a leased word against those that its fill
carried, an owned word against those that its grant or a later forward carried and that still stand, a registered word against those at the home, to
which the open is reported. -/
def l1Opens (s : State) (core w : Nat) : WordOpens :=
  let home := openGet (s.dirLine (w / 32)).opens w
  match (s.l1Line core (w / 32)).bind fun l => (tget l.words (w % 32)).map fun x => (x.st, openGet l.others w) with
  | some (L1St.leased, o) => o
  | some (L1St.owned, o) => o.meet home
  | _ => home

/-- The race check of one lane's access (R282, R283), against the opens in the L1 and those of other agents, which `seen` gives. The
answer says whether the access races; a racing access is counted once. In deterministic mode a racing lane is recorded with the first racing
word and opens nothing. -/
def raceAcc (s : State) (o : LsuOp) (q : OpPart) (a : LaneAcc) (seen : Nat → WordOpens) : State × Bool :=
  if !o.checked then (s, false)
  else
    let core := coreOf o.warp
    let write := o.kind == .store
    let ws := accWords q.sec a
    let bad := ws.zipIdx.find? fun w => (openGet (s.core core).opens w.1).races (reqOf o.warp) write || (seen w.1).races core write
    let opened (s : State) : State := ws.zipIdx.foldl (fun s w => openWord s o.warp w.1 (nbits (accVa a w.2).toNat 0 57 / 4) write) s
    match bad with
    | some b =>
      let s := s.count .race 1
      if o.det then (s.modOp core o.id fun o => { o with raced := tset o.raced a.lane (accVa a b.2) }, true) else (opened s, true)
    | none => (opened s, false)

/-! ## The L1 (R228–R231) -/

/-- Scopes in the order of R36. -/
def scopeNum (c : Scope) : Nat :=
  match c with | .thread => 0 | .warp => 1 | .block => 2 | .core => 3 | .yard => 4 | .device => 5 | .system => 6

def isAcq (o : Order) : Bool := o == .acq || o == .acqRel
def isRel (o : Order) : Bool := o == .rel || o == .acqRel

/-- The relMet level of a release at a scope (R231); an access that releases nothing still waits for acquires. -/
def relLevel (o : Order) (c : Scope) : Nat :=
  if isRel o then (if scopeNum c < 2 then 1 else if scopeNum c < 4 then 2 else if scopeNum c < 6 then 3 else 4) else 1

/-- An acquire at yard scope or wider (R231): every leased word of the L1, or of a bound region (R260), is invalidated. -/
def acquireL1 (s : State) (core : Nat) (region : Option (Nat × Nat)) : State :=
  let hit (l : L1Line) : Bool := match region with
    | none => true
    | some (a, n) => a ≤ 128 * l.vline && 128 * l.vline < a + n
  s.modCore core fun c =>
    { c with l1 := (c.l1.map fun e =>
        if hit e.2 then (e.1, { e.2 with words := e.2.words.filter fun w => w.2.st != .leased }) else e).filter fun e => !e.2.words.isEmpty }

/-- The L1 action of a release (R231, R260). -/
def releaseAct (s : State) (g : Nat) (c : Scope) (region : Option (Nat × Nat)) : State :=
  if scopeNum c < 2 then s
  else if scopeNum c < 4 then
    match region with
    | none => s.closeCore g
    | some (a, n) =>
      let ws := ((((s.warp? g).map Warp.opened).getD []).filter fun e => a ≤ 4 * e.2 && 4 * e.2 < a + n).map fun e => e.1
      s.closeL1 (coreOf g) (reqOf g) fun w => ws.contains w
  else
    match region with
    | none => (s.closeDev g fun _ => true).closeSpad g
    | some (a, n) => s.closeDev g fun e => a ≤ 4 * e.2 && 4 * e.2 < a + n

def acquireAct (s : State) (g : Nat) (c : Scope) (region : Option (Nat × Nat)) : State :=
  if scopeNum c < 4 then s else acquireL1 s (coreOf g) region

/-- A word of the L1 serves a load under a policy (R230). -/
def wordHit (now : Nat) (expiry : Nat) (pol : Policy) (x : L1Word) : Bool :=
  pol != .nc && match x.st with
    | .shared => true
    | .owned => true
    | .leased => now < expiry
    | .invalid => false

/-- The L1 holds words under OWN. -/
def ownsWords (s : State) (core : Nat) (ws : List Nat) : Bool := ws.all fun w => (s.l1Word core w).any fun x => x.st == .owned

/-- Words of a sector all hit (R230). -/
def wordsHit (s : State) (core : Nat) (pol : Policy) (sec : Nat) (ws : List Nat) : Bool :=
  match s.l1Line core (sec / 4) with
  | none => false
  | some l => ws.all fun w => match tget l.words (w % 32) with
    | some x => wordHit s.now l.expiry pol x
    | none => false

/-- The accesses of a part that are not served at once: those with a word that does not hit, and those that share a word with one of these, since all
lanes that read a byte in one load receive one value (R227, R230; log entry 24). The fuel bounds the search. -/
def missing (s : State) (core : Nat) (pol : Policy) (sec : Nat) (n : Nat) (out accs : List LaneAcc) : List LaneAcc × List LaneAcc :=
  match n with
  | 0 => (out, accs)
  | k + 1 =>
    let bad := accs.filter fun a => !wordsHit s core pol sec (accWords sec a) || (accWords sec a).any fun w => out.any fun b => (accWords sec b).contains w
    if bad.isEmpty then (out, accs) else missing s core pol sec k (out ++ bad) (accs.filter fun a => !bad.contains a)

/-- The value of an L1 word, or the all-ones pattern with poison where the L1 has none. -/
def l1Value (s : State) (core w : Nat) : Word × Bool :=
  match s.l1Word core w with
  | some x => (x.val, x.poison)
  | none => (0xFFFFFFFF, true)

def LsuOp.modPart (o : LsuOp) (sec : Nat) (f : OpPart → OpPart) : LsuOp :=
  { o with parts := o.parts.map fun q => if q.sec == sec then f q else q }

/-- Sends a request for words of a part and marks the part sent. -/
def sendReq (s : State) (core oid sec : Nat) (kind : ReqKind) (words : BitVec 32) : State :=
  let n := s.newId
  let r : Req := { id := n.2, agent := core, kind := kind, line := sec / 4, words := words, op := oid }
  let s : State := { n.1 with net := n.1.net ++ [Msg.req r] }
  s.modOp core oid fun o => o.modPart sec fun q => { q with st := .sent n.2 }

/-- The ownership request of a part (R270): UPG where the L1 holds every missing word as a registered copy. -/
def sendOwn (s : State) (core oid : Nat) (q : OpPart) : State :=
  let need := q.wordList.filter fun w => match s.l1Word core w with | some x => x.st != .owned | none => true
  let reg := need.all fun w => match s.l1Word core w with | some x => x.st == .shared | none => false
  sendReq s core oid q.sec (if reg then .upg else .ownRq) (lineMask need)

/-- Writes bytes into an owned word of the L1 (R272: performed there). -/
def l1Write (s : State) (core w : Nat) (bs : List (Nat × Byte)) : State :=
  match s.l1Word core w with
  | none => s
  | some x =>
    s.l1Set core w { x with val := mergeBytes x.val bs, dirty := true, poison := x.poison && !wholeWord bs }

/-- Groups the bytes of an access by word. -/
def bytesOf (bs : List (Nat × Nat × Byte)) (w : Nat) : List (Nat × Byte) :=
  (bs.filter fun b => b.1 == w).map fun b => b.2

/-- Performs accesses of a part in the L1: loads read it, stores and atomics under OWN write it. -/
def performL1 (s : State) (core : Nat) (o : LsuOp) (q : OpPart) : State :=
  forEach q.accs s fun s a =>
    let ws := accWords q.sec a
    match o.kind with
    | .load =>
      let r := raceAcc s o q a (l1Opens s core)
      let v := accValue (l1Value r.1 core) q.sec a.off a.size
      if r.2 && o.det then r.1 else deliverLoad r.1 o a.lane a.size v.1 (v.2 || r.2)
    | .store =>
      let r := raceAcc s o q a (l1Opens s core)
      if r.2 && o.det then r.1
      else
        let bs := accBytes q.sec a a.x
        (forEach ws r.1 fun s w => l1Write s core w (bytesOf bs w)).fireCore core (q.sec / 4)
    | .atomic | .red =>
      let old := accValue (l1Value s core) q.sec a.off a.size
      if old.2 then
        if o.kind == .red then s.count .poisonDrop 1 else deliverAtom s o a.lane a.size old.1 false true
      else
        let n := atomNew o.aop a.size old.1 a.x a.y
        let bs := accBytes q.sec a n.1
        let s := (forEach ws s fun s w => l1Write s core w (bytesOf bs w)).fireCore core (q.sec / 4)
        deliverAtom s o a.lane a.size old.1 n.2 false
    | .prefetch => s

/-- A result whose operations are all done is done (R20). -/
def resultDone (s : State) (core : Nat) (o : LsuOp) : State :=
  match o.result with
  | none => s
  | some rid =>
    if (s.core core).ops.any fun x => x.result == some rid && x.space.here then s
    else s.modWarp o.warp fun w => w.modResult rid fun r => { r with done := true }

/-- The lanes that waited at their instruction for the access go on: in deterministic mode for its race check, in which those
that raced trap (R283); for a uniform load for the value, which traps every lane if it is poisoned (R177, R207, R238). -/
def detRelease (s : State) (o : LsuOp) : State :=
  match (s.warp? o.warp).bind fun w => w.entries.find? fun e => e.st == .parked (.detAccess o.id) with
  | none => s
  | some e =>
    let res : Option Result := match o.result with
      | some rid => (s.warp? o.warp).bind fun w => w.results.find? fun r => r.id == rid
      | none => none
    let uni := res.any fun r => r.dests.any Dest.isS
    let bits := uni && o.raced.isEmpty && res.any fun r => r.data.any fun d => d.2.any fun v => v.2
    let bad := if bits || (uni && !o.raced.isEmpty) then e.mask else maskOf (o.raced.map fun r => r.1) &&& e.mask
    let info (l : Nat) : Nat × TrapInfo :=
      if bits then (l, { cause := 0x0B, detail := 0, addr := 0 })
      else (l, { cause := 0x15, detail := 0, addr := (tget o.raced l).getD ((o.raced.head?.map fun r => r.2).getD 0) })
    let s := if bad = 0 then s
      else
        let s := s.modWarp o.warp fun w => w.dropLanes bad
        let s := match o.result with
          | none => s
          | some rid => s.modWarp o.warp fun w => w.modResult rid fun r => { r with lanes := r.lanes.filter fun l => !bad.getLsbD l.1 }
        s.takeTraps o.warp e.pc e.prio ((lanesOf bad).map info)
    s.modWarp o.warp fun w => w.releaseNext e.eid

/-- An operation whose parts are all done leaves the engine: an acquire acts, its result is complete, waiting entries are
tested (R231, R283). -/
def completeOp (s : State) (core : Nat) (o : LsuOp) : State :=
  let s := s.modCore core fun c => { c with ops := c.ops.filter fun x => x.id != o.id }
  let s := if isAcq o.ord then acquireAct s o.warp o.scope o.region else s
  let s := resultDone s core o
  (detRelease s o).wake o.warp

/-- Marks a part done, and completes its operation if it was the last. -/
def finishPart (s : State) (core oid sec : Nat) : State :=
  let s := s.modOp core oid fun o => o.modPart sec fun q => { q with st := .done }
  match s.op? core oid with
  | none => s
  | some o => if o.parts.all (fun q => q.st == .done) && !o.hold then completeOp s core o else s

/-- A load under OWN that hits words which the core does not own obtains their ownership besides (R230): the request is an operation of its own, which
no lane waits for. -/
def ownBesides (s : State) (core : Nat) (o : LsuOp) (sec : Nat) (ws : List Nat) : State :=
  let ws := (ws.filter fun w => !ownsWords s core [w]).dedup
  if o.pol != .own || ws.isEmpty then s
  else
    let n := s.newId
    let q : OpPart := { sec := sec, words := lineMask ws, accs := [] }
    let s := n.1.modCore core fun c => { c with ops := c.ops ++
      [{ o with id := n.2, kind := .prefetch, ord := .plain, result := none, hold := false, checked := false, raced := [], parts := [q] }] }
    sendOwn s core n.2 q

/-- A load's tag check of a part (R230): lanes that hit are served, the part keeps the others, among them those that hit and share a word with one that
misses; the answer is the part that is left. -/
def serveHits (s : State) (core : Nat) (o : LsuOp) (q : OpPart) : State × OpPart :=
  let z := missing s core o.pol q.sec q.accs.length [] q.accs
  let hit := maskOf ((z.1.filter fun a => wordsHit s core o.pol q.sec (accWords q.sec a)).map LaneAcc.lane)
  let s := performL1 s core o { q with accs := z.2 }
  let q := { q with accs := z.1, words := lineMask (z.1.flatMap (accWords q.sec)), hit := hit }
  (ownBesides (s.modOp core o.id fun o => o.modPart q.sec fun _ => q) core o q.sec (z.2.flatMap (accWords q.sec)), q)

/-- The L1's tag check of a part (R230, R241, R270): what hits is performed, else a request is sent. A write that passes through the L1
fires the core's monitors (R309). -/
def startPart (s : State) (core : Nat) (o : LsuOp) (q : OpPart) : State :=
  let own : Bool := o.pol == .own
  let need (q : OpPart) : BitVec 32 := lineMask (q.wordList.filter fun w => match s.l1Word core w with
    | some x => x.st != .owned || o.pol == .nc
    | none => true)
  let read : ReqKind := match o.pol with | .sis => .rdL | .nc => .rdN | _ => .rdS
  match o.kind with
  | .load =>
    let z := serveHits s core o q
    if z.2.accs.isEmpty then finishPart z.1 core o.id q.sec
    else if own then sendOwn z.1 core o.id z.2
    else sendReq z.1 core o.id q.sec read (need z.2)
  | .prefetch =>
    if (if own then ownsWords s core q.wordList else wordsHit s core o.pol q.sec q.wordList) then finishPart s core o.id q.sec
    else if own then sendOwn s core o.id q
    else sendReq s core o.id q.sec read (need q)
  | .store | .atomic | .red =>
    let s := s.fireCore core (q.sec / 4)
    if own then
      if ownsWords s core q.wordList then finishPart (performL1 s core o q) core o.id q.sec else sendOwn s core o.id q
    else
      sendReq s core o.id q.sec (if o.kind == .store then (if o.pol == .nc then .wrN else .wrT) else .at) q.words

/-- The parts of a core that have not been sent and that no earlier part on the same words holds back, in order of
acceptance: words of one core are accessed one operation after another (R285). -/
def readyParts (c : Core) : List (Nat × Nat) :=
  (c.ops.foldl (fun (acc : List (Nat × BitVec 32) × List (Nat × Nat)) o =>
    o.parts.foldl (fun acc q =>
      if q.st == .done then acc
      else
        let free := q.st == .unsent && !acc.1.any fun e => e.1 == q.sec / 4 && (e.2 &&& q.words) != 0
        (acc.1 ++ [(q.sec / 4, q.words)], if free then acc.2 ++ [(o.id, q.sec)] else acc.2)) acc) ([], [])).2

/-- Starts the parts that can start, until none is left or the fuel is used up. -/
def pumpN (s : State) (core n : Nat) : State :=
  match n with
  | 0 => s
  | k + 1 =>
    match readyParts (s.core core) with
    | [] => s
    | (oid, sec) :: _ =>
      match (s.op? core oid).bind fun o => (o.parts.find? fun q => q.sec == sec).map fun q => (o, q) with
      | some (o, q) => pumpN (startPart s core o q) core k
      | none => s

/-- Parts of all operations of a core. -/
def partTotal (c : Core) : Nat := (c.ops.map fun o => o.parts.length).foldl (· + ·) 0

def pump (s : State) (core : Nat) : State := pumpN s core (partTotal (s.core core))

/-- Puts a lane's access to a device address into the parts of an operation. -/
def addPart (ps : List OpPart) (pa : Nat) (a : LaneAcc) : List OpPart :=
  let sec := pa / 32
  let a := { a with off := pa % 32 }
  match ps with
  | [] => [{ sec := sec, words := lineMask (accWords sec a), accs := [a] }]
  | q :: r =>
    if q.sec = sec then { q with words := q.words ||| lineMask (accWords sec a), accs := q.accs ++ [a] } :: r
    else q :: addPart r pa a

/-! ## The home (R262–R273) -/

/-- The operation and its part that a request serves. -/
def Req.target (s : State) (r : Req) : Option (LsuOp × OpPart) :=
  if r.agent < 216 then
    (s.op? r.agent r.op).bind fun o => (o.parts.find? fun q => q.st == .sent r.id).map fun q => (o, q)
  else none

/-- Every byte of the request's sector is written by it (R262). -/
def coversSector (s : State) (r : Req) : Bool :=
  match r.target s with
  | some (o, q) =>
    (match r.kind with | .wrT | .wrN => true | _ => false) && o.kind == .store &&
      (List.range 32).all fun b => q.accs.any fun a => a.off ≤ b && b < a.off + a.size
  | none => false

/-- The first word of a request. -/
def Req.word0 (r : Req) : Nat := 32 * r.line + ((List.range 32).find? fun i => r.words.getLsbD i).getD 0

/-- A snoop to send. -/
structure Plan where
  kind  : SnoopKind
  agent : Nat
  words : BitVec 32
  deriving DecidableEq, Repr

def ReqKind.reads (k : ReqKind) : Bool := match k with | .rdS | .rdL | .rdN => true | _ => false

/-- The forwards, recalls and invalidations that a request needs for its words (R271). -/
def planSnoops (d : DirLine) (r : Req) : List Plan :=
  let ws := r.words &&& ~~~ r.prep
  let owned := d.owners.foldl (fun m o => m ||| o.wmask) 0
  let own := (d.owners.filter fun o => (o.wmask &&& ws) != 0).filterMap fun o =>
    let p (k : SnoopKind) : Option Plan := some { kind := k, agent := o.agent, words := o.wmask &&& ws }
    match r.kind with
    | .rdS | .rdL => if o.agent == r.agent then none else p .fwd
    | .rdN => p .fwd
    | .ownRq | .upg | .wrT | .wrN => if o.agent == r.agent then none else p .rcl
    | .at => p .rcl
    | .wb => none
  let mine := d.owners.foldl (fun m o => if o.agent == r.agent then m ||| o.wmask else m) 0
  let inv := match r.kind with
    | .ownRq | .upg => ws &&& ~~~ owned
    | .wrT | .wrN => ws &&& ~~~ mine
    | .at => ws
    | _ => 0
  let shs := if inv = 0 then [] else (d.sharerList.filter fun n => n != r.agent || r.kind == .at).map fun n =>
    ({ kind := .inv, agent := n, words := inv } : Plan)
  let hst := if inv != 0 && d.host == .shared && r.agent != 255 then [({ kind := .inv, agent := 255, words := inv } : Plan)] else []
  own ++ shs ++ hst

/-- Requests in the network that have reached the home, in order of arrival. -/
def State.queue (s : State) (line : Nat) : List Req :=
  sortBy (fun r => r.arrived.getD 0) (s.net.filterMap fun m => match m with
    | .req r => if r.line == line && r.arrived.isSome then some r else none
    | _ => none)

def State.modReq (s : State) (id : Nat) (f : Req → Req) : State :=
  { s with net := s.net.map fun (m : Msg) => match m with
      | .req r => if r.id == id then .req (f r) else .req r
      | m => m }

def State.req? (s : State) (id : Nat) : Option Req :=
  s.net.findSome? fun m => match m with
    | .req r => if r.id == id then some r else none
    | _ => none

def State.dropReq (s : State) (id : Nat) : State :=
  { s with net := s.net.filter fun m => match m with | .req r => r.id != id | _ => true }

/-- A request for ownership would need a fifth owner record (R273): records that keep words, and the requests of other agents
that are being served. -/
def recordsFull (s : State) (r : Req) : Bool :=
  let d := s.dirLine r.line
  let keep := (d.owners.filter fun o => o.agent != r.agent && (o.wmask &&& ~~~ r.words) != 0).map fun o => o.agent
  let coming := ((s.queue r.line).filter fun (q : Req) => q.id != r.id && q.agent != r.agent && !q.waiting.isEmpty
    && (q.kind == .ownRq || q.kind == .upg)).map fun (q : Req) => q.agent
  !(d.owners.any fun o => o.agent == r.agent) && 4 ≤ (keep ++ coming).dedup.length

/-- How a request for ownership is served when no record is free (R273). -/
def servedAs (s : State) (r : Req) : ReqKind :=
  match r.kind with
  | .ownRq | .upg =>
    if !r.ahead && recordsFull s r then
      match (r.target s).map fun (t : LsuOp × OpPart) => t.1.kind with
      | some .store => .wrT
      | some .atomic | some .red => .at
      | _ => .rdS
    else r.kind
  | k => k

/-- The lines that a launch has pinned become default when it completes (R264). -/
def State.unpinAll (s : State) (launch : Nat) : State :=
  { s with l2 := s.l2.map fun e => if e.2.cls == .pinned && e.2.pinner == launch then (e.1, { e.2 with cls := .dflt }) else e }

/-- Adds words to an agent's owner record, creating it in state E (R270). -/
def DirLine.grant (d : DirLine) (agent : Nat) (ws : BitVec 32) : DirLine :=
  if d.owners.any fun o => o.agent == agent then
    { d with owners := d.owners.map fun o => if o.agent == agent then { o with wmask := o.wmask ||| ws } else o }
  else { d with owners := d.owners ++ [{ agent := agent, answered := false, wmask := ws }] }

def DirLine.addSharer (d : DirLine) (n : Nat) : DirLine := { d with sharers := d.sharers ||| BitVec.ofNat 216 (2 ^ n) }

/-- The words of a line in a mask. -/
def maskWords (line : Nat) (m : BitVec 32) : List Nat := ((List.range 32).filter fun i => m.getLsbD i).map fun i => 32 * line + i

/-- The other words of the sectors of a request that no one owns and that are not busy (R271). -/
def sectorExtras (d : DirLine) (r : Req) : BitVec 32 :=
  let secs := (List.range 4).filter fun k => (r.words >>> (8 * k)) &&& 0xFF#32 != 0
  let all := secs.foldl (fun (m : BitVec 32) k => m ||| (0xFF#32 <<< (8 * k))) 0
  let owned := d.owners.foldl (fun m o => m ||| o.wmask) 0
  let busy := d.busy.foldl (fun m e => m ||| bit32 e.1) 0
  all &&& ~~~ r.words &&& ~~~ owned &&& ~~~ busy

/-- Data of words at the home, with the poisoned ones. -/
def homeData (s : State) (line : Nat) (m : BitVec 32) : Tbl Word × BitVec 32 :=
  let l := (List.range 32).filter fun i => m.getLsbD i
  (l.map fun i => (i, (s.homeWord (32 * line + i)).1), lineMask (l.filter fun i => (s.homeWord (32 * line + i)).2))

/-- Race checks of a part at the home, lane by lane: the racing lanes. -/
def raceHome (s : State) (o : LsuOp) (q : OpPart) : State × LaneMask :=
  q.accs.foldl (fun (acc : State × LaneMask) a =>
    let r := raceAcc acc.1 o q a fun w => openGet (acc.1.dirLine (w / 32)).opens w
    (r.1, if r.2 then acc.2 ||| laneBit a.lane else acc.2)) (s, 0)

/-- The opens of agents other than one on words of a line, which fills, grants and forwards carry (R281). -/
def othersOn (d : DirLine) (agent : Nat) (ws : List Nat) : Tbl WordOpens :=
  ws.filterMap fun w =>
    let o := (openGet d.opens w).close agent
    if o = {} then none else some (w, o)

/-- Reads at the home (R271): the reply, and what is registered. -/
def finishRead (s : State) (r : Req) (kind : ReqKind) (t : LsuOp × OpPart) : State :=
  let rc := raceHome s t.1 t.2
  let s := rc.1
  let d := s.dirLine r.line
  let owned := d.owners.foldl (fun m o => m ||| o.wmask) 0
  let mine := (d.owners.filter fun o => o.agent == r.agent).foldl (fun m o => m ||| o.wmask) 0
  let ex := if kind == .rdN then 0 else sectorExtras d r
  let dw := r.words &&& (if kind == .rdN then BitVec.allOnes 32 else ~~~ mine)
  let data := homeData s r.line (dw ||| ex)
  let reg := (r.words &&& ~~~ owned) ||| ex
  let others := othersOn d r.agent (maskWords r.line (dw ||| ex))
  let s := if kind == .rdS then s.modDir r.line fun d => d.addSharer r.agent else s
  s.send fun n => .reply
    { id := n, agent := r.agent, req := r.id, op := r.op, line := r.line, words := r.words
      share := if kind == .rdS then reg else 0, lease := if kind == .rdL then dw ||| ex else 0
      data := data.1, poison := data.2, others := others, raced := rc.2 }

/-- Grants of ownership (R271): a UPG that no INV crossed carries no data for its words. -/
def finishOwn (s : State) (r : Req) : State :=
  let d := s.dirLine r.line
  let ex := sectorExtras d r
  let dw := if r.kind == .upg && !r.converted then 0 else r.words
  let data := homeData s r.line (dw ||| ex)
  let s := s.modDir r.line fun d => (d.grant r.agent r.words).addSharer r.agent
  s.send fun n => .reply
    { id := n, agent := r.agent, req := r.id, op := r.op, line := r.line, words := r.words, own := r.words, share := ex
      data := data.1, poison := data.2, others := othersOn d r.agent (maskWords r.line r.words) }

/-- A message of core a with bytes merged into the value of a word that it carries. -/
def Msg.ownMerge (a w : Nat) (bs : List (Nat × Byte)) (m : Msg) : Msg :=
  let data (t : Tbl Word) : Tbl Word := match tget t (w % 32) with | some v => tset t (w % 32) (mergeBytes v bs) | none => t
  let poison (p : BitVec 32) : BitVec 32 := if wholeWord bs then p &&& ~~~ bit32 (w % 32) else p
  match m with
  | .req r => if r.kind == .wb && r.agent == a && r.line == w / 32 then .req { r with data := data r.data, poison := poison r.poison } else .req r
  | .answer r => if r.agent == a && r.line == w / 32 then .answer { r with data := data r.data, poison := poison r.poison } else .answer r
  | .reply r => if r.agent == a && r.line == w / 32 && r.own.getLsbD (w % 32) then
      .reply { r with data := data r.data, poison := poison r.poison } else .reply r
  | m => m

/-- A write-through store of an owner is merged at the home and the owner keeps the word (R271): the bytes go into the value that it holds, wherever
that is at this moment, so that its older value does not come back over them (R285). -/
def State.ownMerge (s : State) (a w : Nat) (bs : List (Nat × Byte)) : State :=
  if (s.dirLine (w / 32)).ownerOf (w % 32) != some a then s
  else
    let s := match (s.l1Word a w).filter fun x => x.st == .owned with
      | some x => s.l1Set a w { x with val := mergeBytes x.val bs, poison := x.poison && !wholeWord bs }
      | none => s
    let put (b : WbLine) : WbLine :=
      match tget b.data (w % 32) with
      | some v => if b.line != w / 32 then b else
        { b with data := tset b.data (w % 32) (mergeBytes v bs), poison := if wholeWord bs then b.poison &&& ~~~ bit32 (w % 32) else b.poison }
      | none => b
    let s := s.modCore a fun c => { c with wbuf := c.wbuf.map put }
    { s with net := s.net.map (Msg.ownMerge a w bs) }

/-- Write-through and NC stores at the home (R271): bytes of racing lanes in deterministic mode are left out. -/
def finishWrite (s : State) (r : Req) (kind : ReqKind) (t : LsuOp × OpPart) : State :=
  let o := t.1
  let q := t.2
  let rc := raceHome s o q
  let s := rc.1
  let s := if kind == .wrN then forEach (maskWords r.line r.words) s fun s w =>
      if (s.dirLine r.line).ownerOf (w % 32) == some r.agent then s.recallNow w else s
    else s
  let s := forEach q.accs s fun s a =>
    if o.det && rc.2.getLsbD a.lane then s
    else
      let bs := accBytes q.sec a a.x
      forEach (accWords q.sec a) s fun s w => (s.homeMerge w (bytesOf bs w)).ownMerge r.agent w (bytesOf bs w)
  let data := homeData s r.line r.words
  let wis := o.pol == .wis && kind == .wrT
  let s := if wis then s.modDir r.line fun d => d.addSharer r.agent else s
  s.send fun n => .ack
    { id := n, agent := r.agent, line := r.line, req := r.id, op := r.op, kind := kind, words := r.words
      share := if wis then r.words else 0, data := data.1, poison := data.2 }

/-- Atomics and reductions at the bank ALU (R265). -/
def finishAtomic (s : State) (r : Req) (t : LsuOp × OpPart) : State :=
  let o := t.1
  let q := t.2
  let z := q.accs.foldl (fun (acc : State × Tbl (DWord × Bool × Bool)) a =>
    let s := acc.1
    let old := accValue s.homeWord q.sec a.off a.size
    if old.2 then
      ((if o.kind == .red then s.count .poisonDrop 1 else s), tset acc.2 a.lane (BitVec.ofNat 64 old.1, false, true))
    else
      let n := atomNew o.aop a.size old.1 a.x a.y
      let bs := accBytes q.sec a n.1
      (forEach (accWords q.sec a) s fun s w => s.homeMerge w (bytesOf bs w), tset acc.2 a.lane (BitVec.ofNat 64 old.1, n.2, false)))
    (s, [])
  if o.kind == .red then
    z.1.send fun n => .ack { id := n, agent := r.agent, line := r.line, req := r.id, op := r.op, kind := .at, words := r.words }
  else
    z.1.send fun n => .reply { id := n, agent := r.agent, req := r.id, op := r.op, line := r.line, words := r.words, olds := z.2 }

/-- Serves a request whose words are free and prepared: the answer is sent and the request is done. -/
def finishReq (s : State) (r : Req) : State :=
  match r.target s with
  | none => if r.ahead then s.modReq r.id fun q => { q with served := true, arrived := none } else s.dropReq r.id
  | some t =>
    let s := s.fillSector r.word0
    let s := match r.kind with
      | .rdS | .rdL | .rdN => finishRead s r r.kind t
      | .ownRq | .upg => finishOwn s r
      | .wrT | .wrN => finishWrite s r r.kind t
      | .at => finishAtomic s r t
      | .wb => s
    (touchLine s r.line t.1.cls t.1.launch).dropReq r.id

/-- The opens that a forward carries to the owner: those of other agents, the one among them that the forwarded load is to make (R281). -/
def fwdOthers (s : State) (r : Req) (p : Plan) : Tbl WordOpens :=
  let d := s.dirLine r.line
  let reads := match r.target s with
    | some (o, q) => if o.checked then q.words else 0
    | none => if 256 ≤ r.agent then r.words else 0
  ((maskWords r.line p.words).map fun w =>
    let o := (openGet d.opens w).close p.agent
    (w, if reads.getLsbD (w % 32) then o.addR r.agent else o)).filter fun e => e.2 != {}

/-- Sends the snoops of a request and marks the words that they name busy (R272). -/
def sendSnoops (s : State) (r : Req) (ps : List Plan) : State :=
  let s := forEach ps s fun s p => s.send fun n =>
    .snoop { id := n, kind := p.kind, agent := p.agent, line := r.line, words := p.words, txn := r.id, sentAt := s.now
             others := if p.kind == .fwd then fwdOthers s r p else [] }
  let busy := ps.foldl (fun (m : BitVec 32) p => m ||| p.words) 0
  let s := s.modDir r.line fun d =>
    { d with busy := (maskWords r.line busy).foldl (fun t w => tset t (w % 32) r.id) d.busy }
  s.modReq r.id fun q => { q with waiting := ps.map (fun p => (p.agent, p.kind == .inv)), prep := 0 }

/-- A request that reached the home earlier waits for a word of a request (R272). -/
def State.behind (s : State) (r : Req) : Bool := (s.queue r.line).any fun q =>
  q.id != r.id && q.arrived.getD 0 < r.arrived.getD 0 && (q.words &&& r.words) != 0

/-- Serves a request as far as it can go now (R262, R271–R273): it waits while a word of it is busy or an earlier request waits for one, or for its
sector; the words prepared in the round that has just ended need no snoops. -/
def tryServe (s : State) (id : Nat) : State :=
  match s.req? id with
  | none => s
  | some r =>
    let d := s.dirLine r.line
    let busy := (maskWords r.line r.words).any fun w => (tget d.busy (w % 32)).isSome
    if !r.waiting.isEmpty || busy || s.behind r then s
    else
      let r := { r with kind := servedAs s r }
      let s := s.modReq id fun q => { q with kind := r.kind }
      if !s.sectorValid r.word0 && !(coversSector s r && s.l2Open r.line) then s.wantSector r.word0
      else if (planSnoops d r).isEmpty then finishReq s r
      else
        let ps := planSnoops d { r with prep := 0 }
        let n := (maskWords r.line (ps.foldl (fun (m : BitVec 32) p => m ||| p.words) 0)).length
        if 8 < d.busy.length + n then s else sendSnoops s r ps

/-- Tries the waiting requests of a line in arrival order. -/
def kick (s : State) (line : Nat) : State := forEach ((s.queue line).map fun r => r.id) s fun s id => tryServe s id

/-- A transaction whose answers have all arrived: its words are busy no more and it goes on, before the requests that wait for them
(R272). -/
def proceed (s : State) (id : Nat) : State :=
  match s.req? id with
  | none => s
  | some r =>
    if r.waiting.isEmpty then
      let d := s.dirLine r.line
      let mine := (d.busy.filter fun e => e.2 == id).foldl (fun (m : BitVec 32) e => m ||| bit32 e.1) 0
      let s := s.setDir r.line { d with busy := d.busy.filter fun e => e.2 != id }
      let s := tryServe (s.modReq id fun q => { q with prep := mine }) id
      kick (s.modReq id fun q => if q.waiting.isEmpty then { q with prep := 0 } else q) r.line
    else s

/-- An agent's answer to a transaction has come (R272). -/
def answered (s : State) (id agent : Nat) (inv : Bool) : State :=
  proceed (s.modReq id fun q => { q with waiting := q.waiting.filter fun a => a != (agent, inv) }) id

end Sys2Proof.Machine
end

