-- ==== Sys2Proof/Machine/Home.lean ====
section
/-! DEFINITION. Events of the home engine, of the L1s and of the host as an agent (R262–R280). -/

namespace Sys2Proof.Machine

/-! ## Messages in the order of R272 -/

def Msg.ident : Msg → Nat
  | .req r => r.id
  | .snoop r => r.id
  | .reply r => r.id
  | .answer r => r.id
  | .ack r => r.id

/-- The agent and line of a message still on its way to the home. -/
def Msg.toHome : Msg → Option (Nat × Nat)
  | .req r => if r.arrived.isSome || r.served then none else some (r.agent, r.line)
  | .answer r => some (r.agent, r.line)
  | _ => none

/-- The agent and line of a message on its way from the home. -/
def Msg.fromHome : Msg → Option (Nat × Nat)
  | .snoop r => some (r.agent, r.line)
  | .reply r => some (r.agent, r.line)
  | .ack r => some (r.agent, r.line)
  | _ => none

/-- No message sent earlier between the same agent and the home about the same line is still on its way (R272). -/
def firstOnWay (s : State) (id : Nat) (way : Msg → Option (Nat × Nat)) (key : Nat × Nat) : Bool :=
  match s.net.find? fun m => way m == some key with
  | some m => m.ident == id
  | none => false

def State.dropMsg (s : State) (id : Nat) : State := { s with net := s.net.filter fun m => m.ident != id }

/-- A message from the home to an agent that may arrive now. -/
def State.fromHome? (s : State) (id : Nat) : Option Msg :=
  (s.net.find? fun m => m.ident == id).bind fun m => m.fromHome.bind fun k => if firstOnWay s id Msg.fromHome k then some m else none

/-! ## Requests reach the home -/

/-- An owner's write-back (R274, R278): its data is merged, its words leave the record, and the forwards and recalls sent for
them are complete. A fenced agent's is discarded (R279). -/
def serveWb (s : State) (r : Req) : State :=
  if s.fenced.contains r.agent then s.dropReq r.id
  else
    let mine := (maskWords r.line r.words).filter fun w => (s.dirLine r.line).ownerOf (w % 32) == some r.agent
    let s := forEach mine s fun s w =>
      match tget r.data (w % 32) with
      | some v => s.homePut w v (r.poison.getLsbD (w % 32))
      | none => s
    let s := s.modDir r.line fun d => d.disown r.agent r.words
    let s := (s.dropReq r.id).send fun n =>
      .ack { id := n, agent := r.agent, line := r.line, req := r.id, op := 0, kind := .wb, words := r.words }
    let waits := (s.queue r.line).filter fun q => q.waiting.contains (r.agent, false) && (q.words &&& r.words) != 0
    kick (forEach waits s fun s q => answered s q.id r.agent false) r.line

/-- A request of a kind arrives, in its turn, and is served as far as it can be; one that has arrived is tried again. Requests that reach a slice
in one cc are accepted in ascending agent id (R272). -/
def homeRequest (s : State) (id : Nat) (k : ReqKind) : State :=
  match s.req? id with
  | none => s
  | some r =>
    if r.kind != k then s
    else
      match r.arrived with
      | some _ => tryServe s id
      | none =>
        if !r.served && firstOnWay s id Msg.toHome (r.agent, r.line) && s.mayAccept r.line r.agent then
          let n := (s.accepted r.line r.agent).newId
          let s := n.1.modReq id fun q => { q with arrived := some n.2 }
          if k == .wb then serveWb s r else tryServe s id
        else s

def execRdS (msg : Nat) (s : State) : Host.Outcome State Fault Refusal := .next (homeRequest s msg .rdS)
def execRdL (msg : Nat) (s : State) : Host.Outcome State Fault Refusal := .next (homeRequest s msg .rdL)
def execRdN (msg : Nat) (s : State) : Host.Outcome State Fault Refusal := .next (homeRequest s msg .rdN)
def execOwnRq (msg : Nat) (s : State) : Host.Outcome State Fault Refusal := .next (homeRequest s msg .ownRq)
def execUpg (msg : Nat) (s : State) : Host.Outcome State Fault Refusal := .next (homeRequest s msg .upg)
def execWrT (msg : Nat) (s : State) : Host.Outcome State Fault Refusal := .next (homeRequest s msg .wrT)
def execWrN (msg : Nat) (s : State) : Host.Outcome State Fault Refusal := .next (homeRequest s msg .wrN)
def execAtomicReq (msg : Nat) (s : State) : Host.Outcome State Fault Refusal := .next (homeRequest s msg .at)
def execWb (msg : Nat) (s : State) : Host.Outcome State Fault Refusal := .next (homeRequest s msg .wb)

/-! ## Snoops reach an L1 -/

/-- An agent has a word in its write-back buffer and not in its L1. -/
def inWbuf (s : State) (core w : Nat) : Bool :=
  (match s.l1Word core w with | some x => x.st != .owned | none => true) && (s.core core).wbuf.any fun b => b.line == w / 32 && b.words.getLsbD (w % 32)

/-- The values that an owner returns for a snoop, with the poisoned words: those that its L1 owns, dirty ones or all of them (`all`),
and, for a forward, those in its write-back buffer (R278). -/
def ownerData (s : State) (core : Nat) (ws : List Nat) (all : Bool) : Tbl Word × BitVec 32 :=
  let l := ws.filterMap fun w => match (s.l1Word core w).filter fun x => x.st == .owned with
    | some x => if all || x.dirty then some (w % 32, x.val, x.poison) else none
    | none =>
      if !all then none
      else ((s.core core).wbuf.find? fun b => b.line == w / 32 && b.words.getLsbD (w % 32)).bind fun b =>
        (tget b.data (w % 32)).map fun v => (w % 32, v, b.poison.getLsbD (w % 32))
  (l.map fun e => (e.1, e.2.1), (l.filter fun e => e.2.2).foldl (fun m e => m ||| bit32 e.1) 0)

/-- Puts the opens that a message carries for words of a line beside the L1's words (R281). -/
def setOthers (s : State) (core line : Nat) (words : BitVec 32) (others : Tbl WordOpens) : State :=
  s.modCore core fun c => { c with l1 := tmod c.l1 line fun l =>
    { l with others := others.foldl (fun t e => openPut t e.1 e.2) (l.others.filter fun e => !words.getLsbD (e.1 % 32)) } }

/-- FWD (R271, R278): the owner keeps the words, and its L1 keeps the opens that the forward carries. -/
def execFwd (msg : Nat) (s : State) : Host.Outcome State Fault Refusal :=
  match s.fromHome? msg with
  | some (.snoop r) =>
    if r.kind == .fwd && r.agent < 216 then
      let ws := maskWords r.line r.words
      let d := ownerData s r.agent ws true
      .next ((setOthers (s.dropMsg msg) r.agent r.line r.words r.others).send fun n => .answer
        { id := n, agent := r.agent, txn := r.txn, kind := .fwd, line := r.line, words := r.words, data := d.1, poison := d.2
          inWb := ws.any fun w => inWbuf s r.agent w })
    else .next s
  | _ => .next s

/-- RCL (R271, R278): the words are cleared in the owner's L1 and returned if dirty. -/
def execRcl (msg : Nat) (s : State) : Host.Outcome State Fault Refusal :=
  match s.fromHome? msg with
  | some (.snoop r) =>
    if r.kind == .rcl && r.agent < 216 then
      let ws := maskWords r.line r.words
      let d := ownerData s r.agent ws false
      let inWb := ws.any fun w => inWbuf s r.agent w
      let s := forEach ws (s.dropMsg msg) fun s w => s.l1Drop r.agent w
      .next ((s.fireCore r.agent r.line).send fun n => .answer
        { id := n, agent := r.agent, txn := r.txn, kind := .rcl, line := r.line, words := r.words, data := d.1, poison := d.2, inWb := inWb })
    else .next s
  | _ => .next s

/-- An upgrade of an agent for the words of a snoop is on its way (R277). -/
def upgCrossed (s : State) (r : Snoop) : Bool := s.net.any fun m => match m with
  | .req q => q.kind == .upg && q.agent == r.agent && q.line == r.line && (q.words &&& r.words) != 0
  | _ => false

/-- INV (R271, R277): registered copies are dropped; an acknowledgement that crossed an upgrade says so. -/
def execInv (msg : Nat) (s : State) : Host.Outcome State Fault Refusal :=
  match s.fromHome? msg with
  | some (.snoop r) =>
    if r.kind == .inv && r.agent < 216 then
      let s := forEach (maskWords r.line r.words) (s.dropMsg msg) fun s w => s.dropShared w r.agent
      .next ((s.fireCore r.agent r.line).send fun n => .answer
        { id := n, agent := r.agent, txn := r.txn, kind := .inv, line := r.line, words := r.words, data := [], poison := 0
          crossed := upgCrossed s r, gone := (s.l1Line r.agent r.line).isNone })
    else .next s
  | _ => .next s

/-! ## Answers reach the home -/

/-- Takes an answer's data and its effect on the directory (R271, R277, R279). An acknowledgement from an L1 that no longer holds the
line clears its SHARERS bit, unless it has been given the line again since (log entry 25). -/
def takeAnswer (s : State) (r : HomeAns) : State :=
  let s := if r.gone then s.unshare r.line r.agent else s
  let s : State := if r.crossed then
      { s with net := s.net.map fun (m : Msg) => match m with
          | .req q => if q.kind == .upg && q.agent == r.agent && q.line == r.line && (q.words &&& r.words) != 0 then
              .req { q with converted := true } else .req q
          | m => m }
    else s
  let s := forEach r.data s fun s e => s.homePut (32 * r.line + e.1) e.2 (r.poison.getLsbD e.1)
  match r.kind with
  | .fwd => s.modDir r.line fun d =>
      { d with owners := d.owners.map fun o => if o.agent == r.agent then { o with answered := true } else o }
  | .rcl => s.modDir r.line fun d => d.disown r.agent r.words
  | .inv => s

/-- HOME_ACK (R272): an answer arrives; when it was the last, the waiting transaction proceeds. -/
def execHomeAck (msg : Nat) (s : State) : Host.Outcome State Fault Refusal :=
  match s.net.find? fun m => m.ident == msg with
  | some (.answer r) =>
    if !firstOnWay s msg Msg.toHome (r.agent, r.line) then .next s
    else
      let s := s.dropMsg msg
      let inv := r.kind == .inv
      let waited := match s.req? r.txn with
        | some q => q.waiting.contains (r.agent, inv)
        | none => false
      if s.fenced.contains r.agent || (r.inWb && r.kind != .fwd) || !waited then .next s
      else .next (answered (takeAnswer s r) r.txn r.agent inv)
  | _ => .next s

/-! ## Replies and acknowledgements reach an L1 -/

/-- The L1 evicts a line (R274): owned words leave in a write-back, registered and leased copies silently; a host line's dirty
words go to the host. An access in flight to the line starts again if it loses a word (completePart). -/
def evictL1 (s : State) (core line : Nat) : State :=
  match s.l1Line core line with
  | none => s
  | some l =>
    if 2 ^ 60 ≤ line then
      let s := forEach l.words s fun s e =>
        if e.2.dirty then { s with hostMem := mputNat s.hostMem (128 * (line - 2 ^ 60) + 4 * e.1) 4 e.2.val.toNat } else s
      let left := (tgetD s.hostCached (line - 2 ^ 60) []).filter fun n => n != core
      let s := s.modCore core fun c => { c with l1 := tdel c.l1 line }
      { s with hostCached := if left.isEmpty then tdel s.hostCached (line - 2 ^ 60) else tset s.hostCached (line - 2 ^ 60) left }
    else
      let own := l.words.filter fun e => e.2.st == .owned
      let words := own.foldl (fun m e => m ||| bit32 e.1) 0
      let dirty := own.filter fun e => e.2.dirty
      let data := own.map fun e => (e.1, e.2.val)
      let poison := (own.filter fun e => e.2.poison).foldl (fun m e => m ||| bit32 e.1) 0
      let s := (s.modCore core fun c => { c with l1 := tdel c.l1 line }).fireCore core line
      if own.isEmpty then s
      else
        let n := s.newId
        let r : Req :=
          { id := n.2, agent := core, kind := .wb, line := line, words := words, data := dirty.map fun e => (e.1, e.2.val)
            poison := poison, clean := (own.filter fun e => !e.2.dirty).foldl (fun m e => m ||| bit32 e.1) 0 }
        let s : State := { n.1 with net := n.1.net ++ [Msg.req r] }
        s.modCore core fun c =>
          { c with wbuf := c.wbuf ++ [{ req := n.2, line := line, words := words, data := data, poison := poison }] }

/-- The set of an L1, among those that the split leaves it, into which a line falls (R105, R228; log entry 21). -/
def l1Index (c : Core) (line : Nat) : Nat := let sets := 768 - 128 * min 5 c.split; Config.l1Set sets line % sets

/-- The lines of an L1 that share a full set with a line that it does not hold (R105, R228: eight ways, in what a scratchpad of 256 KiB and the
split's steps of 128 KiB leaves of 1 MiB); which set a line falls into is not given (log entry 21). -/
def l1FullSet (s : State) (core line : Nat) : List Nat :=
  let c := s.core core
  if c.l1.length < 8 || (tget c.l1 line).isSome then []
  else
    let ways := c.l1.filter fun e => l1Index c e.1 == l1Index c line
    if ways.length < 8 then [] else ways.map fun e => e.1

/-- Room for a line in an L1: of the full set the victim that is named goes, else the first line (R228: the replacement order is not
architectural; log entry 21). -/
def l1Room (s : State) (core line : Nat) (victim : Option Nat) : State :=
  match l1FullSet s core line with
  | [] => s
  | v :: ws => evictL1 s core ((victim.filter fun x => (v :: ws).contains x).getD v)

/-- After a new split the sets of an L1 that hold more than eight lines lose those beyond (R105, R228). -/
def l1Shrink (s : State) (core : Nat) : State :=
  let c := s.core core
  let beyond (e : Nat × L1Line) (before : List (Nat × L1Line)) : Bool := 8 ≤ (before.filter fun x => l1Index c x.1 == l1Index c e.1).length
  let gone := (c.l1.foldl (fun (acc : List (Nat × L1Line) × List Nat) e =>
    if beyond e acc.1 then (acc.1, acc.2 ++ [e.1]) else (acc.1 ++ [e], acc.2)) ([], [])).2
  forEach gone s fun s line => evictL1 s core line

/-- The core may take a device word under OWN now: the home is not busy with it and has an owner record for the core (R272, R273). -/
def mayOwn (s : State) (core w : Nat) : Bool :=
  !s.wordBusy w && !recordsFull s { id := s.nextId, agent := core, kind := .ownRq, line := w / 32, words := bit32 (w % 32) }

/-- The core's L1 holds a device word under OWN. -/
def holdsOwn (s : State) (core w : Nat) : Bool :=
  (s.dirLine (w / 32)).ownerOf (w % 32) == some core && ((s.l1Word core w).any fun x => x.st == .owned)

/-- The core's L1 takes a device word under OWN, in one step (R271: recalled from its owner, invalidated at its sharers, granted). -/
def takeOwn (s : State) (core w : Nat) : State :=
  if holdsOwn s core w then s
  else
    let s := l1Room (((s.recallNow w).fillSector w).invNow w) core (w / 32) none
    let v := s.homeWord w
    let others := othersOn (s.dirLine (w / 32)) core [w]
    let s := s.l1Set core w { st := .owned, dirty := false, val := v.1, poison := v.2 }
    setOthers (s.modDir (w / 32) fun d => (d.grant core (bit32 (w % 32))).addSharer core) core (w / 32) (bit32 (w % 32)) others

/-- The core's L1 holds words under OWN from now on, where it may take them all. -/
def engineOwn (s : State) (core : Nat) (ws : List Nat) : State := if ws.all (mayOwn s core) then forEach ws s fun s w => takeOwn s core w else s

/-- A write of the fragment-list or ray engine, or of a call, through its core's L1 (R146, R401, R415): the words are held under OWN and written there;
where no owner record is free, the write is performed at the home (R273). -/
def engineWrite (s : State) (core : Nat) (x : Loc) (bs : List Byte) : State :=
  match x with
  | .dev a _ =>
    if (wordSpan a bs.length).all (mayOwn s core) then
      forEach (byWord a bs []) s fun s e => (l1Write (takeOwn s core e.1) core e.1 e.2).fireCore core (e.1 / 32)
    else writeLoc s core x bs
  | _ => writeLoc s core x bs

/-- Words of a reply go into the L1 (R229, R271). -/
def fillWord (s : State) (r : Reply) (i : Nat) : State :=
  let w := 32 * r.line + i
  let old := s.l1Word r.agent w
  let poison := r.poison.getLsbD i
  let isOwned := match old with | some x => x.st == .owned | none => false
  if r.own.getLsbD i then
    match tget r.data i, old with
    | some v, _ => if isOwned then s else s.l1Set r.agent w { st := .owned, dirty := false, val := v, poison := poison }
    | none, some x => s.l1Set r.agent w { x with st := .owned, dirty := x.dirty && isOwned }
    | none, none => s
  else if isOwned then s
  else
    match tget r.data i with
    | none => s
    | some v =>
      if r.share.getLsbD i then s.l1Set r.agent w { st := .shared, dirty := false, val := v, poison := poison }
      else if r.lease.getLsbD i then
        match old with
        | some x => if x.st == .shared then s else s.l1Set r.agent w { st := .leased, dirty := false, val := v, poison := poison }
        | none => s.l1Set r.agent w { st := .leased, dirty := false, val := v, poison := poison }
      else s

/-- A line of an L1 holds an unexpired leased word (R229). -/
def leaseLive (s : State) (core line : Nat) : Bool :=
  match s.l1Line core line with
  | some l => l.words.any (fun w => w.2.st == .leased) && s.now < l.expiry
  | none => false

/-- The lease of a line after a fill that brings leased words (R229, R276); `live` says whether it held an unexpired leased word before
the fill. -/
def setLease (s : State) (r : Reply) (live : Bool) (vline : Nat) : State :=
  if r.lease = 0 then s
  else s.modCore r.agent fun c => { c with l1 := tmod c.l1 r.line fun l =>
    { l with expiry := if live then l.expiry else s.now + max 256 s.leaseLen, vline := vline } }

/-- A fill's words; expired leased words of the line go first, so that a new lease does not revive them. -/
def dropExpired (s : State) (core line : Nat) : State :=
  s.modCore core fun c =>
    match tget c.l1 line with
    | none => c
    | some l =>
      if l.expiry ≤ s.now then
        let ws := l.words.filter fun w => w.2.st != .leased
        { c with l1 := if ws.isEmpty then tdel c.l1 line else tset c.l1 line { l with words := ws } }
      else c

/-- The words of a reply go into the L1 of its agent (R229, R271, R276). -/
def fillReply (s : State) (r : Reply) (vline : Nat) : State :=
  let s := dropExpired s r.agent r.line
  let live := leaseLive s r.agent r.line
  let s := forEach ((List.range 32).filter fun i => (r.own ||| r.share ||| r.lease).getLsbD i) s fun s i => fillWord s r i
  setLease (setOthers s r.agent r.line (r.own ||| r.lease) r.others) r live vline

/-- The part of an operation that a request served, back at the L1: the access is performed with the reply's data, or starts
again where a word was lost on the way (R278). -/
def completePart (s : State) (r : Reply) (o : LsuOp) (q : OpPart) : State :=
  let again (s : State) : State := s.modOp r.agent o.id fun o => o.modPart q.sec fun q => { q with st := .unsent }
  let own (w : Nat) : Bool := match s.l1Word r.agent w with | some x => x.st == .owned | none => false
  let val (w : Nat) : Option (Word × Bool) := match tget r.data (w % 32) with
    | some v => some (v, r.poison.getLsbD (w % 32))
    | none => (s.l1Word r.agent w).map fun x => (x.val, x.poison)
  match o.kind with
  | .prefetch => finishPart s r.agent o.id q.sec
  | .load =>
    if r.own != 0 then
      if q.wordList.all own then finishPart (performL1 s r.agent o q) r.agent o.id q.sec else again s
    else if q.wordList.all fun w => (val w).isSome then
      let s := forEach q.accs s fun s a =>
        let v := accValue (fun w => (val w).getD (0, true)) q.sec a.off a.size
        if o.det && r.raced.getLsbD a.lane then s else deliverLoad s o a.lane a.size v.1 (v.2 || r.raced.getLsbD a.lane)
      finishPart s r.agent o.id q.sec
    else again s
  | .store => if q.wordList.all own then finishPart (performL1 s r.agent o q) r.agent o.id q.sec else again s
  | .atomic | .red =>
    if r.olds.isEmpty then
      if q.wordList.all own then finishPart (performL1 s r.agent o q) r.agent o.id q.sec else again s
    else
      let size (lane : Nat) : Nat := ((q.accs.find? fun a => a.lane == lane).map LaneAcc.size).getD 4
      let s := (forEach q.wordList s fun s w => s.l1Drop r.agent w).fireCore r.agent r.line
      let s := forEach r.olds s fun s e => deliverAtom s o e.1 (size e.1) e.2.1.toNat e.2.2.1 e.2.2.2
      finishPart s r.agent o.id q.sec

/-- GRANT (R271): a reply arrives; `victim` is the line that the L1 evicts to make room. -/
def execGrant (msg : Nat) (victim : Option Nat) (s : State) : Host.Outcome State Fault Refusal :=
  match s.fromHome? msg with
  | some (.reply r) =>
    let s := s.dropMsg msg
    let s := if (r.own ||| r.share ||| r.lease) = 0 then s else l1Room s r.agent r.line victim
    match (s.op? r.agent r.op).bind fun o => (o.parts.find? fun q => q.st == .sent r.req).map fun q => (o, q) with
    | none => .next s
    | some (o, q) =>
      let s := fillReply s r ((q.accs.head?.map fun a => nbits a.vaddr.toNat 0 57 / 128).getD 0)
      .next (pump (completePart s r o q) r.agent)
  | _ => .next s

/-- The writer's L1 after its write-through or NC store has been performed (R230, R271); a word that it owns has the store already (ownMerge). -/
def ackedStore (s : State) (r : WriteAck) (q : OpPart) : State :=
  let s := if r.share = 0 then s else l1Room s r.agent r.line none
  State.fireCore (core := r.agent) (line := r.line) <| forEach q.wordList s fun s w =>
    let i := w % 32
    let fresh (st : L1St) : L1Word := { st := st, dirty := false, val := tgetD r.data i 0, poison := r.poison.getLsbD i }
    match s.l1Word r.agent w with
    | some x =>
      if r.kind == .wrN || r.kind == .at then s.l1Drop r.agent w
      else if x.st == .owned then s
      else if r.share.getLsbD i then s.l1Set r.agent w (fresh .shared)
      else s.l1Set r.agent w (fresh x.st)
    | none => if r.share.getLsbD i then s.l1Set r.agent w (fresh .shared) else s

/-- WRITE_ACKNOWLEDGED (R272, R274). -/
def execWriteAcknowledged (msg : Nat) (s : State) : Host.Outcome State Fault Refusal :=
  match s.fromHome? msg with
  | some (.ack r) =>
    let s := s.dropMsg msg
    if r.kind == .wb then .next (s.modCore r.agent fun c => { c with wbuf := c.wbuf.filter fun b => b.req != r.req })
    else
      match (s.op? r.agent r.op).bind fun o => (o.parts.find? fun q => q.st == .sent r.req).map fun q => (o, q) with
      | none => .next s
      | some (o, q) => .next (pump (finishPart (ackedStore s r q) r.agent o.id q.sec) r.agent)
  | _ => .next s

/-! ## Misses and victims (R262–R264, R266, R275) -/

/-- Tries the waiting requests of a slice, line by line in arrival order. -/
def kickSlice (s : State) (slice : Nat) : State :=
  let ids := (s.net.filterMap fun m => match m with
    | .req r => if sliceOf r.line == slice then r.arrived.map fun a => (a, r.id) else none
    | _ => none)
  forEach (sortBy (fun e => e.1) ids) s fun s e => tryServe s e.2

/-- The victim of a fill (R264): none where the line has a way or its set an invalid one, else an eligible way of the lowest rank. -/
def victimOk (s : State) (line : Nat) (victim : Option Nat) : Bool :=
  let full := s.fullSet line
  match victim with
  | some v => (victimsOf s full).contains v
  | none => full.isEmpty
def State.evictL2For (s : State) (victim : Option Nat) : State :=
  match victim with
  | some v => evictL2 s v
  | none => s

/-- Sectors of a line have an uncorrectable error (R263): they are poisoned, counted and reported. -/
def State.sectorsLost (s : State) (line : Nat) (secs : List Nat) : State :=
  if secs.isEmpty then s
  else
    { s with dramPoison := secs.foldl (fun p k => if p.contains (4 * line + k) then p else p ++ [4 * line + k]) s.dramPoison
             uncorrected := min Config.counterMax (s.uncorrected + 1)
             badPas := (s.badPas ++ [128 * line]).drop (s.badPas.length + 1 - 64)
             notices := .memoryError (128 * line) :: s.notices }

/-- The sectors that a miss still lacks. -/
def missSectors (s : State) (m : Miss) : List Nat := (List.range 4).filter fun k => m.sectors.getLsbD k && !s.sectorValid (32 * m.line + 8 * k)

/-- An uncorrectable error of the SECDED code over 8 B of a line in the L2: the two words are poisoned, and the Farrier is told (R266). -/
def secdedLost (s : State) (line chunk : Nat) : State :=
  if chunk < 16 && s.sectorValid (32 * line + 2 * chunk) then
    { s with l2 := tmod s.l2 line fun l => { l with poison := l.poison ||| bit32 (2 * chunk) ||| bit32 (2 * chunk + 1) }
             uncorrected := min Config.counterMax (s.uncorrected + 1)
             badPas := (s.badPas ++ [128 * line + 8 * chunk]).drop (s.badPas.length + 1 - 64)
             notices := .memoryError (128 * line + 8 * chunk) :: s.notices }
  else s

/-- L2_MISS_FILL (R262, R263, R266): the sectors of a miss arrive, with an uncorrectable error if `err` is dram. An uncorrectable error in the
L2 itself is this event with `err` l2 (log entry 26). -/
def execL2MissFill (line : Nat) (victim : Option Nat) (err : MemErr) (s : State) : Host.Outcome State Fault Refusal :=
  match err with
  | .l2 chunk => .next (secdedLost s line chunk)
  | _ =>
  match s.misses.find? fun m => m.line == line with
  | none => .next s
  | some m =>
    if !victimOk s line victim then .next s
    else
      let s := s.evictL2For victim
      let secs := missSectors s m
      let s := if err == .dram then s.sectorsLost line secs else s
      let s := forEach secs s fun s k => s.fillSector (32 * line + 8 * k)
      .next (kickSlice { s with misses := s.misses.filter fun x => x.line != line } (sliceOf line))

/-- The way that a miss takes after 65,536 cc in a set whose every way holds directory state or a pin (R264, R275): of those with directory state, no
busy word and no pin the one with the fewest open words. -/
def forcedWay (s : State) (line victim : Nat) : Bool :=
  let full := (s.fullSet line).filter fun v => (s.dirLine v).held && (s.dirLine v).busy.isEmpty && !s.pinHeld v
  (victimsOf s (s.fullSet line)).isEmpty && full.contains victim
    && full.all fun v => (s.dirLine victim).opens.length ≤ (s.dirLine v).opens.length

/-- VICTIM_FORCE (R275): after 65,536 cc the way with the fewest open words is taken from its holders. -/
def execVictimForce (line victim : Nat) (s : State) : Host.Outcome State Fault Refusal :=
  if (s.misses.any fun m => m.line == line && m.since + 65536 ≤ s.now) && forcedWay s line victim then
    let lost := (s.dirLine victim).opens.length
    let s := forEach (maskWords victim (BitVec.allOnes 32)) s fun s w => (s.recallNow w).invNow w
    let s := (s.modDir victim fun d => { d with opens := [] }).count .openLost lost
    let s := if lost = 0 then s else s.tell (.openLost victim lost)
    .next (evictL2 s victim)
  else .next s

/-! ## Fencing (R279) -/

/-- The line of a snoop that an agent has not answered within 65,536 cc. -/
def overdueSnoop (s : State) (agent : Nat) : Option Nat := s.net.findSome? fun m => match m with
  | .snoop r => if r.agent == agent && r.sentAt + 65536 ≤ s.now then some r.line else none
  | _ => none

/-- A directory record without a fenced agent. -/
def DirLine.without (d : DirLine) (agent : Nat) : DirLine :=
  { d with owners := d.owners.filter fun o => o.agent != agent
           sharers := if agent < 216 then d.sharers &&& ~~~ BitVec.ofNat 216 (2 ^ agent) else d.sharers
           host := if agent = 255 then .none else d.host
           opens := (d.opens.map fun e => (e.1, e.2.close agent)).filter fun e => e.2 != {} }

/-- Its snoops are dropped and its records cleared. -/
def State.fence (s : State) (agent : Nat) : State :=
  { s with
    dir := (s.dir.map fun e => (e.1, e.2.without agent)).filter fun e => e.2 != {}
    net := s.net.filter fun m => match m with | .snoop r => r.agent != agent | _ => true
    fenced := if s.fenced.contains agent then s.fenced else s.fenced ++ [agent] }

/-- The lanes of a fenced core trap, and it needs its reset; a fenced host is refused (R279). -/
def State.fenceLost (s : State) (agent : Nat) : State :=
  if agent < 216 then
    let lost := (s.warps.filter fun e => coreOf e.1 == agent).map fun e =>
      ({ warp := e.1, lanes := e.2.live, cause := 0x14, detail := 0, addr := 0 } : AsyncTrap)
    ({ s with asyncs := s.asyncs ++ lost } : State).modCore agent fun c => { c with needsReset := true }
  else { s with hostLinkRefused := true }

/-- The requests at their homes that wait for an answer of an agent. -/
def waitingOn (s : State) (agent : Nat) : List Nat := s.net.filterMap fun m => match m with
  | .req r => if r.waiting.any fun a => a.1 == agent then some r.id else none
  | _ => none

/-- AGENT_FENCE (R279): an agent that has not answered a snoop within 65,536 cc. -/
def execAgentFence (agent : Nat) (s : State) : Host.Outcome State Fault Refusal :=
  match overdueSnoop s agent with
  | none => .next s
  | some line =>
    let s := ((s.fence agent).tell (.agentFenced agent line)).fenceLost agent
    .next (forEach (waitingOn s agent) s fun s id => answered (answered s id agent true) id agent false)

/-! ## The host as an agent (R280) -/

/-- Words of an access at a device address, as a mask of its line. -/
def spanMask (pa n : Nat) : BitVec 32 := lineMask (wordSpan pa n)

/-- Merges an owner's value into the home; the owner keeps the word and its record goes to state O (R271, FWD). Its L1 learns of the open that a
reading agent is to make (R281). -/
def forwardNow (s : State) (reader : Option Nat) (w : Nat) : State :=
  match (s.dirLine (w / 32)).ownerOf (w % 32) with
  | none => s
  | some a =>
    let s := match (if a < 216 then s.ownedValue a w else none) with
      | some v => s.homePut w v.1 v.2
      | none => s
    let s := match reader with
      | some r => if a < 216 then
          let o := (openGet (s.dirLine (w / 32)).opens w).close a
          setOthers s a (w / 32) (bit32 (w % 32)) (openPut [] w (if r = a then o else o.addR r))
        else s
      | none => s
    s.modDir (w / 32) fun d => { d with owners := d.owners.map fun o => if o.agent == a then { o with answered := true } else o }

/-- A word that an engine reads as a load of its core under a policy, in one step (R230, R271): a hit reads the L1; otherwise the home answers, and the
reply fills the L1 as the policy says. -/
def loadNow (s : State) (core : Nat) (pol : Policy) (vline w : Nat) : State × Word × Bool :=
  if wordsHit s core pol (w / 8) [w] then (s, l1Value s core w)
  else if pol == .own && mayOwn s core w then let s := takeOwn s core w; (s, l1Value s core w)
  else
    let line := w / 32
    let s := (forwardNow s (some core) w).fillSector w
    let v := s.homeWord w
    if pol == .nc || !s.sectorValid w then (s, v)
    else
      let d := s.dirLine line
      let q : Req := { id := 0, agent := core, kind := if pol == .sis then .rdL else .rdS, line := line, words := bit32 (w % 32) }
      let owned := (d.owners.filter fun o => q.kind == .rdS || o.agent == core).foldl (fun m o => m ||| o.wmask) 0
      let fill := (q.words &&& ~~~ owned) ||| sectorExtras d q
      let data := homeData s line fill
      let r : Reply :=
        { id := 0, agent := core, req := 0, op := 0, line := line, words := q.words, share := if q.kind == .rdS then fill else 0
          lease := if q.kind == .rdL then fill else 0, data := data.1, poison := data.2, others := othersOn d core (maskWords line fill) }
      let s := if q.kind == .rdS then s.modDir line fun d => d.addSharer core else s
      (fillReply (l1Room s core line none) r vline, v)

/-- The enabled bytes of a write from an address on, by word. -/
def enabledBytes (pa : Nat) (data : List (Option Byte)) : Tbl (List (Nat × Byte)) :=
  data.zipIdx.foldl (fun t b => match b.1 with
    | some x => tset t ((pa + b.2) / 4) (tgetD t ((pa + b.2) / 4) [] ++ [((pa + b.2) % 4, x)])
    | none => t) []

/-- A read of the host, which works in whole lines (R280). -/
def hostReads (s : State) (kind : HostRead) (line : Nat) : State :=
  let ws := maskWords line (BitVec.allOnes 32)
  match kind with
  | .uncached => forEach ws s fun s w => forwardNow s none w
  | .shared =>
    (forEach ws s fun s w => forwardNow s none w).modDir line fun d => if d.host == .owned then d else { d with host := .shared }
  | .own =>
    if (s.dirLine line).host == .owned then s
    else
      (forEach ws (s.unserve line) fun s w => (s.recallNow w).invNow w).modDir line fun d =>
        { (d.grant 255 (BitVec.allOnes 32)) with host := .owned }

/-- A write of the host (R280): WR-T of the enabled bytes, or the write-back of a line that the host owns. -/
def hostWrites (s : State) (line : Nat) (es : Tbl (List (Nat × Byte))) : State :=
  if (s.dirLine line).host == .owned then
    (forEach es s fun s e => s.homeMerge e.1 e.2).modDir line fun d => { (d.disown 255 (BitVec.allOnes 32)) with host := .none }
  else
    let h := (s.dirLine line).host
    (forEach es s fun s e => ((s.recallNow e.1).homeMerge e.1 e.2).invNow e.1).modDir line fun d => { d with host := h }

/-- The line of a request of the host, its words, and those that it writes in full. -/
def HostReq.line : HostReq → Nat
  | .rd _ l => l
  | .wr pa _ => pa / 128
def HostReq.words : HostReq → List Nat
  | .rd _ l => maskWords l (BitVec.allOnes 32)
  | .wr pa data => (enabledBytes pa data).map fun e => e.1
def HostReq.whole : HostReq → List Nat
  | .rd _ _ => []
  | .wr pa data => ((enabledBytes pa data).filter fun e => wholeWord e.2).map fun e => e.1
def HostReq.kind : HostReq → ReqKind
  | .rd .uncached _ => .rdN
  | .rd .shared _ => .rdS
  | .rd .own _ => .ownRq
  | .wr _ _ => .wrT

/-- A write to a line that the host owns: a write-back (R280). -/
def HostReq.isWb (q : HostReq) (s : State) : Bool := match q with
  | .rd _ _ => false
  | .wr pa _ => (s.dirLine (pa / 128)).host == .owned

/-- A request of the host is served, if its home can serve it now; else it is held, and asks for its sectors (R263, R272, R280). A write-back waits for
nothing, since a snoop of the line may be on its way (R278). -/
def hostTry (acc : State × List HostReq) (q : HostReq) : State × List HostReq :=
  if !q.isWb acc.1 && acc.2.any fun p => p.line == q.line then (acc.1, acc.2 ++ [q])
  else if q.isWb acc.1 || acc.1.homeReady 255 q.whole q.words then
    let s := acc.1.homeTaken 255 q.words
    ((match q with
      | .rd kind line => hostReads s kind line
      | .wr pa data => hostWrites s (pa / 128) (enabledBytes pa data)), acc.2)
  else (acc.1.homeAsk 255 q.kind q.whole q.words, acc.2 ++ [q])

/-- The requests that the device holds are served as far as they can be, those to one line in their order: none before CXLMEM is 1 (R435), and none at all
over a link that refuses (R279). -/
def State.hostPump (s : State) : State :=
  if s.hostHeld.isEmpty then s
  else if s.hostLinkRefused then { s with hostHeld := [] }
  else if !s.ready.getLsbD 2 then s
  else
    let z := s.hostHeld.foldl hostTry (s, [])
    { z.1 with hostHeld := z.2 }

/-- A request of the host reaches the device. -/
def State.hostAsks (s : State) (q : HostReq) : State := ({ s with hostHeld := s.hostHeld ++ [q] } : State).hostPump

/-- HOST_MEMRD (R280). -/
def execHostMemrd (kind : HostRead) (line : Nat) (s : State) : Host.Outcome State Fault Refusal :=
  .next (if 2 ^ 31 ≤ line then s else s.hostAsks (.rd kind line))

/-- HOST_MEMWR (R280). -/
def execHostMemwr (pa : Nat) (data : List (Option Byte)) (s : State) : Host.Outcome State Fault Refusal :=
  .next (if 128 < pa % 128 + data.length || 2 ^ 38 ≤ pa then s else s.hostAsks (.wr pa data))

/-- What the host's answer to a snoop does at the home (R280): its dirty words are written, and it owns the line no more. -/
def hostAnswer (s : State) (r : Snoop) (data : List Byte) : State :=
  let owned := (s.dirLine r.line).owners.foldl (fun m o => if o.agent == 255 then m ||| o.wmask else m) 0
  let ws := maskWords r.line (if r.kind == .fwd then owned &&& r.words else owned)
  let s := if data.length = 128 then
      forEach ws s fun s w => s.homePut w (BitVec.ofNat 32 (natOfLe ((data.drop (4 * (w % 32))).take 4))) false
    else s
  s.modDir r.line fun d =>
    if r.kind == .fwd then
      { d with owners := d.owners.map fun o => if o.agent == 255 then { o with answered := true } else o }
    else { (d.disown 255 (BitVec.allOnes 32)) with host := .none }

/-- BISNP_ANSWER (R280): the host's answer to a back-invalidate snoop, with the line's bytes if it had changed them. BISnpInv
takes the whole line. -/
def execBisnpAnswer (msg : Nat) (data : List Byte) (s : State) : Host.Outcome State Fault Refusal :=
  match s.fromHome? msg with
  | some (.snoop r) =>
    if r.agent != 255 then .next s
    else .next (answered (hostAnswer (s.dropMsg msg) r data) r.txn 255 (r.kind == .inv))
  | _ => .next s

/-- HOST_SNOOP (R430): an L1 gives a host line's dirty words back, and the line itself if the snoop invalidates. -/
def execHostSnoop (core line : Nat) (invalidate : Bool) (s : State) : Host.Outcome State Fault Refusal :=
  match s.l1Line core (2 ^ 60 + line) with
  | none => .next s
  | some l =>
    if invalidate then .next (evictL1 s core (2 ^ 60 + line))
    else
      let s := forEach l.words s fun s e =>
        if e.2.dirty then { s with hostMem := mputNat s.hostMem (128 * line + 4 * e.1) 4 e.2.val.toNat } else s
      .next (s.modCore core fun c => { c with l1 := tmod c.l1 (2 ^ 60 + line) fun l =>
        { l with words := l.words.map fun e => (e.1, { e.2 with st := .shared, dirty := false }) } })

end Sys2Proof.Machine
end

