-- ==== Sys2Proof/Machine/Sequencer.lean ====
section
/-! DEFINITION. The sequencer: lane group 0x0, and the events of issue, fetch, traps, waits and the register pool (R132–R166,
R179–R182). -/

namespace Sys2Proof.Machine

/-! ## Branches, calls and returns -/

/-- The target of BRA and CALL (R37). -/
def branchTarget (pc : DWord) (off : Int) : DWord := pc + 8 + BitVec.ofInt 64 (8 * off)

/-- Moves each lane of a mask by a function that may trap it. -/
def eachLane (s : State) (m : LaneMask) (f : State → Nat → State × Fate) : State × Fates :=
  (lanesOf m).foldl (fun (acc : State × Fates) l => let r := f acc.1 l; (r.1, acc.2 ++ [(laneBit l, r.2)])) (s, [])

/-- The common fate of lanes that share one entry: an equal fate, or a park on absent scratchpad lines, which ends when every line that they
touch is present (R14). -/
def joinFate (a b : Fate) : Option Fate :=
  match a, b with
  | .park (.absentLine x), .park (.absentLine y) => some (.park (.absentLine (x ++ y.filter fun l => !x.contains l)))
  | a, b => if a = b then some a else none

/-- Groups lanes with a common fate. -/
def addFate (fs : Fates) (m : LaneMask) (f : Fate) : Fates :=
  match fs with
  | [] => [(m, f)]
  | x :: r => match joinFate x.2 f with
    | some j => (x.1 ||| m, j) :: r
    | none => x :: addFate r m f

def groupFates (fs : Fates) : Fates := fs.foldl (fun acc f => addFate acc f.1 f.2) []

def laneFates (s : State) (m : LaneMask) (f : State → Nat → State × Fate) : State × Fates :=
  let r := eachLane s m f
  (r.1, groupFates r.2)

/-- Runs lanes one after another, in ascending order; each may have a fate of its own. -/
def someFates (s : State) (m : LaneMask) (f : State → Nat → State × Option Fate) : State × Fates :=
  (lanesOf m).foldl (fun (acc : State × Fates) l => let r := f acc.1 l; (r.1, acc.2 ++ (r.2.map fun x => (laneBit l, x)).toList)) (s, [])

/-- The checks of an indirect target in one lane (R149): the trap of the first that fails. -/
def targetTrap (s : State) (g : Nat) (x : Nat) (poison : Bool) : Option TrapInfo :=
  let a : DWord := BitVec.ofNat 64 x
  if poison then some (poisonTrap 0)
  else if 3 < nbits x 60 4 || nbits x 57 3 ≠ 0 || nbits x 0 3 ≠ 0 then some { cause := 0x09, detail := 0, addr := a }
  else
    match codeWord s g (nbits x 0 57) with
    | none => some { cause := 0x09, detail := 0, addr := a }
    | some w => if nbits w.toNat 53 11 = 0x006 then none else some { cause := 0x08, detail := 0, addr := a }

/-- The local offset of level d of a return stack (R146), as a pointer. -/
def returnSlot (l : Launch) (d : Nat) : DWord := BitVec.ofNat 64 (0xC000000000000000 + l.localSize - 8 * (d + 1))

/-- The device words of the return-stack slots that the active lanes of a call or return use (R146). -/
def returnWords (s : State) (gd : Guard) (pop : Bool) (k : AccKind) : List Nat :=
  match s.looking with
  | none => []
  | some (g, w, e) =>
    match s.launchOf g with
    | none => []
    | some l => (lanesOf (guardLanes w gd e.mask).1).flatMap fun lane =>
      let d := w.depthOf lane
      if (pop && d == 0) || (!pop && (d == 255 || l.localSize < 8 * (d + 1))) then []
      else match checkAccess s g lane (returnSlot l (if pop then d - 1 else d)) 8 k with
        | .ok (.dev pa _) => wordSpan pa 8
        | _ => []

/-- The operands of a call or return: the slots are local memory, which the core's L1 holds under OWN (R146, R241). -/
def callOpnds (s : State) (gd : Guard) (pop : Bool) (o : Opnds) : Opnds :=
  { o with home := returnWords s gd pop (if pop then .read else .write) }

/-- The push of R147 in one lane: the word written and the depth grown, or the lane's trap. -/
def pushReturn (s : State) (c : Ctx) (lane : Nat) : Except TrapInfo State :=
  match s.warp? c.g, s.launchOf c.g with
  | some w, some l =>
    let d := w.depthOf lane
    if d = 255 || l.localSize < 8 * (d + 1) then .error { cause := 0x0A, detail := 0, addr := BitVec.ofNat 64 d }
    else
      match checkAccess s c.g lane (returnSlot l d) 8 .write with
      | .error t => .error t
      | .ok x =>
        let word := c.e.prio * 2 ^ 58 + nbits (c.e.pc + 8).toNat 0 57
        .ok ((engineWrite s (coreOf c.g) x (leOfNat 8 word)).modWarp c.g fun w => w.setDepth lane (d + 1))
  | _, _ => .ok s

/-- The words of a return slot that is read are held under OWN (R146). -/
def slotOwned (s : State) (core : Nat) (x : Loc) : State :=
  match x with
  | .dev a _ => engineOwn s core (wordSpan a 8)
  | _ => s

/-- The pop of R148 in one lane. -/
def popReturn (s : State) (c : Ctx) (lane : Nat) : State × Fate :=
  match s.warp? c.g, s.launchOf c.g with
  | some w, some l =>
    let d := w.depthOf lane
    if d = 0 then (s, .trap { cause := 0x0A, detail := 0, addr := 0 })
    else
      let p := returnSlot l (d - 1)
      match checkAccess s c.g lane p 8 .read with
      | .error t => (s, .trap t)
      | .ok x =>
        let s := slotOwned s (coreOf c.g) x
        let r := readLoc s x 8
        let v := natOfLe r.1
        if r.2 then (s, .trap (poisonTrap p))
        else if nbits v 57 1 ≠ 0 || nbits v 0 3 ≠ 0 || (codeWord s c.g (nbits v 0 57)).isNone then
          (s, .trap { cause := 0x09, detail := 0, addr := BitVec.ofNat 64 v })
        else (s.modWarp c.g fun w => w.setDepth lane (d - 1), .to (BitVec.ofNat 64 (nbits v 0 57)) (nbits v 58 6))
  | _, _ => (s, .ended)

def execNop (g : Guard) (s : State) : Host.Outcome State Fault Refusal := issueLane s g .ignored {} fun s _ => (s, [])

def execLand (g : Guard) (s : State) : Host.Outcome State Fault Refusal := issueLane s g .ignored {} fun s _ => (s, [])

/-- BRA (R145). -/
def execBra (g : Guard) (prio : Nat) (off : Int) (s : State) : Host.Outcome State Fault Refusal :=
  issueLane s g .traps {} fun s c => (s, [(c.act, .to (branchTarget c.e.pc off) prio)])

/-- BRA.U (R145): a divergent branch traps under STRICT_UNI and is counted otherwise. -/
def execBraU (g : Guard) (prio : Nat) (off : Int) (s : State) : Host.Outcome State Fault Refusal :=
  issueLane s g .traps {} fun s c =>
    let t := branchTarget c.e.pc off
    let all := c.lanes &&& ~~~ (match s.warp? c.g with | some w => (guardLanes w g c.lanes).2 | none => 0)
    if c.act != 0 && c.act != all then
      if s.flagOf c.g Launch.strictUni then (s, [(all, .trap { cause := 0x07, detail := 0, addr := t })])
      else (s.count .uniformityViolation 1, [(c.act, .to t prio)])
    else (s, [(c.act, .to t prio)])

/-- The operands of BRX and CALLX. -/
def targetOpnds (treg : Nat) (lu : Bool) : Opnds := { vr := regsFrom treg 2, lu := if lu then regsFrom treg 2 else [] }

/-- BRX in one lane (R149). -/
def brxLane (c : Ctx) (prio treg : Nat) (s : State) (l : Nat) : State × Fate :=
  match s.warp? c.g with
  | none => (s, .ended)
  | some w =>
    let x := w.vgetN treg 2 l
    match targetTrap s c.g x.1 x.2 with
    | some t => (s, .trap t)
    | none => (s, .to (BitVec.ofNat 64 (nbits x.1 0 57)) prio)

/-- BRX (R149). -/
def execBrx (g : Guard) (prio : Nat) (treg : Nat) (lu : Bool) (s : State) : Host.Outcome State Fault Refusal :=
  issueLane s g .traps (targetOpnds treg lu) fun s c => laneFates s c.act (brxLane c prio treg)

/-- The push and the jump of a call in one lane. -/
def callLane (c : Ctx) (target : DWord) (prio : Nat) (s : State) (l : Nat) : State × Fate :=
  match pushReturn s c l with
  | .error t => (s, .trap t)
  | .ok s' => (s', .to target prio)

/-- CALL (R147). -/
def execCall (g : Guard) (prio : Nat) (off : Int) (s : State) : Host.Outcome State Fault Refusal :=
  issueLane s g .traps (callOpnds s g false {}) fun s c => laneFates s c.act (callLane c (branchTarget c.e.pc off) prio)

/-- CALLX in one lane (R147, R149): every check of the target comes before the push. -/
def callxLane (c : Ctx) (prio treg : Nat) (s : State) (l : Nat) : State × Fate :=
  match s.warp? c.g with
  | none => (s, .ended)
  | some w =>
    let x := w.vgetN treg 2 l
    match targetTrap s c.g x.1 x.2 with
    | some t => (s, .trap t)
    | none => callLane c (BitVec.ofNat 64 (nbits x.1 0 57)) prio s l

/-- CALLX (R147, R149). -/
def execCallx (g : Guard) (prio : Nat) (treg : Nat) (lu : Bool) (s : State) : Host.Outcome State Fault Refusal :=
  issueLane s g .traps (callOpnds s g false (targetOpnds treg lu)) fun s c => laneFates s c.act (callxLane c prio treg)

/-- RET (R148). -/
def execRet (g : Guard) (s : State) : Host.Outcome State Fault Refusal :=
  issueLane s g .traps (callOpnds s g true {}) fun s c => laneFates s c.act fun s => popReturn s c

/-! ## Lane masks -/

/-- Changes mN if a lane is active (R151). -/
def maskOp (s : State) (g : Guard) (m : Nat) (f : LaneMask → LaneMask → LaneMask) : Host.Outcome State Fault Refusal :=
  issueLane s g .traps {} fun s c =>
    (if c.act = 0 then s else s.modWarp c.g fun w => w.mput m (f (w.mget m) c.act), [])

def execJoin (g : Guard) (m : Nat) (s : State) : Host.Outcome State Fault Refusal := maskOp s g m fun x a => x ||| a
def execLeave (g : Guard) (m : Nat) (s : State) : Host.Outcome State Fault Refusal := maskOp s g m fun x a => x &&& ~~~ a
def execMclr (g : Guard) (m : Nat) (s : State) : Host.Outcome State Fault Refusal := maskOp s g m fun _ _ => 0

/-- The lanes of a split inside an ordered section take order-barrier before any effect (R384). -/
def orderBarrier : Fate := .trap { cause := 0x41, detail := 0, addr := 0 }

/-- The lanes of a mask that are inside an ordered section. -/
def State.insideOf (s : State) (g : Nat) (m : LaneMask) : LaneMask := m &&& ((s.warp? g).map Warp.inside).getD 0

/-- WAITM (R152): the test that follows every issue releases the lanes if the mask has gathered. -/
def execWaitm (g : Guard) (m : Nat) (s : State) : Host.Outcome State Fault Refusal :=
  issueLane s g .traps {} fun s c =>
    let i := s.insideOf c.g c.act
    (s, [(i, orderBarrier), (c.act &&& ~~~ i, .park (.waitm m))])

/-! ## Traps, ends, watchdog -/

def execTrap (g : Guard) (n : Nat) (s : State) : Host.Outcome State Fault Refusal :=
  issueLane s g .traps {} fun s c => (s, [(c.act, .trap { cause := 0x04, detail := 0, addr := BitVec.ofNat 64 n })])

/-- BKPT traps only where the launch sets DEBUG (R162). -/
def execBkpt (g : Guard) (n : Nat) (s : State) : Host.Outcome State Fault Refusal :=
  issueLane s g .traps {} fun s c =>
    (s, if s.flagOf c.g Launch.debug then [(c.act, .trap { cause := 0x05, detail := 0, addr := BitVec.ofNat 64 n })] else [])

/-- TRET and TRET.NEXT in one lane (R160). -/
def tretLane (g : Nat) (next : Bool) (s : State) (l : Nat) : State × Fate :=
  match s.warp? g with
  | none => (s, .ended)
  | some w =>
    if (w.trapOf l).inh then
      (s.modWarp g fun _ => (w.trapReturn l next).1, .to (w.trapReturn l next).2.1 (w.trapReturn l next).2.2)
    else (s, .trap { cause := 0x0C, detail := 0, addr := 0 })

/-- TRET and TRET.NEXT (R160). -/
def trapReturns (s : State) (g : Guard) (next : Bool) : Host.Outcome State Fault Refusal :=
  issueLane s g .traps {} fun s c => laneFates s c.act (tretLane c.g next)

def execTret (g : Guard) (s : State) : Host.Outcome State Fault Refusal := trapReturns s g false
def execTretNext (g : Guard) (s : State) : Host.Outcome State Fault Refusal := trapReturns s g true

/-- EXIT (R161). -/
def execExit (g : Guard) (s : State) : Host.Outcome State Fault Refusal :=
  issueLane s g .traps {} fun s c => (s, [(c.act, .ended)])

/-- TKILL (R161). -/
def execTkill (g : Guard) (s : State) : Host.Outcome State Fault Refusal :=
  issueLane s g .traps {} fun s c => (s.count .laneKilled (lanesOf c.act).length, [(c.act, .ended)])

/-- TKILL.W (R161): every lane of the warp ends, in every entry and state. -/
def execTkillW (g : Guard) (s : State) : Host.Outcome State Fault Refusal :=
  issueLane s g .own {} fun s c =>
    if c.act = 0 then (s, [(c.pg, .trap (poisonTrap 0))])
    else
      let live := ((s.warp? c.g).map Warp.live).getD 0
      ((s.count .laneKilled (lanesOf live).length).endLanes c.g (live &&& ~~~ c.lanes), [(c.lanes, .ended)])

/-- The budget that WDOG sets (R164). -/
def wdogBudget (s : State) (l : Launch) (n : Nat) : Option Nat :=
  let v := if 0 < n then n * 1024 else l.wdog
  let v := if s.wdogMax ≠ 0 && (v = 0 || s.wdogMax < v) then s.wdogMax else v
  if v = 0 then none else some v

def execWdog (g : Guard) (n : Nat) (s : State) : Host.Outcome State Fault Refusal :=
  issueLane s g .traps {} fun s c =>
    (match c.act == 0, s.launchOf c.g with
      | false, some l => s.modWarp c.g fun w => { w with budget := wdogBudget s l n }
      | _, _ => s, [])

/-- YIELD (R143). -/
def execYield (g : Guard) (s : State) : Host.Outcome State Fault Refusal :=
  issueLane s g .ignored {} fun s c => (s, [(c.lanes, .held (s.now + 64))])

/-! ## Choosing what issues (R140–R143, R186) -/

/-- The pipes of a partition (R186) that take an instruction, and for how many cc it keeps one: FP32 0 and 1, integer 2,
special function 3, uniform 4, memory and command port 5, sequencer 6. A conversion to or from F64 keeps the special-function pipe as long as any other
conversion does: R186 names F64 for the special functions alone (log entry 134). -/
def pipeOf (word : Nat) : List Nat × Nat :=
  if nbits word 63 1 = 1 then ([4], 1)
  else
    let op := nbits word 53 10
    let wide := nbits word 4 3 = 2 || nbits word 4 3 = 3
    match op / 64 with
    | 0 => ([6], 1)
    | 1 => ([2], if wide && (op % 32 = 2 || op % 32 = 3 || op % 32 = 4) then 2 else 1)
    | 2 => ([0, 1], if nbits word 4 3 = 2 && op % 32 < 12 then 4 else 1)
    | 3 => ([3], if nbits word 4 3 = 2 && op % 64 < 8 then 16 else 4)
    | 4 => ([2], if [0, 2, 3, 4, 6, 8].contains (op % 64) then 2 else 1)
    | _ => ([5], 1)

/-- HELD still holds an entry back: it clears 64 cc after the YIELD (R143). -/
def Entry.heldAt (e : Entry) (now : Nat) : Bool := e.held && now < e.heldUntil

/-- The entry order of R140: a goes before b. -/
def entryBefore (now : Nat) (a b : Entry) : Bool :=
  let old (e : Entry) := e.age == 1024
  if old a != old b then old a
  else if old a then a.pc.toNat < b.pc.toNat
  else if a.heldAt now != b.heldAt now then !a.heldAt now
  else if a.prio != b.prio then b.prio < a.prio
  else a.pc.toNat < b.pc.toNat

/-- An entry may issue: it is ready, and earlier accesses do not hold it back. -/
def Entry.open (e : Entry) : Bool := e.st == .ready && e.rel == 0

/-- The entry that a warp would issue among those that satisfy a test (R140). -/
def Warp.pickOf (w : Warp) (now : Nat) (ok : Entry → Bool) : Option Entry :=
  (w.entries.filter fun e => e.open && ok e).foldl (fun best e =>
    match best with
    | none => some e
    | some b => if entryBefore now e b then some e else some b) none

/-- The entry that a warp would issue (R140). -/
def Warp.pick (w : Warp) (now : Nat) : Option Entry := w.pickOf now fun _ => true

def bestWarp (l : List (Nat × Warp × Entry)) : Option (Nat × Warp × Entry) :=
  l.foldl (fun best x => match best with
    | none => some x
    | some b => if warpBefore x b then some x else some b) none

/-- The pipe that a partition would give the next instruction of an entry, with the cc it is kept: none if no pipe accepts it.
A word that is not in the instruction cache occupies none. -/
def pipeFor (s : State) (k g : Nat) (e : Entry) (used : List Nat) : Option (Nat × Nat) :=
  match fetchWord s g e.pc with
  | none => some (7, 0)
  | some w =>
    let r := pipeOf w.toNat
    (r.1.find? fun p => tgetD (s.part k).pipes p 0 ≤ s.now && !used.contains p).map fun p => (p, r.2)

/-- Issue is stopped on the core (R432, R438, R442). -/
def State.coreStopped (s : State) (core : Nat) : Bool :=
  s.stalled || s.fatal || (s.core core).halted

/-- The block may issue (R115, R123). -/
def blockIssues (s : State) (w : Warp) : Bool :=
  match s.block? w.block with
  | some b => (match b.st with | .saved => false | _ => !b.stopping)
  | none => false

/-- The eligible warps of a partition with the entry and pipe that each would take (R140). -/
def eligible (s : State) (k : Nat) (used : List (Nat × Nat)) : List ((Nat × Warp × Entry) × Nat × Nat) :=
  (s.partWarps k).filterMap fun x =>
    if x.2.clsHold || !blockIssues s x.2 || used.any (fun u => u.1 == x.1) then none
    else (x.2.pickOf s.now fun e => (pipeFor s k x.1 e (used.map fun u => u.2)).isSome).bind fun e =>
      (pipeFor s k x.1 e (used.map fun u => u.2)).map fun p => ((x.1, x.2, e), p)

/-- The warps and pipes that have issued in this cc. -/
def issuedNow (s : State) (k : Nat) : List (Nat × Nat) := if (s.part k).issuedAt = s.now then (s.part k).issued else []

/-- The choice of a split (R140): its warp, its pipe, and the other eligible warps. -/
def chooseTurn (s : State) (k g : Nat) : State :=
  let el := eligible s k (issuedNow s k)
  let pipe := ((el.find? fun x => x.1.1 == g).map fun x => x.2).getD (7, 0)
  let t : Turn := { warp := g, pipe := pipe.1, keep := pipe.2, others := (el.map fun x => x.1.1).filter fun x => x != g }
  s.modPart k fun p => { p with turn := some t }

/-- The end of a partition's turn: if its choice has issued, its warp and pipe have, and the other eligible warps age when the cc has passed, unless they
issue in it (R142). -/
def State.settleTurn (s : State) (k : Nat) : State :=
  match (s.part k).turn with
  | none => s
  | some t =>
    if !t.issued then s.modPart k fun p => { p with turn := none }
    else
      let used := issuedNow s k
      let s := s.modPart k fun p =>
        { p with turn := none, issuedAt := s.now, issued := used ++ [(t.warp, t.pipe)]
                 aging := ((p.aging ++ t.others).filter fun x => x != t.warp).dedup
                 pipes := if t.pipe = 7 then p.pipes else tset p.pipes t.pipe (s.now + t.keep) }
      s

/-- A cc has passed: the warps that were eligible in it and did not issue are a cc older (R142), and lanes released from a wait in it have left it
(R167). -/
def State.ccEnds (s : State) : State :=
  let old := s.parts.flatMap fun p => p.2.aging
  { s with warps := s.warps.map fun e => (e.1, { e.2 with left := [], age := if old.contains e.1 then min 1024 (e.2.age + 1) else e.2.age })
           parts := s.parts.map fun p => (p.1, { p.2 with aging := [] }) }

/-- A higher-numbered partition of the core has issued in this cc: a lower one comes before it (R16, R221). -/
def laterIssued (s : State) (core part : Nat) : Bool :=
  (List.range 16).any fun j => part < j && !(issuedNow s (16 * core + j)).isEmpty

/-- ISSUE_SELECT (R140): at most two instructions a cc, from distinct warps to distinct pipes; the model selects one a time, and the partitions of
a core in ascending order within a cc. -/
def execIssueSelect (core part : Nat) (s : State) : Host.Outcome State Fault Refusal :=
  let k := 16 * core + part
  if s.cur.isSome || s.coreStopped core || (s.part k).frozen.isSome || 2 ≤ (issuedNow s k).length || laterIssued s core part then .next s
  else
    match bestWarp ((eligible s k (issuedNow s k)).map fun x => x.1) with
    | none => .next s
    | some (g, _, e) => .next { chooseTurn s k g with cur := some (g, e.eid) }

/-- The entry whose word lies on a line that cannot be fetched takes the fault (R132); one that was to enter its handler there ends (R158). -/
def fetchTraps (s : State) (g pc d : Nat) : State :=
  let hit := (((s.warp? g).map Warp.entries).getD []).filter fun e => (e.st == .ready || e.st == .trap) && e.pc.toNat == pc
  forEach hit s fun s e =>
    if e.st == .trap then (s.count .doubleTrap (lanesOf e.mask).length).endLanes g e.mask
    else (s.modWarp g fun w => w.dropLanes e.mask).takeTraps g e.pc e.prio
      ((lanesOf e.mask).map fun l => (l, { cause := 0x03, detail := d, addr := e.pc }))

/-- ICACHE_FILL (R132): the line that a frozen partition waits for arrives through the L2 (R263), or the lanes whose PC lies on it take
instruction-fetch faults. -/
def execIcacheFill (core part : Nat) (s : State) : Host.Outcome State Fault Refusal :=
  let k := 16 * core + part
  match (s.part k).frozen with
  | none => .next s
  | some (asid, vline, g, pc) =>
    let ws := codeSpan s core asid vline
    if !s.homeReady core [] ws then .next (s.homeAsk core .rdN [] ws)
    else
      let s := (s.homeTaken core ws).modPart k fun p => { p with frozen := none }
      match readCodeLine s core asid vline with
      | .ok ws => .next (s.putLine (core / 8) asid vline ws)
      | .error d => .next (fetchTraps s g pc d)

/-- HELD_CLEAR (R143). -/
def execHeldClear (warp : Nat) (s : State) : Host.Outcome State Fault Refusal :=
  .next (s.modWarp warp fun w => { w with entries := w.entries.map fun e =>
    if e.held && e.heldUntil ≤ s.now then { e with held := false } else e })

/-- TRAP_DELIVER (R137): the entry becomes ready once the word at the vector has been fetched; a miss freezes the partition as any other (R132), and
a fault on that fetch ends the lanes (R158). -/
def execTrapDeliver (warp entry : Nat) (s : State) : Host.Outcome State Fault Refusal :=
  match (s.warp? warp).bind fun w => w.entry? entry with
  | none => .next s
  | some e =>
    if e.st == .trap then
      match fetchWord s warp e.pc, (s.part (partOf warp)).frozen with
      | some _, _ => .next (s.modWarp warp fun w => w.releaseAgain entry)
      | none, none => .next (fetchMiss s warp e.pc)
      | none, some _ => .next s
    else .next s

/-- A trap mark for lanes that leave a barrier wait (R303). -/
def trapMarkOf (e : Entry) (m : LaneMask) : List TrapMark :=
  match e.st with
  | .parked (.barrier bar phase _ _ _) => [{ bar := bar, phase := phase, pc := e.pc, lanes := m }]
  | _ => []

/-- Lanes of one entry take an asynchronous trap at the place at which they stand in `at_`, their entry or the wait that released them in this cc. -/
def asyncAt (s : State) (g : Nat) (t : AsyncTrap) (at_ : Entry) (m : LaneMask) : State :=
  if m = 0 then s
  else
    let s := s.modWarp g fun w => { w.dropLanes m with marks := w.marks ++ trapMarkOf at_ m }
    (s.takeTraps g at_.pc at_.prio ((lanesOf m).map fun l => (l, { cause := t.cause, detail := t.detail, addr := t.addr }))).modWarp g
      fun w => w.waitmTests

/-- The entries, as they were parked, of lanes of an entry that a wait has released in this cc (R167). -/
def Warp.leftBy (w : Warp) (e : Entry) : List Entry :=
  w.left.filter fun x => e.st == .ready && e.pc == x.pc + 8 && (x.mask &&& e.mask) != 0

/-- Takes an asynchronous trap of some lanes of one entry (R159, R167). -/
def asyncEntry (s : State) (g : Nat) (t : AsyncTrap) (e : Entry) : State :=
  let m := e.mask &&& t.lanes
  let from_ := ((s.warp? g).map fun w => w.leftBy e).getD []
  let z := from_.foldl (fun (acc : State × LaneMask) x =>
    let mx := m &&& x.mask &&& ~~~ acc.2; (asyncAt acc.1 g t x mx, acc.2 ||| mx)) (s, 0)
  asyncAt z.1 g t e (m &&& ~~~ z.2)

/-- ASYNC_TRAP (R159). -/
def execAsyncTrap (i : Nat) (s : State) : Host.Outcome State Fault Refusal :=
  match s.asyncs[i]? with
  | none => .next s
  | some t =>
    let s := { s with asyncs := s.asyncs.eraseIdx i }
    match s.warp? t.warp with
    | none => .next s
    | some w =>
      let s := forEach w.entries s fun s e => asyncEntry s t.warp t e
      .next ((s.stallTidy (coreOf t.warp)).linkTidy)

/-- WATCHDOG (R163): the entry that the warp would issue, with the budget at zero. -/
def execWatchdog (warp : Nat) (s : State) : Host.Outcome State Fault Refusal :=
  match (s.warp? warp).bind fun w => (w.pick s.now).map fun e => (w, e) with
  | none => .next s
  | some (w, e) =>
    let user := e.mask &&& ~~~ w.inhLanes e.mask
    if w.budget = some 0 && user != 0 then
      .next ((s.modWarp warp fun w => w.dropLanes user).takeTraps warp e.pc e.prio
        ((lanesOf user).map fun l => (l, { cause := 0x06, detail := 0, addr := 0 })))
    else .next s

/-- WAITM_RELEASE (R152). -/
def execWaitmRelease (warp m : Nat) (s : State) : Host.Outcome State Fault Refusal :=
  .next (s.modWarp warp fun w => w.waitmTest m)

/-- RESULT_ARRIVE (R20, R185): the values of a result arrive in all its lanes, are written where no window is open, and
entries that waited for them become ready. A uniform load that brings poison traps the lanes that still wait for it, at its own place (R207,
log entry 23). -/
def execResultArrive (warp result : Nat) (s : State) : Host.Outcome State Fault Refusal :=
  match (s.warp? warp).bind fun w => w.results.find? fun r => r.id == result with
  | none => .next s
  | some r =>
    let away (o : LsuOp) : Bool := o.result == some result && match o.space with | .remote _ => true | _ => false
    if !r.done || (!s.fabUp && (s.core (coreOf warp)).ops.any away) then .next s
    else
      let s := s.modCore (coreOf warp) fun c => { c with ops := c.ops.filter fun o => o.result != some result }
      match r.uld.filter fun _ => r.data.any fun x => x.2.any fun v => v.2 with
      | some at_ =>
        let m := maskOf (r.lanes.map fun l => l.1)
        let s := s.modWarp warp fun w => { w.dropLanes m with results := w.results.filter fun x => x.id != result }
        .next ((s.takeTraps warp at_.1 at_.2 (r.lanes.map fun l => (l.1, poisonTrap 0))).wake warp)
      | none =>
        let s := s.modWarp warp fun w =>
          ({ w with results := w.results.map fun x =>
              if x.id == result then
                { x with lanes := x.lanes.map fun l => (l.1, { l.2 with vals := some (tgetD r.data l.1 []) }) }
              else x } : Warp).settleResults
        .next (s.wake warp)

/-! ## The register pool (R179–R182) -/

/-- With no holder and an unreserved request waiting, the warp of the highest-ranked such request becomes holder (R180). -/
def chooseHolder (s : State) (k : Nat) : State :=
  let s := s.holderCheck k
  match (s.part k).holder with
  | some _ => s
  | none =>
    match bestWarp (((poolRequests s k).filter fun x => !reservedReq s k x).map fun x => x.1) with
    | none => s
    | some (g, w, _) => s.modPart k fun p => { p with holder := some g, above := w.effFloor < w.vcount }

/-- Requests in the order of R140. -/
def insertRequest (x : (Nat × Warp × Entry) × List Nat) (l : List ((Nat × Warp × Entry) × List Nat)) : List ((Nat × Warp × Entry) × List Nat) :=
  match l with
  | [] => [x]
  | y :: r => if warpBefore x.1 y.1 then x :: y :: r else y :: insertRequest x r

/-- The waiting request that is granted next (R179): the first in the order of R140 that can be. One that is reserved waits for its registers with all
that rank after it (R183), one that is not with the unreserved ones after it. -/
def grantNext (s : State) (k : Nat) (held : Bool) (l : List ((Nat × Warp × Entry) × List Nat)) : Option ((Nat × Warp × Entry) × List Nat) :=
  match l with
  | [] => none
  | x :: r =>
    let res := reservedReq s k x
    if canGrant s x.1.1 (stillNeeded x.1.2.1 x.2).length && (res || !held) then some x
    else if res then none
    else grantNext s k true r

def poolNext (s : State) (k : Nat) : Option ((Nat × Warp × Entry) × List Nat) := grantNext s k false ((poolRequests s k).foldr insertRequest [])

/-- The registers that a waiting instruction is to read unmapped (R173). -/
def Entry.unread (e : Entry) : Nat := match e.st with | .parked (.pool _ n) => n | _ => 0

/-- POOL_GRANT (R179): the request that is next gets its registers, and its split is released; where a record cannot be read the split meets the fault
at its instruction (R182). -/
def execPoolGrant (core part : Nat) (s : State) : Host.Outcome State Fault Refusal :=
  let k := 16 * core + part
  let s := chooseHolder s k
  match poolNext s k with
  | none => .next s
  | some ((g, w, e), rs) =>
    match refillAll s g (rs.filter fun r => w.isSpilled r) with
    | .error _ => .next (s.modWarp g fun w => w.releaseAgain e.eid)
    | .ok s => .next (((s.count .unmappedRead e.unread).modWarp g fun w => (rs.foldl (fun w r => w.vmap r) w).releaseAgain e.eid).holderCheck k)

/-- All entries of a warp are parked. -/
def Warp.allParked (w : Warp) : Bool := w.entries.all fun e => match e.st with | .parked _ => true | _ => false

/-- The victim order of R181: a goes before b. -/
def victimBefore (now : Nat) (a b : Nat × Warp) : Bool :=
  if a.2.allParked != b.2.allParked then a.2.allParked
  else
    match a.2.entries.head?, b.2.entries.head? with
    | some x, some y =>
      let p : Nat × Warp × Entry := (a.1, a.2, (a.2.pick now).getD x)
      let q : Nat × Warp × Entry := (b.1, b.2, (b.2.pick now).getD y)
      if warpBefore p q then (if warpBefore q p then b.1 < a.1 else false) else true
    | none, _ => true
    | _, none => false

/-- A parked FRAGIN.WAVE has still to write its status to a register (R379), which has an outstanding result until then. -/
def Warp.statusDue (w : Warp) (r : Nat) : Bool := w.entries.any fun e => e.st == .parked (.fragment r)

/-- The register that R181 spills of a warp: the highest mapped one at or above F with no outstanding result. -/
def spillReg (w : Warp) : Option Nat :=
  ((List.range 256).filter fun r => w.effFloor ≤ r && w.isMapped r && !w.outstanding (.v r) && !w.statusDue r).getLast?

/-- Where a register's spill record lies (R182), or the DETAIL and address of the translation that fails. -/
def spillPlace (s : State) (g : Nat) (w : Warp) (r : Nat) : Except (Nat × Nat) (Nat × Nat) :=
  match s.blockOf g, s.launchOf g with
  | some b, some l =>
    let a := spillAddr l b w r
    let m := spillMaskAddr l b w r
    match translate s (coreOf g) l.asid 0 a .write, translate s (coreOf g) l.asid 0 m .write with
    | .ok pa, .ok pm => .ok (pa, pm)
    | .error d, _ => .error (d, a)
    | _, .error d => .error (d, m)
  | _, _ => .ok (0, 0)

/-- The words of a spill record, and the record written as a local access of the warp's threads (R182). -/
def spillWords (p : Nat × Nat) : List Nat := wordSpan p.1 128 ++ wordSpan p.2 4
def spillWrite (s : State) (g : Nat) (w : Warp) (r : Nat) (p : Nat × Nat) : State :=
  let core := coreOf g
  let s := engineWrite (s.homeTaken core (spillWords p)) core (.dev p.1 true) ((List.range 32).flatMap fun l => leOfNat 4 (w.vget r l).bits.toNat)
  engineWrite s core (.dev p.2 true) (leOfNat 4 (maskOf ((List.range 32).filter fun l => (w.vget r l).poison)).toNat)

/-- The warp whose register is spilled for a request (R181). -/
def spillVictim (s : State) (k req : Nat) : Option (Nat × Warp) :=
  let cand := (s.partWarps k).filter fun x =>
    x.1 != req && (s.part k).holder != some x.1 && x.2.effFloor < x.2.vcount
  cand.foldl (fun (b : Option (Nat × Warp)) x => match b with
    | none => some x
    | some y => if victimBefore s.now x y then some x else some y) none

/-- SPILL (R181): one register of a victim warp is written to its record and its physical register freed; while all the victim's candidates have
outstanding results, or the record's home cannot take it, the spill waits. -/
def execSpill (core part : Nat) (s : State) : Host.Outcome State Fault Refusal :=
  let k := 16 * core + part
  let s := chooseHolder s k
  match bestWarp (((poolRequests s k).filter fun x => reservedReq s k x).map fun x => x.1) with
  | none => .next s
  | some (req, _, _) =>
    match spillVictim s k req with
    | none => .next s
    | some (g, w) =>
      match spillReg w with
      | none => .next s
      | some r =>
        match spillPlace s g w r with
        | .error f => .next { s with asyncs := s.asyncs ++
            [{ warp := g, lanes := w.live, cause := 0x11, detail := f.1, addr := BitVec.ofNat 64 f.2 }] }
        | .ok p =>
          if !s.homeReady core [] (spillWords p) then .next (s.homeAsk core .at [] (spillWords p))
          else .next ((spillWrite s g w r p).modWarp g fun w => { (w.vfree r) with spilled := setBit256 (w.vfree r).spilled r true })

/-! ## Releases of parked splits -/

/-- COMMAND_QUEUE_RELEASE (R16). -/
def execCommandQueueRelease (warp entry : Nat) (s : State) : Host.Outcome State Fault Refusal :=
  match (s.warp? warp).bind fun w => w.entry? entry with
  | none => .next s
  | some e =>
    if e.st == .parked .commandQueue && (s.core (coreOf warp)).cmds.length < 64 then
      .next (s.modWarp warp fun w => w.releaseAgain entry)
    else .next s

end Sys2Proof.Machine
end

