-- ==== Sys2Proof/Machine/LoadStore.lean ====
section
/-! DEFINITION. The load-store engine: lane group 0x5 and uniform group 0x1 (R224–R260, R133). -/

namespace Sys2Proof.Machine

/-! ## Addresses and checks (R224–R226) -/

/-- The sum of a pointer and an offset on its bits [59:0] (R224). -/
def addOffset (p : DWord) (off : Int) : DWord :=
  BitVec.ofNat 64 (nbits p.toNat 60 4 * 2 ^ 60 + ((((nbits p.toNat 0 60 : Nat) : Int) + off) % ((2 ^ 60 : Nat) : Int)).toNat)

/-- The space does not accept the policy (R22, R225). -/
def policyFault (kind : OpKind) (pol : Policy) (p : DWord) : Bool :=
  let atom := kind == .atomic || kind == .red
  match spaceOf p with
  | 4 => !(pol == .dflt || pol == .wt || pol == .wis || pol == .nc)
  | 5 | 6 => atom || !(pol == .dflt || pol == .wt || pol == .nc)
  | _ => false

/-- What a kind of operation does to memory, for translation. -/
def OpKind.acc (k : OpKind) : AccKind := match k with | .load | .prefetch => .read | _ => .write

/-- The checks of an access in the order of R226, steps 3 to 6. -/
def laneCheck (s : State) (g lane : Nat) (kind : OpKind) (pol : Policy) (p : DWord) (n : Nat) : Except TrapInfo Loc :=
  match spaceFault s g p n with
  | some d => .error { cause := 0x10, detail := d, addr := p }
  | none =>
    if policyFault kind pol p then .error { cause := 0x12, detail := 0, addr := p }
    else checkAccess s g lane p n kind.acc

/-- The policy that an access to a device word takes (R21, R22), where deterministic mode serves SIS as WIS (R283, R318); a local address is owned, as a line private to the thread (R225, R241,
R270). -/
def devPolicy (det : Bool) (pol : Policy) (p : DWord) : Policy :=
  let q := if spaceOf p = 12 then .own else match pol with
    | .dflt => (match spaceOf p with | 1 => Policy.sis | 2 => .own | 3 => .wt | _ => .wis)
    | q => q
  if det && q == .sis then .wis else q

/-- The fate of lanes of warp g at absent scratchpad lines (R14): they park, or trap if a line belongs to a copy in error. -/
def absentFate (s : State) (g b : Nat) (lines : List Nat) : Fate :=
  match s.absentTrap (((s.warp? g).map Warp.block).getD 0) (lines.map fun l => (b, l)) with
  | some t => .trap t
  | none => .park (.absentLine (lines.map fun l => (b, l)))

/-- The bound region of a sync word of a block, if there is one (R258, R260): a bound word lies in a device space. -/
def boundRegion (s : State) (g : Nat) (p : DWord) : Option (Nat × Nat) :=
  match (s.warp? g).filter fun _ => spaceOf p ≤ 3 with
  | none => none
  | some w => ((s.core (coreOf g)).bindings.find? fun b => b.block == w.block && nbits b.word.toNat 0 57 == nbits p.toNat 0 57).map
      fun b => (b.start, b.len)

/-! ## Scratchpad races (R229, R282) -/

/-- Scratchpad words (offset ÷ 4) of an access on which a warp's access races with another warp's open. -/
def spadRaces (s : State) (b off n g : Nat) (write : Bool) : List Nat :=
  match s.block? b with
  | none => []
  | some x => ((List.range ((off + n - 1) / 4 - off / 4 + 1)).map fun i => off / 4 + i).filter fun w =>
      (openGet x.opens w).races g write

/-- Opens scratchpad words for a warp. -/
def spadOpen (s : State) (b off n g : Nat) (write : Bool) : State :=
  s.modBlock b fun x =>
    { x with opens := ((List.range ((off + n - 1) / 4 - off / 4 + 1)).map fun i => off / 4 + i).foldl (fun t w =>
        openPut t w (if write then (openGet t w).addW g else (openGet t w).addR g)) x.opens }

/-! ## One instruction's accesses -/

/-- What an instruction asks for in one lane: a fate that it has already, zeros for n registers with no access, nothing, or an
access of `size` bytes. `bad` says that stored data or an operand is poisoned. -/
inductive LaneReq
  | stop (f : Fate)
  | zero (n : Nat)
  | skip
  | acc (p : DWord) (size x y : Nat) (bad : Bool)
  deriving DecidableEq, Repr

/-- A lane's request after its checks. -/
inductive LaneGo
  | stop (f : Fate)
  | zero (n : Nat)
  | skip
  | dev (p : DWord) (size pa x y : Nat)
  | now (p : DWord) (size : Nat) (loc : Loc) (x y : Nat)
  | member (p : DWord) (size x y : Nat)
  deriving DecidableEq, Repr

/-- The checks of R226 from step 3 on for one lane. -/
def laneGo (s : State) (g lane : Nat) (o : LsuOp) (r : LaneReq) : LaneGo :=
  match r with
  | .stop f => .stop f
  | .zero n => .zero n
  | .skip => .skip
  | .acc p size x y bad =>
    match laneCheck s g lane o.kind o.pol p size with
    | .error t => .stop (.trap t)
    | .ok loc =>
      if bad then .stop (.trap (poisonTrap p))
      else
        match loc with
        | .wait _ => .member p size x y
        | .dev pa _ => .dev p size pa x y
        | .spad b off yard =>
          match absentOf s b off size with
          | [] => .now p size (.spad b off yard) x y
          | ls => .stop (absentFate s g b ls)
        | l => .now p size l x y

/-- CXLCACHE of READY: device L1s may cache host memory (R434). -/
def State.hostCaches (s : State) : Bool := s.ready.getLsbD 3

/-- Fills a coherent host line into the L1 (R225, R430), shared or owned, once CXLCACHE is set (log entry 128); words that it holds dirty stay. -/
def hostFill (s : State) (core ha : Nat) (own : Bool) : State :=
  let hl := ha / 128
  let s := if own then s.hostRecall hl else s
  if !s.hostCaches then s else
  let s := l1Room s core (2 ^ 60 + hl) none
  let s := forEach (List.range 32) s fun s i =>
    let w := 32 * (2 ^ 60 + hl) + i
    match (s.l1Word core w).filter fun x => x.dirty with
    | some _ => s
    | none => s.l1Set core w
      { st := if own then .owned else .shared, dirty := false, val := BitVec.ofNat 32 (natOfLe (s.hostRead (128 * hl + 4 * i) 4)), poison := false }
  let old := tgetD s.hostCached hl []
  { s with hostCached := tset s.hostCached hl (if own then [core] else if old.contains core then old else old ++ [core]) }

/-- The words that an access of n bytes touches in an L1's copy of a coherent host line. -/
def hostWords (ha n : Nat) : List Nat :=
  (List.range ((ha % 128 + n - 1) / 4 - ha % 128 / 4 + 1)).map fun i => 32 * (2 ^ 60 + ha / 128) + ha % 128 / 4 + i

/-- The words of n bytes of a host line are in the core's L1. -/
def hostHit (s : State) (core ha n : Nat) : Bool :=
  (hostWords ha n).all fun w => (s.l1Word core w).isSome

/-- A store to a coherent host word by policy (R22, R230, R430): other L1s give the line back; WIS takes the line owned and writes it through, WT
writes through and updates the copy if there is one, NC writes at the host and drops the copy of the word, whose dirty bytes go there before. -/
def hostStore (s : State) (core ha : Nat) (pol : Policy) (bs : List Byte) : State :=
  let hl := ha / 128
  let rest := (tgetD s.hostCached hl []).filter fun n => n != core
  let s := if pol == .nc || pol == .wt then
      (if rest.isEmpty then s else s.hostRecall hl)
    else if hostHit s core ha bs.length && rest.isEmpty then
      s.modCore core fun c => { c with l1 := tmod c.l1 (2 ^ 60 + hl) fun l => { l with words := l.words.map fun e => (e.1, { e.2 with st := .owned }) } }
    else hostFill s core ha true
  let s := if pol != .nc then s else forEach (hostWords ha bs.length) s fun s w =>
    match (s.l1Word core w).filter fun x => x.dirty with
    | some x => { s with hostMem := mputNat s.hostMem (128 * hl + 4 * (w % 32)) 4 x.val.toNat }
    | none => s
  let s : State := { s with hostMem := mputBytes s.hostMem ha bs }
  let s := forEach (byWord ha bs []) s fun s e =>
    let w := 32 * (2 ^ 60 + hl) + e.1 % 32
    match s.l1Word core w with
    | none => s
    | some x =>
      if pol == .nc then s.l1Drop core w
      else s.l1Set core w { x with val := e.2.foldl (fun v b => setByte v b.1 b.2) x.val }
  s.fireCore core (2 ^ 60 + hl)

/-- An atomic on a coherent host word, in the L1 after it has obtained the line (R241); at the host while CXLCACHE is clear. -/
def hostAtomic (s : State) (core ha : Nat) (bs : List Byte) : State :=
  let s := hostFill s core ha true
  if !s.hostCaches then { s with hostMem := mputBytes s.hostMem ha bs } else
  forEach (byWord ha bs []) s fun s e => l1Write s core (32 * (2 ^ 60 + ha / 128) + e.1 % 32) e.2

/-- Sends a store to a peer as a put of an operation (R225, R431). -/
def peerStore (s : State) (core op peer off : Nat) (bs : List Byte) : State :=
  let n := s.newId
  { n.1 with puts := n.1.puts ++ [{ id := n.2, peer := peer, core := core, op := op, cmd := 0, off := off, data := bs, sentAt := s.devNs }] }

/-- Registers an operation on its way to or from a peer. -/
def peerOp (s : State) (o : LsuOp) (lane peer off : Nat) (p : DWord) : State × Nat :=
  let n := s.newId
  let q : OpPart := { sec := 0, words := 0, accs := [{ lane := lane, off := off, size := 0, vaddr := p, x := 0, y := 0 }], st := .done }
  (n.1.modCore (coreOf o.warp) fun c =>
    { c with ops := c.ops ++ [{ o with id := n.2, lanes := laneBit lane, space := .remote peer, parts := [q], sentAt := s.devNs }] }, n.2)

/-- An access that the model performs in one step (log entry 17), with the lane's race trap if deterministic mode finds one. -/
def accessNow (s : State) (o : LsuOp) (lane : Nat) (p : DWord) (size : Nat) (loc : Loc) (x y : Nat) : State × Option TrapInfo :=
  let g := o.warp
  let core := coreOf g
  let write := o.kind == .store
  let bad := match loc with
    | .spad b off _ => if o.checked then spadRaces s b off size g write else []
    | _ => []
  let first := match loc with | .spad _ off _ => off / 4 | _ => 0
  let s := s.count .race (min 1 bad.length)
  if o.det && !bad.isEmpty then
    (s, some { cause := 0x15, detail := 0, addr := BitVec.ofNat 64 (p.toNat / 4 * 4 + 4 * (bad.headD 0 - first)) })
  else
    let s := match loc with
      | .spad b off _ => if o.checked then spadOpen s b off size g write else s
      | _ => s
    match o.kind with
    | .prefetch => (s, none)
    | .load =>
      let s := match loc with
        | .host ha true => if o.pol == .nc || hostHit s core ha size then s else hostFill s core ha false
        | .peer id off => (peerOp s o lane id off p).1
        | _ => s
      let r := readLoc s loc size
      (deliverLoad s o lane size (natOfLe r.1) (r.2 || !bad.isEmpty), none)
    | .store =>
      match loc with
      | .peer id off => let z := peerOp s o lane id off p; (peerStore z.1 core z.2 id off (leOfNat size x), none)
      | .host ha true => (hostStore s core ha o.pol (leOfNat size x), none)
      | loc => (writeLoc s core loc (leOfNat size x), none)
    | .atomic | .red =>
      let r := readLoc s loc size
      let old := natOfLe r.1
      if r.2 then
        (if o.kind == .red then s.count .poisonDrop 1 else deliverAtom s o lane size old false true, none)
      else
        let n := atomNew o.aop size old x y
        let s := match loc with
          | .host ha true => hostAtomic s core ha (leOfNat size n.1)
          | loc => writeLoc s core loc (leOfNat size n.1)
        (deliverAtom s o lane size old n.2 false, none)

/-- An access outside device memory counts as a hit for a split load (R153). -/
def hitNow (s : State) (core : Nat) (pol : Policy) (loc : Loc) (size : Nat) : Bool :=
  match loc with
  | .spad _ _ yard => !yard
  | .host ha true => pol != .nc && hostHit s core ha size
  | _ => false

/-- The accesses of an operation with their addresses. -/
def LsuOp.accesses (o : LsuOp) : List (Nat × LaneAcc) := o.parts.flatMap fun q => q.accs.map fun a => (32 * q.sec + a.off, a)

/-- An operation of accesses, which keep lane order. -/
def LsuOp.withAccesses (o : LsuOp) (l : List (Nat × LaneAcc)) : LsuOp :=
  { o with lanes := maskOf (l.map fun e => e.2.lane), parts := (sortBy (fun e => e.2.lane) l).foldl (fun ps e => addPart ps e.1 e.2) [] }

/-- The operations of the lanes that go to device memory, one for each policy. Lanes that touch one word under different policies go together
under the policy of the first of them, so that they keep lane order (R227, R240, R261; log entry 24). -/
def devGroup (o : LsuOp) (l : Nat × LaneGo) (acc : List LsuOp) : List LsuOp :=
  match l.2 with
  | .dev p size pa x y =>
    let pol := devPolicy o.det o.pol p
    let a : LaneAcc := { lane := l.1, off := 0, size := size, vaddr := p, x := x, y := y }
    let checked := o.checked && spaceOf p != 12
    let cls := if spaceOf p = 12 then .dflt else o.cls
    let ws := wordSpan pa size
    let joins (q : LsuOp) : Bool := q.parts.any fun r => r.wordList.any fun w => ws.contains w
    let same (q : LsuOp) : Bool := q.pol == pol && q.checked == checked && q.cls == cls
    match acc.filter joins with
    | q :: qs =>
      let z := q.withAccesses ((q :: qs).flatMap LsuOp.accesses ++ [(pa, a)])
      modFirst (acc.filter fun x => x == q || !joins x) (fun x => x == q) fun _ => z
    | [] =>
      if acc.any same then modFirst acc same fun q => { q with lanes := q.lanes ||| laneBit l.1, parts := addPart q.parts pa a }
      else acc ++ [{ o with pol := pol, cls := cls, checked := checked, lanes := laneBit l.1, parts := addPart [] pa a }]
  | _ => acc

/-- The operation of the lanes of a block whose access waits for a member of its gang to start (R109), if there are any. -/
def memberGroup (lin : Nat) (o : LsuOp) (go : List (Nat × LaneGo)) : List LsuOp :=
  let accs : List LaneAcc := go.filterMap fun l => match l.2 with
    | .member p size x y => some { lane := l.1, off := 0, size := size, vaddr := p, x := x, y := y }
    | _ => none
  if accs.isEmpty then []
  else [{ o with space := .member lin, lanes := maskOf (accs.map fun a => a.lane), parts := [{ sec := 0, words := 0, accs := accs, st := .sent 0 }] }]

/-- Names an operation, and puts it into the engine, held while its instruction issues. -/
def acceptOp (s : State) (o : LsuOp) : State × Nat :=
  let n := s.newId
  (n.1.modCore (coreOf o.warp) fun c => { c with ops := c.ops ++ [{ o with id := n.2, hold := true, sentAt := s.devNs }] }, n.2)

/-- An operation at the end of its instruction's issue: its lanes that raced, those whose race check is still outstanding in
deterministic mode, those that wait, and those of them that hit all the same (R153). -/
structure Held where
  id     : Nat
  raced  : Tbl DWord := []
  check  : LaneMask := 0
  waits  : LaneMask := 0
  hit    : LaneMask := 0
  deriving DecidableEq, Repr

/-- The instruction of an operation has issued: the operation leaves the engine if it is complete. -/
def unhold (s : State) (core id : Nat) : State × Held :=
  match s.op? core id with
  | none => (s, { id := id })
  | some o =>
    let s := s.modOp core id fun o => { o with hold := false }
    let left := o.parts.filter fun q => q.st != .done
    let waits := maskOf (left.flatMap fun q => q.accs.map fun a => a.lane)
    if waits = 0 then (completeOp s core { o with hold := false }, { id := id, raced := o.raced })
    else (s, { id := id, raced := o.raced, check := if o.det && o.checked then o.lanes &&& ~~~ maskOf (o.raced.map fun r => r.1) else 0
               waits := waits, hit := left.foldl (fun m q => m ||| q.hit) 0 })

/-- Makes the outstanding result of an instruction: its destinations are mapped and marked in its lanes (R10, R171, R185). -/
def openResult (s : State) (g la : Nat) (dests : List Dest) (lanes : LaneMask) : State × Option Nat :=
  if dests.isEmpty || lanes = 0 then (s, none)
  else
    let n := s.newId
    let r : Result := { id := n.2, dests := dests, lanes := (lanesOf lanes).map fun l => (l, { left := la }) }
    (n.1.modWarp g fun w =>
      let w := dests.foldl (fun (w : Warp) d => match d with | .v r => w.vmap r | _ => w) w
      { w with results := w.results ++ [r] }, some n.2)

/-- The lanes of a split load that have been served have a result of their own, which is done (R153). -/
def splitResult (s : State) (g rid : Nat) (hit : LaneMask) : State :=
  let n := s.newId
  n.1.modWarp g fun w => { w with results := w.results.flatMap fun r =>
    if r.id == rid then
      [{ r with id := n.2, lanes := r.lanes.filter fun l => hit.getLsbD l.1, data := r.data.filter fun l => hit.getLsbD l.1, done := true },
       { r with lanes := r.lanes.filter fun l => !hit.getLsbD l.1 }]
    else [r] }

/-- Runs the accesses of an instruction's lanes: `o` says what they are, `req` what each lane asks for. -/
def runAccesses (s : State) (c : Ctx) (o : LsuOp) (dests : List Dest) (la : Nat) (split : Bool) (lanes : LaneMask)
    (req : Nat → LaneReq) : State × Fates :=
  let g := c.g
  let core := coreOf g
  let gos := (lanesOf lanes).map fun l => (l, laneGo s g l o (req l))
  let stops := gos.filterMap fun e => match e.2 with | .stop f => some (laneBit e.1, f) | _ => none
  let go := gos.filter fun e => match e.2 with | .stop _ => false | _ => true
  if go.isEmpty then (s, groupFates stops)
  else
    let regions := go.map fun e => match e.2 with
      | .dev p _ _ _ _ => boundRegion s g p
      | _ => none
    let region := match regions with
      | some r :: rest => if rest.all (fun x => x == some r) then some r else none
      | _ => none
    let s := if isRel o.ord then releaseAct s g o.scope region else s
    let rs := openResult s g la dests (maskOf (go.map fun e => e.1))
    let o := { o with result := rs.2, region := region }
    let hits := maskOf ((go.filter fun e => match e.2 with
      | .now _ n loc _ _ => hitNow s core o.pol loc n
      | .zero _ => true
      | _ => false).map fun e => e.1)
    let devs := maskOf ((go.filter fun e => match e.2 with | .dev _ _ _ _ _ => true | .member _ _ _ _ => true | _ => false).map fun e => e.1)
    let im := go.foldl (fun (acc : State × Fates) e =>
      match e.2 with
      | .now p size loc x y =>
        let r := accessNow acc.1 o e.1 p size loc x y
        (r.1, match r.2 with | some t => acc.2 ++ [(laneBit e.1, .trap t)] | none => acc.2)
      | .zero n => (match o.result with | some rid => acc.1.resultData g rid e.1 (regVals n 0 false) | none => acc.1, acc.2)
      | _ => acc) (rs.1, [])
    let ops := (go.foldl (fun acc e => devGroup o e acc) [] ++ memberGroup (((s.blockOf g).map Block.lin).getD 0) o go).foldl (fun (acc : State × List Nat) x =>
      let r := acceptOp acc.1 x; (r.1, acc.2 ++ [r.2])) (im.1, [])
    let peers := go.any fun e => match e.2 with | .now _ _ (.peer _ _) _ _ => true | _ => false
    let s := pump (if peers then ops.1.nextDraw else ops.1) core
    let un := ops.2.foldl (fun (acc : State × List Held) id =>
      let r := unhold acc.1 core id; (r.1, acc.2 ++ [r.2])) (s, [])
    let s := un.1
    let raced : Fates := un.2.flatMap fun e => e.raced.map fun r => (laneBit r.1, Fate.trap { cause := 0x15, detail := 0, addr := r.2 })
    let traps := im.2 ++ raced
    let trapped := fateLanes traps fun _ => true
    let s := match o.result with
      | some rid => s.modWarp g fun w => w.modResult rid fun r => { r with lanes := r.lanes.filter fun l => !trapped.getLsbD l.1 }
      | none => s
    let s := if isAcq o.ord && devs = 0 then acquireAct s g o.scope region else s
    let s := resultDone s core o
    let waits : Fates := (un.2.filter fun e => e.check != 0).map fun e => (e.check, Fate.park (.detAccess e.id))
    let waiting := fateLanes waits fun _ => true
    let all := maskOf (go.map fun e => e.1) &&& ~~~ trapped &&& ~~~ waiting
    let missed := un.2.foldl (fun m e => m ||| e.waits) 0
    let done := all &&& (hits ||| (devs &&& ~~~ missed))
    let hit := done ||| (all &&& un.2.foldl (fun m e => m ||| e.hit) 0)
    let late : Fates := if split && hit != 0 && (all &&& ~~~ hit) != 0 then [(all &&& ~~~ hit, .late dests)] else []
    let s := match o.result with
      | some rid => if late.isEmpty || done = 0 then s else splitResult s g rid done
      | none => s
    (s, groupFates (stops ++ traps) ++ waits ++ late)

/-- A lane's access of block lin's gang whose member may have started (R109): it is performed if the member is there and its lines are present, else it
stays (true). It fails where the core holds no member or its region is too small (R15, R23): the lane traps, if its block is still there. A block may have
exited before its store is performed. -/
def memberAccess (s : State) (lin : Nat) (o : LsuOp) (a : LaneAcc) : State × Bool :=
  let off := nbits a.vaddr.toNat 0 20
  let lives := (s.blockOf o.warp).any fun b => b.launch == o.launch && b.lin == lin
  let fails (detail : Nat) : State × Bool :=
    if !lives then (s, false)
    else
      let s : State := { s with asyncs := s.asyncs ++ [{ warp := o.warp, lanes := laneBit a.lane, cause := 0x10, detail := detail, addr := a.vaddr }] }
      (match o.result with
        | none => s
        | some rid => s.modWarp o.warp fun w => w.modResult rid fun r => { r with lanes := r.lanes.filter fun l => l.1 != a.lane }, false)
  match s.memberOn o.launch lin (coreOf o.warp / 8 * 8 + nbits a.vaddr.toNat 20 3) with
  | none => if s.membersWait o.launch lin then (s, true) else fails 5
  | some t =>
    if t.2.spadBytes < off + a.size then fails 2
    else if absentOf s t.1 off a.size != [] then (s, true)
    else
      let r := accessNow s { o with checked := o.checked && lives } a.lane a.vaddr a.size (.spad t.1 off true) a.x a.y
      (match r.2 with
        | some t => r.1.modOp (coreOf o.warp) o.id fun o => { o with raced := tset o.raced a.lane t.addr }
        | none => r.1, false)

/-- The accesses of an operation that waited for a gang member (R109). -/
def runMember (s : State) (core id : Nat) : State :=
  match s.op? core id with
  | none => s
  | some o =>
    match o.space with
    | .member lin =>
      let z := (o.parts.flatMap OpPart.accs).foldl (fun (acc : State × List LaneAcc) a =>
        let r := memberAccess acc.1 lin o a
        (r.1, if r.2 then acc.2 ++ [a] else acc.2)) (s, [])
      let s := z.1.modOp core id fun o => o.modPart 0 fun q => { q with accs := z.2 }
      if z.2.isEmpty then finishPart s core id 0 else s
    | _ => s

/-- Every operation of the device that waits for a gang member is tried again. -/
def runMembers (s : State) : State :=
  forEach (s.cores.flatMap fun c => (c.2.ops.filter fun o => match o.space with | .member _ => true | _ => false).map fun o => (c.1, o.id)) s fun s e => runMember s e.1 e.2

/-- ABSENT_LINE_RELEASE (R14): the lanes execute the instruction again once all their lines are present; if a line belongs to
a copy whose object is in error they trap with copy-fault. -/
def execAbsentLineRelease (warp entry : Nat) (s : State) : Host.Outcome State Fault Refusal :=
  match (s.warp? warp).bind fun w => w.entry? entry with
  | none => .next (runMember s (coreOf warp) entry)
  | some e =>
    match e.st with
    | .parked (.absentLine lines) =>
      match s.absentTrap (((s.warp? warp).map Warp.block).getD 0) lines with
      | some t =>
        let s := s.modWarp warp fun w => (w.dropLanes e.mask).voidHeld e.mask
        .next (s.takeTraps warp e.pc e.prio ((lanesOf e.mask).map fun l => (l, t)))
      | none =>
        if lines.any fun l => s.isAbsent l.1 l.2 then .next s
        else .next (s.modWarp warp fun w => w.releaseAgain entry)
    | _ => .next s

/-- The operation that an instruction makes, still without accesses. -/
def opOf (s : State) (c : Ctx) (kind : OpKind) (pol : Policy) (cls : CacheClass) (ord : Order) (scope : Scope) : LsuOp :=
  { id := 0, launch := ((s.launchOf c.g).map Launch.id).getD 0, warp := c.g, lanes := 0, kind := kind, space := .device, pol := pol
    cls := cls, ord := ord, scope := scope
    checked := ord == .plain && (kind == .load || kind == .store), det := s.flagOf c.g Launch.det, parts := [] }

/-! ## LD, ST, PREF (R235–R237) -/

/-- Bytes of an access from its SIZE field, and the registers of a value of that size (R36, R224). -/
def memBytes (f : MemF) : Nat := 2 ^ f.size
def baseRegs (base : Nat) (lu : Bool) : Opnds := { vr := regsFrom base 2, lu := if lu then regsFrom base 2 else [] }

/-- The pointer of a load, store or prefetch in a lane (R224). -/
def memPtr (f : MemF) (w : Warp) (l : Nat) : DWord := addOffset (BitVec.ofNat 64 (w.vgetN f.base 2 l).1) (f.off * (memBytes f : Int))

/-- What LD and ST ask for in a lane: a poisoned base or guard traps with TADDR 0 (R226). -/
def ldReq (f : MemF) (c : Ctx) (w : Warp) (l : Nat) : LaneReq :=
  if c.pg.getLsbD l || (w.vgetN f.base 2 l).2 then .stop (.trap (poisonTrap 0)) else .acc (memPtr f w l) (memBytes f) 0 0 false
def stReq (f : MemF) (data : Nat) (c : Ctx) (w : Warp) (l : Nat) : LaneReq :=
  let x := w.vgetN data (sizeRegs (memBytes f)) l
  if c.pg.getLsbD l || (w.vgetN f.base 2 l).2 then .stop (.trap (poisonTrap 0)) else .acc (memPtr f w l) (memBytes f) x.1 0 x.2

/-- LD (R235). -/
def execLd (f : MemF) (la : Nat) (split : Bool) (d : Nat) (s : State) : Host.Outcome State Fault Refusal :=
  let n := sizeRegs (memBytes f)
  issueLane s f.g .own
    { (baseRegs f.base f.baseLu) with vw := regsFrom d n, async := true, rel := relLevel f.ord f.scope } fun s c =>
    match s.warp? c.g with
    | none => (s, [])
    | some w =>
      runAccesses s c (opOf s c .load f.pol f.cls f.ord f.scope) ((regsFrom d n).map Dest.v) la split (c.act ||| c.pg) (ldReq f c w)

/-- ST (R236). -/
def execSt (f : MemF) (data : Nat) (dataLu : Bool) (s : State) : Host.Outcome State Fault Refusal :=
  let n := sizeRegs (memBytes f)
  let o := baseRegs f.base f.baseLu
  issueLane s f.g .own
    { o with vr := o.vr ++ regsFrom data n, lu := o.lu ++ (if dataLu then regsFrom data n else []), rel := relLevel f.ord f.scope }
    fun s c =>
    match s.warp? c.g with
    | none => (s, [])
    | some w =>
      runAccesses s c (opOf s c .store f.pol f.cls f.ord f.scope) [] 0 false (c.act ||| c.pg) (stReq f data c w)

/-- The four sectors of a line as parts of a prefetch. -/
def prefParts (line : Nat) (p : DWord) (ps : List OpPart) : List OpPart :=
  (List.range 4).foldl (fun ps k =>
    if ps.any fun q => q.sec == 4 * line + k then ps
    else ps ++ [{ sec := 4 * line + k, words := 0xFF#32 <<< (8 * k), accs := [{ lane := 0, off := 0, size := 4, vaddr := p, x := 0, y := 0 }] }]) ps

/-- Where a lane's prefetch goes, unless it would fault. -/
def prefLane (s : State) (c : Ctx) (w : Warp) (f : MemF) (l : Nat) : Option (DWord × Loc) :=
  let b := w.vgetN f.base 2 l
  let p := addOffset (BitVec.ofNat 64 b.1) (f.off * (memBytes f : Int))
  if b.2 then none
  else match laneCheck s c.g l .prefetch f.pol p (memBytes f) with
    | .ok loc => some (p, loc)
    | .error _ => none

/-- The operations of a prefetch to device memory or to a local window, where CLASS is ignored (R232): one for each policy and class. -/
def prefOp (o : LsuOp) (pol : Policy) (acc : List LsuOp) (e : DWord × Loc) : List LsuOp :=
  match e.2 with
  | .dev pa loc =>
    let pol := devPolicy o.det pol e.1
    let cls := if loc then .dflt else o.cls
    let same (q : LsuOp) : Bool := q.pol == pol && q.cls == cls
    if acc.any same then modFirst acc same fun q => { q with parts := prefParts (pa / 128) e.1 q.parts }
    else acc ++ [{ o with pol := pol, cls := cls, parts := prefParts (pa / 128) e.1 [] }]
  | _ => acc

/-- The prefetches of a warp's lanes. -/
def prefetch (s : State) (c : Ctx) (w : Warp) (f : MemF) : State :=
  let go := (lanesOf (c.act &&& ~~~ c.pg)).filterMap (prefLane s c w f)
  let hosts := go.filterMap fun e => match e.2 with | .host ha true => some ha | _ => none
  let o := opOf s c .prefetch f.pol f.cls .plain .thread
  let s := if f.pol == .nc then s else forEach hosts s fun s ha =>
    if hostHit s (coreOf c.g) (128 * (ha / 128)) 128 then s else hostFill s (coreOf c.g) ha false
  let s := forEach (go.foldl (prefOp o f.pol) []) s fun s x =>
    let n := s.newId
    n.1.modCore (coreOf c.g) fun k => { k with ops := k.ops ++ [{ x with id := n.2, sentAt := s.devNs }] }
  pump s (coreOf c.g)

/-- PREF (R237): lanes that would fault are dropped; it opens nothing and retires at once. -/
def execPref (f : MemF) (s : State) : Host.Outcome State Fault Refusal :=
  issueLane s f.g .drops { (baseRegs f.base f.baseLu) with rel := 1 } fun s c =>
    match s.warp? c.g with
    | none => (s, [])
    | some w => (prefetch s c w f, [])

/-! ## ATOM and RED (R240–R245) -/

/-- Registers of an atomic's operand field (R36). -/
def atomRegs (f : AtomF) : Nat :=
  let n := sizeRegs (2 ^ f.size)
  match f.op with | .cas | .incw | .addb => 2 * n | _ => n

/-- The operations that deterministic mode forbids in a RED (R245). -/
def fpAtom (op : AtomOp) : Bool := op == .fadd || op == .fmin || op == .fmax || op == .hadd

/-- What ATOM and RED ask for: their operand, and the second one of CAS, INCW and ADDB (R240, R242). -/
def atomReq (f : AtomF) (c : Ctx) (w : Warp) (l : Nat) : LaneReq :=
  let size := 2 ^ f.size
  let n := sizeRegs size
  let b := w.vgetN f.base 2 l
  let x := w.vgetN f.opb n l
  let y := if atomRegs f = n then (0, false) else w.vgetN (f.opb + n) n l
  if c.pg.getLsbD l || b.2 then .stop (.trap (poisonTrap 0))
  else .acc (BitVec.ofNat 64 b.1) size (nbits x.1 0 (8 * size)) (nbits y.1 0 (8 * size)) (x.2 || y.2)

/-- The accesses of ATOM and RED. -/
def atomAccesses (s : State) (c : Ctx) (f : AtomF) (kind : OpKind) (dests : List Dest) (la : Nat) : State × Fates :=
  match s.warp? c.g with
  | none => (s, [])
  | some w =>
    if s.flagOf c.g Launch.det && (kind == .atomic || fpAtom f.op) then
      (s, [(c.act ||| c.pg, .trap { cause := 0x16, detail := 0, addr := 0 })])
    else
      runAccesses s c { (opOf s c kind f.pol .dflt f.ord f.scope) with aop := f.op } dests la false (c.act ||| c.pg) (atomReq f c w)

/-- The operands of ATOM and RED. -/
def atomOpnds (f : AtomF) : Opnds :=
  let o := baseRegs f.base f.baseLu
  { o with vr := o.vr ++ regsFrom f.opb (atomRegs f), lu := o.lu ++ (if f.opbLu then regsFrom f.opb (atomRegs f) else [])
           rel := relLevel f.ord f.scope }

/-- ATOM (R240). -/
def execAtom (f : AtomF) (la : Nat) (status : Nat) (d : Nat) (s : State) : Host.Outcome State Fault Refusal :=
  let n := sizeRegs (2 ^ f.size)
  let pd := if status = 0 then [] else [3 + status]
  issueLane s f.g .own { (atomOpnds f) with vw := regsFrom d n, pw := pd, async := true } fun s c =>
    atomAccesses s c f .atomic ((regsFrom d n).map Dest.v ++ pd.map Dest.p) la

/-- RED (R240). -/
def execRed (f : AtomF) (s : State) : Host.Outcome State Fault Refusal :=
  issueLane s f.g .own (atomOpnds f) fun s c => atomAccesses s c f .red [] 0

/-! ## Streams (R246–R251) -/

/-- A stream record's fields; `base` is the descriptor's. -/
structure Stream where
  elem   : Nat
  dims   : Nat
  ind    : Nat
  idim   : Nat
  count  : List Nat
  stride : List Int
  idxoff : Int
  base   : DWord
  deriving DecidableEq, Repr

/-- A signed 64-bit number of eight bytes. -/
def sle8 (l : List Byte) : Int := sgn 64 (natOfLe l)

/-- The fields of a descriptor line or of a record (R246, R248). -/
def streamOf (bs : List Byte) : Stream :=
  let sl (o n : Nat) : List Byte := (bs.drop o).take n
  { elem := natOfLe (sl 0 1), dims := natOfLe (sl 1 1), ind := natOfLe (sl 2 1), idim := natOfLe (sl 3 1)
    count := (List.range 4).map fun i => natOfLe (sl (8 + 4 * i) 4)
    stride := (List.range 4).map fun i => sle8 (sl (0x18 + 8 * i) 8)
    idxoff := sle8 (sl 0x38 8), base := BitVec.ofNat 64 (natOfLe (sl 0x40 8)) }

/-- The stream's total T. -/
def Stream.total (x : Stream) : Nat := (x.count.take x.dims).foldl (· * ·) 1

/-- A record is valid (R246). -/
def Stream.valid (x : Stream) : Bool :=
  x.elem ≤ 5 && 1 ≤ x.dims && x.dims ≤ 4 && x.ind ≤ 1 && x.idim < x.dims && (x.count.take x.dims).all (fun c => 1 ≤ c)
    && x.total ≤ 2 ^ 32

/-- The coordinates of element i (R249). -/
def streamCoords (counts : List Nat) (i : Nat) : List Nat :=
  match counts with
  | [] => []
  | c :: r => i % c :: streamCoords r (i / c)

/-- The address of an element, its index word replacing the coordinate of the indirect dimension. -/
def Stream.addr (x : Stream) (i j : Nat) : DWord :=
  let ks := (streamCoords (x.count.take x.dims) i).zipIdx.map fun k => if x.ind = 1 && k.2 = x.idim then j else k.1
  addOffset x.base ((ks.zip x.stride).foldl (fun (acc : Int) k => acc + (k.1 : Int) * k.2) 0)

/-- The address of an element's index word. -/
def Stream.indexAddr (x : Stream) (i : Nat) : DWord :=
  addOffset x.base (x.idxoff + 4 * (((streamCoords (x.count.take x.dims) i).getD x.idim 0 : Nat) : Int))

/-- The device words of a plain read of n bytes that its core cannot serve now: those that miss in the L1, and those on which the warp's own earlier
accesses are still on their way (R285). -/
def readHome (s : State) (g lane : Nat) (p : DWord) (n : Nat) : List Nat :=
  match checkAccess s g lane p n .read with
  | .ok (.dev pa _) =>
    let pol := devPolicy (s.flagOf g Launch.det) .dflt p
    (wordSpan pa n).filter fun w => !wordsHit s (coreOf g) pol (w / 8) [w] || s.wordPending g w
  | _ => []

/-- The opens against which a plain read of a device word is checked beside those of its own L1 (R281). -/
def seenOpens (s : State) (core : Nat) (pol : Policy) (w : Nat) : WordOpens :=
  if wordsHit s core pol (w / 8) [w] then l1Opens s core w else openGet (s.dirLine (w / 32)).opens w

/-- A plain read of n bytes that the model performs in one step under the pointer's default policy, with its race check (R229, R230, R283): bytes and
poison, or the lane's fate. -/
def plainRead (s : State) (g lane : Nat) (p : DWord) (n : Nat) : State × Except Fate (List Byte × Bool) :=
  match checkAccess s g lane p n .read with
  | .error t => (s, .error (.trap t))
  | .ok (.wait b) => (s, .error (.park (.member b)))
  | .ok loc =>
    let det := s.flagOf g Launch.det
    let core := coreOf g
    let pol := devPolicy det .dflt p
    let span := (List.range ((n + 3) / 4))
    let bad := match loc with
      | .spad b off _ => (spadRaces s b off n g false).map fun w => w - off / 4
      | .dev pa false => span.filter fun i =>
          (openGet (s.core core).opens (pa / 4 + i)).races (reqOf g) false || (seenOpens s core pol (pa / 4 + i)).races core false
      | _ => []
    let gone := match loc with | .spad b off _ => absentOf s b off n | _ => []
    match gone, loc with
    | ls@(_ :: _), .spad b _ _ => (s, .error (absentFate s g b ls))
    | _, _ =>
      let s := s.count .race (min 1 bad.length)
      if det && !bad.isEmpty then
        (s, .error (.trap { cause := 0x15, detail := 0, addr := BitVec.ofNat 64 (p.toNat / 4 * 4 + 4 * bad.headD 0) }))
      else
        let s := match loc with
          | .spad b off _ => spadOpen s b off n g false
          | .dev pa false => forEach span s fun s i => openWord s g (pa / 4 + i) (nbits p.toNat 0 57 / 4 + i) false
          | _ => s
        match loc with
        | .dev pa _ =>
          let vline := nbits p.toNat 0 57 / 128
          let z := (wordSpan pa n).foldl (fun (acc : State × Tbl (Word × Bool)) w =>
            let r := loadNow acc.1 core pol vline w
            (r.1, tset acc.2 w r.2)) (s, [])
          let x (i : Nat) : Word × Bool := tgetD z.2 ((pa + i) / 4) (0, true)
          (z.1, .ok ((List.range n).map fun i => wordByte (x i).1 ((pa + i) % 4), (List.range n).any (fun i => (x i).2) || !bad.isEmpty))
        | loc =>
          let r := readLoc s loc n
          (s, .ok (r.1, r.2 || !bad.isEmpty))

/-- The pointer of a word of a block's own scratchpad (R156, R283). -/
def spadPtr (off : Nat) : DWord := BitVec.ofNat 64 (8 * 2 ^ 60 + off)

/-- What an LDS or SST lane asks for (R249–R251): `regs` are the first data register and what to do with the element. In normal mode a descriptor whose
read races is poisoned, its base with it (R226 step 2, R282; log entry 131). -/
def streamReq (s : State) (c : Ctx) (lane off i : Nat) (poison : Bool) (reg : Nat) (load : Bool) (data : Nat → Nat × Bool) :
    State × LaneReq :=
  if c.pg.getLsbD lane || poison then (s, .stop (.trap (poisonTrap 0)))
  else
    let w := (s.warp? c.g).map Warp.block
    let b := w.getD 0
    let size := ((s.block? b).map Block.spadBytes).getD 0
    if off % 128 ≠ 0 then (s, .stop (.trap { cause := 0x10, detail := 3, addr := BitVec.ofNat 64 off }))
    else if size < off + 128 then (s, .stop (.trap { cause := 0x10, detail := 2, addr := BitVec.ofNat 64 off }))
    else
      match absentOf s b off 128 with
      | ls@(_ :: _) => (s, .stop (absentFate s c.g b ls))
      | [] =>
        let x := streamOf (spadRead s b off 128)
        let bad := spadRaces s b off 72 c.g false
        let s := s.count .race (min 1 bad.length)
        if s.flagOf c.g Launch.det && !bad.isEmpty then
          (s, .stop (.trap { cause := 0x15, detail := 0, addr := spadPtr (4 * bad.headD 0) }))
        else
          let s := spadOpen s b off 72 c.g false
          let n := sizeRegs (2 ^ x.elem)
          if !bad.isEmpty then (s, .stop (.trap (poisonTrap 0)))
          else if !x.valid then (s, .stop (.trap { cause := 0x10, detail := 3, addr := BitVec.ofNat 64 off }))
          else if reg % n ≠ 0 then (s, .stop (.trap { cause := 0x13, detail := 0, addr := BitVec.ofNat 64 off }))
          else if x.total ≤ i then (s, if load then .zero n else .skip)
          else
            let v := if load then (0, false) else data n
            if x.ind = 1 then
              let r := plainRead s c.g lane (x.indexAddr i) 4
              match r.2 with
              | .error f => (r.1, .stop f)
              | .ok (_, true) => (r.1, .stop (.trap (poisonTrap 0)))
              | .ok (bs, false) => (r.1, .acc (x.addr i (natOfLe bs)) (2 ^ x.elem) v.1 0 v.2)
            else (s, .acc (x.addr i 0) (2 ^ x.elem) v.1 0 v.2)

/-- The device words of a lane's stream index that the core cannot serve now. -/
def indexHome (s : State) (g lane : Nat) (w : Warp) (a b : Src) : List Nat :=
  let off := (w.vget a.reg lane).bits.toNat
  let i := (w.vget b.reg lane).bits.toNat
  let x := streamOf (spadRead s w.block off 128)
  if off % 128 = 0 && x.valid && x.ind = 1 && i < x.total then readHome s g lane (x.indexAddr i) 4 else []

/-- The device words of the stream indexes that the lanes of the split read, under a guard (R249). -/
def streamHome (s : State) (gd : Guard) (a b : Src) : List Nat :=
  match s.looking with
  | none => []
  | some (g, w, e) => ((lanesOf (guardLanes w gd e.mask).1).flatMap fun l => indexHome s g l w a b).dedup

/-- Registers of the widest element among the descriptors that the lanes of a split name. -/
def streamRegs (s : State) (a : Src) : Nat :=
  match s.looking with
  | none => 1
  | some (_, w, e) =>
    (lanesOf e.mask).foldl (fun m l =>
      let o := (w.vget a.reg l).bits.toNat
      let x := natOfLe (spadRead s w.block o 1)
      if o % 128 = 0 && x ≤ 5 then max m (sizeRegs (2 ^ x)) else m) 1

/-- The lanes' stream requests, in lane order. -/
def streamReqs (s : State) (c : Ctx) (w : Warp) (a b : Src) (reg : Nat) (load : Bool) : State × Tbl LaneReq :=
  (lanesOf (c.act ||| c.pg)).foldl (fun (acc : State × Tbl LaneReq) l =>
    let o := w.vget a.reg l
    let i := w.vget b.reg l
    let r := streamReq acc.1 c l o.bits.toNat i.bits.toNat (o.poison || i.poison) reg load fun n => w.vgetN reg n l
    (r.1, acc.2 ++ [(l, r.2)])) (s.nextDraw, [])

/-- LDS (R250). -/
def execLds (g : Guard) (la : Nat) (pol : Policy) (cls : CacheClass) (d : Nat) (a b : Src) (s : State) :
    Host.Outcome State Fault Refusal :=
  let n := streamRegs s a
  issueLane s g .own { (srcOpnds [(a, 1), (b, 1)]) with vw := regsFrom d n, async := true, rel := 1, home := streamHome s g a b, ask := .rdS } fun s c =>
    match s.warp? c.g with
    | none => (s, [])
    | some w =>
      let r := streamReqs s c w a b d true
      runAccesses r.1 c (opOf s c .load pol cls .plain .thread) ((regsFrom d n).map Dest.v) la false (c.act ||| c.pg) fun l =>
        tgetD r.2 l .skip

/-- SST (R251). -/
def execSst (g : Guard) (pol : Policy) (cls : CacheClass) (a b c : Src) (s : State) : Host.Outcome State Fault Refusal :=
  issueLane s g .own { (srcOpnds [(a, 1), (b, 1), (c, streamRegs s a)]) with rel := 1, home := streamHome s g a b, ask := .rdS } fun s x =>
    match s.warp? x.g with
    | none => (s, [])
    | some w =>
      let r := streamReqs s x w a b c.reg false
      runAccesses r.1 x (opOf s x .store pol cls .plain .thread) [] 0 false (x.act ||| x.pg) fun l => tgetD r.2 l .skip

/-! ## ULD, SDEF, FENCE (R238, R239, R248) -/

/-- The results that a ULD made: named from `lim` on, with the one destination. -/
def uldMine (lim d : Nat) (x : Result) : Bool := lim ≤ x.id && x.dests == [.s d]

/-- The end of a ULD's access, made by the lowest active lane: its fault or park applies to every lane; otherwise every lane of the
split has the value outstanding (R185, R238), and the value traps if it is poisoned, when it comes if it is still on its way (R207, log entry
23). -/
def uldFinish (lim : Nat) (c : Ctx) (d la : Nat) (r : State × Fates) : State × Fates :=
  let lanesOfOp (o : LsuOp) : LsuOp := if lim ≤ o.id && o.warp == c.g then { o with lanes := c.act } else o
  let t := r.1.modCore (coreOf c.g) fun k => { k with ops := k.ops.map lanesOfOp }
  match r.2 with
  | [] =>
    let widen (x : Result) : Result :=
      if uldMine lim d x then
        { x with lanes := (lanesOf c.act).map fun l => (l, { left := la }), data := x.data.head?.elim [] fun z => (lanesOf c.act).map fun l => (l, z.2)
                 uld := some (c.e.pc, c.e.prio) }
      else x
    let t := t.modWarp c.g fun w => { w with results := w.results.map widen }
    let res : Option Result := (t.warp? c.g).bind fun w => w.results.find? (uldMine lim d)
    if res.any fun r => r.done && r.data.any fun x => x.2.any fun v => v.2 then
      (t.modWarp c.g fun w => { w with results := w.results.filter fun x => !uldMine lim d x }, [(c.act, .trap (poisonTrap 0))])
    else (t, [])
  | (_, fate) :: _ =>
    let widen (x : Result) : Result :=
      if uldMine lim d x then { x with lanes := (lanesOf c.act).map fun l => (l, { left := la }) } else x
    (t.modWarp c.g fun w => { w with results := w.results.map widen }, [(c.act ||| laneBit (lowLane c.act), fate)])

/-- ULD (R238): one access for the split. -/
def execUld (f : UldF) (d : Nat) (s : State) : Host.Outcome State Fault Refusal :=
  issueUni s f.g { sr := [f.base], sw := [d], async := true, rel := relLevel f.ord f.scope } fun s c =>
    match s.warp? c.g with
    | none => (s, [])
    | some w =>
      let size : Nat := 2 ^ f.size
      let p := addOffset (w.sget f.base) (f.off * (size : Int))
      uldFinish s.nextId c d f.la
        (runAccesses s c (opOf s c .load f.pol f.cls f.ord f.scope) [.s d] f.la false (laneBit (lowLane c.act)) fun _ => .acc p size 0 0 false)

/-- The device words of the record that SDEF reads. -/
def sdefHome (s : State) (a : Nat) : List Nat :=
  match s.looking with
  | none => []
  | some (g, w, e) => if spaceOf (w.sget a) ≤ 3 then readHome s g (lowLane e.mask) (w.sget a) 64 else []

/-- SDEF (R248). A scratchpad offset sC that is no multiple of 128 is an alignment fault and one beyond the region an address-space fault, with TADDR sC
(log entry 132). -/
def execSdef (g : Guard) (a b cc : Nat) (s : State) : Host.Outcome State Fault Refusal :=
  issueUni s g { sr := [a, b, cc], rel := 1, home := sdefHome s a, ask := .rdS } fun s c =>
    match s.warp? c.g, s.blockOf c.g with
    | some w, some blk =>
      let p := w.sget a
      let base := w.sget b
      let off := (w.sget cc).toNat
      if spaceOf p > 3 && spaceOf p != 8 then trapAll s c { cause := 0x10, detail := if ptrWellFormed p then 6 else 1, addr := p }
      else if p.toNat % 64 ≠ 0 && (spaceFault s c.g p 64).isNone then trapAll s c { cause := 0x13, detail := 0, addr := p }
      else
        let r := plainRead s c.g (lowLane c.act) p 64
        match r.2 with
        | .error f => (r.1, [(c.act, f)])
        | .ok (bs, _) =>
          let s := r.1
          let okBase := spaceOf base != 10 && spaceOf base != 12
          if !(streamOf bs).valid || !okBase then trapAll s c { cause := 0x10, detail := 3, addr := p }
          else if blk.spadBytes < off + 128 then trapAll s c { cause := 0x10, detail := 2, addr := w.sget cc }
          else if off % 128 ≠ 0 then trapAll s c { cause := 0x13, detail := 0, addr := w.sget cc }
          else
            match absentOf s w.block off 128 with
            | ls@(_ :: _) => (s, [(c.act, absentFate s c.g w.block ls)])
            | [] =>
              let bad := spadRaces s w.block off 128 c.g true
              let s := s.count .race (min 1 bad.length)
              if s.flagOf c.g Launch.det && !bad.isEmpty then
                trapAll s c { cause := 0x15, detail := 0, addr := spadPtr (4 * bad.headD 0) }
              else
                let s := spadOpen s w.block off 128 c.g true
                (spadWrite s w.block off (bs ++ leOfNat 8 base.toNat ++ List.replicate 56 0), [])
    | _, _ => (s, [])

/-- FENCE (R239): a release, an acquire, or a release followed by an acquire. The acquire waits for the earlier accesses of the
split, the release for what its scope says. -/
def execFence (g : Guard) (ord : Order) (scope : Scope) (s : State) : Host.Outcome State Fault Refusal :=
  let lvl := if isRel ord then relLevel ord scope else if scopeNum scope < 2 then 1 else 2
  issueUni s g { rel := lvl } fun s c =>
    let s := if isRel ord then releaseAct s c.g scope none else s
    (if isAcq ord then acquireAct s c.g scope none else s, [])

/-! ## Translations and bound regions (R257–R259) -/

/-- The TFENCE scope reaches a holder of cached translations (R256, R257). -/
def fenceReaches (sc : TScope) (core holder : Nat) : Bool :=
  match sc with
  | .yard => holder == core || holder == 1000 + core / 8
  | _ => true

/-- The addresses that a walk-cache entry covers, as a translation of them. -/
def WalkEntry.span (e : WalkEntry) : TlbEntry :=
  { holder := 1000 + e.yard, asid := e.asid, va := e.va, size := levelShift e.lv, pte := e.pte }

/-- Discards the cached translations and walk-cache entries of an address-space id that satisfy a test. -/
def discard (s : State) (sc : TScope) (core asid : Nat) (hit : TlbEntry → Bool) : State :=
  { s with tlb := s.tlb.filter fun t => !(t.asid == asid && fenceReaches sc core t.holder && hit t)
           wcache := s.wcache.filter fun e => !(e.asid == asid && fenceReaches sc core (1000 + e.yard) && hit e.span) }

/-- The relMet level of a TFENCE: earlier stores acknowledged by their homes, at system scope by the host too. -/
def tfenceLevel (sc : TScope) : Nat := match sc with | .system => 4 | _ => 3

/-- TFENCE (R257). -/
def execTfence (g : Guard) (sc : TScope) (s : State) : Host.Outcome State Fault Refusal :=
  issueUni s g { rel := tfenceLevel sc } fun s _ => (s, [])

/-- A cached entry covers part of [a, a + n). -/
def TlbEntry.overlaps (t : TlbEntry) (a n : Nat) : Bool := t.va * 2 ^ t.size < a + n && a < (t.va + 1) * 2 ^ t.size

/-- TFENCE.RANGE (R257). -/
def execTfenceRange (g : Guard) (sc : TScope) (a b : Nat) (s : State) : Host.Outcome State Fault Refusal :=
  issueUni s g { sr := [a, b], rel := tfenceLevel sc } fun s c =>
    match s.warp? c.g with
    | none => (s, [])
    | some w =>
      let p := w.sget a
      let n := (w.sget b).toNat
      if n ≠ 0 && !(ptrWellFormed p && spaceOf p ≤ 5) then
        trapAll s c { cause := 0x10, detail := if ptrWellFormed p then 6 else 1, addr := p }
      else (discard s sc (coreOf c.g) (s.asidOf c.g) fun t => n != 0 && t.overlaps (nbits p.toNat 0 57) n, [])

/-- TFENCE.ALL (R257). -/
def execTfenceAll (g : Guard) (sc : TScope) (s : State) : Host.Outcome State Fault Refusal :=
  issueUni s g { rel := tfenceLevel sc } fun s c => (discard s sc (coreOf c.g) (s.asidOf c.g) fun _ => true, [])

/-- A binding is one of a block's word (R258). -/
def bindsWord (block : Nat) (p : DWord) (x : Binding) : Bool := x.block == block && nbits x.word.toNat 0 57 == nbits p.toNat 0 57

/-- BIND (R258); `size` is log2 of the word's bytes. -/
def execBind (g : Guard) (size : Nat) (base start len : Nat) (s : State) : Host.Outcome State Fault Refusal :=
  issueUni s g { sr := [base, start, len] } fun s c =>
    match s.warp? c.g with
    | none => (s, [])
    | some w =>
      let p := w.sget base
      let a := w.sget start
      let n := (w.sget len).toNat
      if !(ptrWellFormed p && spaceOf p ≤ 3 && p.toNat % 2 ^ size == 0) then trapAll s c { cause := 0x10, detail := 1, addr := p }
      else if !(ptrWellFormed a && spaceOf a ≤ 3 && a.toNat % 128 == 0 && n % 128 == 0 && 128 ≤ n && n ≤ 2 ^ 40) then
        trapAll s c { cause := 0x10, detail := 2, addr := a }
      else
        let core := s.core (coreOf c.g)
        let rest := core.bindings.filter fun x => !bindsWord w.block p x
        if rest.length < 32 then
          (s.modCore (coreOf c.g) fun k =>
            { k with bindings := rest ++ [{ block := w.block, word := p, size := size, start := nbits a.toNat 0 57, len := n }] }, [])
        else (s.count .bindOverflow 1, [])

/-- UNBIND (R259). -/
def execUnbind (g : Guard) (size : Nat) (base : Nat) (s : State) : Host.Outcome State Fault Refusal :=
  issueUni s g { sr := [base] } fun s c =>
    match s.warp? c.g with
    | none => (s, [])
    | some w =>
      let p := w.sget base
      (s.modCore (coreOf c.g) fun k => { k with bindings := k.bindings.filter fun x =>
        !(x.block == w.block && x.size == size && nbits x.word.toNat 0 57 == nbits p.toNat 0 57) }, [])

/-- One line of an IPF: fetched into the yard's instruction cache if it can be read. Bits [63:57] of a register base are part of it: a base from 2^57 on
names no code, and is dropped (log entry 63). -/
def ipfLine (g : Nat) (first : Int) (s : State) (i : Nat) : State :=
  let vl := (first + (i : Int)) % ((2 ^ 57 : Nat) : Int)
  match readCodeLine s (coreOf g) (s.asidOf g) vl.toNat with
  | .ok ws => s.putLine (coreOf g / 8) (s.asidOf g) vl.toNat ws
  | .error _ => s

/-- IPF (R133). -/
def execIpf (g : Guard) (a : Nat) (d : Int) (n : Nat) (s : State) : Host.Outcome State Fault Refusal :=
  issueUni s g { sr := [a] } fun s c =>
    match s.warp? c.g with
    | none => (s, [])
    | some w =>
      let base := if a = 63 then c.e.pc.toNat / 128 else (w.sget a).toNat / 128
      (forEach (List.range n) s (ipfLine c.g (((base : Nat) : Int) + d)), [])

/-- The entry that a walk leaves with a holder. -/
def walked (holder asid va : Nat) (l : Leaf) : TlbEntry :=
  { holder := holder, asid := asid, va := va / 2 ^ l.size, size := l.size, pte := BitVec.ofNat 64 l.pte }

/-- A holder's cached translations, the oldest giving way when it is full. -/
def tlbAdd (t : List TlbEntry) (e : TlbEntry) (cap : Nat) : List TlbEntry :=
  let mine := t.filter fun x => x.holder == e.holder
  if t.contains e then t
  else if mine.length < cap then t ++ [e]
  else match mine with
    | old :: _ => (t.erase old) ++ [e]
    | [] => t

/-- The walk-cache entries that a walk leaves in a yard: the non-leaf entries that it has read (R256). -/
def walkLeaves (yard asid va : Nat) (steps : List WalkStep) : List WalkEntry :=
  (steps.filter fun e => nbits e.pte 1 1 = 0).map fun e =>
    { yard := yard, asid := asid, lv := e.lv, va := va / 2 ^ levelShift e.lv, pte := BitVec.ofNat 64 e.pte }

/-- The words that a walk reads. -/
def walkWords (steps : List WalkStep) : List Nat := steps.flatMap fun e => wordSpan e.pa 8

/-- TRANSLATION_WALK (R255, R256): a core's walk of an address, once the homes can serve its reads (R263, R270); a valid translation is cached for the core
and its yard, its non-leaf entries in the yard's walk cache. -/
def execTranslationWalk (core asid va : Nat) (s : State) : Host.Outcome State Fault Refusal :=
  let z := walkFor s core asid va
  let ws := walkWords z.1
  if !s.homeReady core [] ws then .next (s.homeAsk core .rdN [] ws)
  else
    let s := s.homeTaken core ws
    match z.2 with
    | .error _ => .next s
    | .ok l =>
      let new := (walkLeaves (core / 8) asid va z.1).filter fun e => !s.wcache.contains e
      .next { s with tlb := tlbAdd (tlbAdd s.tlb (walked core asid va l) 256) (walked (1000 + core / 8) asid va l) 8192
                     wcache := s.wcache ++ new }

end Sys2Proof.Machine
end

