-- ==== Sys2Proof/Machine/Sync.lean ====
section
/-! DEFINITION. The sync engine: uniform group 0x2 and the events of its waits (R291–R317). -/

namespace Sys2Proof.Machine

/-! ## Arriving at a barrier and waiting (R294–R303) -/

/-- The fault of an arrival, if it is not one that counts (R296, R297). -/
def arriveFault (s : State) (x : Block) (b : Nat) (w : Warp) (bar : Nat) (m : LaneMask) (cnt : Option Nat) (op : Option BarOp) :
    Option TrapInfo :=
  let br := tgetD x.bars bar {}
  let mis (d : Nat) : Option TrapInfo := some { cause := 0x21, detail := d, addr := BitVec.ofNat 64 bar }
  let overrun : Option TrapInfo := some { cause := 0x20, detail := 0, addr := BitVec.ofNat 64 bar }
  let full : Bool := match br.count with | some e => e ≤ (s.arrivals b br).length | none => false
  if (match cnt with | some e => e == 0 || x.warps < e | none => false) then mis 3
  else if (tgetD br.arrived w.idx 0 &&& m) != 0 || br.out.contains w.idx || full then overrun
  else if br.arrived.isEmpty then none
  else if br.count != cnt then mis 1
  else if br.op != op then mis 2
  else none

/-- Adds lanes to their warp's arrival in the present phase of a barrier (R294, R301). -/
def arrive (s : State) (b : Nat) (w : Warp) (bar : Nat) (m : LaneMask) (cnt : Option Nat) (op : Option BarOp) (x : DWord)
    (drop : Bool) : State :=
  let f (br : Barrier) : Barrier :=
    { br with arrived := tset br.arrived w.idx (tgetD br.arrived w.idx 0 ||| m)
              count := cnt, op := op, named := cnt.isSome
              vals := tset br.vals w.idx ((lanesOf m).foldl (fun t l => tset t l x) (tgetD br.vals w.idx []))
              dropped := if drop && !br.dropped.contains w.idx then br.dropped ++ [w.idx] else br.dropped }
  let s := s.modBlock b fun x => { x with bars := tset x.bars bar (f (tgetD x.bars bar {})) }
  (s.barContrib b bar).barTest b bar (some w.idx)

/-- What a wait on a phase that has ended returns to a warp: the last arriver's flag and the payload result (R299, R301). -/
def phaseResult (s : State) (g : Nat) (bar phase idx : Nat) : Bool × DWord :=
  match (s.blockOf g).bind fun x => tget (tgetD x.bars bar {}).ends phase with
  | none => (false, 0)
  | some e => ((if s.flagOf g Launch.det then e.det else e.lastBy) == some idx, e.res)

/-- The present phase of a barrier of a warp's block. -/
def phaseOf (s : State) (g bar : Nat) : Nat := ((s.blockOf g).map fun x => (tgetD x.bars bar {}).phase.toNat).getD 0

/-- A phase that no counted warp is left to arrive in is complete (R295). -/
def vacant (s : State) (g bar : Nat) : State :=
  match s.warp? g, s.blockOf g with
  | some w, some x =>
    let br := tgetD x.bars bar {}
    if (x.counted br).isEmpty && br.count.isNone then s.barComplete w.block bar none else s
  | _, _ => s

/-- Lanes wait for a phase: they park, or go on with the phase's results if it has ended. -/
def waitPhase (s : State) (g : Nat) (m : LaneMask) (bar phase : Nat) (qd sd : Option Nat) : State × Fates :=
  if m = 0 then (s, [])
  else
    let s := if phaseOf s g bar = phase then vacant s g bar else s
    match (s.warp? g).filter fun _ => phaseOf s g bar != phase with
    | none => (s, [(m, .park (.barrier bar phase qd sd true))])
    | some w =>
      let r := phaseResult s g bar phase w.idx
      let w := match qd with | some d => w.qput d r.1 | none => w
      let w := match sd with | some d => w.sput d r.2 | none => w
      (s.modWarp g fun _ => { w with tokens := tdel w.tokens bar }, [])

/-- BAR.SYNC and BARP: lanes that a handler returned to their wait do not arrive again (R303); the others arrive and wait. -/
def syncArrive (s : State) (c : Ctx) (m : LaneMask) (bar : Nat) (cnt : Option Nat) (op : Option BarOp) (x : DWord)
    (qd sd : Option Nat) : State × Fates :=
  match s.warp? c.g, s.blockOf c.g with
  | some w, some blk =>
    let ks := w.marks.filter fun k => k.bar == bar && k.pc == c.e.pc && (k.lanes &&& m) != 0
    let back := ks.foldl (fun (a : LaneMask) k => a ||| k.lanes) 0 &&& m
    let rest := m &&& ~~~ back
    let used (k : TrapMark) : TrapMark := if k.bar == bar && k.pc == c.e.pc then { k with lanes := k.lanes &&& ~~~ back } else k
    let s := s.modWarp c.g fun w => { w with marks := (w.marks.map used).filter fun k => k.lanes != 0 }
    let z := ks.foldl (fun (acc : State × Fates) k =>
      let r := waitPhase acc.1 c.g (k.lanes &&& m) bar k.phase qd sd; (r.1, acc.2 ++ r.2)) (s, [])
    if rest = 0 then z
    else
      match arriveFault z.1 blk w.block w bar rest cnt op with
      | some t => (z.1, z.2 ++ [(rest, .trap t)])
      | none =>
        let ph := phaseOf z.1 c.g bar
        let s := z.1.modWarp c.g fun w =>
          { w with tokens := tset w.tokens bar ph, marks := w.marks.filter fun k => k.bar != bar }
        let s := arrive s w.block w bar rest cnt op x false
        let r := waitPhase s c.g rest bar ph qd sd
        (r.1, z.2 ++ r.2)
  | _, _ => (s, [])

/-- The count operand of BAR and BARP: s63 names none (R300). -/
def barCount (w : Warp) (a : Nat) : Option Nat := if a = 63 then none else some (nbits (w.sget a).toNat 0 32)

/-- The lanes inside an ordered section take order-barrier; the others execute (R384). -/
def outsideOnly (s : State) (c : Ctx) (f : State → LaneMask → State × Fates) : State × Fates :=
  let i := s.insideOf c.g c.act
  if c.act &&& ~~~ i = 0 then (s, [(i, orderBarrier)])
  else
    let r := f s (c.act &&& ~~~ i)
    (r.1, (i, orderBarrier) :: r.2)

/-- BAR.SYNC (R300). -/
def execBarSync (g : Guard) (q bar a : Nat) (s : State) : Host.Outcome State Fault Refusal :=
  issueUni s g { sr := [a], rel := 2 } fun s c => outsideOnly s c fun s m =>
    match s.warp? c.g with
    | some w => syncArrive s c m bar (barCount w a) none 0 (some q) none
    | none => (s, [])

/-- BAR.ARRIVE (R298–R300). -/
def execBarArrive (g : Guard) (q bar a : Nat) (s : State) : Host.Outcome State Fault Refusal :=
  issueUni s g { sr := [a], rel := 2 } fun s c =>
    match s.warp? c.g, s.blockOf c.g with
    | some w, some blk =>
      match arriveFault s blk w.block w bar c.act (barCount w a) none with
      | some t => trapAll s c t
      | none =>
        let ph := phaseOf s c.g bar
        let s := s.modWarp c.g fun w => { w with tokens := tset w.tokens bar ph, marks := w.marks.filter fun k => k.bar != bar }
        let s := arrive s w.block w bar c.act (barCount w a) none 0 false
        (s.modWarp c.g fun w => w.qput q (phaseOf s c.g bar != ph && !s.flagOf c.g Launch.det), [])
    | _, _ => (s, [])

/-- BAR.WAIT (R298). -/
def execBarWait (g : Guard) (q bar : Nat) (s : State) : Host.Outcome State Fault Refusal :=
  issueUni s g {} fun s c => outsideOnly s c fun s m =>
    match s.warp? c.g with
    | some w => waitPhase s c.g m bar (tgetD w.tokens bar (phaseOf s c.g bar)) (some q) none
    | none => (s, [])

/-- BARP (R301). -/
def execBarp (g : Guard) (op : BarOp) (d bar b a : Nat) (s : State) : Host.Outcome State Fault Refusal :=
  issueUni s g { sr := [a, b], sw := [d], rel := 2 } fun s c => outsideOnly s c fun s m =>
    match s.warp? c.g with
    | some w => syncArrive s c m bar (barCount w a) (some op) (w.sget b) none (some d)
    | none => (s, [])

/-- BARDROP (R302). -/
def execBardrop (g : Guard) (bar : Nat) (s : State) : Host.Outcome State Fault Refusal :=
  issueUni s g { rel := 2 } fun s c =>
    match s.warp? c.g, s.blockOf c.g with
    | some w, some blk =>
      match arriveFault s blk w.block w bar c.act none none with
      | some t => trapAll s c t
      | none =>
        let s := s.modWarp c.g fun w => { w with marks := w.marks.filter fun k => k.bar != bar }
        (arrive s w.block w bar c.act none none 0 true, [])
    | _, _ => (s, [])

/-! ## Objects in memory (R291) -/

/-- The checks of a sync object of n bytes in the spaces that satisfy `ok`: where it lies, or the fate of the split. -/
def objLoc (s : State) (g : Nat) (p : DWord) (n : Nat) (k : AccKind) (ok : Nat → Bool) : Except Fate Loc :=
  if ptrWellFormed p && !ok (spaceOf p) then .error (.trap { cause := 0x10, detail := 6, addr := p })
  else
    match checkAccess s g 0 p n k with
    | .error t => .error (.trap t)
    | .ok (.wait b) => .error (.park (.member b))
    | .ok (.spad b off y) =>
      match absentOf s b off n with
      | [] => .ok (.spad b off y)
      | ls => .error (absentFate s g b ls)
    | .ok x => .ok x

/-- Device spaces; device, own and yard scratchpad; scratchpads alone. -/
def devSpaces (x : Nat) : Bool := x ≤ 3
def objSpaces (x : Nat) : Bool := x ≤ 3 || x == 8 || x == 9
def spadSpaces (x : Nat) : Bool := x == 8 || x == 9

/-- A part of an object: where it lies. -/
def Loc.plus (x : Loc) (n : Nat) : Loc :=
  match x with
  | .dev a l => .dev (a + n) l
  | .host a c => .host (a + n) c
  | .peer i o => .peer i (o + n)
  | .spad b o y => .spad b (o + n) y
  | .wait b => .wait b

/-- A number of n bytes at an offset of an object, with its poison. -/
def objNum (s : State) (x : Loc) (off n : Nat) : Nat × Bool :=
  let r := readLoc s (x.plus off) n
  (natOfLe r.1, r.2)

/-- The first poisoned word of an object's bytes [off, off + n), as a trap (R291). -/
def objPoison (s : State) (p : DWord) (x : Loc) (off n : Nat) : Option TrapInfo :=
  (firstPoison s (x.plus off) n).map fun i => poisonTrap (p + BitVec.ofNat 64 (off + i))

/-- Runs an instruction on an object: the checks, then `f` where it lies. -/
def onObject (s : State) (c : Ctx) (p : DWord) (n : Nat) (k : AccKind) (ok : Nat → Bool) (f : Loc → State × Fates) :
    State × Fates :=
  match objLoc s c.g p n k ok with
  | .error fate => (s, [(c.act, fate)])
  | .ok x => f x

/-- The device words of an object of n bytes at a pointer of warp g. -/
def ptrHome (s : State) (g : Nat) (p : DWord) (n : Nat) (k : AccKind) (ok : Nat → Bool) : List Nat :=
  match objLoc s g p n k ok with
  | .ok (.dev pa _) => wordSpan pa n
  | _ => []

/-- The device words of an object of n bytes of the split that is to issue: its home's bank ALU takes them before the instruction acts (R272, R291;
`forbid` says that deterministic mode forbids the instruction). -/
def objHome (s : State) (forbid : Bool) (base n : Nat) (k : AccKind) (ok : Nat → Bool) : List Nat :=
  match s.looking with
  | none => []
  | some (g, w, _) => if forbid && s.flagOf g Launch.det then [] else ptrHome s g (w.sget base) n k ok

/-- Words of a device line are registered for a core as by an RD-S that opens nothing (R271, R308): those that another agent owns are forwarded, and the
core is not registered for them. -/
def registerWords (s : State) (core line : Nat) (ws : BitVec 32) : State :=
  let s := forEach (maskWords line ws) (l1Room s core line none) fun s w =>
    let s := s.fillSector w
    match (s.dirLine line).ownerOf (w % 32) with
    | some a => if a = core then s else forwardNow s none w
    | none =>
      match (s.l1Word core w).filter fun x => x.st == .shared with
      | some _ => s
      | none => s.l1Set core w { st := .shared, dirty := false, val := (s.homeWord w).1, poison := (s.homeWord w).2 }
  s.modDir line fun d => d.addSharer core

/-- A warp watches its object: the core becomes a sharer of a device word (R306, R317), which the bank ALU has recalled from any owner. -/
def watch (s : State) (g : Nat) (x : Loc) (n : Nat) : State :=
  match x with
  | .dev pa _ => registerWords s (coreOf g) (pa / 128) (spanMask pa n)
  | _ => s

/-- The relMet level of a sync access to memory: its lanes' earlier writes are performed first, at system scope the host's too. -/
def syncLevel (c : Scope) : Nat := if scopeNum c = 6 then 4 else 3

/-- A parked split leaves its wait for a trap. -/
def trapParked (s : State) (g : Nat) (e : Entry) (t : TrapInfo) : State :=
  (s.modWarp g fun w => w.dropLanes e.mask).takeTraps g e.pc e.prio ((lanesOf e.mask).map fun l => (l, t))

/-- A parked split is released after its instruction, having written its s and q destinations. -/
def releaseWith (s : State) (g eid : Nat) (sd : Option (Nat × DWord)) (qd : Option (Nat × Bool)) : State :=
  s.modWarp g fun w =>
    let w := match sd with | some d => w.sput d.1 d.2 | none => w
    let w := match qd with | some d => w.qput d.1 d.2 | none => w
    w.releaseNext eid

/-! ## Counted waits (R304–R307) -/

/-- The read-modify-write of ARRIVEC, with the release before it and the acquire after it (R305). -/
def arrivecAct (s : State) (c : Ctx) (w : Warp) (ord : Order) (scope : Scope) (base opb : Nat) (x : Loc) : State :=
  let region := boundRegion s c.g (w.sget base)
  let cnt := (objNum s x 0 4).1
  let s := if isRel ord then releaseAct s c.g scope region else s
  let s := writeLoc s (coreOf c.g) x (leOfNat 4 ((cnt + nbits (w.sget opb).toNat 0 32) % 2 ^ 32))
  if isAcq ord then acquireAct s c.g scope region else s

/-- ARRIVEC (R305). -/
def execArrivec (g : Guard) (ord : Order) (scope : Scope) (base opb q : Nat) (s : State) : Host.Outcome State Fault Refusal :=
  issueUni s g { sr := [base, opb], rel := syncLevel scope, home := objHome s false base 8 .write objSpaces } fun s c =>
    match s.warp? c.g with
    | none => (s, [])
    | some w =>
      let p := w.sget base
      let n := nbits (w.sget opb).toNat 0 32
      let k := nbits (w.sget opb).toNat 32 32
      let det := s.flagOf c.g Launch.det
      onObject s c p 8 .write objSpaces fun x =>
        if det && n ≠ 1 then trapAll s c { cause := 0x16, detail := 0, addr := 0 }
        else
          match objPoison s p x 0 8 with
          | some t => trapAll s c t
          | none =>
            let cnt := (objNum s x 0 4).1
            let t := (objNum s x 4 4).1
            let region := boundRegion s c.g p
            let s := arrivecAct s c w ord scope base opb x
            if !det then (s.modWarp c.g fun w => w.qput q (cnt < t && t ≤ cnt + n), [])
            else if k + 1 = t then
              if t ≤ (cnt + n) % 2 ^ 32 then ((acquireAct s c.g scope region).modWarp c.g fun w => w.qput q true, [])
              else (watch s c.g x 8, [(c.act, .park (.rank p true scope q))])
            else (s.modWarp c.g fun w => w.qput q false, [])

/-- CWAIT (R306): the threshold is given, or is TARGET. -/
def execCwait (g : Guard) (useTarget : Bool) (acq : Bool) (scope : Scope) (base opb : Nat) (s : State) :
    Host.Outcome State Fault Refusal :=
  issueUni s g { sr := if useTarget then [base] else [base, opb], rel := syncLevel scope, home := objHome s false base 8 .read objSpaces } fun s c =>
    match s.warp? c.g with
    | none => (s, [])
    | some w =>
      let p := w.sget base
      onObject s c p 8 .read objSpaces fun x =>
        match objPoison s p x 0 (if useTarget then 8 else 4) with
        | some t => trapAll s c t
        | none =>
          let thr := if useTarget then none else some (nbits (w.sget opb).toNat 0 32)
          if thr.getD (objNum s x 4 4).1 ≤ (objNum s x 0 4).1 then
            (if acq then acquireAct s c.g scope (boundRegion s c.g p) else s, [])
          else (watch s c.g x 8, [(c.act, .park (.counter p thr acq scope))])

/-- CWAITB (R307). -/
def execCwaitb (g : Guard) (acq : Bool) (scope : Scope) (base opb : Nat) (s : State) : Host.Outcome State Fault Refusal :=
  issueUni s g { sr := [base, opb], rel := 1 } fun s c =>
    match s.warp? c.g with
    | none => (s, [])
    | some w =>
      let p := w.sget base
      onObject s c p 16 .read spadSpaces fun x =>
        let ph := nbits (w.sget opb).toNat 0 32
        if (objNum s x 12 1).1 % 2 = 1 then trapAll s c { cause := 0x30, detail := (objNum s x 14 1).1, addr := p }
        else if (objNum s x 8 4).1 ≠ ph then (if acq then acquireAct s c.g scope none else s, [])
        else (s, [(c.act, .park (.byteCount p ph acq scope))])

/-- The object of a parked wait, read again: where it lies, or the trap of the split. -/
def objAgain (s : State) (g : Nat) (p : DWord) (n : Nat) : Except TrapInfo Loc := checkAccess s g 0 p n .read

/-- The device words of such an object. -/
def Entry.watchWords (s : State) (g : Nat) (e : Entry) : List Nat :=
  match e.watches with
  | none => []
  | some (p, n) => match objAgain s g p n with | .ok (.dev pa _) => wordSpan pa n | _ => []

/-- The re-reads of parked splits of a core, once the homes can take them (R263, R272); until then their requests wait there. -/
def againOpen (s : State) (core : Nat) (ws : List Nat) (f : State → State) : State :=
  if s.homeReady core [] ws then f (if ws.isEmpty then s else s.aluTaken core ws) else s.homeAsk core .at [] ws

/-- A parked split reads its object again (R305–R307): it is released, takes the trap of what the read finds, or goes on watching. -/
def countAgain (s : State) (g : Nat) (e : Entry) : State :=
  match e.st with
  | .parked (.counter p thr acq scope) =>
    (match objAgain s g p 8 with
      | .error t => trapParked s g e t
      | .ok x =>
        match objPoison s p x 0 (if thr.isNone then 8 else 4) with
        | some t => trapParked s g e t
        | none =>
          if thr.getD (objNum s x 4 4).1 ≤ (objNum s x 0 4).1 then
            releaseWith (if acq then acquireAct s g scope (boundRegion s g p) else s) g e.eid none none
          else watch s g x 8)
  | .parked (.byteCount p ph acq scope) =>
    (match objAgain s g p 16 with
      | .error t => trapParked s g e t
      | .ok x =>
        if (objNum s x 12 1).1 % 2 = 1 then trapParked s g e { cause := 0x30, detail := (objNum s x 14 1).1, addr := p }
        else if (objNum s x 8 4).1 ≠ ph then releaseWith (if acq then acquireAct s g scope none else s) g e.eid none none
        else s)
  | .parked (.rank p _ scope q) =>
    (match objAgain s g p 8 with
      | .error t => trapParked s g e t
      | .ok x =>
        match objPoison s p x 0 8 with
        | some t => trapParked s g e t
        | none =>
          if (objNum s x 4 4).1 ≤ (objNum s x 0 4).1 then
            releaseWith (acquireAct s g scope (boundRegion s g p)) g e.eid none (some (q, true))
          else watch s g x 8)
  | _ => s

/-- An entry is parked in ARRIVEC for its rank. -/
def Entry.isRank (e : Entry) : Bool := match e.st with | .parked (.rank _ _ _ _) => true | _ => false

/-- CWAIT_RETEST (R306, R307). -/
def execCwaitRetest (warp entry : Nat) (s : State) : Host.Outcome State Fault Refusal :=
  match ((s.warp? warp).bind fun w => w.entry? entry).filter fun e => !e.isRank with
  | none => .next s
  | some e => .next (againOpen s (coreOf warp) (e.watchWords s warp) fun s => countAgain s warp e)

/-- ARRIVEC_RANK_RELEASE (R305). -/
def execArrivecRankRelease (warp entry : Nat) (s : State) : Host.Outcome State Fault Refusal :=
  match ((s.warp? warp).bind fun w => w.entry? entry).filter Entry.isRank with
  | none => .next s
  | some e => .next (againOpen s (coreOf warp) (e.watchWords s warp) fun s => countAgain s warp e)

/-! ## Monitors (R308–R310) -/

/-- The lanes of a split trap with deterministic-forbidden where the launch sets DET (R318). -/
def unlessDet (s : State) (c : Ctx) (f : State → State × Fates) : State × Fates :=
  if s.flagOf c.g Launch.det then trapAll s c { cause := 0x16, detail := 0, addr := 0 } else f s

/-- MONITOR (R308). -/
def execMonitor (g : Guard) (base : Nat) (s : State) : Host.Outcome State Fault Refusal :=
  issueUni s g { sr := [base], rel := 3 } fun s c => unlessDet s c fun s =>
    match s.warp? c.g with
    | none => (s, [])
    | some w =>
      let p := w.sget base
      onObject s c p 1 .read objSpaces fun x =>
        let arm (line : MonLine) : State :=
          s.modWarp c.g fun w => { w with monitor := some { line := line, armed := true, fired := false, armedAt := s.now } }
        match x with
        | .dev pa _ => (arm (.device (pa / 128)), [(c.act, .park (.registration (pa / 128)))])
        | .spad b off _ => (arm (.scratch b (off / 128)), [])
        | _ => (s, [])

/-- MONITOR_REGISTERED (R308): the registration waits for the line's words as any RD-S (R263, R272). -/
def execMonitorRegistered (warp entry : Nat) (s : State) : Host.Outcome State Fault Refusal :=
  match (s.warp? warp).bind fun w => w.entry? entry with
  | none => .next s
  | some e =>
    match e.st with
    | .parked (.registration line) =>
      let ws := maskWords line (BitVec.allOnes 32)
      if !s.homeReady (coreOf warp) [] ws then .next (s.homeAsk (coreOf warp) .rdS [] ws)
      else .next (releaseWith (registerWords (s.homeTaken (coreOf warp) ws) (coreOf warp) line (BitVec.allOnes 32)) warp entry none none)
    | _ => .next s

/-- MWAIT (R310). -/
def execMwait (g : Guard) (s : State) : Host.Outcome State Fault Refusal :=
  issueUni s g {} fun s c => unlessDet s c fun s =>
    match (s.warp? c.g).bind fun w => w.monitor with
    | none => (s, [])
    | some m =>
      if m.armed && !m.fired then (s, [(c.act, .park .monitor)])
      else (s.modWarp c.g fun w => { w with monitor := some { m with armed := false } }, [])

/-- A monitor fires 65,536 cc after its arming (R309). -/
def Warp.fireLate (w : Warp) (now : Nat) : Warp :=
  match w.monitor with
  | some m => if m.armed && !m.fired && m.armedAt + 65536 ≤ now then w.fire else w
  | none => w

/-- MONITOR_TIMEOUT (R309). -/
def execMonitorTimeout (warp : Nat) (s : State) : Host.Outcome State Fault Refusal := .next (s.modWarp warp fun w => w.fireLate s.now)

/-! ## Queues (R311–R314) -/

/-- The fields of a queue header (R312). -/
structure QueueHdr where
  head  : Nat
  tail  : Nat
  cap   : Nat
  slots : DWord
  wcnt  : Nat
  deriving DecidableEq, Repr

def queueHdr (s : State) (x : Loc) : QueueHdr :=
  { head := (objNum s x 0 4).1, tail := (objNum s x 4 4).1, cap := (objNum s x 8 4).1
    slots := BitVec.ofNat 64 (objNum s x 0x10 8).1, wcnt := (objNum s x 0x18 1).1 }

/-- A header is well formed (R312). -/
def QueueHdr.ok (h : QueueHdr) : Bool :=
  1 ≤ h.cap && h.cap ≤ 2 ^ 24 && ptrWellFormed h.slots && spaceOf h.slots ≤ 3 && h.slots.toNat % 16 == 0 && h.wcnt ≤ 8

/-- The pointer to the slot of an index. -/
def QueueHdr.slot (h : QueueHdr) (i : Nat) : DWord := addOffset h.slots (16 * (i % h.cap) : Nat)

/-- Device physical address of an object there. -/
def Loc.pa : Loc → Nat
  | .dev a _ => a
  | _ => 0

/-- Writes WCNT and the waiter links, which the device keeps in a form of its own (R312). -/
def putWaiters (s : State) (core : Nat) (x : Loc) (l : List (Nat × Nat)) : State :=
  let s := { s with waiters := if l.isEmpty then tdel s.waiters x.pa else tset s.waiters x.pa l }
  let s := writeLoc s core (x.plus 0x18) [BitVec.ofNat 8 l.length]
  let d := s.fresh
  writeLoc { s with fresh := d + 32 } core (x.plus 0x20) ((List.range 32).map fun i => Config.freeWaiterByte (d + i))

/-- The device words that a slot step works on: ITEM and SEQ. -/
def slotWords (x : Loc) : List Nat := match x with | .dev pa _ => wordSpan pa 12 | _ => []

/-- The slot step of a push (R313): done, still to wait for SEQ or for the slot's home, or a trap. -/
def pushStep (s : State) (g : Nat) (slot : DWord) (i : Nat) (item : DWord) : Except TrapInfo (Option State) :=
  match checkAccess s g 0 slot 16 .write with
  | .error t => .error t
  | .ok x =>
    if !s.homeReady (coreOf g) [] (slotWords x) then .ok none else
    let s := s.aluTaken (coreOf g) (slotWords x)
    match objPoison s slot x 8 4 with
    | some t => .error t
    | none =>
      if (objNum s x 8 4).1 = i % 2 ^ 32 then
        .ok (some (writeLoc s (coreOf g) x (leOfNat 8 item.toNat ++ leOfNat 4 ((i + 1) % 2 ^ 32))))
      else .ok none

/-- The slot step of a pop (R313): the item. -/
def popStep (s : State) (g : Nat) (slot : DWord) (i cap : Nat) : Except TrapInfo (Option (State × DWord)) :=
  match checkAccess s g 0 slot 16 .write with
  | .error t => .error t
  | .ok x =>
    if !s.homeReady (coreOf g) [] (slotWords x) then .ok none else
    let s := s.aluTaken (coreOf g) (slotWords x)
    match objPoison s slot x 8 4 with
    | some t => .error t
    | none =>
      if (objNum s x 8 4).1 = (i + 1) % 2 ^ 32 then
        match objPoison s slot x 0 8 with
        | some t => .error t
        | none =>
          let v := BitVec.ofNat 64 (objNum s x 0 8).1
          .ok (some (acquireAct (writeLoc s (coreOf g) (x.plus 8) (leOfNat 4 ((i + cap) % 2 ^ 32))) g .device none, v))
      else .ok none

/-- Hands an item to the first linked waiter that still waits (R313, R314): its warp receives it and is released. -/
def handOff (s : State) (core : Nat) (x : Loc) (item : DWord) (l : List (Nat × Nat)) : Option State :=
  match l with
  | [] => none
  | (g, k) :: rest =>
    let linked (e : Entry) : Bool := match e.st with | .parked (.queueLink n _ _) => n == k | _ => false
    match (s.warp? g).bind fun w => w.entries.find? linked with
    | some e =>
      (match e.st with
        | .parked (.queueLink _ sd qd) =>
          some (acquireAct (releaseWith (putWaiters s core x rest) g e.eid (some (sd, item)) (some (qd, true))) g .device none)
        | _ => none)
    | none => handOff s core x item rest

/-- The header of a queue operation, checked (R291, R312). -/
def onQueue (s : State) (c : Ctx) (p : DWord) (f : Loc → QueueHdr → State × Fates) : State × Fates :=
  onObject s c p 128 .write devSpaces fun x =>
    match objPoison s p x 0 0x0C, objPoison s p x 0x10 0x0C with
    | some t, _ => trapAll s c t
    | none, some t => trapAll s c t
    | none, none =>
      let h := queueHdr s x
      if h.ok then f x h else trapAll s c { cause := 0x22, detail := 1, addr := p }

/-- QPUSH (R313). -/
def execQpush (g : Guard) (base opb q : Nat) (s : State) : Host.Outcome State Fault Refusal :=
  issueUni s g { sr := [base, opb], rel := 3, home := objHome s true base 128 .write devSpaces } fun s c => unlessDet s c fun s =>
    match s.warp? c.g with
    | none => (s, [])
    | some w =>
      let item := w.sget opb
      onQueue s c (w.sget base) fun x h =>
        let s := releaseAct s c.g .device none
        match (if 0 < h.wcnt then handOff s (coreOf c.g) x item (tgetD s.waiters x.pa []) else none) with
        | some t => (t.modWarp c.g fun w => w.qput q true, [])
        | none =>
          if (h.tail + 2 ^ 32 - h.head) % 2 ^ 32 < h.cap then
            let s := writeLoc s (coreOf c.g) (x.plus 4) (leOfNat 4 ((h.tail + 1) % 2 ^ 32))
            match pushStep s c.g (h.slot h.tail) h.tail item with
            | .error t => trapAll s c t
            | .ok (some t) => (t.modWarp c.g fun w => w.qput q true, [])
            | .ok none => (s, [(c.act, .park (.queuePush (h.slot h.tail) h.tail item q))])
          else (s.modWarp c.g fun w => w.qput q false, [])

/-- QPOP (R313). -/
def execQpop (g : Guard) (d base q : Nat) (s : State) : Host.Outcome State Fault Refusal :=
  issueUni s g { sr := [base], sw := [d], rel := 3, home := objHome s true base 128 .write devSpaces } fun s c => unlessDet s c fun s =>
    match s.warp? c.g with
    | none => (s, [])
    | some w =>
      onQueue s c (w.sget base) fun x h =>
        if h.tail ≠ h.head then
          let s := writeLoc s (coreOf c.g) x (leOfNat 4 ((h.head + 1) % 2 ^ 32))
          match popStep s c.g (h.slot h.head) h.head h.cap with
          | .error t => trapAll s c t
          | .ok (some r) => (r.1.modWarp c.g fun w => (w.sput d r.2).qput q true, [])
          | .ok none => (s, [(c.act, .park (.queuePop (h.slot h.head) h.head h.cap d q))])
        else if s.svcMode % 4 ≠ 0 && h.wcnt < 8 then
          let n := s.newId
          let s := putWaiters n.1 (coreOf c.g) x (tgetD s.waiters x.pa [] ++ [(c.g, n.2)])
          (s, [(c.act, .park (.queueLink n.2 d q))])
        else (s.modWarp c.g fun w => w.qput q false, [])

/-- The request of a slot step that its home cannot take yet. -/
def slotAsk (s : State) (g : Nat) (slot : DWord) : State :=
  match checkAccess s g 0 slot 16 .write with
  | .ok x => s.homeAsk (coreOf g) .at [] (slotWords x)
  | .error _ => s

/-- QUEUE_SLOT_STEP (R313). -/
def execQueueSlotStep (warp entry : Nat) (s : State) : Host.Outcome State Fault Refusal :=
  match (s.warp? warp).bind fun w => w.entry? entry with
  | none => .next s
  | some e =>
    match e.st with
    | .parked (.queuePush slot i item q) =>
      (match pushStep s warp slot i item with
        | .error t => .next (trapParked s warp e t)
        | .ok (some s) => .next (releaseWith s warp entry none (some (q, true)))
        | .ok none => .next (slotAsk s warp slot))
    | .parked (.queuePop slot i cap d q) =>
      (match popStep s warp slot i cap with
        | .error t => .next (trapParked s warp e t)
        | .ok (some r) => .next (releaseWith r.1 warp entry (some (d, r.2)) (some (q, true)))
        | .ok none => .next (slotAsk s warp slot))
    | _ => .next s

/-! ## Futures (R315–R317) -/

/-- A future's STATE, or the trap of a split that reads it (R291, R315). -/
def futureState (s : State) (p : DWord) (x : Loc) : Except TrapInfo Nat :=
  match objPoison s p x 8 4 with
  | some t => .error t
  | none =>
    let n := (objNum s x 8 4).1
    if 1 < n then .error { cause := 0x22, detail := 2, addr := p } else .ok n

/-- The key in the acceptance table of a block's scratchpad, beside those of the slices. -/
def spadKey (b : Nat) : Nat := 2 ^ 40 + b

/-- The relMet level of a FULFIL: one to a scratchpad waits where a higher agent has gone before it in this cc (R322). -/
def fulfilLevel (s : State) (base : Nat) : Nat :=
  match s.looking with
  | none => 3
  | some (g, w, _) =>
    match objLoc s g (w.sget base) 16 .write objSpaces with
    | .ok (.spad b _ _) =>
      (match tget s.accepts (spadKey b) with
        | some a => if a.1 = s.now && coreOf g < a.2 then 9 else 3
        | none => 3)
    | _ => 3

/-- A FULFIL acts on a future: every registered copy of the future's words is invalidated (R316), and a scratchpad has had its turn (R322). -/
def fulfilActs (s : State) (core : Nat) (x : Loc) : State :=
  match x with
  | .dev pa _ => forEach (wordSpan pa 16) s State.invNow
  | .spad b _ _ => { s with accepts := tset s.accepts (spadKey b) (s.now, core) }
  | _ => s

/-- FULFIL (R316). -/
def execFulfil (g : Guard) (base opb q : Nat) (s : State) : Host.Outcome State Fault Refusal :=
  issueUni s g { sr := [base, opb], rel := fulfilLevel s base, home := objHome s true base 16 .write objSpaces } fun s c => unlessDet s c fun s =>
    match s.warp? c.g with
    | none => (s, [])
    | some w =>
      let p := w.sget base
      onObject s c p 16 .write objSpaces fun x =>
        match futureState s p x with
        | .error t => trapAll s c t
        | .ok n =>
          let s := fulfilActs (releaseAct s c.g .device none) (coreOf c.g) x
          if n = 0 then
            let s := writeLoc s (coreOf c.g) x (leOfNat 8 (w.sget opb).toNat ++ leOfNat 4 1)
            (s.modWarp c.g fun w => w.qput q true, [])
          else (s.modWarp c.g fun w => w.qput q false, [])

/-- A Stall-table entry is the one that a split of warp w joins for a future (R317). -/
def stallOf (s : State) (g : Nat) (w : Warp) (p : DWord) (e : StallEntry) : Bool :=
  e.addr == p && e.asid == s.asidOf g && (spaceOf p ≤ 3 || e.block == w.block)

/-- PARK (R317): the core registers as a sharer of the future, then reads it. -/
def execPark (g : Guard) (d base q : Nat) (s : State) : Host.Outcome State Fault Refusal :=
  issueUni s g { sr := [base], sw := [d], rel := 3, home := objHome s true base 16 .read objSpaces } fun s c => unlessDet s c fun s =>
    match s.warp? c.g with
    | none => (s, [])
    | some w =>
      let p := w.sget base
      onObject s c p 16 .read objSpaces fun x =>
        let s := watch s c.g x 16
        match futureState s p x with
        | .error t => trapAll s c t
        | .ok n =>
          if n = 1 then
            match objPoison s p x 0 8 with
            | some t => trapAll s c t
            | none =>
              let v := BitVec.ofNat 64 (objNum s x 0 8).1
              ((acquireAct s c.g .device none).modWarp c.g fun w => (w.sput d v).qput q true, [])
          else
            let core := s.core (coreOf c.g)
            if core.stall.any (stallOf s c.g w p) then (s, [(c.act, .park (.future p d q))])
            else if core.stall.length < 128 then
              (s.modCore (coreOf c.g) fun k => { k with stall := k.stall ++ [{ addr := p, asid := s.asidOf c.g, block := w.block }] },
                [(c.act, .park (.future p d q))])
            else ((s.count .stallOverflow 1).modWarp c.g fun w => w.qput q false, [(c.act, .park (.sleep (s.now + 256)))])

/-- The splits of a core that wait on a Stall-table entry. -/
def stallSplits (s : State) (core : Nat) (e : StallEntry) : List (Nat × Entry) :=
  s.warps.flatMap fun x => (x.2.entries.filter fun y => stallWaits s core e x.1 x.2 y).map fun y => (x.1, y)

/-- The re-test of one parked split (R317): it is released, or takes the trap of what the re-read finds. -/
def parkAgain (s : State) (x : Nat × Entry) : State :=
  match x.2.st with
  | .parked (.future p d q) =>
    (match objAgain s x.1 p 16 with
      | .error t => trapParked s x.1 x.2 t
      | .ok l =>
        match futureState s p l with
        | .error t => trapParked s x.1 x.2 t
        | .ok n =>
          if n = 1 then
            match objPoison s p l 0 8 with
            | some t => trapParked s x.1 x.2 t
            | none => acquireAct (releaseWith s x.1 x.2.eid (some (d, BitVec.ofNat 64 (objNum s l 0 8).1)) (some (q, true))) x.1 .device none
          else watch s x.1 l 16)
  | _ => s

/-- PARK_RETEST (R317): every split of the entry is released, or takes the trap of what the re-read finds. -/
def execParkRetest (core addr : Nat) (s : State) : Host.Outcome State Fault Refusal :=
  let xs := ((s.core core).stall.filter fun e => e.addr.toNat == addr).flatMap (stallSplits s core)
  .next (againOpen s core (xs.flatMap fun x => x.2.watchWords s x.1).dedup fun s => (forEach xs s parkAgain).stallTidy core)

/-- The line that an object lies on now. -/
def objLine (s : State) (g : Nat) (p : DWord) (n : Nat) : Option MonLine :=
  match objAgain s g p n with
  | .ok (.dev pa _) => some (.device (pa / 128))
  | .ok (.spad b off _) => some (.scratch b (off / 128))
  | _ => none

/-- The device words that the splits of a warp watch on a line. -/
def retestWords (s : State) (r : Nat × MonLine) : List Nat :=
  match s.warp? r.1, r.2 with
  | some w, .device line => ((w.entries.flatMap fun e => e.watchWords s r.1).filter fun x => x / 32 == line).dedup
  | _, _ => []

/-- A re-read of a line can take place: the homes can take it (R263, R272). -/
def retestOpen (s : State) (r : Nat × MonLine) : Bool := s.homeReady (coreOf r.1) [] (retestWords s r)

/-- The requests of the re-reads that cannot take place yet. -/
def State.retestAsks (s : State) : State :=
  forEach (s.retests.filter fun r => !retestOpen s r) s fun s r => s.homeAsk (coreOf r.1) .at [] (retestWords s r)

/-- The splits of a warp that watch an object on a line that has been touched read it again (R306, R307, R317). -/
def State.retest (s : State) (r : Nat × MonLine) : State :=
  let s := { s with retests := s.retests.erase r }
  match s.warp? r.1 with
  | none => s
  | some w =>
    let s := s.aluTaken (coreOf r.1) (retestWords s r)
    let s := forEach w.entries s fun s e =>
      match e.watches with
      | none => s
      | some (p, n) => if objLine s r.1 p n = some r.2 then parkAgain (countAgain s r.1 e) (r.1, e) else s
    s.stallTidy (coreOf r.1)

/-- SLEEP_WAKE (R130). -/
def execSleepWake (warp entry : Nat) (s : State) : Host.Outcome State Fault Refusal :=
  match (s.warp? warp).bind fun w => w.entry? entry with
  | none => .next s
  | some e =>
    match e.st with
    | .parked (.sleep u) => if u ≤ s.now then .next (releaseWith s warp entry none none) else .next s
    | _ => .next s

end Sys2Proof.Machine
end

