-- ==== Sys2Proof/Machine/Cross.lean ====
section
/-! DEFINITION. Lane group 0x4: cross-lane, reduction, random-number, identity, clock and poison-test instructions
(R197–R202, R82). -/

namespace Sys2Proof.Machine

/-! ## Moves between lanes (R197) -/

/-- The source lane of XLANE (R197), if it is a lane number. -/
def xlaneSrc (mode : XMode) (l b : Nat) : Option Nat :=
  match mode with
  | .at => if b < 32 then some b else none
  | .back => if b ≤ l then some (l - b) else none
  | .fwd => if l + b < 32 then some (l + b) else none
  | .flip => if b < 32 then some (l ^^^ b) else none

/-- The lane whose A a lane of an XLANE takes: the source if it is active, else its own. -/
def xlaneTakes (mode : XMode) (act : LaneMask) (l b : Nat) : Nat := ((xlaneSrc mode l b).filter fun k => act.getLsbD k).getD l

/-- The lanes in which XLANE reads A, which B's values select; every active lane reads B. -/
def xlaneSeen (s : State) (g : Guard) (mode : XMode) (a b : Src) : List (Nat × LaneMask) :=
  match lookingLanes s g with
  | none => []
  | some (_, w, _, act) =>
    if a.reg = b.reg then [] else [(a.reg, maskOf ((lanesOf act).map fun l => xlaneTakes mode act l (vread w b 1 l).1))]

def execXlane (g : Guard) (la : Nat) (mode : XMode) (p : Nat) (d : Nat) (a b : Src) (s : State) :
    Host.Outcome State Fault Refusal :=
  laneOp s g la { (((srcOpnds [(a, 1), (b, 1)]).toV d 1).toP p) with seen := xlaneSeen s g mode a b } fun _ c w l =>
    let ix := vread w b 1 l
    let x := vread w a 1 (xlaneTakes mode c.act l ix.1)
    { v := [(d, 1, x.1, x.2 || ix.2)], p := [(p, ((xlaneSrc mode l ix.1).filter fun k => c.act.getLsbD k).isSome, ix.2)] }

/-- The lane whose A a lane of a QUADX takes. -/
def quadTakes (pat : Nat) (act : LaneMask) (l : Nat) : Nat :=
  let k := l - l % 4 + nbits pat (2 * (l % 4)) 2
  if act.getLsbD k then k else l

/-- The lanes in which QUADX reads A. -/
def quadSeen (s : State) (g : Guard) (pat : Nat) (a : Src) : List (Nat × LaneMask) :=
  match lookingLanes s g with
  | none => []
  | some (_, _, _, act) => [(a.reg, maskOf ((lanesOf act).map (quadTakes pat act)))]

def execQuadx (g : Guard) (la : Nat) (pat : Nat) (d : Nat) (a : Src) (s : State) : Host.Outcome State Fault Refusal :=
  laneOp s g la { ((srcOpnds [(a, 1)]).toV d 1) with seen := quadSeen s g pat a } fun _ c w l =>
    let x := vread w a 1 (quadTakes pat c.act l)
    vout d 1 x.1 x.2

/-! ## Predicates and masks (R198) -/

/-- The active lanes where a predicate is true; whether one of them is poisoned. -/
def pollLanes (w : Warp) (act : LaneMask) (p : Nat) : LaneMask := maskOf ((lanesOf act).filter fun l => w.pget p l)
def pollPoison (w : Warp) (act : LaneMask) (p : Nat) : Bool := (lanesOf act).any fun l => w.ppoison p l

def execPollMask (g : Guard) (d p : Nat) (s : State) : Host.Outcome State Fault Refusal :=
  laneOp s g 0 ((({} : Opnds).toV d 1).fromP p) fun _ c w _ =>
    vout d 1 (pollLanes w c.act p).toNat (pollPoison w c.act p)

/-- POLL.ANY, POLL.ALL and POLL.SAME. -/
def pollP (s : State) (g : Guard) (d p : Nat) (f : LaneMask → LaneMask → Bool) : Host.Outcome State Fault Refusal :=
  laneOp s g 0 ((({} : Opnds).toP d).fromP p) fun _ c w _ =>
    { p := [(d, f (pollLanes w c.act p) c.act, pollPoison w c.act p)] }

def execPollAny (g : Guard) (d p : Nat) (s : State) : Host.Outcome State Fault Refusal := pollP s g d p fun t _ => t != 0
def execPollAll (g : Guard) (d p : Nat) (s : State) : Host.Outcome State Fault Refusal := pollP s g d p fun t a => t == a
def execPollSame (g : Guard) (d p : Nat) (s : State) : Host.Outcome State Fault Refusal :=
  pollP s g d p fun t a => t == a || t == 0

def execLead (g : Guard) (d : Nat) (s : State) : Host.Outcome State Fault Refusal :=
  laneOp s g 0 (({} : Opnds).toP d) fun _ c _ l => { p := [(d, l == lowLane c.act, false)] }

/-- EQMASK (R198): unpoisoned lanes are compared only with each other. -/
def execEqmask (g : Guard) (la : Nat) (t : IntTy) (d : Nat) (a : Src) (s : State) : Host.Outcome State Fault Refusal :=
  let n := ityRegs t
  laneOp s g la ((srcOpnds [(a, n)]).toV d 1) fun _ c w l =>
    let x := vread w a n l
    if x.2 then vout d 1 (2 ^ l) true
    else vout d 1 (maskOf ((lanesOf c.act).filter fun k => vread w a n k == (x.1, false))).toNat false

/-! ## Reductions and scans (R82, R199) -/

/-- A value on its way through a reduction, with its flags and poison. -/
structure RedVal where
  x      : Nat
  f      : FpFlags := {}
  poison : Bool
  deriving DecidableEq, Repr

/-- Width in registers of a reduction's values. -/
def redRegs (op : RedForm) : Nat :=
  match op with
  | .int _ t => ityRegs t
  | .fp _ t _ _ => ftyRegs t

/-- One combination x op y. -/
def redStep (op : RedForm) (x y : Nat) : Nat × FpFlags :=
  match op with
  | .int o t =>
    let w := ityWidth t
    match o with
    | .iadd => ((x + y) % 2 ^ w, {})
    | .imin => (elemwise2 t false (fun a b => if b < a then b else a) x y, {})
    | .imax => (elemwise2 t false (fun a b => if a < b then b else a) x y, {})
    | .iand => (x &&& y, {})
    | .ior => (x ||| y, {})
    | .ixor => (x ^^^ y, {})
  | .fp o t rm ftz =>
    let fmt := ftyFmt t
    match o with
    | .add => fpAdd fmt (RMode.ofRm rm) false ftz x y
    | .min => fpMinMax fmt ftz false x y
    | .max => fpMinMax fmt ftz true x y

/-- Combines two values that may be absent; absence leaves the other unchanged and raises no flag. -/
def redJoin (op : RedForm) (a b : Option RedVal) : Option RedVal :=
  match a, b with
  | some x, some y =>
    let r := redStep op x.x y.x
    some { x := r.1, f := (x.f.merge y.f).merge r.2, poison := x.poison || y.poison }
  | some x, none => some x
  | none, b => b

/-- The identity of a scan (R199). -/
def redIdentity (op : RedForm) : Nat :=
  match op with
  | .int o t =>
    let w := ityWidth t
    match o with
    | .iadd | .ior | .ixor => 0
    | .iand => 2 ^ w - 1
    | .imin => ofI w (hiOf (itySigned t) w)
    | .imax => ofI w (loOf (itySigned t) w)
  | .fp o t _ _ =>
    let fmt := ftyFmt t
    match o with
    | .add => 0
    | .min => fmt.infBits false
    | .max => fmt.infBits true

/-- The values of the lanes of a split, absent outside Active. -/
def redStart (w : Warp) (act : LaneMask) (op : RedForm) (a : Src) : List (Option RedVal) :=
  (List.range 32).map fun l =>
    if act.getLsbD l then (let x := vread w a (redRegs op) l; some { x := x.1, poison := x.2 }) else none

/-- One step of the tree of R82. -/
def treeStep (op : RedForm) (d : Nat) (l : List (Option RedVal)) : List (Option RedVal) :=
  (List.range 32).map fun i => if i % (2 * d) = 0 then redJoin op (l.getD i none) (l.getD (i + d) none) else l.getD i none

/-- One step of the scan of R199. -/
def scanStep (op : RedForm) (d : Nat) (l : List (Option RedVal)) : List (Option RedVal) :=
  (List.range 32).map fun i => if d ≤ i then redJoin op (l.getD (i - d) none) (l.getD i none) else l.getD i none

def treeReduce (op : RedForm) (l : List (Option RedVal)) : Option RedVal :=
  ([1, 2, 4, 8, 16].foldl (fun l d => treeStep op d l) l).getD 0 none

def scanAll (op : RedForm) (l : List (Option RedVal)) : List (Option RedVal) :=
  [1, 2, 4, 8, 16].foldl (fun l d => scanStep op d l) l

/-- A lane's result of a reduction; absence gives the identity. -/
def redOut (op : RedForm) (d : Nat) (r : Option RedVal) : LaneOut :=
  match r with
  | some v => fout d (redRegs op) v.poison (v.x, v.f.bits 0)
  | none => vout d (redRegs op) (redIdentity op) false

def execWred (g : Guard) (la : Nat) (op : RedForm) (d : Nat) (a : Src) (s : State) : Host.Outcome State Fault Refusal :=
  laneOp s g la ((srcOpnds [(a, redRegs op)]).toV d (redRegs op)) fun _ c w _ =>
    redOut op d (treeReduce op (redStart w c.act op a))

/-- The flags of a lane of an exclusive scan: those of its own steps too, and none if a value that it combines is poisoned (R72; DEDUCED, log entry
40). -/
def scanFlags (own : Option RedVal) (o : LaneOut) : LaneOut :=
  match own with
  | some v => { o with flags := laneFlags v.poison (o.flags ||| v.f.bits 0) }
  | none => o

def execWscan (g : Guard) (la : Nat) (ex : Bool) (op : RedForm) (d : Nat) (a : Src) (s : State) :
    Host.Outcome State Fault Refusal :=
  laneOp s g la ((srcOpnds [(a, redRegs op)]).toV d (redRegs op)) fun _ c w l =>
    let ys := scanAll op (redStart w c.act op a)
    if ex then scanFlags (ys.getD l none) (redOut op d (if l = 0 then none else ys.getD (l - 1) none)) else redOut op d (ys.getD l none)

/-! ## Bytes (R200) -/

/-- Byte k of a number. -/
def byteN (x k : Nat) : Nat := nbits x (8 * k) 8

def bytepSelByte (x c : Nat) : Nat :=
  if nbits c 7 1 = 1 then 0
  else
    let y := byteN x (nbits c 0 3)
    if nbits c 6 1 = 0 then y else if nbits y 7 1 = 1 then 0xFF else 0

def execBytepSel (g : Guard) (d : Nat) (a b c : Src) (s : State) : Host.Outcome State Fault Refusal :=
  laneOp s g 0 ((srcOpnds [(a, 1), (b, 1), (c, 1)]).toV d 1) fun _ _ w l =>
    let x := vread w a 1 l
    let y := vread w b 1 l
    let z := vread w c 1 l
    vout d 1 (packElems 8 ((List.range 4).map fun k => bytepSelByte (y.1 * 2 ^ 32 + x.1) (byteN z.1 k))) (x.2 || y.2 || z.2)

/-- The table lookups: nibble lo or hi of each byte of B indexes the 16 bytes of A. -/
def bytepLut (s : State) (g : Guard) (hi : Nat) (d : Nat) (a b : Src) : Host.Outcome State Fault Refusal :=
  laneOp s g 0 ((srcOpnds [(a, 4), (b, 1)]).toV d 1) fun _ _ w l =>
    let x := vread w a 4 l
    let y := vread w b 1 l
    vout d 1 (packElems 8 ((List.range 4).map fun k => byteN x.1 (nbits (byteN y.1 k) (4 * hi) 4))) (x.2 || y.2)

def execBytepLut16L (g : Guard) (d : Nat) (a b : Src) (s : State) : Host.Outcome State Fault Refusal := bytepLut s g 0 d a b
def execBytepLut16H (g : Guard) (d : Nat) (a b : Src) (s : State) : Host.Outcome State Fault Refusal := bytepLut s g 1 d a b

/-! ## Random numbers (R201) -/

/-- x rotated left by n bits. -/
def rotl32 (x : Word) (n : Nat) : Word := x.rotateLeft n

/-- One round of Gen and the key injection after an odd round. -/
def genRound (k : List Word) (i ra rb : Nat) (x : Word × Word × Word × Word) : Word × Word × Word × Word :=
  let x0 := x.1 + x.2.1
  let x3 := rotl32 (x.2.2.2 ^^^ x0) ra
  let x2 := x.2.2.1 + x3
  let x1 := rotl32 (x.2.1 ^^^ x2) rb
  if i % 2 = 1 then
    let j := (i + 1) / 2
    (x0 + k.getD (j % 4) 0, x1 + k.getD ((j + 1) % 4) 0, x2 + k.getD ((j + 2) % 4) 0,
      x3 + k.getD ((j + 3) % 4) 0 + BitVec.ofNat 32 j)
  else (x0, x1, x2, x3)

/-- Gen(k, id, ctr) (R201). -/
def gen (k id : DWord) (ctr : Nat) : List Word :=
  let key : List Word := [k.setWidth 32, (k >>> 32).setWidth 32, id.setWidth 32, (id >>> 32).setWidth 32]
  let ra := [7, 11, 5, 9, 15, 12, 6, 14, 8, 16]
  let rb := [13, 17, 19, 23, 3, 25, 21, 10, 27, 4]
  let x : Word × Word × Word × Word :=
    (BitVec.ofNat 32 (nbits ctr 0 32) ^^^ key.getD 0 0, BitVec.ofNat 32 (nbits ctr 32 32) ^^^ key.getD 1 0,
      key.getD 2 0 ^^^ 0x5EA17A3F, key.getD 3 0 ^^^ 0xB0C2D19E)
  let r := (List.range 10).foldl (fun x i => genRound key i (ra.getD i 0) (rb.getD i 0) x) x
  [r.1, r.2.1, r.2.2.1, r.2.2.2]

/-- The lanes in which RNG writes pW: those whose counter wraps. -/
def rngPut (s : State) (g : Guard) (p : Nat) (a : Src) : List (Nat × LaneMask) :=
  match lookingLanes s g with
  | none => []
  | some (_, w, _, act) => [(p, maskOf ((lanesOf act).filter fun l => (vread w a 2 l).1 == 2 ^ 64 - 1))]

/-- RNG (R201): four words to D, the counter grown in A, pW set in a lane whose counter wraps. -/
def execRng (g : Guard) (la : Nat) (p : Nat) (d : Nat) (a : Src) (s : State) : Host.Outcome State Fault Refusal :=
  laneOp s g la { ((((srcOpnds [(a, 2)]).toV d 4).toV a.reg 2).toP p) with put := rngPut s g p a } fun s c w l =>
    let x := vread w a 2 l
    let id := ((s.blockOf c.g).map fun b => laneWid b w l).getD 0
    let seed := ((s.launchOf c.g).map Launch.seed).getD 0
    let ws := gen seed id x.1
    let wrap := x.1 == 2 ^ 64 - 1
    { v := [(d, 4, packElems 32 (ws.map fun y => y.toNat), x.2), (a.reg, 2, (x.1 + 1) % 2 ^ 64, x.2)]
      p := [if wrap then (p, true, x.2) else (p, w.pget p l, w.ppoison p l)] }

/-! ## Identity, clock, poison (R202, R155) -/

/-- TCAUSE of a lane (R155). -/
def tcauseOf (t : LaneTrap) : Nat := (if t.inh then 2 ^ 31 else 0) + t.tprio % 64 * 2 ^ 24 + t.detail % 256 * 2 ^ 8 + t.cause % 256

/-- The value that WIDR reads in a lane. -/
def widrVal (s : State) (c : Ctx) (w : Warp) (sel : WidSel) (l : Nat) : Nat :=
  match sel with
  | .wid => (((s.blockOf c.g).map fun b => laneWid b w l).getD 0).toNat
  | .lane => l
  | .warp => w.idx
  | .tcause => tcauseOf (w.trapOf l)
  | .tpc => (w.trapOf l).tpc.toNat
  | .taddr => (w.trapOf l).taddr.toNat
  | .depth => w.depthOf l
  | .active => c.act.toNat
  | .split => c.lanes.toNat

def execWidr (g : Guard) (sel : WidSel) (d : Nat) (s : State) : Host.Outcome State Fault Refusal :=
  laneOp s g 0 (({} : Opnds).toV d 2) fun s c w l => vout d 2 (widrVal s c w sel l) false

/-- CLOCK (R202): the core's cycles since reset, or device time in ns to within 32 ns. The reset of the cycle count is the device's: a core that the
Farrier resets alone (R279) goes on counting (log entry 137). -/
def clockVal (s : State) (core : Nat) (dev : Bool) : Nat :=
  if dev then s.devNs + Config.devSkew core s.now % 33 else s.now

def execClock (g : Guard) (dev : Bool) (d : Nat) (s : State) : Host.Outcome State Fault Refusal :=
  laneOp s g 0 (({} : Opnds).toV d 2) fun s c _ _ => vout d 2 (clockVal s (coreOf c.g) dev % 2 ^ 64) false

def execPtst (g : Guard) (d : Nat) (a : Src) (s : State) : Host.Outcome State Fault Refusal :=
  laneOp s g 0 ((srcOpnds [(a, 1)]).toP d) fun _ _ w l => { p := [(d, (vread w a 1 l).2, false)] }
def execPtstClr (g : Guard) (d : Nat) (a : Src) (s : State) : Host.Outcome State Fault Refusal :=
  laneOp s g 0 ((srcOpnds [(a, 1)]).toV d 1) fun _ _ w l => vout d 1 (vread w a 1 l).1 false

end Sys2Proof.Machine
end

