-- ==== Sys2Proof/Machine/Uniform.lean ====
section
/-! DEFINITION. Uniform group 0x0: moves, integer operations, moves between lanes and uniform registers, special registers
and tile shapes (R205–R222). -/

namespace Sys2Proof.Machine

/-- A uniform instruction with s sources and destinations: its body changes the warp alone. -/
def uniOp (s : State) (g : Guard) (o : Opnds) (f : State → Ctx → Warp → Warp) : Host.Outcome State Fault Refusal :=
  issueUni s g o fun s c => (s.modWarp c.g (f s c), [])

/-! ## Moves and immediates (R209, R210) -/

def execUmov (g : Guard) (d a : Nat) (s : State) : Host.Outcome State Fault Refusal :=
  uniOp s g { sr := [a], sw := [d] } fun _ _ w => w.sput d (w.sget a)
def execUmovQ (g : Guard) (d a : Nat) (s : State) : Host.Outcome State Fault Refusal :=
  uniOp s g {} fun _ _ w => w.qput d (w.qget a)
def execUmovQ2s (g : Guard) (d a : Nat) (s : State) : Host.Outcome State Fault Refusal :=
  uniOp s g { sw := [d] } fun _ _ w => w.sput d (if w.qget a then 1 else 0)
def execUmovS2q (g : Guard) (d a : Nat) (s : State) : Host.Outcome State Fault Refusal :=
  uniOp s g { sr := [a] } fun _ _ w => w.qput d (w.sget a != 0)
def execUmovi (g : Guard) (d imm : Nat) (s : State) : Host.Outcome State Fault Refusal :=
  uniOp s g { sw := [d] } fun _ _ w => w.sput d (BitVec.ofNat 64 (imm % 2 ^ 32))
def execUmoviHi (g : Guard) (d imm : Nat) (s : State) : Host.Outcome State Fault Refusal :=
  uniOp s g { sr := [d], sw := [d] } fun _ _ w =>
    w.sput d (BitVec.ofNat 64 (imm % 2 ^ 32 * 2 ^ 32 + nbits (w.sget d).toNat 0 32))

/-! ## Integer operations (R211–R213) -/

/-- The width of a uniform operation, its operands under W32, and the extension of its result (R211). -/
def uniW (f : UniF) : Nat := if f.w32 then 32 else 64
def uniArg (f : UniF) (x : DWord) : Nat := nbits x.toNat 0 (uniW f)
def uniExt (f : UniF) (x : Nat) : DWord :=
  if f.w32 then BitVec.ofInt 64 (toI f.s 32 (x % 2 ^ 32)) else BitVec.ofNat 64 x

/-- The immediate of a UI form. -/
def uniImm (imm : Nat) : DWord := BitVec.ofNat 64 (immInt imm 64)

/-- An operation on two operands of width w that gives a number of width w. -/
def uni2 (s : State) (f : UniF) (d a b : Nat) (op : Nat → Nat → Nat) : Host.Outcome State Fault Refusal :=
  uniOp s f.g { sr := [a, b], sw := [d] } fun _ _ w => w.sput d (uniExt f (op (uniArg f (w.sget a)) (uniArg f (w.sget b))))
def uni2i (s : State) (f : UniF) (d a imm : Nat) (op : Nat → Nat → Nat) : Host.Outcome State Fault Refusal :=
  uniOp s f.g { sr := [a], sw := [d] } fun _ _ w => w.sput d (uniExt f (op (uniArg f (w.sget a)) (uniArg f (uniImm imm))))

def uaddVal (f : UniF) (a b : Nat) : Nat := (a + b) % 2 ^ uniW f
def usubVal (f : UniF) (a b : Nat) : Nat := (a + 2 ^ uniW f - b) % 2 ^ uniW f
def umulVal (f : UniF) (hi : Bool) (a b : Nat) : Nat :=
  let w := uniW f
  if hi then ofI w (toI f.s w a * toI f.s w b / ((2 ^ w : Nat) : Int)) else a * b % 2 ^ w
def ushlVal (f : UniF) (a b : Nat) : Nat := if uniW f ≤ b then 0 else a * 2 ^ b % 2 ^ uniW f
def ushrVal (f : UniF) (a b : Nat) : Nat :=
  let w := uniW f
  ofI w (toI f.s w a / ((2 ^ (if w ≤ b then w else b) : Nat) : Int))

def execUadd (f : UniF) (d a b : Nat) (s : State) : Host.Outcome State Fault Refusal := uni2 s f d a b (uaddVal f)
def execUaddUi (f : UniF) (d a imm : Nat) (s : State) : Host.Outcome State Fault Refusal := uni2i s f d a imm (uaddVal f)
def execUsub (f : UniF) (d a b : Nat) (s : State) : Host.Outcome State Fault Refusal := uni2 s f d a b (usubVal f)
def execUsubUi (f : UniF) (d a imm : Nat) (s : State) : Host.Outcome State Fault Refusal := uni2i s f d a imm (usubVal f)
def execUmul (f : UniF) (hi : Bool) (d a b : Nat) (s : State) : Host.Outcome State Fault Refusal := uni2 s f d a b (umulVal f hi)
def execUmulUi (f : UniF) (hi : Bool) (d a imm : Nat) (s : State) : Host.Outcome State Fault Refusal := uni2i s f d a imm (umulVal f hi)
def execUand (f : UniF) (d a b : Nat) (s : State) : Host.Outcome State Fault Refusal := uni2 s f d a b fun x y => x &&& y
def execUandUi (f : UniF) (d a imm : Nat) (s : State) : Host.Outcome State Fault Refusal := uni2i s f d a imm fun x y => x &&& y
def execUor (f : UniF) (d a b : Nat) (s : State) : Host.Outcome State Fault Refusal := uni2 s f d a b fun x y => x ||| y
def execUorUi (f : UniF) (d a imm : Nat) (s : State) : Host.Outcome State Fault Refusal := uni2i s f d a imm fun x y => x ||| y
def execUxor (f : UniF) (d a b : Nat) (s : State) : Host.Outcome State Fault Refusal := uni2 s f d a b fun x y => x ^^^ y
def execUxorUi (f : UniF) (d a imm : Nat) (s : State) : Host.Outcome State Fault Refusal := uni2i s f d a imm fun x y => x ^^^ y
def execUshl (f : UniF) (d a b : Nat) (s : State) : Host.Outcome State Fault Refusal := uni2 s f d a b (ushlVal f)
def execUshlUi (f : UniF) (d a imm : Nat) (s : State) : Host.Outcome State Fault Refusal := uni2i s f d a imm (ushlVal f)
def execUshr (f : UniF) (d a b : Nat) (s : State) : Host.Outcome State Fault Refusal := uni2 s f d a b (ushrVal f)
def execUshrUi (f : UniF) (d a imm : Nat) (s : State) : Host.Outcome State Fault Refusal := uni2i s f d a imm (ushrVal f)

/-- USETP's comparison (R212). -/
def usetpVal (f : UniF) (op : CmpOp) (a b : Nat) : Bool := cmpInt op (toI f.s (uniW f) a) (toI f.s (uniW f) b)

def execUsetp (f : UniF) (op : CmpOp) (d a b c : Nat) (s : State) : Host.Outcome State Fault Refusal :=
  uniOp s f.g { sr := [a, b] } fun _ _ w =>
    w.qput d (usetpVal f op (uniArg f (w.sget a)) (uniArg f (w.sget b)) && w.qget c)
def execUsetpUi (f : UniF) (op : CmpOp) (d a imm : Nat) (s : State) : Host.Outcome State Fault Refusal :=
  uniOp s f.g { sr := [a] } fun _ _ w => w.qput d (usetpVal f op (uniArg f (w.sget a)) (uniArg f (uniImm imm)))
def execUsel (g : Guard) (q d a b : Nat) (s : State) : Host.Outcome State Fault Refusal :=
  uniOp s g { sr := [a, b], sw := [d] } fun _ _ w => w.sput d (if w.qget q then w.sget a else w.sget b)
def execUselUi (g : Guard) (q d a imm : Nat) (s : State) : Host.Outcome State Fault Refusal :=
  uniOp s g { sr := [a], sw := [d] } fun _ _ w => w.sput d (if w.qget q then w.sget a else uniImm imm)

/-! ## Moves between lanes and uniform registers (R214, R215) -/

/-- The lane that V2S reads: modes 0 FIRST, 1 LANE, 2 UNI. -/
def v2sLane (mode : Nat) (lanes : LaneMask) (b : DWord) : Nat :=
  let k := nbits b.toNat 0 5
  if mode = 1 && lanes.getLsbD k then k else lowLane lanes

/-- The lanes in which V2S reads A: one lane, under UNI every lane of the split. -/
def v2sSeen (s : State) (mode n : Nat) (a : Src) (b : Nat) : List (Nat × LaneMask) :=
  match s.looking with
  | none => []
  | some (_, w, e) => if mode = 2 then [] else (Src.regs a n).map fun r => (r, laneBit (v2sLane mode e.mask (w.sget b)))

/-- V2S (R214). Under UNI lane m differs where it is poisoned or its bits differ; of a poisoned lane l the rule says nothing else, and its bits are
compared alike (log entry 133). -/
def execV2s (g : Guard) (mode : Nat) (w64 : Bool) (d : Nat) (a : Src) (b : Nat) (s : State) :
    Host.Outcome State Fault Refusal :=
  let n := if w64 then 2 else 1
  issueUni s g { (srcOpnds [(a, n)]) with sr := if mode = 1 then [b] else [], sw := [d], seen := v2sSeen s mode n a b } fun s c =>
    match s.warp? c.g with
    | none => (s, [])
    | some w =>
      let k := v2sLane mode c.lanes (w.sget b)
      let x := vread w a n k
      let uneven := mode = 2 && (lanesOf c.lanes).any fun m => m != k && ((vread w a n m).2 || (vread w a n m).1 != x.1)
      if uneven && s.flagOf c.g Launch.strictUni then trapAll s c { cause := 0x07, detail := 0, addr := 0 }
      else
        let s := if uneven then s.count .uniformityViolation 1 else s
        if x.2 then trapAll s c (poisonTrap 0) else (s.modWarp c.g fun w => w.sput d (BitVec.ofNat 64 x.1), [])

def execS2v (g : Guard) (w64 : Bool) (d a : Nat) (s : State) : Host.Outcome State Fault Refusal :=
  let n := if w64 then 2 else 1
  uniOp s g ({ ({ sr := [a] } : Opnds) with vw := regsFrom d n }) fun _ c w =>
    (lanesOf c.lanes).foldl (fun (v : Warp) l => v.vputN d n l (w.sget a).toNat false) w

/-! ## Special registers (R216, R217) -/

/-- The value of a special register. -/
def sregVal (s : State) (c : Ctx) (w : Warp) (sel : SregSel) : DWord :=
  match sel with
  | .bwid => ((s.blockOf c.g).map Block.wid).getD 0
  | .warp => BitVec.ofNat 64 w.idx
  | .split => c.lanes.setWidth 64
  | .fflags => w.fflags.setWidth 64
  | .spadsz => BitVec.ofNat 64 (((s.blockOf c.g).map Block.spadBytes).getD 0)
  | .localsz => BitVec.ofNat 64 (((s.launchOf c.g).map Launch.localSize).getD 0)
  | .wdogleft => (match w.budget with | some n => BitVec.ofNat 64 n | none => BitVec.allOnes 64)
  | .widths => BitVec.ofNat 64 (packElems 8 (((s.launchOf c.g).map Launch.widths).getD []))
  | .ext i => BitVec.ofNat 64 ((((s.launchOf c.g).map Launch.extents).getD []).getD i 0)
  | .m i => (w.mget i).setWidth 64
  | .tc i => (tgetD (s.core (coreOf c.g)).tcs i 0).setWidth 64

def execSregR (g : Guard) (d : Nat) (sel : SregSel) (s : State) : Host.Outcome State Fault Refusal :=
  uniOp s g { sw := [d] } fun s c w => w.sput d (sregVal s c w sel)

/-- SREG.W: FFLAGS is the one selector that can be written; bits that an instruction still running sets stay set (R217, R223). -/
def execSregW (g : Guard) (_sel : SregSel) (a : Nat) (s : State) : Host.Outcome State Fault Refusal :=
  uniOp s g { sr := [a] } fun s _ w => { w with fflags := clearFlags w.fflags (w.sget a) ||| w.dueAt s.now }

/-! ## Tile shapes (R218–R221) -/

/-- Element width of a tile format (R218). -/
def tcWidth (fmt : Nat) : Nat :=
  match fmt with
  | 0 | 1 => 32
  | 2 | 3 => 16
  | 6 | 7 => 6
  | 8 | 10 => 4
  | _ => 8

def tcFmt (x : Nat) : Nat := nbits x 0 5
def tcScale (x : Nat) : Nat := nbits x 5 2
def tcRows (x : Nat) : Nat := nbits x 8 10
def tcCols (x : Nat) : Nat := nbits x 18 10
def tcSpan (x : Nat) : Nat := nbits x 28 2
def tcGdir (x : Nat) : Nat := nbits x 30 1

/-- The byte count B of a shape (R219). -/
def tcBytes (x : Nat) : Nat :=
  let e := tcRows x * tcCols x
  let w := tcWidth (tcFmt x)
  match tcScale x with
  | 0 => (e * w + 7) / 8
  | 1 => e / 32 * (if w = 8 then 33 else if w = 6 then 25 else 17)
  | _ => e * w / 8 + e / 32

/-- A nonzero tc value of tile n is legal (R218, R219). -/
def tcLegal (n x : Nat) : Bool :=
  let fmt := tcFmt x
  let sc := tcScale x
  nbits x 31 33 == 0 && nbits x 7 1 == 0 && fmt ≤ 11 && sc != 3
    && (if fmt ≤ 3 || fmt = 9 || fmt = 10 then sc == 0 else if fmt = 11 then sc != 0 else true)
    && (sc != 0 || tcGdir x == 0)
    && 1 ≤ tcRows x && tcRows x ≤ 512 && 1 ≤ tcCols x && tcCols x ≤ 512
    && n + tcSpan x + 1 ≤ 16
    && (sc == 0 || (if tcGdir x = 0 then tcCols x else tcRows x) % 32 == 0)
    && tcBytes x ≤ (tcSpan x + 1) * 65536

/-- A matrix register is claimed by another block (R350): kinds 0 tile, 1 region, 2 cv, 3 e. -/
def claimedByOther (c : Core) (kind n block : Nat) : Bool := c.claims.any fun k => k.kind == kind && k.n == n && k.block != block

def execTshape (g : Guard) (n a : Nat) (s : State) : Host.Outcome State Fault Refusal :=
  issueUni s g { sr := [a] } fun s c =>
    match s.warp? c.g with
    | none => (s, [])
    | some w =>
      let x := w.sget a
      if claimedByOther (s.core (coreOf c.g)) 0 n w.block then trapAll s c { cause := 0x3A, detail := 0, addr := BitVec.ofNat 64 n }
      else if x != 0 && !tcLegal n x.toNat then trapAll s c { cause := 0x38, detail := 0, addr := x }
      else
        (s.modCore (coreOf c.g) fun k =>
          let k := k.keepOld s.now n (tgetD k.tcs n 0)
          { k with tcs := tput k.tcs n (x.setWidth 32) 0 }, [])

end Sys2Proof.Machine
end

