-- ==== Sys2Proof/Machine/Copy.lean ====
section
/-! DEFINITION. The copy engine: uniform group 0x4 and its events (R323–R348). -/

namespace Sys2Proof.Machine

/-! ## The request record (R323–R327) -/

/-- A signed 32-bit field. -/
def rec32 (bs : List Byte) (o : Nat) : Int := sgn 32 (natOfLe ((bs.drop o).take 4))
def recNat (bs : List Byte) (o n : Nat) : Nat := natOfLe ((bs.drop o).take n)
def recPtr (bs : List Byte) (o : Nat) : DWord := BitVec.ofNat 64 (recNat bs o 8)

/-- The fields of a record's 128 bytes. -/
def copyReqOf (bs : List Byte) : CopyReq :=
  { src := recPtr bs 0x00, dst := recPtr bs 0x08, c0 := recNat bs 0x10 4, c1 := recNat bs 0x14 4, c2 := recNat bs 0x18 4
    ctrl := recNat bs 0x1C 4, s1 := rec32 bs 0x20, s2 := rec32 bs 0x24, d1 := rec32 bs 0x28, d2 := rec32 bs 0x2C
    done := recPtr bs 0x30, issue := recNat bs 0x38 4, mask := recNat bs 0x3C 4
    foot := (List.range 4).map fun k => (recPtr bs (0x40 + 16 * k), recNat bs (0x48 + 16 * k) 4, recNat bs (0x4C + 16 * k) 4) }

/-- The fields of CTRL (R324). -/
def CopyReq.conv (r : CopyReq) : Nat := nbits r.ctrl 0 4
def CopyReq.esize (r : CopyReq) : Nat := nbits r.ctrl 4 3
def CopyReq.op (r : CopyReq) : Nat := nbits r.ctrl 8 4
def CopyReq.guardSlot (r : CopyReq) : Option Nat := if r.ctrl.testBit 16 then some (nbits r.ctrl 12 4) else none
def CopyReq.outSlot (r : CopyReq) : Option Nat := if r.ctrl.testBit 21 then some (nbits r.ctrl 17 4) else none
def CopyReq.pg (r : CopyReq) : Nat := nbits r.ctrl 22 3
def CopyReq.cls (r : CopyReq) : CacheClass := (CacheClass.ofCode (nbits r.ctrl 25 3)).getD .dflt

/-- Source and destination unit sizes (R325). -/
def CopyReq.su (r : CopyReq) : Nat :=
  match r.conv with | 0 => 2 ^ r.esize | 3 | 4 => 2 | 7 | 8 => 128 | 9 => 33 | _ => 4
def CopyReq.du (r : CopyReq) : Nat :=
  match r.conv with | 0 => 2 ^ r.esize | 1 | 2 => 2 | 5 | 6 => 1 | 7 => 33 | 8 => 17 | 9 => 128 | _ => 4

/-- The number of units. -/
def CopyReq.total (r : CopyReq) : Nat := r.c0 * r.c1 * r.c2

/-- Byte offset of unit i for a unit size and two strides. -/
def CopyReq.offset (r : CopyReq) (i u : Nat) (t1 t2 : Int) : Int :=
  ((i % r.c0 * u : Nat) : Int) + ((i / r.c0 % r.c1 : Nat) : Int) * t1 + ((i / (r.c0 * r.c1) : Nat) : Int) * t2
def CopyReq.srcAt (r : CopyReq) (i : Nat) : DWord := addOffset r.src (r.offset i r.su r.s1 r.s2)
def CopyReq.dstAt (r : CopyReq) (i : Nat) : DWord := addOffset r.dst (r.offset i r.du r.d1 r.d2)

/-- log2 of the unit that OP fixes (R336). -/
def redSize (op : Nat) : Nat := match op with | 1 => 3 | 7 | 8 => 1 | _ => 2

/-- A multiple of u. -/
def aligned (x : Int) (u : Nat) : Bool := x % (u : Int) == 0

/-- The alignment that one side of a copy needs (R325). -/
def sideAlign (u : Nat) : Nat := match u with | 33 | 17 => 1 | 128 => 4 | n => n

/-- Spaces allowed as a source and as a destination (R327). -/
def srcSpace (k : CopyKind) (x : Nat) : Bool :=
  x ≤ 5 || x == 8 || x == 9 || x == 10 || (x == 6 && k == .cpy)
def dstSpace (k : CopyKind) (x : Nat) : Bool :=
  match k with
  | .cpy => x ≤ 6 || x == 8 || x == 9 || x == 10
  | .cpym => x == 9
  | .redv => x ≤ 3 || x == 6

/-! ## Footprints (R17, R326) -/

/-- Whose space a pointer of a block lies in: its address space, the block's region, its gang's regions, or the core's. -/
def footOwner (l : Launch) (bid : Nat) (b : Block) (p : DWord) : Nat :=
  match spaceOf p with
  | 6 | 10 => 0
  | 8 => bid
  | 9 => l.id * 2 ^ 64 + gangOf l b.lin
  | _ => l.asid

/-- The footprint of n bytes at a pointer of a block. -/
def footOf (l : Launch) (bid : Nat) (b : Block) (p : DWord) (n : Nat) (write : Bool) : Footprint :=
  let a := nbits p.toNat 0 60
  { space := spaceOf p, owner := footOwner l bid b p, first := a / 128, lines := (a + n - 1) / 128 - a / 128 + 1, write := write }

/-- The read or write region of a command: from the lowest to the highest byte of its units. -/
def autoFoot (l : Launch) (bid : Nat) (b : Block) (r : CopyReq) (p : DWord) (u : Nat) (t1 t2 : Int) (write : Bool) : Footprint :=
  let ext (c : Nat) (t : Int) : Int := ((c - 1 : Nat) : Int) * t
  let es := [ext r.c0 u, ext r.c1 t1, ext r.c2 t2]
  let lo := es.foldl (fun m e => m + min 0 e) 0
  let hi := es.foldl (fun m e => m + max 0 e) 0
  footOf l bid b (addOffset p lo) ((hi - lo).toNat + u) write

/-- The declared entries. -/
def CopyReq.declared (r : CopyReq) : List (DWord × Nat × Nat) := r.foot.filter fun f => f.2.1 != 0

def declFoot (l : Launch) (bid : Nat) (b : Block) (f : DWord × Nat × Nat) : Footprint :=
  { footOf l bid b f.1 1 (f.2.2.testBit 0) with lines := f.2.1 }

/-- A CPYM's write footprint lies at every destination core (R326). -/
def spreadFoot (k : CopyKind) (r : CopyReq) (f : Footprint) : List Footprint :=
  if k == .cpym && f.write && f.space == 9 then
    ((List.range 8).filter fun c => r.mask.testBit c).map fun c => { f with first := c * 2 ^ 13 + f.first % 2 ^ 13 }
  else [f]

/-- The footprints of a command. -/
def copyFeet (l : Launch) (bid : Nat) (b : Block) (k : CopyKind) (r : CopyReq) : List Footprint :=
  (if r.declared.isEmpty then
    [autoFoot l bid b r r.src r.su r.s1 r.s2 false, autoFoot l bid b r r.dst r.du r.d1 r.d2 true]
  else r.declared.map (declFoot l bid b)).flatMap (spreadFoot k r)

/-- Every line of a footprint lies in one of a list. -/
def coveredBy (fs : List Footprint) (f : Footprint) (anyCore : Bool) : Bool :=
  let norm (n : Nat) : Nat := if anyCore then n % 2 ^ 13 else n
  (List.range f.lines).all fun i => fs.any fun g =>
    g.space == f.space && g.owner == f.owner && norm g.first ≤ norm (f.first + i) && norm (f.first + i) < norm g.first + g.lines

/-- The coverage check of declared footprints (R326). -/
def covered (l : Launch) (bid : Nat) (b : Block) (k : CopyKind) (r : CopyReq) : Bool :=
  let ds := r.declared.map (declFoot l bid b)
  (List.range r.total).all fun i =>
    coveredBy ds (footOf l bid b (r.srcAt i) r.su false) false
      && coveredBy (ds.filter fun f => f.write) (footOf l bid b (r.dstAt i) r.du true) (k == .cpym)

/-! ## The checks of R329 -/

/-- The DETAIL of the first check that a record fails. -/
def copyCheck (l : Launch) (bid : Nat) (b : Block) (k : CopyKind) (r : CopyReq) : Option Nat :=
  let sp := spaceOf r.src
  let dp := spaceOf r.dst
  if nbits r.ctrl 28 4 ≠ 0 || nbits r.ctrl 7 1 ≠ 0 || nbits r.ctrl 25 3 = 7 || 9 < r.conv || 5 < r.esize || (r.esize ≠ 0 && r.conv ≠ 0)
      || (if k == .redv then 10 < r.op || r.conv ≠ 0 || r.esize ≠ redSize r.op else r.op ≠ 0)
      || (if k == .cpym then nbits r.issue 20 11 ≠ 0 || nbits r.mask 8 24 ≠ 0 else r.issue ≠ 0 || r.mask ≠ 0) then some 1
  else if !srcSpace k sp || !dstSpace k dp || (sp = 6 && dp = 6) then some 2
  else if r.c0 = 0 || r.c1 = 0 || r.c2 = 0 || 2 ^ 32 < r.total then some 3
  else if !(aligned r.src.toNat (sideAlign r.su) && aligned r.s1 (sideAlign r.su) && aligned r.s2 (sideAlign r.su)
      && aligned r.dst.toNat (sideAlign r.du) && aligned r.d1 (sideAlign r.du) && aligned r.d2 (sideAlign r.du)) then some 4
  else if r.foot.any (fun f => nbits f.2.2 1 31 ≠ 0) || r.declared.any (fun f => !ptrWellFormed f.1)
      || (!r.declared.isEmpty && !covered l bid b k r) then some 5
  else if (if r.done = 0 then dp = 8 || dp = 9
        else !ptrWellFormed r.done || !(spaceOf r.done = 8 || spaceOf r.done = 9) || r.done.toNat % 16 ≠ 0)
      || (k == .cpym && r.issue.testBit 31 && nbits r.issue 0 20 % 16 ≠ 0) then some 6
  else if k == .cpym && (r.mask = 0 || !l.yardGang) then some 7
  else none

/-! ## Posting (R330) -/

/-- The scope of the release of a posted command (R289): block, yard, device or system, by the spaces of its footprints. -/
def postScope (fs : List Footprint) : Scope :=
  let has (p : Nat → Bool) : Bool := fs.any fun f => p f.space
  if has fun x => x == 4 || x == 5 || x == 6 then .system
  else if has fun x => x ≤ 3 then .device
  else if has fun x => x == 9 then .yard
  else .block

/-- The relMet level of a posting at a record pointer: as its footprints will ask. -/
def postLevel (s : State) (k : CopyKind) (a : Nat) : Nat :=
  match s.looking with
  | none => 1
  | some (g, w, _) =>
    match s.blockOf g, s.launchOf g with
    | some b, some l =>
      let p := w.sget a
      if spaceOf p = 8 && ptrWellFormed p && nbits p.toNat 0 20 + 128 ≤ b.spadBytes then
        let r := copyReqOf (spadRead s w.block (nbits p.toNat 0 20) 128)
        if (copyCheck l w.block b k r).isSome then 1 else relLevel .rel (postScope (copyFeet l w.block b k r))
      else 1
    | _, _ => 1

/-- The scratchpad lines that n bytes at a pointer touch, as (block, line): none where the pointer reaches no region. -/
def spadLines (s : State) (b : Nat) (p : DWord) (n : Nat) : List (Nat × Nat) :=
  match s.objAt b p n with
  | some o => (linesOf o.off n).map fun l => (o.block, l)
  | none => []

/-- The destination pointers of a unit: one, or one for each destination core that has not failed. -/
def unitDests (c : Cmd) (k : CopyKind) (r : CopyReq) (i : Nat) : List (DWord × DWord) :=
  match k with
  | .cpym => (c.dests r).map fun n => (coreField (r.dstAt i) n, coreField c.done n)
  | _ => [(r.dstAt i, c.done)]

/-- Puts an accepted command into the queue, and clears the presence bits of the scratchpad lines that it writes (R13). -/
def acceptCopy (s : State) (core : Nat) (c : Cmd) (k : CopyKind) (r : CopyReq) : State :=
  let all := (List.range r.total).flatMap fun i => (unitDests c k r i).flatMap fun d =>
    (spadLines s c.block d.1 r.du).map fun l => (l, (s.objAt c.block d.2 16).toList)
  let z := all.foldl (fun (acc : State × List (Nat × Nat) × List (Nat × Nat)) e =>
    if acc.2.1.contains e.1 then acc
    else
      let t := acc.1.lineAbsent e.1.1 e.1.2 e.2
      (t.1, acc.2.1 ++ [e.1], if t.2 then acc.2.2 ++ [e.1] else acc.2.2)) (s, [], [])
  z.1.modCore core fun q => { q with cmds := q.cmds ++ [{ c with cleared := z.2.2 }] }

/-- CPY, CPYM and REDV (R330). -/
def postCopy (s : State) (g : Guard) (k : CopyKind) (a : Nat) : Host.Outcome State Fault Refusal :=
  issueUni s g { sr := [a], rel := postLevel s k a } fun s c =>
    match s.warp? c.g, s.blockOf c.g, s.launchOf c.g with
    | some w, some b, some l =>
      let p := w.sget a
      onObject s c p 128 .read (fun x => x == 8) fun x =>
        let r := copyReqOf (readLoc s x 128).1
        match copyCheck l w.block b k r with
        | some d => trapAll s c { cause := 0x31, detail := d, addr := p }
        | none =>
          if l.det && k == .redv && 6 ≤ r.op then trapAll s c { cause := 0x16, detail := 0, addr := 0 }
          else
            let feet := copyFeet l w.block b k r
            let s := releaseAct s c.g (postScope feet) none
            if 64 ≤ (s.core (coreOf c.g)).cmds.length then (s, [(c.act, .park .commandQueue)])
            else
              let n := s.newId
              let cmd : Cmd :=
                { id := n.2, block := w.block, warp := w.idx, kind := .copy k r, feet := feet, guard := r.guardSlot, gslot := r.guardSlot, gout := r.outSlot
                  pg := some r.pg, done := r.done, units := r.total, since := s.devNs }
              (acceptCopy ((n.1.nameGuards w.block (r.guardSlot.toList ++ r.outSlot.toList)).noteCmd c.g c.lanes n.2) (coreOf c.g) cmd k r, [])
    | _, _, _ => (s, [])

def execCpy (g : Guard) (a : Nat) (s : State) : Host.Outcome State Fault Refusal := postCopy s g .cpy a
def execCpym (g : Guard) (a : Nat) (s : State) : Host.Outcome State Fault Refusal := postCopy s g .cpym a
def execRedv (g : Guard) (a : Nat) (s : State) : Host.Outcome State Fault Refusal := postCopy s g .redv a

/-! ## The accesses of a command (R333, R335) -/

/-- What an access of a command comes to: done, waiting for a gang member that has not started or for a fabric port, or a fault with its cause and the
race events that it counts. -/
inductive UnitRes (α : Type)
  | ok (x : α)
  | wait
  | fault (cause races : Nat)
  deriving DecidableEq, Repr

def UnitRes.bind {α β : Type} (x : UnitRes α) (f : α → UnitRes β) : UnitRes β :=
  match x with
  | .ok a => f a
  | .wait => .wait
  | .fault c n => .fault c n

/-- Where a byte of a command lies: memory, or the accumulator store of its core. -/
inductive CmdLoc
  | mem (x : Loc)
  | acc (off : Nat)
  deriving DecidableEq, Repr

/-- Where a pointer of a block's command leads, for one byte. -/
def cmdLoc (s : State) (bid : Nat) (p : DWord) (k : AccKind) : UnitRes CmdLoc :=
  match s.block? bid with
  | none => .fault 0x10 0
  | some b =>
    match s.launch? b.launch with
    | none => .fault 0x10 0
    | some l =>
      let x := p.toNat
      let off := nbits x 0 20
      let dev (space : Nat) (f : Nat → Loc) : UnitRes CmdLoc :=
        match translate s b.core l.asid space (nbits x 0 57) k with
        | .ok a => .ok (.mem (f a))
        | .error _ => .fault 0x11 0
      if !ptrWellFormed p then .fault 0x10 0
      else
        match spaceOf p with
        | 4 => dev 4 fun a => .host a true
        | 5 => dev 5 fun a => .host a false
        | 6 => if !s.peerKnown (nbits x 48 12) then .fault 0x11 0
          else if s.fabUp then .ok (.mem (.peer (nbits x 48 12) (nbits x 0 48))) else .wait
        | 8 => if off < b.spadBytes then .ok (.mem (.spad bid off false)) else .fault 0x10 0
        | 9 =>
          (match s.gangBlockOn b (b.core / 8 * 8 + nbits x 20 3) with
            | some t => if off < t.2.spadBytes then .ok (.mem (.spad t.1 off true)) else .fault 0x10 0
            | none => if s.gangWaits b then .wait else .fault 0x10 0)
        | 10 => if nbits x 0 24 < 0x200000 then .ok (.acc (nbits x 0 24)) else .fault 0x10 0
        | 12 => .fault 0x10 0
        | n => dev n fun a => .dev a false

/-- The places of n bytes from a pointer on. -/
def cmdLocs (s : State) (bid : Nat) (p : DWord) (k : AccKind) (l : List Nat) : UnitRes (List CmdLoc) :=
  match l with
  | [] => .ok []
  | i :: r => (cmdLoc s bid (addOffset p i) k).bind fun x => (cmdLocs s bid p k r).bind fun xs => .ok (x :: xs)

/-- A byte of the accumulator store (R351). -/
def accByte (c : Core) (off : Nat) : Byte := wordByte (tgetD c.acc (off / 4) 0) (off % 4)
def accPut (c : Core) (off : Nat) (b : Byte) : Core :=
  { c with acc := tput c.acc (off / 4) (setByte (tgetD c.acc (off / 4) 0) (off % 4) b) 0 }

/-- The word in which a byte of a command lies: none at a peer. -/
def CmdLoc.place (x : CmdLoc) : Option WordPlace :=
  match x with
  | .mem (.dev a _) => some (.dev (a / 4))
  | .mem (.host a _) => some (.host (a / 4))
  | .mem (.spad b o _) => some (.spad b (o / 4))
  | .acc o => some (.acc (o / 4))
  | _ => none

/-- The byte of its word that a place is. -/
def CmdLoc.byteOf (x : CmdLoc) : Nat :=
  match x with
  | .mem (.dev a _) => a % 4
  | .mem (.host a _) => a % 4
  | .mem (.spad _ o _) => o % 4
  | .acc o => o % 4
  | _ => 0

/-- The present value of a word, with its poison. -/
def placeWord (s : State) (core : Nat) (p : WordPlace) : Word × Bool :=
  match p with
  | .dev w => s.cohWord w
  | .host w => (BitVec.ofNat 32 (natOfLe (s.hostRead (4 * w) 4)), false)
  | .spad b w => (BitVec.ofNat 32 (natOfLe (spadRead s b (4 * w) 4)), false)
  | .acc w => (tgetD (s.core core).acc w 0, false)

/-- A scratchpad word that a command reads is open for writing by a warp of the gang: the store races with the command (R19, R229). The
scratchpad keeps no opens of commands. -/
def spadOpenW (s : State) (p : WordPlace) : Bool :=
  match p with
  | .spad b w => ((s.block? b).bind fun x => (openGet x.opens w).w).isSome
  | _ => false

/-- The device words among places. -/
def devWords (xs : List CmdLoc) : List Nat :=
  (xs.filterMap fun x => match x with | .mem (.dev a _) => some (a / 4) | _ => none).dedup
def devPlaces (ps : List WordPlace) : List Nat := ps.filterMap fun p => match p with | .dev w => some w | _ => none

/-- Opens words for the copy engine of a core as a command touches them (R281): with whether the access races. -/
def openCmd (s : State) (core id : Nat) (ws : List Nat) (write : Bool) : State × Bool :=
  let agent := 256 + core
  let raced := ws.any fun w => (openGet (s.dirLine (w / 32)).opens w).races agent write
  let s := forEach ws s fun s w => s.modDir (w / 32) fun d =>
    { d with opens := openPut d.opens w (if write then (openGet d.opens w).addW agent else (openGet d.opens w).addR agent) }
  ((if raced then s.count .race 1 else s).modCmd core id fun c => { c with words := (c.words ++ ws).dedup }, raced)

/-- A unit of the accumulator store that is not aligned to its size, or to the 4 bytes of an element where that is less (R335, R351; log entry 106). -/
def accMisaligned (p : DWord) (n : Nat) : Bool := spaceOf p == 10 && p.toNat % (if n ≤ 2 then n else 4) != 0

/-- The places of a unit of n bytes, or the fault that it meets there (R335). -/
def unitLocs (s : State) (bid : Nat) (p : DWord) (k : AccKind) (n : Nat) : UnitRes (List CmdLoc) :=
  (cmdLocs s bid p k (List.range n)).bind fun xs => if accMisaligned p n then .fault 0x13 0 else .ok xs

/-- The byte that a peer answers with. -/
def CmdLoc.peerByte (s : State) (x : CmdLoc) : Byte := match x with | .mem (.peer id o) => Machine.peerByte s.fresh id o | _ => 0

/-- Reads n bytes for a command: a racing read is poisoned, or a fault in deterministic mode (R282, R283, R335). Owners forward their words, and learn of
the open (R281, R333). A word that units read in parts is read once, so that the command sees its whole value from one moment (R19). -/
def cmdRead (s : State) (core : Nat) (c : Cmd) (det : Bool) (p : DWord) (n : Nat) : UnitRes (State × List Byte) :=
  (unitLocs s c.block p .read n).bind fun xs =>
    let ps := (xs.filterMap CmdLoc.place).dedup.filter fun p => !c.held.any fun e => e.1 == p
    let s := forEach (devPlaces ps) s fun s w => forwardNow s (some (256 + core)) w
    let vs := ps.map fun p => (p, placeWord s core p)
    let z := openCmd s core c.id (devPlaces ps) false
    let raced := z.2 || ps.any (spadOpenW s)
    if raced then .fault (if det then 0x15 else 0x0B) 1
    else if vs.any fun v => v.2.2 then .fault 0x0B 0
    else
      let held := c.held ++ vs.map fun v => (v.1, v.2.1)
      let byte (x : CmdLoc) : Byte :=
        match x.place with
        | some p => wordByte (((held.find? fun e => e.1 == p).map fun e => e.2).getD 0) x.byteOf
        | none => x.peerByte s
      .ok ((z.1.modCmd core c.id fun c => { c with held := if n % 4 = 0 then [] else held }).nextDraw, xs.map byte)

/-- Groups the device bytes of a write by word. -/
def devBytes (l : List (CmdLoc × Byte)) : Tbl (List (Nat × Byte)) :=
  l.foldl (fun t e => match e.1 with
    | .mem (.dev a _) => tset t (a / 4) (tgetD t (a / 4) [] ++ [(a % 4, e.2)])
    | _ => t) []

/-- Writes bytes for a command: device memory as WR-T at its home, the others where they live; a write to a peer leaves as one
put, which the command waits for. -/
def cmdWrite (s : State) (core : Nat) (c : Cmd) (det : Bool) (p : DWord) (bs : List Byte) (red : Option Nat) : UnitRes State :=
  (unitLocs s c.block p .write bs.length).bind fun xs =>
    let z := if red.isSome then (s, false) else openCmd s core c.id (devWords xs) true
    if z.2 && det then .fault 0x15 1
    else
      let es := xs.zip bs
      let s := forEach (devBytes es) z.1 fun s e => ((s.recallNow e.1).homeMerge e.1 e.2).invNow e.1
      let s := forEach es s fun s e =>
        match e.1 with
        | .acc o => s.modCore core fun k => accPut k o e.2
        | .mem (.host a _) => s.hostWrite a [e.2]
        | .mem (.spad b o _) => spadWrite s b o [e.2]
        | _ => s
      match xs with
      | .mem (.peer id o) :: _ =>
        let n := s.newId
        let t : State := { n.1 with puts := n.1.puts ++
          [{ id := n.2, peer := id, core := core, op := 0, cmd := c.id, off := o, data := bs, red := red, sentAt := s.devNs }] }
        .ok (t.modCmd core c.id fun c => { c with sent := some n.2, since := s.devNs })
      | _ => .ok s

/-! ## Units (R325, R333, R336, R337) -/

/-- A number's bytes as a value of a format, converted by RN (R325). -/
def convFp (a b : FpFmt) (satf : Bool) (n : Nat) (bs : List Byte) : List Byte :=
  leOfNat n (fpConvert b .rn satf false (fpDecode a (natOfLe bs))).1

/-- The value of a granule's element (R76). -/
def mxValue (c : CvtFmt) (sc e : Nat) : FVal :=
  if sc = 0xFF then .nan false false
  else
    let p := pow2 ((sc : Int) - 127)
    match c with
    | .mxint8 => let i := sgn 8 (nbits e 0 8); .fin (i < 0) ((i.natAbs : ℚ) / 64 * p)
    | c =>
      match fpDecode (cvtFmt c) e with
      | .fin n m => .fin n (m * p)
      | v => v

/-- An in-band granule of 32 FP32 values (R74, R77). -/
def packGranule (c : CvtFmt) (w : Nat) (bs : List Byte) : List Byte :=
  let vs := (List.range 32).map fun i => fpDecode .fp32 (natOfLe ((bs.drop (4 * i)).take 4))
  let r := mxGranule c .rn vs
  leOfNat (1 + 4 * w) (r.1 + 2 ^ 8 * (r.2.1.zipIdx.foldl (fun acc e => acc + e.1 * 2 ^ (w * e.2)) 0))

/-- The 32 FP32 values of an in-band E4M3 granule. -/
def unpackGranule (bs : List Byte) : List Byte :=
  let x := natOfLe bs
  (List.range 32).flatMap fun i =>
    leOfNat 4 (fpConvert .fp32 .rn false false (mxValue .e4m3 (nbits x 0 8) (nbits x (8 + 8 * i) 8))).1

/-- A destination unit (R325). -/
def convUnit (conv : Nat) (bs : List Byte) : List Byte :=
  match conv with
  | 1 => convFp .fp32 .bf16 false 2 bs
  | 2 => convFp .fp32 .fp16 false 2 bs
  | 3 => convFp .bf16 .fp32 false 4 bs
  | 4 => convFp .fp16 .fp32 false 4 bs
  | 5 => convFp .fp32 .e4m3 true 1 bs
  | 6 => convFp .fp32 .e5m2 true 1 bs
  | 7 => packGranule .e4m3 8 bs
  | 8 => packGranule .e2m1 4 bs
  | 9 => unpackGranule bs
  | _ => bs

/-- A reduction's new value (R336). -/
def redNew (op old x : Nat) : Nat :=
  match op with
  | 1 => (atomNew .add 8 old x 0).1
  | 2 => (atomNew .umin 4 old x 0).1
  | 3 => (atomNew .umax 4 old x 0).1
  | 4 => (atomNew .smin 4 old x 0).1
  | 5 => (atomNew .smax 4 old x 0).1
  | 6 => (atomNew .fadd 4 old x 0).1
  | 7 => (atomNew .fadd 2 old x 0).1
  | 8 => (fpAdd .fp16 .rn false false old x).1
  | 9 => (atomNew .fmin 4 old x 0).1
  | 10 => (atomNew .fmax 4 old x 0).1
  | _ => (atomNew .add 4 old x 0).1

/-- The old value of a reduction's destination word: none where it lies at a peer. -/
def redOld (s : State) (c : Cmd) (p : DWord) (n : Nat) : UnitRes (Option Nat) :=
  (unitLocs s c.block p .write n).bind fun xs =>
    match xs with
    | .mem (.dev a _) :: _ => let r := s.cohRead a n; if r.2 then .fault 0x0B 0 else .ok (some (natOfLe r.1))
    | _ => .ok none

/-- Writes the data of a unit to one destination. -/
def putUnit (s : State) (core : Nat) (c : Cmd) (det : Bool) (k : CopyKind) (r : CopyReq) (p : DWord) (bs : List Byte) : UnitRes State :=
  match k with
  | .redv =>
    (redOld s c p r.du).bind fun old => match old with
      | some x => cmdWrite s core c det p (leOfNat r.du (redNew r.op x (natOfLe bs))) (some r.op)
      | none => cmdWrite s core c det p bs (some r.op)
  | _ => cmdWrite s core c det p bs none

/-- The object at a pointer of a command can be counted to (R333): its member is there, and it lies in the region. -/
def objReach (s : State) (bid : Nat) (p : DWord) : UnitRes Unit :=
  if p = 0 || (s.objAt bid p 16).isSome then .ok () else (cmdLoc s bid p .write).bind fun _ => .fault 0x10 0

/-- The data of unit i of a command. -/
def unitData (s : State) (core : Nat) (c : Cmd) (det : Bool) (r : CopyReq) (i : Nat) : UnitRes (State × List Byte) :=
  (cmdRead s core c det (r.srcAt i) r.su).bind fun z => .ok (z.1, convUnit r.conv z.2)

/-- Unit NEXT of a command with one destination. -/
def copyUnit (s : State) (core : Nat) (c : Cmd) (det : Bool) (k : CopyKind) (r : CopyReq) : UnitRes State :=
  (objReach s c.block c.done).bind fun _ =>
    (unitData s core c det r c.next).bind fun z => putUnit z.1 core c det k r (r.dstAt c.next) z.2

/-- The device words that a unit touches at a pointer. -/
def unitWords (s : State) (c : Cmd) (p : DWord) (k : AccKind) (n : Nat) : List Nat :=
  match cmdLocs s c.block p k (List.range n) with
  | .ok xs => devWords xs
  | _ => []

/-- The device words that unit NEXT of a command reads, and those that it writes. -/
def readWords (s : State) (c : Cmd) (r : CopyReq) (i : Nat) : List Nat := unitWords s c (r.srcAt i) .read r.su
def writeWords (s : State) (c : Cmd) (r : CopyReq) : List Nat := unitWords s c (r.dstAt c.next) .write r.du

/-- The homes take a unit's requests (R263, R270, R272) with its replacement class (R232, R264), or they wait there: RD-N for what it reads, for what it
writes WR-T, which needs no fetch of a sector that the unit covers, or for a reduction AT. -/
def unitTaken (s : State) (core : Nat) (c : Cmd) (k : CopyKind) (r : CopyReq) (rs ws : List Nat) : Bool × State :=
  let agent := 256 + core
  let whole := if k == .redv || r.du % 4 ≠ 0 then [] else ws
  if s.homeReady agent whole (rs ++ ws) then
    (true, s.homeTaken agent (rs ++ ws) r.cls (((s.block? c.block).map Block.launch).getD 0))
  else (false, (s.homeAsk agent .rdN [] rs).homeAsk agent (if k == .redv then .at else .wrT) whole ws)

/-- A later unit of the command writes into a scratchpad line. -/
def laterUnit (s : State) (c : Cmd) (r : CopyReq) (i : Nat) (core : Option Nat) (line : Nat × Nat) : Bool :=
  (List.range (c.units - (i + 1))).any fun j =>
    let p := r.dstAt (i + 1 + j)
    (spadLines s c.block (match core with | some n => coreField p n | none => p) r.du).contains line

/-- The launch of a command is deterministic; the block's launch. -/
def cmdDet (s : State) (c : Cmd) : Bool := (((s.block? c.block).bind fun b => s.launch? b.launch).map Launch.det).getD false

/-- A unit has been written at a destination (`n` a CPYM's core): presence bits and counts (R333, R337). -/
def unitWritten (s : State) (c : Cmd) (r : CopyReq) (i : Nat) (n : Option Nat) : State :=
  let at_ (p : DWord) : DWord := match n with | some x => coreField p x | none => p
  let s := forEach (spadLines s c.block (at_ (r.dstAt i)) r.du) s fun s l =>
    if laterUnit s c r i n l then s else s.linePresent l.1 l.2
  let s := match if c.done = 0 then none else s.objAt c.block (at_ c.done) 16 with
    | some o => s.countRelease c.id o r.du
    | none => s
  match if n.isSome then r.issuePtr.bind fun p => s.objAt c.block p 16 else none with
  | some o => s.countRelease c.id o r.du
  | none => s

/-- A command all of whose units are written ends. -/
def copyEnds (s : State) (core id : Nat) : State :=
  match s.cmd? core id with
  | some c => if c.next = c.units then (s.endCmd core c (c.failMask == 0)).blockExitTest c.block else s
  | none => s

/-- NEXT advances past a unit that has been written at the one destination. -/
def advanceCopy (s : State) (core : Nat) (c : Cmd) (r : CopyReq) : State :=
  let s := unitWritten s c r c.next none
  copyEnds (s.modCmd core c.id fun x => { x with next := c.next + 1, sent := none, since := s.devNs }) core c.id

/-! ## Multicast (R337) -/

/-- The watermark of a destination of a CPYM, and the number of units read so far. -/
def Cmd.mark (c : Cmd) (d : Nat) : Nat := tgetD c.marks d 0
def Cmd.readTo (c : Cmd) : Nat := c.next + c.bufs.length

/-- What unit i comes to at a destination: it can be written, the member has not started, or a fault of that destination alone. -/
def destReach (s : State) (c : Cmd) (r : CopyReq) (d i : Nat) : UnitRes (List CmdLoc) :=
  (objReach s c.block (coreField c.done d)).bind fun _ => unitLocs s c.block (coreField (r.dstAt i) d) .write r.du

/-- Unit i can be written at a destination now. -/
def destOpen (s : State) (c : Cmd) (r : CopyReq) (d : Nat) : Bool :=
  c.mark d < c.units && match destReach s c r d (c.mark d) with | .ok _ => true | _ => false

/-- NEXT is the least watermark of the destinations that have not failed; units below it are kept no longer. -/
def leastMark (s : State) (core id : Nat) (r : CopyReq) : State :=
  s.modCmd core id fun c =>
    let n := (c.dests r).foldl (fun m d => min m (c.mark d)) c.units
    { c with next := n, bufs := c.bufs.drop (n - c.next), since := s.devNs }

/-- A destination receives its next unit, if that has been read. -/
def deliverTo (s : State) (core id : Nat) (r : CopyReq) (d : Nat) : State :=
  match s.cmd? core id with
  | none => s
  | some c =>
    if !destOpen s c r d then s
    else match c.bufs[c.mark d - c.next]? with
      | none => s
      | some bs =>
        match cmdWrite s core c (cmdDet s c) (coreField (r.dstAt (c.mark d)) d) bs none with
        | .ok t => (unitWritten t c r (c.mark d) (some d)).modCmd core id fun x => { x with marks := tset x.marks d (c.mark d + 1) }
        | _ => s

/-- The next unit of a CPYM is to be read: a destination has received all that have been. Its issuer's object must be within reach. -/
def mustRead (s : State) (c : Cmd) (r : CopyReq) : Bool := (c.dests r).any fun d => c.readTo ≤ c.mark d && destOpen s c r d

def readUnit (s : State) (core : Nat) (c : Cmd) (r : CopyReq) : UnitRes (State × List Byte) :=
  (objReach s c.block (r.issuePtr.getD 0)).bind fun _ => unitData s core c (cmdDet s c) r c.readTo

/-- One step of a CPYM: a unit is read if it is needed and its homes answer, and every destination receives the next one that it has room for. -/
def multicastStep (s : State) (core : Nat) (c : Cmd) (r : CopyReq) : State :=
  let s :=
    if !mustRead s c r then s
    else
      let t := unitTaken s core c .cpym r (readWords s c r c.readTo) []
      if !t.1 then t.2
      else match readUnit t.2 core c r with
        | .ok z => z.1.modCmd core c.id fun x => { x with bufs := x.bufs ++ [z.2] }
        | _ => s
  copyEnds (leastMark (forEach (c.dests r) s fun s d => deliverTo s core c.id r d) core c.id r) core c.id

/-! ## Events (R331, R333, R335, R337, R338) -/

/-- A command tests its guard: a copy once it is the earliest unstarted copy of the core (R338), a matrix command once no earlier one waits on its
guard (R18, R356). -/
def guardTurn (s : State) (core : Nat) (c : Cmd) : Bool :=
  if c.kind.isCopy then (s.earlierUnstarted core c).isEmpty else !s.heldBack core c

/-- The guard of a command allows it to start: it has none, or one that has been found true. -/
def guardOpen (c : Cmd) : Bool := c.guard.isNone

/-- The test of a command's guard at the end of a cc, after every write of that cc (R338): a slot that is true or false is acted on from then on. -/
def guardTest (s : State) (core : Nat) (c : Cmd) : Cmd :=
  match c.guard with
  | some g =>
    if c.st == .queued && !c.refused && guardTurn s core c then
      match s.guardOf core g with
      | 1 => { c with guard := none }
      | 2 => { c with refused := true }
      | _ => c
    else c
  | none => c

/-- The guard tests of a cc's end. -/
def State.testGuards (s : State) : State :=
  { s with cores := s.cores.map fun e => (e.1, { e.2 with cmds := e.2.cmds.map (guardTest s e.1) }) }

/-- Time passes: the cc ends with the guard tests (R338) and the ageing of warps (R142), monitors reach their ceiling (R309), and the homes hear of what
waits for them. -/
def State.elapse (s : State) (dt : Nat) : State :=
  let s := if dt = 0 then s else s.testGuards.ccEnds
  let s := s.pass dt
  ({ s with warps := s.warps.map fun e => (e.1, e.2.fireLate s.now) } : State).retestAsks.hostPump

/-- COPY_COMMAND_START (R331): the command starts if its guard, its edges and its PG allow. -/
def execCopyCommandStart (core cmd : Nat) (s : State) : Host.Outcome State Fault Refusal :=
  match s.cmd? core cmd with
  | none => .next s
  | some c =>
    if c.st == .queued && c.kind.isCopy && !s.heldBack core c && guardOpen c && !s.edgeInto core c && !s.pgBusy core c then
      .next (s.modCmd core cmd fun c => { c with st := .running, since := s.devNs })
    else .next s

/-- GUARD_DISCARD (R18, R338). -/
def execGuardDiscard (core cmd : Nat) (s : State) : Host.Outcome State Fault Refusal :=
  match s.cmd? core cmd with
  | none => .next s
  | some c =>
    if c.st == .queued && c.refused then .next ((s.discardCmd core c).blockExitTest c.block) else .next s

/-- COPY_UNIT_DONE (R333, R337): a put waits for its acknowledgement before NEXT advances. -/
def execCopyUnitDone (core cmd : Nat) (s : State) : Host.Outcome State Fault Refusal :=
  match s.cmd? core cmd with
  | none => .next s
  | some c =>
    match c.kind with
    | .copy k r =>
      if !(c.st == .running && c.sent.isNone && c.next < c.units) then .next s
      else if k == .cpym then .next (multicastStep s core c r)
      else
        let t := unitTaken s core c k r (readWords s c r c.next) (writeWords s c r)
        if !t.1 then .next t.2
        else
          match copyUnit t.2 core c (cmdDet s c) k r with
          | .ok s =>
            (match s.cmd? core cmd with
              | some c => .next (if c.sent.isSome then s else advanceCopy s core c r)
              | none => .next s)
          | _ => .next s
    | _ => .next s

/-- A copy command faults (R335): its objects enter error, GOUT resolves false, and it keeps its PG and its entry. With every warp
of its block gone nothing could resume it, and it ends as by CABORT (R344). -/
def faultCopy (s : State) (core : Nat) (c : Cmd) (cause races : Nat) : State :=
  let s := ((s.count .race races).count .copyFault 1).modCmd core c.id fun c => { c with st := .faulted, fcause := cause, sent := none }
  let s := forEach (s.cmdObjs c) s fun s o => s.setObjError o cause
  let s := s.resolveOut core c false
  if ((s.block? c.block).map Block.allExited).getD false then
    match s.cmd? core c.id with
    | some c => (s.abortCmd core c).blockExitTest c.block
    | none => s
  else s

/-- A put of a command comes to nothing: the command faults, or it ends, if an abort waited for that put (R335 step 1, R343). -/
def putFailed (s : State) (core : Nat) (c : Cmd) (cause : Nat) : State :=
  if c.aborting then (s.endAborted core c).blockExitTest c.block else faultCopy s core c cause 0

/-- A put of a command is acknowledged: its unit is written and counted, and the command goes on, or ends, if an abort waited for that put. -/
def putAcked (s : State) (core : Nat) (c : Cmd) (r : CopyReq) : State :=
  if c.aborting then ((unitWritten s c r c.next none).endAborted core c).blockExitTest c.block else advanceCopy s core c r

/-- COPY_FAULT (R335): unit NEXT faults; of a CPYM a fault of its source faults the whole command (R337). -/
def execCopyFault (core cmd : Nat) (s : State) : Host.Outcome State Fault Refusal :=
  match s.cmd? core cmd with
  | none => .next s
  | some c =>
    match c.kind with
    | .copy k r =>
      if !(c.st == .running && c.sent.isNone && c.next < c.units && (k != .cpym || mustRead s c r)) then .next s
      else
        let t := if k == .cpym then unitTaken s core c k r (readWords s c r c.readTo) []
          else unitTaken s core c k r (readWords s c r c.next) (writeWords s c r)
        if !t.1 then .next t.2
        else
          let res : Option (Nat × Nat) :=
            if k == .cpym then match readUnit t.2 core c r with | .fault n x => some (n, x) | _ => none
            else match copyUnit t.2 core c (cmdDet s c) k r with | .fault n x => some (n, x) | _ => none
          match res with
          | some n => .next (faultCopy t.2 core c n.1 n.2)
          | none => .next s
    | _ => .next s

/-- A destination of a CPYM has failed (R337): its object and the issuer's report it, and it takes part no more. -/
def destFailed (s : State) (core : Nat) (c : Cmd) (r : CopyReq) (dest n : Nat) : State :=
  let s := s.count .copyFault 1
  let s := match s.objAt c.block (coreField c.done dest) 16 with
    | some o => s.setObjError o n
    | none => s
  let s := match r.issuePtr.bind fun p => s.objAt c.block p 16 with
    | some o => (s.objPut o 13 1 (s.objGet o 13 1 ||| 2 ^ dest)).setObjError o n
    | none => s
  s.modCmd core c.id fun c => { c with failMask := c.failMask ||| 2 ^ dest }

/-- CPYM_DEST_FAULT (R337): a destination at which its next unit faults is marked failed, and delivery to the others goes on. -/
def execCpymDestFault (core cmd dest : Nat) (s : State) : Host.Outcome State Fault Refusal :=
  match s.cmd? core cmd with
  | none => .next s
  | some c =>
    match c.kind with
    | .copy .cpym r =>
      if !(c.st == .running && (c.dests r).contains dest && c.mark dest < c.units) then .next s
      else
        match destReach s c r dest (c.mark dest) with
        | .fault n _ => .next (copyEnds (leastMark (destFailed s core c r dest n) core cmd r) core cmd)
        | _ => .next s
    | _ => .next s

/-! ## Guard slots, resume, abort (R341–R343) -/

/-- CGUARD.CLR, CGUARD.SET and CGUARD.RD (R341). -/
def execCguardClr (g : Guard) (n : Nat) (s : State) : Host.Outcome State Fault Refusal :=
  issueUni s g {} fun s c => ((s.writeGuard (((s.warp? c.g).map Warp.block).getD 0) n).cguard (coreOf c.g) n 0, [])
def execCguardSet (g : Guard) (n q : Nat) (s : State) : Host.Outcome State Fault Refusal :=
  issueUni s g {} fun s c =>
    match s.warp? c.g with
    | none => (s, [])
    | some w => ((s.writeGuard w.block n).cguard (coreOf c.g) n (if w.qget q then 1 else 2), [])
def execCguardRd (g : Guard) (d n : Nat) (s : State) : Host.Outcome State Fault Refusal :=
  issueUni s g { sw := [d] } fun s c =>
    match s.warp? c.g with
    | none => (s, [])
    | some w => ((s.nameGuards w.block [n]).modWarp c.g fun w => w.sput d (BitVec.ofNat 64 (s.guardOf (coreOf c.g) n)), [])

/-- A faulted copy of a block and a progress register that CPRES resumes: no REDV (R342). -/
def resumable (block pg : Nat) (x : Cmd) : Bool :=
  x.block == block && x.pg == some pg && x.st == .faulted && (match x.kind with | .copy .redv _ => false | .copy _ _ => true | _ => false)

/-- CPRES (R342). -/
def execCpres (g : Guard) (q pg : Nat) (s : State) : Host.Outcome State Fault Refusal :=
  issueUni s g {} fun s c =>
    match s.warp? c.g with
    | none => (s, [])
    | some w =>
      let s' := s.modWarp c.g fun w' => w'.qput q ((s.core (coreOf c.g)).cmds.any (resumable w.block pg))
      (s'.modCore (coreOf c.g) fun k =>
        { k with cmds := k.cmds.map fun x => if resumable w.block pg x then { x with st := .running, fcause := 0, since := s.devNs } else x }, [])

/-- A CABORT of commands: it retires once every one has ended (R343). -/
def abortAll (s : State) (c : Ctx) (xs : List Cmd) : State × Fates :=
  let s := forEach xs s fun s x => s.abortCmd (coreOf c.g) x
  let left := (xs.map Cmd.id).filter fun i => (s.cmd? (coreOf c.g) i).isSome
  (s, if left.isEmpty then [] else [(c.act, .park (.abort left))])

/-- CABORT and CABORT.ALL (R343). -/
def execCabort (g : Guard) (pg : Nat) (s : State) : Host.Outcome State Fault Refusal :=
  issueUni s g {} fun s c =>
    match s.warp? c.g with
    | none => (s, [])
    | some w => abortAll s c ((s.blockCmds w.block).find? fun x => x.kind.isCopy && x.pg == some pg).toList
def execCabortAll (g : Guard) (s : State) : Host.Outcome State Fault Refusal :=
  issueUni s g {} fun s c =>
    match s.warp? c.g with
    | none => (s, [])
    | some w => abortAll s c ((s.blockCmds w.block).filter fun x => x.kind.isCopy)

/-- The value of a progress register (R131, R334, R370): index of a matrix command in its group. -/
def matrixOp (k : CmdKind) : Nat :=
  match k with
  | .tst _ _ _ _ => 1
  | .tzero _ => 2
  | .tcvt _ _ _ _ => 3
  | .mma x _ _ _ => if x then 6 else 5
  | .aclr _ => 7
  | .ald _ _ => 8
  | .ast _ _ => 9
  | .acvt _ _ _ _ => 10
  | _ => 0

def progValue (c : Cmd) : Nat :=
  if c.kind.isMatrix then
    (match c.st with | .stopped => 2 | _ => 1) * 2 ^ 61 + 2 ^ 60 + matrixOp c.kind * 2 ^ 56 + c.next % 2 ^ 16
  else
    let final : Bool := match c.kind with | .copy .redv _ => true | _ => false
    let st := match c.st with | .running => 1 | .stopped => 2 | .faulted => if final then 4 else 3 | .queued => 0
    st * 2 ^ 61 + nbits c.fcause 0 7 * 2 ^ 53 + c.next % 2 ^ 33

/-- PROGRD (R131). -/
def execProgrd (g : Guard) (d pg : Nat) (s : State) : Host.Outcome State Fault Refusal :=
  issueUni s g { sw := [d] } fun s c =>
    let v := (((s.core (coreOf c.g)).cmds.find? fun x => x.pg == some pg && x.st != .queued).map progValue).getD 0
    (s.modWarp c.g fun w => w.sput d (BitVec.ofNat 64 v), [])

end Sys2Proof.Machine
end

