-- ==== Sys2Proof/Machine/Admission.lean ====
section
/-! DEFINITION. Launch records, the checks of R90, and where blocks fit and are placed (R24–R26, R53–R56, R85–R108, R113, R114,
R178). -/

namespace Sys2Proof.Machine

/-! ## Entry records (R53–R56) -/

/-- The holder number under which the dispatch engine translates: no translation cache holds it. -/
def dispatchHolder : Nat := 100000

/-- n bytes at a device pointer, read by the dispatch engine: none if a part of them does not translate or is poisoned. -/
def readVirtual (s : State) (asid : Nat) (p : DWord) (n : Nat) : Option (List Byte) :=
  let lines := linesOf (nbits p.toNat 0 57) n
  let parts := lines.map fun l =>
    match translate s dispatchHolder asid (spaceOf p) (128 * l) .read with
    | .ok pa => let r := s.cohRead pa 128; if r.2 then none else some r.1
    | .error _ => none
  if parts.any Option.isNone then none
  else some (((parts.flatMap fun x => x.getD []).drop (nbits p.toNat 0 7)).take n)

def variantOf (bs : List Byte) (i : Nat) : Variant :=
  let o := 0x18 + 16 * i
  { pcOff := recNat bs o 4, floor := recNat bs (o + 4) 2, ceil := recNat bs (o + 6) 2, spad := recNat bs (o + 8) 4 }
def roleOf (bs : List Byte) (i : Nat) : Role :=
  let o := 0x58 + 8 * i
  { pcOff := recNat bs o 4, variant := recNat bs (o + 4) 1, warps := recNat bs (o + 5) 1 }
def switchRow (bs : List Byte) (k : Nat) : List Nat := (List.range 4).map fun n => recNat bs (0x80 + 16 * k + 4 * n) 4

/-- The fields of an entry record's bytes. The variants listed are all four; those present are named by VMASK. Bits [2:0] of CODE_BASE read
as 0, as those of a PC do (R27, log entry 42). -/
def entryOf (bs : List Byte) : EntryRec :=
  let roles := recNat bs 0x15 1
  { codeBase := recPtr bs 0 &&& ~~~7#64, warps := recNat bs 0x0C 2, vmask := recNat bs 0x0E 1 % 16, carryRegs := recNat bs 0x0F 1
    carryBound := recNat bs 0x10 4, switchCnt := recNat bs 0x14 1, roleCnt := roles
    variants := (List.range 4).map fun i => if (recNat bs 0x0E 1).testBit i then variantOf bs i else { pcOff := 0, floor := 0, ceil := 0, spad := 0 }
    roles := (List.range (min 4 roles)).map (roleOf bs)
    switch := (List.range (min 32 (recNat bs 0x14 1))).map (switchRow bs) }

/-- The present variants, in ascending order. -/
def EntryRec.present (e : EntryRec) : List Nat := (List.range 4).filter fun i => e.vmask.testBit i
def EntryRec.variant (e : EntryRec) (i : Nat) : Variant := e.variants.getD i { pcOff := 0, floor := 0, ceil := 0, spad := 0 }

/-- Reads the bytes of the entry record that a launch names (code 0x02). -/
def readEntry (s : State) (asid : Nat) (p : DWord) : Option (List Byte) :=
  if !ptrWellFormed p || 3 < spaceOf p || p.toNat % 128 ≠ 0 then none
  else
    match readVirtual s asid p 128 with
    | none => none
    | some h => readVirtual s asid p (128 + 16 * recNat h 0x14 1)

/-- A present variant keeps the limits of R54 and the carry limits of R56. -/
def variantOk (e : EntryRec) (v : Variant) : Bool :=
  v.pcOff % 8 == 0 && 1 ≤ v.floor && v.floor ≤ v.ceil && v.ceil ≤ 256 && v.spad % 128 == 0 && v.spad ≤ 917504
    && e.carryRegs ≤ v.floor && e.carryBound ≤ v.spad

/-- Every PC_OFF of an entry record's bytes is a multiple of 8 (R56), those of absent variants and of roles beyond ROLE_CNT among them (log entry 38). -/
def offsetsOk (bs : List Byte) : Bool := (List.range 4).all fun i => (variantOf bs i).pcOff % 8 == 0 && (roleOf bs i).pcOff % 8 == 0

/-- The other conditions of R56 (code 0x03) for an extent of field 0. -/
def entryOk (e : EntryRec) (n0 : Nat) : Bool :=
  1 ≤ e.warps && e.warps ≤ 32 && n0 == 32 * e.warps && e.vmask.testBit 0 && e.present.all (fun i => variantOk e (e.variant i))
    && e.carryBound % 128 == 0 && e.switchCnt ≤ 32 && e.roleCnt ≤ 4
    && e.roles.all (fun r => r.variant ≤ 3 && e.vmask.testBit r.variant && r.pcOff % 8 == 0)
    && e.switch.all fun row => row.all fun x => x == 0xFFFFFFFF || x % 8 == 0

/-! ## Launch records (R88, R24, R25) -/

/-- A launch as its record and entry give it; its identity comes at acceptance. The reserved bits of FLAGS read as 0 (R4, R89). -/
def launchOfRec (bs : List Byte) (e : EntryRec) (asid depth : Nat) (now : Nat) : Launch :=
  { id := 0, asid := asid, depth := depth, entry := e, args := recPtr bs 0x08, seed := recPtr bs 0x10
    flags := BitVec.ofNat 32 (recNat bs 0x18 1 % 2 ^ 7), wdog := recNat bs 0x1C 4
    widths := (List.range 6).map fun i => recNat bs (0x20 + i) 1, extents := (List.range 6).map fun i => recNat bs (0x28 + 8 * i) 8
    gangField := recNat bs 0x26 1, localSize := recNat bs 0x58 4, localSlots := recNat bs 0x5C 4, localBase := recPtr bs 0x60
    argCount := recNat bs 0x68 8, argStride := recNat bs 0x70 2, chunkMin := recNat bs 0x72 2, pinQuota := recNat bs 0x74 4
    complete := recPtr bs 0x78, queues := (List.range 4).map fun i => recPtr bs (0x80 + 8 * i), waitSince := now }

/-- The limits of R24 and R25 (code 0x04). -/
def widOk (l : Launch) : Bool :=
  let w (i : Nat) : Nat := l.widths.getD i 0
  let n (i : Nat) : Nat := l.extents.getD i 0
  l.widths.foldl (· + ·) 0 ≤ 64 && 5 ≤ w 0 && w 0 ≤ 10 && n 0 == 32 * l.entry.warps && l.gangField ≤ 5
    && (List.range 6).all fun i => 1 ≤ n i && n i ≤ 2 ^ w i

/-- Blocks of a launch (R25). -/
def Launch.blocks (l : Launch) : Nat := (l.extents.drop 1).foldl (· * ·) 1

/-- WID of a block, field 0 clear (R24, R99). -/
def Launch.blockWid (l : Launch) (lin : Nat) : DWord :=
  let step (acc : Nat × Nat × Nat) (i : Nat) : Nat × Nat × Nat :=
    let n := l.extents.getD i 1
    (acc.1 + acc.2.1 % n * 2 ^ acc.2.2, acc.2.1 / n, acc.2.2 + l.widths.getD i 0)
  BitVec.ofNat 64 ([1, 2, 3, 4, 5].foldl step (0, lin, l.widths.getD 0 0)).1

/-! ## What a block needs (R100, R102, R106, R113) -/

/-- The role of warp i, and its first warp. -/
def roleAt (rs : List Role) (i k : Nat) : Nat :=
  match rs with
  | [] => k
  | r :: t => if i < r.warps then k else roleAt t (i - r.warps) (k + 1)

/-- The role of warp i of a pipeline block; 0 otherwise. -/
def EntryRec.roleOfWarp (e : EntryRec) (i : Nat) : Nat := if e.roleCnt = 0 then 0 else roleAt e.roles i 0

/-- The variant whose registers warp i takes (R113). -/
def EntryRec.warpVariant (e : EntryRec) (n i : Nat) : Nat :=
  if e.roleCnt = 0 then n else ((e.roles[e.roleOfWarp i]?).map Role.variant).getD 0

/-- Start PC offset of warp i (R136). -/
def EntryRec.startOff (e : EntryRec) (n i : Nat) : Nat :=
  if e.roleCnt = 0 then (e.variant n).pcOff else ((e.roles[e.roleOfWarp i]?).map Role.pcOff).getD 0

/-- Floor and ceiling of each warp of a fresh block. -/
def EntryRec.needs (e : EntryRec) (n : Nat) : List (Nat × Nat) :=
  (List.range e.warps).map fun i => let v := e.variant (e.warpVariant n i); (v.floor, v.ceil)

/-- Bytes of the scratchpad region (R100, R113). -/
def EntryRec.region (e : EntryRec) (n : Nat) : Nat :=
  if e.roleCnt = 0 then (e.variant n).spad else e.roles.foldl (fun m r => max m (e.variant r.variant).spad) 0

/-! ## The room of a core (R100–R105, R178) -/

/-- What a core holds: effective floor and ceiling of each warp by partition, free registers by partition, the scratchpad regions, the capacity if a
block is resident, the warps that have not exited, the matrix registers claimed (kind and number, R350), the entries in use of the Gate (R386) and
of the command queue (R16). -/
structure CoreRoom where
  warps  : List (List (Nat × Nat)) := List.replicate 16 []
  free   : List Nat := List.replicate 16 1024
  spans  : List (Nat × Nat) := []
  cap    : Option Nat := none
  load   : Nat := 0
  claims : List (Nat × Nat) := []
  gate   : Nat := 0
  cmds   : Nat := 0
  deriving DecidableEq, Repr

/-- Scratchpad bytes of a split (R105, R437). -/
def spadCap (steps : Nat) : Nat := 262144 + 131072 * min 5 steps

/-- The room of a core as it stands, without the blocks that `skip` names. -/
def roomOf (s : State) (skip : Nat → Bool) (core : Nat) : CoreRoom :=
  let part (p : Nat) : List (Nat × Nat) :=
    ((s.partWarps (16 * core + p)).filter fun e => !skip e.2.block).map fun e => (e.2.effFloor, e.2.ceil)
  let back (p : Nat) : Nat :=
    (((s.partWarps (16 * core + p)).filter fun e => skip e.2.block).map fun e => e.2.vcount).foldl (· + ·) 0
  let here := s.blocks.filter fun e => e.2.core == core && !skip e.1 && (match e.2.st with | .saved => false | _ => true)
  { warps := (List.range 16).map part
    free := (List.range 16).map fun p => s.freeRegs (16 * core + p) + back p
    spans := here.map fun e => (e.2.spadBase, e.2.spadBytes)
    cap := if here.isEmpty then none else some (spadCap (s.core core).split)
    load := (s.warps.filter fun e => coreOf e.1 == core && e.2.live != 0).length
    claims := ((s.core core).claims.filter fun k => !skip k.block).map fun k => (k.kind, k.n)
    gate := ((s.core core).gate.filter fun e => !((s.warp? e.2.warp).any fun w => skip w.block)).length
    cmds := ((s.core core).cmds.filter fun c => !skip c.block).length }

/-- F of R178. -/
def effOf (floor ceil : Nat) : Nat := max floor ((ceil + 32) / 33)

/-- The warps of a block that go to a partition, each with F and C (R102). -/
def shareOf (need : List (Nat × Nat)) (base p : Nat) : List (Nat × Nat) :=
  (need.zipIdx.filter fun e => (base + e.2) % 16 == p).map fun e => (effOf e.1.1 e.1.2, e.1.2)

/-- A partition takes warps, with registers to spare (R100, R118, R178). -/
def partFits (have_ more : List (Nat × Nat)) (margin : Nat) : Bool :=
  let l := have_ ++ more
  (more.isEmpty && margin == 0) ||
    (l.length ≤ 16 && (l.map fun e => e.1).foldl (· + ·) 0 + (l.map fun e => e.2 - e.1).foldl max 0 + margin ≤ 1024)

/-- Inserts a span by its base. -/
def insSpan (x : Nat × Nat) (l : List (Nat × Nat)) : List (Nat × Nat) :=
  match l with
  | [] => [x]
  | y :: r => if x.1 ≤ y.1 then x :: y :: r else y :: insSpan x r

/-- The base of the lowest free range of n bytes from a place up (R100). -/
def lowestFree (n at_ : Nat) (spans : List (Nat × Nat)) : Nat :=
  match spans with
  | [] => at_
  | x :: r => if at_ + n ≤ x.1 then at_ else lowestFree n (max at_ (x.1 + x.2)) r

/-- The partition with the most free registers, the lowest of equals (R102). -/
def bestBase (free : List Nat) : Nat :=
  ((List.range 16).foldl (fun (a : Nat × Nat) p => if a.2 < free.getD p 0 then (p, free.getD p 0) else a) (0, free.getD 0 0)).1

/-- What a block asks of a core. `base` is fixed in deterministic mode; `places` are the partitions that a move keeps (R117); a saved block brings
its claims, its fragments and its commands (R16, R350, R386). -/
structure Ask where
  need   : List (Nat × Nat)
  bytes  : Nat
  base   : Option Nat
  steps  : Nat
  margin : Nat := 0
  places : Option (List Nat) := none
  claims : List (Nat × Nat) := []
  gate   : Nat := 0
  cmds   : Nat := 0
  deriving DecidableEq, Repr

/-- The share of a partition under an ask. -/
def Ask.share (a : Ask) (base p : Nat) : List (Nat × Nat) :=
  match a.places with
  | none => shareOf a.need base p
  | some l => ((a.need.zip l).filter fun e => e.2 == p).map fun e => (effOf e.1.1 e.1.2, e.1.2)

/-- Where a block fits on a core (R100): partition base, region base and capacity. -/
def CoreRoom.fit (r : CoreRoom) (a : Ask) : Option (Nat × Nat × Nat) :=
  let base := a.base.getD (bestBase r.free)
  let cap := r.cap.getD (max (spadCap a.steps) ((a.bytes + 131071) / 131072 * 131072))
  let at_ := lowestFree a.bytes 0 (r.spans.foldr insSpan [])
  if (List.range 16).all (fun p => partFits (r.warps.getD p []) (a.share base p) a.margin) && at_ + a.bytes ≤ cap
      && !a.claims.any r.claims.contains && (a.gate = 0 || r.gate + a.gate ≤ 4096) && (a.cmds = 0 || r.cmds + a.cmds ≤ 64) then
    some (base, at_, cap)
  else none

/-- The room that is left once a block has been placed. -/
def CoreRoom.take (r : CoreRoom) (a : Ask) (at_ : Nat × Nat × Nat) : CoreRoom :=
  { r with warps := (List.range 16).map fun p => r.warps.getD p [] ++ a.share at_.1 p
           spans := r.spans ++ [(at_.2.1, a.bytes)]
           cap := some at_.2.2
           load := r.load + a.need.length
           claims := r.claims ++ a.claims, gate := r.gate + a.gate, cmds := r.cmds + a.cmds }

/-! ## Placing a unit (R101–R108, R124) -/

/-- A member of a unit: its linear index and, if it is saved, its block. -/
structure Unit1 where
  lin   : Nat
  saved : Option Nat := none
  deriving DecidableEq, Repr

/-- A placement of a member. -/
structure Place where
  lin    : Nat
  saved  : Option Nat
  core   : Nat
  variant : Nat
  base   : Nat
  spadAt : Nat
  cap    : Nat
  deriving DecidableEq, Repr

/-- The values of R104 for a block: home core and partition base. -/
def detHome (l : Launch) (lin : Nat) : Nat × Nat :=
  let ws := gen l.seed (BitVec.ofNat 64 lin) 0
  let m := memberOf l lin
  let w0 := gen l.seed (BitVec.ofNat 64 (lin - m)) 0
  (if l.yardGang then 8 * ((w0.getD 0 0).toNat % 27) + ((w0.getD 1 0).toNat + m) % 8 else (ws.getD 0 0).toNat % 216,
   (ws.getD 2 0).toNat % 16)

/-- What a member asks: of a fresh block with a variant, or of a saved one. -/
def askOf (s : State) (l : Launch) (m : Unit1) (variant : Nat) : Ask :=
  let base := if l.det then some (detHome l m.lin).2 else none
  match m.saved.bind fun b => s.block? b with
  | some b =>
    let ws := tgetD s.savedWarps (m.saved.getD 0) []
    let kept := tgetD s.savedCore (m.saved.getD 0) {}
    { need := (List.range b.warps).map fun i => ((ws.find? fun w => w.idx == i).map fun w => (w.floor, w.ceil)).getD (0, 0)
      bytes := b.spadBytes, base := base, steps := s.spadSplit
      claims := kept.claims.map fun k => (k.kind, k.n)
      gate := (ws.map fun w => w.frags.length).sum + (kept.gate.filter fun e => e.2.leaving).length
      cmds := (tgetD s.savedCmds (m.saved.getD 0) []).length }
  | none => { need := l.entry.needs variant, bytes := l.entry.region variant, base := base, steps := s.spadSplit }

/-- The variants that a member may take: its own if it is saved; the first of a pipeline entry, whose roles name theirs. -/
def variantsOf (s : State) (l : Launch) (m : Unit1) : List Nat :=
  match m.saved.bind fun b => s.block? b with
  | some b => [b.variant]
  | none => if l.entry.roleCnt = 0 then l.entry.present else [0]

/-- The yard of a core may receive blocks (R435), and the core is not cut off (R279). -/
def coreReady (s : State) (core : Nat) : Bool :=
  s.ready.getLsbD (10 + core / 8) && !s.fatal && !(s.core core).needsReset && !s.fenced.contains core

/-- Places one member on a core, with the lowest-numbered variant that fits. -/
def placeOn (s : State) (l : Launch) (room : CoreRoom) (m : Unit1) (core : Nat) : Option (Place × CoreRoom) :=
  (variantsOf s l m).findSome? fun v =>
    let a := askOf s l m v
    (room.fit a).map fun f =>
      ({ lin := m.lin, saved := m.saved, core := core, variant := v, base := f.1, spadAt := f.2.1, cap := f.2.2 }, room.take a f)

/-- The rooms as members take them: those changed so far over what the cores hold. -/
abbrev Rooms := Tbl CoreRoom

/-- Of the cores on which a member fits, the one with the fewest warps (R103). -/
def placeNormal (s : State) (l : Launch) (room : Nat → CoreRoom) (rs : Rooms) (cores : List Nat) (m : Unit1) :
    Option (Place × CoreRoom) :=
  cores.foldl (fun acc c =>
    let r := tgetD rs c (room c)
    let better : Bool := match acc with | some (p, _) => decide (r.load < (tgetD rs p.core (room p.core)).load) | none => true
    if better then (match placeOn s l r m c with | some x => some x | none => acc) else acc) none

/-- Places members one after another; `pick` says on which cores each may go, given those before it. -/
def placeSeq (s : State) (l : Launch) (room : Nat → CoreRoom) (pick : Unit1 → List Place → List Nat) (first : Bool)
    (rs : Rooms) (ms : List Unit1) (acc : List Place) : Option (List Place) :=
  match ms with
  | [] => some acc
  | m :: t =>
    let cs := pick m acc
    let got : Option (Place × CoreRoom) :=
      if first then cs.findSome? fun c => placeOn s l (tgetD rs c (room c)) m c else placeNormal s l room rs cs m
    match got with
    | none => none
    | some (p, r) => placeSeq s l room pick first (tset rs p.core r) t (acc ++ [p])

/-- Warps in a yard. -/
def yardLoad (room : Nat → CoreRoom) (y : Nat) : Nat := ((List.range 8).map fun c => (room (8 * y + c)).load).foldl (· + ·) 0

/-- The cores of the device that may receive blocks. -/
def readyCores (ok : Nat → Bool) : List Nat := (List.range 216).filter ok

/-- Where the members of a gang that are resident stand: under GANG_COMPAT with YARD_GANG a member joins their yard. -/
def mates (s : State) (l : Launch) (m : Unit1) : List Nat :=
  (s.blocks.filter fun e => e.2.launch == l.id && gangOf l e.2.lin == gangOf l m.lin && e.2.lin != m.lin
    && (match e.2.st with | .saved => false | _ => true)).map fun e => e.2.core

/-- Places a unit under YARD_GANG in normal mode (R108, R124): the yard with the fewest warps in which each member finds a core. -/
def placeYard (s : State) (l : Launch) (room : Nat → CoreRoom) (ok : Nat → Bool) (near : List Nat) (ms : List Unit1) :
    Option (List Place) :=
  let yards := (List.range 27).filter fun y => near.isEmpty || near.all fun c => c / 8 == y
  let pick (y : Nat) (m : Unit1) (acc : List Place) : List Nat :=
    let own : List Nat := match m.saved.bind fun b => s.block? b with
      | some b => [8 * y + b.core % 8]
      | none => (List.range 8).map fun c => 8 * y + c
    own.filter fun c => ok c && !near.contains c && !acc.any fun p => p.core == c
  (yards.foldl (fun (acc : Option (Nat × List Place)) y =>
    let load := yardLoad room y
    let better : Bool := match acc with | some a => decide (load < a.1) | none => true
    if better then
      (match placeSeq s l room (pick y) true [] ms [] with
        | some ps => some (load, ps)
        | none => acc)
    else acc) none).map fun a => a.2

/-- Places a unit, or finds that it does not fit (R100–R108). -/
def placeUnit (s : State) (l : Launch) (room : Nat → CoreRoom) (ok : Nat → Bool) (near : List Nat) (ms : List Unit1) :
    Option (List Place) :=
  if l.det then
    placeSeq s l room (fun m _ => [(detHome l m.lin).1].filter ok) true [] ms []
  else if l.yardGang then placeYard s l room ok near ms
  else placeSeq s l room (fun _ _ => readyCores ok) false [] ms []

/-! ## The checks of R90 -/

/-- The members of a gang. -/
def gangUnit (l : Launch) (gang : Nat) : List Unit1 := (List.range (gangSize l)).map fun i => { lin := gang * gangSize l + i }

/-- Gangs i to i + n − 1 all fit an empty device. -/
def gangsFit (s : State) (l : Launch) (n i : Nat) : Bool :=
  match n with
  | 0 => true
  | k + 1 => (placeUnit s l (fun _ => {}) (fun _ => true) [] (gangUnit l i)).isSome && gangsFit s l k (i + 1)

/-- One block fits an empty core (code 0x05). -/
def blockFitsEver (s : State) (l : Launch) : Bool :=
  (placeOn s { l with flags := l.flags &&& ~~~ 1 } {} { lin := 0 } 0).isSome

/-- Every gang fits an empty device (code 0x06). -/
def gangFitsEver (s : State) (l : Launch) : Bool :=
  let n := gangSize l
  !(l.yardGang && 8 < n) && n ≤ 216 * 256 && (n = 1 || gangsFit s l (if l.det then l.blocks / n else 1) 0)

/-- A stage queue descriptor (R114). -/
structure StageQueue where
  prod  : Nat
  cons  : Nat
  size  : Nat
  slots : Nat
  off   : Nat
  deriving DecidableEq, Repr

/-- The valid queues of a launch. -/
def Launch.stageQueues (l : Launch) : List StageQueue :=
  (l.queues.filter fun q => q.getLsbD 52).map fun q =>
    let x := q.toNat
    { prod := nbits x 48 2, cons := nbits x 50 2, size := nbits x 32 16, slots := nbits x 24 8, off := nbits x 0 20 }

/-- End of a queue in its block's region. -/
def StageQueue.bound (q : StageQueue) : Nat := q.off + 128 + q.slots * q.size

/-- The conditions of R113 and R114 (code 0x08). A role of no warp, or of more than 32, is refused here too, for which the spec names no code
(log entry 36). -/
def pipelineOk (l : Launch) : Bool :=
  let e := l.entry
  let qs := l.stageQueues
  (e.roleCnt == 0 || ((e.roles.map Role.warps).foldl (· + ·) 0 == e.warps && e.roles.all fun r => 1 ≤ r.warps && r.warps ≤ 32))
    && qs.all (fun q => q.prod != q.cons && q.prod < e.roleCnt && q.cons < e.roleCnt && q.bound ≤ e.region 0
      && q.size % 16 == 0 && 16 ≤ q.size && 1 ≤ q.slots && q.off % 128 == 0)
    && qs.zipIdx.all fun a => qs.zipIdx.all fun b => a.2 == b.2 || a.1.bound ≤ b.1.off || b.1.bound ≤ a.1.off

/-- The conditions of code 0x09. -/
def localOk (l : Launch) : Bool :=
  l.localSlots != 0 && (l.gangCompat || gangSize l ≤ l.localSlots) && l.localSize % 16 == 0 && l.localBase.toNat % 128 == 0

/-- The conditions of code 0x0A. -/
def batchOk (l : Launch) : Bool :=
  !l.batch || (l.entry.roleCnt == 0 && l.argCount < 2 ^ 40 && l.argStride % 8 == 0 && 8 ≤ l.argStride && 1 ≤ l.chunkMin)

/-- The launches that are accepted and not complete (R91). -/
def State.queueFull (s : State) : Bool := 4096 ≤ s.launches.length

/-- The checks of a record of KIND 0, in the order of R90: the first refusal code, or the launch. -/
def checkLaunch (s : State) (asid depth : Nat) (child : Bool) (bs : List Byte) : Except Nat Launch :=
  if child && s.queueFull then .error 0x01
  else
    match readEntry s asid (recPtr bs 0) with
    | none => .error 0x02
    | some rec_ =>
      let e := entryOf rec_
      let l := launchOfRec bs e asid depth s.devNs
      if !entryOk e (l.extents.getD 0 0) || !offsetsOk rec_ then .error 0x03
      else if !widOk l then .error 0x04
      else if !blockFitsEver s l then .error 0x05
      else if !gangFitsEver s l then .error 0x06
      else if l.det && l.gangCompat then .error 0x07
      else if !pipelineOk l then .error 0x08
      else if !localOk l then .error 0x09
      else if !batchOk l then .error 0x0A
      else if 15 < depth then .error 0x0B
      else .ok l

/-- Accepts a launch (R91): it takes the next number and waits behind those before it. -/
def acceptLaunch (s : State) (l : Launch) : State × Nat :=
  let id := s.launchCtr
  ({ s with launchCtr := if id + 1 = 2 ^ 56 then 1 else id + 1
            launches := tset s.launches id { l with id := id }
            waiting := s.waiting ++ [.fresh id] }, id)

/-- The checks and acceptance together: the code and, for an accepted launch, its number. -/
def submitLaunch (s : State) (asid depth : Nat) (child : Bool) (bs : List Byte) : State × Nat × Nat :=
  match checkLaunch s asid depth child bs with
  | .error c => (s, c, 0)
  | .ok l => let r := acceptLaunch s l; (r.1, 0, r.2)

/-! ## The waiting order (R99, R107, R109, R118) -/

/-- A unit that waits, with its launch; `head` says that it has been moved to the head of the order (R109). -/
structure Waiter where
  launch  : Nat
  members : List Unit1
  item    : WaitItem
  since   : Nat
  head    : Bool := false
  deriving DecidableEq, Repr

/-- The name of a unit in a reservation (R110): its place in the order and its first member. -/
def Waiter.key (w : Waiter) : WaitItem × Nat := (w.item, (w.members.head?.map fun m => m.lin).getD 0)

/-- A launch's blocks are eligible for admission (R118). -/
def Launch.eligible (l : Launch) : Bool := !l.held && !l.cancelled && !l.lost

/-- Size of a unit of admission, and a unit's members (R107, R109). -/
def Launch.unitSize (l : Launch) : Nat := if l.gangCompat then 1 else gangSize l
def Launch.unitOf (l : Launch) (u : Nat) : List Unit1 := (List.range l.unitSize).map fun i => { lin := u * l.unitSize + i }
def Launch.units (l : Launch) : Nat := l.blocks / l.unitSize

/-- The first unit from u on, among n, that has not been admitted and that a test accepts. -/
def nextUnit? (l : Launch) (ok : Nat → Bool) (n u : Nat) : Option Nat :=
  match n with
  | 0 => none
  | k + 1 => if !l.admitted.contains (u * l.unitSize) && ok u then some u else nextUnit? l ok k (u + 1)

/-- A fresh unit's waiter. -/
def freshWaiter (l : Launch) (u : Nat) : Waiter :=
  { launch := l.id, members := l.unitOf u, item := .fresh l.id, since := max l.waitSince l.openSince }

/-- A place in the waiting order as waiters that are eligible: of a fresh launch its first unit that is not admitted. -/
def itemWaiter (s : State) (i : WaitItem) : Option Waiter :=
  match i with
  | .fresh id => (s.launch? id).bind fun l =>
      if l.eligible then (nextUnit? l (fun _ => true) (l.units - l.nextUnit) l.nextUnit).map (freshWaiter l) else none
  | .saved bs t =>
    let ms : List Unit1 := bs.filterMap fun b => (s.block? b).map fun x => { lin := x.lin, saved := some b }
    (((bs.head?.bind fun b => s.block? b).bind fun b => s.launch? b.launch).bind fun l =>
      if l.eligible then some { launch := l.id, members := ms, item := i, since := max t l.openSince } else none)

/-- Free local slots of a launch (R106). -/
def Launch.freeSlots (l : Launch) (n : Nat) : Bool := l.slotsUsed.length + n ≤ l.localSlots

/-- Where a waiter can be placed now: none if it does not fit. `ok` restricts the cores. -/
def placeWaiter (s : State) (ok : Nat → Bool) (room : Nat → CoreRoom) (w : Waiter) : Option (List Place) :=
  match s.launch? w.launch with
  | none => none
  | some l =>
    let fresh := (w.members.filter fun m => m.saved.isNone).length
    let near : List Nat := if l.gangCompat && l.yardGang then (match w.members with | m :: _ => mates s l m | [] => []) else []
    if !l.freeSlots fresh then none else placeUnit s l room (fun c => coreReady s c && ok c) near w.members

/-- The launch of a place in the waiting order has units that wait (R118). -/
def itemWaits (s : State) (i : WaitItem) : Bool := (itemWaiter s i).isSome

/-- The reservation that stands, if its unit still waits. -/
def State.reservation (s : State) : Option (WaitItem × Nat) := s.reserved.filter fun k => itemWaits s k.1

/-- A unit stands before the reserved one in the waiting order. -/
def beforeReserved (s : State) (w : Waiter) (k : WaitItem × Nat) : Bool :=
  w.head || (if w.item == k.1 then w.key.2 < k.2
    else s.waiting.idxOf w.item < s.waiting.idxOf k.1)

/-- The cores whose room a reserved unit needs are closed to later units (R110). -/
def openTo (s : State) (w : Waiter) (core : Nat) : Bool :=
  match s.reservation with
  | none => true
  | some k => w.key == k || beforeReserved s w k || !s.reservedCores.contains core

/-- A running command stands before a member that has not started: a pointer of its next unit names the yard scratchpad of a core without one (R109). -/
def cmdAsks (s : State) (b : Block) (c : Cmd) : Bool :=
  let shut (p : DWord) : Bool := spaceOf p == 9 && (s.gangBlockOn b (b.core / 8 * 8 + nbits p.toNat 20 3)).isNone
  c.st == .running && s.gangWaits b && match c.kind with
    | .copy .cpym r => (c.readTo < c.units && shut (r.srcAt c.readTo))
        || (c.dests r).any fun d => c.mark d < c.units && (shut (coreField (r.dstAt (c.mark d)) d) || shut (coreField c.done d))
    | .copy _ r => c.next < c.units && (shut (r.srcAt c.next) || shut (r.dstAt c.next) || shut c.done)
    | .tld _ _ p pitch => c.next < c.units && shut (addOffset p ((c.next * pitch : Nat) : Int))
    | .tst _ _ p pitch => c.next < c.units && shut (addOffset p ((c.next * pitch : Nat) : Int))
    | _ => false

/-- The blocks that wait for a member of their gang to start (R109), as launch and linear index: by an access that is outstanding, which may outlive the
block, by a parked split, or by a command. -/
def memberAskers (s : State) : List (Nat × Nat) :=
  let ofBlock (b : Nat) : Option (Nat × Nat) := (s.block? b).map fun x => (x.launch, x.lin)
  let ofOp (o : LsuOp) : Option (Nat × Nat) := match o.space with | .member lin => some (o.launch, lin) | _ => none
  let ofEntry (e : Entry) : Option (Nat × Nat) := match e.st with | .parked (.member b) => ofBlock b | _ => none
  let ofCmd (c : Cmd) : Option (Nat × Nat) := if (s.block? c.block).any fun b => cmdAsks s b c then ofBlock c.block else none
  ((s.cores.flatMap fun c => c.2.ops.filterMap ofOp ++ c.2.cmds.filterMap ofCmd) ++ s.warps.flatMap fun w => w.2.entries.filterMap ofEntry).dedup

/-- The members at the head of the order (R109): for each asker the lowest-numbered member of its gang that has not started. The spec does not
say which of several an access means, since an unstarted member has no core yet (log entry 43). -/
def headWaiters (s : State) : List Waiter :=
  (memberAskers s).filterMap fun a =>
    match s.launch? a.1 with
    | some l =>
      if l.gangCompat && l.eligible then
        ((gangUnit l (gangOf l a.2)).find? fun m => !l.admitted.contains m.lin).map fun m => { freshWaiter l m.lin with head := true }
      else none
    | none => none

/-- The waiters in order, of a fresh launch its first unit; the search below takes the later ones one by one. -/
def State.waiters1 (s : State) : List Waiter := headWaiters s ++ s.waiting.filterMap (itemWaiter s)

/-- Units of a launch differ in where they may go: by their home cores (R104), or by the yard of their gang (R108, R109). -/
def Launch.placed (l : Launch) : Bool := l.det || (l.gangCompat && l.yardGang)

/-- The first unit of a launch that fits, from unit u on (R99). In deterministic mode earlier units that do not fit block their home cores
(R104); where all units are alike, one that fits nowhere stands for the rest. -/
def unitFit (s : State) (l : Launch) (n u : Nat) (shut : List Nat) : Option (Waiter × List Place) :=
  match n with
  | 0 => none
  | k + 1 =>
    if l.admitted.contains (u * l.unitSize) then unitFit s l k (u + 1) shut
    else
      let w := freshWaiter l u
      let homes := if l.det then w.members.map fun m => (detHome l m.lin).1 else []
      let got := if homes.any fun h => shut.contains h then none else placeWaiter s (openTo s w) (roomOf s fun _ => false) w
      match got with
      | some ps => some (w, ps)
      | none =>
        if !l.placed || 216 ≤ shut.length then none else unitFit s l k (u + 1) (shut ++ homes.filter fun h => !shut.contains h)

/-- The earliest waiter that fits, with its placement (R99). -/
def firstFit (s : State) (ws : List Waiter) : Option (Waiter × List Place) :=
  match ws with
  | [] => none
  | w :: r =>
    let got : Option (Waiter × List Place) :=
      match w.item, s.launch? w.launch with
      | .fresh _, some l =>
        if w.head then (placeWaiter s (openTo s w) (roomOf s fun _ => false) w).map fun ps => (w, ps)
        else unitFit s l (l.units - l.nextUnit) l.nextUnit []
      | _, _ => (placeWaiter s (openTo s w) (roomOf s fun _ => false) w).map fun ps => (w, ps)
    match got with
    | some x => some x
    | none => firstFit s r

/-- Some waiting unit, of those that stand at the head and of every launch, passes a test: where the units of a launch are alike, its first stands for all. -/
def anyWaiter (s : State) (test : Waiter → Bool) : Bool :=
  (headWaiters s).any test || s.waiting.any fun i =>
    match i with
    | .fresh id => (s.launch? id).any fun l => l.eligible && l.placed
        && (nextUnit? l (fun u => test (freshWaiter l u)) (l.units - l.nextUnit) l.nextUnit).isSome
        || !l.placed && (itemWaiter s i).any test
    | i => (itemWaiter s i).any test

/-- Blocks that wait and are eligible (R118, R128). -/
def State.waitingCount (s : State) : Nat :=
  (s.waiting.map fun i => match i with
    | .fresh id => (match s.launch? id with | some l => if l.eligible then l.blocks - l.admitted.length else 0 | none => 0)
    | .saved bs _ => if (itemWaiter s i).isSome then bs.length else 0).foldl (· + ·) 0

end Sys2Proof.Machine
end

