-- ==== Sys2Proof/Machine/DispatchEngine.lean ====
section
/-! DEFINITION. The dispatch engine: the launch window, admission, quanta, saves, resumption, switch points, completion, and uniform
group 0x3 (R85–R131). -/

namespace Sys2Proof.Machine

/-! ## The end of a launch's blocks (R93, R126, R372) -/

/-- A saved block is discarded. -/
def discardSaved (s : State) (b : Nat) : State :=
  let s := s.modBlock b fun x => { x with named := [] }
  let s := s.blockFree b
  { s with savedWarps := tdel s.savedWarps b, savedCmds := tdel s.savedCmds b, savedCore := tdel s.savedCore b, saveUsed := tdel s.saveUsed b }

/-- A resident block is stopped: its commands end and its lanes are killed. -/
def stopBlock (s : State) (b core : Nat) (counted : Bool) : State :=
  let s := s.cancelCmds b core
  let ws := s.warpsOf b
  let s := if counted then s.count .laneKilled ((ws.map fun w => (lanesOf w.2.live).length).foldl (· + ·) 0) else s
  let s := forEach ws s fun s w => s.endLanes w.1 w.2.live
  s.blockExitTest b

/-- Every block of a launch goes, resident, saved or waiting. -/
def endLaunch (s : State) (id : Nat) (counted : Bool) : State :=
  let gone (i : WaitItem) : Bool := match i with
    | .fresh l => l == id
    | .saved bs _ => bs.any fun b => ((s.block? b).map Block.launch) == some id
  let s : State := { s with
    waiting := s.waiting.filter fun i => !gone i
    reserved := s.reserved.filter fun k => !gone k.1
    asyncs := s.asyncs.filter fun a => ((s.blockOf a.warp).map Block.launch) != some id }
  forEach (s.blocks.filter fun e => e.2.launch == id) s fun s e =>
    match e.2.st with
    | .saved => discardSaved s e.1
    | _ => stopBlock s e.1 e.2.core counted

/-- Cancel (R93). -/
def cancelLaunch (s : State) (id : Nat) : State := endLaunch (s.modLaunch id fun l => { l with cancelled := true }) id true

/-- A launch has lost its context (R126, R372): it completes with status 0x0002. -/
def loseLaunch (s : State) (id : Nat) : State := endLaunch (s.modLaunch id fun l => { l with lost := true }) id false

/-- MATRIX_ECC_ERROR (R372): an uncorrectable error in a claimed tile or region. -/
def execMatrixEccError (core : Nat) (region : Bool) (n : Nat) (s : State) : Host.Outcome State Fault Refusal :=
  match (s.core core).claims.find? fun k => k.kind == (if region then 1 else 0) && k.n == n with
  | none => .next s
  | some k =>
    match s.block? k.block with
    | none => .next s
    | some b => .next ({ loseLaunch s b.launch with uncorrected := min Config.counterMax (s.uncorrected + 1) }.tell (.matrixError core))

/-! ## The launch window (R85–R87, R93) -/

def slotAddr (s : State) (i : Nat) : Nat := s.lwinBase.toNat + 256 * i

/-- The 256 bytes of a slot, and a record's KIND. -/
def slotRec (s : State) (i : Nat) : List Byte := (s.cohRead (slotAddr s i) 256).1
def recKind (bs : List Byte) : Nat := recNat bs 0xFE 1

/-- Sealed records are parsed now (R435). -/
def parsing (s : State) : Bool := s.ready.getLsbD 4 && (s.svcMode == 0 || s.svcMode == 2)

/-- Answers a slot: LAUNCH_ID of an accepted launch, STATUS, and then the seal byte (R87). -/
def answerSlot (s : State) (i code id : Nat) : State :=
  let a := slotAddr s i
  let s := if id = 0 then s else s.cohWrite (a + 0xA0) (leOfNat 8 id)
  let s := s.cohWrite (a + 0xF8) (leOfNat 4 code)
  let s := s.cohWrite (a + 0xFF) [0]
  { s with sealedSlots := s.sealedSlots.filter fun x => x != i, heldSlots := s.heldSlots.filter fun x => x != i }

/-- SEAL_WRITE (R86): the host writes a slot's seal byte, a request like any other of its: it is held until CXLMEM is set (R435). -/
def execSealWrite (slot : Nat) (v : Byte) (s : State) : Host.Outcome State Fault Refusal :=
  if 256 ≤ slot then .next s else .next (s.hostAsks (.wr (slotAddr s slot + 255) [some v]))

/-- Parses a record of KIND 0 of a slot. -/
def parseSlot (s : State) (i : Nat) : State :=
  let r := submitLaunch s (tgetD s.slotAsid i 0) 0 false (slotRec s i)
  answerSlot r.1 i r.2.1 r.2.2

/-- LAUNCH_RECORD (R86, R90): the first sealed slot is parsed, if it is no control record; a launch that finds the queue full,
or others held before it, is held. -/
def execLaunchRecord (s : State) : Host.Outcome State Fault Refusal :=
  match s.sealedSlots with
  | [] => .next s
  | i :: r =>
    let k := recKind (slotRec s i)
    if !parsing s then .next s
    else if k = 0 then
      if s.queueFull || !s.heldSlots.isEmpty then .next { s with sealedSlots := r, heldSlots := s.heldSlots ++ [i] }
      else .next (parseSlot s i)
    else if 3 < k then .next (answerSlot s i 0x0C 0)
    else .next s

/-- HELD_RECORD_PARSE (R86): the first held record, once the queue has room. -/
def execHeldRecordParse (s : State) : Host.Outcome State Fault Refusal :=
  match s.heldSlots with
  | [] => .next s
  | i :: _ => if !parsing s || s.queueFull then .next s else .next (parseSlot s i)

/-- A control action, by a record at the head of the sealed slots or by the Farrier (R93). -/
def control (s : State) (kind : Nat) (by' : Asker) (act : State → Nat → State) : State :=
  match by' with
  | .farrier id => if (s.launch? id).isSome then act s id else s
  | .record =>
    match s.sealedSlots with
    | [] => s
    | i :: _ =>
      let bs := slotRec s i
      let id := recNat bs 0xA0 8
      if !parsing s || recKind bs ≠ kind then s
      else if (s.launch? id).isSome then answerSlot (act s id) i 0 0
      else answerSlot s i 0x0D 0

/-- Pre-empt: a save of every resident block is requested, and none is admitted. -/
def preEmptAct (s : State) (id : Nat) : State :=
  let s := s.modLaunch id fun l => { l with held := true }
  { s with blocks := s.blocks.map fun e => if e.2.launch == id then (e.1, { e.2 with saveReq := (match e.2.st with | .saved => false | _ => true) }) else e }

/-- Resume: the launch's blocks are eligible again; a requested save that has not been made is withdrawn (log entry 37). -/
def resumeAct (s : State) (id : Nat) : State :=
  let s := s.modLaunch id fun l => { l with held := false, openSince := s.devNs }
  { s with blocks := s.blocks.map fun e => if e.2.launch == id then (e.1, { e.2 with saveReq := false, stopping := false }) else e }

def execPreEmpt (by' : Asker) (s : State) : Host.Outcome State Fault Refusal := .next (control s 1 by' preEmptAct)
def execResume (by' : Asker) (s : State) : Host.Outcome State Fault Refusal := .next (control s 2 by' resumeAct)
def execCancel (by' : Asker) (s : State) : Host.Outcome State Fault Refusal := .next (control s 3 by' cancelLaunch)

/-! ## Completion (R92) -/

/-- Every block, command and write of a launch is done. -/
def launchDone (s : State) (l : Launch) : Bool :=
  (l.cancelled || l.lost || l.admitted.length == l.blocks) && !s.blocks.any (fun e => e.2.launch == l.id)
    && !s.cores.any fun c => c.2.ops.any fun o => o.launch == l.id

/-- Writes the completion word, or tells the Farrier that its pointer faults. -/
def writeCompletion (s : State) (l : Launch) : State :=
  let p := l.complete
  let v := nbits l.id 0 48 * 2 ^ 16 + if l.lost then 2 else if l.cancelled then 1 else 0
  if p = 0 then s
  else if 5 < spaceOf p || !ptrWellFormed p || p.toNat % 8 ≠ 0 then s.tell (.completionFault l.id p)
  else
    match translate s dispatchHolder l.asid (spaceOf p) (nbits p.toNat 0 57) .write with
    | .error _ => s.tell (.completionFault l.id p)
    | .ok a => if spaceOf p ≤ 3 then s.cohWrite a (leOfNat 8 v) else s.hostWrite a (leOfNat 8 v)

/-- LAUNCH_COMPLETE (R92). -/
def execLaunchComplete (launch : Nat) (s : State) : Host.Outcome State Fault Refusal :=
  match s.launch? launch with
  | none => .next s
  | some l =>
    if s.fatal || !launchDone s l then .next s
    else
      let s := writeCompletion s l
      .next { s.unpinAll launch with
        launches := tdel s.launches launch
        waiting := s.waiting.filter fun i => i != .fresh launch
        passes := s.passes.filter fun e => e.2.launch != launch }

/-! ## Admission (R94–R109, R136) -/

/-- The quantum in ns of device time (R121). -/
def quantumNs (s : State) : Nat := 1000 * max 50 (min 10000 (s.quantumUs % 2 ^ 14))

/-- The lowest free warp slot of a partition of the device. -/
def freeSlot (s : State) (p : Nat) : Nat := ((List.range 16).find? fun k => (s.warp? (16 * p + k)).isNone).getD 0

/-- The lowest free local slot of a launch (R106). -/
def freeLocal (l : Launch) : Nat := ((List.range (l.slotsUsed.length + 1)).find? fun k => !l.slotsUsed.contains k).getD 0

/-- Scratchpad split of a capacity. -/
def splitOf (cap : Nat) : Nat := (cap - 262144) / 131072

/-- Sets the split of a core that holds no block (R105): an L1 that shrinks loses lines (R228). -/
def setSplit (s : State) (p : Place) : State :=
  if (roomOf s (fun _ => false) p.core).cap.isSome then s
  else l1Shrink (s.modCore p.core fun c => { c with split := splitOf p.cap }) p.core

/-- A warp of a fresh block, as it starts (R95, R136, R206). DESIGN CHOICE, unsafe (log entry 130): it counts as having issued at its start, where R140
compares last issues. -/
def startWarp (s : State) (l : Launch) (p : Place) (bid i : Nat) : State :=
  let part := (p.base + i) % 16
  let k := freeSlot s (16 * p.core + part)
  let v := l.entry.variant (l.entry.warpVariant p.variant i)
  let n := s.newId
  let w : Warp :=
    { block := bid, idx := i, core := p.core, part := part, slot := k, role := l.entry.roleOfWarp i, floor := v.floor, ceil := v.ceil
      live := BitVec.allOnes 32, budget := wdogBudget s l 0, lastIssue := s.now
      entries := [{ eid := n.2, pc := l.entry.codeBase + BitVec.ofNat 64 (l.entry.startOff p.variant i), prio := 32
                    mask := BitVec.allOnes 32, st := .ready }] }
  n.1.setWarp (256 * p.core + 16 * part + k) w

/-- A member of a gang has started: the accesses that waited for it are performed, and parked splits execute theirs again (R109). -/
def releaseMembers (s : State) (l : Launch) (gang : Nat) : State :=
  let s := runMembers s
  let mine (b : Nat) : Bool := match s.block? b with
    | some x => x.launch == l.id && gangOf l x.lin == gang
    | none => false
  let waits (e : Entry) : Bool := match e.st with | .parked (.member b) => mine b | _ => false
  { s with warps := s.warps.map fun w =>
      if w.2.entries.any waits then
        (w.1, ({ w.2 with entries := w.2.entries.map fun e => if waits e then { e with st := .ready } else e } : Warp).merge)
      else w }

/-- The occupancy of a stage queue (R114, R115). -/
def queueFill (s : State) (bid : Nat) (q : StageQueue) : Nat :=
  let w (o : Nat) : Nat := natOfLe (spadRead s bid (q.off + o) 4)
  (w 0 + 2 ^ 32 - w 4) % 2 ^ 32

/-- The issue classes of a pipeline block's warps (R115). -/
def setClasses (s : State) (bid : Nat) : State :=
  match s.block? bid, (s.block? bid).bind fun b => s.launch? b.launch with
  | some b, some l =>
    if l.entry.roleCnt = 0 then s
    else
      let qs := l.stageQueues
      let exited (r : Nat) : Bool := (List.range b.warps).all fun i => l.entry.roleOfWarp i != r || b.exited.contains i
      let full (r : Nat) : Bool := qs.any fun q => q.prod == r && q.slots ≤ queueFill s bid q
      let high (r : Nat) : Bool := qs.any fun q => q.cons == r && q.slots < 2 * queueFill s bid q
      let empty (r : Nat) : Bool := qs.any fun q => q.cons == r && queueFill s bid q == 0 && !exited q.prod
      let f (w : Warp) : Warp := { w with cls := if high w.role then 2 else if full w.role then 0 else 1, clsHold := empty w.role }
      { s with warps := s.warps.map fun w => if w.2.block == bid then (w.1, f w.2) else w }
  | _, _ => s

/-- ISSUE_CLASS_UPDATE (R115). -/
def execIssueClassUpdate (block : Nat) (s : State) : Host.Outcome State Fault Refusal := .next (setClasses s block)

/-- Admits a fresh block (R97, R99–R106, R136). -/
def admitOne (s : State) (id : Nat) (p : Place) : State :=
  match s.launch? id with
  | none => s
  | some l =>
    let s := setSplit s p
    let slot := freeLocal l
    let n := s.newId
    let b : Block :=
      { launch := id, lin := p.lin, wid := l.blockWid p.lin, core := p.core, base := p.base, variant := p.variant, warps := l.entry.warps
        slot := slot, spadBase := p.spadAt, spadBytes := l.entry.region p.variant, quantumEnd := s.devNs + quantumNs s
        firmware := l.firmware }
    let s : State := { n.1 with blocks := tset n.1.blocks n.2 b }
    let s := s.modLaunch id fun l => { l with slotsUsed := l.slotsUsed ++ [slot], admitted := l.admitted ++ [p.lin] }
    let s := forEach (List.range l.entry.warps) s fun s i => startWarp s l p n.2 i
    let s := if l.depth = 0 then s else acquireL1 s p.core none
    releaseMembers (setClasses s n.2) l (gangOf l p.lin)

/-- CODE_REFRESH before a launch's first block (R94). -/
def codeRefresh (s : State) (id : Nat) : State :=
  match s.launch? id with
  | some l =>
    if l.codeRefresh && !l.refresh then
      let s : State := { s with icache := [] }
      let s := forEach s.cores s fun s c => acquireL1 s c.1 none
      s.modLaunch id fun l => { l with refresh := true }
    else s
  | none => s

/-- The launch's place in the waiting order after an admission: it goes once every unit is admitted. DESIGN CHOICE, unsafe (log entry 55): a later unit's
wait counts towards the full quantum of R110 from when it becomes the earliest of its launch. -/
def tidyWaiting (s : State) (id : Nat) : State :=
  match s.launch? id with
  | none => s
  | some l =>
    match nextUnit? l (fun _ => true) (l.units - l.nextUnit) l.nextUnit with
    | some u => s.modLaunch id fun l => { l with nextUnit := u, waitSince := if u = l.nextUnit then l.waitSince else s.devNs }
    | none => { s.modLaunch id (fun l => { l with nextUnit := l.units }) with waiting := s.waiting.filter fun i => i != .fresh id }

/-- A reservation ends when its unit is admitted (R110). -/
def endReserve (s : State) (w : Waiter) : State := if s.reserved = some w.key then { s with reserved := none, reservedCores := [] } else s

/-- BLOCK_ADMIT (R99, R107): the earliest waiting unit that fits, where it is a fresh one. -/
def execBlockAdmit (s : State) : Host.Outcome State Fault Refusal :=
  match firstFit s s.waiters1 with
  | some (w, ps) =>
    (match w.item with
      | .fresh id => .next (endReserve (tidyWaiting (forEach ps (codeRefresh s id) fun s p => admitOne s id p) id) w)
      | _ => .next s)
  | none => .next s

/-- ADMISSION_RESERVE (R110): the earliest waiting unit has waited a full quantum and fits nowhere; the cores that it would take
on a device with no block, the least loaded first, are kept for it. -/
def execAdmissionReserve (s : State) : Host.Outcome State Fault Refusal :=
  match s.waiters1 with
  | [] => .next s
  | w :: _ =>
    let now := placeWaiter s (fun _ => true) (roomOf s fun _ => false) w
    if s.reservation.isSome || now.isSome || s.devNs < w.since + quantumNs s then .next s
    else
      let bare (c : Nat) : CoreRoom := { load := (roomOf s (fun _ => false) c).load }
      let ps := (placeWaiter s (fun _ => true) bare w).getD []
      .next { s with reserved := some w.key, reservedCores := ps.map Place.core }

/-! ## Quanta and saves (R121–R126) -/

/-- A block is saved. -/
def Block.isSaved (b : Block) : Bool := match b.st with | .saved => true | _ => false

/-- The resident blocks of a block's gang, which are saved together. A block whose last lane has exited is not saved (R127). -/
def gangResident (s : State) (b : Block) : Tbl Block :=
  match s.launch? b.launch with
  | none => []
  | some l => s.blocks.filter fun e => e.2.launch == b.launch && gangOf l e.2.lin == gangOf l b.lin && !e.2.isSaved && !e.2.allExited

/-- The reserved unit as a waiter (R110). -/
def reservedWaiter (s : State) : Option Waiter :=
  s.reservation.bind fun k =>
    match k.1 with
    | .fresh id => (s.launch? id).map fun l => freshWaiter l (k.2 / l.unitSize)
    | i => itemWaiter s i

/-- A waiting unit could use the room of a gang (R121): it does not fit beside the blocks that stay, and it fits once the gang, or every block of
these cores whose quantum has ended, has left; or the cores are kept for a reserved unit that does not fit yet (R110). -/
def roomWanted (s : State) (gang : Tbl Block) : Bool :=
  let cores := (gang.map fun e => e.2.core).dedup
  let out (k : Nat) : Bool := match s.block? k with | some b => b.saveReq | none => false
  let mine (k : Nat) : Bool := gang.any fun e => e.1 == k
  let ended (k : Nat) : Bool := match s.block? k with | some b => cores.contains b.core && decide (b.quantumEnd ≤ s.devNs) | none => false
  let fits (w : Waiter) (skip : Nat → Bool) : Bool := (placeWaiter s (openTo s w) (roomOf s skip) w).isSome
  let kept : Bool := match reservedWaiter s with
    | some w => (cores.any fun c => s.reservedCores.contains c) && !fits w out
    | none => false
  kept || anyWaiter s fun w =>
    !fits w out && (fits w (fun k => out k || mine k) || fits w fun k => out k || ended k)

/-- The sizes of a block's save area's nine sections (R125, R426): warp control, register maps, registers, uniform, scratchpad,
matrix, commands, Gate, ray. -/
def saveSizes (s : State) (bid : Nat) (b : Block) : List Nat :=
  let ws := (s.warpsOf bid).map fun e => e.2
  let mapped := (ws.map fun w => w.vcount).foldl (· + ·) 0
  let claims := (s.core b.core).claims.filter fun k => k.block == bid
  let rays := (ws.map fun w => w.rays.length).foldl (· + ·) 0
  [2048 * b.warps, 64 * b.warps, 132 * mapped + 56 * b.warps, 512 * b.warps, b.spadBytes + b.spadBytes / 1024,
   65536 * (claims.filter fun k => k.kind == 0).length + 2 ^ 20 * (claims.filter fun k => k.kind == 1).length + 512, 4736,
   if b.pass.isSome then 64 + 1024 * b.warps else 0, if rays = 0 then 0 else 4 * b.warps + 128 * rays]

/-- Offsets of sections of given sizes from a place on, each at a multiple of 128; 0 if absent; and where they end. -/
def saveOffsets (at_ : Nat) (l : List Nat) : List Nat × Nat :=
  match l with
  | [] => ([], at_)
  | n :: r => let z := saveOffsets (at_ + (n + 127) / 128 * 128) r; ((if n = 0 then 0 else at_) :: z.1, z.2)

/-- Areas for blocks in the save region (R125): the lowest free ranges; none if the region has no room (R126). -/
def saveAlloc (s : State) (bs : Tbl Block) (used : Tbl (Nat × Nat)) : Option (Tbl (Nat × Nat)) :=
  match bs with
  | [] => some used
  | (k, b) :: r =>
    let n := (saveOffsets 128 (saveSizes s k b)).2
    let at_ := lowestFree n 0 ((used.map fun e => e.2).foldr insSpan [])
    if at_ + n ≤ s.ctxSize.toNat then saveAlloc s r (tset used k (at_, n)) else none

/-- A warp can be saved at this moment (R123, steps 1 and 2): its accesses have ended, its loads have arrived, and it waits for no
answer that must come first. -/
def warpQuiet (s : State) (g : Nat) (w : Warp) : Bool :=
  !(s.core (coreOf g)).ops.any (fun o => o.warp == g) && w.results.all (fun r => r.lanes.all fun l => l.2.vals.isSome)
    && !s.asyncs.any (fun a => a.warp == g)
    && w.entries.all fun e => match e.st with
      | .trap | .asked | .parked (.launch _) | .parked (.abort _) | .parked (.detAccess _) | .parked (.registration _) | .parked (.queuePush _ _ _ _)
      | .parked (.queuePop _ _ _ _ _) => false
      | _ => true

/-- A command can be stopped or kept at this moment (R123, step 3): ray and fragment-list commands that can run end first, and a
copy waits for the unit that it has sent. -/
def cmdQuiet (s : State) (core : Nat) (c : Cmd) : Bool :=
  match c.kind with
  | .flclr _ _ _ _ _ _ => c.st == .queued && s.edgeInto core c
  | .rqstep _ _ => s.edgeInto core c
  | _ => c.sent.isNone

def blockQuiet (s : State) (e : Nat × Block) : Bool :=
  (s.warpsOf e.1).all (fun w => warpQuiet s w.1 w.2) && (s.blockCmds e.1).all fun c => cmdQuiet s e.2.core c

/-- QUANTUM_END (R121): a save of the block and its gang is requested if a waiting block could use the room and the save region
has room for them. -/
def execQuantumEnd (block : Nat) (s : State) : Host.Outcome State Fault Refusal :=
  match s.block? block with
  | none => .next s
  | some b =>
    let gang := gangResident s b
    if b.isSaved || s.devNs < b.quantumEnd || (saveAlloc s gang s.saveUsed).isNone
        || !roomWanted s gang then .next s
    else .next (forEach gang s fun s e => s.modBlock e.1 fun x => { x with saveReq := true })

/-- Bit n of a mask for each number in a list. -/
def maskNat (l : List Nat) : Nat := (List.range 64).foldl (fun m i => if l.contains i then m + 2 ^ i else m) 0

/-- The header of a save area (R125). -/
def saveHeader (s : State) (bid : Nat) (b : Block) : List Byte :=
  let claims := (s.core b.core).claims.filter fun k => k.block == bid
  let offs := saveOffsets 128 (saveSizes s bid b)
  let pgs := (s.blockCmds bid).filterMap fun c => if c.st == .queued then none else c.pg
  leOfNat 8 b.launch ++ leOfNat 8 b.wid.toNat ++ leOfNat 1 b.variant ++ leOfNat 1 b.warps ++ leOfNat 2 b.core ++ leOfNat 4 b.spadBytes
    ++ leOfNat 2 (maskNat ((claims.filter fun k => k.kind == 0).map fun k => k.n))
    ++ leOfNat 1 (maskNat ((claims.filter fun k => k.kind == 1).map fun k => k.n)) ++ leOfNat 1 (maskNat pgs) ++ leOfNat 4 b.slot
    ++ (offs.1.take 8).flatMap (leOfNat 4) ++ leOfNat 4 offs.2 ++ leOfNat 8 (b.flBinding.getD 0).toNat
    ++ leOfNat 4 (b.mrule + if b.mact then 2 ^ 15 else 0) ++ leOfNat 4 (offs.1.getD 8 0) ++ leOfNat 44 0

/-- n bytes in the device's own form: free values. -/
def freeSaveBytes (s : State) (n : Nat) : State × List Byte :=
  ({ s with fresh := s.fresh + n }, (List.range n).map fun i => Config.freeSaveByte (s.fresh + i))

/-- The guard slots that a save keeps (R345): those that the block's saved commands name, and those that it has written with CGUARD. -/
def savedSlots (b : Block) (cmds : List Cmd) : List Nat := (cmds.flatMap fun c => c.gslot.toList ++ c.gout.toList) ++ b.gwrites

/-- What a save keeps of a core for a block: its claims and their contents, tc, e and cv registers, guard slots (R345) and Gate entries, these with the
warp by its index. -/
def coreKept (s : State) (bid : Nat) (b : Block) : Core :=
  let c := s.core b.core
  let held (kind n : Nat) : Bool := c.claims.any fun k => k.kind == kind && k.n == n && k.block == bid
  let mine := (s.warpsOf bid).map fun w => (w.1, w.2.idx)
  let idx (g : Nat) : Option Nat := (mine.find? fun m => m.1 == g).map fun m => m.2
  { claims := c.claims.filter fun k => k.block == bid
    tiles := c.tiles.filter fun e => held 0 e.1
    tcs := c.tcs, es := c.es
    cvs := c.cvs
    acc := c.acc.filter fun e => held 1 (e.1 / 2 ^ 18)
    guards := c.guards.filter fun e => (savedSlots b (s.blockCmds bid)).contains e.1
    gate := c.gate.filterMap fun e => (idx e.2.warp).map fun i => (e.1, { e.2 with warp := i }) }

/-- A command as a save leaves it: one that runs stops, its opens closed (R345, R370). -/
def stoppedCmd (c : Cmd) : Cmd :=
  { c with st := if c.st == .running then .stopped else c.st, words := [], bufs := [] }

/-- The ray section's masks (R426): for each warp the offset of its part, and the lanes with a live query. -/
def rayMasks (b : Block) (ws : List Warp) (at_ i n : Nat) : List (Nat × Nat) :=
  match n with
  | 0 => []
  | k + 1 =>
    let rays := ((ws.find? fun w => w.idx == i).map fun w => w.rays.map fun r => r.1).getD []
    (at_, maskNat rays) :: rayMasks b ws (at_ + 4 + 128 * rays.length) (i + 1) k

/-- Bytes written over those from a place on. -/
def overwrite (bs : List Byte) (at_ : Nat) (xs : List Byte) : List Byte := bs.take at_ ++ xs ++ bs.drop (at_ + xs.length)

/-- The sections of a save area, in the device's own form but for the masks of the ray section. -/
def saveBody (s : State) (bid : Nat) (b : Block) (size : Nat) : State × List Byte :=
  let body := freeSaveBytes s (size - 128)
  let at_ := (saveOffsets 128 (saveSizes s bid b)).1.getD 8 0
  if at_ = 0 then body
  else (body.1, (rayMasks b ((s.warpsOf bid).map fun e => e.2) (at_ - 128) 0 b.warps).foldl (fun bs m => overwrite bs m.1 (leOfNat 4 m.2)) body.2)

/-- Saves one block into an area (R123, R125). -/
def saveOne (s : State) (bid : Nat) (b : Block) (area : Nat × Nat) : State :=
  let kept := coreKept s bid b
  let ws := s.warpsOf bid
  let cmds := s.blockCmds bid
  let body := saveBody s bid b area.2
  let s := body.1.cohWrite (s.ctxBase.toNat + area.1) (saveHeader s bid b ++ body.2)
  let s := forEach ws s fun s w => (releaseAct s w.1 .device none).closeWarp w.1
  let s := forEach cmds s fun s c => s.closeCmd b.core c
  let others (n : Nat) : Bool := s.blocks.any fun e => e.1 != bid && e.2.core == b.core && e.2.named.contains n
    && (match e.2.st with | .saved => false | _ => true)
  let s := (s.freeGuards bid others).modBlock bid fun x =>
    { x with named := b.named, st := .saved, saveReq := false, stopping := false, savedAt := s.now, opens := [] }
  let s := s.modCore b.core fun c =>
    { c with cmds := c.cmds.filter fun o => o.block != bid
             claims := c.claims.filter fun k => k.block != bid
             bindings := c.bindings.filter fun k => k.block != bid
             gate := c.gate.filter fun e => !ws.any fun w => w.1 == e.2.warp }
  let s := forEach ws s fun s w => s.modPart (partOf w.1) fun p => if p.holder = some w.1 then { p with holder := none, above := false } else p
  let s : State := { s with
    warps := s.warps.filter fun e => e.2.block != bid
    retests := s.retests.filter fun r => !ws.any fun w => w.1 == r.1
    savedWarps := tset s.savedWarps bid (ws.map fun w => { w.2 with due := [] })
    savedCmds := tset s.savedCmds bid (cmds.map stoppedCmd)
    savedCore := tset s.savedCore bid kept
    saveUsed := tset s.saveUsed bid area }
  (s.stallTidy b.core).linkTidy

/-- The warps of blocks stop issuing, or go on (R123 step 1). -/
def setStopping (s : State) (gang : Tbl Block) (v : Bool) : State :=
  forEach gang s fun s e => s.modBlock e.1 fun x => { x with stopping := v }

/-- BLOCK_SAVE (R123, R126): the save of a block and its gang that has been requested begins once the save region has room, and is made when its
warps and commands have come to rest; the unit joins the waiting order at its tail. With `err` the save meets an uncorrectable memory error. -/
def execBlockSave (try_ : SaveTry) (s : State) : Host.Outcome State Fault Refusal :=
  match s.block? try_.block with
  | none => .next s
  | some b =>
    let gang := gangResident s b
    if !b.saveReq || gang.isEmpty then .next s
    else
      match saveAlloc s gang s.saveUsed with
      | none => .next (setStopping s gang false)
      | some used =>
        if !gang.all fun e => e.2.stopping then .next (setStopping s gang true)
        else if !gang.all (blockQuiet s) then .next s
        else if try_.err then .next ((loseLaunch s b.launch).tell (.contextLost b.launch))
        else
          let s := forEach gang s fun s e => saveOne s e.1 e.2 (tgetD used e.1 (0, 0))
          .next { s with waiting := s.waiting ++ [.saved (gang.map fun e => e.1) s.devNs] }

/-! ## Resumption (R124) -/

/-- A saved entry as it resumes after `slept` cc: one that slept keeps its remaining time, one whose wait has no place in the
context executes its instruction again. -/
def resumeEntry (savedAt now : Nat) (e : Entry) : Entry :=
  match e.st with
  | .parked (.sleep u) => { e with st := .parked (.sleep (now + (u - savedAt))) }
  | .parked (.pool _ _) | .parked .commandQueue | .parked (.member _) | .parked (.queueLink _ _ _) =>
    { e with st := .ready }
  | _ => e

/-- A saved warp on its new place. -/
def resumeWarp (s : State) (b : Block) (p : Place) (gates : Tbl Nat) (w : Warp) : State :=
  let part := (p.base + w.idx) % 16
  let k := freeSlot s (16 * p.core + part)
  let gate (f : Frag) : Frag := { f with gate := tgetD gates f.gate f.gate }
  let w : Warp := { w with
    core := p.core, part := part, slot := k, opened := []
    entries := w.entries.map (resumeEntry b.savedAt s.now)
    frags := w.frags.map fun f => (f.1, gate f.2) }
  s.setWarp (256 * p.core + 16 * part + k) w.merge.fire

/-- Restores one saved block on a core: its copies issue again (R345), a matrix command that was stopped goes on when a unit is free (R356, R370). -/
def resumeOne (s : State) (p : Place) : State :=
  let bid := p.saved.getD 0
  match s.block? bid with
  | none => s
  | some b =>
    let kept := tgetD s.savedCore bid {}
    let other (c : Core) (kind n : Nat) : Bool := c.claims.any fun k => k.kind == kind && k.n == n && k.block != bid
    let s := setSplit s p
    let gates : Tbl Nat := kept.gate.zipIdx.foldl (fun t e => tset t e.1.1 (s.nextId + e.2)) []
    let s : State := { s with nextId := s.nextId + kept.gate.length }
    let s := forEach (tgetD s.savedWarps bid []) s fun s w => resumeWarp s b p gates w
    let key (i : Nat) : Nat := ((s.warpsOf bid).find? fun w => w.2.idx == i).elim 0 fun w => w.1
    let cmds := (tgetD s.savedCmds bid []).map fun c =>
      { c with st := if c.st == .stopped && c.kind.isCopy then .running else c.st, since := s.devNs }
    let s := s.modCore p.core fun c =>
      { c with
        claims := c.claims ++ kept.claims
        tiles := kept.tiles.foldl (fun t e => tset t e.1 e.2) (c.tiles.filter fun e => !kept.claims.any fun k => k.kind == 0 && k.n == e.1)
        tcs := (List.range 16).foldl (fun t n => if other c 0 n then t else tput t n (tgetD kept.tcs n 0) 0) c.tcs
        es := (List.range 8).foldl (fun t n => if other c 3 n then t else tput t n (tgetD kept.es n 0x3F800000) 0x3F800000) c.es
        cvs := (List.range 8).foldl (fun t n => if other c 2 n then t else tset t n (tgetD kept.cvs n {})) c.cvs
        acc := kept.acc.foldl (fun t e => tset t e.1 e.2) (c.acc.filter fun e => !kept.claims.any fun k => k.kind == 1 && k.n == e.1 / 2 ^ 18)
        guards := (savedSlots b cmds).foldl (fun t n => tput t n (tgetD kept.guards n 0) 0) c.guards
        gate := kept.gate.foldl (fun t e => tset t (tgetD gates e.1 0) { e.2 with warp := key e.2.warp }) c.gate
        cmds := c.cmds ++ cmds }
    let s := s.modBlock bid fun x =>
      { x with core := p.core, base := p.base, spadBase := p.spadAt, st := .running, quantumEnd := s.devNs + quantumNs s }
    let s : State := { s with
      savedWarps := tdel s.savedWarps bid, savedCmds := tdel s.savedCmds bid, savedCore := tdel s.savedCore bid, saveUsed := tdel s.saveUsed bid }
    acquireL1 s p.core none

/-- A resumed split that waits for a future joins its Stall-table entry again (R317); where the table is full it goes on as a PARK that finds it so
(log entry 44). -/
def rejoinStall (s : State) (g : Nat) (e : Entry) : State :=
  match e.st, s.warp? g with
  | .parked (.future p _ q), some w =>
    let c := s.core (coreOf g)
    if c.stall.any (stallOf s g w p) then s
    else if c.stall.length < 128 then
      s.modCore (coreOf g) fun k => { k with stall := k.stall ++ [{ addr := p, asid := s.asidOf g, block := w.block }] }
    else (s.count .stallOverflow 1).modWarp g fun w =>
      { (w.qput q false) with
        entries := w.entries.map fun x => if x.eid == e.eid then { x with st := .parked (.sleep (s.now + 256)) } else x }
  | _, _ => s

/-- The parked splits of a resumed block test their waits again (R124). -/
def retestBlock (s : State) (b : Nat) : State :=
  forEach (s.warpsOf b) s fun s w =>
    let s := forEach w.2.entries s fun s e => rejoinStall s w.1 e
    let es := ((s.warp? w.1).map Warp.entries).getD []
    (forEach es s fun s e => parkAgain (countAgain s w.1 e) (w.1, e)).stallTidy (coreOf w.1)

/-- A word of a saved block's area is poisoned (R126). -/
def saveBroken (s : State) (b : Nat) : Bool :=
  match tget s.saveUsed b with
  | none => false
  | some a => (s.cohRead (s.ctxBase.toNat + a.1) a.2).2

/-- BLOCK_RESUME (R99, R124): the earliest waiting unit that fits, where it is a saved one, on the given cores; in deterministic
mode and under YARD_GANG on those that R104 and R124 name. -/
def execBlockResume (cores : List Nat) (s : State) : Host.Outcome State Fault Refusal :=
  match firstFit s s.waiters1 with
  | none => .next s
  | some (w, ps) =>
    match w.item, s.launch? w.launch with
    | .saved bs _, some l =>
      if bs.any (saveBroken s) then .next ((loseLaunch s w.launch).tell (.contextLost w.launch))
      else
        let named := placeSeq s l (roomOf s fun _ => false) (fun _ acc =>
          (cores.drop acc.length).take 1 |>.filter fun c => c < 216 && coreReady s c && openTo s w c) true [] w.members []
        let fixed := l.det || l.yardGang
        (match (if fixed then (if cores = ps.map Place.core then some ps else none) else named) with
          | none => .next s
          | some qs =>
            let s := forEach qs s fun s p => resumeOne s p
            let s := forEach bs s retestBlock
            let s := releaseMembers s l (gangOf l ((w.members.head?.map fun m => m.lin).getD 0))
            .next (endReserve { s with waiting := s.waiting.filter fun i => i != w.item } w))
    | _, _ => .next s

/-! ## Switch points (R116–R119) -/

/-- VSP (R116): lanes at a call depth above 0 trap; the others park. -/
def execVsp (g : Guard) (k : Nat) (s : State) : Host.Outcome State Fault Refusal :=
  issueUni s g {} fun s c => outsideOnly s c fun s m =>
    match s.warp? c.g with
    | none => (s, [])
    | some w =>
      let deep := maskOf ((lanesOf m).filter fun l => w.depthOf l != 0)
      (s, [(deep, .trap { cause := 0x0D, detail := 0, addr := BitVec.ofNat 64 k }), (m &&& ~~~ deep, .park (.switchPoint k))])

/-- The entries of a warp that stand at a switch point, with the point. -/
def Warp.atSwitch (w : Warp) : List (Entry × Nat) :=
  w.entries.filterMap fun e => match e.st with | .parked (.switchPoint k) => some (e, k) | _ => none

/-- Every lane of the warp that has not ended stands at a switch point. -/
def Warp.allAtSwitch (w : Warp) : Bool := w.atSwitch.foldl (fun (m : LaneMask) e => m ||| e.1.mask) 0 == w.live

/-- SWITCH_RENDEZVOUS (R116): every thread of a block stands at a VSP; different points trap. -/
def execSwitchRendezvous (block : Nat) (s : State) : Host.Outcome State Fault Refusal :=
  match s.block? block with
  | none => .next s
  | some b =>
    let ws := (s.warpsOf block).filter fun w => w.2.live != 0
    let pts := ws.flatMap fun w => w.2.atSwitch.map fun e => e.2
    if b.st != .running || ws.isEmpty || !ws.all (fun w => w.2.allAtSwitch) then .next s
    else if pts.all fun k => k == pts.headD 0 then
      .next (s.modBlock block fun x => { x with st := .rendezvous (pts.headD 0) })
    else
      .next (forEach ws s fun s w => forEach w.2.atSwitch s fun s e =>
        trapParked s w.1 e.1 { cause := 0x0D, detail := 0, addr := BitVec.ofNat 64 e.2 })

/-- Some waiting unit fits nowhere (R118); for a block in deterministic mode, one whose home cores include its core. -/
def starved (s : State) (b : Block) (l : Launch) : Bool :=
  let lacks (w : Waiter) : Bool := (placeWaiter s (fun _ => true) (roomOf s fun _ => false) w).isNone
  let here (k : Launch) (w : Waiter) : Bool := !l.det || (k.det && w.members.any fun m => (detHome k m.lin).1 == b.core)
  s.waiters1.any fun w =>
    match s.launch? w.launch with
    | none => false
    | some k =>
      match w.item with
      | .fresh _ =>
        if k.placed then (nextUnit? k (fun u => here k (freshWaiter k u) && lacks (freshWaiter k u)) (k.units - k.nextUnit) k.nextUnit).isSome
        else here k w && lacks w
      | .saved _ _ => here k w && lacks w

/-- What a block asks of its core for a variant in a move (R117). -/
def moveAsk (s : State) (bid : Nat) (b : Block) (l : Launch) (n margin : Nat) : Ask :=
  let ws := s.warpsOf bid
  let place (i : Nat) : Nat := ((ws.find? fun w => w.2.idx == i).map fun w => w.2.part).getD ((b.base + i) % 16)
  { need := l.entry.needs n, bytes := l.entry.region n, base := some b.base, steps := s.spadSplit, margin := margin
    places := some ((List.range b.warps).map place) }

/-- Where a block fits its core with a variant, its own room given back (R117). -/
def moveFit (s : State) (bid : Nat) (b : Block) (l : Launch) (n margin : Nat) : Option (Nat × Nat × Nat) :=
  let r := roomOf s (fun k => k == bid) b.core
  ({ r with cap := some (spadCap (s.core b.core).split) } : CoreRoom).fit (moveAsk s bid b l n margin)

/-- RESUME of a variant at a point, if it is a target there (R54); an absent variant is none, whatever its RESUME says (log entry 39). -/
def resumeOff (l : Launch) (k n : Nat) : Option Nat :=
  match l.entry.switch[k]? with
  | none => none
  | some row => if row.getD n 0xFFFFFFFF = 0xFFFFFFFF || !l.entry.vmask.testBit n then none else some (row.getD n 0)

/-- The target variant (R118). -/
def switchTarget (s : State) (bid : Nat) (b : Block) (l : Launch) (k : Nat) : Nat :=
  let n := b.variant
  let cands := (List.range 4).filter fun m => m != n && (resumeOff l k m).isSome
  let margin := 16 * nbits s.swpol 8 8
  if l.entry.switchCnt ≤ k || l.entry.roleCnt ≠ 0 then n
  else if s.swpol.testBit 0 && (b.hint = 1 || starved s b l) then (cands.find? fun m => n < m).getD n
  else if s.swpol.testBit 1 && b.hint ≠ 1 && s.waitingCount = 0 then
    (cands.find? fun m => m < n && (moveFit s bid b l m margin).isSome).getD n
  else n

/-- A warp after a move (R119). -/
def moveWarp (e : EntryRec) (v : Variant) (pc : DWord) (eid : Nat) (w : Warp) : Warp :=
  let low := BitVec.ofNat 256 (2 ^ e.carryRegs - 1)
  { w with
    floor := v.floor, ceil := v.ceil
    v := w.v.filter fun x => x.1 < 32 * e.carryRegs
    mapped := w.mapped &&& low, spilled := 0
    pv := [], pp := [], s := [], q := 0, m := [], depth := [], traps := [], results := [], heldFrees := [], marks := [], tokens := []
    sigs := [], monitor := none, rays := [], orderCmds := []
    entries := if w.live = 0 then [] else [{ eid := eid, pc := pc, prio := 32, mask := w.live, st := .ready }] }

/-- Moves a block to a variant (R117, R119, R371). -/
def moveBlock (s : State) (bid : Nat) (b : Block) (l : Launch) (n : Nat) (at_ pc : Nat) : State :=
  let v := l.entry.variant n
  let bound := l.entry.carryBound
  let ws := s.warpsOf bid
  let s := forEach ws s fun s w => releaseFragments s w.1 w.2.live
  let s := forEach ws s fun s w =>
    let k := s.newId
    k.1.modWarp w.1 (moveWarp l.entry v (l.entry.codeBase + BitVec.ofNat 64 pc) k.2)
  let s := forEach ws s fun s w => s.modPart (partOf w.1) fun p => if p.holder = some w.1 then { p with holder := none, above := false } else p
  let fresh : Tbl Barrier := (List.range 16).map fun i => (i, { out := b.exited })
  let s := s.modBlock bid fun x =>
    { x with
      variant := n, spadBase := at_, spadBytes := v.spad, st := .running, bars := fresh, flBinding := none
      spad := x.spad.filter fun e => e.1 < bound
      absent := x.absent.filter fun e => 128 * e.1 < bound
      opens := x.opens.filter fun e => 4 * e.1 < bound }
  s.modCore b.core fun c =>
    let other (kind m : Nat) : Bool := c.claims.any fun k => k.kind == kind && k.n == m && k.block != bid
    let mine (kind m : Nat) : Bool := c.claims.any fun k => k.kind == kind && k.n == m && k.block == bid
    { c with
      tcs := c.tcs.filter fun e => other 0 e.1
      cvs := c.cvs.map fun e => if mine 2 e.1 then (e.1, { e.2 with expect := 0, signed := 0 }) else e
      claims := c.claims.filter fun k => k.block != bid
      bindings := c.bindings.filter fun k => k.block != bid }

/-- The block's commands and its outstanding loads and atomics, which a move waits for (R116). -/
def moveBusy (s : State) (block : Nat) (b : Block) : Bool :=
  let ws := s.warpsOf block
  !(s.blockCmds block).isEmpty || ws.any fun w => w.2.results.any (fun r => r.lanes.any fun x => x.2.vals.isNone)
    || (s.core b.core).ops.any fun o => o.warp == w.1 && (match o.kind with | .load | .atomic => true | _ => false)

/-- SWITCH_MOVE (R116, steps 1 to 4): once the block's commands and loads have ended it stays, or moves if the target fits. DESIGN CHOICE, unsafe (log
entry 102): where lanes take an asynchronous trap (R159) after the rendezvous has completed, the move still takes all live lanes and clears that trap. -/
def execSwitchMove (block : Nat) (s : State) : Host.Outcome State Fault Refusal :=
  match s.block? block, (s.block? block).bind fun b => s.launch? b.launch with
  | some b, some l =>
    (match b.st with
      | .rendezvous k =>
        let ws := s.warpsOf block
        if moveBusy s block b then .next s
        else
          let t := switchTarget s block b l k
          let fit := if t = b.variant then none else moveFit s block b l t 0
          (match fit, resumeOff l k t with
            | some f, some pc => .next (moveBlock s block b l t f.2.1 pc)
            | _, _ =>
              let s := forEach ws s fun s w => forEach w.2.atSwitch s fun s e => releaseWith s w.1 e.1.eid none none
              .next (s.modBlock block fun x => { x with st := .running }))
      | _ => .next s)
  | _, _ => .next s

/-! ## LAUNCH (R96–R98) -/

/-- A launch record is read with an acquire after it, and stands in the queue for the dispatch engine under a new name. -/
def childAsked (s : State) (c : Ctx) (x : Loc) (d : Nat) (p : DWord) : State × Nat :=
  let r := (readLoc s x 256).1
  let s := acquireAct s c.g .device none
  let n := s.newId
  ({ n.1 with childQueue := n.1.childQueue ++ [(n.2, d, p, r)] }, n.2)

/-- LAUNCH: the record is read, and the split waits for the dispatch engine's answer. -/
def execLaunch (g : Guard) (d a : Nat) (s : State) : Host.Outcome State Fault Refusal :=
  issueUni s g { sr := [a], sw := [d], rel := relLevel .rel .device, home := objHome s false a 256 .read fun x => x ≤ 3 || x == 8 } fun s c =>
    match s.warp? c.g with
    | none => (s, [])
    | some w =>
      let p := w.sget a
      onObject s c p 256 .read (fun x => x ≤ 3 || x == 8) fun x =>
        match objPoison s p x 0 256 with
        | some t => trapAll s c t
        | none =>
          let r := childAsked (releaseAct s c.g .device none) c x d p
          (r.1, [(c.act, .park (.launch r.2))])

/-- LAUNCH_ANSWER (R96): the record is checked and the split receives code and number. -/
def execLaunchAnswer (warp entry : Nat) (s : State) : Host.Outcome State Fault Refusal :=
  match (s.warp? warp).bind fun w => w.entry? entry with
  | none => .next s
  | some e =>
    match e.st with
    | .parked (.launch id) =>
      (match s.childQueue.find? fun q => q.1 == id, s.launchOf warp with
        | some (_, d, _, bs), some l =>
          let s : State := { s with childQueue := s.childQueue.filter fun q => q.1 != id }
          let k := recKind bs
          let r : State × Nat × Nat := if k ≠ 0 then (s, 0x0C, 0) else submitLaunch s l.asid (l.depth + 1) true bs
          .next (releaseWith r.1 warp entry (some (d, BitVec.ofNat 64 (nbits r.2.2 0 56 * 256 + r.2.1))) none)
        | _, _ => .next s)
    | _ => .next s

/-! ## SGET, SPUT, SLEEP (R111, R112, R128–R130) -/

/-- Size of the chunk that is dealt from `next` on with a divisor (R111). -/
def chunkSize (l : Launch) (div next : Nat) : Nat :=
  let r := l.argCount - next
  min (max l.chunkMin ((r + div - 1) / div)) r

/-- Start of chunk n of the sequence with a divisor, from a start on (R112). -/
def chunkStart (l : Launch) (div n next : Nat) : Nat :=
  match n with
  | 0 => next
  | k + 1 => if l.argCount ≤ next then next else chunkStart l div k (next + chunkSize l div next)

/-- Deals a chunk to a warp (R111, R112): the launch after it, and the value. -/
def dealChunk (s : State) (l : Launch) (b : Block) (w : Warp) : Launch × Nat :=
  if !l.batch then (l, 0)
  else if l.det then
    let u := b.lin * l.entry.warps + w.idx
    let all := l.blocks * l.entry.warps
    let k := tgetD l.dealt u 0
    let start := chunkStart l (2 * all) (u + k * all) 0
    ({ l with dealt := tset l.dealt u (k + 1) }, chunkSize l (2 * all) start * 2 ^ 40 + start)
  else
    let cores := ((s.blocks.filter fun e => e.2.launch == l.id && (match e.2.st with | .saved => false | _ => true)).map fun e => e.2.core).dedup
    let n := chunkSize l (2 * max 1 cores.length) l.next
    ({ l with next := l.next + n }, n * 2 ^ 40 + l.next)

/-- cc left in a block's quantum. -/
def quantumLeft (s : State) (b : Block) : Nat := min (2 ^ 32 - 1) ((b.quantumEnd - s.devNs) * s.clockMhz / 1000)

/-- The value of a selector other than CHUNK (R128). -/
def sgetValue (s : State) (g : Nat) (w : Warp) (b : Block) (l : Launch) (sel : SgetSel) : Nat :=
  match sel with
  | .lid => l.id
  | .var => b.variant
  | .core => coreOf g
  | .part => partOf g % 16
  | .qleft => quantumLeft s b
  | .chunk => 0
  | .waiting => min (2 ^ 32 - 1) s.waitingCount
  | .preempt => if b.saveReq then 1 else 0
  | .role => w.role
  | .seed => l.seed.toNat
  | .depth => l.depth
  | .freereg => s.freeRegs (partOf g)
  | .flags => l.flags.toNat
  | .args => l.args.toNat
  | .blin => b.lin

def execSget (g : Guard) (sel : SgetSel) (d : Nat) (s : State) : Host.Outcome State Fault Refusal :=
  issueUni s g { sw := [d] } fun s c =>
    match s.warp? c.g, s.blockOf c.g, s.launchOf c.g with
    | some w, some b, some l =>
      if sel = .chunk then
        let r := dealChunk s l b w
        let t := s.modLaunch l.id fun _ => r.1
        (t.modWarp c.g fun w => w.sput d (BitVec.ofNat 64 r.2), [])
      else
        let x := sgetValue s c.g w b l sel
        (s.modWarp c.g fun w => w.sput d (BitVec.ofNat 64 x), [])
    | _, _, _ => (s, [])

/-- SPUT (R129). -/
def execSput (g : Guard) (sel : SputSel) (a : Nat) (s : State) : Host.Outcome State Fault Refusal :=
  issueUni s g { sr := [a] } fun s c =>
    match s.warp? c.g, s.launchOf c.g with
    | some w, some l =>
      let x := (w.sget a).toNat
      match sel with
      | .swhint => (s.modBlock w.block fun b => { b with hint := if x % 4 = 3 then 0 else x % 4 }, [])
      | .yieldblk => (if x % 2 = 1 then s.modBlock w.block fun b => { b with quantumEnd := s.devNs } else s, [])
      | .cls => (if l.entry.roleCnt = 0 then s.modWarp c.g fun w => { w with cls := min 2 (x % 4) } else s, [])
    | _, _ => (s, [])

/-- SLEEP (R130). -/
def execSleep (g : Guard) (n : Nat) (s : State) : Host.Outcome State Fault Refusal :=
  issueUni s g {} fun s c => (s, if n = 0 then [] else [(c.act, .park (.sleep (s.now + n)))])

end Sys2Proof.Machine
end

