-- ==== Sys2Proof/Machine/Raster.lean ====
section
/-! DEFINITION. Lane group 0x6: the raster and order engine, its events and BARY (R375–R389). -/

namespace Sys2Proof.Machine

/-! ## Opening a pass (R375, R379, R385) -/

/-- A pointer of spaces 0000–0011 at a multiple of n. -/
def devPtrOk (n : Nat) (x : Nat) : Bool := x < 4 * 2 ^ 60 && x % n == 0
/-- The base of an area of the fragment-list engine may also lie in the block's own scratchpad (R390). -/
def areaPtrOk (x : Nat) : Bool := (x < 4 * 2 ^ 60 || nbits x 60 4 == 8) && x % 128 == 0

/-- The DETAIL of the first condition of R385 that a record breaks, for a gang of M members and a block's region. -/
def passDetail (p : Pass) (spad : Nat) (gangField : Nat) : Option Nat :=
  let tile := p.tileMode
  let off := p.field 0x14 4
  let bytes := p.field 0x18 4
  let imm := p.field 0x30 8
  if (List.range 72).any (fun i => p.rec_.getD (0x38 + i) 0 ≠ 0) || 1 < p.field 0x10 1 || 3 < p.samples || 3 < p.cull
      || (if tile then imm ≠ 0 else off ≠ 0 || bytes ≠ 0) then some 1
  else if !devPtrOk 16 (p.field 0 8) || !devPtrOk 4096 (p.field 0x20 8) || (!tile && !areaPtrOk imm) then some 2
  else if 2 ^ 28 < p.primCnt || p.tilesX = 0 || 512 < p.tilesX || p.tilesY = 0 || 512 < p.tilesY || off % 128 ≠ 0 || bytes % 128 ≠ 0
      || p.field 0x28 8 < 65536 * p.size || (tile && spad < off + bytes) then some 3
  else if gangField = 0 then some 4
  else none

/-- The ten words of a primitive that the rasteriser reads: none where one fails translation or is poisoned (R376). -/
def primWords (s : State) (core asid : Nat) (p : DWord) : Option (List Word) :=
  (List.range 10).foldl (fun (acc : Option (List Word)) i =>
    acc.bind fun ws =>
      let a := addOffset p ((4 * i : Nat) : Int)
      if !ptrWellFormed a then none
      else
      match translate s core asid (spaceOf a) (nbits a.toNat 0 57) .read with
      | .error _ => none
      | .ok pa =>
        let r := s.cohRead pa 4
        if r.2 then none else some (ws ++ [BitVec.ofNat 32 (natOfLe r.1)])) (some [])

/-- Reads the primitives of a pass: those dropped are counted, the unreadable ones reported (R376). -/
def readPrims (s : State) (core : Nat) (l : Launch) (p : Pass) : State × List (Nat × List Word) :=
  (List.range p.primCnt).foldl (fun (acc : State × List (Nat × List Word)) i =>
    let a := addOffset (BitVec.ofNat 64 (p.field 0 8)) ((48 * i : Nat) : Int)
    match primWords acc.1 core l.asid a with
    | none => ((acc.1.count .primitiveDropped 1).tell (.primitive l.id a), acc.2)
    | some ws => if primKept p.cull ws then (acc.1, acc.2 ++ [(i, ws)]) else (acc.1.count .primitiveDropped 1, acc.2)) (s, [])

/-- The warps of a block that have not exited. -/
def Block.liveWarps (b : Block) : List Nat := (List.range b.warps).filter fun i => !b.exited.contains i

/-- A member takes the next of its tiles from T on (R378). -/
def takeTile (id : Nat) (p : Pass) (warps : List Nat) (m : PassMember) (t : Nat) : PassMember :=
  match ownTiles p m.num t with
  | [] => { m with tile := p.tilesX * p.tilesY, queue := [], fin := false, owed := [], got := [] }
  | n :: _ =>
    let q := tileFrags id p n
    { m with tile := n, queue := q, fin := q.isEmpty, owed := if q.isEmpty then warps else [], got := [] }

/-- The first tile of a member, or in immediate mode all its fragments. -/
def beginMember (id : Nat) (p : Pass) (warps : List Nat) (m : PassMember) : PassMember :=
  if p.tileMode then takeTile id p warps m 0 else { m with queue := (ownTiles p m.num 0).flatMap (tileFrags id p) }

/-- The live warps of a member's block. -/
def State.memberWarps (s : State) (m : PassMember) : List Nat := ((s.block? m.block).map Block.liveWarps).getD []

/-- A pass starts when every member of the gang has opened it (R379); the fragments of a member that has exited by then are lost (R389). -/
def startPass (s : State) (id core : Nat) (l : Launch) : State :=
  match tget s.passes id with
  | none => s
  | some p =>
    if p.started || p.members.length < p.size then s
    else
      let z := readPrims s core l p
      let p : Pass := { p with prims := z.2, started := true }
      let ms := p.members.map fun m => beginMember id p (s.memberWarps m) m
      let gone (m : PassMember) : Bool := (s.block? m.block).isNone
      let lost := ((ms.filter gone).map (undelivered id p)).foldl (· + ·) 0
      let p : Pass := { p with members := ms.map fun m => if gone m then m.closed p else m }
      { z.1.count .fragmentLost lost with passes := tset z.1.passes id p }

/-- The number of a pass of a launch, a gang and a record, if a member has opened it. -/
def findPass (s : State) (l : Launch) (b : Block) (ptr : DWord) : Option Nat :=
  (s.passes.find? fun e => e.2.launch == l.id && e.2.gang == gangOf l b.lin && e.2.ptr == ptr).map fun e => e.1

/-- The block becomes a member of a pass. -/
def joinPass (s : State) (bid : Nat) (b : Block) (l : Launch) (p : Pass) : State :=
  let f := findPass s l b p.ptr
  let n : State × Nat := match f with
    | some i => (s, i)
    | none => let n := s.newId; ({ n.1 with passes := tset n.1.passes n.2 p }, n.2)
  let s := n.1.modBlock bid fun x => { x with pass := some n.2 }
  let s : State := { s with passes := tmod s.passes n.2 fun p => { p with members := p.members ++ [{ block := bid, num := memberOf l b.lin }] } }
  startPass s n.2 b.core l

def passTrap (d : Nat) (p : DWord) : TrapInfo := { cause := 0x43, detail := d, addr := p }
def orderState (d : Nat) : TrapInfo := { cause := 0x42, detail := d, addr := 0 }

/-- The pass that a record there describes, still without members. -/
def passOf (s : State) (l : Launch) (b : Block) (ptr : DWord) (x : Loc) : Pass :=
  { ptr := ptr, launch := l.id, gang := gangOf l b.lin, rec_ := (readLoc s x 128).1.map fun y => y.toNat, size := gangSize l }

/-- The words of the record that a FRAGIN.OPEN is to read at their home: none by a block that is a member already. -/
def openHome (s : State) (gd : Guard) (a : Src) : List Nat :=
  match s.looking with
  | none => []
  | some (g, w, e) =>
    let act := (guardLanes w gd e.mask).1
    let p := BitVec.ofNat 64 (vread w a 2 (lowLane act)).1
    if act = 0 || ((s.blockOf g).bind Block.pass).isSome || !devPtrOk 128 p.toNat then [] else ptrHome s g p 128 .read devSpaces

/-- FRAGIN.OPEN (R379, R385). -/
def execFraginOpen (g : Guard) (a : Src) (s : State) : Host.Outcome State Fault Refusal :=
  issueLane s g .traps { srcOpnds [(a, 2)] with home := openHome s g a } fun s c =>
    match s.warp? c.g, s.blockOf c.g, s.launchOf c.g with
    | some w, some b, some l =>
      if c.act = 0 then (s, [])
      else
        let ptr := BitVec.ofNat 64 (vread w a 2 (lowLane c.act)).1
        match b.pass with
        | some id =>
          if (tget s.passes id).map Pass.ptr = some ptr then (s, []) else trapAll s c (orderState 3)
        | none =>
          if !devPtrOk 128 ptr.toNat then trapAll s c (passTrap 2 ptr)
          else
            onObject s c ptr 128 .read devSpaces fun x =>
              match objPoison s ptr x 0 128 with
              | some t => trapAll s c t
              | none =>
                let p := passOf s l b ptr x
                match passDetail p b.spadBytes l.gangField with
                | some d => trapAll s c (passTrap d ptr)
                | none => (joinPass (acquireL1 s (coreOf c.g) none) w.block b l p, [])
    | _, _, _ => (s, [])

/-! ## Waves (R378–R380) -/

/-- A warp waves again: its member no longer counts it as one that has received status 2 (R378). -/
def waveAgain (s : State) (id : Nat) (w : Warp) : State :=
  let again (m : PassMember) : PassMember := if m.block == w.block then { m with got := m.got.filter fun i => i != w.idx } else m
  { s with passes := tmod s.passes id fun p => { p with members := p.members.map again } }

/-- FRAGIN.WAVE (R379): the active lanes release their fragments and park. -/
def execFraginWave (g : Guard) (d : Nat) (s : State) : Host.Outcome State Fault Refusal :=
  issueLane s g .traps { vw := [d] } fun s c =>
    match s.warp? c.g, s.blockOf c.g with
    | some w, some b =>
      if c.act = 0 then (s, [])
      else
        match b.pass with
        | none => trapAll s c (orderState 3)
        | some id =>
          let s := waveAgain (releaseFragments s c.g c.act) id w
          (s.modWarp c.g fun w => w.vmap d, [(c.act, .park (.fragment d))])
    | _, _ => (s, [])

/-- A member's tile has ended: every fragment is delivered, and every warp that has not exited has received status 2 and has
waved again (R378). -/
def PassMember.turn (m : PassMember) (warps : List Nat) : Bool :=
  m.fin && warps.all fun i => !m.owed.contains i && !m.got.contains i

/-- The pass has ended for a member (R378). -/
def PassMember.ended (p : Pass) (m : PassMember) : Bool :=
  if p.tileMode then p.tilesX * p.tilesY ≤ m.tile else m.queue.isEmpty

/-- Takes fragments out of a queue in a delivery order that R378 allows: positions in what is left of the queue. -/
def takeFrags (base : Nat) (q : List Frag) (pick : List Nat) : Option (List Frag × List Frag) :=
  match pick with
  | [] => some ([], q)
  | i :: r =>
    match q[i]? with
    | none => none
    | some f =>
      if q.any fun o => o.tile == f.tile && seqKey base o.seq < seqKey base f.seq then none
      else (takeFrags base (q.eraseIdx i) r).map fun z => (f :: z.1, z.2)

/-- Gives a fragment to a lane: it takes a Gate entry (R380). -/
def giveFrag (s : State) (g pass member lane : Nat) (f : Frag) : State :=
  let n := s.newId
  let e : GateEntry :=
    { pass := pass, member := member, warp := g, lane := lane, x := f.x, y := f.y, cov := f.cov, seq := f.seq, inside := false }
  (n.1.modCore (coreOf g) fun c => { c with gate := tset c.gate n.2 e }).modWarp g fun w =>
    { w with frags := tset w.frags lane { f with gate := n.2 } }

/-- The lanes of a parked WAVE receive their status, and the split goes on. -/
def waveStatus (s : State) (g : Nat) (e : Entry) (d : Nat) (v : Nat → Word) : State :=
  s.modWarp g fun w =>
    ((lanesOf e.mask).foldl (fun (w : Warp) l => w.vput d l { bits := v l, poison := false }) w).releaseNext e.eid

/-- Replaces a member of a pass. -/
def putMember (s : State) (id : Nat) (m : PassMember) : State :=
  { s with passes := tmod s.passes id fun p => { p with members := p.members.map fun x => if x.block == m.block then m else x } }

/-- FRAGMENT_DELIVERY (R378, R379): the first of the three conditions that holds; `pick` are the fragments that the rasteriser
has ready, as positions in the member's queue. -/
def execFragmentDelivery (warp entry : Nat) (pick : List Nat) (s : State) : Host.Outcome State Fault Refusal :=
  match s.warp? warp, (s.warp? warp).bind fun w => w.entry? entry, s.blockOf warp with
  | some w, some e, some b =>
    match e.st, b.pass.bind fun id => (tget s.passes id).map fun p => (id, p) with
    | .parked (.fragment d), some (id, p) =>
      match p.members.find? fun m => m.block == w.block with
      | none => .next s
      | some m =>
        if !p.started then .next s
        else
          let m := if m.turn b.liveWarps then takeTile id p b.liveWarps m (m.tile + 1) else m
          if m.ended p then .next (waveStatus (putMember s id m) warp e d fun _ => 3)
          else if p.tileMode && m.owed.contains w.idx then
            .next (waveStatus (putMember s id { m with owed := m.owed.filter fun i => i != w.idx, got := m.got ++ [w.idx] }) warp e d fun _ => 2)
          else
            let lanes := lanesOf e.mask
            let free := 4096 - (s.core (coreOf warp)).gate.length
            match takeFrags p.seqBase m.queue pick with
            | some z =>
              if z.1.isEmpty || lanes.length < z.1.length || free < z.1.length then .next s
              else
                let done := p.tileMode && z.2.isEmpty
                let s := putMember s id { m with queue := z.2, fin := done, owed := if done then b.liveWarps else [], got := if done then [] else m.got }
                let gs := lanes.zip z.1
                let s := forEach gs s fun s x => giveFrag s warp id m.num x.1 x.2
                .next (waveStatus s warp e d fun l => if gs.any fun x => x.1 == l then 1 else 0)
            | none => .next s
    | _, _ => .next s
  | _, _, _ => .next s

/-- A fragment input (R379). -/
def Frag.input (f : Frag) (sel : FragSel) : Word :=
  match sel with
  | .x => BitVec.ofNat 32 f.x
  | .y => BitVec.ofNat 32 f.y
  | .seq => BitVec.ofNat 32 f.seq
  | .cov => BitVec.ofNat 32 f.cov
  | .prim => BitVec.ofNat 32 f.prim
  | .z => f.z
  | .tile => BitVec.ofNat 32 f.tile
  | .face => if f.front then 1 else 0

/-- A lane's fragment input as a register receives it: a lane without a fragment reads as unmapped. -/
def fragValue (w : Warp) (sel : FragSel) (l : Nat) : LaneVal :=
  match tget w.frags l with
  | some f => { bits := f.input sel, poison := false }
  | none => .unmapped

/-- FRAGIN.sel (R379). -/
def execFraginRead (g : Guard) (sel : FragSel) (d : Nat) (s : State) : Host.Outcome State Fault Refusal :=
  issueLane s g .traps { vw := [d] } fun s c =>
    match s.blockOf c.g with
    | none => (s, [])
    | some b =>
      if b.pass.isNone then trapAll s c (orderState 3)
      else
        (s.modWarp c.g fun w => (lanesOf c.act).foldl (fun (w : Warp) l =>
          w.vput d l (fragValue w sel l)) w, [])

/-! ## Ordered sections (R381–R383) -/

/-- A lane enters its section (R381). -/
def enterSection (s : State) (g l : Nat) : State :=
  match (s.warp? g).bind fun w => tget w.frags l with
  | none => s
  | some f =>
    (s.modCore (coreOf g) fun c => { c with gate := tmod c.gate f.gate fun e => { e with inside := true } }).modWarp g fun w =>
      { w with inside := w.inside ||| laneBit l, orderCmds := tset w.orderCmds l [] }

/-- ORDENTER in one lane (R381). -/
def ordenterLane (g : Nat) (s : State) (l : Nat) : State × Option Fate :=
  match s.warp? g with
  | none => (s, none)
  | some w =>
    match tget w.frags l with
    | none => (s, some (.trap (orderState 1)))
    | some f =>
      if w.inside.getLsbD l then (s, some (.trap { cause := 0x40, detail := 0, addr := 0 }))
      else if f.closed then (s, some (.trap (orderState 2)))
      else if gateBlocked s (coreOf g) f.gate then (s, some (.park .ordenter))
      else (enterSection s g l, none)

/-- ORDENTER (R381). -/
def execOrdenter (g : Guard) (s : State) : Host.Outcome State Fault Refusal :=
  issueLane s g .traps {} fun s c => someFates s c.act (ordenterLane c.g)

/-- A parked lane's entry: the first in which the lane waits as `p` says. -/
def parkedEntry (s : State) (g l : Nat) (p : Wait → Bool) : Option Entry :=
  (s.warp? g).bind fun w => w.entries.find? fun e => e.mask.getLsbD l && (match e.st with | .parked x => p x | _ => false)

/-- A fragment of lower sequence of the same pass at a fragment's pixel has neither left its section nor been released (R407). -/
def olderOpen (s : State) (core : Nat) (f : Frag) : Bool :=
  let base := ((tget s.passes f.pass).map Pass.seqBase).getD 0
  (s.core core).gate.any fun o => o.1 != f.gate && o.2.pass == f.pass && o.2.x == f.x && o.2.y == f.y && !o.2.leaving
    && seqKey base o.2.seq < seqKey base f.seq

/-- ORDENTER_RELEASE (R381), and the release of a fragment-list lane that waits for the fragments before its own (R407). -/
def execOrdenterRelease (warp lane : Nat) (s : State) : Host.Outcome State Fault Refusal :=
  match parkedEntry s warp lane fun x => x == .ordenter || x == .listOrder, (s.warp? warp).bind fun w => tget w.frags lane with
  | some e, some f =>
    if e.st == .parked .listOrder then
      .next (if olderOpen s (coreOf warp) f then s else s.releaseLanes warp e.eid (laneBit lane) e.pc)
    else if gateBlocked s (coreOf warp) f.gate then .next s
    else .next ((enterSection s warp lane).releaseLanes warp e.eid (laneBit lane) (e.pc + 8))
  | _, _ => .next s

/-- ORDEXIT in one lane (R382): the section ends, or the lane waits for the commands that it has queued in it. -/
def ordexitLane (g : Nat) (s : State) (l : Nat) : State × Option Fate :=
  let cmds := ((s.warp? g).map fun w => tgetD w.orderCmds l []).getD []
  if cmdsLive s (coreOf g) cmds then (s, some (.park (.ordexit [(l, cmds)])))
  else (endSection s g l, none)

/-- ORDEXIT (R382): where lanes are inside, a release at core scope. -/
def execOrdexit (g : Guard) (s : State) : Host.Outcome State Fault Refusal :=
  let any_ : Bool := match s.looking with
    | some (k, _, e) => s.insideOf k e.mask != 0
    | none => false
  issueLane s g .traps { rel := if any_ then relLevel .rel .core else 0 } fun s c =>
    let ins := s.insideOf c.g c.act
    if ins = 0 then (s, [])
    else
      someFates (releaseAct s c.g .core none) ins (ordexitLane c.g)

/-- A lane waits in ORDEXIT, and for these commands. -/
def inOrdexit (lane : Nat) (x : Wait) : Bool := match x with | .ordexit t => (tget t lane).isSome | _ => false
def ordexitCmds (e : Entry) (lane : Nat) : List Nat := match e.st with | .parked (.ordexit t) => tgetD t lane [] | _ => []

/-- ORDEXIT_RELEASE (R382): the commands of a waiting lane have gone. -/
def execOrdexitRelease (warp lane : Nat) (s : State) : Host.Outcome State Fault Refusal :=
  match parkedEntry s warp lane (inOrdexit lane) with
  | none => .next s
  | some e =>
    if cmdsLive s (coreOf warp) (ordexitCmds e lane) then .next s
    else .next ((endSection s warp lane).releaseLanes warp e.eid (laneBit lane) (e.pc + 8))

/-- GATE_ENTRY_FREE (R382): an entry that a lane has left is freed once its accesses and commands have gone. -/
def execGateEntryFree (core entry : Nat) (s : State) : Host.Outcome State Fault Refusal :=
  match tget (s.core core).gate entry with
  | none => .next s
  | some e => if e.leaving && !cmdsLive s core e.cmds && !opsLive s core e.ops then .next (gateFree s core entry) else .next s

/-- FKILL (R383). -/
def execFkill (g : Guard) (s : State) : Host.Outcome State Fault Refusal :=
  issueLane s g .traps {} fun s c => (releaseFragments s c.g c.act, [])

/-- COVW in one lane (R383): the new COV. -/
def covwLane (s : State) (g l : Nat) (mask : Nat) : State × Nat :=
  match (s.warp? g).bind fun w => tget w.frags l with
  | none => (s, 0)
  | some f =>
    let cov := nbits f.cov 0 8 &&& nbits mask 0 8
    let s := s.modWarp g fun w => { w with frags := tmod w.frags l fun f => { f with cov := cov } }
    let s := gateCov s (coreOf g) f.gate cov
    (if cov = 0 then releaseFragment s g l else s, cov)

/-- COVW in one lane with its operand: a poisoned A traps (R177). -/
def covwStep (g d : Nat) (a : Src) (w0 : Warp) (s : State) (l : Nat) : State × Option Fate :=
  let x := vread w0 a 1 l
  if x.2 then (s, some (.trap (poisonTrap 0)))
  else
    let r := covwLane s g l x.1
    (r.1.modWarp g fun w => w.vput d l { bits := BitVec.ofNat 32 r.2, poison := false }, none)

/-- COVW (R383). -/
def execCovw (g : Guard) (d : Nat) (a : Src) (s : State) : Host.Outcome State Fault Refusal :=
  issueLane s g .traps ((srcOpnds [(a, 1)]).toV d 1) fun s c =>
    match s.warp? c.g with
    | none => (s, [])
    | some w0 => someFates s c.act (covwStep c.g d a w0)

/-! ## BARY (R387) -/

/-- The eight results and their flags from the eleven inputs h1x, h1y, h1c, h2x, h2y, h2c, hqx, hqy, hqc, px, py. -/
def baryVals (ws : List Nat) : List Nat × FpFlags :=
  let vs := ws.map (fpDecode .fp32)
  let x (i : Nat) : ℚ := (vs.getD i (.fin false 0)).toRat
  let n1 := x 0 * x 9 + x 1 * x 10 + x 2
  let n2 := x 3 * x 9 + x 4 * x 10 + x 5
  let q := x 6 * x 9 + x 7 * x 10 + x 8
  if vs.any (fun v => v.isNan || v.isInf) || q = 0 then (List.replicate 8 0x7FC00000, { nv := true })
  else
    let rs := [(q - n1 - n2) / q, n1 / q, n2 / q, (x 0 * q - n1 * x 6) / (q * q), (x 3 * q - n2 * x 6) / (q * q),
      (x 1 * q - n1 * x 7) / (q * q), (x 4 * q - n2 * x 7) / (q * q), 1 / q].map (fpRound .fp32 .rn false false false)
    (rs.map fun r => r.1, rs.foldl (fun f r => f.merge r.2) {})

/-- Words side by side, the first lowest. -/
def joinWords (l : List Nat) : Nat := l.zipIdx.foldl (fun acc e => acc + e.1 * 2 ^ (32 * e.2)) 0

/-- BARY in one lane. -/
def baryOut (w0 : Warp) (d : Nat) (a b c : Src) (l : Nat) : LaneOut :=
  let va := vread w0 a 8 l
  let vb := vread w0 b 2 l
  let vc := vread w0 c 1 l
  let poison := va.2 || vb.2 || vc.2
  let r := baryVals (((List.range 8).map fun i => nbits va.1 (32 * i) 32) ++ [vc.1, nbits vb.1 0 32, nbits vb.1 32 32])
  { v := [(d, 8, joinWords r.1, poison)], flags := if poison then 0 else r.2.bits 0 }

/-- BARY in a list of lanes, its flags raised for its 24 cc (R72, R217, R387). -/
def baryPut (now : Nat) (w0 : Warp) (d : Nat) (a b c : Src) (ls : List Nat) (w : Warp) : Warp :=
  let outs := ls.map fun l => (l, baryOut w0 d a b c l)
  (outs.foldl (fun (w : Warp) x => w.putOut x.1 x.2) w).raise now 24 (outFlags outs)

def execBary (g : Guard) (d : Nat) (a b c : Src) (s : State) : Host.Outcome State Fault Refusal :=
  issueLane s g .traps ((srcOpnds [(a, 8), (b, 2), (c, 1)]).toV d 8) fun s x =>
    match s.warp? x.g with
    | none => (s, [])
    | some w0 => (s.modWarp x.g (baryPut s.now w0 d a b c (lanesOf x.act)), [])

end Sys2Proof.Machine
end

