-- ==== Sys2Proof/Machine/FragList.lean ====
section
/-! DEFINITION. Lane group 0x7: the fragment-list engine and its command (R390–R410). -/

namespace Sys2Proof.Machine

/-! ## The words of an area (R390–R393, R400) -/

/-- Why an operation of one lane stops: a trap, or absent lines of its block's scratchpad. -/
inductive FlStop
  | trap (t : TrapInfo)
  | absent (block : Nat) (lines : List Nat)
  deriving DecidableEq, Repr

/-- One operation on an area: words are read first; writes, by word offset, are kept until all of them can be made (R400). -/
structure FlTx where
  s    : State
  bid  : Nat
  base : DWord
  buf  : Tbl Nat := []
  deriving DecidableEq, Repr

/-- The null node index (R390). -/
def nul : Nat := 0xFFFFFF

def FlTx.addr (t : FlTx) (off : Nat) : DWord := addOffset t.base ((off : Nat) : Int)

/-- Where a word of the area lies. -/
def flLoc (s : State) (bid : Nat) (p : DWord) (k : AccKind) : Except TrapInfo Loc :=
  match s.block? bid, (s.block? bid).bind fun b => s.launch? b.launch with
  | some b, some l =>
    if spaceOf p = 8 then .ok (.spad bid (nbits p.toNat 0 20) false)
    else
      match translate s b.core l.asid (spaceOf p) (nbits p.toNat 0 57) k with
      | .ok a => .ok (.dev a false)
      | .error d => .error { cause := 0x11, detail := d, addr := p }
  | _, _ => .error { cause := 0x11, detail := 1, addr := p }

/-- The device words of n bytes at a place. -/
def Loc.homeWords (x : Loc) (n : Nat) : List Nat := match x with | .dev a _ => wordSpan a n | _ => []

/-- Part of an operation: it stops or goes on, and lists the device words that it touches, which the engine holds under OWN (R401). -/
abbrev FlM := ExceptT FlStop (StateM (List Nat))

/-- What a part of an operation comes to, with the device words that it has touched. -/
def FlM.outcome {α : Type} (m : FlM α) : Except FlStop α × List Nat := m.run.run []

/-- Reads the word at a byte offset. -/
def FlTx.rd (t : FlTx) (off : Nat) : FlM Nat :=
  match tget t.buf off with
  | some x => pure x
  | none =>
    match flLoc t.s t.bid (t.addr off) .read with
    | .error e => throw (.trap e)
    | .ok (.spad b o _) =>
      (match absentOf t.s b o 4 with
        | [] => pure (natOfLe (spadRead t.s b o 4))
        | ls => throw (.absent b ls))
    | .ok x => do
      modify fun ws => ws ++ x.homeWords 4
      let r := readLoc t.s x 4
      if r.2 then throw (.trap (poisonTrap (t.addr off))) else pure (natOfLe r.1)

/-- Keeps a write of the word at a byte offset. -/
def FlTx.wr (t : FlTx) (off x : Nat) : FlTx := { t with buf := tset t.buf off (x % 2 ^ 32) }

/-- Makes every write, if each can be made. -/
def FlTx.commit (t : FlTx) : FlM State :=
  let core := ((t.s.block? t.bid).map Block.core).getD 0
  let locs := t.buf.map fun e => (flLoc t.s t.bid (t.addr e.1) .write, e.2)
  match locs.findSome? fun e => match e.1 with | .error x => some x | .ok _ => none with
  | some x => throw (.trap x)
  | none => do
    modify fun ws => ws ++ locs.flatMap fun e => match e.1 with | .ok x => x.homeWords 4 | .error _ => []
    pure (forEach locs t.s fun s e => match e.1 with | .ok x => engineWrite s core x (leOfNat 4 e.2) | .error _ => s)

def listCorrupt (t : FlTx) (off d : Nat) : FlStop := .trap { cause := 0x4B, detail := d, addr := t.addr off }
def listOperand (d x : Nat) : FlStop := .trap { cause := 0x4A, detail := d, addr := BitVec.ofNat 64 x }

/-- The header (R391). -/
structure FlHdr where
  px   : Nat
  pg   : Nat
  poff : Nat
  free : Nat
  fcnt : Nat
  stat : Nat
  deriving DecidableEq, Repr

/-- A node index that is neither null nor below 256 × PAGES (R399). -/
def badIndex (pg n : Nat) : Bool := n != nul && decide (256 * pg ≤ n)

/-- Reads the header: FREE is in range, and FREECNT agrees with it (R393, R399; log entry 135). -/
def FlTx.hdr (t : FlTx) : FlM FlHdr := do
  let px ← t.rd 0
  let pg ← t.rd 4
  let poff ← t.rd 8
  let free ← t.rd 12
  let fcnt ← t.rd 16
  let stat ← t.rd 20
  let free := nbits free 0 24
  if badIndex pg free then throw (listCorrupt t 12 1)
  else if (free == nul) != (fcnt == 0) || 256 * pg < fcnt then throw (listCorrupt t 16 3)
  else return { px := px, pg := pg, poff := poff, free := free, fcnt := fcnt, stat := stat }

/-- Writes the fields that the engine changes. -/
def FlTx.putHdr (t : FlTx) (h : FlHdr) : FlTx := ((t.wr 12 h.free).wr 16 h.fcnt).wr 20 h.stat

/-- A node (R393), with its index where it has one. -/
structure FlNode where
  depth   : Nat
  payload : Nat
  merged  : Bool
  ix      : Nat := 0
  fresh   : Bool := false
  deriving DecidableEq, Repr

/-- Offset of a node, and of a pixel's head entry. -/
def FlHdr.node (h : FlHdr) (n : Nat) : Nat := h.poff + 16 * n
def headOff (p : Nat) : Nat := 128 + 8 * p

/-- The nodes of a list from index nx on, found in the word at offset off; the index after the last is checked too. -/
def FlTx.walk (t : FlTx) (h : FlHdr) (cnt nx off : Nat) : FlM (List FlNode) :=
  match cnt with
  | 0 => if badIndex h.pg nx then throw (listCorrupt t off 1) else pure []
  | k + 1 =>
    if nx = nul then throw (listCorrupt t off 2)
    else if badIndex h.pg nx then throw (listCorrupt t off 1)
    else do
      let o := h.node nx
      let d ← t.rd o
      let lo ← t.rd (o + 4)
      let hi ← t.rd (o + 8)
      let lk ← t.rd (o + 12)
      let rest ← FlTx.walk t h k (nbits lk 0 24) (o + 12)
      return { depth := d, payload := lo + 2 ^ 32 * hi, merged := lk.testBit 24, ix := nx } :: rest

/-- The first word of a pixel's head entry, COUNT and HEAD, in an area of pg pages: neither is out of range (R399). -/
def FlTx.head (t : FlTx) (pg p : Nat) : FlM Nat := do
  let lo ← t.rd (headOff p)
  if 64 < nbits lo 24 7 then throw (listCorrupt t (headOff p) 2)
  else if badIndex pg (nbits lo 0 24) then throw (listCorrupt t (headOff p) 1)
  else pure lo

/-- The list of a pixel. -/
def FlTx.list (t : FlTx) (h : FlHdr) (p : Nat) : FlM (List FlNode) := do
  let lo ← t.head h.pg p
  t.walk h (nbits lo 24 7) (nbits lo 0 24) (headOff p)

/-- Takes a node off the free list: its NEXT is in range, and null with the last (R393, R399). -/
def FlTx.pop (t : FlTx) (h : FlHdr) : FlM (FlHdr × Nat) := do
  let lk ← t.rd (h.node h.free + 12)
  let nx := nbits lk 0 24
  if badIndex h.pg nx then throw (listCorrupt t (h.node h.free + 12) 1)
  else if (nx == nul) != (h.fcnt == 1) then throw (listCorrupt t 16 3)
  else return ({ h with free := nx, fcnt := h.fcnt - 1 }, h.free)

/-- A word that the operation has read. -/
def FlTx.old (t : FlTx) (off : Nat) : Nat := match (t.rd off).outcome.1 with | .ok x => x | .error _ => 0

/-- Pushes nodes on the free list, the first first: NEXT alone changes in each. -/
def FlTx.push (t : FlTx) (h : FlHdr) (ns : List Nat) : FlTx × FlHdr :=
  ns.foldl (fun (a : FlTx × FlHdr) n =>
    let o := a.2.node n + 12
    (a.1.wr o (setBits (a.1.old o) 0 24 a.2.free), { a.2 with free := n, fcnt := a.2.fcnt + 1 })) (t, h)

/-- Writes a pixel's list: its nodes, HEAD and COUNT. -/
def FlTx.putList (t : FlTx) (h : FlHdr) (p : Nat) (l : List FlNode) : FlTx :=
  let nexts := (l.drop 1).map FlNode.ix ++ [nul]
  let t := (l.zip nexts).foldl (fun (t : FlTx) e =>
    let o := h.node e.1.ix
    (((t.wr o e.1.depth).wr (o + 4) e.1.payload).wr (o + 8) (e.1.payload / 2 ^ 32)).wr (o + 12) (e.2 + if e.1.merged then 2 ^ 24 else 0)) t
  t.wr (headOff p) (setBits (setBits (t.old (headOff p)) 0 24 (((l.head?).map FlNode.ix).getD nul)) 24 7 l.length)

/-! ## Order and merging (R394, R396) -/

/-- A depth orders after another (R394): NaN after everything, −0 equal to +0. -/
def depthAfter (a b : Nat) : Bool :=
  match fpDecode .fp32 a, fpDecode .fp32 b with
  | .nan _ _, .nan _ _ => false
  | .nan _ _, _ => true
  | _, .nan _ _ => false
  | .inf n, .inf m => !n && m
  | .inf n, _ => !n
  | _, .inf m => m
  | x, y => y.toRat < x.toRat

/-- Inserts a node after every node whose depth is equal to or below its own. -/
def placeNode (l : List FlNode) (n : FlNode) : List FlNode :=
  match l with
  | [] => [n]
  | x :: r => if depthAfter x.depth n.depth then n :: x :: r else x :: placeNode r n

/-- A sum of two values that are not NaN: none for opposite infinities. -/
def fvAdd (a b : FVal) : Option FVal :=
  match a, b with
  | .fin n x, .fin m y =>
    let q := (if n then -x else x) + (if m then -y else y)
    some (.fin (if q = 0 then zeroSumSign .rn n m else q < 0) (if q < 0 then -q else q))
  | .inf n, .inf m => if n = m then some (.inf n) else none
  | .inf n, _ => some (.inf n)
  | _, .inf m => some (.inf m)
  | _, _ => none

/-- A quotient of two values that are not NaN, the divisor not zero: none for ∞ ÷ ∞. -/
def fvDiv (a b : FVal) : Option FVal :=
  match a, b with
  | .fin n x, .fin m y => some (.fin (n != m) (x / y))
  | .inf n, .fin m _ => some (.inf (n != m))
  | .fin n _, .inf m => some (.fin (n != m) 0)
  | _, _ => none

/-- The negative of a value. -/
def fvNeg (a : FVal) : FVal :=
  match a with
  | .fin n x => .fin (!n) x
  | .inf n => .inf (!n)
  | v => v

/-- A value rounded once to FP16 by RN; an invalid operation gives the canonical NaN. -/
def halfOf (v : Option FVal) : Nat :=
  match v with
  | some v => (fpConvert .fp16 .rn false false v).1
  | none => FpFmt.fp16.canonNan false

/-- The channels of a payload. -/
def channel (x i : Nat) : FVal := fpDecode .fp16 (nbits x (16 * i) 16)

/-- OVER, SUM and WAVG in one channel. -/
def overChannel (a b a3 : FVal) : Nat :=
  match nanResult .fp16 [a, b, a3] with
  | some r => r.1
  | none => halfOf ((fvAdd (.fin false 1) (fvNeg a3)).bind fun t => (mulVal b t).bind fun p => fvAdd a p)
def sumChannel (a b : FVal) : Nat :=
  match nanResult .fp16 [a, b] with
  | some r => r.1
  | none => halfOf (fvAdd a b)
def wavgChannel (a b w1 w2 : FVal) : Nat :=
  match nanResult .fp16 [a, b, w1, w2] with
  | some r => r.1
  | none =>
    match fvAdd w1 w2 with
    | none => halfOf none
    | some w =>
      if w.isZero then halfOf ((fvAdd a b).bind fun x => fvDiv x (.fin false 2))
      else halfOf ((mulVal w1 a).bind fun x => (mulVal w2 b).bind fun y => (fvAdd x y).bind fun z => fvDiv z w)
def wavgAlpha (w1 w2 : FVal) : Nat :=
  match nanResult .fp16 [w1, w2] with
  | some r => r.1
  | none =>
    match mulVal w1 w2 with
    | none => halfOf none
    | some p => (sumRound .fp16 .rn false false [w1, w2, fvNeg p]).1

/-- The payload of Merge(n1, n2) under a rule (R396). -/
def mergePayload (rule a b : Nat) : Nat :=
  let ch (i : Nat) : Nat :=
    match rule with
    | 0 => overChannel (channel a i) (channel b i) (channel a 3)
    | 2 => if i = 3 then wavgAlpha (channel a 3) (channel b 3) else wavgChannel (channel a i) (channel b i) (channel a 3) (channel b 3)
    | 3 => (fpMinMax .fp16 false false (nbits a (16 * i) 16) (nbits b (16 * i) 16)).1
    | 4 => (fpMinMax .fp16 false true (nbits a (16 * i) 16) (nbits b (16 * i) 16)).1
    | _ => sumChannel (channel a i) (channel b i)
  if rule = 1 then a else ch 0 + 2 ^ 16 * ch 1 + 2 ^ 32 * ch 2 + 2 ^ 48 * ch 3

/-! ## Operations of one lane (R397, R398, R403–R406) -/

/-- What an operation of one lane gives: its writes, its result, the events that it counts. -/
structure FlDone where
  tx  : FlTx
  val : Nat := 0
  evs : List Ev := []
  deriving DecidableEq, Repr

/-- The two farthest nodes become one until the list is within the budget. Under the rule CALLBACK the first merge traps:
DETAIL 1 if the new node is one of the two (R398). -/
def mergeDown (rule b pixel : Nat) (fuel : Nat) (l : List FlNode) (m : Bool) : Except FlStop (List FlNode × Bool) :=
  match fuel with
  | 0 => .ok (l, m)
  | k + 1 =>
    if l.length ≤ b then .ok (l, m)
    else
      match l.reverse with
      | n2 :: n1 :: r =>
        if rule = 6 then .error (.trap { cause := 0x48, detail := if n1.fresh || n2.fresh then 1 else 2, addr := BitVec.ofNat 64 pixel })
        else mergeDown rule b pixel k
          (r.reverse ++ [{ depth := n1.depth, payload := mergePayload rule n1.payload n2.payload, merged := true }]) true
      | _ => .ok (l, m)

/-- The budget of a pixel before exhaustion is considered. -/
def budgetOf (hi mrule : Nat) : Nat := if nbits hi 0 7 = 0 then nbits mrule 8 7 else nbits hi 0 7

/-- The insertion of R397. -/
def flInsert (t : FlTx) (mrule p d x : Nat) : FlM FlDone := do
  let h ← t.hdr
  let hi ← t.rd (headOff p + 4)
  let l ← t.list h p
  let exh := h.stat.testBit 0
  let b := if exh then 1 else budgetOf hi mrule
  let starved := l.length < b && h.fcnt == 0
  let now := exh || starved
  let b := if starved then 1 else b
  let stat := if now then setBits h.stat 0 1 1 else h.stat
  let evs := if now && !exh then [Ev.loftExhausted] else []
  if starved && l.isEmpty then
    return { tx := t.putHdr { h with stat := stat }, val := 8, evs := evs ++ [.insertDropped] }
  else
    let r ← mergeDown (nbits mrule 0 4) b p 65 (placeNode l { depth := d, payload := x, merged := false, fresh := true }) false
    let ixs := l.map FlNode.ix
    let z ← if l.length < r.1.length then do
        let q ← t.pop h
        pure (q.1, ixs ++ [q.2])
      else pure (h, ixs)
    let nodes := (r.1.zip z.2).map fun e => { e.1 with ix := e.2 }
    let w := t.push z.1 (z.2.drop r.1.length)
    return { tx := (w.1.putList z.1 p nodes).putHdr { w.2 with stat := stat }
             val := 1 + (if r.2 then 2 else 0) + (if now then 4 else 0) + 2 ^ 8 * nodes.length, evs := evs }

/-- FLMRG and FLMRG.ONE (R406). -/
def flMerge (t : FlTx) (one : Bool) (p d x : Nat) : FlM FlDone := do
  let h ← t.hdr
  let l ← t.list h p
  let k := if one then 1 else 2
  if l.length < k then throw (listOperand 3 p)
  else
    let keep := l.take (l.length - k)
    let gone := (l.drop (l.length - k)).map FlNode.ix
    let nodes := placeNode keep { depth := d, payload := x, merged := true, ix := gone.headD 0 }
    let w := t.push h (gone.drop 1)
    return { tx := (w.1.putList h p nodes).putHdr w.2 }

/-- The two words of a head entry, the four of a node (R403), in an area of pg pages. -/
def flHead (t : FlTx) (pg p : Nat) : FlM FlDone := do
  let lo ← t.head pg p
  let hi ← t.rd (headOff p + 4)
  return { tx := t, val := lo + 2 ^ 32 * hi }
def flNode (t : FlTx) (pg n : Nat) : FlM FlDone :=
  if n = nul then pure { tx := t, val := 0x7F800000 + 2 ^ 96 * 0xFFFFFFFF }
  else do
    let o ← t.rd 8
    let a ← t.rd (o + 16 * n)
    let b ← t.rd (o + 16 * n + 4)
    let c ← t.rd (o + 16 * n + 8)
    let d ← t.rd (o + 16 * n + 12)
    if badIndex pg (nbits d 0 24) then throw (listCorrupt t (o + 16 * n + 12) 1)
    else return { tx := t, val := a + 2 ^ 32 * b + 2 ^ 64 * c + 2 ^ 96 * d }

/-- FLBUDGET.SET and GET (R405): the budget is the one that R397 would use. -/
def flSetBudget (t : FlTx) (pg p b : Nat) : FlM FlDone := do
  let _ ← t.head pg p
  let hi ← t.rd (headOff p + 4)
  return { tx := t.wr (headOff p + 4) (setBits hi 0 7 b) }
def flGetBudget (t : FlTx) (pg mrule p : Nat) : FlM FlDone := do
  let fcnt ← t.rd 16
  let stat ← t.rd 20
  let lo ← t.head pg p
  let hi ← t.rd (headOff p + 4)
  let b := budgetOf hi mrule
  return { tx := t, val := if stat.testBit 0 || nbits lo 24 7 < b && fcnt == 0 then 1 else b }

/-- FLCLR.PIX of one pixel (R404). -/
def flClear (t : FlTx) (p : Nat) : FlM FlDone := do
  let h ← t.hdr
  let l ← t.list h p
  let w := t.push h (l.map FlNode.ix)
  return { tx := (w.1.putList w.2 p []).putHdr w.2 }

/-! ## Direct instructions (R400, R401, R407) -/

/-- A word of a binding's header if it can be read now, else the value that the binding captured. -/
def boundWord (t : FlTx) (off captured : Nat) : Nat := match (t.rd off).outcome.1 with | .ok x => x | .error _ => captured

/-- An INIT of the block still waits in the queue or runs. -/
def initPending (s : State) (b : Block) (bid : Nat) : Bool :=
  (s.core b.core).cmds.any fun c => c.block == bid && (match c.kind with | .flclr i _ _ _ _ _ => i | _ => false)

/-- PIXELS and PAGES of a block's binding. -/
def boundPixels (t : FlTx) (b : Block) : Nat := if initPending t.s b t.bid then b.flPixels else boundWord t 0 b.flPixels
def boundPages (t : FlTx) (b : Block) : Nat := if initPending t.s b t.bid then b.flPages else boundWord t 4 b.flPages

def detForbidden : TrapInfo := { cause := 0x16, detail := 0, addr := 0 }
def noBinding : TrapInfo := { cause := 0x49, detail := 4, addr := 0 }

/-- The lanes that take a trap at steps 1 to 3 of R400 before any operand is read, and those that go on. -/
def flPre (c : Ctx) (w : Warp) (b : Block) (det forbid bind : Bool) : Fates × LaneMask :=
  let all := c.act ||| c.pg
  let bad := if det then maskOf ((lanesOf all).filter fun l => forbid && !w.inside.getLsbD l) else 0
  let rest := all &&& ~~~ bad
  if bind && b.flBinding.isNone then ([(bad, .trap detForbidden), (rest, .trap noBinding)], 0)
  else ([(bad, .trap detForbidden), (rest &&& c.pg, .trap (poisonTrap 0))], rest &&& c.act)

/-- A check of the lowest lane that its poisoned guard fails fails for every lane (R404, R405). -/
def Ctx.lowFails (c : Ctx) : Ctx :=
  if c.pg.getLsbD (lowLane (c.act ||| c.pg)) then { c with act := 0, pg := c.act ||| c.pg } else c

/-- The operands of a lane, with their poison: pixel or index, and the others together. -/
structure FlOps where
  pix  : Nat × Bool
  dep  : Nat × Bool := (0, false)
  pay  : Nat × Bool := (0, false)
  deriving DecidableEq, Repr

/-- Steps 3 to 6 of R400 for a lane whose first operand is a pixel. -/
def pixelTrap (t : FlTx) (b : Block) (x : FlOps) : Option TrapInfo :=
  if x.pix.2 then some (poisonTrap 0)
  else if boundPixels t b ≤ x.pix.1 then some { cause := 0x4A, detail := 1, addr := BitVec.ofNat 64 x.pix.1 }
  else if x.dep.2 || x.pay.2 then some (poisonTrap 0)
  else none

/-- The same for a node index (R403). -/
def indexTrap (t : FlTx) (b : Block) (x : FlOps) : Option TrapInfo :=
  let n := nbits x.pix.1 0 24
  if x.pix.2 then some (poisonTrap 0)
  else if n ≠ nul && 256 * boundPages t b ≤ n then some { cause := 0x4A, detail := 2, addr := BitVec.ofNat 64 x.pix.1 }
  else none

/-- What an instruction's lanes have come to: the state, the fates of those that stopped, the results of those performed, and the device words touched. -/
structure FlRun where
  s     : State
  fates : Fates := []
  vals  : List (Nat × Nat) := []
  words : List Nat := []
  deriving DecidableEq, Repr

/-- A direct instruction: the registers it names, its LA, whether deterministic mode turns lanes outside a section away (`forbid`), whether a lane inside
one waits for the fragments before its own (`ordered`, R407), whether ACT is set (R395), its destination, the lanes that it skips and that receive 0, and
its operation in a lane (R400–R407). -/
structure ListForm where
  o       : Opnds
  la      : Nat := 0
  forbid  : Block → Bool := fun _ => true
  ordered : Bool := true
  act     : Bool := true
  dst     : Option (Nat × Nat) := none
  skip    : Warp → Nat → Bool := fun _ _ => false
  ops     : Warp → Nat → FlOps
  check   : FlTx → Block → FlOps → Option TrapInfo := pixelTrap
  op      : FlTx → Block → FlOps → FlM FlDone

/-- The operation of one lane with its writes. -/
def ListForm.run (x : ListForm) (t : FlTx) (b : Block) (y : FlOps) : FlM (State × FlDone) := do
  let d ← x.op t b y
  let s ← d.tx.commit
  return (s, d)

/-- One lane is performed: the words that it touches are held under OWN (R401). -/
def flLane (s : State) (g bid : Nat) (b : Block) (w : Warp) (x : ListForm) (l : Nat) : FlRun :=
  let t : FlTx := { s := s, bid := bid, base := b.flBinding.getD 0 }
  let y := x.ops w l
  let ranges := (t.rd 0).outcome.2 ++ (t.rd 4).outcome.2
  match x.check t b y with
  | some e => { s := s, fates := [(laneBit l, .trap e)], words := ranges }
  | none =>
    let z := (x.run t b y).outcome
    let ws := (ranges ++ z.2).dedup
    match z.1 with
    | .error (.trap e) => { s := engineOwn s b.core ws, fates := [(laneBit l, .trap e)], words := ws }
    | .error (.absent k ls) => { s := s, fates := [(laneBit l, absentFate s g k ls)], words := ws }
    | .ok r => { s := engineOwn (forEach r.2.evs r.1 fun s e => s.count e 1) b.core ws, vals := [(l, r.2.val)], words := ws }

/-- Performs lanes one after another (R401). -/
def flLanes (s : State) (g bid : Nat) (b : Block) (w : Warp) (x : ListForm) (lanes : List Nat) : FlRun :=
  match lanes with
  | [] => { s := s }
  | l :: r =>
    let a := flLane s g bid b w x l
    let z := flLanes a.s g bid b w x r
    { s := z.s, fates := a.fates ++ z.fates, vals := a.vals ++ z.vals, words := a.words ++ z.words }

/-- The active lanes that an instruction skips. -/
def ListForm.out (x : ListForm) (c : Ctx) (w : Warp) : List Nat := (lanesOf c.act).filter fun l => x.skip w l

/-- All lanes of a direct instruction, in the order of R400. -/
def ListForm.perform (x : ListForm) (s : State) (c : Ctx) (w : Warp) (b : Block) : FlRun :=
  let det := s.flagOf c.g Launch.det
  let pre := flPre { c with act := c.act &&& ~~~ maskOf (x.out c w) } w b det (x.forbid b) true
  let late := if x.ordered && det then
    maskOf ((lanesOf pre.2).filter fun l => match tget w.frags l with | some f => olderOpen s (coreOf c.g) f | none => false) else 0
  let z := flLanes s c.g w.block b w x (lanesOf (pre.2 &&& ~~~ late))
  { z with fates := pre.1 ++ [(late, .park .listOrder)] ++ z.fates }

/-- After the lanes of a direct instruction: ACT is set by a lane that performed (R395), and destinations receive their values, 0 in
the lanes of `out`. -/
def flAfter (z : FlRun) (g bid : Nat) (x : ListForm) (out : List Nat) : State :=
  let s := if x.act && !z.vals.isEmpty then z.s.modBlock bid fun b => { b with mact := true } else z.s
  match x.dst with
  | none => s
  | some d => s.newId.1.modWarp g fun w => w.deliver s.nextId x.la
      (((out.map fun l => (l, 0)) ++ z.vals).map fun e : Nat × Nat => (e.1, { v := [(d.1, d.2, e.2, false)] }))

/-- The device words that a direct instruction is to touch and that its core does not hold: it waits until their homes can serve them (R272, R401). -/
def flHome (s : State) (gd : Guard) (x : ListForm) : List Nat :=
  match s.looking with
  | none => []
  | some (g, w, e) =>
    match s.blockOf g with
    | none => []
    | some b =>
      let m := guardLanes w gd e.mask
      ((x.perform s { g := g, e := e, lanes := e.mask, act := m.1, pg := m.2 } w b).words.dedup).filter fun k => !holdsOwn s b.core k

/-- The operands of a direct instruction as it issues. -/
def ListForm.opnds (x : ListForm) (s : State) (gd : Guard) : Opnds :=
  { x.o with rel := max 5 x.o.rel, async := x.la != 0, home := flHome s gd x, ask := .ownRq }

/-- A direct instruction. -/
def flDirect (s : State) (gd : Guard) (x : ListForm) : Host.Outcome State Fault Refusal :=
  issueLane s gd .own (x.opnds s gd) fun s c =>
    match s.warp? c.g, s.blockOf c.g with
    | some w, some b =>
      let z := x.perform s c w b
      (flAfter z c.g w.block x (x.out c w), z.fates)
    | _, _ => (s, [])

/-- Pixel, depth and payload operands. -/
def insOps (a b c : Src) (w : Warp) (l : Nat) : FlOps := { pix := vread w a 1 l, dep := vread w b 1 l, pay := vread w c 2 l }
def onePix (a : Src) (w : Warp) (l : Nat) : FlOps := { pix := vread w a 1 l }

def execFlins (g : Guard) (d : Nat) (a b c : Src) (s : State) : Host.Outcome State Fault Refusal :=
  flDirect s g
    { o := (srcOpnds [(a, 1), (b, 1), (c, 2)]).toV d 1, dst := some (d, 1), ops := insOps a b c
      op := fun t b x => flInsert t b.mrule x.pix.1 x.dep.1 x.pay.1 }
def execFlmrg (g : Guard) (a b c : Src) (s : State) : Host.Outcome State Fault Refusal :=
  flDirect s g
    { o := srcOpnds [(a, 1), (b, 1), (c, 2)], ops := insOps a b c, op := fun t _ x => flMerge t false x.pix.1 x.dep.1 x.pay.1 }
def execFlmrgOne (g : Guard) (a b c : Src) (s : State) : Host.Outcome State Fault Refusal :=
  flDirect s g
    { o := srcOpnds [(a, 1), (b, 1), (c, 2)], ops := insOps a b c, op := fun t _ x => flMerge t true x.pix.1 x.dep.1 x.pay.1 }
def execFlhead (g : Guard) (la d : Nat) (a : Src) (s : State) : Host.Outcome State Fault Refusal :=
  flDirect s g
    { o := (srcOpnds [(a, 1)]).toV d 2, la := la, forbid := fun _ => false, ordered := false, act := false, dst := some (d, 2), ops := onePix a
      op := fun t b x => flHead t (boundPages t b) x.pix.1 }
def execFlnode (g : Guard) (la d : Nat) (a : Src) (s : State) : Host.Outcome State Fault Refusal :=
  flDirect s g
    { o := (srcOpnds [(a, 1)]).toV d 4, la := la, forbid := fun _ => false, ordered := false, act := false, dst := some (d, 4), ops := onePix a
      check := indexTrap, op := fun t b x => flNode t (boundPages t b) (nbits x.pix.1 0 24) }

/-- The check of FLBUDGET.SET: the pixel, then the budget, which is DETAIL 4 above 64 (R405). -/
def budgetTrap (t : FlTx) (blk : Block) (x : FlOps) : Option TrapInfo :=
  match pixelTrap t blk x with
  | some e => some e
  | none => if 64 < x.dep.1 then some { cause := 0x4A, detail := 4, addr := BitVec.ofNat 64 x.dep.1 } else none

/-- FLBUDGET.SET and GET (R405). -/
def execFlbudgetSet (g : Guard) (a b : Src) (s : State) : Host.Outcome State Fault Refusal :=
  flDirect s g
    { o := srcOpnds [(a, 1), (b, 1)], forbid := fun b => b.mact, ordered := false, act := false
      ops := fun w l => { pix := vread w a 1 l, dep := vread w b 1 l }
      check := budgetTrap, op := fun t b x => flSetBudget t (boundPages t b) x.pix.1 x.dep.1 }
def execFlbudgetGet (g : Guard) (d : Nat) (a : Src) (s : State) : Host.Outcome State Fault Refusal :=
  flDirect s g
    { o := (srcOpnds [(a, 1)]).toV d 1, forbid := fun _ => false, ordered := false, act := false, dst := some (d, 1), ops := onePix a
      op := fun t b x => flGetBudget t (boundPages t b) b.mrule x.pix.1 }

/-- A value that MRULE may take (R399, DETAIL 5). -/
def mruleOk (x : Nat) : Bool := nbits x 16 16 == 0 && nbits x 4 4 == 0 && nbits x 0 4 ≤ 6 && 1 ≤ nbits x 8 7 && nbits x 8 7 ≤ 64

/-- FLBUDGET.RULE (R405): ACT, bit 15, is kept. A poisoned guard in the lowest lane fails step 3 of R400 for every lane, in another lane for that one. -/
def execFlbudgetRule (g : Guard) (a : Src) (s : State) : Host.Outcome State Fault Refusal :=
  issueLane s g .own { srcOpnds [(a, 1)] with rel := 5 } fun s c =>
    match s.warp? c.g, s.blockOf c.g with
    | some w, some b =>
      let c := c.lowFails
      let pre := flPre c w b (s.flagOf c.g Launch.det) b.mact false
      let x := vread w a 1 (lowLane pre.2)
      if pre.2 = 0 then (s, pre.1)
      else if x.2 then (s, pre.1 ++ [(pre.2, .trap (poisonTrap 0))])
      else if !mruleOk x.1 then (s, pre.1 ++ [(pre.2, .trap { cause := 0x4A, detail := 5, addr := BitVec.ofNat 64 x.1 })])
      else (s.modBlock w.block fun b => { b with mrule := x.1 % 2 ^ 15 }, pre.1)
    | _, _ => (s, [])

/-- FLBUDGET.RRD (R405). -/
def execFlbudgetRrd (g : Guard) (d : Nat) (s : State) : Host.Outcome State Fault Refusal :=
  issueLane s g .traps { vw := [d], rel := 5 } fun s c =>
    match s.blockOf c.g with
    | none => (s, [])
    | some b =>
      let x := BitVec.ofNat 32 (b.mrule + if b.mact then 2 ^ 15 else 0)
      (s.modWarp c.g fun w => (lanesOf c.act).foldl (fun (w : Warp) l => w.vput d l { bits := x, poison := false }) w, [])

/-! ## FLCLR (R404) -/

/-- PAGE_OFF of R390, and the size of an area. -/
def pageOff (px : Nat) : Nat := (128 + 8 * px + 127) / 128 * 128
def areaSize (px pg : Nat) : Nat := pageOff px + 4096 * pg

/-- The list-area checks of INIT (R399): the DETAIL of the first that fails. -/
def areaDetail (s : State) (bid : Nat) (b : Block) (l : Launch) (p : DWord) (px pg : Nat) : Option Nat :=
  let n := areaSize px pg
  let lo := nbits p.toNat 0 57
  let other (e : Nat × Block) : Bool :=
    e.1 != bid && e.2.core == b.core && (match e.2.st with | .saved => false | _ => true)
      && ((s.launch? e.2.launch).map Launch.asid) == some l.asid
      && (match e.2.flBinding with
        | some q =>
          let lo' := nbits q.toNat 0 57
          spaceOf q ≤ 3 && lo' < lo + n && lo < lo' + areaSize e.2.flPixels e.2.flPages
        | none => false)
  if !ptrWellFormed p || !(spaceOf p ≤ 3 || spaceOf p = 8) || p.toNat % 128 ≠ 0 then some 1
  else if px = 0 || 2 ^ 24 < px || pg = 0 || 65535 < pg || (spaceOf p = 8 && b.spadBytes < nbits p.toNat 0 20 + n) then some 2
  else if spaceOf p ≤ 3 && s.blocks.any other then some 3
  else none

/-- The relMet level of an FLCLR on an area, and its scope: device, or the block's own scratchpad. -/
def flScope (p : DWord) : Scope := if spaceOf p ≤ 3 then .device else .block

/-- Puts an FLCLR into the queue. -/
def postFlclr (s : State) (c : Ctx) (w : Warp) (b : Block) (l : Launch) (kind : CmdKind) (area : DWord) (size units : Nat) : State :=
  let s := releaseAct s c.g (flScope area) none
  let n := s.newId
  let cmd : Cmd :=
    { id := n.2, block := w.block, warp := w.idx, kind := kind, feet := [footOf l w.block b area size true], units := units, since := s.devNs }
  (n.1.noteCmd c.g c.lanes n.2).modCore (coreOf c.g) fun q => { q with cmds := q.cmds ++ [cmd] }

/-- The pointer that an FLCLR.INIT of the issuing split would take, for its ordering level. -/
def initLevel (s : State) (gd : Guard) (a : Src) : Nat :=
  match s.looking with
  | none => 0
  | some (_, w, e) =>
    let m := (guardLanes w gd e.mask).1
    if m = 0 then 0 else relLevel .rel (flScope (BitVec.ofNat 64 (vread w a 2 (lowLane m)).1))

/-- An FLCLR.INIT that passes its checks: the binding, the lines of a scratchpad area absent, the command queued (R13, R404). -/
def initPosted (s : State) (c : Ctx) (w : Warp) (blk : Block) (l : Launch) (p : DWord) (px pg : Nat) : State :=
  let n := areaSize px pg
  let s := s.modBlock w.block fun b => { b with flBinding := some p, flPixels := px, flPages := pg, mact := false }
  let s := if spaceOf p = 8 then
    forEach (linesOf (nbits p.toNat 0 20) n) s fun s k => (s.lineAbsent w.block k []).1 else s
  postFlclr s c w blk l (.flclr true p px pg 0 []) p n (n / 128)

/-- FLCLR.INIT (R404). -/
def execFlclrInit (g : Guard) (a b c : Src) (s : State) : Host.Outcome State Fault Refusal :=
  issueLane s g .own { srcOpnds [(a, 2), (b, 1), (c, 1)] with rel := initLevel s g a } fun s x =>
    match s.warp? x.g, s.blockOf x.g, s.launchOf x.g with
    | some w, some blk, some l =>
      let x := x.lowFails
      let pre : Fates := [(x.pg, .trap (poisonTrap 0))]
      let lane := lowLane x.act
      let pa := vread w a 2 lane
      let px := vread w b 1 lane
      let pg := vread w c 1 lane
      let p := BitVec.ofNat 64 pa.1
      if x.act = 0 then (s, pre)
      else if pa.2 || px.2 || pg.2 then (s, pre ++ [(x.act, .trap (poisonTrap 0))])
      else
        match areaDetail s w.block blk l p px.1 pg.1 with
        | some d => (s, pre ++ [(x.act, .trap { cause := 0x49, detail := d, addr := p })])
        | none =>
          if 64 ≤ (s.core (coreOf x.g)).cmds.length then (s, pre ++ [(x.act, .park .commandQueue)])
          else (initPosted s x w blk l p px.1 pg.1, pre)
    | _, _, _ => (s, [])

/-- The relMet level of an FLCLR.PIX. -/
def pixLevel (s : State) : Nat :=
  match s.looking with
  | none => 0
  | some (g, _, _) => relLevel .rel (flScope (((s.blockOf g).bind Block.flBinding).getD 0))

/-- FLCLR.PIX (R404): checked at issue, steps 1 to 6. -/
def execFlclrPix (g : Guard) (a : Src) (s : State) : Host.Outcome State Fault Refusal :=
  issueLane s g .own { srcOpnds [(a, 1)] with rel := pixLevel s } fun s c =>
    match s.warp? c.g, s.blockOf c.g, s.launchOf c.g with
    | some w, some b, some l =>
      let pre := flPre c w b (s.flagOf c.g Launch.det) true true
      let area := b.flBinding.getD 0
      let t : FlTx := { s := s, bid := w.block, base := area }
      let bad := (lanesOf pre.2).filterMap fun k => (pixelTrap t b (onePix a w k)).map fun e => (laneBit k, Fate.trap e)
      let good := (lanesOf pre.2).filter fun k => (pixelTrap t b (onePix a w k)).isNone
      let fates := pre.1 ++ bad
      if good.isEmpty then (s, fates)
      else if 64 ≤ (s.core (coreOf c.g)).cmds.length then (s, fates ++ [(maskOf good, .park .commandQueue)])
      else
        (postFlclr s c w b l (.flclr false area b.flPixels b.flPages 0 (good.map fun k => (vread w a 1 k).1)) area
          (areaSize b.flPixels b.flPages) good.length, fates)
    | _, _, _ => (s, [])

/-- The bytes of the area line at an offset as INIT writes it. -/
def initLine (px pg off : Nat) : List Byte :=
  let word (o : Nat) : Nat :=
    if o < 128 then (match o with | 0 => px | 4 => pg | 8 => pageOff px | 16 => 256 * pg | _ => 0)
    else if o < pageOff px then (if o % 8 = 0 && o < 128 + 8 * px then nul else 0)
    else
      let n := (o - pageOff px) / 16
      if o % 16 = 12 then (if n + 1 < 256 * pg then n + 1 else nul) else 0
  (List.range 32).flatMap fun i => leOfNat 4 (word (off + 4 * i))

/-- An FLCLR leaves the queue: direct instructions of its block may now go on (R401). -/
def endFlclr (s : State) (core : Nat) (c : Cmd) : State :=
  let s := s.endCmd core c true
  (forEach (s.warpsOf c.block) s fun s w => s.wake w.1).blockExitTest c.block

/-- FLCLR meets a failure and ends (R404). -/
def failFlclr (s : State) (core : Nat) (c : Cmd) (a : DWord) : State :=
  endFlclr ((s.count .listFault 1).tell (.listFault a)) core c

/-- An FLCLR has performed unit NEXT. -/
def stepFlclr (s : State) (core : Nat) (c : Cmd) : State :=
  let s := s.modCmd core c.id fun c => { c with next := c.next + 1, st := .running }
  if c.next + 1 < c.units then s else endFlclr s core { c with next := c.next + 1, st := .running }

/-- Line n of an INIT is written; a scratchpad line is present again. -/
def initWritten (s : State) (core : Nat) (x : Loc) (px pg n : Nat) : State :=
  let s := engineWrite s core x (initLine px pg (128 * n))
  match x with
  | .spad b o _ => s.linePresent b (o / 128)
  | _ => s

/-- The engine of a core takes its turn at device words, those of `whole` to be written in full: whether it may act, and the state, in which it asks for
them otherwise (R272, R401). -/
def engineTurn (s : State) (core : Nat) (kind : ReqKind) (whole ws : List Nat) : Bool × State :=
  let ws := ws.filter fun w => !holdsOwn s core w
  if ws.isEmpty then (true, s)
  else if s.homeReady core whole ws then (true, s.homeTaken core ws)
  else (false, s.homeAsk core kind whole ws)

/-- Pixel NEXT of a PIX, in a state. -/
def pixTurn (s : State) (c : Cmd) (area : DWord) (p : Nat) : Except FlStop State × List Nat :=
  let t : FlTx := { s := s, bid := c.block, base := area }
  FlM.outcome (do let d ← flClear t p; d.tx.commit)

/-- FLCLR_RUN (R404): line NEXT of an INIT, or pixel NEXT of a PIX. -/
def execFlclrRun (core cmd : Nat) (s : State) : Host.Outcome State Fault Refusal :=
  match s.cmd? core cmd with
  | none => .next s
  | some c =>
    if c.st == .queued && s.edgeInto core c then .next s
    else
      match c.kind with
      | .flclr true area px pg _ _ =>
        let p := addOffset area ((128 * c.next : Nat) : Int)
        (match flLoc s c.block p .write with
          | .error e => .next (failFlclr s core c e.addr)
          | .ok x =>
            let ws := x.homeWords 128
            let t := engineTurn s core .ownRq ws ws
            .next (if t.1 then stepFlclr (initWritten t.2 core x px pg c.next) core c else t.2))
      | .flclr false area _ _ _ list =>
        (match list[c.next]? with
          | none => .next (endFlclr s core c)
          | some p =>
            let t := engineTurn s core .ownRq [] (pixTurn s c area p).2.dedup
            if !t.1 then .next t.2
            else
              let z := pixTurn t.2 c area p
              match z.1 with
              | .ok u => .next (stepFlclr (engineOwn u core z.2.dedup) core c)
              | .error (.trap e) => .next (failFlclr t.2 core c e.addr)
              | .error (.absent _ _) => .next t.2)
      | _ => .next s

end Sys2Proof.Machine
end

