-- ==== Sys2Proof/Machine/Matrix.lean ====
section
/-! DEFINITION. The matrix engine: uniform group 0x5 and its events (R349–R374). -/

namespace Sys2Proof.Machine

/-! ## Words of a matrix instruction (R353, R363, R368) -/

/-- The fields of an MCW (R353). -/
def mcwGuard (x : Nat) : Option Nat := if x.testBit 24 then some (nbits x 25 4) else none
def mcwOut (x : Nat) : Option Nat := if x.testBit 29 then some (nbits x 30 4) else none
def mcwPg (x : Nat) : Nat := nbits x 21 3
def mcwDone (x : Nat) : DWord := if x.testBit 20 then BitVec.ofNat 64 (8 * 2 ^ 60 + nbits x 0 20) else 0
/-- An MCW breaks R353 or R354 in a block with n bytes of scratchpad: a DONE of zero without DEN is the word of s63, which names nothing (log
entry 108). -/
def mcwBad (n x : Nat) : Bool :=
  nbits x 34 30 != 0 || ((x.testBit 20 || nbits x 0 20 != 0) && n < nbits x 0 20 + 16) || (x.testBit 20 && nbits x 0 20 % 16 != 0)

/-- A window of the accumulator store: region, first row, first column, rows, columns. -/
structure AccWin where
  reg  : Nat
  row  : Nat
  col  : Nat
  rows : Nat
  cols : Nat
  deriving DecidableEq, Repr

/-- The window that an AW names (R368). -/
def winOf (aw : DWord) : AccWin :=
  let x := aw.toNat
  { reg := nbits x 0 1, row := nbits x 1 9, col := nbits x 10 9, rows := nbits x 19 10, cols := nbits x 29 10 }

/-- The window lies in its region and is not empty. -/
def AccWin.ok (w : AccWin) : Bool := 1 ≤ w.rows && 1 ≤ w.cols && w.row + w.rows ≤ 512 && w.col + w.cols ≤ 512

/-- Byte offset and word number of an element of the store (R351). -/
def accOff (reg row col : Nat) : Nat := 0x100000 * reg + 2048 * row + 4 * col
def accWord (c : Core) (reg row col : Nat) : Word := tgetD c.acc (accOff reg row col / 4) 0
def accSet (c : Core) (reg row col : Nat) (x : Word) : Core := { c with acc := tput c.acc (accOff reg row col / 4) x 0 }

/-- The footprint of a window (R351): its lines in space 1010, row by row. -/
def AccWin.feet (w : AccWin) (write : Bool) : List Footprint :=
  (List.range w.rows).map fun r =>
    let a := accOff w.reg (w.row + r) w.col
    { space := 10, owner := 0, first := a / 128, lines := (a + 4 * w.cols - 1) / 128 - a / 128 + 1, write := write }

/-- The fields of an MMA's descriptor (R363). -/
def dCvw (d : DWord) : Bool := d.getLsbD 56
def dZero (d : DWord) : Bool := d.getLsbD 55
def dEb (d : DWord) : Option Nat := if d.getLsbD 54 then some (nbits d.toNat 51 3) else none
def dEa (d : DWord) : Option Nat := if d.getLsbD 50 then some (nbits d.toNat 47 3) else none
def dTb (d : DWord) : Nat := nbits d.toNat 43 4
def dTa (d : DWord) : Nat := nbits d.toNat 39 4
def dCol (d : DWord) : Nat := nbits d.toNat 10 9
def dRow (d : DWord) : Nat := nbits d.toNat 1 9
def dReg (d : DWord) : Nat := nbits d.toNat 0 1

/-! ## Tiles (R218, R219, R352) -/

/-- The registers of a tile span. -/
def spanOf (n shape : Nat) : List Nat := (List.range (tcSpan shape + 1)).map fun i => n + i

/-- The mark of a tile register that was last written as part of tile n under a shape. -/
def tileTag (n shape : Nat) : Nat := n * 2 ^ 32 + shape

def Core.tile (c : Core) (n : Nat) : Tile := tgetD c.tiles n {}

/-- The contents of tile n are those written under this shape, or zero bytes that nothing has written. -/
def Core.tileKnown (c : Core) (n shape : Nat) : Bool :=
  ((spanOf n shape).all fun k => (c.tile k).shape == some (tileTag n shape)) || ((spanOf n shape).all fun k => (c.tile k).shape == none)

/-- Number of an element, and of the scale of an element, in a tile. -/
def elemIx (shape r k : Nat) : Nat := r * tcCols shape + k
def scaleIx (shape r k : Nat) : Nat :=
  if tcGdir shape = 0 then r * (tcCols shape / 32) + k / 32 else k * (tcRows shape / 32) + r / 32

/-- An element of a tile, read under a shape; under another shape than the one that wrote it, a free value (log entry 10). -/
def Core.tileElem (c : Core) (fresh n shape r k : Nat) : Nat :=
  if c.tileKnown n shape then tgetD (c.tile n).elems (elemIx shape r k) 0
  else Config.freeTileElem ((c.tile n).shape.getD 0) shape n (elemIx shape r k) fresh % 2 ^ tcWidth (tcFmt shape)
/-- The scale byte of an element's granule. -/
def Core.tileScale (c : Core) (fresh n shape r k : Nat) : Nat :=
  if c.tileKnown n shape then tgetD (c.tile n).scales (scaleIx shape r k) 0
  else Config.freeTileElem ((c.tile n).shape.getD 0) shape n (2 ^ 20 + scaleIx shape r k) fresh % 256

/-- Marks the registers of a tile's span as written under a shape: other contents go. -/
def Core.tileMark (c : Core) (n shape : Nat) : Core :=
  { c with tiles := (spanOf n shape).foldl (fun t k =>
      if (tgetD t k ({} : Tile)).shape == some (tileTag n shape) then t else tset t k { shape := some (tileTag n shape) }) c.tiles }
def Core.setElem (c : Core) (n shape r k x : Nat) : Core :=
  let t := c.tile n
  { c with tiles := tset c.tiles n { t with elems := tput t.elems (elemIx shape r k) x 0 } }
def Core.setScale (c : Core) (n shape r k x : Nat) : Core :=
  let t := c.tile n
  { c with tiles := tset c.tiles n { t with scales := tput t.scales (scaleIx shape r k) x 0 } }

/-- Scratchpad rows of a tile in a direction: how many, the elements of each, the length of each in bytes (R352). -/
def rowCount (shape : Nat) (col : Bool) : Nat := if col then tcCols shape else tcRows shape
def rowElems (shape : Nat) (col : Bool) : Nat := if col then tcRows shape else tcCols shape
def granBytes (w : Nat) : Nat := if w = 8 then 33 else if w = 6 then 25 else 17
def rowLen (shape : Nat) (col : Bool) : Nat :=
  let n := rowElems shape col
  let w := tcWidth (tcFmt shape)
  match tcScale shape with
  | 0 => n * w / 8
  | 1 => n / 32 * granBytes w
  | _ => n * w / 8 + n / 32

/-- The place of element i of scratchpad row j: tile row and column. -/
def rowAt (col : Bool) (j i : Nat) : Nat × Nat := if col then (i, j) else (j, i)

/-- The bit position of element i, and of the scale of run h, in a scratchpad row. -/
def elemBit (shape : Nat) (i : Nat) : Nat :=
  let w := tcWidth (tcFmt shape)
  if tcScale shape = 1 then 8 * (i / 32 * granBytes w) + 8 + w * (i % 32) else w * i
def scaleBit (shape : Nat) (col : Bool) (h : Nat) : Nat :=
  let w := tcWidth (tcFmt shape)
  if tcScale shape = 1 then 8 * (h * granBytes w) else rowElems shape col * w + 8 * h
def rowRuns (shape : Nat) (col : Bool) : Nat := if tcScale shape = 0 then 0 else rowElems shape col / 32

/-- A scratchpad row's bytes put into a tile. -/
def Core.putRow (c : Core) (n shape : Nat) (col : Bool) (j : Nat) (bs : List Byte) : Core :=
  let x := natOfLe bs
  let w := tcWidth (tcFmt shape)
  let c := (List.range (rowElems shape col)).foldl (fun (c : Core) i =>
    let p := rowAt col j i
    c.setElem n shape p.1 p.2 (nbits x (elemBit shape i) w)) c
  (List.range (rowRuns shape col)).foldl (fun (c : Core) h =>
    let p := rowAt col j (32 * h)
    c.setScale n shape p.1 p.2 (nbits x (scaleBit shape col h) 8)) c

/-- The bytes of a scratchpad row of a tile. -/
def Core.getRow (c : Core) (fresh n shape : Nat) (col : Bool) (j : Nat) : List Byte :=
  let es := (List.range (rowElems shape col)).map fun i =>
    let p := rowAt col j i
    c.tileElem fresh n shape p.1 p.2 * 2 ^ elemBit shape i
  let ss := (List.range (rowRuns shape col)).map fun h =>
    let p := rowAt col j (32 * h)
    c.tileScale fresh n shape p.1 p.2 * 2 ^ scaleBit shape col h
  leOfNat (rowLen shape col) ((es ++ ss).foldl (· + ·) 0)

/-! ## Values and formats (R58–R60, R76, R360) -/

/-- The floating or MX format of a tile's FMT. -/
def tcCvt (fmt : Nat) : CvtFmt :=
  match fmt with
  | 2 => .f16
  | 3 => .bf16
  | 4 => .e4m3
  | 5 => .e5m2
  | 6 => .e3m2
  | 7 => .e2m3
  | 8 => .e2m1
  | 11 => .mxint8
  | _ => .f32

/-- The value of an element with its scale byte under a shape. -/
def tileVal (shape e sc : Nat) : FVal :=
  let fmt := tcFmt shape
  if tcScale shape ≠ 0 then mxValue (tcCvt fmt) sc e
  else if fmt = 1 then tf32Decode e
  else if fmt = 9 || fmt = 10 then let i := sgn (tcWidth fmt) e; .fin (i < 0) (i.natAbs : ℚ)
  else fpDecode (cvtFmt (tcCvt fmt)) e

/-- The value of element (r, k) of a tile. -/
def Core.tileVal (c : Core) (fresh n shape r k : Nat) : FVal :=
  Machine.tileVal shape (c.tileElem fresh n shape r k) (if tcScale shape = 0 then 0 else c.tileScale fresh n shape r k)

/-- A value written into an unscaled element (R360); `word` is an FP32 source, which an FP32 element copies bit for bit. A NaN keeps its sign (R61
names only lane and uniform operations; DEDUCED, log entry 34). -/
def elemOfVal (shape : Nat) (mode : RMode) (satf : Bool) (v : FVal) (word : Option Nat) : Nat :=
  match tcFmt shape with
  | 0 => word.getD (fpConvert .fp32 mode false false v).1
  | 1 => (fpConvert .tf32 mode false false v).1 * 2 ^ 13
  | 2 => (fpConvert .fp16 mode false false v).1
  | 3 => (fpConvert .bf16 mode false false v).1
  | 9 => ofI 8 (fpToInt mode (-128) 127 v).1
  | 10 => ofI 4 (fpToInt mode (-8) 7 v).1
  | f => (fpConvert (cvtFmt (tcCvt f)) mode satf false v).1

/-- Writes rows [r0, r1) of a tile from values (R360): scaled shapes are quantised run by run along GDIR. -/
def Core.putVals (c : Core) (n shape : Nat) (mode : RMode) (satf : Bool) (r0 r1 : Nat) (val : Nat → Nat → FVal × Option Nat) : Core :=
  let c := c.tileMark n shape
  let rows := (List.range (r1 - r0)).map fun i => r0 + i
  let cols := List.range (tcCols shape)
  if tcScale shape = 0 then
    (rows.flatMap fun r => cols.map fun k => (r, k)).foldl (fun (c : Core) p =>
      let v := val p.1 p.2
      c.setElem n shape p.1 p.2 (elemOfVal shape mode satf v.1 v.2)) c
  else
    let runs : List (List (Nat × Nat)) :=
      if tcGdir shape = 0 then rows.flatMap fun r => (List.range (tcCols shape / 32)).map fun h => (List.range 32).map fun i => (r, 32 * h + i)
      else cols.flatMap fun k => (List.range ((r1 - r0) / 32)).map fun h => (List.range 32).map fun i => (r0 + 32 * h + i, k)
    runs.foldl (fun (c : Core) run =>
      let q := mxGranule (tcCvt (tcFmt shape)) mode (run.map fun p => (val p.1 p.2).1)
      let p0 := run.headD (0, 0)
      let c := c.setScale n shape p0.1 p0.2 q.1
      (run.zip q.2.1).foldl (fun (c : Core) e => c.setElem n shape e.1.1 e.1.2 e.2) c) c

/-! ## Acceptance (R350, R354) -/

def matTrap (cause detail : Nat) (addr : DWord) : TrapInfo := { cause := cause, detail := detail, addr := addr }
def operandTrap (d : Nat) : TrapInfo := matTrap 0x39 d 0

/-- The first of the named registers (kind, number) that another block has claimed (R350). -/
def conflictOf (c : Core) (block : Nat) (names : List (Nat × Nat)) : Option TrapInfo :=
  (names.find? fun n => claimedByOther c n.1 n.2 block).map fun n => matTrap 0x3A 0 (BitVec.ofNat 64 (n.1 * 256 + n.2))

def tileNames (n shape : Nat) : List (Nat × Nat) := ((spanOf n shape).filter fun k => k < 16).map fun k => (0, k)

/-- A block claims a register; a tile or region that it did not hold becomes zero bytes (R350). -/
def Core.claim (c : Core) (block : Nat) (n : Nat × Nat) : Core :=
  if c.claims.any fun k => k.kind == n.1 && k.n == n.2 && k.block == block then c
  else
    let c := { c with claims := c.claims ++ [{ kind := n.1, n := n.2, block := block }] }
    match n.1 with
    | 0 => { c with tiles := tdel c.tiles n.2 }
    | 1 => { c with acc := c.acc.filter fun e => e.1 / 2 ^ 18 != n.2 }
    | _ => c

/-- The checks of a scratchpad operand (R354, step 9). -/
def matSpad (s : State) (g : Nat) (p : DWord) (n : Nat) : Option TrapInfo :=
  if spaceOf p ≠ 8 && spaceOf p ≠ 9 then some (matTrap 0x10 6 p)
  else
    match spaceFault s g p n with
    | some d => some (matTrap 0x10 d p)
    | none => if p.toNat % 16 ≠ 0 then some (matTrap 0x13 0 p) else none

/-- A matrix command that passed its checks: what it claims (tiles and regions), its footprints, the scratchpad rows that it
writes, its units and what it captured. -/
structure MatCmd where
  kind   : CmdKind
  mcw    : Nat
  names  : List (Nat × Nat)
  feet   : List Footprint
  rows   : List (DWord × Nat) := []
  units  : Nat := 0
  shapes : Tbl Word := []
  scales : Tbl Word := []
  phase  : Option Nat := none
  gang   : Option Nat := none
  deriving DecidableEq, Repr

def tileFeet (n shape : Nat) (write : Bool) : List Footprint :=
  (spanOf n shape).map fun k => { space := 16, owner := 0, first := k, lines := 1, write := write }

/-- Runs the first of a list of checks that fails. -/
def firstTrap (l : List (Bool × TrapInfo)) : Option TrapInfo := (l.find? fun e => e.1).map fun e => e.2

/-- A gang MMA's quadrant holds A, and holds B (R367). -/
def holdsA (q : Option Nat) : Bool := match q with | none => true | some q => q % 2 = 0
def holdsB (q : Option Nat) : Bool := match q with | none => true | some q => q / 2 % 2 = 0

/-- The footprints of an MMA with a descriptor (R355): the tiles that its core holds, and its window of m × n. -/
def mmaFeet (d : DWord) (gang : Option Nat) (ta tb m n : Nat) : List Footprint :=
  let win : AccWin := { reg := dReg d, row := dRow d, col := dCol d, rows := min m (512 - dRow d), cols := min n (512 - dCol d) }
  (if holdsA gang then tileFeet (dTa d) ta false else []) ++ (if holdsB gang then tileFeet (dTb d) tb false else [])
    ++ (if dZero d then [] else win.feet false) ++ win.feet true

/-- The resident blocks of a gang by quadrant: (quadrant, block, core), one each. -/
def gangQuads (s : State) (bid : Nat) : List (Nat × Nat × Nat) :=
  match (s.block? bid).bind fun b => (s.launch? b.launch).map fun l => (b, l) with
  | none => []
  | some (b, l) =>
    (s.blocks.filter fun e => e.2.launch == b.launch && gangOf l e.2.lin == gangOf l b.lin
      && (match e.2.st with | .saved => false | _ => true)).map fun e => (memberOf l e.2.lin, e.1, e.2.core)

/-- How many phases of its cv have completed since an MMA captured PHASE: the gang MMAs of one phase agree in it (R367). -/
def Cmd.phasesSince (s : State) (core : Nat) (c : Cmd) : Nat :=
  match c.kind, c.phase with
  | .mma _ cv _ _, some p => ((tgetD (s.core core).cvs cv {}).phase + 65536 - p) % 65536
  | _, _ => 0

/-- The gang MMAs of a command's gang on a cv that waited on its phase, in a state, one for each core: (quadrant, core, command). -/
def gangMmas (s : State) (c : Cmd) (st : CmdState) : List (Nat × Nat × Cmd) :=
  match c.kind with
  | .mma _ cv _ _ =>
    let since := c.phasesSince s (((s.block? c.block).map Block.core).getD 0)
    (gangQuads s c.block).filterMap fun q =>
      (((s.core q.2.2).cmds.find? fun o => o.block == q.2.1 && o.st == st && o.gang == some q.1 && o.phasesSince s q.2.2 == since
        && (match o.kind with | .mma _ n _ _ => n == cv | _ => false)).map fun o => (q.1, q.2.2, o))
  | _ => []

/-- The shape of an operand as the core that holds it captured it. -/
def Cmd.shape (c : Cmd) (n : Nat) : Nat := (tgetD c.shapes n 0).toNat

/-- The operands of an MMA: shape and tile number of A and B, and the cores whose tiles they are (R365, R367). -/
structure MmaOps where
  a  : Nat
  b  : Nat
  ta : Nat
  tb : Nat
  ca : Nat
  cb : Nat
  deriving DecidableEq, Repr

def mmaOps (ms : List (Nat × Nat × Cmd)) (core : Nat) (c : Cmd) : MmaOps :=
  match c.kind with
  | .mma _ _ d _ =>
    let at_ (q : Nat) : Nat × Cmd := match c.gang with
      | none => (core, c)
      | some _ => ((ms.find? fun m => m.1 == q).map fun m => m.2).getD (core, c)
    let qa := (c.gang.getD 0) / 2 * 2 % 4
    let qb := (c.gang.getD 0) % 2
    { a := (at_ qa).2.shape (dTa d), b := (at_ qb).2.shape (dTb d), ta := dTa d, tb := dTb d, ca := (at_ qa).1, cb := (at_ qb).1 }
  | _ => { a := 0, b := 0, ta := 0, tb := 0, ca := core, cb := core }

/-- The gang MMAs that wait with a command, with the window that the operands accepted so far give: the footprints of R355 follow it. -/
def narrowGang (s : State) (core cmd : Nat) : State :=
  match s.cmd? core cmd with
  | none => s
  | some c =>
    if c.gang.isNone then s
    else
      let ms := gangMmas s c .queued
      forEach ms s fun s m =>
        match m.2.2.kind with
        | .mma _ _ d _ =>
          let o := mmaOps ms m.2.1 m.2.2
          let known (q : Nat) : Bool := ms.any fun x => x.1 == q
          let rows := if known (m.1 / 2 * 2 % 4) then tcRows o.a else 512
          let cols := if known (m.1 % 2) then tcCols o.b else 512
          s.modCmd m.2.1 m.2.2.id fun k => { k with feet := mmaFeet d k.gang o.a o.b rows cols }
        | _ => s

/-- Puts an accepted command into the queue: it claims, names its guards and clears presence bits (R13, R339, R350, R355), and narrows the windows of its
gang. -/
def acceptMatrix (s : State) (g : Nat) (lanes : LaneMask) (w : Warp) (m : MatCmd) : State :=
  let core := coreOf g
  let s := s.modCore core fun c => m.names.foldl (fun (c : Core) n => c.claim w.block n) c
  let s := s.nameGuards w.block ((mcwGuard m.mcw).toList ++ (mcwOut m.mcw).toList)
  let n := s.newId
  let done := mcwDone m.mcw
  let objs := if done = 0 then [] else (s.objAt w.block done 16).toList
  let lines := (m.rows.flatMap fun r => spadLines s w.block r.1 r.2).dedup
  let z := lines.foldl (fun (acc : State × List (Nat × Nat)) l =>
    let t := acc.1.lineAbsent l.1 l.2 objs
    (t.1, if t.2 then acc.2 ++ [l] else acc.2)) (n.1, [])
  let cmd : Cmd :=
    { id := n.2, block := w.block, warp := w.idx, kind := m.kind, feet := m.feet, guard := mcwGuard m.mcw, gslot := mcwGuard m.mcw, gout := mcwOut m.mcw
      pg := some (mcwPg m.mcw), done := done, units := m.units, cleared := z.2, shapes := m.shapes, scales := m.scales
      phase := m.phase, gang := m.gang, since := s.devNs }
  narrowGang ((z.1.noteCmd g lanes n.2).modCore core fun q => { q with cmds := q.cmds ++ [cmd] }) core n.2

/-- What the checks of an instruction find: a trap, or the command. -/
abbrev MatCheck := State → Nat → Warp → Block → Launch → Except TrapInfo MatCmd

/-- Posts a matrix command: checks, the release at block scope (R289), a place in the queue (R16). -/
def postMatrix (s : State) (g : Guard) (sr : List Nat) (check : MatCheck) : Host.Outcome State Fault Refusal :=
  issueUni s g { sr := sr, rel := relLevel .rel .block } fun s c =>
    match s.warp? c.g, s.blockOf c.g, s.launchOf c.g with
    | some w, some b, some l =>
      match check s c.g w b l with
      | .error t => trapAll s c t
      | .ok m =>
        let s := releaseAct s c.g .block none
        if 64 ≤ (s.core (coreOf c.g)).cmds.length then (s, [(c.act, .park .commandQueue)])
        else (acceptMatrix s c.g c.lanes w m, [])
    | _, _, _ => (s, [])

/-- The shape of a tile as an acceptance captures it (R221, R366). -/
def capTc (s : State) (g n : Nat) : Word :=
  let c := s.core (coreOf g)
  c.captured s.now n (tgetD c.tcs n 0)
/-- The scale of an e register as an acceptance captures it; 1.0 where none is named. -/
def capE (s : State) (g : Nat) (e : Option Nat) : Word :=
  match e with
  | none => 0x3F800000
  | some n => let c := s.core (coreOf g); c.captured s.now (16 + n) (tgetD c.es n 0x3F800000)

/-- Ends a list of checks. -/
def checked (t : Option TrapInfo) (m : MatCmd) : Except TrapInfo MatCmd := match t with | some t => .error t | none => .ok m

/-- TLD and TST (R358). -/
def moveCheck (store col : Bool) (t a b c : Nat) : MatCheck := fun s g w blk l =>
  let core := s.core (coreOf g)
  let ptr := w.sget a
  let pb := (w.sget b).toNat
  let mcw := (w.sget c).toNat
  let shape := (capTc s g t).toNat
  let names := tileNames t shape
  let p := nbits pb 0 20
  let n := rowCount shape col
  let len := rowLen shape col
  let bad3 := (tcScale shape = 0 && rowElems shape col * tcWidth (tcFmt shape) % 8 ≠ 0) || p % 16 ≠ 0 || (1 < n && p < len)
  let rows := (List.range n).map fun j => (addOffset ptr ((j * p : Nat) : Int), len)
  let feet := rows.map fun r => footOf l w.block blk r.1 len store
  match firstTrap [(mcwBad blk.spadBytes mcw || nbits pb 20 44 ≠ 0, operandTrap 1)] with
  | some t => .error t
  | none =>
    match conflictOf core w.block names with
    | some t => .error t
    | none =>
      match firstTrap [(shape = 0, operandTrap 2), (bad3, operandTrap 3),
          (tcScale shape ≠ 0 && tcGdir shape ≠ (if col then 1 else 0), operandTrap 5)] with
      | some t => .error t
      | none =>
        checked (matSpad s g ptr ((n - 1) * p + len))
          { kind := if store then .tst col t ptr p else .tld col t ptr p, mcw := mcw, names := names
            feet := tileFeet t shape (!store) ++ feet, rows := if store then rows else [], units := n
            shapes := [(t, BitVec.ofNat 32 shape)] }

def execTld (g : Guard) (col : Bool) (t a b c : Nat) (s : State) : Host.Outcome State Fault Refusal :=
  postMatrix s g [a, b, c] (moveCheck false col t a b c)
def execTst (g : Guard) (col : Bool) (t a b c : Nat) (s : State) : Host.Outcome State Fault Refusal :=
  postMatrix s g [a, b, c] (moveCheck true col t a b c)

/-- Progress units of 32 rows. -/
def units32 (n : Nat) : Nat := (n + 31) / 32

/-- TZERO (R359). -/
def tzeroCheck (t b : Nat) : MatCheck := fun s g w blk _ =>
    let mcw := (w.sget b).toNat
    let shape := (capTc s g t).toNat
    let names := tileNames t shape
    if mcwBad blk.spadBytes mcw then .error (operandTrap 1)
    else
      match conflictOf (s.core (coreOf g)) w.block names with
      | some t => .error t
      | none =>
        checked (firstTrap [(shape = 0, operandTrap 2)])
          { kind := .tzero t, mcw := mcw, names := names, feet := tileFeet t shape true, units := units32 (tcRows shape)
            shapes := [(t, BitVec.ofNat 32 shape)] }
def execTzero (g : Guard) (t b : Nat) (s : State) : Host.Outcome State Fault Refusal := postMatrix s g [b] (tzeroCheck t b)

/-- TCVT (R359). -/
def tcvtCheck (rm : Rm) (satf : Bool) (d a b : Nat) : MatCheck := fun s g w blk _ =>
    let mcw := (w.sget b).toNat
    let sa := (capTc s g a).toNat
    let sd := (capTc s g d).toNat
    let names := tileNames a sa ++ tileNames d sd
    let bad3 := tcRows sa ≠ tcRows sd || tcCols sa ≠ tcCols sd
      || !(d = a || !((spanOf a sa).any fun k => (spanOf d sd).contains k))
    if mcwBad blk.spadBytes mcw then .error (operandTrap 1)
    else
      match conflictOf (s.core (coreOf g)) w.block names with
      | some t => .error t
      | none =>
        checked (firstTrap [(sa = 0 || sd = 0, operandTrap 2), (bad3, operandTrap 3)])
          { kind := .tcvt rm satf d a, mcw := mcw, names := names, feet := tileFeet a sa false ++ tileFeet d sd true
            units := units32 (tcRows sd), shapes := tset [(a, BitVec.ofNat 32 sa)] d (BitVec.ofNat 32 sd) }
def execTcvt (g : Guard) (rm : Rm) (satf : Bool) (d a b : Nat) (s : State) : Host.Outcome State Fault Refusal :=
  postMatrix s g [b] (tcvtCheck rm satf d a b)

/-- The pairing of A and B is one of R364. -/
def pairOk (a b : Nat) : Bool :=
  let fa := tcFmt a
  let fb := tcFmt b
  let both (l : List Nat) : Bool := l.contains fa && l.contains fb
  if tcScale a = 0 && tcScale b = 0 then
    both [0] || both [1] || both [2] || both [3] || both [4, 5] || both [6, 7] || both [8] || both [9] || both [10]
  else if tcScale a ≠ 0 && tcScale b ≠ 0 then both [4, 5] || both [6, 7] || both [8] || both [11]
  else false
/-- Granules run along K (R364). -/
def dirOk (a b : Nat) : Bool := tcScale a = 0 || (tcGdir a = 0 && tcGdir b = 1)

/-- PHASE of a cv as an acceptance captures it (R366, R374). -/
def Cv.captured (c : Cv) (now : Nat) : Nat := if c.sigCc = now then c.oldPhase else c.phase

/-- First chunk and number of chunks, for K columns. -/
def chunksOf (x : Bool) (kw k : Nat) : Nat × Nat := if x then (nbits kw 0 16, nbits kw 16 16) else (0, units32 k)

/-- The checks of MMA and MMAX (R354, R363–R367). Of a gang MMA only what is local is checked; where its core does not hold an
operand, its window counts as reaching the end of the region until the command that holds it is accepted (`narrowGang`; log entry 110). -/
def mmaCheck (x : Bool) (cv a b c : Nat) : MatCheck := fun s g w blk _ =>
  let core := s.core (coreOf g)
  let d := w.sget a
  let mcw := (w.sget b).toNat
  let kw := if x then (w.sget c).toNat else 0
  let v := tgetD core.cvs cv {}
  let gang : Option Nat := if dCvw d && v.gang then some v.quad else none
  let ta := (capTc s g (dTa d)).toNat
  let tb := (capTc s g (dTb d)).toNat
  let ha := holdsA gang
  let hb := holdsB gang
  let tiles := (if ha then tileNames (dTa d) ta else []) ++ (if hb then tileNames (dTb d) tb else [])
  let own := tiles ++ [(1, dReg d)]
  let names := own ++ (if dCvw d then [(2, cv)] else []) ++ (dEa d).toList.map (fun e => (3, e)) ++ (dEb d).toList.map fun e => (3, e)
  let m := if ha then tcRows ta else 512 - dRow d
  let n := if hb then tcCols tb else 512 - dCol d
  let k := if ha then tcCols ta else tcRows tb
  let ch := chunksOf x kw k
  if mcwBad blk.spadBytes mcw || nbits d.toNat 57 7 ≠ 0 || nbits d.toNat 19 20 ≠ 0 || nbits kw 32 32 ≠ 0 then .error (operandTrap 1)
  else
    match conflictOf core w.block names with
    | some t => .error t
    | none =>
      checked (firstTrap [(dCvw d && v.expect = 0, matTrap 0x3B 2 (BitVec.ofNat 64 cv)),
          ((ha && ta = 0) || (hb && tb = 0), operandTrap 2),
          ((ha && hb && tcCols ta ≠ tcRows tb) || 512 < dRow d + m || 512 < dCol d + n, operandTrap 3),
          (ha && hb && !pairOk ta tb, operandTrap 4),
          ((ha && tcScale ta ≠ 0 && tcGdir ta ≠ 0) || (hb && tcScale tb ≠ 0 && tcGdir tb ≠ 1), operandTrap 5),
          (x && (ch.2 = 0 || ((ha || hb) && units32 k < ch.1 + ch.2)), operandTrap 6)])
        { kind := .mma x cv d (BitVec.ofNat 64 kw), mcw := mcw, names := own, feet := mmaFeet d gang ta tb m n, units := units32 m * ch.2
          shapes := tset (if ha then [(dTa d, BitVec.ofNat 32 ta)] else []) (if hb then dTb d else dTa d)
            (BitVec.ofNat 32 (if hb then tb else ta))
          scales := [(0, capE s g (dEa d)), (1, capE s g (dEb d))]
          phase := if dCvw d then some (v.captured s.now) else none, gang := gang }

def execMma (g : Guard) (cv a b : Nat) (s : State) : Host.Outcome State Fault Refusal := postMatrix s g [a, b] (mmaCheck false cv a b 63)
def execMmax (g : Guard) (cv a b c : Nat) (s : State) : Host.Outcome State Fault Refusal := postMatrix s g [a, b, c] (mmaCheck true cv a b c)

/-- The checks of the accumulator commands (R368): the tile, whether it is written, whether it must be plain FP32. -/
def accCheck (kind : CmdKind) (tile : Option Nat) (wrTile plain : Bool) (a b : Nat) : MatCheck := fun s g w blk _ =>
  let core := s.core (coreOf g)
  let aw := w.sget a
  let mcw := (w.sget b).toNat
  let win := winOf aw
  let shape := ((tile.map fun t => (capTc s g t).toNat)).getD 0
  let tn : List (Nat × Nat) := (tile.map fun t => tileNames t shape).getD []
  let names := tn ++ [(1, win.reg)]
  if mcwBad blk.spadBytes mcw || nbits aw.toNat 39 25 ≠ 0 then .error (operandTrap 1)
  else
    match conflictOf core w.block names with
    | some t => .error t
    | none =>
      checked (firstTrap [(tile.isSome && shape = 0, operandTrap 2),
          (!win.ok || (tile.isSome && (tcRows shape ≠ win.rows || tcCols shape ≠ win.cols)), operandTrap 3),
          (plain && (tcFmt shape ≠ 0 || tcScale shape ≠ 0), operandTrap 4)])
        { kind := kind, mcw := mcw, names := names
          feet := ((tile.map fun t => tileFeet t shape wrTile).getD []) ++ win.feet (!wrTile), units := units32 win.rows
          shapes := (tile.map fun t => (t, BitVec.ofNat 32 shape)).toList }

def aclrCheck (a b : Nat) : MatCheck := fun s i w => accCheck (.aclr (w.sget a)) none false false a b s i w
def aldCheck (t a b : Nat) : MatCheck := fun s i w => accCheck (.ald t (w.sget a)) (some t) false true a b s i w
def astCheck (t a b : Nat) : MatCheck := fun s i w => accCheck (.ast t (w.sget a)) (some t) true true a b s i w
def acvtCheck (rm : Rm) (satf : Bool) (t a b : Nat) : MatCheck := fun s i w => accCheck (.acvt rm satf t (w.sget a)) (some t) true false a b s i w

def execAclr (g : Guard) (a b : Nat) (s : State) : Host.Outcome State Fault Refusal := postMatrix s g [a, b] (aclrCheck a b)
def execAld (g : Guard) (t a b : Nat) (s : State) : Host.Outcome State Fault Refusal := postMatrix s g [a, b] (aldCheck t a b)
def execAst (g : Guard) (t a b : Nat) (s : State) : Host.Outcome State Fault Refusal := postMatrix s g [a, b] (astCheck t a b)
def execAcvt (g : Guard) (rm : Rm) (satf : Bool) (t a b : Nat) (s : State) : Host.Outcome State Fault Refusal :=
  postMatrix s g [a, b] (acvtCheck rm satf t a b)

/-! ## Convergence and scale registers (R361, R362, R369) -/

/-- The value of cvN as MSIGN.RD reads it. -/
def Cv.value (c : Cv) : DWord :=
  BitVec.ofNat 64 (c.quad * 2 ^ 33 + (if c.gang then 2 ^ 32 else 0) + c.phase * 2 ^ 16 + c.signed * 2 ^ 8 + c.expect)

/-- A cv at a cc, before anything counts on it: PHASE and SIGNED from before the cc are kept (R374). -/
def Cv.atCc (c : Cv) (now : Nat) : Cv :=
  if c.sigCc = now then c else { c with sigCc := now, sigN := 0, oldPhase := c.phase, oldSigned := c.signed }

/-- How many signatures a cv has counted in a cc, and the cv without them (R374). -/
def Cv.countedIn (c : Cv) (now : Nat) : Nat := if c.sigCc = now then c.sigN else 0
def Cv.uncounted (c : Cv) (now : Nat) : Cv :=
  if c.sigCc = now then { c with phase := c.oldPhase, signed := c.oldSigned, sigN := 0 } else c

/-- A cv with a phase completed in a cc. -/
def Cv.bump (c : Cv) (now : Nat) : Cv := { c.atCc now with signed := 0, phase := (c.phase + 1) % 65536 }

/-- Completes the phase of a cv if its signatures reach EXPECT (R361), or of the gang cv that it is part of (R362). -/
def cvTest (s : State) (bid core n : Nat) : State :=
  let v := tgetD (s.core core).cvs n {}
  let bump (s : State) (k : Nat) : State := s.modCore k fun c => { c with cvs := tset c.cvs n ((tgetD c.cvs n {}).bump s.now) }
  if !v.gang then (if v.expect ≠ 0 && v.expect ≤ v.signed then bump s core else s)
  else
    let qs := gangQuads s bid
    let cvs := qs.map fun q => (q.1, tgetD (s.core q.2.2).cvs n ({} : Cv))
    let armed := qs.length = 4 && cvs.all fun c => c.2.gang && c.2.expect ≠ 0
    let sum := cvs.foldl (fun m c => m + c.2.signed) 0
    let expect := ((cvs.find? fun c => c.1 == 0).map fun c => c.2.expect).getD 0
    if armed && expect ≤ sum then forEach qs s fun s q => bump s q.2.2 else s

/-- Counts one signature on a cv (R361). -/
def cvCount (s : State) (bid core n : Nat) : State :=
  cvTest (s.modCore core fun c =>
    let v := (tgetD c.cvs n ({} : Cv)).atCc s.now
    { c with cvs := tset c.cvs n { v with sigN := v.sigN + 1, signed := (v.signed + 1) % 256 } }) bid core n

/-- Counts k signatures. -/
def cvCounts (s : State) (bid core n k : Nat) : State := (List.range k).foldl (fun s _ => cvCount s bid core n) s

/-- MSIGN (R361). -/
def execMsign (g : Guard) (cv : Nat) (s : State) : Host.Outcome State Fault Refusal :=
  issueUni s g {} fun s c =>
    match s.warp? c.g with
    | none => (s, [])
    | some w =>
      let core := s.core (coreOf c.g)
      match conflictOf core w.block [(2, cv)] with
      | some t => trapAll s c t
      | none =>
        if (tgetD core.cvs cv {}).expect = 0 then trapAll s c (matTrap 0x3B 2 (BitVec.ofNat 64 cv))
        else
          let ids := (core.cmds.filter fun x => x.block == w.block && x.warp == w.idx && x.phase.isNone).map Cmd.id
          (s.modWarp c.g fun w => { w with sigs := w.sigs ++ [{ cv := cv, cmds := ids }] }, [])

/-- The cores on which cvN of a core counts: its own, or the four of its gang cv (R362). -/
def cvCores (s : State) (bid core n : Nat) : List Nat :=
  if (tgetD (s.core core).cvs n {}).gang then (core :: (gangQuads s bid).map fun q => q.2.2).dedup else [core]

/-- MSIGN.ARM (R361, R362): signatures that the cc has already counted on the cv count after it, on all the cores of a gang cv (R374). -/
def execMsignArm (g : Guard) (cv a : Nat) (s : State) : Host.Outcome State Fault Refusal :=
  issueUni s g { sr := [a] } fun s c =>
    match s.warp? c.g, s.blockOf c.g, s.launchOf c.g with
    | some w, some b, some l =>
      let x := (w.sget a).toNat
      let core := coreOf c.g
      if nbits x 9 55 ≠ 0 || 128 < nbits x 0 8 then trapAll s c (operandTrap 1)
      else
        match conflictOf (s.core core) w.block [(2, cv)] with
        | some t => trapAll s c t
        | none =>
          if x.testBit 8 && !(l.yardGang && gangSize l = 4) then trapAll s c (matTrap 0x3B 1 (BitVec.ofNat 64 cv))
          else
            let counted := (cvCores s w.block core cv).map fun k => (k, (tgetD (s.core k).cvs cv {}).countedIn s.now)
            let s := forEach counted s fun s n => s.modCore n.1 fun k => { k with cvs := tset k.cvs cv ((tgetD k.cvs cv {}).uncounted s.now) }
            let s := s.modCore core fun k =>
              let v := tgetD k.cvs cv {}
              let v : Cv := { v with
                expect := nbits x 0 8, gang := x.testBit 8, signed := 0, oldSigned := 0
                quad := if x.testBit 8 then memberOf l b.lin else v.quad }
              { k.claim w.block (2, cv) with cvs := tset k.cvs cv v }
            (cvTest (forEach counted s fun s n => cvCounts s w.block n.1 cv n.2) w.block core cv, [])
    | _, _, _ => (s, [])

/-- MSIGN.RD (R361). -/
def execMsignRd (g : Guard) (d cv : Nat) (s : State) : Host.Outcome State Fault Refusal :=
  issueUni s g { sw := [d] } fun s c =>
    match s.warp? c.g with
    | none => (s, [])
    | some w =>
      match conflictOf (s.core (coreOf c.g)) w.block [(2, cv)] with
      | some t => trapAll s c t
      | none => (s.modWarp c.g fun w => w.sput d (tgetD (s.core (coreOf c.g)).cvs cv {}).value, [])

/-- ESET and ESET.RD (R369). -/
def execEset (g : Guard) (e a : Nat) (s : State) : Host.Outcome State Fault Refusal :=
  issueUni s g { sr := [a] } fun s c =>
    match s.warp? c.g with
    | none => (s, [])
    | some w =>
      match conflictOf (s.core (coreOf c.g)) w.block [(3, e)] with
      | some t => trapAll s c t
      | none =>
        (s.modCore (coreOf c.g) fun k =>
          let k := (k.keepOld s.now (16 + e) (tgetD k.es e 0x3F800000)).claim w.block (3, e)
          { k with es := tput k.es e ((w.sget a).setWidth 32) 0x3F800000 }, [])
def execEsetRd (g : Guard) (d e : Nat) (s : State) : Host.Outcome State Fault Refusal :=
  issueUni s g { sw := [d] } fun s c =>
    match s.warp? c.g with
    | none => (s, [])
    | some w =>
      match conflictOf (s.core (coreOf c.g)) w.block [(3, e)] with
      | some t => trapAll s c t
      | none => (s.modWarp c.g fun w => w.sput d ((tgetD (s.core (coreOf c.g)).es e 0x3F800000).setWidth 64), [])

/-- SIGNATURE_COUNT (R361): a pending signature counts once its commands have gone. -/
def execSignatureCount (warp i : Nat) (s : State) : Host.Outcome State Fault Refusal :=
  match s.warp? warp with
  | none => .next s
  | some w =>
    match w.sigs[i]? with
    | none => .next s
    | some p =>
      if (s.core (coreOf warp)).cmds.any fun c => p.cmds.contains c.id then .next s
      else .next (cvCount (s.modWarp warp fun w => { w with sigs := w.sigs.eraseIdx i }) w.block (coreOf warp) p.cv)

/-! ## Starting (R356, R366, R367) -/

/-- A unit of the engine is free for a command: one MMA or MMAX and one other at a time (R356). -/
def unitFree (s : State) (core : Nat) (c : Cmd) : Bool :=
  !(s.core core).cmds.any fun o => o.id != c.id && o.kind.isMatrix && o.kind.isMma == c.kind.isMma && o.st == .running

/-- Everything of R356 holds for a matrix command but the order of the queue; one that a save has stopped needs a free unit (R124, R370). -/
def matReady (s : State) (core : Nat) (c : Cmd) : Bool :=
  c.kind.isMatrix && unitFree s core c
    && (c.st == .stopped
      || c.st == .queued && !s.heldBack core c && guardOpen c && !s.edgeInto core c && !s.pgBusy core c && !s.waitsPhase core c)

/-- No earlier command of the class, none of a gang, is ready on the core. -/
def firstAlone (s : State) (core : Nat) (c : Cmd) : Bool :=
  !(cmdsBefore (s.core core).cmds c.id).any fun o => o.gang.isNone && o.kind.isMma == c.kind.isMma && matReady s core o

/-- All four members of a gang MMA are ready, this one among them (R367). -/
def gangReady (s : State) (c : Cmd) : Bool :=
  let ms := gangMmas s c c.st
  c.gang.isSome && ms.length == 4 && (ms.any fun m => m.2.2.id == c.id) && ms.all fun m => matReady s m.2.1 m.2.2

/-- A gang MMA starts before another that is ready too if the command of its quadrant 0 was accepted first: the order of one queue (log entry 112). -/
def gangKey (s : State) (c : Cmd) : Nat := (((gangMmas s c c.st).find? fun m => m.1 == 0).map fun m => m.2.2.id).getD c.id

/-- A gang MMA starts next on its four cores: nothing that is ready comes before it in their queues (R356, R367). -/
def gangGo (s : State) (c : Cmd) : Bool :=
  gangReady s c && (gangMmas s c c.st).all fun m => firstAlone s m.2.1 m.2.2
    && !(s.core m.2.1).cmds.any fun o => o.gang.isSome && gangReady s o && gangKey s o < gangKey s c

/-- A command that is ready and comes earlier in the queue starts first (R356). -/
def matFirst (s : State) (core : Nat) (c : Cmd) : Bool :=
  firstAlone s core c && !(cmdsBefore (s.core core).cmds c.id).any fun o => o.kind.isMma && c.kind.isMma && gangGo s o

/-- MATRIX_COMMAND_START (R356): the command starts if it can, or goes on after a save. -/
def execMatrixCommandStart (core cmd : Nat) (s : State) : Host.Outcome State Fault Refusal :=
  match s.cmd? core cmd with
  | none => .next s
  | some c =>
    if c.gang.isNone && matReady s core c && matFirst s core c then
      .next (s.modCmd core cmd fun c => { c with st := .running, since := s.devNs })
    else .next s

/-- One member of a gang MMA starts: its units come from the shapes of the operands of all four (R367). -/
def gangStart (ms : List (Nat × Nat × Cmd)) (t : Nat) (s : State) (m : Nat × Nat × Cmd) : State :=
  let o := mmaOps ms m.2.1 m.2.2
  let cn := match m.2.2.kind with | .mma x _ _ kw => (chunksOf x kw.toNat (tcCols o.a)).2 | _ => 0
  s.modCmd m.2.1 m.2.2.id fun c => { c with st := .running, units := units32 (tcRows o.a) * cn, since := t }

/-- GANG_MMA_START (R367): all four start in one step, or go on in one after a save (R370). -/
def execGangMmaStart (core cmd : Nat) (s : State) : Host.Outcome State Fault Refusal :=
  match s.cmd? core cmd with
  | none => .next s
  | some c =>
    let ms := gangMmas s c c.st
    if gangGo s c then .next (forEach ms s (gangStart ms s.devNs)) else .next s

/-! ## Units (R358–R360, R365, R368, R370) -/

/-- A chunk sum's special cases and value (R79, R80): none is NaN. -/
def chunkSum (ps : List (Option FVal)) : Option FVal :=
  if ps.any fun p => match p with | none => true | some v => v.isNan then none
  else
    let vs := ps.filterMap id
    let pos := vs.any fun v => v.isInf && !v.neg
    let neg := vs.any fun v => v.isInf && v.neg
    if pos && neg then none
    else if pos || neg then some (.inf neg)
    else let q := (vs.map FVal.toRat).foldl (· + ·) 0; some (.fin (q < 0) (if q < 0 then -q else q))

/-- C of R365: the sum times two scales, rounded once. -/
def chunkRound (sum : Option FVal) (sa sb : Nat) : Nat :=
  let p := (sum.bind fun v => mulVal v (fpDecode .fp32 sa)).bind fun v => mulVal v (fpDecode .fp32 sb)
  match p with
  | some (.inf n) => FpFmt.fp32.infBits n
  | some (.fin n m) => (fpRound .fp32 .rn false false false (if n then -m else m)).1
  | _ => FpFmt.fp32.canonNan false

/-- Column k of A's row m times row k of B's column n, over one chunk. -/
def chunkProducts (s : State) (o : MmaOps) (m n ch : Nat) : List (Option FVal) :=
  let hi := min (32 * ch + 32) (tcCols o.a)
  (List.range (hi - 32 * ch)).map fun i =>
    let k := 32 * ch + i
    let x := (s.core o.ca).tileVal s.fresh o.ta o.a m k
    let y := (s.core o.cb).tileVal s.fresh o.tb o.b k n
    if x.isNan || y.isNan then none else mulVal x y

/-- The accumulator's update (R79, R80): a NaN is always the positive canonical one (R61). -/
def accAdd (old c : Nat) : Nat :=
  let x := (fpAdd .fp32 .rn false false old c).1
  if (fpDecode .fp32 x).isNan then FpFmt.fp32.canonNan false else x

/-- One step (rb, c) of an MMA on a core. -/
def mmaStep (s : State) (ms : List (Nat × Nat × Cmd)) (core : Nat) (c : Cmd) : State :=
  match c.kind with
  | .mma x _ d kw =>
    let o := mmaOps ms core c
    let ch := chunksOf x kw.toNat (tcCols o.a)
    let rb := c.next / ch.2
    let chunk := ch.1 + c.next % ch.2
    let fit := tcCols o.a = tcRows o.b && pairOk o.a o.b && dirOk o.a o.b && ch.1 + ch.2 ≤ units32 (tcCols o.a)
    let sa := (tgetD c.scales 0 0).toNat
    let sb := (tgetD c.scales 1 0).toNat
    let rows := (List.range (min 32 (tcRows o.a - 32 * rb))).map fun i => 32 * rb + i
    let cells := (rows.flatMap fun m => (List.range (tcCols o.b)).map fun n => (m, n)).filter fun p => dRow d + p.1 < 512 && dCol d + p.2 < 512
    let z := cells.foldl (fun (k : Core × Nat) p =>
      let old := if dZero d && chunk = ch.1 then 0 else (accWord k.1 (dReg d) (dRow d + p.1) (dCol d + p.2)).toNat
      let new : Word :=
        if fit then BitVec.ofNat 32 (accAdd old (chunkRound (chunkSum (chunkProducts s o p.1 p.2 chunk)) sa sb))
        else Config.freeAcc (s.fresh + k.2)
      (accSet k.1 (dReg d) (dRow d + p.1) (dCol d + p.2) new, k.2 + 1)) (s.core core, 1)
    ({ s.setCore core z.1 with fresh := s.fresh + z.2 }).modCmd core c.id fun c => { c with next := c.next + 1 }
  | _ => s

/-- A TLD reads words of a row that a warp has open for writing: the store races with it (R19, R282). -/
def loadRaces (s : State) (c : Cmd) (p : DWord) (len : Nat) : Nat :=
  match s.objAt c.block p len with
  | none => 0
  | some o => if (List.range ((o.off + len - 1) / 4 - o.off / 4 + 1)).any fun i => spadOpenW s (.spad o.block (o.off / 4 + i)) then 1 else 0

/-- The bytes of a TLD row: missing bytes are zero (R356). `none` while a line that it needs is absent, or a member has still to
start. -/
def loadRow (s : State) (c : Cmd) (p : DWord) (len : Nat) : Option (List Byte × Option Nat) :=
  match s.objAt c.block p len with
  | none => if spaceOf p = 9 && ((s.block? c.block).map s.gangWaits).getD false then none else some (List.replicate len 0, some 0x10)
  | some o =>
    let ls := absentOf s o.block o.off len
    let errs := ls.filter fun l => (s.lineError o.block l).isSome
    if errs.length < ls.length then none
    else
      let bs := (spadRead s o.block o.off len).zipIdx.map fun e => if errs.contains ((o.off + e.2) / 128) then 0 else e.1
      some (bs, if errs.isEmpty then none else some 0x30)

/-- NEXT advances past a unit, with a cause for the command's object. -/
def nextUnit (s : State) (core : Nat) (c : Cmd) (err : Option Nat) : State :=
  s.modCmd core c.id fun c => { c with next := c.next + 1, err := match c.err with | none => err | e => e }

/-- Row NEXT of a TST: written where it can be reached, its lines present once no later row writes them. -/
def storeRow (s : State) (core : Nat) (c : Cmd) (col : Bool) (t : Nat) (ptr : DWord) (pitch : Nat) : State :=
  let shape := c.shape t
  let len := rowLen shape col
  let at_ (j : Nat) : DWord := addOffset ptr ((j * pitch : Nat) : Int)
  let p := at_ c.next
  match s.objAt c.block p len with
  | none => if spaceOf p = 9 && ((s.block? c.block).map s.gangWaits).getD false then s else nextUnit s core c (some 0x10)
  | some o =>
    let bs := (s.core core).getRow s.fresh t shape col c.next
    let s := spadWrite { s with fresh := s.fresh + 1 } o.block o.off bs
    let later := (List.range (c.units - (c.next + 1))).flatMap fun j => spadLines s c.block (at_ (c.next + 1 + j)) len
    let s := forEach ((linesOf o.off len).filter fun l => !later.contains (o.block, l)) s fun s l => s.linePresent o.block l
    nextUnit s core c none

/-- Unit NEXT of a matrix command other than an MMA. -/
def matUnit (s : State) (core : Nat) (c : Cmd) : State :=
  let r0 := 32 * c.next
  let rows (n : Nat) : List Nat := (List.range (min 32 (n - r0))).map fun i => r0 + i
  match c.kind with
  | .tld col t ptr pitch =>
    let shape := c.shape t
    let p := addOffset ptr ((c.next * pitch : Nat) : Int)
    (match loadRow s c p (rowLen shape col) with
      | none => s
      | some r =>
        let s := s.count .race (loadRaces s c p (rowLen shape col))
        nextUnit (s.modCore core fun k => (k.tileMark t shape).putRow t shape col c.next r.1) core c r.2)
  | .tst col t ptr pitch => storeRow s core c col t ptr pitch
  | .tzero t =>
    let shape := c.shape t
    let cells := (rows (tcRows shape)).flatMap fun r => (List.range (tcCols shape)).map fun k => (r, k)
    nextUnit (s.modCore core fun k =>
      cells.foldl (fun (k : Core) p => (k.setElem t shape p.1 p.2 0).setScale t shape p.1 p.2 0) (k.tileMark t shape)) core c none
  | .tcvt rm satf d a =>
    -- in place, the rows still to come keep their old values until the last unit, since no other command sees the tile before
    let sa := c.shape a
    let src := s.core core
    let r1 := if d = a && c.next + 1 < c.units then 0 else min (r0 + 32) (tcRows sa)
    let s := if r1 = 0 then s else s.modCore core fun k =>
      k.putVals d (c.shape d) (RMode.ofRm rm) satf (if d = a then 0 else r0) r1 fun r k =>
        (src.tileVal s.fresh a sa r k, if tcFmt sa = 0 then some (src.tileElem s.fresh a sa r k) else none)
    nextUnit { s with fresh := s.fresh + 1 } core c none
  | .aclr aw =>
    let w := winOf aw
    let cells := (rows w.rows).flatMap fun r => (List.range w.cols).map fun k => (r, k)
    nextUnit (s.modCore core fun k => cells.foldl (fun (k : Core) p => accSet k w.reg (w.row + p.1) (w.col + p.2) 0) k) core c none
  | .ald t aw =>
    let w := winOf aw
    let shape := c.shape t
    let cells := (rows w.rows).flatMap fun r => (List.range w.cols).map fun k => (r, k)
    let s := s.modCore core fun k => cells.foldl (fun (k : Core) p =>
      accSet k w.reg (w.row + p.1) (w.col + p.2) (BitVec.ofNat 32 (k.tileElem s.fresh t shape p.1 p.2))) k
    nextUnit { s with fresh := s.fresh + 1 } core c none
  | .ast t aw =>
    let w := winOf aw
    let shape := c.shape t
    let cells := (rows w.rows).flatMap fun r => (List.range w.cols).map fun k => (r, k)
    nextUnit (s.modCore core fun k => cells.foldl (fun (k : Core) p =>
      k.setElem t shape p.1 p.2 (accWord k w.reg (w.row + p.1) (w.col + p.2)).toNat) (k.tileMark t shape)) core c none
  | .acvt rm satf t aw =>
    let w := winOf aw
    let src := s.core core
    nextUnit (s.modCore core fun k =>
      k.putVals t (c.shape t) (RMode.ofRm rm) satf r0 (min (r0 + 32) w.rows) fun r k =>
        let x := (accWord src w.reg (w.row + r) (w.col + k)).toNat
        (fpDecode .fp32 x, some x)) core c none
  | _ => s

/-- MATRIX_UNIT_DONE (R358, R359, R365, R367, R368): unit NEXT is performed; a gang MMA's on all four cores. -/
def execMatrixUnitDone (core cmd : Nat) (s : State) : Host.Outcome State Fault Refusal :=
  match s.cmd? core cmd with
  | none => .next s
  | some c =>
    if !(c.st == .running && c.kind.isMatrix && c.next < c.units) then .next s
    else if !c.kind.isMma then .next (matUnit s core c)
    else if c.gang.isNone then .next (mmaStep s [] core c)
    else
      let ms := gangMmas s c .running
      if ms.length = 4 then
        .next (forEach (ms.filter fun m => m.2.2.next < m.2.2.units) s fun t m => mmaStep t ms m.2.1 m.2.2)
      else .next s

/-! ## Completion (R357, R372) -/

/-- The bytes that a command counts. -/
def matBytes (ms : List (Nat × Nat × Cmd)) (core : Nat) (c : Cmd) : Nat :=
  match c.kind with
  | .tld _ t _ _ => tcBytes (c.shape t)
  | .tst _ t _ _ => tcBytes (c.shape t)
  | .tzero t => tcBytes (c.shape t)
  | .tcvt _ _ d _ => tcBytes (c.shape d)
  | .acvt _ _ t _ => tcBytes (c.shape t)
  | .mma _ _ _ _ => let o := mmaOps ms core c; 4 * tcRows o.a * tcCols o.b
  | .aclr aw => 4 * (winOf aw).rows * (winOf aw).cols
  | .ald _ aw => 4 * (winOf aw).rows * (winOf aw).cols
  | .ast _ aw => 4 * (winOf aw).rows * (winOf aw).cols
  | _ => 0

/-- A matrix command completes: its object's error, its bytes, its guard. -/
def finishMatrix (s : State) (core : Nat) (c : Cmd) (n : Nat) : State :=
  let s := forEach (s.cmdObjs c) s fun s o =>
    let s := match c.err with | some e => s.setObjError o e | none => s
    s.countRelease c.id o n
  (s.endCmd core c true).blockExitTest c.block

/-- MATRIX_COMMAND_COMPLETE (R357, R367). -/
def execMatrixCommandComplete (core cmd : Nat) (s : State) : Host.Outcome State Fault Refusal :=
  match s.cmd? core cmd with
  | none => .next s
  | some c =>
    if !(c.st == .running && c.kind.isMatrix && c.units ≤ c.next) then .next s
    else if c.gang.isNone then .next (finishMatrix s core c (matBytes [] core c))
    else
      let ms := gangMmas s c .running
      if ms.length = 4 && ms.all fun m => m.2.2.units ≤ m.2.2.next then
        .next (forEach ms s fun t m => finishMatrix t m.2.1 m.2.2 (matBytes ms m.2.1 m.2.2))
      else .next s

end Sys2Proof.Machine
end

