-- ==== Sys2Proof/Machine/Ray.lean ====
section
/-! DEFINITION. Lane group 0x8: the ray engine, its command and its build helpers (R411–R428). -/

namespace Sys2Proof.Machine

/-! ## Exact values (R414) -/

/-- A rational as a value. -/
def ratVal (x : ℚ) : FVal := .fin (x < 0) (if x < 0 then -x else x)

/-- a is below b; a NaN is neither below nor above. -/
def fvLess (a b : FVal) : Bool :=
  match a, b with
  | .nan _ _, _ => false
  | _, .nan _ _ => false
  | .inf n, .inf m => n && !m
  | .inf n, .fin _ _ => n
  | .fin _ _, .inf m => !m
  | a, b => a.toRat < b.toRat

/-- A finite FP32 word's number. -/
def word32 (x : Nat) : ℚ := (fpDecode .fp32 x).toRat
def finite32 (x : Nat) : Bool := match fpDecode .fp32 x with | .fin _ _ => true | _ => false

/-- The ray of a query: word i of O_x, O_y, O_z, TMIN, D_x, D_y, D_z, TMAX. -/
def RayQuery.num (q : RayQuery) (i : Nat) : ℚ := word32 (q.ray.getD i 0).toNat
def RayQuery.tmin (q : RayQuery) : FVal := fpDecode .fp32 (q.ray.getD 3 0).toNat
/-- TCUR: the exact t of the committed hit, or TMAX (R415). -/
def RayQuery.tcur (q : RayQuery) : FVal :=
  match q.comm with | some h => ratVal h.t | none => fpDecode .fp32 (q.ray.getD 7 0).toNat

/-- The interval of t in which a coordinate o + t·d lies in [lo, hi], cut from an interval without bounds where absent. -/
def slab (o d lo hi : ℚ) (acc : Option (Option ℚ × Option ℚ)) : Option (Option ℚ × Option ℚ) :=
  match acc with
  | none => none
  | some (l, u) =>
    if hi < lo then none
    else if d = 0 then (if lo ≤ o ∧ o ≤ hi then acc else none)
    else
      let a := (lo - o) / d
      let b := (hi - o) / d
      let x := if a ≤ b then a else b
      let y := if a ≤ b then b else a
      some (some (match l with | some z => if z ≤ x then x else z | none => x),
            some (match u with | some z => if z ≤ y then z else y | none => y))

/-- The entry t of a box with corners lo and hi, if it is hit (R414). -/
def RayQuery.boxEntry (q : RayQuery) (lo hi : Nat → ℚ) : Option ℚ :=
  match [0, 1, 2].foldl (fun acc a => slab (q.num a) (q.num (4 + a)) (lo a) (hi a) acc) (some (none, none)) with
  | some (some l, some u) =>
    let t : Option ℚ := match q.tmin with
      | .inf neg => if neg then some l else none
      | .fin n m => some (let x := if n then -m else m; if l ≤ x then x else l)
      | .nan _ _ => none
    t.bind fun t => if t ≤ u && !fvLess q.tcur (ratVal t) then some t else none
  | _ => none

/-- Vectors of three numbers. -/
structure Vec3 where
  x : ℚ
  y : ℚ
  z : ℚ
  deriving DecidableEq, Repr

def Vec3.sub (a b : Vec3) : Vec3 := { x := a.x - b.x, y := a.y - b.y, z := a.z - b.z }
def Vec3.dot (a b : Vec3) : ℚ := a.x * b.x + a.y * b.y + a.z * b.z
def Vec3.cross (a b : Vec3) : Vec3 :=
  { x := a.y * b.z - a.z * b.y, y := a.z * b.x - a.x * b.z, z := a.x * b.y - a.y * b.x }

/-- Where the line of a ray meets a triangle given by its nine words: t, u, v and FACE (R414). -/
def triMeet (o d : Vec3) (ws : List Nat) : Option (ℚ × ℚ × ℚ × Bool) :=
  let v (i : Nat) : Vec3 := { x := word32 (ws.getD (3 * i) 0), y := word32 (ws.getD (3 * i + 1) 0), z := word32 (ws.getD (3 * i + 2) 0) }
  let e1 := (v 1).sub (v 0)
  let e2 := (v 2).sub (v 0)
  let n := e1.cross e2
  let dn := d.dot n
  if !(ws.take 9).all finite32 || n.dot n = 0 || dn = 0 then none
  else
    let t := (((v 0).sub o).dot n) / dn
    let w : Vec3 := { x := o.x + t * d.x - (v 0).x, y := o.y + t * d.y - (v 0).y, z := o.z + t * d.z - (v 0).z }
    let a := (w.cross e2).dot n / n.dot n
    let b := (e1.cross w).dot n / n.dot n
    if 0 ≤ a ∧ 0 ≤ b ∧ a + b ≤ 1 then some (t, a, b, dn < 0) else none

/-- The hit of triangle j, whose words are given, if R417 accepts it: in [TMIN, TCUR], not culled, better than the committed
hit. -/
def RayQuery.triHit (q : RayQuery) (j : Nat) (ws : List Nat) : Option Hit :=
  let o : Vec3 := { x := q.num 0, y := q.num 1, z := q.num 2 }
  let d : Vec3 := { x := q.num 4, y := q.num 5, z := q.num 6 }
  match triMeet o d ws with
  | none => none
  | some (t, u, v, front) =>
    let better := match q.comm with
      | none => true
      | some c => t < c.t || (t = c.t && j < c.tri)
    if fvLess (ratVal t) q.tmin || fvLess q.tcur (ratVal t) || (q.flags.cb && !front) || (q.flags.cf && front) || !better then none
    else some { t := t, u := u, v := v, tri := j, primid := BitVec.ofNat 32 (ws.getD 9 0), front := front }

/-! ## Reads of the engine and the traversal stack (R415, R417) -/

/-- Why a traversal ends early. -/
inductive RayStop
  | fault (cause detail : Nat) (addr : DWord)
  | overflow
  deriving DecidableEq, Repr

/-- Where a step runs: its core, its address space, deterministic mode, and the device address of the lane's local window. -/
structure RayEnv where
  core : Nat
  asid : Nat
  det  : Bool
  win  : Nat
  deriving DecidableEq, Repr

/-- A pointer to stack entry k. -/
def stackPtr (k : Nat) : DWord := BitVec.ofNat 64 (12 * 2 ^ 60 + 8 * k)

/-- Ends a query early (R417). -/
def RayQuery.stop (q : RayQuery) (x : RayStop) : RayQuery :=
  match x with
  | .fault c d a => { q with st := .ended, fault := true, fstat := c + 256 * d, faddr := a }
  | .overflow => { q with st := .ended, overflow := true }

/-- A step as it goes: the state, and the device words read or written that the core's L1 did not hold. -/
structure RayRun where
  s     : State
  words : List Nat := []
  deriving DecidableEq, Repr

/-- A word that the step reads under a policy. -/
def RayRun.load (x : RayRun) (core : Nat) (pol : Policy) (vline w : Nat) : RayRun × Word × Bool :=
  let r := loadNow x.s core pol vline w
  ({ s := r.1, words := if wordsHit x.s core pol (w / 8) [w] then x.words else x.words ++ [w] }, r.2)

/-- One word of a structure, a plain read by requester 256 under the pointer's default policy (R230, R417). -/
def rayWord (e : RayEnv) (x : RayRun) (p : DWord) : RayRun × Except RayStop Nat :=
  match translate x.s e.core e.asid (spaceOf p) (nbits p.toNat 0 57) .read with
  | .error d => (x, .error (.fault 0x11 d p))
  | .ok pa =>
    let pol := devPolicy e.det .dflt p
    if (openGet (x.s.core e.core).opens (pa / 4)).races 256 false || (seenOpens x.s e.core pol (pa / 4)).races e.core false then
      ({ x with s := x.s.count .race 1 }, .error (.fault (if e.det then 0x15 else 0x0B) 0 p))
    else
      let r := x.load e.core pol (nbits p.toNat 0 57 / 128) (pa / 4)
      (r.1, if r.2.2 then .error (.fault 0x0B 0 p) else .ok r.2.1.toNat)

/-- n words from a pointer; the first that fails is the fault. -/
def rayWords (e : RayEnv) (x : RayRun) (p : DWord) (n : Nat) : RayRun × Except RayStop (List Nat) :=
  match n with
  | 0 => (x, .ok [])
  | k + 1 =>
    let r := rayWord e x p
    match r.2 with
    | .error y => (r.1, .error y)
    | .ok v =>
      let z := rayWords e r.1 (addOffset p 4) k
      (z.1, match z.2 with | .error y => .error y | .ok l => .ok (v :: l))

/-- Stack entry k: target and entry t, local accesses (R415). -/
def stackGet (e : RayEnv) (x : RayRun) (k : Nat) : RayRun × Except RayStop (Nat × Nat) :=
  match translate x.s e.core e.asid 0 (e.win + 8 * k) .read with
  | .error d => (x, .error (.fault 0x11 d (stackPtr k)))
  | .ok pa =>
    let a := x.load e.core .own ((e.win + 8 * k) / 128) (pa / 4)
    let b := a.1.load e.core .own ((e.win + 8 * k) / 128) (pa / 4 + 1)
    (b.1, if a.2.2 || b.2.2 then .error (.fault 0x0B 0 (if a.2.2 then stackPtr k else stackPtr k + 4)) else .ok (a.2.1.toNat, b.2.1.toNat))

def stackPut (e : RayEnv) (x : RayRun) (k target te : Nat) : Except RayStop RayRun :=
  match translate x.s e.core e.asid 0 (e.win + 8 * k) .write with
  | .error d => .error (.fault 0x11 d (stackPtr k))
  | .ok pa =>
    .ok { s := engineWrite x.s e.core (.dev pa true) (leOfNat 4 target ++ leOfNat 4 te)
          words := x.words ++ (wordSpan pa 8).filter fun w => !holdsOwn x.s e.core w }

/-- Pushes an entry. -/
def rayPush (e : RayEnv) (x : RayRun) (q : RayQuery) (target te : Nat) : RayRun × RayQuery :=
  if q.st == .ended then (x, q)
  else if 64 ≤ q.depth then (x, q.stop .overflow)
  else
    match stackPut e x q.depth target te with
    | .error y => (x, q.stop y)
    | .ok x => (x, { q with depth := q.depth + 1 })

/-! ## A step (R417) -/

/-- Bytes of a node from its words (R412). -/
def nodeByte (ws : List Nat) (k : Nat) : Nat := nbits (ws.getD (k / 4) 0) (8 * (k % 4)) 8

/-- Child i of a node exists: bits above a clear VMASK bit are ignored (R412). -/
def hasChild (ws : List Nat) (i : Nat) : Bool := (List.range (i + 1)).all fun k => (nodeByte ws 15).testBit k

/-- An index as the stack holds it (R415): one that 24 bits cannot hold becomes the greatest, which is out of range in every structure (R411), as it
is itself (log entry 136). -/
def stackIndex (n : Nat) : Nat := min n (2 ^ 24 - 1)

/-- Child i of a node: the stack word that names it. -/
def childTarget (ws : List Nat) (i : Nat) : Nat :=
  let im := nodeByte ws 19
  if im.testBit i then stackIndex (nbits (ws.getD 4 0) 0 24 + ((List.range i).filter fun k => im.testBit k).length)
  else
    let m := nodeByte ws (24 + i)
    stackIndex (ws.getD 5 0 + nbits m 0 5) + nbits m 5 3 * 2 ^ 24 + 2 ^ 31

/-- Entry t of child i of a node, if it exists and its box is hit. -/
def childEntry (q : RayQuery) (ws : List Nat) (i : Nat) : Option ℚ :=
  let fin := (ws.take 3).all finite32
  let side (base a : Nat) : ℚ :=
    word32 (ws.getD a 0) + (nodeByte ws (base + 8 * a + i) : ℚ) * pow2 (sgn 8 (nodeByte ws (12 + a)))
  if hasChild ws i && fin then q.boxEntry (side 32) (side 56) else none

/-- Puts a hit child among those found, so that the nearest with the lowest number stands last. -/
def addChild (x : ℚ × Nat) (l : List (ℚ × Nat)) : List (ℚ × Nat) :=
  match l with
  | [] => [x]
  | y :: r => if y.1 < x.1 || (y.1 = x.1 && y.2 < x.2) then x :: y :: r else y :: addChild x r

/-- An entry t as the stack holds it: rounded by RD to FP32. -/
def entryBits (t : ℚ) : Nat := (fpRound .fp32 .rd false false false t).1

/-- A popped node: its hit children are pushed. -/
def rayNode (e : RayEnv) (s : RayRun) (q : RayQuery) (k n : Nat) : RayRun × RayQuery :=
  if q.nodeCnt ≤ n then (s, q.stop (.fault 0x51 2 (stackPtr k)))
  else
    let r := rayWords e s (addOffset q.ptr ((q.nodeOff + 80 * n : Nat) : Int)) 20
    match r.2 with
    | .error x => (r.1, q.stop x)
    | .ok ws =>
      let hits := ((List.range 8).filterMap fun i => (childEntry q ws i).map fun t => (t, i)).foldl (fun l x => addChild x l) []
      hits.foldl (fun acc h => rayPush e acc.1 acc.2 (childTarget ws h.2) (entryBits h.1)) (r.1, q)

/-- A popped leaf: triangles j to j + n − 1. -/
def rayLeaf (e : RayEnv) (k te : Nat) (n j : Nat) (s : RayRun) (q : RayQuery) : RayRun × RayQuery :=
  match n with
  | 0 => (s, q)
  | n + 1 =>
    if q.triCnt ≤ j then (s, q.stop (.fault 0x51 2 (stackPtr k)))
    else
      let r := rayWords e s (addOffset q.ptr ((q.triOff + 48 * j : Nat) : Int)) 12
      match r.2 with
      | .error x => (r.1, q.stop x)
      | .ok ws =>
        match q.triHit j ws with
        | none => rayLeaf e k te n (j + 1) r.1 q
        | some h =>
          if q.flags.op || ((ws.getD 10 0).testBit 0 && !q.flags.no) then
            if q.flags.fh then (r.1, { q with comm := some h, st := .ended })
            else rayLeaf e k te n (j + 1) r.1 { q with comm := some h }
          else
            let q := { q with cand := some h, st := .candidate }
            if n = 0 then (r.1, q) else rayPush e r.1 q (stackIndex (j + 1) + (n - 1) * 2 ^ 24 + 2 ^ 31) te

/-- Pops one entry and visits it. -/
def rayVisit (e : RayEnv) (s : RayRun) (q : RayQuery) : RayRun × RayQuery :=
  let k := q.depth - 1
  let z := stackGet e s k
  let s := z.1
  match z.2 with
  | .error x => (s, q.stop x)
  | .ok (x, te) =>
    let q := { q with depth := k }
    if fvLess q.tcur (fpDecode .fp32 te) then (s, q)
    else if x.testBit 31 then rayLeaf e k te (nbits x 24 3 + 1) (nbits x 0 24) s q
    else rayNode e s q k (nbits x 0 24)

/-- Visits while the query is active, its stack is not empty and the limit is not reached. -/
def rayRun (e : RayEnv) (limit : Nat) (s : RayRun) (q : RayQuery) : RayRun × RayQuery :=
  match limit with
  | 0 => (s, q)
  | n + 1 =>
    if q.st == .active && q.depth != 0 then
      let r := rayVisit e s q
      rayRun e n r.1 r.2
    else (s, q)

/-- A step of one lane. -/
def rayStepLane (e : RayEnv) (s : RayRun) (q : RayQuery) : RayRun × RayQuery :=
  let q := if q.st == .candidate then { q with st := .active, cand := none } else q
  let r := rayRun e 256 s q
  let q' := if r.2.st == .active && r.2.depth == 0 then { r.2 with st := .ended } else r.2
  (if q'.fault && !q.fault then { r.1 with s := r.1.s.count .rayFault 1 } else r.1, q')

/-- The status of R418. -/
def rayStatus (q : Option RayQuery) : Nat :=
  match q with
  | none => 3
  | some q =>
    if q.fault then 6
    else if q.overflow then 4
    else match q.st with
      | .candidate => 2
      | .active => 5
      | .ended => if q.comm.isSome then 1 else 0

/-- Where a lane of a warp steps. -/
def rayEnv (g : Nat) (w : Warp) (b : Block) (l : Launch) (lane : Nat) : RayEnv :=
  { core := coreOf g, asid := l.asid, det := l.det, win := localWindow l b (32 * w.idx + lane) }

/-- Changes the query of a lane. -/
def State.setRay (s : State) (g lane : Nat) (q : RayQuery) : State := s.modWarp g fun w => { w with rays := tset w.rays lane q }

/-- The warp of a command. -/
def cmdWarp (s : State) (c : Cmd) : Option (Nat × Warp) := (s.warpsOf c.block).find? fun w => w.2.idx == c.warp

/-- One lane of an RQSTEP (R417): its query steps to its end or a candidate, and its result gets the status. -/
def rayLane (g : Nat) (w : Warp) (b : Block) (l : Launch) (rid : Nat) (x : RayRun) (lane : Nat) : RayRun :=
  let x : RayRun := match (x.s.warp? g).bind fun w => tget w.rays lane with
    | none => x
    | some q => let r := rayStepLane (rayEnv g w b l lane) x q; { r.1 with s := r.1.s.setRay g lane r.2 }
  let q := (x.s.warp? g).bind fun w => tget w.rays lane
  { x with s := x.s.resultData g rid lane [(BitVec.ofNat 64 (rayStatus q), (q.map RayQuery.poison).getD false)] }

/-- All the lanes of an RQSTEP. -/
def rayLanes (s : State) (g : Nat) (w : Warp) (b : Block) (l : Launch) (rid : Nat) (lanes : LaneMask) : RayRun :=
  (lanesOf lanes).foldl (rayLane g w b l rid) { s := s }

/-- An earlier RQSTEP of the same warp steps one of the lanes. -/
def rayBefore (s : State) (core : Nat) (c : Cmd) (lanes : LaneMask) : Bool :=
  (cmdsBefore (s.core core).cmds c.id).any fun o => o.block == c.block && o.warp == c.warp
    && match o.kind with | .rqstep l _ => (l &&& lanes) != 0 | _ => false

/-- RAY_STEP (R417, R418): an RQSTEP with no ordering edge into it steps its lanes, gives each its status and completes. -/
def execRayStep (core cmd : Nat) (s : State) : Host.Outcome State Fault Refusal :=
  match s.cmd? core cmd with
  | none => .next s
  | some c =>
    match c.kind with
    | .rqstep lanes rid =>
      if c.st != .queued || s.edgeInto core c || rayBefore s core c lanes then .next s
      else
        (match cmdWarp s c, s.block? c.block, (s.block? c.block).bind fun b => s.launch? b.launch with
          | some (g, w), some b, some l =>
            let t := engineTurn s core .rdS [] (rayLanes s g w b l rid lanes).words.dedup
            if !t.1 then .next t.2
            else
              let s := (rayLanes t.2 g w b l rid lanes).s.modWarp g fun w => w.modResult rid fun r => { r with done := true }
              .next (((s.endCmd core c true).wake g).blockExitTest c.block)
          | _, _, _ => .next ((s.endCmd core c true).blockExitTest c.block))
    | _ => .next s

/-! ## RQINIT (R416) -/

/-- The offset of the first header word that breaks R411. -/
def headerBreak (ws : List Nat) : Option Nat :=
  let w (i : Nat) : Nat := ws.getD i 0
  let bytes := w 4 + 2 ^ 32 * w 5
  if w 0 % 16 ≠ 0 || w 0 < 64 then some 0
  else if w 1 = 0 || 2 ^ 24 ≤ w 1 then some 4
  else if w 2 % 16 ≠ 0 then some 8
  else if 2 ^ 24 ≤ w 3 then some 12
  else if bytes % 128 ≠ 0 || 2 ^ 40 < bytes || bytes < w 0 + 80 * w 1 || (w 3 ≠ 0 && bytes < w 2 + 48 * w 3) then some 16
  else ((List.range 10).find? fun i => w (6 + i) ≠ 0).map fun i => 24 + 4 * i

/-- The checks of R226 that apply to the pointer, where the header's words are the access (log entry 136), and the two of R416. -/
def rqCheck (s : State) (g lane : Nat) (p : DWord) : Except TrapInfo Unit :=
  match spaceFault s g p 64 with
  | some d => .error { cause := 0x10, detail := d, addr := p }
  | none =>
    if policyFault .load .dflt p then .error { cause := 0x12, detail := 0, addr := p }
    else if p.toNat % 4 ≠ 0 then .error { cause := 0x13, detail := 0, addr := p }
    else
      match resolve s g lane p .read with
      | .error d => .error { cause := 0x11, detail := d, addr := p }
      | .ok _ =>
        if 3 < spaceOf p || p.toNat % 128 ≠ 0 then .error { cause := 0x50, detail := 1, addr := p }
        else if ((s.launchOf g).map Launch.localSize).getD 0 < 512 then .error { cause := 0x50, detail := 2, addr := p }
        else .ok ()

/-- n header words from a pointer as plain loads of the lane under the pointer's default policy (R230). -/
def rqWords (s : State) (g lane : Nat) (p : DWord) (n : Nat) : State × Except Fate (List Nat) :=
  match n with
  | 0 => (s, .ok [])
  | k + 1 =>
    let r := plainRead s g lane p 4
    match r.2 with
    | .error f => (r.1, .error f)
    | .ok (bs, bad) =>
      if bad then (r.1, .error (.trap (poisonTrap p)))
      else
        let z := rqWords r.1 g lane (addOffset p 4) k
        (z.1, match z.2 with | .error f => .error f | .ok l => .ok (natOfLe bs :: l))

/-- A query that starts ended (R416). -/
def rayDead (ws : List Nat) : Bool :=
  let v (i : Nat) : FVal := fpDecode .fp32 (ws.getD i 0)
  [0, 1, 2, 4, 5, 6].any (fun i => !finite32 (ws.getD i 0)) || [4, 5, 6].all (fun i => (v i).isZero)
    || (v 3).isNan || (v 7).isNan || fvLess (v 7) (v 3)

/-- RQINIT of one lane: the new query, or its fate. -/
def rqInitLane (s : State) (g lane : Nat) (fl : RayFlags) (w : Warp) (b : Block) (l : Launch) (a : Src) (p : DWord) :
    State × Option Fate :=
  match rqCheck s g lane p with
  | .error t => (s, some (.trap t))
  | .ok _ =>
    let r := rqWords s g lane p 16
    match r.2 with
    | .error f => (r.1, some f)
    | .ok ws =>
      match headerBreak ws with
      | some k => (r.1, some (.trap { cause := 0x51, detail := 1, addr := addOffset p ((k : Nat) : Int) }))
      | none =>
        let ray := (List.range 8).map fun i => w.vget (a.reg + i) lane
        let bits := ray.map fun x => x.bits.toNat
        match stackPut (rayEnv g w b l lane) { s := r.1 } 0 0 (bits.getD 3 0) with
        | .error (.fault c d x) => (r.1, some (.trap { cause := c, detail := d, addr := x }))
        | .error .overflow => (r.1, none)
        | .ok x =>
          let q : RayQuery :=
            { st := if rayDead bits then .ended else .active, flags := fl, ptr := p, ray := ray.map fun x => x.bits
              poison := ray.any fun x => x.poison, bytes := ws.getD 4 0 + 2 ^ 32 * ws.getD 5 0
              nodeOff := ws.getD 0 0, nodeCnt := ws.getD 1 0, triOff := ws.getD 2 0, triCnt := ws.getD 3 0 }
          (x.s.setRay g lane q, none)

/-- RQINIT of one lane with its pointer operand: a poisoned one traps. -/
def rqInitStep (g : Nat) (fl : RayFlags) (w : Warp) (blk : Block) (l : Launch) (a b : Src) (s : State) (k : Nat) : State × Option Fate :=
  let p := vread w b 2 k
  if p.2 then (s, some (.trap (poisonTrap 0))) else rqInitLane s g k fl w blk l a (BitVec.ofNat 64 p.1)

/-- The device words that an RQINIT is to touch and that its core cannot serve now: the headers, and the first entries of the stacks. -/
def rqHome (s : State) (gd : Guard) (b : Src) : List Nat :=
  match s.looking with
  | none => []
  | some (g, w, e) =>
    match s.blockOf g, s.launchOf g with
    | some blk, some l =>
      ((lanesOf (guardLanes w gd e.mask).1).flatMap fun k =>
        let p := vread w b 2 k
        let p' := BitVec.ofNat 64 p.1
        match p.2, rqCheck s g k p' with
        | false, .ok _ =>
          readHome s g k p' 64 ++ (match stackPut (rayEnv g w blk l k) { s := s } 0 0 0 with | .ok x => x.words | .error _ => [])
        | _, _ => []).dedup
    | _, _ => []

def execRqinit (g : Guard) (fl : RayFlags) (a b : Src) (s : State) : Host.Outcome State Fault Refusal :=
  issueLane s g .traps { srcOpnds [(a, 8), (b, 2)] with rel := 6, home := rqHome s g b, ask := .rdS } fun s c =>
    match s.warp? c.g, s.blockOf c.g, s.launchOf c.g with
    | some w, some blk, some l => someFates s c.act (rqInitStep c.g fl w blk l a b)
    | _, _, _ => (s, [])

/-! ## RQSTEP, RQCOMMIT, RQHIT, RQAPPEND (R418–R421) -/

/-- The read footprints of an RQSTEP (R418). -/
def rayFeet (l : Launch) (bid : Nat) (b : Block) (w : Warp) (m : LaneMask) : List Footprint :=
  let qs := ((lanesOf m).filterMap fun k => (tget w.rays k).map fun q => (q.ptr, q.bytes)).dedup
  if 4 < qs.length then (List.range 4).map fun k => footOf l bid b (BitVec.ofNat 64 (k * 2 ^ 60)) (2 ^ 57) false
  else qs.map fun q => footOf l bid b q.1 q.2 false

/-- An RQSTEP that takes a place in the queue: earlier stores are released, its result is outstanding (R418). -/
def stepPosted (s : State) (c : Ctx) (w : Warp) (b : Block) (l : Launch) (la d : Nat) : State :=
  let s := releaseAct s c.g .device none
  let r := openResult s c.g la [.v d] c.act
  let n := r.1.newId
  let cmd : Cmd :=
    { id := n.2, block := w.block, warp := w.idx, kind := .rqstep c.act (r.2.getD 0), feet := rayFeet l w.block b w c.act
      since := s.devNs }
  (n.1.noteCmd c.g c.lanes n.2).modCore (coreOf c.g) fun q => { q with cmds := q.cmds ++ [cmd] }

def execRqstep (g : Guard) (la d : Nat) (s : State) : Host.Outcome State Fault Refusal :=
  issueLane s g .traps { vw := [d], rel := relLevel .rel .device, async := true } fun s c =>
    match s.warp? c.g, s.blockOf c.g, s.launchOf c.g with
    | some w, some b, some l =>
      if c.act = 0 then (s, [])
      else if 64 ≤ (s.core (coreOf c.g)).cmds.length then (s, [(c.act, .park .commandQueue)])
      else (stepPosted s c w b l la d, [])
    | _, _, _ => (s, [])

/-- RQCOMMIT and RQCOMMIT.END of one lane (R419). -/
def RayQuery.commit (q : RayQuery) (end_ : Bool) : RayQuery :=
  let q := if q.st == .candidate then { q with comm := q.cand, cand := none, st := .active } else q
  if end_ && q.st == .active then { q with st := .ended } else q

/-- The query of one lane of a warp is committed, if it has one. -/
def commitLane (g : Nat) (end_ : Bool) (s : State) (k : Nat) : State :=
  match (s.warp? g).bind fun w => tget w.rays k with
  | some q => s.setRay g k (q.commit end_)
  | none => s

/-- The shared form of both. -/
def rqCommit (s : State) (g : Guard) (end_ : Bool) : Host.Outcome State Fault Refusal :=
  issueLane s g .traps { rel := 6 } fun s c => (forEach (lanesOf c.act) s (commitLane c.g end_), [])

def execRqcommit (g : Guard) (s : State) : Host.Outcome State Fault Refusal := rqCommit s g false
def execRqcommitEnd (g : Guard) (s : State) : Host.Outcome State Fault Refusal := rqCommit s g true

/-- The hit of the kind named (R420). -/
def rayHit (q : Option RayQuery) (cand : Bool) : Option Hit := q.bind fun q => if cand then q.cand else q.comm

/-- t, u or v rounded by RN to FP32. -/
def hitBits (x : ℚ) : Nat := (fpRound .fp32 .rn false false false x).1

/-- The value of a selector (R420). -/
def hitValue (q : Option RayQuery) (cand : Bool) (sel : HitSel) : Nat :=
  let ones : Nat := 0xFFFFFFFF
  let h := rayHit q cand
  match sel with
  | .t => (h.map fun h => hitBits h.t).getD 0x7F800000
  | .u => (h.map fun h => hitBits h.u).getD ones
  | .v => (h.map fun h => hitBits h.v).getD ones
  | .tri => (h.map fun h => h.tri).getD ones
  | .primid => (h.map fun h => h.primid.toNat).getD ones
  | .face => (h.map fun h => if h.front then 1 else 0).getD ones
  | .state => match q.map RayQuery.st with | none => 0 | some .active => 1 | some .candidate => 2 | some .ended => 3
  | .fstat => (q.map fun q => q.fstat).getD 0
  | .faddrLo => (q.map fun q => nbits q.faddr.toNat 0 32).getD 0
  | .faddrHi => (q.map fun q => nbits q.faddr.toNat 32 32).getD 0

def execRqhit (g : Guard) (la : Nat) (cand : Bool) (sel : HitSel) (d : Nat) (s : State) : Host.Outcome State Fault Refusal :=
  issueLane s g .traps { vw := [d], rel := 6, async := la != 0 } fun s c =>
    match s.warp? c.g with
    | none => (s, [])
    | some w =>
      let outs := (lanesOf c.act).map fun l =>
        let q := tget w.rays l
        (l, vout d 1 (hitValue q cand sel) ((q.map RayQuery.poison).getD false))
      let n := s.newId
      (n.1.modWarp c.g fun w => w.deliver n.2 la outs, [])

/-- The operands of RQAPPEND in a lane: the depth of its hit, poisoned where the query is (R421). -/
def appendOps (cand : Bool) (a c : Src) (w : Warp) (l : Nat) : FlOps :=
  let q := tget w.rays l
  { pix := vread w a 1 l, pay := vread w c 2 l
    dep := (((rayHit q cand).map fun h => hitBits h.t).getD 0, (q.map RayQuery.poison).getD false) }

def execRqappend (g : Guard) (cand : Bool) (d : Nat) (a c : Src) (s : State) : Host.Outcome State Fault Refusal :=
  flDirect s g
    { o := { (srcOpnds [(a, 1), (c, 2)]).toV d 1 with rel := 7 }, dst := some (d, 1)
      skip := fun w l => !((tget w.rays l).map RayQuery.poison).getD false && (rayHit (tget w.rays l) cand).isNone
      ops := appendOps cand a c, check := fun t b x => if x.dep.2 then some (poisonTrap 0) else pixelTrap t b x
      op := fun t b x => flInsert t b.mrule x.pix.1 x.dep.1 x.pay.1 }

/-! ## Build helpers (R422–R424) -/

/-- q_a of MORTON for one axis. -/
def mortonAxis (p lo sc : Nat) : Nat :=
  let v (x : Nat) : FVal := fpDecode .fp32 x
  if (v p).isNan || (v lo).isNan || (v sc).isNan then 0
  else
    match (fvAdd (v p) (fvNeg (v lo))).bind fun x => mulVal x (v sc) with
    | none => 0
    | some (.nan _ _) => 0
    | some (.inf n) => if n then 0 else 1023
    | some (.fin n m) => if n then 0 else min 1023 (m.num.natAbs / m.den)

/-- Spreads ten bits to every third place. -/
def spread3 (x : Nat) : Nat := ((List.range 10).map fun i => nbits x i 1 * 2 ^ (3 * i)).foldl (· + ·) 0

/-- MORTON in one lane (R422). -/
def mortonOut (w : Warp) (d : Nat) (a b c : Src) (l : Nat) : LaneOut :=
  let axis (i : Nat) : Nat :=
    mortonAxis (w.vget (a.reg + i) l).bits.toNat (w.vget (b.reg + i) l).bits.toNat (w.vget (c.reg + i) l).bits.toNat
  vout d 1 (4 * spread3 (axis 0) + 2 * spread3 (axis 1) + spread3 (axis 2)) ((vread w a 3 l).2 || (vread w b 3 l).2 || (vread w c 3 l).2)

def execMorton (g : Guard) (d : Nat) (a b c : Src) (s : State) : Host.Outcome State Fault Refusal :=
  issueLane s g .traps ((srcOpnds [(a, 4), (b, 4), (c, 4)]).toV d 1) fun s x =>
    match s.warp? x.g with
    | none => (s, [])
    | some w => (s.modWarp x.g fun w' => (lanesOf x.act).foldl (fun (w' : Warp) l => w'.putOut l (mortonOut w d a b c l)) w', [])

/-- FMIN or FMAX of words, in their order. -/
def foldMinMax (isMax : Bool) (l : List Nat) : Nat :=
  match l with
  | [] => 0
  | x :: r => r.foldl (fun a b => (fpMinMax .fp32 false isMax a b).1) x

/-- BBOX over the active lanes (R423): six extremes, their number, and 0. -/
def bboxOut (w : Warp) (d : Nat) (a : Src) (ls : List Nat) : LaneOut :=
  let comp (i : Nat) : Nat := foldMinMax (3 ≤ i) (ls.map fun l => (w.vget (a.reg + i) l).bits.toNat)
  let words := (List.range 8).map fun i => if i < 6 then comp i else if i = 6 then ls.length else 0
  vout d 8 (joinWords words) (ls.any fun l => (vread w a 6 l).2)

def execBbox (g : Guard) (la d : Nat) (a : Src) (s : State) : Host.Outcome State Fault Refusal :=
  issueLane s g .traps { (srcOpnds [(a, 8)]).toV d 8 with async := la != 0 } fun s c =>
    match s.warp? c.g with
    | none => (s, [])
    | some w =>
      let n := s.newId
      (n.1.modWarp c.g fun w' => w'.deliver n.2 la ((lanesOf c.act).map fun l => (l, bboxOut w d a (lanesOf c.act))), [])

/-- A child supplied to BVPACK: its number, box words and kind word. -/
structure PackChild where
  i    : Nat
  box  : List Nat
  kind : Nat
  deriving DecidableEq, Repr

def PackChild.internal (c : PackChild) : Bool := c.kind.testBit 31
def PackChild.index (c : PackChild) : Nat := nbits c.kind 0 24

/-- CHILD and PRIM (R424). -/
def packFirst (v : List PackChild) : Nat := ((v.filter PackChild.internal).head?.map PackChild.index).getD 0
def packPrim (v : List PackChild) : Nat :=
  match (v.filter fun c => !c.internal).map PackChild.index with
  | [] => 0
  | x :: r => r.foldl min x

/-- The DETAIL of bvpack, if it traps (R424). -/
def packDetail (v : List PackChild) : Option Nat :=
  let ints := (v.filter PackChild.internal).zipIdx
  if ints.any fun c => c.1.index ≠ packFirst v + c.2 then some 1
  else if v.any fun c => nbits c.kind 27 4 ≠ 0 || (!c.internal && 32 ≤ c.index - packPrim v) then some 2
  else if v.any fun c => !(c.box.take 6).all finite32
      || [0, 1, 2].any fun a => word32 (c.box.getD (3 + a) 0) < word32 (c.box.getD a 0) then some 3
  else none

/-- The least exponent whose step covers an extent on an axis, by its place from −128 up. -/
def packExp (extent : ℚ) : Int :=
  let k : Nat := ((List.range 256).find? fun (k : Nat) => decide (extent ≤ 255 * pow2 ((k : Int) - 128))).getD 255
  (k : Int) - 128

def floorNat (x : ℚ) : Nat := if x < 0 then 0 else x.num.natAbs / x.den
def ceilNat (x : ℚ) : Nat := if x < 0 then 0 else (x.num.natAbs + x.den - 1) / x.den

/-- The eighty bytes of the node (R412, R424). -/
def packBytes (v : List PackChild) : List Nat :=
  let le (n x : Nat) : List Nat := (leOfNat n x).map fun b => b.toNat
  if v.isEmpty then List.replicate 80 0
  else
    let org (a : Nat) : Nat := foldMinMax false (v.map fun c => c.box.getD a 0)
    let top (a : Nat) : Nat := foldMinMax true (v.map fun c => c.box.getD (3 + a) 0)
    let ex (a : Nat) : Int := packExp (word32 (top a) - word32 (org a))
    let mask (f : PackChild → Bool) : Nat := ((v.filter f).map fun c => 2 ^ c.i).foldl (· + ·) 0
    let each (f : PackChild → Nat) : List Nat := (List.range 8).map fun i => ((v.find? fun c => c.i == i).map f).getD 0 % 256
    let rel (c : PackChild) (a k : Nat) : ℚ := (word32 (c.box.getD k 0) - word32 (org a)) / pow2 (ex a)
    [0, 1, 2].flatMap (fun a => le 4 (org a))
      ++ [0, 1, 2].map (fun a => (ex a % 256).toNat) ++ [mask fun _ => true]
      ++ le 4 (packFirst v + 2 ^ 24 * mask PackChild.internal)
      ++ le 4 (packPrim v)
      ++ each (fun c => if c.internal then 0 else (c.index - packPrim v) + 32 * nbits c.kind 24 3)
      ++ [0, 1, 2].flatMap (fun a => each fun c => floorNat (rel c a a))
      ++ [0, 1, 2].flatMap (fun a => each fun c => ceilNat (rel c a (3 + a)))

/-- The children that the active lanes 0 to 7 supply, and their poison. -/
def packChildren (w : Warp) (a : Src) (m : LaneMask) : List PackChild :=
  ((lanesOf m).filter fun l => l < 8).map fun l =>
    { i := l, box := (List.range 6).map fun i => (w.vget (a.reg + i) l).bits.toNat, kind := (w.vget (a.reg + 6) l).bits.toNat }
def packBad (w : Warp) (a : Src) (m : LaneMask) : Bool := ((lanesOf m).filter fun l => l < 8).any fun l => (vread w a 7 l).2

/-- Word l of a node. -/
def packWord (bs : List Nat) (l : Nat) : Nat := if l < 20 then natOfLe (((bs.drop (4 * l)).take 4).map fun x => BitVec.ofNat 8 x) else 0

/-- BVPACK (R424). -/
def execBvpack (g : Guard) (d : Nat) (a : Src) (s : State) : Host.Outcome State Fault Refusal :=
  issueLane s g .traps ((srcOpnds [(a, 8)]).toV d 1) fun s c =>
    match s.warp? c.g with
    | none => (s, [])
    | some w =>
      let v := packChildren w a c.act
      let bad := packBad w a c.act
      match (if bad then none else packDetail v) with
      | some k => trapAll s c { cause := 0x52, detail := k, addr := 0 }
      | none =>
        let bs := packBytes v
        (s.modWarp c.g fun w => (lanesOf c.act).foldl (fun (w : Warp) l => w.putOut l (vout d 1 (packWord bs l) bad)) w, [])

end Sys2Proof.Machine
end

