-- ==== Sys2Proof/Machine/Sha256.lean ====
section
/-! DEFINITION. SHA-256, which the device uses for measurements (R6, R440). The spec names the function and does not restate it: the
definition is that of the published standard (log entry 45, PRESUMED). -/

namespace Sys2Proof.Machine

/-- The round constants. -/
def shaK : List Word :=
  [0x428a2f98, 0x71374491, 0xb5c0fbcf, 0xe9b5dba5, 0x3956c25b, 0x59f111f1, 0x923f82a4, 0xab1c5ed5] ++
  [0xd807aa98, 0x12835b01, 0x243185be, 0x550c7dc3, 0x72be5d74, 0x80deb1fe, 0x9bdc06a7, 0xc19bf174] ++
  [0xe49b69c1, 0xefbe4786, 0x0fc19dc6, 0x240ca1cc, 0x2de92c6f, 0x4a7484aa, 0x5cb0a9dc, 0x76f988da] ++
  [0x983e5152, 0xa831c66d, 0xb00327c8, 0xbf597fc7, 0xc6e00bf3, 0xd5a79147, 0x06ca6351, 0x14292967] ++
  [0x27b70a85, 0x2e1b2138, 0x4d2c6dfc, 0x53380d13, 0x650a7354, 0x766a0abb, 0x81c2c92e, 0x92722c85] ++
  [0xa2bfe8a1, 0xa81a664b, 0xc24b8b70, 0xc76c51a3, 0xd192e819, 0xd6990624, 0xf40e3585, 0x106aa070] ++
  [0x19a4c116, 0x1e376c08, 0x2748774c, 0x34b0bcb5, 0x391c0cb3, 0x4ed8aa4a, 0x5b9cca4f, 0x682e6ff3] ++
  [0x748f82ee, 0x78a5636f, 0x84c87814, 0x8cc70208, 0x90befffa, 0xa4506ceb, 0xbef9a3f7, 0xc67178f2]

/-- The initial hash value. -/
def shaInit : List Word := [0x6a09e667, 0xbb67ae85, 0x3c6ef372, 0xa54ff53a, 0x510e527f, 0x9b05688c, 0x1f83d9ab, 0x5be0cd19]

/-- One more word of the message schedule, kept newest first. -/
def shaNext (ws : List Word) : Word :=
  let x := ws.getD 14 0
  let y := ws.getD 1 0
  let s0 := x.rotateRight 7 ^^^ x.rotateRight 18 ^^^ x >>> 3
  let s1 := y.rotateRight 17 ^^^ y.rotateRight 19 ^^^ y >>> 10
  ws.getD 15 0 + s0 + ws.getD 6 0 + s1

/-- The message schedule of a block, n words more than those given newest first. -/
def shaSched (n : Nat) (ws : List Word) : List Word :=
  match n with
  | 0 => ws
  | k + 1 => shaSched k (shaNext ws :: ws)

/-- One round on the eight working words. -/
def shaRound (v : List Word) (kw : Word) : List Word :=
  match v with
  | [a, b, c, d, e, f, g, h] =>
    let t1 := h + (e.rotateRight 6 ^^^ e.rotateRight 11 ^^^ e.rotateRight 25) + ((e &&& f) ^^^ (~~~ e &&& g)) + kw
    let t2 := (a.rotateRight 2 ^^^ a.rotateRight 13 ^^^ a.rotateRight 22) + ((a &&& b) ^^^ (a &&& c) ^^^ (b &&& c))
    [t1 + t2, a, b, c, d + t1, e, f, g]
  | v => v

/-- A block of sixteen words into the hash value. -/
def shaBlock (h : List Word) (m : List Word) : List Word :=
  let w := (shaSched 48 m.reverse).reverse
  (h.zip ((w.zip shaK).foldl (fun v x => shaRound v (x.1 + x.2)) h)).map fun x => x.1 + x.2

/-- Big-endian words of bytes. -/
def beWords (bs : List Byte) : List Word :=
  match bs with
  | a :: b :: c :: d :: r => BitVec.ofNat 32 (natOfLe [d, c, b, a]) :: beWords r
  | _ => []

/-- The message with its padding. -/
def shaPad (bs : List Byte) : List Byte :=
  let n := bs.length
  bs ++ 0x80 :: List.replicate ((119 - n % 64) % 64) 0 ++ (leOfNat 8 (8 * n)).reverse

/-- Blocks of sixteen words, n of them. -/
def shaBlocks (n : Nat) (h ws : List Word) : List Word :=
  match n with
  | 0 => h
  | k + 1 => shaBlocks k (shaBlock h (ws.take 16)) (ws.drop 16)

/-- The digest of bytes as a number, its first byte the most significant. -/
def sha256 (bs : List Byte) : Nat :=
  let ws := beWords (shaPad bs)
  (shaBlocks (ws.length / 16) shaInit ws).foldl (fun n w => n * 2 ^ 32 + w.toNat) 0

end Sys2Proof.Machine
end

