-- ==== Sys2Proof/Machine/System.lean ====
section
/-! DEFINITION. CSRs, firmware instructions, the fabric, power and clock, firmware and attestation, health, fatal errors and
reset (R429–R442). -/

namespace Sys2Proof.Machine

/-! ## CSRs (R436–R438) -/

/-- The bits of a mask in a 64-bit value. -/
def csrBits (v : DWord) (mask : Nat) : DWord := v &&& BitVec.ofNat 64 mask

/-- A CSR's value, zero-extended (R437). -/
def csrRead (s : State) (core n : Nat) : DWord :=
  match n with
  | 0x000 => s.ready
  | 0x001 => BitVec.ofNat 64 s.svcMode
  | 0x002 => s.lwinBase
  | 0x003 => s.ctxBase
  | 0x004 => s.ctxSize
  | 0x005 => s.asTable
  | 0x006 => BitVec.ofNat 64 s.wdogMax
  | 0x007 => BitVec.ofNat 64 s.quantumUs
  | 0x008 => BitVec.ofNat 64 s.leaseLen
  | 0x009 => BitVec.ofNat 64 s.swpol
  | 0x00A => BitVec.ofNat 64 s.spadSplit
  | 0x00B => BitVec.ofNat 64 s.fabTimeout
  | 0x00C => s.dumpBase
  | 0x010 => (s.core core).trapVec
  | n => BitVec.ofNat 64 (tgetD s.slotAsid (n - 256) 0)

/-- The RW fields of a CSR take a value; its RO fields are unchanged (R4, R120, R121, R157, R276, R311, R437). -/
def csrWrite (s : State) (core n : Nat) (v : DWord) : State :=
  match n with
  | 0x000 => s
  | 0x001 => { s with svcMode := (csrBits v 0x3).toNat }
  | 0x002 => { s with lwinBase := csrBits v 0x3FFFFF0000 }
  | 0x003 => { s with ctxBase := csrBits v 0x3FFFFFF000 }
  | 0x004 => { s with ctxSize := csrBits v 0x3FFFFFF000 }
  | 0x005 => { s with asTable := csrBits v 0x3FFFF00000 }
  | 0x006 => { s with wdogMax := (csrBits v 0xFFFFFFFF).toNat }
  | 0x007 => { s with quantumUs := (csrBits v 0x3FFF).toNat }
  | 0x008 => { s with leaseLen := (csrBits v 0xFFFFF).toNat }
  | 0x009 => { s with swpol := (csrBits v 0xFF03).toNat }
  | 0x00A => { s with spadSplit := (csrBits v 0x7).toNat }
  | 0x00B => { s with fabTimeout := (csrBits v 0xFFFFFF).toNat }
  | 0x00C => { s with dumpBase := csrBits v 0x3FFC000001 }
  | 0x010 => s.modCore core fun c => { c with trapVec := csrBits v 0x01FFFFFFFFFFFFF8 }
  | n => { s with slotAsid := tput s.slotAsid (n - 256) (csrBits v 0xFFFF).toNat 0 }

/-- A firmware instruction with its word: outside firmware context it takes the illegal-instruction trap (R42, R438). -/
def firmwareOnly (s : State) (i : Instr) (run : Host.Outcome State Fault Refusal) : Host.Outcome State Fault Refusal :=
  match s.issuing with
  | none => run
  | some (g, _, e) => if inFirmware s g then run else .next (decodeTrap s g e 0x01 ((encode i).getD 0))

/-- CSRR (R438). -/
def execCsrr (g : Guard) (d csr : Nat) (s : State) : Host.Outcome State Fault Refusal :=
  firmwareOnly s (.csrr g d csr) (issueUni s g { sw := [d] } fun s c =>
    (s.modWarp c.g fun w => w.sput d (csrRead s (coreOf c.g) csr), []))

/-- CSRW (R438). -/
def execCsrw (g : Guard) (csr a : Nat) (s : State) : Host.Outcome State Fault Refusal :=
  firmwareOnly s (.csrw g csr a) (issueUni s g { sr := [a] } fun s c =>
    match s.warp? c.g with
    | some w => (csrWrite s (coreOf c.g) csr (w.sget a), [])
    | none => (s, []))

/-- HALT (R438): issue stops on the core after this instruction. -/
def execHalt (g : Guard) (s : State) : Host.Outcome State Fault Refusal :=
  firmwareOnly s (.halt g) (issueUni s g {} fun s c => (s.modCore (coreOf c.g) fun k => { k with halted := true }, []))

/-- HALTED_CORE_RESTART (R438). -/
def execHaltedCoreRestart (core : Nat) (s : State) : Host.Outcome State Fault Refusal :=
  if (s.core core).halted then .next (s.modCore core fun c => { c with halted := false }) else .next s

/-! ## The fabric (R431, R225, R333, R346) -/

/-- An exchange that began at a device time has lasted the fabric timeout (R437). -/
def fabricLate (s : State) (since : Nat) : Bool := since + 1000 * max 100 s.fabTimeout ≤ s.devNs

/-- Lanes of a warp take an asynchronous trap at once, and the operation that they wait for ends. -/
def failPeerOp (s : State) (core : Nat) (o : LsuOp) (cause detail : Nat) (addr : DWord) : State :=
  let s : State := { s with puts := s.puts.filter fun q => q.op != o.id }
  let s := match s.warp? o.warp with
    | none => s
    | some w =>
      let s := forEach w.entries s fun s e =>
        asyncEntry s o.warp { warp := o.warp, lanes := o.lanes, cause := cause, detail := detail, addr := addr } e
      (s.stallTidy (coreOf o.warp)).linkTidy
  completeOp s core o

/-- The pointer that an access to a peer used. -/
def LsuOp.peerPtr (o : LsuOp) : DWord := ((o.parts.flatMap fun q => q.accs).head?.map LaneAcc.vaddr).getD 0

/-- The accesses that wait for a peer, with their cores. -/
def peerOps (s : State) : List (Nat × LsuOp) :=
  s.cores.flatMap fun c => (c.2.ops.filter fun o => match o.space with | .remote _ => true | _ => false).map fun o => (c.1, o)

/-- The peer that a running copy command reads its unit from. -/
def Cmd.srcPeer (c : Cmd) : Option Nat :=
  match c.kind with
  | .copy _ r => if c.st == .running && c.sent.isNone && spaceOf (r.srcAt c.next) == 6 then some (nbits (r.srcAt c.next).toNat 48 12) else none
  | _ => none

/-- The command waits too long for a peer: for data of its unit, or for the acknowledgement of its put. -/
def Cmd.lateAt (s : State) (c : Cmd) (peer : Nat) : Bool :=
  (c.srcPeer == some peer && fabricLate s c.since) ||
    (s.puts.any fun q => c.sent == some q.id && q.peer == peer && fabricLate s q.sentAt)

/-- PEER_TIMEOUT (R225, R346, R431): the accesses and commands that have waited too long for a peer. -/
def execPeerTimeout (peer : Nat) (s : State) : Host.Outcome State Fault Refusal :=
  let late := (peerOps s).filter fun e => e.2.space == .remote peer && fabricLate s e.2.sentAt
  let cmds := s.cores.flatMap fun c => (c.2.cmds.filter fun x => x.lateAt s peer).map fun x => (c.1, x)
  let s := forEach late s fun s e => failPeerOp s e.1 e.2 0x14 0 0
  .next (forEach cmds s fun s e =>
    putFailed { s with puts := s.puts.filter fun q => e.2.sent != some q.id } e.1 e.2 0x14)

/-- A peer's answer to a put: of a command or of an access; `refused` says that its window does not reach there (R431). -/
def putAnswered (s : State) (q : PeerPut) (refused : Bool) : State :=
  let s : State := { s with puts := s.puts.filter fun x => x.id != q.id }
  if q.cmd ≠ 0 then
    match s.cmd? q.core q.cmd with
    | none => s
    | some c =>
      if c.sent ≠ some q.id then s
      else if refused then putFailed s q.core c 0x10
      else match c.kind with
        | .copy _ r => putAcked s q.core c r
        | _ => s
  else
    match (s.core q.core).ops.find? fun o => o.id == q.op with
    | none => s
    | some o =>
      if refused then failPeerOp s q.core o 0x10 2 o.peerPtr
      else if s.puts.any (fun x => x.op == o.id && x.cmd == 0) then s
      else completeOp s q.core o

/-- PEER_ACK (R333, R346, R431): a peer acknowledges the put `id`, or refuses it, or refuses the get of the access or of the command
`id`. Answers come through the ports that are ready alone (R434). -/
def execPeerAck (id : Nat) (refused : Bool) (s : State) : Host.Outcome State Fault Refusal :=
  if !s.fabUp then .next s
  else match s.puts.find? fun q => q.id == id with
  | some q => .next (putAnswered s q refused)
  | none =>
    if !refused then .next s
    else
      match (peerOps s).find? fun e => e.2.id == id with
      | some (core, o) => .next (failPeerOp s core o 0x10 2 o.peerPtr)
      | none =>
        match s.cores.findSome? fun c => (c.2.cmds.find? fun x => x.id == id && x.srcPeer.isSome).map fun x => (c.1, x) with
        | some (core, c) => .next (faultCopy s core c 0x10 0)
        | none => .next s

/-- Bytes of a window access. -/
def windowSize (k : WindowKind) : Nat :=
  match k with
  | .get n => n
  | .put d => d.length
  | .reduce op _ => if op = 1 then 8 else if op = 7 || op = 8 then 2 else 4

/-- REMOTE_WINDOW_ACCESS (R431): an access beyond the window's size is refused; a get reads, a put writes, a reduction acts at the
bank ALU. A poisoned word is not reduced (R336). It comes through a port that is ready (R434). -/
def execRemoteWindowAccess (off : Nat) (k : WindowKind) (s : State) : Host.Outcome State Fault Refusal :=
  let pa := s.windowBase + off
  let n := windowSize k
  if !s.fabUp || n = 0 || s.windowBytes < off + n || 2 ^ 38 < pa + n then .next s
  else
    match k with
    | .get _ =>
      let first := pa / 4
      .next (forEach ((List.range ((pa + n - 1) / 4 + 1 - first)).map fun i => first + i) s fun s w => s.fillSector w)
    | .put d => .next (s.cohWrite pa d)
    | .reduce op x =>
      let old := s.cohRead pa n
      .next (if old.2 then s.count .poisonDrop 1 else s.cohWrite pa (leOfNat n (redNew op (natOfLe old.1) x)))

/-! ## Readiness, clock, power (R432–R435) -/

/-- A bit of READY may be set (R434): CXLMEM once MEM and L2 are 1, DISPATCH once a verified image runs (R439), ATTEST once a stage has been
measured (R440; log entry 45). -/
def readyMay (s : State) (bit : Nat) : Bool :=
  match bit with
  | 2 => s.ready.getLsbD 0 && s.ready.getLsbD 1
  | 4 => s.image.isSome
  | 9 => s.stages != 0
  | b => b ≤ 36

/-- READY_SET (R434): the requests that were held until now are served (R435). -/
def execReadySet (bit : Nat) (s : State) : Host.Outcome State Fault Refusal :=
  .next (if readyMay s bit then ({ s with ready := s.ready ||| BitVec.ofNat 64 (2 ^ bit) } : State).hostPump else s)

/-- OVERCURRENT (R432): issue stalls while the current is over a rail's limit. -/
def execOvercurrent (on : Bool) (s : State) : Host.Outcome State Fault Refusal := .next { s with stalled := on }

/-- THERMAL_THROTTLE (R432, R433): one step of 75 MHz. -/
def execThermalThrottle (s : State) : Host.Outcome State Fault Refusal :=
  .next (if s.clockMhz ≤ 75 then s else { s with clockMhz := s.clockMhz - 75 })

/-- THERMAL_SHUTDOWN (R432): power goes, with no dump. -/
def execThermalShutdown (s : State) : Host.Outcome State Fault Refusal := .next { s with powered := false }

/-- The cap on power that holds: the Farrier's, under the hardware's own 1,200 W after a missed watchdog service (R432). -/
def State.capNow (s : State) : Nat := if s.hwCapped then min 1200 s.powerCap else s.powerCap

/-- FARRIER_WATCHDOG_MISS (R432): at most 600 MHz, a cap of 1,200 W that no request of the Farrier's lifts, and the Farrier restarts: its firmware is
verified anew before the cap ends (log entry 71). -/
def execFarrierWatchdogMiss (s : State) : Host.Outcome State Fault Refusal :=
  .next { s with clockMhz := min s.clockMhz 600, hwCapped := true, restarts := s.restarts + 1 }

/-- The directory state that a fenced agent left or gained, taken away. -/
def forgetAgent (s : State) (agent : Nat) : State :=
  let clear (d : DirLine) : DirLine :=
    { d with owners := d.owners.filter fun o => o.agent != agent
             sharers := if agent < 216 then d.sharers &&& ~~~ BitVec.ofNat 216 (2 ^ agent) else d.sharers
             opens := (d.opens.map fun e => (e.1, e.2.close agent)).filter fun e => e.2 != {} }
  { s with dir := (s.dir.map fun e => (e.1, clear e.2)).filter fun e => e.2 != {}, fenced := s.fenced.filter fun a => a != agent }

/-- CORE_RESET (R279): the Farrier resets a fenced core, which empties its L1, or restores the host's link. -/
def execCoreReset (t : ResetTarget) (s : State) : Host.Outcome State Fault Refusal :=
  match t with
  | .core n =>
    if !s.fenced.contains n || 216 ≤ n then .next s
    else
      let s := forgetAgent s n
      let left (l : List Nat) : List Nat := l.filter fun c => c != n
      let s : State := { s with hostCached := (s.hostCached.map fun e => (e.1, left e.2)).filter fun e => !e.2.isEmpty }
      .next (s.modCore n fun c => { c with l1 := [], opens := [], wbuf := [], needsReset := false })
  | .hostLink =>
    if s.hostLinkRefused then .next { s with hostLinkRefused := false, fenced := s.fenced.filter fun a => a != 255 } else .next s

/-! ## Firmware, attestation, mailbox, health (R439–R441) -/

/-- An image is accepted (R439): its signature verifies under a vendor key whose digest the fuses hold and which has not been revoked, and its
version is not below the fused counter. -/
def imageOk (s : State) (version : Nat) (signed : ImageSig) : Bool :=
  let key := sha256 signed.key
  signed.ok && Config.vendorKey key && !s.revoked.contains key && s.fusedVersion ≤ version

/-- A stage is measured (R440): its SHA-256 digest extends a measurement register (log entry 45). -/
def State.measure (s : State) (digest : Nat) : State :=
  let r := Config.measRegister s.stages
  let bytes (n : Nat) : List Byte := (leOfNat 32 n).reverse
  { s with measurements := tset s.measurements r (sha256 (bytes (tgetD s.measurements r 0) ++ bytes digest)), stages := s.stages + 1 }

/-- FIRMWARE_VERIFY (R439, R440): an accepted image is measured and runs; a refused one leaves the previous image running. With none to run, SVC_MODE
stays 11 with DISPATCH clear. -/
def execFirmwareVerify (data : List Byte) (version : Nat) (signed : ImageSig) (s : State) : Host.Outcome State Fault Refusal :=
  let ok := imageOk s version signed
  let image := sha256 data
  let s := s.tell (.firmware image ok)
  .next (if ok then ({ s with image := some (image, version), hwCapped := false } : State).measure image
    else if s.image.isNone then { s with svcMode := 3, ready := s.ready &&& ~~~ 0x10#64 } else s)

/-- SPDM_REQUEST (R440): answered once ATTEST is set (R434). -/
def execSpdmRequest (nonce : Nat) (s : State) : Host.Outcome State Fault Refusal :=
  if !s.ready.getLsbD 9 then .next s
  else
    .next { s with reports := s.reports ++ [.measured nonce s.measurements (Config.freeSignature nonce s.measurements)] }

/-- Adds to counters that saturate, kind by kind. -/
def addCounts (old new : List Nat) : List Nat :=
  (List.range 5).map fun i => min Config.counterMax (old.getD i 0 + new.getD i 0)

/-- HEALTH_UPDATE (R441): predictions of the five voltage domains, and corrected soft errors of the five kinds since the last one. -/
def execHealthUpdate (hours corrected : List Nat) (s : State) : Host.Outcome State Fault Refusal :=
  let eol := hours.take 5
  let low := eol.zipIdx.filter fun e => e.1 < 8760
  let s : State := { s with eol := eol, health := addCounts s.health corrected }
  .next (forEach low (s.count .eccCorrected (corrected.take 5).sum) fun s e => s.tell (.endOfLife e.2))

/-- Starts a firmware block: a launch of one block with one warp, in the waiting order (R438). -/
def startFirmware (s : State) (asid pc : Nat) : State :=
  let v : Variant := { pcOff := 0, floor := 16, ceil := 256, spad := 4096 }
  let e : EntryRec :=
    { codeBase := BitVec.ofNat 64 (pc / 8 * 8), warps := 1, vmask := 1, carryRegs := 0, carryBound := 0, switchCnt := 0, roleCnt := 0
      variants := [v], roles := [], switch := [] }
  (acceptLaunch s
    { id := 0, asid := asid % 2 ^ 16, depth := 0, entry := e, args := 0, seed := 0, flags := 0, wdog := 0, widths := [5, 0, 0, 0, 0, 0]
      extents := [32, 1, 1, 1, 1, 1], gangField := 0, localSize := 256, localSlots := 1, localBase := 0, argCount := 0
      argStride := 8, chunkMin := 1, pinQuota := 0, complete := 0, queues := [0, 0, 0, 0], firmware := true, waitSince := s.devNs, openSince := s.devNs }).1

/-- A mailbox request is done. -/
def mailed (s : State) : State := { s with reports := s.reports ++ [.done] }

/-- FARRIER_MAILBOX_REQUEST (R256, R431, R432, R438, R439, R441): firmware blocks run a verified image (R439). -/
def execFarrierMailboxRequest (r : MailboxReq) (s : State) : Host.Outcome State Fault Refusal :=
  match r with
  | .clearHealth => .next (mailed { s with health := [], uncorrected := 0, badPas := [] })
  | .discardAll a => .next (mailed (discard s .device 0 a fun _ => true))
  | .discardRange a start len =>
    .next (mailed (discard s .device 0 a fun t => len != 0 && t.overlaps start len))
  | .raiseVersion v => .next (mailed { s with fusedVersion := max s.fusedVersion v })
  | .revokeKey k => .next (mailed { s with revoked := k :: s.revoked.filter fun x => x != k })
  | .readHealth => .next { s with reports := s.reports ++ [.health (s.eol ++ s.health ++ [s.uncorrected] ++ s.badPas)] }
  | .setPeer p e =>
    .next (if 4096 ≤ p then { s with reports := s.reports ++ [.refused] }
      else mailed { s with peers := match e with | some a => tset s.peers p a | none => tdel s.peers p })
  | .setWindow base bytes =>
    .next (if 2 ^ 38 < base + bytes then { s with reports := s.reports ++ [.refused] }
      else mailed { s with windowBase := base, windowBytes := bytes })
  | .setPowerCap w =>
    .next (if 3600 < w then { s with reports := s.reports ++ [.refused] } else mailed { s with powerCap := w })
  | .startFirmware asid pc =>
    .next (if s.queueFull || s.fatal || s.image.isNone then { s with reports := s.reports ++ [.refused] } else mailed (startFirmware s asid pc))

/-! ## Fatal errors and reset (R434, R442) -/

/-- What follows the header of a dump (R442): each core's TRAP_VEC, the one CSR that is a core's own (R436), the entries of the resident warps'
frontiers, and the error logs; their form is the implementation's, and the region holds 64 MiB (log entry 13). -/
def dumpBody (s : State) : List Byte :=
  let csrs := (List.range 216).map fun c => (s.core c).trapVec.toNat
  let fronts := s.warps.flatMap fun w => w.2.entries.flatMap fun e => [w.1, e.eid, e.pc.toNat, e.mask.toNat, e.prio]
  let logs := s.eol ++ s.health ++ [s.uncorrected] ++ s.badPas ++ s.events.flatMap fun e => [e.1, e.2]
  (Config.freeDumpForm csrs fronts logs).take (2 ^ 26 - 32)

/-- The bytes of a dump: its header and what follows. -/
def dumpBytes (s : State) (cause pa agent : Nat) : List Byte :=
  let body := dumpBody s
  leOfNat 4 0x504D5544 ++ leOfNat 4 cause ++ leOfNat 8 s.devNs ++ leOfNat 8 pa ++ leOfNat 4 agent ++ leOfNat 4 (32 + body.length) ++ body

/-- FATAL_ERROR (R442): issue stops on every core, a dump goes to DRAM past the L2 if EN is 1, and the module waits in SVC_MODE 11. -/
def execFatalError (cause pa agent : Nat) (s : State) : Host.Outcome State Fault Refusal :=
  if cause = 0 || 4 < cause || s.fatal then .next s
  else
    let t : State := { s with fatal := true, svcMode := 3 }.tell (.fatal cause pa agent)
    if !s.dumpBase.getLsbD 0 then .next t
    else
      let bs := dumpBytes s cause pa agent
      let base := nbits s.dumpBase.toNat 26 12 * 2 ^ 26
      .next { t with
        dram := mputBytes t.dram base bs
        dramPoison := t.dramPoison.filter fun k => k < base / 32 || (base + bs.length) / 32 ≤ k }

/-- RESET (R434): everything returns to its reset value. The host's memory, the fuses and the health counters, which only the
host clears, stay, and so do the messages already given and the model's own fields. -/
def execReset (s : State) : Host.Outcome State Fault Refusal :=
  .next { State.reset with
    schedule := s.schedule, focus := s.focus, fresh := s.fresh, nextId := s.nextId
    hostMem := s.hostMem, fusedVersion := s.fusedVersion, revoked := s.revoked, health := s.health, uncorrected := s.uncorrected, badPas := s.badPas
    eol := s.eol, reports := s.reports, notices := s.notices }

end Sys2Proof.Machine
end

