-- ==== Sys2Proof/Machine/Dispatch.lean ====
section
/-! DEFINITION. Dispatch: one arm per instruction or event, each one direct call of its meaning. -/

namespace Sys2Proof.Machine

def exec (i : Instr) (s : State) : Host.Outcome State Fault Refusal :=
  match i with
  | .nop g => Sys2Proof.Machine.execNop g s
  | .bra g prio off => Sys2Proof.Machine.execBra g prio off s
  | .braU g prio off => Sys2Proof.Machine.execBraU g prio off s
  | .brx g prio treg lu => Sys2Proof.Machine.execBrx g prio treg lu s
  | .call g prio off => Sys2Proof.Machine.execCall g prio off s
  | .callx g prio treg lu => Sys2Proof.Machine.execCallx g prio treg lu s
  | .ret g => Sys2Proof.Machine.execRet g s
  | .land g => Sys2Proof.Machine.execLand g s
  | .join g m => Sys2Proof.Machine.execJoin g m s
  | .leave g m => Sys2Proof.Machine.execLeave g m s
  | .waitm g m => Sys2Proof.Machine.execWaitm g m s
  | .mclr g m => Sys2Proof.Machine.execMclr g m s
  | .trap g n => Sys2Proof.Machine.execTrap g n s
  | .tret g => Sys2Proof.Machine.execTret g s
  | .tretNext g => Sys2Proof.Machine.execTretNext g s
  | .tkill g => Sys2Proof.Machine.execTkill g s
  | .tkillW g => Sys2Proof.Machine.execTkillW g s
  | .wdog g n => Sys2Proof.Machine.execWdog g n s
  | .yield g => Sys2Proof.Machine.execYield g s
  | .exit g => Sys2Proof.Machine.execExit g s
  | .bkpt g n => Sys2Proof.Machine.execBkpt g n s
  | .add f d a b => Sys2Proof.Machine.execAdd f d a b s
  | .addVi f d a imm => Sys2Proof.Machine.execAddVi f d a imm s
  | .sub f d a b => Sys2Proof.Machine.execSub f d a b s
  | .subVi f d a imm => Sys2Proof.Machine.execSubVi f d a imm s
  | .mul f d a b => Sys2Proof.Machine.execMul f d a b s
  | .mulVi f d a imm => Sys2Proof.Machine.execMulVi f d a imm s
  | .mulhi f d a b => Sys2Proof.Machine.execMulhi f d a b s
  | .muladd f d a b c => Sys2Proof.Machine.execMuladd f d a b c s
  | .sum3 f mb mc d a b c => Sys2Proof.Machine.execSum3 f mb mc d a b c s
  | .dot4 f sa sb d a b c => Sys2Proof.Machine.execDot4 f sa sb d a b c s
  | .min f d a b => Sys2Proof.Machine.execMin f d a b s
  | .minVi f d a imm => Sys2Proof.Machine.execMinVi f d a imm s
  | .max f d a b => Sys2Proof.Machine.execMax f d a b s
  | .maxVi f d a imm => Sys2Proof.Machine.execMaxVi f d a imm s
  | .abs f d a => Sys2Proof.Machine.execAbs f d a s
  | .logic f op d a b => Sys2Proof.Machine.execLogic f op d a b s
  | .logicVi f op d a imm => Sys2Proof.Machine.execLogicVi f op d a imm s
  | .plogic g op d a b c => Sys2Proof.Machine.execPlogic g op d a b c s
  | .shl f wrap d a b => Sys2Proof.Machine.execShl f wrap d a b s
  | .shlVi f wrap d a imm => Sys2Proof.Machine.execShlVi f wrap d a imm s
  | .shr f wrap d a b => Sys2Proof.Machine.execShr f wrap d a b s
  | .shrVi f wrap d a imm => Sys2Proof.Machine.execShrVi f wrap d a imm s
  | .funnel f r wrap d a b c => Sys2Proof.Machine.execFunnel f r wrap d a b c s
  | .scadd f sh d a b => Sys2Proof.Machine.execScadd f sh d a b s
  | .bcnt f d a => Sys2Proof.Machine.execBcnt f d a s
  | .lzc f d a => Sys2Proof.Machine.execLzc f d a s
  | .bitrev f d a => Sys2Proof.Machine.execBitrev f d a s
  | .xfld f d a b => Sys2Proof.Machine.execXfld f d a b s
  | .ifld f d a b c => Sys2Proof.Machine.execIfld f d a b c s
  | .mkmask f d a b => Sys2Proof.Machine.execMkmask f d a b s
  | .cmp f op d a b c => Sys2Proof.Machine.execCmp f op d a b c s
  | .cmpVi f op d a imm => Sys2Proof.Machine.execCmpVi f op d a imm s
  | .pick f p d a b => Sys2Proof.Machine.execPick f p d a b s
  | .pickVi f p d a imm => Sys2Proof.Machine.execPickVi f p d a imm s
  | .mov f d a => Sys2Proof.Machine.execMov f d a s
  | .movi g d imm => Sys2Proof.Machine.execMovi g d imm s
  | .fadd f d a b => Sys2Proof.Machine.execFadd f d a b s
  | .faddVi f d a imm => Sys2Proof.Machine.execFaddVi f d a imm s
  | .fmul f d a b => Sys2Proof.Machine.execFmul f d a b s
  | .fmulVi f d a imm => Sys2Proof.Machine.execFmulVi f d a imm s
  | .fma f d a b c => Sys2Proof.Machine.execFma f d a b c s
  | .fmin f d a b => Sys2Proof.Machine.execFmin f d a b s
  | .fminVi f d a imm => Sys2Proof.Machine.execFminVi f d a imm s
  | .fmax f d a b => Sys2Proof.Machine.execFmax f d a b s
  | .fmaxVi f d a imm => Sys2Proof.Machine.execFmaxVi f d a imm s
  | .fcmp g t op u d a b c => Sys2Proof.Machine.execFcmp g t op u d a b c s
  | .fcmpVi g t op u d a imm => Sys2Proof.Machine.execFcmpVi g t op u d a imm s
  | .fclass g t d a => Sys2Proof.Machine.execFclass g t d a s
  | .fabs f d a => Sys2Proof.Machine.execFabs f d a s
  | .fneg f d a => Sys2Proof.Machine.execFneg f d a s
  | .fround f d a => Sys2Proof.Machine.execFround f d a s
  | .fdot2 f d a b c => Sys2Proof.Machine.execFdot2 f d a b c s
  | .fscale f d a b => Sys2Proof.Machine.execFscale f d a b s
  | .f8add f d a b => Sys2Proof.Machine.execF8add f d a b s
  | .f8mul f d a b => Sys2Proof.Machine.execF8mul f d a b s
  | .f8fma f d a b c => Sys2Proof.Machine.execF8fma f d a b c s
  | .f8min f d a b => Sys2Proof.Machine.execF8min f d a b s
  | .f8max f d a b => Sys2Proof.Machine.execF8max f d a b s
  | .recip f d a => Sys2Proof.Machine.execRecip f d a s
  | .rsqrt f d a => Sys2Proof.Machine.execRsqrt f d a s
  | .sqrt f d a => Sys2Proof.Machine.execSqrt f d a s
  | .exp2 f d a => Sys2Proof.Machine.execExp2 f d a s
  | .log2 f d a => Sys2Proof.Machine.execLog2 f d a s
  | .sin f d a => Sys2Proof.Machine.execSin f d a s
  | .cos f d a => Sys2Proof.Machine.execCos f d a s
  | .tanh f d a => Sys2Proof.Machine.execTanh f d a s
  | .cvt f d a => Sys2Proof.Machine.execCvt f d a s
  | .cvti f d a => Sys2Proof.Machine.execCvti f d a s
  | .cvtf f d a => Sys2Proof.Machine.execCvtf f d a s
  | .cvtsr f d a c => Sys2Proof.Machine.execCvtsr f d a c s
  | .mxq f d a => Sys2Proof.Machine.execMxq f d a s
  | .mxdq f d a => Sys2Proof.Machine.execMxdq f d a s
  | .pkcvt f d a b => Sys2Proof.Machine.execPkcvt f d a b s
  | .xlane g la mode p d a b => Sys2Proof.Machine.execXlane g la mode p d a b s
  | .pollMask g d p => Sys2Proof.Machine.execPollMask g d p s
  | .pollAny g d p => Sys2Proof.Machine.execPollAny g d p s
  | .pollAll g d p => Sys2Proof.Machine.execPollAll g d p s
  | .pollSame g d p => Sys2Proof.Machine.execPollSame g d p s
  | .wred g la op d a => Sys2Proof.Machine.execWred g la op d a s
  | .wscan g la ex op d a => Sys2Proof.Machine.execWscan g la ex op d a s
  | .eqmask g la t d a => Sys2Proof.Machine.execEqmask g la t d a s
  | .bytepSel g d a b c => Sys2Proof.Machine.execBytepSel g d a b c s
  | .bytepLut16L g d a b => Sys2Proof.Machine.execBytepLut16L g d a b s
  | .bytepLut16H g d a b => Sys2Proof.Machine.execBytepLut16H g d a b s
  | .quadx g la pat d a => Sys2Proof.Machine.execQuadx g la pat d a s
  | .lead g d => Sys2Proof.Machine.execLead g d s
  | .rng g la p d a => Sys2Proof.Machine.execRng g la p d a s
  | .widr g sel d => Sys2Proof.Machine.execWidr g sel d s
  | .clock g dev d => Sys2Proof.Machine.execClock g dev d s
  | .ptst g d a => Sys2Proof.Machine.execPtst g d a s
  | .ptstClr g d a => Sys2Proof.Machine.execPtstClr g d a s
  | .ld f la split d => Sys2Proof.Machine.execLd f la split d s
  | .st f data dataLu => Sys2Proof.Machine.execSt f data dataLu s
  | .atom f la status d => Sys2Proof.Machine.execAtom f la status d s
  | .red f => Sys2Proof.Machine.execRed f s
  | .lds g la pol cls d a b => Sys2Proof.Machine.execLds g la pol cls d a b s
  | .sst g pol cls a b c => Sys2Proof.Machine.execSst g pol cls a b c s
  | .pref f => Sys2Proof.Machine.execPref f s
  | .ordenter g => Sys2Proof.Machine.execOrdenter g s
  | .ordexit g => Sys2Proof.Machine.execOrdexit g s
  | .fraginOpen g a => Sys2Proof.Machine.execFraginOpen g a s
  | .fraginWave g d => Sys2Proof.Machine.execFraginWave g d s
  | .fraginRead g sel d => Sys2Proof.Machine.execFraginRead g sel d s
  | .fkill g => Sys2Proof.Machine.execFkill g s
  | .covw g d a => Sys2Proof.Machine.execCovw g d a s
  | .bary g d a b c => Sys2Proof.Machine.execBary g d a b c s
  | .flins g d a b c => Sys2Proof.Machine.execFlins g d a b c s
  | .flhead g la d a => Sys2Proof.Machine.execFlhead g la d a s
  | .flnode g la d a => Sys2Proof.Machine.execFlnode g la d a s
  | .flclrInit g a b c => Sys2Proof.Machine.execFlclrInit g a b c s
  | .flclrPix g a => Sys2Proof.Machine.execFlclrPix g a s
  | .flbudgetSet g a b => Sys2Proof.Machine.execFlbudgetSet g a b s
  | .flbudgetGet g d a => Sys2Proof.Machine.execFlbudgetGet g d a s
  | .flbudgetRule g a => Sys2Proof.Machine.execFlbudgetRule g a s
  | .flbudgetRrd g d => Sys2Proof.Machine.execFlbudgetRrd g d s
  | .flmrg g a b c => Sys2Proof.Machine.execFlmrg g a b c s
  | .flmrgOne g a b c => Sys2Proof.Machine.execFlmrgOne g a b c s
  | .rqinit g fl a b => Sys2Proof.Machine.execRqinit g fl a b s
  | .rqstep g la d => Sys2Proof.Machine.execRqstep g la d s
  | .rqhit g la cand sel d => Sys2Proof.Machine.execRqhit g la cand sel d s
  | .rqcommit g => Sys2Proof.Machine.execRqcommit g s
  | .rqcommitEnd g => Sys2Proof.Machine.execRqcommitEnd g s
  | .rqappend g cand d a c => Sys2Proof.Machine.execRqappend g cand d a c s
  | .morton g d a b c => Sys2Proof.Machine.execMorton g d a b c s
  | .bbox g la d a => Sys2Proof.Machine.execBbox g la d a s
  | .bvpack g d a => Sys2Proof.Machine.execBvpack g d a s
  | .umov g d a => Sys2Proof.Machine.execUmov g d a s
  | .umovQ g d a => Sys2Proof.Machine.execUmovQ g d a s
  | .umovQ2s g d a => Sys2Proof.Machine.execUmovQ2s g d a s
  | .umovS2q g d a => Sys2Proof.Machine.execUmovS2q g d a s
  | .umovi g d imm => Sys2Proof.Machine.execUmovi g d imm s
  | .umoviHi g d imm => Sys2Proof.Machine.execUmoviHi g d imm s
  | .uadd f d a b => Sys2Proof.Machine.execUadd f d a b s
  | .uaddUi f d a imm => Sys2Proof.Machine.execUaddUi f d a imm s
  | .usub f d a b => Sys2Proof.Machine.execUsub f d a b s
  | .usubUi f d a imm => Sys2Proof.Machine.execUsubUi f d a imm s
  | .umul f hi d a b => Sys2Proof.Machine.execUmul f hi d a b s
  | .umulUi f hi d a imm => Sys2Proof.Machine.execUmulUi f hi d a imm s
  | .uand f d a b => Sys2Proof.Machine.execUand f d a b s
  | .uandUi f d a imm => Sys2Proof.Machine.execUandUi f d a imm s
  | .uor f d a b => Sys2Proof.Machine.execUor f d a b s
  | .uorUi f d a imm => Sys2Proof.Machine.execUorUi f d a imm s
  | .uxor f d a b => Sys2Proof.Machine.execUxor f d a b s
  | .uxorUi f d a imm => Sys2Proof.Machine.execUxorUi f d a imm s
  | .ushl f d a b => Sys2Proof.Machine.execUshl f d a b s
  | .ushlUi f d a imm => Sys2Proof.Machine.execUshlUi f d a imm s
  | .ushr f d a b => Sys2Proof.Machine.execUshr f d a b s
  | .ushrUi f d a imm => Sys2Proof.Machine.execUshrUi f d a imm s
  | .usetp f op d a b c => Sys2Proof.Machine.execUsetp f op d a b c s
  | .usetpUi f op d a imm => Sys2Proof.Machine.execUsetpUi f op d a imm s
  | .usel g q d a b => Sys2Proof.Machine.execUsel g q d a b s
  | .uselUi g q d a imm => Sys2Proof.Machine.execUselUi g q d a imm s
  | .v2s g mode w64 d a b => Sys2Proof.Machine.execV2s g mode w64 d a b s
  | .s2v g w64 d a => Sys2Proof.Machine.execS2v g w64 d a s
  | .sregR g d sel => Sys2Proof.Machine.execSregR g d sel s
  | .sregW g sel a => Sys2Proof.Machine.execSregW g sel a s
  | .tshape g n a => Sys2Proof.Machine.execTshape g n a s
  | .uld f d => Sys2Proof.Machine.execUld f d s
  | .sdef g a b c => Sys2Proof.Machine.execSdef g a b c s
  | .fence g ord scope => Sys2Proof.Machine.execFence g ord scope s
  | .tfence g sc => Sys2Proof.Machine.execTfence g sc s
  | .tfenceRange g sc a b => Sys2Proof.Machine.execTfenceRange g sc a b s
  | .tfenceAll g sc => Sys2Proof.Machine.execTfenceAll g sc s
  | .bind g size base start len => Sys2Proof.Machine.execBind g size base start len s
  | .unbind g size base => Sys2Proof.Machine.execUnbind g size base s
  | .ipf g a d n => Sys2Proof.Machine.execIpf g a d n s
  | .barSync g q bar a => Sys2Proof.Machine.execBarSync g q bar a s
  | .barArrive g q bar a => Sys2Proof.Machine.execBarArrive g q bar a s
  | .barWait g q bar => Sys2Proof.Machine.execBarWait g q bar s
  | .barp g op d bar b a => Sys2Proof.Machine.execBarp g op d bar b a s
  | .bardrop g bar => Sys2Proof.Machine.execBardrop g bar s
  | .arrivec g ord scope base opb q => Sys2Proof.Machine.execArrivec g ord scope base opb q s
  | .cwait g useTarget acq scope base opb => Sys2Proof.Machine.execCwait g useTarget acq scope base opb s
  | .cwaitb g acq scope base opb => Sys2Proof.Machine.execCwaitb g acq scope base opb s
  | .monitor g base => Sys2Proof.Machine.execMonitor g base s
  | .mwait g => Sys2Proof.Machine.execMwait g s
  | .qpush g base opb q => Sys2Proof.Machine.execQpush g base opb q s
  | .qpop g d base q => Sys2Proof.Machine.execQpop g d base q s
  | .park g d base q => Sys2Proof.Machine.execPark g d base q s
  | .fulfil g base opb q => Sys2Proof.Machine.execFulfil g base opb q s
  | .launch g d a => Sys2Proof.Machine.execLaunch g d a s
  | .vsp g k => Sys2Proof.Machine.execVsp g k s
  | .sget g sel d => Sys2Proof.Machine.execSget g sel d s
  | .sput g sel a => Sys2Proof.Machine.execSput g sel a s
  | .sleep g n => Sys2Proof.Machine.execSleep g n s
  | .progrd g d pg => Sys2Proof.Machine.execProgrd g d pg s
  | .cpy g a => Sys2Proof.Machine.execCpy g a s
  | .cpym g a => Sys2Proof.Machine.execCpym g a s
  | .redv g a => Sys2Proof.Machine.execRedv g a s
  | .cguardClr g n => Sys2Proof.Machine.execCguardClr g n s
  | .cguardSet g n q => Sys2Proof.Machine.execCguardSet g n q s
  | .cguardRd g d n => Sys2Proof.Machine.execCguardRd g d n s
  | .cpres g q pg => Sys2Proof.Machine.execCpres g q pg s
  | .cabort g pg => Sys2Proof.Machine.execCabort g pg s
  | .cabortAll g => Sys2Proof.Machine.execCabortAll g s
  | .tld g col t a b c => Sys2Proof.Machine.execTld g col t a b c s
  | .tst g col t a b c => Sys2Proof.Machine.execTst g col t a b c s
  | .tzero g t b => Sys2Proof.Machine.execTzero g t b s
  | .tcvt g rm satf d a b => Sys2Proof.Machine.execTcvt g rm satf d a b s
  | .msign g cv => Sys2Proof.Machine.execMsign g cv s
  | .msignArm g cv a => Sys2Proof.Machine.execMsignArm g cv a s
  | .msignRd g d cv => Sys2Proof.Machine.execMsignRd g d cv s
  | .mma g cv a b => Sys2Proof.Machine.execMma g cv a b s
  | .mmax g cv a b c => Sys2Proof.Machine.execMmax g cv a b c s
  | .aclr g a b => Sys2Proof.Machine.execAclr g a b s
  | .ald g t a b => Sys2Proof.Machine.execAld g t a b s
  | .ast g t a b => Sys2Proof.Machine.execAst g t a b s
  | .acvt g rm satf t a b => Sys2Proof.Machine.execAcvt g rm satf t a b s
  | .eset g e a => Sys2Proof.Machine.execEset g e a s
  | .esetRd g d e => Sys2Proof.Machine.execEsetRd g d e s
  | .csrr g d csr => Sys2Proof.Machine.execCsrr g d csr s
  | .csrw g csr a => Sys2Proof.Machine.execCsrw g csr a s
  | .halt g => Sys2Proof.Machine.execHalt g s
  | .sealWrite slot v => Sys2Proof.Machine.execSealWrite slot v s
  | .launchRecord => Sys2Proof.Machine.execLaunchRecord s
  | .heldRecordParse => Sys2Proof.Machine.execHeldRecordParse s
  | .preEmpt by' => Sys2Proof.Machine.execPreEmpt by' s
  | .resume by' => Sys2Proof.Machine.execResume by' s
  | .cancel by' => Sys2Proof.Machine.execCancel by' s
  | .launchComplete launch => Sys2Proof.Machine.execLaunchComplete launch s
  | .blockAdmit => Sys2Proof.Machine.execBlockAdmit s
  | .admissionReserve => Sys2Proof.Machine.execAdmissionReserve s
  | .quantumEnd block => Sys2Proof.Machine.execQuantumEnd block s
  | .blockSave try_ => Sys2Proof.Machine.execBlockSave try_ s
  | .blockResume cores => Sys2Proof.Machine.execBlockResume cores s
  | .switchRendezvous block => Sys2Proof.Machine.execSwitchRendezvous block s
  | .switchMove block => Sys2Proof.Machine.execSwitchMove block s
  | .issueClassUpdate block => Sys2Proof.Machine.execIssueClassUpdate block s
  | .icacheFill core part => Sys2Proof.Machine.execIcacheFill core part s
  | .issueSelect core part => Sys2Proof.Machine.execIssueSelect core part s
  | .heldClear warp => Sys2Proof.Machine.execHeldClear warp s
  | .trapDeliver warp entry => Sys2Proof.Machine.execTrapDeliver warp entry s
  | .asyncTrap n => Sys2Proof.Machine.execAsyncTrap n s
  | .watchdog warp => Sys2Proof.Machine.execWatchdog warp s
  | .waitmRelease warp m => Sys2Proof.Machine.execWaitmRelease warp m s
  | .resultArrive warp result => Sys2Proof.Machine.execResultArrive warp result s
  | .poolGrant core part => Sys2Proof.Machine.execPoolGrant core part s
  | .spill core part => Sys2Proof.Machine.execSpill core part s
  | .absentLineRelease warp entry => Sys2Proof.Machine.execAbsentLineRelease warp entry s
  | .commandQueueRelease warp entry => Sys2Proof.Machine.execCommandQueueRelease warp entry s
  | .guardDiscard core cmd => Sys2Proof.Machine.execGuardDiscard core cmd s
  | .copyCommandStart core cmd => Sys2Proof.Machine.execCopyCommandStart core cmd s
  | .copyUnitDone core cmd => Sys2Proof.Machine.execCopyUnitDone core cmd s
  | .copyFault core cmd => Sys2Proof.Machine.execCopyFault core cmd s
  | .cpymDestFault core cmd dest => Sys2Proof.Machine.execCpymDestFault core cmd dest s
  | .matrixCommandStart core cmd => Sys2Proof.Machine.execMatrixCommandStart core cmd s
  | .gangMmaStart core cmd => Sys2Proof.Machine.execGangMmaStart core cmd s
  | .matrixUnitDone core cmd => Sys2Proof.Machine.execMatrixUnitDone core cmd s
  | .matrixCommandComplete core cmd => Sys2Proof.Machine.execMatrixCommandComplete core cmd s
  | .signatureCount warp n => Sys2Proof.Machine.execSignatureCount warp n s
  | .matrixEccError core region n => Sys2Proof.Machine.execMatrixEccError core region n s
  | .rdS msg => Sys2Proof.Machine.execRdS msg s
  | .rdL msg => Sys2Proof.Machine.execRdL msg s
  | .rdN msg => Sys2Proof.Machine.execRdN msg s
  | .ownRq msg => Sys2Proof.Machine.execOwnRq msg s
  | .upg msg => Sys2Proof.Machine.execUpg msg s
  | .wrT msg => Sys2Proof.Machine.execWrT msg s
  | .wrN msg => Sys2Proof.Machine.execWrN msg s
  | .atomicReq msg => Sys2Proof.Machine.execAtomicReq msg s
  | .wb msg => Sys2Proof.Machine.execWb msg s
  | .fwd msg => Sys2Proof.Machine.execFwd msg s
  | .rcl msg => Sys2Proof.Machine.execRcl msg s
  | .inv msg => Sys2Proof.Machine.execInv msg s
  | .grant msg victim => Sys2Proof.Machine.execGrant msg victim s
  | .homeAck msg => Sys2Proof.Machine.execHomeAck msg s
  | .l2MissFill line victim err => Sys2Proof.Machine.execL2MissFill line victim err s
  | .victimForce line victim => Sys2Proof.Machine.execVictimForce line victim s
  | .agentFence agent => Sys2Proof.Machine.execAgentFence agent s
  | .hostMemrd kind line => Sys2Proof.Machine.execHostMemrd kind line s
  | .hostMemwr pa data => Sys2Proof.Machine.execHostMemwr pa data s
  | .bisnpAnswer msg data => Sys2Proof.Machine.execBisnpAnswer msg data s
  | .hostSnoop core line invalidate => Sys2Proof.Machine.execHostSnoop core line invalidate s
  | .cwaitRetest warp entry => Sys2Proof.Machine.execCwaitRetest warp entry s
  | .arrivecRankRelease warp entry => Sys2Proof.Machine.execArrivecRankRelease warp entry s
  | .monitorRegistered warp entry => Sys2Proof.Machine.execMonitorRegistered warp entry s
  | .monitorTimeout warp => Sys2Proof.Machine.execMonitorTimeout warp s
  | .queueSlotStep warp entry => Sys2Proof.Machine.execQueueSlotStep warp entry s
  | .parkRetest core addr => Sys2Proof.Machine.execParkRetest core addr s
  | .sleepWake warp entry => Sys2Proof.Machine.execSleepWake warp entry s
  | .launchAnswer warp entry => Sys2Proof.Machine.execLaunchAnswer warp entry s
  | .fragmentDelivery warp entry pick => Sys2Proof.Machine.execFragmentDelivery warp entry pick s
  | .ordenterRelease warp lane => Sys2Proof.Machine.execOrdenterRelease warp lane s
  | .ordexitRelease warp lane => Sys2Proof.Machine.execOrdexitRelease warp lane s
  | .gateEntryFree core entry => Sys2Proof.Machine.execGateEntryFree core entry s
  | .flclrRun core cmd => Sys2Proof.Machine.execFlclrRun core cmd s
  | .rayStep core cmd => Sys2Proof.Machine.execRayStep core cmd s
  | .peerTimeout peer => Sys2Proof.Machine.execPeerTimeout peer s
  | .peerAck id refused => Sys2Proof.Machine.execPeerAck id refused s
  | .readySet bit => Sys2Proof.Machine.execReadySet bit s
  | .coreReset t => Sys2Proof.Machine.execCoreReset t s
  | .overcurrent on => Sys2Proof.Machine.execOvercurrent on s
  | .thermalThrottle => Sys2Proof.Machine.execThermalThrottle s
  | .thermalShutdown => Sys2Proof.Machine.execThermalShutdown s
  | .farrierWatchdogMiss => Sys2Proof.Machine.execFarrierWatchdogMiss s
  | .firmwareVerify data version signed => Sys2Proof.Machine.execFirmwareVerify data version signed s
  | .spdmRequest nonce => Sys2Proof.Machine.execSpdmRequest nonce s
  | .healthUpdate hours corrected => Sys2Proof.Machine.execHealthUpdate hours corrected s
  | .fatalError cause pa agent => Sys2Proof.Machine.execFatalError cause pa agent s
  | .reset => Sys2Proof.Machine.execReset s
  | .remoteWindowAccess off k => Sys2Proof.Machine.execRemoteWindowAccess off k s
  | .farrierMailboxRequest r => Sys2Proof.Machine.execFarrierMailboxRequest r s
  | .haltedCoreRestart core => Sys2Proof.Machine.execHaltedCoreRestart core s
  | .writeAcknowledged msg => Sys2Proof.Machine.execWriteAcknowledged msg s
  | .translationWalk core asid va => Sys2Proof.Machine.execTranslationWalk core asid va s

end Sys2Proof.Machine
end

