-- ==== Sys2Proof/Machine/Step.lean ====
section
/-! DEFINITION. One step of the machine: the issuing split's instruction, else a pending asynchronous trap, else a re-read that
a parked split owes, else the next scheduled event, else an issue turn of the partition in focus (log entry 1). -/

namespace Sys2Proof.Machine

/-- The step of a split that has been selected: fetch, decode, execute (R10). -/
def stepIssue (s : State) (g : Nat) (e : Entry) : Host.Outcome State Fault Refusal :=
  match fetchWord s g e.pc with
  | none => .next (fetchMiss s g e.pc)
  | some word =>
    match decodeAt s g word with
    | .ok i => exec i s
    | .error cause => .next (decodeTrap s g e cause word)

/-- The turn of the issuing split's partition ends with the step (R142). -/
def endTurn (k : Nat) (r : Host.Outcome State Fault Refusal) : Host.Outcome State Fault Refusal :=
  match r with
  | .next s => .next (s.settleTurn k)
  | .fault f => .fault f
  | .refused x => .refused x

/-- A partition looks at a ready entry's next instruction: the entry may turn out to be pending (R137, R140). -/
def askEntry (g eid : Nat) (s : State) : State :=
  match ((s.warp? g).bind fun w => w.entry? eid).filter fun e => e.st == .ready with
  | none => s
  | some e =>
    match (fetchWord s g e.pc).map fun word => decodeAt s g word with
    | some (.ok i) =>
      match exec i { s.modWarp g fun w => w.modEntry eid fun x => { x with st := .asked } with cur := some (g, eid) } with
      | .next t => t
      | _ => s
    | _ => s

/-- A partition looks at every ready entry of its warps. -/
def askPart (k : Nat) (s : State) : State :=
  forEach (s.partWarps k) s fun s x => forEach x.2.entries s fun s e => askEntry x.1 e.eid s

/-- Issue turns of a cc: two for each partition of the device (R140). -/
def turnCount : Nat := 216 * 16 * 2

/-- The turn of the partition in focus; a cc passes before the first (log entry 1). -/
def focusTurn (s : State) : Host.Outcome State Fault Refusal :=
  let k := s.focus / 2
  let t := { (if s.focus = 0 then s.elapse 1 else s) with focus := (s.focus + 1) % turnCount }
  execIssueSelect (k / 16) (k % 16) (askPart k t)

/-- A scheduled event; a partition that is to choose looks at its entries first. -/
def stepEvent (i : Instr) (s : State) : Host.Outcome State Fault Refusal :=
  match i with
  | .issueSelect core part => exec i (askPart (16 * core + part) s)
  | i => exec i s

/-- One step. -/
def step (s : State) : Host.Outcome State Fault Refusal :=
  if !s.powered then
    match s.schedule with
    | (dt, .reset) :: rest => execReset ({ s with schedule := rest }.pass dt)
    | _ => .fault .poweredOff
  else
    match s.cur with
    | some _ =>
      match s.issuing with
      | some (g, _, e) => endTurn (partOf g) (stepIssue s g e)
      | none => .next { s with cur := none }
    | none =>
      match s.asyncs, s.retests.find? (retestOpen s), s.schedule with
      | _ :: _, _, _ => execAsyncTrap 0 s
      | [], some r, _ => .next (s.retest r)
      | [], none, (dt, ev) :: rest => stepEvent ev ({ s with schedule := rest }.elapse dt)
      | [], none, [] => focusTurn s

/-- The state with a word placed where the next step fetches its instruction; a state with no split about to issue gets one
(log entry 8). -/
def State.withFetchWord (s : State) (nbits w : Nat) : State :=
  let word : DWord := BitVec.ofNat 64 (w % 2 ^ nbits)
  let s := { s with powered := true }
  (match s.issuing with
    | some _ => s
    | none => s.withSplit (isSystemWord word.toNat)).placeWord word

end Sys2Proof.Machine
end

