-- ==== Sys2Proof/Safety.lean ====
section
/-! DEFINITION. What counts as a well-formed state, and the terms in which the statements speak: a split that can issue at once,
where its lanes stand afterwards, and what an instruction leaves alone. -/

namespace Sys2Proof.Machine

/-- Every memory of the machine is in canonical form. -/
def State.memWf (s : State) : Bool :=
  Memory.wf s.dram && Memory.wf s.hostMem && s.blocks.all fun b => Memory.wf b.2.spad

/-! ## A split that can issue at once -/

/-- Warp g has the issuing split e, its watchdog is off, none of its results is outstanding (R137), none of its registers is
spilled (R182), and no last-use bit is held back (R172). -/
structure Calm (s : State) (g : Nat) (w : Warp) (e : Entry) : Prop where
  split   : s.issuing = some (g, w, e)
  lanes   : e.mask ≠ 0
  alone   : ∀ x ∈ w.entries, x.eid = e.eid → x = e
  results : w.results = []
  held    : w.heldFrees = []
  spilled : w.spilled = 0
  budget  : w.budget = none

/-- The register pool can grant what an instruction of the issuing split needs, and no reserved request goes before it (R179, R183). -/
def Room (s : State) (g : Nat) (w : Warp) (o : Opnds) : Prop :=
  poolNeed w o = [] ∨ ∀ e, s.issuing = some (g, w, e) → mayGrant s g w e (poolNeed w o).length = true

/-- The homes have taken the access of an instruction whose engine acts on device words: its turn at their slices, and the recall of the words where
a bank ALU acts on them (R263, R265, R272; log entry 17). -/
def State.engaged (s : State) (g : Nat) (o : Opnds) : State :=
  if o.home.isEmpty then s
  else if o.ask == .at then s.aluTaken (coreOf g) o.home else s.homeTaken (coreOf g) o.home

/-- The context in which a lane instruction executes: the lanes that pass its guard, and those with a poisoned one (R30). -/
def laneCtx (g : Nat) (w : Warp) (e : Entry) (gd : Guard) : Ctx :=
  { g := g, e := e, lanes := e.mask, act := (guardLanes w gd e.mask).1, pg := (guardLanes w gd e.mask).2 }

/-- The context of a uniform instruction whose guard is true (R205). -/
def uniCtx (g : Nat) (e : Entry) : Ctx := { g := g, e := e, lanes := e.mask, act := e.mask, pg := 0 }

/-- The context of a lane instruction's effect: lanes whose poisoned guard has trapped are no longer its concern. -/
def bodyCtx (kind : GuardKind) (g : Nat) (w : Warp) (e : Entry) (gd : Guard) : Ctx :=
  { laneCtx g w e gd with pg := if kind == .traps then 0 else (laneCtx g w e gd).pg }

/-- The fate of lanes whose guard predicate is poisoned, where that traps (R144). -/
def guardFate (kind : GuardKind) (pg : LaneMask) : Fates := if kind == .traps then [(pg, .trap (poisonTrap 0))] else []

/-- The guard of a uniform instruction is true (R205). -/
def Warp.uniTrue (w : Warp) (gd : Guard) : Prop := (w.qget gd.n != gd.neg) = true

/-! ## Where lanes stand -/

/-- Lane l is at pc, ready to issue or waiting for a result. -/
def Warp.runs (w : Warp) (l : Nat) (pc : DWord) : Prop := ∃ x ∈ w.entries, x.mask.getLsbD l = true ∧ x.pc = pc ∧ x.mergeable = true

/-- Lane l is parked on a wait at the instruction at pc. -/
def Warp.parks (w : Warp) (l : Nat) (pc : DWord) (k : Wait) : Prop := ∃ x ∈ w.entries, x.mask.getLsbD l = true ∧ x.pc = pc ∧ x.st = .parked k

/-- Lane l stands in an entry in state trap at pc with priority 63 (R154). -/
def Warp.atHandler (w : Warp) (l : Nat) (pc : DWord) : Prop :=
  ∃ x ∈ w.entries, x.mask.getLsbD l = true ∧ x.pc = pc ∧ x.prio = 63 ∧ x.st = .trap

/-- The split e of warp g goes on behind its instruction (R137, R138, R141, R142): its entry is ready at PC + 8, the other ready
entries of the warp age, entries at one PC merge, WAITM is tested, and the partition looks at its escape holder and notes that its choice has
issued (R142, R180). -/
def State.passed (s : State) (g : Nat) (e : Entry) : State :=
  (s.modWarp g fun w => ((w.aged e.eid s.now).stepOff e 0).tidy).idle.issueDone (partOf g)

/-- The same where some lanes of the split have a fate of their own (R137, R145, R154, R161): they go to another PC, park, trap or
end; the others stand at PC + 8. -/
def State.stepped (s : State) (g : Nat) (e : Entry) (fs : Fates) : State :=
  (settle (s.modWarp g fun w => w.aged e.eid s.now) g e fs).idle.issueDone (partOf g)

/-- The state in which an instruction's effect takes place: the entry of its split is marked as issuing. -/
def State.begun (s : State) (g : Nat) (e : Entry) : State := s.modWarp g fun w => w.modEntry e.eid fun x => { x with st := .issuing }

/-- The last-use bits of an instruction whose lanes have fates (R172): they act unless a lane traps or is to execute it again. -/
def Warp.spent (w : Warp) (lim : Nat) (e : Entry) (o : Opnds) (fs : Fates) (done : LaneMask) : Warp :=
  let trapped := fateLanes fs Fate.isTrap
  let again := fateLanes fs Fate.isAgain
  w.lastUseHeld lim e.pc o e.mask again (done &&& ~~~ trapped &&& ~~~ again) (trapped != 0)

/-- Counts of reads of unmapped v registers and of writes beyond the ceiling, where a lane is active (R169, R173). -/
def State.counted (s : State) (w : Warp) (o : Opnds) (act : LaneMask) : State :=
  if act = 0 then s
  else (s.count .unmappedRead (o.vr.filter fun r => !(w.isMapped r) && !(w.isSpilled r)).length).count
    .registerRange (o.vw.filter fun r => w.ceil ≤ r).length

/-- The results that an instruction leaves are its own, and still outstanding. -/
def Warp.ownResults (w : Warp) (lim : Nat) : Prop :=
  ∀ r ∈ w.results, lim ≤ r.id ∧ r.lanes ≠ [] ∧ ∀ l ∈ r.lanes, (l.2.left == 0 && l.2.vals.isSome) = false

/-! ## What stays -/

/-- From s to t only warp g changes, besides the records of the issue: the partition's own, the names given and the event counters. -/
def OnlyWarp (s t : State) (g : Nat) : Prop :=
  t = { s with warps := t.warps, parts := t.parts, cur := none, nextId := t.nextId, events := t.events } ∧
    ∀ h, h ≠ g → t.warp? h = s.warp? h

/-- From w to w' only v and p registers, flags and results change, besides the frontier, the record of released entries and the ages. -/
def OnlyLaneRegs (w w' : Warp) : Prop :=
  w' = { w with v := w'.v, mapped := w'.mapped, pv := w'.pv, pp := w'.pp, fflags := w'.fflags, due := w'.due, results := w'.results,
                entries := w'.entries, left := w'.left, age := 0, lastIssue := w'.lastIssue }

/-- w' is w but for the frontier, the record of the entries that a WAITM test released, and the ages. -/
def OnlyFrontier (w w' : Warp) : Prop := w' = { w with entries := w'.entries, left := w'.left, age := 0, lastIssue := w'.lastIssue }

/-! ## Lane instructions of groups 0x1 to 0x4 and the helpers of group 0x8 -/

/-- A lane instruction as R187 shapes it: guard, lookahead, the registers it names, and what it writes in a lane. -/
structure LaneForm where
  g   : Guard
  la  : Nat
  o   : Opnds
  val : State → Ctx → Warp → Nat → LaneOut

/-- The instruction as the model runs it. -/
def LaneForm.run (x : LaneForm) (s : State) : Host.Outcome State Fault Refusal := laneOp s x.g x.la x.o x.val

/-- What one lane's results put into v register r, if they write it; of two writes the later one stands. -/
def LaneOut.vAt (x : LaneOut) (r : Nat) : Option LaneVal :=
  (x.v.reverse.find? fun y => y.1 ≤ r && r < y.1 + y.2.1).map fun y =>
    { bits := BitVec.ofNat 32 (y.2.2.1 / 2 ^ (32 * (r - y.1))), poison := y.2.2.2 }

/-- What they put into p register r. -/
def LaneOut.pAt (x : LaneOut) (r : Nat) : Option (Bool × Bool) := (x.p.reverse.find? fun y => y.1 == r).map fun y => y.2

/-- The destinations and values of one lane's results, in order. -/
def LaneOut.words (x : LaneOut) : List (Dest × DWord × Bool) :=
  (x.v.flatMap fun y => (List.range y.2.1).map fun i => (Dest.v (y.1 + i), BitVec.ofNat 64 (nbits y.2.2.1 (32 * i) 32), y.2.2.2)) ++
    x.p.map fun y => (Dest.p y.1, if y.2.1 then 1 else 0, y.2.2)

/-- Last-use frees lane l of register r (R172): every lane of a source that is no destination; of a destination, the lanes that
the instruction did not write. -/
def LaneForm.frees (x : LaneForm) (done : LaneMask) (r l : Nat) : Bool :=
  x.o.lu.contains r && (!x.o.vw.contains r || done == 0 || x.la != 0 || !done.getLsbD l)

/-- Lane l of v register r after the instruction (R169, R171, R172, R176, R185). -/
def LaneForm.vAfter (x : LaneForm) (s : State) (c : Ctx) (w : Warp) (r l : Nat) : LaneVal :=
  if x.frees (c.act ||| c.pg) r l then .unmapped
  else if c.act.getLsbD l && x.la == 0 && r < w.ceil then ((x.val s c w l).vAt r).getD (w.vget r l)
  else if c.pg.getLsbD l && x.o.vw.contains r && r < w.ceil then { bits := (w.vget r l).bits, poison := true }
  else w.vget r l

/-- Lane l of p register r after the instruction: value and poison; p7 takes no write (R168). -/
def LaneForm.pAfter (x : LaneForm) (s : State) (c : Ctx) (w : Warp) (r l : Nat) : Bool × Bool :=
  let old := (w.pget r l, w.ppoison r l)
  if c.act.getLsbD l && x.la == 0 && r < 7 then ((x.val s c w l).pAt r).getD old
  else if c.pg.getLsbD l && x.o.pw.contains r && r < 7 then (w.pget r l, true)
  else old

/-- The result that an instruction with LA > 0 leaves outstanding: its values arrive when the window closes (R185). -/
def LaneForm.pending (x : LaneForm) (s : State) (c : Ctx) (w : Warp) : List Result :=
  if x.la = 0 then []
  else
    match lanesOf c.act with
    | [] => []
    | l :: r =>
      [{ id := s.nextId, dests := (x.val s c w l).words.map fun e => e.1, done := true
         lanes := (l :: r).map fun k => (k, { left := x.la, vals := some ((x.val s c w k).words.map fun e => e.2) }) }]

/-- The flags that the active lanes raise, which a clear leaves set until the instruction retires (R72, R217). -/
def LaneForm.raised (x : LaneForm) (s : State) (c : Ctx) (w : Warp) : Word :=
  (lanesOf c.act).foldl (fun f l => f ||| (x.val s c w l).flags) 0

/-- The warp after the instruction: its registers, flags and outstanding results, and every lane of the split past it. -/
def LaneForm.After (x : LaneForm) (s : State) (c : Ctx) (w w' : Warp) : Prop :=
  (∀ r l, r < 256 → l < 32 → w'.vget r l = x.vAfter s c w r l) ∧
  (∀ r l, l < 32 → (w'.pget r l, w'.ppoison r l) = x.pAfter s c w r l) ∧
  w'.fflags = (lanesOf c.act).foldl (fun f l => f ||| (x.val s c w l).flags) w.fflags ∧
  w'.due = (w.raise s.now (splitLatency s c) (x.raised s c w)).due ∧
  w'.results = x.pending s c w ∧
  (∀ l, c.lanes.getLsbD l = true → w'.runs l (c.e.pc + 8)) ∧
  OnlyLaneRegs w w'

/-! ## The lane instructions of groups 0x1 to 0x4 (R187–R202) -/

/-- A form with one, two or three v sources of given widths and a v destination: its value, and poison from any source (R176). -/
def LaneForm.v1 (g : Guard) (a : Src) (na d n : Nat) (f : Nat → Nat) : LaneForm :=
  { g := g, la := 0, o := (srcOpnds [(a, na)]).toV d n
    val := fun _ _ w l =>
      let x := vread w a na l
      vout d n (f x.1) x.2 }
def LaneForm.v2 (g : Guard) (a : Src) (na : Nat) (b : Src) (nb d n : Nat) (f : Nat → Nat → Nat) : LaneForm :=
  { g := g, la := 0, o := (srcOpnds [(a, na), (b, nb)]).toV d n
    val := fun _ _ w l =>
      let x := vread w a na l
      let y := vread w b nb l
      vout d n (f x.1 y.1) (x.2 || y.2) }
def LaneForm.v3 (g : Guard) (a : Src) (na : Nat) (b : Src) (nb : Nat) (c : Src) (nc d n : Nat) (f : Nat → Nat → Nat → Nat) : LaneForm :=
  { g := g, la := 0, o := (srcOpnds [(a, na), (b, nb), (c, nc)]).toV d n
    val := fun _ _ w l =>
      let x := vread w a na l
      let y := vread w b nb l
      let z := vread w c nc l
      vout d n (f x.1 y.1 z.1) (x.2 || y.2 || z.2) }

/-- The same with flags, which a lane with a poisoned source does not raise (R72), and with lookahead. -/
def LaneForm.f1 (g : Guard) (la : Nat) (a : Src) (na d n : Nat) (f : Nat → Nat × Word) : LaneForm :=
  { g := g, la := la, o := (srcOpnds [(a, na)]).toV d n
    val := fun _ _ w l =>
      let x := vread w a na l
      fout d n x.2 (f x.1) }
def LaneForm.f2 (g : Guard) (la : Nat) (a : Src) (na : Nat) (b : Src) (nb d n : Nat) (f : Nat → Nat → Nat × Word) : LaneForm :=
  { g := g, la := la, o := (srcOpnds [(a, na), (b, nb)]).toV d n
    val := fun _ _ w l =>
      let x := vread w a na l
      let y := vread w b nb l
      fout d n (x.2 || y.2) (f x.1 y.1) }
def LaneForm.f3 (g : Guard) (la : Nat) (a : Src) (na : Nat) (b : Src) (nb : Nat) (c : Src) (nc d n : Nat) (f : Nat → Nat → Nat → Nat × Word) : LaneForm :=
  { g := g, la := la, o := (srcOpnds [(a, na), (b, nb), (c, nc)]).toV d n
    val := fun _ _ w l =>
      let x := vread w a na l
      let y := vread w b nb l
      let z := vread w c nc l
      fout d n (x.2 || y.2 || z.2) (f x.1 y.1 z.1) }

/-- A conversion: any sources, one v destination (R194). -/
def LaneForm.cv (f : CvtF) (l : List (Src × Nat)) (d n : Nat) (op : Warp → Nat → Nat × Word) : LaneForm :=
  { g := f.g, la := f.la, o := (srcOpnds l).toV d n
    val := fun _ _ w k => fout d n (l.any fun x => (vread w x.1 x.2 k).2) (op w k) }

/-- A form that writes one p register. -/
def LaneForm.p (g : Guard) (o : Opnds) (d : Nat) (val : Ctx → Warp → Nat → LaneOut) : LaneForm :=
  { g := g, la := 0, o := o.toP d, val := fun _ c w l => val c w l }

/-- The forms of the integer, floating-point, special-function, conversion and cross-lane instructions: what each reads, writes
and computes in a lane. -/
inductive LaneSpec : Instr → LaneForm → Prop
  | add (f d a b) : LaneSpec (.add f d a b) (.v2 f.g a (ityRegs f.t) b (ityRegs f.t) d (ityRegs f.t) (addVal f))
  | addVi (f d a imm) : LaneSpec (.addVi f d a imm) (.v1 f.g a (ityRegs f.t) d (ityRegs f.t) fun x => addVal f x (immInt imm (ityWidth f.t)))
  | sub (f d a b) : LaneSpec (.sub f d a b) (.v2 f.g a (ityRegs f.t) b (ityRegs f.t) d (ityRegs f.t) (subVal f))
  | subVi (f d a imm) : LaneSpec (.subVi f d a imm) (.v1 f.g a (ityRegs f.t) d (ityRegs f.t) fun x => subVal f x (immInt imm (ityWidth f.t)))
  | mul (f d a b) : LaneSpec (.mul f d a b) (.v2 f.g a (ityRegs f.t) b (ityRegs f.t) d (ityRegs f.t) (mulVal' f))
  | mulVi (f d a imm) : LaneSpec (.mulVi f d a imm) (.v1 f.g a (ityRegs f.t) d (ityRegs f.t) fun x => mulVal' f x (immInt imm (ityWidth f.t)))
  | mulhi (f d a b) : LaneSpec (.mulhi f d a b) (.v2 f.g a (ityRegs f.t) b (ityRegs f.t) d (ityRegs f.t) (mulhiVal f))
  | muladd (f d a b c) : LaneSpec (.muladd f d a b c)
      (.v3 f.g a (ityRegs f.t) b (ityRegs f.t) c (ityRegs f.t) d (ityRegs f.t) fun x y z => elemwise3 f.t f.sat (fun x y z => x * y + z) x y z)
  | sum3 (f mb mc d a b c) : LaneSpec (.sum3 f mb mc d a b c)
      (.v3 f.g a (ityRegs f.t) b (ityRegs f.t) c (ityRegs f.t) d (ityRegs f.t) (sum3Val f mb mc))
  | dot4 (f sa sb d a b c) : LaneSpec (.dot4 f sa sb d a b c) (.v3 f.g a 1 b 1 c 1 d 1 (dot4Val f sa sb))
  | min (f d a b) : LaneSpec (.min f d a b) (.v2 f.g a (ityRegs f.t) b (ityRegs f.t) d (ityRegs f.t) (minVal f))
  | minVi (f d a imm) : LaneSpec (.minVi f d a imm) (.v1 f.g a (ityRegs f.t) d (ityRegs f.t) fun x => minVal f x (immInt imm (ityWidth f.t)))
  | max (f d a b) : LaneSpec (.max f d a b) (.v2 f.g a (ityRegs f.t) b (ityRegs f.t) d (ityRegs f.t) (maxVal f))
  | maxVi (f d a imm) : LaneSpec (.maxVi f d a imm) (.v1 f.g a (ityRegs f.t) d (ityRegs f.t) fun x => maxVal f x (immInt imm (ityWidth f.t)))
  | abs (f d a) : LaneSpec (.abs f d a) (.v1 f.g a (ityRegs f.t) d (ityRegs f.t) (absVal f))
  | logicOne (f op d a b) (h : op = .not ∨ op = .pass) : LaneSpec (.logic f op d a b)
      (.v1 f.g a (ityRegs f.t) d (ityRegs f.t) fun x => logicVal op (ityWidth f.t) x 0)
  | logicTwo (f op d a b) (h : op ≠ .not ∧ op ≠ .pass) : LaneSpec (.logic f op d a b)
      (.v2 f.g a (ityRegs f.t) b (ityRegs f.t) d (ityRegs f.t) (logicVal op (ityWidth f.t)))
  | logicVi (f op d a imm) : LaneSpec (.logicVi f op d a imm)
      (.v1 f.g a (ityRegs f.t) d (ityRegs f.t) fun x => logicVal op (ityWidth f.t) x (immInt imm (ityWidth f.t)))
  | plogic (g op d a b c) : LaneSpec (.plogic g op d a b c)
      (.p g { pr := if op == .not || op == .pass then [a, c] else [a, b, c] } d fun _ w l =>
        { p := [(d, logicBool op (w.pget a l) (!(op == .not || op == .pass) && w.pget b l) && w.pget c l,
            w.ppoison a l || (!(op == .not || op == .pass) && w.ppoison b l) || w.ppoison c l)] })
  | shl (f wrap d a b) : LaneSpec (.shl f wrap d a b) (.v2 f.g a (ityRegs f.t) b 1 d (ityRegs f.t) (shlVal f wrap))
  | shlVi (f wrap d a imm) : LaneSpec (.shlVi f wrap d a imm) (.v1 f.g a (ityRegs f.t) d (ityRegs f.t) fun x => shlVal f wrap x (immInt imm (ityWidth f.t)))
  | shr (f wrap d a b) : LaneSpec (.shr f wrap d a b) (.v2 f.g a (ityRegs f.t) b 1 d (ityRegs f.t) (shrVal f wrap))
  | shrVi (f wrap d a imm) : LaneSpec (.shrVi f wrap d a imm) (.v1 f.g a (ityRegs f.t) d (ityRegs f.t) fun x => shrVal f wrap x (immInt imm (ityWidth f.t)))
  | funnel (f r wrap d a b c) : LaneSpec (.funnel f r wrap d a b c) (.v3 f.g a 1 b 1 c 1 d 1 (funnelVal f r wrap))
  | scadd (f sh d a b) : LaneSpec (.scadd f sh d a b) (.v2 f.g a 2 b 1 d 2 (scaddVal f sh))
  | bcnt (f d a) : LaneSpec (.bcnt f d a) (.v1 f.g a (ityRegs f.t) d 1 (popcount (ityWidth f.t)))
  | lzc (f d a) : LaneSpec (.lzc f d a) (.v1 f.g a (ityRegs f.t) d 1 (lzcount (ityWidth f.t)))
  | bitrev (f d a) : LaneSpec (.bitrev f d a) (.v1 f.g a (ityRegs f.t) d (ityRegs f.t) (bitrevVal (ityWidth f.t)))
  | xfld (f d a b) : LaneSpec (.xfld f d a b) (.v2 f.g a (ityRegs f.t) b 1 d (ityRegs f.t) (xfldVal f))
  | ifld (f d a b c) : LaneSpec (.ifld f d a b c) (.v3 f.g a (ityRegs f.t) b (ityRegs f.t) c 1 d (ityRegs f.t) (ifldVal f))
  | mkmask (f d a b) : LaneSpec (.mkmask f d a b) (.v2 f.g a 1 b 1 d (ityRegs f.t) (mkmaskVal f))
  | cmp (f op d a b c) : LaneSpec (.cmp f op d a b c)
      { g := f.g, la := 0, o := ((srcOpnds [(a, ityRegs f.t), (b, ityRegs f.t)]).toP d).fromP c
        val := fun _ _ w l =>
          let x := vread w a (ityRegs f.t) l
          let y := vread w b (ityRegs f.t) l
          { p := [(d, cmpVal f.t op x.1 y.1 && w.pget c l, x.2 || y.2 || w.ppoison c l)] } }
  | cmpVi (f op d a imm) : LaneSpec (.cmpVi f op d a imm)
      (.p f.g (srcOpnds [(a, ityRegs f.t)]) d fun _ w l =>
        let x := vread w a (ityRegs f.t) l
        { p := [(d, cmpVal f.t op x.1 (immInt imm (ityWidth f.t)), x.2)] })
  | pick (f p d a b) : LaneSpec (.pick f p d a b)
      { g := f.g, la := 0, o := ((srcOpnds [(a, ityRegs f.t), (b, ityRegs f.t)]).toV d (ityRegs f.t)).fromP p
        val := fun _ _ w l =>
          let r := pickVal w p l (vread w a (ityRegs f.t) l) (vread w b (ityRegs f.t) l)
          vout d (ityRegs f.t) r.1 r.2 }
  | pickVi (f p d a imm) : LaneSpec (.pickVi f p d a imm)
      { g := f.g, la := 0, o := ((srcOpnds [(a, ityRegs f.t)]).toV d (ityRegs f.t)).fromP p
        val := fun _ _ w l =>
          let r := pickVal w p l (vread w a (ityRegs f.t) l) (immInt imm (ityWidth f.t), false)
          vout d (ityRegs f.t) r.1 r.2 }
  | mov (f d a) : LaneSpec (.mov f d a) (.v1 f.g a (ityRegs f.t) d (ityRegs f.t) fun x => x)
  | movi (g d imm) : LaneSpec (.movi g d imm) { g := g, la := 0, o := ({} : Opnds).toV d 1, val := fun _ _ _ _ => vout d 1 (imm % 2 ^ 32) false }
  | fadd (f d a b) : LaneSpec (.fadd f d a b) (.f2 f.g f.la a (ftyRegs f.t) b (ftyRegs f.t) d (ftyRegs f.t) (fp2Val f opAdd))
  | faddVi (f d a imm) : LaneSpec (.faddVi f d a imm) (.f1 f.g f.la a (ftyRegs f.t) d (ftyRegs f.t) fun x => fp2Val f opAdd x (fpImm f.t imm))
  | fmul (f d a b) : LaneSpec (.fmul f d a b) (.f2 f.g f.la a (ftyRegs f.t) b (ftyRegs f.t) d (ftyRegs f.t) (fp2Val f opMul))
  | fmulVi (f d a imm) : LaneSpec (.fmulVi f d a imm) (.f1 f.g f.la a (ftyRegs f.t) d (ftyRegs f.t) fun x => fp2Val f opMul x (fpImm f.t imm))
  | fma (f d a b c) : LaneSpec (.fma f d a b c)
      (.f3 f.g f.la a (ftyRegs f.t) b (ftyRegs f.t) c (ftyRegs f.t) d (ftyRegs f.t) (fp3Val f opFma))
  | fmin (f d a b) : LaneSpec (.fmin f d a b) (.f2 f.g f.la a (ftyRegs f.t) b (ftyRegs f.t) d (ftyRegs f.t) (fp2Val f opMin))
  | fminVi (f d a imm) : LaneSpec (.fminVi f d a imm) (.f1 f.g f.la a (ftyRegs f.t) d (ftyRegs f.t) fun x => fp2Val f opMin x (fpImm f.t imm))
  | fmax (f d a b) : LaneSpec (.fmax f d a b) (.f2 f.g f.la a (ftyRegs f.t) b (ftyRegs f.t) d (ftyRegs f.t) (fp2Val f opMax))
  | fmaxVi (f d a imm) : LaneSpec (.fmaxVi f d a imm) (.f1 f.g f.la a (ftyRegs f.t) d (ftyRegs f.t) fun x => fp2Val f opMax x (fpImm f.t imm))
  | fcmp (g t op u d a b c) : LaneSpec (.fcmp g t op u d a b c)
      { g := g, la := 0, o := ((srcOpnds [(a, ftyRegs t), (b, ftyRegs t)]).toP d).fromP c
        val := fun _ _ w l =>
          let x := vread w a (ftyRegs t) l
          let y := vread w b (ftyRegs t) l
          let p := x.2 || y.2 || w.ppoison c l
          let r := fcmpVal t op u (fel t x.1 0) (fel t y.1 0)
          { p := [(d, r.1 && w.pget c l, p)], flags := laneFlags p (r.2.bits 0) } }
  | fcmpVi (g t op u d a imm) : LaneSpec (.fcmpVi g t op u d a imm)
      (.p g (srcOpnds [(a, ftyRegs t)]) d fun _ w l =>
        let x := vread w a (ftyRegs t) l
        let r := fcmpVal t op u (fel t x.1 0) (fel t (fpImm t imm) 0)
        { p := [(d, r.1, x.2)], flags := laneFlags x.2 (r.2.bits 0) })
  | fclass (g t d a) : LaneSpec (.fclass g t d a) (.v1 g a (ftyRegs t) d 1 fun x => fclassVal t (fel t x 0))
  | fabs (f d a) : LaneSpec (.fabs f d a) (.f1 f.g f.la a (ftyRegs f.t) d (ftyRegs f.t) (fp1Val f (fpSign true)))
  | fneg (f d a) : LaneSpec (.fneg f d a) (.f1 f.g f.la a (ftyRegs f.t) d (ftyRegs f.t) (fp1Val f (fpSign false)))
  | fround (f d a) : LaneSpec (.fround f d a) (.f1 f.g f.la a (ftyRegs f.t) d (ftyRegs f.t) (fp1Val f opRound))
  | fdot2 (f d a b c) : LaneSpec (.fdot2 f d a b c) (.f3 f.g f.la a 1 b 1 c 1 d 1 (fdot2Val f))
  | fscale (f d a b) : LaneSpec (.fscale f d a b) (.f2 f.g f.la a (ftyRegs f.t) b 1 d (ftyRegs f.t) (fscaleVal f))
  | f8add (f d a b) : LaneSpec (.f8add f d a b) (.f2 f.g 0 a 1 b 1 d 1 fun x y => f8Val f (fun m r sf x y _ => fpAdd m r sf false x y) x y 0)
  | f8mul (f d a b) : LaneSpec (.f8mul f d a b) (.f2 f.g 0 a 1 b 1 d 1 fun x y => f8Val f (fun m r sf x y _ => fpMul m r sf false x y) x y 0)
  | f8fma (f d a b c) : LaneSpec (.f8fma f d a b c) (.f3 f.g 0 a 1 b 1 c 1 d 1 (f8Val f fun m r sf x y z => fpFma m r sf false x y z))
  | f8min (f d a b) : LaneSpec (.f8min f d a b) (.f2 f.g 0 a 1 b 1 d 1 fun x y => f8Val f (fun m _ _ x y _ => fpMinMax m false false x y) x y 0)
  | f8max (f d a b) : LaneSpec (.f8max f d a b) (.f2 f.g 0 a 1 b 1 d 1 fun x y => f8Val f (fun m _ _ x y _ => fpMinMax m false true x y) x y 0)
  | recip (f d a) : LaneSpec (.recip f d a) (.f1 f.g f.la a (ftyRegs f.t) d (ftyRegs f.t) (fp1Val f (sfuElem .recip)))
  | rsqrt (f d a) : LaneSpec (.rsqrt f d a) (.f1 f.g f.la a (ftyRegs f.t) d (ftyRegs f.t) (fp1Val f (sfuElem .rsqrt)))
  | sqrt (f d a) : LaneSpec (.sqrt f d a) (.f1 f.g f.la a (ftyRegs f.t) d (ftyRegs f.t) (fp1Val f (sfuElem .sqrt)))
  | exp2 (f d a) : LaneSpec (.exp2 f d a) (.f1 f.g f.la a (ftyRegs f.t) d (ftyRegs f.t) (fp1Val f (sfuElem .exp2)))
  | log2 (f d a) : LaneSpec (.log2 f d a) (.f1 f.g f.la a (ftyRegs f.t) d (ftyRegs f.t) (fp1Val f (sfuElem .log2)))
  | sin (f d a) : LaneSpec (.sin f d a) (.f1 f.g f.la a (ftyRegs f.t) d (ftyRegs f.t) (fp1Val f (sfuElem .sin)))
  | cos (f d a) : LaneSpec (.cos f d a) (.f1 f.g f.la a (ftyRegs f.t) d (ftyRegs f.t) (fp1Val f (sfuElem .cos)))
  | tanh (f d a) : LaneSpec (.tanh f d a) (.f1 f.g f.la a (ftyRegs f.t) d (ftyRegs f.t) (fp1Val f (sfuElem .tanh)))
  | cvt (f d a) : LaneSpec (.cvt f d a) (.cv f [(a, cvtRegs f.fs)] d (cvtRegs f.fd) fun w l =>
      let r := cvtRound f (RMode.ofRm f.rm) (cvtSrc f (vread w a (cvtRegs f.fs) l).1)
      (r.1, r.2.bits 0))
  | cvti (f d a) : LaneSpec (.cvti f d a) (.cv f [(a, cvtRegs f.fs)] d (cvtRegs f.fd) fun w l =>
      let r := cvtiVal f (vread w a (cvtRegs f.fs) l).1
      (r.1, r.2.bits 0))
  | cvtf (f d a) : LaneSpec (.cvtf f d a) (.cv f [(a, cvtRegs f.fs)] d (cvtRegs f.fd) fun w l =>
      let r := cvtfVal f (vread w a (cvtRegs f.fs) l).1
      (r.1, r.2.bits 0))
  | cvtsr (f d a c) : LaneSpec (.cvtsr f d a c) (.cv f [(a, 1), (c, 1)] d 1 fun w l =>
      let r := cvtRound f (.rs (nbits (vread w c 1 l).1 0 16)) (cvtSrc f (vread w a 1 l).1)
      (r.1, r.2.bits 0))
  | mxq (f d a) : LaneSpec (.mxq f d a)
      { g := f.g, la := f.la, o := (srcOpnds [(a, 1)]).toV d 1
        val := fun _ c w l =>
          let vs := (List.range 32).map fun i => if c.act.getLsbD i then fpDecode .fp32 (vread w a 1 i).1 else .fin false 0
          let poison := (lanesOf c.act).any fun i => (vread w a 1 i).2
          let r := mxGranule f.fd (RMode.ofRm f.rm) vs
          fout d 1 poison (r.1 * 256 + r.2.1.getD l 0, r.2.2.bits 0) }
  | mxdq (f d a) : LaneSpec (.mxdq f d a) (.cv f [(a, 1)] d 1 fun w l =>
      let r := mxdqVal f (vread w a 1 l).1
      (r.1, r.2.bits 0))
  | pkcvt (f d a b n) (h : n = match f.fd with | .e4m3 | .e5m2 => 2 | _ => 1) : LaneSpec (.pkcvt f d a b) (.cv f [(a, n), (b, n)] d 1 fun w l =>
      let x := (vread w a n l).1
      let y := (vread w b n l).1
      fpElems (cvtFmt f.fd) (2 * n) fun i =>
        cvtRound f (RMode.ofRm f.rm) (cvtSrc f (if i < n then elemOf 32 x i else elemOf 32 y (i - n))))
  | xlane (g la mode p d a b) : LaneSpec (.xlane g la mode p d a b)
      { g := g, la := la, o := ((srcOpnds [(a, 1), (b, 1)]).toV d 1).toP p
        val := fun _ c w l =>
          let ix := vread w b 1 l
          let src := xlaneSrc mode l ix.1
          let valid := match src with
            | some k => c.act.getLsbD k
            | none => false
          let x := vread w a 1 (if valid then src.getD l else l)
          { v := [(d, 1, x.1, x.2 || ix.2)], p := [(p, valid, ix.2)] } }
  | pollMask (g d p) : LaneSpec (.pollMask g d p)
      { g := g, la := 0, o := (({} : Opnds).toV d 1).fromP p
        val := fun _ c w _ => vout d 1 (pollLanes w c.act p).toNat (pollPoison w c.act p) }
  | pollAny (g d p) : LaneSpec (.pollAny g d p)
      { g := g, la := 0, o := (({} : Opnds).toP d).fromP p
        val := fun _ c w _ => { p := [(d, pollLanes w c.act p != 0, pollPoison w c.act p)] } }
  | pollAll (g d p) : LaneSpec (.pollAll g d p)
      { g := g, la := 0, o := (({} : Opnds).toP d).fromP p
        val := fun _ c w _ => { p := [(d, pollLanes w c.act p == c.act, pollPoison w c.act p)] } }
  | pollSame (g d p) : LaneSpec (.pollSame g d p)
      { g := g, la := 0, o := (({} : Opnds).toP d).fromP p
        val := fun _ c w _ => { p := [(d, pollLanes w c.act p == c.act || pollLanes w c.act p == 0, pollPoison w c.act p)] } }
  | wred (g la op d a) : LaneSpec (.wred g la op d a)
      { g := g, la := la, o := (srcOpnds [(a, redRegs op)]).toV d (redRegs op)
        val := fun _ c w _ => redOut op d (treeReduce op (redStart w c.act op a)) }
  | wscan (g la ex op d a) : LaneSpec (.wscan g la ex op d a)
      { g := g, la := la, o := (srcOpnds [(a, redRegs op)]).toV d (redRegs op)
        val := fun _ c w l =>
          let ys := scanAll op (redStart w c.act op a)
          if ex then scanFlags (ys.getD l none) (redOut op d (if l = 0 then none else ys.getD (l - 1) none)) else redOut op d (ys.getD l none) }
  | eqmask (g la t d a) : LaneSpec (.eqmask g la t d a)
      { g := g, la := la, o := (srcOpnds [(a, ityRegs t)]).toV d 1
        val := fun _ c w l =>
          let x := vread w a (ityRegs t) l
          if x.2 then vout d 1 (2 ^ l) true
          else vout d 1 (maskOf ((lanesOf c.act).filter fun k => vread w a (ityRegs t) k == (x.1, false))).toNat false }
  | bytepSel (g d a b c) : LaneSpec (.bytepSel g d a b c)
      (.v3 g a 1 b 1 c 1 d 1 fun x y z => packElems 8 ((List.range 4).map fun k => bytepSelByte (y * 2 ^ 32 + x) (byteN z k)))
  | bytepLut16L (g d a b) : LaneSpec (.bytepLut16L g d a b)
      (.v2 g a 4 b 1 d 1 fun x y => packElems 8 ((List.range 4).map fun k => byteN x (nbits (byteN y k) (4 * 0) 4)))
  | bytepLut16H (g d a b) : LaneSpec (.bytepLut16H g d a b)
      (.v2 g a 4 b 1 d 1 fun x y => packElems 8 ((List.range 4).map fun k => byteN x (nbits (byteN y k) (4 * 1) 4)))
  | quadx (g la pat d a) : LaneSpec (.quadx g la pat d a)
      { g := g, la := la, o := (srcOpnds [(a, 1)]).toV d 1
        val := fun _ c w l =>
          let q := l % 4
          let k := l - q + nbits pat (2 * q) 2
          let x := vread w a 1 (if c.act.getLsbD k then k else l)
          vout d 1 x.1 x.2 }
  | lead (g d) : LaneSpec (.lead g d) (.p g {} d fun c _ l => { p := [(d, l == lowLane c.act, false)] })
  | rng (g la p d a) : LaneSpec (.rng g la p d a)
      { g := g, la := la, o := (((srcOpnds [(a, 2)]).toV d 4).toV a.reg 2).toP p
        val := fun s c w l =>
          let x := vread w a 2 l
          let id := ((s.blockOf c.g).map fun b => laneWid b w l).getD 0
          let seed := ((s.launchOf c.g).map Launch.seed).getD 0
          let ws := gen seed id x.1
          let wrap := x.1 == 2 ^ 64 - 1
          { v := [(d, 4, packElems 32 (ws.map fun y => y.toNat), x.2), (a.reg, 2, (x.1 + 1) % 2 ^ 64, x.2)]
            p := [if wrap then (p, true, x.2) else (p, w.pget p l, w.ppoison p l)] } }
  | widr (g sel d) : LaneSpec (.widr g sel d)
      { g := g, la := 0, o := ({} : Opnds).toV d 2, val := fun s c w l => vout d 2 (widrVal s c w sel l) false }
  | clock (g dev d) : LaneSpec (.clock g dev d)
      { g := g, la := 0, o := ({} : Opnds).toV d 2, val := fun s c _ _ => vout d 2 (clockVal s (coreOf c.g) dev % 2 ^ 64) false }
  | ptst (g d a) : LaneSpec (.ptst g d a) (.p g (srcOpnds [(a, 1)]) d fun _ w l => { p := [(d, (vread w a 1 l).2, false)] })
  | ptstClr (g d a) : LaneSpec (.ptstClr g d a)
      { g := g, la := 0, o := (srcOpnds [(a, 1)]).toV d 1, val := fun _ _ w l => vout d 1 (vread w a 1 l).1 false }

/-! ## Uniform instructions that change their warp alone (R205–R217) -/

/-- A uniform instruction: its guard and what it makes of its warp. -/
structure UniForm where
  g : Guard
  f : State → Ctx → Warp → Warp

/-- s := a value computed from the warp. -/
def UniForm.s (g : Guard) (d : Nat) (val : Warp → DWord) : UniForm := { g := g, f := fun _ _ w => w.sput d (val w) }
def UniForm.q (g : Guard) (d : Nat) (val : Warp → Bool) : UniForm := { g := g, f := fun _ _ w => w.qput d (val w) }

/-- A two-operand integer form, and the one with an immediate in place of B (R211). -/
def UniForm.two (f : UniF) (d a b : Nat) (op : Nat → Nat → Nat) : UniForm :=
  .s f.g d fun w => uniExt f (op (uniArg f (w.sget a)) (uniArg f (w.sget b)))
def UniForm.twoI (f : UniF) (d a imm : Nat) (op : Nat → Nat → Nat) : UniForm :=
  .s f.g d fun w => uniExt f (op (uniArg f (w.sget a)) (uniArg f (uniImm imm)))

inductive UniSpec : Instr → UniForm → Prop
  | umov (g d a) : UniSpec (.umov g d a) (.s g d fun w => w.sget a)
  | umovQ (g d a) : UniSpec (.umovQ g d a) (.q g d fun w => w.qget a)
  | umovQ2s (g d a) : UniSpec (.umovQ2s g d a) (.s g d fun w => if w.qget a then 1 else 0)
  | umovS2q (g d a) : UniSpec (.umovS2q g d a) (.q g d fun w => w.sget a != 0)
  | umovi (g d imm) : UniSpec (.umovi g d imm) (.s g d fun _ => BitVec.ofNat 64 (imm % 2 ^ 32))
  | umoviHi (g d imm) : UniSpec (.umoviHi g d imm)
      (.s g d fun w => BitVec.ofNat 64 (imm % 2 ^ 32 * 2 ^ 32 + nbits (w.sget d).toNat 0 32))
  | uadd (f d a b) : UniSpec (.uadd f d a b) (.two f d a b fun x y => (x + y) % 2 ^ uniW f)
  | uaddUi (f d a imm) : UniSpec (.uaddUi f d a imm) (.twoI f d a imm fun x y => (x + y) % 2 ^ uniW f)
  | usub (f d a b) : UniSpec (.usub f d a b) (.two f d a b fun x y => (x + 2 ^ uniW f - y) % 2 ^ uniW f)
  | usubUi (f d a imm) : UniSpec (.usubUi f d a imm) (.twoI f d a imm fun x y => (x + 2 ^ uniW f - y) % 2 ^ uniW f)
  | umul (f hi d a b) : UniSpec (.umul f hi d a b) (.two f d a b (umulVal f hi))
  | umulUi (f hi d a imm) : UniSpec (.umulUi f hi d a imm) (.twoI f d a imm (umulVal f hi))
  | uand (f d a b) : UniSpec (.uand f d a b) (.two f d a b fun x y => x &&& y)
  | uandUi (f d a imm) : UniSpec (.uandUi f d a imm) (.twoI f d a imm fun x y => x &&& y)
  | uor (f d a b) : UniSpec (.uor f d a b) (.two f d a b fun x y => x ||| y)
  | uorUi (f d a imm) : UniSpec (.uorUi f d a imm) (.twoI f d a imm fun x y => x ||| y)
  | uxor (f d a b) : UniSpec (.uxor f d a b) (.two f d a b fun x y => x ^^^ y)
  | uxorUi (f d a imm) : UniSpec (.uxorUi f d a imm) (.twoI f d a imm fun x y => x ^^^ y)
  | ushl (f d a b) : UniSpec (.ushl f d a b) (.two f d a b fun x k => if uniW f ≤ k then 0 else x * 2 ^ k % 2 ^ uniW f)
  | ushlUi (f d a imm) : UniSpec (.ushlUi f d a imm) (.twoI f d a imm fun x k => if uniW f ≤ k then 0 else x * 2 ^ k % 2 ^ uniW f)
  | ushr (f d a b) : UniSpec (.ushr f d a b) (.two f d a b (ushrVal f))
  | ushrUi (f d a imm) : UniSpec (.ushrUi f d a imm) (.twoI f d a imm (ushrVal f))
  | usetp (f op d a b c) : UniSpec (.usetp f op d a b c)
      (.q f.g d fun w => usetpVal f op (uniArg f (w.sget a)) (uniArg f (w.sget b)) && w.qget c)
  | usetpUi (f op d a imm) : UniSpec (.usetpUi f op d a imm)
      (.q f.g d fun w => usetpVal f op (uniArg f (w.sget a)) (uniArg f (uniImm imm)))
  | usel (g q d a b) : UniSpec (.usel g q d a b) (.s g d fun w => if w.qget q then w.sget a else w.sget b)
  | uselUi (g q d a imm) : UniSpec (.uselUi g q d a imm) (.s g d fun w => if w.qget q then w.sget a else uniImm imm)
  | sregR (g d sel) : UniSpec (.sregR g d sel) { g := g, f := fun s c w => w.sput d (sregVal s c w sel) }
  | sregW (g sel a) : UniSpec (.sregW g sel a) { g := g, f := fun s _ w => { w with fflags := clearFlags w.fflags (w.sget a) ||| w.dueAt s.now } }

/-! ## The sequencer's instructions (R143–R164) -/

/-- What happens in a set of lanes one after another, in ascending order, by a relation for one lane. -/
inductive EachLane (f : State → Nat → State → Fate → Prop) : State → List Nat → State → Fates → Prop
  | none (s) : EachLane f s [] s []
  | next (s l ls t x u fs) (h : f s l t x) (r : EachLane f t ls u fs) : EachLane f s (l :: ls) u ((laneBit l, x) :: fs)

/-- R147 in one lane at state s: the return stack has room and the slot can be written, or the lane traps. -/
inductive PushesReturn (g prio : Nat) (pc : DWord) : State → Nat → State → Option TrapInfo → Prop
  | full (s l w x) (hw : s.warp? g = some w) (hl : s.launchOf g = some x) (h : w.depthOf l = 255 ∨ x.localSize < 8 * (w.depthOf l + 1)) :
      PushesReturn g prio pc s l s (some { cause := 0x0A, detail := 0, addr := BitVec.ofNat 64 (w.depthOf l) })
  | fault (s l w x t) (hw : s.warp? g = some w) (hl : s.launchOf g = some x) (h : w.depthOf l ≠ 255 ∧ 8 * (w.depthOf l + 1) ≤ x.localSize)
      (hc : checkAccess s g l (returnSlot x (w.depthOf l)) 8 .write = .error t) : PushesReturn g prio pc s l s (some t)
  | push (s l w x loc) (hw : s.warp? g = some w) (hl : s.launchOf g = some x) (h : w.depthOf l ≠ 255 ∧ 8 * (w.depthOf l + 1) ≤ x.localSize)
      (hc : checkAccess s g l (returnSlot x (w.depthOf l)) 8 .write = .ok loc) :
      PushesReturn g prio pc s l ((engineWrite s (coreOf g) loc (leOfNat 8 (prio * 2 ^ 58 + nbits (pc + 8).toNat 0 57))).modWarp g fun v =>
        v.setDepth l (w.depthOf l + 1)) none

/-- CALL in one lane: the push, then the target. -/
inductive CallLane (g prio : Nat) (pc target : DWord) (cprio : Nat) : State → Nat → State → Fate → Prop
  | traps (s l t i) (h : PushesReturn g prio pc s l t (some i)) : CallLane g prio pc target cprio s l t (.trap i)
  | goes (s l t) (h : PushesReturn g prio pc s l t none) : CallLane g prio pc target cprio s l t (.to target cprio)

/-- RET in one lane (R148): the entry at depth − 1 is read and checked, and the lane goes where it says, at its priority. -/
inductive RetLane (g : Nat) : State → Nat → State → Fate → Prop
  | empty (s l w x) (hw : s.warp? g = some w) (hl : s.launchOf g = some x) (h : w.depthOf l = 0) :
      RetLane g s l s (.trap { cause := 0x0A, detail := 0, addr := 0 })
  | fault (s l w x t) (hw : s.warp? g = some w) (hl : s.launchOf g = some x) (h : w.depthOf l ≠ 0)
      (hc : checkAccess s g l (returnSlot x (w.depthOf l - 1)) 8 .read = .error t) : RetLane g s l s (.trap t)
  | poison (s l w x loc) (hw : s.warp? g = some w) (hl : s.launchOf g = some x) (h : w.depthOf l ≠ 0)
      (hc : checkAccess s g l (returnSlot x (w.depthOf l - 1)) 8 .read = .ok loc) (hp : (readLoc (slotOwned s (coreOf g) loc) loc 8).2 = true) :
      RetLane g s l (slotOwned s (coreOf g) loc) (.trap (poisonTrap (returnSlot x (w.depthOf l - 1))))
  | wrong (s l w x loc v) (hw : s.warp? g = some w) (hl : s.launchOf g = some x) (h : w.depthOf l ≠ 0)
      (hc : checkAccess s g l (returnSlot x (w.depthOf l - 1)) 8 .read = .ok loc) (hp : (readLoc (slotOwned s (coreOf g) loc) loc 8).2 = false)
      (hv : v = natOfLe (readLoc (slotOwned s (coreOf g) loc) loc 8).1) (hb : nbits v 57 1 ≠ 0 ∨ nbits v 0 3 ≠ 0 ∨ codeWord (slotOwned s (coreOf g) loc) g (nbits v 0 57) = none) :
      RetLane g s l (slotOwned s (coreOf g) loc) (.trap { cause := 0x09, detail := 0, addr := BitVec.ofNat 64 v })
  | goes (s l w x loc v) (hw : s.warp? g = some w) (hl : s.launchOf g = some x) (h : w.depthOf l ≠ 0)
      (hc : checkAccess s g l (returnSlot x (w.depthOf l - 1)) 8 .read = .ok loc) (hp : (readLoc (slotOwned s (coreOf g) loc) loc 8).2 = false)
      (hv : v = natOfLe (readLoc (slotOwned s (coreOf g) loc) loc 8).1) (hb : nbits v 57 1 = 0 ∧ nbits v 0 3 = 0 ∧ codeWord (slotOwned s (coreOf g) loc) g (nbits v 0 57) ≠ none) :
      RetLane g s l ((slotOwned s (coreOf g) loc).modWarp g fun z => z.setDepth l (w.depthOf l - 1)) (.to (BitVec.ofNat 64 (nbits v 0 57)) (nbits v 58 6))

/-- The lanes of a set that are in their trap handler leave it (R160). -/
def Warp.leavesHandler (w : Warp) (ls : List Nat) : Warp :=
  ls.foldl (fun (w : Warp) l => if (w.trapOf l).inh then w.setTrap l { w.trapOf l with inh := false } else w) w

/-- Where TRET and TRET.NEXT take a lane (R160). -/
def tretFate (w : Warp) (next : Bool) (l : Nat) : Fate :=
  if (w.trapOf l).inh then .to (if next then (w.trapOf l).tpc + 8 else (w.trapOf l).tpc) (w.trapOf l).tprio
  else .trap { cause := 0x0C, detail := 0, addr := 0 }

/-- Instructions of lane group 0x0 without v operands in a calm split e of warp g: the state they make, and where lanes go. Lanes
whose guard predicate is poisoned trap (R144) where that has an effect. -/
inductive SeqSpec (s : State) (g : Nat) (w : Warp) (e : Entry) : Instr → State → Fates → Prop
  | nop (gd) : SeqSpec s g w e (.nop gd) (s.begun g e) []
  | land (gd) : SeqSpec s g w e (.land gd) (s.begun g e) []
  | yield (gd) : SeqSpec s g w e (.yield gd) (s.begun g e) [(e.mask, .held (s.now + 64))]
  | bra (gd prio off) : SeqSpec s g w e (.bra gd prio off) (s.begun g e)
      [((laneCtx g w e gd).pg, .trap (poisonTrap 0)), ((laneCtx g w e gd).act, .to (branchTarget e.pc off) prio)]
  | braU (gd prio off) (h : (laneCtx g w e gd).act = 0 ∨ (laneCtx g w e gd).act = e.mask &&& ~~~ (laneCtx g w e gd).pg) :
      SeqSpec s g w e (.braU gd prio off) (s.begun g e)
      [((laneCtx g w e gd).pg, .trap (poisonTrap 0)), ((laneCtx g w e gd).act, .to (branchTarget e.pc off) prio)]
  | braUSplit (gd prio off) (h : (laneCtx g w e gd).act ≠ 0 ∧ (laneCtx g w e gd).act ≠ e.mask &&& ~~~ (laneCtx g w e gd).pg)
      (hs : s.flagOf g Launch.strictUni = false) : SeqSpec s g w e (.braU gd prio off) ((s.begun g e).count .uniformityViolation 1)
      [((laneCtx g w e gd).pg, .trap (poisonTrap 0)), ((laneCtx g w e gd).act, .to (branchTarget e.pc off) prio)]
  | braUStrict (gd prio off) (h : (laneCtx g w e gd).act ≠ 0 ∧ (laneCtx g w e gd).act ≠ e.mask &&& ~~~ (laneCtx g w e gd).pg)
      (hs : s.flagOf g Launch.strictUni = true) : SeqSpec s g w e (.braU gd prio off) (s.begun g e)
      [((laneCtx g w e gd).pg, .trap (poisonTrap 0)),
        (e.mask &&& ~~~ (laneCtx g w e gd).pg, .trap { cause := 0x07, detail := 0, addr := branchTarget e.pc off })]
  | call (gd prio off u fs) (hh : homeOpen s g (callOpnds s gd false {}) = true)
      (h : EachLane (CallLane g e.prio e.pc (branchTarget e.pc off) prio) ((s.engaged g (callOpnds s gd false {})).begun g e)
        (lanesOf (laneCtx g w e gd).act) u fs) :
      SeqSpec s g w e (.call gd prio off) u (((laneCtx g w e gd).pg, .trap (poisonTrap 0)) :: groupFates fs)
  | ret (gd u fs) (hh : homeOpen s g (callOpnds s gd true {}) = true)
      (h : EachLane (RetLane g) ((s.engaged g (callOpnds s gd true {})).begun g e) (lanesOf (laneCtx g w e gd).act) u fs) :
      SeqSpec s g w e (.ret gd) u (((laneCtx g w e gd).pg, .trap (poisonTrap 0)) :: groupFates fs)
  | join (gd m) (h : (laneCtx g w e gd).act ≠ 0) : SeqSpec s g w e (.join gd m)
      ((s.begun g e).modWarp g fun w' => w'.mput m (w'.mget m ||| (laneCtx g w e gd).act)) [((laneCtx g w e gd).pg, .trap (poisonTrap 0))]
  | leave (gd m) (h : (laneCtx g w e gd).act ≠ 0) : SeqSpec s g w e (.leave gd m)
      ((s.begun g e).modWarp g fun w' => w'.mput m (w'.mget m &&& ~~~ (laneCtx g w e gd).act)) [((laneCtx g w e gd).pg, .trap (poisonTrap 0))]
  | mclr (gd m) (h : (laneCtx g w e gd).act ≠ 0) : SeqSpec s g w e (.mclr gd m)
      ((s.begun g e).modWarp g fun w' => w'.mput m 0) [((laneCtx g w e gd).pg, .trap (poisonTrap 0))]
  | joinNone (gd m) (h : (laneCtx g w e gd).act = 0) : SeqSpec s g w e (.join gd m) (s.begun g e) [((laneCtx g w e gd).pg, .trap (poisonTrap 0))]
  | leaveNone (gd m) (h : (laneCtx g w e gd).act = 0) : SeqSpec s g w e (.leave gd m) (s.begun g e) [((laneCtx g w e gd).pg, .trap (poisonTrap 0))]
  | mclrNone (gd m) (h : (laneCtx g w e gd).act = 0) : SeqSpec s g w e (.mclr gd m) (s.begun g e) [((laneCtx g w e gd).pg, .trap (poisonTrap 0))]
  | waitm (gd m) : SeqSpec s g w e (.waitm gd m) (s.begun g e)
      [((laneCtx g w e gd).pg, .trap (poisonTrap 0)), ((laneCtx g w e gd).act &&& w.inside, .trap { cause := 0x41, detail := 0, addr := 0 }),
        ((laneCtx g w e gd).act &&& ~~~ ((laneCtx g w e gd).act &&& w.inside), .park (.waitm m))]
  | trap (gd n) : SeqSpec s g w e (.trap gd n) (s.begun g e)
      [((laneCtx g w e gd).pg, .trap (poisonTrap 0)), ((laneCtx g w e gd).act, .trap { cause := 0x04, detail := 0, addr := BitVec.ofNat 64 n })]
  | bkpt (gd n) (h : s.flagOf g Launch.debug = true) : SeqSpec s g w e (.bkpt gd n) (s.begun g e)
      [((laneCtx g w e gd).pg, .trap (poisonTrap 0)), ((laneCtx g w e gd).act, .trap { cause := 0x05, detail := 0, addr := BitVec.ofNat 64 n })]
  | bkptOff (gd n) (h : s.flagOf g Launch.debug = false) : SeqSpec s g w e (.bkpt gd n) (s.begun g e)
      [((laneCtx g w e gd).pg, .trap (poisonTrap 0))]
  | tret (gd) : SeqSpec s g w e (.tret gd) ((s.begun g e).modWarp g fun w' => w'.leavesHandler (lanesOf (laneCtx g w e gd).act))
      (((laneCtx g w e gd).pg, .trap (poisonTrap 0)) :: groupFates ((lanesOf (laneCtx g w e gd).act).map fun l => (laneBit l, tretFate w false l)))
  | tretNext (gd) : SeqSpec s g w e (.tretNext gd) ((s.begun g e).modWarp g fun w' => w'.leavesHandler (lanesOf (laneCtx g w e gd).act))
      (((laneCtx g w e gd).pg, .trap (poisonTrap 0)) :: groupFates ((lanesOf (laneCtx g w e gd).act).map fun l => (laneBit l, tretFate w true l)))
  | tkill (gd) : SeqSpec s g w e (.tkill gd) ((s.begun g e).count .laneKilled (lanesOf (laneCtx g w e gd).act).length)
      [((laneCtx g w e gd).pg, .trap (poisonTrap 0)), ((laneCtx g w e gd).act, .ended)]
  | exit (gd) : SeqSpec s g w e (.exit gd) (s.begun g e) [((laneCtx g w e gd).pg, .trap (poisonTrap 0)), ((laneCtx g w e gd).act, .ended)]
  | wdog (gd n x) (h : (laneCtx g w e gd).act ≠ 0) (hl : s.launchOf g = some x) : SeqSpec s g w e (.wdog gd n)
      ((s.begun g e).modWarp g fun w' => { w' with budget := wdogBudget s x n }) [((laneCtx g w e gd).pg, .trap (poisonTrap 0))]
  | wdogNone (gd n) (h : (laneCtx g w e gd).act = 0) : SeqSpec s g w e (.wdog gd n) (s.begun g e) [((laneCtx g w e gd).pg, .trap (poisonTrap 0))]

end Sys2Proof.Machine
end

