-- ==== Sys2Proof/Safety/Events.lean ====
section
/-! DEFINITION. The events of the machine, its engines and its outside world: under which conditions each is enabled, and the state
that it makes (R82–R131, R137–R181, R258–R284, R304–R317, R331–R373, R378–R418, R425–R441). An event that is not enabled changes nothing
(log entry 1). -/

namespace Sys2Proof.Machine

/-- A split parked on a wait. -/
structure ParkedAt (s : State) (warp entry : Nat) (e : Entry) (k : Wait) : Prop where
  entry : ((s.warp? warp).bind fun w => w.entry? entry) = some e
  wait  : e.st = .parked k

/-- The first message of a kind that an agent may take from a home. -/
structure SnoopAt (s : State) (msg : Nat) (k : SnoopKind) (r : Snoop) : Prop where
  first : s.fromHome? msg = some (.snoop r)
  kind  : r.kind = k
  agent : r.agent < 216

/-- The messages that the homes take from agents (R271). -/
inductive HomeMsg : Instr → Nat → ReqKind → Prop
  | rdS (m) : HomeMsg (.rdS m) m .rdS
  | rdL (m) : HomeMsg (.rdL m) m .rdL
  | rdN (m) : HomeMsg (.rdN m) m .rdN
  | ownRq (m) : HomeMsg (.ownRq m) m .ownRq
  | upg (m) : HomeMsg (.upg m) m .upg
  | wrT (m) : HomeMsg (.wrT m) m .wrT
  | wrN (m) : HomeMsg (.wrN m) m .wrN
  | at (m) : HomeMsg (.atomicReq m) m .at
  | wb (m) : HomeMsg (.wb m) m .wb

/-- The control records and requests (R125–R127): their event, kind and act. -/
inductive ControlEvent : Instr → Asker → Nat → (State → Nat → State) → Prop
  | preEmpt (a) : ControlEvent (.preEmpt a) a 1 preEmptAct
  | resume (a) : ControlEvent (.resume a) a 2 resumeAct
  | cancel (a) : ControlEvent (.cancel a) a 3 cancelLaunch

/-- The members of a saved unit on their places: their parked splits test their waits again, and the splits that waited for a member go
on (R109, R124). -/
def resumed (s : State) (w : Waiter) (bs : List Nat) (l : Launch) (ps : List Place) : State :=
  releaseMembers (forEach bs (forEach ps s fun s p => resumeOne s p) retestBlock) l (gangOf l ((w.members.head?.map fun m => m.lin).getD 0))

/-- The events that the dispatch engine takes part in (R82–R131). -/
inductive DispatchEvent (s : State) : Instr → State → Prop
  | sealWrite (slot v) (h : slot < 256) : DispatchEvent s (.sealWrite slot v) (s.hostAsks (.wr (slotAddr s slot + 255) [some v]))
  | launchHeld (i r) (hs : s.sealedSlots = i :: r) (hp : parsing s = true) (hk : recKind (slotRec s i) = 0) (hf : s.queueFull = true ∨ s.heldSlots ≠ []) :
      DispatchEvent s .launchRecord { s with sealedSlots := r, heldSlots := s.heldSlots ++ [i] }
  | launchRecord (i r) (hs : s.sealedSlots = i :: r) (hp : parsing s = true) (hk : recKind (slotRec s i) = 0)
      (hf : s.queueFull = false ∧ s.heldSlots = []) : DispatchEvent s .launchRecord (parseSlot s i)
  | unknownRecord (i r) (hs : s.sealedSlots = i :: r) (hp : parsing s = true) (hk : 3 < recKind (slotRec s i)) :
      DispatchEvent s .launchRecord (answerSlot s i 0x0C 0)
  | heldRecordParse (i r) (hs : s.heldSlots = i :: r) (hp : parsing s = true) (hf : s.queueFull = false) :
      DispatchEvent s .heldRecordParse (parseSlot s i)
  | asked (ev id k act) (hi : ControlEvent ev (.farrier id) k act) (hl : (s.launch? id).isSome = true) : DispatchEvent s ev (act s id)
  | recorded (ev k act i r) (hi : ControlEvent ev .record k act) (hs : s.sealedSlots = i :: r) (hp : parsing s = true)
      (hk : recKind (slotRec s i) = k) (hl : (s.launch? (recNat (slotRec s i) 0xA0 8)).isSome = true) :
      DispatchEvent s ev (answerSlot (act s (recNat (slotRec s i) 0xA0 8)) i 0 0)
  | unknownLaunch (ev k act i r) (hi : ControlEvent ev .record k act) (hs : s.sealedSlots = i :: r) (hp : parsing s = true)
      (hk : recKind (slotRec s i) = k) (hl : (s.launch? (recNat (slotRec s i) 0xA0 8)).isSome = false) :
      DispatchEvent s ev (answerSlot s i 0x0D 0)
  | launchComplete (id l) (hl : s.launch? id = some l) (hf : s.fatal = false) (hd : launchDone s l = true) :
      DispatchEvent s (.launchComplete id) { (writeCompletion s l).unpinAll id with
        launches := tdel (writeCompletion s l).launches id, waiting := (writeCompletion s l).waiting.filter fun i => i != .fresh id
        passes := (writeCompletion s l).passes.filter fun e => e.2.launch != id }
  | blockAdmit (w ps id) (hw : firstFit s s.waiters1 = some (w, ps)) (hi : w.item = .fresh id) :
      DispatchEvent s .blockAdmit (endReserve (tidyWaiting (forEach ps (codeRefresh s id) fun s p => admitOne s id p) id) w)
  | admissionReserve (w r) (hw : s.waiters1 = w :: r) (hn : s.reservation = none)
      (hf : placeWaiter s (fun _ => true) (roomOf s fun _ => false) w = none) (ht : w.since + quantumNs s ≤ s.devNs) :
      DispatchEvent s .admissionReserve { s with
        reserved := some w.key
        reservedCores := ((placeWaiter s (fun _ => true) (fun c => { load := (roomOf s (fun _ => false) c).load }) w).getD []).map Place.core }
  | quantumEnd (block b) (hb : s.block? block = some b) (hs : b.isSaved = false) (ht : b.quantumEnd ≤ s.devNs)
      (ha : saveAlloc s (gangResident s b) s.saveUsed ≠ none) (hw : roomWanted s (gangResident s b) = true) :
      DispatchEvent s (.quantumEnd block) (forEach (gangResident s b) s fun s e => s.modBlock e.1 fun x => { x with saveReq := true })
  | saveNoRoom (block err b) (hb : s.block? block = some b) (hr : b.saveReq = true) (hg : gangResident s b ≠ [])
      (ha : saveAlloc s (gangResident s b) s.saveUsed = none) :
      DispatchEvent s (.blockSave ⟨block, err⟩) (setStopping s (gangResident s b) false)
  | saveBegins (block err b used) (hb : s.block? block = some b) (hr : b.saveReq = true)
      (ha : saveAlloc s (gangResident s b) s.saveUsed = some used) (hp : ∃ e ∈ gangResident s b, e.2.stopping = false) :
      DispatchEvent s (.blockSave ⟨block, err⟩) (setStopping s (gangResident s b) true)
  | saveLost (block b used) (hb : s.block? block = some b) (hr : b.saveReq = true) (hg : gangResident s b ≠ [])
      (ha : saveAlloc s (gangResident s b) s.saveUsed = some used) (hp : ∀ e ∈ gangResident s b, e.2.stopping = true)
      (hq : ∀ e ∈ gangResident s b, blockQuiet s e = true) :
      DispatchEvent s (.blockSave ⟨block, true⟩) ((loseLaunch s b.launch).tell (.contextLost b.launch))
  | blockSave (block b used) (hb : s.block? block = some b) (hr : b.saveReq = true) (hg : gangResident s b ≠ [])
      (ha : saveAlloc s (gangResident s b) s.saveUsed = some used) (hp : ∀ e ∈ gangResident s b, e.2.stopping = true)
      (hq : ∀ e ∈ gangResident s b, blockQuiet s e = true) :
      DispatchEvent s (.blockSave ⟨block, false⟩)
        { forEach (gangResident s b) s fun s e => saveOne s e.1 e.2 (tgetD used e.1 (0, 0)) with
          waiting := (forEach (gangResident s b) s fun s e => saveOne s e.1 e.2 (tgetD used e.1 (0, 0))).waiting ++
            [.saved ((gangResident s b).map fun e => e.1)
              (forEach (gangResident s b) s fun s e => saveOne s e.1 e.2 (tgetD used e.1 (0, 0))).devNs] }
  | blockResume (w ps bs t l) (hw : firstFit s s.waiters1 = some (w, ps)) (hi : w.item = .saved bs t) (hl : s.launch? w.launch = some l)
      (hs : bs.any (saveBroken s) = false) (hf : l.det = true ∨ l.yardGang = true) :
      DispatchEvent s (.blockResume (ps.map Place.core)) (endReserve
        { resumed s w bs l ps with waiting := (resumed s w bs l ps).waiting.filter fun i => i != w.item } w)
  | blockResumeNamed (cores w ps qs bs t l) (hw : firstFit s s.waiters1 = some (w, ps)) (hi : w.item = .saved bs t) (hl : s.launch? w.launch = some l)
      (hs : bs.any (saveBroken s) = false) (hf : l.det = false ∧ l.yardGang = false)
      (hq : placeSeq s l (roomOf s fun _ => false) (fun _ acc =>
        (cores.drop acc.length).take 1 |>.filter fun c => c < 216 && coreReady s c && openTo s w c) true [] w.members [] = some qs) :
      DispatchEvent s (.blockResume cores) (endReserve
        { resumed s w bs l qs with waiting := (resumed s w bs l qs).waiting.filter fun i => i != w.item } w)
  | blockResumeLost (cores w ps bs t l) (hw : firstFit s s.waiters1 = some (w, ps)) (hi : w.item = .saved bs t) (hl : s.launch? w.launch = some l)
      (hs : bs.any (saveBroken s) = true) : DispatchEvent s (.blockResume cores) ((loseLaunch s w.launch).tell (.contextLost w.launch))
  | rendezvous (block b k) (hb : s.block? block = some b) (hr : b.st = .running)
      (hw : ((s.warpsOf block).filter fun w => w.2.live != 0) ≠ [])
      (ha : ∀ w ∈ (s.warpsOf block).filter fun w => w.2.live != 0, w.2.allAtSwitch = true)
      (hk : ∃ r, (((s.warpsOf block).filter fun w => w.2.live != 0).flatMap fun w => w.2.atSwitch.map fun e => e.2) = k :: r ∧ ∀ x ∈ r, x = k) :
      DispatchEvent s (.switchRendezvous block) (s.modBlock block fun x => { x with st := .rendezvous k })
  | mixedPoints (block b) (hb : s.block? block = some b) (hr : b.st = .running)
      (hw : ((s.warpsOf block).filter fun w => w.2.live != 0) ≠ [])
      (ha : ∀ w ∈ (s.warpsOf block).filter fun w => w.2.live != 0, w.2.allAtSwitch = true)
      (hk : ∃ k r, (((s.warpsOf block).filter fun w => w.2.live != 0).flatMap fun w => w.2.atSwitch.map fun e => e.2) = k :: r ∧ ∃ x ∈ r, x ≠ k) :
      DispatchEvent s (.switchRendezvous block)
        (forEach ((s.warpsOf block).filter fun w => w.2.live != 0) s fun s w => forEach w.2.atSwitch s fun s e =>
          trapParked s w.1 e.1 { cause := 0x0D, detail := 0, addr := BitVec.ofNat 64 e.2 })
  | switchMove (block b l k f pc) (hb : s.block? block = some b) (hl : s.launch? b.launch = some l) (hr : b.st = .rendezvous k)
      (hq : moveBusy s block b = false) (ht : switchTarget s block b l k ≠ b.variant)
      (hf : moveFit s block b l (switchTarget s block b l k) 0 = some f) (hp : resumeOff l k (switchTarget s block b l k) = some pc) :
      DispatchEvent s (.switchMove block) (moveBlock s block b l (switchTarget s block b l k) f.2.1 pc)
  | switchStay (block b l k) (hb : s.block? block = some b) (hl : s.launch? b.launch = some l) (hr : b.st = .rendezvous k)
      (hq : moveBusy s block b = false)
      (ht : switchTarget s block b l k = b.variant ∨ moveFit s block b l (switchTarget s block b l k) 0 = none) :
      DispatchEvent s (.switchMove block)
        ((forEach (s.warpsOf block) s fun s w => forEach w.2.atSwitch s fun s e => releaseWith s w.1 e.1.eid none none).modBlock block fun x =>
          { x with st := .running })
  | issueClassUpdate (block) : DispatchEvent s (.issueClassUpdate block) (setClasses s block)
  | launchAnswer (warp entry e id x d p bs l) (hp : ParkedAt s warp entry e (.launch id)) (hq : s.childQueue.find? (fun q => q.1 == id) = some (x, d, p, bs))
      (hl : s.launchOf warp = some l) (hk : recKind bs = 0) :
      DispatchEvent s (.launchAnswer warp entry)
        (releaseWith (submitLaunch { s with childQueue := s.childQueue.filter fun q => q.1 != id } l.asid (l.depth + 1) true bs).1 warp entry
          (some (d, BitVec.ofNat 64 (nbits (submitLaunch { s with childQueue := s.childQueue.filter fun q => q.1 != id } l.asid (l.depth + 1) true bs).2.2 0 56 * 256 +
            (submitLaunch { s with childQueue := s.childQueue.filter fun q => q.1 != id } l.asid (l.depth + 1) true bs).2.1))) none)
  | launchRefused (warp entry e id x d p bs l) (hp : ParkedAt s warp entry e (.launch id)) (hq : s.childQueue.find? (fun q => q.1 == id) = some (x, d, p, bs))
      (hl : s.launchOf warp = some l) (hk : recKind bs ≠ 0) :
      DispatchEvent s (.launchAnswer warp entry)
        (releaseWith { s with childQueue := s.childQueue.filter fun q => q.1 != id } warp entry (some (d, 0x0C)) none)
  | matrixEccError (core region n k b) (hc : (s.core core).claims.find? (fun k => k.kind == (if region then 1 else 0) && k.n == n) = some k)
      (hb : s.block? k.block = some b) :
      DispatchEvent s (.matrixEccError core region n) ({ loseLaunch s b.launch with uncorrected := min Config.counterMax (s.uncorrected + 1) }.tell (.matrixError core))

/-- The events of the sequencer and of the register pool (R133–R181). -/
inductive SequencerEvent (s : State) : Instr → State → Prop
  | icacheFill (core part asid vline g pc ws) (hf : (s.part (16 * core + part)).frozen = some (asid, vline, g, pc))
      (hv : s.homeReady core [] (codeSpan s core asid vline) = true)
      (hr : readCodeLine ((s.homeTaken core (codeSpan s core asid vline)).modPart (16 * core + part) fun p => { p with frozen := none }) core asid vline = .ok ws) :
      SequencerEvent s (.icacheFill core part)
        (((s.homeTaken core (codeSpan s core asid vline)).modPart (16 * core + part) fun p => { p with frozen := none }).putLine (core / 8) asid vline ws)
  | icacheWaits (core part asid vline x) (hf : (s.part (16 * core + part)).frozen = some (asid, vline, x))
      (hv : s.homeReady core [] (codeSpan s core asid vline) = false) :
      SequencerEvent s (.icacheFill core part) (s.homeAsk core .rdN [] (codeSpan s core asid vline))
  | fetchTrap (core part asid vline g pc d) (hf : (s.part (16 * core + part)).frozen = some (asid, vline, g, pc))
      (hv : s.homeReady core [] (codeSpan s core asid vline) = true)
      (hr : readCodeLine ((s.homeTaken core (codeSpan s core asid vline)).modPart (16 * core + part) fun p => { p with frozen := none }) core asid vline = .error d) :
      SequencerEvent s (.icacheFill core part)
        (fetchTraps ((s.homeTaken core (codeSpan s core asid vline)).modPart (16 * core + part) fun p => { p with frozen := none }) g pc d)
  | issueSelect (core part g w e) (hc : s.cur = none) (hs : s.coreStopped core = false) (hf : (s.part (16 * core + part)).frozen = none)
      (hu : (issuedNow s (16 * core + part)).length < 2) (hl : laterIssued s core part = false)
      (hb : bestWarp ((eligible s (16 * core + part) (issuedNow s (16 * core + part))).map fun x => x.1) = some (g, w, e)) :
      SequencerEvent s (.issueSelect core part) { chooseTurn s (16 * core + part) g with cur := some (g, e.eid) }
  | heldClear (warp) : SequencerEvent s (.heldClear warp) (s.modWarp warp fun w => { w with entries := w.entries.map fun e =>
      if e.held && e.heldUntil ≤ s.now then { e with held := false } else e })
  | trapDeliver (warp entry e x) (he : ((s.warp? warp).bind fun w => w.entry? entry) = some e) (ht : e.st = .trap)
      (hi : fetchWord s warp e.pc = some x) :
      SequencerEvent s (.trapDeliver warp entry) (s.modWarp warp fun w => w.releaseAgain entry)
  | trapMiss (warp entry e) (he : ((s.warp? warp).bind fun w => w.entry? entry) = some e) (ht : e.st = .trap)
      (hi : fetchWord s warp e.pc = none) (hf : (s.part (partOf warp)).frozen = none) :
      SequencerEvent s (.trapDeliver warp entry) (fetchMiss s warp e.pc)
  | asyncTrap (i t w) (ht : s.asyncs[i]? = some t) (hw : s.warp? t.warp = some w) :
      SequencerEvent s (.asyncTrap i)
        ((forEach w.entries { s with asyncs := s.asyncs.eraseIdx i } fun s e => asyncEntry s t.warp t e).stallTidy (coreOf t.warp)).linkTidy
  | watchdog (warp w e) (hw : s.warp? warp = some w) (hp : w.pick s.now = some e) (hb : w.budget = some 0) (hu : e.mask &&& ~~~ w.inhLanes e.mask ≠ 0) :
      SequencerEvent s (.watchdog warp)
        ((s.modWarp warp fun w' => w'.dropLanes (e.mask &&& ~~~ w.inhLanes e.mask)).takeTraps warp e.pc e.prio
          ((lanesOf (e.mask &&& ~~~ w.inhLanes e.mask)).map fun l => (l, { cause := 0x06, detail := 0, addr := 0 })))
  | waitmRelease (warp m) : SequencerEvent s (.waitmRelease warp m) (s.modWarp warp fun w => w.waitmTest m)
  | resultArrive (warp id w r) (hw : s.warp? warp = some w) (hr : w.results.find? (fun r => r.id == id) = some r) (hd : r.done = true)
      (hf : s.fabUp = true ∨ ∀ o ∈ (s.core (coreOf warp)).ops, o.result = some id → ∀ n, o.space ≠ .remote n)
      (hu : r.uld = none ∨ ∀ x ∈ r.data, ∀ v ∈ x.2, v.2 = false) :
      SequencerEvent s (.resultArrive warp id) (((s.modCore (coreOf warp) fun c => { c with ops := c.ops.filter fun o => o.result != some id }).modWarp warp fun w =>
        ({ w with results := w.results.map fun x =>
            if x.id == id then { x with lanes := x.lanes.map fun l => (l.1, { l.2 with vals := some (tgetD r.data l.1 []) }) } else x } : Warp).settleResults).wake warp)
  | uniformPoison (warp id w r pc prio) (hw : s.warp? warp = some w) (hr : w.results.find? (fun r => r.id == id) = some r) (hd : r.done = true)
      (hf : s.fabUp = true ∨ ∀ o ∈ (s.core (coreOf warp)).ops, o.result = some id → ∀ n, o.space ≠ .remote n)
      (hu : r.uld = some (pc, prio)) (hp : ∃ x ∈ r.data, ∃ v ∈ x.2, v.2 = true) :
      SequencerEvent s (.resultArrive warp id)
        ((((s.modCore (coreOf warp) fun c => { c with ops := c.ops.filter fun o => o.result != some id }).modWarp warp fun w =>
          { w.dropLanes (maskOf (r.lanes.map fun l => l.1)) with results := w.results.filter fun x => x.id != id }).takeTraps warp pc prio
            (r.lanes.map fun l => (l.1, poisonTrap 0))).wake warp)
  | poolGrant (core part g w e rs t) (hb : poolNext (chooseHolder s (16 * core + part)) (16 * core + part) = some ((g, w, e), rs))
      (ht : refillAll (chooseHolder s (16 * core + part)) g (rs.filter fun r => w.isSpilled r) = .ok t) :
      SequencerEvent s (.poolGrant core part)
        (((t.count .unmappedRead e.unread).modWarp g fun w => (rs.foldl (fun w r => w.vmap r) w).releaseAgain e.eid).holderCheck (16 * core + part))
  | poolFault (core part g w e rs f) (hb : poolNext (chooseHolder s (16 * core + part)) (16 * core + part) = some ((g, w, e), rs))
      (ht : refillAll (chooseHolder s (16 * core + part)) g (rs.filter fun r => w.isSpilled r) = .error f) :
      SequencerEvent s (.poolGrant core part) ((chooseHolder s (16 * core + part)).modWarp g fun w => w.releaseAgain e.eid)
  | spill (core part t req v g w r p) (h : t = chooseHolder s (16 * core + part))
      (hq : bestWarp (((poolRequests t (16 * core + part)).filter fun x => reservedReq t (16 * core + part) x).map fun x => x.1) = some (req, v))
      (hb : spillVictim t (16 * core + part) req = some (g, w)) (hr : spillReg w = some r) (hp : spillPlace t g w r = .ok p)
      (hv : t.homeReady core [] (spillWords p) = true) :
      SequencerEvent s (.spill core part)
        ((spillWrite t g w r p).modWarp g fun w => { (w.vfree r) with spilled := setBit256 (w.vfree r).spilled r true })
  | spillWaits (core part t req v g w r p) (h : t = chooseHolder s (16 * core + part))
      (hq : bestWarp (((poolRequests t (16 * core + part)).filter fun x => reservedReq t (16 * core + part) x).map fun x => x.1) = some (req, v))
      (hb : spillVictim t (16 * core + part) req = some (g, w)) (hr : spillReg w = some r) (hp : spillPlace t g w r = .ok p)
      (hv : t.homeReady core [] (spillWords p) = false) : SequencerEvent s (.spill core part) (t.homeAsk core .at [] (spillWords p))
  | spillFault (core part t req v g w r f) (h : t = chooseHolder s (16 * core + part))
      (hq : bestWarp (((poolRequests t (16 * core + part)).filter fun x => reservedReq t (16 * core + part) x).map fun x => x.1) = some (req, v))
      (hb : spillVictim t (16 * core + part) req = some (g, w)) (hr : spillReg w = some r) (hp : spillPlace t g w r = .error f) :
      SequencerEvent s (.spill core part) { t with asyncs := t.asyncs ++ [{ warp := g, lanes := w.live, cause := 0x11, detail := f.1, addr := BitVec.ofNat 64 f.2 }] }
  | absentLineRelease (warp entry w e lines) (hw : s.warp? warp = some w) (hp : ParkedAt s warp entry e (.absentLine lines))
      (ht : s.absentTrap w.block lines = none) (hl : ∀ l ∈ lines, s.isAbsent l.1 l.2 = false) :
      SequencerEvent s (.absentLineRelease warp entry) (s.modWarp warp fun w => w.releaseAgain entry)
  | absentLineTrap (warp entry w e lines t) (hw : s.warp? warp = some w) (hp : ParkedAt s warp entry e (.absentLine lines))
      (ht : s.absentTrap w.block lines = some t) :
      SequencerEvent s (.absentLineRelease warp entry)
        ((s.modWarp warp fun w => (w.dropLanes e.mask).voidHeld e.mask).takeTraps warp e.pc e.prio ((lanesOf e.mask).map fun l => (l, t)))
  | memberLine (warp op) (he : ((s.warp? warp).bind fun w => w.entry? op) = none) :
      SequencerEvent s (.absentLineRelease warp op) (runMember s (coreOf warp) op)
  | commandQueueRelease (warp entry e) (hp : ParkedAt s warp entry e .commandQueue) (hq : (s.core (coreOf warp)).cmds.length < 64) :
      SequencerEvent s (.commandQueueRelease warp entry) (s.modWarp warp fun w => w.releaseAgain entry)
  | walkWaits (core asid va) (hv : s.homeReady core [] (walkWords (walkFor s core asid va).1) = false) :
      SequencerEvent s (.translationWalk core asid va) (s.homeAsk core .rdN [] (walkWords (walkFor s core asid va).1))
  | walkFails (core asid va d) (hv : s.homeReady core [] (walkWords (walkFor s core asid va).1) = true) (hw : (walkFor s core asid va).2 = .error d) :
      SequencerEvent s (.translationWalk core asid va) (s.homeTaken core (walkWords (walkFor s core asid va).1))
  | translationWalk (core asid va l t) (hv : s.homeReady core [] (walkWords (walkFor s core asid va).1) = true) (hw : (walkFor s core asid va).2 = .ok l)
      (ht : t = s.homeTaken core (walkWords (walkFor s core asid va).1)) :
      SequencerEvent s (.translationWalk core asid va)
        { t with
          tlb := tlbAdd (tlbAdd t.tlb (walked core asid va l) 256) (walked (1000 + core / 8) asid va l) 8192
          wcache := t.wcache ++ (walkLeaves (core / 8) asid va (walkFor s core asid va).1).filter fun e => !t.wcache.contains e }

/-- A running copy command that has units to move and waits for no put's answer. -/
structure UnitAt (s : State) (core cmd : Nat) (c : Cmd) (k : CopyKind) (r : CopyReq) : Prop where
  cmd  : s.cmd? core cmd = some c
  kind : c.kind = .copy k r
  goes : c.st = .running ∧ c.sent = none ∧ c.next < c.units

/-- The events of the command queues, the copy engines and the matrix units (R331–R373). -/
inductive CommandEvent (s : State) : Instr → State → Prop
  | guardDiscard (core cmd c) (hc : s.cmd? core cmd = some c) (hq : c.st = .queued) (hr : c.refused = true) :
      CommandEvent s (.guardDiscard core cmd) ((s.discardCmd core c).blockExitTest c.block)
  | copyStart (core cmd c) (hc : s.cmd? core cmd = some c) (hq : c.st = .queued) (hk : c.kind.isCopy = true) (hh : s.heldBack core c = false)
      (hg : c.guard = none) (he : s.edgeInto core c = false) (hp : s.pgBusy core c = false) :
      CommandEvent s (.copyCommandStart core cmd) (s.modCmd core cmd fun c => { c with st := .running, since := s.devNs })
  | unitWaits (core cmd c k r b) (h : UnitAt s core cmd c k r) (hk : k ≠ .cpym)
      (ht : unitTaken s core c k r (readWords s c r c.next) (writeWords s c r) = (false, b)) : CommandEvent s (.copyUnitDone core cmd) b
  | copyUnit (core cmd c k r b t c') (h : UnitAt s core cmd c k r) (hk : k ≠ .cpym)
      (ht : unitTaken s core c k r (readWords s c r c.next) (writeWords s c r) = (true, b)) (hu : copyUnit b core c (cmdDet s c) k r = .ok t)
      (hc' : t.cmd? core cmd = some c') (hn : c'.sent = none) : CommandEvent s (.copyUnitDone core cmd) (advanceCopy t core c' r)
  | copyPut (core cmd c k r b t c') (h : UnitAt s core cmd c k r) (hk : k ≠ .cpym)
      (ht : unitTaken s core c k r (readWords s c r c.next) (writeWords s c r) = (true, b)) (hu : copyUnit b core c (cmdDet s c) k r = .ok t)
      (hc' : t.cmd? core cmd = some c') (hn : c'.sent.isSome = true) : CommandEvent s (.copyUnitDone core cmd) t
  | multicast (core cmd c r) (h : UnitAt s core cmd c .cpym r) : CommandEvent s (.copyUnitDone core cmd) (multicastStep s core c r)
  | copyFault (core cmd c k r b n x) (h : UnitAt s core cmd c k r) (hk : k ≠ .cpym)
      (ht : unitTaken s core c k r (readWords s c r c.next) (writeWords s c r) = (true, b))
      (hu : copyUnit b core c (cmdDet s c) k r = .fault n x) : CommandEvent s (.copyFault core cmd) (faultCopy b core c n x)
  | cpymFault (core cmd c r b n x) (h : UnitAt s core cmd c .cpym r) (hm : mustRead s c r = true)
      (ht : unitTaken s core c .cpym r (readWords s c r c.readTo) [] = (true, b)) (hu : readUnit b core c r = .fault n x) :
      CommandEvent s (.copyFault core cmd) (faultCopy b core c n x)
  | destFault (core cmd dest c r n x) (hc : s.cmd? core cmd = some c) (hk : c.kind = .copy .cpym r) (hs : c.st = .running)
      (hd : (c.dests r).contains dest = true ∧ c.mark dest < c.units) (hu : destReach s c r dest (c.mark dest) = .fault n x) :
      CommandEvent s (.cpymDestFault core cmd dest) (copyEnds (leastMark (destFailed s core c r dest n) core cmd r) core cmd)
  | matrixStart (core cmd c) (hc : s.cmd? core cmd = some c) (hn : c.gang = none) (hr : matReady s core c = true) (hf : matFirst s core c = true) :
      CommandEvent s (.matrixCommandStart core cmd) (s.modCmd core cmd fun c => { c with st := .running, since := s.devNs })
  | gangStart (core cmd c) (hc : s.cmd? core cmd = some c) (hg : gangGo s c = true) :
      CommandEvent s (.gangMmaStart core cmd) (forEach (gangMmas s c c.st) s (gangStart (gangMmas s c c.st) s.devNs))
  | matrixUnit (core cmd c) (hc : s.cmd? core cmd = some c) (hs : c.st = .running ∧ c.next < c.units) (hk : c.kind.isMatrix = true ∧ c.kind.isMma = false) :
      CommandEvent s (.matrixUnitDone core cmd) (matUnit s core c)
  | mmaUnit (core cmd c) (hc : s.cmd? core cmd = some c) (hs : c.st = .running ∧ c.next < c.units) (hk : c.kind.isMatrix = true ∧ c.kind.isMma = true)
      (hg : c.gang = none) : CommandEvent s (.matrixUnitDone core cmd) (mmaStep s [] core c)
  | gangUnit (core cmd c) (hc : s.cmd? core cmd = some c) (hs : c.st = .running ∧ c.next < c.units) (hk : c.kind.isMatrix = true ∧ c.kind.isMma = true)
      (hg : c.gang ≠ none) (h4 : (gangMmas s c .running).length = 4) :
      CommandEvent s (.matrixUnitDone core cmd) (forEach ((gangMmas s c .running).filter fun m => m.2.2.next < m.2.2.units) s fun t m =>
        mmaStep t (gangMmas s c .running) m.2.1 m.2.2)
  | matrixComplete (core cmd c) (hc : s.cmd? core cmd = some c) (hs : c.st = .running ∧ c.units ≤ c.next) (hk : c.kind.isMatrix = true)
      (hg : c.gang = none) : CommandEvent s (.matrixCommandComplete core cmd) (finishMatrix s core c (matBytes [] core c))
  | gangComplete (core cmd c) (hc : s.cmd? core cmd = some c) (hs : c.st = .running ∧ c.units ≤ c.next) (hk : c.kind.isMatrix = true)
      (hg : c.gang ≠ none) (h4 : (gangMmas s c .running).length = 4) (ha : ∀ m ∈ gangMmas s c .running, m.2.2.units ≤ m.2.2.next) :
      CommandEvent s (.matrixCommandComplete core cmd)
        (forEach (gangMmas s c .running) s fun t m => finishMatrix t m.2.1 m.2.2 (matBytes (gangMmas s c .running) m.2.1 m.2.2))
  | signatureCount (warp i w p) (hw : s.warp? warp = some w) (hp : w.sigs[i]? = some p) (hc : ∀ c ∈ (s.core (coreOf warp)).cmds, c.id ∉ p.cmds) :
      CommandEvent s (.signatureCount warp i)
        (cvCount (s.modWarp warp fun w => { w with sigs := w.sigs.eraseIdx i }) w.block (coreOf warp) p.cv)
  | flclrInit (core cmd c area px pg n list x b) (hc : s.cmd? core cmd = some c) (hq : c.st ≠ .queued ∨ s.edgeInto core c = false)
      (hk : c.kind = .flclr true area px pg n list) (hx : flLoc s c.block (addOffset area ((128 * c.next : Nat) : Int)) .write = .ok x)
      (ht : engineTurn s core .ownRq (x.homeWords 128) (x.homeWords 128) = (true, b)) :
      CommandEvent s (.flclrRun core cmd) (stepFlclr (initWritten b core x px pg c.next) core c)
  | flclrInitWaits (core cmd c area px pg n list x b) (hc : s.cmd? core cmd = some c) (hq : c.st ≠ .queued ∨ s.edgeInto core c = false)
      (hk : c.kind = .flclr true area px pg n list) (hx : flLoc s c.block (addOffset area ((128 * c.next : Nat) : Int)) .write = .ok x)
      (ht : engineTurn s core .ownRq (x.homeWords 128) (x.homeWords 128) = (false, b)) : CommandEvent s (.flclrRun core cmd) b
  | flclrInitFault (core cmd c area px pg n list f) (hc : s.cmd? core cmd = some c) (hq : c.st ≠ .queued ∨ s.edgeInto core c = false)
      (hk : c.kind = .flclr true area px pg n list) (hx : flLoc s c.block (addOffset area ((128 * c.next : Nat) : Int)) .write = .error f) :
      CommandEvent s (.flclrRun core cmd) (failFlclr s core c f.addr)
  | flclrPix (core cmd c area px pg n list p b t) (hc : s.cmd? core cmd = some c) (hq : c.st ≠ .queued ∨ s.edgeInto core c = false)
      (hk : c.kind = .flclr false area px pg n list) (hp : list[c.next]? = some p)
      (ht : engineTurn s core .ownRq [] (pixTurn s c area p).2.dedup = (true, b)) (hx : (pixTurn b c area p).1 = .ok t) :
      CommandEvent s (.flclrRun core cmd) (stepFlclr (engineOwn t core (pixTurn b c area p).2.dedup) core c)
  | flclrPixWaits (core cmd c area px pg n list p b) (hc : s.cmd? core cmd = some c) (hq : c.st ≠ .queued ∨ s.edgeInto core c = false)
      (hk : c.kind = .flclr false area px pg n list) (hp : list[c.next]? = some p)
      (ht : engineTurn s core .ownRq [] (pixTurn s c area p).2.dedup = (false, b)) : CommandEvent s (.flclrRun core cmd) b
  | flclrPixFault (core cmd c area px pg n list p b f) (hc : s.cmd? core cmd = some c) (hq : c.st ≠ .queued ∨ s.edgeInto core c = false)
      (hk : c.kind = .flclr false area px pg n list) (hp : list[c.next]? = some p)
      (ht : engineTurn s core .ownRq [] (pixTurn s c area p).2.dedup = (true, b)) (hx : (pixTurn b c area p).1 = .error (.trap f)) :
      CommandEvent s (.flclrRun core cmd) (failFlclr b core c f.addr)
  | flclrEnd (core cmd c area px pg n list) (hc : s.cmd? core cmd = some c) (hq : c.st ≠ .queued ∨ s.edgeInto core c = false)
      (hk : c.kind = .flclr false area px pg n list) (hp : list[c.next]? = none) : CommandEvent s (.flclrRun core cmd) (endFlclr s core c)
  | rayStep (core cmd c lanes rid g w b l u) (hc : s.cmd? core cmd = some c) (hk : c.kind = .rqstep lanes rid) (hq : c.st = .queued)
      (he : s.edgeInto core c = false) (hb : rayBefore s core c lanes = false) (hw : cmdWarp s c = some (g, w)) (hbk : s.block? c.block = some b)
      (hl : s.launch? b.launch = some l) (ht : engineTurn s core .rdS [] (rayLanes s g w b l rid lanes).words.dedup = (true, u)) :
      CommandEvent s (.rayStep core cmd)
        (((((rayLanes u g w b l rid lanes).s.modWarp g fun w => w.modResult rid fun r => { r with done := true }).endCmd core c true).wake g
          ).blockExitTest c.block)
  | rayWaits (core cmd c lanes rid g w b l u) (hc : s.cmd? core cmd = some c) (hk : c.kind = .rqstep lanes rid) (hq : c.st = .queued)
      (he : s.edgeInto core c = false) (hb : rayBefore s core c lanes = false) (hw : cmdWarp s c = some (g, w)) (hbk : s.block? c.block = some b)
      (hl : s.launch? b.launch = some l) (ht : engineTurn s core .rdS [] (rayLanes s g w b l rid lanes).words.dedup = (false, u)) :
      CommandEvent s (.rayStep core cmd) u
  | rayGone (core cmd c lanes rid) (hc : s.cmd? core cmd = some c) (hk : c.kind = .rqstep lanes rid) (hq : c.st = .queued)
      (he : s.edgeInto core c = false) (hb : rayBefore s core c lanes = false) (hw : cmdWarp s c = none) :
      CommandEvent s (.rayStep core cmd) ((s.endCmd core c true).blockExitTest c.block)

/-- A request of the host that the device takes at once: no earlier one is held, the link and CXLMEM are up, and its home can serve it (R263, R272,
R280, R435). `b` is the state in which the device has it. -/
structure HostMay (s : State) (q : HostReq) (b : State) : Prop where
  first  : s.hostHeld = []
  held   : b = { s with hostHeld := [q] }
  link   : s.hostLinkRefused = false ∧ s.ready.getLsbD 2 = true
  served : b.homeReady 255 q.whole q.words = true

/-- The messages of the coherence protocol and the accesses of the host (R258–R284). -/
inductive CoherenceEvent (s : State) : Instr → State → Prop
  | arrives (ev msg k r) (hi : HomeMsg ev msg k) (hr : s.req? msg = some r) (hk : r.kind = k ∧ k ≠ .wb) (ha : r.arrived = none ∧ r.served = false)
      (hf : firstOnWay s msg Msg.toHome (r.agent, r.line) = true) (hm : s.mayAccept r.line r.agent = true) :
      CoherenceEvent s ev (tryServe ((s.accepted r.line r.agent).newId.1.modReq msg fun q => { q with arrived := some (s.accepted r.line r.agent).nextId }) msg)
  | wb (msg r) (hr : s.req? msg = some r) (hk : r.kind = .wb) (ha : r.arrived = none ∧ r.served = false)
      (hf : firstOnWay s msg Msg.toHome (r.agent, r.line) = true) (hm : s.mayAccept r.line r.agent = true) :
      CoherenceEvent s (.wb msg) (serveWb ((s.accepted r.line r.agent).newId.1.modReq msg fun q => { q with arrived := some (s.accepted r.line r.agent).nextId }) r)
  | again (ev msg k r n) (hi : HomeMsg ev msg k) (hr : s.req? msg = some r) (hk : r.kind = k) (ha : r.arrived = some n) :
      CoherenceEvent s ev (tryServe s msg)
  | fwd (msg r) (h : SnoopAt s msg .fwd r) : CoherenceEvent s (.fwd msg) ((setOthers (s.dropMsg msg) r.agent r.line r.words r.others).send fun n => .answer
      { id := n, agent := r.agent, txn := r.txn, kind := .fwd, line := r.line, words := r.words
        data := (ownerData s r.agent (maskWords r.line r.words) true).1, poison := (ownerData s r.agent (maskWords r.line r.words) true).2
        inWb := (maskWords r.line r.words).any fun w => inWbuf s r.agent w })
  | rcl (msg r) (h : SnoopAt s msg .rcl r) : CoherenceEvent s (.rcl msg)
      (((forEach (maskWords r.line r.words) (s.dropMsg msg) fun s w => s.l1Drop r.agent w).fireCore r.agent r.line).send fun n => .answer
        { id := n, agent := r.agent, txn := r.txn, kind := .rcl, line := r.line, words := r.words
          data := (ownerData s r.agent (maskWords r.line r.words) false).1, poison := (ownerData s r.agent (maskWords r.line r.words) false).2
          inWb := (maskWords r.line r.words).any fun w => inWbuf s r.agent w })
  | inv (msg r t) (h : SnoopAt s msg .inv r) (ht : t = forEach (maskWords r.line r.words) (s.dropMsg msg) fun s w => s.dropShared w r.agent) :
      CoherenceEvent s (.inv msg) ((t.fireCore r.agent r.line).send fun n => .answer
        { id := n, agent := r.agent, txn := r.txn, kind := .inv, line := r.line, words := r.words, data := [], poison := 0
          crossed := upgCrossed t r, gone := (t.l1Line r.agent r.line).isNone })
  | grant (msg victim r t o q) (h : s.fromHome? msg = some (.reply r))
      (ht : t = if (r.own ||| r.share ||| r.lease) = 0 then s.dropMsg msg else l1Room (s.dropMsg msg) r.agent r.line victim)
      (ho : t.op? r.agent r.op = some o) (hq : o.parts.find? (fun q => q.st == .sent r.req) = some q) :
      CoherenceEvent s (.grant msg victim)
        (pump (completePart (fillReply t r ((q.accs.head?.map fun a => nbits a.vaddr.toNat 0 57 / 128).getD 0)) r o q) r.agent)
  | homeAck (msg r q) (h : s.net.find? (fun m => m.ident == msg) = some (.answer r)) (hf : firstOnWay s msg Msg.toHome (r.agent, r.line) = true)
      (hq : (s.dropMsg msg).req? r.txn = some q) (hw : q.waiting.contains (r.agent, r.kind == .inv) = true)
      (hn : s.fenced.contains r.agent = false) (hb : r.inWb = false ∨ r.kind = .fwd) :
      CoherenceEvent s (.homeAck msg) (answered (takeAnswer (s.dropMsg msg) r) r.txn r.agent (r.kind == .inv))
  | l2MissFill (line victim m) (h : s.misses.find? (fun m => m.line == line) = some m) (hv : victimOk s line victim = true) :
      CoherenceEvent s (.l2MissFill line victim .none)
        (kickSlice { forEach (missSectors (s.evictL2For victim) m) (s.evictL2For victim) fun s k => s.fillSector (32 * line + 8 * k) with
          misses := (forEach (missSectors (s.evictL2For victim) m) (s.evictL2For victim) fun s k => s.fillSector (32 * line + 8 * k)).misses.filter
            fun x => x.line != line } (sliceOf line))
  | l2MissError (line victim m t) (h : s.misses.find? (fun m => m.line == line) = some m) (hv : victimOk s line victim = true)
      (ht : t = forEach (missSectors (s.evictL2For victim) m) ((s.evictL2For victim).sectorsLost line (missSectors (s.evictL2For victim) m))
        fun s k => s.fillSector (32 * line + 8 * k)) :
      CoherenceEvent s (.l2MissFill line victim .dram) (kickSlice { t with misses := t.misses.filter fun x => x.line != line } (sliceOf line))
  | l2Error (line victim chunk) (h : chunk < 16) (hv : s.sectorValid (32 * line + 2 * chunk) = true) :
      CoherenceEvent s (.l2MissFill line victim (.l2 chunk))
        { s with
          l2 := tmod s.l2 line fun l => { l with poison := l.poison ||| bit32 (2 * chunk) ||| bit32 (2 * chunk + 1) }
          uncorrected := min Config.counterMax (s.uncorrected + 1)
          badPas := (s.badPas ++ [128 * line + 8 * chunk]).drop (s.badPas.length + 1 - 64)
          notices := .memoryError (128 * line + 8 * chunk) :: s.notices }
  | victimForce (line victim t) (h : (s.misses.any fun m => m.line == line && m.since + 65536 ≤ s.now) = true)
      (hf : forcedWay s line victim = true)
      (ht : t = (((forEach (maskWords victim (BitVec.allOnes 32)) s fun s w => (s.recallNow w).invNow w).modDir victim fun d => { d with opens := [] }).count
        .openLost (s.dirLine victim).opens.length)) :
      CoherenceEvent s (.victimForce line victim)
        (evictL2 (if (s.dirLine victim).opens.length = 0 then t else t.tell (.openLost victim (s.dirLine victim).opens.length)) victim)
  | agentFence (agent line t) (h : overdueSnoop s agent = some line) (ht : t = ((s.fence agent).tell (.agentFenced agent line)).fenceLost agent) :
      CoherenceEvent s (.agentFence agent) (forEach (waitingOn t agent) t fun s id => answered (answered s id agent true) id agent false)
  | writeAcknowledgedWb (msg r) (h : s.fromHome? msg = some (.ack r)) (hk : r.kind = .wb) :
      CoherenceEvent s (.writeAcknowledged msg) ((s.dropMsg msg).modCore r.agent fun c => { c with wbuf := c.wbuf.filter fun b => b.req != r.req })
  | writeAcknowledged (msg r o q) (h : s.fromHome? msg = some (.ack r)) (hk : r.kind ≠ .wb) (ho : (s.dropMsg msg).op? r.agent r.op = some o)
      (hq : o.parts.find? (fun q => q.st == .sent r.req) = some q) :
      CoherenceEvent s (.writeAcknowledged msg) (pump (finishPart (ackedStore (s.dropMsg msg) r q) r.agent o.id q.sec) r.agent)
  | hostReads (kind line b) (hl : line < 2 ^ 31) (h : HostMay s (.rd kind line) b) :
      CoherenceEvent s (.hostMemrd kind line) { hostReads (b.homeTaken 255 (maskWords line (BitVec.allOnes 32))) kind line with hostHeld := [] }
  | hostWrites (pa data b) (hp : pa < 2 ^ 38 ∧ pa % 128 + data.length ≤ 128) (h : HostMay s (.wr pa data) b) :
      CoherenceEvent s (.hostMemwr pa data)
        { hostWrites (b.homeTaken 255 ((enabledBytes pa data).map fun e => e.1)) (pa / 128) (enabledBytes pa data) with hostHeld := [] }
  | hostReadWaits (kind line b) (hl : line < 2 ^ 31) (h0 : s.hostHeld = []) (hb : b = { s with hostHeld := [.rd kind line] })
      (hr : s.hostLinkRefused = false ∧ s.ready.getLsbD 2 = true) (h : b.homeReady 255 [] (maskWords line (BitVec.allOnes 32)) = false) :
      CoherenceEvent s (.hostMemrd kind line)
        { b.homeAsk 255 (HostReq.rd kind line).kind [] (maskWords line (BitVec.allOnes 32)) with hostHeld := [.rd kind line] }
  | hostReadHeld (kind line) (hl : line < 2 ^ 31) (h : s.hostLinkRefused = false ∧ s.ready.getLsbD 2 = false) :
      CoherenceEvent s (.hostMemrd kind line) { s with hostHeld := s.hostHeld ++ [.rd kind line] }
  | hostWriteHeld (pa data) (hp : pa < 2 ^ 38 ∧ pa % 128 + data.length ≤ 128) (h : s.hostLinkRefused = false ∧ s.ready.getLsbD 2 = false) :
      CoherenceEvent s (.hostMemwr pa data) { s with hostHeld := s.hostHeld ++ [.wr pa data] }
  | hostReadRefused (kind line) (hl : line < 2 ^ 31) (h : s.hostLinkRefused = true) :
      CoherenceEvent s (.hostMemrd kind line) { s with hostHeld := [] }
  | hostWriteRefused (pa data) (hp : pa < 2 ^ 38 ∧ pa % 128 + data.length ≤ 128) (h : s.hostLinkRefused = true) :
      CoherenceEvent s (.hostMemwr pa data) { s with hostHeld := [] }
  | bisnpAnswer (msg data r t) (h : s.fromHome? msg = some (.snoop r)) (ha : r.agent = 255) (ht : hostAnswer (s.dropMsg msg) r data = t) :
      CoherenceEvent s (.bisnpAnswer msg data) (answered t r.txn 255 (r.kind == .inv))
  | hostSnoopInv (core line l) (h : s.l1Line core (2 ^ 60 + line) = some l) :
      CoherenceEvent s (.hostSnoop core line true) (evictL1 s core (2 ^ 60 + line))
  | hostSnoop (core line l) (h : s.l1Line core (2 ^ 60 + line) = some l) :
      CoherenceEvent s (.hostSnoop core line false) ((forEach l.words s fun s e =>
          if e.2.dirty then { s with hostMem := mputNat s.hostMem (128 * line + 4 * e.1) 4 e.2.val.toNat } else s).modCore core fun c =>
        { c with l1 := tmod c.l1 (2 ^ 60 + line) fun l => { l with words := l.words.map fun e => (e.1, { e.2 with st := .shared, dirty := false }) } })
  | remoteGet (off n) (h0 : n ≠ 0) (hu : s.fabUp = true) (h : off + n ≤ s.windowBytes ∧ s.windowBase + off + n ≤ 2 ^ 38) :
      CoherenceEvent s (.remoteWindowAccess off (.get n)) (forEach ((List.range ((s.windowBase + off + n - 1) / 4 + 1 - (s.windowBase + off) / 4)).map
        fun i => (s.windowBase + off) / 4 + i) s fun s w => s.fillSector w)
  | remotePut (off d) (h0 : d ≠ []) (hu : s.fabUp = true) (h : off + d.length ≤ s.windowBytes ∧ s.windowBase + off + d.length ≤ 2 ^ 38) :
      CoherenceEvent s (.remoteWindowAccess off (.put d)) (s.cohWrite (s.windowBase + off) d)
  | remoteReduce (off op x) (h0 : windowSize (.reduce op x) ≠ 0) (hu : s.fabUp = true)
      (h : off + windowSize (.reduce op x) ≤ s.windowBytes ∧ s.windowBase + off + windowSize (.reduce op x) ≤ 2 ^ 38)
      (hp : (s.cohRead (s.windowBase + off) (windowSize (.reduce op x))).2 = false) :
      CoherenceEvent s (.remoteWindowAccess off (.reduce op x)) (s.cohWrite (s.windowBase + off) (leOfNat (windowSize (.reduce op x))
        (redNew op (natOfLe (s.cohRead (s.windowBase + off) (windowSize (.reduce op x))).1) x)))
  | remoteReducePoison (off op x) (h0 : windowSize (.reduce op x) ≠ 0) (hu : s.fabUp = true)
      (h : off + windowSize (.reduce op x) ≤ s.windowBytes ∧ s.windowBase + off + windowSize (.reduce op x) ≤ 2 ^ 38)
      (hp : (s.cohRead (s.windowBase + off) (windowSize (.reduce op x))).2 = true) :
      CoherenceEvent s (.remoteWindowAccess off (.reduce op x)) (s.count .poisonDrop 1)

/-- A parked split's test goes again: its words' home can serve them, and `b` is the state in which it has (R265, R272). -/
structure AgainAt (s : State) (warp entry : Nat) (e : Entry) (k : Wait) (b : State) : Prop where
  parked : ParkedAt s warp entry e k
  served : s.homeReady (coreOf warp) [] (e.watchWords s warp) = true
  taken  : b = if (e.watchWords s warp).isEmpty then s else s.aluTaken (coreOf warp) (e.watchWords s warp)

/-- The re-tests and releases of parked lanes, fragments and sections (R304–R317, R378–R382). -/
inductive ReleaseEvent (s : State) : Instr → State → Prop
  | counter (warp entry e p thr acq scope b x) (h : AgainAt s warp entry e (.counter p thr acq scope) b) (hx : objAgain b warp p 8 = .ok x)
      (hp : objPoison b p x 0 (if thr.isNone then 8 else 4) = none) (hn : thr.getD (objNum b x 4 4).1 ≤ (objNum b x 0 4).1) :
      ReleaseEvent s (.cwaitRetest warp entry)
        (releaseWith (if acq then acquireAct b warp scope (boundRegion b warp p) else b) warp entry none none)
  | counterTrap (warp entry e p thr acq scope b t) (h : AgainAt s warp entry e (.counter p thr acq scope) b) (hx : objAgain b warp p 8 = .error t) :
      ReleaseEvent s (.cwaitRetest warp entry) (trapParked b warp e t)
  | byteCount (warp entry e p ph acq scope b x) (h : AgainAt s warp entry e (.byteCount p ph acq scope) b) (hx : objAgain b warp p 16 = .ok x)
      (he : (objNum b x 12 1).1 % 2 ≠ 1) (hn : (objNum b x 8 4).1 ≠ ph) :
      ReleaseEvent s (.cwaitRetest warp entry) (releaseWith (if acq then acquireAct b warp scope none else b) warp entry none none)
  | byteCountFault (warp entry e p ph acq scope b x) (h : AgainAt s warp entry e (.byteCount p ph acq scope) b) (hx : objAgain b warp p 16 = .ok x)
      (he : (objNum b x 12 1).1 % 2 = 1) :
      ReleaseEvent s (.cwaitRetest warp entry) (trapParked b warp e { cause := 0x30, detail := (objNum b x 14 1).1, addr := p })
  | rank (warp entry e p k scope q b x) (h : AgainAt s warp entry e (.rank p k scope q) b) (hx : objAgain b warp p 8 = .ok x)
      (hp : objPoison b p x 0 8 = none) (hn : (objNum b x 4 4).1 ≤ (objNum b x 0 4).1) :
      ReleaseEvent s (.arrivecRankRelease warp entry)
        (releaseWith (acquireAct b warp scope (boundRegion b warp p)) warp entry none (some (q, true)))
  | counterWaits (warp entry e p thr acq scope b x) (h : AgainAt s warp entry e (.counter p thr acq scope) b) (hx : objAgain b warp p 8 = .ok x)
      (hp : objPoison b p x 0 (if thr.isNone then 8 else 4) = none) (hn : (objNum b x 0 4).1 < thr.getD (objNum b x 4 4).1) :
      ReleaseEvent s (.cwaitRetest warp entry) (watch b warp x 8)
  | retestWaits (warp entry e p thr acq scope) (h : ParkedAt s warp entry e (.counter p thr acq scope))
      (hv : s.homeReady (coreOf warp) [] (e.watchWords s warp) = false) :
      ReleaseEvent s (.cwaitRetest warp entry) (s.homeAsk (coreOf warp) .at [] (e.watchWords s warp))
  | registers (warp entry e line) (h : ParkedAt s warp entry e (.registration line))
      (hv : s.homeReady (coreOf warp) [] (maskWords line (BitVec.allOnes 32)) = true) :
      ReleaseEvent s (.monitorRegistered warp entry)
        (releaseWith (registerWords (s.homeTaken (coreOf warp) (maskWords line (BitVec.allOnes 32))) (coreOf warp) line (BitVec.allOnes 32)) warp entry none none)
  | registerWaits (warp entry e line) (h : ParkedAt s warp entry e (.registration line))
      (hv : s.homeReady (coreOf warp) [] (maskWords line (BitVec.allOnes 32)) = false) :
      ReleaseEvent s (.monitorRegistered warp entry) (s.homeAsk (coreOf warp) .rdS [] (maskWords line (BitVec.allOnes 32)))
  | timeout (warp w m) (hw : s.warp? warp = some w) (hm : w.monitor = some m) (ha : m.armed = true ∧ m.fired = false) (ht : m.armedAt + 65536 ≤ s.now) :
      ReleaseEvent s (.monitorTimeout warp) (s.modWarp warp Warp.fire)
  | pushed (warp entry e slot i item q t) (h : ParkedAt s warp entry e (.queuePush slot i item q)) (hs : pushStep s warp slot i item = .ok (some t)) :
      ReleaseEvent s (.queueSlotStep warp entry) (releaseWith t warp entry none (some (q, true)))
  | popped (warp entry e slot i cap d q t v) (h : ParkedAt s warp entry e (.queuePop slot i cap d q)) (hs : popStep s warp slot i cap = .ok (some (t, v))) :
      ReleaseEvent s (.queueSlotStep warp entry) (releaseWith t warp entry (some (d, v)) (some (q, true)))
  | slotWaits (warp entry e slot i item q) (h : ParkedAt s warp entry e (.queuePush slot i item q)) (hs : pushStep s warp slot i item = .ok none) :
      ReleaseEvent s (.queueSlotStep warp entry) (slotAsk s warp slot)
  | parkRetest (core addr xs ws b) (hx : xs = ((s.core core).stall.filter fun e => e.addr.toNat == addr).flatMap (stallSplits s core))
      (hw : ws = (xs.flatMap fun x => x.2.watchWords s x.1).dedup) (hv : s.homeReady core [] ws = true)
      (hb : b = if ws.isEmpty then s else s.aluTaken core ws) : ReleaseEvent s (.parkRetest core addr) ((forEach xs b parkAgain).stallTidy core)
  | parkWaits (core addr ws)
      (hw : ws = ((((s.core core).stall.filter fun e => e.addr.toNat == addr).flatMap (stallSplits s core)).flatMap fun x => x.2.watchWords s x.1).dedup)
      (hv : s.homeReady core [] ws = false) : ReleaseEvent s (.parkRetest core addr) (s.homeAsk core .at [] ws)
  | sleepWake (warp entry e u) (h : ParkedAt s warp entry e (.sleep u)) (hu : u ≤ s.now) :
      ReleaseEvent s (.sleepWake warp entry) (releaseWith s warp entry none none)
  | waveEnds (warp entry w e d b id p m m') (hw : s.warp? warp = some w) (h : ParkedAt s warp entry e (.fragment d)) (hb : s.blockOf warp = some b)
      (hp : b.pass = some id ∧ tget s.passes id = some p) (hm : p.members.find? (fun m => m.block == w.block) = some m) (hs : p.started = true)
      (ht : m' = if m.turn b.liveWarps then takeTile id p b.liveWarps m (m.tile + 1) else m) (he : m'.ended p = true) :
      ReleaseEvent s (.fragmentDelivery warp entry []) (waveStatus (putMember s id m') warp e d fun _ => 3)
  | tileEnds (warp entry w e d b id p m m') (hw : s.warp? warp = some w) (h : ParkedAt s warp entry e (.fragment d)) (hb : s.blockOf warp = some b)
      (hp : b.pass = some id ∧ tget s.passes id = some p) (hm : p.members.find? (fun m => m.block == w.block) = some m) (hs : p.started = true)
      (ht : m' = if m.turn b.liveWarps then takeTile id p b.liveWarps m (m.tile + 1) else m) (he : m'.ended p = false)
      (ho : p.tileMode = true ∧ m'.owed.contains w.idx = true) :
      ReleaseEvent s (.fragmentDelivery warp entry [])
        (waveStatus (putMember s id { m' with owed := m'.owed.filter fun i => i != w.idx, got := m'.got ++ [w.idx] }) warp e d fun _ => 2)
  | wave (warp entry pick w e d b id p m m' fr rest) (hw : s.warp? warp = some w) (h : ParkedAt s warp entry e (.fragment d)) (hb : s.blockOf warp = some b)
      (hp : b.pass = some id ∧ tget s.passes id = some p) (hm : p.members.find? (fun m => m.block == w.block) = some m) (hs : p.started = true)
      (ht : m' = if m.turn b.liveWarps then takeTile id p b.liveWarps m (m.tile + 1) else m) (he : m'.ended p = false)
      (ho : (p.tileMode && m'.owed.contains w.idx) = false) (hf : takeFrags p.seqBase m'.queue pick = some (fr, rest))
      (hn : fr ≠ [] ∧ fr.length ≤ (lanesOf e.mask).length ∧ fr.length ≤ 4096 - (s.core (coreOf warp)).gate.length) :
      ReleaseEvent s (.fragmentDelivery warp entry pick) (waveStatus
        (forEach ((lanesOf e.mask).zip fr) (putMember s id { m' with
            queue := rest, fin := p.tileMode && rest.isEmpty, owed := if p.tileMode && rest.isEmpty then b.liveWarps else []
            got := if p.tileMode && rest.isEmpty then [] else m'.got })
          fun s x => giveFrag s warp id m'.num x.1 x.2) warp e d
        fun l => if ((lanesOf e.mask).zip fr).any fun x => x.1 == l then 1 else 0)
  | ordenter (warp lane e f) (h : parkedEntry s warp lane (fun x => x == .ordenter || x == .listOrder) = some e) (hs : e.st = .parked .ordenter)
      (hf : ((s.warp? warp).bind fun w => tget w.frags lane) = some f) (hb : gateBlocked s (coreOf warp) f.gate = false) :
      ReleaseEvent s (.ordenterRelease warp lane) ((enterSection s warp lane).releaseLanes warp e.eid (laneBit lane) (e.pc + 8))
  | listOrder (warp lane e f) (h : parkedEntry s warp lane (fun x => x == .ordenter || x == .listOrder) = some e) (hs : e.st = .parked .listOrder)
      (hf : ((s.warp? warp).bind fun w => tget w.frags lane) = some f) (hb : olderOpen s (coreOf warp) f = false) :
      ReleaseEvent s (.ordenterRelease warp lane) (s.releaseLanes warp e.eid (laneBit lane) e.pc)
  | ordexit (warp lane e) (h : parkedEntry s warp lane (inOrdexit lane) = some e) (hc : cmdsLive s (coreOf warp) (ordexitCmds e lane) = false) :
      ReleaseEvent s (.ordexitRelease warp lane) ((endSection s warp lane).releaseLanes warp e.eid (laneBit lane) (e.pc + 8))
  | gateEntryFree (core entry e) (h : tget (s.core core).gate entry = some e) (hl : e.leaving = true) (hc : cmdsLive s core e.cmds = false)
      (ho : opsLive s core e.ops = false) : ReleaseEvent s (.gateEntryFree core entry) (gateFree s core entry)

/-- The requests through the mailbox (R256, R431, R432, R438, R439, R441): each is done and reported. -/
inductive MailboxDone (s : State) : MailboxReq → State → Prop
  | clearHealth : MailboxDone s .clearHealth { s with health := [], uncorrected := 0, badPas := [], reports := s.reports ++ [.done] }
  | discardAll (a) : MailboxDone s (.discardAll a) (mailed (discard s .device 0 a fun _ => true))
  | discardRange (a start len) : MailboxDone s (.discardRange a start len) (mailed (discard s .device 0 a fun t => len != 0 && t.overlaps start len))
  | raiseVersion (v) : MailboxDone s (.raiseVersion v) { s with fusedVersion := max s.fusedVersion v, reports := s.reports ++ [.done] }
  | readHealth : MailboxDone s .readHealth { s with reports := s.reports ++ [.health (s.eol ++ s.health ++ [s.uncorrected] ++ s.badPas)] }
  | addPeer (p a) (h : p < 4096) : MailboxDone s (.setPeer p (some a)) { s with peers := tset s.peers p a, reports := s.reports ++ [.done] }
  | dropPeer (p) (h : p < 4096) : MailboxDone s (.setPeer p none) { s with peers := tdel s.peers p, reports := s.reports ++ [.done] }
  | revokeKey (k) : MailboxDone s (.revokeKey k) { s with revoked := k :: s.revoked.filter fun x => x != k, reports := s.reports ++ [.done] }
  | setWindow (base bytes) (h : base + bytes ≤ 2 ^ 38) : MailboxDone s (.setWindow base bytes)
      { s with windowBase := base, windowBytes := bytes, reports := s.reports ++ [.done] }
  | setPowerCap (w) (h : w ≤ 3600) : MailboxDone s (.setPowerCap w) { s with powerCap := w, reports := s.reports ++ [.done] }
  | startFirmware (asid pc) (h : s.queueFull = false ∧ s.fatal = false ∧ s.image.isSome = true) : MailboxDone s (.startFirmware asid pc)
      { startFirmware s asid pc with reports := (startFirmware s asid pc).reports ++ [.done] }

/-- The events of the system: peers, power, security, health, resets (R279, R425–R441). -/
inductive SystemEvent (s : State) : Instr → State → Prop
  | peerTimeout (peer) : SystemEvent s (.peerTimeout peer)
      (forEach (s.cores.flatMap fun c => (c.2.cmds.filter fun x => x.lateAt s peer).map fun x => ((c.1, x) : Nat × Cmd))
        (forEach ((peerOps s).filter fun e => e.2.space == .remote peer && fabricLate s e.2.sentAt) s fun (s : State) (e : Nat × LsuOp) => failPeerOp s e.1 e.2 0x14 0 0)
        fun (s : State) (e : Nat × Cmd) => putFailed { s with puts := s.puts.filter fun q => e.2.sent != some q.id } e.1 e.2 0x14)
  | putAck (id refused q) (hu : s.fabUp = true) (h : s.puts.find? (fun q => q.id == id) = some q) : SystemEvent s (.peerAck id refused) (putAnswered s q refused)
  | opRefused (id core o) (hu : s.fabUp = true) (h : s.puts.find? (fun q => q.id == id) = none) (ho : (peerOps s).find? (fun e => e.2.id == id) = some (core, o)) :
      SystemEvent s (.peerAck id true) (failPeerOp s core o 0x10 2 o.peerPtr)
  | getRefused (id core c) (hu : s.fabUp = true) (h : s.puts.find? (fun q => q.id == id) = none) (ho : (peerOps s).find? (fun e => e.2.id == id) = none)
      (hc : (s.cores.findSome? fun c => (c.2.cmds.find? fun x => x.id == id && x.srcPeer.isSome).map fun x => (c.1, x)) = some (core, c)) :
      SystemEvent s (.peerAck id true) (faultCopy s core c 0x10 0)
  | readySet (bit) (h : bit ≤ 36) (hm : bit = 2 → s.ready.getLsbD 0 = true ∧ s.ready.getLsbD 1 = true)
      (hd : bit = 4 → s.image.isSome = true) (ha : bit = 9 → s.stages ≠ 0) :
      SystemEvent s (.readySet bit) ({ s with ready := s.ready ||| BitVec.ofNat 64 (2 ^ bit) } : State).hostPump
  | coreReset (n) (h : n < 216) (hf : s.fenced.contains n = true) :
      SystemEvent s (.coreReset (.core n)) (({ forgetAgent s n with
        hostCached := ((forgetAgent s n).hostCached.map fun e => (e.1, e.2.filter fun c => c != n)).filter fun e => !e.2.isEmpty } : State).modCore n fun c =>
          { c with l1 := [], opens := [], wbuf := [], needsReset := false })
  | linkReset (h : s.hostLinkRefused = true) : SystemEvent s (.coreReset .hostLink)
      { s with hostLinkRefused := false, fenced := s.fenced.filter fun a => a != 255 }
  | overcurrent (on) : SystemEvent s (.overcurrent on) { s with stalled := on }
  | throttle (h : 75 < s.clockMhz) : SystemEvent s .thermalThrottle { s with clockMhz := s.clockMhz - 75 }
  | shutdown : SystemEvent s .thermalShutdown { s with powered := false }
  | watchdogMiss : SystemEvent s .farrierWatchdogMiss { s with clockMhz := min s.clockMhz 600, hwCapped := true, restarts := s.restarts + 1 }
  | verified (data version signed) (h : imageOk s version signed = true) : SystemEvent s (.firmwareVerify data version signed)
      (({ s.tell (.firmware (sha256 data) true) with image := some (sha256 data, version), hwCapped := false } : State).measure (sha256 data))
  | rejected (data version signed) (h : imageOk s version signed = false) (hi : s.image = none) :
      SystemEvent s (.firmwareVerify data version signed)
        { s.tell (.firmware (sha256 data) false) with svcMode := 3, ready := s.ready &&& ~~~ 0x10#64 }
  | rejectedLater (data version signed x) (h : imageOk s version signed = false) (hi : s.image = some x) :
      SystemEvent s (.firmwareVerify data version signed) (s.tell (.firmware (sha256 data) false))
  | spdm (nonce) (h : s.ready.getLsbD 9 = true) : SystemEvent s (.spdmRequest nonce)
      { s with reports := s.reports ++ [.measured nonce s.measurements (Config.freeSignature nonce s.measurements)] }
  | health (hours corrected) : SystemEvent s (.healthUpdate hours corrected)
      (forEach ((hours.take 5).zipIdx.filter fun e => e.1 < 8760)
        ({ s with eol := hours.take 5, health := addCounts s.health corrected }.count .eccCorrected (corrected.take 5).sum)
        fun s e => s.tell (.endOfLife e.2))
  | fatal (cause pa agent) (hc : cause ≠ 0 ∧ cause ≤ 4) (hf : s.fatal = false) (hd : s.dumpBase.getLsbD 0 = false) :
      SystemEvent s (.fatalError cause pa agent) { s with fatal := true, svcMode := 3, notices := .fatal cause pa agent :: s.notices }
  | fatalDump (cause pa agent) (hc : cause ≠ 0 ∧ cause ≤ 4) (hf : s.fatal = false) (hd : s.dumpBase.getLsbD 0 = true) :
      SystemEvent s (.fatalError cause pa agent) { s with
        fatal := true, svcMode := 3, notices := .fatal cause pa agent :: s.notices
        dram := mputBytes s.dram (nbits s.dumpBase.toNat 26 12 * 2 ^ 26) (dumpBytes s cause pa agent)
        dramPoison := s.dramPoison.filter fun k => k < nbits s.dumpBase.toNat 26 12 * 2 ^ 26 / 32 ||
          (nbits s.dumpBase.toNat 26 12 * 2 ^ 26 + (dumpBytes s cause pa agent).length) / 32 ≤ k }
  | reset : SystemEvent s .reset { State.reset with
      schedule := s.schedule, focus := s.focus, fresh := s.fresh, nextId := s.nextId
      hostMem := s.hostMem, fusedVersion := s.fusedVersion, revoked := s.revoked, health := s.health, uncorrected := s.uncorrected, badPas := s.badPas
      eol := s.eol, reports := s.reports, notices := s.notices }
  | mailbox (r t) (h : MailboxDone s r t) : SystemEvent s (.farrierMailboxRequest r) t
  | restarted (core) (h : (s.core core).halted = true) : SystemEvent s (.haltedCoreRestart core) (s.modCore core fun c => { c with halted := false })

end Sys2Proof.Machine
end

