-- ==== Sys2Proof/Safety/Uniform.lean ====
section
/-! DEFINITION. The uniform instructions that reach beyond their warp's registers: under which conditions each has its own effect,
and what that is (R96–R131, R214–R221, R238–R259, R291–R318, R330–R343, R350–R369, R438). -/

namespace Sys2Proof.Machine

/-- An object at a pointer: it lies at x, and no word among its first n bytes is poisoned (R291). -/
structure ObjAt (b : State) (c : Ctx) (ptr : DWord) (size n : Nat) (k : AccKind) (ok : Nat → Bool) (x : Loc) : Prop where
  lies  : objLoc b c.g ptr size k ok = .ok x
  sound : objPoison b ptr x 0 n = none

/-- A queue header at a pointer, well formed and free of poison (R312). -/
structure QueueAt (b : State) (c : Ctx) (ptr : DWord) (x : Loc) (h : QueueHdr) : Prop where
  lies : objLoc b c.g ptr 128 .write devSpaces = .ok x
  low  : objPoison b ptr x 0 0x0C = none
  high : objPoison b ptr x 0x10 0x0C = none
  hdr  : queueHdr b x = h
  ok   : h.ok = true

/-- The operands of V2S: it reads A in one lane, under UNI in every lane of the split (R214). -/
def v2sOpnds (s : State) (mode : Nat) (w64 : Bool) (d : Nat) (a : Src) (k : Nat) : Opnds :=
  { (srcOpnds [(a, if w64 then 2 else 1)]) with
    sr := if mode = 1 then [k] else [], sw := [d], seen := v2sSeen s mode (if w64 then 2 else 1) a k }

/-- A copy request that a posting accepts: its record lies at ptr, and every check holds (R330). -/
structure CopyAt (b : State) (c : Ctx) (w : Warp) (blk : Block) (l : Launch) (k : CopyKind) (ptr : DWord) (r : CopyReq) : Prop where
  block  : b.blockOf c.g = some blk
  launch : b.launchOf c.g = some l
  record : ∃ n off yard, objLoc b c.g ptr 128 .read (fun x => x == 8) = .ok (.spad n off yard) ∧ copyReqOf (readLoc b (.spad n off yard) 128).1 = r
  check  : copyCheck l w.block blk k r = none
  fixed  : (l.det && k == .redv && 6 ≤ r.op) = false

/-- The command that a copy request makes (R331). -/
def copyCmd (b : State) (w : Warp) (blk : Block) (l : Launch) (k : CopyKind) (r : CopyReq) (id : Nat) : Cmd :=
  { id := id, block := w.block, warp := w.idx, kind := .copy k r, feet := copyFeet l w.block blk k r, guard := r.guardSlot, gslot := r.guardSlot, gout := r.outSlot
    pg := some r.pg, done := r.done, units := r.total, since := b.devNs }

/-- What a posting has done before it takes a place in the queue: the warp's earlier stores are released (R330). -/
def copyReleased (b : State) (c : Ctx) (w : Warp) (blk : Block) (l : Launch) (k : CopyKind) (r : CopyReq) : State :=
  releaseAct b c.g (postScope (copyFeet l w.block blk k r)) none

/-- A copy command stands in its core's queue (R330): its guard slots are named, its destination lines absent. -/
def copyPosted (t : State) (c : Ctx) (w : Warp) (blk : Block) (l : Launch) (k : CopyKind) (r : CopyReq) : State :=
  acceptCopy ((t.newId.1.nameGuards w.block (r.guardSlot.toList ++ r.outSlot.toList)).noteCmd c.g c.lanes t.nextId) (coreOf c.g)
    (copyCmd t w blk l k r t.nextId) k r

/-- A core's queue has room for a command (R16). -/
def State.queueRoom (s : State) (core : Nat) : Prop := (s.core core).cmds.length < 64

/-- The matrix instructions: what each reads and how it is checked (R350–R368). -/
inductive MatrixInstr : Instr → Guard → List Nat → MatCheck → Prop
  | tld (g col t a b c) : MatrixInstr (.tld g col t a b c) g [a, b, c] (moveCheck false col t a b c)
  | tst (g col t a b c) : MatrixInstr (.tst g col t a b c) g [a, b, c] (moveCheck true col t a b c)
  | tzero (g t b) : MatrixInstr (.tzero g t b) g [b] (tzeroCheck t b)
  | tcvt (g rm satf d a b) : MatrixInstr (.tcvt g rm satf d a b) g [b] (tcvtCheck rm satf d a b)
  | mma (g cv a b) : MatrixInstr (.mma g cv a b) g [a, b] (mmaCheck false cv a b 63)
  | mmax (g cv a b c) : MatrixInstr (.mmax g cv a b c) g [a, b, c] (mmaCheck true cv a b c)
  | aclr (g a b) : MatrixInstr (.aclr g a b) g [a, b] (aclrCheck a b)
  | ald (g t a b) : MatrixInstr (.ald g t a b) g [a, b] (aldCheck t a b)
  | ast (g t a b) : MatrixInstr (.ast g t a b) g [a, b] (astCheck t a b)
  | acvt (g rm satf t a b) : MatrixInstr (.acvt g rm satf t a b) g [a, b] (acvtCheck rm satf t a b)

/-- The copy instructions (R330). -/
inductive CopyInstr : Instr → Guard → CopyKind → Nat → Prop
  | cpy (g a) : CopyInstr (.cpy g a) g .cpy a
  | cpym (g a) : CopyInstr (.cpym g a) g .cpym a
  | redv (g a) : CopyInstr (.redv g a) g .redv a

/-- A matrix register of a kind is not another block's (R350). -/
def State.claimable (b : State) (c : Ctx) (w : Warp) (n : Nat × Nat) : Prop := conflictOf (b.core (coreOf c.g)) w.block [n] = none

/-- An arrival that counts (R296, R297): the state after the arrival and the tests of its barrier. -/
def arrived (b : State) (c : Ctx) (w : Warp) (m : LaneMask) (bar a : Nat) (op : Option BarOp) (x : DWord) : State :=
  arrive (b.modWarp c.g fun w => { w with tokens := tset w.tokens bar (phaseOf b c.g bar), marks := w.marks.filter fun k => k.bar != bar })
    w.block w bar m (barCount w a) op x false

/-- CABORT ends its targets one after another, and waits for those that are still there, each for the answer to a put (R335, R343). -/
def aborted (b : State) (c : Ctx) (xs : List Cmd) : State := forEach xs b fun s x => s.abortCmd (coreOf c.g) x
def abortLeft (b : State) (c : Ctx) (xs : List Cmd) : List Nat := (xs.map Cmd.id).filter fun i => ((aborted b c xs).cmd? (coreOf c.g) i).isSome
def abortFates (b : State) (c : Ctx) (xs : List Cmd) : Fates := if abortLeft b c xs = [] then [] else [(c.act, .park (.abort (abortLeft b c xs)))]

/-- MSIGN.ARM (R361, R362, R374): the signatures that this cc has counted on the cv, on every core on which it counts, are taken back, the cv is armed
with none counted, they count again, and the phase is tested. -/
def cvArmed (b : State) (w : Warp) (core cv x quad : Nat) : State :=
  let counted := (cvCores b w.block core cv).map fun k => (k, (tgetD (b.core k).cvs cv {}).countedIn b.now)
  let t := forEach counted b fun s n => s.modCore n.1 fun k => { k with cvs := tset k.cvs cv ((tgetD k.cvs cv {}).uncounted s.now) }
  let t := t.modCore core fun k => { k.claim w.block (2, cv) with cvs := tset k.cvs cv { tgetD k.cvs cv {} with
    expect := nbits x 0 8, gang := x.testBit 8, signed := 0, oldSigned := 0, quad := if x.testBit 8 then quad else (tgetD k.cvs cv {}).quad } }
  cvTest (forEach counted t fun s n => cvCounts s w.block n.1 cv n.2) w.block core cv

/-- A uniform instruction in a state b in which it has begun, with its warp w and its context c: its guard, the registers it names,
the state that its effect makes, and the fates of its lanes. `s` is the state before it issues. -/
inductive UniEffect (s b : State) (w : Warp) (c : Ctx) : Instr → Guard → Opnds → State → Fates → Prop
  -- moves between lanes and uniform registers (R214, R215)
  | v2s (g mode w64 d a k x) (hx : vread w a (if w64 then 2 else 1) (v2sLane mode c.lanes (w.sget k)) = (x, false))
      (he : mode = 2 → ∀ m ∈ lanesOf c.lanes, vread w a (if w64 then 2 else 1) m = (x, false)) :
      UniEffect s b w c (.v2s g mode w64 d a k) g (v2sOpnds s mode w64 d a k)
        (b.modWarp c.g fun w => w.sput d (BitVec.ofNat 64 x)) []
  | v2sUneven (g w64 d a k x) (hx : vread w a (if w64 then 2 else 1) (v2sLane 2 c.lanes (w.sget k)) = (x, false))
      (he : ∃ m ∈ lanesOf c.lanes, vread w a (if w64 then 2 else 1) m ≠ (x, false)) (hs : b.flagOf c.g Launch.strictUni = false) :
      UniEffect s b w c (.v2s g 2 w64 d a k) g (v2sOpnds s 2 w64 d a k)
        ((b.count .uniformityViolation 1).modWarp c.g fun w => w.sput d (BitVec.ofNat 64 x)) []
  | v2sStrict (g w64 d a k x) (hx : vread w a (if w64 then 2 else 1) (v2sLane 2 c.lanes (w.sget k)) = (x, false))
      (he : ∃ m ∈ lanesOf c.lanes, vread w a (if w64 then 2 else 1) m ≠ (x, false)) (hs : b.flagOf c.g Launch.strictUni = true) :
      UniEffect s b w c (.v2s g 2 w64 d a k) g (v2sOpnds s 2 w64 d a k) b [(c.act, .trap { cause := 0x07, detail := 0, addr := 0 })]
  | s2v (g w64 d a) : UniEffect s b w c (.s2v g w64 d a) g { sr := [a], vw := regsFrom d (if w64 then 2 else 1) }
      (b.modWarp c.g fun w' => (lanesOf c.lanes).foldl (fun (v : Warp) l => v.vputN d (if w64 then 2 else 1) l (w.sget a).toNat false) w') []
  -- tile shapes (R219–R221)
  | tshape (g n a) (hc : claimedByOther (b.core (coreOf c.g)) 0 n w.block = false) (hl : w.sget a = 0 ∨ tcLegal n (w.sget a).toNat = true) :
      UniEffect s b w c (.tshape g n a) g { sr := [a] } (b.modCore (coreOf c.g) fun k =>
        { k.keepOld b.now n (tgetD k.tcs n 0) with tcs := tput (k.keepOld b.now n (tgetD k.tcs n 0)).tcs n ((w.sget a).setWidth 32) 0 }) []
  -- loads, descriptors, fences, translations (R238, R239, R248, R257–R259, R133)
  | uld (f d) : UniEffect s b w c (.uld f d) f.g { sr := [f.base], sw := [d], async := true, rel := relLevel f.ord f.scope }
      (uldFinish b.nextId c d f.la (runAccesses b c (opOf b c .load f.pol f.cls f.ord f.scope) [.s d] f.la false (laneBit (lowLane c.act))
        fun _ => .acc (addOffset (w.sget f.base) (f.off * ((2 ^ f.size : Nat) : Int))) (2 ^ f.size) 0 0 false)).1
      (uldFinish b.nextId c d f.la (runAccesses b c (opOf b c .load f.pol f.cls f.ord f.scope) [.s d] f.la false (laneBit (lowLane c.act))
        fun _ => .acc (addOffset (w.sget f.base) (f.off * ((2 ^ f.size : Nat) : Int))) (2 ^ f.size) 0 0 false)).2
  | sdef (g p q r blk t bs poison) (hb : b.blockOf c.g = some blk)
      (hp : (spaceOf (w.sget p) ≤ 3 ∨ spaceOf (w.sget p) = 8) ∧ ((w.sget p).toNat % 64 = 0 ∨ spaceFault b c.g (w.sget p) 64 ≠ none))
      (hr : plainRead b c.g (lowLane c.act) (w.sget p) 64 = (t, .ok (bs, poison)))
      (hv : (streamOf bs).valid = true ∧ spaceOf (w.sget q) ≠ 10 ∧ spaceOf (w.sget q) ≠ 12)
      (ho : (w.sget r).toNat + 128 ≤ blk.spadBytes ∧ (w.sget r).toNat % 128 = 0)
      (ha : absentOf t w.block (w.sget r).toNat 128 = []) (hn : spadRaces t w.block (w.sget r).toNat 128 c.g true = []) :
      UniEffect s b w c (.sdef g p q r) g { sr := [p, q, r], rel := 1, home := sdefHome s p, ask := .rdS }
        (spadWrite (spadOpen t w.block (w.sget r).toNat 128 c.g true) w.block (w.sget r).toNat
          (bs ++ leOfNat 8 (w.sget q).toNat ++ List.replicate 56 0)) []
  | fenceRel (g scope) : UniEffect s b w c (.fence g .rel scope) g { rel := relLevel .rel scope } (releaseAct b c.g scope none) []
  | fenceAcq (g scope) : UniEffect s b w c (.fence g .acq scope) g { rel := if scopeNum scope < 2 then 1 else 2 } (acquireAct b c.g scope none) []
  | fenceBoth (g scope) : UniEffect s b w c (.fence g .acqRel scope) g { rel := relLevel .acqRel scope }
      (acquireAct (releaseAct b c.g scope none) c.g scope none) []
  | tfence (g sc) : UniEffect s b w c (.tfence g sc) g { rel := tfenceLevel sc } b []
  | tfenceRange (g sc p q) (hp : (w.sget q).toNat = 0 ∨ (ptrWellFormed (w.sget p) = true ∧ spaceOf (w.sget p) ≤ 5)) :
      UniEffect s b w c (.tfenceRange g sc p q) g { sr := [p, q], rel := tfenceLevel sc }
        (discard b sc (coreOf c.g) (b.asidOf c.g) fun t =>
          (w.sget q).toNat != 0 && t.overlaps (nbits (w.sget p).toNat 0 57) (w.sget q).toNat) []
  | tfenceAll (g sc) : UniEffect s b w c (.tfenceAll g sc) g { rel := tfenceLevel sc } (discard b sc (coreOf c.g) (b.asidOf c.g) fun _ => true) []
  | bind (g size p q r) (hp : ptrWellFormed (w.sget p) = true ∧ spaceOf (w.sget p) ≤ 3 ∧ (w.sget p).toNat % 2 ^ size = 0)
      (hq : ptrWellFormed (w.sget q) = true ∧ spaceOf (w.sget q) ≤ 3 ∧ (w.sget q).toNat % 128 = 0)
      (hr : (w.sget r).toNat % 128 = 0 ∧ 128 ≤ (w.sget r).toNat ∧ (w.sget r).toNat ≤ 2 ^ 40)
      (hn : ((b.core (coreOf c.g)).bindings.filter fun x => !bindsWord w.block (w.sget p) x).length < 32) :
      UniEffect s b w c (.bind g size p q r) g { sr := [p, q, r] } (b.modCore (coreOf c.g) fun k =>
        { k with bindings := ((b.core (coreOf c.g)).bindings.filter fun x => !bindsWord w.block (w.sget p) x) ++
            [{ block := w.block, word := w.sget p, size := size, start := nbits (w.sget q).toNat 0 57, len := (w.sget r).toNat }] }) []
  | bindFull (g size p q r) (hp : ptrWellFormed (w.sget p) = true ∧ spaceOf (w.sget p) ≤ 3 ∧ (w.sget p).toNat % 2 ^ size = 0)
      (hq : ptrWellFormed (w.sget q) = true ∧ spaceOf (w.sget q) ≤ 3 ∧ (w.sget q).toNat % 128 = 0)
      (hr : (w.sget r).toNat % 128 = 0 ∧ 128 ≤ (w.sget r).toNat ∧ (w.sget r).toNat ≤ 2 ^ 40)
      (hn : 32 ≤ ((b.core (coreOf c.g)).bindings.filter fun x => !bindsWord w.block (w.sget p) x).length) :
      UniEffect s b w c (.bind g size p q r) g { sr := [p, q, r] } (b.count .bindOverflow 1) []
  | unbind (g size p) : UniEffect s b w c (.unbind g size p) g { sr := [p] } (b.modCore (coreOf c.g) fun k =>
      { k with bindings := k.bindings.filter fun x =>
        !(x.block == w.block && x.size == size && nbits x.word.toNat 0 57 == nbits (w.sget p).toNat 0 57) }) []
  | ipf (g a d n) : UniEffect s b w c (.ipf g a d n) g { sr := [a] }
      (forEach (List.range n) b (ipfLine c.g ((if a = 63 then c.e.pc.toNat / 128 else (w.sget a).toNat / 128 : Nat) + d))) []
  -- barriers (R294–R303)
  | barSync (g q bar a blk) (hb : b.blockOf c.g = some blk) (hi : c.act &&& w.inside = 0) (hm : ∀ k ∈ w.marks, k.bar ≠ bar ∧ k.lanes ≠ 0)
      (hf : arriveFault b blk w.block w bar c.act (barCount w a) none = none) :
      UniEffect s b w c (.barSync g q bar a) g { sr := [a], rel := 2 }
        (waitPhase (arrived b c w c.act bar a none 0) c.g c.act bar (phaseOf b c.g bar) (some q) none).1
        (waitPhase (arrived b c w c.act bar a none 0) c.g c.act bar (phaseOf b c.g bar) (some q) none).2
  | barp (g op d bar k a blk) (hb : b.blockOf c.g = some blk) (hi : c.act &&& w.inside = 0) (hm : ∀ k ∈ w.marks, k.bar ≠ bar ∧ k.lanes ≠ 0)
      (hf : arriveFault b blk w.block w bar c.act (barCount w a) (some op) = none) :
      UniEffect s b w c (.barp g op d bar k a) g { sr := [a, k], sw := [d], rel := 2 }
        (waitPhase (arrived b c w c.act bar a (some op) (w.sget k)) c.g c.act bar (phaseOf b c.g bar) none (some d)).1
        (waitPhase (arrived b c w c.act bar a (some op) (w.sget k)) c.g c.act bar (phaseOf b c.g bar) none (some d)).2
  | barArrive (g q bar a blk) (hb : b.blockOf c.g = some blk) (hf : arriveFault b blk w.block w bar c.act (barCount w a) none = none) :
      UniEffect s b w c (.barArrive g q bar a) g { sr := [a], rel := 2 }
        ((arrived b c w c.act bar a none 0).modWarp c.g fun w' =>
          w'.qput q (phaseOf (arrived b c w c.act bar a none 0) c.g bar != phaseOf b c.g bar &&
            !(arrived b c w c.act bar a none 0).flagOf c.g Launch.det)) []
  | barWait (g q bar) (hi : c.act &&& w.inside = 0) : UniEffect s b w c (.barWait g q bar) g {}
      (waitPhase b c.g c.act bar (tgetD w.tokens bar (phaseOf b c.g bar)) (some q) none).1
      (waitPhase b c.g c.act bar (tgetD w.tokens bar (phaseOf b c.g bar)) (some q) none).2
  | bardrop (g bar blk) (hb : b.blockOf c.g = some blk) (hf : arriveFault b blk w.block w bar c.act none none = none) :
      UniEffect s b w c (.bardrop g bar) g { rel := 2 }
        (arrive (b.modWarp c.g fun w => { w with marks := w.marks.filter fun k => k.bar != bar }) w.block w bar c.act none none 0 true) []
  -- counted waits (R304–R307)
  | arrivec (g ord scope p k q x) (hx : ObjAt b c (w.sget p) 8 8 .write objSpaces x) (hd : b.flagOf c.g Launch.det = false) :
      UniEffect s b w c (.arrivec g ord scope p k q) g { sr := [p, k], rel := syncLevel scope, home := objHome s false p 8 .write objSpaces }
        (((arrivecAct b c w ord scope p k x).modWarp c.g fun w' =>
          w'.qput q ((objNum b x 0 4).1 < (objNum b x 4 4).1 && (objNum b x 4 4).1 ≤ (objNum b x 0 4).1 + nbits (w.sget k).toNat 0 32))) []
  | arrivecDet (g ord scope p k q x) (hx : ObjAt b c (w.sget p) 8 8 .write objSpaces x) (hd : b.flagOf c.g Launch.det = true)
      (h1 : nbits (w.sget k).toNat 0 32 = 1) (hk : nbits (w.sget k).toNat 32 32 + 1 ≠ (objNum b x 4 4).1) :
      UniEffect s b w c (.arrivec g ord scope p k q) g { sr := [p, k], rel := syncLevel scope, home := objHome s false p 8 .write objSpaces }
        (((arrivecAct b c w ord scope p k x).modWarp c.g fun w' => w'.qput q false)) []
  | cwaitTarget (g acq scope p k x) (hx : ObjAt b c (w.sget p) 8 8 .read objSpaces x) (hn : (objNum b x 4 4).1 ≤ (objNum b x 0 4).1) :
      UniEffect s b w c (.cwait g true acq scope p k) g
        { sr := [p], rel := syncLevel scope, home := objHome s false p 8 .read objSpaces }
        ((if acq then acquireAct b c.g scope (boundRegion b c.g (w.sget p)) else b)) []
  | cwaitTargetParks (g acq scope p k x) (hx : ObjAt b c (w.sget p) 8 8 .read objSpaces x) (hn : (objNum b x 0 4).1 < (objNum b x 4 4).1) :
      UniEffect s b w c (.cwait g true acq scope p k) g
        { sr := [p], rel := syncLevel scope, home := objHome s false p 8 .read objSpaces } ((watch b c.g x 8))
        [(c.act, .park (.counter (w.sget p) none acq scope))]
  | cwait (g acq scope p k x) (hx : ObjAt b c (w.sget p) 8 4 .read objSpaces x) (hn : nbits (w.sget k).toNat 0 32 ≤ (objNum b x 0 4).1) :
      UniEffect s b w c (.cwait g false acq scope p k) g
        { sr := [p, k], rel := syncLevel scope, home := objHome s false p 8 .read objSpaces }
        ((if acq then acquireAct b c.g scope (boundRegion b c.g (w.sget p)) else b)) []
  | cwaitParks (g acq scope p k x) (hx : ObjAt b c (w.sget p) 8 4 .read objSpaces x) (hn : (objNum b x 0 4).1 < nbits (w.sget k).toNat 0 32) :
      UniEffect s b w c (.cwait g false acq scope p k) g
        { sr := [p, k], rel := syncLevel scope, home := objHome s false p 8 .read objSpaces } ((watch b c.g x 8))
        [(c.act, .park (.counter (w.sget p) (some (nbits (w.sget k).toNat 0 32)) acq scope))]
  | cwaitb (g acq scope p k x) (hx : objLoc b c.g (w.sget p) 16 .read spadSpaces = .ok x) (he : (objNum b x 12 1).1 % 2 = 0)
      (hn : (objNum b x 8 4).1 ≠ nbits (w.sget k).toNat 0 32) :
      UniEffect s b w c (.cwaitb g acq scope p k) g { sr := [p, k], rel := 1 } ((if acq then acquireAct b c.g scope none else b)) []
  | cwaitbParks (g acq scope p k x) (hx : objLoc b c.g (w.sget p) 16 .read spadSpaces = .ok x) (he : (objNum b x 12 1).1 % 2 = 0)
      (hn : (objNum b x 8 4).1 = nbits (w.sget k).toNat 0 32) :
      UniEffect s b w c (.cwaitb g acq scope p k) g { sr := [p, k], rel := 1 } b
        [(c.act, .park (.byteCount (w.sget p) (nbits (w.sget k).toNat 0 32) acq scope))]
  -- monitors (R308–R310)
  | monitorSpad (g p blk off yard) (hd : b.flagOf c.g Launch.det = false) (hx : objLoc b c.g (w.sget p) 1 .read objSpaces = .ok (.spad blk off yard)) :
      UniEffect s b w c (.monitor g p) g { sr := [p], rel := 3 }
        (b.modWarp c.g fun w => { w with monitor := some { line := .scratch blk (off / 128), armed := true, fired := false, armedAt := b.now } }) []
  | monitorDev (g p pa loc) (hd : b.flagOf c.g Launch.det = false) (hx : objLoc b c.g (w.sget p) 1 .read objSpaces = .ok (.dev pa loc)) :
      UniEffect s b w c (.monitor g p) g { sr := [p], rel := 3 }
        ((b.modWarp c.g fun w =>
          { w with monitor := some { line := .device (pa / 128), armed := true, fired := false, armedAt := b.now } }))
        [(c.act, .park (.registration (pa / 128)))]
  | mwaitParks (g m) (hd : b.flagOf c.g Launch.det = false) (hm : w.monitor = some m) (ha : m.armed = true ∧ m.fired = false) :
      UniEffect s b w c (.mwait g) g {} b [(c.act, .park .monitor)]
  | mwaitGoes (g m) (hd : b.flagOf c.g Launch.det = false) (hm : w.monitor = some m) (ha : m.armed = false ∨ m.fired = true) :
      UniEffect s b w c (.mwait g) g {} (b.modWarp c.g fun w => { w with monitor := some { m with armed := false } }) []
  | mwaitNone (g) (hd : b.flagOf c.g Launch.det = false) (hm : w.monitor = none) : UniEffect s b w c (.mwait g) g {} b []
  -- queues (R311–R314)
  | qpush (g p k q x h t) (hd : b.flagOf c.g Launch.det = false) (hx : QueueAt b c (w.sget p) x h) (hw : h.wcnt = 0)
      (hr : (h.tail + 2 ^ 32 - h.head) % 2 ^ 32 < h.cap)
      (hs : pushStep (writeLoc (releaseAct b c.g .device none) (coreOf c.g) (x.plus 4) (leOfNat 4 ((h.tail + 1) % 2 ^ 32))) c.g
        (h.slot h.tail) h.tail (w.sget k) = .ok (some t)) :
      UniEffect s b w c (.qpush g p k q) g { sr := [p, k], rel := 3, home := objHome s true p 128 .write devSpaces }
        ((t.modWarp c.g fun w => w.qput q true)) []
  | qpushFull (g p k q x h) (hd : b.flagOf c.g Launch.det = false) (hx : QueueAt b c (w.sget p) x h) (hw : h.wcnt = 0)
      (hr : h.cap ≤ (h.tail + 2 ^ 32 - h.head) % 2 ^ 32) :
      UniEffect s b w c (.qpush g p k q) g { sr := [p, k], rel := 3, home := objHome s true p 128 .write devSpaces }
        (((releaseAct b c.g .device none).modWarp c.g fun w => w.qput q false)) []
  | qpop (g d p q x h t v) (hd : b.flagOf c.g Launch.det = false) (hx : QueueAt b c (w.sget p) x h) (hn : h.tail ≠ h.head)
      (hs : popStep (writeLoc b (coreOf c.g) x (leOfNat 4 ((h.head + 1) % 2 ^ 32))) c.g (h.slot h.head) h.head h.cap = .ok (some (t, v))) :
      UniEffect s b w c (.qpop g d p q) g { sr := [p], sw := [d], rel := 3, home := objHome s true p 128 .write devSpaces }
        ((t.modWarp c.g fun w => (w.sput d v).qput q true)) []
  | qpopEmpty (g d p q x h) (hd : b.flagOf c.g Launch.det = false) (hx : QueueAt b c (w.sget p) x h) (hn : h.tail = h.head)
      (hm : b.svcMode % 4 = 0 ∨ 8 ≤ h.wcnt) :
      UniEffect s b w c (.qpop g d p q) g { sr := [p], sw := [d], rel := 3, home := objHome s true p 128 .write devSpaces }
        ((b.modWarp c.g fun w => w.qput q false)) []
  | qpopLinks (g d p q x h) (hd : b.flagOf c.g Launch.det = false) (hx : QueueAt b c (w.sget p) x h) (hn : h.tail = h.head)
      (hm : b.svcMode % 4 ≠ 0 ∧ h.wcnt < 8) :
      UniEffect s b w c (.qpop g d p q) g { sr := [p], sw := [d], rel := 3, home := objHome s true p 128 .write devSpaces }
        ((putWaiters b.newId.1 (coreOf c.g) x (tgetD b.waiters x.pa [] ++ [(c.g, b.nextId)]))) [(c.act, .park (.queueLink b.nextId d q))]
  -- futures (R315–R317)
  | fulfil (g p k q x) (hd : b.flagOf c.g Launch.det = false) (hx : objLoc b c.g (w.sget p) 16 .write objSpaces = .ok x)
      (hf : futureState b (w.sget p) x = .ok 0) :
      UniEffect s b w c (.fulfil g p k q) g { sr := [p, k], rel := fulfilLevel s p, home := objHome s true p 16 .write objSpaces }
        (((writeLoc (fulfilActs (releaseAct b c.g .device none) (coreOf c.g) x) (coreOf c.g) x (leOfNat 8 (w.sget k).toNat ++ leOfNat 4 1)).modWarp c.g fun w =>
          w.qput q true)) []
  | fulfilled (g p k q x) (hd : b.flagOf c.g Launch.det = false) (hx : objLoc b c.g (w.sget p) 16 .write objSpaces = .ok x)
      (hf : futureState b (w.sget p) x = .ok 1) :
      UniEffect s b w c (.fulfil g p k q) g { sr := [p, k], rel := fulfilLevel s p, home := objHome s true p 16 .write objSpaces }
        ((fulfilActs (releaseAct b c.g .device none) (coreOf c.g) x).modWarp c.g fun w => w.qput q false) []
  | park (g d p q x) (hd : b.flagOf c.g Launch.det = false) (hx : objLoc b c.g (w.sget p) 16 .read objSpaces = .ok x)
      (hf : futureState (watch b c.g x 16) (w.sget p) x = .ok 1) (hp : objPoison (watch b c.g x 16) (w.sget p) x 0 8 = none) :
      UniEffect s b w c (.park g d p q) g { sr := [p], sw := [d], rel := 3, home := objHome s true p 16 .read objSpaces }
        ((acquireAct (watch b c.g x 16) c.g .device none).modWarp c.g fun w =>
          (w.sput d (BitVec.ofNat 64 (objNum (watch b c.g x 16) x 0 8).1)).qput q true) []
  | parkWaits (g d p q x) (hd : b.flagOf c.g Launch.det = false) (hx : objLoc b c.g (w.sget p) 16 .read objSpaces = .ok x)
      (hf : futureState (watch b c.g x 16) (w.sget p) x = .ok 0)
      (he : ((watch b c.g x 16).core (coreOf c.g)).stall.any (stallOf (watch b c.g x 16) c.g w (w.sget p)) = false)
      (hr : ((watch b c.g x 16).core (coreOf c.g)).stall.length < 128) :
      UniEffect s b w c (.park g d p q) g { sr := [p], sw := [d], rel := 3, home := objHome s true p 16 .read objSpaces }
        ((watch b c.g x 16).modCore (coreOf c.g) fun k =>
          { k with stall := k.stall ++ [{ addr := w.sget p, asid := (watch b c.g x 16).asidOf c.g, block := w.block }] })
        [(c.act, .park (.future (w.sget p) d q))]
  | parkJoins (g d p q x) (hd : b.flagOf c.g Launch.det = false) (hx : objLoc b c.g (w.sget p) 16 .read objSpaces = .ok x)
      (hf : futureState (watch b c.g x 16) (w.sget p) x = .ok 0)
      (he : ((watch b c.g x 16).core (coreOf c.g)).stall.any (stallOf (watch b c.g x 16) c.g w (w.sget p)) = true) :
      UniEffect s b w c (.park g d p q) g { sr := [p], sw := [d], rel := 3, home := objHome s true p 16 .read objSpaces } (watch b c.g x 16)
        [(c.act, .park (.future (w.sget p) d q))]
  | parkFull (g d p q x) (hd : b.flagOf c.g Launch.det = false) (hx : objLoc b c.g (w.sget p) 16 .read objSpaces = .ok x)
      (hf : futureState (watch b c.g x 16) (w.sget p) x = .ok 0)
      (he : ((watch b c.g x 16).core (coreOf c.g)).stall.any (stallOf (watch b c.g x 16) c.g w (w.sget p)) = false)
      (hr : 128 ≤ ((watch b c.g x 16).core (coreOf c.g)).stall.length) :
      UniEffect s b w c (.park g d p q) g { sr := [p], sw := [d], rel := 3, home := objHome s true p 16 .read objSpaces }
        (((watch b c.g x 16).count .stallOverflow 1).modWarp c.g fun w => w.qput q false)
        [(c.act, .park (.sleep ((watch b c.g x 16).now + 256)))]
  -- launches, switch points, dealing, sleeping (R96–R98, R111, R112, R116, R128–R131)
  | launch (g d p x) (hx : ObjAt b c (w.sget p) 256 256 .read (fun x => x ≤ 3 || x == 8) x) :
      UniEffect s b w c (.launch g d p) g { sr := [p], sw := [d], rel := relLevel .rel .device, home := objHome s false p 256 .read fun x => x ≤ 3 || x == 8 }
        ((childAsked (releaseAct b c.g .device none) c x d (w.sget p)).1)
        [(c.act, .park (.launch (childAsked (releaseAct b c.g .device none) c x d (w.sget p)).2))]
  | vsp (g k) (hi : c.act &&& w.inside = 0) (ha : c.act ≠ 0) : UniEffect s b w c (.vsp g k) g {} b
      [(maskOf ((lanesOf c.act).filter fun l => w.depthOf l != 0), .trap { cause := 0x0D, detail := 0, addr := BitVec.ofNat 64 k }),
        (c.act &&& ~~~ maskOf ((lanesOf c.act).filter fun l => w.depthOf l != 0), .park (.switchPoint k))]
  | sget (g sel d blk l) (hb : b.blockOf c.g = some blk) (hl : b.launchOf c.g = some l) (hs : sel ≠ .chunk) :
      UniEffect s b w c (.sget g sel d) g { sw := [d] } (b.modWarp c.g fun w' => w'.sput d (BitVec.ofNat 64 (sgetValue b c.g w blk l sel))) []
  | sgetChunk (g d blk l) (hb : b.blockOf c.g = some blk) (hl : b.launchOf c.g = some l) :
      UniEffect s b w c (.sget g .chunk d) g { sw := [d] }
        ((b.modLaunch l.id fun _ => (dealChunk b l blk w).1).modWarp c.g fun w' => w'.sput d (BitVec.ofNat 64 (dealChunk b l blk w).2)) []
  | sputHint (g a l) (hl : b.launchOf c.g = some l) : UniEffect s b w c (.sput g .swhint a) g { sr := [a] }
      (b.modBlock w.block fun k => { k with hint := if (w.sget a).toNat % 4 = 3 then 0 else (w.sget a).toNat % 4 }) []
  | sputYield (g a l) (hl : b.launchOf c.g = some l) (h1 : (w.sget a).toNat % 2 = 1) : UniEffect s b w c (.sput g .yieldblk a) g { sr := [a] }
      (b.modBlock w.block fun k => { k with quantumEnd := b.devNs }) []
  | sputStay (g a l) (hl : b.launchOf c.g = some l) (h1 : (w.sget a).toNat % 2 = 0) : UniEffect s b w c (.sput g .yieldblk a) g { sr := [a] } b []
  | sputCls (g a l) (hl : b.launchOf c.g = some l) (hr : l.entry.roleCnt = 0) : UniEffect s b w c (.sput g .cls a) g { sr := [a] }
      (b.modWarp c.g fun w' => { w' with cls := min 2 ((w.sget a).toNat % 4) }) []
  | sputRole (g a l) (hl : b.launchOf c.g = some l) (hr : l.entry.roleCnt ≠ 0) : UniEffect s b w c (.sput g .cls a) g { sr := [a] } b []
  | sleepNot (g) : UniEffect s b w c (.sleep g 0) g {} b []
  | sleep (g n) (hn : n ≠ 0) : UniEffect s b w c (.sleep g n) g {} b [(c.act, .park (.sleep (b.now + n)))]
  | progrd (g d pg) : UniEffect s b w c (.progrd g d pg) g { sw := [d] } (b.modWarp c.g fun w' => w'.sput d (BitVec.ofNat 64
      (((b.core (coreOf c.g)).cmds.find? fun x => x.pg == some pg && x.st != .queued).map progValue |>.getD 0))) []
  -- copies and their guard slots (R330–R343)
  | copy (i g k a blk l r) (hi : CopyInstr i g k a) (hr : CopyAt b c w blk l k (w.sget a) r)
      (hq : (copyReleased b c w blk l k r).queueRoom (coreOf c.g)) :
      UniEffect s b w c i g { sr := [a], rel := postLevel s k a } (copyPosted (copyReleased b c w blk l k r) c w blk l k r) []
  | copyFull (i g k a blk l r) (hi : CopyInstr i g k a) (hr : CopyAt b c w blk l k (w.sget a) r)
      (hq : ¬ (copyReleased b c w blk l k r).queueRoom (coreOf c.g)) :
      UniEffect s b w c i g { sr := [a], rel := postLevel s k a } (copyReleased b c w blk l k r) [(c.act, .park .commandQueue)]
  | cguardClr (g n) : UniEffect s b w c (.cguardClr g n) g {} ((b.writeGuard w.block n).cguard (coreOf c.g) n 0) []
  | cguardSet (g n q) : UniEffect s b w c (.cguardSet g n q) g {} ((b.writeGuard w.block n).cguard (coreOf c.g) n (if w.qget q then 1 else 2)) []
  | cguardRd (g d n) : UniEffect s b w c (.cguardRd g d n) g { sw := [d] }
      ((b.nameGuards w.block [n]).modWarp c.g fun w' => w'.sput d (BitVec.ofNat 64 (b.guardOf (coreOf c.g) n))) []
  | cpres (g q pg) : UniEffect s b w c (.cpres g q pg) g {}
      ((b.modWarp c.g fun w' => w'.qput q ((b.core (coreOf c.g)).cmds.any (resumable w.block pg))).modCore (coreOf c.g) fun k =>
        { k with cmds := k.cmds.map fun x => if resumable w.block pg x then { x with st := .running, fcause := 0, since := b.devNs } else x }) []
  | cabort (g pg) : UniEffect s b w c (.cabort g pg) g {} (aborted b c ((b.blockCmds w.block).find? fun x => x.kind.isCopy && x.pg == some pg).toList)
      (abortFates b c ((b.blockCmds w.block).find? fun x => x.kind.isCopy && x.pg == some pg).toList)
  | cabortAll (g) : UniEffect s b w c (.cabortAll g) g {} (aborted b c ((b.blockCmds w.block).filter fun x => x.kind.isCopy))
      (abortFates b c ((b.blockCmds w.block).filter fun x => x.kind.isCopy))
  -- the matrix unit (R350–R369)
  | matrix (i g sr check blk l m) (hi : MatrixInstr i g sr check) (hb : b.blockOf c.g = some blk) (hl : b.launchOf c.g = some l)
      (hc : check b c.g w blk l = .ok m) (hq : (releaseAct b c.g .block none).queueRoom (coreOf c.g)) :
      UniEffect s b w c i g { sr := sr, rel := relLevel .rel .block } (acceptMatrix (releaseAct b c.g .block none) c.g c.lanes w m) []
  | matrixFull (i g sr check blk l m) (hi : MatrixInstr i g sr check) (hb : b.blockOf c.g = some blk) (hl : b.launchOf c.g = some l)
      (hc : check b c.g w blk l = .ok m) (hq : ¬ (releaseAct b c.g .block none).queueRoom (coreOf c.g)) :
      UniEffect s b w c i g { sr := sr, rel := relLevel .rel .block } (releaseAct b c.g .block none) [(c.act, .park .commandQueue)]
  | msign (g cv) (hc : b.claimable c w (2, cv)) (he : (tgetD (b.core (coreOf c.g)).cvs cv {}).expect ≠ 0) :
      UniEffect s b w c (.msign g cv) g {} (b.modWarp c.g fun w' => { w' with sigs := w'.sigs ++ [{ cv := cv, cmds :=
        (((b.core (coreOf c.g)).cmds.filter fun x => x.block == w.block && x.warp == w.idx && x.phase.isNone).map Cmd.id) }] }) []
  | msignArm (g cv a blk l) (hb : b.blockOf c.g = some blk) (hl : b.launchOf c.g = some l) (hc : b.claimable c w (2, cv))
      (hx : nbits (w.sget a).toNat 9 55 = 0 ∧ nbits (w.sget a).toNat 0 8 ≤ 128)
      (hg : (w.sget a).toNat.testBit 8 = true → l.yardGang = true ∧ gangSize l = 4) :
      UniEffect s b w c (.msignArm g cv a) g { sr := [a] } (cvArmed b w (coreOf c.g) cv (w.sget a).toNat (memberOf l blk.lin)) []
  | msignRd (g d cv) (hc : b.claimable c w (2, cv)) : UniEffect s b w c (.msignRd g d cv) g { sw := [d] }
      (b.modWarp c.g fun w' => w'.sput d (tgetD (b.core (coreOf c.g)).cvs cv {}).value) []
  | eset (g e a) (hc : b.claimable c w (3, e)) : UniEffect s b w c (.eset g e a) g { sr := [a] } (b.modCore (coreOf c.g) fun k =>
      { (k.keepOld b.now (16 + e) (tgetD k.es e 0x3F800000)).claim w.block (3, e) with
        es := tput ((k.keepOld b.now (16 + e) (tgetD k.es e 0x3F800000)).claim w.block (3, e)).es e ((w.sget a).setWidth 32) 0x3F800000 }) []
  | esetRd (g d e) (hc : b.claimable c w (3, e)) : UniEffect s b w c (.esetRd g d e) g { sw := [d] }
      (b.modWarp c.g fun w' => w'.sput d ((tgetD (b.core (coreOf c.g)).es e 0x3F800000).setWidth 64)) []

/-- The firmware instructions in firmware context (R438). -/
inductive FirmwareEffect (b : State) (w : Warp) (c : Ctx) : Instr → Guard → Opnds → State → Prop
  | csrr (g d n) : FirmwareEffect b w c (.csrr g d n) g { sw := [d] } (b.modWarp c.g fun w' => w'.sput d (csrRead b (coreOf c.g) n))
  | csrw (g n a) : FirmwareEffect b w c (.csrw g n a) g { sr := [a] } (csrWrite b (coreOf c.g) n (w.sget a))
  | halt (g) : FirmwareEffect b w c (.halt g) g {} (b.modCore (coreOf c.g) fun k => { k with halted := true })

end Sys2Proof.Machine
end

