-- ==== Sys2Proof/Safety/Lanes.lean ====
section
/-! DEFINITION. The lane instructions that reach beyond their warp's registers, and those of the sequencer with v operands: under
which conditions each has its own effect, and what that is (R145–R149, R161, R224–R251, R375–R424). -/

namespace Sys2Proof.Machine

/-- What happens in a set of lanes one after another, in ascending order, each with a fate of its own or none. -/
inductive SomeLane (f : State → Nat → State → Option Fate → Prop) : State → List Nat → State → Fates → Prop
  | none (s) : SomeLane f s [] s []
  | next (s l ls t x u fs) (h : f s l t x) (r : SomeLane f t ls u fs) : SomeLane f s (l :: ls) u ((x.map fun y => (laneBit l, y)).toList ++ fs)

/-- BRX in one lane: a target that fails R149 traps; otherwise the lane goes there. -/
inductive BrxLane (g prio treg : Nat) : State → Nat → State → Fate → Prop
  | traps (s l w t) (hw : s.warp? g = some w) (h : targetTrap s g (w.vgetN treg 2 l).1 (w.vgetN treg 2 l).2 = some t) : BrxLane g prio treg s l s (.trap t)
  | goes (s l w) (hw : s.warp? g = some w) (h : targetTrap s g (w.vgetN treg 2 l).1 (w.vgetN treg 2 l).2 = none) :
      BrxLane g prio treg s l s (.to (BitVec.ofNat 64 (nbits (w.vgetN treg 2 l).1 0 57)) prio)

/-- CALLX in one lane: the checks of R149, then the call (R147). -/
inductive CallxLane (g prio : Nat) (pc : DWord) (cprio treg : Nat) : State → Nat → State → Fate → Prop
  | traps (s l w t) (hw : s.warp? g = some w) (h : targetTrap s g (w.vgetN treg 2 l).1 (w.vgetN treg 2 l).2 = some t) :
      CallxLane g prio pc cprio treg s l s (.trap t)
  | goes (s l w t x) (hw : s.warp? g = some w) (h : targetTrap s g (w.vgetN treg 2 l).1 (w.vgetN treg 2 l).2 = none)
      (hc : CallLane g prio pc (BitVec.ofNat 64 (nbits (w.vgetN treg 2 l).1 0 57)) cprio s l t x) : CallxLane g prio pc cprio treg s l t x

/-- ORDENTER in one lane (R381). -/
inductive OrdenterLane (g : Nat) : State → Nat → State → Option Fate → Prop
  | bare (s l w) (hw : s.warp? g = some w) (h : tget w.frags l = none) : OrdenterLane g s l s (some (.trap { cause := 0x42, detail := 1, addr := 0 }))
  | inside (s l w f) (hw : s.warp? g = some w) (h : tget w.frags l = some f) (hi : w.inside.getLsbD l = true) :
      OrdenterLane g s l s (some (.trap { cause := 0x40, detail := 0, addr := 0 }))
  | closed (s l w f) (hw : s.warp? g = some w) (h : tget w.frags l = some f) (hi : w.inside.getLsbD l = false) (hc : f.closed = true) :
      OrdenterLane g s l s (some (.trap { cause := 0x42, detail := 2, addr := 0 }))
  | waits (s l w f) (hw : s.warp? g = some w) (h : tget w.frags l = some f) (hi : w.inside.getLsbD l = false) (hc : f.closed = false)
      (hb : gateBlocked s (coreOf g) f.gate = true) : OrdenterLane g s l s (some (.park .ordenter))
  | enters (s l w f) (hw : s.warp? g = some w) (h : tget w.frags l = some f) (hi : w.inside.getLsbD l = false) (hc : f.closed = false)
      (hb : gateBlocked s (coreOf g) f.gate = false) :
      OrdenterLane g s l ((s.modCore (coreOf g) fun c => { c with gate := tmod c.gate f.gate fun e => { e with inside := true } }).modWarp g fun w =>
        { w with inside := w.inside ||| laneBit l, orderCmds := tset w.orderCmds l [] }) none

/-- ORDEXIT in one lane inside its section (R382): it waits for the commands queued in it, or the section ends. -/
inductive OrdexitLane (g : Nat) : State → Nat → State → Option Fate → Prop
  | waits (s l w) (hw : s.warp? g = some w) (h : cmdsLive s (coreOf g) (tgetD w.orderCmds l []) = true) :
      OrdexitLane g s l s (some (.park (.ordexit [(l, tgetD w.orderCmds l [])])))
  | leaves (s l w) (hw : s.warp? g = some w) (h : cmdsLive s (coreOf g) (tgetD w.orderCmds l []) = false) :
      OrdexitLane g s l (endSection s g l) none

/-- COVW in one lane (R383): the intersection of its coverage with A goes to D and to its fragment; an empty one releases it. -/
inductive CovwLane (g d : Nat) (a : Src) (w0 : Warp) : State → Nat → State → Option Fate → Prop
  | poison (s l) (hp : (vread w0 a 1 l).2 = true) : CovwLane g d a w0 s l s (some (.trap (poisonTrap 0)))
  | bare (s l w) (hp : (vread w0 a 1 l).2 = false) (hw : s.warp? g = some w) (h : tget w.frags l = none) :
      CovwLane g d a w0 s l (s.modWarp g fun w => w.vput d l { bits := 0, poison := false }) none
  | writes (s l w f) (hp : (vread w0 a 1 l).2 = false) (hw : s.warp? g = some w) (h : tget w.frags l = some f)
      (hc : nbits f.cov 0 8 &&& nbits (vread w0 a 1 l).1 0 8 ≠ 0) :
      CovwLane g d a w0 s l ((gateCov (s.modWarp g fun w => { w with frags := tmod w.frags l fun f' =>
          { f' with cov := nbits f.cov 0 8 &&& nbits (vread w0 a 1 l).1 0 8 } }) (coreOf g) f.gate (nbits f.cov 0 8 &&& nbits (vread w0 a 1 l).1 0 8)).modWarp g
        fun w => w.vput d l { bits := BitVec.ofNat 32 (nbits f.cov 0 8 &&& nbits (vread w0 a 1 l).1 0 8), poison := false }) none
  | releases (s l w f) (hp : (vread w0 a 1 l).2 = false) (hw : s.warp? g = some w) (h : tget w.frags l = some f)
      (hc : nbits f.cov 0 8 &&& nbits (vread w0 a 1 l).1 0 8 = 0) :
      CovwLane g d a w0 s l ((releaseFragment (gateCov (s.modWarp g fun w => { w with frags := tmod w.frags l fun f' => { f' with cov := 0 } })
          (coreOf g) f.gate 0) g l).modWarp g fun w =>
        w.vput d l { bits := 0, poison := false }) none

/-- RQINIT in one lane (R416): the header is read and holds, the stack takes its first entry, and the query stands. -/
inductive RqinitLane (g : Nat) (fl : RayFlags) (w0 : Warp) (blk : Block) (l : Launch) (a b : Src) : State → Nat → State → Option Fate → Prop
  | poison (s k) (hp : (vread w0 b 2 k).2 = true) : RqinitLane g fl w0 blk l a b s k s (some (.trap (poisonTrap 0)))
  | stops (s k t i) (hp : (vread w0 b 2 k).2 = false)
      (h : rqInitLane s g k fl w0 blk l a (BitVec.ofNat 64 (vread w0 b 2 k).1) = (t, some i)) : RqinitLane g fl w0 blk l a b s k t (some i)
  | starts (s k t u ws) (hp : (vread w0 b 2 k).2 = false) (hc : rqCheck s g k (BitVec.ofNat 64 (vread w0 b 2 k).1) = .ok ())
      (hw : rqWords s g k (BitVec.ofNat 64 (vread w0 b 2 k).1) 16 = (t, .ok ws)) (hh : headerBreak ws = none)
      (hs : stackPut (rayEnv g w0 blk l k) { s := t } 0 0 (w0.vget (a.reg + 3) k).bits.toNat = .ok u) :
      RqinitLane g fl w0 blk l a b s k (u.s.setRay g k
        { st := if rayDead ((List.range 8).map fun i => (w0.vget (a.reg + i) k).bits.toNat) then .ended else .active
          flags := fl, ptr := BitVec.ofNat 64 (vread w0 b 2 k).1, ray := (List.range 8).map fun i => (w0.vget (a.reg + i) k).bits
          poison := ((List.range 8).map fun i => w0.vget (a.reg + i) k).any fun x => x.poison
          bytes := ws.getD 4 0 + 2 ^ 32 * ws.getD 5 0, nodeOff := ws.getD 0 0, nodeCnt := ws.getD 1 0
          triOff := ws.getD 2 0, triCnt := ws.getD 3 0 }) none

/-- RQCOMMIT in one lane (R419). -/
inductive CommitLane (g : Nat) (end_ : Bool) : State → Nat → State → Option Fate → Prop
  | bare (s l w) (hw : s.warp? g = some w) (h : tget w.rays l = none) : CommitLane g end_ s l s none
  | query (s l w q) (hw : s.warp? g = some w) (h : tget w.rays l = some q) : CommitLane g end_ s l (s.setRay g l (q.commit end_)) none

/-- The direct instructions of the fragment-list unit (R403–R406, R421). -/
inductive ListSpec : Instr → Guard → ListForm → Prop
  | flins (g d a b c) : ListSpec (.flins g d a b c) g
      { o := (srcOpnds [(a, 1), (b, 1), (c, 2)]).toV d 1, dst := some (d, 1), ops := insOps a b c, op := fun t b x => flInsert t b.mrule x.pix.1 x.dep.1 x.pay.1 }
  | flmrg (g a b c) : ListSpec (.flmrg g a b c) g
      { o := srcOpnds [(a, 1), (b, 1), (c, 2)], ops := insOps a b c, op := fun t _ x => flMerge t false x.pix.1 x.dep.1 x.pay.1 }
  | flmrgOne (g a b c) : ListSpec (.flmrgOne g a b c) g
      { o := srcOpnds [(a, 1), (b, 1), (c, 2)], ops := insOps a b c, op := fun t _ x => flMerge t true x.pix.1 x.dep.1 x.pay.1 }
  | flhead (g la d a) : ListSpec (.flhead g la d a) g
      { o := (srcOpnds [(a, 1)]).toV d 2, la := la, forbid := fun _ => false, ordered := false, act := false, dst := some (d, 2), ops := onePix a
        op := fun t b x => flHead t (boundPages t b) x.pix.1 }
  | flnode (g la d a) : ListSpec (.flnode g la d a) g
      { o := (srcOpnds [(a, 1)]).toV d 4, la := la, forbid := fun _ => false, ordered := false, act := false, dst := some (d, 4), ops := onePix a
        check := indexTrap, op := fun t b x => flNode t (boundPages t b) (nbits x.pix.1 0 24) }
  | flbudgetSet (g a b) : ListSpec (.flbudgetSet g a b) g
      { o := srcOpnds [(a, 1), (b, 1)], forbid := fun b => b.mact, ordered := false, act := false
        ops := fun w l => { pix := vread w a 1 l, dep := vread w b 1 l }, check := budgetTrap
        op := fun t b x => flSetBudget t (boundPages t b) x.pix.1 x.dep.1 }
  | flbudgetGet (g d a) : ListSpec (.flbudgetGet g d a) g
      { o := (srcOpnds [(a, 1)]).toV d 1, forbid := fun _ => false, ordered := false, act := false, dst := some (d, 1), ops := onePix a
        op := fun t b x => flGetBudget t (boundPages t b) b.mrule x.pix.1 }
  | rqappend (g cand d a c) : ListSpec (.rqappend g cand d a c) g
      { o := { (srcOpnds [(a, 1), (c, 2)]).toV d 1 with rel := 7 }, dst := some (d, 1)
        skip := fun w l => !((tget w.rays l).map RayQuery.poison).getD false && (rayHit (tget w.rays l) cand).isNone
        ops := appendOps cand a c, check := fun t b x => if x.dep.2 then some (poisonTrap 0) else pixelTrap t b x
        op := fun t b x => flInsert t b.mrule x.pix.1 x.dep.1 x.pay.1 }

/-- What the lanes of a direct instruction come to that it does not skip: their operations one after another (R401). -/
def ListForm.done (x : ListForm) (b : State) (c : Ctx) (w : Warp) (blk : Block) : FlRun :=
  flLanes b c.g w.block blk w x (lanesOf (c.act &&& ~~~ maskOf (x.out c w)))

/-- A lane instruction in a state b in which it has begun, with its warp w and its context c: its guard and how a poisoned one acts,
the registers it names, the state that its effect makes, and the fates of its lanes. `s` is the state before it issues. -/
inductive LaneEffect (s b : State) (w : Warp) (c : Ctx) : Instr → Guard → GuardKind → Opnds → State → Fates → Prop
  -- the sequencer (R147, R149, R161)
  | brx (g prio treg lu u fs) (h : EachLane (BrxLane c.g prio treg) b (lanesOf c.act) u fs) :
      LaneEffect s b w c (.brx g prio treg lu) g .traps (targetOpnds treg lu) u (groupFates fs)
  | callx (g prio treg lu u fs) (h : EachLane (CallxLane c.g c.e.prio c.e.pc prio treg) b (lanesOf c.act) u fs) :
      LaneEffect s b w c (.callx g prio treg lu) g .traps (callOpnds s g false (targetOpnds treg lu)) u (groupFates fs)
  | tkillW (g) (h : c.act ≠ 0) : LaneEffect s b w c (.tkillW g) g .own {}
      ((b.count .laneKilled (lanesOf w.live).length).endLanes c.g (w.live &&& ~~~ c.lanes)) [(c.lanes, .ended)]
  -- memory (R224–R251)
  | ld (f la split d) : LaneEffect s b w c (.ld f la split d) f.g .own
      { (baseRegs f.base f.baseLu) with vw := regsFrom d (sizeRegs (memBytes f)), async := true, rel := relLevel f.ord f.scope }
      (runAccesses b c (opOf b c .load f.pol f.cls f.ord f.scope) ((regsFrom d (sizeRegs (memBytes f))).map Dest.v) la split (c.act ||| c.pg) (ldReq f c w)).1
      (runAccesses b c (opOf b c .load f.pol f.cls f.ord f.scope) ((regsFrom d (sizeRegs (memBytes f))).map Dest.v) la split (c.act ||| c.pg) (ldReq f c w)).2
  | st (f data dataLu) : LaneEffect s b w c (.st f data dataLu) f.g .own
      { (baseRegs f.base f.baseLu) with
        vr := (baseRegs f.base f.baseLu).vr ++ regsFrom data (sizeRegs (memBytes f))
        lu := (baseRegs f.base f.baseLu).lu ++ (if dataLu then regsFrom data (sizeRegs (memBytes f)) else []), rel := relLevel f.ord f.scope }
      (runAccesses b c (opOf b c .store f.pol f.cls f.ord f.scope) [] 0 false (c.act ||| c.pg) (stReq f data c w)).1
      (runAccesses b c (opOf b c .store f.pol f.cls f.ord f.scope) [] 0 false (c.act ||| c.pg) (stReq f data c w)).2
  | atom (f la status d) (hd : b.flagOf c.g Launch.det = false) : LaneEffect s b w c (.atom f la status d) f.g .own
      { (atomOpnds f) with vw := regsFrom d (sizeRegs (2 ^ f.size)), pw := if status = 0 then [] else [3 + status], async := true }
      (runAccesses b c { (opOf b c .atomic f.pol .dflt f.ord f.scope) with aop := f.op }
        ((regsFrom d (sizeRegs (2 ^ f.size))).map Dest.v ++ (if status = 0 then [] else [3 + status]).map Dest.p) la false (c.act ||| c.pg) (atomReq f c w)).1
      (runAccesses b c { (opOf b c .atomic f.pol .dflt f.ord f.scope) with aop := f.op }
        ((regsFrom d (sizeRegs (2 ^ f.size))).map Dest.v ++ (if status = 0 then [] else [3 + status]).map Dest.p) la false (c.act ||| c.pg) (atomReq f c w)).2
  | red (f) (hd : b.flagOf c.g Launch.det = false ∨ fpAtom f.op = false) : LaneEffect s b w c (.red f) f.g .own (atomOpnds f)
      (runAccesses b c { (opOf b c .red f.pol .dflt f.ord f.scope) with aop := f.op } [] 0 false (c.act ||| c.pg) (atomReq f c w)).1
      (runAccesses b c { (opOf b c .red f.pol .dflt f.ord f.scope) with aop := f.op } [] 0 false (c.act ||| c.pg) (atomReq f c w)).2
  | lds (g la pol cls d x y t rs) (h : streamReqs b c w x y d true = (t, rs)) : LaneEffect s b w c (.lds g la pol cls d x y) g .own
      { (srcOpnds [(x, 1), (y, 1)]) with vw := regsFrom d (streamRegs s x), async := true, rel := 1, home := streamHome s g x y, ask := .rdS }
      (runAccesses t c (opOf b c .load pol cls .plain .thread) ((regsFrom d (streamRegs s x)).map Dest.v) la false (c.act ||| c.pg) fun l => tgetD rs l .skip).1
      (runAccesses t c (opOf b c .load pol cls .plain .thread) ((regsFrom d (streamRegs s x)).map Dest.v) la false (c.act ||| c.pg) fun l => tgetD rs l .skip).2
  | sst (g pol cls x y z t rs) (h : streamReqs b c w x y z.reg false = (t, rs)) : LaneEffect s b w c (.sst g pol cls x y z) g .own
      { (srcOpnds [(x, 1), (y, 1), (z, streamRegs s x)]) with rel := 1, home := streamHome s g x y, ask := .rdS }
      (runAccesses t c (opOf b c .store pol cls .plain .thread) [] 0 false (c.act ||| c.pg) fun l => tgetD rs l .skip).1
      (runAccesses t c (opOf b c .store pol cls .plain .thread) [] 0 false (c.act ||| c.pg) fun l => tgetD rs l .skip).2
  | pref (f) : LaneEffect s b w c (.pref f) f.g .drops { (baseRegs f.base f.baseLu) with rel := 1 } (prefetch b c w f) []
  -- fragments and ordered sections (R379–R387)
  | fraginOpen (g a blk l x) (hb : b.blockOf c.g = some blk) (hl : b.launchOf c.g = some l) (ha : c.act ≠ 0) (hn : blk.pass = none)
      (hp : devPtrOk 128 (BitVec.ofNat 64 (vread w a 2 (lowLane c.act)).1 : DWord).toNat = true)
      (hx : objLoc b c.g (BitVec.ofNat 64 (vread w a 2 (lowLane c.act)).1) 128 .read devSpaces = .ok x)
      (hq : objPoison b (BitVec.ofNat 64 (vread w a 2 (lowLane c.act)).1) x 0 128 = none)
      (hd : passDetail (passOf b l blk (BitVec.ofNat 64 (vread w a 2 (lowLane c.act)).1) x) blk.spadBytes l.gangField = none) :
      LaneEffect s b w c (.fraginOpen g a) g .traps { srcOpnds [(a, 2)] with home := openHome s g a }
        (joinPass (acquireL1 b (coreOf c.g) none) w.block blk l (passOf b l blk (BitVec.ofNat 64 (vread w a 2 (lowLane c.act)).1) x)) []
  | fraginAgain (g a blk l id) (hb : b.blockOf c.g = some blk) (hl : b.launchOf c.g = some l) (ha : c.act ≠ 0) (hn : blk.pass = some id)
      (hp : (tget b.passes id).map Pass.ptr = some (BitVec.ofNat 64 (vread w a 2 (lowLane c.act)).1)) :
      LaneEffect s b w c (.fraginOpen g a) g .traps { srcOpnds [(a, 2)] with home := openHome s g a } b []
  | fraginWave (g d blk id) (hb : b.blockOf c.g = some blk) (ha : c.act ≠ 0) (hp : blk.pass = some id) :
      LaneEffect s b w c (.fraginWave g d) g .traps { vw := [d] } ((waveAgain (releaseFragments b c.g c.act) id w).modWarp c.g fun w => w.vmap d)
        [(c.act, .park (.fragment d))]
  | fraginRead (g sel d blk) (hb : b.blockOf c.g = some blk) (hp : blk.pass ≠ none) : LaneEffect s b w c (.fraginRead g sel d) g .traps { vw := [d] }
      (b.modWarp c.g fun w => (lanesOf c.act).foldl (fun (w : Warp) l => w.vput d l (fragValue w sel l)) w) []
  | ordenter (g u fs) (h : SomeLane (OrdenterLane c.g) b (lanesOf c.act) u fs) : LaneEffect s b w c (.ordenter g) g .traps {} u fs
  | ordexit (g u fs) (hi : c.lanes &&& w.inside ≠ 0) (ha : c.act &&& w.inside ≠ 0)
      (h : SomeLane (OrdexitLane c.g) (releaseAct b c.g .core none) (lanesOf (c.act &&& w.inside)) u fs) :
      LaneEffect s b w c (.ordexit g) g .traps { rel := relLevel .rel .core } u fs
  | fkill (g) : LaneEffect s b w c (.fkill g) g .traps {} (releaseFragments b c.g c.act) []
  | covw (g d a u fs) (h : SomeLane (CovwLane c.g d a w) b (lanesOf c.act) u fs) :
      LaneEffect s b w c (.covw g d a) g .traps ((srcOpnds [(a, 1)]).toV d 1) u fs
  | bary (g d x y z) : LaneEffect s b w c (.bary g d x y z) g .traps ((srcOpnds [(x, 8), (y, 2), (z, 1)]).toV d 8)
      (b.modWarp c.g (baryPut b.now w d x y z (lanesOf c.act))) []
  -- fragment lists (R400–R407)
  | list (i g x blk base) (hi : ListSpec i g x) (hb : b.blockOf c.g = some blk) (hn : blk.flBinding = some base)
      (hd : b.flagOf c.g Launch.det = false) (hp : c.pg = 0) :
      LaneEffect s b w c i g .own (x.opnds s g) (flAfter (x.done b c w blk) c.g w.block x (x.out c w)) (x.done b c w blk).fates
  | flbudgetRule (g a blk) (hb : b.blockOf c.g = some blk) (hd : b.flagOf c.g Launch.det = false) (hp : c.pg = 0) (ha : c.act ≠ 0)
      (hx : (vread w a 1 (lowLane c.act)).2 = false) (hr : mruleOk (vread w a 1 (lowLane c.act)).1 = true) :
      LaneEffect s b w c (.flbudgetRule g a) g .own { srcOpnds [(a, 1)] with rel := 5 }
        (b.modBlock w.block fun k => { k with mrule := (vread w a 1 (lowLane c.act)).1 % 2 ^ 15 }) []
  | flbudgetRrd (g d blk) (hb : b.blockOf c.g = some blk) : LaneEffect s b w c (.flbudgetRrd g d) g .traps { vw := [d], rel := 5 }
      (b.modWarp c.g fun w => (lanesOf c.act).foldl (fun (w : Warp) l =>
        w.vput d l { bits := BitVec.ofNat 32 (blk.mrule + if blk.mact then 2 ^ 15 else 0), poison := false }) w) []
  | flclrInit (g x y z blk l) (hb : b.blockOf c.g = some blk) (hl : b.launchOf c.g = some l) (hp : c.pg = 0) (ha : c.act ≠ 0)
      (hv : ((vread w x 2 (lowLane c.act)).2 || (vread w y 1 (lowLane c.act)).2 || (vread w z 1 (lowLane c.act)).2) = false)
      (hd : areaDetail b w.block blk l (BitVec.ofNat 64 (vread w x 2 (lowLane c.act)).1) (vread w y 1 (lowLane c.act)).1 (vread w z 1 (lowLane c.act)).1 = none)
      (hq : (b.core (coreOf c.g)).cmds.length < 64) :
      LaneEffect s b w c (.flclrInit g x y z) g .own { srcOpnds [(x, 2), (y, 1), (z, 1)] with rel := initLevel s g x }
        (initPosted b c w blk l (BitVec.ofNat 64 (vread w x 2 (lowLane c.act)).1) (vread w y 1 (lowLane c.act)).1 (vread w z 1 (lowLane c.act)).1) []
  | flclrPix (g a blk l base) (hb : b.blockOf c.g = some blk) (hl : b.launchOf c.g = some l) (hn : blk.flBinding = some base)
      (hd : b.flagOf c.g Launch.det = false) (hp : c.pg = 0) (ha : c.act ≠ 0)
      (hv : ∀ k ∈ lanesOf c.act, pixelTrap { s := b, bid := w.block, base := base } blk (onePix a w k) = none)
      (hq : (b.core (coreOf c.g)).cmds.length < 64) :
      LaneEffect s b w c (.flclrPix g a) g .own { srcOpnds [(a, 1)] with rel := pixLevel s }
        (postFlclr b c w blk l (.flclr false base blk.flPixels blk.flPages 0 ((lanesOf c.act).map fun k => (vread w a 1 k).1)) base
          (areaSize blk.flPixels blk.flPages) (lanesOf c.act).length) []
  -- rays and build helpers (R416–R424)
  | rqinit (g fl x y blk l u fs) (hb : b.blockOf c.g = some blk) (hl : b.launchOf c.g = some l)
      (h : SomeLane (RqinitLane c.g fl w blk l x y) b (lanesOf c.act) u fs) :
      LaneEffect s b w c (.rqinit g fl x y) g .traps { srcOpnds [(x, 8), (y, 2)] with rel := 6, home := rqHome s g y, ask := .rdS } u fs
  | rqstep (g la d blk l) (hb : b.blockOf c.g = some blk) (hl : b.launchOf c.g = some l) (ha : c.act ≠ 0)
      (hq : (b.core (coreOf c.g)).cmds.length < 64) :
      LaneEffect s b w c (.rqstep g la d) g .traps { vw := [d], rel := relLevel .rel .device, async := true } (stepPosted b c w blk l la d) []
  | rqstepFull (g la d blk l) (hb : b.blockOf c.g = some blk) (hl : b.launchOf c.g = some l) (ha : c.act ≠ 0)
      (hq : 64 ≤ (b.core (coreOf c.g)).cmds.length) :
      LaneEffect s b w c (.rqstep g la d) g .traps { vw := [d], rel := relLevel .rel .device, async := true } b [(c.act, .park .commandQueue)]
  | rqhit (g la cand sel d) : LaneEffect s b w c (.rqhit g la cand sel d) g .traps { vw := [d], rel := 6, async := la != 0 }
      (b.newId.1.modWarp c.g fun w' => w'.deliver b.nextId la ((lanesOf c.act).map fun l =>
        (l, vout d 1 (hitValue (tget w.rays l) cand sel) (((tget w.rays l).map RayQuery.poison).getD false)))) []
  | rqcommit (g u) (h : SomeLane (CommitLane c.g false) b (lanesOf c.act) u []) : LaneEffect s b w c (.rqcommit g) g .traps { rel := 6 } u []
  | rqcommitEnd (g u) (h : SomeLane (CommitLane c.g true) b (lanesOf c.act) u []) : LaneEffect s b w c (.rqcommitEnd g) g .traps { rel := 6 } u []
  | morton (g d x y z) : LaneEffect s b w c (.morton g d x y z) g .traps ((srcOpnds [(x, 4), (y, 4), (z, 4)]).toV d 1)
      (b.modWarp c.g fun w' => (lanesOf c.act).foldl (fun (w' : Warp) l => w'.putOut l (mortonOut w d x y z l)) w') []
  | bbox (g la d a) : LaneEffect s b w c (.bbox g la d a) g .traps { (srcOpnds [(a, 8)]).toV d 8 with async := la != 0 }
      (b.newId.1.modWarp c.g fun w' => w'.deliver b.nextId la ((lanesOf c.act).map fun l => (l, bboxOut w d a (lanesOf c.act)))) []
  | bvpack (g d a) (h : packBad w a c.act = true ∨ packDetail (packChildren w a c.act) = none) :
      LaneEffect s b w c (.bvpack g d a) g .traps ((srcOpnds [(a, 8)]).toV d 1)
        (b.modWarp c.g fun w' => (lanesOf c.act).foldl (fun (w' : Warp) l => w'.putOut l
          (vout d 1 (packWord (packBytes (packChildren w a c.act)) l) (packBad w a c.act))) w') []

end Sys2Proof.Machine
end

