-- ==== Sys2Proof/Certificates/Slice0/Obligations.lean ====
section
/-! DEFINITION. The statements about the machine: encodings, the step, what each instruction and event does, traps, the frontier,
registers, memories, reset. -/

open Sys2Proof Sys2Proof.Machine

/-! ## Words -/

/-- Every well-formed program instruction, with every operand at every value that its fields admit, is read back from its own word;
an event has no word (R27–R41). -/
def Obligations.DecodeEncode : Prop :=
  ∀ i : Instr, i.wellFormed = true →
    if i.isEvent then encode i = none else ∃ w, encode i = some w ∧ decodeWord w = .ok i

/-- What the decoder accepts is a program instruction whose operands are in range. -/
def Obligations.DecodedWellFormed : Prop :=
  ∀ (w : DWord) (i : Instr), decodeWord w = .ok i → i.wellFormed = true ∧ i.isEvent = false

/-- The opcodes that R40 assigns in the lane set and R41 in the uniform set, as values of bits [62:53], VI and UI forms included. -/
def Sys2Proof.Machine.laneOpcodes : List (Nat × Nat) :=
  [(0x000, 0x011), (0x040, 0x059), (0x060, 0x062), (0x067, 0x068), (0x06A, 0x06A), (0x06C, 0x06D), (0x076, 0x077), (0x080, 0x090), (0x0A0, 0x0A1),
   (0x0A3, 0x0A5), (0x0C0, 0x0CE), (0x100, 0x10B), (0x140, 0x146), (0x180, 0x185), (0x1C0, 0x1C5), (0x200, 0x207)]
def Sys2Proof.Machine.uniformOpcodes : List (Nat × Nat) :=
  [(0x000, 0x00F), (0x022, 0x02B), (0x040, 0x046), (0x080, 0x08B), (0x0C0, 0x0C5), (0x100, 0x105), (0x140, 0x14B), (0x3C0, 0x3C2)]
def Sys2Proof.Machine.assignedWord (w : DWord) : Bool :=
  (if nbits w.toNat 63 1 = 1 then uniformOpcodes else laneOpcodes).any fun r => r.1 ≤ nbits w.toNat 53 10 && nbits w.toNat 53 10 ≤ r.2

/-- One decode fault a word (R42, R43): illegal-instruction exactly where the opcode is not assigned, whatever else is wrong; every
other word that is no instruction is an illegal encoding. The all-zero word is NOP guarded by p0; the all-ones word is illegal. -/
def Obligations.DecodeFaults : Prop :=
  (∀ w : DWord, decodeWord w = .error .illegalInstruction ↔ assignedWord w = false) ∧
  (∀ w : DWord, (∃ i, decodeWord w = .ok i) ∨ decodeWord w = .error .illegalInstruction ∨ decodeWord w = .error .illegalEncoding) ∧
  decodeWord 0 = .ok (.nop { neg := false, n := 0 }) ∧ decodeWord (BitVec.allOnes 64) = .error .illegalInstruction

/-- The instructions with a VI form, each with that form, and their opcodes (R40). -/
inductive Sys2Proof.Machine.ViPair : Instr → Instr → Nat → Prop
  | add (f d a b imm) : ViPair (.add f d a b) (.addVi f d a imm) 0x040
  | sub (f d a b imm) : ViPair (.sub f d a b) (.subVi f d a imm) 0x041
  | mul (f d a b imm) : ViPair (.mul f d a b) (.mulVi f d a imm) 0x042
  | min (f d a b imm) : ViPair (.min f d a b) (.minVi f d a imm) 0x047
  | max (f d a b imm) : ViPair (.max f d a b) (.maxVi f d a imm) 0x048
  | logic (f op d a b imm) : ViPair (.logic f op d a b) (.logicVi f op d a imm) 0x04A
  | shl (f wr d a b imm) : ViPair (.shl f wr d a b) (.shlVi f wr d a imm) 0x04C
  | shr (f wr d a b imm) : ViPair (.shr f wr d a b) (.shrVi f wr d a imm) 0x04D
  | cmp (f op d a b c imm) : ViPair (.cmp f op d a b c) (.cmpVi f op d a imm) 0x056
  | pick (f p d a b imm) : ViPair (.pick f p d a b) (.pickVi f p d a imm) 0x057
  | fadd (f d a b imm) : ViPair (.fadd f d a b) (.faddVi f d a imm) 0x080
  | fmul (f d a b imm) : ViPair (.fmul f d a b) (.fmulVi f d a imm) 0x081
  | fmin (f d a b imm) : ViPair (.fmin f d a b) (.fminVi f d a imm) 0x083
  | fmax (f d a b imm) : ViPair (.fmax f d a b) (.fmaxVi f d a imm) 0x084
  | fcmp (g ty op u d a b c imm) : ViPair (.fcmp g ty op u d a b c) (.fcmpVi g ty op u d a imm) 0x085

/-- R33: a VI form's opcode is that of its V form plus 0x020; only those V forms have one; any other opcode in the range
index + 32 is unassigned. -/
def Obligations.ViForms : Prop :=
  (∀ i j k n m, ViPair i j k → i.wellFormed = true → j.wellFormed = true → encodeNat i = some n → encodeNat j = some m → nbits n 53 11 = k ∧ nbits m 53 11 = k + 0x020) ∧
  (∀ w : DWord, nbits w.toNat 63 1 = 0 → 32 ≤ nbits w.toNat 53 6 → decodeWord w ≠ .error .illegalInstruction →
    ∃ i j, ViPair i j (nbits w.toNat 53 11 - 32)) ∧
  (∀ w : DWord, nbits w.toNat 63 1 = 0 → 32 ≤ nbits w.toNat 53 6 → (¬ ∃ i j, ViPair i j (nbits w.toNat 53 11 - 32)) →
    decodeWord w = .error .illegalInstruction)

/-- Words written out from the encodings of R28 to R41 and the manual's worked examples, of every family. -/
def Obligations.DecodeWords : Prop :=
  decodeWord 0x00EE006000000000 = .ok (.join { neg := false, n := 7 } 3) ∧
  decodeWord 0x008E800000002200 = .ok (.callx { neg := false, n := 7 } 32 8 true) ∧
  decodeWord 0x080E002030000000 = .ok (.add { g := { neg := false, n := 7 }, t := .s32, sat := false } 1
    { reg := 1, lu := true, keep := false } { reg := 0, lu := false, keep := false }) ∧
  decodeWord 0x10460080B0320E00 = .ok (.fma { g := { neg := false, n := 3 }, la := 0, t := .f32, rm := .rn, ftz := false, sat := false } 4
    { reg := 5, lu := true, keep := false } { reg := 6, lu := false, keep := true } { reg := 7, lu := false, keep := false }) ∧
  decodeWord 0x190E006040800000 = .ok (.cvt { g := { neg := false, n := 7 }, la := 0, fd := .f16, fs := .f32, rm := .rn, ftz := false, sat := false } 3
    { reg := 2, lu := false, keep := false }) ∧
  decodeWord 0x210E410050000006 = .ok (.rng { neg := false, n := 7 } 2 6 8 { reg := 2, lu := true, keep := false }) ∧
  decodeWord 0x282E018108008154 = .ok (.st { g := { neg := false, n := 7 }, base := 8, baseLu := false, off := 1, cls := .dflt, pol := .dflt
                                             ord := .rel, scope := .device, size := 2 } 12 true) ∧
  decodeWord 0x30AE040200D03000 = .ok (.bary { neg := false, n := 7 } 32 { reg := 16, lu := false, keep := false }
    { reg := 26, lu := false, keep := false } { reg := 24, lu := false, keep := false }) ∧
  decodeWord 0x386E000080300E01 = .ok (.flclrInit { neg := false, n := 7 } { reg := 4, lu := false, keep := false }
    { reg := 6, lu := false, keep := false } { reg := 7, lu := false, keep := false }) ∧
  decodeWord 0x404E034000000043 = .ok (.rqhit { neg := false, n := 7 } 0 true .tri 26) ∧
  decodeWord 0x844E00A0A0008000 = .ok (.uaddUi { g := { neg := false, n := 7 }, w32 := false, s := false } 5 5 256) ∧
  decodeWord 0x884E000000000017 = .ok (.fence { neg := false, n := 7 } .acqRel .device) ∧
  decodeWord 0x906E002080300156 = .ok (.arrivec { neg := false, n := 7 } .rel .device 4 6 1) ∧
  decodeWord 0x988E000000008000 = .ok (.sleep { neg := false, n := 7 } 256) ∧
  decodeWord 0xA06E000040000601 = .ok (.cguardSet { neg := false, n := 7 } 3 2) ∧
  decodeWord 0xA8CE002100481400 = .ok (.mmax { neg := false, n := 7 } 1 8 9 10) ∧
  decodeWord 0xF82E000060000400 = .ok (.csrw { neg := false, n := 7 } 8 3)

/-! ## The step -/

/-- A powered machine is about to issue split e of warp g, and word stands at its PC in the instruction cache. -/
structure Sys2Proof.Machine.AtWord (s : State) (g : Nat) (w : Warp) (e : Entry) (word : DWord) : Prop where
  power : s.powered = true
  split : s.issuing = some (g, w, e)
  fetch : fetchWord s g e.pc = some word

/-- The word is an instruction of the system group outside firmware context (R42, R438). -/
def Sys2Proof.Machine.foreignSystem (s : State) (g : Nat) (word : DWord) : Bool := nbits word.toNat 59 5 == 31 && !inFirmware s g

/-- The step of an issuing split is the meaning of the instruction that its word decodes to (R10); with it the turn of its partition
ends: the partition's other eligible warps have aged if an instruction issued (R142), and where none did nothing has. -/
def Obligations.StepRunsDecoded : Prop :=
  (∀ s g w e word i, AtWord s g w e word → decodeWord word = .ok i → foreignSystem s g word = false → step s = endTurn (partOf g) (exec i s)) ∧
  (∀ k t, endTurn k (.next t) = .next (t.settleTurn k)) ∧ (∀ k f, endTurn k (.fault f) = .fault f) ∧ ∀ k r, endTurn k (.refused r) = .refused r

/-- A decode fault is taken by every lane of the split, before any effect of the word and whatever its guard (R11, R30, R42, R43):
illegal-instruction or illegal-encoding, with the word in TADDR. -/
def Obligations.StepDecodeFault : Prop :=
  ∀ s g w e word, AtWord s g w e word → Calm s g w e →
    (foreignSystem s g word = true ∨ decodeWord word = .error .illegalInstruction →
      step s = .next (((s.begun g e).stepped g e [(e.mask, .trap { cause := 0x01, detail := 0, addr := word })]).settleTurn (partOf g))) ∧
    (foreignSystem s g word = false → decodeWord word = .error .illegalEncoding →
      step s = .next (((s.begun g e).stepped g e [(e.mask, .trap { cause := 0x02, detail := 0, addr := word })]).settleTurn (partOf g)))

/-- No split is about to issue, and no asynchronous trap and no re-read that can take place is owed. -/
structure Sys2Proof.Machine.Between (s : State) : Prop where
  power   : s.powered = true
  idle    : s.cur = none
  asyncs  : s.asyncs = []
  retests : s.retests.find? (retestOpen s) = none

/-- What a step does where no split is about to issue a word that is at hand: a fetch that misses; a pending asynchronous trap, before
anything else (R167); a re-read that a parked split owes (R306, R317); the next scheduled event after its time; an issue turn of the
partition in focus, which first looks at its ready entries (R137, R140). Nothing runs without power but a scheduled reset (log entry 1). -/
def Obligations.StepTurns : Prop :=
  (∀ s g w e, s.powered = true → s.issuing = some (g, w, e) → fetchWord s g e.pc = none →
    step s = .next ((fetchMiss s g e.pc).settleTurn (partOf g))) ∧
  (∀ s t r, s.powered = true → s.cur = none → s.asyncs = t :: r → step s = exec (.asyncTrap 0) s) ∧
  (∀ s r, s.powered = true → s.cur = none → s.asyncs = [] → s.retests.find? (retestOpen s) = some r → step s = .next (s.retest r)) ∧
  (∀ s dt ev rest, Between s → s.schedule = (dt, ev) :: rest → (∀ core part, ev ≠ .issueSelect core part) →
    step s = exec ev ({ s with schedule := rest }.elapse dt)) ∧
  (∀ s dt core part rest, Between s → s.schedule = (dt, .issueSelect core part) :: rest →
    step s = exec (.issueSelect core part) (askPart (16 * core + part) ({ s with schedule := rest }.elapse dt))) ∧
  (∀ s, Between s → s.schedule = [] → 0 < s.focus → s.focus + 1 < turnCount →
    step s = exec (.issueSelect (s.focus / 2 / 16) (s.focus / 2 % 16)) (askPart (s.focus / 2) { s with focus := s.focus + 1 })) ∧
  (∀ s, Between s → s.schedule = [] → s.focus = 0 → step s = exec (.issueSelect 0 0) (askPart 0 { s.elapse 1 with focus := 1 })) ∧
  (∀ s dt ev rest, s.powered = false → s.schedule = (dt, ev) :: rest → ev ≠ .reset → step s = .fault .poweredOff) ∧
  (∀ s, s.powered = false → s.schedule = [] → step s = .fault .poweredOff)

/-! ## The lane instructions -/

/-- The integer, floating-point, special-function, conversion and cross-lane instructions (R187–R202): in a split that can issue,
the instruction completes. Lanes that pass the guard receive its values, lanes with a poisoned guard poisoned destinations, the
others keep theirs; last-use frees; every lane goes on at PC + 8; nothing else of the warp and no other warp changes. -/
def Obligations.LaneResults : Prop :=
  ∀ i x s g w e, LaneSpec i x → Calm s g w e →
    (((laneCtx g w e x.g).act = 0 ∧ (laneCtx g w e x.g).pg = 0) ∨ Room s g w x.o) →
    ∃ t w', exec i s = .next t ∧ t.warp? g = some w' ∧ OnlyWarp s t g ∧ x.After s (laneCtx g w e x.g) w w'

/-- The lane instructions that reach memory, fragments, lists, rays, or take their target from a register, where their checks
hold: the state is the one that their effect makes, and the split goes on with the lanes' fates. -/
def Obligations.LaneEffects : Prop :=
  ∀ s b g w w' e i gd kind o u fs, Calm s g w e → b = ((s.counted w o (laneCtx g w e gd).act).engaged g o).begun g e → b.warp? g = some w' →
    LaneEffect s b w' (bodyCtx kind g w e gd) i gd kind o u fs → (o.rel = 0 ∨ relMet s g o.rel e.mask = true) → homeOpen s g o = true →
    Room s g w o → exec i s = .next (finishBody b.nextId g e o e.mask (laneCtx g w e gd).act (bodyCtx kind g w e gd).pg
      (u, guardFate kind (laneCtx g w e gd).pg ++ fs))

/-- A read of an unmapped v register gives all ones and poison, maps nothing, and counts one event for each such register operand of
an instruction with an active lane (R173; that the event is counted once for the operand, not for each lane: log entry 30). -/
def Obligations.UnmappedRead : Prop :=
  (∀ (w : Warp) r l, w.isMapped r = false → w.vget r l = { bits := 0xFFFFFFFF, poison := true }) ∧
  ∀ i x s g w e, LaneSpec i x → Calm s g w e → (laneCtx g w e x.g).act ≠ 0 → Room s g w x.o →
    ∃ t w', exec i s = .next t ∧ t.warp? g = some w' ∧
      tgetD t.events Ev.unmappedRead.code 0 = tgetD s.events Ev.unmappedRead.code 0 + (x.o.vr.filter fun r => !(w.isMapped r)).length ∧
      ∀ r, r < 256 → r ∉ x.o.vw → w'.isMapped r = true → w.isMapped r = true

/-- A destination of p7, q7 or s63 is legal and what is written to it is discarded; they read true, true and zero (R30, R206). -/
def Obligations.DiscardedDestinations : Prop :=
  (∀ (w : Warp) l, w.sget 63 = 0 ∧ w.qget 7 = true ∧ w.pget 7 l = true ∧ w.ppoison 7 l = false) ∧
  (∀ s g w e gd a, Calm s g w e → exec (.umov gd 63 a) s = .next (s.passed g e) ∧ exec (.umovS2q gd 7 a) s = .next (s.passed g e)) ∧
  (∀ s g w e gd, Calm s g w e → ∃ t w', exec (.lead gd 7) s = .next t ∧ t.warp? g = some w' ∧ OnlyWarp s t g ∧ OnlyFrontier w w') ∧
  (∀ gd a : Nat, gd < 8 → a < 64 → (Instr.umov { neg := false, n := gd } 63 a).wellFormed = true ∧
    (Instr.umovS2q { neg := false, n := gd } 7 a).wellFormed = true ∧ (Instr.lead { neg := false, n := gd } 7).wellFormed = true)

/-! ## Memory accesses -/

/-- A lane's store, checked in state b, goes to offset off of block k's scratchpad. -/
def Sys2Proof.Machine.StoresAt (b : State) (c : Ctx) (f : MemF) (data : Nat) (w : Warp) (k l off : Nat) : Prop :=
  ∃ yard, laneGo b c.g l (opOf b c .store f.pol f.cls f.ord f.scope) (stReq f data c w l) =
    .now (memPtr f w l) (memBytes f) (.spad k off yard) (w.vgetN data (sizeRegs (memBytes f)) l).1 0

/-- The last of the lanes, in ascending order, whose n bytes at their offsets reach byte a. -/
def Sys2Proof.Machine.lastAt (ls : List Nat) (off : Nat → Nat) (n a : Nat) : Option Nat := ls.reverse.find? fun l => off l ≤ a && a < off l + n

/-- A plain store whose lanes all go to one block's scratchpad (R224, R229, R236): the bytes that they store hold the low bytes of
the lanes' data, of two lanes the later one's; every other byte of every scratchpad, device memory in coherence order and host memory
is unchanged, and no register but those whose last use it is, where no earlier access waits to start at the core's L1. -/
def Obligations.ScratchpadStore : Prop :=
  ∀ s g w e f data lu k off, Calm s g w e → f.ord = .plain → s.flagOf g Launch.det = false →
    (laneCtx g w e f.g).pg = 0 → (laneCtx g w e f.g).act ≠ 0 → relMet s g 1 e.mask = true → readyParts (s.core (coreOf g)) = [] →
    (∀ l ∈ lanesOf (laneCtx g w e f.g).act, ∀ b w', b = (s.counted w
        { (baseRegs f.base f.baseLu) with vr := (baseRegs f.base f.baseLu).vr ++ regsFrom data (sizeRegs (memBytes f)) }
        (laneCtx g w e f.g).act).begun g e → b.warp? g = some w' → StoresAt b (laneCtx g w e f.g) f data w' k l (off l)) →
    ∃ t, exec (.st f data lu) s = .next t ∧ (∀ a, t.cohWord a = s.cohWord a) ∧ t.hostMem = s.hostMem ∧
      (∀ j x, s.block? j = some x → ∃ y, t.block? j = some y ∧ ∀ a, mget y.spad a =
        if j = k then
          match lastAt (lanesOf (laneCtx g w e f.g).act) off (memBytes f) a with
          | some l => BitVec.ofNat 8 ((w.vgetN data (sizeRegs (memBytes f)) l).1 / 256 ^ (a - off l))
          | none => mget x.spad a
        else mget x.spad a) ∧
      ∃ w', t.warp? g = some w' ∧ (∀ l, l < 32 → e.mask.getLsbD l = true → w'.runs l (e.pc + 8)) ∧
        (∀ r l, r < 256 → l < 32 → r ∉ (baseRegs f.base f.baseLu).lu ++ (if lu then regsFrom data (sizeRegs (memBytes f)) else []) →
          w'.vget r l = w.vget r l) ∧
        (∀ r l, l < 32 → w'.pget r l = w.pget r l ∧ w'.ppoison r l = w.ppoison r l) ∧
        w'.s = w.s ∧ w'.q = w.q ∧ w'.m = w.m ∧ w'.fflags = w.fflags ∧ w'.traps = w.traps

/-- A lane's load, checked in state b, reads from offset off of block k's scratchpad. -/
def Sys2Proof.Machine.LoadsAt (b : State) (c : Ctx) (f : MemF) (w : Warp) (k l off : Nat) : Prop :=
  ∃ yard, laneGo b c.g l (opOf b c .load f.pol f.cls f.ord f.scope) (ldReq f c w l) = .now (memPtr f w l) (memBytes f) (.spad k off yard) 0 0

/-- The number that n bytes from address a on hold, the lowest byte first; and a memory with n bytes of a number written there. -/
def Sys2Proof.Machine.numAt (m : Nat → Byte) (a n : Nat) : Nat := natOfLe ((List.range n).map fun i => m (a + i))
def Sys2Proof.Machine.putAt (m : Nat → Byte) (a n x : Nat) : Nat → Byte :=
  fun c => if a ≤ c ∧ c < a + n then BitVec.ofNat 8 (x / 256 ^ (c - a)) else m c

/-- A plain load whose lanes all go to one block's scratchpad (R224, R229, R235): its result stands for exactly the active lanes, with the number
that the bytes of each lane's address hold, poisoned where another requester's open write races (R282); no memory changes, and the split goes on. -/
def Obligations.ScratchpadLoad : Prop :=
  ∀ s g w e f la d k (off : Nat → Nat) x, Calm s g w e → f.ord = .plain → s.flagOf g Launch.det = false →
    (laneCtx g w e f.g).pg = 0 → (laneCtx g w e f.g).act ≠ 0 → relMet s g 1 e.mask = true → readyParts (s.core (coreOf g)) = [] →
    Room s g w { (baseRegs f.base f.baseLu) with vw := regsFrom d (sizeRegs (memBytes f)), async := true } → s.block? k = some x →
    (∀ l ∈ lanesOf (laneCtx g w e f.g).act, ∀ b w', b = (s.counted w
        { (baseRegs f.base f.baseLu) with vw := regsFrom d (sizeRegs (memBytes f)) } (laneCtx g w e f.g).act).begun g e →
      b.warp? g = some w' → LoadsAt b (laneCtx g w e f.g) f w' k l (off l)) →
    ∃ t w' r, exec (.ld f la false d) s = .next t ∧ t.warp? g = some w' ∧ w'.results = [r] ∧ r.done = true ∧
      r.dests = (regsFrom d (sizeRegs (memBytes f))).map Dest.v ∧
      (∀ l, l < 32 → tget r.lanes l = if (laneCtx g w e f.g).act.getLsbD l then some { left := la } else none) ∧
      (∀ l, (laneCtx g w e f.g).act.getLsbD l = true → tget r.data l = some (regVals (sizeRegs (memBytes f))
        (numAt (mget x.spad) (off l) (memBytes f)) (!(spadRaces s k (off l) (memBytes f) g false).isEmpty))) ∧
      (∀ j y, s.block? j = some y → ∃ z, t.block? j = some z ∧ z.spad = y.spad) ∧ (∀ a, t.cohWord a = s.cohWord a) ∧ t.hostMem = s.hostMem ∧
      ∀ l, l < 32 → e.mask.getLsbD l = true → w'.runs l (e.pc + 8)

/-- A byte of device memory in coherence order (R285). -/
def Sys2Proof.Machine.State.cohByte (s : State) (a : Nat) : Byte := wordByte (s.cohWord (a / 4)).1 (a % 4)

/-- The accesses of a part lie in its sector. -/
def Sys2Proof.Machine.OpPart.inside (q : OpPart) : Prop := ∀ a ∈ q.accs, 0 < a.size ∧ a.off + a.size ≤ 32

/-- A request that its home serves, for words of the sector of one part of an operation: the sector is in the L2, and no write-back bears the
request's name. -/
structure Sys2Proof.Machine.AtHome (s : State) (r : Req) (o : LsuOp) (q : OpPart) : Prop where
  target : r.target s = some (o, q)
  line   : r.line = q.sec / 4
  words  : ∀ i, i < 32 → r.words.getLsbD i = true → i / 8 = q.sec % 4
  accs   : q.inside
  valid  : s.sectorValid (8 * q.sec) = true
  named  : ∀ n, ∀ b ∈ (s.core n).wbuf, b.req ≠ r.id

/-- The agents that own words of a sector are among a list. -/
def Sys2Proof.Machine.State.ownedBy (s : State) (sec : Nat) (l : List Nat) : Prop :=
  ∀ i, i < 32 → i / 8 = sec % 4 → ∀ x ∈ (s.dirLine (sec / 4)).owners, x.wmask.getLsbD i = true → x.agent ∈ l

/-- Memory after the stores of a part, lane by lane; and after its atomics, with what each lane gets: the number before, the status, and poison,
which leaves memory alone (R242, R243). -/
def Sys2Proof.Machine.OpPart.stored (q : OpPart) (m : Nat → Byte) : Nat → Byte := q.accs.foldl (fun m a => putAt m (32 * q.sec + a.off) a.size a.x) m
def Sys2Proof.Machine.OpPart.atoms (q : OpPart) (op : AtomOp) (poison : Nat → Bool) (m : Nat → Byte) : (Nat → Byte) × Tbl (DWord × Bool × Bool) :=
  q.accs.foldl (fun z a =>
    let old := numAt z.1 (32 * q.sec + a.off) a.size
    let new := atomNew op a.size old a.x a.y
    if (List.range a.size).any fun i => poison ((32 * q.sec + a.off + i) / 4) then (z.1, tset z.2 a.lane (BitVec.ofNat 64 old, false, true))
    else (putAt z.1 (32 * q.sec + a.off) a.size new.1, tset z.2 a.lane (BitVec.ofNat 64 old, new.2, false))) (m, [])

/-- Poison of the words after a part's stores: one access of a whole word takes it away (R266). -/
def Sys2Proof.Machine.OpPart.cleans (q : OpPart) (w : Nat) : Bool :=
  q.accs.any fun a => 32 * q.sec + a.off ≤ 4 * w && 4 * w + 4 ≤ 32 * q.sec + a.off + a.size

/-- A core holds the words of a part under OWN, and its accesses do not stop at races. -/
structure Sys2Proof.Machine.AtOwner (s : State) (core : Nat) (o : LsuOp) (q : OpPart) : Prop where
  real : core < 216
  accs : q.inside
  own  : ∀ a ∈ q.accs, ∀ w ∈ accWords q.sec a, holdsOwn s core w = true
  free : o.det = false ∨ o.checked = false

/-- Which bytes of device memory a store or an atomic changes (R236, R240–R243, R265, R271, R285), in coherence order: performed at the home, where no
other agent owns a word of it, or in the L1 that owns its words, it writes its lanes' bytes and no other byte of any word. -/
def Obligations.DeviceWrites : Prop :=
  (∀ s r o q, AtHome s r o q → o.kind = .store → (r.kind = .wrT ∨ r.kind = .wrN) → (o.det = false ∨ o.checked = false) → s.ownedBy q.sec [r.agent] →
    (∀ a, (finishReq s r).cohByte a = q.stored s.cohByte a) ∧ ∀ w, ((finishReq s r).cohWord w).2 = ((s.cohWord w).2 && !q.cleans w)) ∧
  (∀ s r o q, AtHome s r o q → (o.kind = .atomic ∨ o.kind = .red) → r.kind = .at → s.ownedBy q.sec [] →
    (∀ a, (finishReq s r).cohByte a = (q.atoms o.aop (fun w => (s.cohWord w).2) s.cohByte).1 a) ∧
    (∀ w, ((finishReq s r).cohWord w).2 = (s.cohWord w).2) ∧
    (o.kind = .atomic → ∃ z, Msg.reply z ∈ (finishReq s r).net ∧ z.req = r.id ∧ z.agent = r.agent ∧
      z.olds = (q.atoms o.aop (fun w => (s.cohWord w).2) s.cohByte).2)) ∧
  (∀ s core o q, AtOwner s core o q → o.kind = .store →
    (∀ a, (performL1 s core o q).cohByte a = q.stored s.cohByte a) ∧ ∀ w, ((performL1 s core o q).cohWord w).2 = ((s.cohWord w).2 && !q.cleans w)) ∧
  (∀ s core o q, AtOwner s core o q → (o.kind = .atomic ∨ o.kind = .red) →
    (∀ a, (performL1 s core o q).cohByte a = (q.atoms o.aop (fun w => (s.cohWord w).2) s.cohByte).1 a) ∧
    ∀ w, ((performL1 s core o q).cohWord w).2 = (s.cohWord w).2)

/-- The outstanding result of a load of v registers, in which every access of a part has a lane of its own. -/
structure Sys2Proof.Machine.Awaits (s : State) (o : LsuOp) (q : OpPart) (rid : Nat) (w : Warp) (r : Result) : Prop where
  kind  : o.kind = .load
  named : o.result = some rid
  warp  : s.warp? o.warp = some w
  res   : w.results.find? (fun x => x.id == rid) = some r
  lanes : r.lanes ≠ []
  dests : r.dests.any Dest.isS = false
  once  : q.accs.Pairwise fun a b => a.lane ≠ b.lane
  accs  : q.inside

/-- The result has for every access of the part the number that its bytes hold in the words f, and poison if one of them is poisoned (R235). -/
def Sys2Proof.Machine.Delivered (t : State) (o : LsuOp) (q : OpPart) (rid : Nat) (f : Nat → Word × Bool) : Prop :=
  ∃ w r, t.warp? o.warp = some w ∧ w.results.find? (fun x => x.id == rid) = some r ∧ ∀ a ∈ q.accs, tget r.data a.lane =
    some (regVals (sizeRegs a.size) (numAt (fun c => wordByte (f (c / 4)).1 (c % 4)) (32 * q.sec + a.off) a.size)
      ((List.range a.size).any fun i => (f ((32 * q.sec + a.off + i) / 4)).2))

/-- Which bytes a load delivers from device memory (R230, R235, R271): the L1 gives those of its words, a read at the home answers with the home's
words, and a reply gives the lanes the bytes of its words; a load changes no word of memory. -/
def Obligations.DeviceReads : Prop :=
  (∀ s core o q rid w r, Awaits s o q rid w r → core = coreOf o.warp →
    (o.checked = true → ∀ a ∈ q.accs, ∀ x ∈ accWords q.sec a, (openGet (s.core core).opens x).races (reqOf o.warp) false = false ∧
      (l1Opens s core x).races core false = false) →
    Delivered (performL1 s core o q) o q rid (l1Value s core) ∧ ∀ x, (performL1 s core o q).cohWord x = s.cohWord x) ∧
  (∀ s r o q, AtHome s r o q → r.kind.reads = true →
    (∀ x, (finishReq s r).cohWord x = s.cohWord x) ∧
    ∃ z, Msg.reply z ∈ (finishReq s r).net ∧ z.req = r.id ∧ z.agent = r.agent ∧ z.own = 0 ∧
      ∀ i, i < 32 → r.words.getLsbD i = true → (r.kind = .rdN ∨ ∀ x ∈ (s.dirLine r.line).owners, x.wmask.getLsbD i = true → x.agent ≠ r.agent) →
        tget z.data i = some (s.homeWord (32 * r.line + i)).1 ∧ z.poison.getLsbD i = (s.homeWord (32 * r.line + i)).2) ∧
  ∀ s z o q rid w r, Awaits s o q rid w r → z.own = 0 → z.raced = 0 → (∀ x ∈ w.entries, x.st ≠ .parked (.detAccess o.id)) →
    (∀ a ∈ q.accs, ∀ x ∈ accWords q.sec a, x ∈ q.wordList) → (∀ x ∈ q.wordList, (tget z.data (x % 32)).isSome = true) →
    Delivered (completePart s z o q) o q rid fun x => (tgetD z.data (x % 32) 0, z.poison.getLsbD (x % 32))

/-- In deterministic mode every ATOM, and every RED that adds, or takes the least or greatest of, floating-point values, raises
deterministic-forbidden in the lanes that would execute it, and does nothing else (R245; lanes with a poisoned guard too: log
entry 31). -/
def Obligations.DeterministicAtomics : Prop :=
  ∀ s g w e f, Calm s g w e → s.flagOf g Launch.det = true → (laneCtx g w e f.g).act ≠ 0 → relMet s g (relLevel f.ord f.scope) e.mask = true →
    (∀ la st d, Room s g w { (atomOpnds f) with vw := regsFrom d (sizeRegs (2 ^ f.size)), pw := if st = 0 then [] else [3 + st], async := true } →
      exec (.atom f la st d) s = .next (((s.counted w { (atomOpnds f) with vw := regsFrom d (sizeRegs (2 ^ f.size)) }
        (laneCtx g w e f.g).act).begun g e).stepped g e
          [((laneCtx g w e f.g).act ||| (laneCtx g w e f.g).pg, .trap { cause := 0x16, detail := 0, addr := 0 })])) ∧
    ((f.op = .fadd ∨ f.op = .fmin ∨ f.op = .fmax ∨ f.op = .hadd) →
      exec (.red f) s = .next (((s.counted w (atomOpnds f) (laneCtx g w e f.g).act).begun g e).stepped g e
          [((laneCtx g w e f.g).act ||| (laneCtx g w e f.g).pg, .trap { cause := 0x16, detail := 0, addr := 0 })]))

/-- The bytes of a memory (R2): its operations keep the canonical form, a read gives what was written, and a write leaves every
other byte alone. -/
def Obligations.MemoryLaws : Prop :=
  ∀ (m : Tbl Byte) (a : Nat) (l : List Byte), Memory.wf m = true → Memory.wf (mputBytes m a l) = true ∧
    (∀ i (h : i < l.length), mget (mputBytes m a l) (a + i) = l[i]) ∧
    (∀ c, c < a ∨ a + l.length ≤ c → mget (mputBytes m a l) c = mget m c) ∧
    (∀ n, Memory.wf n = true → (∀ c, mget n c = mget m c) → n = m)

/-! ## The uniform instructions -/

/-- The uniform instructions that change their warp's registers alone (R205–R217), in a split that can issue: with a true guard
the warp's registers take the instruction's result, with a false one nothing changes; the split goes on at PC + 8. -/
def Obligations.UniformResults : Prop :=
  ∀ i x s g w e, UniSpec i x → Calm s g w e →
    (w.uniTrue x.g → exec i s = .next ((s.modWarp g (x.f s (uniCtx g e))).passed g e)) ∧
    (¬ w.uniTrue x.g → exec i s = .next (s.passed g e))

/-- The uniform instructions that reach beyond their warp (R96–R131, R214–R221, R238–R259, R291–R318, R330–R343, R350–R369), with a
true guard and where their checks hold: the state is the one that their effect makes, and the split goes on with its fates. -/
def Obligations.UniformEffects : Prop :=
  ∀ s b g w w' e i gd o u fs, Calm s g w e → b = ((s.counted w o e.mask).engaged g o).begun g e → b.warp? g = some w' →
    UniEffect s b w' (uniCtx g e) i gd o u fs → w.uniTrue gd → (o.rel = 0 ∨ relMet s g o.rel e.mask = true) → homeOpen s g o = true →
    Room s g w o → exec i s = .next (finishBody b.nextId g e o e.mask e.mask 0 (u, fs))

/-- A uniform instruction with a false guard has no effect (R205), the firmware's in firmware context among them: its split goes on at PC + 8, and
nothing else changes but that the last-use bit of a v source acts whatever the guard (R172, R214). -/
def Obligations.FalseUniformGuard : Prop :=
  (∀ s b g w w' e i gd o u fs, UniEffect s b w' (uniCtx g e) i gd o u fs → Calm s g w e → ¬ w.uniTrue gd →
    (o.rel = 0 ∨ relMet s g o.rel e.mask = true) → o.lu = [] → exec i s = .next (s.passed g e)) ∧
  (∀ s b g w w' e i gd o u fs, UniEffect s b w' (uniCtx g e) i gd o u fs → Calm s g w e → ¬ w.uniTrue gd →
    (o.rel = 0 ∨ relMet s g o.rel e.mask = true) → o.lu ≠ [] →
    exec i s = .next ((s.modWarp g fun w => o.lu.dedup.foldl Warp.vfree w).passed g e)) ∧
  ∀ s b g w w' e i gd o u, FirmwareEffect b w' (uniCtx g e) i gd o u → Calm s g w e → inFirmware s g = true → ¬ w.uniTrue gd →
    exec i s = .next (s.passed g e)

/-- CSRR, CSRW and HALT in firmware context (R438). -/
def Obligations.FirmwareEffects : Prop :=
  ∀ s b g w w' e i gd o u, Calm s g w e → inFirmware s g = true → b = ((s.counted w o e.mask).engaged g o).begun g e → b.warp? g = some w' →
    FirmwareEffect b w' (uniCtx g e) i gd o u → w.uniTrue gd → (o.rel = 0 ∨ relMet s g o.rel e.mask = true) → homeOpen s g o = true →
    Room s g w o → exec i s = .next (finishBody b.nextId g e o e.mask e.mask 0 (u, []))

/-- Outside firmware context they raise the illegal-instruction trap in every lane of the split, whatever the guard (R42, R438). -/
def Obligations.FirmwareRefused : Prop :=
  ∀ s g w e i word, Calm s g w e → inFirmware s g = false →
    ((∃ gd d n, i = Instr.csrr gd d n) ∨ (∃ gd n a, i = Instr.csrw gd n a) ∨ ∃ gd, i = Instr.halt gd) → encode i = some word →
    exec i s = .next ((s.begun g e).stepped g e [(e.mask, .trap { cause := 0x01, detail := 0, addr := word })])

/-- The numbers of the CSRs (R436) and the bits of each that software writes (R120, R121, R157, R276, R311, R434, R437). -/
def Sys2Proof.Machine.csrNumber (n : Nat) : Bool := n ≤ 0x00C || n == 0x010 || (0x100 ≤ n && n ≤ 0x1FF)
def Sys2Proof.Machine.csrMask (n : Nat) : Nat :=
  match n with
  | 0x000 => 0
  | 0x001 => 2 ^ 2 - 1
  | 0x002 => 2 ^ 38 - 2 ^ 16
  | 0x003 => 2 ^ 38 - 2 ^ 12
  | 0x004 => 2 ^ 38 - 2 ^ 12
  | 0x005 => 2 ^ 38 - 2 ^ 20
  | 0x006 => 2 ^ 32 - 1
  | 0x007 => 2 ^ 14 - 1
  | 0x008 => 2 ^ 20 - 1
  | 0x009 => (2 ^ 16 - 2 ^ 8) + 3
  | 0x00A => 2 ^ 3 - 1
  | 0x00B => 2 ^ 24 - 1
  | 0x00C => (2 ^ 38 - 2 ^ 26) + 1
  | 0x010 => 2 ^ 57 - 2 ^ 3
  | _ => 2 ^ 16 - 1

/-- A CSR written and read back has its RW bits from what was written and zeros elsewhere; READY takes no write; no other CSR, and
no other core's TRAP_VEC, changes (R4, R436, R437). -/
def Obligations.CsrFields : Prop :=
  ∀ (s : State) core n v, csrNumber n = true →
    csrRead (csrWrite s core n v) core n = (if n = 0 then csrRead s core n else v &&& BitVec.ofNat 64 (csrMask n)) ∧
    (∀ k m, csrNumber m = true → m ≠ n ∨ (n = 0x010 ∧ k ≠ core) → csrRead (csrWrite s core n v) k m = csrRead s k m) ∧
    (csrWrite s core n v).warps = s.warps ∧ (csrWrite s core n v).dram = s.dram

/-- R209: UMOV in its four forms, with their encodings. -/
def Obligations.UmovMoves : Prop :=
  (∀ gd d a n, (Instr.umov gd d a).wellFormed = true → encodeNat (.umov gd d a) = some n →
    nbits n 53 11 = 0x400 ∧ nbits n 0 7 = 0 ∧ nbits n 37 8 = d ∧ nbits n 29 8 = a) ∧
  (∀ gd d a n, (Instr.umovQ gd d a).wellFormed = true → encodeNat (.umovQ gd d a) = some n →
    nbits n 53 11 = 0x400 ∧ nbits n 0 7 = 1 ∧ nbits n 37 3 = d ∧ nbits n 40 3 = 0 ∧ nbits n 29 3 = a ∧ nbits n 32 3 = 0) ∧
  (∀ gd d a n, (Instr.umovQ2s gd d a).wellFormed = true → encodeNat (.umovQ2s gd d a) = some n →
    nbits n 53 11 = 0x400 ∧ nbits n 0 7 = 2 ∧ nbits n 37 8 = d ∧ nbits n 29 3 = a ∧ nbits n 32 3 = 0) ∧
  (∀ gd d a n, (Instr.umovS2q gd d a).wellFormed = true → encodeNat (.umovS2q gd d a) = some n →
    nbits n 53 11 = 0x400 ∧ nbits n 0 7 = 3 ∧ nbits n 37 3 = d ∧ nbits n 40 3 = 0 ∧ nbits n 29 8 = a) ∧
  (∀ w : DWord, nbits w.toNat 53 11 = 0x400 → nbits w.toNat 2 5 ≠ 0 → decodeWord w = .error .illegalEncoding) ∧
  (∀ s g w e gd d a, Calm s g w e → w.uniTrue gd →
    exec (.umov gd d a) s = .next ((s.modWarp g fun w => w.sput d (w.sget a)).passed g e) ∧
    exec (.umovQ gd d a) s = .next ((s.modWarp g fun w => w.qput d (w.qget a)).passed g e) ∧
    exec (.umovQ2s gd d a) s = .next ((s.modWarp g fun w => w.sput d (if w.qget a then 1 else 0)).passed g e) ∧
    exec (.umovS2q gd d a) s = .next ((s.modWarp g fun w => w.qput d (decide (w.sget a ≠ 0))).passed g e))

/-- R213: USEL and its UI form, with their encodings. -/
def Obligations.UselSelects : Prop :=
  (∀ gd q d a b n, (Instr.usel gd q d a b).wellFormed = true → encodeNat (.usel gd q d a b) = some n →
    nbits n 53 11 = 0x40B ∧ nbits n 0 3 = q ∧ nbits n 3 4 = 0) ∧
  (∀ gd q d a imm n, (Instr.uselUi gd q d a imm).wellFormed = true → encodeNat (.uselUi gd q d a imm) = some n →
    nbits n 53 11 = 0x42B ∧ nbits n 0 3 = q ∧ nbits n 3 4 = 0 ∧ nbits n 7 20 = imm) ∧
  (∀ w : DWord, nbits w.toNat 53 11 = 0x40B ∨ nbits w.toNat 53 11 = 0x42B → nbits w.toNat 3 4 ≠ 0 → decodeWord w = .error .illegalEncoding) ∧
  (∀ s g w e gd q d a b imm, Calm s g w e → w.uniTrue gd →
    exec (.usel gd q d a b) s = .next ((s.modWarp g fun w => w.sput d (if w.qget q then w.sget a else w.sget b)).passed g e) ∧
    (imm < 2 ^ 20 → exec (.uselUi gd q d a imm) s =
      .next ((s.modWarp g fun w => w.sput d (if w.qget q then w.sget a else (BitVec.ofNat 20 imm).signExtend 64)).passed g e)))

/-- R215: S2V, with its encoding: every lane of the split receives the low word of sA, unpoisoned, and under W64 the next register
the high word; the lanes outside the split keep theirs, which after a first write are poison (R171). -/
def Obligations.S2vBroadcasts : Prop :=
  (∀ gd w64 d a n, (Instr.s2v gd w64 d a).wellFormed = true → encodeNat (.s2v gd w64 d a) = some n →
    nbits n 53 11 = 0x40D ∧ nbits n 37 8 = d ∧ nbits n 0 7 = (if w64 then 16 else 0) ∧ (w64 = true → d % 2 = 0)) ∧
  (∀ w : DWord, nbits w.toNat 53 11 = 0x40D → nbits w.toNat 0 7 ≠ 0 → nbits w.toNat 0 7 ≠ 16 → decodeWord w = .error .illegalEncoding) ∧
  ∀ s g w e gd w64 d a, Calm s g w e → w.uniTrue gd → Room s g w { sr := [a], vw := regsFrom d (if w64 then 2 else 1) } →
    ∃ t w', exec (.s2v gd w64 d a) s = .next t ∧ t.warp? g = some w' ∧ OnlyWarp s t g ∧ OnlyLaneRegs w w' ∧ w'.fflags = w.fflags ∧
      (∀ r l, w'.pget r l = w.pget r l ∧ w'.ppoison r l = w.ppoison r l) ∧
      (∀ l, l < 32 → e.mask.getLsbD l = true → w'.runs l (e.pc + 8)) ∧
      ∀ r l, r < 256 → l < 32 → w'.vget r l =
        if r < w.ceil ∧ e.mask.getLsbD l = true ∧ r = d then { bits := (w.sget a).extractLsb' 0 32, poison := false }
        else if r < w.ceil ∧ e.mask.getLsbD l = true ∧ w64 = true ∧ r = d + 1 then { bits := (w.sget a).extractLsb' 32 32, poison := false }
        else w.vget r l

/-! ## The sequencer's instructions -/

/-- The instructions of lane group 0x0 that name no v register (R143–R164), in a split that can issue: the state is the one that
their effect makes, and the split goes on with its lanes' fates. -/
def Obligations.SequencerResults : Prop :=
  ∀ s g w e i t fs, Calm s g w e → SeqSpec s g w e i t fs → exec i s = .next (t.stepped g e fs)

/-- R165: NOP and YIELD are format V with MOD 0, opcodes 0x000 and 0x00F, and NOP only moves its entry to PC + 8. -/
def Obligations.NopPasses : Prop :=
  (∀ gd n, (Instr.nop gd).wellFormed = true → encodeNat (.nop gd) = some n → nbits n 53 11 = 0x000 ∧ nbits n 0 7 = 0) ∧
  (∀ gd n, (Instr.yield gd).wellFormed = true → encodeNat (.yield gd) = some n → nbits n 53 11 = 0x00F ∧ nbits n 0 7 = 0) ∧
  (∀ w : DWord, nbits w.toNat 53 11 = 0x000 ∨ nbits w.toNat 53 11 = 0x00F → nbits w.toNat 0 7 ≠ 0 → decodeWord w = .error .illegalEncoding) ∧
  (∀ s g w e gd, Calm s g w e → ∃ t w', exec (.nop gd) s = .next t ∧ t.warp? g = some w' ∧ OnlyWarp s t g ∧ OnlyFrontier w w' ∧
    t.events = s.events ∧ ∀ l, l < 32 → e.mask.getLsbD l = true → w'.runs l (e.pc + 8))

/-- R150: LAND has no effect in any lane, whatever its guard; it is format V, opcode 0x006; a word of that form is a legal target of
BRX and CALLX where it can be read, and any other is not; falling through it or branching to it directly is legal: BRA looks at no
word. -/
def Obligations.LandMarks : Prop :=
  (∀ gd n, (Instr.land gd).wellFormed = true → encodeNat (.land gd) = some n → nbits n 53 11 = 0x006 ∧ nbits n 0 7 = 0) ∧
  (∀ s g w e gd, Calm s g w e → exec (.land gd) s = .next (s.passed g e)) ∧
  (∀ s g w e gd prio off, Calm s g w e → exec (.bra gd prio off) s = .next ((s.begun g e).stepped g e
    [((laneCtx g w e gd).pg, .trap (poisonTrap 0)), ((laneCtx g w e gd).act, .to (branchTarget e.pc off) prio)])) ∧
  (∀ s g a word, nbits a 60 4 ≤ 3 → nbits a 57 3 = 0 → nbits a 0 3 = 0 → codeWord s g (nbits a 0 57) = some word →
    (targetTrap s g a false = none ↔ nbits word.toNat 53 11 = 0x006))

/-- R151: JOIN, LEAVE and MCLR name mN in DEST [40:37]; each changes mN as its row says where a lane is active, and has no effect
where none is; a lane that ends is cleared from every m register of its warp. -/
def Obligations.LaneMasks : Prop :=
  (∀ (gd : Guard) m n, gd.n < 8 → m < 12 → (encodeNat (.join gd m) = some n → nbits n 53 11 = 0x007 ∧ nbits n 37 4 = m ∧ nbits n 41 4 = 0) ∧
    (encodeNat (.leave gd m) = some n → nbits n 53 11 = 0x008 ∧ nbits n 37 4 = m ∧ nbits n 41 4 = 0) ∧
    (encodeNat (.mclr gd m) = some n → nbits n 53 11 = 0x00A ∧ nbits n 37 4 = m ∧ nbits n 41 4 = 0)) ∧
  (∀ s g w e gd m, Calm s g w e → (laneCtx g w e gd).act ≠ 0 →
    exec (.join gd m) s = .next (((s.begun g e).modWarp g fun w => w.mput m (w.mget m ||| (laneCtx g w e gd).act)).stepped g e
      [((laneCtx g w e gd).pg, .trap (poisonTrap 0))]) ∧
    exec (.leave gd m) s = .next (((s.begun g e).modWarp g fun w => w.mput m (w.mget m &&& ~~~ (laneCtx g w e gd).act)).stepped g e
      [((laneCtx g w e gd).pg, .trap (poisonTrap 0))]) ∧
    exec (.mclr gd m) s = .next (((s.begun g e).modWarp g fun w => w.mput m 0).stepped g e [((laneCtx g w e gd).pg, .trap (poisonTrap 0))])) ∧
  (∀ s g w e gd m, Calm s g w e → (laneCtx g w e gd).act = 0 → ∀ i ∈ [Instr.join gd m, .leave gd m, .mclr gd m],
    exec i s = .next ((s.begun g e).stepped g e [((laneCtx g w e gd).pg, .trap (poisonTrap 0))])) ∧
  (∀ s g w e gd m, Calm s g w e → (laneCtx g w e gd).act = 0 → (laneCtx g w e gd).pg = 0 →
    exec (.join gd m) s = .next (s.passed g e) ∧ exec (.leave gd m) s = .next (s.passed g e) ∧ exec (.mclr gd m) s = .next (s.passed g e)) ∧
  (∀ (s : State) g w m w', s.warp? g = some w → (s.endLanes g m).warp? g = some w' → ∀ n, w'.mget n &&& (m &&& w.live) = 0)

/-- R162: TRAP traps every active lane with cause software; BKPT with cause breakpoint under FLAGS.DEBUG, and else has no effect; in
both, TADDR is the unsigned IMM20 of their words. -/
def Obligations.SoftwareTraps : Prop :=
  (∀ (gd : Guard) n k, gd.n < 8 → n < 2 ^ 20 → encodeNat (.trap gd n) = some k → nbits k 53 11 = 0x00B ∧ nbits k 7 20 = n ∧ nbits k 0 7 = 0) ∧
  (∀ (gd : Guard) n k, gd.n < 8 → n < 2 ^ 20 → encodeNat (.bkpt gd n) = some k → nbits k 53 11 = 0x011 ∧ nbits k 7 20 = n ∧ nbits k 0 7 = 0) ∧
  (∀ w : DWord, nbits w.toNat 53 11 = 0x00B ∨ nbits w.toNat 53 11 = 0x011 → nbits w.toNat 0 7 ≠ 0 → decodeWord w = .error .illegalEncoding) ∧
  ∀ s g w e gd n, Calm s g w e →
    exec (.trap gd n) s = .next ((s.begun g e).stepped g e [((laneCtx g w e gd).pg, .trap (poisonTrap 0)),
      ((laneCtx g w e gd).act, .trap { cause := 0x04, detail := 0, addr := BitVec.ofNat 64 n })]) ∧
    (s.flagOf g Launch.debug = true →
      exec (.bkpt gd n) s = .next ((s.begun g e).stepped g e [((laneCtx g w e gd).pg, .trap (poisonTrap 0)),
        ((laneCtx g w e gd).act, .trap { cause := 0x05, detail := 0, addr := BitVec.ofNat 64 n })])) ∧
    (s.flagOf g Launch.debug = false →
      exec (.bkpt gd n) s = .next ((s.begun g e).stepped g e [((laneCtx g w e gd).pg, .trap (poisonTrap 0))]))

/-! ## Traps and the ends of lanes -/

/-- The sets of lanes with fates are disjoint, and l is a living lane in the one with fate f. -/
structure Sys2Proof.Machine.HasFate (w : Warp) (fs : Fates) (l : Nat) (f : Fate) : Prop where
  apart : fs.Pairwise fun a b => a.1 &&& b.1 = 0
  among : ∃ m, (m, f) ∈ fs ∧ m.getLsbD l = true
  lane  : l < 32
  live  : w.live.getLsbD l = true

/-- Taking a trap (R154–R157): a lane outside its handler, where the core has a handler, gets the cause, the instruction's PC, the
address and its entry's priority into its trap registers, with INH, and stands in state trap at the vector with priority 63. -/
def Obligations.TrapTaken : Prop :=
  ∀ (u : State) g w e fs l x, u.warp? g = some w → HasFate w fs l (.trap x) → (w.trapOf l).inh = false → (u.core (coreOf g)).vec ≠ 0 →
    ∃ w', (u.stepped g e fs).warp? g = some w' ∧ w'.atHandler l (u.core (coreOf g)).vec ∧ w'.live.getLsbD l = true ∧
      w'.trapOf l = { inh := true, tprio := e.prio, detail := x.detail, cause := x.cause, tpc := e.pc, taddr := x.addr }

/-- The handler's address is TRAP_VEC bits [56:3] (R157). -/
def Obligations.TrapVector : Prop :=
  ∀ c : Core, c.vec = c.trapVec &&& BitVec.ofNat 64 (2 ^ 57 - 2 ^ 3)

/-- A lane that traps in its handler, or where the core has no handler, ends (R158, R161): it leaves the frontier, the masks and the
outstanding results, its trap registers stay, and a double-trap or unhandled-trap event is counted for each such lane. -/
def Obligations.TrapEndsLane : Prop :=
  ∀ (u : State) g w e fs l x, u.warp? g = some w → HasFate w fs l (.trap x) → (∀ f ∈ fs, f.1 &&& ~~~ w.live = 0) →
    (w.trapOf l).inh = true ∨ (u.core (coreOf g)).vec = 0 →
    (∀ w', (u.stepped g e fs).warp? g = some w' → w'.live.getLsbD l = false ∧ w'.trapOf l = w.trapOf l ∧
      (∀ y ∈ w'.entries, y.mask.getLsbD l = false) ∧ ∀ n, (w'.mget n).getLsbD l = false) ∧
    tgetD (u.stepped g e fs).events Ev.doubleTrap.code 0 =
      tgetD u.events Ev.doubleTrap.code 0 + ((fateTraps fs).filter fun t => (w.trapOf t.1).inh).length ∧
    tgetD (u.stepped g e fs).events Ev.unhandledTrap.code 0 = tgetD u.events Ev.unhandledTrap.code 0 +
      (if (u.core (coreOf g)).vec = 0 then ((fateTraps fs).filter fun t => !(w.trapOf t.1).inh).length else 0)

/-- A lane that EXIT or TKILL ends leaves the frontier, every m register and the outstanding results of its warp (R161). -/
def Obligations.EndedLanes : Prop :=
  ∀ (u : State) g w e fs l, u.warp? g = some w → HasFate w fs l .ended →
    ∀ w', (u.stepped g e fs).warp? g = some w' → w'.live.getLsbD l = false ∧
      (∀ y ∈ w'.entries, y.mask.getLsbD l = false) ∧ (∀ n, (w'.mget n).getLsbD l = false) ∧
      ∀ r ∈ w'.results, ∀ z ∈ r.lanes, z.1 ≠ l

/-- TRET and TRET.NEXT (R160): an active lane in its handler leaves it for TPC, or TPC + 8, at its TPRIO or above; INH clears and the
other trap registers stay; a lane outside its handler takes the trap trap-return with address 0. -/
def Obligations.TretReturns : Prop :=
  ∀ s g w e gd (next : Bool) l, Calm s g w e → l < 32 → (laneCtx g w e gd).act.getLsbD l = true → w.live.getLsbD l = true →
    ∃ t, exec (if next then .tretNext gd else .tret gd) s = .next t ∧
      ((w.trapOf l).inh = true → ∃ w', t.warp? g = some w' ∧ w'.trapOf l = { w.trapOf l with inh := false } ∧
        ∃ y ∈ w'.entries, y.mask.getLsbD l = true ∧ y.mergeable = true ∧ (w.trapOf l).tprio ≤ y.prio ∧
          y.pc = (w.trapOf l).tpc + (if next then 8 else 0)) ∧
      ((w.trapOf l).inh = false → (s.core (coreOf g)).vec ≠ 0 → ∃ w', t.warp? g = some w' ∧ w'.atHandler l (s.core (coreOf g)).vec ∧
        w'.trapOf l = { inh := true, tprio := e.prio, detail := 0, cause := 0x0C, tpc := e.pc, taddr := 0 })

/-! ## The frontier -/

/-- A split that goes on (R137–R142): its lanes are at PC + 8 at its priority or above, and nothing of the machine changes but the
warp's frontier and ages; the other ready entries of the warp age by one, up to 1,024. -/
def Obligations.SplitGoesOn : Prop :=
  ∀ s g w e, Calm s g w e → ∃ w', (s.passed g e).warp? g = some w' ∧ OnlyWarp s (s.passed g e) g ∧ OnlyFrontier w w' ∧ w'.age = 0 ∧
    (∀ l, l < 32 → e.mask.getLsbD l = true → ∃ y ∈ w'.entries, y.mask.getLsbD l = true ∧ y.pc = e.pc + 8 ∧ y.mergeable = true ∧ e.prio ≤ y.prio) ∧
    (∀ x ∈ w.entries, x.eid ≠ e.eid → x.st = .ready → x.mask ≠ 0 →
      ∃ y ∈ w'.entries, y.pc = x.pc ∧ x.mask &&& ~~~ y.mask = 0 ∧ y.mergeable = true ∧ min 1024 (x.age + 1) ≤ y.age)

/-- The frontier of a warp (R135): no entry is empty, no lane stands in two of them, the lanes that stand in one are the living ones; and the entries
have names of their own, all given before n. -/
structure Sys2Proof.Machine.FrontierOk (n : Nat) (w : Warp) : Prop where
  full   : ∀ x ∈ w.entries, x.mask ≠ 0
  apart  : w.entries.Pairwise fun x y => x.mask &&& y.mask = 0
  living : ∀ x ∈ w.entries, x.mask &&& ~~~ w.live = 0
  placed : ∀ l, w.live.getLsbD l = true → ∃ x ∈ w.entries, x.mask.getLsbD l = true
  names  : w.entries.Pairwise fun x y => x.eid ≠ y.eid
  given  : ∀ x ∈ w.entries, x.eid < n

/-- The fates of lanes of a split: each lane has at most one. -/
structure Sys2Proof.Machine.FatesOf (e : Entry) (fs : Fates) : Prop where
  apart  : fs.Pairwise fun a b => a.1 &&& b.1 = 0
  within : ∀ f ∈ fs, f.1 &&& ~~~ e.mask = 0

/-- Merging, the release of waits, traps, the ends of lanes and the places that an instruction gives its lanes keep the frontier (R135, R138, R152,
R154, R158, R161, R295, R309): every living lane stays in exactly one entry, no entry is empty, and none holds a lane that has ended. -/
def Obligations.FrontierKept : Prop :=
  (∀ n w, FrontierOk n w → FrontierOk n w.merge ∧ FrontierOk n w.tidy ∧ FrontierOk n w.fire ∧ (∀ m, FrontierOk n (w.waitmTest m)) ∧
    (∀ k pc, FrontierOk n (w.release k pc) ∧ FrontierOk n (w.releaseNext k) ∧ FrontierOk n (w.releaseAgain k)) ∧
    ∀ b p q x, FrontierOk n (w.barRelease b p q x)) ∧
  (∀ (s : State) g w k m pc, s.warp? g = some w → FrontierOk s.nextId w → ∀ w', (s.releaseLanes g k m pc).warp? g = some w' →
    FrontierOk (s.releaseLanes g k m pc).nextId w') ∧
  (∀ (s : State) g w m, s.warp? g = some w → FrontierOk s.nextId w → ∀ w', (s.endLanes g m).warp? g = some w' → FrontierOk (s.endLanes g m).nextId w') ∧
  (∀ (s t : State) g w pc prio (ts : List (Nat × TrapInfo)), s.warp? g = some w → FrontierOk s.nextId w → (∀ x ∈ ts, x.1 < 32 ∧ w.live.getLsbD x.1 = true) →
    t = (s.modWarp g fun w => w.dropLanes (maskOf (ts.map Prod.fst))).takeTraps g pc prio ts → ∀ w', t.warp? g = some w' → FrontierOk t.nextId w') ∧
  ∀ (u : State) g w e fs, u.warp? g = some w → FrontierOk u.nextId w → (∃ x ∈ w.entries, x.eid = e.eid ∧ x.mask = e.mask) → FatesOf e fs →
    ∀ w', (u.stepped g e fs).warp? g = some w' → FrontierOk (u.stepped g e fs).nextId w'

/-- The instructions that LaneResults, UniformResults and SequencerResults cover keep the frontier of their warp in a split that can issue (R135). -/
def Obligations.FrontierSteps : Prop :=
  ∀ s g w e i t w', Calm s g w e → FrontierOk s.nextId w →
    ((∃ x, LaneSpec i x ∧ (((laneCtx g w e x.g).act = 0 ∧ (laneCtx g w e x.g).pg = 0) ∨ Room s g w x.o)) ∨ (∃ x, UniSpec i x) ∨
      ∃ u fs, SeqSpec s g w e i u fs) →
    exec i s = .next t → t.warp? g = some w' → FrontierOk t.nextId w'

/-- Merging (R138): afterwards no two entries that may merge stand at one PC; every entry's lanes are in one at its PC, with at least
its priority and age; parked and trap entries are as before; no lane comes from elsewhere. -/
def Obligations.Merging : Prop :=
  ∀ w : Warp,
    (w.merge.entries.Pairwise fun x y => ¬ (x.mergeable = true ∧ y.mergeable = true ∧ x.pc = y.pc)) ∧
    (∀ x ∈ w.entries, x.mergeable = true → ∃ y ∈ w.merge.entries, y.mergeable = true ∧ y.pc = x.pc ∧ x.mask &&& ~~~ y.mask = 0 ∧
      x.prio ≤ y.prio ∧ x.age ≤ y.age ∧ (x.st = .pending → y.st = .pending)) ∧
    (∀ x ∈ w.entries, x.mergeable = false → x ∈ w.merge.entries) ∧
    (∀ y ∈ w.merge.entries, ∀ l, y.mask.getLsbD l = true → ∃ x ∈ w.entries, x.pc = y.pc ∧ x.mask.getLsbD l = true) ∧
    (∀ y ∈ w.merge.entries, (∃ x ∈ w.entries, x.pc = y.pc ∧ x.prio = y.prio) ∧ ∃ x ∈ w.entries, x.pc = y.pc ∧ x.age = y.age)

/-- The entry of a warp that issues (R140): one of age 1,024 first, of those the lower PC; then the higher priority among those
without HELD, of those the lower PC; then one with HELD, which holds for 64 cc (R143). A warp with a ready entry that no earlier access
holds back has one. -/
def Obligations.EntryChosen : Prop :=
  ∀ (w : Warp) (now : Nat), (w.pick now = none ↔ ∀ x ∈ w.entries, ¬ (x.st = .ready ∧ x.rel = 0)) ∧
    ∀ y, w.pick now = some y → y ∈ w.entries ∧ y.st = .ready ∧ y.rel = 0 ∧ ∀ x ∈ w.entries, x.st = .ready → x.rel = 0 →
      (x.age = 1024 → y.age = 1024 ∧ y.pc.toNat ≤ x.pc.toNat) ∧
      (y.age ≠ 1024 → ¬ (x.held = true ∧ now < x.heldUntil) →
        ¬ (y.held = true ∧ now < y.heldUntil) ∧ x.prio ≤ y.prio ∧ (x.prio = y.prio → y.pc.toNat ≤ x.pc.toNat))

/-- The test of WAITM (R152): where every lane of mN waits on mN, each lane that waits on it is released at the PC of its own WAITM
plus 8; where one does not, the splits that wait on mN stay. -/
def Obligations.WaitmReleases : Prop :=
  ∀ (w : Warp) n, n < 12 →
    (w.mget n &&& ~~~ w.waitmLanes n = 0 → ∀ x ∈ w.entries, x.st = .parked (.waitm n) → x.mask ≠ 0 → ∀ l, x.mask.getLsbD l = true →
      w.waitmTests.runs l (x.pc + 8)) ∧
    (w.mget n &&& ~~~ w.waitmLanes n ≠ 0 → ∀ x ∈ w.entries, x.st = .parked (.waitm n) → x ∈ w.waitmTests.entries)

/-! ## Events -/

/-- The events of the dispatch engine (R85–R126), each where it is enabled. -/
def Obligations.DispatchEvents : Prop := ∀ s i t, DispatchEvent s i t → exec i s = .next t
/-- The events of the sequencer and of the register pool (R132–R181). -/
def Obligations.SequencerEvents : Prop := ∀ s i t, SequencerEvent s i t → exec i s = .next t
/-- The events of the command queues, the copy engines and the matrix units (R331–R374, R404, R418). -/
def Obligations.CommandEvents : Prop := ∀ s i t, CommandEvent s i t → exec i s = .next t
/-- The messages of the coherence protocol and the accesses of the host and of peers (R262–R280, R431). -/
def Obligations.CoherenceEvents : Prop := ∀ s i t, CoherenceEvent s i t → exec i s = .next t
/-- The re-tests and releases of parked lanes, fragments and sections (R130, R304–R317, R378–R389). -/
def Obligations.ReleaseEvents : Prop := ∀ s i t, ReleaseEvent s i t → exec i s = .next t
/-- The events of the system: peers, power, security, health, resets (R279, R425–R441). -/
def Obligations.SystemEvents : Prop := ∀ s i t, SystemEvent s i t → exec i s = .next t

/-! ## Warps at their start, reset, invariants -/

/-- A warp of a fresh block as it starts (R136, R206, R95): one entry with all 32 lanes at CODE_BASE plus the start offset, PRIO 32,
age 0, ready; call depths, trap registers, masks, s and q zero; no v register mapped; the watchdog from the launch record. -/
def Obligations.WarpStart : Prop :=
  ∀ (s : State) (l : Launch) (p : Place) (bid i : Nat), freeSlot s (16 * p.core + (p.base + i) % 16) < 16 → p.core < 216 →
    ∃ w, (startWarp s l p bid i).warp? (256 * p.core + 16 * ((p.base + i) % 16) + freeSlot s (16 * p.core + (p.base + i) % 16)) = some w ∧
      (∃ e, w.entries = [e] ∧ e.mask = BitVec.allOnes 32 ∧ e.prio = 32 ∧ e.age = 0 ∧ e.st = .ready ∧
        e.pc = l.entry.codeBase + BitVec.ofNat 64 (l.entry.startOff p.variant i)) ∧
      (∀ k, w.depthOf k = 0 ∧ w.trapOf k = {} ∧ w.mget k = 0) ∧ (∀ k, w.sget k = 0) ∧ (∀ k, k < 7 → w.qget k = false) ∧
      (∀ r k, w.vget r k = { bits := 0xFFFFFFFF, poison := true }) ∧ w.live = BitVec.allOnes 32 ∧
      w.budget = (let v := if s.wdogMax ≠ 0 ∧ (l.wdog = 0 ∨ s.wdogMax < l.wdog) then s.wdogMax else l.wdog
                  if v = 0 then none else some v)

/-- The values that the manual gives for reset: the CSRs (R120, R121, R157, R276, R311, R434, R437), device memory (R434), the launch
counter and queue (R91), the shapes, scales and signatures of each core (R218, R349), and no resident work. -/
def Obligations.ResetState : Prop :=
  csrRead State.reset 0 0x000 = 0 ∧ csrRead State.reset 0 0x001 = 1 ∧ csrRead State.reset 0 0x002 = 0 ∧ csrRead State.reset 0 0x006 = 0 ∧
  csrRead State.reset 0 0x007 = 1000 ∧ csrRead State.reset 0 0x008 = 4096 ∧ csrRead State.reset 0 0x009 = 0x1003 ∧
  csrRead State.reset 0 0x00A = 0 ∧ csrRead State.reset 0 0x00B = 10000 ∧ csrRead State.reset 0 0x00C = 0 ∧
  (∀ n i, csrRead State.reset n 0x010 = 0 ∧ csrRead State.reset n (0x100 + i) = 0) ∧ (∀ a, mget State.reset.dram a = 0) ∧
  State.reset.launchCtr = 1 ∧ State.reset.launches = [] ∧ State.reset.blocks = [] ∧ State.reset.warps = [] ∧ State.reset.clockMhz = 1200 ∧
  ∀ n k, tgetD (State.reset.core n).tcs k 0 = 0 ∧ tgetD (State.reset.core n).es k 0x3F800000 = 0x3F800000 ∧ (State.reset.core n).cmds = []

/-- Every memory of the machine is in canonical form after reset. -/
def Obligations.ResetMemory : Prop := State.reset.memWf = true

/-- The canonical form of every memory of the machine is kept by every step. -/
def Obligations.MemoryCanonical : Prop := ∀ s t, s.memWf = true → step s = .next t → t.memWf = true

/-- CXLMEM is ready only where MEM and L2 are (R434). -/
def Sys2Proof.Machine.readyOrder (s : State) : Prop := s.ready.getLsbD 2 = true → s.ready.getLsbD 0 = true ∧ s.ready.getLsbD 1 = true

/-- The order of READY holds after reset. -/
def Obligations.ResetReady : Prop := readyOrder State.reset

/-- Every step keeps the order of READY: CXLMEM is set only once MEM and L2 are both 1 (R434). -/
def Obligations.ReadyOrderKept : Prop := ∀ s t, readyOrder s → step s = .next t → readyOrder t

/-! ## Numbers -/

/-- FMIN and FMAX (R61, R62), in every floating-point format of the lanes: −0 is below +0; exactly one NaN gives the other operand;
two NaNs give the canonical NaN of the first one's sign; a signalling NaN, and nothing else, sets the invalid flag. -/
def Obligations.MinMaxNumbers : Prop :=
  ∀ f ∈ [FpFmt.fp64, .fp32, .fp16, .bf16, .e4m3, .e5m2], ∀ isMax,
    (∀ x y, x < 2 ^ (f.mbits + f.ebits + 1) → y < 2 ^ (f.mbits + f.ebits + 1) →
      ((fpDecode f x).isNan = true → (fpDecode f y).isNan = false → (fpMinMax f false isMax x y).1 = y) ∧
      ((fpDecode f x).isNan = false → (fpDecode f y).isNan = true → (fpMinMax f false isMax x y).1 = x) ∧
      ((fpDecode f x).isNan = true → (fpDecode f y).isNan = true → (fpMinMax f false isMax x y).1 = f.canonNan (fpDecode f x).neg) ∧
      (fpMinMax f false isMax x y).2.nv = ((fpDecode f x).isSig || (fpDecode f y).isSig)) ∧
    (fpMinMax f false isMax (2 ^ (f.mbits + f.ebits)) 0).1 = (if isMax then 0 else 2 ^ (f.mbits + f.ebits)) ∧
    (fpMinMax f false isMax 0 (2 ^ (f.mbits + f.ebits))).1 = (if isMax then 0 else 2 ^ (f.mbits + f.ebits))
end

