-- ==== Sys2Proof/Laws/State.lean ====
section
/-! SUPPORT. One lemma for each field of State and of Warp under each update of Access, Regs and Frontier: what the update leaves
alone. -/

namespace Sys2Proof.Machine


/-! State.setWarp -/

@[simp] theorem State.setWarp_schedule (s : State) (g : Nat) (w : Warp) : (s.setWarp g w).schedule = s.schedule := rfl
@[simp] theorem State.setWarp_focus (s : State) (g : Nat) (w : Warp) : (s.setWarp g w).focus = s.focus := rfl
@[simp] theorem State.setWarp_cur (s : State) (g : Nat) (w : Warp) : (s.setWarp g w).cur = s.cur := rfl
@[simp] theorem State.setWarp_fresh (s : State) (g : Nat) (w : Warp) : (s.setWarp g w).fresh = s.fresh := rfl
@[simp] theorem State.setWarp_nextId (s : State) (g : Nat) (w : Warp) : (s.setWarp g w).nextId = s.nextId := rfl
@[simp] theorem State.setWarp_now (s : State) (g : Nat) (w : Warp) : (s.setWarp g w).now = s.now := rfl
@[simp] theorem State.setWarp_devTicks (s : State) (g : Nat) (w : Warp) : (s.setWarp g w).devTicks = s.devTicks := rfl
@[simp] theorem State.setWarp_clockMhz (s : State) (g : Nat) (w : Warp) : (s.setWarp g w).clockMhz = s.clockMhz := rfl
@[simp] theorem State.setWarp_powered (s : State) (g : Nat) (w : Warp) : (s.setWarp g w).powered = s.powered := rfl
@[simp] theorem State.setWarp_stalled (s : State) (g : Nat) (w : Warp) : (s.setWarp g w).stalled = s.stalled := rfl
@[simp] theorem State.setWarp_powerCap (s : State) (g : Nat) (w : Warp) : (s.setWarp g w).powerCap = s.powerCap := rfl
@[simp] theorem State.setWarp_hwCapped (s : State) (g : Nat) (w : Warp) : (s.setWarp g w).hwCapped = s.hwCapped := rfl
@[simp] theorem State.setWarp_restarts (s : State) (g : Nat) (w : Warp) : (s.setWarp g w).restarts = s.restarts := rfl
@[simp] theorem State.setWarp_dram (s : State) (g : Nat) (w : Warp) : (s.setWarp g w).dram = s.dram := rfl
@[simp] theorem State.setWarp_dramPoison (s : State) (g : Nat) (w : Warp) : (s.setWarp g w).dramPoison = s.dramPoison := rfl
@[simp] theorem State.setWarp_l2 (s : State) (g : Nat) (w : Warp) : (s.setWarp g w).l2 = s.l2 := rfl
@[simp] theorem State.setWarp_dir (s : State) (g : Nat) (w : Warp) : (s.setWarp g w).dir = s.dir := rfl
@[simp] theorem State.setWarp_misses (s : State) (g : Nat) (w : Warp) : (s.setWarp g w).misses = s.misses := rfl
@[simp] theorem State.setWarp_net (s : State) (g : Nat) (w : Warp) : (s.setWarp g w).net = s.net := rfl
@[simp] theorem State.setWarp_hostMem (s : State) (g : Nat) (w : Warp) : (s.setWarp g w).hostMem = s.hostMem := rfl
@[simp] theorem State.setWarp_hostCached (s : State) (g : Nat) (w : Warp) : (s.setWarp g w).hostCached = s.hostCached := rfl
@[simp] theorem State.setWarp_hostHeld (s : State) (g : Nat) (w : Warp) : (s.setWarp g w).hostHeld = s.hostHeld := rfl
@[simp] theorem State.setWarp_fenced (s : State) (g : Nat) (w : Warp) : (s.setWarp g w).fenced = s.fenced := rfl
@[simp] theorem State.setWarp_waiters (s : State) (g : Nat) (w : Warp) : (s.setWarp g w).waiters = s.waiters := rfl
@[simp] theorem State.setWarp_tlb (s : State) (g : Nat) (w : Warp) : (s.setWarp g w).tlb = s.tlb := rfl
@[simp] theorem State.setWarp_wcache (s : State) (g : Nat) (w : Warp) : (s.setWarp g w).wcache = s.wcache := rfl
@[simp] theorem State.setWarp_accepts (s : State) (g : Nat) (w : Warp) : (s.setWarp g w).accepts = s.accepts := rfl
@[simp] theorem State.setWarp_retests (s : State) (g : Nat) (w : Warp) : (s.setWarp g w).retests = s.retests := rfl
@[simp] theorem State.setWarp_cores (s : State) (g : Nat) (w : Warp) : (s.setWarp g w).cores = s.cores := rfl
@[simp] theorem State.setWarp_parts (s : State) (g : Nat) (w : Warp) : (s.setWarp g w).parts = s.parts := rfl
@[simp] theorem State.setWarp_icache (s : State) (g : Nat) (w : Warp) : (s.setWarp g w).icache = s.icache := rfl
@[simp] theorem State.setWarp_blocks (s : State) (g : Nat) (w : Warp) : (s.setWarp g w).blocks = s.blocks := rfl
@[simp] theorem State.setWarp_asyncs (s : State) (g : Nat) (w : Warp) : (s.setWarp g w).asyncs = s.asyncs := rfl
@[simp] theorem State.setWarp_savedWarps (s : State) (g : Nat) (w : Warp) : (s.setWarp g w).savedWarps = s.savedWarps := rfl
@[simp] theorem State.setWarp_savedCmds (s : State) (g : Nat) (w : Warp) : (s.setWarp g w).savedCmds = s.savedCmds := rfl
@[simp] theorem State.setWarp_savedCore (s : State) (g : Nat) (w : Warp) : (s.setWarp g w).savedCore = s.savedCore := rfl
@[simp] theorem State.setWarp_launchCtr (s : State) (g : Nat) (w : Warp) : (s.setWarp g w).launchCtr = s.launchCtr := rfl
@[simp] theorem State.setWarp_launches (s : State) (g : Nat) (w : Warp) : (s.setWarp g w).launches = s.launches := rfl
@[simp] theorem State.setWarp_waiting (s : State) (g : Nat) (w : Warp) : (s.setWarp g w).waiting = s.waiting := rfl
@[simp] theorem State.setWarp_reserved (s : State) (g : Nat) (w : Warp) : (s.setWarp g w).reserved = s.reserved := rfl
@[simp] theorem State.setWarp_reservedCores (s : State) (g : Nat) (w : Warp) : (s.setWarp g w).reservedCores = s.reservedCores := rfl
@[simp] theorem State.setWarp_sealedSlots (s : State) (g : Nat) (w : Warp) : (s.setWarp g w).sealedSlots = s.sealedSlots := rfl
@[simp] theorem State.setWarp_heldSlots (s : State) (g : Nat) (w : Warp) : (s.setWarp g w).heldSlots = s.heldSlots := rfl
@[simp] theorem State.setWarp_childQueue (s : State) (g : Nat) (w : Warp) : (s.setWarp g w).childQueue = s.childQueue := rfl
@[simp] theorem State.setWarp_saveUsed (s : State) (g : Nat) (w : Warp) : (s.setWarp g w).saveUsed = s.saveUsed := rfl
@[simp] theorem State.setWarp_passes (s : State) (g : Nat) (w : Warp) : (s.setWarp g w).passes = s.passes := rfl
@[simp] theorem State.setWarp_ready (s : State) (g : Nat) (w : Warp) : (s.setWarp g w).ready = s.ready := rfl
@[simp] theorem State.setWarp_svcMode (s : State) (g : Nat) (w : Warp) : (s.setWarp g w).svcMode = s.svcMode := rfl
@[simp] theorem State.setWarp_lwinBase (s : State) (g : Nat) (w : Warp) : (s.setWarp g w).lwinBase = s.lwinBase := rfl
@[simp] theorem State.setWarp_ctxBase (s : State) (g : Nat) (w : Warp) : (s.setWarp g w).ctxBase = s.ctxBase := rfl
@[simp] theorem State.setWarp_ctxSize (s : State) (g : Nat) (w : Warp) : (s.setWarp g w).ctxSize = s.ctxSize := rfl
@[simp] theorem State.setWarp_asTable (s : State) (g : Nat) (w : Warp) : (s.setWarp g w).asTable = s.asTable := rfl
@[simp] theorem State.setWarp_wdogMax (s : State) (g : Nat) (w : Warp) : (s.setWarp g w).wdogMax = s.wdogMax := rfl
@[simp] theorem State.setWarp_quantumUs (s : State) (g : Nat) (w : Warp) : (s.setWarp g w).quantumUs = s.quantumUs := rfl
@[simp] theorem State.setWarp_leaseLen (s : State) (g : Nat) (w : Warp) : (s.setWarp g w).leaseLen = s.leaseLen := rfl
@[simp] theorem State.setWarp_swpol (s : State) (g : Nat) (w : Warp) : (s.setWarp g w).swpol = s.swpol := rfl
@[simp] theorem State.setWarp_spadSplit (s : State) (g : Nat) (w : Warp) : (s.setWarp g w).spadSplit = s.spadSplit := rfl
@[simp] theorem State.setWarp_fabTimeout (s : State) (g : Nat) (w : Warp) : (s.setWarp g w).fabTimeout = s.fabTimeout := rfl
@[simp] theorem State.setWarp_dumpBase (s : State) (g : Nat) (w : Warp) : (s.setWarp g w).dumpBase = s.dumpBase := rfl
@[simp] theorem State.setWarp_slotAsid (s : State) (g : Nat) (w : Warp) : (s.setWarp g w).slotAsid = s.slotAsid := rfl
@[simp] theorem State.setWarp_peers (s : State) (g : Nat) (w : Warp) : (s.setWarp g w).peers = s.peers := rfl
@[simp] theorem State.setWarp_windowBase (s : State) (g : Nat) (w : Warp) : (s.setWarp g w).windowBase = s.windowBase := rfl
@[simp] theorem State.setWarp_windowBytes (s : State) (g : Nat) (w : Warp) : (s.setWarp g w).windowBytes = s.windowBytes := rfl
@[simp] theorem State.setWarp_puts (s : State) (g : Nat) (w : Warp) : (s.setWarp g w).puts = s.puts := rfl
@[simp] theorem State.setWarp_hostLinkRefused (s : State) (g : Nat) (w : Warp) : (s.setWarp g w).hostLinkRefused = s.hostLinkRefused := rfl
@[simp] theorem State.setWarp_image (s : State) (g : Nat) (w : Warp) : (s.setWarp g w).image = s.image := rfl
@[simp] theorem State.setWarp_fusedVersion (s : State) (g : Nat) (w : Warp) : (s.setWarp g w).fusedVersion = s.fusedVersion := rfl
@[simp] theorem State.setWarp_revoked (s : State) (g : Nat) (w : Warp) : (s.setWarp g w).revoked = s.revoked := rfl
@[simp] theorem State.setWarp_measurements (s : State) (g : Nat) (w : Warp) : (s.setWarp g w).measurements = s.measurements := rfl
@[simp] theorem State.setWarp_stages (s : State) (g : Nat) (w : Warp) : (s.setWarp g w).stages = s.stages := rfl
@[simp] theorem State.setWarp_health (s : State) (g : Nat) (w : Warp) : (s.setWarp g w).health = s.health := rfl
@[simp] theorem State.setWarp_uncorrected (s : State) (g : Nat) (w : Warp) : (s.setWarp g w).uncorrected = s.uncorrected := rfl
@[simp] theorem State.setWarp_badPas (s : State) (g : Nat) (w : Warp) : (s.setWarp g w).badPas = s.badPas := rfl
@[simp] theorem State.setWarp_eol (s : State) (g : Nat) (w : Warp) : (s.setWarp g w).eol = s.eol := rfl
@[simp] theorem State.setWarp_reports (s : State) (g : Nat) (w : Warp) : (s.setWarp g w).reports = s.reports := rfl
@[simp] theorem State.setWarp_notices (s : State) (g : Nat) (w : Warp) : (s.setWarp g w).notices = s.notices := rfl
@[simp] theorem State.setWarp_fatal (s : State) (g : Nat) (w : Warp) : (s.setWarp g w).fatal = s.fatal := rfl
@[simp] theorem State.setWarp_events (s : State) (g : Nat) (w : Warp) : (s.setWarp g w).events = s.events := rfl

/-! State.modWarp -/

@[simp] theorem State.modWarp_schedule (s : State) (g : Nat) (f : Warp → Warp) : (s.modWarp g f).schedule = s.schedule := rfl
@[simp] theorem State.modWarp_focus (s : State) (g : Nat) (f : Warp → Warp) : (s.modWarp g f).focus = s.focus := rfl
@[simp] theorem State.modWarp_cur (s : State) (g : Nat) (f : Warp → Warp) : (s.modWarp g f).cur = s.cur := rfl
@[simp] theorem State.modWarp_fresh (s : State) (g : Nat) (f : Warp → Warp) : (s.modWarp g f).fresh = s.fresh := rfl
@[simp] theorem State.modWarp_nextId (s : State) (g : Nat) (f : Warp → Warp) : (s.modWarp g f).nextId = s.nextId := rfl
@[simp] theorem State.modWarp_now (s : State) (g : Nat) (f : Warp → Warp) : (s.modWarp g f).now = s.now := rfl
@[simp] theorem State.modWarp_devTicks (s : State) (g : Nat) (f : Warp → Warp) : (s.modWarp g f).devTicks = s.devTicks := rfl
@[simp] theorem State.modWarp_clockMhz (s : State) (g : Nat) (f : Warp → Warp) : (s.modWarp g f).clockMhz = s.clockMhz := rfl
@[simp] theorem State.modWarp_powered (s : State) (g : Nat) (f : Warp → Warp) : (s.modWarp g f).powered = s.powered := rfl
@[simp] theorem State.modWarp_stalled (s : State) (g : Nat) (f : Warp → Warp) : (s.modWarp g f).stalled = s.stalled := rfl
@[simp] theorem State.modWarp_powerCap (s : State) (g : Nat) (f : Warp → Warp) : (s.modWarp g f).powerCap = s.powerCap := rfl
@[simp] theorem State.modWarp_hwCapped (s : State) (g : Nat) (f : Warp → Warp) : (s.modWarp g f).hwCapped = s.hwCapped := rfl
@[simp] theorem State.modWarp_restarts (s : State) (g : Nat) (f : Warp → Warp) : (s.modWarp g f).restarts = s.restarts := rfl
@[simp] theorem State.modWarp_dram (s : State) (g : Nat) (f : Warp → Warp) : (s.modWarp g f).dram = s.dram := rfl
@[simp] theorem State.modWarp_dramPoison (s : State) (g : Nat) (f : Warp → Warp) : (s.modWarp g f).dramPoison = s.dramPoison := rfl
@[simp] theorem State.modWarp_l2 (s : State) (g : Nat) (f : Warp → Warp) : (s.modWarp g f).l2 = s.l2 := rfl
@[simp] theorem State.modWarp_dir (s : State) (g : Nat) (f : Warp → Warp) : (s.modWarp g f).dir = s.dir := rfl
@[simp] theorem State.modWarp_misses (s : State) (g : Nat) (f : Warp → Warp) : (s.modWarp g f).misses = s.misses := rfl
@[simp] theorem State.modWarp_net (s : State) (g : Nat) (f : Warp → Warp) : (s.modWarp g f).net = s.net := rfl
@[simp] theorem State.modWarp_hostMem (s : State) (g : Nat) (f : Warp → Warp) : (s.modWarp g f).hostMem = s.hostMem := rfl
@[simp] theorem State.modWarp_hostCached (s : State) (g : Nat) (f : Warp → Warp) : (s.modWarp g f).hostCached = s.hostCached := rfl
@[simp] theorem State.modWarp_hostHeld (s : State) (g : Nat) (f : Warp → Warp) : (s.modWarp g f).hostHeld = s.hostHeld := rfl
@[simp] theorem State.modWarp_fenced (s : State) (g : Nat) (f : Warp → Warp) : (s.modWarp g f).fenced = s.fenced := rfl
@[simp] theorem State.modWarp_waiters (s : State) (g : Nat) (f : Warp → Warp) : (s.modWarp g f).waiters = s.waiters := rfl
@[simp] theorem State.modWarp_tlb (s : State) (g : Nat) (f : Warp → Warp) : (s.modWarp g f).tlb = s.tlb := rfl
@[simp] theorem State.modWarp_wcache (s : State) (g : Nat) (f : Warp → Warp) : (s.modWarp g f).wcache = s.wcache := rfl
@[simp] theorem State.modWarp_accepts (s : State) (g : Nat) (f : Warp → Warp) : (s.modWarp g f).accepts = s.accepts := rfl
@[simp] theorem State.modWarp_retests (s : State) (g : Nat) (f : Warp → Warp) : (s.modWarp g f).retests = s.retests := rfl
@[simp] theorem State.modWarp_cores (s : State) (g : Nat) (f : Warp → Warp) : (s.modWarp g f).cores = s.cores := rfl
@[simp] theorem State.modWarp_parts (s : State) (g : Nat) (f : Warp → Warp) : (s.modWarp g f).parts = s.parts := rfl
@[simp] theorem State.modWarp_icache (s : State) (g : Nat) (f : Warp → Warp) : (s.modWarp g f).icache = s.icache := rfl
@[simp] theorem State.modWarp_blocks (s : State) (g : Nat) (f : Warp → Warp) : (s.modWarp g f).blocks = s.blocks := rfl
@[simp] theorem State.modWarp_asyncs (s : State) (g : Nat) (f : Warp → Warp) : (s.modWarp g f).asyncs = s.asyncs := rfl
@[simp] theorem State.modWarp_savedWarps (s : State) (g : Nat) (f : Warp → Warp) : (s.modWarp g f).savedWarps = s.savedWarps := rfl
@[simp] theorem State.modWarp_savedCmds (s : State) (g : Nat) (f : Warp → Warp) : (s.modWarp g f).savedCmds = s.savedCmds := rfl
@[simp] theorem State.modWarp_savedCore (s : State) (g : Nat) (f : Warp → Warp) : (s.modWarp g f).savedCore = s.savedCore := rfl
@[simp] theorem State.modWarp_launchCtr (s : State) (g : Nat) (f : Warp → Warp) : (s.modWarp g f).launchCtr = s.launchCtr := rfl
@[simp] theorem State.modWarp_launches (s : State) (g : Nat) (f : Warp → Warp) : (s.modWarp g f).launches = s.launches := rfl
@[simp] theorem State.modWarp_waiting (s : State) (g : Nat) (f : Warp → Warp) : (s.modWarp g f).waiting = s.waiting := rfl
@[simp] theorem State.modWarp_reserved (s : State) (g : Nat) (f : Warp → Warp) : (s.modWarp g f).reserved = s.reserved := rfl
@[simp] theorem State.modWarp_reservedCores (s : State) (g : Nat) (f : Warp → Warp) : (s.modWarp g f).reservedCores = s.reservedCores := rfl
@[simp] theorem State.modWarp_sealedSlots (s : State) (g : Nat) (f : Warp → Warp) : (s.modWarp g f).sealedSlots = s.sealedSlots := rfl
@[simp] theorem State.modWarp_heldSlots (s : State) (g : Nat) (f : Warp → Warp) : (s.modWarp g f).heldSlots = s.heldSlots := rfl
@[simp] theorem State.modWarp_childQueue (s : State) (g : Nat) (f : Warp → Warp) : (s.modWarp g f).childQueue = s.childQueue := rfl
@[simp] theorem State.modWarp_saveUsed (s : State) (g : Nat) (f : Warp → Warp) : (s.modWarp g f).saveUsed = s.saveUsed := rfl
@[simp] theorem State.modWarp_passes (s : State) (g : Nat) (f : Warp → Warp) : (s.modWarp g f).passes = s.passes := rfl
@[simp] theorem State.modWarp_ready (s : State) (g : Nat) (f : Warp → Warp) : (s.modWarp g f).ready = s.ready := rfl
@[simp] theorem State.modWarp_svcMode (s : State) (g : Nat) (f : Warp → Warp) : (s.modWarp g f).svcMode = s.svcMode := rfl
@[simp] theorem State.modWarp_lwinBase (s : State) (g : Nat) (f : Warp → Warp) : (s.modWarp g f).lwinBase = s.lwinBase := rfl
@[simp] theorem State.modWarp_ctxBase (s : State) (g : Nat) (f : Warp → Warp) : (s.modWarp g f).ctxBase = s.ctxBase := rfl
@[simp] theorem State.modWarp_ctxSize (s : State) (g : Nat) (f : Warp → Warp) : (s.modWarp g f).ctxSize = s.ctxSize := rfl
@[simp] theorem State.modWarp_asTable (s : State) (g : Nat) (f : Warp → Warp) : (s.modWarp g f).asTable = s.asTable := rfl
@[simp] theorem State.modWarp_wdogMax (s : State) (g : Nat) (f : Warp → Warp) : (s.modWarp g f).wdogMax = s.wdogMax := rfl
@[simp] theorem State.modWarp_quantumUs (s : State) (g : Nat) (f : Warp → Warp) : (s.modWarp g f).quantumUs = s.quantumUs := rfl
@[simp] theorem State.modWarp_leaseLen (s : State) (g : Nat) (f : Warp → Warp) : (s.modWarp g f).leaseLen = s.leaseLen := rfl
@[simp] theorem State.modWarp_swpol (s : State) (g : Nat) (f : Warp → Warp) : (s.modWarp g f).swpol = s.swpol := rfl
@[simp] theorem State.modWarp_spadSplit (s : State) (g : Nat) (f : Warp → Warp) : (s.modWarp g f).spadSplit = s.spadSplit := rfl
@[simp] theorem State.modWarp_fabTimeout (s : State) (g : Nat) (f : Warp → Warp) : (s.modWarp g f).fabTimeout = s.fabTimeout := rfl
@[simp] theorem State.modWarp_dumpBase (s : State) (g : Nat) (f : Warp → Warp) : (s.modWarp g f).dumpBase = s.dumpBase := rfl
@[simp] theorem State.modWarp_slotAsid (s : State) (g : Nat) (f : Warp → Warp) : (s.modWarp g f).slotAsid = s.slotAsid := rfl
@[simp] theorem State.modWarp_peers (s : State) (g : Nat) (f : Warp → Warp) : (s.modWarp g f).peers = s.peers := rfl
@[simp] theorem State.modWarp_windowBase (s : State) (g : Nat) (f : Warp → Warp) : (s.modWarp g f).windowBase = s.windowBase := rfl
@[simp] theorem State.modWarp_windowBytes (s : State) (g : Nat) (f : Warp → Warp) : (s.modWarp g f).windowBytes = s.windowBytes := rfl
@[simp] theorem State.modWarp_puts (s : State) (g : Nat) (f : Warp → Warp) : (s.modWarp g f).puts = s.puts := rfl
@[simp] theorem State.modWarp_hostLinkRefused (s : State) (g : Nat) (f : Warp → Warp) : (s.modWarp g f).hostLinkRefused = s.hostLinkRefused := rfl
@[simp] theorem State.modWarp_image (s : State) (g : Nat) (f : Warp → Warp) : (s.modWarp g f).image = s.image := rfl
@[simp] theorem State.modWarp_fusedVersion (s : State) (g : Nat) (f : Warp → Warp) : (s.modWarp g f).fusedVersion = s.fusedVersion := rfl
@[simp] theorem State.modWarp_revoked (s : State) (g : Nat) (f : Warp → Warp) : (s.modWarp g f).revoked = s.revoked := rfl
@[simp] theorem State.modWarp_measurements (s : State) (g : Nat) (f : Warp → Warp) : (s.modWarp g f).measurements = s.measurements := rfl
@[simp] theorem State.modWarp_stages (s : State) (g : Nat) (f : Warp → Warp) : (s.modWarp g f).stages = s.stages := rfl
@[simp] theorem State.modWarp_health (s : State) (g : Nat) (f : Warp → Warp) : (s.modWarp g f).health = s.health := rfl
@[simp] theorem State.modWarp_uncorrected (s : State) (g : Nat) (f : Warp → Warp) : (s.modWarp g f).uncorrected = s.uncorrected := rfl
@[simp] theorem State.modWarp_badPas (s : State) (g : Nat) (f : Warp → Warp) : (s.modWarp g f).badPas = s.badPas := rfl
@[simp] theorem State.modWarp_eol (s : State) (g : Nat) (f : Warp → Warp) : (s.modWarp g f).eol = s.eol := rfl
@[simp] theorem State.modWarp_reports (s : State) (g : Nat) (f : Warp → Warp) : (s.modWarp g f).reports = s.reports := rfl
@[simp] theorem State.modWarp_notices (s : State) (g : Nat) (f : Warp → Warp) : (s.modWarp g f).notices = s.notices := rfl
@[simp] theorem State.modWarp_fatal (s : State) (g : Nat) (f : Warp → Warp) : (s.modWarp g f).fatal = s.fatal := rfl
@[simp] theorem State.modWarp_events (s : State) (g : Nat) (f : Warp → Warp) : (s.modWarp g f).events = s.events := rfl

/-! State.setCore -/

@[simp] theorem State.setCore_schedule (s : State) (n : Nat) (c : Core) : (s.setCore n c).schedule = s.schedule := rfl
@[simp] theorem State.setCore_focus (s : State) (n : Nat) (c : Core) : (s.setCore n c).focus = s.focus := rfl
@[simp] theorem State.setCore_cur (s : State) (n : Nat) (c : Core) : (s.setCore n c).cur = s.cur := rfl
@[simp] theorem State.setCore_fresh (s : State) (n : Nat) (c : Core) : (s.setCore n c).fresh = s.fresh := rfl
@[simp] theorem State.setCore_nextId (s : State) (n : Nat) (c : Core) : (s.setCore n c).nextId = s.nextId := rfl
@[simp] theorem State.setCore_now (s : State) (n : Nat) (c : Core) : (s.setCore n c).now = s.now := rfl
@[simp] theorem State.setCore_devTicks (s : State) (n : Nat) (c : Core) : (s.setCore n c).devTicks = s.devTicks := rfl
@[simp] theorem State.setCore_clockMhz (s : State) (n : Nat) (c : Core) : (s.setCore n c).clockMhz = s.clockMhz := rfl
@[simp] theorem State.setCore_powered (s : State) (n : Nat) (c : Core) : (s.setCore n c).powered = s.powered := rfl
@[simp] theorem State.setCore_stalled (s : State) (n : Nat) (c : Core) : (s.setCore n c).stalled = s.stalled := rfl
@[simp] theorem State.setCore_powerCap (s : State) (n : Nat) (c : Core) : (s.setCore n c).powerCap = s.powerCap := rfl
@[simp] theorem State.setCore_hwCapped (s : State) (n : Nat) (c : Core) : (s.setCore n c).hwCapped = s.hwCapped := rfl
@[simp] theorem State.setCore_restarts (s : State) (n : Nat) (c : Core) : (s.setCore n c).restarts = s.restarts := rfl
@[simp] theorem State.setCore_dram (s : State) (n : Nat) (c : Core) : (s.setCore n c).dram = s.dram := rfl
@[simp] theorem State.setCore_dramPoison (s : State) (n : Nat) (c : Core) : (s.setCore n c).dramPoison = s.dramPoison := rfl
@[simp] theorem State.setCore_l2 (s : State) (n : Nat) (c : Core) : (s.setCore n c).l2 = s.l2 := rfl
@[simp] theorem State.setCore_dir (s : State) (n : Nat) (c : Core) : (s.setCore n c).dir = s.dir := rfl
@[simp] theorem State.setCore_misses (s : State) (n : Nat) (c : Core) : (s.setCore n c).misses = s.misses := rfl
@[simp] theorem State.setCore_net (s : State) (n : Nat) (c : Core) : (s.setCore n c).net = s.net := rfl
@[simp] theorem State.setCore_hostMem (s : State) (n : Nat) (c : Core) : (s.setCore n c).hostMem = s.hostMem := rfl
@[simp] theorem State.setCore_hostCached (s : State) (n : Nat) (c : Core) : (s.setCore n c).hostCached = s.hostCached := rfl
@[simp] theorem State.setCore_hostHeld (s : State) (n : Nat) (c : Core) : (s.setCore n c).hostHeld = s.hostHeld := rfl
@[simp] theorem State.setCore_fenced (s : State) (n : Nat) (c : Core) : (s.setCore n c).fenced = s.fenced := rfl
@[simp] theorem State.setCore_waiters (s : State) (n : Nat) (c : Core) : (s.setCore n c).waiters = s.waiters := rfl
@[simp] theorem State.setCore_tlb (s : State) (n : Nat) (c : Core) : (s.setCore n c).tlb = s.tlb := rfl
@[simp] theorem State.setCore_wcache (s : State) (n : Nat) (c : Core) : (s.setCore n c).wcache = s.wcache := rfl
@[simp] theorem State.setCore_accepts (s : State) (n : Nat) (c : Core) : (s.setCore n c).accepts = s.accepts := rfl
@[simp] theorem State.setCore_retests (s : State) (n : Nat) (c : Core) : (s.setCore n c).retests = s.retests := rfl
@[simp] theorem State.setCore_parts (s : State) (n : Nat) (c : Core) : (s.setCore n c).parts = s.parts := rfl
@[simp] theorem State.setCore_icache (s : State) (n : Nat) (c : Core) : (s.setCore n c).icache = s.icache := rfl
@[simp] theorem State.setCore_blocks (s : State) (n : Nat) (c : Core) : (s.setCore n c).blocks = s.blocks := rfl
@[simp] theorem State.setCore_warps (s : State) (n : Nat) (c : Core) : (s.setCore n c).warps = s.warps := rfl
@[simp] theorem State.setCore_asyncs (s : State) (n : Nat) (c : Core) : (s.setCore n c).asyncs = s.asyncs := rfl
@[simp] theorem State.setCore_savedWarps (s : State) (n : Nat) (c : Core) : (s.setCore n c).savedWarps = s.savedWarps := rfl
@[simp] theorem State.setCore_savedCmds (s : State) (n : Nat) (c : Core) : (s.setCore n c).savedCmds = s.savedCmds := rfl
@[simp] theorem State.setCore_savedCore (s : State) (n : Nat) (c : Core) : (s.setCore n c).savedCore = s.savedCore := rfl
@[simp] theorem State.setCore_launchCtr (s : State) (n : Nat) (c : Core) : (s.setCore n c).launchCtr = s.launchCtr := rfl
@[simp] theorem State.setCore_launches (s : State) (n : Nat) (c : Core) : (s.setCore n c).launches = s.launches := rfl
@[simp] theorem State.setCore_waiting (s : State) (n : Nat) (c : Core) : (s.setCore n c).waiting = s.waiting := rfl
@[simp] theorem State.setCore_reserved (s : State) (n : Nat) (c : Core) : (s.setCore n c).reserved = s.reserved := rfl
@[simp] theorem State.setCore_reservedCores (s : State) (n : Nat) (c : Core) : (s.setCore n c).reservedCores = s.reservedCores := rfl
@[simp] theorem State.setCore_sealedSlots (s : State) (n : Nat) (c : Core) : (s.setCore n c).sealedSlots = s.sealedSlots := rfl
@[simp] theorem State.setCore_heldSlots (s : State) (n : Nat) (c : Core) : (s.setCore n c).heldSlots = s.heldSlots := rfl
@[simp] theorem State.setCore_childQueue (s : State) (n : Nat) (c : Core) : (s.setCore n c).childQueue = s.childQueue := rfl
@[simp] theorem State.setCore_saveUsed (s : State) (n : Nat) (c : Core) : (s.setCore n c).saveUsed = s.saveUsed := rfl
@[simp] theorem State.setCore_passes (s : State) (n : Nat) (c : Core) : (s.setCore n c).passes = s.passes := rfl
@[simp] theorem State.setCore_ready (s : State) (n : Nat) (c : Core) : (s.setCore n c).ready = s.ready := rfl
@[simp] theorem State.setCore_svcMode (s : State) (n : Nat) (c : Core) : (s.setCore n c).svcMode = s.svcMode := rfl
@[simp] theorem State.setCore_lwinBase (s : State) (n : Nat) (c : Core) : (s.setCore n c).lwinBase = s.lwinBase := rfl
@[simp] theorem State.setCore_ctxBase (s : State) (n : Nat) (c : Core) : (s.setCore n c).ctxBase = s.ctxBase := rfl
@[simp] theorem State.setCore_ctxSize (s : State) (n : Nat) (c : Core) : (s.setCore n c).ctxSize = s.ctxSize := rfl
@[simp] theorem State.setCore_asTable (s : State) (n : Nat) (c : Core) : (s.setCore n c).asTable = s.asTable := rfl
@[simp] theorem State.setCore_wdogMax (s : State) (n : Nat) (c : Core) : (s.setCore n c).wdogMax = s.wdogMax := rfl
@[simp] theorem State.setCore_quantumUs (s : State) (n : Nat) (c : Core) : (s.setCore n c).quantumUs = s.quantumUs := rfl
@[simp] theorem State.setCore_leaseLen (s : State) (n : Nat) (c : Core) : (s.setCore n c).leaseLen = s.leaseLen := rfl
@[simp] theorem State.setCore_swpol (s : State) (n : Nat) (c : Core) : (s.setCore n c).swpol = s.swpol := rfl
@[simp] theorem State.setCore_spadSplit (s : State) (n : Nat) (c : Core) : (s.setCore n c).spadSplit = s.spadSplit := rfl
@[simp] theorem State.setCore_fabTimeout (s : State) (n : Nat) (c : Core) : (s.setCore n c).fabTimeout = s.fabTimeout := rfl
@[simp] theorem State.setCore_dumpBase (s : State) (n : Nat) (c : Core) : (s.setCore n c).dumpBase = s.dumpBase := rfl
@[simp] theorem State.setCore_slotAsid (s : State) (n : Nat) (c : Core) : (s.setCore n c).slotAsid = s.slotAsid := rfl
@[simp] theorem State.setCore_peers (s : State) (n : Nat) (c : Core) : (s.setCore n c).peers = s.peers := rfl
@[simp] theorem State.setCore_windowBase (s : State) (n : Nat) (c : Core) : (s.setCore n c).windowBase = s.windowBase := rfl
@[simp] theorem State.setCore_windowBytes (s : State) (n : Nat) (c : Core) : (s.setCore n c).windowBytes = s.windowBytes := rfl
@[simp] theorem State.setCore_puts (s : State) (n : Nat) (c : Core) : (s.setCore n c).puts = s.puts := rfl
@[simp] theorem State.setCore_hostLinkRefused (s : State) (n : Nat) (c : Core) : (s.setCore n c).hostLinkRefused = s.hostLinkRefused := rfl
@[simp] theorem State.setCore_image (s : State) (n : Nat) (c : Core) : (s.setCore n c).image = s.image := rfl
@[simp] theorem State.setCore_fusedVersion (s : State) (n : Nat) (c : Core) : (s.setCore n c).fusedVersion = s.fusedVersion := rfl
@[simp] theorem State.setCore_revoked (s : State) (n : Nat) (c : Core) : (s.setCore n c).revoked = s.revoked := rfl
@[simp] theorem State.setCore_measurements (s : State) (n : Nat) (c : Core) : (s.setCore n c).measurements = s.measurements := rfl
@[simp] theorem State.setCore_stages (s : State) (n : Nat) (c : Core) : (s.setCore n c).stages = s.stages := rfl
@[simp] theorem State.setCore_health (s : State) (n : Nat) (c : Core) : (s.setCore n c).health = s.health := rfl
@[simp] theorem State.setCore_uncorrected (s : State) (n : Nat) (c : Core) : (s.setCore n c).uncorrected = s.uncorrected := rfl
@[simp] theorem State.setCore_badPas (s : State) (n : Nat) (c : Core) : (s.setCore n c).badPas = s.badPas := rfl
@[simp] theorem State.setCore_eol (s : State) (n : Nat) (c : Core) : (s.setCore n c).eol = s.eol := rfl
@[simp] theorem State.setCore_reports (s : State) (n : Nat) (c : Core) : (s.setCore n c).reports = s.reports := rfl
@[simp] theorem State.setCore_notices (s : State) (n : Nat) (c : Core) : (s.setCore n c).notices = s.notices := rfl
@[simp] theorem State.setCore_fatal (s : State) (n : Nat) (c : Core) : (s.setCore n c).fatal = s.fatal := rfl
@[simp] theorem State.setCore_events (s : State) (n : Nat) (c : Core) : (s.setCore n c).events = s.events := rfl

/-! State.modCore -/

@[simp] theorem State.modCore_schedule (s : State) (n : Nat) (f : Core → Core) : (s.modCore n f).schedule = s.schedule := rfl
@[simp] theorem State.modCore_focus (s : State) (n : Nat) (f : Core → Core) : (s.modCore n f).focus = s.focus := rfl
@[simp] theorem State.modCore_cur (s : State) (n : Nat) (f : Core → Core) : (s.modCore n f).cur = s.cur := rfl
@[simp] theorem State.modCore_fresh (s : State) (n : Nat) (f : Core → Core) : (s.modCore n f).fresh = s.fresh := rfl
@[simp] theorem State.modCore_nextId (s : State) (n : Nat) (f : Core → Core) : (s.modCore n f).nextId = s.nextId := rfl
@[simp] theorem State.modCore_now (s : State) (n : Nat) (f : Core → Core) : (s.modCore n f).now = s.now := rfl
@[simp] theorem State.modCore_devTicks (s : State) (n : Nat) (f : Core → Core) : (s.modCore n f).devTicks = s.devTicks := rfl
@[simp] theorem State.modCore_clockMhz (s : State) (n : Nat) (f : Core → Core) : (s.modCore n f).clockMhz = s.clockMhz := rfl
@[simp] theorem State.modCore_powered (s : State) (n : Nat) (f : Core → Core) : (s.modCore n f).powered = s.powered := rfl
@[simp] theorem State.modCore_stalled (s : State) (n : Nat) (f : Core → Core) : (s.modCore n f).stalled = s.stalled := rfl
@[simp] theorem State.modCore_powerCap (s : State) (n : Nat) (f : Core → Core) : (s.modCore n f).powerCap = s.powerCap := rfl
@[simp] theorem State.modCore_hwCapped (s : State) (n : Nat) (f : Core → Core) : (s.modCore n f).hwCapped = s.hwCapped := rfl
@[simp] theorem State.modCore_restarts (s : State) (n : Nat) (f : Core → Core) : (s.modCore n f).restarts = s.restarts := rfl
@[simp] theorem State.modCore_dram (s : State) (n : Nat) (f : Core → Core) : (s.modCore n f).dram = s.dram := rfl
@[simp] theorem State.modCore_dramPoison (s : State) (n : Nat) (f : Core → Core) : (s.modCore n f).dramPoison = s.dramPoison := rfl
@[simp] theorem State.modCore_l2 (s : State) (n : Nat) (f : Core → Core) : (s.modCore n f).l2 = s.l2 := rfl
@[simp] theorem State.modCore_dir (s : State) (n : Nat) (f : Core → Core) : (s.modCore n f).dir = s.dir := rfl
@[simp] theorem State.modCore_misses (s : State) (n : Nat) (f : Core → Core) : (s.modCore n f).misses = s.misses := rfl
@[simp] theorem State.modCore_net (s : State) (n : Nat) (f : Core → Core) : (s.modCore n f).net = s.net := rfl
@[simp] theorem State.modCore_hostMem (s : State) (n : Nat) (f : Core → Core) : (s.modCore n f).hostMem = s.hostMem := rfl
@[simp] theorem State.modCore_hostCached (s : State) (n : Nat) (f : Core → Core) : (s.modCore n f).hostCached = s.hostCached := rfl
@[simp] theorem State.modCore_hostHeld (s : State) (n : Nat) (f : Core → Core) : (s.modCore n f).hostHeld = s.hostHeld := rfl
@[simp] theorem State.modCore_fenced (s : State) (n : Nat) (f : Core → Core) : (s.modCore n f).fenced = s.fenced := rfl
@[simp] theorem State.modCore_waiters (s : State) (n : Nat) (f : Core → Core) : (s.modCore n f).waiters = s.waiters := rfl
@[simp] theorem State.modCore_tlb (s : State) (n : Nat) (f : Core → Core) : (s.modCore n f).tlb = s.tlb := rfl
@[simp] theorem State.modCore_wcache (s : State) (n : Nat) (f : Core → Core) : (s.modCore n f).wcache = s.wcache := rfl
@[simp] theorem State.modCore_accepts (s : State) (n : Nat) (f : Core → Core) : (s.modCore n f).accepts = s.accepts := rfl
@[simp] theorem State.modCore_retests (s : State) (n : Nat) (f : Core → Core) : (s.modCore n f).retests = s.retests := rfl
@[simp] theorem State.modCore_parts (s : State) (n : Nat) (f : Core → Core) : (s.modCore n f).parts = s.parts := rfl
@[simp] theorem State.modCore_icache (s : State) (n : Nat) (f : Core → Core) : (s.modCore n f).icache = s.icache := rfl
@[simp] theorem State.modCore_blocks (s : State) (n : Nat) (f : Core → Core) : (s.modCore n f).blocks = s.blocks := rfl
@[simp] theorem State.modCore_warps (s : State) (n : Nat) (f : Core → Core) : (s.modCore n f).warps = s.warps := rfl
@[simp] theorem State.modCore_asyncs (s : State) (n : Nat) (f : Core → Core) : (s.modCore n f).asyncs = s.asyncs := rfl
@[simp] theorem State.modCore_savedWarps (s : State) (n : Nat) (f : Core → Core) : (s.modCore n f).savedWarps = s.savedWarps := rfl
@[simp] theorem State.modCore_savedCmds (s : State) (n : Nat) (f : Core → Core) : (s.modCore n f).savedCmds = s.savedCmds := rfl
@[simp] theorem State.modCore_savedCore (s : State) (n : Nat) (f : Core → Core) : (s.modCore n f).savedCore = s.savedCore := rfl
@[simp] theorem State.modCore_launchCtr (s : State) (n : Nat) (f : Core → Core) : (s.modCore n f).launchCtr = s.launchCtr := rfl
@[simp] theorem State.modCore_launches (s : State) (n : Nat) (f : Core → Core) : (s.modCore n f).launches = s.launches := rfl
@[simp] theorem State.modCore_waiting (s : State) (n : Nat) (f : Core → Core) : (s.modCore n f).waiting = s.waiting := rfl
@[simp] theorem State.modCore_reserved (s : State) (n : Nat) (f : Core → Core) : (s.modCore n f).reserved = s.reserved := rfl
@[simp] theorem State.modCore_reservedCores (s : State) (n : Nat) (f : Core → Core) : (s.modCore n f).reservedCores = s.reservedCores := rfl
@[simp] theorem State.modCore_sealedSlots (s : State) (n : Nat) (f : Core → Core) : (s.modCore n f).sealedSlots = s.sealedSlots := rfl
@[simp] theorem State.modCore_heldSlots (s : State) (n : Nat) (f : Core → Core) : (s.modCore n f).heldSlots = s.heldSlots := rfl
@[simp] theorem State.modCore_childQueue (s : State) (n : Nat) (f : Core → Core) : (s.modCore n f).childQueue = s.childQueue := rfl
@[simp] theorem State.modCore_saveUsed (s : State) (n : Nat) (f : Core → Core) : (s.modCore n f).saveUsed = s.saveUsed := rfl
@[simp] theorem State.modCore_passes (s : State) (n : Nat) (f : Core → Core) : (s.modCore n f).passes = s.passes := rfl
@[simp] theorem State.modCore_ready (s : State) (n : Nat) (f : Core → Core) : (s.modCore n f).ready = s.ready := rfl
@[simp] theorem State.modCore_svcMode (s : State) (n : Nat) (f : Core → Core) : (s.modCore n f).svcMode = s.svcMode := rfl
@[simp] theorem State.modCore_lwinBase (s : State) (n : Nat) (f : Core → Core) : (s.modCore n f).lwinBase = s.lwinBase := rfl
@[simp] theorem State.modCore_ctxBase (s : State) (n : Nat) (f : Core → Core) : (s.modCore n f).ctxBase = s.ctxBase := rfl
@[simp] theorem State.modCore_ctxSize (s : State) (n : Nat) (f : Core → Core) : (s.modCore n f).ctxSize = s.ctxSize := rfl
@[simp] theorem State.modCore_asTable (s : State) (n : Nat) (f : Core → Core) : (s.modCore n f).asTable = s.asTable := rfl
@[simp] theorem State.modCore_wdogMax (s : State) (n : Nat) (f : Core → Core) : (s.modCore n f).wdogMax = s.wdogMax := rfl
@[simp] theorem State.modCore_quantumUs (s : State) (n : Nat) (f : Core → Core) : (s.modCore n f).quantumUs = s.quantumUs := rfl
@[simp] theorem State.modCore_leaseLen (s : State) (n : Nat) (f : Core → Core) : (s.modCore n f).leaseLen = s.leaseLen := rfl
@[simp] theorem State.modCore_swpol (s : State) (n : Nat) (f : Core → Core) : (s.modCore n f).swpol = s.swpol := rfl
@[simp] theorem State.modCore_spadSplit (s : State) (n : Nat) (f : Core → Core) : (s.modCore n f).spadSplit = s.spadSplit := rfl
@[simp] theorem State.modCore_fabTimeout (s : State) (n : Nat) (f : Core → Core) : (s.modCore n f).fabTimeout = s.fabTimeout := rfl
@[simp] theorem State.modCore_dumpBase (s : State) (n : Nat) (f : Core → Core) : (s.modCore n f).dumpBase = s.dumpBase := rfl
@[simp] theorem State.modCore_slotAsid (s : State) (n : Nat) (f : Core → Core) : (s.modCore n f).slotAsid = s.slotAsid := rfl
@[simp] theorem State.modCore_peers (s : State) (n : Nat) (f : Core → Core) : (s.modCore n f).peers = s.peers := rfl
@[simp] theorem State.modCore_windowBase (s : State) (n : Nat) (f : Core → Core) : (s.modCore n f).windowBase = s.windowBase := rfl
@[simp] theorem State.modCore_windowBytes (s : State) (n : Nat) (f : Core → Core) : (s.modCore n f).windowBytes = s.windowBytes := rfl
@[simp] theorem State.modCore_puts (s : State) (n : Nat) (f : Core → Core) : (s.modCore n f).puts = s.puts := rfl
@[simp] theorem State.modCore_hostLinkRefused (s : State) (n : Nat) (f : Core → Core) : (s.modCore n f).hostLinkRefused = s.hostLinkRefused := rfl
@[simp] theorem State.modCore_image (s : State) (n : Nat) (f : Core → Core) : (s.modCore n f).image = s.image := rfl
@[simp] theorem State.modCore_fusedVersion (s : State) (n : Nat) (f : Core → Core) : (s.modCore n f).fusedVersion = s.fusedVersion := rfl
@[simp] theorem State.modCore_revoked (s : State) (n : Nat) (f : Core → Core) : (s.modCore n f).revoked = s.revoked := rfl
@[simp] theorem State.modCore_measurements (s : State) (n : Nat) (f : Core → Core) : (s.modCore n f).measurements = s.measurements := rfl
@[simp] theorem State.modCore_stages (s : State) (n : Nat) (f : Core → Core) : (s.modCore n f).stages = s.stages := rfl
@[simp] theorem State.modCore_health (s : State) (n : Nat) (f : Core → Core) : (s.modCore n f).health = s.health := rfl
@[simp] theorem State.modCore_uncorrected (s : State) (n : Nat) (f : Core → Core) : (s.modCore n f).uncorrected = s.uncorrected := rfl
@[simp] theorem State.modCore_badPas (s : State) (n : Nat) (f : Core → Core) : (s.modCore n f).badPas = s.badPas := rfl
@[simp] theorem State.modCore_eol (s : State) (n : Nat) (f : Core → Core) : (s.modCore n f).eol = s.eol := rfl
@[simp] theorem State.modCore_reports (s : State) (n : Nat) (f : Core → Core) : (s.modCore n f).reports = s.reports := rfl
@[simp] theorem State.modCore_notices (s : State) (n : Nat) (f : Core → Core) : (s.modCore n f).notices = s.notices := rfl
@[simp] theorem State.modCore_fatal (s : State) (n : Nat) (f : Core → Core) : (s.modCore n f).fatal = s.fatal := rfl
@[simp] theorem State.modCore_events (s : State) (n : Nat) (f : Core → Core) : (s.modCore n f).events = s.events := rfl

/-! State.modPart -/

@[simp] theorem State.modPart_schedule (s : State) (k : Nat) (f : Part → Part) : (s.modPart k f).schedule = s.schedule := rfl
@[simp] theorem State.modPart_focus (s : State) (k : Nat) (f : Part → Part) : (s.modPart k f).focus = s.focus := rfl
@[simp] theorem State.modPart_cur (s : State) (k : Nat) (f : Part → Part) : (s.modPart k f).cur = s.cur := rfl
@[simp] theorem State.modPart_fresh (s : State) (k : Nat) (f : Part → Part) : (s.modPart k f).fresh = s.fresh := rfl
@[simp] theorem State.modPart_nextId (s : State) (k : Nat) (f : Part → Part) : (s.modPart k f).nextId = s.nextId := rfl
@[simp] theorem State.modPart_now (s : State) (k : Nat) (f : Part → Part) : (s.modPart k f).now = s.now := rfl
@[simp] theorem State.modPart_devTicks (s : State) (k : Nat) (f : Part → Part) : (s.modPart k f).devTicks = s.devTicks := rfl
@[simp] theorem State.modPart_clockMhz (s : State) (k : Nat) (f : Part → Part) : (s.modPart k f).clockMhz = s.clockMhz := rfl
@[simp] theorem State.modPart_powered (s : State) (k : Nat) (f : Part → Part) : (s.modPart k f).powered = s.powered := rfl
@[simp] theorem State.modPart_stalled (s : State) (k : Nat) (f : Part → Part) : (s.modPart k f).stalled = s.stalled := rfl
@[simp] theorem State.modPart_powerCap (s : State) (k : Nat) (f : Part → Part) : (s.modPart k f).powerCap = s.powerCap := rfl
@[simp] theorem State.modPart_hwCapped (s : State) (k : Nat) (f : Part → Part) : (s.modPart k f).hwCapped = s.hwCapped := rfl
@[simp] theorem State.modPart_restarts (s : State) (k : Nat) (f : Part → Part) : (s.modPart k f).restarts = s.restarts := rfl
@[simp] theorem State.modPart_dram (s : State) (k : Nat) (f : Part → Part) : (s.modPart k f).dram = s.dram := rfl
@[simp] theorem State.modPart_dramPoison (s : State) (k : Nat) (f : Part → Part) : (s.modPart k f).dramPoison = s.dramPoison := rfl
@[simp] theorem State.modPart_l2 (s : State) (k : Nat) (f : Part → Part) : (s.modPart k f).l2 = s.l2 := rfl
@[simp] theorem State.modPart_dir (s : State) (k : Nat) (f : Part → Part) : (s.modPart k f).dir = s.dir := rfl
@[simp] theorem State.modPart_misses (s : State) (k : Nat) (f : Part → Part) : (s.modPart k f).misses = s.misses := rfl
@[simp] theorem State.modPart_net (s : State) (k : Nat) (f : Part → Part) : (s.modPart k f).net = s.net := rfl
@[simp] theorem State.modPart_hostMem (s : State) (k : Nat) (f : Part → Part) : (s.modPart k f).hostMem = s.hostMem := rfl
@[simp] theorem State.modPart_hostCached (s : State) (k : Nat) (f : Part → Part) : (s.modPart k f).hostCached = s.hostCached := rfl
@[simp] theorem State.modPart_hostHeld (s : State) (k : Nat) (f : Part → Part) : (s.modPart k f).hostHeld = s.hostHeld := rfl
@[simp] theorem State.modPart_fenced (s : State) (k : Nat) (f : Part → Part) : (s.modPart k f).fenced = s.fenced := rfl
@[simp] theorem State.modPart_waiters (s : State) (k : Nat) (f : Part → Part) : (s.modPart k f).waiters = s.waiters := rfl
@[simp] theorem State.modPart_tlb (s : State) (k : Nat) (f : Part → Part) : (s.modPart k f).tlb = s.tlb := rfl
@[simp] theorem State.modPart_wcache (s : State) (k : Nat) (f : Part → Part) : (s.modPart k f).wcache = s.wcache := rfl
@[simp] theorem State.modPart_accepts (s : State) (k : Nat) (f : Part → Part) : (s.modPart k f).accepts = s.accepts := rfl
@[simp] theorem State.modPart_retests (s : State) (k : Nat) (f : Part → Part) : (s.modPart k f).retests = s.retests := rfl
@[simp] theorem State.modPart_cores (s : State) (k : Nat) (f : Part → Part) : (s.modPart k f).cores = s.cores := rfl
@[simp] theorem State.modPart_icache (s : State) (k : Nat) (f : Part → Part) : (s.modPart k f).icache = s.icache := rfl
@[simp] theorem State.modPart_blocks (s : State) (k : Nat) (f : Part → Part) : (s.modPart k f).blocks = s.blocks := rfl
@[simp] theorem State.modPart_warps (s : State) (k : Nat) (f : Part → Part) : (s.modPart k f).warps = s.warps := rfl
@[simp] theorem State.modPart_asyncs (s : State) (k : Nat) (f : Part → Part) : (s.modPart k f).asyncs = s.asyncs := rfl
@[simp] theorem State.modPart_savedWarps (s : State) (k : Nat) (f : Part → Part) : (s.modPart k f).savedWarps = s.savedWarps := rfl
@[simp] theorem State.modPart_savedCmds (s : State) (k : Nat) (f : Part → Part) : (s.modPart k f).savedCmds = s.savedCmds := rfl
@[simp] theorem State.modPart_savedCore (s : State) (k : Nat) (f : Part → Part) : (s.modPart k f).savedCore = s.savedCore := rfl
@[simp] theorem State.modPart_launchCtr (s : State) (k : Nat) (f : Part → Part) : (s.modPart k f).launchCtr = s.launchCtr := rfl
@[simp] theorem State.modPart_launches (s : State) (k : Nat) (f : Part → Part) : (s.modPart k f).launches = s.launches := rfl
@[simp] theorem State.modPart_waiting (s : State) (k : Nat) (f : Part → Part) : (s.modPart k f).waiting = s.waiting := rfl
@[simp] theorem State.modPart_reserved (s : State) (k : Nat) (f : Part → Part) : (s.modPart k f).reserved = s.reserved := rfl
@[simp] theorem State.modPart_reservedCores (s : State) (k : Nat) (f : Part → Part) : (s.modPart k f).reservedCores = s.reservedCores := rfl
@[simp] theorem State.modPart_sealedSlots (s : State) (k : Nat) (f : Part → Part) : (s.modPart k f).sealedSlots = s.sealedSlots := rfl
@[simp] theorem State.modPart_heldSlots (s : State) (k : Nat) (f : Part → Part) : (s.modPart k f).heldSlots = s.heldSlots := rfl
@[simp] theorem State.modPart_childQueue (s : State) (k : Nat) (f : Part → Part) : (s.modPart k f).childQueue = s.childQueue := rfl
@[simp] theorem State.modPart_saveUsed (s : State) (k : Nat) (f : Part → Part) : (s.modPart k f).saveUsed = s.saveUsed := rfl
@[simp] theorem State.modPart_passes (s : State) (k : Nat) (f : Part → Part) : (s.modPart k f).passes = s.passes := rfl
@[simp] theorem State.modPart_ready (s : State) (k : Nat) (f : Part → Part) : (s.modPart k f).ready = s.ready := rfl
@[simp] theorem State.modPart_svcMode (s : State) (k : Nat) (f : Part → Part) : (s.modPart k f).svcMode = s.svcMode := rfl
@[simp] theorem State.modPart_lwinBase (s : State) (k : Nat) (f : Part → Part) : (s.modPart k f).lwinBase = s.lwinBase := rfl
@[simp] theorem State.modPart_ctxBase (s : State) (k : Nat) (f : Part → Part) : (s.modPart k f).ctxBase = s.ctxBase := rfl
@[simp] theorem State.modPart_ctxSize (s : State) (k : Nat) (f : Part → Part) : (s.modPart k f).ctxSize = s.ctxSize := rfl
@[simp] theorem State.modPart_asTable (s : State) (k : Nat) (f : Part → Part) : (s.modPart k f).asTable = s.asTable := rfl
@[simp] theorem State.modPart_wdogMax (s : State) (k : Nat) (f : Part → Part) : (s.modPart k f).wdogMax = s.wdogMax := rfl
@[simp] theorem State.modPart_quantumUs (s : State) (k : Nat) (f : Part → Part) : (s.modPart k f).quantumUs = s.quantumUs := rfl
@[simp] theorem State.modPart_leaseLen (s : State) (k : Nat) (f : Part → Part) : (s.modPart k f).leaseLen = s.leaseLen := rfl
@[simp] theorem State.modPart_swpol (s : State) (k : Nat) (f : Part → Part) : (s.modPart k f).swpol = s.swpol := rfl
@[simp] theorem State.modPart_spadSplit (s : State) (k : Nat) (f : Part → Part) : (s.modPart k f).spadSplit = s.spadSplit := rfl
@[simp] theorem State.modPart_fabTimeout (s : State) (k : Nat) (f : Part → Part) : (s.modPart k f).fabTimeout = s.fabTimeout := rfl
@[simp] theorem State.modPart_dumpBase (s : State) (k : Nat) (f : Part → Part) : (s.modPart k f).dumpBase = s.dumpBase := rfl
@[simp] theorem State.modPart_slotAsid (s : State) (k : Nat) (f : Part → Part) : (s.modPart k f).slotAsid = s.slotAsid := rfl
@[simp] theorem State.modPart_peers (s : State) (k : Nat) (f : Part → Part) : (s.modPart k f).peers = s.peers := rfl
@[simp] theorem State.modPart_windowBase (s : State) (k : Nat) (f : Part → Part) : (s.modPart k f).windowBase = s.windowBase := rfl
@[simp] theorem State.modPart_windowBytes (s : State) (k : Nat) (f : Part → Part) : (s.modPart k f).windowBytes = s.windowBytes := rfl
@[simp] theorem State.modPart_puts (s : State) (k : Nat) (f : Part → Part) : (s.modPart k f).puts = s.puts := rfl
@[simp] theorem State.modPart_hostLinkRefused (s : State) (k : Nat) (f : Part → Part) : (s.modPart k f).hostLinkRefused = s.hostLinkRefused := rfl
@[simp] theorem State.modPart_image (s : State) (k : Nat) (f : Part → Part) : (s.modPart k f).image = s.image := rfl
@[simp] theorem State.modPart_fusedVersion (s : State) (k : Nat) (f : Part → Part) : (s.modPart k f).fusedVersion = s.fusedVersion := rfl
@[simp] theorem State.modPart_revoked (s : State) (k : Nat) (f : Part → Part) : (s.modPart k f).revoked = s.revoked := rfl
@[simp] theorem State.modPart_measurements (s : State) (k : Nat) (f : Part → Part) : (s.modPart k f).measurements = s.measurements := rfl
@[simp] theorem State.modPart_stages (s : State) (k : Nat) (f : Part → Part) : (s.modPart k f).stages = s.stages := rfl
@[simp] theorem State.modPart_health (s : State) (k : Nat) (f : Part → Part) : (s.modPart k f).health = s.health := rfl
@[simp] theorem State.modPart_uncorrected (s : State) (k : Nat) (f : Part → Part) : (s.modPart k f).uncorrected = s.uncorrected := rfl
@[simp] theorem State.modPart_badPas (s : State) (k : Nat) (f : Part → Part) : (s.modPart k f).badPas = s.badPas := rfl
@[simp] theorem State.modPart_eol (s : State) (k : Nat) (f : Part → Part) : (s.modPart k f).eol = s.eol := rfl
@[simp] theorem State.modPart_reports (s : State) (k : Nat) (f : Part → Part) : (s.modPart k f).reports = s.reports := rfl
@[simp] theorem State.modPart_notices (s : State) (k : Nat) (f : Part → Part) : (s.modPart k f).notices = s.notices := rfl
@[simp] theorem State.modPart_fatal (s : State) (k : Nat) (f : Part → Part) : (s.modPart k f).fatal = s.fatal := rfl
@[simp] theorem State.modPart_events (s : State) (k : Nat) (f : Part → Part) : (s.modPart k f).events = s.events := rfl

/-! State.modBlock -/

@[simp] theorem State.modBlock_schedule (s : State) (b : Nat) (f : Block → Block) : (s.modBlock b f).schedule = s.schedule := rfl
@[simp] theorem State.modBlock_focus (s : State) (b : Nat) (f : Block → Block) : (s.modBlock b f).focus = s.focus := rfl
@[simp] theorem State.modBlock_cur (s : State) (b : Nat) (f : Block → Block) : (s.modBlock b f).cur = s.cur := rfl
@[simp] theorem State.modBlock_fresh (s : State) (b : Nat) (f : Block → Block) : (s.modBlock b f).fresh = s.fresh := rfl
@[simp] theorem State.modBlock_nextId (s : State) (b : Nat) (f : Block → Block) : (s.modBlock b f).nextId = s.nextId := rfl
@[simp] theorem State.modBlock_now (s : State) (b : Nat) (f : Block → Block) : (s.modBlock b f).now = s.now := rfl
@[simp] theorem State.modBlock_devTicks (s : State) (b : Nat) (f : Block → Block) : (s.modBlock b f).devTicks = s.devTicks := rfl
@[simp] theorem State.modBlock_clockMhz (s : State) (b : Nat) (f : Block → Block) : (s.modBlock b f).clockMhz = s.clockMhz := rfl
@[simp] theorem State.modBlock_powered (s : State) (b : Nat) (f : Block → Block) : (s.modBlock b f).powered = s.powered := rfl
@[simp] theorem State.modBlock_stalled (s : State) (b : Nat) (f : Block → Block) : (s.modBlock b f).stalled = s.stalled := rfl
@[simp] theorem State.modBlock_powerCap (s : State) (b : Nat) (f : Block → Block) : (s.modBlock b f).powerCap = s.powerCap := rfl
@[simp] theorem State.modBlock_hwCapped (s : State) (b : Nat) (f : Block → Block) : (s.modBlock b f).hwCapped = s.hwCapped := rfl
@[simp] theorem State.modBlock_restarts (s : State) (b : Nat) (f : Block → Block) : (s.modBlock b f).restarts = s.restarts := rfl
@[simp] theorem State.modBlock_dram (s : State) (b : Nat) (f : Block → Block) : (s.modBlock b f).dram = s.dram := rfl
@[simp] theorem State.modBlock_dramPoison (s : State) (b : Nat) (f : Block → Block) : (s.modBlock b f).dramPoison = s.dramPoison := rfl
@[simp] theorem State.modBlock_l2 (s : State) (b : Nat) (f : Block → Block) : (s.modBlock b f).l2 = s.l2 := rfl
@[simp] theorem State.modBlock_dir (s : State) (b : Nat) (f : Block → Block) : (s.modBlock b f).dir = s.dir := rfl
@[simp] theorem State.modBlock_misses (s : State) (b : Nat) (f : Block → Block) : (s.modBlock b f).misses = s.misses := rfl
@[simp] theorem State.modBlock_net (s : State) (b : Nat) (f : Block → Block) : (s.modBlock b f).net = s.net := rfl
@[simp] theorem State.modBlock_hostMem (s : State) (b : Nat) (f : Block → Block) : (s.modBlock b f).hostMem = s.hostMem := rfl
@[simp] theorem State.modBlock_hostCached (s : State) (b : Nat) (f : Block → Block) : (s.modBlock b f).hostCached = s.hostCached := rfl
@[simp] theorem State.modBlock_hostHeld (s : State) (b : Nat) (f : Block → Block) : (s.modBlock b f).hostHeld = s.hostHeld := rfl
@[simp] theorem State.modBlock_fenced (s : State) (b : Nat) (f : Block → Block) : (s.modBlock b f).fenced = s.fenced := rfl
@[simp] theorem State.modBlock_waiters (s : State) (b : Nat) (f : Block → Block) : (s.modBlock b f).waiters = s.waiters := rfl
@[simp] theorem State.modBlock_tlb (s : State) (b : Nat) (f : Block → Block) : (s.modBlock b f).tlb = s.tlb := rfl
@[simp] theorem State.modBlock_wcache (s : State) (b : Nat) (f : Block → Block) : (s.modBlock b f).wcache = s.wcache := rfl
@[simp] theorem State.modBlock_accepts (s : State) (b : Nat) (f : Block → Block) : (s.modBlock b f).accepts = s.accepts := rfl
@[simp] theorem State.modBlock_retests (s : State) (b : Nat) (f : Block → Block) : (s.modBlock b f).retests = s.retests := rfl
@[simp] theorem State.modBlock_cores (s : State) (b : Nat) (f : Block → Block) : (s.modBlock b f).cores = s.cores := rfl
@[simp] theorem State.modBlock_parts (s : State) (b : Nat) (f : Block → Block) : (s.modBlock b f).parts = s.parts := rfl
@[simp] theorem State.modBlock_icache (s : State) (b : Nat) (f : Block → Block) : (s.modBlock b f).icache = s.icache := rfl
@[simp] theorem State.modBlock_warps (s : State) (b : Nat) (f : Block → Block) : (s.modBlock b f).warps = s.warps := rfl
@[simp] theorem State.modBlock_asyncs (s : State) (b : Nat) (f : Block → Block) : (s.modBlock b f).asyncs = s.asyncs := rfl
@[simp] theorem State.modBlock_savedWarps (s : State) (b : Nat) (f : Block → Block) : (s.modBlock b f).savedWarps = s.savedWarps := rfl
@[simp] theorem State.modBlock_savedCmds (s : State) (b : Nat) (f : Block → Block) : (s.modBlock b f).savedCmds = s.savedCmds := rfl
@[simp] theorem State.modBlock_savedCore (s : State) (b : Nat) (f : Block → Block) : (s.modBlock b f).savedCore = s.savedCore := rfl
@[simp] theorem State.modBlock_launchCtr (s : State) (b : Nat) (f : Block → Block) : (s.modBlock b f).launchCtr = s.launchCtr := rfl
@[simp] theorem State.modBlock_launches (s : State) (b : Nat) (f : Block → Block) : (s.modBlock b f).launches = s.launches := rfl
@[simp] theorem State.modBlock_waiting (s : State) (b : Nat) (f : Block → Block) : (s.modBlock b f).waiting = s.waiting := rfl
@[simp] theorem State.modBlock_reserved (s : State) (b : Nat) (f : Block → Block) : (s.modBlock b f).reserved = s.reserved := rfl
@[simp] theorem State.modBlock_reservedCores (s : State) (b : Nat) (f : Block → Block) : (s.modBlock b f).reservedCores = s.reservedCores := rfl
@[simp] theorem State.modBlock_sealedSlots (s : State) (b : Nat) (f : Block → Block) : (s.modBlock b f).sealedSlots = s.sealedSlots := rfl
@[simp] theorem State.modBlock_heldSlots (s : State) (b : Nat) (f : Block → Block) : (s.modBlock b f).heldSlots = s.heldSlots := rfl
@[simp] theorem State.modBlock_childQueue (s : State) (b : Nat) (f : Block → Block) : (s.modBlock b f).childQueue = s.childQueue := rfl
@[simp] theorem State.modBlock_saveUsed (s : State) (b : Nat) (f : Block → Block) : (s.modBlock b f).saveUsed = s.saveUsed := rfl
@[simp] theorem State.modBlock_passes (s : State) (b : Nat) (f : Block → Block) : (s.modBlock b f).passes = s.passes := rfl
@[simp] theorem State.modBlock_ready (s : State) (b : Nat) (f : Block → Block) : (s.modBlock b f).ready = s.ready := rfl
@[simp] theorem State.modBlock_svcMode (s : State) (b : Nat) (f : Block → Block) : (s.modBlock b f).svcMode = s.svcMode := rfl
@[simp] theorem State.modBlock_lwinBase (s : State) (b : Nat) (f : Block → Block) : (s.modBlock b f).lwinBase = s.lwinBase := rfl
@[simp] theorem State.modBlock_ctxBase (s : State) (b : Nat) (f : Block → Block) : (s.modBlock b f).ctxBase = s.ctxBase := rfl
@[simp] theorem State.modBlock_ctxSize (s : State) (b : Nat) (f : Block → Block) : (s.modBlock b f).ctxSize = s.ctxSize := rfl
@[simp] theorem State.modBlock_asTable (s : State) (b : Nat) (f : Block → Block) : (s.modBlock b f).asTable = s.asTable := rfl
@[simp] theorem State.modBlock_wdogMax (s : State) (b : Nat) (f : Block → Block) : (s.modBlock b f).wdogMax = s.wdogMax := rfl
@[simp] theorem State.modBlock_quantumUs (s : State) (b : Nat) (f : Block → Block) : (s.modBlock b f).quantumUs = s.quantumUs := rfl
@[simp] theorem State.modBlock_leaseLen (s : State) (b : Nat) (f : Block → Block) : (s.modBlock b f).leaseLen = s.leaseLen := rfl
@[simp] theorem State.modBlock_swpol (s : State) (b : Nat) (f : Block → Block) : (s.modBlock b f).swpol = s.swpol := rfl
@[simp] theorem State.modBlock_spadSplit (s : State) (b : Nat) (f : Block → Block) : (s.modBlock b f).spadSplit = s.spadSplit := rfl
@[simp] theorem State.modBlock_fabTimeout (s : State) (b : Nat) (f : Block → Block) : (s.modBlock b f).fabTimeout = s.fabTimeout := rfl
@[simp] theorem State.modBlock_dumpBase (s : State) (b : Nat) (f : Block → Block) : (s.modBlock b f).dumpBase = s.dumpBase := rfl
@[simp] theorem State.modBlock_slotAsid (s : State) (b : Nat) (f : Block → Block) : (s.modBlock b f).slotAsid = s.slotAsid := rfl
@[simp] theorem State.modBlock_peers (s : State) (b : Nat) (f : Block → Block) : (s.modBlock b f).peers = s.peers := rfl
@[simp] theorem State.modBlock_windowBase (s : State) (b : Nat) (f : Block → Block) : (s.modBlock b f).windowBase = s.windowBase := rfl
@[simp] theorem State.modBlock_windowBytes (s : State) (b : Nat) (f : Block → Block) : (s.modBlock b f).windowBytes = s.windowBytes := rfl
@[simp] theorem State.modBlock_puts (s : State) (b : Nat) (f : Block → Block) : (s.modBlock b f).puts = s.puts := rfl
@[simp] theorem State.modBlock_hostLinkRefused (s : State) (b : Nat) (f : Block → Block) : (s.modBlock b f).hostLinkRefused = s.hostLinkRefused := rfl
@[simp] theorem State.modBlock_image (s : State) (b : Nat) (f : Block → Block) : (s.modBlock b f).image = s.image := rfl
@[simp] theorem State.modBlock_fusedVersion (s : State) (b : Nat) (f : Block → Block) : (s.modBlock b f).fusedVersion = s.fusedVersion := rfl
@[simp] theorem State.modBlock_revoked (s : State) (b : Nat) (f : Block → Block) : (s.modBlock b f).revoked = s.revoked := rfl
@[simp] theorem State.modBlock_measurements (s : State) (b : Nat) (f : Block → Block) : (s.modBlock b f).measurements = s.measurements := rfl
@[simp] theorem State.modBlock_stages (s : State) (b : Nat) (f : Block → Block) : (s.modBlock b f).stages = s.stages := rfl
@[simp] theorem State.modBlock_health (s : State) (b : Nat) (f : Block → Block) : (s.modBlock b f).health = s.health := rfl
@[simp] theorem State.modBlock_uncorrected (s : State) (b : Nat) (f : Block → Block) : (s.modBlock b f).uncorrected = s.uncorrected := rfl
@[simp] theorem State.modBlock_badPas (s : State) (b : Nat) (f : Block → Block) : (s.modBlock b f).badPas = s.badPas := rfl
@[simp] theorem State.modBlock_eol (s : State) (b : Nat) (f : Block → Block) : (s.modBlock b f).eol = s.eol := rfl
@[simp] theorem State.modBlock_reports (s : State) (b : Nat) (f : Block → Block) : (s.modBlock b f).reports = s.reports := rfl
@[simp] theorem State.modBlock_notices (s : State) (b : Nat) (f : Block → Block) : (s.modBlock b f).notices = s.notices := rfl
@[simp] theorem State.modBlock_fatal (s : State) (b : Nat) (f : Block → Block) : (s.modBlock b f).fatal = s.fatal := rfl
@[simp] theorem State.modBlock_events (s : State) (b : Nat) (f : Block → Block) : (s.modBlock b f).events = s.events := rfl

/-! State.modLaunch -/

@[simp] theorem State.modLaunch_schedule (s : State) (l : Nat) (f : Launch → Launch) : (s.modLaunch l f).schedule = s.schedule := rfl
@[simp] theorem State.modLaunch_focus (s : State) (l : Nat) (f : Launch → Launch) : (s.modLaunch l f).focus = s.focus := rfl
@[simp] theorem State.modLaunch_cur (s : State) (l : Nat) (f : Launch → Launch) : (s.modLaunch l f).cur = s.cur := rfl
@[simp] theorem State.modLaunch_fresh (s : State) (l : Nat) (f : Launch → Launch) : (s.modLaunch l f).fresh = s.fresh := rfl
@[simp] theorem State.modLaunch_nextId (s : State) (l : Nat) (f : Launch → Launch) : (s.modLaunch l f).nextId = s.nextId := rfl
@[simp] theorem State.modLaunch_now (s : State) (l : Nat) (f : Launch → Launch) : (s.modLaunch l f).now = s.now := rfl
@[simp] theorem State.modLaunch_devTicks (s : State) (l : Nat) (f : Launch → Launch) : (s.modLaunch l f).devTicks = s.devTicks := rfl
@[simp] theorem State.modLaunch_clockMhz (s : State) (l : Nat) (f : Launch → Launch) : (s.modLaunch l f).clockMhz = s.clockMhz := rfl
@[simp] theorem State.modLaunch_powered (s : State) (l : Nat) (f : Launch → Launch) : (s.modLaunch l f).powered = s.powered := rfl
@[simp] theorem State.modLaunch_stalled (s : State) (l : Nat) (f : Launch → Launch) : (s.modLaunch l f).stalled = s.stalled := rfl
@[simp] theorem State.modLaunch_powerCap (s : State) (l : Nat) (f : Launch → Launch) : (s.modLaunch l f).powerCap = s.powerCap := rfl
@[simp] theorem State.modLaunch_hwCapped (s : State) (l : Nat) (f : Launch → Launch) : (s.modLaunch l f).hwCapped = s.hwCapped := rfl
@[simp] theorem State.modLaunch_restarts (s : State) (l : Nat) (f : Launch → Launch) : (s.modLaunch l f).restarts = s.restarts := rfl
@[simp] theorem State.modLaunch_dram (s : State) (l : Nat) (f : Launch → Launch) : (s.modLaunch l f).dram = s.dram := rfl
@[simp] theorem State.modLaunch_dramPoison (s : State) (l : Nat) (f : Launch → Launch) : (s.modLaunch l f).dramPoison = s.dramPoison := rfl
@[simp] theorem State.modLaunch_l2 (s : State) (l : Nat) (f : Launch → Launch) : (s.modLaunch l f).l2 = s.l2 := rfl
@[simp] theorem State.modLaunch_dir (s : State) (l : Nat) (f : Launch → Launch) : (s.modLaunch l f).dir = s.dir := rfl
@[simp] theorem State.modLaunch_misses (s : State) (l : Nat) (f : Launch → Launch) : (s.modLaunch l f).misses = s.misses := rfl
@[simp] theorem State.modLaunch_net (s : State) (l : Nat) (f : Launch → Launch) : (s.modLaunch l f).net = s.net := rfl
@[simp] theorem State.modLaunch_hostMem (s : State) (l : Nat) (f : Launch → Launch) : (s.modLaunch l f).hostMem = s.hostMem := rfl
@[simp] theorem State.modLaunch_hostCached (s : State) (l : Nat) (f : Launch → Launch) : (s.modLaunch l f).hostCached = s.hostCached := rfl
@[simp] theorem State.modLaunch_hostHeld (s : State) (l : Nat) (f : Launch → Launch) : (s.modLaunch l f).hostHeld = s.hostHeld := rfl
@[simp] theorem State.modLaunch_fenced (s : State) (l : Nat) (f : Launch → Launch) : (s.modLaunch l f).fenced = s.fenced := rfl
@[simp] theorem State.modLaunch_waiters (s : State) (l : Nat) (f : Launch → Launch) : (s.modLaunch l f).waiters = s.waiters := rfl
@[simp] theorem State.modLaunch_tlb (s : State) (l : Nat) (f : Launch → Launch) : (s.modLaunch l f).tlb = s.tlb := rfl
@[simp] theorem State.modLaunch_wcache (s : State) (l : Nat) (f : Launch → Launch) : (s.modLaunch l f).wcache = s.wcache := rfl
@[simp] theorem State.modLaunch_accepts (s : State) (l : Nat) (f : Launch → Launch) : (s.modLaunch l f).accepts = s.accepts := rfl
@[simp] theorem State.modLaunch_retests (s : State) (l : Nat) (f : Launch → Launch) : (s.modLaunch l f).retests = s.retests := rfl
@[simp] theorem State.modLaunch_cores (s : State) (l : Nat) (f : Launch → Launch) : (s.modLaunch l f).cores = s.cores := rfl
@[simp] theorem State.modLaunch_parts (s : State) (l : Nat) (f : Launch → Launch) : (s.modLaunch l f).parts = s.parts := rfl
@[simp] theorem State.modLaunch_icache (s : State) (l : Nat) (f : Launch → Launch) : (s.modLaunch l f).icache = s.icache := rfl
@[simp] theorem State.modLaunch_blocks (s : State) (l : Nat) (f : Launch → Launch) : (s.modLaunch l f).blocks = s.blocks := rfl
@[simp] theorem State.modLaunch_warps (s : State) (l : Nat) (f : Launch → Launch) : (s.modLaunch l f).warps = s.warps := rfl
@[simp] theorem State.modLaunch_asyncs (s : State) (l : Nat) (f : Launch → Launch) : (s.modLaunch l f).asyncs = s.asyncs := rfl
@[simp] theorem State.modLaunch_savedWarps (s : State) (l : Nat) (f : Launch → Launch) : (s.modLaunch l f).savedWarps = s.savedWarps := rfl
@[simp] theorem State.modLaunch_savedCmds (s : State) (l : Nat) (f : Launch → Launch) : (s.modLaunch l f).savedCmds = s.savedCmds := rfl
@[simp] theorem State.modLaunch_savedCore (s : State) (l : Nat) (f : Launch → Launch) : (s.modLaunch l f).savedCore = s.savedCore := rfl
@[simp] theorem State.modLaunch_launchCtr (s : State) (l : Nat) (f : Launch → Launch) : (s.modLaunch l f).launchCtr = s.launchCtr := rfl
@[simp] theorem State.modLaunch_waiting (s : State) (l : Nat) (f : Launch → Launch) : (s.modLaunch l f).waiting = s.waiting := rfl
@[simp] theorem State.modLaunch_reserved (s : State) (l : Nat) (f : Launch → Launch) : (s.modLaunch l f).reserved = s.reserved := rfl
@[simp] theorem State.modLaunch_reservedCores (s : State) (l : Nat) (f : Launch → Launch) : (s.modLaunch l f).reservedCores = s.reservedCores := rfl
@[simp] theorem State.modLaunch_sealedSlots (s : State) (l : Nat) (f : Launch → Launch) : (s.modLaunch l f).sealedSlots = s.sealedSlots := rfl
@[simp] theorem State.modLaunch_heldSlots (s : State) (l : Nat) (f : Launch → Launch) : (s.modLaunch l f).heldSlots = s.heldSlots := rfl
@[simp] theorem State.modLaunch_childQueue (s : State) (l : Nat) (f : Launch → Launch) : (s.modLaunch l f).childQueue = s.childQueue := rfl
@[simp] theorem State.modLaunch_saveUsed (s : State) (l : Nat) (f : Launch → Launch) : (s.modLaunch l f).saveUsed = s.saveUsed := rfl
@[simp] theorem State.modLaunch_passes (s : State) (l : Nat) (f : Launch → Launch) : (s.modLaunch l f).passes = s.passes := rfl
@[simp] theorem State.modLaunch_ready (s : State) (l : Nat) (f : Launch → Launch) : (s.modLaunch l f).ready = s.ready := rfl
@[simp] theorem State.modLaunch_svcMode (s : State) (l : Nat) (f : Launch → Launch) : (s.modLaunch l f).svcMode = s.svcMode := rfl
@[simp] theorem State.modLaunch_lwinBase (s : State) (l : Nat) (f : Launch → Launch) : (s.modLaunch l f).lwinBase = s.lwinBase := rfl
@[simp] theorem State.modLaunch_ctxBase (s : State) (l : Nat) (f : Launch → Launch) : (s.modLaunch l f).ctxBase = s.ctxBase := rfl
@[simp] theorem State.modLaunch_ctxSize (s : State) (l : Nat) (f : Launch → Launch) : (s.modLaunch l f).ctxSize = s.ctxSize := rfl
@[simp] theorem State.modLaunch_asTable (s : State) (l : Nat) (f : Launch → Launch) : (s.modLaunch l f).asTable = s.asTable := rfl
@[simp] theorem State.modLaunch_wdogMax (s : State) (l : Nat) (f : Launch → Launch) : (s.modLaunch l f).wdogMax = s.wdogMax := rfl
@[simp] theorem State.modLaunch_quantumUs (s : State) (l : Nat) (f : Launch → Launch) : (s.modLaunch l f).quantumUs = s.quantumUs := rfl
@[simp] theorem State.modLaunch_leaseLen (s : State) (l : Nat) (f : Launch → Launch) : (s.modLaunch l f).leaseLen = s.leaseLen := rfl
@[simp] theorem State.modLaunch_swpol (s : State) (l : Nat) (f : Launch → Launch) : (s.modLaunch l f).swpol = s.swpol := rfl
@[simp] theorem State.modLaunch_spadSplit (s : State) (l : Nat) (f : Launch → Launch) : (s.modLaunch l f).spadSplit = s.spadSplit := rfl
@[simp] theorem State.modLaunch_fabTimeout (s : State) (l : Nat) (f : Launch → Launch) : (s.modLaunch l f).fabTimeout = s.fabTimeout := rfl
@[simp] theorem State.modLaunch_dumpBase (s : State) (l : Nat) (f : Launch → Launch) : (s.modLaunch l f).dumpBase = s.dumpBase := rfl
@[simp] theorem State.modLaunch_slotAsid (s : State) (l : Nat) (f : Launch → Launch) : (s.modLaunch l f).slotAsid = s.slotAsid := rfl
@[simp] theorem State.modLaunch_peers (s : State) (l : Nat) (f : Launch → Launch) : (s.modLaunch l f).peers = s.peers := rfl
@[simp] theorem State.modLaunch_windowBase (s : State) (l : Nat) (f : Launch → Launch) : (s.modLaunch l f).windowBase = s.windowBase := rfl
@[simp] theorem State.modLaunch_windowBytes (s : State) (l : Nat) (f : Launch → Launch) : (s.modLaunch l f).windowBytes = s.windowBytes := rfl
@[simp] theorem State.modLaunch_puts (s : State) (l : Nat) (f : Launch → Launch) : (s.modLaunch l f).puts = s.puts := rfl
@[simp] theorem State.modLaunch_hostLinkRefused (s : State) (l : Nat) (f : Launch → Launch) : (s.modLaunch l f).hostLinkRefused = s.hostLinkRefused := rfl
@[simp] theorem State.modLaunch_image (s : State) (l : Nat) (f : Launch → Launch) : (s.modLaunch l f).image = s.image := rfl
@[simp] theorem State.modLaunch_fusedVersion (s : State) (l : Nat) (f : Launch → Launch) : (s.modLaunch l f).fusedVersion = s.fusedVersion := rfl
@[simp] theorem State.modLaunch_revoked (s : State) (l : Nat) (f : Launch → Launch) : (s.modLaunch l f).revoked = s.revoked := rfl
@[simp] theorem State.modLaunch_measurements (s : State) (l : Nat) (f : Launch → Launch) : (s.modLaunch l f).measurements = s.measurements := rfl
@[simp] theorem State.modLaunch_stages (s : State) (l : Nat) (f : Launch → Launch) : (s.modLaunch l f).stages = s.stages := rfl
@[simp] theorem State.modLaunch_health (s : State) (l : Nat) (f : Launch → Launch) : (s.modLaunch l f).health = s.health := rfl
@[simp] theorem State.modLaunch_uncorrected (s : State) (l : Nat) (f : Launch → Launch) : (s.modLaunch l f).uncorrected = s.uncorrected := rfl
@[simp] theorem State.modLaunch_badPas (s : State) (l : Nat) (f : Launch → Launch) : (s.modLaunch l f).badPas = s.badPas := rfl
@[simp] theorem State.modLaunch_eol (s : State) (l : Nat) (f : Launch → Launch) : (s.modLaunch l f).eol = s.eol := rfl
@[simp] theorem State.modLaunch_reports (s : State) (l : Nat) (f : Launch → Launch) : (s.modLaunch l f).reports = s.reports := rfl
@[simp] theorem State.modLaunch_notices (s : State) (l : Nat) (f : Launch → Launch) : (s.modLaunch l f).notices = s.notices := rfl
@[simp] theorem State.modLaunch_fatal (s : State) (l : Nat) (f : Launch → Launch) : (s.modLaunch l f).fatal = s.fatal := rfl
@[simp] theorem State.modLaunch_events (s : State) (l : Nat) (f : Launch → Launch) : (s.modLaunch l f).events = s.events := rfl

/-! State.newId -/

@[simp] theorem State.newId_schedule (s : State) : (s.newId.1).schedule = s.schedule := rfl
@[simp] theorem State.newId_focus (s : State) : (s.newId.1).focus = s.focus := rfl
@[simp] theorem State.newId_cur (s : State) : (s.newId.1).cur = s.cur := rfl
@[simp] theorem State.newId_fresh (s : State) : (s.newId.1).fresh = s.fresh := rfl
@[simp] theorem State.newId_now (s : State) : (s.newId.1).now = s.now := rfl
@[simp] theorem State.newId_devTicks (s : State) : (s.newId.1).devTicks = s.devTicks := rfl
@[simp] theorem State.newId_clockMhz (s : State) : (s.newId.1).clockMhz = s.clockMhz := rfl
@[simp] theorem State.newId_powered (s : State) : (s.newId.1).powered = s.powered := rfl
@[simp] theorem State.newId_stalled (s : State) : (s.newId.1).stalled = s.stalled := rfl
@[simp] theorem State.newId_powerCap (s : State) : (s.newId.1).powerCap = s.powerCap := rfl
@[simp] theorem State.newId_hwCapped (s : State) : (s.newId.1).hwCapped = s.hwCapped := rfl
@[simp] theorem State.newId_restarts (s : State) : (s.newId.1).restarts = s.restarts := rfl
@[simp] theorem State.newId_dram (s : State) : (s.newId.1).dram = s.dram := rfl
@[simp] theorem State.newId_dramPoison (s : State) : (s.newId.1).dramPoison = s.dramPoison := rfl
@[simp] theorem State.newId_l2 (s : State) : (s.newId.1).l2 = s.l2 := rfl
@[simp] theorem State.newId_dir (s : State) : (s.newId.1).dir = s.dir := rfl
@[simp] theorem State.newId_misses (s : State) : (s.newId.1).misses = s.misses := rfl
@[simp] theorem State.newId_net (s : State) : (s.newId.1).net = s.net := rfl
@[simp] theorem State.newId_hostMem (s : State) : (s.newId.1).hostMem = s.hostMem := rfl
@[simp] theorem State.newId_hostCached (s : State) : (s.newId.1).hostCached = s.hostCached := rfl
@[simp] theorem State.newId_hostHeld (s : State) : (s.newId.1).hostHeld = s.hostHeld := rfl
@[simp] theorem State.newId_fenced (s : State) : (s.newId.1).fenced = s.fenced := rfl
@[simp] theorem State.newId_waiters (s : State) : (s.newId.1).waiters = s.waiters := rfl
@[simp] theorem State.newId_tlb (s : State) : (s.newId.1).tlb = s.tlb := rfl
@[simp] theorem State.newId_wcache (s : State) : (s.newId.1).wcache = s.wcache := rfl
@[simp] theorem State.newId_accepts (s : State) : (s.newId.1).accepts = s.accepts := rfl
@[simp] theorem State.newId_retests (s : State) : (s.newId.1).retests = s.retests := rfl
@[simp] theorem State.newId_cores (s : State) : (s.newId.1).cores = s.cores := rfl
@[simp] theorem State.newId_parts (s : State) : (s.newId.1).parts = s.parts := rfl
@[simp] theorem State.newId_icache (s : State) : (s.newId.1).icache = s.icache := rfl
@[simp] theorem State.newId_blocks (s : State) : (s.newId.1).blocks = s.blocks := rfl
@[simp] theorem State.newId_warps (s : State) : (s.newId.1).warps = s.warps := rfl
@[simp] theorem State.newId_asyncs (s : State) : (s.newId.1).asyncs = s.asyncs := rfl
@[simp] theorem State.newId_savedWarps (s : State) : (s.newId.1).savedWarps = s.savedWarps := rfl
@[simp] theorem State.newId_savedCmds (s : State) : (s.newId.1).savedCmds = s.savedCmds := rfl
@[simp] theorem State.newId_savedCore (s : State) : (s.newId.1).savedCore = s.savedCore := rfl
@[simp] theorem State.newId_launchCtr (s : State) : (s.newId.1).launchCtr = s.launchCtr := rfl
@[simp] theorem State.newId_launches (s : State) : (s.newId.1).launches = s.launches := rfl
@[simp] theorem State.newId_waiting (s : State) : (s.newId.1).waiting = s.waiting := rfl
@[simp] theorem State.newId_reserved (s : State) : (s.newId.1).reserved = s.reserved := rfl
@[simp] theorem State.newId_reservedCores (s : State) : (s.newId.1).reservedCores = s.reservedCores := rfl
@[simp] theorem State.newId_sealedSlots (s : State) : (s.newId.1).sealedSlots = s.sealedSlots := rfl
@[simp] theorem State.newId_heldSlots (s : State) : (s.newId.1).heldSlots = s.heldSlots := rfl
@[simp] theorem State.newId_childQueue (s : State) : (s.newId.1).childQueue = s.childQueue := rfl
@[simp] theorem State.newId_saveUsed (s : State) : (s.newId.1).saveUsed = s.saveUsed := rfl
@[simp] theorem State.newId_passes (s : State) : (s.newId.1).passes = s.passes := rfl
@[simp] theorem State.newId_ready (s : State) : (s.newId.1).ready = s.ready := rfl
@[simp] theorem State.newId_svcMode (s : State) : (s.newId.1).svcMode = s.svcMode := rfl
@[simp] theorem State.newId_lwinBase (s : State) : (s.newId.1).lwinBase = s.lwinBase := rfl
@[simp] theorem State.newId_ctxBase (s : State) : (s.newId.1).ctxBase = s.ctxBase := rfl
@[simp] theorem State.newId_ctxSize (s : State) : (s.newId.1).ctxSize = s.ctxSize := rfl
@[simp] theorem State.newId_asTable (s : State) : (s.newId.1).asTable = s.asTable := rfl
@[simp] theorem State.newId_wdogMax (s : State) : (s.newId.1).wdogMax = s.wdogMax := rfl
@[simp] theorem State.newId_quantumUs (s : State) : (s.newId.1).quantumUs = s.quantumUs := rfl
@[simp] theorem State.newId_leaseLen (s : State) : (s.newId.1).leaseLen = s.leaseLen := rfl
@[simp] theorem State.newId_swpol (s : State) : (s.newId.1).swpol = s.swpol := rfl
@[simp] theorem State.newId_spadSplit (s : State) : (s.newId.1).spadSplit = s.spadSplit := rfl
@[simp] theorem State.newId_fabTimeout (s : State) : (s.newId.1).fabTimeout = s.fabTimeout := rfl
@[simp] theorem State.newId_dumpBase (s : State) : (s.newId.1).dumpBase = s.dumpBase := rfl
@[simp] theorem State.newId_slotAsid (s : State) : (s.newId.1).slotAsid = s.slotAsid := rfl
@[simp] theorem State.newId_peers (s : State) : (s.newId.1).peers = s.peers := rfl
@[simp] theorem State.newId_windowBase (s : State) : (s.newId.1).windowBase = s.windowBase := rfl
@[simp] theorem State.newId_windowBytes (s : State) : (s.newId.1).windowBytes = s.windowBytes := rfl
@[simp] theorem State.newId_puts (s : State) : (s.newId.1).puts = s.puts := rfl
@[simp] theorem State.newId_hostLinkRefused (s : State) : (s.newId.1).hostLinkRefused = s.hostLinkRefused := rfl
@[simp] theorem State.newId_image (s : State) : (s.newId.1).image = s.image := rfl
@[simp] theorem State.newId_fusedVersion (s : State) : (s.newId.1).fusedVersion = s.fusedVersion := rfl
@[simp] theorem State.newId_revoked (s : State) : (s.newId.1).revoked = s.revoked := rfl
@[simp] theorem State.newId_measurements (s : State) : (s.newId.1).measurements = s.measurements := rfl
@[simp] theorem State.newId_stages (s : State) : (s.newId.1).stages = s.stages := rfl
@[simp] theorem State.newId_health (s : State) : (s.newId.1).health = s.health := rfl
@[simp] theorem State.newId_uncorrected (s : State) : (s.newId.1).uncorrected = s.uncorrected := rfl
@[simp] theorem State.newId_badPas (s : State) : (s.newId.1).badPas = s.badPas := rfl
@[simp] theorem State.newId_eol (s : State) : (s.newId.1).eol = s.eol := rfl
@[simp] theorem State.newId_reports (s : State) : (s.newId.1).reports = s.reports := rfl
@[simp] theorem State.newId_notices (s : State) : (s.newId.1).notices = s.notices := rfl
@[simp] theorem State.newId_fatal (s : State) : (s.newId.1).fatal = s.fatal := rfl
@[simp] theorem State.newId_events (s : State) : (s.newId.1).events = s.events := rfl

/-! State.draw -/

@[simp] theorem State.draw_schedule (s : State) : (s.draw.1).schedule = s.schedule := rfl
@[simp] theorem State.draw_focus (s : State) : (s.draw.1).focus = s.focus := rfl
@[simp] theorem State.draw_cur (s : State) : (s.draw.1).cur = s.cur := rfl
@[simp] theorem State.draw_nextId (s : State) : (s.draw.1).nextId = s.nextId := rfl
@[simp] theorem State.draw_now (s : State) : (s.draw.1).now = s.now := rfl
@[simp] theorem State.draw_devTicks (s : State) : (s.draw.1).devTicks = s.devTicks := rfl
@[simp] theorem State.draw_clockMhz (s : State) : (s.draw.1).clockMhz = s.clockMhz := rfl
@[simp] theorem State.draw_powered (s : State) : (s.draw.1).powered = s.powered := rfl
@[simp] theorem State.draw_stalled (s : State) : (s.draw.1).stalled = s.stalled := rfl
@[simp] theorem State.draw_powerCap (s : State) : (s.draw.1).powerCap = s.powerCap := rfl
@[simp] theorem State.draw_hwCapped (s : State) : (s.draw.1).hwCapped = s.hwCapped := rfl
@[simp] theorem State.draw_restarts (s : State) : (s.draw.1).restarts = s.restarts := rfl
@[simp] theorem State.draw_dram (s : State) : (s.draw.1).dram = s.dram := rfl
@[simp] theorem State.draw_dramPoison (s : State) : (s.draw.1).dramPoison = s.dramPoison := rfl
@[simp] theorem State.draw_l2 (s : State) : (s.draw.1).l2 = s.l2 := rfl
@[simp] theorem State.draw_dir (s : State) : (s.draw.1).dir = s.dir := rfl
@[simp] theorem State.draw_misses (s : State) : (s.draw.1).misses = s.misses := rfl
@[simp] theorem State.draw_net (s : State) : (s.draw.1).net = s.net := rfl
@[simp] theorem State.draw_hostMem (s : State) : (s.draw.1).hostMem = s.hostMem := rfl
@[simp] theorem State.draw_hostCached (s : State) : (s.draw.1).hostCached = s.hostCached := rfl
@[simp] theorem State.draw_hostHeld (s : State) : (s.draw.1).hostHeld = s.hostHeld := rfl
@[simp] theorem State.draw_fenced (s : State) : (s.draw.1).fenced = s.fenced := rfl
@[simp] theorem State.draw_waiters (s : State) : (s.draw.1).waiters = s.waiters := rfl
@[simp] theorem State.draw_tlb (s : State) : (s.draw.1).tlb = s.tlb := rfl
@[simp] theorem State.draw_wcache (s : State) : (s.draw.1).wcache = s.wcache := rfl
@[simp] theorem State.draw_accepts (s : State) : (s.draw.1).accepts = s.accepts := rfl
@[simp] theorem State.draw_retests (s : State) : (s.draw.1).retests = s.retests := rfl
@[simp] theorem State.draw_cores (s : State) : (s.draw.1).cores = s.cores := rfl
@[simp] theorem State.draw_parts (s : State) : (s.draw.1).parts = s.parts := rfl
@[simp] theorem State.draw_icache (s : State) : (s.draw.1).icache = s.icache := rfl
@[simp] theorem State.draw_blocks (s : State) : (s.draw.1).blocks = s.blocks := rfl
@[simp] theorem State.draw_warps (s : State) : (s.draw.1).warps = s.warps := rfl
@[simp] theorem State.draw_asyncs (s : State) : (s.draw.1).asyncs = s.asyncs := rfl
@[simp] theorem State.draw_savedWarps (s : State) : (s.draw.1).savedWarps = s.savedWarps := rfl
@[simp] theorem State.draw_savedCmds (s : State) : (s.draw.1).savedCmds = s.savedCmds := rfl
@[simp] theorem State.draw_savedCore (s : State) : (s.draw.1).savedCore = s.savedCore := rfl
@[simp] theorem State.draw_launchCtr (s : State) : (s.draw.1).launchCtr = s.launchCtr := rfl
@[simp] theorem State.draw_launches (s : State) : (s.draw.1).launches = s.launches := rfl
@[simp] theorem State.draw_waiting (s : State) : (s.draw.1).waiting = s.waiting := rfl
@[simp] theorem State.draw_reserved (s : State) : (s.draw.1).reserved = s.reserved := rfl
@[simp] theorem State.draw_reservedCores (s : State) : (s.draw.1).reservedCores = s.reservedCores := rfl
@[simp] theorem State.draw_sealedSlots (s : State) : (s.draw.1).sealedSlots = s.sealedSlots := rfl
@[simp] theorem State.draw_heldSlots (s : State) : (s.draw.1).heldSlots = s.heldSlots := rfl
@[simp] theorem State.draw_childQueue (s : State) : (s.draw.1).childQueue = s.childQueue := rfl
@[simp] theorem State.draw_saveUsed (s : State) : (s.draw.1).saveUsed = s.saveUsed := rfl
@[simp] theorem State.draw_passes (s : State) : (s.draw.1).passes = s.passes := rfl
@[simp] theorem State.draw_ready (s : State) : (s.draw.1).ready = s.ready := rfl
@[simp] theorem State.draw_svcMode (s : State) : (s.draw.1).svcMode = s.svcMode := rfl
@[simp] theorem State.draw_lwinBase (s : State) : (s.draw.1).lwinBase = s.lwinBase := rfl
@[simp] theorem State.draw_ctxBase (s : State) : (s.draw.1).ctxBase = s.ctxBase := rfl
@[simp] theorem State.draw_ctxSize (s : State) : (s.draw.1).ctxSize = s.ctxSize := rfl
@[simp] theorem State.draw_asTable (s : State) : (s.draw.1).asTable = s.asTable := rfl
@[simp] theorem State.draw_wdogMax (s : State) : (s.draw.1).wdogMax = s.wdogMax := rfl
@[simp] theorem State.draw_quantumUs (s : State) : (s.draw.1).quantumUs = s.quantumUs := rfl
@[simp] theorem State.draw_leaseLen (s : State) : (s.draw.1).leaseLen = s.leaseLen := rfl
@[simp] theorem State.draw_swpol (s : State) : (s.draw.1).swpol = s.swpol := rfl
@[simp] theorem State.draw_spadSplit (s : State) : (s.draw.1).spadSplit = s.spadSplit := rfl
@[simp] theorem State.draw_fabTimeout (s : State) : (s.draw.1).fabTimeout = s.fabTimeout := rfl
@[simp] theorem State.draw_dumpBase (s : State) : (s.draw.1).dumpBase = s.dumpBase := rfl
@[simp] theorem State.draw_slotAsid (s : State) : (s.draw.1).slotAsid = s.slotAsid := rfl
@[simp] theorem State.draw_peers (s : State) : (s.draw.1).peers = s.peers := rfl
@[simp] theorem State.draw_windowBase (s : State) : (s.draw.1).windowBase = s.windowBase := rfl
@[simp] theorem State.draw_windowBytes (s : State) : (s.draw.1).windowBytes = s.windowBytes := rfl
@[simp] theorem State.draw_puts (s : State) : (s.draw.1).puts = s.puts := rfl
@[simp] theorem State.draw_hostLinkRefused (s : State) : (s.draw.1).hostLinkRefused = s.hostLinkRefused := rfl
@[simp] theorem State.draw_image (s : State) : (s.draw.1).image = s.image := rfl
@[simp] theorem State.draw_fusedVersion (s : State) : (s.draw.1).fusedVersion = s.fusedVersion := rfl
@[simp] theorem State.draw_revoked (s : State) : (s.draw.1).revoked = s.revoked := rfl
@[simp] theorem State.draw_measurements (s : State) : (s.draw.1).measurements = s.measurements := rfl
@[simp] theorem State.draw_stages (s : State) : (s.draw.1).stages = s.stages := rfl
@[simp] theorem State.draw_health (s : State) : (s.draw.1).health = s.health := rfl
@[simp] theorem State.draw_uncorrected (s : State) : (s.draw.1).uncorrected = s.uncorrected := rfl
@[simp] theorem State.draw_badPas (s : State) : (s.draw.1).badPas = s.badPas := rfl
@[simp] theorem State.draw_eol (s : State) : (s.draw.1).eol = s.eol := rfl
@[simp] theorem State.draw_reports (s : State) : (s.draw.1).reports = s.reports := rfl
@[simp] theorem State.draw_notices (s : State) : (s.draw.1).notices = s.notices := rfl
@[simp] theorem State.draw_fatal (s : State) : (s.draw.1).fatal = s.fatal := rfl
@[simp] theorem State.draw_events (s : State) : (s.draw.1).events = s.events := rfl

/-! State.tell -/

@[simp] theorem State.tell_schedule (s : State) (n : Notice) : (s.tell n).schedule = s.schedule := rfl
@[simp] theorem State.tell_focus (s : State) (n : Notice) : (s.tell n).focus = s.focus := rfl
@[simp] theorem State.tell_cur (s : State) (n : Notice) : (s.tell n).cur = s.cur := rfl
@[simp] theorem State.tell_fresh (s : State) (n : Notice) : (s.tell n).fresh = s.fresh := rfl
@[simp] theorem State.tell_nextId (s : State) (n : Notice) : (s.tell n).nextId = s.nextId := rfl
@[simp] theorem State.tell_now (s : State) (n : Notice) : (s.tell n).now = s.now := rfl
@[simp] theorem State.tell_devTicks (s : State) (n : Notice) : (s.tell n).devTicks = s.devTicks := rfl
@[simp] theorem State.tell_clockMhz (s : State) (n : Notice) : (s.tell n).clockMhz = s.clockMhz := rfl
@[simp] theorem State.tell_powered (s : State) (n : Notice) : (s.tell n).powered = s.powered := rfl
@[simp] theorem State.tell_stalled (s : State) (n : Notice) : (s.tell n).stalled = s.stalled := rfl
@[simp] theorem State.tell_powerCap (s : State) (n : Notice) : (s.tell n).powerCap = s.powerCap := rfl
@[simp] theorem State.tell_hwCapped (s : State) (n : Notice) : (s.tell n).hwCapped = s.hwCapped := rfl
@[simp] theorem State.tell_restarts (s : State) (n : Notice) : (s.tell n).restarts = s.restarts := rfl
@[simp] theorem State.tell_dram (s : State) (n : Notice) : (s.tell n).dram = s.dram := rfl
@[simp] theorem State.tell_dramPoison (s : State) (n : Notice) : (s.tell n).dramPoison = s.dramPoison := rfl
@[simp] theorem State.tell_l2 (s : State) (n : Notice) : (s.tell n).l2 = s.l2 := rfl
@[simp] theorem State.tell_dir (s : State) (n : Notice) : (s.tell n).dir = s.dir := rfl
@[simp] theorem State.tell_misses (s : State) (n : Notice) : (s.tell n).misses = s.misses := rfl
@[simp] theorem State.tell_net (s : State) (n : Notice) : (s.tell n).net = s.net := rfl
@[simp] theorem State.tell_hostMem (s : State) (n : Notice) : (s.tell n).hostMem = s.hostMem := rfl
@[simp] theorem State.tell_hostCached (s : State) (n : Notice) : (s.tell n).hostCached = s.hostCached := rfl
@[simp] theorem State.tell_hostHeld (s : State) (n : Notice) : (s.tell n).hostHeld = s.hostHeld := rfl
@[simp] theorem State.tell_fenced (s : State) (n : Notice) : (s.tell n).fenced = s.fenced := rfl
@[simp] theorem State.tell_waiters (s : State) (n : Notice) : (s.tell n).waiters = s.waiters := rfl
@[simp] theorem State.tell_tlb (s : State) (n : Notice) : (s.tell n).tlb = s.tlb := rfl
@[simp] theorem State.tell_wcache (s : State) (n : Notice) : (s.tell n).wcache = s.wcache := rfl
@[simp] theorem State.tell_accepts (s : State) (n : Notice) : (s.tell n).accepts = s.accepts := rfl
@[simp] theorem State.tell_retests (s : State) (n : Notice) : (s.tell n).retests = s.retests := rfl
@[simp] theorem State.tell_cores (s : State) (n : Notice) : (s.tell n).cores = s.cores := rfl
@[simp] theorem State.tell_parts (s : State) (n : Notice) : (s.tell n).parts = s.parts := rfl
@[simp] theorem State.tell_icache (s : State) (n : Notice) : (s.tell n).icache = s.icache := rfl
@[simp] theorem State.tell_blocks (s : State) (n : Notice) : (s.tell n).blocks = s.blocks := rfl
@[simp] theorem State.tell_warps (s : State) (n : Notice) : (s.tell n).warps = s.warps := rfl
@[simp] theorem State.tell_asyncs (s : State) (n : Notice) : (s.tell n).asyncs = s.asyncs := rfl
@[simp] theorem State.tell_savedWarps (s : State) (n : Notice) : (s.tell n).savedWarps = s.savedWarps := rfl
@[simp] theorem State.tell_savedCmds (s : State) (n : Notice) : (s.tell n).savedCmds = s.savedCmds := rfl
@[simp] theorem State.tell_savedCore (s : State) (n : Notice) : (s.tell n).savedCore = s.savedCore := rfl
@[simp] theorem State.tell_launchCtr (s : State) (n : Notice) : (s.tell n).launchCtr = s.launchCtr := rfl
@[simp] theorem State.tell_launches (s : State) (n : Notice) : (s.tell n).launches = s.launches := rfl
@[simp] theorem State.tell_waiting (s : State) (n : Notice) : (s.tell n).waiting = s.waiting := rfl
@[simp] theorem State.tell_reserved (s : State) (n : Notice) : (s.tell n).reserved = s.reserved := rfl
@[simp] theorem State.tell_reservedCores (s : State) (n : Notice) : (s.tell n).reservedCores = s.reservedCores := rfl
@[simp] theorem State.tell_sealedSlots (s : State) (n : Notice) : (s.tell n).sealedSlots = s.sealedSlots := rfl
@[simp] theorem State.tell_heldSlots (s : State) (n : Notice) : (s.tell n).heldSlots = s.heldSlots := rfl
@[simp] theorem State.tell_childQueue (s : State) (n : Notice) : (s.tell n).childQueue = s.childQueue := rfl
@[simp] theorem State.tell_saveUsed (s : State) (n : Notice) : (s.tell n).saveUsed = s.saveUsed := rfl
@[simp] theorem State.tell_passes (s : State) (n : Notice) : (s.tell n).passes = s.passes := rfl
@[simp] theorem State.tell_ready (s : State) (n : Notice) : (s.tell n).ready = s.ready := rfl
@[simp] theorem State.tell_svcMode (s : State) (n : Notice) : (s.tell n).svcMode = s.svcMode := rfl
@[simp] theorem State.tell_lwinBase (s : State) (n : Notice) : (s.tell n).lwinBase = s.lwinBase := rfl
@[simp] theorem State.tell_ctxBase (s : State) (n : Notice) : (s.tell n).ctxBase = s.ctxBase := rfl
@[simp] theorem State.tell_ctxSize (s : State) (n : Notice) : (s.tell n).ctxSize = s.ctxSize := rfl
@[simp] theorem State.tell_asTable (s : State) (n : Notice) : (s.tell n).asTable = s.asTable := rfl
@[simp] theorem State.tell_wdogMax (s : State) (n : Notice) : (s.tell n).wdogMax = s.wdogMax := rfl
@[simp] theorem State.tell_quantumUs (s : State) (n : Notice) : (s.tell n).quantumUs = s.quantumUs := rfl
@[simp] theorem State.tell_leaseLen (s : State) (n : Notice) : (s.tell n).leaseLen = s.leaseLen := rfl
@[simp] theorem State.tell_swpol (s : State) (n : Notice) : (s.tell n).swpol = s.swpol := rfl
@[simp] theorem State.tell_spadSplit (s : State) (n : Notice) : (s.tell n).spadSplit = s.spadSplit := rfl
@[simp] theorem State.tell_fabTimeout (s : State) (n : Notice) : (s.tell n).fabTimeout = s.fabTimeout := rfl
@[simp] theorem State.tell_dumpBase (s : State) (n : Notice) : (s.tell n).dumpBase = s.dumpBase := rfl
@[simp] theorem State.tell_slotAsid (s : State) (n : Notice) : (s.tell n).slotAsid = s.slotAsid := rfl
@[simp] theorem State.tell_peers (s : State) (n : Notice) : (s.tell n).peers = s.peers := rfl
@[simp] theorem State.tell_windowBase (s : State) (n : Notice) : (s.tell n).windowBase = s.windowBase := rfl
@[simp] theorem State.tell_windowBytes (s : State) (n : Notice) : (s.tell n).windowBytes = s.windowBytes := rfl
@[simp] theorem State.tell_puts (s : State) (n : Notice) : (s.tell n).puts = s.puts := rfl
@[simp] theorem State.tell_hostLinkRefused (s : State) (n : Notice) : (s.tell n).hostLinkRefused = s.hostLinkRefused := rfl
@[simp] theorem State.tell_image (s : State) (n : Notice) : (s.tell n).image = s.image := rfl
@[simp] theorem State.tell_fusedVersion (s : State) (n : Notice) : (s.tell n).fusedVersion = s.fusedVersion := rfl
@[simp] theorem State.tell_revoked (s : State) (n : Notice) : (s.tell n).revoked = s.revoked := rfl
@[simp] theorem State.tell_measurements (s : State) (n : Notice) : (s.tell n).measurements = s.measurements := rfl
@[simp] theorem State.tell_stages (s : State) (n : Notice) : (s.tell n).stages = s.stages := rfl
@[simp] theorem State.tell_health (s : State) (n : Notice) : (s.tell n).health = s.health := rfl
@[simp] theorem State.tell_uncorrected (s : State) (n : Notice) : (s.tell n).uncorrected = s.uncorrected := rfl
@[simp] theorem State.tell_badPas (s : State) (n : Notice) : (s.tell n).badPas = s.badPas := rfl
@[simp] theorem State.tell_eol (s : State) (n : Notice) : (s.tell n).eol = s.eol := rfl
@[simp] theorem State.tell_reports (s : State) (n : Notice) : (s.tell n).reports = s.reports := rfl
@[simp] theorem State.tell_fatal (s : State) (n : Notice) : (s.tell n).fatal = s.fatal := rfl
@[simp] theorem State.tell_events (s : State) (n : Notice) : (s.tell n).events = s.events := rfl

/-! State.pass -/

@[simp] theorem State.pass_schedule (s : State) (dt : Nat) : (s.pass dt).schedule = s.schedule := rfl
@[simp] theorem State.pass_focus (s : State) (dt : Nat) : (s.pass dt).focus = s.focus := rfl
@[simp] theorem State.pass_cur (s : State) (dt : Nat) : (s.pass dt).cur = s.cur := rfl
@[simp] theorem State.pass_fresh (s : State) (dt : Nat) : (s.pass dt).fresh = s.fresh := rfl
@[simp] theorem State.pass_nextId (s : State) (dt : Nat) : (s.pass dt).nextId = s.nextId := rfl
@[simp] theorem State.pass_clockMhz (s : State) (dt : Nat) : (s.pass dt).clockMhz = s.clockMhz := rfl
@[simp] theorem State.pass_powered (s : State) (dt : Nat) : (s.pass dt).powered = s.powered := rfl
@[simp] theorem State.pass_stalled (s : State) (dt : Nat) : (s.pass dt).stalled = s.stalled := rfl
@[simp] theorem State.pass_powerCap (s : State) (dt : Nat) : (s.pass dt).powerCap = s.powerCap := rfl
@[simp] theorem State.pass_hwCapped (s : State) (dt : Nat) : (s.pass dt).hwCapped = s.hwCapped := rfl
@[simp] theorem State.pass_restarts (s : State) (dt : Nat) : (s.pass dt).restarts = s.restarts := rfl
@[simp] theorem State.pass_dram (s : State) (dt : Nat) : (s.pass dt).dram = s.dram := rfl
@[simp] theorem State.pass_dramPoison (s : State) (dt : Nat) : (s.pass dt).dramPoison = s.dramPoison := rfl
@[simp] theorem State.pass_l2 (s : State) (dt : Nat) : (s.pass dt).l2 = s.l2 := rfl
@[simp] theorem State.pass_dir (s : State) (dt : Nat) : (s.pass dt).dir = s.dir := rfl
@[simp] theorem State.pass_misses (s : State) (dt : Nat) : (s.pass dt).misses = s.misses := rfl
@[simp] theorem State.pass_net (s : State) (dt : Nat) : (s.pass dt).net = s.net := rfl
@[simp] theorem State.pass_hostMem (s : State) (dt : Nat) : (s.pass dt).hostMem = s.hostMem := rfl
@[simp] theorem State.pass_hostCached (s : State) (dt : Nat) : (s.pass dt).hostCached = s.hostCached := rfl
@[simp] theorem State.pass_hostHeld (s : State) (dt : Nat) : (s.pass dt).hostHeld = s.hostHeld := rfl
@[simp] theorem State.pass_fenced (s : State) (dt : Nat) : (s.pass dt).fenced = s.fenced := rfl
@[simp] theorem State.pass_waiters (s : State) (dt : Nat) : (s.pass dt).waiters = s.waiters := rfl
@[simp] theorem State.pass_tlb (s : State) (dt : Nat) : (s.pass dt).tlb = s.tlb := rfl
@[simp] theorem State.pass_wcache (s : State) (dt : Nat) : (s.pass dt).wcache = s.wcache := rfl
@[simp] theorem State.pass_accepts (s : State) (dt : Nat) : (s.pass dt).accepts = s.accepts := rfl
@[simp] theorem State.pass_retests (s : State) (dt : Nat) : (s.pass dt).retests = s.retests := rfl
@[simp] theorem State.pass_cores (s : State) (dt : Nat) : (s.pass dt).cores = s.cores := rfl
@[simp] theorem State.pass_parts (s : State) (dt : Nat) : (s.pass dt).parts = s.parts := rfl
@[simp] theorem State.pass_icache (s : State) (dt : Nat) : (s.pass dt).icache = s.icache := rfl
@[simp] theorem State.pass_blocks (s : State) (dt : Nat) : (s.pass dt).blocks = s.blocks := rfl
@[simp] theorem State.pass_warps (s : State) (dt : Nat) : (s.pass dt).warps = s.warps := rfl
@[simp] theorem State.pass_asyncs (s : State) (dt : Nat) : (s.pass dt).asyncs = s.asyncs := rfl
@[simp] theorem State.pass_savedWarps (s : State) (dt : Nat) : (s.pass dt).savedWarps = s.savedWarps := rfl
@[simp] theorem State.pass_savedCmds (s : State) (dt : Nat) : (s.pass dt).savedCmds = s.savedCmds := rfl
@[simp] theorem State.pass_savedCore (s : State) (dt : Nat) : (s.pass dt).savedCore = s.savedCore := rfl
@[simp] theorem State.pass_launchCtr (s : State) (dt : Nat) : (s.pass dt).launchCtr = s.launchCtr := rfl
@[simp] theorem State.pass_launches (s : State) (dt : Nat) : (s.pass dt).launches = s.launches := rfl
@[simp] theorem State.pass_waiting (s : State) (dt : Nat) : (s.pass dt).waiting = s.waiting := rfl
@[simp] theorem State.pass_reserved (s : State) (dt : Nat) : (s.pass dt).reserved = s.reserved := rfl
@[simp] theorem State.pass_reservedCores (s : State) (dt : Nat) : (s.pass dt).reservedCores = s.reservedCores := rfl
@[simp] theorem State.pass_sealedSlots (s : State) (dt : Nat) : (s.pass dt).sealedSlots = s.sealedSlots := rfl
@[simp] theorem State.pass_heldSlots (s : State) (dt : Nat) : (s.pass dt).heldSlots = s.heldSlots := rfl
@[simp] theorem State.pass_childQueue (s : State) (dt : Nat) : (s.pass dt).childQueue = s.childQueue := rfl
@[simp] theorem State.pass_saveUsed (s : State) (dt : Nat) : (s.pass dt).saveUsed = s.saveUsed := rfl
@[simp] theorem State.pass_passes (s : State) (dt : Nat) : (s.pass dt).passes = s.passes := rfl
@[simp] theorem State.pass_ready (s : State) (dt : Nat) : (s.pass dt).ready = s.ready := rfl
@[simp] theorem State.pass_svcMode (s : State) (dt : Nat) : (s.pass dt).svcMode = s.svcMode := rfl
@[simp] theorem State.pass_lwinBase (s : State) (dt : Nat) : (s.pass dt).lwinBase = s.lwinBase := rfl
@[simp] theorem State.pass_ctxBase (s : State) (dt : Nat) : (s.pass dt).ctxBase = s.ctxBase := rfl
@[simp] theorem State.pass_ctxSize (s : State) (dt : Nat) : (s.pass dt).ctxSize = s.ctxSize := rfl
@[simp] theorem State.pass_asTable (s : State) (dt : Nat) : (s.pass dt).asTable = s.asTable := rfl
@[simp] theorem State.pass_wdogMax (s : State) (dt : Nat) : (s.pass dt).wdogMax = s.wdogMax := rfl
@[simp] theorem State.pass_quantumUs (s : State) (dt : Nat) : (s.pass dt).quantumUs = s.quantumUs := rfl
@[simp] theorem State.pass_leaseLen (s : State) (dt : Nat) : (s.pass dt).leaseLen = s.leaseLen := rfl
@[simp] theorem State.pass_swpol (s : State) (dt : Nat) : (s.pass dt).swpol = s.swpol := rfl
@[simp] theorem State.pass_spadSplit (s : State) (dt : Nat) : (s.pass dt).spadSplit = s.spadSplit := rfl
@[simp] theorem State.pass_fabTimeout (s : State) (dt : Nat) : (s.pass dt).fabTimeout = s.fabTimeout := rfl
@[simp] theorem State.pass_dumpBase (s : State) (dt : Nat) : (s.pass dt).dumpBase = s.dumpBase := rfl
@[simp] theorem State.pass_slotAsid (s : State) (dt : Nat) : (s.pass dt).slotAsid = s.slotAsid := rfl
@[simp] theorem State.pass_peers (s : State) (dt : Nat) : (s.pass dt).peers = s.peers := rfl
@[simp] theorem State.pass_windowBase (s : State) (dt : Nat) : (s.pass dt).windowBase = s.windowBase := rfl
@[simp] theorem State.pass_windowBytes (s : State) (dt : Nat) : (s.pass dt).windowBytes = s.windowBytes := rfl
@[simp] theorem State.pass_puts (s : State) (dt : Nat) : (s.pass dt).puts = s.puts := rfl
@[simp] theorem State.pass_hostLinkRefused (s : State) (dt : Nat) : (s.pass dt).hostLinkRefused = s.hostLinkRefused := rfl
@[simp] theorem State.pass_image (s : State) (dt : Nat) : (s.pass dt).image = s.image := rfl
@[simp] theorem State.pass_fusedVersion (s : State) (dt : Nat) : (s.pass dt).fusedVersion = s.fusedVersion := rfl
@[simp] theorem State.pass_revoked (s : State) (dt : Nat) : (s.pass dt).revoked = s.revoked := rfl
@[simp] theorem State.pass_measurements (s : State) (dt : Nat) : (s.pass dt).measurements = s.measurements := rfl
@[simp] theorem State.pass_stages (s : State) (dt : Nat) : (s.pass dt).stages = s.stages := rfl
@[simp] theorem State.pass_health (s : State) (dt : Nat) : (s.pass dt).health = s.health := rfl
@[simp] theorem State.pass_uncorrected (s : State) (dt : Nat) : (s.pass dt).uncorrected = s.uncorrected := rfl
@[simp] theorem State.pass_badPas (s : State) (dt : Nat) : (s.pass dt).badPas = s.badPas := rfl
@[simp] theorem State.pass_eol (s : State) (dt : Nat) : (s.pass dt).eol = s.eol := rfl
@[simp] theorem State.pass_reports (s : State) (dt : Nat) : (s.pass dt).reports = s.reports := rfl
@[simp] theorem State.pass_notices (s : State) (dt : Nat) : (s.pass dt).notices = s.notices := rfl
@[simp] theorem State.pass_fatal (s : State) (dt : Nat) : (s.pass dt).fatal = s.fatal := rfl
@[simp] theorem State.pass_events (s : State) (dt : Nat) : (s.pass dt).events = s.events := rfl

/-! State.count -/

@[simp] theorem State.count_schedule (s : State) (e : Ev) (n : Nat) : (s.count e n).schedule = s.schedule := by unfold State.count; split <;> rfl
@[simp] theorem State.count_focus (s : State) (e : Ev) (n : Nat) : (s.count e n).focus = s.focus := by unfold State.count; split <;> rfl
@[simp] theorem State.count_cur (s : State) (e : Ev) (n : Nat) : (s.count e n).cur = s.cur := by unfold State.count; split <;> rfl
@[simp] theorem State.count_fresh (s : State) (e : Ev) (n : Nat) : (s.count e n).fresh = s.fresh := by unfold State.count; split <;> rfl
@[simp] theorem State.count_nextId (s : State) (e : Ev) (n : Nat) : (s.count e n).nextId = s.nextId := by unfold State.count; split <;> rfl
@[simp] theorem State.count_now (s : State) (e : Ev) (n : Nat) : (s.count e n).now = s.now := by unfold State.count; split <;> rfl
@[simp] theorem State.count_devTicks (s : State) (e : Ev) (n : Nat) : (s.count e n).devTicks = s.devTicks := by unfold State.count; split <;> rfl
@[simp] theorem State.count_clockMhz (s : State) (e : Ev) (n : Nat) : (s.count e n).clockMhz = s.clockMhz := by unfold State.count; split <;> rfl
@[simp] theorem State.count_powered (s : State) (e : Ev) (n : Nat) : (s.count e n).powered = s.powered := by unfold State.count; split <;> rfl
@[simp] theorem State.count_stalled (s : State) (e : Ev) (n : Nat) : (s.count e n).stalled = s.stalled := by unfold State.count; split <;> rfl
@[simp] theorem State.count_powerCap (s : State) (e : Ev) (n : Nat) : (s.count e n).powerCap = s.powerCap := by unfold State.count; split <;> rfl
@[simp] theorem State.count_hwCapped (s : State) (e : Ev) (n : Nat) : (s.count e n).hwCapped = s.hwCapped := by unfold State.count; split <;> rfl
@[simp] theorem State.count_restarts (s : State) (e : Ev) (n : Nat) : (s.count e n).restarts = s.restarts := by unfold State.count; split <;> rfl
@[simp] theorem State.count_dram (s : State) (e : Ev) (n : Nat) : (s.count e n).dram = s.dram := by unfold State.count; split <;> rfl
@[simp] theorem State.count_dramPoison (s : State) (e : Ev) (n : Nat) : (s.count e n).dramPoison = s.dramPoison := by unfold State.count; split <;> rfl
@[simp] theorem State.count_l2 (s : State) (e : Ev) (n : Nat) : (s.count e n).l2 = s.l2 := by unfold State.count; split <;> rfl
@[simp] theorem State.count_dir (s : State) (e : Ev) (n : Nat) : (s.count e n).dir = s.dir := by unfold State.count; split <;> rfl
@[simp] theorem State.count_misses (s : State) (e : Ev) (n : Nat) : (s.count e n).misses = s.misses := by unfold State.count; split <;> rfl
@[simp] theorem State.count_net (s : State) (e : Ev) (n : Nat) : (s.count e n).net = s.net := by unfold State.count; split <;> rfl
@[simp] theorem State.count_hostMem (s : State) (e : Ev) (n : Nat) : (s.count e n).hostMem = s.hostMem := by unfold State.count; split <;> rfl
@[simp] theorem State.count_hostCached (s : State) (e : Ev) (n : Nat) : (s.count e n).hostCached = s.hostCached := by unfold State.count; split <;> rfl
@[simp] theorem State.count_hostHeld (s : State) (e : Ev) (n : Nat) : (s.count e n).hostHeld = s.hostHeld := by unfold State.count; split <;> rfl
@[simp] theorem State.count_fenced (s : State) (e : Ev) (n : Nat) : (s.count e n).fenced = s.fenced := by unfold State.count; split <;> rfl
@[simp] theorem State.count_waiters (s : State) (e : Ev) (n : Nat) : (s.count e n).waiters = s.waiters := by unfold State.count; split <;> rfl
@[simp] theorem State.count_tlb (s : State) (e : Ev) (n : Nat) : (s.count e n).tlb = s.tlb := by unfold State.count; split <;> rfl
@[simp] theorem State.count_wcache (s : State) (e : Ev) (n : Nat) : (s.count e n).wcache = s.wcache := by unfold State.count; split <;> rfl
@[simp] theorem State.count_accepts (s : State) (e : Ev) (n : Nat) : (s.count e n).accepts = s.accepts := by unfold State.count; split <;> rfl
@[simp] theorem State.count_retests (s : State) (e : Ev) (n : Nat) : (s.count e n).retests = s.retests := by unfold State.count; split <;> rfl
@[simp] theorem State.count_cores (s : State) (e : Ev) (n : Nat) : (s.count e n).cores = s.cores := by unfold State.count; split <;> rfl
@[simp] theorem State.count_parts (s : State) (e : Ev) (n : Nat) : (s.count e n).parts = s.parts := by unfold State.count; split <;> rfl
@[simp] theorem State.count_icache (s : State) (e : Ev) (n : Nat) : (s.count e n).icache = s.icache := by unfold State.count; split <;> rfl
@[simp] theorem State.count_blocks (s : State) (e : Ev) (n : Nat) : (s.count e n).blocks = s.blocks := by unfold State.count; split <;> rfl
@[simp] theorem State.count_warps (s : State) (e : Ev) (n : Nat) : (s.count e n).warps = s.warps := by unfold State.count; split <;> rfl
@[simp] theorem State.count_asyncs (s : State) (e : Ev) (n : Nat) : (s.count e n).asyncs = s.asyncs := by unfold State.count; split <;> rfl
@[simp] theorem State.count_savedWarps (s : State) (e : Ev) (n : Nat) : (s.count e n).savedWarps = s.savedWarps := by unfold State.count; split <;> rfl
@[simp] theorem State.count_savedCmds (s : State) (e : Ev) (n : Nat) : (s.count e n).savedCmds = s.savedCmds := by unfold State.count; split <;> rfl
@[simp] theorem State.count_savedCore (s : State) (e : Ev) (n : Nat) : (s.count e n).savedCore = s.savedCore := by unfold State.count; split <;> rfl
@[simp] theorem State.count_launchCtr (s : State) (e : Ev) (n : Nat) : (s.count e n).launchCtr = s.launchCtr := by unfold State.count; split <;> rfl
@[simp] theorem State.count_launches (s : State) (e : Ev) (n : Nat) : (s.count e n).launches = s.launches := by unfold State.count; split <;> rfl
@[simp] theorem State.count_waiting (s : State) (e : Ev) (n : Nat) : (s.count e n).waiting = s.waiting := by unfold State.count; split <;> rfl
@[simp] theorem State.count_reserved (s : State) (e : Ev) (n : Nat) : (s.count e n).reserved = s.reserved := by unfold State.count; split <;> rfl
@[simp] theorem State.count_reservedCores (s : State) (e : Ev) (n : Nat) : (s.count e n).reservedCores = s.reservedCores := by unfold State.count; split <;> rfl
@[simp] theorem State.count_sealedSlots (s : State) (e : Ev) (n : Nat) : (s.count e n).sealedSlots = s.sealedSlots := by unfold State.count; split <;> rfl
@[simp] theorem State.count_heldSlots (s : State) (e : Ev) (n : Nat) : (s.count e n).heldSlots = s.heldSlots := by unfold State.count; split <;> rfl
@[simp] theorem State.count_childQueue (s : State) (e : Ev) (n : Nat) : (s.count e n).childQueue = s.childQueue := by unfold State.count; split <;> rfl
@[simp] theorem State.count_saveUsed (s : State) (e : Ev) (n : Nat) : (s.count e n).saveUsed = s.saveUsed := by unfold State.count; split <;> rfl
@[simp] theorem State.count_passes (s : State) (e : Ev) (n : Nat) : (s.count e n).passes = s.passes := by unfold State.count; split <;> rfl
@[simp] theorem State.count_ready (s : State) (e : Ev) (n : Nat) : (s.count e n).ready = s.ready := by unfold State.count; split <;> rfl
@[simp] theorem State.count_svcMode (s : State) (e : Ev) (n : Nat) : (s.count e n).svcMode = s.svcMode := by unfold State.count; split <;> rfl
@[simp] theorem State.count_lwinBase (s : State) (e : Ev) (n : Nat) : (s.count e n).lwinBase = s.lwinBase := by unfold State.count; split <;> rfl
@[simp] theorem State.count_ctxBase (s : State) (e : Ev) (n : Nat) : (s.count e n).ctxBase = s.ctxBase := by unfold State.count; split <;> rfl
@[simp] theorem State.count_ctxSize (s : State) (e : Ev) (n : Nat) : (s.count e n).ctxSize = s.ctxSize := by unfold State.count; split <;> rfl
@[simp] theorem State.count_asTable (s : State) (e : Ev) (n : Nat) : (s.count e n).asTable = s.asTable := by unfold State.count; split <;> rfl
@[simp] theorem State.count_wdogMax (s : State) (e : Ev) (n : Nat) : (s.count e n).wdogMax = s.wdogMax := by unfold State.count; split <;> rfl
@[simp] theorem State.count_quantumUs (s : State) (e : Ev) (n : Nat) : (s.count e n).quantumUs = s.quantumUs := by unfold State.count; split <;> rfl
@[simp] theorem State.count_leaseLen (s : State) (e : Ev) (n : Nat) : (s.count e n).leaseLen = s.leaseLen := by unfold State.count; split <;> rfl
@[simp] theorem State.count_swpol (s : State) (e : Ev) (n : Nat) : (s.count e n).swpol = s.swpol := by unfold State.count; split <;> rfl
@[simp] theorem State.count_spadSplit (s : State) (e : Ev) (n : Nat) : (s.count e n).spadSplit = s.spadSplit := by unfold State.count; split <;> rfl
@[simp] theorem State.count_fabTimeout (s : State) (e : Ev) (n : Nat) : (s.count e n).fabTimeout = s.fabTimeout := by unfold State.count; split <;> rfl
@[simp] theorem State.count_dumpBase (s : State) (e : Ev) (n : Nat) : (s.count e n).dumpBase = s.dumpBase := by unfold State.count; split <;> rfl
@[simp] theorem State.count_slotAsid (s : State) (e : Ev) (n : Nat) : (s.count e n).slotAsid = s.slotAsid := by unfold State.count; split <;> rfl
@[simp] theorem State.count_peers (s : State) (e : Ev) (n : Nat) : (s.count e n).peers = s.peers := by unfold State.count; split <;> rfl
@[simp] theorem State.count_windowBase (s : State) (e : Ev) (n : Nat) : (s.count e n).windowBase = s.windowBase := by unfold State.count; split <;> rfl
@[simp] theorem State.count_windowBytes (s : State) (e : Ev) (n : Nat) : (s.count e n).windowBytes = s.windowBytes := by unfold State.count; split <;> rfl
@[simp] theorem State.count_puts (s : State) (e : Ev) (n : Nat) : (s.count e n).puts = s.puts := by unfold State.count; split <;> rfl
@[simp] theorem State.count_hostLinkRefused (s : State) (e : Ev) (n : Nat) : (s.count e n).hostLinkRefused = s.hostLinkRefused := by unfold State.count; split <;> rfl
@[simp] theorem State.count_image (s : State) (e : Ev) (n : Nat) : (s.count e n).image = s.image := by unfold State.count; split <;> rfl
@[simp] theorem State.count_fusedVersion (s : State) (e : Ev) (n : Nat) : (s.count e n).fusedVersion = s.fusedVersion := by unfold State.count; split <;> rfl
@[simp] theorem State.count_revoked (s : State) (e : Ev) (n : Nat) : (s.count e n).revoked = s.revoked := by unfold State.count; split <;> rfl
@[simp] theorem State.count_measurements (s : State) (e : Ev) (n : Nat) : (s.count e n).measurements = s.measurements := by unfold State.count; split <;> rfl
@[simp] theorem State.count_stages (s : State) (e : Ev) (n : Nat) : (s.count e n).stages = s.stages := by unfold State.count; split <;> rfl
@[simp] theorem State.count_health (s : State) (e : Ev) (n : Nat) : (s.count e n).health = s.health := by unfold State.count; split <;> rfl
@[simp] theorem State.count_uncorrected (s : State) (e : Ev) (n : Nat) : (s.count e n).uncorrected = s.uncorrected := by unfold State.count; split <;> rfl
@[simp] theorem State.count_badPas (s : State) (e : Ev) (n : Nat) : (s.count e n).badPas = s.badPas := by unfold State.count; split <;> rfl
@[simp] theorem State.count_eol (s : State) (e : Ev) (n : Nat) : (s.count e n).eol = s.eol := by unfold State.count; split <;> rfl
@[simp] theorem State.count_reports (s : State) (e : Ev) (n : Nat) : (s.count e n).reports = s.reports := by unfold State.count; split <;> rfl
@[simp] theorem State.count_notices (s : State) (e : Ev) (n : Nat) : (s.count e n).notices = s.notices := by unfold State.count; split <;> rfl
@[simp] theorem State.count_fatal (s : State) (e : Ev) (n : Nat) : (s.count e n).fatal = s.fatal := by unfold State.count; split <;> rfl

/-! Warp.vmap -/

@[simp] theorem Warp.vmap_block (w : Warp) (r : Nat) : (w.vmap r).block = w.block := by unfold Warp.vmap; split <;> rfl
@[simp] theorem Warp.vmap_idx (w : Warp) (r : Nat) : (w.vmap r).idx = w.idx := by unfold Warp.vmap; split <;> rfl
@[simp] theorem Warp.vmap_core (w : Warp) (r : Nat) : (w.vmap r).core = w.core := by unfold Warp.vmap; split <;> rfl
@[simp] theorem Warp.vmap_part (w : Warp) (r : Nat) : (w.vmap r).part = w.part := by unfold Warp.vmap; split <;> rfl
@[simp] theorem Warp.vmap_slot (w : Warp) (r : Nat) : (w.vmap r).slot = w.slot := by unfold Warp.vmap; split <;> rfl
@[simp] theorem Warp.vmap_role (w : Warp) (r : Nat) : (w.vmap r).role = w.role := by unfold Warp.vmap; split <;> rfl
@[simp] theorem Warp.vmap_floor (w : Warp) (r : Nat) : (w.vmap r).floor = w.floor := by unfold Warp.vmap; split <;> rfl
@[simp] theorem Warp.vmap_ceil (w : Warp) (r : Nat) : (w.vmap r).ceil = w.ceil := by unfold Warp.vmap; split <;> rfl
@[simp] theorem Warp.vmap_live (w : Warp) (r : Nat) : (w.vmap r).live = w.live := by unfold Warp.vmap; split <;> rfl
@[simp] theorem Warp.vmap_entries (w : Warp) (r : Nat) : (w.vmap r).entries = w.entries := by unfold Warp.vmap; split <;> rfl
@[simp] theorem Warp.vmap_spilled (w : Warp) (r : Nat) : (w.vmap r).spilled = w.spilled := by unfold Warp.vmap; split <;> rfl
@[simp] theorem Warp.vmap_pv (w : Warp) (r : Nat) : (w.vmap r).pv = w.pv := by unfold Warp.vmap; split <;> rfl
@[simp] theorem Warp.vmap_pp (w : Warp) (r : Nat) : (w.vmap r).pp = w.pp := by unfold Warp.vmap; split <;> rfl
@[simp] theorem Warp.vmap_s (w : Warp) (r : Nat) : (w.vmap r).s = w.s := by unfold Warp.vmap; split <;> rfl
@[simp] theorem Warp.vmap_q (w : Warp) (r : Nat) : (w.vmap r).q = w.q := by unfold Warp.vmap; split <;> rfl
@[simp] theorem Warp.vmap_m (w : Warp) (r : Nat) : (w.vmap r).m = w.m := by unfold Warp.vmap; split <;> rfl
@[simp] theorem Warp.vmap_fflags (w : Warp) (r : Nat) : (w.vmap r).fflags = w.fflags := by unfold Warp.vmap; split <;> rfl
@[simp] theorem Warp.vmap_due (w : Warp) (r : Nat) : (w.vmap r).due = w.due := by unfold Warp.vmap; split <;> rfl
@[simp] theorem Warp.vmap_depth (w : Warp) (r : Nat) : (w.vmap r).depth = w.depth := by unfold Warp.vmap; split <;> rfl
@[simp] theorem Warp.vmap_traps (w : Warp) (r : Nat) : (w.vmap r).traps = w.traps := by unfold Warp.vmap; split <;> rfl
@[simp] theorem Warp.vmap_budget (w : Warp) (r : Nat) : (w.vmap r).budget = w.budget := by unfold Warp.vmap; split <;> rfl
@[simp] theorem Warp.vmap_age (w : Warp) (r : Nat) : (w.vmap r).age = w.age := by unfold Warp.vmap; split <;> rfl
@[simp] theorem Warp.vmap_lastIssue (w : Warp) (r : Nat) : (w.vmap r).lastIssue = w.lastIssue := by unfold Warp.vmap; split <;> rfl
@[simp] theorem Warp.vmap_cls (w : Warp) (r : Nat) : (w.vmap r).cls = w.cls := by unfold Warp.vmap; split <;> rfl
@[simp] theorem Warp.vmap_clsHold (w : Warp) (r : Nat) : (w.vmap r).clsHold = w.clsHold := by unfold Warp.vmap; split <;> rfl
@[simp] theorem Warp.vmap_monitor (w : Warp) (r : Nat) : (w.vmap r).monitor = w.monitor := by unfold Warp.vmap; split <;> rfl
@[simp] theorem Warp.vmap_tokens (w : Warp) (r : Nat) : (w.vmap r).tokens = w.tokens := by unfold Warp.vmap; split <;> rfl
@[simp] theorem Warp.vmap_marks (w : Warp) (r : Nat) : (w.vmap r).marks = w.marks := by unfold Warp.vmap; split <;> rfl
@[simp] theorem Warp.vmap_sigs (w : Warp) (r : Nat) : (w.vmap r).sigs = w.sigs := by unfold Warp.vmap; split <;> rfl
@[simp] theorem Warp.vmap_results (w : Warp) (r : Nat) : (w.vmap r).results = w.results := by unfold Warp.vmap; split <;> rfl
@[simp] theorem Warp.vmap_heldFrees (w : Warp) (r : Nat) : (w.vmap r).heldFrees = w.heldFrees := by unfold Warp.vmap; split <;> rfl
@[simp] theorem Warp.vmap_left (w : Warp) (r : Nat) : (w.vmap r).left = w.left := by unfold Warp.vmap; split <;> rfl
@[simp] theorem Warp.vmap_frags (w : Warp) (r : Nat) : (w.vmap r).frags = w.frags := by unfold Warp.vmap; split <;> rfl
@[simp] theorem Warp.vmap_inside (w : Warp) (r : Nat) : (w.vmap r).inside = w.inside := by unfold Warp.vmap; split <;> rfl
@[simp] theorem Warp.vmap_orderCmds (w : Warp) (r : Nat) : (w.vmap r).orderCmds = w.orderCmds := by unfold Warp.vmap; split <;> rfl
@[simp] theorem Warp.vmap_rays (w : Warp) (r : Nat) : (w.vmap r).rays = w.rays := by unfold Warp.vmap; split <;> rfl
@[simp] theorem Warp.vmap_opened (w : Warp) (r : Nat) : (w.vmap r).opened = w.opened := by unfold Warp.vmap; split <;> rfl
@[simp] theorem Warp.vmap_tileDue (w : Warp) (r : Nat) : (w.vmap r).tileDue = w.tileDue := by unfold Warp.vmap; split <;> rfl

/-! Warp.vput -/

@[simp] theorem Warp.vput_block (w : Warp) (r l : Nat) (x : LaneVal) : (w.vput r l x).block = w.block := by unfold Warp.vput; split <;> rfl
@[simp] theorem Warp.vput_idx (w : Warp) (r l : Nat) (x : LaneVal) : (w.vput r l x).idx = w.idx := by unfold Warp.vput; split <;> rfl
@[simp] theorem Warp.vput_core (w : Warp) (r l : Nat) (x : LaneVal) : (w.vput r l x).core = w.core := by unfold Warp.vput; split <;> rfl
@[simp] theorem Warp.vput_part (w : Warp) (r l : Nat) (x : LaneVal) : (w.vput r l x).part = w.part := by unfold Warp.vput; split <;> rfl
@[simp] theorem Warp.vput_slot (w : Warp) (r l : Nat) (x : LaneVal) : (w.vput r l x).slot = w.slot := by unfold Warp.vput; split <;> rfl
@[simp] theorem Warp.vput_role (w : Warp) (r l : Nat) (x : LaneVal) : (w.vput r l x).role = w.role := by unfold Warp.vput; split <;> rfl
@[simp] theorem Warp.vput_floor (w : Warp) (r l : Nat) (x : LaneVal) : (w.vput r l x).floor = w.floor := by unfold Warp.vput; split <;> rfl
@[simp] theorem Warp.vput_ceil (w : Warp) (r l : Nat) (x : LaneVal) : (w.vput r l x).ceil = w.ceil := by unfold Warp.vput; split <;> rfl
@[simp] theorem Warp.vput_live (w : Warp) (r l : Nat) (x : LaneVal) : (w.vput r l x).live = w.live := by unfold Warp.vput; split <;> rfl
@[simp] theorem Warp.vput_entries (w : Warp) (r l : Nat) (x : LaneVal) : (w.vput r l x).entries = w.entries := by unfold Warp.vput; split <;> rfl
@[simp] theorem Warp.vput_spilled (w : Warp) (r l : Nat) (x : LaneVal) : (w.vput r l x).spilled = w.spilled := by unfold Warp.vput; split <;> rfl
@[simp] theorem Warp.vput_pv (w : Warp) (r l : Nat) (x : LaneVal) : (w.vput r l x).pv = w.pv := by unfold Warp.vput; split <;> rfl
@[simp] theorem Warp.vput_pp (w : Warp) (r l : Nat) (x : LaneVal) : (w.vput r l x).pp = w.pp := by unfold Warp.vput; split <;> rfl
@[simp] theorem Warp.vput_s (w : Warp) (r l : Nat) (x : LaneVal) : (w.vput r l x).s = w.s := by unfold Warp.vput; split <;> rfl
@[simp] theorem Warp.vput_q (w : Warp) (r l : Nat) (x : LaneVal) : (w.vput r l x).q = w.q := by unfold Warp.vput; split <;> rfl
@[simp] theorem Warp.vput_m (w : Warp) (r l : Nat) (x : LaneVal) : (w.vput r l x).m = w.m := by unfold Warp.vput; split <;> rfl
@[simp] theorem Warp.vput_fflags (w : Warp) (r l : Nat) (x : LaneVal) : (w.vput r l x).fflags = w.fflags := by unfold Warp.vput; split <;> rfl
@[simp] theorem Warp.vput_due (w : Warp) (r l : Nat) (x : LaneVal) : (w.vput r l x).due = w.due := by unfold Warp.vput; split <;> rfl
@[simp] theorem Warp.vput_depth (w : Warp) (r l : Nat) (x : LaneVal) : (w.vput r l x).depth = w.depth := by unfold Warp.vput; split <;> rfl
@[simp] theorem Warp.vput_traps (w : Warp) (r l : Nat) (x : LaneVal) : (w.vput r l x).traps = w.traps := by unfold Warp.vput; split <;> rfl
@[simp] theorem Warp.vput_budget (w : Warp) (r l : Nat) (x : LaneVal) : (w.vput r l x).budget = w.budget := by unfold Warp.vput; split <;> rfl
@[simp] theorem Warp.vput_age (w : Warp) (r l : Nat) (x : LaneVal) : (w.vput r l x).age = w.age := by unfold Warp.vput; split <;> rfl
@[simp] theorem Warp.vput_lastIssue (w : Warp) (r l : Nat) (x : LaneVal) : (w.vput r l x).lastIssue = w.lastIssue := by unfold Warp.vput; split <;> rfl
@[simp] theorem Warp.vput_cls (w : Warp) (r l : Nat) (x : LaneVal) : (w.vput r l x).cls = w.cls := by unfold Warp.vput; split <;> rfl
@[simp] theorem Warp.vput_clsHold (w : Warp) (r l : Nat) (x : LaneVal) : (w.vput r l x).clsHold = w.clsHold := by unfold Warp.vput; split <;> rfl
@[simp] theorem Warp.vput_monitor (w : Warp) (r l : Nat) (x : LaneVal) : (w.vput r l x).monitor = w.monitor := by unfold Warp.vput; split <;> rfl
@[simp] theorem Warp.vput_tokens (w : Warp) (r l : Nat) (x : LaneVal) : (w.vput r l x).tokens = w.tokens := by unfold Warp.vput; split <;> rfl
@[simp] theorem Warp.vput_marks (w : Warp) (r l : Nat) (x : LaneVal) : (w.vput r l x).marks = w.marks := by unfold Warp.vput; split <;> rfl
@[simp] theorem Warp.vput_sigs (w : Warp) (r l : Nat) (x : LaneVal) : (w.vput r l x).sigs = w.sigs := by unfold Warp.vput; split <;> rfl
@[simp] theorem Warp.vput_results (w : Warp) (r l : Nat) (x : LaneVal) : (w.vput r l x).results = w.results := by unfold Warp.vput; split <;> rfl
@[simp] theorem Warp.vput_heldFrees (w : Warp) (r l : Nat) (x : LaneVal) : (w.vput r l x).heldFrees = w.heldFrees := by unfold Warp.vput; split <;> rfl
@[simp] theorem Warp.vput_left (w : Warp) (r l : Nat) (x : LaneVal) : (w.vput r l x).left = w.left := by unfold Warp.vput; split <;> rfl
@[simp] theorem Warp.vput_frags (w : Warp) (r l : Nat) (x : LaneVal) : (w.vput r l x).frags = w.frags := by unfold Warp.vput; split <;> rfl
@[simp] theorem Warp.vput_inside (w : Warp) (r l : Nat) (x : LaneVal) : (w.vput r l x).inside = w.inside := by unfold Warp.vput; split <;> rfl
@[simp] theorem Warp.vput_orderCmds (w : Warp) (r l : Nat) (x : LaneVal) : (w.vput r l x).orderCmds = w.orderCmds := by unfold Warp.vput; split <;> rfl
@[simp] theorem Warp.vput_rays (w : Warp) (r l : Nat) (x : LaneVal) : (w.vput r l x).rays = w.rays := by unfold Warp.vput; split <;> rfl
@[simp] theorem Warp.vput_opened (w : Warp) (r l : Nat) (x : LaneVal) : (w.vput r l x).opened = w.opened := by unfold Warp.vput; split <;> rfl
@[simp] theorem Warp.vput_tileDue (w : Warp) (r l : Nat) (x : LaneVal) : (w.vput r l x).tileDue = w.tileDue := by unfold Warp.vput; split <;> rfl

/-! Warp.vfree -/

@[simp] theorem Warp.vfree_block (w : Warp) (r : Nat) : (w.vfree r).block = w.block := rfl
@[simp] theorem Warp.vfree_idx (w : Warp) (r : Nat) : (w.vfree r).idx = w.idx := rfl
@[simp] theorem Warp.vfree_core (w : Warp) (r : Nat) : (w.vfree r).core = w.core := rfl
@[simp] theorem Warp.vfree_part (w : Warp) (r : Nat) : (w.vfree r).part = w.part := rfl
@[simp] theorem Warp.vfree_slot (w : Warp) (r : Nat) : (w.vfree r).slot = w.slot := rfl
@[simp] theorem Warp.vfree_role (w : Warp) (r : Nat) : (w.vfree r).role = w.role := rfl
@[simp] theorem Warp.vfree_floor (w : Warp) (r : Nat) : (w.vfree r).floor = w.floor := rfl
@[simp] theorem Warp.vfree_ceil (w : Warp) (r : Nat) : (w.vfree r).ceil = w.ceil := rfl
@[simp] theorem Warp.vfree_live (w : Warp) (r : Nat) : (w.vfree r).live = w.live := rfl
@[simp] theorem Warp.vfree_entries (w : Warp) (r : Nat) : (w.vfree r).entries = w.entries := rfl
@[simp] theorem Warp.vfree_pv (w : Warp) (r : Nat) : (w.vfree r).pv = w.pv := rfl
@[simp] theorem Warp.vfree_pp (w : Warp) (r : Nat) : (w.vfree r).pp = w.pp := rfl
@[simp] theorem Warp.vfree_s (w : Warp) (r : Nat) : (w.vfree r).s = w.s := rfl
@[simp] theorem Warp.vfree_q (w : Warp) (r : Nat) : (w.vfree r).q = w.q := rfl
@[simp] theorem Warp.vfree_m (w : Warp) (r : Nat) : (w.vfree r).m = w.m := rfl
@[simp] theorem Warp.vfree_fflags (w : Warp) (r : Nat) : (w.vfree r).fflags = w.fflags := rfl
@[simp] theorem Warp.vfree_due (w : Warp) (r : Nat) : (w.vfree r).due = w.due := rfl
@[simp] theorem Warp.vfree_depth (w : Warp) (r : Nat) : (w.vfree r).depth = w.depth := rfl
@[simp] theorem Warp.vfree_traps (w : Warp) (r : Nat) : (w.vfree r).traps = w.traps := rfl
@[simp] theorem Warp.vfree_budget (w : Warp) (r : Nat) : (w.vfree r).budget = w.budget := rfl
@[simp] theorem Warp.vfree_age (w : Warp) (r : Nat) : (w.vfree r).age = w.age := rfl
@[simp] theorem Warp.vfree_lastIssue (w : Warp) (r : Nat) : (w.vfree r).lastIssue = w.lastIssue := rfl
@[simp] theorem Warp.vfree_cls (w : Warp) (r : Nat) : (w.vfree r).cls = w.cls := rfl
@[simp] theorem Warp.vfree_clsHold (w : Warp) (r : Nat) : (w.vfree r).clsHold = w.clsHold := rfl
@[simp] theorem Warp.vfree_monitor (w : Warp) (r : Nat) : (w.vfree r).monitor = w.monitor := rfl
@[simp] theorem Warp.vfree_tokens (w : Warp) (r : Nat) : (w.vfree r).tokens = w.tokens := rfl
@[simp] theorem Warp.vfree_marks (w : Warp) (r : Nat) : (w.vfree r).marks = w.marks := rfl
@[simp] theorem Warp.vfree_sigs (w : Warp) (r : Nat) : (w.vfree r).sigs = w.sigs := rfl
@[simp] theorem Warp.vfree_results (w : Warp) (r : Nat) : (w.vfree r).results = w.results := rfl
@[simp] theorem Warp.vfree_heldFrees (w : Warp) (r : Nat) : (w.vfree r).heldFrees = w.heldFrees := rfl
@[simp] theorem Warp.vfree_left (w : Warp) (r : Nat) : (w.vfree r).left = w.left := rfl
@[simp] theorem Warp.vfree_frags (w : Warp) (r : Nat) : (w.vfree r).frags = w.frags := rfl
@[simp] theorem Warp.vfree_inside (w : Warp) (r : Nat) : (w.vfree r).inside = w.inside := rfl
@[simp] theorem Warp.vfree_orderCmds (w : Warp) (r : Nat) : (w.vfree r).orderCmds = w.orderCmds := rfl
@[simp] theorem Warp.vfree_rays (w : Warp) (r : Nat) : (w.vfree r).rays = w.rays := rfl
@[simp] theorem Warp.vfree_opened (w : Warp) (r : Nat) : (w.vfree r).opened = w.opened := rfl
@[simp] theorem Warp.vfree_tileDue (w : Warp) (r : Nat) : (w.vfree r).tileDue = w.tileDue := rfl

/-! Warp.pput -/

@[simp] theorem Warp.pput_block (w : Warp) (r l : Nat) (b x : Bool) : (w.pput r l b x).block = w.block := by unfold Warp.pput; split <;> rfl
@[simp] theorem Warp.pput_idx (w : Warp) (r l : Nat) (b x : Bool) : (w.pput r l b x).idx = w.idx := by unfold Warp.pput; split <;> rfl
@[simp] theorem Warp.pput_core (w : Warp) (r l : Nat) (b x : Bool) : (w.pput r l b x).core = w.core := by unfold Warp.pput; split <;> rfl
@[simp] theorem Warp.pput_part (w : Warp) (r l : Nat) (b x : Bool) : (w.pput r l b x).part = w.part := by unfold Warp.pput; split <;> rfl
@[simp] theorem Warp.pput_slot (w : Warp) (r l : Nat) (b x : Bool) : (w.pput r l b x).slot = w.slot := by unfold Warp.pput; split <;> rfl
@[simp] theorem Warp.pput_role (w : Warp) (r l : Nat) (b x : Bool) : (w.pput r l b x).role = w.role := by unfold Warp.pput; split <;> rfl
@[simp] theorem Warp.pput_floor (w : Warp) (r l : Nat) (b x : Bool) : (w.pput r l b x).floor = w.floor := by unfold Warp.pput; split <;> rfl
@[simp] theorem Warp.pput_ceil (w : Warp) (r l : Nat) (b x : Bool) : (w.pput r l b x).ceil = w.ceil := by unfold Warp.pput; split <;> rfl
@[simp] theorem Warp.pput_live (w : Warp) (r l : Nat) (b x : Bool) : (w.pput r l b x).live = w.live := by unfold Warp.pput; split <;> rfl
@[simp] theorem Warp.pput_entries (w : Warp) (r l : Nat) (b x : Bool) : (w.pput r l b x).entries = w.entries := by unfold Warp.pput; split <;> rfl
@[simp] theorem Warp.pput_v (w : Warp) (r l : Nat) (b x : Bool) : (w.pput r l b x).v = w.v := by unfold Warp.pput; split <;> rfl
@[simp] theorem Warp.pput_mapped (w : Warp) (r l : Nat) (b x : Bool) : (w.pput r l b x).mapped = w.mapped := by unfold Warp.pput; split <;> rfl
@[simp] theorem Warp.pput_spilled (w : Warp) (r l : Nat) (b x : Bool) : (w.pput r l b x).spilled = w.spilled := by unfold Warp.pput; split <;> rfl
@[simp] theorem Warp.pput_s (w : Warp) (r l : Nat) (b x : Bool) : (w.pput r l b x).s = w.s := by unfold Warp.pput; split <;> rfl
@[simp] theorem Warp.pput_q (w : Warp) (r l : Nat) (b x : Bool) : (w.pput r l b x).q = w.q := by unfold Warp.pput; split <;> rfl
@[simp] theorem Warp.pput_m (w : Warp) (r l : Nat) (b x : Bool) : (w.pput r l b x).m = w.m := by unfold Warp.pput; split <;> rfl
@[simp] theorem Warp.pput_fflags (w : Warp) (r l : Nat) (b x : Bool) : (w.pput r l b x).fflags = w.fflags := by unfold Warp.pput; split <;> rfl
@[simp] theorem Warp.pput_due (w : Warp) (r l : Nat) (b x : Bool) : (w.pput r l b x).due = w.due := by unfold Warp.pput; split <;> rfl
@[simp] theorem Warp.pput_depth (w : Warp) (r l : Nat) (b x : Bool) : (w.pput r l b x).depth = w.depth := by unfold Warp.pput; split <;> rfl
@[simp] theorem Warp.pput_traps (w : Warp) (r l : Nat) (b x : Bool) : (w.pput r l b x).traps = w.traps := by unfold Warp.pput; split <;> rfl
@[simp] theorem Warp.pput_budget (w : Warp) (r l : Nat) (b x : Bool) : (w.pput r l b x).budget = w.budget := by unfold Warp.pput; split <;> rfl
@[simp] theorem Warp.pput_age (w : Warp) (r l : Nat) (b x : Bool) : (w.pput r l b x).age = w.age := by unfold Warp.pput; split <;> rfl
@[simp] theorem Warp.pput_lastIssue (w : Warp) (r l : Nat) (b x : Bool) : (w.pput r l b x).lastIssue = w.lastIssue := by unfold Warp.pput; split <;> rfl
@[simp] theorem Warp.pput_cls (w : Warp) (r l : Nat) (b x : Bool) : (w.pput r l b x).cls = w.cls := by unfold Warp.pput; split <;> rfl
@[simp] theorem Warp.pput_clsHold (w : Warp) (r l : Nat) (b x : Bool) : (w.pput r l b x).clsHold = w.clsHold := by unfold Warp.pput; split <;> rfl
@[simp] theorem Warp.pput_monitor (w : Warp) (r l : Nat) (b x : Bool) : (w.pput r l b x).monitor = w.monitor := by unfold Warp.pput; split <;> rfl
@[simp] theorem Warp.pput_tokens (w : Warp) (r l : Nat) (b x : Bool) : (w.pput r l b x).tokens = w.tokens := by unfold Warp.pput; split <;> rfl
@[simp] theorem Warp.pput_marks (w : Warp) (r l : Nat) (b x : Bool) : (w.pput r l b x).marks = w.marks := by unfold Warp.pput; split <;> rfl
@[simp] theorem Warp.pput_sigs (w : Warp) (r l : Nat) (b x : Bool) : (w.pput r l b x).sigs = w.sigs := by unfold Warp.pput; split <;> rfl
@[simp] theorem Warp.pput_results (w : Warp) (r l : Nat) (b x : Bool) : (w.pput r l b x).results = w.results := by unfold Warp.pput; split <;> rfl
@[simp] theorem Warp.pput_heldFrees (w : Warp) (r l : Nat) (b x : Bool) : (w.pput r l b x).heldFrees = w.heldFrees := by unfold Warp.pput; split <;> rfl
@[simp] theorem Warp.pput_left (w : Warp) (r l : Nat) (b x : Bool) : (w.pput r l b x).left = w.left := by unfold Warp.pput; split <;> rfl
@[simp] theorem Warp.pput_frags (w : Warp) (r l : Nat) (b x : Bool) : (w.pput r l b x).frags = w.frags := by unfold Warp.pput; split <;> rfl
@[simp] theorem Warp.pput_inside (w : Warp) (r l : Nat) (b x : Bool) : (w.pput r l b x).inside = w.inside := by unfold Warp.pput; split <;> rfl
@[simp] theorem Warp.pput_orderCmds (w : Warp) (r l : Nat) (b x : Bool) : (w.pput r l b x).orderCmds = w.orderCmds := by unfold Warp.pput; split <;> rfl
@[simp] theorem Warp.pput_rays (w : Warp) (r l : Nat) (b x : Bool) : (w.pput r l b x).rays = w.rays := by unfold Warp.pput; split <;> rfl
@[simp] theorem Warp.pput_opened (w : Warp) (r l : Nat) (b x : Bool) : (w.pput r l b x).opened = w.opened := by unfold Warp.pput; split <;> rfl
@[simp] theorem Warp.pput_tileDue (w : Warp) (r l : Nat) (b x : Bool) : (w.pput r l b x).tileDue = w.tileDue := by unfold Warp.pput; split <;> rfl

/-! Warp.sput -/

@[simp] theorem Warp.sput_block (w : Warp) (r : Nat) (x : DWord) : (w.sput r x).block = w.block := by unfold Warp.sput; split <;> rfl
@[simp] theorem Warp.sput_idx (w : Warp) (r : Nat) (x : DWord) : (w.sput r x).idx = w.idx := by unfold Warp.sput; split <;> rfl
@[simp] theorem Warp.sput_core (w : Warp) (r : Nat) (x : DWord) : (w.sput r x).core = w.core := by unfold Warp.sput; split <;> rfl
@[simp] theorem Warp.sput_part (w : Warp) (r : Nat) (x : DWord) : (w.sput r x).part = w.part := by unfold Warp.sput; split <;> rfl
@[simp] theorem Warp.sput_slot (w : Warp) (r : Nat) (x : DWord) : (w.sput r x).slot = w.slot := by unfold Warp.sput; split <;> rfl
@[simp] theorem Warp.sput_role (w : Warp) (r : Nat) (x : DWord) : (w.sput r x).role = w.role := by unfold Warp.sput; split <;> rfl
@[simp] theorem Warp.sput_floor (w : Warp) (r : Nat) (x : DWord) : (w.sput r x).floor = w.floor := by unfold Warp.sput; split <;> rfl
@[simp] theorem Warp.sput_ceil (w : Warp) (r : Nat) (x : DWord) : (w.sput r x).ceil = w.ceil := by unfold Warp.sput; split <;> rfl
@[simp] theorem Warp.sput_live (w : Warp) (r : Nat) (x : DWord) : (w.sput r x).live = w.live := by unfold Warp.sput; split <;> rfl
@[simp] theorem Warp.sput_entries (w : Warp) (r : Nat) (x : DWord) : (w.sput r x).entries = w.entries := by unfold Warp.sput; split <;> rfl
@[simp] theorem Warp.sput_v (w : Warp) (r : Nat) (x : DWord) : (w.sput r x).v = w.v := by unfold Warp.sput; split <;> rfl
@[simp] theorem Warp.sput_mapped (w : Warp) (r : Nat) (x : DWord) : (w.sput r x).mapped = w.mapped := by unfold Warp.sput; split <;> rfl
@[simp] theorem Warp.sput_spilled (w : Warp) (r : Nat) (x : DWord) : (w.sput r x).spilled = w.spilled := by unfold Warp.sput; split <;> rfl
@[simp] theorem Warp.sput_pv (w : Warp) (r : Nat) (x : DWord) : (w.sput r x).pv = w.pv := by unfold Warp.sput; split <;> rfl
@[simp] theorem Warp.sput_pp (w : Warp) (r : Nat) (x : DWord) : (w.sput r x).pp = w.pp := by unfold Warp.sput; split <;> rfl
@[simp] theorem Warp.sput_q (w : Warp) (r : Nat) (x : DWord) : (w.sput r x).q = w.q := by unfold Warp.sput; split <;> rfl
@[simp] theorem Warp.sput_m (w : Warp) (r : Nat) (x : DWord) : (w.sput r x).m = w.m := by unfold Warp.sput; split <;> rfl
@[simp] theorem Warp.sput_fflags (w : Warp) (r : Nat) (x : DWord) : (w.sput r x).fflags = w.fflags := by unfold Warp.sput; split <;> rfl
@[simp] theorem Warp.sput_due (w : Warp) (r : Nat) (x : DWord) : (w.sput r x).due = w.due := by unfold Warp.sput; split <;> rfl
@[simp] theorem Warp.sput_depth (w : Warp) (r : Nat) (x : DWord) : (w.sput r x).depth = w.depth := by unfold Warp.sput; split <;> rfl
@[simp] theorem Warp.sput_traps (w : Warp) (r : Nat) (x : DWord) : (w.sput r x).traps = w.traps := by unfold Warp.sput; split <;> rfl
@[simp] theorem Warp.sput_budget (w : Warp) (r : Nat) (x : DWord) : (w.sput r x).budget = w.budget := by unfold Warp.sput; split <;> rfl
@[simp] theorem Warp.sput_age (w : Warp) (r : Nat) (x : DWord) : (w.sput r x).age = w.age := by unfold Warp.sput; split <;> rfl
@[simp] theorem Warp.sput_lastIssue (w : Warp) (r : Nat) (x : DWord) : (w.sput r x).lastIssue = w.lastIssue := by unfold Warp.sput; split <;> rfl
@[simp] theorem Warp.sput_cls (w : Warp) (r : Nat) (x : DWord) : (w.sput r x).cls = w.cls := by unfold Warp.sput; split <;> rfl
@[simp] theorem Warp.sput_clsHold (w : Warp) (r : Nat) (x : DWord) : (w.sput r x).clsHold = w.clsHold := by unfold Warp.sput; split <;> rfl
@[simp] theorem Warp.sput_monitor (w : Warp) (r : Nat) (x : DWord) : (w.sput r x).monitor = w.monitor := by unfold Warp.sput; split <;> rfl
@[simp] theorem Warp.sput_tokens (w : Warp) (r : Nat) (x : DWord) : (w.sput r x).tokens = w.tokens := by unfold Warp.sput; split <;> rfl
@[simp] theorem Warp.sput_marks (w : Warp) (r : Nat) (x : DWord) : (w.sput r x).marks = w.marks := by unfold Warp.sput; split <;> rfl
@[simp] theorem Warp.sput_sigs (w : Warp) (r : Nat) (x : DWord) : (w.sput r x).sigs = w.sigs := by unfold Warp.sput; split <;> rfl
@[simp] theorem Warp.sput_results (w : Warp) (r : Nat) (x : DWord) : (w.sput r x).results = w.results := by unfold Warp.sput; split <;> rfl
@[simp] theorem Warp.sput_heldFrees (w : Warp) (r : Nat) (x : DWord) : (w.sput r x).heldFrees = w.heldFrees := by unfold Warp.sput; split <;> rfl
@[simp] theorem Warp.sput_left (w : Warp) (r : Nat) (x : DWord) : (w.sput r x).left = w.left := by unfold Warp.sput; split <;> rfl
@[simp] theorem Warp.sput_frags (w : Warp) (r : Nat) (x : DWord) : (w.sput r x).frags = w.frags := by unfold Warp.sput; split <;> rfl
@[simp] theorem Warp.sput_inside (w : Warp) (r : Nat) (x : DWord) : (w.sput r x).inside = w.inside := by unfold Warp.sput; split <;> rfl
@[simp] theorem Warp.sput_orderCmds (w : Warp) (r : Nat) (x : DWord) : (w.sput r x).orderCmds = w.orderCmds := by unfold Warp.sput; split <;> rfl
@[simp] theorem Warp.sput_rays (w : Warp) (r : Nat) (x : DWord) : (w.sput r x).rays = w.rays := by unfold Warp.sput; split <;> rfl
@[simp] theorem Warp.sput_opened (w : Warp) (r : Nat) (x : DWord) : (w.sput r x).opened = w.opened := by unfold Warp.sput; split <;> rfl
@[simp] theorem Warp.sput_tileDue (w : Warp) (r : Nat) (x : DWord) : (w.sput r x).tileDue = w.tileDue := by unfold Warp.sput; split <;> rfl

/-! Warp.qput -/

@[simp] theorem Warp.qput_block (w : Warp) (r : Nat) (b : Bool) : (w.qput r b).block = w.block := by unfold Warp.qput; split <;> rfl
@[simp] theorem Warp.qput_idx (w : Warp) (r : Nat) (b : Bool) : (w.qput r b).idx = w.idx := by unfold Warp.qput; split <;> rfl
@[simp] theorem Warp.qput_core (w : Warp) (r : Nat) (b : Bool) : (w.qput r b).core = w.core := by unfold Warp.qput; split <;> rfl
@[simp] theorem Warp.qput_part (w : Warp) (r : Nat) (b : Bool) : (w.qput r b).part = w.part := by unfold Warp.qput; split <;> rfl
@[simp] theorem Warp.qput_slot (w : Warp) (r : Nat) (b : Bool) : (w.qput r b).slot = w.slot := by unfold Warp.qput; split <;> rfl
@[simp] theorem Warp.qput_role (w : Warp) (r : Nat) (b : Bool) : (w.qput r b).role = w.role := by unfold Warp.qput; split <;> rfl
@[simp] theorem Warp.qput_floor (w : Warp) (r : Nat) (b : Bool) : (w.qput r b).floor = w.floor := by unfold Warp.qput; split <;> rfl
@[simp] theorem Warp.qput_ceil (w : Warp) (r : Nat) (b : Bool) : (w.qput r b).ceil = w.ceil := by unfold Warp.qput; split <;> rfl
@[simp] theorem Warp.qput_live (w : Warp) (r : Nat) (b : Bool) : (w.qput r b).live = w.live := by unfold Warp.qput; split <;> rfl
@[simp] theorem Warp.qput_entries (w : Warp) (r : Nat) (b : Bool) : (w.qput r b).entries = w.entries := by unfold Warp.qput; split <;> rfl
@[simp] theorem Warp.qput_v (w : Warp) (r : Nat) (b : Bool) : (w.qput r b).v = w.v := by unfold Warp.qput; split <;> rfl
@[simp] theorem Warp.qput_mapped (w : Warp) (r : Nat) (b : Bool) : (w.qput r b).mapped = w.mapped := by unfold Warp.qput; split <;> rfl
@[simp] theorem Warp.qput_spilled (w : Warp) (r : Nat) (b : Bool) : (w.qput r b).spilled = w.spilled := by unfold Warp.qput; split <;> rfl
@[simp] theorem Warp.qput_pv (w : Warp) (r : Nat) (b : Bool) : (w.qput r b).pv = w.pv := by unfold Warp.qput; split <;> rfl
@[simp] theorem Warp.qput_pp (w : Warp) (r : Nat) (b : Bool) : (w.qput r b).pp = w.pp := by unfold Warp.qput; split <;> rfl
@[simp] theorem Warp.qput_s (w : Warp) (r : Nat) (b : Bool) : (w.qput r b).s = w.s := by unfold Warp.qput; split <;> rfl
@[simp] theorem Warp.qput_m (w : Warp) (r : Nat) (b : Bool) : (w.qput r b).m = w.m := by unfold Warp.qput; split <;> rfl
@[simp] theorem Warp.qput_fflags (w : Warp) (r : Nat) (b : Bool) : (w.qput r b).fflags = w.fflags := by unfold Warp.qput; split <;> rfl
@[simp] theorem Warp.qput_due (w : Warp) (r : Nat) (b : Bool) : (w.qput r b).due = w.due := by unfold Warp.qput; split <;> rfl
@[simp] theorem Warp.qput_depth (w : Warp) (r : Nat) (b : Bool) : (w.qput r b).depth = w.depth := by unfold Warp.qput; split <;> rfl
@[simp] theorem Warp.qput_traps (w : Warp) (r : Nat) (b : Bool) : (w.qput r b).traps = w.traps := by unfold Warp.qput; split <;> rfl
@[simp] theorem Warp.qput_budget (w : Warp) (r : Nat) (b : Bool) : (w.qput r b).budget = w.budget := by unfold Warp.qput; split <;> rfl
@[simp] theorem Warp.qput_age (w : Warp) (r : Nat) (b : Bool) : (w.qput r b).age = w.age := by unfold Warp.qput; split <;> rfl
@[simp] theorem Warp.qput_lastIssue (w : Warp) (r : Nat) (b : Bool) : (w.qput r b).lastIssue = w.lastIssue := by unfold Warp.qput; split <;> rfl
@[simp] theorem Warp.qput_cls (w : Warp) (r : Nat) (b : Bool) : (w.qput r b).cls = w.cls := by unfold Warp.qput; split <;> rfl
@[simp] theorem Warp.qput_clsHold (w : Warp) (r : Nat) (b : Bool) : (w.qput r b).clsHold = w.clsHold := by unfold Warp.qput; split <;> rfl
@[simp] theorem Warp.qput_monitor (w : Warp) (r : Nat) (b : Bool) : (w.qput r b).monitor = w.monitor := by unfold Warp.qput; split <;> rfl
@[simp] theorem Warp.qput_tokens (w : Warp) (r : Nat) (b : Bool) : (w.qput r b).tokens = w.tokens := by unfold Warp.qput; split <;> rfl
@[simp] theorem Warp.qput_marks (w : Warp) (r : Nat) (b : Bool) : (w.qput r b).marks = w.marks := by unfold Warp.qput; split <;> rfl
@[simp] theorem Warp.qput_sigs (w : Warp) (r : Nat) (b : Bool) : (w.qput r b).sigs = w.sigs := by unfold Warp.qput; split <;> rfl
@[simp] theorem Warp.qput_results (w : Warp) (r : Nat) (b : Bool) : (w.qput r b).results = w.results := by unfold Warp.qput; split <;> rfl
@[simp] theorem Warp.qput_heldFrees (w : Warp) (r : Nat) (b : Bool) : (w.qput r b).heldFrees = w.heldFrees := by unfold Warp.qput; split <;> rfl
@[simp] theorem Warp.qput_left (w : Warp) (r : Nat) (b : Bool) : (w.qput r b).left = w.left := by unfold Warp.qput; split <;> rfl
@[simp] theorem Warp.qput_frags (w : Warp) (r : Nat) (b : Bool) : (w.qput r b).frags = w.frags := by unfold Warp.qput; split <;> rfl
@[simp] theorem Warp.qput_inside (w : Warp) (r : Nat) (b : Bool) : (w.qput r b).inside = w.inside := by unfold Warp.qput; split <;> rfl
@[simp] theorem Warp.qput_orderCmds (w : Warp) (r : Nat) (b : Bool) : (w.qput r b).orderCmds = w.orderCmds := by unfold Warp.qput; split <;> rfl
@[simp] theorem Warp.qput_rays (w : Warp) (r : Nat) (b : Bool) : (w.qput r b).rays = w.rays := by unfold Warp.qput; split <;> rfl
@[simp] theorem Warp.qput_opened (w : Warp) (r : Nat) (b : Bool) : (w.qput r b).opened = w.opened := by unfold Warp.qput; split <;> rfl
@[simp] theorem Warp.qput_tileDue (w : Warp) (r : Nat) (b : Bool) : (w.qput r b).tileDue = w.tileDue := by unfold Warp.qput; split <;> rfl

/-! Warp.mput -/

@[simp] theorem Warp.mput_block (w : Warp) (r : Nat) (x : LaneMask) : (w.mput r x).block = w.block := rfl
@[simp] theorem Warp.mput_idx (w : Warp) (r : Nat) (x : LaneMask) : (w.mput r x).idx = w.idx := rfl
@[simp] theorem Warp.mput_core (w : Warp) (r : Nat) (x : LaneMask) : (w.mput r x).core = w.core := rfl
@[simp] theorem Warp.mput_part (w : Warp) (r : Nat) (x : LaneMask) : (w.mput r x).part = w.part := rfl
@[simp] theorem Warp.mput_slot (w : Warp) (r : Nat) (x : LaneMask) : (w.mput r x).slot = w.slot := rfl
@[simp] theorem Warp.mput_role (w : Warp) (r : Nat) (x : LaneMask) : (w.mput r x).role = w.role := rfl
@[simp] theorem Warp.mput_floor (w : Warp) (r : Nat) (x : LaneMask) : (w.mput r x).floor = w.floor := rfl
@[simp] theorem Warp.mput_ceil (w : Warp) (r : Nat) (x : LaneMask) : (w.mput r x).ceil = w.ceil := rfl
@[simp] theorem Warp.mput_live (w : Warp) (r : Nat) (x : LaneMask) : (w.mput r x).live = w.live := rfl
@[simp] theorem Warp.mput_entries (w : Warp) (r : Nat) (x : LaneMask) : (w.mput r x).entries = w.entries := rfl
@[simp] theorem Warp.mput_v (w : Warp) (r : Nat) (x : LaneMask) : (w.mput r x).v = w.v := rfl
@[simp] theorem Warp.mput_mapped (w : Warp) (r : Nat) (x : LaneMask) : (w.mput r x).mapped = w.mapped := rfl
@[simp] theorem Warp.mput_spilled (w : Warp) (r : Nat) (x : LaneMask) : (w.mput r x).spilled = w.spilled := rfl
@[simp] theorem Warp.mput_pv (w : Warp) (r : Nat) (x : LaneMask) : (w.mput r x).pv = w.pv := rfl
@[simp] theorem Warp.mput_pp (w : Warp) (r : Nat) (x : LaneMask) : (w.mput r x).pp = w.pp := rfl
@[simp] theorem Warp.mput_s (w : Warp) (r : Nat) (x : LaneMask) : (w.mput r x).s = w.s := rfl
@[simp] theorem Warp.mput_q (w : Warp) (r : Nat) (x : LaneMask) : (w.mput r x).q = w.q := rfl
@[simp] theorem Warp.mput_fflags (w : Warp) (r : Nat) (x : LaneMask) : (w.mput r x).fflags = w.fflags := rfl
@[simp] theorem Warp.mput_due (w : Warp) (r : Nat) (x : LaneMask) : (w.mput r x).due = w.due := rfl
@[simp] theorem Warp.mput_depth (w : Warp) (r : Nat) (x : LaneMask) : (w.mput r x).depth = w.depth := rfl
@[simp] theorem Warp.mput_traps (w : Warp) (r : Nat) (x : LaneMask) : (w.mput r x).traps = w.traps := rfl
@[simp] theorem Warp.mput_budget (w : Warp) (r : Nat) (x : LaneMask) : (w.mput r x).budget = w.budget := rfl
@[simp] theorem Warp.mput_age (w : Warp) (r : Nat) (x : LaneMask) : (w.mput r x).age = w.age := rfl
@[simp] theorem Warp.mput_lastIssue (w : Warp) (r : Nat) (x : LaneMask) : (w.mput r x).lastIssue = w.lastIssue := rfl
@[simp] theorem Warp.mput_cls (w : Warp) (r : Nat) (x : LaneMask) : (w.mput r x).cls = w.cls := rfl
@[simp] theorem Warp.mput_clsHold (w : Warp) (r : Nat) (x : LaneMask) : (w.mput r x).clsHold = w.clsHold := rfl
@[simp] theorem Warp.mput_monitor (w : Warp) (r : Nat) (x : LaneMask) : (w.mput r x).monitor = w.monitor := rfl
@[simp] theorem Warp.mput_tokens (w : Warp) (r : Nat) (x : LaneMask) : (w.mput r x).tokens = w.tokens := rfl
@[simp] theorem Warp.mput_marks (w : Warp) (r : Nat) (x : LaneMask) : (w.mput r x).marks = w.marks := rfl
@[simp] theorem Warp.mput_sigs (w : Warp) (r : Nat) (x : LaneMask) : (w.mput r x).sigs = w.sigs := rfl
@[simp] theorem Warp.mput_results (w : Warp) (r : Nat) (x : LaneMask) : (w.mput r x).results = w.results := rfl
@[simp] theorem Warp.mput_heldFrees (w : Warp) (r : Nat) (x : LaneMask) : (w.mput r x).heldFrees = w.heldFrees := rfl
@[simp] theorem Warp.mput_left (w : Warp) (r : Nat) (x : LaneMask) : (w.mput r x).left = w.left := rfl
@[simp] theorem Warp.mput_frags (w : Warp) (r : Nat) (x : LaneMask) : (w.mput r x).frags = w.frags := rfl
@[simp] theorem Warp.mput_inside (w : Warp) (r : Nat) (x : LaneMask) : (w.mput r x).inside = w.inside := rfl
@[simp] theorem Warp.mput_orderCmds (w : Warp) (r : Nat) (x : LaneMask) : (w.mput r x).orderCmds = w.orderCmds := rfl
@[simp] theorem Warp.mput_rays (w : Warp) (r : Nat) (x : LaneMask) : (w.mput r x).rays = w.rays := rfl
@[simp] theorem Warp.mput_opened (w : Warp) (r : Nat) (x : LaneMask) : (w.mput r x).opened = w.opened := rfl
@[simp] theorem Warp.mput_tileDue (w : Warp) (r : Nat) (x : LaneMask) : (w.mput r x).tileDue = w.tileDue := rfl

/-! Warp.vpoison -/

@[simp] theorem Warp.vpoison_block (w : Warp) (r l : Nat) : (w.vpoison r l).block = w.block := Warp.vput_block _ _ _ _
@[simp] theorem Warp.vpoison_idx (w : Warp) (r l : Nat) : (w.vpoison r l).idx = w.idx := Warp.vput_idx _ _ _ _
@[simp] theorem Warp.vpoison_core (w : Warp) (r l : Nat) : (w.vpoison r l).core = w.core := Warp.vput_core _ _ _ _
@[simp] theorem Warp.vpoison_part (w : Warp) (r l : Nat) : (w.vpoison r l).part = w.part := Warp.vput_part _ _ _ _
@[simp] theorem Warp.vpoison_slot (w : Warp) (r l : Nat) : (w.vpoison r l).slot = w.slot := Warp.vput_slot _ _ _ _
@[simp] theorem Warp.vpoison_role (w : Warp) (r l : Nat) : (w.vpoison r l).role = w.role := Warp.vput_role _ _ _ _
@[simp] theorem Warp.vpoison_floor (w : Warp) (r l : Nat) : (w.vpoison r l).floor = w.floor := Warp.vput_floor _ _ _ _
@[simp] theorem Warp.vpoison_ceil (w : Warp) (r l : Nat) : (w.vpoison r l).ceil = w.ceil := Warp.vput_ceil _ _ _ _
@[simp] theorem Warp.vpoison_live (w : Warp) (r l : Nat) : (w.vpoison r l).live = w.live := Warp.vput_live _ _ _ _
@[simp] theorem Warp.vpoison_entries (w : Warp) (r l : Nat) : (w.vpoison r l).entries = w.entries := Warp.vput_entries _ _ _ _
@[simp] theorem Warp.vpoison_spilled (w : Warp) (r l : Nat) : (w.vpoison r l).spilled = w.spilled := Warp.vput_spilled _ _ _ _
@[simp] theorem Warp.vpoison_pv (w : Warp) (r l : Nat) : (w.vpoison r l).pv = w.pv := Warp.vput_pv _ _ _ _
@[simp] theorem Warp.vpoison_pp (w : Warp) (r l : Nat) : (w.vpoison r l).pp = w.pp := Warp.vput_pp _ _ _ _
@[simp] theorem Warp.vpoison_s (w : Warp) (r l : Nat) : (w.vpoison r l).s = w.s := Warp.vput_s _ _ _ _
@[simp] theorem Warp.vpoison_q (w : Warp) (r l : Nat) : (w.vpoison r l).q = w.q := Warp.vput_q _ _ _ _
@[simp] theorem Warp.vpoison_m (w : Warp) (r l : Nat) : (w.vpoison r l).m = w.m := Warp.vput_m _ _ _ _
@[simp] theorem Warp.vpoison_fflags (w : Warp) (r l : Nat) : (w.vpoison r l).fflags = w.fflags := Warp.vput_fflags _ _ _ _
@[simp] theorem Warp.vpoison_due (w : Warp) (r l : Nat) : (w.vpoison r l).due = w.due := Warp.vput_due _ _ _ _
@[simp] theorem Warp.vpoison_depth (w : Warp) (r l : Nat) : (w.vpoison r l).depth = w.depth := Warp.vput_depth _ _ _ _
@[simp] theorem Warp.vpoison_traps (w : Warp) (r l : Nat) : (w.vpoison r l).traps = w.traps := Warp.vput_traps _ _ _ _
@[simp] theorem Warp.vpoison_budget (w : Warp) (r l : Nat) : (w.vpoison r l).budget = w.budget := Warp.vput_budget _ _ _ _
@[simp] theorem Warp.vpoison_age (w : Warp) (r l : Nat) : (w.vpoison r l).age = w.age := Warp.vput_age _ _ _ _
@[simp] theorem Warp.vpoison_lastIssue (w : Warp) (r l : Nat) : (w.vpoison r l).lastIssue = w.lastIssue := Warp.vput_lastIssue _ _ _ _
@[simp] theorem Warp.vpoison_cls (w : Warp) (r l : Nat) : (w.vpoison r l).cls = w.cls := Warp.vput_cls _ _ _ _
@[simp] theorem Warp.vpoison_clsHold (w : Warp) (r l : Nat) : (w.vpoison r l).clsHold = w.clsHold := Warp.vput_clsHold _ _ _ _
@[simp] theorem Warp.vpoison_monitor (w : Warp) (r l : Nat) : (w.vpoison r l).monitor = w.monitor := Warp.vput_monitor _ _ _ _
@[simp] theorem Warp.vpoison_tokens (w : Warp) (r l : Nat) : (w.vpoison r l).tokens = w.tokens := Warp.vput_tokens _ _ _ _
@[simp] theorem Warp.vpoison_marks (w : Warp) (r l : Nat) : (w.vpoison r l).marks = w.marks := Warp.vput_marks _ _ _ _
@[simp] theorem Warp.vpoison_sigs (w : Warp) (r l : Nat) : (w.vpoison r l).sigs = w.sigs := Warp.vput_sigs _ _ _ _
@[simp] theorem Warp.vpoison_results (w : Warp) (r l : Nat) : (w.vpoison r l).results = w.results := Warp.vput_results _ _ _ _
@[simp] theorem Warp.vpoison_heldFrees (w : Warp) (r l : Nat) : (w.vpoison r l).heldFrees = w.heldFrees := Warp.vput_heldFrees _ _ _ _
@[simp] theorem Warp.vpoison_left (w : Warp) (r l : Nat) : (w.vpoison r l).left = w.left := Warp.vput_left _ _ _ _
@[simp] theorem Warp.vpoison_frags (w : Warp) (r l : Nat) : (w.vpoison r l).frags = w.frags := Warp.vput_frags _ _ _ _
@[simp] theorem Warp.vpoison_inside (w : Warp) (r l : Nat) : (w.vpoison r l).inside = w.inside := Warp.vput_inside _ _ _ _
@[simp] theorem Warp.vpoison_orderCmds (w : Warp) (r l : Nat) : (w.vpoison r l).orderCmds = w.orderCmds := Warp.vput_orderCmds _ _ _ _
@[simp] theorem Warp.vpoison_rays (w : Warp) (r l : Nat) : (w.vpoison r l).rays = w.rays := Warp.vput_rays _ _ _ _
@[simp] theorem Warp.vpoison_opened (w : Warp) (r l : Nat) : (w.vpoison r l).opened = w.opened := Warp.vput_opened _ _ _ _
@[simp] theorem Warp.vpoison_tileDue (w : Warp) (r l : Nat) : (w.vpoison r l).tileDue = w.tileDue := Warp.vput_tileDue _ _ _ _

/-! Warp.ppoisonAt -/

@[simp] theorem Warp.ppoisonAt_block (w : Warp) (r l : Nat) : (w.ppoisonAt r l).block = w.block := Warp.pput_block _ _ _ _ _
@[simp] theorem Warp.ppoisonAt_idx (w : Warp) (r l : Nat) : (w.ppoisonAt r l).idx = w.idx := Warp.pput_idx _ _ _ _ _
@[simp] theorem Warp.ppoisonAt_core (w : Warp) (r l : Nat) : (w.ppoisonAt r l).core = w.core := Warp.pput_core _ _ _ _ _
@[simp] theorem Warp.ppoisonAt_part (w : Warp) (r l : Nat) : (w.ppoisonAt r l).part = w.part := Warp.pput_part _ _ _ _ _
@[simp] theorem Warp.ppoisonAt_slot (w : Warp) (r l : Nat) : (w.ppoisonAt r l).slot = w.slot := Warp.pput_slot _ _ _ _ _
@[simp] theorem Warp.ppoisonAt_role (w : Warp) (r l : Nat) : (w.ppoisonAt r l).role = w.role := Warp.pput_role _ _ _ _ _
@[simp] theorem Warp.ppoisonAt_floor (w : Warp) (r l : Nat) : (w.ppoisonAt r l).floor = w.floor := Warp.pput_floor _ _ _ _ _
@[simp] theorem Warp.ppoisonAt_ceil (w : Warp) (r l : Nat) : (w.ppoisonAt r l).ceil = w.ceil := Warp.pput_ceil _ _ _ _ _
@[simp] theorem Warp.ppoisonAt_live (w : Warp) (r l : Nat) : (w.ppoisonAt r l).live = w.live := Warp.pput_live _ _ _ _ _
@[simp] theorem Warp.ppoisonAt_entries (w : Warp) (r l : Nat) : (w.ppoisonAt r l).entries = w.entries := Warp.pput_entries _ _ _ _ _
@[simp] theorem Warp.ppoisonAt_v (w : Warp) (r l : Nat) : (w.ppoisonAt r l).v = w.v := Warp.pput_v _ _ _ _ _
@[simp] theorem Warp.ppoisonAt_mapped (w : Warp) (r l : Nat) : (w.ppoisonAt r l).mapped = w.mapped := Warp.pput_mapped _ _ _ _ _
@[simp] theorem Warp.ppoisonAt_spilled (w : Warp) (r l : Nat) : (w.ppoisonAt r l).spilled = w.spilled := Warp.pput_spilled _ _ _ _ _
@[simp] theorem Warp.ppoisonAt_s (w : Warp) (r l : Nat) : (w.ppoisonAt r l).s = w.s := Warp.pput_s _ _ _ _ _
@[simp] theorem Warp.ppoisonAt_q (w : Warp) (r l : Nat) : (w.ppoisonAt r l).q = w.q := Warp.pput_q _ _ _ _ _
@[simp] theorem Warp.ppoisonAt_m (w : Warp) (r l : Nat) : (w.ppoisonAt r l).m = w.m := Warp.pput_m _ _ _ _ _
@[simp] theorem Warp.ppoisonAt_fflags (w : Warp) (r l : Nat) : (w.ppoisonAt r l).fflags = w.fflags := Warp.pput_fflags _ _ _ _ _
@[simp] theorem Warp.ppoisonAt_due (w : Warp) (r l : Nat) : (w.ppoisonAt r l).due = w.due := Warp.pput_due _ _ _ _ _
@[simp] theorem Warp.ppoisonAt_depth (w : Warp) (r l : Nat) : (w.ppoisonAt r l).depth = w.depth := Warp.pput_depth _ _ _ _ _
@[simp] theorem Warp.ppoisonAt_traps (w : Warp) (r l : Nat) : (w.ppoisonAt r l).traps = w.traps := Warp.pput_traps _ _ _ _ _
@[simp] theorem Warp.ppoisonAt_budget (w : Warp) (r l : Nat) : (w.ppoisonAt r l).budget = w.budget := Warp.pput_budget _ _ _ _ _
@[simp] theorem Warp.ppoisonAt_age (w : Warp) (r l : Nat) : (w.ppoisonAt r l).age = w.age := Warp.pput_age _ _ _ _ _
@[simp] theorem Warp.ppoisonAt_lastIssue (w : Warp) (r l : Nat) : (w.ppoisonAt r l).lastIssue = w.lastIssue := Warp.pput_lastIssue _ _ _ _ _
@[simp] theorem Warp.ppoisonAt_cls (w : Warp) (r l : Nat) : (w.ppoisonAt r l).cls = w.cls := Warp.pput_cls _ _ _ _ _
@[simp] theorem Warp.ppoisonAt_clsHold (w : Warp) (r l : Nat) : (w.ppoisonAt r l).clsHold = w.clsHold := Warp.pput_clsHold _ _ _ _ _
@[simp] theorem Warp.ppoisonAt_monitor (w : Warp) (r l : Nat) : (w.ppoisonAt r l).monitor = w.monitor := Warp.pput_monitor _ _ _ _ _
@[simp] theorem Warp.ppoisonAt_tokens (w : Warp) (r l : Nat) : (w.ppoisonAt r l).tokens = w.tokens := Warp.pput_tokens _ _ _ _ _
@[simp] theorem Warp.ppoisonAt_marks (w : Warp) (r l : Nat) : (w.ppoisonAt r l).marks = w.marks := Warp.pput_marks _ _ _ _ _
@[simp] theorem Warp.ppoisonAt_sigs (w : Warp) (r l : Nat) : (w.ppoisonAt r l).sigs = w.sigs := Warp.pput_sigs _ _ _ _ _
@[simp] theorem Warp.ppoisonAt_results (w : Warp) (r l : Nat) : (w.ppoisonAt r l).results = w.results := Warp.pput_results _ _ _ _ _
@[simp] theorem Warp.ppoisonAt_heldFrees (w : Warp) (r l : Nat) : (w.ppoisonAt r l).heldFrees = w.heldFrees := Warp.pput_heldFrees _ _ _ _ _
@[simp] theorem Warp.ppoisonAt_left (w : Warp) (r l : Nat) : (w.ppoisonAt r l).left = w.left := Warp.pput_left _ _ _ _ _
@[simp] theorem Warp.ppoisonAt_frags (w : Warp) (r l : Nat) : (w.ppoisonAt r l).frags = w.frags := Warp.pput_frags _ _ _ _ _
@[simp] theorem Warp.ppoisonAt_inside (w : Warp) (r l : Nat) : (w.ppoisonAt r l).inside = w.inside := Warp.pput_inside _ _ _ _ _
@[simp] theorem Warp.ppoisonAt_orderCmds (w : Warp) (r l : Nat) : (w.ppoisonAt r l).orderCmds = w.orderCmds := Warp.pput_orderCmds _ _ _ _ _
@[simp] theorem Warp.ppoisonAt_rays (w : Warp) (r l : Nat) : (w.ppoisonAt r l).rays = w.rays := Warp.pput_rays _ _ _ _ _
@[simp] theorem Warp.ppoisonAt_opened (w : Warp) (r l : Nat) : (w.ppoisonAt r l).opened = w.opened := Warp.pput_opened _ _ _ _ _
@[simp] theorem Warp.ppoisonAt_tileDue (w : Warp) (r l : Nat) : (w.ppoisonAt r l).tileDue = w.tileDue := Warp.pput_tileDue _ _ _ _ _

/-! Warp.setDepth -/

@[simp] theorem Warp.setDepth_block (w : Warp) (l d : Nat) : (w.setDepth l d).block = w.block := rfl
@[simp] theorem Warp.setDepth_idx (w : Warp) (l d : Nat) : (w.setDepth l d).idx = w.idx := rfl
@[simp] theorem Warp.setDepth_core (w : Warp) (l d : Nat) : (w.setDepth l d).core = w.core := rfl
@[simp] theorem Warp.setDepth_part (w : Warp) (l d : Nat) : (w.setDepth l d).part = w.part := rfl
@[simp] theorem Warp.setDepth_slot (w : Warp) (l d : Nat) : (w.setDepth l d).slot = w.slot := rfl
@[simp] theorem Warp.setDepth_role (w : Warp) (l d : Nat) : (w.setDepth l d).role = w.role := rfl
@[simp] theorem Warp.setDepth_floor (w : Warp) (l d : Nat) : (w.setDepth l d).floor = w.floor := rfl
@[simp] theorem Warp.setDepth_ceil (w : Warp) (l d : Nat) : (w.setDepth l d).ceil = w.ceil := rfl
@[simp] theorem Warp.setDepth_live (w : Warp) (l d : Nat) : (w.setDepth l d).live = w.live := rfl
@[simp] theorem Warp.setDepth_entries (w : Warp) (l d : Nat) : (w.setDepth l d).entries = w.entries := rfl
@[simp] theorem Warp.setDepth_v (w : Warp) (l d : Nat) : (w.setDepth l d).v = w.v := rfl
@[simp] theorem Warp.setDepth_mapped (w : Warp) (l d : Nat) : (w.setDepth l d).mapped = w.mapped := rfl
@[simp] theorem Warp.setDepth_spilled (w : Warp) (l d : Nat) : (w.setDepth l d).spilled = w.spilled := rfl
@[simp] theorem Warp.setDepth_pv (w : Warp) (l d : Nat) : (w.setDepth l d).pv = w.pv := rfl
@[simp] theorem Warp.setDepth_pp (w : Warp) (l d : Nat) : (w.setDepth l d).pp = w.pp := rfl
@[simp] theorem Warp.setDepth_s (w : Warp) (l d : Nat) : (w.setDepth l d).s = w.s := rfl
@[simp] theorem Warp.setDepth_q (w : Warp) (l d : Nat) : (w.setDepth l d).q = w.q := rfl
@[simp] theorem Warp.setDepth_m (w : Warp) (l d : Nat) : (w.setDepth l d).m = w.m := rfl
@[simp] theorem Warp.setDepth_fflags (w : Warp) (l d : Nat) : (w.setDepth l d).fflags = w.fflags := rfl
@[simp] theorem Warp.setDepth_due (w : Warp) (l d : Nat) : (w.setDepth l d).due = w.due := rfl
@[simp] theorem Warp.setDepth_traps (w : Warp) (l d : Nat) : (w.setDepth l d).traps = w.traps := rfl
@[simp] theorem Warp.setDepth_budget (w : Warp) (l d : Nat) : (w.setDepth l d).budget = w.budget := rfl
@[simp] theorem Warp.setDepth_age (w : Warp) (l d : Nat) : (w.setDepth l d).age = w.age := rfl
@[simp] theorem Warp.setDepth_lastIssue (w : Warp) (l d : Nat) : (w.setDepth l d).lastIssue = w.lastIssue := rfl
@[simp] theorem Warp.setDepth_cls (w : Warp) (l d : Nat) : (w.setDepth l d).cls = w.cls := rfl
@[simp] theorem Warp.setDepth_clsHold (w : Warp) (l d : Nat) : (w.setDepth l d).clsHold = w.clsHold := rfl
@[simp] theorem Warp.setDepth_monitor (w : Warp) (l d : Nat) : (w.setDepth l d).monitor = w.monitor := rfl
@[simp] theorem Warp.setDepth_tokens (w : Warp) (l d : Nat) : (w.setDepth l d).tokens = w.tokens := rfl
@[simp] theorem Warp.setDepth_marks (w : Warp) (l d : Nat) : (w.setDepth l d).marks = w.marks := rfl
@[simp] theorem Warp.setDepth_sigs (w : Warp) (l d : Nat) : (w.setDepth l d).sigs = w.sigs := rfl
@[simp] theorem Warp.setDepth_results (w : Warp) (l d : Nat) : (w.setDepth l d).results = w.results := rfl
@[simp] theorem Warp.setDepth_heldFrees (w : Warp) (l d : Nat) : (w.setDepth l d).heldFrees = w.heldFrees := rfl
@[simp] theorem Warp.setDepth_left (w : Warp) (l d : Nat) : (w.setDepth l d).left = w.left := rfl
@[simp] theorem Warp.setDepth_frags (w : Warp) (l d : Nat) : (w.setDepth l d).frags = w.frags := rfl
@[simp] theorem Warp.setDepth_inside (w : Warp) (l d : Nat) : (w.setDepth l d).inside = w.inside := rfl
@[simp] theorem Warp.setDepth_orderCmds (w : Warp) (l d : Nat) : (w.setDepth l d).orderCmds = w.orderCmds := rfl
@[simp] theorem Warp.setDepth_rays (w : Warp) (l d : Nat) : (w.setDepth l d).rays = w.rays := rfl
@[simp] theorem Warp.setDepth_opened (w : Warp) (l d : Nat) : (w.setDepth l d).opened = w.opened := rfl
@[simp] theorem Warp.setDepth_tileDue (w : Warp) (l d : Nat) : (w.setDepth l d).tileDue = w.tileDue := rfl

/-! Warp.setTrap -/

@[simp] theorem Warp.setTrap_block (w : Warp) (l : Nat) (t : LaneTrap) : (w.setTrap l t).block = w.block := rfl
@[simp] theorem Warp.setTrap_idx (w : Warp) (l : Nat) (t : LaneTrap) : (w.setTrap l t).idx = w.idx := rfl
@[simp] theorem Warp.setTrap_core (w : Warp) (l : Nat) (t : LaneTrap) : (w.setTrap l t).core = w.core := rfl
@[simp] theorem Warp.setTrap_part (w : Warp) (l : Nat) (t : LaneTrap) : (w.setTrap l t).part = w.part := rfl
@[simp] theorem Warp.setTrap_slot (w : Warp) (l : Nat) (t : LaneTrap) : (w.setTrap l t).slot = w.slot := rfl
@[simp] theorem Warp.setTrap_role (w : Warp) (l : Nat) (t : LaneTrap) : (w.setTrap l t).role = w.role := rfl
@[simp] theorem Warp.setTrap_floor (w : Warp) (l : Nat) (t : LaneTrap) : (w.setTrap l t).floor = w.floor := rfl
@[simp] theorem Warp.setTrap_ceil (w : Warp) (l : Nat) (t : LaneTrap) : (w.setTrap l t).ceil = w.ceil := rfl
@[simp] theorem Warp.setTrap_live (w : Warp) (l : Nat) (t : LaneTrap) : (w.setTrap l t).live = w.live := rfl
@[simp] theorem Warp.setTrap_entries (w : Warp) (l : Nat) (t : LaneTrap) : (w.setTrap l t).entries = w.entries := rfl
@[simp] theorem Warp.setTrap_v (w : Warp) (l : Nat) (t : LaneTrap) : (w.setTrap l t).v = w.v := rfl
@[simp] theorem Warp.setTrap_mapped (w : Warp) (l : Nat) (t : LaneTrap) : (w.setTrap l t).mapped = w.mapped := rfl
@[simp] theorem Warp.setTrap_spilled (w : Warp) (l : Nat) (t : LaneTrap) : (w.setTrap l t).spilled = w.spilled := rfl
@[simp] theorem Warp.setTrap_pv (w : Warp) (l : Nat) (t : LaneTrap) : (w.setTrap l t).pv = w.pv := rfl
@[simp] theorem Warp.setTrap_pp (w : Warp) (l : Nat) (t : LaneTrap) : (w.setTrap l t).pp = w.pp := rfl
@[simp] theorem Warp.setTrap_s (w : Warp) (l : Nat) (t : LaneTrap) : (w.setTrap l t).s = w.s := rfl
@[simp] theorem Warp.setTrap_q (w : Warp) (l : Nat) (t : LaneTrap) : (w.setTrap l t).q = w.q := rfl
@[simp] theorem Warp.setTrap_m (w : Warp) (l : Nat) (t : LaneTrap) : (w.setTrap l t).m = w.m := rfl
@[simp] theorem Warp.setTrap_fflags (w : Warp) (l : Nat) (t : LaneTrap) : (w.setTrap l t).fflags = w.fflags := rfl
@[simp] theorem Warp.setTrap_due (w : Warp) (l : Nat) (t : LaneTrap) : (w.setTrap l t).due = w.due := rfl
@[simp] theorem Warp.setTrap_depth (w : Warp) (l : Nat) (t : LaneTrap) : (w.setTrap l t).depth = w.depth := rfl
@[simp] theorem Warp.setTrap_budget (w : Warp) (l : Nat) (t : LaneTrap) : (w.setTrap l t).budget = w.budget := rfl
@[simp] theorem Warp.setTrap_age (w : Warp) (l : Nat) (t : LaneTrap) : (w.setTrap l t).age = w.age := rfl
@[simp] theorem Warp.setTrap_lastIssue (w : Warp) (l : Nat) (t : LaneTrap) : (w.setTrap l t).lastIssue = w.lastIssue := rfl
@[simp] theorem Warp.setTrap_cls (w : Warp) (l : Nat) (t : LaneTrap) : (w.setTrap l t).cls = w.cls := rfl
@[simp] theorem Warp.setTrap_clsHold (w : Warp) (l : Nat) (t : LaneTrap) : (w.setTrap l t).clsHold = w.clsHold := rfl
@[simp] theorem Warp.setTrap_monitor (w : Warp) (l : Nat) (t : LaneTrap) : (w.setTrap l t).monitor = w.monitor := rfl
@[simp] theorem Warp.setTrap_tokens (w : Warp) (l : Nat) (t : LaneTrap) : (w.setTrap l t).tokens = w.tokens := rfl
@[simp] theorem Warp.setTrap_marks (w : Warp) (l : Nat) (t : LaneTrap) : (w.setTrap l t).marks = w.marks := rfl
@[simp] theorem Warp.setTrap_sigs (w : Warp) (l : Nat) (t : LaneTrap) : (w.setTrap l t).sigs = w.sigs := rfl
@[simp] theorem Warp.setTrap_results (w : Warp) (l : Nat) (t : LaneTrap) : (w.setTrap l t).results = w.results := rfl
@[simp] theorem Warp.setTrap_heldFrees (w : Warp) (l : Nat) (t : LaneTrap) : (w.setTrap l t).heldFrees = w.heldFrees := rfl
@[simp] theorem Warp.setTrap_left (w : Warp) (l : Nat) (t : LaneTrap) : (w.setTrap l t).left = w.left := rfl
@[simp] theorem Warp.setTrap_frags (w : Warp) (l : Nat) (t : LaneTrap) : (w.setTrap l t).frags = w.frags := rfl
@[simp] theorem Warp.setTrap_inside (w : Warp) (l : Nat) (t : LaneTrap) : (w.setTrap l t).inside = w.inside := rfl
@[simp] theorem Warp.setTrap_orderCmds (w : Warp) (l : Nat) (t : LaneTrap) : (w.setTrap l t).orderCmds = w.orderCmds := rfl
@[simp] theorem Warp.setTrap_rays (w : Warp) (l : Nat) (t : LaneTrap) : (w.setTrap l t).rays = w.rays := rfl
@[simp] theorem Warp.setTrap_opened (w : Warp) (l : Nat) (t : LaneTrap) : (w.setTrap l t).opened = w.opened := rfl
@[simp] theorem Warp.setTrap_tileDue (w : Warp) (l : Nat) (t : LaneTrap) : (w.setTrap l t).tileDue = w.tileDue := rfl

/-! Warp.merge -/

@[simp] theorem Warp.merge_block (w : Warp) : (w.merge).block = w.block := rfl
@[simp] theorem Warp.merge_idx (w : Warp) : (w.merge).idx = w.idx := rfl
@[simp] theorem Warp.merge_core (w : Warp) : (w.merge).core = w.core := rfl
@[simp] theorem Warp.merge_part (w : Warp) : (w.merge).part = w.part := rfl
@[simp] theorem Warp.merge_slot (w : Warp) : (w.merge).slot = w.slot := rfl
@[simp] theorem Warp.merge_role (w : Warp) : (w.merge).role = w.role := rfl
@[simp] theorem Warp.merge_floor (w : Warp) : (w.merge).floor = w.floor := rfl
@[simp] theorem Warp.merge_ceil (w : Warp) : (w.merge).ceil = w.ceil := rfl
@[simp] theorem Warp.merge_live (w : Warp) : (w.merge).live = w.live := rfl
@[simp] theorem Warp.merge_v (w : Warp) : (w.merge).v = w.v := rfl
@[simp] theorem Warp.merge_mapped (w : Warp) : (w.merge).mapped = w.mapped := rfl
@[simp] theorem Warp.merge_spilled (w : Warp) : (w.merge).spilled = w.spilled := rfl
@[simp] theorem Warp.merge_pv (w : Warp) : (w.merge).pv = w.pv := rfl
@[simp] theorem Warp.merge_pp (w : Warp) : (w.merge).pp = w.pp := rfl
@[simp] theorem Warp.merge_s (w : Warp) : (w.merge).s = w.s := rfl
@[simp] theorem Warp.merge_q (w : Warp) : (w.merge).q = w.q := rfl
@[simp] theorem Warp.merge_m (w : Warp) : (w.merge).m = w.m := rfl
@[simp] theorem Warp.merge_fflags (w : Warp) : (w.merge).fflags = w.fflags := rfl
@[simp] theorem Warp.merge_due (w : Warp) : (w.merge).due = w.due := rfl
@[simp] theorem Warp.merge_depth (w : Warp) : (w.merge).depth = w.depth := rfl
@[simp] theorem Warp.merge_traps (w : Warp) : (w.merge).traps = w.traps := rfl
@[simp] theorem Warp.merge_budget (w : Warp) : (w.merge).budget = w.budget := rfl
@[simp] theorem Warp.merge_age (w : Warp) : (w.merge).age = w.age := rfl
@[simp] theorem Warp.merge_lastIssue (w : Warp) : (w.merge).lastIssue = w.lastIssue := rfl
@[simp] theorem Warp.merge_cls (w : Warp) : (w.merge).cls = w.cls := rfl
@[simp] theorem Warp.merge_clsHold (w : Warp) : (w.merge).clsHold = w.clsHold := rfl
@[simp] theorem Warp.merge_monitor (w : Warp) : (w.merge).monitor = w.monitor := rfl
@[simp] theorem Warp.merge_tokens (w : Warp) : (w.merge).tokens = w.tokens := rfl
@[simp] theorem Warp.merge_marks (w : Warp) : (w.merge).marks = w.marks := rfl
@[simp] theorem Warp.merge_sigs (w : Warp) : (w.merge).sigs = w.sigs := rfl
@[simp] theorem Warp.merge_results (w : Warp) : (w.merge).results = w.results := rfl
@[simp] theorem Warp.merge_heldFrees (w : Warp) : (w.merge).heldFrees = w.heldFrees := rfl
@[simp] theorem Warp.merge_left (w : Warp) : (w.merge).left = w.left := rfl
@[simp] theorem Warp.merge_frags (w : Warp) : (w.merge).frags = w.frags := rfl
@[simp] theorem Warp.merge_inside (w : Warp) : (w.merge).inside = w.inside := rfl
@[simp] theorem Warp.merge_orderCmds (w : Warp) : (w.merge).orderCmds = w.orderCmds := rfl
@[simp] theorem Warp.merge_rays (w : Warp) : (w.merge).rays = w.rays := rfl
@[simp] theorem Warp.merge_opened (w : Warp) : (w.merge).opened = w.opened := rfl
@[simp] theorem Warp.merge_tileDue (w : Warp) : (w.merge).tileDue = w.tileDue := rfl

/-! Warp.modEntry -/

@[simp] theorem Warp.modEntry_block (w : Warp) (i : Nat) (f : Entry → Entry) : (w.modEntry i f).block = w.block := rfl
@[simp] theorem Warp.modEntry_idx (w : Warp) (i : Nat) (f : Entry → Entry) : (w.modEntry i f).idx = w.idx := rfl
@[simp] theorem Warp.modEntry_core (w : Warp) (i : Nat) (f : Entry → Entry) : (w.modEntry i f).core = w.core := rfl
@[simp] theorem Warp.modEntry_part (w : Warp) (i : Nat) (f : Entry → Entry) : (w.modEntry i f).part = w.part := rfl
@[simp] theorem Warp.modEntry_slot (w : Warp) (i : Nat) (f : Entry → Entry) : (w.modEntry i f).slot = w.slot := rfl
@[simp] theorem Warp.modEntry_role (w : Warp) (i : Nat) (f : Entry → Entry) : (w.modEntry i f).role = w.role := rfl
@[simp] theorem Warp.modEntry_floor (w : Warp) (i : Nat) (f : Entry → Entry) : (w.modEntry i f).floor = w.floor := rfl
@[simp] theorem Warp.modEntry_ceil (w : Warp) (i : Nat) (f : Entry → Entry) : (w.modEntry i f).ceil = w.ceil := rfl
@[simp] theorem Warp.modEntry_live (w : Warp) (i : Nat) (f : Entry → Entry) : (w.modEntry i f).live = w.live := rfl
@[simp] theorem Warp.modEntry_v (w : Warp) (i : Nat) (f : Entry → Entry) : (w.modEntry i f).v = w.v := rfl
@[simp] theorem Warp.modEntry_mapped (w : Warp) (i : Nat) (f : Entry → Entry) : (w.modEntry i f).mapped = w.mapped := rfl
@[simp] theorem Warp.modEntry_spilled (w : Warp) (i : Nat) (f : Entry → Entry) : (w.modEntry i f).spilled = w.spilled := rfl
@[simp] theorem Warp.modEntry_pv (w : Warp) (i : Nat) (f : Entry → Entry) : (w.modEntry i f).pv = w.pv := rfl
@[simp] theorem Warp.modEntry_pp (w : Warp) (i : Nat) (f : Entry → Entry) : (w.modEntry i f).pp = w.pp := rfl
@[simp] theorem Warp.modEntry_s (w : Warp) (i : Nat) (f : Entry → Entry) : (w.modEntry i f).s = w.s := rfl
@[simp] theorem Warp.modEntry_q (w : Warp) (i : Nat) (f : Entry → Entry) : (w.modEntry i f).q = w.q := rfl
@[simp] theorem Warp.modEntry_m (w : Warp) (i : Nat) (f : Entry → Entry) : (w.modEntry i f).m = w.m := rfl
@[simp] theorem Warp.modEntry_fflags (w : Warp) (i : Nat) (f : Entry → Entry) : (w.modEntry i f).fflags = w.fflags := rfl
@[simp] theorem Warp.modEntry_due (w : Warp) (i : Nat) (f : Entry → Entry) : (w.modEntry i f).due = w.due := rfl
@[simp] theorem Warp.modEntry_depth (w : Warp) (i : Nat) (f : Entry → Entry) : (w.modEntry i f).depth = w.depth := rfl
@[simp] theorem Warp.modEntry_traps (w : Warp) (i : Nat) (f : Entry → Entry) : (w.modEntry i f).traps = w.traps := rfl
@[simp] theorem Warp.modEntry_budget (w : Warp) (i : Nat) (f : Entry → Entry) : (w.modEntry i f).budget = w.budget := rfl
@[simp] theorem Warp.modEntry_age (w : Warp) (i : Nat) (f : Entry → Entry) : (w.modEntry i f).age = w.age := rfl
@[simp] theorem Warp.modEntry_lastIssue (w : Warp) (i : Nat) (f : Entry → Entry) : (w.modEntry i f).lastIssue = w.lastIssue := rfl
@[simp] theorem Warp.modEntry_cls (w : Warp) (i : Nat) (f : Entry → Entry) : (w.modEntry i f).cls = w.cls := rfl
@[simp] theorem Warp.modEntry_clsHold (w : Warp) (i : Nat) (f : Entry → Entry) : (w.modEntry i f).clsHold = w.clsHold := rfl
@[simp] theorem Warp.modEntry_monitor (w : Warp) (i : Nat) (f : Entry → Entry) : (w.modEntry i f).monitor = w.monitor := rfl
@[simp] theorem Warp.modEntry_tokens (w : Warp) (i : Nat) (f : Entry → Entry) : (w.modEntry i f).tokens = w.tokens := rfl
@[simp] theorem Warp.modEntry_marks (w : Warp) (i : Nat) (f : Entry → Entry) : (w.modEntry i f).marks = w.marks := rfl
@[simp] theorem Warp.modEntry_sigs (w : Warp) (i : Nat) (f : Entry → Entry) : (w.modEntry i f).sigs = w.sigs := rfl
@[simp] theorem Warp.modEntry_results (w : Warp) (i : Nat) (f : Entry → Entry) : (w.modEntry i f).results = w.results := rfl
@[simp] theorem Warp.modEntry_heldFrees (w : Warp) (i : Nat) (f : Entry → Entry) : (w.modEntry i f).heldFrees = w.heldFrees := rfl
@[simp] theorem Warp.modEntry_left (w : Warp) (i : Nat) (f : Entry → Entry) : (w.modEntry i f).left = w.left := rfl
@[simp] theorem Warp.modEntry_frags (w : Warp) (i : Nat) (f : Entry → Entry) : (w.modEntry i f).frags = w.frags := rfl
@[simp] theorem Warp.modEntry_inside (w : Warp) (i : Nat) (f : Entry → Entry) : (w.modEntry i f).inside = w.inside := rfl
@[simp] theorem Warp.modEntry_orderCmds (w : Warp) (i : Nat) (f : Entry → Entry) : (w.modEntry i f).orderCmds = w.orderCmds := rfl
@[simp] theorem Warp.modEntry_rays (w : Warp) (i : Nat) (f : Entry → Entry) : (w.modEntry i f).rays = w.rays := rfl
@[simp] theorem Warp.modEntry_opened (w : Warp) (i : Nat) (f : Entry → Entry) : (w.modEntry i f).opened = w.opened := rfl
@[simp] theorem Warp.modEntry_tileDue (w : Warp) (i : Nat) (f : Entry → Entry) : (w.modEntry i f).tileDue = w.tileDue := rfl

/-! Warp.dropLanes -/

@[simp] theorem Warp.dropLanes_block (w : Warp) (m : LaneMask) : (w.dropLanes m).block = w.block := rfl
@[simp] theorem Warp.dropLanes_idx (w : Warp) (m : LaneMask) : (w.dropLanes m).idx = w.idx := rfl
@[simp] theorem Warp.dropLanes_core (w : Warp) (m : LaneMask) : (w.dropLanes m).core = w.core := rfl
@[simp] theorem Warp.dropLanes_part (w : Warp) (m : LaneMask) : (w.dropLanes m).part = w.part := rfl
@[simp] theorem Warp.dropLanes_slot (w : Warp) (m : LaneMask) : (w.dropLanes m).slot = w.slot := rfl
@[simp] theorem Warp.dropLanes_role (w : Warp) (m : LaneMask) : (w.dropLanes m).role = w.role := rfl
@[simp] theorem Warp.dropLanes_floor (w : Warp) (m : LaneMask) : (w.dropLanes m).floor = w.floor := rfl
@[simp] theorem Warp.dropLanes_ceil (w : Warp) (m : LaneMask) : (w.dropLanes m).ceil = w.ceil := rfl
@[simp] theorem Warp.dropLanes_live (w : Warp) (m : LaneMask) : (w.dropLanes m).live = w.live := rfl
@[simp] theorem Warp.dropLanes_v (w : Warp) (m : LaneMask) : (w.dropLanes m).v = w.v := rfl
@[simp] theorem Warp.dropLanes_mapped (w : Warp) (m : LaneMask) : (w.dropLanes m).mapped = w.mapped := rfl
@[simp] theorem Warp.dropLanes_spilled (w : Warp) (m : LaneMask) : (w.dropLanes m).spilled = w.spilled := rfl
@[simp] theorem Warp.dropLanes_pv (w : Warp) (m : LaneMask) : (w.dropLanes m).pv = w.pv := rfl
@[simp] theorem Warp.dropLanes_pp (w : Warp) (m : LaneMask) : (w.dropLanes m).pp = w.pp := rfl
@[simp] theorem Warp.dropLanes_s (w : Warp) (m : LaneMask) : (w.dropLanes m).s = w.s := rfl
@[simp] theorem Warp.dropLanes_q (w : Warp) (m : LaneMask) : (w.dropLanes m).q = w.q := rfl
@[simp] theorem Warp.dropLanes_m (w : Warp) (m : LaneMask) : (w.dropLanes m).m = w.m := rfl
@[simp] theorem Warp.dropLanes_fflags (w : Warp) (m : LaneMask) : (w.dropLanes m).fflags = w.fflags := rfl
@[simp] theorem Warp.dropLanes_due (w : Warp) (m : LaneMask) : (w.dropLanes m).due = w.due := rfl
@[simp] theorem Warp.dropLanes_depth (w : Warp) (m : LaneMask) : (w.dropLanes m).depth = w.depth := rfl
@[simp] theorem Warp.dropLanes_traps (w : Warp) (m : LaneMask) : (w.dropLanes m).traps = w.traps := rfl
@[simp] theorem Warp.dropLanes_budget (w : Warp) (m : LaneMask) : (w.dropLanes m).budget = w.budget := rfl
@[simp] theorem Warp.dropLanes_age (w : Warp) (m : LaneMask) : (w.dropLanes m).age = w.age := rfl
@[simp] theorem Warp.dropLanes_lastIssue (w : Warp) (m : LaneMask) : (w.dropLanes m).lastIssue = w.lastIssue := rfl
@[simp] theorem Warp.dropLanes_cls (w : Warp) (m : LaneMask) : (w.dropLanes m).cls = w.cls := rfl
@[simp] theorem Warp.dropLanes_clsHold (w : Warp) (m : LaneMask) : (w.dropLanes m).clsHold = w.clsHold := rfl
@[simp] theorem Warp.dropLanes_monitor (w : Warp) (m : LaneMask) : (w.dropLanes m).monitor = w.monitor := rfl
@[simp] theorem Warp.dropLanes_tokens (w : Warp) (m : LaneMask) : (w.dropLanes m).tokens = w.tokens := rfl
@[simp] theorem Warp.dropLanes_marks (w : Warp) (m : LaneMask) : (w.dropLanes m).marks = w.marks := rfl
@[simp] theorem Warp.dropLanes_sigs (w : Warp) (m : LaneMask) : (w.dropLanes m).sigs = w.sigs := rfl
@[simp] theorem Warp.dropLanes_results (w : Warp) (m : LaneMask) : (w.dropLanes m).results = w.results := rfl
@[simp] theorem Warp.dropLanes_heldFrees (w : Warp) (m : LaneMask) : (w.dropLanes m).heldFrees = w.heldFrees := rfl
@[simp] theorem Warp.dropLanes_left (w : Warp) (m : LaneMask) : (w.dropLanes m).left = w.left := rfl
@[simp] theorem Warp.dropLanes_frags (w : Warp) (m : LaneMask) : (w.dropLanes m).frags = w.frags := rfl
@[simp] theorem Warp.dropLanes_inside (w : Warp) (m : LaneMask) : (w.dropLanes m).inside = w.inside := rfl
@[simp] theorem Warp.dropLanes_orderCmds (w : Warp) (m : LaneMask) : (w.dropLanes m).orderCmds = w.orderCmds := rfl
@[simp] theorem Warp.dropLanes_rays (w : Warp) (m : LaneMask) : (w.dropLanes m).rays = w.rays := rfl
@[simp] theorem Warp.dropLanes_opened (w : Warp) (m : LaneMask) : (w.dropLanes m).opened = w.opened := rfl
@[simp] theorem Warp.dropLanes_tileDue (w : Warp) (m : LaneMask) : (w.dropLanes m).tileDue = w.tileDue := rfl

/-! Warp.vputN -/

@[simp] theorem Warp.vputN_block (w : Warp) (r n l x : Nat) (b : Bool) : (w.vputN r n l x b).block = w.block := by
  induction n generalizing w r x with
  | zero => rfl
  | succ k ih => simp [Warp.vputN, ih]
@[simp] theorem Warp.vputN_idx (w : Warp) (r n l x : Nat) (b : Bool) : (w.vputN r n l x b).idx = w.idx := by
  induction n generalizing w r x with
  | zero => rfl
  | succ k ih => simp [Warp.vputN, ih]
@[simp] theorem Warp.vputN_core (w : Warp) (r n l x : Nat) (b : Bool) : (w.vputN r n l x b).core = w.core := by
  induction n generalizing w r x with
  | zero => rfl
  | succ k ih => simp [Warp.vputN, ih]
@[simp] theorem Warp.vputN_part (w : Warp) (r n l x : Nat) (b : Bool) : (w.vputN r n l x b).part = w.part := by
  induction n generalizing w r x with
  | zero => rfl
  | succ k ih => simp [Warp.vputN, ih]
@[simp] theorem Warp.vputN_slot (w : Warp) (r n l x : Nat) (b : Bool) : (w.vputN r n l x b).slot = w.slot := by
  induction n generalizing w r x with
  | zero => rfl
  | succ k ih => simp [Warp.vputN, ih]
@[simp] theorem Warp.vputN_role (w : Warp) (r n l x : Nat) (b : Bool) : (w.vputN r n l x b).role = w.role := by
  induction n generalizing w r x with
  | zero => rfl
  | succ k ih => simp [Warp.vputN, ih]
@[simp] theorem Warp.vputN_floor (w : Warp) (r n l x : Nat) (b : Bool) : (w.vputN r n l x b).floor = w.floor := by
  induction n generalizing w r x with
  | zero => rfl
  | succ k ih => simp [Warp.vputN, ih]
@[simp] theorem Warp.vputN_ceil (w : Warp) (r n l x : Nat) (b : Bool) : (w.vputN r n l x b).ceil = w.ceil := by
  induction n generalizing w r x with
  | zero => rfl
  | succ k ih => simp [Warp.vputN, ih]
@[simp] theorem Warp.vputN_live (w : Warp) (r n l x : Nat) (b : Bool) : (w.vputN r n l x b).live = w.live := by
  induction n generalizing w r x with
  | zero => rfl
  | succ k ih => simp [Warp.vputN, ih]
@[simp] theorem Warp.vputN_entries (w : Warp) (r n l x : Nat) (b : Bool) : (w.vputN r n l x b).entries = w.entries := by
  induction n generalizing w r x with
  | zero => rfl
  | succ k ih => simp [Warp.vputN, ih]
@[simp] theorem Warp.vputN_spilled (w : Warp) (r n l x : Nat) (b : Bool) : (w.vputN r n l x b).spilled = w.spilled := by
  induction n generalizing w r x with
  | zero => rfl
  | succ k ih => simp [Warp.vputN, ih]
@[simp] theorem Warp.vputN_pv (w : Warp) (r n l x : Nat) (b : Bool) : (w.vputN r n l x b).pv = w.pv := by
  induction n generalizing w r x with
  | zero => rfl
  | succ k ih => simp [Warp.vputN, ih]
@[simp] theorem Warp.vputN_pp (w : Warp) (r n l x : Nat) (b : Bool) : (w.vputN r n l x b).pp = w.pp := by
  induction n generalizing w r x with
  | zero => rfl
  | succ k ih => simp [Warp.vputN, ih]
@[simp] theorem Warp.vputN_s (w : Warp) (r n l x : Nat) (b : Bool) : (w.vputN r n l x b).s = w.s := by
  induction n generalizing w r x with
  | zero => rfl
  | succ k ih => simp [Warp.vputN, ih]
@[simp] theorem Warp.vputN_q (w : Warp) (r n l x : Nat) (b : Bool) : (w.vputN r n l x b).q = w.q := by
  induction n generalizing w r x with
  | zero => rfl
  | succ k ih => simp [Warp.vputN, ih]
@[simp] theorem Warp.vputN_m (w : Warp) (r n l x : Nat) (b : Bool) : (w.vputN r n l x b).m = w.m := by
  induction n generalizing w r x with
  | zero => rfl
  | succ k ih => simp [Warp.vputN, ih]
@[simp] theorem Warp.vputN_fflags (w : Warp) (r n l x : Nat) (b : Bool) : (w.vputN r n l x b).fflags = w.fflags := by
  induction n generalizing w r x with
  | zero => rfl
  | succ k ih => simp [Warp.vputN, ih]
@[simp] theorem Warp.vputN_due (w : Warp) (r n l x : Nat) (b : Bool) : (w.vputN r n l x b).due = w.due := by
  induction n generalizing w r x with
  | zero => rfl
  | succ k ih => simp [Warp.vputN, ih]
@[simp] theorem Warp.vputN_depth (w : Warp) (r n l x : Nat) (b : Bool) : (w.vputN r n l x b).depth = w.depth := by
  induction n generalizing w r x with
  | zero => rfl
  | succ k ih => simp [Warp.vputN, ih]
@[simp] theorem Warp.vputN_traps (w : Warp) (r n l x : Nat) (b : Bool) : (w.vputN r n l x b).traps = w.traps := by
  induction n generalizing w r x with
  | zero => rfl
  | succ k ih => simp [Warp.vputN, ih]
@[simp] theorem Warp.vputN_budget (w : Warp) (r n l x : Nat) (b : Bool) : (w.vputN r n l x b).budget = w.budget := by
  induction n generalizing w r x with
  | zero => rfl
  | succ k ih => simp [Warp.vputN, ih]
@[simp] theorem Warp.vputN_age (w : Warp) (r n l x : Nat) (b : Bool) : (w.vputN r n l x b).age = w.age := by
  induction n generalizing w r x with
  | zero => rfl
  | succ k ih => simp [Warp.vputN, ih]
@[simp] theorem Warp.vputN_lastIssue (w : Warp) (r n l x : Nat) (b : Bool) : (w.vputN r n l x b).lastIssue = w.lastIssue := by
  induction n generalizing w r x with
  | zero => rfl
  | succ k ih => simp [Warp.vputN, ih]
@[simp] theorem Warp.vputN_cls (w : Warp) (r n l x : Nat) (b : Bool) : (w.vputN r n l x b).cls = w.cls := by
  induction n generalizing w r x with
  | zero => rfl
  | succ k ih => simp [Warp.vputN, ih]
@[simp] theorem Warp.vputN_clsHold (w : Warp) (r n l x : Nat) (b : Bool) : (w.vputN r n l x b).clsHold = w.clsHold := by
  induction n generalizing w r x with
  | zero => rfl
  | succ k ih => simp [Warp.vputN, ih]
@[simp] theorem Warp.vputN_monitor (w : Warp) (r n l x : Nat) (b : Bool) : (w.vputN r n l x b).monitor = w.monitor := by
  induction n generalizing w r x with
  | zero => rfl
  | succ k ih => simp [Warp.vputN, ih]
@[simp] theorem Warp.vputN_tokens (w : Warp) (r n l x : Nat) (b : Bool) : (w.vputN r n l x b).tokens = w.tokens := by
  induction n generalizing w r x with
  | zero => rfl
  | succ k ih => simp [Warp.vputN, ih]
@[simp] theorem Warp.vputN_marks (w : Warp) (r n l x : Nat) (b : Bool) : (w.vputN r n l x b).marks = w.marks := by
  induction n generalizing w r x with
  | zero => rfl
  | succ k ih => simp [Warp.vputN, ih]
@[simp] theorem Warp.vputN_sigs (w : Warp) (r n l x : Nat) (b : Bool) : (w.vputN r n l x b).sigs = w.sigs := by
  induction n generalizing w r x with
  | zero => rfl
  | succ k ih => simp [Warp.vputN, ih]
@[simp] theorem Warp.vputN_results (w : Warp) (r n l x : Nat) (b : Bool) : (w.vputN r n l x b).results = w.results := by
  induction n generalizing w r x with
  | zero => rfl
  | succ k ih => simp [Warp.vputN, ih]
@[simp] theorem Warp.vputN_heldFrees (w : Warp) (r n l x : Nat) (b : Bool) : (w.vputN r n l x b).heldFrees = w.heldFrees := by
  induction n generalizing w r x with
  | zero => rfl
  | succ k ih => simp [Warp.vputN, ih]
@[simp] theorem Warp.vputN_left (w : Warp) (r n l x : Nat) (b : Bool) : (w.vputN r n l x b).left = w.left := by
  induction n generalizing w r x with
  | zero => rfl
  | succ k ih => simp [Warp.vputN, ih]
@[simp] theorem Warp.vputN_frags (w : Warp) (r n l x : Nat) (b : Bool) : (w.vputN r n l x b).frags = w.frags := by
  induction n generalizing w r x with
  | zero => rfl
  | succ k ih => simp [Warp.vputN, ih]
@[simp] theorem Warp.vputN_inside (w : Warp) (r n l x : Nat) (b : Bool) : (w.vputN r n l x b).inside = w.inside := by
  induction n generalizing w r x with
  | zero => rfl
  | succ k ih => simp [Warp.vputN, ih]
@[simp] theorem Warp.vputN_orderCmds (w : Warp) (r n l x : Nat) (b : Bool) : (w.vputN r n l x b).orderCmds = w.orderCmds := by
  induction n generalizing w r x with
  | zero => rfl
  | succ k ih => simp [Warp.vputN, ih]
@[simp] theorem Warp.vputN_rays (w : Warp) (r n l x : Nat) (b : Bool) : (w.vputN r n l x b).rays = w.rays := by
  induction n generalizing w r x with
  | zero => rfl
  | succ k ih => simp [Warp.vputN, ih]
@[simp] theorem Warp.vputN_opened (w : Warp) (r n l x : Nat) (b : Bool) : (w.vputN r n l x b).opened = w.opened := by
  induction n generalizing w r x with
  | zero => rfl
  | succ k ih => simp [Warp.vputN, ih]
@[simp] theorem Warp.vputN_tileDue (w : Warp) (r n l x : Nat) (b : Bool) : (w.vputN r n l x b).tileDue = w.tileDue := by
  induction n generalizing w r x with
  | zero => rfl
  | succ k ih => simp [Warp.vputN, ih]

end Sys2Proof.Machine
end

