-- ==== Sys2Proof/Laws/Tbl.lean ====
section
/-! SUPPORT. Laws of the sparse tables and of memories in canonical form: reading after writing, and that every operation keeps
the form. -/

namespace Sys2Proof.Machine

variable {α : Type}

/-! ## Reading after writing -/

@[simp] theorem tget_nil (k : Nat) : tget ([] : Tbl α) k = none := rfl

@[simp] theorem tget_tset_same (t : Tbl α) (k : Nat) (x : α) : tget (tset t k x) k = some x := by
  induction t with
  | nil => simp [tset, tget]
  | cons e r ih =>
    obtain ⟨j, y⟩ := e
    simp only [tset]
    split
    · simp [tget]
    · split
      · simp [tget]
      · next h => simp [tget, Ne.symm h, ih]

theorem tget_tset_other (t : Tbl α) {k j : Nat} (x : α) (h : j ≠ k) : tget (tset t k x) j = tget t j := by
  induction t with
  | nil => simp [tset, tget, Ne.symm h]
  | cons e r ih =>
    obtain ⟨i, y⟩ := e
    simp only [tset]
    split
    · simp [tget, Ne.symm h]
    · split
      · next hk => subst hk; simp [tget, Ne.symm h]
      · simp only [tget, ih]

theorem tget_tset (t : Tbl α) (k j : Nat) (x : α) : tget (tset t k x) j = if j = k then some x else tget t j := by
  split
  · next h => subst h; exact tget_tset_same t j x
  · next h => exact tget_tset_other t x h

@[simp] theorem tget_tdel_same (t : Tbl α) (k : Nat) : tget (tdel t k) k = none := by
  induction t with
  | nil => rfl
  | cons e r ih =>
    obtain ⟨j, y⟩ := e
    unfold tdel at ih ⊢
    by_cases h : j = k
    · simp [h, ih]
    · simp [h, tget, ih]

theorem tget_tdel_other (t : Tbl α) {k j : Nat} (h : j ≠ k) : tget (tdel t k) j = tget t j := by
  induction t with
  | nil => rfl
  | cons e r ih =>
    obtain ⟨i, y⟩ := e
    unfold tdel at ih ⊢
    by_cases hi : i = k
    · subst hi; simp [tget, Ne.symm h, ih]
    · simp [hi, tget, ih]

@[simp] theorem tget_tmod_same (t : Tbl α) (k : Nat) (f : α → α) : tget (tmod t k f) k = (tget t k).map f := by
  induction t with
  | nil => rfl
  | cons e r ih =>
    obtain ⟨j, y⟩ := e
    by_cases h : j = k
    · simp [tmod, tget, h]
    · simp [tmod, tget, h, ih]

theorem tget_tmod_other (t : Tbl α) {k j : Nat} (f : α → α) (h : j ≠ k) : tget (tmod t k f) j = tget t j := by
  induction t with
  | nil => rfl
  | cons e r ih =>
    obtain ⟨i, y⟩ := e
    by_cases hi : i = k
    · subst hi; simp [tmod, tget, Ne.symm h]
    · simp [tmod, tget, hi, ih]

/-- Two changes of one entry are one. -/
theorem tmod_tmod (t : Tbl α) (k : Nat) (f h : α → α) : tmod (tmod t k f) k h = tmod t k fun x => h (f x) := by
  induction t with
  | nil => rfl
  | cons e r ih =>
    obtain ⟨i, y⟩ := e
    by_cases hi : i = k
    · simp [tmod, hi]
    · simp [tmod, hi, ih]

/-- Only the entry that is there matters. -/
theorem tmod_congr (t : Tbl α) (k : Nat) (f h : α → α) (e : ∀ x, tget t k = some x → f x = h x) : tmod t k f = tmod t k h := by
  induction t with
  | nil => rfl
  | cons a r ih =>
    obtain ⟨i, y⟩ := a
    by_cases hi : i = k
    · simp [tmod, hi, e y (by simp [tget, hi])]
    · simp [tmod, hi, ih fun x hx => e x (by simp [tget, hi, hx])]

theorem tmod_id (t : Tbl α) (k : Nat) : (tmod t k fun x => x) = t := by
  induction t with
  | nil => rfl
  | cons a r ih =>
    obtain ⟨i, y⟩ := a
    by_cases hi : i = k
    · simp [tmod, hi]
    · simp [tmod, hi, ih]

@[simp] theorem tgetD_nil (k : Nat) (d : α) : tgetD ([] : Tbl α) k d = d := rfl

@[simp] theorem tgetD_tset_same (t : Tbl α) (k : Nat) (x d : α) : tgetD (tset t k x) k d = x := by simp [tgetD]

theorem tgetD_tset_other (t : Tbl α) {k j : Nat} (x d : α) (h : j ≠ k) : tgetD (tset t k x) j d = tgetD t j d := by
  simp [tgetD, tget_tset_other t x h]

@[simp] theorem tgetD_tput_same [DecidableEq α] (t : Tbl α) (k : Nat) (x d : α) : tgetD (tput t k x d) k d = x := by
  unfold tput
  split
  · next h => simp [tgetD, h]
  · simp [tgetD]

theorem tgetD_tput_other [DecidableEq α] (t : Tbl α) {k j : Nat} (x d : α) (h : j ≠ k) :
    tgetD (tput t k x d) j d = tgetD t j d := by
  unfold tput
  split
  · simp [tgetD, tget_tdel_other t h]
  · simp [tgetD, tget_tset_other t x h]

theorem tgetD_tput [DecidableEq α] (t : Tbl α) (k j : Nat) (x d : α) :
    tgetD (tput t k x d) j d = if j = k then x else tgetD t j d := by
  split
  · next h => subst h; exact tgetD_tput_same t j x d
  · next h => exact tgetD_tput_other t x d h

/-- An entry kept by a filter on keys is still found. -/
theorem tget_filter_keep (t : Tbl α) (p : Nat → Bool) {k : Nat} (h : p k = true) :
    tget (t.filter fun e => p e.1) k = tget t k := by
  induction t with
  | nil => rfl
  | cons e r ih =>
    obtain ⟨i, y⟩ := e
    by_cases hi : p i = true
    · simp [hi, tget, ih]
    · have hne : i ≠ k := fun h' => hi (h' ▸ h)
      simp [hi, tget, ih, hne]

/-- An entry dropped by a filter on keys is gone. -/
theorem tget_filter_drop (t : Tbl α) (p : Nat → Bool) {k : Nat} (h : p k = false) :
    tget (t.filter fun e => p e.1) k = none := by
  induction t with
  | nil => rfl
  | cons e r ih =>
    obtain ⟨i, y⟩ := e
    by_cases hi : p i = true
    · have hne : i ≠ k := fun h' => by simp [h', h] at hi
      simp [hi, tget, ih, hne]
    · simp [hi, ih]

/-! ## The canonical form -/

/-- The first key of a table is above k. -/
def tabove (k : Nat) (t : Tbl α) : Bool := match t with | [] => true | (j, _) :: _ => k < j

theorem tsorted_cons (k : Nat) (x : α) (t : Tbl α) : tsorted ((k, x) :: t) = (tabove k t && tsorted t) := by
  cases t <;> rfl

theorem tabove_tset (t : Tbl α) {i k : Nat} (x : α) (h : i < k) (ht : tabove i t = true) : tabove i (tset t k x) = true := by
  cases t with
  | nil => simpa [tset, tabove] using h
  | cons e r =>
    obtain ⟨j, y⟩ := e
    simp only [tabove, decide_eq_true_eq] at ht
    simp only [tset]
    split
    · simpa [tabove] using h
    · split
      · simpa [tabove] using h
      · simpa [tabove] using ht

theorem tsorted_tset (t : Tbl α) (k : Nat) (x : α) (h : tsorted t = true) : tsorted (tset t k x) = true := by
  induction t with
  | nil => rfl
  | cons e r ih =>
    obtain ⟨j, y⟩ := e
    rw [tsorted_cons, Bool.and_eq_true] at h
    simp only [tset]
    split
    · next hk => simp [tsorted_cons, show tabove k ((j, y) :: r) = true by simpa [tabove] using hk, h.1, h.2]
    · split
      · next hk => subst hk; simp [tsorted_cons, h.1, h.2]
      · next h1 h2 =>
        rw [tsorted_cons, Bool.and_eq_true]
        exact ⟨tabove_tset r x (by omega) h.1, ih h.2⟩

theorem tabove_of_sorted {k j : Nat} {r : Tbl α} (h : k < j) (hs : tabove j r = true) : tabove k r = true := by
  cases r with
  | nil => rfl
  | cons e r => obtain ⟨i, z⟩ := e; simp only [tabove, decide_eq_true_eq] at hs ⊢; omega

theorem tsorted_filter (t : Tbl α) (p : Nat × α → Bool) (h : tsorted t = true) :
    tsorted (t.filter p) = true ∧ ∀ k, tabove k t = true → tabove k (t.filter p) = true := by
  induction t with
  | nil => exact ⟨rfl, fun _ h => h⟩
  | cons e r ih =>
    obtain ⟨j, y⟩ := e
    rw [tsorted_cons, Bool.and_eq_true] at h
    obtain ⟨i1, i2⟩ := ih h.2
    by_cases hp : p (j, y) = true
    · simp only [List.filter_cons, hp, if_true]
      refine ⟨?_, fun k hk => by simpa [tabove] using hk⟩
      rw [tsorted_cons, Bool.and_eq_true]
      exact ⟨i2 j h.1, i1⟩
    · simp only [List.filter_cons, hp]
      refine ⟨i1, fun k hk => i2 k ?_⟩
      simp only [tabove, decide_eq_true_eq] at hk
      exact tabove_of_sorted hk h.1

theorem tsorted_tdel (t : Tbl α) (k : Nat) (h : tsorted t = true) : tsorted (tdel t k) = true := (tsorted_filter t _ h).1

theorem all_tset (t : Tbl α) (p : Nat × α → Bool) (k : Nat) (x : α) (h : t.all p = true) (hx : p (k, x) = true) :
    (tset t k x).all p = true := by
  induction t with
  | nil => simp [tset, hx]
  | cons e r ih =>
    obtain ⟨j, y⟩ := e
    rw [List.all_cons, Bool.and_eq_true] at h
    simp only [tset]
    split
    · simp [hx, h.1]; simpa using h.2
    · split
      · simp [hx]; simpa using h.2
      · simp only [List.all_cons, h.1, Bool.true_and]; exact ih h.2

theorem all_filter (t : Tbl α) (p q : Nat × α → Bool) (h : t.all p = true) : (t.filter q).all p = true := by
  simp only [List.all_eq_true, List.mem_filter] at h ⊢
  exact fun x hx => h x hx.1

/-- A write keeps the canonical form of a memory. -/
theorem mput_wf (m : Tbl Byte) (a : Nat) (b : Byte) (h : Memory.wf m = true) : Memory.wf (mput m a b) = true := by
  unfold Memory.wf at h ⊢
  rw [Bool.and_eq_true] at h ⊢
  unfold mput tput
  split
  · exact ⟨tsorted_tdel m a h.1, all_filter m _ _ h.2⟩
  · next hb => exact ⟨tsorted_tset m a b h.1, all_tset m _ a b h.2 (by simpa using hb)⟩

theorem mputBytes_wf (l : List Byte) : ∀ (m : Tbl Byte) (a : Nat), Memory.wf m = true → Memory.wf (mputBytes m a l) = true := by
  induction l with
  | nil => exact fun _ _ h => h
  | cons b r ih => exact fun m a h => ih _ _ (mput_wf m a b h)

theorem mputNat_wf (n : Nat) : ∀ (m : Tbl Byte) (a x : Nat), Memory.wf m = true → Memory.wf (mputNat m a n x) = true := by
  induction n with
  | zero => exact fun _ _ _ h => h
  | succ k ih => exact fun m a x h => ih _ _ _ (mput_wf m a _ h)

/-- A byte reads as it was last written. -/
@[simp] theorem mget_mput_same (m : Tbl Byte) (a : Nat) (b : Byte) : mget (mput m a b) a = b := tgetD_tput_same m a b 0

/-- A write leaves every other byte alone. -/
theorem mget_mput_other (m : Tbl Byte) {a c : Nat} (b : Byte) (h : c ≠ a) : mget (mput m a b) c = mget m c :=
  tgetD_tput_other m b 0 h

/-- Writing bytes leaves every byte outside them alone. -/
theorem mget_mputBytes_outside (l : List Byte) : ∀ (m : Tbl Byte) (a c : Nat), (c < a ∨ a + l.length ≤ c) →
    mget (mputBytes m a l) c = mget m c := by
  induction l with
  | nil => exact fun _ _ _ _ => rfl
  | cons b r ih =>
    intro m a c h
    simp only [mputBytes, List.length_cons] at h ⊢
    rw [ih _ _ _ (by omega), mget_mput_other _ _ (by omega)]

/-- Writing bytes makes them read as written. -/
theorem mget_mputBytes_inside (l : List Byte) : ∀ (m : Tbl Byte) (a i : Nat) (h : i < l.length),
    mget (mputBytes m a l) (a + i) = l[i] := by
  induction l with
  | nil => intro _ _ i h; simp at h
  | cons b r ih =>
    intro m a i h
    simp only [mputBytes]
    cases i with
    | zero => rw [mget_mputBytes_outside r _ _ _ (by omega)]; simp
    | succ i =>
      have := ih (mput m a b) (a + 1) i (by simpa using h)
      simpa [Nat.add_assoc, Nat.add_comm 1 i] using this

end Sys2Proof.Machine
end

