-- ==== Sys2Proof/Laws/Regs.lean ====
section
/-! SUPPORT. Laws of a warp's registers: reading after writing, mapping, freeing (R168–R173, R206). -/

namespace Sys2Proof.Machine

/-! ## Sets of register numbers -/

theorem getLsbD_bit256 (r j : Nat) : (BitVec.ofNat 256 (2 ^ r)).getLsbD j = (decide (j < 256) && decide (r = j)) := by
  rw [BitVec.getLsbD_ofNat, Nat.testBit_two_pow]

theorem setBit256_get (m : BitVec 256) (r j : Nat) (b : Bool) :
    (setBit256 m r b).getLsbD j = if j = r ∧ j < 256 then b else m.getLsbD j := by
  have hb := getLsbD_bit256 r j
  unfold setBit256
  by_cases hj : j < 256
  · by_cases h : j = r
    · subst h
      cases b <;> simp only [Bool.false_eq_true, if_false, if_true, BitVec.getLsbD_and, BitVec.getLsbD_or, BitVec.getLsbD_not, hb, hj,
        decide_true, Bool.and_true, Bool.or_true, Bool.not_true, Bool.and_false, and_self]
    · have h' : ¬ r = j := fun e => h e.symm
      cases b <;> simp only [Bool.false_eq_true, if_false, if_true, BitVec.getLsbD_and, BitVec.getLsbD_or, BitVec.getLsbD_not, hb, hj, h, h',
        decide_true, decide_false, Bool.and_true, Bool.and_false, Bool.or_false, Bool.not_false, false_and]
  · have : m.getLsbD j = false := BitVec.getLsbD_of_ge _ _ (by omega)
    cases b <;> simp only [Bool.false_eq_true, if_false, if_true, BitVec.getLsbD_and, BitVec.getLsbD_or, this, hb, hj,
      decide_false, Bool.false_and, Bool.or_false, and_false]

/-- A lane number splits the key of a lane's value. -/
theorem vkey_div (r l : Nat) (h : l < 32) : vkey r l / 32 = r := by unfold vkey; omega
theorem vkey_mod (r l : Nat) (h : l < 32) : vkey r l % 32 = l := by unfold vkey; omega
theorem vkey_inj {r l r' l' : Nat} (h : l < 32) (h' : l' < 32) (e : vkey r l = vkey r' l') : r = r' ∧ l = l' := by
  unfold vkey at e; omega

/-! ## v registers -/

theorem Warp.vget_unmapped (w : Warp) (r l : Nat) (h : w.isMapped r = false) : w.vget r l = .unmapped := by
  simp [Warp.vget, h]

theorem Warp.isMapped_lt (w : Warp) (r : Nat) (h : w.isMapped r = true) : r < 256 := by
  by_contra hc
  have : w.mapped.getLsbD r = false := BitVec.getLsbD_of_ge _ _ (by omega)
  rw [Warp.isMapped, this] at h; exact absurd h (by simp)

/-- The values kept for a mapping: those of an old one, none of a fresh one. -/
theorem vbase_get (w : Warp) (r r' l : Nat) (h : l < 32) :
    tgetD (w.vbase r) (vkey r' l) .unmapped = if r' = r ∧ w.isMapped r = false then .unmapped else tgetD w.v (vkey r' l) .unmapped := by
  unfold Warp.vbase
  cases hm : w.isMapped r with
  | true => simp
  | false =>
    simp only [Bool.false_eq_true, if_false]
    have hp : (fun e : Nat × LaneVal => e.1 / 32 != r) = fun e => (fun k => k / 32 != r) e.1 := rfl
    by_cases hr : r' = r
    · subst hr
      simp [tgetD, hp, tget_filter_drop w.v (fun k => k / 32 != r') (k := vkey r' l) (by simp [vkey_div _ _ h])]
    · simp [tgetD, hp, hr, tget_filter_keep w.v (fun k => k / 32 != r) (k := vkey r' l) (by simp [vkey_div _ _ h, hr])]

theorem Warp.vmap_isMapped (w : Warp) (r j : Nat) :
    (w.vmap r).isMapped j = if j = r ∧ r < w.ceil ∧ r < 256 then true else w.isMapped j := by
  unfold Warp.vmap Warp.isMapped
  split
  · next h => simp only [setBit256_get]; by_cases hj : j = r <;> simp [hj, h]
  · next h => simp [h]

theorem Warp.vput_isMapped (w : Warp) (r l j : Nat) (x : LaneVal) :
    (w.vput r l x).isMapped j = if j = r ∧ r < w.ceil ∧ r < 256 then true else w.isMapped j := by
  unfold Warp.vput Warp.isMapped
  split
  · next h => simp only [setBit256_get]; by_cases hj : j = r <;> simp [hj, h]
  · next h => simp [h]

/-- Mapping a register changes no value (R171). -/
theorem Warp.vget_vmap (w : Warp) (r r' l : Nat) (h : l < 32) : (w.vmap r).vget r' l = w.vget r' l := by
  unfold Warp.vget
  rw [Warp.vmap_isMapped]
  by_cases hc : r < w.ceil
  · have hv : (w.vmap r).v = w.vbase r := by simp [Warp.vmap, hc]
    rw [hv, vbase_get w r r' l h]
    by_cases hr : r' = r
    · subst hr
      cases hm : w.isMapped r' <;> simp
    · simp [hr]
  · have hv : (w.vmap r).v = w.v := by simp [Warp.vmap, hc]
    simp [hv, hc]

/-- A written lane reads as written, every other lane and register as before (R169, R171). -/
theorem Warp.vget_vput (w : Warp) (r l r' l' : Nat) (x : LaneVal) (hr : r' < 256) (h : l < 32) (h' : l' < 32) :
    (w.vput r l x).vget r' l' = if r' = r ∧ l' = l ∧ r < w.ceil then x else w.vget r' l' := by
  unfold Warp.vget
  rw [Warp.vput_isMapped]
  by_cases hc : r < w.ceil
  · have hv : (w.vput r l x).v = tput (w.vbase r) (vkey r l) x .unmapped := by simp [Warp.vput, hc]
    rw [hv, tgetD_tput]
    by_cases hrr : r' = r
    · subst hrr
      by_cases hl : l' = l
      · subst hl; simp [hc, hr]
      · have : ¬ vkey r' l' = vkey r' l := fun e => hl (vkey_inj h' h e).2
        simp only [this, if_false, vbase_get w r' r' l' h']
        cases hm : w.isMapped r' <;> simp [hc, hr, hl]
    · have : ¬ vkey r' l' = vkey r l := fun e => hrr (vkey_inj h' h e).1
      simp [this, vbase_get w r r' l' h', hrr]
  · have hv : w.vput r l x = w := by simp [Warp.vput, hc]
    simp [hv, hc]

/-- A register at or above the ceiling takes no write (R169). -/
theorem Warp.vput_above (w : Warp) (r l : Nat) (x : LaneVal) (h : w.ceil ≤ r) : w.vput r l x = w := by
  simp [Warp.vput, Nat.not_lt.mpr h]

/-- A freed register reads as unmapped, every other as before (R172). -/
theorem Warp.vget_vfree (w : Warp) (r r' l : Nat) (hr : r' < 256) (h : l < 32) :
    (w.vfree r).vget r' l = if r' = r then .unmapped else w.vget r' l := by
  unfold Warp.vget Warp.vfree Warp.isMapped
  simp only [setBit256_get]
  by_cases hrr : r' = r
  · subst hrr; simp [hr]
  · have hp : (fun e : Nat × LaneVal => e.1 / 32 != r) = fun e => (fun k => k / 32 != r) e.1 := rfl
    simp [hrr, tgetD, hp, tget_filter_keep w.v (fun k => k / 32 != r) (k := vkey r' l) (by simp [vkey_div _ _ h, hrr])]

/-- A group of registers after a write of a group in one lane. -/
theorem Warp.vget_vputN (n : Nat) : ∀ (w : Warp) (r l x : Nat) (b : Bool) (r' l' : Nat), r' < 256 → l < 32 → l' < 32 →
    (w.vputN r n l x b).vget r' l' =
      if r ≤ r' ∧ r' < r + n ∧ l' = l ∧ r' < w.ceil then { bits := BitVec.ofNat 32 (x / 2 ^ (32 * (r' - r))), poison := b }
      else w.vget r' l' := by
  induction n with
  | zero => intro w r l x b r' l' _ _ _; simp only [Warp.vputN]; rw [if_neg (by omega)]
  | succ k ih =>
    intro w r l x b r' l' hr h h'
    simp only [Warp.vputN]
    rw [ih _ _ _ _ _ _ _ hr h h', Warp.vget_vput _ _ _ _ _ _ hr h h', Warp.vput_ceil]
    by_cases hrr : r' = r
    · subst hrr
      by_cases hl : l' = l <;> by_cases hc : r' < w.ceil <;> simp [hl, hc]
    · by_cases h1 : r + 1 ≤ r' ∧ r' < r + 1 + k ∧ l' = l ∧ r' < w.ceil
      · have h2 : r ≤ r' ∧ r' < r + (k + 1) ∧ l' = l ∧ r' < w.ceil := by omega
        rw [if_pos h1, if_pos h2]
        have e : 32 * (r' - r) = 32 + 32 * (r' - (r + 1)) := by omega
        rw [e, Nat.pow_add, Nat.div_div_eq_div_mul]
      · have h2 : ¬ (r ≤ r' ∧ r' < r + (k + 1) ∧ l' = l ∧ r' < w.ceil) := by omega
        rw [if_neg h1, if_neg h2]; simp [hrr]

/-! ## p, s, q and m registers -/

theorem laneBit_get (l j : Nat) : (laneBit l).getLsbD j = (decide (j < 32) && decide (l = j)) := by
  rw [laneBit, BitVec.getLsbD_ofNat, Nat.testBit_two_pow]

theorem setLane_get (m : LaneMask) (l j : Nat) (b : Bool) :
    (setLane m l b).getLsbD j = if j = l ∧ j < 32 then b else m.getLsbD j := by
  have hb := laneBit_get l j
  unfold setLane
  by_cases hj : j < 32
  · by_cases h : j = l
    · subst h
      cases b <;> simp only [Bool.false_eq_true, if_false, if_true, BitVec.getLsbD_and, BitVec.getLsbD_or, BitVec.getLsbD_not, hb, hj,
        decide_true, Bool.and_true, Bool.or_true, Bool.not_true, Bool.and_false, and_self]
    · have h' : ¬ l = j := fun e => h e.symm
      cases b <;> simp only [Bool.false_eq_true, if_false, if_true, BitVec.getLsbD_and, BitVec.getLsbD_or, BitVec.getLsbD_not, hb, hj, h, h',
        decide_true, decide_false, Bool.and_true, Bool.and_false, Bool.or_false, Bool.not_false, false_and]
  · have : m.getLsbD j = false := BitVec.getLsbD_of_ge _ _ (by omega)
    cases b <;> simp only [Bool.false_eq_true, if_false, if_true, BitVec.getLsbD_and, BitVec.getLsbD_or, this, hb, hj,
      decide_false, Bool.false_and, Bool.or_false, and_false]

/-- p registers after a write of one lane; p7 reads true and takes no write (R168). -/
theorem Warp.pget_pput (w : Warp) (r l r' l' : Nat) (b x : Bool) (h : l < 32) :
    (w.pput r l b x).pget r' l' = if r' = r ∧ l' = l ∧ r < 7 then b else w.pget r' l' := by
  unfold Warp.pput Warp.pget
  split
  · next h7 =>
    simp only [tgetD_tput]
    by_cases hr : r' = r
    · subst hr
      have h77 : ¬ r' = 7 := by omega
      by_cases hl : l' = l
      · subst hl; rw [if_pos rfl, setLane_get, if_pos ⟨rfl, h⟩]; simp [h7, h77]
      · simp [setLane_get, hl]
    · simp [hr]
  · next h7 => simp [h7]

theorem Warp.ppoison_pput (w : Warp) (r l r' l' : Nat) (b x : Bool) (h : l < 32) :
    (w.pput r l b x).ppoison r' l' = if r' = r ∧ l' = l ∧ r < 7 then x else w.ppoison r' l' := by
  unfold Warp.pput Warp.ppoison
  split
  · next h7 =>
    simp only [tgetD_tput]
    by_cases hr : r' = r
    · subst hr
      have h77 : ¬ r' = 7 := by omega
      by_cases hl : l' = l
      · subst hl; rw [if_pos rfl, setLane_get, if_pos ⟨rfl, h⟩]; simp [h7, h77]
      · simp [setLane_get, hl]
    · simp [hr]
  · next h7 => simp [h7]

/-- s registers after a write; s63 reads zero and takes no write (R206). -/
theorem Warp.sget_sput (w : Warp) (r r' : Nat) (x : DWord) : (w.sput r x).sget r' = if r' = r ∧ r < 63 then x else w.sget r' := by
  unfold Warp.sput Warp.sget
  by_cases h : r < 63
  · by_cases hr : r' = r
    · subst hr
      have h63 : ¬ r' = 63 := by omega
      simp [h, h63]
    · simp only [if_pos h, hr, false_and, if_false]
      rw [tgetD_tput_other w.s x 0 hr]
  · simp [h]

/-- q registers after a write; q7 reads true and takes no write (R206). -/
theorem Warp.qget_qput (w : Warp) (r r' : Nat) (b : Bool) : (w.qput r b).qget r' = if r' = r ∧ r < 7 then b else w.qget r' := by
  unfold Warp.qput Warp.qget
  split
  · next h =>
    have hb : ∀ j, (BitVec.ofNat 8 (2 ^ r)).getLsbD j = (decide (j < 8) && decide (r = j)) := by
      intro j; rw [BitVec.getLsbD_ofNat, Nat.testBit_two_pow]
    by_cases hr : r' = r
    · subst hr
      have h7 : (r' == 7) = false := by simp; omega
      have h8 : r' < 8 := by omega
      cases b <;> simp only [Bool.false_eq_true, if_false, if_true, BitVec.getLsbD_and, BitVec.getLsbD_or, BitVec.getLsbD_not, hb, h, h7, h8,
        decide_true, Bool.and_true, Bool.or_true, Bool.not_true, Bool.and_false, and_self, Bool.false_or]
    · have hr' : ¬ r = r' := fun e => hr e.symm
      have h9 : ¬ r' < 8 → w.q.getLsbD r' = false := fun h => BitVec.getLsbD_of_ge w.q r' (by omega)
      cases b <;> by_cases h8 : r' < 8 <;> simp only [Bool.false_eq_true, if_false, if_true, BitVec.getLsbD_and, BitVec.getLsbD_or,
        BitVec.getLsbD_not, hb, hr, hr', h8, decide_true, decide_false, Bool.and_true, Bool.and_false, Bool.or_false, Bool.not_false,
        false_and, h9, not_false_eq_true]
  · next h => simp [h]

theorem Warp.mget_mput (w : Warp) (r r' : Nat) (x : LaneMask) : (w.mput r x).mget r' = if r' = r then x else w.mget r' := by
  simp [Warp.mput, Warp.mget, tgetD_tput]

end Sys2Proof.Machine
end

