-- ==== Sys2Proof/Laws/Frontier.lean ====
section
/-! SUPPORT. Laws of the frontier: merging loses no lane (R135, R138). -/

namespace Sys2Proof.Machine

/-- y stands for x after merging: the same PC, at least its lanes; an entry that takes no part in merges is unchanged. -/
def Entry.Covers (y x : Entry) : Prop :=
  y.pc = x.pc ∧ (∀ l, x.mask.getLsbD l = true → y.mask.getLsbD l = true) ∧
    (x.mergeable = true → y.mergeable = true) ∧ (x.mergeable = false → y = x)

theorem Entry.Covers.refl (x : Entry) : x.Covers x := ⟨rfl, fun _ h => h, fun h => h, fun _ => rfl⟩

theorem Entry.Covers.trans {x y z : Entry} (h : z.Covers y) (k : y.Covers x) : z.Covers x := by
  obtain ⟨h1, h2, h3, h4⟩ := h
  obtain ⟨k1, k2, k3, k4⟩ := k
  refine ⟨h1.trans k1, fun l hl => h2 l (k2 l hl), fun hm => h3 (k3 hm), fun hm => ?_⟩
  have := k4 hm; subst this; exact h4 hm

theorem Entry.merge_mergeable (a b : Entry) : (a.merge b).mergeable = true := by
  unfold Entry.merge Entry.mergeable
  split <;> simp_all

theorem Entry.merge_covers_left (a b : Entry) (h : a.mergeable = true) : (a.merge b).Covers a :=
  ⟨rfl, fun l hl => by simp [Entry.merge, hl], fun _ => Entry.merge_mergeable a b, fun hf => by simp [h] at hf⟩

theorem Entry.merge_covers_right (a b : Entry) (h : b.mergeable = true) (hp : a.pc = b.pc) : (a.merge b).Covers b :=
  ⟨hp, fun l hl => by simp [Entry.merge, hl], fun _ => Entry.merge_mergeable a b, fun hf => by simp [h] at hf⟩

theorem addEntry_new (l : List Entry) (e : Entry) : ∃ y ∈ addEntry l e, y.Covers e := by
  induction l with
  | nil => exact ⟨e, by simp [addEntry], .refl e⟩
  | cons x r ih =>
    simp only [addEntry]
    split
    · next h =>
      simp only [Bool.and_eq_true, beq_iff_eq] at h
      exact ⟨x.merge e, by simp, Entry.merge_covers_right x e h.1.2 h.2⟩
    · obtain ⟨y, hy, hc⟩ := ih
      exact ⟨y, by simp [hy], hc⟩

theorem addEntry_old (l : List Entry) (e x : Entry) (hx : x ∈ l) : ∃ y ∈ addEntry l e, y.Covers x := by
  induction l with
  | nil => simp at hx
  | cons z r ih =>
    simp only [addEntry]
    split
    · next h =>
      simp only [Bool.and_eq_true, beq_iff_eq] at h
      rcases List.mem_cons.mp hx with rfl | hr
      · exact ⟨x.merge e, by simp, Entry.merge_covers_left x e h.1.1⟩
      · exact ⟨x, by simp [hr], .refl x⟩
    · rcases List.mem_cons.mp hx with rfl | hr
      · exact ⟨x, by simp, .refl x⟩
      · obtain ⟨y, hy, hc⟩ := ih hr
        exact ⟨y, by simp [hy], hc⟩

theorem foldl_addEntry_old (l : List Entry) : ∀ (acc : List Entry) (x : Entry), x ∈ acc → ∃ y ∈ l.foldl addEntry acc, y.Covers x := by
  induction l with
  | nil => exact fun _ x h => ⟨x, h, .refl x⟩
  | cons e r ih =>
    intro acc x h
    obtain ⟨y, hy, hc⟩ := addEntry_old acc e x h
    obtain ⟨z, hz, hd⟩ := ih _ y hy
    exact ⟨z, hz, hd.trans hc⟩

theorem foldl_addEntry_new (l : List Entry) : ∀ (acc : List Entry) (x : Entry), x ∈ l → ∃ y ∈ l.foldl addEntry acc, y.Covers x := by
  induction l with
  | nil => intro _ x h; simp at h
  | cons e r ih =>
    intro acc x h
    rcases List.mem_cons.mp h with rfl | hr
    · obtain ⟨y, hy, hc⟩ := addEntry_new acc x
      obtain ⟨z, hz, hd⟩ := foldl_addEntry_old r _ y hy
      exact ⟨z, hz, hd.trans hc⟩
    · exact ih _ x hr

/-- Merging the frontier keeps every lane of every entry at its PC. -/
theorem mergeAll_covers (l : List Entry) (x : Entry) (h : x ∈ l) : ∃ y ∈ mergeAll l, y.Covers x := foldl_addEntry_new l [] x h

theorem Warp.runs_merge (w : Warp) (l : Nat) (pc : DWord) (h : w.runs l pc) : w.merge.runs l pc := by
  obtain ⟨x, hx, hl, hp, hm⟩ := h
  obtain ⟨y, hy, c1, c2, c3, _⟩ := mergeAll_covers w.entries x hx
  exact ⟨y, hy, c2 l hl, c1.trans hp, c3 hm⟩

theorem Warp.parks_merge (w : Warp) (l : Nat) (pc : DWord) (k : Wait) (h : w.parks l pc k) : w.merge.parks l pc k := by
  obtain ⟨x, hx, hl, hp, hs⟩ := h
  obtain ⟨y, hy, _, _, _, c4⟩ := mergeAll_covers w.entries x hx
  have : y = x := c4 (by simp [Entry.mergeable, hs])
  subst this
  exact ⟨y, hy, hl, hp, hs⟩

theorem Warp.runs_waitmTest (w : Warp) (n l : Nat) (pc : DWord) (h : w.runs l pc) : (w.waitmTest n).runs l pc := by
  unfold Warp.waitmTest
  simp only
  split
  · apply Warp.runs_merge
    obtain ⟨x, hx, hl, hp, hm⟩ := h
    have hs : (x.st == EntryState.parked (Wait.waitm n)) = false := by
      cases hst : x.st <;> simp_all [Entry.mergeable]
    exact ⟨x, List.mem_map.mpr ⟨x, hx, by simp [hs]⟩, hl, hp, hm⟩
  · exact h

theorem Warp.runs_waitmTests (w : Warp) (l : Nat) (pc : DWord) (h : w.runs l pc) : w.waitmTests.runs l pc := by
  unfold Warp.waitmTests
  generalize List.range 12 = ns
  induction ns generalizing w with
  | nil => exact h
  | cons n r ih => exact ih _ (w.runs_waitmTest n l pc h)

theorem Warp.parks_waitmTest (w : Warp) (n l : Nat) (pc : DWord) (k : Wait) (hk : k ≠ .waitm n) (h : w.parks l pc k) :
    (w.waitmTest n).parks l pc k := by
  unfold Warp.waitmTest
  simp only
  split
  · apply Warp.parks_merge
    obtain ⟨x, hx, hl, hp, hs⟩ := h
    have hf : (x.st == EntryState.parked (Wait.waitm n)) = false := by
      rw [hs]; simpa using hk
    exact ⟨x, List.mem_map.mpr ⟨x, hx, by simp [hf]⟩, hl, hp, hs⟩
  · exact h

theorem Warp.parks_waitmTests (w : Warp) (l : Nat) (pc : DWord) (k : Wait) (hk : ∀ n, k ≠ .waitm n) (h : w.parks l pc k) :
    w.waitmTests.parks l pc k := by
  unfold Warp.waitmTests
  generalize List.range 12 = ns
  induction ns generalizing w with
  | nil => exact h
  | cons n r ih => exact ih _ (w.parks_waitmTest n l pc k (hk n) h)

/-- The WAITM tests change the frontier alone, and the record of the entries that they released. -/
theorem Warp.waitmTest_eq (w : Warp) (n : Nat) : w.waitmTest n = { w with entries := (w.waitmTest n).entries, left := (w.waitmTest n).left } := by
  unfold Warp.waitmTest
  simp only
  split <;> rfl

theorem Warp.waitmTests_eq (w : Warp) : w.waitmTests = { w with entries := w.waitmTests.entries, left := w.waitmTests.left } := by
  unfold Warp.waitmTests
  generalize List.range 12 = ns
  induction ns generalizing w with
  | nil => rfl
  | cons n r ih =>
    simp only [List.foldl_cons]
    rw [ih, Warp.waitmTest_eq]

end Sys2Proof.Machine
end

