-- ==== Sys2Proof/Laws/Issue.lean ====
section
/-! SUPPORT. Laws of issuing: what a calm split's instruction does to the state around its body (R10, R137, R154). -/

namespace Sys2Proof.Machine

/-! ## The warp and the state -/

@[simp] theorem warp?_setWarp (s : State) (g : Nat) (w : Warp) : (s.setWarp g w).warp? g = some w := tget_tset_same _ _ _
theorem warp?_setWarp_other (s : State) {g h : Nat} (w : Warp) (hn : h ≠ g) : (s.setWarp g w).warp? h = s.warp? h := tget_tset_other _ _ hn
@[simp] theorem warp?_modWarp (s : State) (g : Nat) (f : Warp → Warp) : (s.modWarp g f).warp? g = (s.warp? g).map f := tget_tmod_same _ _ _
theorem warp?_modWarp_other (s : State) {g h : Nat} (f : Warp → Warp) (hn : h ≠ g) : (s.modWarp g f).warp? h = s.warp? h :=
  tget_tmod_other _ _ hn
theorem warp?_of_warps {s t : State} (h : t.warps = s.warps) (g : Nat) : t.warp? g = s.warp? g := by unfold State.warp?; rw [h]
@[simp] theorem warp?_count (s : State) (e : Ev) (n g : Nat) : (s.count e n).warp? g = s.warp? g := warp?_of_warps (by simp) g
@[simp] theorem warp?_newId (s : State) (g : Nat) : s.newId.1.warp? g = s.warp? g := rfl
@[simp] theorem warp?_modCore (s : State) (c g : Nat) (f : Core → Core) : (s.modCore c f).warp? g = s.warp? g := rfl
@[simp] theorem warp?_modBlock (s : State) (b g : Nat) (f : Block → Block) : (s.modBlock b f).warp? g = s.warp? g := rfl
@[simp] theorem warp?_modPart (s : State) (k g : Nat) (f : Part → Part) : (s.modPart k f).warp? g = s.warp? g := rfl
@[simp] theorem warp?_tell (s : State) (n : Notice) (g : Nat) : (s.tell n).warp? g = s.warp? g := rfl

theorem State.count_zero (s : State) (e : Ev) : s.count e 0 = s := rfl

/-- Counting an event changes the counters alone. -/
theorem State.count_eq (s : State) (e : Ev) (n : Nat) : s.count e n = { s with events := (s.count e n).events } := by
  unfold State.count; split <;> rfl

theorem modWarp_modWarp (s : State) (g : Nat) (f h : Warp → Warp) : (s.modWarp g f).modWarp g h = s.modWarp g fun w => h (f w) := by
  simp only [State.modWarp, tmod_tmod]

/-- Only the warp that is there matters. -/
theorem modWarp_congr {s : State} {g : Nat} {w : Warp} {f h : Warp → Warp} (hw : s.warp? g = some w) (e : f w = h w) :
    s.modWarp g f = s.modWarp g h := by
  unfold State.modWarp
  rw [tmod_congr s.warps g f h fun x hx => by
    have : s.warp? g = some x := hx
    rw [hw] at this; cases this; exact e]

theorem modWarp_id {s : State} {g : Nat} {w : Warp} {f : Warp → Warp} (hw : s.warp? g = some w) (e : f w = w) : s.modWarp g f = s := by
  rw [modWarp_congr hw (h := fun x => x) e]
  unfold State.modWarp
  rw [tmod_id]

@[simp] theorem mask_full (m : LaneMask) : m &&& ~~~(0 : LaneMask) = m := by
  rw [show ~~~(0 : LaneMask) = BitVec.allOnes 32 by decide]; exact BitVec.and_allOnes

/-! ## Fates -/

theorem fateLanes_go (fs : Fates) (p : Fate → Bool) (h : ∀ f ∈ fs, p f.2 = true → f.1 = 0) :
    ∀ m, fs.foldl (fun m f => if p f.2 then m ||| f.1 else m) m = m := by
  induction fs with
  | nil => exact fun _ => rfl
  | cons f r ih =>
    intro m
    have ih' := ih fun x hx => h x (List.mem_cons_of_mem _ hx)
    simp only [List.foldl_cons]
    split
    · next hp => rw [h f (by simp) hp]; simpa using ih' m
    · exact ih' m

/-- The lanes with a fate of a kind that no lane has. -/
theorem fateLanes_zero (fs : Fates) (p : Fate → Bool) (h : ∀ f ∈ fs, p f.2 = true → f.1 = 0) : fateLanes fs p = 0 :=
  fateLanes_go fs p h 0

/-- No lanes end: nothing happens. -/
@[simp] theorem endLanes_zero (s : State) (g : Nat) : s.endLanes g 0 = s := by
  unfold State.endLanes
  split
  · rfl
  · simp

/-- No lane has a fate: the split goes on behind the instruction (R137, R138). -/
theorem settle_none (s : State) (g : Nat) (e : Entry) (fs : Fates) (h : ∀ f ∈ fs, f.1 = 0) :
    settle s g e fs = s.modWarp g fun w => (w.stepOff e 0).tidy := by
  have hf : (fs.filter fun f => f.1 != 0) = [] := by
    rw [List.filter_eq_nil_iff]; intro f hm; simp [h f hm]
  unfold settle
  simp only [hf, fateLanes, fateTraps, List.foldl_nil, forEach, List.flatMap_nil, List.filter_nil, List.isEmpty_nil, if_true, endLanes_zero, modWarp_modWarp]

/-- One group of lanes has a fate that neither traps nor ends them: it gets an entry of its own. -/
theorem settle_one (s : State) (g : Nat) (e : Entry) (fs : Fates) (m : LaneMask) (f : Fate) (x : Entry)
    (h : (fs.filter fun f => f.1 != 0) = [(m, f)]) (hx : fateEntry e s.nextId m f = some x) :
    settle s g e fs = { s with nextId := s.nextId + 1 }.modWarp g fun w =>
      ({ (w.stepOff e m) with entries := (w.stepOff e m).entries ++ [x] } : Warp).tidy := by
  have he : f.isEnd = false := by cases f <;> simp_all [fateEntry, Fate.isEnd]
  have hts : fateTraps [(m, f)] = [] := by cases f <;> simp_all [fateEntry, fateTraps]
  have hg : fateLanes [(m, f)] (fun _ => true) = m := by simp [fateLanes]
  have hz : fateLanes [(m, f)] Fate.isEnd = 0 := by simp [fateLanes, he]
  unfold settle
  simp only [h, hts, hg, hz, forEach, List.foldl_cons, List.foldl_nil, List.filter_nil, List.isEmpty_nil, if_true, endLanes_zero, placeFate,
    State.modWarp_nextId, hx]
  rw [show (s.modWarp g fun w => w.stepOff e m).newId.1 = { s with nextId := s.nextId + 1 }.modWarp g fun w => w.stepOff e m from rfl]
  simp only [modWarp_modWarp]

/-! ## The holder (R180) -/

theorem holderCheck_eq (s : State) (p : Nat) : s.holderCheck p = { s with parts := (s.holderCheck p).parts } := by
  unfold State.holderCheck
  split
  · rfl
  · split
    · split <;> rfl
    · rfl

/-- The partition's records after an issue are all that changes (R142, R180). -/
theorem issueDone_eq (s : State) (p : Nat) : s.issueDone p = { s with parts := (s.issueDone p).parts } := by
  have turn (t : State) : t.turnDone p = { t with parts := (t.turnDone p).parts } := by unfold State.turnDone; split <;> rfl
  unfold State.issueDone
  rw [turn (s.holderCheck p), holderCheck_eq]

@[simp] theorem warp?_issueDone (s : State) (p g : Nat) : (s.issueDone p).warp? g = s.warp? g := by
  rw [issueDone_eq]; rfl

/-! ## Windows and last-use bits -/

/-- Nothing to settle: every outstanding result still has an open window or no value (R185). -/
theorem settleResults_open (w : Warp) (h : ∀ r ∈ w.results, r.lanes ≠ [] ∧ ∀ l ∈ r.lanes, (l.2.left == 0 && l.2.vals.isSome) = false) :
    w.settleResults = w := by
  have key : ∀ (rs : List Result) (w : Warp) (acc : List Result),
      (∀ r ∈ rs, r.lanes ≠ [] ∧ ∀ l ∈ r.lanes, (l.2.left == 0 && l.2.vals.isSome) = false) →
      rs.foldl settleStep (w, acc) = (w, acc ++ rs) := by
    intro rs
    induction rs with
    | nil => intro w acc _; simp
    | cons r rest ih =>
      intro w acc hr
      obtain ⟨h1, h2⟩ := hr r (by simp)
      have hfin : (r.lanes.filter fun l => l.2.left == 0 && l.2.vals.isSome) = [] := by
        rw [List.filter_eq_nil_iff]; intro l hl; simp [h2 l hl]
      have hleft : (r.lanes.filter fun l => !(l.2.left == 0 && l.2.vals.isSome)) = r.lanes := by
        rw [List.filter_eq_self]; intro l hl; simp [h2 l hl]
      have hne : r.lanes.isEmpty = false := by cases hl : r.lanes with | nil => exact absurd hl h1 | cons _ _ => rfl
      simp only [List.foldl_cons, settleStep, hfin, hleft, List.isEmpty_nil, if_true, hne, Bool.false_eq_true, if_false]
      rw [ih _ _ fun x hx => hr x (by simp [hx])]
      simp
  unfold Warp.settleResults
  simp only
  rw [key w.results _ [] h]
  simp

/-- An instruction whose own results are the only outstanding ones closes no window. -/
theorem afterIssue_own (w : Warp) (lim : Nat) (lanes written : LaneMask) (o : Opnds)
    (h : ∀ r ∈ w.results, lim ≤ r.id ∧ r.lanes ≠ [] ∧ ∀ l ∈ r.lanes, (l.2.left == 0 && l.2.vals.isSome) = false) :
    w.afterIssue lim lanes written o = w := by
  have hm : (w.results.map fun r =>
      if lim ≤ r.id then r
      else { r with lanes := r.lanes.map fun l =>
        if lanes.getLsbD l.1 && 0 < l.2.left then
          (l.1, { l.2 with left := l.2.left - 1
                           kept := l.2.kept ++ if written.getLsbD l.1 then
                             (r.dests.zipIdx.filter fun e => o.putsIn l.1 e.1).map fun e => e.2 else [] })
        else l }) = w.results := by
    conv => rhs; rw [← List.map_id w.results]
    exact List.map_congr_left fun r hr => by simp [(h r hr).1]
  unfold Warp.afterIssue
  rw [hm]
  exact settleResults_open w fun r hr => (h r hr).2

theorem lastUse_none (w : Warp) (lim : Nat) (o : Opnds) (done : LaneMask) (h : o.lu = []) : w.lastUse lim o done = w := by
  simp [Warp.lastUse, h]

/-- With no lane parked or trapped at the instruction, its last-use bits act at once (R172). -/
theorem lastUseHeld_calm (w : Warp) (lim : Nat) (pc : DWord) (o : Opnds) (lanes done : LaneMask) (h : w.heldFrees = []) :
    w.lastUseHeld lim pc o lanes 0 done false = w.lastUse lim o done := by
  unfold Warp.lastUseHeld
  rw [h]
  simp only [List.find?_nil]
  split
  · next hl => rw [lastUse_none]; simpa using hl
  · simp

end Sys2Proof.Machine
end

