-- ==== Sys2Proof/Laws/Lane.lean ====
section
/-! SUPPORT. Laws of the common shape of lane instructions (R176, R187): last-use bits, delivery, poisoned guards. -/

namespace Sys2Proof.Machine

theorem mem_lanesOf (m : LaneMask) (l : Nat) : l ∈ lanesOf m ↔ l < 32 ∧ m.getLsbD l = true := by
  unfold lanesOf; simp [List.mem_filter]

theorem lanesOf_zero : lanesOf 0 = [] := by decide

/-! ## What may change -/

/-- From w to w' only v and p registers and flags change. -/
def RegsOnly (w w' : Warp) : Prop :=
  w' = { w with v := w'.v, mapped := w'.mapped, pv := w'.pv, pp := w'.pp, fflags := w'.fflags }

theorem RegsOnly.refl (w : Warp) : RegsOnly w w := rfl

theorem RegsOnly.trans {a b c : Warp} (h : RegsOnly a b) (k : RegsOnly b c) : RegsOnly a c := by
  cases a; cases b; cases c
  simp only [RegsOnly, Warp.mk.injEq] at *
  simp_all

theorem RegsOnly.ceil {a b : Warp} (h : RegsOnly a b) : b.ceil = a.ceil := by rw [h]
theorem RegsOnly.entries {a b : Warp} (h : RegsOnly a b) : b.entries = a.entries := by rw [h]
theorem RegsOnly.results {a b : Warp} (h : RegsOnly a b) : b.results = a.results := by rw [h]
theorem RegsOnly.heldFrees {a b : Warp} (h : RegsOnly a b) : b.heldFrees = a.heldFrees := by rw [h]
theorem RegsOnly.spilled {a b : Warp} (h : RegsOnly a b) : b.spilled = a.spilled := by rw [h]

theorem RegsOnly.foldl {α : Type} (l : List α) (f : Warp → α → Warp) (h : ∀ w x, RegsOnly w (f w x)) :
    ∀ w, RegsOnly w (l.foldl f w) := by
  induction l with
  | nil => exact fun w => .refl w
  | cons x r ih => exact fun w => (h w x).trans (ih _)

theorem regsOnly_vput (w : Warp) (r l : Nat) (x : LaneVal) : RegsOnly w (w.vput r l x) := by
  unfold Warp.vput; split <;> rfl
theorem regsOnly_vmap (w : Warp) (r : Nat) : RegsOnly w (w.vmap r) := by
  unfold Warp.vmap; split <;> rfl
theorem regsOnly_pput (w : Warp) (r l : Nat) (b x : Bool) : RegsOnly w (w.pput r l b x) := by
  unfold Warp.pput; split <;> rfl
theorem regsOnly_vputN (n : Nat) : ∀ (w : Warp) (r l x : Nat) (b : Bool), RegsOnly w (w.vputN r n l x b) := by
  induction n with
  | zero => exact fun w _ _ _ _ => .refl w
  | succ k ih => exact fun w r l x b => (regsOnly_vput w _ _ _).trans (ih _ _ _ _ _)

theorem regsOnly_putOut (w : Warp) (l : Nat) (o : LaneOut) : RegsOnly w (w.putOut l o) := by
  unfold Warp.putOut
  exact ((RegsOnly.foldl o.v _ (fun w x => regsOnly_vputN x.2.1 w _ _ _ _) w).trans
    (RegsOnly.foldl o.p _ (fun w x => regsOnly_pput w _ _ _ _) _)).trans rfl

theorem regsOnly_poisonDests (w : Warp) (m : LaneMask) (o : Opnds) : RegsOnly w (w.poisonDests m o) := by
  unfold Warp.poisonDests
  exact RegsOnly.foldl _ _ (fun w l => (RegsOnly.foldl o.vw _ (fun w r => regsOnly_vput w r l _) w).trans
    (RegsOnly.foldl o.pw _ (fun w r => regsOnly_pput w r l _ _) _)) w

theorem setBit256_zero (r : Nat) : setBit256 0 r false = 0 := by simp [setBit256]

/-! ## Last-use bits (R172) -/

theorem vget_keepLanes (w : Warp) (r : Nat) (m : LaneMask) (r' l : Nat) (h : l < 32) :
    (w.keepLanes r m).vget r' l = if r' = r ∧ m.getLsbD l = false then .unmapped else w.vget r' l := by
  have hm : (w.keepLanes r m).isMapped r' = w.isMapped r' := rfl
  have hq : (vkey r' l / 32 != r || m.getLsbD (vkey r' l % 32)) = (r' != r || m.getLsbD l) := by
    rw [vkey_div _ _ h, vkey_mod _ _ h]
  unfold Warp.vget
  rw [hm]
  unfold tgetD
  by_cases hc : r' = r ∧ m.getLsbD l = false
  · have key : tget (w.keepLanes r m).v (vkey r' l) = none :=
      tget_filter_drop w.v (fun k => k / 32 != r || m.getLsbD (k % 32)) (hq.trans (by rw [hc.1, hc.2]; simp))
    rw [if_pos hc, key]
    split <;> rfl
  · have key : tget (w.keepLanes r m).v (vkey r' l) = tget w.v (vkey r' l) :=
      tget_filter_keep w.v (fun k => k / 32 != r || m.getLsbD (k % 32)) (hq.trans (by
        by_cases hr : r' = r
        · cases hb : m.getLsbD l with
          | true => simp
          | false => exact absurd ⟨hr, hb⟩ hc
        · simp [hr]))
    rw [if_neg hc, key]

/-- One last-use bit. -/
def freeStep (o : Opnds) (done : LaneMask) (w : Warp) (r : Nat) : Warp :=
  if o.vw.contains r && done != 0 then w.keepLanes r (if o.async then 0 else done) else w.vfree r

/-- The lanes of a register that a last-use bit leaves in place. -/
def keptLane (o : Opnds) (done : LaneMask) (r l : Nat) : Bool := o.vw.contains r && done != 0 && !o.async && done.getLsbD l

theorem vget_freeStep (o : Opnds) (done : LaneMask) (w : Warp) (r r' l : Nat) (hr : r' < 256) (h : l < 32) :
    (freeStep o done w r).vget r' l = if r' = r ∧ keptLane o done r l = false then .unmapped else w.vget r' l := by
  unfold freeStep keptLane
  by_cases hc : (o.vw.contains r && done != 0) = true
  · rw [if_pos hc, vget_keepLanes _ _ _ _ _ h, hc]
    cases ha : o.async <;> simp
  · rw [if_neg hc, Warp.vget_vfree _ _ _ _ hr h]
    rw [Bool.not_eq_true] at hc
    rw [hc]; simp

theorem vget_freeAll (o : Opnds) (done : LaneMask) (r' l : Nat) (hr : r' < 256) (h : l < 32) : ∀ (L : List Nat) (w : Warp),
    (L.foldl (freeStep o done) w).vget r' l = if r' ∈ L ∧ keptLane o done r' l = false then .unmapped else w.vget r' l := by
  intro L
  induction L with
  | nil => intro w; simp
  | cons r t ih =>
    intro w
    rw [List.foldl_cons, ih, vget_freeStep _ _ _ _ _ _ hr h]
    by_cases hk : keptLane o done r' l = false
    · by_cases h1 : r' ∈ t
      · simp [h1, hk]
      · by_cases h2 : r' = r
        · subst h2; simp [h1, hk]
        · simp [h1, h2]
    · by_cases h2 : r' = r
      · subst h2; simp [hk]
      · simp [hk, h2]

/-- With no earlier result outstanding every last-use bit acts. -/
theorem lastUse_eq (w : Warp) (lim : Nat) (o : Opnds) (done : LaneMask) (h : ∀ r ∈ w.results, lim ≤ r.id) :
    w.lastUse lim o done = o.lu.dedup.foldl (freeStep o done) w := by
  unfold Warp.lastUse
  have hf : (o.lu.dedup.filter fun r => !(w.results.any fun x => x.id < lim && x.dests.contains (.v r) && !x.lanes.isEmpty)) = o.lu.dedup := by
    rw [List.filter_eq_self]
    intro r _
    have : (w.results.any fun x => decide (x.id < lim) && x.dests.contains (.v r) && !x.lanes.isEmpty) = false := by
      rw [List.any_eq_false]
      intro x hx
      have := h x hx
      simp [Nat.not_lt.mpr this]
    rw [this]; rfl
  simp only [hf]
  rfl

theorem regsOnly_freeStep (o : Opnds) (done : LaneMask) (w : Warp) (r : Nat) (h : w.spilled = 0) : RegsOnly w (freeStep o done w r) := by
  unfold freeStep
  split
  · rfl
  · unfold Warp.vfree RegsOnly
    rw [h, setBit256_zero]

theorem regsOnly_freeAll (o : Opnds) (done : LaneMask) : ∀ (L : List Nat) (w : Warp), w.spilled = 0 → RegsOnly w (L.foldl (freeStep o done) w) := by
  intro L
  induction L with
  | nil => exact fun w _ => .refl w
  | cons r t ih =>
    intro w h
    have h1 := regsOnly_freeStep o done w r h
    exact h1.trans (ih _ (h1.spilled.trans h))

theorem freeStep_p (o : Opnds) (done : LaneMask) (w : Warp) (r : Nat) :
    (freeStep o done w r).pv = w.pv ∧ (freeStep o done w r).pp = w.pp ∧ (freeStep o done w r).fflags = w.fflags := by
  unfold freeStep; split <;> exact ⟨rfl, rfl, rfl⟩

theorem freeAll_p (o : Opnds) (done : LaneMask) : ∀ (L : List Nat) (w : Warp),
    (L.foldl (freeStep o done) w).pv = w.pv ∧ (L.foldl (freeStep o done) w).pp = w.pp ∧ (L.foldl (freeStep o done) w).fflags = w.fflags := by
  intro L
  induction L with
  | nil => exact fun w => ⟨rfl, rfl, rfl⟩
  | cons r t ih =>
    intro w
    obtain ⟨a, b, c⟩ := ih (freeStep o done w r)
    obtain ⟨a', b', c'⟩ := freeStep_p o done w r
    exact ⟨a.trans a', b.trans b', c.trans c'⟩

/-! ## Delivery (R171, R185) -/

theorem vget_pput (w : Warp) (r l r' l' : Nat) (b x : Bool) : (w.pput r l b x).vget r' l' = w.vget r' l' := by
  unfold Warp.pput; split <;> rfl
theorem pget_vput (w : Warp) (r l r' l' : Nat) (x : LaneVal) :
    (w.vput r l x).pget r' l' = w.pget r' l' ∧ (w.vput r l x).ppoison r' l' = w.ppoison r' l' := by
  unfold Warp.vput; split <;> exact ⟨rfl, rfl⟩
theorem pget_vputN (n : Nat) : ∀ (w : Warp) (r l x : Nat) (b : Bool) (r' l' : Nat),
    (w.vputN r n l x b).pget r' l' = w.pget r' l' ∧ (w.vputN r n l x b).ppoison r' l' = w.ppoison r' l' := by
  induction n with
  | zero => exact fun _ _ _ _ _ _ _ => ⟨rfl, rfl⟩
  | succ k ih =>
    intro w r l x b r' l'
    obtain ⟨a, c⟩ := ih (w.vput r l { bits := BitVec.ofNat 32 x, poison := b }) (r + 1) l (x / 2 ^ 32) b r' l'
    obtain ⟨a', c'⟩ := pget_vput w r l r' l' { bits := BitVec.ofNat 32 x, poison := b }
    exact ⟨a.trans a', c.trans c'⟩

/-- Writing v groups in order: the last write of a register stands. -/
theorem vget_putV (l r' l' : Nat) (hr : r' < 256) (h : l < 32) (h' : l' < 32) : ∀ (vs : List (Nat × Nat × Nat × Bool)) (w : Warp),
    (vs.foldl (fun (w : Warp) x => w.vputN x.1 x.2.1 l x.2.2.1 x.2.2.2) w).vget r' l' =
      if l' = l ∧ r' < w.ceil then (({ v := vs } : LaneOut).vAt r').getD (w.vget r' l') else w.vget r' l' := by
  intro vs
  induction vs with
  | nil => intro w; simp [LaneOut.vAt]
  | cons y t ih =>
    intro w
    rw [List.foldl_cons, ih, (regsOnly_vputN y.2.1 w _ _ _ _).ceil, Warp.vget_vputN _ _ _ _ _ _ _ _ hr h h']
    unfold LaneOut.vAt
    simp only [List.reverse_cons, List.find?_append]
    by_cases hl : l' = l ∧ r' < w.ceil
    · rw [if_pos hl, if_pos hl]
      cases hf : t.reverse.find? fun y => decide (y.1 ≤ r') && decide (r' < y.1 + y.2.1) with
      | some z => simp
      | none =>
        by_cases hc : y.1 ≤ r' ∧ r' < y.1 + y.2.1
        · have hd : (decide (y.1 ≤ r') && decide (r' < y.1 + y.2.1)) = true := by simp [hc]
          simp only [List.find?_cons, hd, Option.none_or, Option.map_some, Option.getD_some, Option.map_none, Option.getD_none]
          rw [if_pos ⟨hc.1, hc.2, hl.1, hl.2⟩]
        · have hd : (decide (y.1 ≤ r') && decide (r' < y.1 + y.2.1)) = false := by
            rw [Bool.and_eq_false_iff, decide_eq_false_iff_not, decide_eq_false_iff_not]; omega
          simp only [List.find?_cons, hd, List.find?_nil, Option.none_or, Option.map_none, Option.getD_none]
          rw [if_neg fun k => hc ⟨k.1, k.2.1⟩]
    · rw [if_neg hl, if_neg hl, if_neg fun k => hl ⟨k.2.2.1, k.2.2.2⟩]

theorem vget_putOut (w : Warp) (l : Nat) (o : LaneOut) (r' l' : Nat) (hr : r' < 256) (h : l < 32) (h' : l' < 32) :
    (w.putOut l o).vget r' l' = if l' = l ∧ r' < w.ceil then (o.vAt r').getD (w.vget r' l') else w.vget r' l' := by
  have hp : ∀ (ps : List (Nat × Bool × Bool)) (w : Warp),
      (ps.foldl (fun (w : Warp) x => w.pput x.1 l x.2.1 x.2.2) w).vget r' l' = w.vget r' l' := by
    intro ps
    induction ps with
    | nil => exact fun _ => rfl
    | cons x t ih => intro w; rw [List.foldl_cons, ih, vget_pput]
  have hf : (w.putOut l o).vget r' l' = (o.v.foldl (fun (w : Warp) x => w.vputN x.1 x.2.1 l x.2.2.1 x.2.2.2) w).vget r' l' := by
    have := hp o.p (o.v.foldl (fun (w : Warp) x => w.vputN x.1 x.2.1 l x.2.2.1 x.2.2.2) w)
    exact this
  rw [hf, vget_putV l r' l' hr h h']
  rfl

/-- Writing p registers in order: the last write of a register stands. -/
theorem pget_putP (l r' l' : Nat) (h : l < 32) : ∀ (ps : List (Nat × Bool × Bool)) (w : Warp),
    ((ps.foldl (fun (w : Warp) x => w.pput x.1 l x.2.1 x.2.2) w).pget r' l', (ps.foldl (fun (w : Warp) x => w.pput x.1 l x.2.1 x.2.2) w).ppoison r' l') =
      if l' = l ∧ r' < 7 then (({ v := [], p := ps } : LaneOut).pAt r').getD (w.pget r' l', w.ppoison r' l') else (w.pget r' l', w.ppoison r' l') := by
  intro ps
  induction ps with
  | nil => intro w; simp [LaneOut.pAt]
  | cons y t ih =>
    intro w
    rw [List.foldl_cons, ih, Warp.pget_pput _ _ _ _ _ _ _ h, Warp.ppoison_pput _ _ _ _ _ _ _ h]
    unfold LaneOut.pAt
    simp only [List.reverse_cons, List.find?_append]
    by_cases hl : l' = l ∧ r' < 7
    · rw [if_pos hl, if_pos hl]
      cases hf : t.reverse.find? fun y => y.1 == r' with
      | some z => simp
      | none =>
        by_cases hc : r' = y.1
        · have hd : (y.1 == r') = true := by simp [hc]
          have hk : r' = y.1 ∧ l' = l ∧ y.1 < 7 := ⟨hc, hl.1, hc ▸ hl.2⟩
          simp only [List.find?_cons, hd, Option.none_or, Option.map_some, Option.getD_some, Option.map_none, Option.getD_none]
          rw [if_pos hk, if_pos hk]
        · have hd : (y.1 == r') = false := by simp; exact fun e => hc e.symm
          have hk : ¬ (r' = y.1 ∧ l' = l ∧ y.1 < 7) := fun k => hc k.1
          simp only [List.find?_cons, hd, List.find?_nil, Option.none_or, Option.map_none, Option.getD_none]
          rw [if_neg hk, if_neg hk]
    · have hk : ¬ (r' = y.1 ∧ l' = l ∧ y.1 < 7) := fun k => hl ⟨k.2.1, k.1 ▸ k.2.2⟩
      rw [if_neg hl, if_neg hl, if_neg hk, if_neg hk]

theorem pget_putOut (w : Warp) (l : Nat) (o : LaneOut) (r' l' : Nat) (h : l < 32) :
    ((w.putOut l o).pget r' l', (w.putOut l o).ppoison r' l') =
      if l' = l ∧ r' < 7 then (o.pAt r').getD (w.pget r' l', w.ppoison r' l') else (w.pget r' l', w.ppoison r' l') := by
  have hvv : ∀ (vs : List (Nat × Nat × Nat × Bool)) (w : Warp),
      (vs.foldl (fun (w : Warp) x => w.vputN x.1 x.2.1 l x.2.2.1 x.2.2.2) w).pget r' l' = w.pget r' l' ∧
      (vs.foldl (fun (w : Warp) x => w.vputN x.1 x.2.1 l x.2.2.1 x.2.2.2) w).ppoison r' l' = w.ppoison r' l' := by
    intro vs
    induction vs with
    | nil => exact fun _ => ⟨rfl, rfl⟩
    | cons x t ih =>
      intro w
      obtain ⟨a, b⟩ := ih (w.vputN x.1 x.2.1 l x.2.2.1 x.2.2.2)
      obtain ⟨a', b'⟩ := pget_vputN x.2.1 w x.1 l x.2.2.1 x.2.2.2 r' l'
      exact ⟨a.trans a', b.trans b'⟩
  have h1 := pget_putP l r' l' h o.p (o.v.foldl (fun (w : Warp) x => w.vputN x.1 x.2.1 l x.2.2.1 x.2.2.2) w)
  rw [(hvv o.v w).1, (hvv o.v w).2] at h1
  exact h1

/-- Delivery with LA = 0, over a list of lanes. -/
theorem vget_putAll (f : Nat → LaneOut) (r' l' : Nat) (hr : r' < 256) (h' : l' < 32) :
    ∀ (L : List Nat) (w : Warp), (∀ l ∈ L, l < 32) →
      ((L.map fun l => (l, f l)).foldl (fun (w : Warp) x => w.putOut x.1 x.2) w).vget r' l' =
        if l' ∈ L ∧ r' < w.ceil then ((f l').vAt r').getD (w.vget r' l') else w.vget r' l' := by
  intro L
  induction L with
  | nil => intro w _; simp
  | cons l t ih =>
    intro w hL
    have hl : l < 32 := hL l (by simp)
    rw [List.map_cons, List.foldl_cons, ih _ (fun x hx => hL x (by simp [hx])), (regsOnly_putOut w l (f l)).ceil,
      vget_putOut w l (f l) r' l' hr hl h']
    by_cases hc : r' < w.ceil
    · by_cases h1 : l' = l
      · subst h1
        cases (f l').vAt r' <;> simp [hc]
      · by_cases h2 : l' ∈ t <;> simp [h1, h2, hc]
    · simp [hc]

theorem pget_putAll (f : Nat → LaneOut) (r' l' : Nat) :
    ∀ (L : List Nat) (w : Warp), (∀ l ∈ L, l < 32) →
      let z := (L.map fun l => (l, f l)).foldl (fun (w : Warp) x => w.putOut x.1 x.2) w
      (z.pget r' l', z.ppoison r' l') =
        if l' ∈ L ∧ r' < 7 then ((f l').pAt r').getD (w.pget r' l', w.ppoison r' l') else (w.pget r' l', w.ppoison r' l') := by
  intro L
  induction L with
  | nil => intro w _; simp
  | cons l t ih =>
    intro w hL
    have hl : l < 32 := hL l (by simp)
    have hi := ih (w.putOut l (f l)) (fun x hx => hL x (by simp [hx]))
    simp only [List.map_cons, List.foldl_cons] at hi ⊢
    rw [hi, pget_putOut w l (f l) r' l' hl]
    by_cases hc : r' < 7
    · by_cases h1 : l' = l
      · subst h1
        cases (f l').pAt r' <;> simp [hc]
      · by_cases h2 : l' ∈ t <;> simp [h1, h2, hc]
    · simp [hc]

theorem fflags_putAll (f : Nat → LaneOut) : ∀ (L : List Nat) (w : Warp),
    ((L.map fun l => (l, f l)).foldl (fun (w : Warp) x => w.putOut x.1 x.2) w).fflags = L.foldl (fun b l => b ||| (f l).flags) w.fflags := by
  have hput : ∀ (w : Warp) (l : Nat) (o : LaneOut), (w.putOut l o).fflags = w.fflags ||| o.flags := by
    intro w l o
    have h1 : ∀ (vs : List (Nat × Nat × Nat × Bool)) (w : Warp),
        (vs.foldl (fun (w : Warp) x => w.vputN x.1 x.2.1 l x.2.2.1 x.2.2.2) w).fflags = w.fflags := by
      intro vs; induction vs with
      | nil => exact fun _ => rfl
      | cons x t ih => intro w; rw [List.foldl_cons, ih, Warp.vputN_fflags]
    have h2 : ∀ (ps : List (Nat × Bool × Bool)) (w : Warp),
        (ps.foldl (fun (w : Warp) x => w.pput x.1 l x.2.1 x.2.2) w).fflags = w.fflags := by
      intro ps; induction ps with
      | nil => exact fun _ => rfl
      | cons x t ih => intro w; rw [List.foldl_cons, ih, Warp.pput_fflags]
    unfold Warp.putOut
    simp only [h2, h1]
  intro L
  induction L with
  | nil => exact fun _ => rfl
  | cons l t ih => intro w; rw [List.map_cons, List.foldl_cons, ih, hput]; rfl

/-- Poisoned guards (R176): destination lanes keep their bits and become poisoned. -/
theorem vget_poisonRegs (l r' l' : Nat) (hr : r' < 256) (h : l < 32) (h' : l' < 32) : ∀ (L : List Nat) (w : Warp),
    (L.foldl (fun (w : Warp) r => w.vpoison r l) w).vget r' l' =
      if l' = l ∧ r' ∈ L ∧ r' < w.ceil then { bits := (w.vget r' l').bits, poison := true } else w.vget r' l' := by
  intro L
  induction L with
  | nil => intro w; simp
  | cons r t ih =>
    intro w
    rw [List.foldl_cons, ih]
    unfold Warp.vpoison
    rw [(regsOnly_vput w r l _).ceil, Warp.vget_vput _ _ _ _ _ _ hr h h']
    by_cases hl : l' = l
    · subst hl
      by_cases h1 : r' = r
      · subst h1; by_cases hc : r' < w.ceil <;> simp [hc]
      · by_cases hc : r' < w.ceil <;> by_cases h2 : r' ∈ t <;> simp [h1, h2, hc]
    · simp [hl]

theorem ppoison_poisonRegs (l r' l' : Nat) (h : l < 32) : ∀ (L : List Nat) (w : Warp),
    (L.foldl (fun (w : Warp) r => w.ppoisonAt r l) w).pget r' l' = w.pget r' l' ∧
    (L.foldl (fun (w : Warp) r => w.ppoisonAt r l) w).ppoison r' l' = if l' = l ∧ r' ∈ L ∧ r' < 7 then true else w.ppoison r' l' := by
  intro L
  induction L with
  | nil => intro w; simp
  | cons r t ih =>
    intro w
    obtain ⟨a, b⟩ := ih (w.ppoisonAt r l)
    rw [List.foldl_cons, a, b]
    unfold Warp.ppoisonAt
    rw [Warp.pget_pput _ _ _ _ _ _ _ h, Warp.ppoison_pput _ _ _ _ _ _ _ h]
    constructor
    · split
      · next hc => rw [hc.1, hc.2.1]
      · rfl
    · by_cases hl : l' = l
      · subst hl
        by_cases h1 : r' = r
        · subst h1; by_cases hc : r' < 7 <;> simp [hc]
        · simp [h1]
      · simp [hl]

theorem poisonDests_get (o : Opnds) (r' l' : Nat) (hr : r' < 256) (h' : l' < 32) : ∀ (L : List Nat) (w : Warp), (∀ l ∈ L, l < 32) →
    let z := L.foldl (fun (w : Warp) l =>
      let w := o.vw.foldl (fun (w : Warp) r => w.vpoison r l) w
      o.pw.foldl (fun (w : Warp) r => w.ppoisonAt r l) w) w
    z.vget r' l' = if l' ∈ L ∧ r' ∈ o.vw ∧ r' < w.ceil then { bits := (w.vget r' l').bits, poison := true } else w.vget r' l' := by
  intro L
  have hp : ∀ (l : Nat) (ps : List Nat) (w : Warp), (ps.foldl (fun (w : Warp) r => w.ppoisonAt r l) w).vget r' l' = w.vget r' l' := by
    intro l ps; induction ps with
    | nil => exact fun _ => rfl
    | cons x t ih => intro w; rw [List.foldl_cons, ih]; exact vget_pput _ _ _ _ _ _ _
  have hc : ∀ (l : Nat) (w : Warp), (o.pw.foldl (fun (w : Warp) r => w.ppoisonAt r l) (o.vw.foldl (fun (w : Warp) r => w.vpoison r l) w)).ceil = w.ceil :=
    fun l w => ((RegsOnly.foldl o.vw _ (fun w r => regsOnly_vput w r l _) w).trans
      (RegsOnly.foldl o.pw _ (fun w r => regsOnly_pput w r l _ _) _)).ceil
  induction L with
  | nil => intro w _; simp
  | cons l t ih =>
    intro w hL
    have hi := ih (o.pw.foldl (fun (w : Warp) r => w.ppoisonAt r l) (o.vw.foldl (fun (w : Warp) r => w.vpoison r l) w))
      (fun x hx => hL x (by simp [hx]))
    simp only [List.foldl_cons] at hi ⊢
    rw [hi, hc, hp, vget_poisonRegs l r' l' hr (hL l (by simp)) h']
    by_cases h1 : l' = l
    · subst h1
      by_cases h2 : r' ∈ o.vw <;> by_cases h3 : r' < w.ceil <;> simp [h2, h3]
    · by_cases h2 : l' ∈ t <;> simp [h1, h2]

theorem poisonDests_pget (o : Opnds) (r' l' : Nat) : ∀ (L : List Nat) (w : Warp), (∀ l ∈ L, l < 32) →
    let z := L.foldl (fun (w : Warp) l =>
      let w := o.vw.foldl (fun (w : Warp) r => w.vpoison r l) w
      o.pw.foldl (fun (w : Warp) r => w.ppoisonAt r l) w) w
    z.pget r' l' = w.pget r' l' ∧ z.ppoison r' l' = if l' ∈ L ∧ r' ∈ o.pw ∧ r' < 7 then true else w.ppoison r' l' := by
  intro L
  have hp : ∀ (l : Nat) (ps : List Nat) (w : Warp), (ps.foldl (fun (w : Warp) r => w.vpoison r l) w).pget r' l' = w.pget r' l' ∧
      (ps.foldl (fun (w : Warp) r => w.vpoison r l) w).ppoison r' l' = w.ppoison r' l' := by
    intro l ps; induction ps with
    | nil => exact fun _ => ⟨rfl, rfl⟩
    | cons x t ih =>
      intro w
      obtain ⟨a, b⟩ := ih (w.vpoison x l)
      obtain ⟨a', b'⟩ := pget_vput w x l r' l' { bits := (w.vget x l).bits, poison := true }
      exact ⟨a.trans a', b.trans b'⟩
  induction L with
  | nil => intro w _; simp
  | cons l t ih =>
    intro w hL
    have hi := ih (o.pw.foldl (fun (w : Warp) r => w.ppoisonAt r l) (o.vw.foldl (fun (w : Warp) r => w.vpoison r l) w))
      (fun x hx => hL x (by simp [hx]))
    simp only [List.foldl_cons] at hi ⊢
    obtain ⟨a, b⟩ := ppoison_poisonRegs l r' l' (hL l (by simp)) o.pw (o.vw.foldl (fun (w : Warp) r => w.vpoison r l) w)
    rw [hi.1, hi.2, a, b, (hp l o.vw w).1, (hp l o.vw w).2]
    refine ⟨rfl, ?_⟩
    by_cases h1 : l' = l
    · subst h1
      by_cases h2 : r' ∈ o.pw <;> by_cases h3 : r' < 7 <;> simp [h2, h3]
    · by_cases h2 : l' ∈ t <;> simp [h1, h2]

end Sys2Proof.Machine
end

