-- ==== Sys2Proof/Laws/Body.lean ====
section
/-! SUPPORT. Laws of issuing a calm split: what issueCore and finishBody do around an instruction's body (R10, R137). -/

namespace Sys2Proof.Machine

/-! ## What a calm split is -/

theorem Calm.parts {s : State} {g : Nat} {w : Warp} {e : Entry} (h : Calm s g w e) :
    s.warp? g = some w ∧ w.entry? e.eid = some e ∧ e.st = .ready := by
  have hs := h.split
  unfold State.issuing at hs
  cases hc : s.cur with
  | none => rw [hc] at hs; simp at hs
  | some c =>
    rw [hc] at hs
    simp only [Option.bind_some] at hs
    cases hw : s.warp? c.1 with
    | none => rw [hw] at hs; simp at hs
    | some w' =>
      rw [hw] at hs
      simp only [Option.bind_some] at hs
      cases he : w'.entry? c.2 with
      | none => rw [he] at hs; simp at hs
      | some e' =>
        rw [he] at hs
        simp only [Option.bind_some] at hs
        by_cases hr : (e'.st == EntryState.ready) = true
        · rw [if_pos hr] at hs
          simp only [Option.some.injEq, Prod.mk.injEq] at hs
          obtain ⟨h1, h2, h3⟩ := hs
          subst h2 h3
          have hid : e'.eid = c.2 := by
            have := List.find?_some he
            simpa using this
          refine ⟨h1 ▸ hw, ?_, by simpa using hr⟩
          rw [hid]; exact he
        · rw [if_neg hr] at hs; simp at hs

theorem Calm.warp {s : State} {g : Nat} {w : Warp} {e : Entry} (h : Calm s g w e) : s.warp? g = some w := h.parts.1
theorem Calm.mem {s : State} {g : Nat} {w : Warp} {e : Entry} (h : Calm s g w e) : e ∈ w.entries :=
  List.mem_of_find?_eq_some h.parts.2.1

/-! ## Marking the issuing entry -/

/-- The entry marked as issuing. -/
def Warp.marked (w : Warp) (k : Nat) : Warp := w.modEntry k fun x => { x with st := .issuing }

/-! ## Issuing -/

theorem counted_eq (s : State) (w : Warp) (o : Opnds) (act : LaneMask) :
    s.counted w o act = { s with events := (s.counted w o act).events } := by
  unfold State.counted
  split
  · rfl
  · rw [State.count_eq _ .registerRange, State.count_eq s .unmappedRead]

theorem counted_none (s : State) (w : Warp) (o : Opnds) (act : LaneMask) (h : o.vr = []) (h' : o.vw = []) :
    s.counted w o act = s := by
  unfold State.counted
  split
  · rfl
  · rw [h, h']; rfl

/-- The fates before the body: none but the lanes of a poisoned guard that traps (R144). -/
def preFates (kind : GuardKind) (pg : LaneMask) : Fates :=
  [(0, .trap { cause := 0x06, detail := 0, addr := 0 })] ++ [] ++ if kind == .traps then [(pg, .trap (poisonTrap 0))] else []

theorem preFates_zero (kind : GuardKind) (pg : LaneMask) (h : kind ≠ .traps ∨ pg = 0) : ∀ f ∈ preFates kind pg, f.1 = 0 := by
  unfold preFates
  intro f hf
  cases kind <;> simp at hf h
  all_goals try (rcases hf with rfl | rfl)
  all_goals simp_all

theorem issueCore_calm {s : State} {g : Nat} {w : Warp} {e : Entry} (hc : Calm s g w e) (o : Opnds)
    (sel : Warp → LaneMask → LaneMask × LaneMask) (kind : GuardKind) (body : Body)
    (hrel : o.rel = 0 ∨ relMet s g o.rel e.mask = true) (hhome : homeOpen s g o = true)
    (hroom : (((sel w e.mask).1 = 0 ∧ (kind = .poisons → (sel w e.mask).2 = 0))) ∨ Room s g w o) :
    issueCore s o sel kind body = .next (runBody ((s.counted w o (sel w e.mask).1).engaged g o) g e o e.mask (sel w e.mask).1
      (if kind == .traps then 0 else (sel w e.mask).2) (preFates kind (sel w e.mask).2) body) := by
  have hwf : ∀ m ds, w.waitsFor m ds = [] := by
    intro m ds; unfold Warp.waitsFor; rw [hc.results]; simp
  have hwr : ∀ m a x, w.windowReads m a x = [] := by
    intro m a x; unfold Warp.windowReads; rw [hc.results]; simp
  have hbt : w.budgetTake e.mask = (w, 0) := by unfold Warp.budgetTake; rw [hc.budget]
  have hmw : s.modWarp g (fun _ => w) = s := modWarp_id hc.warp rfl
  have hsp : ∀ r, w.isSpilled r = false := by
    intro r; unfold Warp.isSpilled; rw [hc.spilled]; simp
  have hbl : blockers s g w e o = ([], 0) := by
    unfold blockers
    rw [hwf]
    rcases hrel with h | h <;> simp [h, hhome]
  have hdm : maskOf [] = 0 := by decide
  have hfil : ((o.vr ++ o.vw).filter fun r => w.isSpilled r) = [] := by
    rw [List.filter_eq_nil_iff]; intro r _; simp [hsp r]
  have hlent : borrowed w o = [] := by
    unfold borrowed; rw [List.filter_eq_nil_iff]; intro r _; simp [hsp r]
  have hpool : (!(if ((sel w e.mask).1 ||| (if kind == .poisons then (sel w e.mask).2 else 0)) = 0 then ([] : List Nat) else poolNeed w o).isEmpty &&
      !mayGrant s g w e (if ((sel w e.mask).1 ||| (if kind == .poisons then (sel w e.mask).2 else 0)) = 0 then ([] : List Nat) else poolNeed w o).length) = false := by
    rcases hroom with ⟨h1, h2⟩ | h
    · have : ((sel w e.mask).1 ||| (if kind == .poisons then (sel w e.mask).2 else 0)) = 0 := by
        rw [h1]
        cases kind <;> simp at h2 ⊢
        exact h2
      rw [if_pos this]; rfl
    · replace h : poolNeed w o = [] ∨ mayGrant s g w e (poolNeed w o).length = true := h.imp id fun h => h e hc.split
      rcases h with h | h
      · rw [h, ite_self]; rfl
      · split
        · split <;> simp_all
        · split <;> simp_all
  unfold issueCore
  rw [hc.split]
  simp only [hbl, hlent, ite_self, List.map_nil, hdm, mask_full, hwr, hbt, hmw, hfil, refillAll, List.length_nil, State.count_zero,
    List.isEmpty_nil, Bool.not_true, Bool.false_or, Bool.false_eq_true, if_false, hpool, lanesOf_zero, if_true, bne_self_eq_false]
  unfold State.engaged State.counted
  by_cases ha : (sel w e.mask).1 = 0 <;> simp only [ha, if_true, if_false] <;> rfl

theorem engaged_none (s : State) (g : Nat) {o : Opnds} (h : o.home = []) : s.engaged g o = s := by
  unfold State.engaged; rw [h]; rfl
theorem homeOpen_none (s : State) (g : Nat) {o : Opnds} (h : o.home = []) : homeOpen s g o = true := by
  unfold homeOpen; rw [h]; rfl

/-- The same of an instruction whose engine acts on no device word. -/
theorem issueCore_local {s : State} {g : Nat} {w : Warp} {e : Entry} (hc : Calm s g w e) (o : Opnds)
    (sel : Warp → LaneMask → LaneMask × LaneMask) (kind : GuardKind) (body : Body)
    (hrel : o.rel = 0 ∨ relMet s g o.rel e.mask = true) (hhome : o.home = [])
    (hroom : (((sel w e.mask).1 = 0 ∧ (kind = .poisons → (sel w e.mask).2 = 0))) ∨ Room s g w o) :
    issueCore s o sel kind body = .next (runBody (s.counted w o (sel w e.mask).1) g e o e.mask (sel w e.mask).1
      (if kind == .traps then 0 else (sel w e.mask).2) (preFates kind (sel w e.mask).2) body) := by
  rw [issueCore_calm hc o sel kind body hrel (homeOpen_none s g hhome) hroom, engaged_none _ _ hhome]

/-! ## Finishing -/

/-- What the finishing of an issue does when no lane has a fate: last-use bits, ages, the split goes on. -/
theorem finishBody_plain {lim g : Nat} {e : Entry} {o : Opnds} {lanes act pg : LaneMask} {z : State × Fates} {w : Warp}
    (hz : ∀ f ∈ z.2, f.1 = 0) (hw : z.1.warp? g = some w) (hh : w.heldFrees = [])
    (hr : ∀ r ∈ w.results, lim ≤ r.id ∧ r.lanes ≠ [] ∧ ∀ l ∈ r.lanes, (l.2.left == 0 && l.2.vals.isSome) = false)
    (hlu : ∀ m, ((w.lastUse lim o m).results = w.results)) :
    finishBody lim g e o lanes act pg z = (z.1.modWarp g fun w => w.lastUse lim o (act ||| pg)).passed g e := by
  have h1 : fateLanes z.2 Fate.isTrap = 0 := fateLanes_zero _ _ fun f hf _ => hz f hf
  have h2 : fateLanes z.2 Fate.isAgain = 0 := fateLanes_zero _ _ fun f hf _ => hz f hf
  unfold finishBody State.passed
  simp only [h1, h2, settle_none _ _ _ _ hz, mask_full, modWarp_modWarp]
  rw [modWarp_congr hw (h := fun x => (((x.lastUse lim o (act ||| pg)).aged e.eid z.1.now).stepOff e 0).tidy)]
  · rfl
  · rw [show ((0 : LaneMask) != 0) = false from rfl, lastUseHeld_calm _ _ _ _ _ _ hh, afterIssue_own]
    rw [hlu]; exact hr

/-! ## Going on behind the instruction -/

theorem map_modFirst (l : List Entry) (k : Nat) (f p : Entry → Entry) (e : Entry) (h : ∀ x ∈ l, x.eid = k → x = e) (hq : p (f e) = p e) :
    (modFirst l (fun x => x.eid == k) f).map p = l.map p := by
  induction l with
  | nil => rfl
  | cons x r ih =>
    unfold modFirst
    by_cases hx : x.eid = k
    · have hxe := h x (by simp) hx
      have hb : (x.eid == k) = true := by simpa using hx
      rw [hb, if_pos rfl, List.map_cons, List.map_cons, hxe, hq]
    · have hb : (x.eid == k) = false := by simpa using hx
      rw [hb]
      simp only [Bool.false_eq_true, if_false, List.map_cons]
      rw [ih fun y hy => h y (List.mem_cons_of_mem _ hy)]

/-- Marking the issuing entry leaves no trace behind the instruction. -/
theorem stepOff_marked (w : Warp) (e : Entry) (now : Nat) (h : ∀ x ∈ w.entries, x.eid = e.eid → x = e) :
    ((w.marked e.eid).aged e.eid now).stepOff e 0 = (w.aged e.eid now).stepOff e 0 := by
  unfold Warp.stepOff Warp.aged Warp.marked Warp.modEntry
  simp only [List.map_map]
  rw [map_modFirst w.entries e.eid _ _ e h]
  simp

theorem passed_frame (s : State) (g : Nat) (e : Entry) :
    s.passed g e = { s with warps := (s.passed g e).warps, parts := (s.passed g e).parts, cur := none } := by
  unfold State.passed
  have h := issueDone_eq (s.modWarp g fun w => ((w.aged e.eid s.now).stepOff e 0).tidy).idle (partOf g)
  generalize (s.modWarp g fun w => ((w.aged e.eid s.now).stepOff e 0).tidy).idle.issueDone (partOf g) = y at h ⊢
  rw [h]; rfl

theorem passed_warp (s : State) (g : Nat) (e : Entry) (w : Warp) (hw : s.warp? g = some w) :
    (s.passed g e).warp? g = some (((w.aged e.eid s.now).stepOff e 0).tidy) := by
  unfold State.passed
  rw [warp?_issueDone]
  show ((s.modWarp g _).warp? g) = _
  rw [warp?_modWarp, hw]; rfl

theorem passed_warp_other (s : State) {g h : Nat} (e : Entry) (hn : h ≠ g) : (s.passed g e).warp? h = s.warp? h := by
  unfold State.passed
  rw [warp?_issueDone]
  exact warp?_modWarp_other s _ hn

/-- The frontier and the ages alone change. -/
theorem stepped_frame (w : Warp) (e : Entry) (now : Nat) :
    ((w.aged e.eid now).stepOff e 0).tidy =
      { w with entries := (((w.aged e.eid now).stepOff e 0).tidy).entries, left := (((w.aged e.eid now).stepOff e 0).tidy).left, age := 0, lastIssue := now } := by
  unfold Warp.tidy
  have h := Warp.waitmTests_eq ((w.aged e.eid now).stepOff e 0).merge
  generalize ((w.aged e.eid now).stepOff e 0).merge.waitmTests = y at h ⊢
  rw [h]; rfl

/-- Every lane of the split stands behind the instruction. -/
theorem stepped_runs (w : Warp) (e x : Entry) (now l : Nat) (hx : x ∈ w.entries) (hid : x.eid = e.eid) (hl : x.mask.getLsbD l = true) :
    (((w.aged e.eid now).stepOff e 0).tidy).runs l (e.pc + 8) := by
  unfold Warp.tidy
  refine Warp.runs_waitmTests _ _ _ (Warp.runs_merge _ _ _ ?_)
  refine ⟨{ x with mask := x.mask &&& ~~~ 0, pc := e.pc + 8, st := .ready, age := 0, late := false, rel := 0 }, ?_, ?_, rfl, rfl⟩
  · unfold Warp.stepOff Warp.aged
    simp only [List.mem_filter, List.mem_map]
    refine ⟨⟨x, ⟨x, hx, by simp [hid]⟩, by simp [hid]⟩, ?_⟩
    simp only [mask_full]
    have : x.mask ≠ 0 := by
      intro h0; rw [h0] at hl; simp at hl
    simpa using this
  · simpa only [mask_full] using hl

theorem modEntry_mem (w : Warp) (e : Entry) (f : Entry → Entry) (he : w.entry? e.eid = some e) :
    f e ∈ (w.modEntry e.eid f).entries := by
  unfold Warp.entry? at he
  unfold Warp.modEntry
  show f e ∈ modFirst w.entries (fun x => x.eid == e.eid) f
  generalize w.entries = l at he
  induction l with
  | nil => simp at he
  | cons x r ih =>
    unfold modFirst
    by_cases hx : (x.eid == e.eid) = true
    · rw [List.find?_cons, hx] at he
      cases he
      rw [if_pos hx]; simp
    · rw [List.find?_cons] at he
      rw [Bool.not_eq_true] at hx
      rw [hx] at he
      rw [hx]
      exact List.mem_cons_of_mem _ (ih he)

end Sys2Proof.Machine
end

