-- ==== Sys2Proof/Laws/LaneIssue.lean ====
section
/-! SUPPORT. The law of lane instructions: what laneOp does in a calm split (R176, R185, R187). -/

namespace Sys2Proof.Machine

/-- The values depend neither on the mark on the issuing entry nor on the event counters. -/
def LaneForm.Blind (x : LaneForm) : Prop :=
  ∀ (s : State) (ev : Tbl Nat) (g k : Nat) (c : Ctx) (w : Warp) (l : Nat),
    x.val (({ s with events := ev } : State).modWarp g fun w => w.marked k) c (w.marked k) l = x.val s c w l

/-! ## The pieces of the warp's change -/

/-! ## Flags that are due (R72, R217) -/

theorem raise_eq {w z : Warp} (now lat : Nat) (f : Word) (h : z.due = w.due) :
    z.raise now lat f = { z with due := (w.raise now lat f).due } := by
  unfold Warp.raise
  split
  · rw [← h]
  · rw [h]

theorem outFlags_map (f : Nat → LaneOut) (L : List Nat) : outFlags (L.map fun l => (l, f l)) = L.foldl (fun b l => b ||| (f l).flags) 0 := by
  unfold outFlags; rw [List.foldl_map]

/-- Flags that are due stand apart from last-use bits. -/
theorem lastUse_due (w : Warp) (d : List (Nat × Word)) (lim : Nat) (o : Opnds) (m : LaneMask) :
    ({ w with due := d } : Warp).lastUse lim o m = { w.lastUse lim o m with due := d } := by
  unfold Warp.lastUse
  show List.foldl _ _ _ = _
  generalize (o.lu.dedup.filter fun r => !(w.results.any fun x => decide (x.id < lim) && x.dests.contains (.v r) && !x.lanes.isEmpty)) = L
  induction L generalizing w with
  | nil => rfl
  | cons r t ih =>
    simp only [List.foldl_cons]
    rw [← ih]
    congr 1
    split <;> rfl

/-- The mark on an entry and the counters hide nothing of a warp's block. -/
theorem blockOf_marked (s : State) (ev : Tbl Nat) (g k h : Nat) :
    (({ s with events := ev } : State).modWarp g fun w => w.marked k).blockOf h = s.blockOf h := by
  unfold State.blockOf
  by_cases hh : h = g
  · subst hh
    rw [warp?_modWarp]
    have e : ({ s with events := ev } : State).warp? h = s.warp? h := rfl
    rw [e]
    cases s.warp? h <;> rfl
  · rw [warp?_modWarp_other _ _ hh]; rfl

theorem launchOf_marked (s : State) (ev : Tbl Nat) (g k h : Nat) :
    (({ s with events := ev } : State).modWarp g fun w => w.marked k).launchOf h = s.launchOf h := by
  unfold State.launchOf
  rw [blockOf_marked]; rfl

/-- How long an instruction takes does not depend on the mark on its entry. -/
theorem splitLatency_marked (s : State) (ev : Tbl Nat) (g k : Nat) (c : Ctx) :
    splitLatency (({ s with events := ev } : State).modWarp g fun w => w.marked k) c = splitLatency s c := by
  unfold splitLatency fetchWord State.asidOf
  rw [launchOf_marked]; rfl

/-- Only v and p registers, flags and results change. -/
def ResOnly (w w' : Warp) : Prop :=
  w' = { w with v := w'.v, mapped := w'.mapped, pv := w'.pv, pp := w'.pp, fflags := w'.fflags, results := w'.results }

theorem RegsOnly.res {w w' : Warp} (h : RegsOnly w w') : ResOnly w w' := by
  unfold RegsOnly at h
  unfold ResOnly
  rw [h]

theorem ResOnly.trans {a b c : Warp} (h : ResOnly a b) (k : ResOnly b c) : ResOnly a c := by
  cases a; cases b; cases c
  simp only [ResOnly, Warp.mk.injEq] at *
  simp_all

theorem regsOnly_putAll (f : Nat → LaneOut) : ∀ (L : List Nat) (w : Warp),
    RegsOnly w ((L.map fun l => (l, f l)).foldl (fun (w : Warp) x => w.putOut x.1 x.2) w) := by
  intro L
  induction L with
  | nil => exact fun w => .refl w
  | cons l t ih => exact fun w => (regsOnly_putOut w l (f l)).trans (ih _)

/-- Mapping destinations. -/
def mapDests (w : Warp) (ds : List Dest) : Warp := ds.foldl (fun (w : Warp) d => match d with | .v r => w.vmap r | _ => w) w

theorem mapDests_frame : ∀ (ds : List Dest) (w : Warp), RegsOnly w (mapDests w ds) ∧
    (mapDests w ds).pv = w.pv ∧ (mapDests w ds).pp = w.pp ∧ ∀ r l, l < 32 → (mapDests w ds).vget r l = w.vget r l := by
  intro ds
  induction ds with
  | nil => exact fun w => ⟨.refl w, rfl, rfl, fun _ _ _ => rfl⟩
  | cons d t ih =>
    intro w
    cases d with
    | v r =>
      obtain ⟨a, b, c, e⟩ := ih (w.vmap r)
      have hp : (w.vmap r).pv = w.pv ∧ (w.vmap r).pp = w.pp := by unfold Warp.vmap; split <;> exact ⟨rfl, rfl⟩
      exact ⟨(regsOnly_vmap w r).trans a, b.trans hp.1, c.trans hp.2, fun r' l h => (e r' l h).trans (Warp.vget_vmap w r r' l h)⟩
    | p r => exact ih w
    | s r => exact ih w

/-- Delivery behind a window: nothing is written yet. -/
theorem deliver_later (w : Warp) (id la : Nat) (f : Nat → LaneOut) (l : Nat) (r : List Nat) (h : la ≠ 0) :
    w.deliver id la ((l :: r).map fun k => (k, f k)) =
      { mapDests w ((f l).words.map fun e => e.1) with
          results := (mapDests w ((f l).words.map fun e => e.1)).results ++
            [{ id := id, dests := (f l).words.map fun e => e.1, done := true
               lanes := (l :: r).map fun k => (k, { left := la, vals := some ((f k).words.map fun e => e.2) }) }]
          fflags := ((l :: r).map fun k => (k, f k)).foldl (fun b x => b ||| x.2.flags) (mapDests w ((f l).words.map fun e => e.1)).fflags } := by
  unfold Warp.deliver
  rw [if_neg (by simp [h])]
  simp only [List.map_map]
  rfl

theorem deliver_now (w : Warp) (id la : Nat) (outs : List (Nat × LaneOut)) (h : la = 0 ∨ outs = []) :
    w.deliver id la outs = outs.foldl (fun (w : Warp) x => w.putOut x.1 x.2) w := by
  unfold Warp.deliver
  rw [if_pos]
  rcases h with h | h <;> simp [h]

/-- The operands as they are issued. -/
def LaneForm.issued (x : LaneForm) (sn pt : List (Nat × LaneMask)) : Opnds :=
  { x.o with async := x.la != 0, gp := [x.g.n], seen := sn, put := pt }

variable (sn pt : List (Nat × LaneMask))

/-- The warp after delivery, poisoned guards and last-use bits. -/
def LaneForm.out (x : LaneForm) (sn pt : List (Nat × LaneMask)) (id : Nat) (f : Nat → LaneOut) (act pg : LaneMask) (w : Warp) : Warp :=
  ((w.deliver id x.la ((lanesOf act).map fun l => (l, f l))).poisonDests pg x.o).lastUse id (x.issued sn pt) (act ||| pg)

/-- What an instruction behind a window leaves outstanding. -/
def laterOf (la id : Nat) (f : Nat → LaneOut) (act : LaneMask) : List Result :=
  if la = 0 then []
  else
    match lanesOf act with
    | [] => []
    | l :: r =>
      [{ id := id, dests := (f l).words.map fun e => e.1, done := true
         lanes := (l :: r).map fun k => (k, { left := la, vals := some ((f k).words.map fun e => e.2) }) }]

/-- Delivery: registers, flags and results. -/
theorem deliver_law (w : Warp) (id la : Nat) (f : Nat → LaneOut) (act : LaneMask) (hr : w.results = []) :
    let z := w.deliver id la ((lanesOf act).map fun l => (l, f l))
    ResOnly w z ∧ z.results = laterOf la id f act ∧
    z.fflags = (lanesOf act).foldl (fun b l => b ||| (f l).flags) w.fflags ∧
    (∀ r l, r < 256 → l < 32 → z.vget r l = if act.getLsbD l = true ∧ la = 0 ∧ r < w.ceil then ((f l).vAt r).getD (w.vget r l) else w.vget r l) ∧
    (∀ r l, l < 32 → (z.pget r l, z.ppoison r l) =
      if act.getLsbD l = true ∧ la = 0 ∧ r < 7 then ((f l).pAt r).getD (w.pget r l, w.ppoison r l) else (w.pget r l, w.ppoison r l)) := by
  have hL : ∀ l ∈ lanesOf act, l < 32 := fun l hl => ((mem_lanesOf act l).mp hl).1
  have hflag : ∀ (L : List Nat) (b : Word), (L.map fun k => (k, f k)).foldl (fun b x => b ||| x.2.flags) b = L.foldl (fun b l => b ||| (f l).flags) b := by
    intro L b; rw [List.foldl_map]
  by_cases h0 : la = 0 ∨ lanesOf act = []
  · have hd := deliver_now w id la ((lanesOf act).map fun l => (l, f l)) (h0.imp (fun h => h) fun h => by rw [h]; rfl)
    have hro := regsOnly_putAll f (lanesOf act) w
    simp only [hd]
    refine ⟨hro.res, ?_, fflags_putAll f _ w, ?_, ?_⟩
    · rw [hro.results, hr]; unfold laterOf
      rcases h0 with h | h
      · rw [if_pos h]
      · rw [h]; split <;> rfl
    · intro r l hr' hl
      rw [vget_putAll f r l hr' hl _ _ hL]
      by_cases ha : act.getLsbD l = true
      · have hm := (mem_lanesOf act l).mpr ⟨hl, ha⟩
        rcases h0 with h | h
        · simp only [hm, ha, h, true_and]
        · rw [h] at hm; simp at hm
      · have hm : ¬ l ∈ lanesOf act := fun k => ha ((mem_lanesOf act l).mp k).2
        rw [if_neg fun k => hm k.1, if_neg fun k => ha k.1]
    · intro r l hl
      have := pget_putAll f r l (lanesOf act) w hL
      simp only at this
      rw [this]
      by_cases ha : act.getLsbD l = true
      · have hm := (mem_lanesOf act l).mpr ⟨hl, ha⟩
        rcases h0 with h | h
        · simp only [hm, ha, h, true_and]
        · rw [h] at hm; simp at hm
      · have hm : ¬ l ∈ lanesOf act := fun k => ha ((mem_lanesOf act l).mp k).2
        rw [if_neg fun k => hm k.1, if_neg fun k => ha k.1]
  · rw [not_or] at h0
    obtain ⟨hla, hne⟩ := h0
    cases hlanes : lanesOf act with
    | nil => exact absurd hlanes hne
    | cons l0 r0 =>
      have hd := deliver_later w id la f l0 r0 hla
      obtain ⟨m1, m2, m3, m4⟩ := mapDests_frame ((f l0).words.map fun e => e.1) w
      simp only [hd]
      refine ⟨?_, ?_, ?_, ?_, ?_⟩
      · have := m1.res
        generalize mapDests w ((f l0).words.map fun e => e.1) = y at *
        unfold ResOnly at *
        rw [this]
      · unfold laterOf
        rw [if_neg hla, hlanes]
        simp only [m1.results, hr, List.nil_append]
      · have : (mapDests w ((f l0).words.map fun e => e.1)).fflags = w.fflags := by
          clear hd m1 m2 m3 m4
          generalize (f l0).words.map (fun e => e.1) = ds
          induction ds generalizing w with
          | nil => rfl
          | cons d t ih =>
            cases d with
            | v r => exact (ih (w.vmap r) (by rw [← hr]; exact (regsOnly_vmap w r).results)).trans (by unfold Warp.vmap; split <;> rfl)
            | p r => exact ih w hr
            | s r => exact ih w hr
        simp only [this, hflag]
      · intro r l _ hl
        rw [if_neg fun k => hla k.2.1]
        exact m4 r l hl
      · intro r l _
        rw [if_neg fun k => hla k.2.1]
        have h1 : ∀ (y : Warp) (rs : List Result) (b : Word), (({ y with results := rs, fflags := b } : Warp).pget r l, ({ y with results := rs, fflags := b } : Warp).ppoison r l) = (y.pget r l, y.ppoison r l) := fun _ _ _ => rfl
        rw [h1]
        unfold Warp.pget Warp.ppoison
        rw [m2, m3]

theorem poisonDests_results (w : Warp) (m : LaneMask) (o : Opnds) : (w.poisonDests m o).results = w.results := (regsOnly_poisonDests w m o).results

theorem poisonDests_fflags (o : Opnds) : ∀ (L : List Nat) (w : Warp),
    (L.foldl (fun (w : Warp) l =>
      let w := o.vw.foldl (fun (w : Warp) r => w.vpoison r l) w
      o.pw.foldl (fun (w : Warp) r => w.ppoisonAt r l) w) w).fflags = w.fflags := by
  have hv : ∀ (l : Nat) (rs : List Nat) (w : Warp), (rs.foldl (fun (w : Warp) r => w.vpoison r l) w).fflags = w.fflags := by
    intro l rs; induction rs with
    | nil => exact fun _ => rfl
    | cons r t ih => intro w; rw [List.foldl_cons, ih]; unfold Warp.vpoison Warp.vput; split <;> rfl
  have hp : ∀ (l : Nat) (rs : List Nat) (w : Warp), (rs.foldl (fun (w : Warp) r => w.ppoisonAt r l) w).fflags = w.fflags := by
    intro l rs; induction rs with
    | nil => exact fun _ => rfl
    | cons r t ih => intro w; rw [List.foldl_cons, ih]; unfold Warp.ppoisonAt Warp.pput; split <;> rfl
  intro L
  induction L with
  | nil => exact fun _ => rfl
  | cons l t ih => intro w; rw [List.foldl_cons, ih, hp, hv]

/-- The lanes that last-use frees (R172). -/
theorem frees_eq (x : LaneForm) (done : LaneMask) (r l : Nat) :
    x.frees done r l = true ↔ r ∈ (x.issued sn pt).lu.dedup ∧ keptLane (x.issued sn pt) done r l = false := by
  unfold LaneForm.frees keptLane LaneForm.issued
  simp only [List.mem_dedup, Bool.and_eq_true, List.contains_iff_mem]
  constructor
  · rintro ⟨h1, h2⟩
    refine ⟨h1, ?_⟩
    cases h3 : x.o.vw.contains r <;> cases h4 : (done == 0) <;> cases h5 : (x.la != 0) <;> cases h6 : done.getLsbD l <;> simp_all
  · rintro ⟨h1, h2⟩
    refine ⟨h1, ?_⟩
    cases h3 : x.o.vw.contains r <;> cases h4 : (done == 0) <;> cases h5 : (x.la != 0) <;> cases h6 : done.getLsbD l <;> simp_all

/-- Everything that a lane instruction does to its warp before the frontier moves. -/
theorem out_law (x : LaneForm) (id : Nat) (f : Nat → LaneOut) (act pg : LaneMask) (w : Warp) (hr : w.results = []) (hs : w.spilled = 0)
    (hd : act &&& pg = 0) :
    let z := x.out sn pt id f act pg w
    ResOnly w z ∧ z.results = laterOf x.la id f act ∧
    z.fflags = (lanesOf act).foldl (fun b l => b ||| (f l).flags) w.fflags ∧
    (∀ r l, r < 256 → l < 32 → z.vget r l =
      if x.frees (act ||| pg) r l then .unmapped
      else if act.getLsbD l && x.la == 0 && r < w.ceil then ((f l).vAt r).getD (w.vget r l)
      else if pg.getLsbD l && x.o.vw.contains r && r < w.ceil then { bits := (w.vget r l).bits, poison := true }
      else w.vget r l) ∧
    (∀ r l, l < 32 → (z.pget r l, z.ppoison r l) =
      if act.getLsbD l && x.la == 0 && r < 7 then ((f l).pAt r).getD (w.pget r l, w.ppoison r l)
      else if pg.getLsbD l && x.o.pw.contains r && r < 7 then (w.pget r l, true)
      else (w.pget r l, w.ppoison r l)) := by
  intro z
  obtain ⟨d1, d2, d3, d4, d5⟩ := deliver_law w id x.la f act hr
  have hz : z = ((w.deliver id x.la ((lanesOf act).map fun l => (l, f l))).poisonDests pg x.o).lastUse id (x.issued sn pt) (act ||| pg) := rfl
  generalize w.deliver id x.la ((lanesOf act).map fun l => (l, f l)) = y at d1 d2 d3 d4 d5 hz
  have yc : y.ceil = w.ceil := by rw [d1]
  have ys : y.spilled = 0 := by rw [d1]; exact hs
  have hres : (y.poisonDests pg x.o).results = laterOf x.la id f act := (poisonDests_results _ _ _).trans d2
  have hlu : z = (x.issued sn pt).lu.dedup.foldl (freeStep (x.issued sn pt) (act ||| pg)) (y.poisonDests pg x.o) := by
    rw [hz]
    refine lastUse_eq _ _ _ _ fun r hrm => ?_
    rw [hres] at hrm
    unfold laterOf at hrm
    split at hrm
    · simp at hrm
    · split at hrm
      · simp at hrm
      · simp only [List.mem_singleton] at hrm
        rw [hrm]
  have hL : ∀ l ∈ lanesOf pg, l < 32 := fun l hl => ((mem_lanesOf pg l).mp hl).1
  have hps : (y.poisonDests pg x.o).spilled = 0 := ((regsOnly_poisonDests y pg x.o).spilled).trans ys
  have hdis : ∀ l, act.getLsbD l = true → pg.getLsbD l = false := by
    intro l ha
    have := congrArg (fun m : LaneMask => m.getLsbD l) hd
    simp only [BitVec.getLsbD_and, ha, Bool.true_and] at this
    exact this.trans BitVec.getLsbD_zero
  obtain ⟨p1, p2, p3⟩ := freeAll_p (x.issued sn pt) (act ||| pg) (x.issued sn pt).lu.dedup (y.poisonDests pg x.o)
  refine ⟨?_, ?_, ?_, ?_, ?_⟩
  · rw [hlu]
    exact (d1.trans (regsOnly_poisonDests y pg x.o).res).trans (regsOnly_freeAll _ _ _ _ hps).res
  · rw [hlu, (regsOnly_freeAll _ _ _ _ hps).results, hres]
  · rw [hlu, p3, ← d3]; exact poisonDests_fflags x.o _ _
  · intro r l hr' hl
    rw [hlu, vget_freeAll _ _ _ _ hr' hl]
    by_cases hfr : x.frees (act ||| pg) r l = true
    · rw [if_pos hfr, if_pos ((frees_eq sn pt x _ r l).mp hfr)]
    · rw [if_neg hfr, if_neg fun k => hfr ((frees_eq sn pt x _ r l).mpr k)]
      have h1 := poisonDests_get x.o r l hr' hl (lanesOf pg) y hL
      simp only at h1
      have h2 : (y.poisonDests pg x.o).vget r l = _ := h1
      rw [h2, yc, d4 r l hr' hl]
      by_cases ha : act.getLsbD l = true
      · have hp : ¬ l ∈ lanesOf pg := fun k => by have := ((mem_lanesOf pg l).mp k).2; rw [hdis l ha] at this; simp at this
        rw [if_neg fun k => hp k.1, hdis l ha, ha]
        by_cases hla : x.la = 0 <;> by_cases hrc : r < w.ceil <;> simp [hla, hrc]
      · rw [if_neg fun k : act.getLsbD l = true ∧ x.la = 0 ∧ r < w.ceil => ha k.1]
        rw [Bool.not_eq_true] at ha
        rw [ha]
        by_cases hp : pg.getLsbD l = true
        · have hm := (mem_lanesOf pg l).mpr ⟨hl, hp⟩
          rw [hp]
          by_cases hvw : r ∈ x.o.vw <;> by_cases hrc : r < w.ceil <;> simp [hm, hvw, hrc]
        · have hm : ¬ l ∈ lanesOf pg := fun k => hp ((mem_lanesOf pg l).mp k).2
          rw [if_neg fun k => hm k.1]
          rw [Bool.not_eq_true] at hp
          rw [hp]; simp
  · intro r l hl
    have e1 : z.pget r l = (y.poisonDests pg x.o).pget r l := by rw [hlu]; unfold Warp.pget; rw [p1]
    have e2 : z.ppoison r l = (y.poisonDests pg x.o).ppoison r l := by rw [hlu]; unfold Warp.ppoison; rw [p2]
    obtain ⟨h1, h1'⟩ := poisonDests_pget x.o r l (lanesOf pg) y hL
    have h2 : (y.poisonDests pg x.o).pget r l = _ := h1
    have h3 : (y.poisonDests pg x.o).ppoison r l = _ := h1'
    have h5 := d5 r l hl
    rw [e1, e2, h2, h3]
    by_cases ha : act.getLsbD l = true
    · have hp : ¬ l ∈ lanesOf pg := fun k => by have := ((mem_lanesOf pg l).mp k).2; rw [hdis l ha] at this; simp at this
      rw [if_neg fun k => hp k.1, h5, hdis l ha, ha]
      by_cases hla : x.la = 0 <;> by_cases hrc : r < 7 <;> simp [hla, hrc]
    · rw [if_neg fun k : act.getLsbD l = true ∧ x.la = 0 ∧ r < 7 => ha k.1] at h5
      have h6 := (Prod.mk.injEq _ _ _ _).mp h5
      rw [h6.1, h6.2]
      rw [Bool.not_eq_true] at ha
      rw [ha]
      by_cases hp : pg.getLsbD l = true
      · have hm := (mem_lanesOf pg l).mpr ⟨hl, hp⟩
        rw [hp]
        by_cases hvw : r ∈ x.o.pw <;> by_cases hrc : r < 7 <;> simp [hm, hvw, hrc]
      · have hm : ¬ l ∈ lanesOf pg := fun k => hp ((mem_lanesOf pg l).mp k).2
        rw [if_neg fun k => hm k.1]
        rw [Bool.not_eq_true] at hp
        rw [hp]; simp

/-! ## The instruction -/

theorem guardLanes_disjoint (w : Warp) (gd : Guard) (m : LaneMask) : (guardLanes w gd m).1 &&& (guardLanes w gd m).2 = 0 := by
  unfold guardLanes
  simp only
  rw [BitVec.and_assoc, show ∀ x : LaneMask, ~~~ x &&& x = 0 from fun x => by rw [BitVec.and_comm]; exact BitVec.and_not_self x]
  exact BitVec.and_zero

/-- The body of a lane instruction. -/
def laneBody (o : Opnds) (la : Nat) (f : State → Ctx → Warp → Nat → LaneOut) : Body := fun s c =>
  match s.warp? c.g with
  | none => (s, [])
  | some w =>
    let outs := (lanesOf c.act).map fun l => (l, f s c w l)
    let n := s.newId
    (n.1.modWarp c.g fun w => ((w.deliver n.2 la outs).poisonDests c.pg o).raise s.now (splitLatency s c) (outFlags outs), [])

theorem run_eq (x : LaneForm) (s : State) :
    laneOp s x.g x.la { x.o with seen := sn, put := pt } x.val = issueCore s (x.issued sn pt) (fun w m => guardLanes w x.g m) .poisons (laneBody x.o x.la x.val) := rfl

theorem laneBody_some {o : Opnds} {la : Nat} {f : State → Ctx → Warp → Nat → LaneOut} {s : State} {c : Ctx} {w : Warp}
    (h : s.warp? c.g = some w) :
    laneBody o la f s c = ({ s with nextId := s.nextId + 1 }.modWarp c.g fun w' =>
      ((w'.deliver s.nextId la ((lanesOf c.act).map fun l => (l, f s c w l))).poisonDests c.pg o).raise s.now (splitLatency s c)
        (outFlags ((lanesOf c.act).map fun l => (l, f s c w l))), []) := by
  unfold laneBody
  rw [h]; rfl

theorem onlyLane_of_res {w z : Warp} {k li : Nat} {es lf : List Entry} {d : List (Nat × Word)} (h : ResOnly (w.marked k) z) :
    OnlyLaneRegs w { ({ z with due := d } : Warp) with entries := es, left := lf, age := 0, lastIssue := li } := by
  cases w; cases z
  simp only [ResOnly, OnlyLaneRegs, Warp.marked, Warp.modEntry, Warp.mk.injEq] at *
  simp_all

theorem vget_stepped (w : Warp) (es lf : List Entry) (a li r l : Nat) :
    ({ w with entries := es, left := lf, age := a, lastIssue := li } : Warp).vget r l = w.vget r l := rfl
theorem pget_stepped (w : Warp) (es lf : List Entry) (a li r l : Nat) :
    ({ w with entries := es, left := lf, age := a, lastIssue := li } : Warp).pget r l = w.pget r l := rfl
theorem ppoison_stepped (w : Warp) (es lf : List Entry) (a li r l : Nat) :
    ({ w with entries := es, left := lf, age := a, lastIssue := li } : Warp).ppoison r l = w.ppoison r l := rfl
theorem fflags_stepped (w : Warp) (es lf : List Entry) (a li : Nat) :
    ({ w with entries := es, left := lf, age := a, lastIssue := li } : Warp).fflags = w.fflags := rfl
theorem results_stepped (w : Warp) (es lf : List Entry) (a li : Nat) :
    ({ w with entries := es, left := lf, age := a, lastIssue := li } : Warp).results = w.results := rfl
theorem vget_marked (w : Warp) (k r l : Nat) : (w.marked k).vget r l = w.vget r l := rfl
theorem pget_marked (w : Warp) (k r l : Nat) : (w.marked k).pget r l = w.pget r l := rfl
theorem ppoison_marked (w : Warp) (k r l : Nat) : (w.marked k).ppoison r l = w.ppoison r l := rfl

/-- A lane instruction in a calm split completes, and this is what it does. -/
theorem laneOp_calm (x : LaneForm) (hb : x.Blind) (hrel : x.o.rel = 0) (hhome : x.o.home = []) {s : State} {g : Nat} {w : Warp} {e : Entry} (hc : Calm s g w e)
    (hroom : ((laneCtx g w e x.g).act = 0 ∧ (laneCtx g w e x.g).pg = 0) ∨ Room s g w x.o) :
    ∃ t w', laneOp s x.g x.la { x.o with seen := sn, put := pt } x.val = .next t ∧ t.warp? g = some w' ∧ OnlyWarp s t g ∧ x.After s (laneCtx g w e x.g) w w' := by
  have hiss := issueCore_local hc (x.issued sn pt) (fun w m => guardLanes w x.g m) .poisons (laneBody x.o x.la x.val) (.inl hrel) hhome
    (hroom.imp (fun h => ⟨h.1, fun _ => h.2⟩) fun h => h)
  rw [run_eq, hiss]
  obtain ⟨act, pg, hsel⟩ : ∃ a p, guardLanes w x.g e.mask = (a, p) := ⟨_, _, rfl⟩
  have hctx : laneCtx g w e x.g = { g := g, e := e, lanes := e.mask, act := act, pg := pg } := by unfold laneCtx; rw [hsel]
  have hdis : act &&& pg = 0 := by have := guardLanes_disjoint w x.g e.mask; rw [hsel] at this; exact this
  simp only [hsel, hctx]
  rw [if_neg (show ¬ (GuardKind.poisons == GuardKind.traps) = true by decide)]
  unfold runBody
  -- the state in which the body runs
  have hs1 := counted_eq s w (x.issued sn pt) act
  generalize s.counted w (x.issued sn pt) act = s1 at hs1 ⊢
  have hw1 : s1.warp? g = some w := by rw [hs1]; exact hc.warp
  have hid : s1.nextId = s.nextId := by rw [hs1]
  have hwm : (s1.modWarp g fun w => w.modEntry e.eid fun x => { x with st := .issuing }).warp? g = some (w.marked e.eid) := by
    rw [warp?_modWarp, hw1]; rfl
  have hval : ∀ l, x.val (s1.modWarp g fun w => w.modEntry e.eid fun x => { x with st := .issuing })
      { g := g, e := e, lanes := e.mask, act := act, pg := pg } (w.marked e.eid) l =
      x.val s { g := g, e := e, lanes := e.mask, act := act, pg := pg } w l := by
    intro l
    have := hb s s1.events g e.eid { g := g, e := e, lanes := e.mask, act := act, pg := pg } w l
    rw [← this, ← hs1]; rfl
  have hlat : splitLatency (s1.modWarp g fun w => w.modEntry e.eid fun x => { x with st := .issuing })
      { g := g, e := e, lanes := e.mask, act := act, pg := pg } =
      splitLatency s { g := g, e := e, lanes := e.mask, act := act, pg := pg } := by
    have := splitLatency_marked s s1.events g e.eid { g := g, e := e, lanes := e.mask, act := act, pg := pg }
    rw [← this, ← hs1]; rfl
  have hnow : (s1.modWarp g fun w => w.modEntry e.eid fun x => { x with st := .issuing }).now = s.now := by rw [hs1]; rfl
  rw [laneBody_some hwm]
  simp only [hval, hlat, hnow]
  rw [outFlags_map]
  have hn : (s1.modWarp g fun w => w.modEntry e.eid fun x => { x with st := .issuing }).nextId = s.nextId := hid
  rw [hn, hid]
  -- the warp after the body
  obtain ⟨o1, o2, o3, o4, o5⟩ := out_law sn pt x s.nextId (fun l => x.val s { g := g, e := e, lanes := e.mask, act := act, pg := pg } w l) act pg
    (w.marked e.eid) hc.results hc.spilled hdis
  have hz0 : x.out sn pt s.nextId (fun l => x.val s { g := g, e := e, lanes := e.mask, act := act, pg := pg } w l) act pg (w.marked e.eid) =
      ((((w.marked e.eid).deliver s.nextId x.la ((lanesOf act).map fun l =>
        (l, x.val s { g := g, e := e, lanes := e.mask, act := act, pg := pg } w l))).poisonDests pg x.o).lastUse s.nextId (x.issued sn pt) (act ||| pg)) := rfl
  obtain ⟨q1, q2, _⟩ := deliver_law (w.marked e.eid) s.nextId x.la (fun l => x.val s { g := g, e := e, lanes := e.mask, act := act, pg := pg } w l)
    act hc.results
  obtain ⟨D0, hD0⟩ : ∃ d, d = (w.raise s.now (splitLatency s { g := g, e := e, lanes := e.mask, act := act, pg := pg })
      (x.raised s { g := g, e := e, lanes := e.mask, act := act, pg := pg } w)).due := ⟨_, rfl⟩
  have hdue : (w.raise s.now (splitLatency s { g := g, e := e, lanes := e.mask, act := act, pg := pg })
      ((lanesOf act).foldl (fun b l => b ||| (x.val s { g := g, e := e, lanes := e.mask, act := act, pg := pg } w l).flags) 0)).due = D0 := hD0.symm
  generalize splitLatency s { g := g, e := e, lanes := e.mask, act := act, pg := pg } = L at hdue ⊢
  generalize (lanesOf act).foldl (fun b l => b ||| (x.val s { g := g, e := e, lanes := e.mask, act := act, pg := pg } w l).flags) 0 = fl at hdue ⊢
  generalize hy : (w.marked e.eid).deliver s.nextId x.la ((lanesOf act).map fun l =>
        (l, x.val s { g := g, e := e, lanes := e.mask, act := act, pg := pg } w l)) = y at hz0 q1 q2
  generalize hS : { (s1.modWarp g fun w => w.modEntry e.eid fun x => { x with st := .issuing }) with nextId := s.nextId + 1, now := s.now } = S
  have hSw : S.warp? g = some (w.marked e.eid) := by rw [← hS]; exact hwm
  have hyd : (y.poisonDests pg x.o).due = w.due := by
    have := regsOnly_poisonDests y pg x.o
    rw [RegsOnly] at this
    rw [this, q1]; rfl
  -- what the body does to the warp
  generalize hF : (fun w' : Warp => ((w'.deliver s.nextId x.la ((lanesOf act).map fun l =>
        (l, x.val s { g := g, e := e, lanes := e.mask, act := act, pg := pg } w l))).poisonDests pg x.o).raise s.now L fl) = F
  have hFw : F (w.marked e.eid) = { y.poisonDests pg x.o with due := (w.raise s.now L fl).due } := by
    rw [← hF, ← raise_eq s.now L fl hyd, ← hy]
  have hbw : (S.modWarp g F).warp? g = some { y.poisonDests pg x.o with due := (w.raise s.now L fl).due } := by
    rw [warp?_modWarp, hSw, Option.map_some, hFw]
  generalize (w.raise s.now L fl).due = D at hdue hFw hbw
  have hres : (y.poisonDests pg x.o).results = laterOf x.la s.nextId
      (fun l => x.val s { g := g, e := e, lanes := e.mask, act := act, pg := pg } w l) act := (poisonDests_results _ _ _).trans q2
  rw [finishBody_plain (preFates_zero .poisons pg (.inl (by decide))) hbw ?_ ?_ ?_]
  · have hW : ((S.modWarp g F).modWarp g fun w => w.lastUse s.nextId (x.issued sn pt) (act ||| pg)).warp? g =
        some { x.out sn pt s.nextId (fun l => x.val s { g := g, e := e, lanes := e.mask, act := act, pg := pg } w l) act pg (w.marked e.eid) with due := D } := by
      rw [warp?_modWarp, hbw, Option.map_some, hz0, lastUse_due]
    have hT : ∀ (F L : Warp → Warp), ∃ ws, (S.modWarp g F).modWarp g L =
        { s with warps := ws, nextId := s.nextId + 1, events := s1.events } := by
      intro F L; rw [← hS, hs1]; exact ⟨_, rfl⟩
    obtain ⟨ws, hT⟩ := hT F (fun w => w.lastUse s.nextId (x.issued sn pt) (act ||| pg))
    have hoth : ∀ h, h ≠ g → ((S.modWarp g F).modWarp g fun w => w.lastUse s.nextId (x.issued sn pt) (act ||| pg)).warp? h = s.warp? h := by
      intro h hn
      rw [warp?_modWarp_other _ _ hn, warp?_modWarp_other _ _ hn, ← hS]
      refine (warp?_modWarp_other s1 _ hn).trans ?_
      rw [hs1]; rfl
    generalize (S.modWarp g F).modWarp g (fun w => w.lastUse s.nextId (x.issued sn pt) (act ||| pg)) = T at hW hT hoth
    generalize x.out sn pt s.nextId (fun l => x.val s { g := g, e := e, lanes := e.mask, act := act, pg := pg } w l) act pg (w.marked e.eid) = W at *
    have hfr := stepped_frame { W with due := D } e T.now
    have hent : W.entries = (w.marked e.eid).entries := by rw [o1]
    refine ⟨T.passed g e, _, rfl, passed_warp T g e _ hW, ⟨?_, fun h hn => (passed_warp_other T e hn).trans (hoth h hn)⟩, ?_, ?_, ?_, ?_, ?_, ?_, ?_⟩
    · have := passed_frame T g e
      generalize T.passed g e = u at this ⊢
      rw [this, hT]
    · intro r l hr hl
      rw [hfr, vget_stepped]
      exact (o4 r l hr hl).trans rfl
    · intro r l hl
      rw [hfr, pget_stepped, ppoison_stepped]
      exact (o5 r l hl).trans rfl
    · rw [hfr, fflags_stepped]; exact o3
    · rw [hfr]; exact hdue.trans hD0
    · rw [hfr, results_stepped]
      exact o2
    · intro l hl
      refine stepped_runs _ e { e with st := .issuing } T.now l ?_ rfl hl
      show { e with st := .issuing } ∈ W.entries
      rw [hent]
      exact modEntry_mem w e (fun x => { x with st := .issuing }) hc.parts.2.1
    · rw [hfr]
      exact onlyLane_of_res o1
  · exact (regsOnly_poisonDests y pg x.o).heldFrees.trans (by rw [q1]; exact hc.held)
  · intro r hr
    have hr : r ∈ (y.poisonDests pg x.o).results := hr
    rw [hres] at hr
    unfold laterOf at hr
    split at hr
    · simp at hr
    · next hla =>
      split at hr
      · simp at hr
      · simp only [List.mem_singleton] at hr
        rw [hr]
        refine ⟨Nat.le_refl _, by simp, ?_⟩
        intro k hk
        simp only [List.mem_map] at hk
        obtain ⟨j, _, rfl⟩ := hk
        simp [hla]
  · intro m
    have hsp : (y.poisonDests pg x.o).spilled = 0 := (regsOnly_poisonDests y pg x.o).spilled.trans (by rw [q1]; exact hc.spilled)
    rw [lastUse_due, lastUse_eq]
    · exact (regsOnly_freeAll _ _ _ _ hsp).results
    · intro r hr
      rw [hres] at hr
      unfold laterOf at hr
      split at hr
      · simp at hr
      · split at hr
        · simp at hr
        · simp only [List.mem_singleton] at hr
          rw [hr]

end Sys2Proof.Machine
end

