-- ==== Sys2Proof/Laws/LaneTable.lean ====
section
/-! SUPPORT. The table of lane instructions agrees with the meanings, and its values see only registers (R187). -/

namespace Sys2Proof.Machine

/-- A meaning runs as its form says, with its own record of the lanes in which it reads and writes a register. -/
theorem laneSpec_run {i : Instr} {x : LaneForm} (h : LaneSpec i x) (s : State) :
    ∃ sn pt, exec i s = laneOp s x.g x.la { x.o with seen := sn, put := pt } x.val := by
  cases h
  case xlane gd la mode p d a b =>
    refine ⟨xlaneSeen s gd mode a b, [], congrArg (laneOp s gd la _) ?_⟩
    funext _ c w l
    simp only [xlaneTakes]
    cases hx : xlaneSrc mode l (vread w b 1 l).1 with
    | none => simp
    | some k => by_cases hk : c.act.getLsbD k = true <;> simp [Option.filter, hk]
  case rng gd la p d a => exact ⟨[], rngPut s gd p a, rfl⟩
  case quadx gd la pat d a => exact ⟨quadSeen s gd pat a, [], rfl⟩
  case logicOne f op d a b h => rcases h with rfl | rfl <;> exact ⟨[], [], rfl⟩
  case logicTwo f op d a b h => cases op <;> first | exact ⟨[], [], rfl⟩ | simp at h
  case pkcvt f d a b n h => subst h; exact ⟨[], [], rfl⟩
  all_goals exact ⟨[], [], rfl⟩

theorem laneSpec_rel {i : Instr} {x : LaneForm} (h : LaneSpec i x) : x.o.rel = 0 := by
  cases h <;> rfl
theorem laneSpec_home {i : Instr} {x : LaneForm} (h : LaneSpec i x) : x.o.home = [] := by
  cases h <;> rfl

theorem vgetN_marked (k l : Nat) : ∀ (n r : Nat) (w : Warp), (w.marked k).vgetN r n l = w.vgetN r n l := by
  intro n
  induction n with
  | zero => intro r w; rfl
  | succ n ih =>
    intro r w
    show (((w.marked k).vget r l).bits.toNat + 2 ^ 32 * ((w.marked k).vgetN (r + 1) n l).1, ((w.marked k).vget r l).poison || ((w.marked k).vgetN (r + 1) n l).2) = _
    rw [ih]; rfl

theorem vread_marked (w : Warp) (k : Nat) (a : Src) (n l : Nat) : vread (w.marked k) a n l = vread w a n l := vgetN_marked k l n a.reg w

theorem pickVal_marked (w : Warp) (k p l : Nat) (x y : LaneOp) : pickVal (w.marked k) p l x y = pickVal w p l x y := rfl

theorem redStart_marked (w : Warp) (k : Nat) (act : LaneMask) (op : RedForm) (a : Src) :
    redStart (w.marked k) act op a = redStart w act op a := by
  unfold redStart; simp only [vread_marked]

theorem laneSpec_blind {i : Instr} {x : LaneForm} (h : LaneSpec i x) : x.Blind := by
  intro s ev g k c w l
  cases h
  case rng => simp only [blockOf_marked, launchOf_marked]; rfl
  case widr gd sel d =>
    show vout d 2 (widrVal _ c _ sel l) false = vout d 2 (widrVal s c w sel l) false
    unfold widrVal
    cases sel <;> simp only [blockOf_marked] <;> rfl
  all_goals first
    | rfl
    | simp only [LaneForm.v1, LaneForm.v2, LaneForm.v3, LaneForm.f1, LaneForm.f2, LaneForm.f3, LaneForm.cv, LaneForm.p, vread_marked,
        pickVal_marked, redStart_marked, pget_marked, ppoison_marked]

end Sys2Proof.Machine
end

