-- ==== Sys2Proof/Laws/Uni.lean ====
section
/-! SUPPORT. Laws of uniform instructions in a calm split (R205): one effect on the state, and the split goes on. -/

namespace Sys2Proof.Machine

/-- The state with the issuing entry marked. -/
def State.markedAt (s : State) (g k : Nat) : State := s.modWarp g fun w => w.marked k

/-- Behind the instruction the mark is gone. -/
theorem passed_markedAt (s : State) (g : Nat) (e : Entry) (h : ∀ w, s.warp? g = some w → ∀ x ∈ w.entries, x.eid = e.eid → x = e) :
    (s.markedAt g e.eid).passed g e = s.passed g e := by
  unfold State.passed State.markedAt
  rw [modWarp_modWarp]
  cases hw : s.warp? g with
  | none =>
    have hn : ∀ f : Warp → Warp, s.modWarp g f = s := by
      intro f
      unfold State.modWarp
      rw [tmod_congr s.warps g f (fun x => x) (fun x hx => by have : s.warp? g = some x := hx; rw [hw] at this; cases this), tmod_id]
    rw [hn, hn]
  | some w =>
    rw [modWarp_congr hw (h := fun w => ((w.aged e.eid s.now).stepOff e 0).tidy)]
    have := stepOff_marked w e s.now (h w hw)
    show (((w.marked e.eid).aged e.eid s.now).stepOff e 0).tidy = _
    rw [this]

theorem lastUse_nil (w : Warp) (lim : Nat) (o : Opnds) (m : LaneMask) (h : o.lu = []) : w.lastUse lim o m = w := lastUse_none w lim o m h

/-- What an issue needs of a warp besides being calm, after the body: no results, no held last-use bits. -/
theorem finish_effect {lim g : Nat} {e : Entry} {o : Opnds} {lanes act pg : LaneMask} {fs : Fates} {t : State} {w : Warp}
    (hf : ∀ f ∈ fs, f.1 = 0) (hw : t.warp? g = some w) (hh : w.heldFrees = []) (hr : w.results = []) (hlu : o.lu = [])
    (ha : ∀ x ∈ w.entries, x.eid = e.eid → x = e) :
    finishBody lim g e o lanes act pg (t.markedAt g e.eid, fs) = t.passed g e := by
  have hw' : (t.markedAt g e.eid).warp? g = some (w.marked e.eid) := by
    unfold State.markedAt; rw [warp?_modWarp, hw]; rfl
  rw [finishBody_plain (z := (t.markedAt g e.eid, fs)) (w := w.marked e.eid) hf hw' hh
    (by intro r h; have h' : r ∈ w.results := h; rw [hr] at h'; simp at h') (fun m => by rw [lastUse_nil _ _ _ _ hlu])]
  rw [modWarp_id hw' (lastUse_nil _ _ _ _ hlu)]
  exact passed_markedAt t g e fun v hv => by rw [hw] at hv; cases hv; exact ha

/-- The lanes that a uniform instruction's guard selects, and its body. -/
def uniSel (gd : Guard) (w : Warp) (m : LaneMask) : LaneMask × LaneMask := (if w.qget gd.n != gd.neg then m else 0, 0)
def uniBody (body : Body) : Body := fun s c => if c.act = 0 then (s, []) else body s c

theorem issueUni_eq (s : State) (gd : Guard) (o : Opnds) (body : Body) :
    issueUni s gd o body = issueCore s (o.under s gd) (uniSel gd) .own (uniBody body) := rfl

/-- A split that can issue is the one whose instruction is looked at. -/
theorem Calm.looking {s : State} {g : Nat} {w : Warp} {e : Entry} (h : Calm s g w e) : s.looking = some (g, w, e) := by
  have h := h.split
  unfold State.issuing at h
  unfold State.looking
  simp only [Option.bind_eq_some_iff] at h ⊢
  obtain ⟨c, hc, x, hx, y, hy, h⟩ := h
  refine ⟨c, hc, x, hx, y, hy, ?_⟩
  split at h
  · next h1 => rw [if_pos (by simp [h1])]; exact h
  · cases h

theorem under_true {s : State} {g : Nat} {w : Warp} {e : Entry} (hc : Calm s g w e) {gd : Guard} (hg : w.uniTrue gd) (o : Opnds) : o.under s gd = o := by
  unfold Opnds.under
  rw [hc.looking, if_pos]
  unfold Warp.uniTrue at hg
  simp only [Option.all_some, hg, Bool.or_true]
theorem under_false {s : State} {g : Nat} {w : Warp} {e : Entry} (hc : Calm s g w e) {gd : Guard} (hg : ¬ w.uniTrue gd) (o : Opnds) :
    (o.under s gd).home = [] := by
  unfold Opnds.under
  unfold Warp.uniTrue at hg
  rw [hc.looking]
  split
  · next h => simpa [hg] using h
  · rfl
theorem under_rel (s : State) (gd : Guard) (o : Opnds) : (o.under s gd).rel = o.rel := by unfold Opnds.under; split <;> rfl
theorem under_lu (s : State) (gd : Guard) (o : Opnds) : (o.under s gd).lu = o.lu := by unfold Opnds.under; split <;> rfl

theorem uniSel_true {w : Warp} {gd : Guard} (h : w.uniTrue gd) (m : LaneMask) : uniSel gd w m = (m, 0) := by
  unfold Warp.uniTrue at h; unfold uniSel; rw [if_pos h]
theorem uniSel_false {w : Warp} {gd : Guard} (h : ¬ w.uniTrue gd) (m : LaneMask) : uniSel gd w m = (0, 0) := by
  unfold Warp.uniTrue at h; unfold uniSel; rw [if_neg h]

theorem ownFates (f : LaneMask × Fate) (hf : f ∈ preFates .own 0 ++ []) : f.1 = 0 := by
  rw [List.append_nil] at hf
  exact preFates_zero .own 0 (.inr rfl) f hf

theorem own_pg (x : LaneMask) : (if (GuardKind.own == GuardKind.traps) = true then (0 : LaneMask) else x) = x :=
  if_neg (by decide)

/-- A uniform instruction with a true guard: its effect on the state, then the split goes on. -/
theorem issueUni_effect {s : State} {g : Nat} {w w' : Warp} {e : Entry} (hc : Calm s g w e) {gd : Guard} {o : Opnds} {body : Body} {t : State}
    (hg : w.uniTrue gd) (hrel : o.rel = 0 ∨ relMet s g o.rel e.mask = true) (hvr : o.vr = []) (hvw : o.vw = []) (hlu : o.lu = [])
    (hhome : o.home = []) (hb : body (s.markedAt g e.eid) (uniCtx g e) = (t.markedAt g e.eid, []))
    (hw : t.warp? g = some w') (he : w'.entries = w.entries) (hh : w'.heldFrees = []) (hr : w'.results = []) :
    issueUni s gd o body = .next (t.passed g e) := by
  have hroom : Room s g w o := by
    left; unfold poolNeed; rw [hvr, hvw]; rfl
  rw [issueUni_eq, under_true hc hg, issueCore_local hc _ _ _ _ hrel hhome (.inr hroom), uniSel_true hg, own_pg, counted_none _ _ _ _ hvr hvw]
  unfold runBody
  have hb' : uniBody body (s.modWarp g fun w => w.modEntry e.eid fun x => { x with st := .issuing })
      { g := g, e := e, lanes := e.mask, act := e.mask, pg := 0 } = (t.markedAt g e.eid, []) := by
    unfold uniBody
    rw [if_neg hc.lanes]
    exact hb
  rw [hb']
  exact congrArg _ (finish_effect (w := w') ownFates hw hh hr hlu (fun x hx => by rw [he] at hx; exact hc.alone x hx))

/-- A uniform instruction with a false guard does nothing. -/
theorem issueUni_false {s : State} {g : Nat} {w : Warp} {e : Entry} (hc : Calm s g w e) {gd : Guard} {o : Opnds} {body : Body}
    (hg : ¬ w.uniTrue gd) (hrel : o.rel = 0 ∨ relMet s g o.rel e.mask = true) (hlu : o.lu = []) :
    issueUni s gd o body = .next (s.passed g e) := by
  have hs := uniSel_false hg e.mask
  rw [issueUni_eq, issueCore_local hc _ _ _ _ (by rw [under_rel]; exact hrel) (under_false hc hg o) (.inl ⟨by rw [hs], fun h => by cases h⟩), hs, own_pg]
  have h1 : s.counted w (o.under s gd) 0 = s := if_pos rfl
  rw [h1]
  unfold runBody
  have hb' : uniBody body (s.modWarp g fun w => w.modEntry e.eid fun x => { x with st := .issuing })
      { g := g, e := e, lanes := e.mask, act := 0, pg := 0 } = (s.markedAt g e.eid, []) := if_pos rfl
  rw [hb']
  exact congrArg _ (finish_effect (w := w) ownFates hc.warp hc.held hc.results ((under_lu s gd o).trans hlu) hc.alone)

/-- The warp's registers are seen through the mark. -/
def UniForm.Blind (x : UniForm) : Prop :=
  ∀ (s : State) (g k : Nat) (c : Ctx) (w : Warp), x.f (s.markedAt g k) c (w.marked k) = (x.f s c w).marked k ∧
    (x.f s c w).entries = w.entries ∧ (x.f s c w).heldFrees = w.heldFrees ∧ (x.f s c w).results = w.results

theorem uniOp_calm {s : State} {g : Nat} {w : Warp} {e : Entry} (hc : Calm s g w e) (x : UniForm) (o : Opnds) (hb : x.Blind)
    (hg : w.uniTrue x.g) (hrel : o.rel = 0) (hvr : o.vr = []) (hvw : o.vw = []) (hlu : o.lu = []) (hhome : o.home = []) :
    uniOp s x.g o x.f = .next ((s.modWarp g (x.f s (uniCtx g e))).passed g e) := by
  obtain ⟨b1, b2, b3, b4⟩ := hb s g e.eid (uniCtx g e) w
  refine issueUni_effect hc hg (.inl hrel) hvr hvw hlu hhome (w' := x.f s (uniCtx g e) w) ?_ ?_ b2 (b3.trans hc.held) (b4.trans hc.results)
  · show ((s.markedAt g e.eid).modWarp g (x.f (s.markedAt g e.eid) (uniCtx g e)), _) = _
    unfold State.markedAt
    rw [modWarp_modWarp, modWarp_modWarp, modWarp_congr hc.warp]
    exact b1
  · rw [warp?_modWarp, hc.warp]; rfl

theorem sput_marked (w : Warp) (k d : Nat) (x : DWord) : (w.marked k).sput d x = (w.sput d x).marked k := by
  unfold Warp.sput; split <;> rfl
theorem qput_marked (w : Warp) (k d : Nat) (x : Bool) : (w.marked k).qput d x = (w.qput d x).marked k := by
  unfold Warp.qput; split <;> rfl
theorem sput_frame (w : Warp) (d : Nat) (x : DWord) :
    (w.sput d x).entries = w.entries ∧ (w.sput d x).heldFrees = w.heldFrees ∧ (w.sput d x).results = w.results := by
  unfold Warp.sput; split <;> exact ⟨rfl, rfl, rfl⟩
theorem qput_frame (w : Warp) (d : Nat) (x : Bool) :
    (w.qput d x).entries = w.entries ∧ (w.qput d x).heldFrees = w.heldFrees ∧ (w.qput d x).results = w.results := by
  unfold Warp.qput; split <;> exact ⟨rfl, rfl, rfl⟩

theorem blockOf_markedAt (s : State) (g k h : Nat) : (s.markedAt g k).blockOf h = s.blockOf h := blockOf_marked s s.events g k h
theorem launchOf_markedAt (s : State) (g k h : Nat) : (s.markedAt g k).launchOf h = s.launchOf h := launchOf_marked s s.events g k h

theorem uniSpec_blind {i : Instr} {x : UniForm} (h : UniSpec i x) : x.Blind := by
  intro s g k c w
  cases h
  case sregR gd d sel =>
    refine ⟨?_, sput_frame _ _ _⟩
    show (w.marked k).sput d (sregVal _ c _ sel) = _
    rw [sput_marked]
    congr 2
    unfold sregVal
    cases sel <;> simp only [blockOf_markedAt, launchOf_markedAt] <;> rfl
  case sregW => exact ⟨rfl, rfl, rfl, rfl⟩
  all_goals first
    | exact ⟨sput_marked _ _ _ _, sput_frame _ _ _⟩
    | exact ⟨qput_marked _ _ _ _, qput_frame _ _ _⟩

theorem uniSpec_run {i : Instr} {x : UniForm} (h : UniSpec i x) :
    ∃ o : Opnds, (o.rel = 0 ∧ o.vr = [] ∧ o.vw = [] ∧ o.lu = [] ∧ o.home = []) ∧ ∀ s, exec i s = uniOp s x.g o x.f := by
  cases h <;> exact ⟨_, ⟨rfl, rfl, rfl, rfl, rfl⟩, fun s => rfl⟩

end Sys2Proof.Machine
end

