-- ==== Sys2Proof/Laws/Fates.lean ====
section
/-! SUPPORT. Laws of instructions whose lanes have fates (R137, R154): what finishing the issue makes of them. -/

namespace Sys2Proof.Machine

theorem settle_zero (s : State) (g : Nat) (e : Entry) (f : Fate) (fs : Fates) : settle s g e ((0, f) :: fs) = settle s g e fs := by
  unfold settle
  rw [List.filter_cons_of_neg (by simp)]

/-- Fates of no lanes do not matter. -/
theorem settle_filter (s : State) (g : Nat) (e : Entry) (fs : Fates) : settle s g e (fs.filter fun f => f.1 != 0) = settle s g e fs := by
  unfold settle
  simp only [List.filter_filter, Bool.and_self]

theorem stepOff_marked_gone (w : Warp) (e : Entry) (now : Nat) (gone : LaneMask) (h : ∀ x ∈ w.entries, x.eid = e.eid → x = e) :
    ((w.marked e.eid).aged e.eid now).stepOff e gone = (w.aged e.eid now).stepOff e gone := by
  unfold Warp.stepOff Warp.aged Warp.marked Warp.modEntry
  simp only [List.map_map]
  rw [map_modFirst w.entries e.eid _ _ e h]
  simp

/-- What comes after the lanes have left the issuing entry depends on that alone. -/
theorem settle_congr {s t : State} {g : Nat} {e : Entry} {fs : Fates}
    (h : ∀ m, s.modWarp g (fun w => w.stepOff e m) = t.modWarp g (fun w => w.stepOff e m)) : settle s g e fs = settle t g e fs := by
  unfold settle
  simp only [h]

theorem stepped_nil (s : State) (g : Nat) (e : Entry) : s.stepped g e [] = s.passed g e := by
  unfold State.stepped State.passed
  rw [settle_none _ _ _ _ (by simp), modWarp_modWarp]

theorem stepped_zero (s : State) (g : Nat) (e : Entry) (f : Fate) (fs : Fates) : s.stepped g e ((0, f) :: fs) = s.stepped g e fs := by
  unfold State.stepped; rw [settle_zero]

theorem stepped_filter (s : State) (g : Nat) (e : Entry) (fs : Fates) : s.stepped g e (fs.filter fun f => f.1 != 0) = s.stepped g e fs := by
  unfold State.stepped; rw [settle_filter]

/-- A warp with no results, no held last-use bits: only ageing and the lanes' places are left to do. -/
theorem finish_fates {lim g : Nat} {e : Entry} {o : Opnds} {lanes act pg : LaneMask} {fs : Fates} {t : State} {w : Warp}
    (hw : t.warp? g = some w) (hh : w.heldFrees = []) (hr : w.results = []) (hlu : o.lu = [])
    (ha : ∀ x ∈ w.entries, x.eid = e.eid → x = e) :
    finishBody lim g e o lanes act pg (t.markedAt g e.eid, fs) = t.stepped g e fs := by
  have hlast : ∀ again done tr, (w.marked e.eid).lastUseHeld lim e.pc o lanes again done tr = w.marked e.eid := by
    intro again done tr
    unfold Warp.lastUseHeld
    rw [show (w.marked e.eid).heldFrees = [] from hh, hlu]
    simp
  have haft : ∀ done, (w.marked e.eid).afterIssue lim lanes done o = w.marked e.eid := by
    intro done
    refine afterIssue_own _ _ _ _ _ ?_
    intro r h
    have h' : r ∈ w.results := h
    rw [hr] at h'; simp at h'
  have hw' : (t.markedAt g e.eid).warp? g = some (w.marked e.eid) := by
    unfold State.markedAt; rw [warp?_modWarp, hw]; rfl
  unfold finishBody State.stepped
  simp only
  rw [settle_congr (t := t.modWarp g fun w => w.aged e.eid t.now)]
  intro m
  rw [modWarp_modWarp, modWarp_modWarp]
  rw [modWarp_congr hw' (h := fun w => (w.aged e.eid t.now).stepOff e m) (by rw [hlast, haft]; rfl)]
  unfold State.markedAt
  rw [modWarp_modWarp]
  exact modWarp_congr hw (stepOff_marked_gone w e t.now m ha)

theorem preFates_eq (kind : GuardKind) (pg : LaneMask) (fs : Fates) (s : State) (g : Nat) (e : Entry) :
    s.stepped g e (preFates kind pg ++ fs) = s.stepped g e (guardFate kind pg ++ fs) := stepped_zero s g e _ _

/-- A lane instruction without v registers. -/
theorem issueLane_fates {s : State} {g : Nat} {w w' : Warp} {e : Entry} (hc : Calm s g w e) {gd : Guard} {kind : GuardKind} {o : Opnds}
    {body : Body} {t : State} {fs : Fates} (hrel : o.rel = 0 ∨ relMet s g o.rel e.mask = true) (hvr : o.vr = []) (hvw : o.vw = [])
    (hlu : o.lu = []) (hhome : o.home = [])
    (hb : body (s.markedAt g e.eid) { laneCtx g w e gd with pg := if kind == .traps then 0 else (laneCtx g w e gd).pg } = (t.markedAt g e.eid, fs))
    (hw : t.warp? g = some w') (he : w'.entries = w.entries) (hh : w'.heldFrees = []) (hr : w'.results = []) :
    issueLane s gd kind o body = .next (t.stepped g e (guardFate kind (laneCtx g w e gd).pg ++ fs)) := by
  have hroom : Room s g w { o with gp := [gd.n] } := by
    left; unfold poolNeed; rw [hvr, hvw]; rfl
  unfold issueLane
  rw [issueCore_local hc { o with gp := [gd.n] } _ kind body hrel hhome (.inr hroom),
    counted_none s w { o with gp := [gd.n] } _ hvr hvw]
  unfold runBody
  have hb' : body (s.modWarp g fun w => w.modEntry e.eid fun x => { x with st := .issuing })
      { g := g, e := e, lanes := e.mask, act := (guardLanes w gd e.mask).1, pg := if kind == .traps then 0 else (guardLanes w gd e.mask).2 } =
      (t.markedAt g e.eid, fs) := hb
  rw [hb']
  refine congrArg _ ?_
  rw [finish_fates (o := { o with gp := [gd.n] }) hw hh hr hlu (fun x hx => by rw [he] at hx; exact hc.alone x hx), preFates_eq]
  rfl

/-- The same where the body changes no state. -/
theorem issueLane_same {s : State} {g : Nat} {w : Warp} {e : Entry} (hc : Calm s g w e) {gd : Guard} {kind : GuardKind} {o : Opnds}
    {body : Body} {fs : Fates} (hrel : o.rel = 0 ∨ relMet s g o.rel e.mask = true) (hvr : o.vr = []) (hvw : o.vw = [])
    (hlu : o.lu = []) (hhome : o.home = [])
    (hb : body (s.markedAt g e.eid) { laneCtx g w e gd with pg := if kind == .traps then 0 else (laneCtx g w e gd).pg } = (s.markedAt g e.eid, fs)) :
    issueLane s gd kind o body = .next (s.stepped g e (guardFate kind (laneCtx g w e gd).pg ++ fs)) :=
  issueLane_fates hc hrel hvr hvw hlu hhome hb hc.warp rfl hc.held hc.results

/-- A uniform instruction with a true guard whose lanes have fates. -/
theorem issueUni_fates {s : State} {g : Nat} {w w' : Warp} {e : Entry} (hc : Calm s g w e) {gd : Guard} {o : Opnds} {body : Body} {t : State} {fs : Fates}
    (hg : w.uniTrue gd) (hrel : o.rel = 0 ∨ relMet s g o.rel e.mask = true) (hvr : o.vr = []) (hvw : o.vw = []) (hlu : o.lu = [])
    (hhome : o.home = []) (hb : body (s.markedAt g e.eid) (uniCtx g e) = (t.markedAt g e.eid, fs))
    (hw : t.warp? g = some w') (he : w'.entries = w.entries) (hh : w'.heldFrees = []) (hr : w'.results = []) :
    issueUni s gd o body = .next (t.stepped g e fs) := by
  have hroom : Room s g w o := by
    left; unfold poolNeed; rw [hvr, hvw]; rfl
  rw [issueUni_eq, under_true hc hg, issueCore_local hc _ _ _ _ hrel hhome (.inr hroom), uniSel_true hg, own_pg, counted_none _ _ _ _ hvr hvw]
  unfold runBody
  have hb' : uniBody body (s.modWarp g fun w => w.modEntry e.eid fun x => { x with st := .issuing })
      { g := g, e := e, lanes := e.mask, act := e.mask, pg := 0 } = (t.markedAt g e.eid, fs) := by
    unfold uniBody
    rw [if_neg hc.lanes]
    exact hb
  rw [hb']
  refine congrArg _ ?_
  rw [finish_fates hw hh hr hlu (fun x hx => by rw [he] at hx; exact hc.alone x hx), preFates_eq]
  rfl

/-! ## The general form -/

/-- Finishing an issue: last-use bits, then the lanes' places. -/
theorem finish_general {lim g : Nat} {e : Entry} {o : Opnds} {act pg : LaneMask} {fs : Fates} {u : State} {w : Warp}
    (hw : u.warp? g = some w) (hr : (w.spent lim e o fs (act ||| pg)).ownResults lim) :
    finishBody lim g e o e.mask act pg (u, fs) = (u.modWarp g fun w => w.spent lim e o fs (act ||| pg)).stepped g e fs := by
  unfold finishBody State.stepped
  simp only
  rw [modWarp_modWarp]
  rw [modWarp_congr hw (h := fun x => (x.spent lim e o fs (act ||| pg)).aged e.eid u.now)]
  · rfl
  · rw [show w.lastUseHeld lim e.pc o e.mask (fateLanes fs Fate.isAgain) ((act ||| pg) &&& ~~~ fateLanes fs Fate.isTrap &&& ~~~ fateLanes fs Fate.isAgain)
        (fateLanes fs Fate.isTrap != 0) = w.spent lim e o fs (act ||| pg) from rfl, afterIssue_own _ _ _ _ _ hr]

theorem fateLanes_cons_zero (f : Fate) (fs : Fates) (p : Fate → Bool) : fateLanes ((0, f) :: fs) p = fateLanes fs p := by
  unfold fateLanes
  rw [List.foldl_cons]
  congr 1
  split <;> simp

theorem spent_zero (w : Warp) (lim : Nat) (e : Entry) (o : Opnds) (f : Fate) (fs : Fates) (m : LaneMask) :
    w.spent lim e o ((0, f) :: fs) m = w.spent lim e o fs m := by
  unfold Warp.spent
  simp only [fateLanes_cons_zero]

/-- A lane instruction in a calm split: its body's state and fates, and the finish. -/
theorem issueLane_calm {s : State} {g : Nat} {w w' : Warp} {e : Entry} (hc : Calm s g w e) {gd : Guard} {kind : GuardKind} {o : Opnds}
    {body : Body} {u : State} {fs : Fates} (hrel : o.rel = 0 ∨ relMet s g o.rel e.mask = true) (hhome : homeOpen s g o = true) (hroom : Room s g w o)
    {b : State} (hbeq : b = ((s.counted w o (laneCtx g w e gd).act).engaged g o).begun g e) (hb : body b (bodyCtx kind g w e gd) = (u, fs))
    (hw : u.warp? g = some w')
    (hr : (w'.spent b.nextId e { o with gp := [gd.n] } (guardFate kind (laneCtx g w e gd).pg ++ fs)
      ((laneCtx g w e gd).act ||| (bodyCtx kind g w e gd).pg)).ownResults b.nextId) :
    issueLane s gd kind o body = .next ((u.modWarp g fun x => x.spent b.nextId e { o with gp := [gd.n] }
      (guardFate kind (laneCtx g w e gd).pg ++ fs) ((laneCtx g w e gd).act ||| (bodyCtx kind g w e gd).pg)).stepped g e
        (guardFate kind (laneCtx g w e gd).pg ++ fs)) := by
  subst hbeq
  unfold issueLane
  rw [issueCore_calm hc { o with gp := [gd.n] } _ kind body hrel hhome (.inr hroom)]
  unfold runBody
  have hb' : body (((s.counted w { o with gp := [gd.n] } (guardLanes w gd e.mask).1).engaged g { o with gp := [gd.n] }).modWarp g
        fun w => w.modEntry e.eid fun x => { x with st := .issuing })
      { g := g, e := e, lanes := e.mask, act := (guardLanes w gd e.mask).1, pg := if kind == .traps then 0 else (guardLanes w gd e.mask).2 } =
      (u, fs) := hb
  rw [hb']
  have hz : ∀ m, preFates kind m ++ fs = (0, Fate.trap { cause := 0x06, detail := 0, addr := 0 }) :: (guardFate kind m ++ fs) := fun _ => rfl
  simp only [hz]
  rw [finish_general (w := w') hw (by rw [spent_zero]; exact hr), stepped_zero]
  simp only [spent_zero]
  rfl

end Sys2Proof.Machine
end

