-- ==== Sys2Proof/Laws/Fields.lean ====
section
/-! SUPPORT. Laws of the instruction formats: what each field of an encoded word reads as (R28–R38). -/

namespace Sys2Proof

theorem fld_cat (hi x lo s k j m : Nat) (hlo : lo < 2 ^ s) (hx : x < 2 ^ k) (hjm : j + m ≤ k) :
    fld ((hi * 2 ^ k + x) * 2 ^ s + lo) (s + j) m = fld x j m := by
  unfold fld
  rw [Nat.pow_add, ← Nat.div_div_eq_div_mul]
  have h1 : ((hi * 2 ^ k + x) * 2 ^ s + lo) / 2 ^ s = hi * 2 ^ k + x := by
    rw [Nat.mul_comm, Nat.mul_add_div (Nat.two_pow_pos s), Nat.div_eq_of_lt hlo, Nat.add_zero]
  rw [h1]
  obtain ⟨d, rfl⟩ := Nat.exists_eq_add_of_le hjm
  have h2 : (hi * 2 ^ (j + m + d) + x) / 2 ^ j = hi * 2 ^ d * 2 ^ m + x / 2 ^ j := by
    rw [show hi * 2 ^ (j + m + d) + x = 2 ^ j * (hi * 2 ^ d * 2 ^ m) + x by rw [Nat.pow_add, Nat.pow_add]; ring,
      Nat.mul_add_div (Nat.two_pow_pos j)]
  rw [h2, Nat.mul_add_mod_self_right]

/-- A field that spans its number reads as the number. -/
theorem fld_whole (x n : Nat) (h : x < 2 ^ n) : fld x 0 n = x := by
  unfold fld; rw [Nat.pow_zero, Nat.div_one, Nat.mod_eq_of_lt h]

/-- The bits of an encoded word. -/
structure Head (w set grp ix : Nat) (g : Guard) (body : Nat) : Prop where
  word : w = encHead set grp ix g body
  set  : set < 2
  grp  : grp < 16
  ix   : ix < 64
  g    : g.n < 8
  body : body < 2 ^ 49

theorem natOf_lt (b : Bool) : natOf b < 2 := by cases b <;> decide
@[simp] theorem boolOf_natOf (b : Bool) : boolOf (natOf b) = b := by cases b <;> rfl

namespace Head

variable {w set grp ix : Nat} {g : Guard} {body : Nat} (h : Head w set grp ix g body)
include h

theorem range : w < 2 ^ 64 := by
  have := natOf_lt g.neg
  obtain ⟨rfl, _, _, _, _, _⟩ := h
  unfold encHead
  omega

theorem fset : fld w 63 1 = set := by
  have := natOf_lt g.neg
  obtain ⟨rfl, _, _, _, _, _⟩ := h
  unfold encHead fld
  omega

theorem fgrp : fld w 59 4 = grp := by
  have := natOf_lt g.neg
  obtain ⟨rfl, _, _, _, _, _⟩ := h
  unfold encHead fld
  omega

theorem fix : fld w 53 6 = ix := by
  have := natOf_lt g.neg
  obtain ⟨rfl, _, _, _, _, _⟩ := h
  unfold encHead fld
  omega

theorem fg : W.g w = g := by
  have := natOf_lt g.neg
  obtain ⟨rfl, _, _, _, _, _⟩ := h
  have e1 : fld (encHead set grp ix g body) 52 1 = natOf g.neg := by unfold encHead fld; omega
  have e2 : fld (encHead set grp ix g body) 49 3 = g.n := by unfold encHead fld; omega
  unfold W.g
  rw [e1, e2, boolOf_natOf]

/-- A field below bit 49 is one of the body. -/
theorem low (lo n : Nat) (hn : lo + n ≤ 49) : fld w lo n = fld body lo n := by
  obtain ⟨rfl, _, _, _, _, hb⟩ := h
  have := fld_cat (set * 2 ^ 14 + grp * 2 ^ 10 + ix * 2 ^ 4 + natOf g.neg * 2 ^ 3 + g.n) body 0 0 49 lo n (by decide) hb hn
  rw [Nat.zero_add] at this
  exact (congrArg (fld · lo n) (by unfold encHead; ring)).trans this

end Head

/-- Decoding a word whose fields build a well-formed instruction. -/
theorem Head.decode {w set grp ix : Nat} {g : Guard} {body : Nat} {i : Instr} (h : Head w set grp ix g body)
    (ha : opcodeAssigned (boolOf set) grp ix = true) (hb : buildInstr (boolOf set) grp ix w = some i) (hw : i.wellFormed = true) :
    w < 2 ^ 64 ∧ decodeNat w = .ok i := by
  refine ⟨h.range, ?_⟩
  unfold decodeNat
  simp only [h.fset, h.fgrp, h.fix, ha, hb, hw, if_true]

/-! ## The formats -/

/-- A word of format V, as its fields give it. -/
structure VWord (w set grp ix : Nat) (g : Guard) (la d a b c mod : Nat) : Prop where
  head : Head w set grp ix g (la * 2 ^ 45 + d * 2 ^ 37 + a * 2 ^ 27 + b * 2 ^ 17 + c * 2 ^ 7 + mod)
  la   : la < 16
  d    : d < 256
  a    : a < 1024
  b    : b < 1024
  c    : c < 1024
  mod  : mod < 128

theorem VWord.mk' {set grp ix : Nat} {g : Guard} {la d a b c mod : Nat} (hs : set < 2) (hgr : grp < 16) (hi : ix < 64)
    (hg : g.n < 8) (hla : la < 16) (hd : d < 256) (ha : a < 1024) (hb : b < 1024) (hc : c < 1024) (hm : mod < 128) :
    VWord (encV set grp ix g la d a b c mod) set grp ix g la d a b c mod :=
  ⟨⟨rfl, hs, hgr, hi, hg, by omega⟩, hla, hd, ha, hb, hc, hm⟩

namespace VWord

variable {w set grp ix : Nat} {g : Guard} {la d a b c mod : Nat} (h : VWord w set grp ix g la d a b c mod)
include h

theorem fla : W.la w = la := by
  unfold W.la
  rw [h.head.low _ _ (by decide)]
  obtain ⟨_, _, _, _, _, _, _⟩ := h
  unfold fld
  omega

theorem fd : W.d w = d := by
  unfold W.d
  rw [h.head.low _ _ (by decide)]
  obtain ⟨_, _, _, _, _, _, _⟩ := h
  unfold fld
  omega

theorem inA (lo n : Nat) (h1 : 27 ≤ lo) (h2 : lo + n ≤ 37) : fld w lo n = fld a (lo - 27) n := by
  rw [h.head.low _ _ (by omega)]
  obtain ⟨_, _, _, ha, hb, hc, hm⟩ := h
  have := fld_cat (la * 2 ^ 8 + d) a (b * 2 ^ 17 + c * 2 ^ 7 + mod) 27 10 (lo - 27) n (by omega) ha (by omega)
  rw [show 27 + (lo - 27) = lo by omega] at this
  exact (congrArg (fld · lo n) (by ring)).trans this

theorem inB (lo n : Nat) (h1 : 17 ≤ lo) (h2 : lo + n ≤ 27) : fld w lo n = fld b (lo - 17) n := by
  rw [h.head.low _ _ (by omega)]
  obtain ⟨_, _, _, ha, hb, hc, hm⟩ := h
  have := fld_cat (la * 2 ^ 18 + d * 2 ^ 10 + a) b (c * 2 ^ 7 + mod) 17 10 (lo - 17) n (by omega) hb (by omega)
  rw [show 17 + (lo - 17) = lo by omega] at this
  exact (congrArg (fld · lo n) (by ring)).trans this

theorem inC (lo n : Nat) (h1 : 7 ≤ lo) (h2 : lo + n ≤ 17) : fld w lo n = fld c (lo - 7) n := by
  rw [h.head.low _ _ (by omega)]
  obtain ⟨_, _, _, ha, hb, hc, hm⟩ := h
  have := fld_cat (la * 2 ^ 28 + d * 2 ^ 20 + a * 2 ^ 10 + b) c mod 7 10 (lo - 7) n (by omega) hc (by omega)
  rw [show 7 + (lo - 7) = lo by omega] at this
  exact (congrArg (fld · lo n) (by ring)).trans this

theorem inMod (lo n : Nat) (h2 : lo + n ≤ 7) : fld w lo n = fld mod lo n := by
  rw [h.head.low _ _ (by omega)]
  obtain ⟨_, _, _, ha, hb, hc, hm⟩ := h
  have := fld_cat (la * 2 ^ 38 + d * 2 ^ 30 + a * 2 ^ 20 + b * 2 ^ 10 + c) mod 0 0 7 lo n (by omega) hm h2
  rw [Nat.zero_add] at this
  exact (congrArg (fld · lo n) (by ring)).trans this

end VWord

/-- A word of format VI. -/
structure VIWord (w set grp ix : Nat) (g : Guard) (la d a imm mod : Nat) : Prop where
  head : Head w set grp ix g (la * 2 ^ 45 + d * 2 ^ 37 + a * 2 ^ 27 + imm * 2 ^ 7 + mod)
  la   : la < 16
  d    : d < 256
  a    : a < 1024
  imm  : imm < 2 ^ 20
  mod  : mod < 128

theorem VIWord.mk' {set grp ix : Nat} {g : Guard} {la d a imm mod : Nat} (hs : set < 2) (hgr : grp < 16) (hi : ix < 64)
    (hg : g.n < 8) (hla : la < 16) (hd : d < 256) (ha : a < 1024) (hb : imm < 2 ^ 20) (hm : mod < 128) :
    VIWord (encVI set grp ix g la d a imm mod) set grp ix g la d a imm mod :=
  ⟨⟨rfl, hs, hgr, hi, hg, by omega⟩, hla, hd, ha, hb, hm⟩

namespace VIWord

variable {w set grp ix : Nat} {g : Guard} {la d a imm mod : Nat} (h : VIWord w set grp ix g la d a imm mod)
include h

theorem fla : W.la w = la := by
  unfold W.la
  rw [h.head.low _ _ (by decide)]
  obtain ⟨_, _, _, _, _, _⟩ := h
  unfold fld
  omega

theorem fd : W.d w = d := by
  unfold W.d
  rw [h.head.low _ _ (by decide)]
  obtain ⟨_, _, _, _, _, _⟩ := h
  unfold fld
  omega

theorem inA (lo n : Nat) (h1 : 27 ≤ lo) (h2 : lo + n ≤ 37) : fld w lo n = fld a (lo - 27) n := by
  rw [h.head.low _ _ (by omega)]
  obtain ⟨_, _, _, ha, hb, hm⟩ := h
  have := fld_cat (la * 2 ^ 8 + d) a (imm * 2 ^ 7 + mod) 27 10 (lo - 27) n (by omega) ha (by omega)
  rw [show 27 + (lo - 27) = lo by omega] at this
  exact (congrArg (fld · lo n) (by ring)).trans this

theorem inImm (lo n : Nat) (h1 : 7 ≤ lo) (h2 : lo + n ≤ 27) : fld w lo n = fld imm (lo - 7) n := by
  rw [h.head.low _ _ (by omega)]
  obtain ⟨_, _, _, ha, hb, hm⟩ := h
  have := fld_cat (la * 2 ^ 18 + d * 2 ^ 10 + a) imm mod 7 20 (lo - 7) n (by omega) hb (by omega)
  rw [show 7 + (lo - 7) = lo by omega] at this
  exact (congrArg (fld · lo n) (by ring)).trans this

theorem inMod (lo n : Nat) (h2 : lo + n ≤ 7) : fld w lo n = fld mod lo n := by
  rw [h.head.low _ _ (by omega)]
  obtain ⟨_, _, _, ha, hb, hm⟩ := h
  have := fld_cat (la * 2 ^ 38 + d * 2 ^ 30 + a * 2 ^ 20 + imm) mod 0 0 7 lo n (by omega) hm h2
  rw [Nat.zero_add] at this
  exact (congrArg (fld · lo n) (by ring)).trans this

end VIWord

/-- A word of format VL or UL. -/
theorem encVL_fields {set grp ix : Nat} {g : Guard} {d imm half : Nat} (hs : set < 2) (hgr : grp < 16) (hi : ix < 64)
    (hg : g.n < 8) (hd : d < 256) (hm : imm < 2 ^ 32) (hh : half < 2) :
    Head (encVL set grp ix g d imm half) set grp ix g (d * 2 ^ 37 + imm * 2 ^ 5 + half) ∧
      W.d (encVL set grp ix g d imm half) = d ∧ W.imm32 (encVL set grp ix g d imm half) = imm ∧
      fld (encVL set grp ix g d imm half) 0 1 = half := by
  have h : Head (encVL set grp ix g d imm half) set grp ix g (d * 2 ^ 37 + imm * 2 ^ 5 + half) := ⟨rfl, hs, hgr, hi, hg, by omega⟩
  refine ⟨h, ?_, ?_, ?_⟩
  · unfold W.d; rw [h.low _ _ (by decide)]; unfold fld; omega
  · unfold W.imm32; rw [h.low _ _ (by decide)]; unfold fld; omega
  · rw [h.low _ _ (by decide)]; unfold fld; omega

/-- Two's complement fields read back as the integer. -/
theorem sCode_lt (i : Int) (n : Nat) : sCode i n < 2 ^ n := by
  unfold sCode
  have h := Int.emod_lt_of_pos i (show (0 : Int) < ((2 ^ n : Nat) : Int) by exact_mod_cast Nat.two_pow_pos n)
  have h0 := Int.emod_nonneg i (show ((2 ^ n : Nat) : Int) ≠ 0 by exact_mod_cast (Nat.two_pow_pos n).ne')
  omega

theorem sCode_back (i : Int) (n : Nat) (hn : 0 < n) (h1 : -(2 ^ (n - 1) : Nat) ≤ i) (h2 : i < (2 ^ (n - 1) : Nat)) :
    (if sCode i n < 2 ^ (n - 1) then (sCode i n : Int) else (sCode i n : Int) - 2 ^ n) = i := by
  have hp : (2 ^ n : Nat) = 2 * 2 ^ (n - 1) := by
    obtain ⟨k, rfl⟩ := Nat.exists_eq_add_of_lt hn
    rw [show 0 + k + 1 - 1 = k by omega, show 0 + k + 1 = k + 1 by omega, pow_succ, Nat.mul_comm]
  have hq : ((2 : Int) ^ n) = ((2 ^ n : Nat) : Int) := by push_cast; rfl
  rw [hq]
  unfold sCode
  rw [hp]
  generalize 2 ^ (n - 1) = m at *
  rcases lt_or_ge i (0 : Int) with hi | hi
  · have : i % ((2 * m : Nat) : Int) = i + (2 * m : Nat) := by
      rw [← Int.add_emod_right]; exact Int.emod_eq_of_lt (by omega) (by omega)
    rw [this]; split <;> omega
  · have : i % ((2 * m : Nat) : Int) = i := Int.emod_eq_of_lt hi (by omega)
    rw [this]; split <;> omega

theorem sfld_eq {w lo n : Nat} {i : Int} (hn : 0 < n) (h : fld w lo n = sCode i n) (h1 : -(2 ^ (n - 1) : Nat) ≤ i) (h2 : i < (2 ^ (n - 1) : Nat)) :
    sfld w lo n = i := by
  unfold sfld
  rw [h]
  exact sCode_back i n hn h1 h2

/-- A word of format VB. -/
theorem encVB_fields {ix : Nat} {g : Guard} {uni prio : Nat} {off : Int} {treg : Nat} {lu : Bool} (hi : ix < 64)
    (hg : g.n < 8) (hu : uni < 2) (hp : prio < 64) (ho : -8388608 ≤ off ∧ off < 8388608) (ht : treg < 256) :
    ∃ body, Head (encVB ix g uni prio off treg lu) 0 0 ix g body ∧
      fld (encVB ix g uni prio off treg lu) 48 1 = uni ∧ fld (encVB ix g uni prio off treg lu) 42 6 = prio ∧
      sfld (encVB ix g uni prio off treg lu) 18 24 = off ∧ fld (encVB ix g uni prio off treg lu) 10 8 = treg ∧
      boolOf (fld (encVB ix g uni prio off treg lu) 9 1) = lu := by
  have hl := natOf_lt lu
  have hs : sCode off 24 < 16777216 := sCode_lt off 24
  have h : Head (encVB ix g uni prio off treg lu) 0 0 ix g
      (uni * 2 ^ 48 + prio * 2 ^ 42 + sCode off 24 * 2 ^ 18 + treg * 2 ^ 10 + natOf lu * 2 ^ 9) :=
    ⟨rfl, by decide, by decide, hi, hg, by omega⟩
  refine ⟨_, h, ?_, ?_, sfld_eq (by decide) ?_ (by simpa using ho.1) (by simpa using ho.2), ?_, ?_⟩
  · rw [h.low _ _ (by decide)]; unfold fld; omega
  · rw [h.low _ _ (by decide)]; unfold fld; omega
  · rw [h.low _ _ (by decide)]; unfold fld; omega
  · rw [h.low _ _ (by decide)]; unfold fld; omega
  · rw [h.low _ _ (by decide), show fld (uni * 2 ^ 48 + prio * 2 ^ 42 + sCode off 24 * 2 ^ 18 + treg * 2 ^ 10 + natOf lu * 2 ^ 9) 9 1 = natOf lu by
      unfold fld; omega, boolOf_natOf]

/-! ## Codes -/

@[simp] theorem IntTy.ofCode_code (t : IntTy) : IntTy.ofCode t.code = t := by cases t <;> rfl
@[simp] theorem FpTy.ofCode_code (t : FpTy) : FpTy.ofCode t.code = some t := by cases t <;> rfl
@[simp] theorem Rm.ofCode_code (t : Rm) : Rm.ofCode t.code = t := by cases t <;> rfl
@[simp] theorem CvtFmt.ofCode_code (t : CvtFmt) : CvtFmt.ofCode t.code = some t := by cases t <;> rfl
@[simp] theorem Policy.ofCode_code (t : Policy) : Policy.ofCode t.code = some t := by cases t <;> rfl
@[simp] theorem Order.ofCode_code (t : Order) : Order.ofCode t.code = t := by cases t <;> rfl
@[simp] theorem Scope.ofCode_code (t : Scope) : Scope.ofCode t.code = some t := by cases t <;> rfl
@[simp] theorem CacheClass.ofCode_code (t : CacheClass) : CacheClass.ofCode t.code = some t := by cases t <;> rfl
@[simp] theorem AtomOp.ofCode_code (t : AtomOp) : AtomOp.ofCode t.code = t := by cases t <;> rfl

theorem IntTy.code_lt (t : IntTy) : t.code < 8 := by cases t <;> decide
theorem FpTy.code_lt (t : FpTy) : t.code < 8 := by cases t <;> decide
theorem Rm.code_lt (t : Rm) : t.code < 4 := by cases t <;> decide
theorem CvtFmt.code_lt (t : CvtFmt) : t.code < 32 := by cases t <;> decide
theorem Policy.code_lt (t : Policy) : t.code < 8 := by cases t <;> decide
theorem Order.code_lt (t : Order) : t.code < 4 := by cases t <;> decide
theorem Scope.code_lt (t : Scope) : t.code < 8 := by cases t <;> decide
theorem CacheClass.code_lt (t : CacheClass) : t.code < 8 := by cases t <;> decide
theorem AtomOp.code_lt (t : AtomOp) : t.code < 16 := by cases t <;> decide

theorem Src.code_lt (s : Src) (h : s.reg < 256) : s.code < 1024 := by
  have := natOf_lt s.lu
  have := natOf_lt s.keep
  unfold Src.code
  omega

/-- An operand field of v registers reads back. -/
theorem Src.back (s : Src) (h : s.reg < 256) : ({ reg := fld s.code 2 8, lu := boolOf (fld s.code 1 1), keep := boolOf (fld s.code 0 1) } : Src) = s := by
  have h1 := natOf_lt s.lu
  have h2 := natOf_lt s.keep
  have e1 : fld s.code 2 8 = s.reg := by unfold fld Src.code; omega
  have e2 : fld s.code 1 1 = natOf s.lu := by unfold fld Src.code; omega
  have e3 : fld s.code 0 1 = natOf s.keep := by unfold fld Src.code; omega
  rw [e1, e2, e3, boolOf_natOf, boolOf_natOf]

theorem VWord.fa {w set grp ix : Nat} {g : Guard} {la d b c mod : Nat} {a : Src} (h : VWord w set grp ix g la d a.code b c mod) (ha : a.reg < 256) :
    W.a w = a := by
  unfold W.a W.src
  rw [h.inA _ _ (by decide) (by decide), h.inA _ _ (by decide) (by decide), h.inA _ _ (by decide) (by decide)]
  exact a.back ha

theorem VWord.fb {w set grp ix : Nat} {g : Guard} {la d a c mod : Nat} {b : Src} (h : VWord w set grp ix g la d a b.code c mod) (hb : b.reg < 256) :
    W.b w = b := by
  unfold W.b W.src
  rw [h.inB _ _ (by decide) (by decide), h.inB _ _ (by decide) (by decide), h.inB _ _ (by decide) (by decide)]
  exact b.back hb

theorem VWord.fc {w set grp ix : Nat} {g : Guard} {la d a b mod : Nat} {c : Src} (h : VWord w set grp ix g la d a b c.code mod) (hc : c.reg < 256) :
    W.c w = c := by
  unfold W.c W.src
  rw [h.inC _ _ (by decide) (by decide), h.inC _ _ (by decide) (by decide), h.inC _ _ (by decide) (by decide)]
  exact c.back hc

/-- An operand field that holds a register number alone. -/
theorem fld_num (r : Nat) (h : r < 256) : fld (r * 4) 2 8 = r := by unfold fld; omega

theorem VWord.fra {w set grp ix : Nat} {g : Guard} {la d a b c mod : Nat} (h : VWord w set grp ix g la d (a * 4) b c mod) (ha : a < 256) : W.ra w = a := by
  unfold W.ra
  rw [h.inA _ _ (by decide) (by decide)]
  exact fld_num a ha

theorem VWord.frb {w set grp ix : Nat} {g : Guard} {la d a b c mod : Nat} (h : VWord w set grp ix g la d a (b * 4) c mod) (hb : b < 256) : W.rb w = b := by
  unfold W.rb
  rw [h.inB _ _ (by decide) (by decide)]
  exact fld_num b hb

theorem VWord.frc {w set grp ix : Nat} {g : Guard} {la d a b c mod : Nat} (h : VWord w set grp ix g la d a b (c * 4) mod) (hc : c < 256) : W.rc w = c := by
  unfold W.rc
  rw [h.inC _ _ (by decide) (by decide)]
  exact fld_num c hc

/-- The register of a source field that holds a register number alone. -/
theorem src_reg (w lo : Nat) : (W.src w lo).reg = fld w (lo + 2) 8 := rfl

theorem VWord.areg {w set grp ix : Nat} {g : Guard} {la d a b c mod : Nat} (h : VWord w set grp ix g la d (a * 4) b c mod) (ha : a < 256) : (W.a w).reg = a := h.fra ha
theorem VWord.breg {w set grp ix : Nat} {g : Guard} {la d a b c mod : Nat} (h : VWord w set grp ix g la d a (b * 4) c mod) (hb : b < 256) : (W.b w).reg = b := h.frb hb
theorem VWord.creg {w set grp ix : Nat} {g : Guard} {la d a b c mod : Nat} (h : VWord w set grp ix g la d a b (c * 4) mod) (hc : c < 256) : (W.c w).reg = c := h.frc hc

theorem VWord.fmod {w set grp ix : Nat} {g : Guard} {la d a b c mod : Nat} (h : VWord w set grp ix g la d a b c mod) : W.mod w = mod := by
  unfold W.mod
  rw [h.inMod _ _ (by decide)]
  exact fld_whole _ _ h.mod

theorem VIWord.fa {w set grp ix : Nat} {g : Guard} {la d imm mod : Nat} {a : Src} (h : VIWord w set grp ix g la d a.code imm mod) (ha : a.reg < 256) :
    W.a w = a := by
  unfold W.a W.src
  rw [h.inA _ _ (by decide) (by decide), h.inA _ _ (by decide) (by decide), h.inA _ _ (by decide) (by decide)]
  exact a.back ha

theorem VIWord.fra {w set grp ix : Nat} {g : Guard} {la d a imm mod : Nat} (h : VIWord w set grp ix g la d (a * 4) imm mod) (ha : a < 256) : W.ra w = a := by
  unfold W.ra
  rw [h.inA _ _ (by decide) (by decide)]
  exact fld_num a ha

theorem VIWord.fimm {w set grp ix : Nat} {g : Guard} {la d a imm mod : Nat} (h : VIWord w set grp ix g la d a imm mod) : W.imm w = imm := by
  unfold W.imm
  rw [h.inImm _ _ (by decide) (by decide)]
  exact fld_whole _ _ h.imm

theorem VIWord.fmod {w set grp ix : Nat} {g : Guard} {la d a imm mod : Nat} (h : VIWord w set grp ix g la d a imm mod) : W.mod w = mod := by
  unfold W.mod
  rw [h.inMod _ _ (by decide)]
  exact fld_whole _ _ h.mod

/-! ## Memory formats -/

/-- A word of format VM-A reads back, whatever its data register and flags. -/
theorem encVMA_fields {set grp ix : Nat} {f : MemF} {la d : Nat} {dl sp : Bool} (hs : set < 2) (hgr : grp < 16) (hi : ix < 64)
    (hg : f.g.n < 8) (hla : la < 16) (hd : d < 256) (hb : f.base < 256) (ho : -2048 ≤ f.off ∧ f.off < 2048) (hz : f.size < 8)
    (w : Nat) (hw : w = encVMA set grp ix f la d dl sp) :
    ∃ body, Head w set grp ix f.g body ∧ buildMemF w = some f ∧
      W.la w = la ∧ W.d w = d ∧
      fld w 27 1 = natOf dl ∧ fld w 0 1 = natOf sp := by
  have h1 := natOf_lt dl
  have h2 := natOf_lt sp
  have h3 := natOf_lt f.baseLu
  have h4 : sCode f.off 12 < 4096 := sCode_lt f.off 12
  have h5 := f.cls.code_lt
  have h6 := f.pol.code_lt
  have h7 := f.ord.code_lt
  have h8 := f.scope.code_lt
  have h : Head w set grp ix f.g (la * 2 ^ 45 + d * 2 ^ 37 + f.base * 2 ^ 29 + natOf f.baseLu * 2 ^ 28 +
      natOf dl * 2 ^ 27 + sCode f.off 12 * 2 ^ 15 + f.cls.code * 2 ^ 12 + f.pol.code * 2 ^ 9 + f.ord.code * 2 ^ 7 + f.scope.code * 2 ^ 4 +
      f.size * 2 + natOf sp) := ⟨hw, hs, hgr, hi, hg, by omega⟩
  have k (lo n x : Nat) (hn : lo + n ≤ 49) (e : fld (la * 2 ^ 45 + d * 2 ^ 37 + f.base * 2 ^ 29 + natOf f.baseLu * 2 ^ 28 +
      natOf dl * 2 ^ 27 + sCode f.off 12 * 2 ^ 15 + f.cls.code * 2 ^ 12 + f.pol.code * 2 ^ 9 + f.ord.code * 2 ^ 7 + f.scope.code * 2 ^ 4 +
      f.size * 2 + natOf sp) lo n = x) : fld w lo n = x := (h.low lo n hn).trans e
  have hla' : W.la w = la := by
    unfold W.la; exact k 45 4 la (by decide) (by unfold fld; omega)
  have hd' : W.d w = d := by
    unfold W.d; exact k 37 8 d (by decide) (by unfold fld; omega)
  refine ⟨_, h, ?_, hla', hd', k 27 1 (natOf dl) (by decide) (by unfold fld; omega), k 0 1 (natOf sp) (by decide) (by unfold fld; omega)⟩
  unfold buildMemF
  rw [k 12 3 f.cls.code (by decide) (by unfold fld; omega), k 9 3 f.pol.code (by decide) (by unfold fld; omega),
    k 4 3 f.scope.code (by decide) (by unfold fld; omega), k 29 8 f.base (by decide) (by unfold fld; omega),
    k 28 1 (natOf f.baseLu) (by decide) (by unfold fld; omega), k 7 2 f.ord.code (by decide) (by unfold fld; omega),
    k 1 3 f.size (by decide) (by unfold fld; omega), h.fg,
    sfld_eq (i := f.off) (by decide) (k 15 12 (sCode f.off 12) (by decide) (by unfold fld; omega)) (by simpa using ho.1) (by simpa using ho.2)]
  simp

/-- The fields of a word of format VM-B. -/
theorem encVMB_fields {set grp ix : Nat} {g : Guard} {la d base : Nat} {bl : Bool} {opb : Nat} {ol : Bool}
    {st aop pol ord sc size : Nat} (hs : set < 2) (hgr : grp < 16) (hi : ix < 64)
    (hg : g.n < 8) (hla : la < 16) (hd : d < 256) (hb : base < 256) (hopb : opb < 256) (hst : st < 4) (hop : aop < 16)
    (hpol : pol < 8) (hord : ord < 4) (hsc : sc < 8) (hz : size < 8) :
    ∃ body, Head (encVMB set grp ix g la d base bl opb ol st aop pol ord sc size) set grp ix g body ∧
      W.la (encVMB set grp ix g la d base bl opb ol st aop pol ord sc size) = la ∧
      W.d (encVMB set grp ix g la d base bl opb ol st aop pol ord sc size) = d ∧
      (∀ lo n, lo + n ≤ 37 → fld (encVMB set grp ix g la d base bl opb ol st aop pol ord sc size) lo n =
        fld (base * 2 ^ 29 + natOf bl * 2 ^ 28 + opb * 2 ^ 19 + natOf ol * 2 ^ 18 + st * 2 ^ 16 + aop * 2 ^ 12 + pol * 2 ^ 9 +
          ord * 2 ^ 7 + sc * 2 ^ 4 + size * 2) lo n) := by
  have h1 := natOf_lt bl
  have h2 := natOf_lt ol
  have h : Head (encVMB set grp ix g la d base bl opb ol st aop pol ord sc size) set grp ix g (la * 2 ^ 45 + d * 2 ^ 37 + base * 2 ^ 29 +
      natOf bl * 2 ^ 28 + opb * 2 ^ 19 + natOf ol * 2 ^ 18 + st * 2 ^ 16 + aop * 2 ^ 12 + pol * 2 ^ 9 + ord * 2 ^ 7 + sc * 2 ^ 4 + size * 2) :=
    ⟨rfl, hs, hgr, hi, hg, by omega⟩
  refine ⟨_, h, ?_, ?_, ?_⟩
  · unfold W.la; rw [h.low _ _ (by decide)]; unfold fld; omega
  · unfold W.d; rw [h.low _ _ (by decide)]; unfold fld; omega
  · intro lo n hn
    rw [h.low _ _ (by omega)]
    have := fld_cat (la * 2 ^ 8 + d) (base * 2 ^ 29 + natOf bl * 2 ^ 28 + opb * 2 ^ 19 + natOf ol * 2 ^ 18 + st * 2 ^ 16 + aop * 2 ^ 12 +
      pol * 2 ^ 9 + ord * 2 ^ 7 + sc * 2 ^ 4 + size * 2) 0 0 37 lo n (by decide) (by omega) hn
    rw [Nat.zero_add] at this
    rw [← this]
    congr 1
    omega

/-- An atomic's fields read back. -/
theorem encVMB_atom {set grp ix : Nat} {f : AtomF} {la d st : Nat} (hs : set < 2) (hgr : grp < 16) (hi : ix < 64)
    (hg : f.g.n < 8) (hla : la < 16) (hd : d < 256) (hb : f.base < 256) (hopb : f.opb < 256) (hst : st < 4) (hz : f.size < 8) (w : Nat)
    (hw : w = encVMB set grp ix f.g la d f.base f.baseLu f.opb f.opbLu st f.op.code f.pol.code f.ord.code f.scope.code f.size) :
    ∃ body, Head w set grp ix f.g body ∧ buildAtomF w = some f ∧ W.la w = la ∧ W.d w = d ∧ fld w 16 2 = st ∧ fld w 0 1 = 0 := by
  have h1 := natOf_lt f.baseLu
  have h2 := natOf_lt f.opbLu
  have h3 := f.op.code_lt
  have h4 := f.pol.code_lt
  have h5 := f.ord.code_lt
  have h6 := f.scope.code_lt
  obtain ⟨body, h, e1, e2, k'⟩ := encVMB_fields (bl := f.baseLu) (ol := f.opbLu) hs hgr hi hg hla hd hb hopb hst h3 h4 h5 h6 hz
  rw [← hw] at h e1 e2 k'
  have k (lo n x : Nat) (hn : lo + n ≤ 37) (e : fld (f.base * 2 ^ 29 + natOf f.baseLu * 2 ^ 28 + f.opb * 2 ^ 19 + natOf f.opbLu * 2 ^ 18 +
      st * 2 ^ 16 + f.op.code * 2 ^ 12 + f.pol.code * 2 ^ 9 + f.ord.code * 2 ^ 7 + f.scope.code * 2 ^ 4 + f.size * 2) lo n = x) :
      fld w lo n = x := (k' lo n hn).trans e
  refine ⟨body, h, ?_, e1, e2, k _ _ _ (by decide) (by unfold fld; omega), k _ _ _ (by decide) (by unfold fld; omega)⟩
  unfold buildAtomF
  rw [k 12 4 f.op.code (by decide) (by unfold fld; omega), k 9 3 f.pol.code (by decide) (by unfold fld; omega),
    k 4 3 f.scope.code (by decide) (by unfold fld; omega), k 29 8 f.base (by decide) (by unfold fld; omega),
    k 28 1 (natOf f.baseLu) (by decide) (by unfold fld; omega), k 19 8 f.opb (by decide) (by unfold fld; omega),
    k 18 1 (natOf f.opbLu) (by decide) (by unfold fld; omega), k 7 2 f.ord.code (by decide) (by unfold fld; omega),
    k 1 3 f.size (by decide) (by unfold fld; omega), h.fg]
  simp

/-! ## MOD fields -/

theorem IntF.mod_lt (f : IntF) (lo : Nat) (h : lo < 8) : f.mod lo < 128 := by
  have := f.t.code_lt
  have := natOf_lt f.sat
  unfold IntF.mod
  omega

/-- The integer class reads back. -/
theorem IntF.back {w : Nat} (f : IntF) (lo : Nat) (h : lo < 8) (hg : W.g w = f.g) (hm : ∀ l n, l + n ≤ 7 → fld w l n = fld (f.mod lo) l n) :
    W.intF w = f ∧ ∀ l n, l + n ≤ 3 → fld w l n = fld lo l n := by
  have h1 := f.t.code_lt
  have h2 := natOf_lt f.sat
  constructor
  · unfold W.intF
    rw [hg, hm 4 3 (by decide), hm 3 1 (by decide), show fld (f.mod lo) 4 3 = f.t.code by unfold fld IntF.mod; omega,
      show fld (f.mod lo) 3 1 = natOf f.sat by unfold fld IntF.mod; omega]
    simp
  · intro l n hn
    rw [hm _ _ (by omega)]
    have := fld_cat (f.t.code * 2 + natOf f.sat) lo 0 0 3 l n (by decide) h hn
    rw [Nat.zero_add] at this
    exact (congrArg (fld · l n) (by unfold IntF.mod; ring)).trans this

theorem FpF.mod_lt (f : FpF) : f.mod < 128 := by
  have := f.t.code_lt
  have := f.rm.code_lt
  have := natOf_lt f.sat
  have := natOf_lt f.ftz
  unfold FpF.mod
  omega

theorem FpF.back {w : Nat} (f : FpF) (hg : W.g w = f.g) (hm : ∀ l n, l + n ≤ 7 → fld w l n = fld f.mod l n) :
    FpTy.ofCode (fld w 4 3) = some f.t ∧ W.fpF w f.t f.la = f := by
  have h1 := f.t.code_lt
  have h2 := natOf_lt f.sat
  have h3 := natOf_lt f.ftz
  have h4 := f.rm.code_lt
  constructor
  · rw [hm 4 3 (by decide), show fld f.mod 4 3 = f.t.code by unfold fld FpF.mod; omega, FpTy.ofCode_code]
  · unfold W.fpF
    rw [hg, hm 2 2 (by decide), hm 1 1 (by decide), hm 0 1 (by decide), show fld f.mod 2 2 = f.rm.code by unfold fld FpF.mod; omega,
      show fld f.mod 1 1 = natOf f.ftz by unfold fld FpF.mod; omega, show fld f.mod 0 1 = natOf f.sat by unfold fld FpF.mod; omega]
    simp

theorem F8F.mod_lt (f : F8F) : f.mod < 128 := by
  have := f.rm.code_lt
  have := natOf_lt f.satf
  unfold F8F.mod
  split <;> omega

theorem F8F.back {w : Nat} (f : F8F) (hg : W.g w = f.g) (hm : ∀ l n, l + n ≤ 7 → fld w l n = fld f.mod l n) :
    fld w 1 1 = 0 ∧ fld w 5 2 = 0 ∧
      ({ g := W.g w, t := if boolOf (fld w 4 1) then .e5m2x4 else .e4m3x4, rm := Rm.ofCode (fld w 2 2), satf := boolOf (fld w 0 1) } : F8F) = f := by
  have h2 := natOf_lt f.satf
  have h4 := f.rm.code_lt
  obtain ⟨fg, ft, fr, fs⟩ := f
  simp only at h2 h4 hg hm
  refine ⟨?_, ?_, ?_⟩
  · rw [hm 1 1 (by decide)]; cases ft <;> (unfold fld F8F.mod; simp only; omega)
  · rw [hm 5 2 (by decide)]; cases ft <;> (unfold fld F8F.mod; simp only; omega)
  · rw [hg, hm 2 2 (by decide), hm 0 1 (by decide), hm 4 1 (by decide)]
    have e1 : fld (F8F.mod ⟨fg, ft, fr, fs⟩) 2 2 = fr.code := by cases ft <;> (unfold fld F8F.mod; simp only; omega)
    have e2 : fld (F8F.mod ⟨fg, ft, fr, fs⟩) 0 1 = natOf fs := by cases ft <;> (unfold fld F8F.mod; simp only; omega)
    have e3 : fld (F8F.mod ⟨fg, ft, fr, fs⟩) 4 1 = natOf (ft == .e5m2x4) := by
      cases ft
      · show _ = 0
        unfold fld F8F.mod; simp only; omega
      · show _ = 1
        unfold fld F8F.mod; simp only; omega
    rw [e1, e2, e3]
    cases ft <;> simp

theorem CvtF.mod_lt (f : CvtF) : f.mod < 16 := by
  have := f.rm.code_lt
  have := natOf_lt f.sat
  have := natOf_lt f.ftz
  unfold CvtF.mod
  omega

theorem CvtF.fmts_lt (f : CvtF) : f.fmts < 1024 := by
  have := f.fd.code_lt
  have := f.fs.code_lt
  unfold CvtF.fmts
  omega

theorem CvtF.back {w : Nat} (f : CvtF) (hg : W.g w = f.g) (hla : W.la w = f.la) (hm : ∀ l n, l + n ≤ 7 → fld w l n = fld f.mod l n)
    (hb : ∀ l n, 17 ≤ l → l + n ≤ 27 → fld w l n = fld f.fmts (l - 17) n) :
    fld w 4 3 = 0 ∧ CvtFmt.ofCode (fld w 22 5) = some f.fd ∧ CvtFmt.ofCode (fld w 17 5) = some f.fs ∧ W.cvtF w f.fd f.fs = f := by
  have h1 := f.fd.code_lt
  have h2 := natOf_lt f.sat
  have h3 := natOf_lt f.ftz
  have h4 := f.rm.code_lt
  have h5 := f.fs.code_lt
  refine ⟨?_, ?_, ?_, ?_⟩
  · rw [hm 4 3 (by decide)]; unfold fld CvtF.mod; omega
  · rw [hb 22 5 (by decide) (by decide), show fld f.fmts (22 - 17) 5 = f.fd.code by unfold fld CvtF.fmts; omega, CvtFmt.ofCode_code]
  · rw [hb 17 5 (by decide) (by decide), show fld f.fmts (17 - 17) 5 = f.fs.code by unfold fld CvtF.fmts; omega, CvtFmt.ofCode_code]
  · unfold W.cvtF
    rw [hg, hla, hm 2 2 (by decide), hm 1 1 (by decide), hm 0 1 (by decide), show fld f.mod 2 2 = f.rm.code by unfold fld CvtF.mod; omega,
      show fld f.mod 1 1 = natOf f.ftz by unfold fld CvtF.mod; omega, show fld f.mod 0 1 = natOf f.sat by unfold fld CvtF.mod; omega]
    simp

theorem UniF.mod_lt (f : UniF) : f.mod < 4 := by
  have := natOf_lt f.s
  have := natOf_lt f.w32
  unfold UniF.mod
  omega

theorem UniF.back {w : Nat} (f : UniF) (hi : Nat) (hg : W.g w = f.g) (h : hi < 32) (hm : ∀ l n, l + n ≤ 7 → fld w l n = fld (f.mod + hi * 4) l n) :
    W.uniF w = f ∧ ∀ l n, 2 ≤ l → l + n ≤ 7 → fld w l n = fld hi (l - 2) n := by
  have h1 := natOf_lt f.s
  have h2 := natOf_lt f.w32
  constructor
  · unfold W.uniF
    rw [hg, hm 0 1 (by decide), hm 1 1 (by decide), show fld (f.mod + hi * 4) 0 1 = natOf f.w32 by unfold fld UniF.mod; omega,
      show fld (f.mod + hi * 4) 1 1 = natOf f.s by unfold fld UniF.mod; omega]
    simp
  · intro l n h0 hn
    rw [hm _ _ hn]
    have := fld_cat 0 hi f.mod 2 5 (l - 2) n f.mod_lt h (by omega)
    rw [show 2 + (l - 2) = l by omega] at this
    exact (congrArg (fld · l n) (by ring)).trans this

end Sys2Proof
end

