-- ==== Sys2Proof/Laws/Memory.lean ====
section
/-! SUPPORT. Memory traffic leaves warps alone, but for monitors that fire and the splits that they release (R309). -/

namespace Sys2Proof.Machine

/-- From s to t a warp changes in its entries, its monitor and its record of released entries alone. -/
def Still (s t : State) : Prop := ∀ g w, s.warp? g = some w → ∃ es mo lf, t.warp? g = some { w with entries := es, monitor := mo, left := lf }

theorem Still.refl (s : State) : Still s s := fun _ w h => ⟨w.entries, w.monitor, w.left, h⟩

theorem Still.trans {a b c : State} (h : Still a b) (k : Still b c) : Still a c := by
  intro g w hw
  obtain ⟨es, mo, lf, h1⟩ := h g w hw
  obtain ⟨es', mo', lf', h2⟩ := k g _ h1
  exact ⟨es', mo', lf', h2⟩

/-- No warp changes at all. -/
theorem still_of_warps {s t : State} (h : t.warps = s.warps) : Still s t := fun g w hw => ⟨w.entries, w.monitor, w.left, (warp?_of_warps h g).trans hw⟩

theorem still_forEach {α : Type} (f : State → α → State) (h : ∀ s x, Still s (f s x)) : ∀ (l : List α) (s : State), Still s (forEach l s f) := by
  intro l
  induction l with
  | nil => exact fun s => .refl s
  | cons x r ih => exact fun s => (h s x).trans (ih _)

theorem Warp.fire_frame (w : Warp) : ∃ es mo lf, w.fire = { w with entries := es, monitor := mo, left := lf } := by
  unfold Warp.fire
  split
  · exact ⟨w.entries, w.monitor, w.left, rfl⟩
  · split
    · split
      · exact ⟨_, _, _, rfl⟩
      · exact ⟨w.entries, _, w.left, rfl⟩
    · exact ⟨w.entries, w.monitor, w.left, rfl⟩

theorem tget_map_snd {α : Type} (p : Nat → α → Bool) (f : α → α) (t : Tbl α) (k : Nat) :
    tget (t.map fun e => if p e.1 e.2 then (e.1, f e.2) else e) k = (tget t k).map fun x => if p k x then f x else x := by
  induction t with
  | nil => rfl
  | cons a r ih =>
    obtain ⟨j, y⟩ := a
    by_cases h : j = k
    · subst h
      cases hp : p j y <;> simp [tget, hp]
    · cases hp : p j y <;> simp [tget, hp, h, ih]

theorem still_fireWhere (s : State) (line : MonLine) (sel : Nat → Bool) : Still s (s.fireWhere line sel) := by
  intro g w hw
  have h := tget_map_snd (fun k (x : Warp) => sel k && (match x.monitor with | some m => m.line == line | none => false)) Warp.fire s.warps g
  have hw' : tget s.warps g = some w := hw
  rw [hw'] at h
  have h2 : (s.fireWhere line sel).warp? g = _ := h
  have h3 : ∀ b : Bool, ∃ es mo lf, (if b = true then w.fire else w) = { w with entries := es, monitor := mo, left := lf } := by
    intro b
    cases b
    · exact ⟨w.entries, w.monitor, w.left, rfl⟩
    · exact w.fire_frame
  obtain ⟨es, mo, lf, h4⟩ := h3 _
  exact ⟨es, mo, lf, h2.trans (congrArg some h4)⟩

theorem still_modCore (s : State) (n : Nat) (f : Core → Core) : Still s (s.modCore n f) := still_of_warps rfl
theorem still_modBlock (s : State) (n : Nat) (f : Block → Block) : Still s (s.modBlock n f) := still_of_warps rfl
theorem still_modDir (s : State) (n : Nat) (f : DirLine → DirLine) : Still s (s.modDir n f) := still_of_warps rfl
theorem still_fireCore (s : State) (c l : Nat) : Still s (s.fireCore c l) := still_fireWhere _ _ _

theorem warps_forEach {α : Type} (f : State → α → State) (h : ∀ s x, (f s x).warps = s.warps) : ∀ (l : List α) (s : State),
    (forEach l s f).warps = s.warps := by
  intro l
  induction l with
  | nil => exact fun _ => rfl
  | cons x r ih => exact fun s => (ih _).trans (h s x)

theorem warps_evictL2 (s : State) (line : Nat) : (evictL2 s line).warps = s.warps := by
  unfold evictL2
  split
  · rfl
  · show State.warps (forEach _ _ _) = _
    refine warps_forEach _ ?_ _ _
    intro s k
    rfl

theorem warps_l2Room (s : State) (line : Nat) : (s.l2Room line).warps = s.warps := by
  unfold State.l2Room
  split
  · exact warps_evictL2 _ _
  · rfl

theorem warps_fillSector (s : State) (w : Nat) : (s.fillSector w).warps = s.warps := by
  unfold State.fillSector
  simp only
  split
  · rfl
  · exact warps_l2Room _ _

theorem warps_sealSeen (s : State) (l : Nat) : (s.sealSeen l).warps = s.warps := by
  unfold State.sealSeen
  simp only
  split <;> rfl

theorem warps_homeMerge (s : State) (w : Nat) (bs : List (Nat × Byte)) : (s.homeMerge w bs).warps = s.warps := by
  unfold State.homeMerge
  simp only
  rw [warps_sealSeen]
  split <;> exact warps_fillSector s w

theorem warps_homePut (s : State) (w : Nat) (x : Word) (b : Bool) : (s.homePut w x b).warps = s.warps := by
  unfold State.homePut
  simp only
  split
  · exact warps_homeMerge _ _ _
  · split <;> exact warps_homeMerge _ _ _

theorem warps_mergeOwned (s : State) (a w : Nat) : (s.mergeOwned a w).warps = s.warps := by
  unfold State.mergeOwned
  split
  · exact warps_homePut _ _ _ _
  · rfl

theorem warps_hostBack (s : State) (line : Nat) : (s.hostBack line).warps = s.warps :=
  warps_forEach (fun s i => s.draw.1.homePut (32 * line + i) (Config.freeHostWord s.draw.2) false)
    (fun s i => (warps_homePut s.draw.1 (32 * line + i) (Config.freeHostWord s.draw.2) false).trans rfl)
    ((List.range 32).filter fun i => (s.dirLine line).ownerOf i == some 255) s

theorem still_recallNow (s : State) (w : Nat) : Still s (s.recallNow w) := by
  unfold State.recallNow
  split
  · exact .refl s
  · split
    · next a _ _ =>
      exact (((still_of_warps (warps_mergeOwned s a w)).trans (still_of_warps (t := (s.mergeOwned a w).dropHeld a w) rfl)).trans
        ((still_modCore _ _ _).trans (still_modDir _ _ _))).trans (still_fireCore _ _ _)
    · exact still_of_warps (warps_hostBack _ _)

theorem still_dropShared (s : State) (w n : Nat) : Still s (s.dropShared w n) := by
  unfold State.dropShared
  split
  · split
    · exact still_modCore _ _ _
    · exact .refl s
  · exact .refl s

theorem still_unshare (s : State) (line n : Nat) : Still s (s.unshare line n) := by
  unfold State.unshare
  split
  · exact .refl s
  · exact still_modDir _ _ _

theorem still_invOne (s : State) (w n : Nat) : Still s (s.invOne w n) :=
  ((still_dropShared s w n).trans (still_of_warps (t := { s.dropShared w n with net := (s.dropShared w n).net.map (Msg.crossInv n w) }) rfl)).trans
    ((still_unshare _ _ _).trans (still_fireCore _ _ _))

theorem still_invNow (s : State) (w : Nat) : Still s (s.invNow w) := by
  unfold State.invNow
  simp only
  split
  · exact (still_forEach _ (fun s n => still_invOne s w n) _ _).trans (still_modDir _ _ _)
  · exact still_forEach _ (fun s n => still_invOne s w n) _ _

theorem still_cohWrite (s : State) (pa : Nat) (bs : List Byte) : Still s (s.cohWrite pa bs) := by
  unfold State.cohWrite
  refine still_forEach _ (fun s e => ?_) _ _
  exact (still_recallNow s e.1).trans ((still_of_warps (warps_homeMerge _ _ _)).trans (still_invNow _ _))

theorem still_spadWrite (s : State) (b off : Nat) (bs : List Byte) : Still s (spadWrite s b off bs) := by
  unfold spadWrite
  simp only
  split
  · exact still_modBlock _ _ _
  · exact (still_modBlock _ _ _).trans (still_forEach _ (fun s l => still_fireWhere s _ _) _ _)

theorem warps_hostRecall (s : State) (hl : Nat) : (s.hostRecall hl).warps = s.warps := by
  unfold State.hostRecall
  show (forEach _ _ _).warps = _
  refine warps_forEach _ (fun s n => ?_) _ _
  show (State.modCore _ _ _).warps = _
  show State.warps _ = _
  split
  · refine warps_forEach _ (fun s e => ?_) _ _
    split <;> rfl
  · rfl

theorem still_hostWrite (s : State) (ha : Nat) (bs : List Byte) : Still s (s.hostWrite ha bs) := by
  refine still_of_warps ?_
  unfold State.hostWrite
  simp only
  split
  · rfl
  · exact warps_forEach _ (fun s l => warps_hostRecall s l) _ _

theorem still_writeLoc (s : State) (core : Nat) (x : Loc) (bs : List Byte) : Still s (writeLoc s core x bs) := by
  unfold writeLoc
  split
  · exact ((still_cohWrite _ _ _).trans (still_forEach (fun s w => s.l1Drop core w) (fun s w => still_modCore s _ _) _ _)).trans
      (still_forEach _ (fun s l => still_fireCore s _ _) _ _)
  · exact still_hostWrite _ _ _
  · exact still_of_warps rfl
  · exact still_spadWrite _ _ _ _
  · exact .refl s

theorem still_l1Set (s : State) (core w : Nat) (x : L1Word) : Still s (s.l1Set core w x) := still_modCore _ _ _

theorem still_l1Write (s : State) (core w : Nat) (bs : List (Nat × Byte)) : Still s (l1Write s core w bs) := by
  unfold l1Write
  split
  · exact .refl s
  · exact still_l1Set _ _ _ _

theorem still_evictL1 (s : State) (core line : Nat) : Still s (evictL1 s core line) := by
  unfold evictL1
  split
  · exact .refl s
  · split
    · refine still_of_warps ?_
      show State.warps (forEach _ _ _) = _
      exact warps_forEach _ (fun s e => by split <;> rfl) _ _
    · simp only
      split
      · exact (still_modCore _ _ _).trans (still_fireCore _ _ _)
      · exact ((still_modCore s _ _).trans (still_fireCore _ _ _)).trans (still_of_warps rfl)

theorem still_l1Room (s : State) (core line : Nat) (v : Option Nat) : Still s (l1Room s core line v) := by
  unfold l1Room
  split
  · exact .refl s
  · exact still_evictL1 _ _ _

theorem still_setOthers (s : State) (core line : Nat) (m : BitVec 32) (o : Tbl WordOpens) : Still s (setOthers s core line m o) := still_modCore _ _ _

theorem still_takeOwn (s : State) (core w : Nat) : Still s (takeOwn s core w) := by
  unfold takeOwn
  split
  · exact .refl s
  · have h := ((still_recallNow s w).trans (still_of_warps (warps_fillSector (s.recallNow w) w))).trans
      ((still_invNow ((s.recallNow w).fillSector w) w).trans (still_l1Room (((s.recallNow w).fillSector w).invNow w) core (w / 32) none))
    generalize l1Room (((s.recallNow w).fillSector w).invNow w) core (w / 32) none = t at h
    refine h.trans (.trans (.trans (still_l1Set t core w _) (still_modDir _ _ _)) (still_setOthers _ _ _ _ _))

theorem still_engineOwn (s : State) (core : Nat) (ws : List Nat) : Still s (engineOwn s core ws) := by
  unfold engineOwn
  split
  · exact still_forEach _ (fun s w => still_takeOwn s core w) _ _
  · exact .refl s

/-- What an engine writes through its core's L1 leaves warps alone. -/
theorem still_engineWrite (s : State) (core : Nat) (x : Loc) (bs : List Byte) : Still s (engineWrite s core x bs) := by
  unfold engineWrite
  split
  · split
    · refine still_forEach _ (fun s e => ?_) _ _
      have h := still_takeOwn s core e.1
      generalize takeOwn s core e.1 = t at h
      exact (h.trans (still_l1Write t core e.1 e.2)).trans (still_fireCore _ _ _)
    · exact still_writeLoc _ _ _ _
  · exact still_writeLoc _ _ _ _

theorem warps_touchLine (s : State) (l : Nat) (cls : CacheClass) (launch : Nat) : (touchLine s l cls launch).warps = s.warps := by
  unfold touchLine
  cases tget s.l2 l with
  | none => rfl
  | some x =>
    cases cls
    all_goals simp only
    all_goals repeat' split
    all_goals rfl

theorem warps_homeTaken (s : State) (agent : Nat) (ws : List Nat) : (s.homeTaken agent ws).warps = s.warps := by
  unfold State.homeTaken
  show State.warps (forEach _ _ _) = _
  exact warps_forEach (fun s l => touchLine (s.accepted l agent) l .dflt 0) (fun s l => warps_touchLine (s.accepted l agent) l .dflt 0) _ _

/-- The homes' taking of an access leaves warps alone. -/
theorem still_engaged (s : State) (g : Nat) (o : Opnds) : Still s (s.engaged g o) := by
  unfold State.engaged
  split
  · exact .refl s
  · split
    · exact (still_of_warps (warps_homeTaken _ _ _)).trans (still_forEach _ (fun s w => still_recallNow s w) _ _)
    · exact still_of_warps (warps_homeTaken _ _ _)

end Sys2Proof.Machine
end

