-- ==== Sys2Proof/Laws/Seq.lean ====
section
/-! SUPPORT. Laws of the sequencer's instructions in a calm split (R143–R164). -/

namespace Sys2Proof.Machine

theorem spent_none {w : Warp} {lim : Nat} {e : Entry} {o : Opnds} {fs : Fates} {m : LaneMask} (h : w.heldFrees = []) (hl : o.lu = []) :
    w.spent lim e o fs m = w := by
  unfold Warp.spent Warp.lastUseHeld
  rw [h, hl]
  simp

theorem warp?_begun {s : State} {g : Nat} {e : Entry} {w : Warp} (h : s.warp? g = some w) : (s.begun g e).warp? g = some (w.marked e.eid) := by
  unfold State.begun
  rw [warp?_modWarp, h]; rfl

/-- A lane instruction without v registers, its body run in the state that has begun it. -/
theorem issueLane_homed {s : State} {g : Nat} {w w' : Warp} {e : Entry} (hc : Calm s g w e) {gd : Guard} {kind : GuardKind} {o : Opnds}
    {body : Body} {u : State} {fs : Fates} (hrel : o.rel = 0 ∨ relMet s g o.rel e.mask = true) (hhome : homeOpen s g o = true)
    (hvr : o.vr = []) (hvw : o.vw = []) (hlu : o.lu = []) (hb : body ((s.engaged g o).begun g e) (bodyCtx kind g w e gd) = (u, fs))
    (hw : u.warp? g = some w') (hh : w'.heldFrees = []) (hr : w'.results = []) :
    issueLane s gd kind o body = .next (u.stepped g e (guardFate kind (laneCtx g w e gd).pg ++ fs)) := by
  have hroom : Room s g w o := by
    left; unfold poolNeed; rw [hvr, hvw]; rfl
  have hsp : ∀ lim fs m, w'.spent lim e { o with gp := [gd.n] } fs m = w' := fun _ _ _ => spent_none hh hlu
  rw [issueLane_calm (w' := w') hc hrel hhome hroom (u := u) (fs := fs) (by rw [counted_none _ _ _ _ hvr hvw]) hb hw
    (by rw [hsp]; intro r h; rw [hr] at h; simp at h)]
  rw [modWarp_id hw (hsp _ _ _)]

/-- The same of one whose engine acts on no device word. -/
theorem issueLane_begun {s : State} {g : Nat} {w w' : Warp} {e : Entry} (hc : Calm s g w e) {gd : Guard} {kind : GuardKind} {o : Opnds}
    {body : Body} {u : State} {fs : Fates} (hrel : o.rel = 0 ∨ relMet s g o.rel e.mask = true) (hhome : o.home = [])
    (hvr : o.vr = []) (hvw : o.vw = []) (hlu : o.lu = []) (hb : body (s.begun g e) (bodyCtx kind g w e gd) = (u, fs))
    (hw : u.warp? g = some w') (hh : w'.heldFrees = []) (hr : w'.results = []) :
    issueLane s gd kind o body = .next (u.stepped g e (guardFate kind (laneCtx g w e gd).pg ++ fs)) :=
  issueLane_homed hc hrel (homeOpen_none s g hhome) hvr hvw hlu (by rw [engaged_none _ _ hhome]; exact hb) hw hh hr

/-- What the lanes do one after another keeps the warp's results and held last-use bits. -/
def KeepsHeld (g : Nat) (s t : State) : Prop := ∀ w, s.warp? g = some w → ∃ w', t.warp? g = some w' ∧ w'.results = w.results ∧ w'.heldFrees = w.heldFrees

theorem KeepsHeld.refl (g : Nat) (s : State) : KeepsHeld g s s := fun w h => ⟨w, h, rfl, rfl⟩
theorem KeepsHeld.trans {g : Nat} {a b c : State} (h : KeepsHeld g a b) (k : KeepsHeld g b c) : KeepsHeld g a c := by
  intro w hw
  obtain ⟨w1, h1, h2, h3⟩ := h w hw
  obtain ⟨w2, h4, h5, h6⟩ := k w1 h1
  exact ⟨w2, h4, h5.trans h2, h6.trans h3⟩
theorem Still.keeps {s t : State} (h : Still s t) (g : Nat) : KeepsHeld g s t := by
  intro w hw
  obtain ⟨es, mo, lf, h1⟩ := h g w hw
  exact ⟨_, h1, rfl, rfl⟩
theorem keeps_modWarp (s : State) (g : Nat) (f : Warp → Warp) (h : ∀ w, (f w).results = w.results ∧ (f w).heldFrees = w.heldFrees) :
    KeepsHeld g s (s.modWarp g f) := by
  intro w hw
  refine ⟨f w, ?_, h w⟩
  rw [warp?_modWarp, hw]; rfl

theorem eachLane_of {f : State → Nat → State × Fate} {R : State → Nat → State → Fate → Prop} (hf : ∀ s l t x, R s l t x → f s l = (t, x))
    (s : State) (ls : List Nat) (u : State) (fs : Fates) (h : EachLane R s ls u fs) (acc : Fates) :
    ls.foldl (fun (acc : State × Fates) l => let r := f acc.1 l; (r.1, acc.2 ++ [(laneBit l, r.2)])) (s, acc) = (u, acc ++ fs) := by
  induction h generalizing acc with
  | none s => simp
  | next s l ls t x u fs h1 r ih =>
    rw [List.foldl_cons, hf s l t x h1]
    show List.foldl _ (t, acc ++ [(laneBit l, x)]) ls = _
    rw [ih]
    simp

theorem eachLane_keeps {g : Nat} {R : State → Nat → State → Fate → Prop} (hf : ∀ s l t x, R s l t x → KeepsHeld g s t)
    {s : State} {ls : List Nat} {u : State} {fs : Fates} (h : EachLane R s ls u fs) : KeepsHeld g s u := by
  induction h with
  | none s => exact .refl g s
  | next s l ls t x u fs h1 r ih => exact (hf s l t x h1).trans ih

theorem laneFates_of {f : State → Nat → State × Fate} {R : State → Nat → State → Fate → Prop} (hf : ∀ s l t x, R s l t x → f s l = (t, x))
    {s : State} {m : LaneMask} {u : State} {fs : Fates} (h : EachLane R s (lanesOf m) u fs) : laneFates s m f = (u, groupFates fs) := by
  unfold laneFates eachLane
  rw [eachLane_of hf s _ u fs h []]
  rfl

theorem modWarp_const {s : State} {g : Nat} {w : Warp} (f : Warp → Warp) (h : s.warp? g = some w) : s.modWarp g (fun _ => f w) = s.modWarp g f :=
  modWarp_congr h rfl

theorem pushReturn_of {c : Ctx} {s t : State} {l : Nat} {o : Option TrapInfo} (h : PushesReturn c.g c.e.prio c.e.pc s l t o) :
    pushReturn s c l = o.elim (Except.ok t) Except.error ∧ KeepsHeld c.g s t ∧ (o.isSome → t = s) := by
  cases h with
  | full w x hw hl h =>
    refine ⟨?_, .refl _ _, fun _ => rfl⟩
    unfold pushReturn
    rw [hw, hl]
    simp only
    rw [if_pos (by simpa using h)]
    rfl
  | fault w x t hw hl h hc =>
    refine ⟨?_, .refl _ _, fun _ => rfl⟩
    unfold pushReturn
    rw [hw, hl]
    simp only
    rw [if_neg (by simp; omega), hc]
    rfl
  | push w x loc hw hl h hc =>
    refine ⟨?_, ((still_engineWrite _ _ _ _).keeps _).trans (keeps_modWarp _ _ _ fun _ => ⟨rfl, rfl⟩), by simp⟩
    unfold pushReturn
    rw [hw, hl]
    simp only
    rw [if_neg (by simp; omega), hc]
    rfl

theorem callLane_of {c : Ctx} {target : DWord} {cprio : Nat} {s t : State} {l : Nat} {x : Fate}
    (h : CallLane c.g c.e.prio c.e.pc target cprio s l t x) : callLane c target cprio s l = (t, x) ∧ KeepsHeld c.g s t := by
  unfold callLane
  cases h with
  | traps i h =>
    obtain ⟨h1, h2, h3⟩ := pushReturn_of h
    rw [h1, h3 rfl]
    exact ⟨rfl, .refl _ _⟩
  | goes h =>
    obtain ⟨h1, h2, h3⟩ := pushReturn_of h
    rw [h1]
    exact ⟨rfl, h2⟩

theorem still_slotOwned (s : State) (core : Nat) (x : Loc) : Still s (slotOwned s core x) := by
  unfold slotOwned
  split
  · exact still_engineOwn _ _ _
  · exact .refl s

theorem retLane_of {c : Ctx} {s t : State} {l : Nat} {x : Fate} (h : RetLane c.g s l t x) : popReturn s c l = (t, x) ∧ KeepsHeld c.g s t := by
  cases h with
  | empty w x hw hl h =>
    refine ⟨?_, .refl _ _⟩
    unfold popReturn
    rw [hw, hl]
    simp only
    rw [if_pos h]
  | fault w x t hw hl h hc =>
    refine ⟨?_, .refl _ _⟩
    unfold popReturn
    rw [hw, hl]
    simp only
    rw [if_neg h, hc]
  | poison w x loc hw hl h hc hp =>
    refine ⟨?_, (still_slotOwned _ _ _).keeps _⟩
    unfold popReturn
    rw [hw, hl]
    simp only
    rw [if_neg h, hc]
    simp only
    rw [if_pos hp]
  | wrong w x loc v hw hl h hc hp hv hb =>
    refine ⟨?_, (still_slotOwned _ _ _).keeps _⟩
    unfold popReturn
    rw [hw, hl]
    simp only
    rw [if_neg h, hc]
    simp only
    rw [← hv, hp, if_neg (by simp), if_pos (by simp only [Bool.or_eq_true, decide_eq_true_eq, Option.isNone_iff_eq_none]; tauto)]
  | goes w x loc v hw hl h hc hp hv hb =>
    refine ⟨?_, ((still_slotOwned _ _ _).keeps _).trans <| keeps_modWarp _ _ _ fun _ => ⟨rfl, rfl⟩⟩
    unfold popReturn
    rw [hw, hl]
    simp only
    rw [if_neg h, hc]
    simp only
    rw [← hv, hp, if_neg (by simp), if_neg (by simp only [Bool.or_eq_true, decide_eq_true_eq, Option.isNone_iff_eq_none]; tauto)]

theorem insideOf_begun {s : State} {g : Nat} {w : Warp} {e : Entry} (h : s.warp? g = some w) (m : LaneMask) :
    (s.begun g e).insideOf g m = m &&& w.inside := by
  unfold State.insideOf
  rw [warp?_begun h]; rfl

theorem guardLanes_marked (w : Warp) (k : Nat) (gd : Guard) (m : LaneMask) : guardLanes (w.marked k) gd m = guardLanes w gd m := rfl

theorem tretLane_eq {g : Nat} {w w' : Warp} {next : Bool} {s : State} {l : Nat} (hw : s.warp? g = some w') (ht : w'.trapOf l = w.trapOf l) :
    tretLane g next s l = (s.modWarp g fun w => w.leavesHandler [l], tretFate w next l) := by
  unfold tretLane tretFate
  rw [hw]
  simp only
  rw [← ht]
  by_cases hi : (w'.trapOf l).inh = true
  · rw [if_pos hi, if_pos hi]
    refine Prod.ext ?_ ?_
    · exact modWarp_congr hw (by unfold Warp.leavesHandler; simp only [List.foldl_cons, List.foldl_nil]; rw [if_pos hi]; rfl)
    · unfold Warp.trapReturn; rfl
  · rw [if_neg hi, if_neg hi]
    refine Prod.ext ?_ rfl
    exact (modWarp_id hw (by unfold Warp.leavesHandler; simp only [List.foldl_cons, List.foldl_nil]; rw [if_neg hi])).symm

theorem trapOf_leavesHandler (w : Warp) (l y : Nat) (h : y ≠ l) : (w.leavesHandler [l]).trapOf y = w.trapOf y := by
  unfold Warp.leavesHandler
  simp only [List.foldl_cons, List.foldl_nil]
  split
  · unfold Warp.setTrap Warp.trapOf
    exact tgetD_tput_other _ _ _ h
  · rfl

theorem trapReturns_of {g : Nat} {w : Warp} {next : Bool} : ∀ (ls : List Nat) (s : State) (w' : Warp) (acc : Fates), ls.Nodup → s.warp? g = some w' →
    (∀ l ∈ ls, w'.trapOf l = w.trapOf l) →
    ls.foldl (fun (acc : State × Fates) l => let r := tretLane g next acc.1 l; (r.1, acc.2 ++ [(laneBit l, r.2)])) (s, acc) =
    (s.modWarp g (fun w => w.leavesHandler ls), acc ++ ls.map fun l => (laneBit l, tretFate w next l)) := by
  intro ls
  induction ls with
  | nil =>
    intro s w' acc _ hw _
    rw [List.foldl_nil, List.map_nil, List.append_nil, modWarp_id hw rfl]
  | cons l r ih =>
    intro s w' acc hnd hw ht
    rw [List.nodup_cons] at hnd
    rw [List.foldl_cons]
    simp only [tretLane_eq hw (ht l (by simp))]
    rw [ih _ (w'.leavesHandler [l]) _ hnd.2 (by rw [warp?_modWarp, hw]; rfl) (fun y hy => by
      rw [trapOf_leavesHandler w' l y (by rintro rfl; exact hnd.1 hy)]; exact ht y (by simp [hy]))]
    rw [modWarp_modWarp]
    simp only [List.map_cons, List.append_assoc, List.singleton_append]
    rfl

theorem leavesHandler_frame (w : Warp) (ls : List Nat) : w.leavesHandler ls = { w with traps := (w.leavesHandler ls).traps } := by
  unfold Warp.leavesHandler
  induction ls generalizing w with
  | nil => rfl
  | cons l r ih =>
    rw [List.foldl_cons, ih]
    split
    · rfl
    · rfl

theorem lanesOf_nodup (m : LaneMask) : (lanesOf m).Nodup := List.Nodup.filter _ (List.nodup_range)

theorem laneFates_tret {s : State} {g : Nat} {w : Warp} {next : Bool} {m : LaneMask} {k : Nat} (hw : s.warp? g = some (w.marked k)) :
    laneFates s m (tretLane g next) = (s.modWarp g fun w => w.leavesHandler (lanesOf m),
      groupFates ((lanesOf m).map fun l => (laneBit l, tretFate w next l))) := by
  unfold laneFates eachLane
  rw [trapReturns_of (w := w) (lanesOf m) s (w.marked k) [] (lanesOf_nodup m) hw (fun _ _ => rfl)]
  rfl

theorem launchOf_begun {s : State} {g : Nat} {w : Warp} {e : Entry} (h : s.warp? g = some w) : (s.begun g e).launchOf g = s.launchOf g := by
  unfold State.launchOf State.blockOf
  rw [warp?_begun h, h]; rfl

theorem flagOf_begun {s : State} {g : Nat} {w : Warp} {e : Entry} (h : s.warp? g = some w) (f : Launch → Bool) :
    (s.begun g e).flagOf g f = s.flagOf g f := by
  unfold State.flagOf
  rw [launchOf_begun h]

end Sys2Proof.Machine
end

