-- ==== Sys2Proof/Laws/UniBody.lean ====
section
/-! SUPPORT. A uniform instruction in a calm split: its body, its first arrival at a barrier, and a decode fault. -/

namespace Sys2Proof.Machine

/-- A fate of no lane changes nothing. -/
theorem finishBody_zero (lim g : Nat) (e : Entry) (o : Opnds) (lanes act pg : LaneMask) (u : State) (f : Fate) (fs : Fates) :
    finishBody lim g e o lanes act pg (u, (0, f) :: fs) = finishBody lim g e o lanes act pg (u, fs) := by
  unfold finishBody
  simp only [fateLanes_cons_zero, settle_zero]

/-- A uniform instruction with a true guard in a calm split: its body in the state that has begun it, and the finish. -/
theorem issueUni_body {s : State} {g : Nat} {w : Warp} {e : Entry} (hc : Calm s g w e) {gd : Guard} {o : Opnds} {body : Body}
    {u : State} {fs : Fates} (hg : w.uniTrue gd) (hrel : o.rel = 0 ∨ relMet s g o.rel e.mask = true)
    (hhome : homeOpen s g o = true) (hroom : Room s g w o) {b : State} (hbeq : b = ((s.counted w o e.mask).engaged g o).begun g e) (hb : body b (uniCtx g e) = (u, fs)) :
    issueUni s gd o body = .next (finishBody b.nextId g e o e.mask e.mask 0 (u, fs)) := by
  subst hbeq
  rw [issueUni_eq, under_true hc hg, issueCore_calm hc _ _ _ _ hrel hhome (.inr hroom), uniSel_true hg, own_pg]
  unfold runBody
  have hb' : uniBody body (((s.counted w o e.mask).engaged g o).modWarp g fun w => w.modEntry e.eid fun x => { x with st := .issuing })
      { g := g, e := e, lanes := e.mask, act := e.mask, pg := 0 } = (u, fs) := by
    unfold uniBody
    rw [if_neg hc.lanes]
    exact hb
  rw [hb']
  have hz : preFates .own 0 ++ fs = (0, Fate.trap { cause := 0x06, detail := 0, addr := 0 }) :: fs := rfl
  simp only [hz]
  rw [finishBody_zero]
  rfl

/-- The warp of a split that has begun. -/
theorem warp?_began {s : State} {g : Nat} {w : Warp} {e : Entry} (h : s.warp? g = some w) (o : Opnds) (act : LaneMask) :
    ((s.counted w o act).begun g e).warp? g = some (w.marked e.eid) := by
  apply warp?_begun
  rw [counted_eq]
  exact h

/-- Outside every ordered section the instruction acts on all its lanes. -/
theorem outsideOnly_out {b : State} {c : Ctx} {w : Warp} {f : State → LaneMask → State × Fates} {u : State} {fs : Fates} (hw : b.warp? c.g = some w)
    (hi : c.act &&& w.inside = 0) (ha : c.act ≠ 0) (hf : f b c.act = (u, fs)) : outsideOnly b c f = (u, (0, orderBarrier) :: fs) := by
  have h0 : b.insideOf c.g c.act = 0 := by
    unfold State.insideOf; rw [hw]; exact hi
  unfold outsideOnly
  simp only [h0]
  rw [mask_full, if_neg ha, hf]

/-- An arrival with no marks of an earlier one at the barrier. -/
theorem syncArrive_fresh {b : State} {c : Ctx} {w : Warp} {blk : Block} {m : LaneMask} {bar a : Nat} {op : Option BarOp} {x : DWord} {qd sd : Option Nat}
    (hw : b.warp? c.g = some w) (hb : b.blockOf c.g = some blk) (hm : ∀ k ∈ w.marks, k.bar ≠ bar ∧ k.lanes ≠ 0) (h0 : m ≠ 0)
    (hf : arriveFault b blk w.block w bar m (barCount w a) op = none) :
    syncArrive b c m bar (barCount w a) op x qd sd =
      waitPhase (arrived b c w m bar a op x) c.g m bar (phaseOf b c.g bar) qd sd := by
  unfold syncArrive
  rw [hw, hb]
  simp only
  have hks : (w.marks.filter fun k => k.bar == bar && k.pc == c.e.pc && (k.lanes &&& m) != 0) = [] := by
    rw [List.filter_eq_nil_iff]
    intro k hk h
    simp only [Bool.and_eq_true, beq_iff_eq, bne_iff_ne] at h
    exact (hm k hk).1 h.1.1
  have hid : ∀ f : TrapMark → TrapMark, (∀ k ∈ w.marks, f k = k) → b.modWarp c.g (fun w => { w with marks := (w.marks.map f).filter fun k => k.lanes != 0 }) = b := by
    intro f hf
    refine modWarp_id hw ?_
    rw [List.map_congr_left hf, List.map_id', List.filter_eq_self.mpr]
    intro k hk
    simpa using (hm k hk).2
  rw [hks]
  simp only [List.foldl_nil]
  rw [hid _ (by
    intro k hk
    rw [if_neg]
    simp only [Bool.and_eq_true, beq_iff_eq]
    exact fun h => (hm k hk).1 h.1)]
  have hmm : m &&& ~~~ ((0 : LaneMask) &&& m) = m := by
    show m &&& ~~~ (0#32 &&& m) = m
    rw [BitVec.zero_and]; exact mask_full m
  refine (if_neg (show ¬ (m &&& ~~~ ((0 : LaneMask) &&& m) = 0) from by rw [hmm]; exact h0)).trans ?_
  rw [hmm, hf]
  rfl

/-- A decode fault in a calm split. -/
theorem decodeTrap_calm {s : State} {g : Nat} {w : Warp} {e : Entry} (hc : Calm s g w e) (c : Nat) (word : DWord) :
    decodeTrap s g e c word = (s.begun g e).stepped g e [(e.mask, .trap { cause := c, detail := 0, addr := word })] := by
  have hw := hc.warp
  have hbt : w.budgetTake e.mask = (w, 0) := by unfold Warp.budgetTake; rw [hc.budget]
  have hmw : s.modWarp g (fun _ => w) = s := modWarp_id hc.warp rfl
  have hm : e.mask &&& ~~~ (0 : LaneMask) = e.mask := mask_full e.mask
  unfold decodeTrap
  rw [hw]
  simp only [hbt, hmw, hm]
  unfold runBody
  simp only [List.append_nil]
  rw [show (s.modWarp g fun w => w.modEntry e.eid fun x => { x with st := .issuing }) = s.begun g e from rfl]
  rw [finish_general (w := w.marked e.eid) (warp?_begun hw) (by
    rw [spent_none (w := w.marked e.eid) hc.held rfl]
    intro r h; rw [show (w.marked e.eid).results = w.results from rfl, hc.results] at h; simp at h)]
  rw [stepped_zero, modWarp_id (warp?_begun hw) (spent_none (w := w.marked e.eid) hc.held rfl)]

end Sys2Proof.Machine
end

