-- ==== Sys2Proof/Laws/LaneBody.lean ====
section
/-! SUPPORT. A lane instruction in a calm split: its body, and its lanes one after another. -/

namespace Sys2Proof.Machine

theorem issueLane_body {s : State} {g : Nat} {w : Warp} {e : Entry} (hc : Calm s g w e) {gd : Guard} {kind : GuardKind} {o : Opnds} {body : Body}
    {u : State} {fs : Fates} (hrel : o.rel = 0 ∨ relMet s g o.rel e.mask = true) (hhome : homeOpen s g o = true)
    (hroom : Room s g w o) {b : State} (hbeq : b = ((s.counted w o (laneCtx g w e gd).act).engaged g o).begun g e)
    (hb : body b (bodyCtx kind g w e gd) = (u, fs)) :
    issueLane s gd kind o body = .next (finishBody b.nextId g e o e.mask (laneCtx g w e gd).act (bodyCtx kind g w e gd).pg
      (u, guardFate kind (laneCtx g w e gd).pg ++ fs)) := by
  subst hbeq
  unfold issueLane
  rw [issueCore_calm hc { o with gp := [gd.n] } _ kind body hrel hhome (.inr hroom)]
  unfold runBody
  have hb' : body (((s.counted w { o with gp := [gd.n] } (guardLanes w gd e.mask).1).engaged g { o with gp := [gd.n] }).modWarp g fun w => w.modEntry e.eid fun x => { x with st := .issuing })
      { g := g, e := e, lanes := e.mask, act := (guardLanes w gd e.mask).1, pg := if kind == .traps then 0 else (guardLanes w gd e.mask).2 } =
      (u, fs) := hb
  rw [hb']
  have hz : ∀ m, preFates kind m ++ fs = (0, Fate.trap { cause := 0x06, detail := 0, addr := 0 }) :: (guardFate kind m ++ fs) := fun _ => rfl
  simp only [hz]
  rw [finishBody_zero]
  rfl

theorem someFates_of {f : State → Nat → State × Option Fate} {R : State → Nat → State → Option Fate → Prop} (hf : ∀ s l t x, R s l t x → f s l = (t, x))
    {s t : State} {m : LaneMask} {fs : Fates} (h : SomeLane R s (lanesOf m) t fs) : someFates s m f = (t, fs) := by
  have key : ∀ (ls : List Nat) (s t : State) (fs acc : Fates), SomeLane R s ls t fs →
      ls.foldl (fun (acc : State × Fates) l => let r := f acc.1 l; (r.1, acc.2 ++ (r.2.map fun x => (laneBit l, x)).toList)) (s, acc) = (t, acc ++ fs) := by
    intro ls
    induction ls with
    | nil => intro s t fs acc h; cases h; simp
    | cons l r ih =>
      intro s t fs acc h
      cases h with
      | next _ _ _ t' x _ fs' h1 h2 =>
        rw [List.foldl_cons]
        simp only [hf _ _ _ _ h1]
        rw [ih _ _ _ _ h2]
        simp
  unfold someFates
  rw [key _ _ _ _ [] h]
  simp

theorem forEach_of {f : State → Nat → State} {R : State → Nat → State → Option Fate → Prop} (hf : ∀ s l t x, R s l t x → f s l = t)
    {s t : State} {ls : List Nat} {fs : Fates} (h : SomeLane R s ls t fs) : forEach ls s f = t := by
  unfold forEach
  induction h with
  | none s => rfl
  | next s l ls t x u fs h r ih => rw [List.foldl_cons, hf _ _ _ _ h]; exact ih

theorem finishBody_zeros (lim g : Nat) (e : Entry) (o : Opnds) (lanes act pg : LaneMask) (u : State) (zs fs : Fates) (h : ∀ f ∈ zs, f.1 = 0) :
    finishBody lim g e o lanes act pg (u, zs ++ fs) = finishBody lim g e o lanes act pg (u, fs) := by
  induction zs with
  | nil => rfl
  | cons z r ih =>
    obtain ⟨m, f⟩ := z
    have hm : m = 0 := h (m, f) (by simp)
    subst hm
    rw [List.cons_append, finishBody_zero]
    exact ih fun x hx => h x (List.mem_cons_of_mem _ hx)

/-- The same where the body adds fates of no lanes. -/
theorem issueOwn_body {s : State} {g : Nat} {w : Warp} {e : Entry} (hc : Calm s g w e) {gd : Guard} {o : Opnds} {body : Body}
    {u : State} {zs fs : Fates} (hrel : o.rel = 0 ∨ relMet s g o.rel e.mask = true) (hhome : homeOpen s g o = true)
    (hroom : Room s g w o) {b : State} (hbeq : b = ((s.counted w o (laneCtx g w e gd).act).engaged g o).begun g e) (hz : ∀ f ∈ zs, f.1 = 0)
    (hb : body b (bodyCtx .own g w e gd) = (u, zs ++ fs)) :
    issueLane s gd .own o body = .next (finishBody b.nextId g e o e.mask (laneCtx g w e gd).act (bodyCtx .own g w e gd).pg
      (u, guardFate .own (laneCtx g w e gd).pg ++ fs)) := by
  rw [issueLane_body hc hrel hhome hroom hbeq hb]
  exact congrArg _ (finishBody_zeros _ _ _ _ _ _ _ _ _ _ hz)

theorem lanesOf_eq_nil {m : LaneMask} (h : lanesOf m = []) : m = 0 := by
  apply BitVec.eq_of_getLsbD_eq
  intro i hi
  unfold lanesOf at h
  rw [List.filter_eq_nil_iff] at h
  have := h i (List.mem_range.mpr hi)
  simpa using this

theorem flPre_plain {c : Ctx} {w : Warp} {blk : Block} {forbid bind : Bool} (hp : c.pg = 0) (hb : bind = false ∨ blk.flBinding ≠ none) :
    flPre c w blk false forbid bind = ([(0, .trap detForbidden), (0, .trap (poisonTrap 0))], c.act) := by
  unfold flPre
  have h0 : (bind && blk.flBinding.isNone) = false := by
    rcases hb with h | h
    · simp [h]
    · cases hx : blk.flBinding with
      | none => exact absurd hx h
      | some _ => simp
  have ho : (c.act ||| (0 : LaneMask)) &&& c.act = c.act := by
    rw [show c.act ||| (0 : LaneMask) = c.act from BitVec.or_zero]; exact BitVec.and_self
  have hz : (c.act ||| (0 : LaneMask)) &&& (0 : LaneMask) = 0 := BitVec.and_zero
  simp only [h0, hp, Bool.false_eq_true, if_false, mask_full, ho, hz]

end Sys2Proof.Machine
end

