-- ==== Sys2Proof/Laws/PerInstr.lean ====
section
/-! SUPPORT. Decoding what the encoder wrote, instruction by instruction (R27–R43): the family Round of LAWS.json. -/

namespace Sys2Proof.Laws

/-- A well-formed program instruction has a word, and the decoder reads it back from that; an event has none. -/
def Round.Statement (i : Instr) : Prop :=
  i.wellFormed = true → if i.isEvent then encodeNat i = none else ∃ n, encodeNat i = some n ∧ n < 2 ^ 64 ∧ decodeNat n = .ok i

/-! ## What well-formedness says of the fields -/

theorem wfG {g : Guard} (h : Wf.guard g = true) : g.n < 8 := of_decide_eq_true h
theorem wfV {n r : Nat} (h : Wf.v n r = true) : r < 256 := by unfold Wf.v at h; simp at h; exact h.1
theorem wfSrc {n : Nat} {s : Src} (h : Wf.src n s = true) : s.reg < 256 := wfV h
theorem wfP {r : Nat} (h : Wf.p r = true) : r < 8 := of_decide_eq_true h
theorem wfS {r : Nat} (h : Wf.s r = true) : r < 64 := of_decide_eq_true h
theorem wfM {r : Nat} (h : Wf.m r = true) : r < 12 := of_decide_eq_true h
theorem wfT {r : Nat} (h : Wf.t r = true) : r < 16 := of_decide_eq_true h
theorem wfCv {r : Nat} (h : Wf.cv r = true) : r < 8 := of_decide_eq_true h
theorem wfI20 {n : Nat} (h : Wf.imm20 n = true) : n < 1048576 := of_decide_eq_true h
theorem wfI32 {n : Nat} (h : Wf.imm32 n = true) : n < 4294967296 := of_decide_eq_true h
theorem wfLa {n : Nat} (h : Wf.la n = true) : n < 16 := of_decide_eq_true h
theorem wfOff12 {i : Int} (h : Wf.off12 i = true) : -2048 ≤ i ∧ i < 2048 := by unfold Wf.off12 at h; simpa using h
theorem wfOff24 {i : Int} (h : Wf.off24 i = true) : -8388608 ≤ i ∧ i < 8388608 := by unfold Wf.off24 at h; simpa using h
theorem wfCsr {n : Nat} (h : Wf.csr n = true) : n < 512 := by unfold Wf.csr at h; simp at h; omega
theorem wfInt {f : IntF} {x y : Bool} (h : Wf.int f x y = true) : f.g.n < 8 := by unfold Wf.int at h; simp at h; exact wfG h.1.1
theorem wfFp {f : FpF} {x y z : Bool} (h : Wf.fp f x y z = true) : f.g.n < 8 ∧ f.la < 16 := by
  unfold Wf.fp at h; simp at h; exact ⟨wfG h.1.1.1.1, wfLa h.1.1.1.2⟩
theorem wfFpLa {f : FpF} {x y z : Bool} (h : Wf.fp f x y z = true) : f.la = 0 ∨ (y = true ∧ f.t = .f64) := by
  unfold Wf.fp at h; simp at h; exact h.1.2
theorem wfSfu {f : FpF} {x y : Bool} (h : Wf.sfu f x y = true) : f.g.n < 8 ∧ f.la < 16 := by
  unfold Wf.sfu at h; simp only [Bool.and_eq_true] at h; exact ⟨wfG h.1.1.1, wfLa h.1.1.2⟩
theorem wfF8 {f : F8F} {x : Bool} (h : Wf.f8 f x = true) : f.g.n < 8 := by unfold Wf.f8 at h; simp only [Bool.and_eq_true] at h; exact wfG h.1
theorem wfCvt {f : CvtF} {x y : Bool} (h : Wf.cvtF f x y = true) : f.g.n < 8 ∧ f.la < 16 := by
  unfold Wf.cvtF at h; simp only [Bool.and_eq_true] at h; exact ⟨wfG h.1.1.1.1.1, wfLa h.1.1.1.1.2⟩
theorem wfUni {f : UniF} {d a : Nat} (h : Wf.uni f d a = true) : f.g.n < 8 ∧ d < 64 ∧ a < 64 := by
  unfold Wf.uni at h; simp only [Bool.and_eq_true] at h; exact ⟨wfG h.1.1, wfS h.1.2, wfS h.2⟩
theorem wfMem {f : MemF} {x y : Bool} (h : Wf.mem f x y = true) : f.g.n < 8 ∧ f.base < 256 ∧ (-2048 ≤ f.off ∧ f.off < 2048) ∧ x = true := by
  unfold Wf.mem at h; simp only [Bool.and_eq_true] at h; exact ⟨wfG h.1.1.1.1, wfV h.1.1.1.2, wfOff12 h.1.1.2, h.1.2⟩
theorem wfAtom {f : AtomF} (h : Wf.atomF f = true) : f.g.n < 8 ∧ f.base < 256 ∧ f.size < 8 := by
  unfold Wf.atomF at h
  simp only [Bool.and_eq_true, Bool.or_eq_true, beq_iff_eq] at h
  exact ⟨wfG h.1.1, wfV h.1.2, by omega⟩

/-! ## One lemma for each shape of word -/

theorem roundHead {i : Instr} {n set grp ix : Nat} {g : Guard} {body : Nat} (hv : i.isEvent = false) (he : encodeNat i = some n)
    (h : Head n set grp ix g body) (ha : opcodeAssigned (boolOf set) grp ix = true) (hb : buildInstr (boolOf set) grp ix n = some i) :
    Round.Statement i := by
  intro hw
  rw [hv]
  exact ⟨n, he, h.decode ha hb hw⟩

theorem roundV {i : Instr} {set grp ix : Nat} {g : Guard} {la d a b c mod : Nat} (hv : i.isEvent = false)
    (he : encodeNat i = some (encV set grp ix g la d a b c mod)) (ha : opcodeAssigned (boolOf set) grp ix = true)
    (hs : set < 2 ∧ grp < 16 ∧ ix < 64)
    (hk : i.wellFormed = true → (g.n < 8 ∧ la < 16 ∧ d < 256 ∧ a < 1024 ∧ b < 1024 ∧ c < 1024 ∧ mod < 128) ∧
      ∀ w, VWord w set grp ix g la d a b c mod → buildInstr (boolOf set) grp ix w = some i) : Round.Statement i := by
  intro hw
  obtain ⟨⟨h4, h5, h6, h7, h8, h9, h10⟩, hb⟩ := hk hw
  have W := VWord.mk' hs.1 hs.2.1 hs.2.2 h4 h5 h6 h7 h8 h9 h10
  exact roundHead hv he W.head ha (hb _ W) hw

theorem roundVI {i : Instr} {set grp ix : Nat} {g : Guard} {la d a imm mod : Nat} (hv : i.isEvent = false)
    (he : encodeNat i = some (encVI set grp ix g la d a imm mod)) (ha : opcodeAssigned (boolOf set) grp ix = true)
    (hs : set < 2 ∧ grp < 16 ∧ ix < 64)
    (hk : i.wellFormed = true → (g.n < 8 ∧ la < 16 ∧ d < 256 ∧ a < 1024 ∧ imm < 1048576 ∧ mod < 128) ∧
      ∀ w, VIWord w set grp ix g la d a imm mod → buildInstr (boolOf set) grp ix w = some i) : Round.Statement i := by
  intro hw
  obtain ⟨⟨h4, h5, h6, h7, h8, h9⟩, hb⟩ := hk hw
  have W := VIWord.mk' hs.1 hs.2.1 hs.2.2 h4 h5 h6 h7 h8 h9
  exact roundHead hv he W.head ha (hb _ W) hw

theorem roundI {i : Instr} {ix : Nat} {f : IntF} {d a b c lo : Nat} (hv : i.isEvent = false)
    (he : encodeNat i = some (encI ix f d a b c lo)) (ha : opcodeAssigned false 1 ix = true) (hx : ix < 64)
    (hk : i.wellFormed = true → (f.g.n < 8 ∧ d < 256 ∧ a < 1024 ∧ b < 1024 ∧ c < 1024 ∧ lo < 8) ∧
      ∀ w, VWord w 0 1 ix f.g 0 d a b c (f.mod lo) → W.intF w = f → (∀ l n, l + n ≤ 3 → fld w l n = fld lo l n) →
      buildLane1 ix w = some i) : Round.Statement i := by
  refine roundV hv he ha ⟨by decide, by decide, hx⟩ fun hw => ?_
  obtain ⟨⟨h1, h2, h3, h4, h5, h6⟩, hb⟩ := hk hw
  refine ⟨⟨h1, by decide, h2, h3, h4, h5, f.mod_lt lo h6⟩, fun w W => ?_⟩
  obtain ⟨e1, e2⟩ := f.back lo h6 W.head.fg W.inMod
  exact hb w W e1 e2

theorem roundIVi {i : Instr} {ix : Nat} {f : IntF} {d a imm lo : Nat} (hv : i.isEvent = false)
    (he : encodeNat i = some (encIVi ix f d a imm lo)) (ha : opcodeAssigned false 1 ix = true) (hx : ix < 64)
    (hk : i.wellFormed = true → (f.g.n < 8 ∧ d < 256 ∧ a < 1024 ∧ imm < 1048576 ∧ lo < 8) ∧
      ∀ w, VIWord w 0 1 ix f.g 0 d a imm (f.mod lo) → W.intF w = f → (∀ l n, l + n ≤ 3 → fld w l n = fld lo l n) →
      buildLane1 ix w = some i) : Round.Statement i := by
  refine roundVI hv he ha ⟨by decide, by decide, hx⟩ fun hw => ?_
  obtain ⟨⟨h1, h2, h3, h4, h6⟩, hb⟩ := hk hw
  refine ⟨⟨h1, by decide, h2, h3, h4, f.mod_lt lo h6⟩, fun w W => ?_⟩
  obtain ⟨e1, e2⟩ := f.back lo h6 W.head.fg W.inMod
  exact hb w W e1 e2

/-- The lookahead of group 0x2: kept where the form has it, 0 elsewhere. -/
theorem fpLa_eq {w ix : Nat} (f : FpF) (hl : W.la w = f.la) (h : f.la = 0 ∨ (f.t = .f64 ∧ ix % 32 ≠ 7 ∧ ix % 32 ≠ 8)) : fpLa ix f.t w = f.la := by
  unfold fpLa
  split
  · exact hl
  · next hn =>
    rcases h with h | h
    · exact h.symm
    · exact absurd h hn

theorem roundF2 {i : Instr} {ix : Nat} {f : FpF} {d a b c : Nat} (hv : i.isEvent = false)
    (he : encodeNat i = some (encF 2 ix f d a b c)) (ha : opcodeAssigned false 2 ix = true) (hx : ix < 64)
    (hk : i.wellFormed = true → (f.g.n < 8 ∧ f.la < 16 ∧ (f.la = 0 ∨ (f.t = .f64 ∧ ix % 32 ≠ 7 ∧ ix % 32 ≠ 8)) ∧ d < 256 ∧ a < 1024 ∧ b < 1024 ∧
      c < 1024) ∧
      ∀ w, VWord w 0 2 ix f.g f.la d a b c f.mod → FpTy.ofCode (fld w 4 3) = some f.t → W.fpF w f.t (fpLa ix f.t w) = f →
      buildLane2 ix w = some i) : Round.Statement i := by
  refine roundV hv he ha ⟨by decide, by decide, hx⟩ fun hw => ?_
  obtain ⟨⟨h1, h2, h3, h4, h5, h6, h7⟩, hb⟩ := hk hw
  refine ⟨⟨h1, h2, h4, h5, h6, h7, f.mod_lt⟩, fun w W => ?_⟩
  obtain ⟨e1, e2⟩ := f.back W.head.fg W.inMod
  refine hb w W e1 ?_
  rw [fpLa_eq f W.fla h3]
  exact e2

theorem roundFVi {i : Instr} {ix : Nat} {f : FpF} {d a imm : Nat} (hv : i.isEvent = false)
    (he : encodeNat i = some (encFVi ix f d a imm)) (ha : opcodeAssigned false 2 ix = true) (hx : ix < 64)
    (hk : i.wellFormed = true → (f.g.n < 8 ∧ f.la < 16 ∧ (f.la = 0 ∨ (f.t = .f64 ∧ ix % 32 ≠ 7 ∧ ix % 32 ≠ 8)) ∧ d < 256 ∧ a < 1024 ∧
      imm < 1048576) ∧
      ∀ w, VIWord w 0 2 ix f.g f.la d a imm f.mod → FpTy.ofCode (fld w 4 3) = some f.t → W.fpF w f.t (fpLa ix f.t w) = f →
      buildLane2 ix w = some i) : Round.Statement i := by
  refine roundVI hv he ha ⟨by decide, by decide, hx⟩ fun hw => ?_
  obtain ⟨⟨h1, h2, h3, h4, h5, h6⟩, hb⟩ := hk hw
  refine ⟨⟨h1, h2, h4, h5, h6, f.mod_lt⟩, fun w W => ?_⟩
  obtain ⟨e1, e2⟩ := f.back W.head.fg W.inMod
  refine hb w W e1 ?_
  rw [fpLa_eq f W.fla h3]
  exact e2

theorem roundF3 {i : Instr} {ix : Nat} {f : FpF} {d a b c : Nat} (hv : i.isEvent = false)
    (he : encodeNat i = some (encF 3 ix f d a b c)) (ha : opcodeAssigned false 3 ix = true) (hx : ix < 64)
    (hk : i.wellFormed = true → (f.g.n < 8 ∧ f.la < 16 ∧ d < 256 ∧ a < 1024 ∧ b < 1024 ∧ c < 1024) ∧
      ∀ w, VWord w 0 3 ix f.g f.la d a b c f.mod → FpTy.ofCode (fld w 4 3) = some f.t → W.fpF w f.t f.la = f →
      buildLane3 ix w = some i) : Round.Statement i := by
  refine roundV hv he ha ⟨by decide, by decide, hx⟩ fun hw => ?_
  obtain ⟨⟨h1, h2, h4, h5, h6, h7⟩, hb⟩ := hk hw
  refine ⟨⟨h1, h2, h4, h5, h6, h7, f.mod_lt⟩, fun w W => ?_⟩
  obtain ⟨e1, e2⟩ := f.back W.head.fg W.inMod
  exact hb w W e1 e2

theorem roundF8 {i : Instr} {ix : Nat} {f : F8F} {d a b c : Nat} (hv : i.isEvent = false)
    (he : encodeNat i = some (encF8 ix f d a b c)) (ha : opcodeAssigned false 2 ix = true) (hx : ix < 64)
    (hk : i.wellFormed = true → (f.g.n < 8 ∧ d < 256 ∧ a < 1024 ∧ b < 1024 ∧ c < 1024) ∧
      ∀ w, VWord w 0 2 ix f.g 0 d a b c f.mod → fld w 1 1 = 0 → fld w 5 2 = 0 →
      ({ g := W.g w, t := if boolOf (fld w 4 1) then .e5m2x4 else .e4m3x4, rm := Rm.ofCode (fld w 2 2), satf := boolOf (fld w 0 1) } : F8F) = f →
      buildLane2 ix w = some i) : Round.Statement i := by
  refine roundV hv he ha ⟨by decide, by decide, hx⟩ fun hw => ?_
  obtain ⟨⟨h1, h4, h5, h6, h7⟩, hb⟩ := hk hw
  refine ⟨⟨h1, by decide, h4, h5, h6, h7, f.mod_lt⟩, fun w W => ?_⟩
  obtain ⟨e1, e2, e3⟩ := f.back W.head.fg W.inMod
  exact hb w W e1 e2 e3

theorem roundCvt {i : Instr} {ix : Nat} {f : CvtF} {d a c : Nat} (hv : i.isEvent = false)
    (he : encodeNat i = some (encCvt ix f d a c)) (ha : opcodeAssigned false 3 ix = true) (hx : ix < 64)
    (hk : i.wellFormed = true → (f.g.n < 8 ∧ f.la < 16 ∧ d < 256 ∧ a < 1024 ∧ c < 1024) ∧
      ∀ w, VWord w 0 3 ix f.g f.la d a f.fmts c f.mod → fld w 4 3 = 0 → CvtFmt.ofCode (fld w 22 5) = some f.fd →
      CvtFmt.ofCode (fld w 17 5) = some f.fs → W.cvtF w f.fd f.fs = f → buildLane3 ix w = some i) : Round.Statement i := by
  refine roundV hv he ha ⟨by decide, by decide, hx⟩ fun hw => ?_
  obtain ⟨⟨h1, h2, h4, h5, h7⟩, hb⟩ := hk hw
  refine ⟨⟨h1, h2, h4, h5, f.fmts_lt, h7, by have := f.mod_lt; omega⟩, fun w W => ?_⟩
  obtain ⟨e1, e2, e3, e4⟩ := f.back W.head.fg W.fla W.inMod W.inB
  exact hb w W e1 e2 e3 e4

theorem roundUn {i : Instr} {ix : Nat} {f : UniF} {d a b hi : Nat} (hv : i.isEvent = false)
    (he : encodeNat i = some (encUn ix f d a b hi)) (ha : opcodeAssigned true 0 ix = true) (hx : ix < 64)
    (hk : i.wellFormed = true → (f.g.n < 8 ∧ d < 256 ∧ a < 256 ∧ b < 256 ∧ hi < 31) ∧
      ∀ w, VWord w 1 0 ix f.g 0 d (a * 4) (b * 4) 0 (f.mod + hi * 4) → W.uniF w = f → (∀ l n, 2 ≤ l → l + n ≤ 7 → fld w l n = fld hi (l - 2) n) →
      buildUni0 ix w = some i) : Round.Statement i := by
  refine roundV hv he ha ⟨by decide, by decide, hx⟩ fun hw => ?_
  obtain ⟨⟨h1, h2, h3, h4, h5⟩, hb⟩ := hk hw
  have := f.mod_lt
  refine ⟨⟨h1, by decide, h2, by omega, by omega, by omega, by omega⟩, fun w W => ?_⟩
  obtain ⟨e1, e2⟩ := f.back hi W.head.fg (by omega) W.inMod
  exact hb w W e1 e2

theorem roundUnUi {i : Instr} {ix : Nat} {f : UniF} {d a imm hi : Nat} (hv : i.isEvent = false)
    (he : encodeNat i = some (encUnUi ix f d a imm hi)) (ha : opcodeAssigned true 0 ix = true) (hx : ix < 64)
    (hk : i.wellFormed = true → (f.g.n < 8 ∧ d < 256 ∧ a < 256 ∧ imm < 1048576 ∧ hi < 31) ∧
      ∀ w, VIWord w 1 0 ix f.g 0 d (a * 4) imm (f.mod + hi * 4) → W.uniF w = f → (∀ l n, 2 ≤ l → l + n ≤ 7 → fld w l n = fld hi (l - 2) n) →
      buildUni0 ix w = some i) : Round.Statement i := by
  refine roundVI hv he ha ⟨by decide, by decide, hx⟩ fun hw => ?_
  obtain ⟨⟨h1, h2, h3, h4, h5⟩, hb⟩ := hk hw
  have := f.mod_lt
  refine ⟨⟨h1, by decide, h2, by omega, by omega, by omega⟩, fun w W => ?_⟩
  obtain ⟨e1, e2⟩ := f.back hi W.head.fg (by omega) W.inMod
  exact hb w W e1 e2

theorem roundVB {i : Instr} {ix : Nat} {g : Guard} {uni prio : Nat} {off : Int} {treg : Nat} {lu : Bool} (hv : i.isEvent = false)
    (he : encodeNat i = some (encVB ix g uni prio off treg lu)) (ha : opcodeAssigned false 0 ix = true) (hx : ix < 64)
    (hk : i.wellFormed = true → (g.n < 8 ∧ uni < 2 ∧ prio < 64 ∧ (-8388608 ≤ off ∧ off < 8388608) ∧ treg < 256) ∧
      ∀ w, W.g w = g → fld w 48 1 = uni → fld w 42 6 = prio → sfld w 18 24 = off → fld w 10 8 = treg → boolOf (fld w 9 1) = lu →
        buildLane0 ix w = some i) : Round.Statement i := by
  intro hw
  obtain ⟨⟨h1, h2, h3, h4, h5⟩, hb⟩ := hk hw
  obtain ⟨body, H, e1, e2, e3, e4, e5⟩ := encVB_fields (lu := lu) hx h1 h2 h3 h4 h5
  exact roundHead hv he H ha (hb _ H.fg e1 e2 e3 e4 e5) hw

theorem roundVL {i : Instr} {set grp ix : Nat} {g : Guard} {d imm half : Nat} (hv : i.isEvent = false)
    (he : encodeNat i = some (encVL set grp ix g d imm half)) (ha : opcodeAssigned (boolOf set) grp ix = true) (hs : set < 2 ∧ grp < 16 ∧ ix < 64)
    (hk : i.wellFormed = true → (g.n < 8 ∧ d < 256 ∧ imm < 4294967296 ∧ half < 2) ∧
      ∀ w, W.g w = g → W.d w = d → W.imm32 w = imm → fld w 0 1 = half → buildInstr (boolOf set) grp ix w = some i) : Round.Statement i := by
  intro hw
  obtain ⟨⟨h1, h2, h3, h4⟩, hb⟩ := hk hw
  obtain ⟨H, e1, e2, e3⟩ := encVL_fields hs.1 hs.2.1 hs.2.2 h1 h2 h3 h4
  exact roundHead hv he H ha (hb _ H.fg e1 e2 e3) hw

theorem roundVMA {i : Instr} {set grp ix : Nat} {f : MemF} {la d : Nat} {dl sp : Bool} (hv : i.isEvent = false)
    (he : encodeNat i = some (encVMA set grp ix f la d dl sp)) (ha : opcodeAssigned (boolOf set) grp ix = true) (hs : set < 2 ∧ grp < 16 ∧ ix < 64)
    (hk : i.wellFormed = true → (f.g.n < 8 ∧ la < 16 ∧ d < 256 ∧ f.base < 256 ∧ (-2048 ≤ f.off ∧ f.off < 2048) ∧ f.size < 8) ∧
      ∀ w, W.g w = f.g → buildMemF w = some f → W.la w = la → W.d w = d → fld w 27 1 = natOf dl → fld w 0 1 = natOf sp →
        buildInstr (boolOf set) grp ix w = some i) : Round.Statement i := by
  intro hw
  obtain ⟨⟨h1, h2, h3, h4, h5, h6⟩, hb⟩ := hk hw
  obtain ⟨body, H, e1, e2, e3, e4, e5⟩ := encVMA_fields (dl := dl) (sp := sp) hs.1 hs.2.1 hs.2.2 h1 h2 h3 h4 h5 h6 _ rfl
  exact roundHead hv he H ha (hb _ H.fg e1 e2 e3 e4 e5) hw

theorem roundAtom {i : Instr} {ix : Nat} {f : AtomF} {la d st : Nat} (hv : i.isEvent = false)
    (he : encodeNat i = some (encVMB 0 5 ix f.g la d f.base f.baseLu f.opb f.opbLu st f.op.code f.pol.code f.ord.code f.scope.code f.size))
    (ha : opcodeAssigned false 5 ix = true) (hx : ix < 64)
    (hk : i.wellFormed = true → (f.g.n < 8 ∧ la < 16 ∧ d < 256 ∧ f.base < 256 ∧ f.opb < 256 ∧ st < 4 ∧ f.size < 8) ∧
      ∀ w, buildAtomF w = some f → W.la w = la → W.d w = d → fld w 16 2 = st → fld w 0 1 = 0 → buildLane5 ix w = some i) : Round.Statement i := by
  intro hw
  obtain ⟨⟨h1, h2, h3, h4, h5, h6, h7⟩, hb⟩ := hk hw
  obtain ⟨body, H, e1, e2, e3, e4, e5⟩ := encVMB_atom (set := 0) (grp := 5) (by decide) (by decide) hx h1 h2 h3 h4 h5 h6 h7 _ rfl
  exact roundHead hv he H ha (hb _ e1 e2 e3 e4 e5) hw

theorem roundVMB {i : Instr} {grp ix : Nat} {g : Guard} {la d base opb st aop pol ord sc size : Nat} (hv : i.isEvent = false)
    (he : encodeNat i = some (encVMB 1 grp ix g la d base false opb false st aop pol ord sc size))
    (ha : opcodeAssigned true grp ix = true) (hs : grp < 16 ∧ ix < 64)
    (hk : i.wellFormed = true → (g.n < 8 ∧ la < 16 ∧ d < 256 ∧ base < 256 ∧ opb < 256 ∧ st < 4 ∧ aop < 16 ∧ pol < 8 ∧ ord < 4 ∧ sc < 8 ∧ size < 8) ∧
      ∀ w, W.g w = g → W.d w = d → (∀ lo n, lo + n ≤ 37 → fld w lo n =
        fld (base * 2 ^ 29 + natOf false * 2 ^ 28 + opb * 2 ^ 19 + natOf false * 2 ^ 18 + st * 2 ^ 16 + aop * 2 ^ 12 + pol * 2 ^ 9 + ord * 2 ^ 7 + sc * 2 ^ 4 + size * 2) lo n) →
        buildInstr true grp ix w = some i) : Round.Statement i := by
  intro hw
  obtain ⟨⟨h1, h2, h3, h4, h5, h6, h7, h8, h9, h10, h11⟩, hb⟩ := hk hw
  obtain ⟨body, H, e1, e2, e3⟩ := encVMB_fields (set := 1) (bl := false) (ol := false) (by decide) hs.1 hs.2 h1 h2 h3 h4 h5 h6 h7 h8 h9 h10 h11
  exact roundHead hv he H ha (hb _ H.fg e2 e3) hw

theorem RedForm.fits (o : RedForm) : o.srcb < 512 ∧ o.srcb / 16 % 2 = 0 ∧ o.mod < 128 := by
  cases o with
  | int op t =>
    have := t.code_lt
    refine ⟨?_, ?_, ?_⟩
    · cases op <;> simp [RedForm.srcb, RedOp.code]
    · cases op <;> simp [RedForm.srcb, RedOp.code]
    · unfold RedForm.mod; simp only; omega
  | fp op t rm ftz =>
    have := t.code_lt
    have := rm.code_lt
    have := natOf_lt ftz
    refine ⟨?_, ?_, ?_⟩
    · cases op <;> simp [RedForm.srcb, FRedOp.code]
    · cases op <;> simp [RedForm.srcb, FRedOp.code]
    · unfold RedForm.mod; simp only; omega

/-- The operation field of WRED and WSCAN reads back. -/
theorem RedForm.back {w : Nat} (o : RedForm) (ex : Bool) (hm : ∀ l n, l + n ≤ 7 → fld w l n = fld o.mod l n)
    (hb : ∀ l n, 17 ≤ l → l + n ≤ 27 → fld w l n = fld (o.srcb + natOf ex * 16) (l - 17) n) :
    buildRed w = some o ∧ fld w 21 1 = natOf ex := by
  have hx : fld w 21 1 = natOf ex := by
    rw [hb 21 1 (by decide) (by decide)]
    have := (RedForm.fits o).2.1
    have := natOf_lt ex
    unfold fld
    omega
  refine ⟨?_, hx⟩
  unfold buildRed
  rw [hb 25 2 (by decide) (by decide), hb 17 4 (by decide) (by decide)]
  cases o with
  | int op t =>
    rw [hm 0 4 (by decide), hm 4 3 (by decide)]
    have h1 := t.code_lt
    have e1 : fld (RedForm.int op t).mod 0 4 = 0 := by unfold fld RedForm.mod; simp only; omega
    have e2 : fld (RedForm.int op t).mod 4 3 = t.code := by unfold fld RedForm.mod; simp only; omega
    rw [e1, e2]
    cases op <;> cases ex <;> simp [RedForm.srcb, RedOp.code, RedOp.ofCode, natOf, fld]
  | fp op t rm ftz =>
    rw [hm 0 1 (by decide), hm 4 3 (by decide), hm 2 2 (by decide), hm 1 1 (by decide)]
    have h1 := t.code_lt
    have h2 := rm.code_lt
    have h3 := natOf_lt ftz
    have e1 : fld (RedForm.fp op t rm ftz).mod 0 1 = 0 := by unfold fld RedForm.mod; simp only; omega
    have e2 : fld (RedForm.fp op t rm ftz).mod 4 3 = t.code := by unfold fld RedForm.mod; simp only; omega
    have e3 : fld (RedForm.fp op t rm ftz).mod 2 2 = rm.code := by unfold fld RedForm.mod; simp only; omega
    have e4 : fld (RedForm.fp op t rm ftz).mod 1 1 = natOf ftz := by unfold fld RedForm.mod; simp only; omega
    rw [e1, e2, e3, e4]
    cases op <;> cases ex <;> simp [RedForm.srcb, FRedOp.code, FRedOp.ofCode, show natOf false = 0 from rfl, show natOf true = 1 from rfl, fld]

theorem SregSel.code_lt (x : SregSel) (h : Wf.sregSel x = true) : x.code < 64 := by
  unfold Wf.sregSel at h
  cases x <;> simp [SregSel.code] at h ⊢ <;> omega

/-- A selector of SREG reads back. -/
theorem SregSel.back (x : SregSel) (h : Wf.sregSel x = true) : SregSel.ofCode x.code = some x := by
  unfold Wf.sregSel at h
  cases x
  case ext i =>
    have h : i < 6 := of_decide_eq_true h
    obtain rfl | rfl | rfl | rfl | rfl | rfl : i = 0 ∨ i = 1 ∨ i = 2 ∨ i = 3 ∨ i = 4 ∨ i = 5 := by omega
    all_goals rfl
  case m i =>
    have h : i < 12 := of_decide_eq_true h
    obtain rfl | rfl | rfl | rfl | rfl | rfl | rfl | rfl | rfl | rfl | rfl | rfl : i = 0 ∨ i = 1 ∨ i = 2 ∨ i = 3 ∨ i = 4 ∨ i = 5 ∨ i = 6 ∨ i = 7 ∨
      i = 8 ∨ i = 9 ∨ i = 10 ∨ i = 11 := by omega
    all_goals rfl
  case tc i =>
    have h : i < 16 := of_decide_eq_true h
    obtain rfl | rfl | rfl | rfl | rfl | rfl | rfl | rfl | rfl | rfl | rfl | rfl | rfl | rfl | rfl | rfl : i = 0 ∨ i = 1 ∨ i = 2 ∨ i = 3 ∨ i = 4 ∨
      i = 5 ∨ i = 6 ∨ i = 7 ∨ i = 8 ∨ i = 9 ∨ i = 10 ∨ i = 11 ∨ i = 12 ∨ i = 13 ∨ i = 14 ∨ i = 15 := by omega
    all_goals rfl
  all_goals rfl

/-- The fields of FCMP's MOD. -/
theorem fcmpMod {w : Nat} (t : FpTy) (op : FCmpOp) (u : Bool) (hm : ∀ l n, l + n ≤ 7 → fld w l n = fld (t.code * 16 + op.code * 2 + natOf u) l n) :
    FpTy.ofCode (fld w 4 3) = some t ∧ FCmpOp.ofCode (fld w 1 3) = op ∧ boolOf (fld w 0 1) = u := by
  have h1 := t.code_lt
  have h2 : op.code < 8 := by cases op <;> decide
  have h3 := natOf_lt u
  rw [hm 4 3 (by decide), hm 1 3 (by decide), hm 0 1 (by decide)]
  refine ⟨?_, ?_, ?_⟩
  · rw [show fld (t.code * 16 + op.code * 2 + natOf u) 4 3 = t.code by unfold fld; omega, FpTy.ofCode_code]
  · rw [show fld (t.code * 16 + op.code * 2 + natOf u) 1 3 = op.code by unfold fld; omega]; cases op <;> rfl
  · rw [show fld (t.code * 16 + op.code * 2 + natOf u) 0 1 = natOf u by unfold fld; omega, boolOf_natOf]


theorem Round.nop (g : Guard) : Round.Statement (.nop g) := by
  refine roundV rfl rfl rfl ⟨by decide, by decide, by decide⟩ fun hw => ?_
  change (Wf.guard g) = true at hw
  have h1 := wfG hw
  exact ⟨⟨by omega, by omega, by omega, by omega, by omega, by omega, by omega⟩, fun w W => by
    show buildLane0 0 w = _
    delta buildLane0
    simp [W.head.fg, W.fmod]
    try simp [fld]
    try omega⟩

theorem Round.bra (g : Guard) (prio : Nat) (off : Int) : Round.Statement (.bra g prio off) := by
  refine roundVB rfl rfl rfl (by decide) fun hw => ?_
  change (Wf.guard g && prio < 64 && Wf.off24 off) = true at hw
  simp only [Bool.and_eq_true] at hw
  refine ⟨⟨wfG hw.1.1, by decide, of_decide_eq_true hw.1.2, wfOff24 hw.2, by decide⟩, fun w e0 e1 e2 e3 e4 e5 => ?_⟩
  delta buildLane0
  simp [e0, e1, boolOf, e2, e3]

theorem Round.braU (g : Guard) (prio : Nat) (off : Int) : Round.Statement (.braU g prio off) := by
  refine roundVB rfl rfl rfl (by decide) fun hw => ?_
  change (Wf.guard g && prio < 64 && Wf.off24 off) = true at hw
  simp only [Bool.and_eq_true] at hw
  refine ⟨⟨wfG hw.1.1, by decide, of_decide_eq_true hw.1.2, wfOff24 hw.2, by decide⟩, fun w e0 e1 e2 e3 e4 e5 => ?_⟩
  delta buildLane0
  simp [e0, e1, boolOf, e2, e3]

theorem Round.brx (g : Guard) (prio : Nat) (treg : Nat) (lu : Bool) : Round.Statement (.brx g prio treg lu) := by
  refine roundVB rfl rfl rfl (by decide) fun hw => ?_
  change (Wf.guard g && prio < 64 && Wf.v 2 treg) = true at hw
  simp only [Bool.and_eq_true] at hw
  refine ⟨⟨wfG hw.1.1, by decide, of_decide_eq_true hw.1.2, by decide, wfV hw.2⟩, fun w e0 e1 e2 e3 e4 e5 => ?_⟩
  delta buildLane0
  simp [e0, e2, e4, e5]

theorem Round.call (g : Guard) (prio : Nat) (off : Int) : Round.Statement (.call g prio off) := by
  refine roundVB rfl rfl rfl (by decide) fun hw => ?_
  change (Wf.guard g && prio < 64 && Wf.off24 off) = true at hw
  simp only [Bool.and_eq_true] at hw
  refine ⟨⟨wfG hw.1.1, by decide, of_decide_eq_true hw.1.2, wfOff24 hw.2, by decide⟩, fun w e0 e1 e2 e3 e4 e5 => ?_⟩
  delta buildLane0
  simp [e0, e2, e3]

theorem Round.callx (g : Guard) (prio : Nat) (treg : Nat) (lu : Bool) : Round.Statement (.callx g prio treg lu) := by
  refine roundVB rfl rfl rfl (by decide) fun hw => ?_
  change (Wf.guard g && prio < 64 && Wf.v 2 treg) = true at hw
  simp only [Bool.and_eq_true] at hw
  refine ⟨⟨wfG hw.1.1, by decide, of_decide_eq_true hw.1.2, by decide, wfV hw.2⟩, fun w e0 e1 e2 e3 e4 e5 => ?_⟩
  delta buildLane0
  simp [e0, e2, e4, e5]

theorem Round.ret (g : Guard) : Round.Statement (.ret g) := by
  refine roundVB rfl rfl rfl (by decide) fun hw => ?_
  change Wf.guard g = true at hw
  refine ⟨⟨wfG hw, by decide, by decide, by decide, by decide⟩, fun w e0 e1 e2 e3 e4 e5 => ?_⟩
  delta buildLane0
  simp [e0]

theorem Round.land (g : Guard) : Round.Statement (.land g) := by
  refine roundV rfl rfl rfl ⟨by decide, by decide, by decide⟩ fun hw => ?_
  change (Wf.guard g) = true at hw
  have h1 := wfG hw
  exact ⟨⟨by omega, by omega, by omega, by omega, by omega, by omega, by omega⟩, fun w W => by
    show buildLane0 6 w = _
    delta buildLane0
    simp [W.head.fg, W.fmod]
    try simp [fld]
    try omega⟩

theorem Round.join (g : Guard) (m : Nat) : Round.Statement (.join g m) := by
  refine roundV rfl rfl rfl ⟨by decide, by decide, by decide⟩ fun hw => ?_
  change (Wf.guard g && Wf.m m) = true at hw
  simp only [Bool.and_eq_true] at hw
  have h1 := wfG hw.1
  have h2 := wfM hw.2
  exact ⟨⟨by omega, by omega, by omega, by omega, by omega, by omega, by omega⟩, fun w W => by
    show buildLane0 7 w = _
    delta buildLane0
    simp [W.head.fg, W.fd, W.fmod]
    try simp [fld]
    try omega⟩

theorem Round.leave (g : Guard) (m : Nat) : Round.Statement (.leave g m) := by
  refine roundV rfl rfl rfl ⟨by decide, by decide, by decide⟩ fun hw => ?_
  change (Wf.guard g && Wf.m m) = true at hw
  simp only [Bool.and_eq_true] at hw
  have h1 := wfG hw.1
  have h2 := wfM hw.2
  exact ⟨⟨by omega, by omega, by omega, by omega, by omega, by omega, by omega⟩, fun w W => by
    show buildLane0 8 w = _
    delta buildLane0
    simp [W.head.fg, W.fd, W.fmod]
    try simp [fld]
    try omega⟩

theorem Round.waitm (g : Guard) (m : Nat) : Round.Statement (.waitm g m) := by
  refine roundV rfl rfl rfl ⟨by decide, by decide, by decide⟩ fun hw => ?_
  change (Wf.guard g && Wf.m m) = true at hw
  simp only [Bool.and_eq_true] at hw
  have h1 := wfG hw.1
  have h2 := wfM hw.2
  exact ⟨⟨by omega, by omega, by omega, by omega, by omega, by omega, by omega⟩, fun w W => by
    show buildLane0 9 w = _
    delta buildLane0
    simp [W.head.fg, W.fd, W.fmod]
    try simp [fld]
    try omega⟩

theorem Round.mclr (g : Guard) (m : Nat) : Round.Statement (.mclr g m) := by
  refine roundV rfl rfl rfl ⟨by decide, by decide, by decide⟩ fun hw => ?_
  change (Wf.guard g && Wf.m m) = true at hw
  simp only [Bool.and_eq_true] at hw
  have h1 := wfG hw.1
  have h2 := wfM hw.2
  exact ⟨⟨by omega, by omega, by omega, by omega, by omega, by omega, by omega⟩, fun w W => by
    show buildLane0 10 w = _
    delta buildLane0
    simp [W.head.fg, W.fd, W.fmod]
    try simp [fld]
    try omega⟩

theorem Round.trap (g : Guard) (n : Nat) : Round.Statement (.trap g n) := by
  refine roundVI rfl rfl rfl ⟨by decide, by decide, by decide⟩ fun hw => ?_
  change (Wf.guard g && Wf.imm20 n) = true at hw
  simp only [Bool.and_eq_true] at hw
  have h1 := wfG hw.1
  have h2 := wfI20 hw.2
  exact ⟨⟨by omega, by omega, by omega, by omega, by omega, by omega⟩, fun w W => by
    show buildLane0 11 w = _
    delta buildLane0
    simp [W.head.fg, W.fmod, W.fimm]
    try simp [fld]
    try omega⟩

theorem Round.tret (g : Guard) : Round.Statement (.tret g) := by
  refine roundV rfl rfl rfl ⟨by decide, by decide, by decide⟩ fun hw => ?_
  change (Wf.guard g) = true at hw
  have h1 := wfG hw
  exact ⟨⟨by omega, by omega, by omega, by omega, by omega, by omega, by omega⟩, fun w W => by
    show buildLane0 12 w = _
    delta buildLane0
    simp [W.head.fg, W.fmod]
    try simp [fld]
    try omega⟩

theorem Round.tretNext (g : Guard) : Round.Statement (.tretNext g) := by
  refine roundV rfl rfl rfl ⟨by decide, by decide, by decide⟩ fun hw => ?_
  change (Wf.guard g) = true at hw
  have h1 := wfG hw
  exact ⟨⟨by omega, by omega, by omega, by omega, by omega, by omega, by omega⟩, fun w W => by
    show buildLane0 12 w = _
    delta buildLane0
    simp [W.head.fg, W.fmod]
    try simp [fld]
    try omega⟩

theorem Round.tkill (g : Guard) : Round.Statement (.tkill g) := by
  refine roundV rfl rfl rfl ⟨by decide, by decide, by decide⟩ fun hw => ?_
  change (Wf.guard g) = true at hw
  have h1 := wfG hw
  exact ⟨⟨by omega, by omega, by omega, by omega, by omega, by omega, by omega⟩, fun w W => by
    show buildLane0 13 w = _
    delta buildLane0
    simp [W.head.fg, W.fmod]
    try simp [fld]
    try omega⟩

theorem Round.tkillW (g : Guard) : Round.Statement (.tkillW g) := by
  refine roundV rfl rfl rfl ⟨by decide, by decide, by decide⟩ fun hw => ?_
  change (Wf.guard g) = true at hw
  have h1 := wfG hw
  exact ⟨⟨by omega, by omega, by omega, by omega, by omega, by omega, by omega⟩, fun w W => by
    show buildLane0 13 w = _
    delta buildLane0
    simp [W.head.fg, W.fmod]
    try simp [fld]
    try omega⟩

theorem Round.wdog (g : Guard) (n : Nat) : Round.Statement (.wdog g n) := by
  refine roundVI rfl rfl rfl ⟨by decide, by decide, by decide⟩ fun hw => ?_
  change (Wf.guard g && Wf.imm20 n) = true at hw
  simp only [Bool.and_eq_true] at hw
  have h1 := wfG hw.1
  have h2 := wfI20 hw.2
  exact ⟨⟨by omega, by omega, by omega, by omega, by omega, by omega⟩, fun w W => by
    show buildLane0 14 w = _
    delta buildLane0
    simp [W.head.fg, W.fmod, W.fimm]
    try simp [fld]
    try omega⟩

theorem Round.yield (g : Guard) : Round.Statement (.yield g) := by
  refine roundV rfl rfl rfl ⟨by decide, by decide, by decide⟩ fun hw => ?_
  change (Wf.guard g) = true at hw
  have h1 := wfG hw
  exact ⟨⟨by omega, by omega, by omega, by omega, by omega, by omega, by omega⟩, fun w W => by
    show buildLane0 15 w = _
    delta buildLane0
    simp [W.head.fg, W.fmod]
    try simp [fld]
    try omega⟩

theorem Round.exit (g : Guard) : Round.Statement (.exit g) := by
  refine roundV rfl rfl rfl ⟨by decide, by decide, by decide⟩ fun hw => ?_
  change (Wf.guard g) = true at hw
  have h1 := wfG hw
  exact ⟨⟨by omega, by omega, by omega, by omega, by omega, by omega, by omega⟩, fun w W => by
    show buildLane0 16 w = _
    delta buildLane0
    simp [W.head.fg, W.fmod]
    try simp [fld]
    try omega⟩

theorem Round.bkpt (g : Guard) (n : Nat) : Round.Statement (.bkpt g n) := by
  refine roundVI rfl rfl rfl ⟨by decide, by decide, by decide⟩ fun hw => ?_
  change (Wf.guard g && Wf.imm20 n) = true at hw
  simp only [Bool.and_eq_true] at hw
  have h1 := wfG hw.1
  have h2 := wfI20 hw.2
  exact ⟨⟨by omega, by omega, by omega, by omega, by omega, by omega⟩, fun w W => by
    show buildLane0 17 w = _
    delta buildLane0
    simp [W.head.fg, W.fmod, W.fimm]
    try simp [fld]
    try omega⟩

theorem Round.add (f : IntF) (d : Nat) (a : Src) (b : Src) : Round.Statement (.add f d a b) := by
  refine roundI rfl rfl rfl (by decide) fun hw => ?_
  change (Wf.int f true true && Wf.v f.t.regs d && Wf.src f.t.regs a && Wf.src f.t.regs b) = true at hw
  simp only [Bool.and_eq_true] at hw
  have h1 := wfInt hw.1.1.1
  have h2 := wfV hw.1.1.2
  have h3 := wfSrc hw.1.2
  have ca := Src.code_lt a h3
  have h4 := wfSrc hw.2
  have cb := Src.code_lt b h4
  exact ⟨⟨by omega, by omega, by omega, by omega, by omega, by omega⟩, fun w W e1 e2 => by
    delta buildLane1
    simp [e1, W.fd, W.fa h3, W.fb h4, e2]
    try simp [fld]
    try omega⟩

theorem Round.addVi (f : IntF) (d : Nat) (a : Src) (imm : Nat) : Round.Statement (.addVi f d a imm) := by
  refine roundIVi rfl rfl rfl (by decide) fun hw => ?_
  change (Wf.int f f.t.isScalar true && Wf.v f.t.regs d && Wf.src f.t.regs a && Wf.imm20 imm) = true at hw
  simp only [Bool.and_eq_true] at hw
  have h1 := wfInt hw.1.1.1
  have h2 := wfV hw.1.1.2
  have h3 := wfSrc hw.1.2
  have ca := Src.code_lt a h3
  have h4 := wfI20 hw.2
  exact ⟨⟨by omega, by omega, by omega, by omega, by omega⟩, fun w W e1 e2 => by
    delta buildLane1
    simp [e1, W.fd, W.fimm, W.fa h3, e2]
    try simp [fld]
    try omega⟩

theorem Round.sub (f : IntF) (d : Nat) (a : Src) (b : Src) : Round.Statement (.sub f d a b) := by
  refine roundI rfl rfl rfl (by decide) fun hw => ?_
  change (Wf.int f true true && Wf.v f.t.regs d && Wf.src f.t.regs a && Wf.src f.t.regs b) = true at hw
  simp only [Bool.and_eq_true] at hw
  have h1 := wfInt hw.1.1.1
  have h2 := wfV hw.1.1.2
  have h3 := wfSrc hw.1.2
  have ca := Src.code_lt a h3
  have h4 := wfSrc hw.2
  have cb := Src.code_lt b h4
  exact ⟨⟨by omega, by omega, by omega, by omega, by omega, by omega⟩, fun w W e1 e2 => by
    delta buildLane1
    simp [e1, W.fd, W.fa h3, W.fb h4, e2]
    try simp [fld]
    try omega⟩

theorem Round.subVi (f : IntF) (d : Nat) (a : Src) (imm : Nat) : Round.Statement (.subVi f d a imm) := by
  refine roundIVi rfl rfl rfl (by decide) fun hw => ?_
  change (Wf.int f f.t.isScalar true && Wf.v f.t.regs d && Wf.src f.t.regs a && Wf.imm20 imm) = true at hw
  simp only [Bool.and_eq_true] at hw
  have h1 := wfInt hw.1.1.1
  have h2 := wfV hw.1.1.2
  have h3 := wfSrc hw.1.2
  have ca := Src.code_lt a h3
  have h4 := wfI20 hw.2
  exact ⟨⟨by omega, by omega, by omega, by omega, by omega⟩, fun w W e1 e2 => by
    delta buildLane1
    simp [e1, W.fd, W.fimm, W.fa h3, e2]
    try simp [fld]
    try omega⟩

theorem Round.mul (f : IntF) (d : Nat) (a : Src) (b : Src) : Round.Statement (.mul f d a b) := by
  refine roundI rfl rfl rfl (by decide) fun hw => ?_
  change (Wf.int f true true && Wf.v f.t.regs d && Wf.src f.t.regs a && Wf.src f.t.regs b) = true at hw
  simp only [Bool.and_eq_true] at hw
  have h1 := wfInt hw.1.1.1
  have h2 := wfV hw.1.1.2
  have h3 := wfSrc hw.1.2
  have ca := Src.code_lt a h3
  have h4 := wfSrc hw.2
  have cb := Src.code_lt b h4
  exact ⟨⟨by omega, by omega, by omega, by omega, by omega, by omega⟩, fun w W e1 e2 => by
    delta buildLane1
    simp [e1, W.fd, W.fa h3, W.fb h4, e2]
    try simp [fld]
    try omega⟩

theorem Round.mulVi (f : IntF) (d : Nat) (a : Src) (imm : Nat) : Round.Statement (.mulVi f d a imm) := by
  refine roundIVi rfl rfl rfl (by decide) fun hw => ?_
  change (Wf.int f f.t.isScalar true && Wf.v f.t.regs d && Wf.src f.t.regs a && Wf.imm20 imm) = true at hw
  simp only [Bool.and_eq_true] at hw
  have h1 := wfInt hw.1.1.1
  have h2 := wfV hw.1.1.2
  have h3 := wfSrc hw.1.2
  have ca := Src.code_lt a h3
  have h4 := wfI20 hw.2
  exact ⟨⟨by omega, by omega, by omega, by omega, by omega⟩, fun w W e1 e2 => by
    delta buildLane1
    simp [e1, W.fd, W.fimm, W.fa h3, e2]
    try simp [fld]
    try omega⟩

theorem Round.mulhi (f : IntF) (d : Nat) (a : Src) (b : Src) : Round.Statement (.mulhi f d a b) := by
  refine roundI rfl rfl rfl (by decide) fun hw => ?_
  change (Wf.int f f.t.isScalar false && Wf.v f.t.regs d && Wf.src f.t.regs a && Wf.src f.t.regs b) = true at hw
  simp only [Bool.and_eq_true] at hw
  have h1 := wfInt hw.1.1.1
  have h2 := wfV hw.1.1.2
  have h3 := wfSrc hw.1.2
  have ca := Src.code_lt a h3
  have h4 := wfSrc hw.2
  have cb := Src.code_lt b h4
  exact ⟨⟨by omega, by omega, by omega, by omega, by omega, by omega⟩, fun w W e1 e2 => by
    delta buildLane1
    simp [e1, W.fd, W.fa h3, W.fb h4, e2]
    try simp [fld]
    try omega⟩

theorem Round.muladd (f : IntF) (d : Nat) (a : Src) (b : Src) (c : Src) : Round.Statement (.muladd f d a b c) := by
  refine roundI rfl rfl rfl (by decide) fun hw => ?_
  change (Wf.int f true true && Wf.v f.t.regs d && Wf.src f.t.regs a && Wf.src f.t.regs b && Wf.src f.t.regs c) = true at hw
  simp only [Bool.and_eq_true] at hw
  have h1 := wfInt hw.1.1.1.1
  have h2 := wfV hw.1.1.1.2
  have h3 := wfSrc hw.1.1.2
  have ca := Src.code_lt a h3
  have h4 := wfSrc hw.1.2
  have cb := Src.code_lt b h4
  have h5 := wfSrc hw.2
  have cc := Src.code_lt c h5
  exact ⟨⟨by omega, by omega, by omega, by omega, by omega, by omega⟩, fun w W e1 e2 => by
    delta buildLane1
    simp [e1, W.fd, W.fa h3, W.fb h4, W.fc h5, e2]
    try simp [fld]
    try omega⟩

theorem Round.sum3 (f : IntF) (mb : Bool) (mc : Bool) (d : Nat) (a : Src) (b : Src) (c : Src) : Round.Statement (.sum3 f mb mc d a b c) := by
  refine roundI rfl rfl rfl (by decide) fun hw => ?_
  change (Wf.int f f.t.isScalar true && Wf.v f.t.regs d && Wf.src f.t.regs a && Wf.src f.t.regs b && Wf.src f.t.regs c) = true at hw
  simp only [Bool.and_eq_true] at hw
  have h1 := wfInt hw.1.1.1.1
  have h2 := wfV hw.1.1.1.2
  have h3 := wfSrc hw.1.1.2
  have ca := Src.code_lt a h3
  have h4 := wfSrc hw.1.2
  have cb := Src.code_lt b h4
  have h5 := wfSrc hw.2
  have cc := Src.code_lt c h5
  clear hw
  cases mb <;> cases mc
  all_goals
    exact ⟨⟨by omega, by omega, by omega, by omega, by omega, by first | decide | omega | (simp only [natOf]; omega)⟩, fun w W e1 e2 => by
      delta buildLane1
      simp [e1, W.fd, W.fa h3, W.fb h4, W.fc h5, e2, natOf]
      try simp [fld, boolOf]
      try omega⟩

theorem Round.dot4 (f : IntF) (sa : Bool) (sb : Bool) (d : Nat) (a : Src) (b : Src) (c : Src) : Round.Statement (.dot4 f sa sb d a b c) := by
  refine roundI rfl rfl rfl (by decide) fun hw => ?_
  change (Wf.int f f.t.is32 true && Wf.v 1 d && Wf.src 1 a && Wf.src 1 b && Wf.src 1 c) = true at hw
  simp only [Bool.and_eq_true] at hw
  have h1 := wfInt hw.1.1.1.1
  have h2 := wfV hw.1.1.1.2
  have h3 := wfSrc hw.1.1.2
  have ca := Src.code_lt a h3
  have h4 := wfSrc hw.1.2
  have cb := Src.code_lt b h4
  have h5 := wfSrc hw.2
  have cc := Src.code_lt c h5
  clear hw
  cases sa <;> cases sb
  all_goals
    exact ⟨⟨by omega, by omega, by omega, by omega, by omega, by first | decide | omega | (simp only [natOf]; omega)⟩, fun w W e1 e2 => by
      delta buildLane1
      simp [e1, W.fd, W.fa h3, W.fb h4, W.fc h5, e2, natOf]
      try simp [fld, boolOf]
      try omega⟩

theorem Round.min (f : IntF) (d : Nat) (a : Src) (b : Src) : Round.Statement (.min f d a b) := by
  refine roundI rfl rfl rfl (by decide) fun hw => ?_
  change (Wf.int f true false && Wf.v f.t.regs d && Wf.src f.t.regs a && Wf.src f.t.regs b) = true at hw
  simp only [Bool.and_eq_true] at hw
  have h1 := wfInt hw.1.1.1
  have h2 := wfV hw.1.1.2
  have h3 := wfSrc hw.1.2
  have ca := Src.code_lt a h3
  have h4 := wfSrc hw.2
  have cb := Src.code_lt b h4
  exact ⟨⟨by omega, by omega, by omega, by omega, by omega, by omega⟩, fun w W e1 e2 => by
    delta buildLane1
    simp [e1, W.fd, W.fa h3, W.fb h4, e2]
    try simp [fld]
    try omega⟩

theorem Round.minVi (f : IntF) (d : Nat) (a : Src) (imm : Nat) : Round.Statement (.minVi f d a imm) := by
  refine roundIVi rfl rfl rfl (by decide) fun hw => ?_
  change (Wf.int f f.t.isScalar false && Wf.v f.t.regs d && Wf.src f.t.regs a && Wf.imm20 imm) = true at hw
  simp only [Bool.and_eq_true] at hw
  have h1 := wfInt hw.1.1.1
  have h2 := wfV hw.1.1.2
  have h3 := wfSrc hw.1.2
  have ca := Src.code_lt a h3
  have h4 := wfI20 hw.2
  exact ⟨⟨by omega, by omega, by omega, by omega, by omega⟩, fun w W e1 e2 => by
    delta buildLane1
    simp [e1, W.fd, W.fimm, W.fa h3, e2]
    try simp [fld]
    try omega⟩

theorem Round.max (f : IntF) (d : Nat) (a : Src) (b : Src) : Round.Statement (.max f d a b) := by
  refine roundI rfl rfl rfl (by decide) fun hw => ?_
  change (Wf.int f true false && Wf.v f.t.regs d && Wf.src f.t.regs a && Wf.src f.t.regs b) = true at hw
  simp only [Bool.and_eq_true] at hw
  have h1 := wfInt hw.1.1.1
  have h2 := wfV hw.1.1.2
  have h3 := wfSrc hw.1.2
  have ca := Src.code_lt a h3
  have h4 := wfSrc hw.2
  have cb := Src.code_lt b h4
  exact ⟨⟨by omega, by omega, by omega, by omega, by omega, by omega⟩, fun w W e1 e2 => by
    delta buildLane1
    simp [e1, W.fd, W.fa h3, W.fb h4, e2]
    try simp [fld]
    try omega⟩

theorem Round.maxVi (f : IntF) (d : Nat) (a : Src) (imm : Nat) : Round.Statement (.maxVi f d a imm) := by
  refine roundIVi rfl rfl rfl (by decide) fun hw => ?_
  change (Wf.int f f.t.isScalar false && Wf.v f.t.regs d && Wf.src f.t.regs a && Wf.imm20 imm) = true at hw
  simp only [Bool.and_eq_true] at hw
  have h1 := wfInt hw.1.1.1
  have h2 := wfV hw.1.1.2
  have h3 := wfSrc hw.1.2
  have ca := Src.code_lt a h3
  have h4 := wfI20 hw.2
  exact ⟨⟨by omega, by omega, by omega, by omega, by omega⟩, fun w W e1 e2 => by
    delta buildLane1
    simp [e1, W.fd, W.fimm, W.fa h3, e2]
    try simp [fld]
    try omega⟩

theorem Round.abs (f : IntF) (d : Nat) (a : Src) : Round.Statement (.abs f d a) := by
  refine roundI rfl rfl rfl (by decide) fun hw => ?_
  change (Wf.int f f.t.isSigned true && Wf.v f.t.regs d && Wf.src f.t.regs a) = true at hw
  simp only [Bool.and_eq_true] at hw
  have h1 := wfInt hw.1.1
  have h2 := wfV hw.1.2
  have h3 := wfSrc hw.2
  have ca := Src.code_lt a h3
  exact ⟨⟨by omega, by omega, by omega, by omega, by omega, by omega⟩, fun w W e1 e2 => by
    delta buildLane1
    simp [e1, W.fd, W.fa h3, e2]
    try simp [fld]
    try omega⟩

theorem Round.logic (f : IntF) (op : LogicOp) (d : Nat) (a : Src) (b : Src) : Round.Statement (.logic f op d a b) := by
  refine roundI rfl rfl rfl (by decide) fun hw => ?_
  change (Wf.int f f.t.isScalar false && Wf.v f.t.regs d && Wf.src f.t.regs a && Wf.src f.t.regs b && (!Wf.unary op || b == { reg := 0, lu := false, keep := false })) = true at hw
  simp only [Bool.and_eq_true] at hw
  have h1 := wfInt hw.1.1.1.1
  have h2 := wfV hw.1.1.1.2
  have h3 := wfSrc hw.1.1.2
  have h4 := wfSrc hw.1.2
  have hx := hw.2
  have hc : op.code < 8 := by cases op <;> decide
  refine ⟨⟨h1, h2, a.code_lt h3, b.code_lt h4, by decide, hc⟩, fun w W e1 e2 => ?_⟩
  have k : fld w 0 3 = op.code := (e2 0 3 (by decide)).trans (fld_whole _ _ hc)
  delta buildLane1
  simp only [k, e1, W.fd, W.fa h3, W.fb h4]
  clear W e1 e2 k hw
  cases op <;> simp [Wf.unary, LogicOp.code, LogicOp.ofCode] at hx ⊢ <;> exact hx.symm

theorem Round.logicVi (f : IntF) (op : LogicOp) (d : Nat) (a : Src) (imm : Nat) : Round.Statement (.logicVi f op d a imm) := by
  refine roundIVi rfl rfl rfl (by decide) fun hw => ?_
  change (Wf.int f f.t.isScalar false && Wf.v f.t.regs d && Wf.src f.t.regs a && Wf.imm20 imm) = true at hw
  simp only [Bool.and_eq_true] at hw
  have h1 := wfInt hw.1.1.1
  have h2 := wfV hw.1.1.2
  have h3 := wfSrc hw.1.2
  have ca := Src.code_lt a h3
  have h4 := wfI20 hw.2
  clear hw
  cases op
  all_goals
    exact ⟨⟨by omega, by omega, by omega, by omega, by first | decide | omega | (simp only [LogicOp.code]; omega)⟩, fun w W e1 e2 => by
      delta buildLane1
      simp [e1, W.fd, W.fimm, W.fa h3, e2, LogicOp.code]
      try simp [fld, LogicOp.ofCode]
      try omega⟩

theorem Round.plogic (g : Guard) (op : LogicOp) (d : Nat) (a : Nat) (b : Nat) (c : Nat) : Round.Statement (.plogic g op d a b c) := by
  refine roundV rfl rfl rfl ⟨by decide, by decide, by decide⟩ fun hw => ?_
  change (Wf.guard g && Wf.p d && Wf.p a && Wf.p b && Wf.p c && (!Wf.unary op || b == 0)) = true at hw
  simp only [Bool.and_eq_true] at hw
  have h1 := wfG hw.1.1.1.1.1
  have h2 := wfP hw.1.1.1.1.2
  have h3 := wfP hw.1.1.1.2
  have h4 := wfP hw.1.1.2
  have h5 := wfP hw.1.2
  have hx := hw.2
  have hc : op.code < 8 := by cases op <;> decide
  refine ⟨⟨h1, by decide, by omega, by omega, by omega, by omega, by omega⟩, fun w W => ?_⟩
  have k : fld w 0 3 = op.code := (W.inMod 0 3 (by decide)).trans (fld_whole _ _ hc)
  have k2 : fld w 3 4 = 0 := (W.inMod 3 4 (by decide)).trans (by unfold fld; omega)
  show buildLane1 11 w = _
  have kg : (Sys2Proof.W.intF w).g = g := W.head.fg
  delta buildLane1
  simp only [k, k2, kg, W.fd, W.areg (show a < 256 by omega), W.breg (show b < 256 by omega), W.creg (show c < 256 by omega)]
  clear W k k2 hw h1 h2 h3 h4 h5
  clear kg
  cases op <;> simp [Wf.unary, LogicOp.code, LogicOp.ofCode] at hx ⊢ <;> exact hx.symm

theorem Round.shl (f : IntF) (wrap : Bool) (d : Nat) (a : Src) (b : Src) : Round.Statement (.shl f wrap d a b) := by
  refine roundI rfl rfl rfl (by decide) fun hw => ?_
  change (Wf.int f f.t.isScalar true && Wf.v f.t.regs d && Wf.src f.t.regs a && Wf.src 1 b) = true at hw
  simp only [Bool.and_eq_true] at hw
  have h1 := wfInt hw.1.1.1
  have h2 := wfV hw.1.1.2
  have h3 := wfSrc hw.1.2
  have ca := Src.code_lt a h3
  have h4 := wfSrc hw.2
  have cb := Src.code_lt b h4
  clear hw
  cases wrap
  all_goals
    exact ⟨⟨by omega, by omega, by omega, by omega, by omega, by first | decide | omega | (simp only [natOf]; omega)⟩, fun w W e1 e2 => by
      delta buildLane1
      simp [e1, W.fd, W.fa h3, W.fb h4, e2, natOf]
      try simp [fld, boolOf]
      try omega⟩

theorem Round.shlVi (f : IntF) (wrap : Bool) (d : Nat) (a : Src) (imm : Nat) : Round.Statement (.shlVi f wrap d a imm) := by
  refine roundIVi rfl rfl rfl (by decide) fun hw => ?_
  change (Wf.int f f.t.isScalar true && Wf.v f.t.regs d && Wf.src f.t.regs a && Wf.imm20 imm) = true at hw
  simp only [Bool.and_eq_true] at hw
  have h1 := wfInt hw.1.1.1
  have h2 := wfV hw.1.1.2
  have h3 := wfSrc hw.1.2
  have ca := Src.code_lt a h3
  have h4 := wfI20 hw.2
  clear hw
  cases wrap
  all_goals
    exact ⟨⟨by omega, by omega, by omega, by omega, by first | decide | omega | (simp only [natOf]; omega)⟩, fun w W e1 e2 => by
      delta buildLane1
      simp [e1, W.fd, W.fimm, W.fa h3, e2, natOf]
      try simp [fld, boolOf]
      try omega⟩

theorem Round.shr (f : IntF) (wrap : Bool) (d : Nat) (a : Src) (b : Src) : Round.Statement (.shr f wrap d a b) := by
  refine roundI rfl rfl rfl (by decide) fun hw => ?_
  change (Wf.int f f.t.isScalar false && Wf.v f.t.regs d && Wf.src f.t.regs a && Wf.src 1 b) = true at hw
  simp only [Bool.and_eq_true] at hw
  have h1 := wfInt hw.1.1.1
  have h2 := wfV hw.1.1.2
  have h3 := wfSrc hw.1.2
  have ca := Src.code_lt a h3
  have h4 := wfSrc hw.2
  have cb := Src.code_lt b h4
  clear hw
  cases wrap
  all_goals
    exact ⟨⟨by omega, by omega, by omega, by omega, by omega, by first | decide | omega | (simp only [natOf]; omega)⟩, fun w W e1 e2 => by
      delta buildLane1
      simp [e1, W.fd, W.fa h3, W.fb h4, e2, natOf]
      try simp [fld, boolOf]
      try omega⟩

theorem Round.shrVi (f : IntF) (wrap : Bool) (d : Nat) (a : Src) (imm : Nat) : Round.Statement (.shrVi f wrap d a imm) := by
  refine roundIVi rfl rfl rfl (by decide) fun hw => ?_
  change (Wf.int f f.t.isScalar false && Wf.v f.t.regs d && Wf.src f.t.regs a && Wf.imm20 imm) = true at hw
  simp only [Bool.and_eq_true] at hw
  have h1 := wfInt hw.1.1.1
  have h2 := wfV hw.1.1.2
  have h3 := wfSrc hw.1.2
  have ca := Src.code_lt a h3
  have h4 := wfI20 hw.2
  clear hw
  cases wrap
  all_goals
    exact ⟨⟨by omega, by omega, by omega, by omega, by first | decide | omega | (simp only [natOf]; omega)⟩, fun w W e1 e2 => by
      delta buildLane1
      simp [e1, W.fd, W.fimm, W.fa h3, e2, natOf]
      try simp [fld, boolOf]
      try omega⟩

theorem Round.funnel (f : IntF) (r : Bool) (wrap : Bool) (d : Nat) (a : Src) (b : Src) (c : Src) : Round.Statement (.funnel f r wrap d a b c) := by
  refine roundI rfl rfl rfl (by decide) fun hw => ?_
  change (Wf.int f f.t.is32 false && Wf.v 1 d && Wf.src 1 a && Wf.src 1 b && Wf.src 1 c) = true at hw
  simp only [Bool.and_eq_true] at hw
  have h1 := wfInt hw.1.1.1.1
  have h2 := wfV hw.1.1.1.2
  have h3 := wfSrc hw.1.1.2
  have ca := Src.code_lt a h3
  have h4 := wfSrc hw.1.2
  have cb := Src.code_lt b h4
  have h5 := wfSrc hw.2
  have cc := Src.code_lt c h5
  clear hw
  cases r <;> cases wrap
  all_goals
    exact ⟨⟨by omega, by omega, by omega, by omega, by omega, by first | decide | omega | (simp only [natOf]; omega)⟩, fun w W e1 e2 => by
      delta buildLane1
      simp [e1, W.fd, W.fa h3, W.fb h4, W.fc h5, e2, natOf]
      try simp [fld, boolOf]
      try omega⟩

theorem Round.scadd (f : IntF) (sh : Nat) (d : Nat) (a : Src) (b : Src) : Round.Statement (.scadd f sh d a b) := by
  refine roundI rfl rfl rfl (by decide) fun hw => ?_
  change (Wf.int f f.t.is32 false && sh < 8 && Wf.v 2 d && Wf.src 2 a && Wf.src 1 b) = true at hw
  simp only [Bool.and_eq_true] at hw
  have h1 := wfInt hw.1.1.1.1
  have h2 := of_decide_eq_true hw.1.1.1.2
  have h3 := wfV hw.1.1.2
  have h4 := wfSrc hw.1.2
  have ca := Src.code_lt a h4
  have h5 := wfSrc hw.2
  have cb := Src.code_lt b h5
  exact ⟨⟨by omega, by omega, by omega, by omega, by omega, by omega⟩, fun w W e1 e2 => by
    delta buildLane1
    simp [e1, W.fd, W.fa h4, W.fb h5, e2]
    try simp [fld]
    try omega⟩

theorem Round.bcnt (f : IntF) (d : Nat) (a : Src) : Round.Statement (.bcnt f d a) := by
  refine roundI rfl rfl rfl (by decide) fun hw => ?_
  change (Wf.int f f.t.isScalar true && Wf.v 1 d && Wf.src f.t.regs a) = true at hw
  simp only [Bool.and_eq_true] at hw
  have h1 := wfInt hw.1.1
  have h2 := wfV hw.1.2
  have h3 := wfSrc hw.2
  have ca := Src.code_lt a h3
  exact ⟨⟨by omega, by omega, by omega, by omega, by omega, by omega⟩, fun w W e1 e2 => by
    delta buildLane1
    simp [e1, W.fd, W.fa h3, e2]
    try simp [fld]
    try omega⟩

theorem Round.lzc (f : IntF) (d : Nat) (a : Src) : Round.Statement (.lzc f d a) := by
  refine roundI rfl rfl rfl (by decide) fun hw => ?_
  change (Wf.int f f.t.isScalar true && Wf.v 1 d && Wf.src f.t.regs a) = true at hw
  simp only [Bool.and_eq_true] at hw
  have h1 := wfInt hw.1.1
  have h2 := wfV hw.1.2
  have h3 := wfSrc hw.2
  have ca := Src.code_lt a h3
  exact ⟨⟨by omega, by omega, by omega, by omega, by omega, by omega⟩, fun w W e1 e2 => by
    delta buildLane1
    simp [e1, W.fd, W.fa h3, e2]
    try simp [fld]
    try omega⟩

theorem Round.bitrev (f : IntF) (d : Nat) (a : Src) : Round.Statement (.bitrev f d a) := by
  refine roundI rfl rfl rfl (by decide) fun hw => ?_
  change (Wf.int f f.t.isScalar true && Wf.v f.t.regs d && Wf.src f.t.regs a) = true at hw
  simp only [Bool.and_eq_true] at hw
  have h1 := wfInt hw.1.1
  have h2 := wfV hw.1.2
  have h3 := wfSrc hw.2
  have ca := Src.code_lt a h3
  exact ⟨⟨by omega, by omega, by omega, by omega, by omega, by omega⟩, fun w W e1 e2 => by
    delta buildLane1
    simp [e1, W.fd, W.fa h3, e2]
    try simp [fld]
    try omega⟩

theorem Round.xfld (f : IntF) (d : Nat) (a : Src) (b : Src) : Round.Statement (.xfld f d a b) := by
  refine roundI rfl rfl rfl (by decide) fun hw => ?_
  change (Wf.int f f.t.isScalar true && Wf.v f.t.regs d && Wf.src f.t.regs a && Wf.src 1 b) = true at hw
  simp only [Bool.and_eq_true] at hw
  have h1 := wfInt hw.1.1.1
  have h2 := wfV hw.1.1.2
  have h3 := wfSrc hw.1.2
  have ca := Src.code_lt a h3
  have h4 := wfSrc hw.2
  have cb := Src.code_lt b h4
  exact ⟨⟨by omega, by omega, by omega, by omega, by omega, by omega⟩, fun w W e1 e2 => by
    delta buildLane1
    simp [e1, W.fd, W.fa h3, W.fb h4, e2]
    try simp [fld]
    try omega⟩

theorem Round.ifld (f : IntF) (d : Nat) (a : Src) (b : Src) (c : Src) : Round.Statement (.ifld f d a b c) := by
  refine roundI rfl rfl rfl (by decide) fun hw => ?_
  change (Wf.int f f.t.isScalar true && Wf.v f.t.regs d && Wf.src f.t.regs a && Wf.src f.t.regs b && Wf.src 1 c) = true at hw
  simp only [Bool.and_eq_true] at hw
  have h1 := wfInt hw.1.1.1.1
  have h2 := wfV hw.1.1.1.2
  have h3 := wfSrc hw.1.1.2
  have ca := Src.code_lt a h3
  have h4 := wfSrc hw.1.2
  have cb := Src.code_lt b h4
  have h5 := wfSrc hw.2
  have cc := Src.code_lt c h5
  exact ⟨⟨by omega, by omega, by omega, by omega, by omega, by omega⟩, fun w W e1 e2 => by
    delta buildLane1
    simp [e1, W.fd, W.fa h3, W.fb h4, W.fc h5, e2]
    try simp [fld]
    try omega⟩

theorem Round.mkmask (f : IntF) (d : Nat) (a : Src) (b : Src) : Round.Statement (.mkmask f d a b) := by
  refine roundI rfl rfl rfl (by decide) fun hw => ?_
  change (Wf.int f f.t.isScalar true && Wf.v f.t.regs d && Wf.src 1 a && Wf.src 1 b) = true at hw
  simp only [Bool.and_eq_true] at hw
  have h1 := wfInt hw.1.1.1
  have h2 := wfV hw.1.1.2
  have h3 := wfSrc hw.1.2
  have ca := Src.code_lt a h3
  have h4 := wfSrc hw.2
  have cb := Src.code_lt b h4
  exact ⟨⟨by omega, by omega, by omega, by omega, by omega, by omega⟩, fun w W e1 e2 => by
    delta buildLane1
    simp [e1, W.fd, W.fa h3, W.fb h4, e2]
    try simp [fld]
    try omega⟩

theorem Round.cmp (f : IntF) (op : CmpOp) (d : Nat) (a : Src) (b : Src) (c : Nat) : Round.Statement (.cmp f op d a b c) := by
  refine roundI rfl rfl rfl (by decide) fun hw => ?_
  change (Wf.int f f.t.isScalar false && Wf.p d && Wf.src f.t.regs a && Wf.src f.t.regs b && Wf.p c) = true at hw
  simp only [Bool.and_eq_true] at hw
  have h1 := wfInt hw.1.1.1.1
  have h2 := wfP hw.1.1.1.2
  have h3 := wfSrc hw.1.1.2
  have ca := Src.code_lt a h3
  have h4 := wfSrc hw.1.2
  have cb := Src.code_lt b h4
  have h5 := wfP hw.2
  clear hw
  cases op
  all_goals
    exact ⟨⟨by omega, by omega, by omega, by omega, by omega, by first | decide | omega | (simp only [CmpOp.code]; omega)⟩, fun w W e1 e2 => by
      delta buildLane1
      simp [e1, W.fd, W.fa h3, W.fb h4, W.creg (by omega), e2, CmpOp.code]
      try simp [fld, CmpOp.ofCode]
      try omega⟩

theorem Round.cmpVi (f : IntF) (op : CmpOp) (d : Nat) (a : Src) (imm : Nat) : Round.Statement (.cmpVi f op d a imm) := by
  refine roundIVi rfl rfl rfl (by decide) fun hw => ?_
  change (Wf.int f f.t.isScalar false && Wf.p d && Wf.src f.t.regs a && Wf.imm20 imm) = true at hw
  simp only [Bool.and_eq_true] at hw
  have h1 := wfInt hw.1.1.1
  have h2 := wfP hw.1.1.2
  have h3 := wfSrc hw.1.2
  have ca := Src.code_lt a h3
  have h4 := wfI20 hw.2
  clear hw
  cases op
  all_goals
    exact ⟨⟨by omega, by omega, by omega, by omega, by first | decide | omega | (simp only [CmpOp.code]; omega)⟩, fun w W e1 e2 => by
      delta buildLane1
      simp [e1, W.fd, W.fimm, W.fa h3, e2, CmpOp.code]
      try simp [fld, CmpOp.ofCode]
      try omega⟩

theorem Round.pick (f : IntF) (p : Nat) (d : Nat) (a : Src) (b : Src) : Round.Statement (.pick f p d a b) := by
  refine roundI rfl rfl rfl (by decide) fun hw => ?_
  change (Wf.int f f.t.isScalar false && Wf.p p && Wf.v f.t.regs d && Wf.src f.t.regs a && Wf.src f.t.regs b) = true at hw
  simp only [Bool.and_eq_true] at hw
  have h1 := wfInt hw.1.1.1.1
  have h2 := wfP hw.1.1.1.2
  have h3 := wfV hw.1.1.2
  have h4 := wfSrc hw.1.2
  have ca := Src.code_lt a h4
  have h5 := wfSrc hw.2
  have cb := Src.code_lt b h5
  exact ⟨⟨by omega, by omega, by omega, by omega, by omega, by omega⟩, fun w W e1 e2 => by
    delta buildLane1
    simp [e1, W.fd, W.fa h4, W.fb h5, e2]
    try simp [fld]
    try omega⟩

theorem Round.pickVi (f : IntF) (p : Nat) (d : Nat) (a : Src) (imm : Nat) : Round.Statement (.pickVi f p d a imm) := by
  refine roundIVi rfl rfl rfl (by decide) fun hw => ?_
  change (Wf.int f f.t.isScalar false && Wf.p p && Wf.v f.t.regs d && Wf.src f.t.regs a && Wf.imm20 imm) = true at hw
  simp only [Bool.and_eq_true] at hw
  have h1 := wfInt hw.1.1.1.1
  have h2 := wfP hw.1.1.1.2
  have h3 := wfV hw.1.1.2
  have h4 := wfSrc hw.1.2
  have ca := Src.code_lt a h4
  have h5 := wfI20 hw.2
  exact ⟨⟨by omega, by omega, by omega, by omega, by omega⟩, fun w W e1 e2 => by
    delta buildLane1
    simp [e1, W.fd, W.fimm, W.fa h4, e2]
    try simp [fld]
    try omega⟩

theorem Round.mov (f : IntF) (d : Nat) (a : Src) : Round.Statement (.mov f d a) := by
  refine roundI rfl rfl rfl (by decide) fun hw => ?_
  change (Wf.int f f.t.isScalar false && Wf.v f.t.regs d && Wf.src f.t.regs a) = true at hw
  simp only [Bool.and_eq_true] at hw
  have h1 := wfInt hw.1.1
  have h2 := wfV hw.1.2
  have h3 := wfSrc hw.2
  have ca := Src.code_lt a h3
  exact ⟨⟨by omega, by omega, by omega, by omega, by omega, by omega⟩, fun w W e1 e2 => by
    delta buildLane1
    simp [e1, W.fd, W.fa h3, e2]
    try simp [fld]
    try omega⟩

theorem Round.movi (g : Guard) (d : Nat) (imm : Nat) : Round.Statement (.movi g d imm) := by
  refine roundVL rfl rfl rfl ⟨by decide, by decide, by decide⟩ fun hw => ?_
  change (Wf.guard g && Wf.v 1 d && Wf.imm32 imm) = true at hw
  simp only [Bool.and_eq_true] at hw
  have hd := wfV hw.1.2
  refine ⟨⟨wfG hw.1.1, by omega, wfI32 hw.2, by decide⟩, fun w e0 e1 e2 e3 => ?_⟩
  show buildLane1 25 w = _
  delta buildLane1
  simp [W.intF, e0, e1, e2]

theorem Round.fadd (f : FpF) (d : Nat) (a : Src) (b : Src) : Round.Statement (.fadd f d a b) := by
  refine roundF2 rfl rfl rfl (by decide) fun hw => ?_
  change (Wf.fp f true true false && Wf.v f.t.regs d && Wf.src f.t.regs a && Wf.src f.t.regs b) = true at hw
  simp only [Bool.and_eq_true] at hw
  have h1 := wfFp hw.1.1.1
  have h2 := wfV hw.1.1.2
  have h3 := wfSrc hw.1.2
  have ca := Src.code_lt a h3
  have h4 := wfSrc hw.2
  have cb := Src.code_lt b h4
  exact ⟨⟨by omega, by omega, by simpa using wfFpLa hw.1.1.1, by omega, by omega, by omega, by omega⟩, fun w W e1 e2 => by
    delta buildLane2
    simp [e1, e2, W.fd, W.fa h3, W.fb h4]
    try simp [fld]
    try omega⟩

theorem Round.faddVi (f : FpF) (d : Nat) (a : Src) (imm : Nat) : Round.Statement (.faddVi f d a imm) := by
  refine roundFVi rfl rfl rfl (by decide) fun hw => ?_
  change (Wf.fp f (Wf.fpImm f.t) true false && Wf.v f.t.regs d && Wf.src f.t.regs a && Wf.imm20 imm) = true at hw
  simp only [Bool.and_eq_true] at hw
  have h1 := wfFp hw.1.1.1
  have h2 := wfV hw.1.1.2
  have h3 := wfSrc hw.1.2
  have ca := Src.code_lt a h3
  have h4 := wfI20 hw.2
  exact ⟨⟨by omega, by omega, by simpa using wfFpLa hw.1.1.1, by omega, by omega, by omega⟩, fun w W e1 e2 => by
    delta buildLane2
    simp [e1, e2, W.fd, W.fimm, W.fa h3]
    try simp [fld]
    try omega⟩

theorem Round.fmul (f : FpF) (d : Nat) (a : Src) (b : Src) : Round.Statement (.fmul f d a b) := by
  refine roundF2 rfl rfl rfl (by decide) fun hw => ?_
  change (Wf.fp f true true false && Wf.v f.t.regs d && Wf.src f.t.regs a && Wf.src f.t.regs b) = true at hw
  simp only [Bool.and_eq_true] at hw
  have h1 := wfFp hw.1.1.1
  have h2 := wfV hw.1.1.2
  have h3 := wfSrc hw.1.2
  have ca := Src.code_lt a h3
  have h4 := wfSrc hw.2
  have cb := Src.code_lt b h4
  exact ⟨⟨by omega, by omega, by simpa using wfFpLa hw.1.1.1, by omega, by omega, by omega, by omega⟩, fun w W e1 e2 => by
    delta buildLane2
    simp [e1, e2, W.fd, W.fa h3, W.fb h4]
    try simp [fld]
    try omega⟩

theorem Round.fmulVi (f : FpF) (d : Nat) (a : Src) (imm : Nat) : Round.Statement (.fmulVi f d a imm) := by
  refine roundFVi rfl rfl rfl (by decide) fun hw => ?_
  change (Wf.fp f (Wf.fpImm f.t) true false && Wf.v f.t.regs d && Wf.src f.t.regs a && Wf.imm20 imm) = true at hw
  simp only [Bool.and_eq_true] at hw
  have h1 := wfFp hw.1.1.1
  have h2 := wfV hw.1.1.2
  have h3 := wfSrc hw.1.2
  have ca := Src.code_lt a h3
  have h4 := wfI20 hw.2
  exact ⟨⟨by omega, by omega, by simpa using wfFpLa hw.1.1.1, by omega, by omega, by omega⟩, fun w W e1 e2 => by
    delta buildLane2
    simp [e1, e2, W.fd, W.fimm, W.fa h3]
    try simp [fld]
    try omega⟩

theorem Round.fma (f : FpF) (d : Nat) (a : Src) (b : Src) (c : Src) : Round.Statement (.fma f d a b c) := by
  refine roundF2 rfl rfl rfl (by decide) fun hw => ?_
  change (Wf.fp f true true false && Wf.v f.t.regs d && Wf.src f.t.regs a && Wf.src f.t.regs b && Wf.src f.t.regs c) = true at hw
  simp only [Bool.and_eq_true] at hw
  have h1 := wfFp hw.1.1.1.1
  have h2 := wfV hw.1.1.1.2
  have h3 := wfSrc hw.1.1.2
  have ca := Src.code_lt a h3
  have h4 := wfSrc hw.1.2
  have cb := Src.code_lt b h4
  have h5 := wfSrc hw.2
  have cc := Src.code_lt c h5
  exact ⟨⟨by omega, by omega, by simpa using wfFpLa hw.1.1.1.1, by omega, by omega, by omega, by omega⟩, fun w W e1 e2 => by
    delta buildLane2
    simp [e1, e2, W.fd, W.fa h3, W.fb h4, W.fc h5]
    try simp [fld]
    try omega⟩

theorem Round.fmin (f : FpF) (d : Nat) (a : Src) (b : Src) : Round.Statement (.fmin f d a b) := by
  refine roundF2 rfl rfl rfl (by decide) fun hw => ?_
  change (Wf.fp f true true true && Wf.v f.t.regs d && Wf.src f.t.regs a && Wf.src f.t.regs b) = true at hw
  simp only [Bool.and_eq_true] at hw
  have h1 := wfFp hw.1.1.1
  have h2 := wfV hw.1.1.2
  have h3 := wfSrc hw.1.2
  have ca := Src.code_lt a h3
  have h4 := wfSrc hw.2
  have cb := Src.code_lt b h4
  exact ⟨⟨by omega, by omega, by simpa using wfFpLa hw.1.1.1, by omega, by omega, by omega, by omega⟩, fun w W e1 e2 => by
    delta buildLane2
    simp [e1, e2, W.fd, W.fa h3, W.fb h4]
    try simp [fld]
    try omega⟩

theorem Round.fminVi (f : FpF) (d : Nat) (a : Src) (imm : Nat) : Round.Statement (.fminVi f d a imm) := by
  refine roundFVi rfl rfl rfl (by decide) fun hw => ?_
  change (Wf.fp f (Wf.fpImm f.t) true true && Wf.v f.t.regs d && Wf.src f.t.regs a && Wf.imm20 imm) = true at hw
  simp only [Bool.and_eq_true] at hw
  have h1 := wfFp hw.1.1.1
  have h2 := wfV hw.1.1.2
  have h3 := wfSrc hw.1.2
  have ca := Src.code_lt a h3
  have h4 := wfI20 hw.2
  exact ⟨⟨by omega, by omega, by simpa using wfFpLa hw.1.1.1, by omega, by omega, by omega⟩, fun w W e1 e2 => by
    delta buildLane2
    simp [e1, e2, W.fd, W.fimm, W.fa h3]
    try simp [fld]
    try omega⟩

theorem Round.fmax (f : FpF) (d : Nat) (a : Src) (b : Src) : Round.Statement (.fmax f d a b) := by
  refine roundF2 rfl rfl rfl (by decide) fun hw => ?_
  change (Wf.fp f true true true && Wf.v f.t.regs d && Wf.src f.t.regs a && Wf.src f.t.regs b) = true at hw
  simp only [Bool.and_eq_true] at hw
  have h1 := wfFp hw.1.1.1
  have h2 := wfV hw.1.1.2
  have h3 := wfSrc hw.1.2
  have ca := Src.code_lt a h3
  have h4 := wfSrc hw.2
  have cb := Src.code_lt b h4
  exact ⟨⟨by omega, by omega, by simpa using wfFpLa hw.1.1.1, by omega, by omega, by omega, by omega⟩, fun w W e1 e2 => by
    delta buildLane2
    simp [e1, e2, W.fd, W.fa h3, W.fb h4]
    try simp [fld]
    try omega⟩

theorem Round.fmaxVi (f : FpF) (d : Nat) (a : Src) (imm : Nat) : Round.Statement (.fmaxVi f d a imm) := by
  refine roundFVi rfl rfl rfl (by decide) fun hw => ?_
  change (Wf.fp f (Wf.fpImm f.t) true true && Wf.v f.t.regs d && Wf.src f.t.regs a && Wf.imm20 imm) = true at hw
  simp only [Bool.and_eq_true] at hw
  have h1 := wfFp hw.1.1.1
  have h2 := wfV hw.1.1.2
  have h3 := wfSrc hw.1.2
  have ca := Src.code_lt a h3
  have h4 := wfI20 hw.2
  exact ⟨⟨by omega, by omega, by simpa using wfFpLa hw.1.1.1, by omega, by omega, by omega⟩, fun w W e1 e2 => by
    delta buildLane2
    simp [e1, e2, W.fd, W.fimm, W.fa h3]
    try simp [fld]
    try omega⟩

theorem Round.fcmp (g : Guard) (t : FpTy) (op : FCmpOp) (u : Bool) (d : Nat) (a : Src) (b : Src) (c : Nat) : Round.Statement (.fcmp g t op u d a b c) := by
  refine roundV rfl rfl rfl ⟨by decide, by decide, by decide⟩ fun hw => ?_
  change (Wf.guard g && Wf.fcmpTy t && (!u || (op != .num && op != .nan)) && Wf.p d && Wf.src t.regs a && Wf.src t.regs b && Wf.p c) = true at hw
  simp only [Bool.and_eq_true] at hw
  have h1 := wfG hw.1.1.1.1.1.1
  have h2 := wfP hw.1.1.1.2
  have h3 := wfSrc hw.1.1.2
  have h4 := wfSrc hw.1.2
  have h5 := wfP hw.2
  have ca := a.code_lt h3
  have cb := b.code_lt h4
  have ht := t.code_lt
  have ho : op.code < 8 := by cases op <;> decide
  have hu := natOf_lt u
  refine ⟨⟨h1, by decide, by omega, ca, cb, by omega, by omega⟩, fun w W => ?_⟩
  obtain ⟨e1, e2, e3⟩ := fcmpMod t op u W.inMod
  show buildLane2 5 w = _
  delta buildLane2
  simp [e1, e2, e3, W.head.fg, W.fd, W.fa h3, W.fb h4, W.creg (by omega)]

theorem Round.fcmpVi (g : Guard) (t : FpTy) (op : FCmpOp) (u : Bool) (d : Nat) (a : Src) (imm : Nat) : Round.Statement (.fcmpVi g t op u d a imm) := by
  refine roundVI rfl rfl rfl ⟨by decide, by decide, by decide⟩ fun hw => ?_
  change (Wf.guard g && (t == .f32 || t == .f64) && (!u || (op != .num && op != .nan)) && Wf.p d && Wf.src t.regs a && Wf.imm20 imm) = true at hw
  simp only [Bool.and_eq_true] at hw
  have h1 := wfG hw.1.1.1.1.1
  have h2 := wfP hw.1.1.2
  have h3 := wfSrc hw.1.2
  have h4 := wfI20 hw.2
  have ca := a.code_lt h3
  have ht := t.code_lt
  have ho : op.code < 8 := by cases op <;> decide
  have hu := natOf_lt u
  refine ⟨⟨h1, by decide, by omega, ca, h4, by omega⟩, fun w W => ?_⟩
  obtain ⟨e1, e2, e3⟩ := fcmpMod t op u W.inMod
  show buildLane2 37 w = _
  delta buildLane2
  simp [e1, e2, e3, W.head.fg, W.fd, W.fa h3, W.fimm]

theorem Round.fclass (g : Guard) (t : FpTy) (d : Nat) (a : Src) : Round.Statement (.fclass g t d a) := by
  refine roundV rfl rfl rfl ⟨by decide, by decide, by decide⟩ fun hw => ?_
  change (Wf.guard g && Wf.fcmpTy t && Wf.v 1 d && Wf.src t.regs a) = true at hw
  simp only [Bool.and_eq_true] at hw
  have h1 := wfG hw.1.1.1
  have x1 := hw.1.1.2
  have h2 := wfV hw.1.2
  have h3 := wfSrc hw.2
  have ca := Src.code_lt a h3
  clear hw
  cases t
  all_goals
    exact ⟨⟨by omega, by omega, by omega, by omega, by omega, by omega, by first | decide | omega | (simp only [FpTy.code]; omega)⟩, fun w W => by
      show buildLane2 6 w = _
      delta buildLane2
      simp [W.head.fg, W.fd, W.fa h3, W.inMod, FpTy.code]
      try simp [fld, FpTy.ofCode]
      try omega⟩

theorem Round.fabs (f : FpF) (d : Nat) (a : Src) : Round.Statement (.fabs f d a) := by
  refine roundF2 rfl rfl rfl (by decide) fun hw => ?_
  change (Wf.fp f true false true && Wf.v f.t.regs d && Wf.src f.t.regs a) = true at hw
  simp only [Bool.and_eq_true] at hw
  have h1 := wfFp hw.1.1
  have h2 := wfV hw.1.2
  have h3 := wfSrc hw.2
  have ca := Src.code_lt a h3
  exact ⟨⟨by omega, by omega, by simpa using wfFpLa hw.1.1, by omega, by omega, by omega, by omega⟩, fun w W e1 e2 => by
    delta buildLane2
    simp [e1, e2, W.fd, W.fa h3]
    try simp [fld]
    try omega⟩

theorem Round.fneg (f : FpF) (d : Nat) (a : Src) : Round.Statement (.fneg f d a) := by
  refine roundF2 rfl rfl rfl (by decide) fun hw => ?_
  change (Wf.fp f true false true && Wf.v f.t.regs d && Wf.src f.t.regs a) = true at hw
  simp only [Bool.and_eq_true] at hw
  have h1 := wfFp hw.1.1
  have h2 := wfV hw.1.2
  have h3 := wfSrc hw.2
  have ca := Src.code_lt a h3
  exact ⟨⟨by omega, by omega, by simpa using wfFpLa hw.1.1, by omega, by omega, by omega, by omega⟩, fun w W e1 e2 => by
    delta buildLane2
    simp [e1, e2, W.fd, W.fa h3]
    try simp [fld]
    try omega⟩

theorem Round.fround (f : FpF) (d : Nat) (a : Src) : Round.Statement (.fround f d a) := by
  refine roundF2 rfl rfl rfl (by decide) fun hw => ?_
  change (Wf.fp f true true false && Wf.v f.t.regs d && Wf.src f.t.regs a) = true at hw
  simp only [Bool.and_eq_true] at hw
  have h1 := wfFp hw.1.1
  have h2 := wfV hw.1.2
  have h3 := wfSrc hw.2
  have ca := Src.code_lt a h3
  exact ⟨⟨by omega, by omega, by simpa using wfFpLa hw.1.1, by omega, by omega, by omega, by omega⟩, fun w W e1 e2 => by
    delta buildLane2
    simp [e1, e2, W.fd, W.fa h3]
    try simp [fld]
    try omega⟩

theorem Round.fdot2 (f : FpF) (d : Nat) (a : Src) (b : Src) (c : Src) : Round.Statement (.fdot2 f d a b c) := by
  refine roundF2 rfl rfl rfl (by decide) fun hw => ?_
  change (Wf.fp f (f.t == .f16x2 || f.t == .bf16x2) true false && Wf.v 1 d && Wf.src 1 a && Wf.src 1 b && Wf.src 1 c) = true at hw
  simp only [Bool.and_eq_true] at hw
  have h1 := wfFp hw.1.1.1.1
  have h2 := wfV hw.1.1.1.2
  have h3 := wfSrc hw.1.1.2
  have ca := Src.code_lt a h3
  have h4 := wfSrc hw.1.2
  have cb := Src.code_lt b h4
  have h5 := wfSrc hw.2
  have cc := Src.code_lt c h5
  exact ⟨⟨by omega, by omega, by simpa using wfFpLa hw.1.1.1.1, by omega, by omega, by omega, by omega⟩, fun w W e1 e2 => by
    delta buildLane2
    simp [e1, e2, W.fd, W.fa h3, W.fb h4, W.fc h5]
    try simp [fld]
    try omega⟩

theorem Round.fscale (f : FpF) (d : Nat) (a : Src) (b : Src) : Round.Statement (.fscale f d a b) := by
  refine roundF2 rfl rfl rfl (by decide) fun hw => ?_
  change (Wf.fp f (f.t == .f32 || f.t == .f64) true false && Wf.v f.t.regs d && Wf.src f.t.regs a && Wf.src 1 b) = true at hw
  simp only [Bool.and_eq_true] at hw
  have h1 := wfFp hw.1.1.1
  have h2 := wfV hw.1.1.2
  have h3 := wfSrc hw.1.2
  have ca := Src.code_lt a h3
  have h4 := wfSrc hw.2
  have cb := Src.code_lt b h4
  exact ⟨⟨by omega, by omega, by simpa using wfFpLa hw.1.1.1, by omega, by omega, by omega, by omega⟩, fun w W e1 e2 => by
    delta buildLane2
    simp [e1, e2, W.fd, W.fa h3, W.fb h4]
    try simp [fld]
    try omega⟩

theorem Round.f8add (f : F8F) (d : Nat) (a : Src) (b : Src) : Round.Statement (.f8add f d a b) := by
  refine roundF8 rfl rfl rfl (by decide) fun hw => ?_
  change (Wf.f8 f false && Wf.v 1 d && Wf.src 1 a && Wf.src 1 b) = true at hw
  simp only [Bool.and_eq_true] at hw
  have h1 := wfF8 hw.1.1.1
  have h2 := wfV hw.1.1.2
  have h3 := wfSrc hw.1.2
  have ca := Src.code_lt a h3
  have h4 := wfSrc hw.2
  have cb := Src.code_lt b h4
  exact ⟨⟨by omega, by omega, by omega, by omega, by omega⟩, fun w W e1 e2 e3 => by
    delta buildLane2
    simp [e1, e2, e3, W.fd, W.fa h3, W.fb h4]
    try simp [fld]
    try omega⟩

theorem Round.f8mul (f : F8F) (d : Nat) (a : Src) (b : Src) : Round.Statement (.f8mul f d a b) := by
  refine roundF8 rfl rfl rfl (by decide) fun hw => ?_
  change (Wf.f8 f false && Wf.v 1 d && Wf.src 1 a && Wf.src 1 b) = true at hw
  simp only [Bool.and_eq_true] at hw
  have h1 := wfF8 hw.1.1.1
  have h2 := wfV hw.1.1.2
  have h3 := wfSrc hw.1.2
  have ca := Src.code_lt a h3
  have h4 := wfSrc hw.2
  have cb := Src.code_lt b h4
  exact ⟨⟨by omega, by omega, by omega, by omega, by omega⟩, fun w W e1 e2 e3 => by
    delta buildLane2
    simp [e1, e2, e3, W.fd, W.fa h3, W.fb h4]
    try simp [fld]
    try omega⟩

theorem Round.f8fma (f : F8F) (d : Nat) (a : Src) (b : Src) (c : Src) : Round.Statement (.f8fma f d a b c) := by
  refine roundF8 rfl rfl rfl (by decide) fun hw => ?_
  change (Wf.f8 f false && Wf.v 1 d && Wf.src 1 a && Wf.src 1 b && Wf.src 1 c) = true at hw
  simp only [Bool.and_eq_true] at hw
  have h1 := wfF8 hw.1.1.1.1
  have h2 := wfV hw.1.1.1.2
  have h3 := wfSrc hw.1.1.2
  have ca := Src.code_lt a h3
  have h4 := wfSrc hw.1.2
  have cb := Src.code_lt b h4
  have h5 := wfSrc hw.2
  have cc := Src.code_lt c h5
  exact ⟨⟨by omega, by omega, by omega, by omega, by omega⟩, fun w W e1 e2 e3 => by
    delta buildLane2
    simp [e1, e2, e3, W.fd, W.fa h3, W.fb h4, W.fc h5]
    try simp [fld]
    try omega⟩

theorem Round.f8min (f : F8F) (d : Nat) (a : Src) (b : Src) : Round.Statement (.f8min f d a b) := by
  refine roundF8 rfl rfl rfl (by decide) fun hw => ?_
  change (Wf.f8 f true && Wf.v 1 d && Wf.src 1 a && Wf.src 1 b) = true at hw
  simp only [Bool.and_eq_true] at hw
  have h1 := wfF8 hw.1.1.1
  have h2 := wfV hw.1.1.2
  have h3 := wfSrc hw.1.2
  have ca := Src.code_lt a h3
  have h4 := wfSrc hw.2
  have cb := Src.code_lt b h4
  exact ⟨⟨by omega, by omega, by omega, by omega, by omega⟩, fun w W e1 e2 e3 => by
    delta buildLane2
    simp [e1, e2, e3, W.fd, W.fa h3, W.fb h4]
    try simp [fld]
    try omega⟩

theorem Round.f8max (f : F8F) (d : Nat) (a : Src) (b : Src) : Round.Statement (.f8max f d a b) := by
  refine roundF8 rfl rfl rfl (by decide) fun hw => ?_
  change (Wf.f8 f true && Wf.v 1 d && Wf.src 1 a && Wf.src 1 b) = true at hw
  simp only [Bool.and_eq_true] at hw
  have h1 := wfF8 hw.1.1.1
  have h2 := wfV hw.1.1.2
  have h3 := wfSrc hw.1.2
  have ca := Src.code_lt a h3
  have h4 := wfSrc hw.2
  have cb := Src.code_lt b h4
  exact ⟨⟨by omega, by omega, by omega, by omega, by omega⟩, fun w W e1 e2 e3 => by
    delta buildLane2
    simp [e1, e2, e3, W.fd, W.fa h3, W.fb h4]
    try simp [fld]
    try omega⟩

theorem Round.recip (f : FpF) (d : Nat) (a : Src) : Round.Statement (.recip f d a) := by
  refine roundF3 rfl rfl rfl (by decide) fun hw => ?_
  change (Wf.sfu f true false && Wf.v f.t.regs d && Wf.src f.t.regs a) = true at hw
  simp only [Bool.and_eq_true] at hw
  have h1 := wfSfu hw.1.1
  have h2 := wfV hw.1.2
  have h3 := wfSrc hw.2
  have ca := Src.code_lt a h3
  exact ⟨⟨by omega, by omega, by omega, by omega, by omega, by omega⟩, fun w W e1 e2 => by
    delta buildLane3
    simp [e1, e2, W.fla, W.fd, W.fa h3]
    try simp [fld]
    try omega⟩

theorem Round.rsqrt (f : FpF) (d : Nat) (a : Src) : Round.Statement (.rsqrt f d a) := by
  refine roundF3 rfl rfl rfl (by decide) fun hw => ?_
  change (Wf.sfu f true false && Wf.v f.t.regs d && Wf.src f.t.regs a) = true at hw
  simp only [Bool.and_eq_true] at hw
  have h1 := wfSfu hw.1.1
  have h2 := wfV hw.1.2
  have h3 := wfSrc hw.2
  have ca := Src.code_lt a h3
  exact ⟨⟨by omega, by omega, by omega, by omega, by omega, by omega⟩, fun w W e1 e2 => by
    delta buildLane3
    simp [e1, e2, W.fla, W.fd, W.fa h3]
    try simp [fld]
    try omega⟩

theorem Round.sqrt (f : FpF) (d : Nat) (a : Src) : Round.Statement (.sqrt f d a) := by
  refine roundF3 rfl rfl rfl (by decide) fun hw => ?_
  change (Wf.sfu f true false && Wf.v f.t.regs d && Wf.src f.t.regs a) = true at hw
  simp only [Bool.and_eq_true] at hw
  have h1 := wfSfu hw.1.1
  have h2 := wfV hw.1.2
  have h3 := wfSrc hw.2
  have ca := Src.code_lt a h3
  exact ⟨⟨by omega, by omega, by omega, by omega, by omega, by omega⟩, fun w W e1 e2 => by
    delta buildLane3
    simp [e1, e2, W.fla, W.fd, W.fa h3]
    try simp [fld]
    try omega⟩

theorem Round.exp2 (f : FpF) (d : Nat) (a : Src) : Round.Statement (.exp2 f d a) := by
  refine roundF3 rfl rfl rfl (by decide) fun hw => ?_
  change (Wf.sfu f false true && Wf.v f.t.regs d && Wf.src f.t.regs a) = true at hw
  simp only [Bool.and_eq_true] at hw
  have h1 := wfSfu hw.1.1
  have h2 := wfV hw.1.2
  have h3 := wfSrc hw.2
  have ca := Src.code_lt a h3
  exact ⟨⟨by omega, by omega, by omega, by omega, by omega, by omega⟩, fun w W e1 e2 => by
    delta buildLane3
    simp [e1, e2, W.fla, W.fd, W.fa h3]
    try simp [fld]
    try omega⟩

theorem Round.log2 (f : FpF) (d : Nat) (a : Src) : Round.Statement (.log2 f d a) := by
  refine roundF3 rfl rfl rfl (by decide) fun hw => ?_
  change (Wf.sfu f false true && Wf.v f.t.regs d && Wf.src f.t.regs a) = true at hw
  simp only [Bool.and_eq_true] at hw
  have h1 := wfSfu hw.1.1
  have h2 := wfV hw.1.2
  have h3 := wfSrc hw.2
  have ca := Src.code_lt a h3
  exact ⟨⟨by omega, by omega, by omega, by omega, by omega, by omega⟩, fun w W e1 e2 => by
    delta buildLane3
    simp [e1, e2, W.fla, W.fd, W.fa h3]
    try simp [fld]
    try omega⟩

theorem Round.sin (f : FpF) (d : Nat) (a : Src) : Round.Statement (.sin f d a) := by
  refine roundF3 rfl rfl rfl (by decide) fun hw => ?_
  change (Wf.sfu f false true && Wf.v f.t.regs d && Wf.src f.t.regs a) = true at hw
  simp only [Bool.and_eq_true] at hw
  have h1 := wfSfu hw.1.1
  have h2 := wfV hw.1.2
  have h3 := wfSrc hw.2
  have ca := Src.code_lt a h3
  exact ⟨⟨by omega, by omega, by omega, by omega, by omega, by omega⟩, fun w W e1 e2 => by
    delta buildLane3
    simp [e1, e2, W.fla, W.fd, W.fa h3]
    try simp [fld]
    try omega⟩

theorem Round.cos (f : FpF) (d : Nat) (a : Src) : Round.Statement (.cos f d a) := by
  refine roundF3 rfl rfl rfl (by decide) fun hw => ?_
  change (Wf.sfu f false true && Wf.v f.t.regs d && Wf.src f.t.regs a) = true at hw
  simp only [Bool.and_eq_true] at hw
  have h1 := wfSfu hw.1.1
  have h2 := wfV hw.1.2
  have h3 := wfSrc hw.2
  have ca := Src.code_lt a h3
  exact ⟨⟨by omega, by omega, by omega, by omega, by omega, by omega⟩, fun w W e1 e2 => by
    delta buildLane3
    simp [e1, e2, W.fla, W.fd, W.fa h3]
    try simp [fld]
    try omega⟩

theorem Round.tanh (f : FpF) (d : Nat) (a : Src) : Round.Statement (.tanh f d a) := by
  refine roundF3 rfl rfl rfl (by decide) fun hw => ?_
  change (Wf.sfu f false true && Wf.v f.t.regs d && Wf.src f.t.regs a) = true at hw
  simp only [Bool.and_eq_true] at hw
  have h1 := wfSfu hw.1.1
  have h2 := wfV hw.1.2
  have h3 := wfSrc hw.2
  have ca := Src.code_lt a h3
  exact ⟨⟨by omega, by omega, by omega, by omega, by omega, by omega⟩, fun w W e1 e2 => by
    delta buildLane3
    simp [e1, e2, W.fla, W.fd, W.fa h3]
    try simp [fld]
    try omega⟩

theorem Round.cvt (f : CvtF) (d : Nat) (a : Src) : Round.Statement (.cvt f d a) := by
  refine roundCvt rfl rfl rfl (by decide) fun hw => ?_
  change (Wf.cvtF f f.fd.isFloat f.fs.isFloat && Wf.v f.fd.regs d && Wf.src f.fs.regs a) = true at hw
  simp only [Bool.and_eq_true] at hw
  have h1 := wfCvt hw.1.1
  have h2 := wfV hw.1.2
  have h3 := wfSrc hw.2
  have ca := Src.code_lt a h3
  exact ⟨⟨by omega, by omega, by omega, by omega, by omega⟩, fun w W e1 e2 e3 e4 => by
    delta buildLane3
    simp [e1, e2, e3, e4, W.fd, W.fa h3]
    try simp [fld]
    try omega⟩

theorem Round.cvti (f : CvtF) (d : Nat) (a : Src) : Round.Statement (.cvti f d a) := by
  refine roundCvt rfl rfl rfl (by decide) fun hw => ?_
  change (Wf.cvtF f f.fd.isInt f.fs.isWide && Wf.v f.fd.regs d && Wf.src f.fs.regs a) = true at hw
  simp only [Bool.and_eq_true] at hw
  have h1 := wfCvt hw.1.1
  have h2 := wfV hw.1.2
  have h3 := wfSrc hw.2
  have ca := Src.code_lt a h3
  exact ⟨⟨by omega, by omega, by omega, by omega, by omega⟩, fun w W e1 e2 e3 e4 => by
    delta buildLane3
    simp [e1, e2, e3, e4, W.fd, W.fa h3]
    try simp [fld]
    try omega⟩

theorem Round.cvtf (f : CvtF) (d : Nat) (a : Src) : Round.Statement (.cvtf f d a) := by
  refine roundCvt rfl rfl rfl (by decide) fun hw => ?_
  change (Wf.cvtF f f.fd.isWide f.fs.isInt && Wf.v f.fd.regs d && Wf.src f.fs.regs a) = true at hw
  simp only [Bool.and_eq_true] at hw
  have h1 := wfCvt hw.1.1
  have h2 := wfV hw.1.2
  have h3 := wfSrc hw.2
  have ca := Src.code_lt a h3
  exact ⟨⟨by omega, by omega, by omega, by omega, by omega⟩, fun w W e1 e2 e3 e4 => by
    delta buildLane3
    simp [e1, e2, e3, e4, W.fd, W.fa h3]
    try simp [fld]
    try omega⟩

theorem Round.cvtsr (f : CvtF) (d : Nat) (a : Src) (c : Src) : Round.Statement (.cvtsr f d a c) := by
  refine roundCvt rfl rfl rfl (by decide) fun hw => ?_
  change (Wf.cvtF f (f.fd.isFloat && f.fd != .f32 && f.fd != .f64) (f.fs == .f32) && f.rm == .rn && Wf.v 1 d && Wf.src 1 a && Wf.src 1 c) = true at hw
  simp only [Bool.and_eq_true] at hw
  have h1 := wfCvt hw.1.1.1.1
  have x1 := hw.1.1.1.2
  have h2 := wfV hw.1.1.2
  have h3 := wfSrc hw.1.2
  have ca := Src.code_lt a h3
  have h4 := wfSrc hw.2
  have cc := Src.code_lt c h4
  exact ⟨⟨by omega, by omega, by omega, by omega, by omega⟩, fun w W e1 e2 e3 e4 => by
    delta buildLane3
    simp [e1, e2, e3, e4, W.fd, W.fa h3, W.fc h4]
    try simp [fld]
    try omega⟩

theorem Round.mxq (f : CvtF) (d : Nat) (a : Src) : Round.Statement (.mxq f d a) := by
  refine roundCvt rfl rfl rfl (by decide) fun hw => ?_
  change (Wf.cvtF f f.fd.isMx (f.fs == .f32) && Wf.v 1 d && Wf.src 1 a) = true at hw
  simp only [Bool.and_eq_true] at hw
  have h1 := wfCvt hw.1.1
  have h2 := wfV hw.1.2
  have h3 := wfSrc hw.2
  have ca := Src.code_lt a h3
  exact ⟨⟨by omega, by omega, by omega, by omega, by omega⟩, fun w W e1 e2 e3 e4 => by
    delta buildLane3
    simp [e1, e2, e3, e4, W.fd, W.fa h3]
    try simp [fld]
    try omega⟩

theorem Round.mxdq (f : CvtF) (d : Nat) (a : Src) : Round.Statement (.mxdq f d a) := by
  refine roundCvt rfl rfl rfl (by decide) fun hw => ?_
  change (Wf.cvtF f (f.fd == .f32) f.fs.isMx && Wf.v 1 d && Wf.src 1 a) = true at hw
  simp only [Bool.and_eq_true] at hw
  have h1 := wfCvt hw.1.1
  have h2 := wfV hw.1.2
  have h3 := wfSrc hw.2
  have ca := Src.code_lt a h3
  exact ⟨⟨by omega, by omega, by omega, by omega, by omega⟩, fun w W e1 e2 e3 e4 => by
    delta buildLane3
    simp [e1, e2, e3, e4, W.fd, W.fa h3]
    try simp [fld]
    try omega⟩

theorem Round.pkcvt (f : CvtF) (d : Nat) (a : Src) (b : Src) : Round.Statement (.pkcvt f d a b) := by
  refine roundCvt rfl rfl rfl (by decide) fun hw => ?_
  change (let n := if f.fd == .e4m3 || f.fd == .e5m2 then 2 else 1; Wf.cvtF f (f.fd == .f16 || f.fd == .bf16 || f.fd == .e4m3 || f.fd == .e5m2) (f.fs == .f32) && Wf.v 1 d && Wf.src n a && Wf.src n b) = true at hw
  simp only [Bool.and_eq_true] at hw
  have h1 := wfCvt hw.1.1.1
  have h2 := wfV hw.1.1.2
  have h3 := wfSrc hw.1.2
  have ca := Src.code_lt a h3
  have h4 := wfSrc hw.2
  have cb := Src.code_lt b h4
  exact ⟨⟨by omega, by omega, by omega, by omega, by omega⟩, fun w W e1 e2 e3 e4 => by
    delta buildLane3
    simp [e1, e2, e3, e4, W.fd, W.fa h3, W.fc h4]
    try simp [fld]
    try omega⟩

theorem Round.xlane (g : Guard) (la : Nat) (mode : XMode) (p : Nat) (d : Nat) (a : Src) (b : Src) : Round.Statement (.xlane g la mode p d a b) := by
  refine roundV rfl rfl rfl ⟨by decide, by decide, by decide⟩ fun hw => ?_
  change (Wf.guard g && Wf.la la && Wf.p p && Wf.v 1 d && Wf.src 1 a && Wf.src 1 b) = true at hw
  simp only [Bool.and_eq_true] at hw
  have h1 := wfG hw.1.1.1.1.1
  have h2 := wfLa hw.1.1.1.1.2
  have h3 := wfP hw.1.1.1.2
  have h4 := wfV hw.1.1.2
  have h5 := wfSrc hw.1.2
  have ca := Src.code_lt a h5
  have h6 := wfSrc hw.2
  have cb := Src.code_lt b h6
  clear hw
  cases mode
  all_goals
    exact ⟨⟨by omega, by omega, by omega, by omega, by omega, by omega, by first | decide | omega | (simp only [XMode.code]; omega)⟩, fun w W => by
      show buildLane4 0 w = _
      delta buildLane4
      simp [W.head.fg, W.fla, W.fd, W.fa h5, W.fb h6, W.inMod, XMode.code]
      try simp [fld, XMode.ofCode]
      try omega⟩

theorem Round.pollMask (g : Guard) (d : Nat) (p : Nat) : Round.Statement (.pollMask g d p) := by
  refine roundV rfl rfl rfl ⟨by decide, by decide, by decide⟩ fun hw => ?_
  change (Wf.guard g && Wf.v 1 d && Wf.p p) = true at hw
  simp only [Bool.and_eq_true] at hw
  have h1 := wfG hw.1.1
  have h2 := wfV hw.1.2
  have h3 := wfP hw.2
  exact ⟨⟨by omega, by omega, by omega, by omega, by omega, by omega, by omega⟩, fun w W => by
    show buildLane4 1 w = _
    delta buildLane4
    simp [W.head.fg, W.fd, W.fmod, W.areg (by omega)]
    try simp [fld]
    try omega⟩

theorem Round.pollAny (g : Guard) (d : Nat) (p : Nat) : Round.Statement (.pollAny g d p) := by
  refine roundV rfl rfl rfl ⟨by decide, by decide, by decide⟩ fun hw => ?_
  change (Wf.guard g && Wf.p d && Wf.p p) = true at hw
  simp only [Bool.and_eq_true] at hw
  have h1 := wfG hw.1.1
  have h2 := wfP hw.1.2
  have h3 := wfP hw.2
  exact ⟨⟨by omega, by omega, by omega, by omega, by omega, by omega, by omega⟩, fun w W => by
    show buildLane4 1 w = _
    delta buildLane4
    simp [W.head.fg, W.fd, W.fmod, W.areg (by omega)]
    try simp [fld]
    try omega⟩

theorem Round.pollAll (g : Guard) (d : Nat) (p : Nat) : Round.Statement (.pollAll g d p) := by
  refine roundV rfl rfl rfl ⟨by decide, by decide, by decide⟩ fun hw => ?_
  change (Wf.guard g && Wf.p d && Wf.p p) = true at hw
  simp only [Bool.and_eq_true] at hw
  have h1 := wfG hw.1.1
  have h2 := wfP hw.1.2
  have h3 := wfP hw.2
  exact ⟨⟨by omega, by omega, by omega, by omega, by omega, by omega, by omega⟩, fun w W => by
    show buildLane4 1 w = _
    delta buildLane4
    simp [W.head.fg, W.fd, W.fmod, W.areg (by omega)]
    try simp [fld]
    try omega⟩

theorem Round.pollSame (g : Guard) (d : Nat) (p : Nat) : Round.Statement (.pollSame g d p) := by
  refine roundV rfl rfl rfl ⟨by decide, by decide, by decide⟩ fun hw => ?_
  change (Wf.guard g && Wf.p d && Wf.p p) = true at hw
  simp only [Bool.and_eq_true] at hw
  have h1 := wfG hw.1.1
  have h2 := wfP hw.1.2
  have h3 := wfP hw.2
  exact ⟨⟨by omega, by omega, by omega, by omega, by omega, by omega, by omega⟩, fun w W => by
    show buildLane4 1 w = _
    delta buildLane4
    simp [W.head.fg, W.fd, W.fmod, W.areg (by omega)]
    try simp [fld]
    try omega⟩

theorem Round.wred (g : Guard) (la : Nat) (op : RedForm) (d : Nat) (a : Src) : Round.Statement (.wred g la op d a) := by
  refine roundV rfl rfl rfl ⟨by decide, by decide, by decide⟩ fun hw => ?_
  change (Wf.guard g && Wf.la la && Wf.redForm op && Wf.v (Wf.redRegs op) d && Wf.src (Wf.redRegs op) a) = true at hw
  simp only [Bool.and_eq_true] at hw
  obtain ⟨f1, f2, f3⟩ := RedForm.fits op
  have h4 := wfSrc hw.2
  refine ⟨⟨wfG hw.1.1.1.1, wfLa hw.1.1.1.2, wfV hw.1.2, a.code_lt h4, by omega, by decide, f3⟩, fun w W => ?_⟩
  obtain ⟨e1, e2⟩ := RedForm.back op false W.inMod (by simpa [natOf] using W.inB)
  show buildLane4 2 w = _
  delta buildLane4
  simp [e1, e2, W.head.fg, W.fla, W.fd, W.fa h4, show natOf false = 0 from rfl]

theorem Round.wscan (g : Guard) (la : Nat) (ex : Bool) (op : RedForm) (d : Nat) (a : Src) : Round.Statement (.wscan g la ex op d a) := by
  refine roundV rfl rfl rfl ⟨by decide, by decide, by decide⟩ fun hw => ?_
  change (Wf.guard g && Wf.la la && Wf.redForm op && Wf.v (Wf.redRegs op) d && Wf.src (Wf.redRegs op) a) = true at hw
  simp only [Bool.and_eq_true] at hw
  obtain ⟨f1, f2, f3⟩ := RedForm.fits op
  have h4 := wfSrc hw.2
  have h5 := natOf_lt ex
  refine ⟨⟨wfG hw.1.1.1.1, wfLa hw.1.1.1.2, wfV hw.1.2, a.code_lt h4, by omega, by decide, f3⟩, fun w W => ?_⟩
  obtain ⟨e1, e2⟩ := RedForm.back op ex W.inMod W.inB
  show buildLane4 3 w = _
  delta buildLane4
  simp [e1, e2, W.head.fg, W.fla, W.fd, W.fa h4]

theorem Round.eqmask (g : Guard) (la : Nat) (t : IntTy) (d : Nat) (a : Src) : Round.Statement (.eqmask g la t d a) := by
  refine roundV rfl rfl rfl ⟨by decide, by decide, by decide⟩ fun hw => ?_
  change (Wf.guard g && Wf.la la && t.isScalar && Wf.v 1 d && Wf.src t.regs a) = true at hw
  simp only [Bool.and_eq_true] at hw
  have h1 := wfG hw.1.1.1.1
  have h2 := wfLa hw.1.1.1.2
  have x2 := hw.1.1.2
  have h3 := wfV hw.1.2
  have h4 := wfSrc hw.2
  have ca := Src.code_lt a h4
  clear hw
  cases t
  all_goals
    exact ⟨⟨by omega, by omega, by omega, by omega, by omega, by omega, by first | decide | omega | (simp only [IntTy.code]; omega)⟩, fun w W => by
      show buildLane4 4 w = _
      delta buildLane4
      simp [W.head.fg, W.fla, W.fd, W.fa h4, W.inMod, IntTy.code]
      try simp [fld, IntTy.ofCode]
      try omega⟩

theorem Round.bytepSel (g : Guard) (d : Nat) (a : Src) (b : Src) (c : Src) : Round.Statement (.bytepSel g d a b c) := by
  refine roundV rfl rfl rfl ⟨by decide, by decide, by decide⟩ fun hw => ?_
  change (Wf.guard g && Wf.v 1 d && Wf.src 1 a && Wf.src 1 b && Wf.src 1 c) = true at hw
  simp only [Bool.and_eq_true] at hw
  have h1 := wfG hw.1.1.1.1
  have h2 := wfV hw.1.1.1.2
  have h3 := wfSrc hw.1.1.2
  have ca := Src.code_lt a h3
  have h4 := wfSrc hw.1.2
  have cb := Src.code_lt b h4
  have h5 := wfSrc hw.2
  have cc := Src.code_lt c h5
  exact ⟨⟨by omega, by omega, by omega, by omega, by omega, by omega, by omega⟩, fun w W => by
    show buildLane4 5 w = _
    delta buildLane4
    simp [W.head.fg, W.fd, W.fmod, W.fa h3, W.fb h4, W.fc h5]
    try simp [fld]
    try omega⟩

theorem Round.bytepLut16L (g : Guard) (d : Nat) (a : Src) (b : Src) : Round.Statement (.bytepLut16L g d a b) := by
  refine roundV rfl rfl rfl ⟨by decide, by decide, by decide⟩ fun hw => ?_
  change (Wf.guard g && Wf.v 1 d && Wf.src 4 a && Wf.src 1 b) = true at hw
  simp only [Bool.and_eq_true] at hw
  have h1 := wfG hw.1.1.1
  have h2 := wfV hw.1.1.2
  have h3 := wfSrc hw.1.2
  have ca := Src.code_lt a h3
  have h4 := wfSrc hw.2
  have cb := Src.code_lt b h4
  exact ⟨⟨by omega, by omega, by omega, by omega, by omega, by omega, by omega⟩, fun w W => by
    show buildLane4 5 w = _
    delta buildLane4
    simp [W.head.fg, W.fd, W.fmod, W.fa h3, W.fb h4]
    try simp [fld]
    try omega⟩

theorem Round.bytepLut16H (g : Guard) (d : Nat) (a : Src) (b : Src) : Round.Statement (.bytepLut16H g d a b) := by
  refine roundV rfl rfl rfl ⟨by decide, by decide, by decide⟩ fun hw => ?_
  change (Wf.guard g && Wf.v 1 d && Wf.src 4 a && Wf.src 1 b) = true at hw
  simp only [Bool.and_eq_true] at hw
  have h1 := wfG hw.1.1.1
  have h2 := wfV hw.1.1.2
  have h3 := wfSrc hw.1.2
  have ca := Src.code_lt a h3
  have h4 := wfSrc hw.2
  have cb := Src.code_lt b h4
  exact ⟨⟨by omega, by omega, by omega, by omega, by omega, by omega, by omega⟩, fun w W => by
    show buildLane4 5 w = _
    delta buildLane4
    simp [W.head.fg, W.fd, W.fmod, W.fa h3, W.fb h4]
    try simp [fld]
    try omega⟩

theorem Round.quadx (g : Guard) (la : Nat) (pat : Nat) (d : Nat) (a : Src) : Round.Statement (.quadx g la pat d a) := by
  refine roundV rfl rfl rfl ⟨by decide, by decide, by decide⟩ fun hw => ?_
  change (Wf.guard g && Wf.la la && pat < 256 && Wf.v 1 d && Wf.src 1 a) = true at hw
  simp only [Bool.and_eq_true] at hw
  have h1 := wfG hw.1.1.1.1
  have h2 := wfLa hw.1.1.1.2
  have h3 := of_decide_eq_true hw.1.1.2
  have h4 := wfV hw.1.2
  have h5 := wfSrc hw.2
  have ca := Src.code_lt a h5
  exact ⟨⟨by omega, by omega, by omega, by omega, by omega, by omega, by omega⟩, fun w W => by
    show buildLane4 6 w = _
    delta buildLane4
    simp [W.head.fg, W.fla, W.fd, W.fmod, W.fa h5, W.inB]
    try simp [fld]
    try omega⟩

theorem Round.lead (g : Guard) (d : Nat) : Round.Statement (.lead g d) := by
  refine roundV rfl rfl rfl ⟨by decide, by decide, by decide⟩ fun hw => ?_
  change (Wf.guard g && Wf.p d) = true at hw
  simp only [Bool.and_eq_true] at hw
  have h1 := wfG hw.1
  have h2 := wfP hw.2
  exact ⟨⟨by omega, by omega, by omega, by omega, by omega, by omega, by omega⟩, fun w W => by
    show buildLane4 7 w = _
    delta buildLane4
    simp [W.head.fg, W.fd, W.fmod]
    try simp [fld]
    try omega⟩

theorem Round.rng (g : Guard) (la : Nat) (p : Nat) (d : Nat) (a : Src) : Round.Statement (.rng g la p d a) := by
  refine roundV rfl rfl rfl ⟨by decide, by decide, by decide⟩ fun hw => ?_
  change (Wf.guard g && Wf.la la && Wf.p p && Wf.v 4 d && Wf.src 2 a && Wf.disjoint d 4 a.reg 2) = true at hw
  simp only [Bool.and_eq_true] at hw
  have h1 := wfG hw.1.1.1.1.1
  have h2 := wfLa hw.1.1.1.1.2
  have h3 := wfP hw.1.1.1.2
  have h4 := wfV hw.1.1.2
  have h5 := wfSrc hw.1.2
  have ca := Src.code_lt a h5
  have x5 := hw.2
  exact ⟨⟨by omega, by omega, by omega, by omega, by omega, by omega, by omega⟩, fun w W => by
    show buildLane4 8 w = _
    delta buildLane4
    simp [W.head.fg, W.fla, W.fd, W.fa h5, W.inMod]
    try simp [fld]
    try omega⟩

theorem Round.widr (g : Guard) (sel : WidSel) (d : Nat) : Round.Statement (.widr g sel d) := by
  refine roundV rfl rfl rfl ⟨by decide, by decide, by decide⟩ fun hw => ?_
  change (Wf.guard g && Wf.v 2 d) = true at hw
  simp only [Bool.and_eq_true] at hw
  have h1 := wfG hw.1
  have h2 := wfV hw.2
  clear hw
  cases sel
  all_goals
    exact ⟨⟨by omega, by omega, by omega, by omega, by omega, by omega, by first | decide | omega | (simp only [WidSel.code]; omega)⟩, fun w W => by
      show buildLane4 9 w = _
      delta buildLane4
      simp [W.head.fg, W.fd, W.fmod, WidSel.code]
      try simp [WidSel.ofCode]
      try omega⟩

theorem Round.clock (g : Guard) (dev : Bool) (d : Nat) : Round.Statement (.clock g dev d) := by
  refine roundV rfl rfl rfl ⟨by decide, by decide, by decide⟩ fun hw => ?_
  change (Wf.guard g && Wf.v 2 d) = true at hw
  simp only [Bool.and_eq_true] at hw
  have h1 := wfG hw.1
  have h2 := wfV hw.2
  clear hw
  cases dev
  all_goals
    exact ⟨⟨by omega, by omega, by omega, by omega, by omega, by omega, by first | decide | omega | (simp only [natOf]; omega)⟩, fun w W => by
      show buildLane4 10 w = _
      delta buildLane4
      simp [W.head.fg, W.fd, W.fmod, natOf]
      try simp [fld, boolOf]
      try omega⟩

theorem Round.ptst (g : Guard) (d : Nat) (a : Src) : Round.Statement (.ptst g d a) := by
  refine roundV rfl rfl rfl ⟨by decide, by decide, by decide⟩ fun hw => ?_
  change (Wf.guard g && Wf.p d && Wf.src 1 a) = true at hw
  simp only [Bool.and_eq_true] at hw
  have h1 := wfG hw.1.1
  have h2 := wfP hw.1.2
  have h3 := wfSrc hw.2
  have ca := Src.code_lt a h3
  exact ⟨⟨by omega, by omega, by omega, by omega, by omega, by omega, by omega⟩, fun w W => by
    show buildLane4 11 w = _
    delta buildLane4
    simp [W.head.fg, W.fd, W.fmod, W.fa h3]
    try simp [fld]
    try omega⟩

theorem Round.ptstClr (g : Guard) (d : Nat) (a : Src) : Round.Statement (.ptstClr g d a) := by
  refine roundV rfl rfl rfl ⟨by decide, by decide, by decide⟩ fun hw => ?_
  change (Wf.guard g && Wf.v 1 d && Wf.src 1 a) = true at hw
  simp only [Bool.and_eq_true] at hw
  have h1 := wfG hw.1.1
  have h2 := wfV hw.1.2
  have h3 := wfSrc hw.2
  have ca := Src.code_lt a h3
  exact ⟨⟨by omega, by omega, by omega, by omega, by omega, by omega, by omega⟩, fun w W => by
    show buildLane4 11 w = _
    delta buildLane4
    simp [W.head.fg, W.fd, W.fmod, W.fa h3]
    try simp [fld]
    try omega⟩

theorem Round.ld (f : MemF) (la : Nat) (split : Bool) (d : Nat) : Round.Statement (.ld f la split d) := by
  refine roundVMA rfl rfl rfl ⟨by decide, by decide, by decide⟩ fun hw => ?_
  change (Wf.mem f (f.size < 6) (f.ord == .plain || f.ord == .acq) && Wf.la la && Wf.v (Wf.accessRegs f.size) d) = true at hw
  simp only [Bool.and_eq_true] at hw
  obtain ⟨m1, m2, m3, m4⟩ := wfMem hw.1.1
  have m5 := of_decide_eq_true m4
  have m6 := wfLa hw.1.2
  have m7 := wfV hw.2
  refine ⟨⟨m1, by omega, by omega, m2, m3, by omega⟩, fun w e0 e1 e2 e3 e4 e5 => ?_⟩
  show buildLane5 0 w = _
  delta buildLane5
  simp [e1, e2, e3, e5]

theorem Round.st (f : MemF) (data : Nat) (dataLu : Bool) : Round.Statement (.st f data dataLu) := by
  refine roundVMA rfl rfl rfl ⟨by decide, by decide, by decide⟩ fun hw => ?_
  change (Wf.mem f (f.size < 6) (f.ord == .plain || f.ord == .rel) && Wf.v (Wf.accessRegs f.size) data) = true at hw
  simp only [Bool.and_eq_true] at hw
  obtain ⟨m1, m2, m3, m4⟩ := wfMem hw.1
  have m5 := of_decide_eq_true m4
  have m7 := wfV hw.2
  refine ⟨⟨m1, by omega, by omega, m2, m3, by omega⟩, fun w e0 e1 e2 e3 e4 e5 => ?_⟩
  show buildLane5 1 w = _
  delta buildLane5
  simp [e1, e3, e4, e5, show natOf false = 0 from rfl]

theorem Round.atom (f : AtomF) (la : Nat) (status : Nat) (d : Nat) : Round.Statement (.atom f la status d) := by
  refine roundAtom rfl rfl rfl (by decide) fun hw => ?_
  change (Wf.atomF f && Wf.la la && (status == 0 || (status < 4 && (f.op == .cas || f.op == .addb))) && Wf.v (Wf.accessRegs f.size) d && Wf.v (Wf.opbRegs f) f.opb) = true at hw
  simp only [Bool.and_eq_true, Bool.or_eq_true, beq_iff_eq, decide_eq_true_eq] at hw
  obtain ⟨m1, m2, m3⟩ := wfAtom hw.1.1.1.1
  have hs := hw.1.1.2
  refine ⟨⟨m1, wfLa hw.1.1.1.2, wfV hw.1.2, m2, wfV hw.2, by omega, m3⟩, fun w e1 e2 e3 e4 e5 => ?_⟩
  delta buildLane5
  simp [e1, e2, e3, e4, e5]

theorem Round.red (f : AtomF) : Round.Statement (.red f) := by
  refine roundAtom rfl rfl rfl (by decide) fun hw => ?_
  change (Wf.atomF f && !(Wf.twoOperands f.op || f.op == .exch) && (f.ord == .plain || f.ord == .rel) && Wf.v (Wf.opbRegs f) f.opb) = true at hw
  simp only [Bool.and_eq_true] at hw
  obtain ⟨m1, m2, m3⟩ := wfAtom hw.1.1.1
  refine ⟨⟨m1, by decide, by decide, m2, wfV hw.2, by decide, m3⟩, fun w e1 e2 e3 e4 e5 => ?_⟩
  delta buildLane5
  simp [e1, e4, e5]

theorem Round.lds (g : Guard) (la : Nat) (pol : Policy) (cls : CacheClass) (d : Nat) (a : Src) (b : Src) : Round.Statement (.lds g la pol cls d a b) := by
  refine roundV rfl rfl rfl ⟨by decide, by decide, by decide⟩ fun hw => ?_
  change (Wf.guard g && Wf.la la && Wf.v 1 d && Wf.src 1 a && Wf.src 1 b) = true at hw
  simp only [Bool.and_eq_true] at hw
  have h1 := wfG hw.1.1.1.1
  have h2 := wfLa hw.1.1.1.2
  have h3 := wfV hw.1.1.2
  have h4 := wfSrc hw.1.2
  have ca := Src.code_lt a h4
  have h5 := wfSrc hw.2
  have cb := Src.code_lt b h5
  clear hw
  cases pol <;> cases cls
  all_goals
    exact ⟨⟨by omega, by omega, by omega, by omega, by omega, by omega, by first | decide | omega | (simp only [Policy.code, CacheClass.code]; omega)⟩, fun w W => by
      show buildLane5 4 w = _
      delta buildLane5
      simp [W.head.fg, W.fla, W.fd, W.fa h4, W.fb h5, W.inMod, Policy.code, CacheClass.code]
      try simp [fld, Policy.ofCode, CacheClass.ofCode]
      try omega⟩

theorem Round.sst (g : Guard) (pol : Policy) (cls : CacheClass) (a : Src) (b : Src) (c : Src) : Round.Statement (.sst g pol cls a b c) := by
  refine roundV rfl rfl rfl ⟨by decide, by decide, by decide⟩ fun hw => ?_
  change (Wf.guard g && Wf.src 1 a && Wf.src 1 b && Wf.src 1 c) = true at hw
  simp only [Bool.and_eq_true] at hw
  have h1 := wfG hw.1.1.1
  have h2 := wfSrc hw.1.1.2
  have ca := Src.code_lt a h2
  have h3 := wfSrc hw.1.2
  have cb := Src.code_lt b h3
  have h4 := wfSrc hw.2
  have cc := Src.code_lt c h4
  clear hw
  cases pol <;> cases cls
  all_goals
    exact ⟨⟨by omega, by omega, by omega, by omega, by omega, by omega, by first | decide | omega | (simp only [Policy.code, CacheClass.code]; omega)⟩, fun w W => by
      show buildLane5 5 w = _
      delta buildLane5
      simp [W.head.fg, W.fa h2, W.fb h3, W.fc h4, W.inMod, Policy.code, CacheClass.code]
      try simp [fld, Policy.ofCode, CacheClass.ofCode]
      try omega⟩

theorem Round.pref (f : MemF) : Round.Statement (.pref f) := by
  refine roundVMA rfl rfl rfl ⟨by decide, by decide, by decide⟩ fun hw => ?_
  change (Wf.mem f (f.size < 6) (f.ord == .plain)) = true at hw
  obtain ⟨m1, m2, m3, m4⟩ := wfMem hw
  have m5 := of_decide_eq_true m4
  refine ⟨⟨m1, by omega, by omega, m2, m3, by omega⟩, fun w e0 e1 e2 e3 e4 e5 => ?_⟩
  show buildLane5 6 w = _
  delta buildLane5
  simp [e1, e5, show natOf false = 0 from rfl]

theorem Round.ordenter (g : Guard) : Round.Statement (.ordenter g) := by
  refine roundV rfl rfl rfl ⟨by decide, by decide, by decide⟩ fun hw => ?_
  change (Wf.guard g) = true at hw
  have h1 := wfG hw
  exact ⟨⟨by omega, by omega, by omega, by omega, by omega, by omega, by omega⟩, fun w W => by
    show buildLane6 0 w = _
    delta buildLane6
    simp [W.head.fg, W.fmod]
    try simp [fld]
    try omega⟩

theorem Round.ordexit (g : Guard) : Round.Statement (.ordexit g) := by
  refine roundV rfl rfl rfl ⟨by decide, by decide, by decide⟩ fun hw => ?_
  change (Wf.guard g) = true at hw
  have h1 := wfG hw
  exact ⟨⟨by omega, by omega, by omega, by omega, by omega, by omega, by omega⟩, fun w W => by
    show buildLane6 1 w = _
    delta buildLane6
    simp [W.head.fg, W.fmod]
    try simp [fld]
    try omega⟩

theorem Round.fraginOpen (g : Guard) (a : Src) : Round.Statement (.fraginOpen g a) := by
  refine roundV rfl rfl rfl ⟨by decide, by decide, by decide⟩ fun hw => ?_
  change (Wf.guard g && Wf.src 2 a) = true at hw
  simp only [Bool.and_eq_true] at hw
  have h1 := wfG hw.1
  have h2 := wfSrc hw.2
  have ca := Src.code_lt a h2
  exact ⟨⟨by omega, by omega, by omega, by omega, by omega, by omega, by omega⟩, fun w W => by
    show buildLane6 2 w = _
    delta buildLane6
    simp [W.head.fg, W.fd, W.fa h2, W.inMod]
    try simp [fld]
    try omega⟩

theorem Round.fraginWave (g : Guard) (d : Nat) : Round.Statement (.fraginWave g d) := by
  refine roundV rfl rfl rfl ⟨by decide, by decide, by decide⟩ fun hw => ?_
  change (Wf.guard g && Wf.v 1 d) = true at hw
  simp only [Bool.and_eq_true] at hw
  have h1 := wfG hw.1
  have h2 := wfV hw.2
  exact ⟨⟨by omega, by omega, by omega, by omega, by omega, by omega, by omega⟩, fun w W => by
    show buildLane6 2 w = _
    delta buildLane6
    simp [W.head.fg, W.fd, W.inMod]
    try simp [fld]
    try omega⟩

theorem Round.fraginRead (g : Guard) (sel : FragSel) (d : Nat) : Round.Statement (.fraginRead g sel d) := by
  refine roundV rfl rfl rfl ⟨by decide, by decide, by decide⟩ fun hw => ?_
  change (Wf.guard g && Wf.v 1 d) = true at hw
  simp only [Bool.and_eq_true] at hw
  have h1 := wfG hw.1
  have h2 := wfV hw.2
  clear hw
  cases sel
  all_goals
    exact ⟨⟨by omega, by omega, by omega, by omega, by omega, by omega, by first | decide | omega | (simp only [FragSel.code]; omega)⟩, fun w W => by
      show buildLane6 2 w = _
      delta buildLane6
      simp [W.head.fg, W.fd, W.inMod, FragSel.code]
      try simp [fld, FragSel.ofCode]
      try omega⟩

theorem Round.fkill (g : Guard) : Round.Statement (.fkill g) := by
  refine roundV rfl rfl rfl ⟨by decide, by decide, by decide⟩ fun hw => ?_
  change (Wf.guard g) = true at hw
  have h1 := wfG hw
  exact ⟨⟨by omega, by omega, by omega, by omega, by omega, by omega, by omega⟩, fun w W => by
    show buildLane6 3 w = _
    delta buildLane6
    simp [W.head.fg, W.fmod]
    try simp [fld]
    try omega⟩

theorem Round.covw (g : Guard) (d : Nat) (a : Src) : Round.Statement (.covw g d a) := by
  refine roundV rfl rfl rfl ⟨by decide, by decide, by decide⟩ fun hw => ?_
  change (Wf.guard g && Wf.v 1 d && Wf.src 1 a) = true at hw
  simp only [Bool.and_eq_true] at hw
  have h1 := wfG hw.1.1
  have h2 := wfV hw.1.2
  have h3 := wfSrc hw.2
  have ca := Src.code_lt a h3
  exact ⟨⟨by omega, by omega, by omega, by omega, by omega, by omega, by omega⟩, fun w W => by
    show buildLane6 4 w = _
    delta buildLane6
    simp [W.head.fg, W.fd, W.fmod, W.fa h3]
    try simp [fld]
    try omega⟩

theorem Round.bary (g : Guard) (d : Nat) (a : Src) (b : Src) (c : Src) : Round.Statement (.bary g d a b c) := by
  refine roundV rfl rfl rfl ⟨by decide, by decide, by decide⟩ fun hw => ?_
  change (Wf.guard g && Wf.v 8 d && Wf.src 8 a && Wf.src 2 b && Wf.src 1 c && Wf.disjoint d 8 a.reg 8 && Wf.disjoint d 8 b.reg 2 && Wf.disjoint d 8 c.reg 1) = true at hw
  simp only [Bool.and_eq_true] at hw
  have h1 := wfG hw.1.1.1.1.1.1.1
  have h2 := wfV hw.1.1.1.1.1.1.2
  have h3 := wfSrc hw.1.1.1.1.1.2
  have ca := Src.code_lt a h3
  have h4 := wfSrc hw.1.1.1.1.2
  have cb := Src.code_lt b h4
  have h5 := wfSrc hw.1.1.1.2
  have cc := Src.code_lt c h5
  have x5 := hw.1.1.2
  have x6 := hw.1.2
  have x7 := hw.2
  exact ⟨⟨by omega, by omega, by omega, by omega, by omega, by omega, by omega⟩, fun w W => by
    show buildLane6 5 w = _
    delta buildLane6
    simp [W.head.fg, W.fd, W.fmod, W.fa h3, W.fb h4, W.fc h5]
    try simp [fld]
    try omega⟩

theorem Round.flins (g : Guard) (d : Nat) (a : Src) (b : Src) (c : Src) : Round.Statement (.flins g d a b c) := by
  refine roundV rfl rfl rfl ⟨by decide, by decide, by decide⟩ fun hw => ?_
  change (Wf.guard g && Wf.v 1 d && Wf.src 1 a && Wf.src 1 b && Wf.src 2 c) = true at hw
  simp only [Bool.and_eq_true] at hw
  have h1 := wfG hw.1.1.1.1
  have h2 := wfV hw.1.1.1.2
  have h3 := wfSrc hw.1.1.2
  have ca := Src.code_lt a h3
  have h4 := wfSrc hw.1.2
  have cb := Src.code_lt b h4
  have h5 := wfSrc hw.2
  have cc := Src.code_lt c h5
  exact ⟨⟨by omega, by omega, by omega, by omega, by omega, by omega, by omega⟩, fun w W => by
    show buildLane7 0 w = _
    delta buildLane7
    simp [W.head.fg, W.fd, W.fmod, W.fa h3, W.fb h4, W.fc h5]
    try simp [fld]
    try omega⟩

theorem Round.flhead (g : Guard) (la : Nat) (d : Nat) (a : Src) : Round.Statement (.flhead g la d a) := by
  refine roundV rfl rfl rfl ⟨by decide, by decide, by decide⟩ fun hw => ?_
  change (Wf.guard g && Wf.la la && Wf.v 2 d && Wf.src 1 a) = true at hw
  simp only [Bool.and_eq_true] at hw
  have h1 := wfG hw.1.1.1
  have h2 := wfLa hw.1.1.2
  have h3 := wfV hw.1.2
  have h4 := wfSrc hw.2
  have ca := Src.code_lt a h4
  exact ⟨⟨by omega, by omega, by omega, by omega, by omega, by omega, by omega⟩, fun w W => by
    show buildLane7 1 w = _
    delta buildLane7
    simp [W.head.fg, W.fla, W.fd, W.fmod, W.fa h4]
    try simp [fld]
    try omega⟩

theorem Round.flnode (g : Guard) (la : Nat) (d : Nat) (a : Src) : Round.Statement (.flnode g la d a) := by
  refine roundV rfl rfl rfl ⟨by decide, by decide, by decide⟩ fun hw => ?_
  change (Wf.guard g && Wf.la la && Wf.v 4 d && Wf.src 1 a) = true at hw
  simp only [Bool.and_eq_true] at hw
  have h1 := wfG hw.1.1.1
  have h2 := wfLa hw.1.1.2
  have h3 := wfV hw.1.2
  have h4 := wfSrc hw.2
  have ca := Src.code_lt a h4
  exact ⟨⟨by omega, by omega, by omega, by omega, by omega, by omega, by omega⟩, fun w W => by
    show buildLane7 2 w = _
    delta buildLane7
    simp [W.head.fg, W.fla, W.fd, W.fmod, W.fa h4]
    try simp [fld]
    try omega⟩

theorem Round.flclrInit (g : Guard) (a : Src) (b : Src) (c : Src) : Round.Statement (.flclrInit g a b c) := by
  refine roundV rfl rfl rfl ⟨by decide, by decide, by decide⟩ fun hw => ?_
  change (Wf.guard g && Wf.src 2 a && Wf.src 1 b && Wf.src 1 c) = true at hw
  simp only [Bool.and_eq_true] at hw
  have h1 := wfG hw.1.1.1
  have h2 := wfSrc hw.1.1.2
  have ca := Src.code_lt a h2
  have h3 := wfSrc hw.1.2
  have cb := Src.code_lt b h3
  have h4 := wfSrc hw.2
  have cc := Src.code_lt c h4
  exact ⟨⟨by omega, by omega, by omega, by omega, by omega, by omega, by omega⟩, fun w W => by
    show buildLane7 3 w = _
    delta buildLane7
    simp [W.head.fg, W.fmod, W.fa h2, W.fb h3, W.fc h4]
    try simp [fld]
    try omega⟩

theorem Round.flclrPix (g : Guard) (a : Src) : Round.Statement (.flclrPix g a) := by
  refine roundV rfl rfl rfl ⟨by decide, by decide, by decide⟩ fun hw => ?_
  change (Wf.guard g && Wf.src 1 a) = true at hw
  simp only [Bool.and_eq_true] at hw
  have h1 := wfG hw.1
  have h2 := wfSrc hw.2
  have ca := Src.code_lt a h2
  exact ⟨⟨by omega, by omega, by omega, by omega, by omega, by omega, by omega⟩, fun w W => by
    show buildLane7 3 w = _
    delta buildLane7
    simp [W.head.fg, W.fmod, W.fa h2]
    try simp [fld]
    try omega⟩

theorem Round.flbudgetSet (g : Guard) (a : Src) (b : Src) : Round.Statement (.flbudgetSet g a b) := by
  refine roundV rfl rfl rfl ⟨by decide, by decide, by decide⟩ fun hw => ?_
  change (Wf.guard g && Wf.src 1 a && Wf.src 1 b) = true at hw
  simp only [Bool.and_eq_true] at hw
  have h1 := wfG hw.1.1
  have h2 := wfSrc hw.1.2
  have ca := Src.code_lt a h2
  have h3 := wfSrc hw.2
  have cb := Src.code_lt b h3
  exact ⟨⟨by omega, by omega, by omega, by omega, by omega, by omega, by omega⟩, fun w W => by
    show buildLane7 4 w = _
    delta buildLane7
    simp [W.head.fg, W.fmod, W.fa h2, W.fb h3]
    try simp [fld]
    try omega⟩

theorem Round.flbudgetGet (g : Guard) (d : Nat) (a : Src) : Round.Statement (.flbudgetGet g d a) := by
  refine roundV rfl rfl rfl ⟨by decide, by decide, by decide⟩ fun hw => ?_
  change (Wf.guard g && Wf.v 1 d && Wf.src 1 a) = true at hw
  simp only [Bool.and_eq_true] at hw
  have h1 := wfG hw.1.1
  have h2 := wfV hw.1.2
  have h3 := wfSrc hw.2
  have ca := Src.code_lt a h3
  exact ⟨⟨by omega, by omega, by omega, by omega, by omega, by omega, by omega⟩, fun w W => by
    show buildLane7 4 w = _
    delta buildLane7
    simp [W.head.fg, W.fd, W.fmod, W.fa h3]
    try simp [fld]
    try omega⟩

theorem Round.flbudgetRule (g : Guard) (a : Src) : Round.Statement (.flbudgetRule g a) := by
  refine roundV rfl rfl rfl ⟨by decide, by decide, by decide⟩ fun hw => ?_
  change (Wf.guard g && Wf.src 1 a) = true at hw
  simp only [Bool.and_eq_true] at hw
  have h1 := wfG hw.1
  have h2 := wfSrc hw.2
  have ca := Src.code_lt a h2
  exact ⟨⟨by omega, by omega, by omega, by omega, by omega, by omega, by omega⟩, fun w W => by
    show buildLane7 4 w = _
    delta buildLane7
    simp [W.head.fg, W.fmod, W.fa h2]
    try simp [fld]
    try omega⟩

theorem Round.flbudgetRrd (g : Guard) (d : Nat) : Round.Statement (.flbudgetRrd g d) := by
  refine roundV rfl rfl rfl ⟨by decide, by decide, by decide⟩ fun hw => ?_
  change (Wf.guard g && Wf.v 1 d) = true at hw
  simp only [Bool.and_eq_true] at hw
  have h1 := wfG hw.1
  have h2 := wfV hw.2
  exact ⟨⟨by omega, by omega, by omega, by omega, by omega, by omega, by omega⟩, fun w W => by
    show buildLane7 4 w = _
    delta buildLane7
    simp [W.head.fg, W.fd, W.fmod]
    try simp [fld]
    try omega⟩

theorem Round.flmrg (g : Guard) (a : Src) (b : Src) (c : Src) : Round.Statement (.flmrg g a b c) := by
  refine roundV rfl rfl rfl ⟨by decide, by decide, by decide⟩ fun hw => ?_
  change (Wf.guard g && Wf.src 1 a && Wf.src 1 b && Wf.src 2 c) = true at hw
  simp only [Bool.and_eq_true] at hw
  have h1 := wfG hw.1.1.1
  have h2 := wfSrc hw.1.1.2
  have ca := Src.code_lt a h2
  have h3 := wfSrc hw.1.2
  have cb := Src.code_lt b h3
  have h4 := wfSrc hw.2
  have cc := Src.code_lt c h4
  exact ⟨⟨by omega, by omega, by omega, by omega, by omega, by omega, by omega⟩, fun w W => by
    show buildLane7 5 w = _
    delta buildLane7
    simp [W.head.fg, W.fmod, W.fa h2, W.fb h3, W.fc h4]
    try simp [fld]
    try omega⟩

theorem Round.flmrgOne (g : Guard) (a : Src) (b : Src) (c : Src) : Round.Statement (.flmrgOne g a b c) := by
  refine roundV rfl rfl rfl ⟨by decide, by decide, by decide⟩ fun hw => ?_
  change (Wf.guard g && Wf.src 1 a && Wf.src 1 b && Wf.src 2 c) = true at hw
  simp only [Bool.and_eq_true] at hw
  have h1 := wfG hw.1.1.1
  have h2 := wfSrc hw.1.1.2
  have ca := Src.code_lt a h2
  have h3 := wfSrc hw.1.2
  have cb := Src.code_lt b h3
  have h4 := wfSrc hw.2
  have cc := Src.code_lt c h4
  exact ⟨⟨by omega, by omega, by omega, by omega, by omega, by omega, by omega⟩, fun w W => by
    show buildLane7 5 w = _
    delta buildLane7
    simp [W.head.fg, W.fmod, W.fa h2, W.fb h3, W.fc h4]
    try simp [fld]
    try omega⟩

theorem Round.rqinit (g : Guard) (fl : RayFlags) (a : Src) (b : Src) : Round.Statement (.rqinit g fl a b) := by
  obtain ⟨cb, cf, op, no, fh⟩ := fl
  refine roundV rfl rfl rfl ⟨by decide, by decide, by decide⟩ fun hw => ?_
  change (Wf.guard g && !(op && no) && Wf.src 8 a && Wf.src 2 b) = true at hw
  simp only [Bool.and_eq_true] at hw
  have h1 := wfG hw.1.1.1
  have h2 := wfSrc hw.1.2
  have h3 := wfSrc hw.2
  have n1 := natOf_lt cb
  have n2 := natOf_lt cf
  have n3 := natOf_lt op
  have n4 := natOf_lt no
  have n5 := natOf_lt fh
  simp only
  refine ⟨⟨h1, by decide, by decide, a.code_lt h2, b.code_lt h3, by decide, by omega⟩, fun w W => ?_⟩
  have k0 : fld w 0 1 = natOf cb := (W.inMod 0 1 (by decide)).trans (by unfold fld; omega)
  have k1 : fld w 1 1 = natOf cf := (W.inMod 1 1 (by decide)).trans (by unfold fld; omega)
  have k2 : fld w 2 1 = natOf op := (W.inMod 2 1 (by decide)).trans (by unfold fld; omega)
  have k3 : fld w 3 1 = natOf no := (W.inMod 3 1 (by decide)).trans (by unfold fld; omega)
  have k4 : fld w 4 1 = natOf fh := (W.inMod 4 1 (by decide)).trans (by unfold fld; omega)
  have k5 : fld w 5 2 = 0 := (W.inMod 5 2 (by decide)).trans (by unfold fld; omega)
  show buildLane8 0 w = _
  delta buildLane8
  simp [k0, k1, k2, k3, k4, k5, W.head.fg, W.fa h2, W.fb h3]

theorem Round.rqstep (g : Guard) (la : Nat) (d : Nat) : Round.Statement (.rqstep g la d) := by
  refine roundV rfl rfl rfl ⟨by decide, by decide, by decide⟩ fun hw => ?_
  change (Wf.guard g && Wf.la la && Wf.v 1 d) = true at hw
  simp only [Bool.and_eq_true] at hw
  have h1 := wfG hw.1.1
  have h2 := wfLa hw.1.2
  have h3 := wfV hw.2
  exact ⟨⟨by omega, by omega, by omega, by omega, by omega, by omega, by omega⟩, fun w W => by
    show buildLane8 1 w = _
    delta buildLane8
    simp [W.head.fg, W.fla, W.fd, W.fmod]
    try simp [fld]
    try omega⟩

theorem Round.rqhit (g : Guard) (la : Nat) (cand : Bool) (sel : HitSel) (d : Nat) : Round.Statement (.rqhit g la cand sel d) := by
  refine roundV rfl rfl rfl ⟨by decide, by decide, by decide⟩ fun hw => ?_
  change (Wf.guard g && Wf.la la && Wf.v 1 d) = true at hw
  simp only [Bool.and_eq_true] at hw
  have h1 := wfG hw.1.1
  have h2 := wfLa hw.1.2
  have h3 := wfV hw.2
  clear hw
  cases cand <;> cases sel
  all_goals
    exact ⟨⟨by omega, by omega, by omega, by omega, by omega, by omega, by first | decide | omega | (simp only [natOf, HitSel.code]; omega)⟩, fun w W => by
      show buildLane8 2 w = _
      delta buildLane8
      simp [W.head.fg, W.fla, W.fd, W.inMod, natOf, HitSel.code]
      try simp [fld, boolOf, HitSel.ofCode]
      try omega⟩

theorem Round.rqcommit (g : Guard) : Round.Statement (.rqcommit g) := by
  refine roundV rfl rfl rfl ⟨by decide, by decide, by decide⟩ fun hw => ?_
  change (Wf.guard g) = true at hw
  have h1 := wfG hw
  exact ⟨⟨by omega, by omega, by omega, by omega, by omega, by omega, by omega⟩, fun w W => by
    show buildLane8 3 w = _
    delta buildLane8
    simp [W.head.fg, W.fmod]
    try simp [fld]
    try omega⟩

theorem Round.rqcommitEnd (g : Guard) : Round.Statement (.rqcommitEnd g) := by
  refine roundV rfl rfl rfl ⟨by decide, by decide, by decide⟩ fun hw => ?_
  change (Wf.guard g) = true at hw
  have h1 := wfG hw
  exact ⟨⟨by omega, by omega, by omega, by omega, by omega, by omega, by omega⟩, fun w W => by
    show buildLane8 3 w = _
    delta buildLane8
    simp [W.head.fg, W.fmod]
    try simp [fld]
    try omega⟩

theorem Round.rqappend (g : Guard) (cand : Bool) (d : Nat) (a : Src) (c : Src) : Round.Statement (.rqappend g cand d a c) := by
  refine roundV rfl rfl rfl ⟨by decide, by decide, by decide⟩ fun hw => ?_
  change (Wf.guard g && Wf.v 1 d && Wf.src 1 a && Wf.src 2 c) = true at hw
  simp only [Bool.and_eq_true] at hw
  have h1 := wfG hw.1.1.1
  have h2 := wfV hw.1.1.2
  have h3 := wfSrc hw.1.2
  have ca := Src.code_lt a h3
  have h4 := wfSrc hw.2
  have cc := Src.code_lt c h4
  clear hw
  cases cand
  all_goals
    exact ⟨⟨by omega, by omega, by omega, by omega, by omega, by omega, by first | decide | omega | (simp only [natOf]; omega)⟩, fun w W => by
      show buildLane8 4 w = _
      delta buildLane8
      simp [W.head.fg, W.fd, W.fmod, W.fa h3, W.fc h4, natOf]
      try simp [fld, boolOf]
      try omega⟩

theorem Round.morton (g : Guard) (d : Nat) (a : Src) (b : Src) (c : Src) : Round.Statement (.morton g d a b c) := by
  refine roundV rfl rfl rfl ⟨by decide, by decide, by decide⟩ fun hw => ?_
  change (Wf.guard g && Wf.v 1 d && Wf.src 4 a && Wf.src 4 b && Wf.src 4 c) = true at hw
  simp only [Bool.and_eq_true] at hw
  have h1 := wfG hw.1.1.1.1
  have h2 := wfV hw.1.1.1.2
  have h3 := wfSrc hw.1.1.2
  have ca := Src.code_lt a h3
  have h4 := wfSrc hw.1.2
  have cb := Src.code_lt b h4
  have h5 := wfSrc hw.2
  have cc := Src.code_lt c h5
  exact ⟨⟨by omega, by omega, by omega, by omega, by omega, by omega, by omega⟩, fun w W => by
    show buildLane8 5 w = _
    delta buildLane8
    simp [W.head.fg, W.fd, W.fmod, W.fa h3, W.fb h4, W.fc h5]
    try simp [fld]
    try omega⟩

theorem Round.bbox (g : Guard) (la : Nat) (d : Nat) (a : Src) : Round.Statement (.bbox g la d a) := by
  refine roundV rfl rfl rfl ⟨by decide, by decide, by decide⟩ fun hw => ?_
  change (Wf.guard g && Wf.la la && Wf.v 8 d && Wf.src 8 a) = true at hw
  simp only [Bool.and_eq_true] at hw
  have h1 := wfG hw.1.1.1
  have h2 := wfLa hw.1.1.2
  have h3 := wfV hw.1.2
  have h4 := wfSrc hw.2
  have ca := Src.code_lt a h4
  exact ⟨⟨by omega, by omega, by omega, by omega, by omega, by omega, by omega⟩, fun w W => by
    show buildLane8 6 w = _
    delta buildLane8
    simp [W.head.fg, W.fla, W.fd, W.fmod, W.fa h4]
    try simp [fld]
    try omega⟩

theorem Round.bvpack (g : Guard) (d : Nat) (a : Src) : Round.Statement (.bvpack g d a) := by
  refine roundV rfl rfl rfl ⟨by decide, by decide, by decide⟩ fun hw => ?_
  change (Wf.guard g && Wf.v 1 d && Wf.src 8 a) = true at hw
  simp only [Bool.and_eq_true] at hw
  have h1 := wfG hw.1.1
  have h2 := wfV hw.1.2
  have h3 := wfSrc hw.2
  have ca := Src.code_lt a h3
  exact ⟨⟨by omega, by omega, by omega, by omega, by omega, by omega, by omega⟩, fun w W => by
    show buildLane8 7 w = _
    delta buildLane8
    simp [W.head.fg, W.fd, W.fmod, W.fa h3]
    try simp [fld]
    try omega⟩

theorem Round.umov (g : Guard) (d : Nat) (a : Nat) : Round.Statement (.umov g d a) := by
  refine roundV rfl rfl rfl ⟨by decide, by decide, by decide⟩ fun hw => ?_
  change (Wf.guard g && Wf.s d && Wf.s a) = true at hw
  simp only [Bool.and_eq_true] at hw
  have h1 := wfG hw.1.1
  have h2 := wfS hw.1.2
  have h3 := wfS hw.2
  exact ⟨⟨by omega, by omega, by omega, by omega, by omega, by omega, by omega⟩, fun w W => by
    show buildUni0 0 w = _
    delta buildUni0
    simp [W.head.fg, W.fd, W.fmod, W.fra (by omega)]
    try simp [fld]
    try omega⟩

theorem Round.umovQ (g : Guard) (d : Nat) (a : Nat) : Round.Statement (.umovQ g d a) := by
  refine roundV rfl rfl rfl ⟨by decide, by decide, by decide⟩ fun hw => ?_
  change (Wf.guard g && Wf.p d && Wf.p a) = true at hw
  simp only [Bool.and_eq_true] at hw
  have h1 := wfG hw.1.1
  have h2 := wfP hw.1.2
  have h3 := wfP hw.2
  exact ⟨⟨by omega, by omega, by omega, by omega, by omega, by omega, by omega⟩, fun w W => by
    show buildUni0 0 w = _
    delta buildUni0
    simp [W.head.fg, W.fd, W.fmod, W.fra (by omega)]
    try simp [fld]
    try omega⟩

theorem Round.umovQ2s (g : Guard) (d : Nat) (a : Nat) : Round.Statement (.umovQ2s g d a) := by
  refine roundV rfl rfl rfl ⟨by decide, by decide, by decide⟩ fun hw => ?_
  change (Wf.guard g && Wf.s d && Wf.p a) = true at hw
  simp only [Bool.and_eq_true] at hw
  have h1 := wfG hw.1.1
  have h2 := wfS hw.1.2
  have h3 := wfP hw.2
  exact ⟨⟨by omega, by omega, by omega, by omega, by omega, by omega, by omega⟩, fun w W => by
    show buildUni0 0 w = _
    delta buildUni0
    simp [W.head.fg, W.fd, W.fmod, W.fra (by omega)]
    try simp [fld]
    try omega⟩

theorem Round.umovS2q (g : Guard) (d : Nat) (a : Nat) : Round.Statement (.umovS2q g d a) := by
  refine roundV rfl rfl rfl ⟨by decide, by decide, by decide⟩ fun hw => ?_
  change (Wf.guard g && Wf.p d && Wf.s a) = true at hw
  simp only [Bool.and_eq_true] at hw
  have h1 := wfG hw.1.1
  have h2 := wfP hw.1.2
  have h3 := wfS hw.2
  exact ⟨⟨by omega, by omega, by omega, by omega, by omega, by omega, by omega⟩, fun w W => by
    show buildUni0 0 w = _
    delta buildUni0
    simp [W.head.fg, W.fd, W.fmod, W.fra (by omega)]
    try simp [fld]
    try omega⟩

theorem Round.umovi (g : Guard) (d : Nat) (imm : Nat) : Round.Statement (.umovi g d imm) := by
  refine roundVL rfl rfl rfl ⟨by decide, by decide, by decide⟩ fun hw => ?_
  change (Wf.guard g && Wf.s d && Wf.imm32 imm) = true at hw
  simp only [Bool.and_eq_true] at hw
  have hd := wfS hw.1.2
  refine ⟨⟨wfG hw.1.1, by omega, wfI32 hw.2, by decide⟩, fun w e0 e1 e2 e3 => ?_⟩
  show buildUni0 1 w = _
  delta buildUni0
  simp [e0, e1, e2, e3, boolOf]

theorem Round.umoviHi (g : Guard) (d : Nat) (imm : Nat) : Round.Statement (.umoviHi g d imm) := by
  refine roundVL rfl rfl rfl ⟨by decide, by decide, by decide⟩ fun hw => ?_
  change (Wf.guard g && Wf.s d && Wf.imm32 imm) = true at hw
  simp only [Bool.and_eq_true] at hw
  have hd := wfS hw.1.2
  refine ⟨⟨wfG hw.1.1, by omega, wfI32 hw.2, by decide⟩, fun w e0 e1 e2 e3 => ?_⟩
  show buildUni0 1 w = _
  delta buildUni0
  simp [e0, e1, e2, e3, boolOf]

theorem Round.uadd (f : UniF) (d : Nat) (a : Nat) (b : Nat) : Round.Statement (.uadd f d a b) := by
  refine roundUn rfl rfl rfl (by decide) fun hw => ?_
  change (Wf.uni f d a && Wf.s b) = true at hw
  simp only [Bool.and_eq_true] at hw
  have h1 := wfUni hw.1
  have h2 := wfS hw.2
  exact ⟨⟨by omega, by omega, by omega, by omega, by decide⟩, fun w W e1 e2 => by
    delta buildUni0
    simp [e1, W.fd, W.fra (by omega), W.frb (by omega), e2]
    try simp [fld]
    try omega⟩

theorem Round.uaddUi (f : UniF) (d : Nat) (a : Nat) (imm : Nat) : Round.Statement (.uaddUi f d a imm) := by
  refine roundUnUi rfl rfl rfl (by decide) fun hw => ?_
  change (Wf.uni f d a && Wf.imm20 imm) = true at hw
  simp only [Bool.and_eq_true] at hw
  have h1 := wfUni hw.1
  have h2 := wfI20 hw.2
  exact ⟨⟨by omega, by omega, by omega, by omega, by decide⟩, fun w W e1 e2 => by
    delta buildUni0
    simp [e1, W.fd, W.fra (by omega), W.fimm, e2]
    try simp [fld]
    try omega⟩

theorem Round.usub (f : UniF) (d : Nat) (a : Nat) (b : Nat) : Round.Statement (.usub f d a b) := by
  refine roundUn rfl rfl rfl (by decide) fun hw => ?_
  change (Wf.uni f d a && Wf.s b) = true at hw
  simp only [Bool.and_eq_true] at hw
  have h1 := wfUni hw.1
  have h2 := wfS hw.2
  exact ⟨⟨by omega, by omega, by omega, by omega, by decide⟩, fun w W e1 e2 => by
    delta buildUni0
    simp [e1, W.fd, W.fra (by omega), W.frb (by omega), e2]
    try simp [fld]
    try omega⟩

theorem Round.usubUi (f : UniF) (d : Nat) (a : Nat) (imm : Nat) : Round.Statement (.usubUi f d a imm) := by
  refine roundUnUi rfl rfl rfl (by decide) fun hw => ?_
  change (Wf.uni f d a && Wf.imm20 imm) = true at hw
  simp only [Bool.and_eq_true] at hw
  have h1 := wfUni hw.1
  have h2 := wfI20 hw.2
  exact ⟨⟨by omega, by omega, by omega, by omega, by decide⟩, fun w W e1 e2 => by
    delta buildUni0
    simp [e1, W.fd, W.fra (by omega), W.fimm, e2]
    try simp [fld]
    try omega⟩

theorem Round.umul (f : UniF) (hi : Bool) (d : Nat) (a : Nat) (b : Nat) : Round.Statement (.umul f hi d a b) := by
  refine roundUn rfl rfl rfl (by decide) fun hw => ?_
  change (Wf.uni f d a && Wf.s b) = true at hw
  simp only [Bool.and_eq_true] at hw
  have h1 := wfUni hw.1
  have h2 := wfS hw.2
  clear hw
  cases hi
  all_goals
    exact ⟨⟨by omega, by omega, by omega, by omega, by decide⟩, fun w W e1 e2 => by
      delta buildUni0
      simp [e1, W.fd, W.fra (by omega), W.frb (by omega), e2, natOf]
      try simp [fld, boolOf]
      try omega⟩

theorem Round.umulUi (f : UniF) (hi : Bool) (d : Nat) (a : Nat) (imm : Nat) : Round.Statement (.umulUi f hi d a imm) := by
  refine roundUnUi rfl rfl rfl (by decide) fun hw => ?_
  change (Wf.uni f d a && Wf.imm20 imm) = true at hw
  simp only [Bool.and_eq_true] at hw
  have h1 := wfUni hw.1
  have h2 := wfI20 hw.2
  clear hw
  cases hi
  all_goals
    exact ⟨⟨by omega, by omega, by omega, by omega, by decide⟩, fun w W e1 e2 => by
      delta buildUni0
      simp [e1, W.fd, W.fra (by omega), W.fimm, e2, natOf]
      try simp [fld, boolOf]
      try omega⟩

theorem Round.uand (f : UniF) (d : Nat) (a : Nat) (b : Nat) : Round.Statement (.uand f d a b) := by
  refine roundUn rfl rfl rfl (by decide) fun hw => ?_
  change (Wf.uni f d a && Wf.s b) = true at hw
  simp only [Bool.and_eq_true] at hw
  have h1 := wfUni hw.1
  have h2 := wfS hw.2
  exact ⟨⟨by omega, by omega, by omega, by omega, by decide⟩, fun w W e1 e2 => by
    delta buildUni0
    simp [e1, W.fd, W.fra (by omega), W.frb (by omega), e2]
    try simp [fld]
    try omega⟩

theorem Round.uandUi (f : UniF) (d : Nat) (a : Nat) (imm : Nat) : Round.Statement (.uandUi f d a imm) := by
  refine roundUnUi rfl rfl rfl (by decide) fun hw => ?_
  change (Wf.uni f d a && Wf.imm20 imm) = true at hw
  simp only [Bool.and_eq_true] at hw
  have h1 := wfUni hw.1
  have h2 := wfI20 hw.2
  exact ⟨⟨by omega, by omega, by omega, by omega, by decide⟩, fun w W e1 e2 => by
    delta buildUni0
    simp [e1, W.fd, W.fra (by omega), W.fimm, e2]
    try simp [fld]
    try omega⟩

theorem Round.uor (f : UniF) (d : Nat) (a : Nat) (b : Nat) : Round.Statement (.uor f d a b) := by
  refine roundUn rfl rfl rfl (by decide) fun hw => ?_
  change (Wf.uni f d a && Wf.s b) = true at hw
  simp only [Bool.and_eq_true] at hw
  have h1 := wfUni hw.1
  have h2 := wfS hw.2
  exact ⟨⟨by omega, by omega, by omega, by omega, by decide⟩, fun w W e1 e2 => by
    delta buildUni0
    simp [e1, W.fd, W.fra (by omega), W.frb (by omega), e2]
    try simp [fld]
    try omega⟩

theorem Round.uorUi (f : UniF) (d : Nat) (a : Nat) (imm : Nat) : Round.Statement (.uorUi f d a imm) := by
  refine roundUnUi rfl rfl rfl (by decide) fun hw => ?_
  change (Wf.uni f d a && Wf.imm20 imm) = true at hw
  simp only [Bool.and_eq_true] at hw
  have h1 := wfUni hw.1
  have h2 := wfI20 hw.2
  exact ⟨⟨by omega, by omega, by omega, by omega, by decide⟩, fun w W e1 e2 => by
    delta buildUni0
    simp [e1, W.fd, W.fra (by omega), W.fimm, e2]
    try simp [fld]
    try omega⟩

theorem Round.uxor (f : UniF) (d : Nat) (a : Nat) (b : Nat) : Round.Statement (.uxor f d a b) := by
  refine roundUn rfl rfl rfl (by decide) fun hw => ?_
  change (Wf.uni f d a && Wf.s b) = true at hw
  simp only [Bool.and_eq_true] at hw
  have h1 := wfUni hw.1
  have h2 := wfS hw.2
  exact ⟨⟨by omega, by omega, by omega, by omega, by decide⟩, fun w W e1 e2 => by
    delta buildUni0
    simp [e1, W.fd, W.fra (by omega), W.frb (by omega), e2]
    try simp [fld]
    try omega⟩

theorem Round.uxorUi (f : UniF) (d : Nat) (a : Nat) (imm : Nat) : Round.Statement (.uxorUi f d a imm) := by
  refine roundUnUi rfl rfl rfl (by decide) fun hw => ?_
  change (Wf.uni f d a && Wf.imm20 imm) = true at hw
  simp only [Bool.and_eq_true] at hw
  have h1 := wfUni hw.1
  have h2 := wfI20 hw.2
  exact ⟨⟨by omega, by omega, by omega, by omega, by decide⟩, fun w W e1 e2 => by
    delta buildUni0
    simp [e1, W.fd, W.fra (by omega), W.fimm, e2]
    try simp [fld]
    try omega⟩

theorem Round.ushl (f : UniF) (d : Nat) (a : Nat) (b : Nat) : Round.Statement (.ushl f d a b) := by
  refine roundUn rfl rfl rfl (by decide) fun hw => ?_
  change (Wf.uni f d a && Wf.s b) = true at hw
  simp only [Bool.and_eq_true] at hw
  have h1 := wfUni hw.1
  have h2 := wfS hw.2
  exact ⟨⟨by omega, by omega, by omega, by omega, by decide⟩, fun w W e1 e2 => by
    delta buildUni0
    simp [e1, W.fd, W.fra (by omega), W.frb (by omega), e2]
    try simp [fld]
    try omega⟩

theorem Round.ushlUi (f : UniF) (d : Nat) (a : Nat) (imm : Nat) : Round.Statement (.ushlUi f d a imm) := by
  refine roundUnUi rfl rfl rfl (by decide) fun hw => ?_
  change (Wf.uni f d a && Wf.imm20 imm) = true at hw
  simp only [Bool.and_eq_true] at hw
  have h1 := wfUni hw.1
  have h2 := wfI20 hw.2
  exact ⟨⟨by omega, by omega, by omega, by omega, by decide⟩, fun w W e1 e2 => by
    delta buildUni0
    simp [e1, W.fd, W.fra (by omega), W.fimm, e2]
    try simp [fld]
    try omega⟩

theorem Round.ushr (f : UniF) (d : Nat) (a : Nat) (b : Nat) : Round.Statement (.ushr f d a b) := by
  refine roundUn rfl rfl rfl (by decide) fun hw => ?_
  change (Wf.uni f d a && Wf.s b) = true at hw
  simp only [Bool.and_eq_true] at hw
  have h1 := wfUni hw.1
  have h2 := wfS hw.2
  exact ⟨⟨by omega, by omega, by omega, by omega, by decide⟩, fun w W e1 e2 => by
    delta buildUni0
    simp [e1, W.fd, W.fra (by omega), W.frb (by omega), e2]
    try simp [fld]
    try omega⟩

theorem Round.ushrUi (f : UniF) (d : Nat) (a : Nat) (imm : Nat) : Round.Statement (.ushrUi f d a imm) := by
  refine roundUnUi rfl rfl rfl (by decide) fun hw => ?_
  change (Wf.uni f d a && Wf.imm20 imm) = true at hw
  simp only [Bool.and_eq_true] at hw
  have h1 := wfUni hw.1
  have h2 := wfI20 hw.2
  exact ⟨⟨by omega, by omega, by omega, by omega, by decide⟩, fun w W e1 e2 => by
    delta buildUni0
    simp [e1, W.fd, W.fra (by omega), W.fimm, e2]
    try simp [fld]
    try omega⟩

theorem Round.usetp (f : UniF) (op : CmpOp) (d : Nat) (a : Nat) (b : Nat) (c : Nat) : Round.Statement (.usetp f op d a b c) := by
  refine roundV rfl rfl rfl ⟨by decide, by decide, by decide⟩ fun hw => ?_
  change (Wf.guard f.g && Wf.p d && Wf.s a && Wf.s b && Wf.p c) = true at hw
  simp only [Bool.and_eq_true] at hw
  have h1 := wfG hw.1.1.1.1
  have h2 := wfP hw.1.1.1.2
  have h3 := wfS hw.1.1.2
  have h4 := wfS hw.1.2
  have h5 := wfP hw.2
  have hc : op.code < 6 := by cases op <;> decide
  have n1 := natOf_lt f.s
  have n2 := natOf_lt f.w32
  refine ⟨⟨h1, by decide, by omega, by omega, by omega, by omega, by unfold UniF.mod; omega⟩, fun w W => ?_⟩
  have k1 : fld w 0 1 = natOf f.w32 := (W.inMod 0 1 (by decide)).trans (by unfold fld UniF.mod; omega)
  have k2 : fld w 1 1 = natOf f.s := (W.inMod 1 1 (by decide)).trans (by unfold fld UniF.mod; omega)
  have k3 : fld w 2 1 = 0 := (W.inMod 2 1 (by decide)).trans (by unfold fld UniF.mod; omega)
  have k4 : fld w 6 1 = 0 := (W.inMod 6 1 (by decide)).trans (by unfold fld UniF.mod; omega)
  have k5 : fld w 3 3 = op.code := (W.inMod 3 3 (by decide)).trans (by unfold fld UniF.mod; omega)
  have ho : CmpOp.ofCode op.code = some op := by cases op <;> rfl
  show buildUni0 10 w = _
  delta buildUni0
  simp [k1, k2, k3, k4, k5, ho, Sys2Proof.W.uniF, W.head.fg, W.fd, W.fra (show a < 256 by omega), W.frb (show b < 256 by omega), W.frc (show c < 256 by omega)]

theorem Round.usetpUi (f : UniF) (op : CmpOp) (d : Nat) (a : Nat) (imm : Nat) : Round.Statement (.usetpUi f op d a imm) := by
  refine roundVI rfl rfl rfl ⟨by decide, by decide, by decide⟩ fun hw => ?_
  change (Wf.guard f.g && Wf.p d && Wf.s a && Wf.imm20 imm) = true at hw
  simp only [Bool.and_eq_true] at hw
  have h1 := wfG hw.1.1.1
  have h2 := wfP hw.1.1.2
  have h3 := wfS hw.1.2
  have h4 := wfI20 hw.2
  have hc : op.code < 6 := by cases op <;> decide
  have n1 := natOf_lt f.s
  have n2 := natOf_lt f.w32
  refine ⟨⟨h1, by decide, by omega, by omega, h4, by unfold UniF.mod; omega⟩, fun w W => ?_⟩
  have k1 : fld w 0 1 = natOf f.w32 := (W.inMod 0 1 (by decide)).trans (by unfold fld UniF.mod; omega)
  have k2 : fld w 1 1 = natOf f.s := (W.inMod 1 1 (by decide)).trans (by unfold fld UniF.mod; omega)
  have k3 : fld w 2 1 = 0 := (W.inMod 2 1 (by decide)).trans (by unfold fld UniF.mod; omega)
  have k4 : fld w 6 1 = 0 := (W.inMod 6 1 (by decide)).trans (by unfold fld UniF.mod; omega)
  have k5 : fld w 3 3 = op.code := (W.inMod 3 3 (by decide)).trans (by unfold fld UniF.mod; omega)
  have ho : CmpOp.ofCode op.code = some op := by cases op <;> rfl
  show buildUni0 42 w = _
  delta buildUni0
  simp [k1, k2, k3, k4, k5, ho, Sys2Proof.W.uniF, W.head.fg, W.fd, W.fra (show a < 256 by omega), W.fimm]

theorem Round.usel (g : Guard) (q : Nat) (d : Nat) (a : Nat) (b : Nat) : Round.Statement (.usel g q d a b) := by
  refine roundV rfl rfl rfl ⟨by decide, by decide, by decide⟩ fun hw => ?_
  change (Wf.guard g && Wf.p q && Wf.s d && Wf.s a && Wf.s b) = true at hw
  simp only [Bool.and_eq_true] at hw
  have h1 := wfG hw.1.1.1.1
  have h2 := wfP hw.1.1.1.2
  have h3 := wfS hw.1.1.2
  have h4 := wfS hw.1.2
  have h5 := wfS hw.2
  exact ⟨⟨by omega, by omega, by omega, by omega, by omega, by omega, by omega⟩, fun w W => by
    show buildUni0 11 w = _
    delta buildUni0
    simp [W.head.fg, W.fd, W.fra (by omega), W.frb (by omega), W.inMod]
    try simp [fld]
    try omega⟩

theorem Round.uselUi (g : Guard) (q : Nat) (d : Nat) (a : Nat) (imm : Nat) : Round.Statement (.uselUi g q d a imm) := by
  refine roundVI rfl rfl rfl ⟨by decide, by decide, by decide⟩ fun hw => ?_
  change (Wf.guard g && Wf.p q && Wf.s d && Wf.s a && Wf.imm20 imm) = true at hw
  simp only [Bool.and_eq_true] at hw
  have h1 := wfG hw.1.1.1.1
  have h2 := wfP hw.1.1.1.2
  have h3 := wfS hw.1.1.2
  have h4 := wfS hw.1.2
  have h5 := wfI20 hw.2
  refine ⟨⟨h1, by decide, by omega, by omega, h5, by omega⟩, fun w W => ?_⟩
  have k1 : fld w 0 3 = q := (W.inMod 0 3 (by decide)).trans (fld_whole _ _ h2)
  have k2 : fld w 3 4 = 0 := (W.inMod 3 4 (by decide)).trans (by unfold fld; omega)
  show buildUni0 43 w = _
  delta buildUni0
  simp [k1, k2, W.head.fg, W.fd, W.fra (show a < 256 by omega), W.fimm]

theorem Round.v2s (g : Guard) (mode : Nat) (w64 : Bool) (d : Nat) (a : Src) (b : Nat) : Round.Statement (.v2s g mode w64 d a b) := by
  refine roundV rfl rfl rfl ⟨by decide, by decide, by decide⟩ fun hw => ?_
  change (Wf.guard g && mode < 3 && Wf.s d && Wf.src (if w64 then 2 else 1) a && Wf.s b && (mode == 1 || b == 0)) = true at hw
  simp only [Bool.and_eq_true] at hw
  have h1 := wfG hw.1.1.1.1.1
  have h2 := of_decide_eq_true hw.1.1.1.1.2
  have h3 := wfS hw.1.1.1.2
  have h4 := wfSrc hw.1.1.2
  have h5 := wfS hw.1.2
  have hx : mode = 1 ∨ b = 0 := by simpa using hw.2
  have n1 := natOf_lt w64
  refine ⟨⟨h1, by decide, by omega, a.code_lt h4, by omega, by decide, by omega⟩, fun w W => ?_⟩
  have k1 : fld w 0 4 = 0 := (W.inMod 0 4 (by decide)).trans (by unfold fld; omega)
  have k2 : fld w 5 2 = mode := (W.inMod 5 2 (by decide)).trans (by unfold fld; omega)
  have k3 : fld w 4 1 = natOf w64 := (W.inMod 4 1 (by decide)).trans (by unfold fld; omega)
  have hb : (if mode = 1 then b else 0) = b := by
    rcases hx with rfl | rfl <;> simp
  show buildUni0 12 w = _
  delta buildUni0
  simp only [k1, k2, k3, W.head.fg, W.fd, W.fa h4, W.frb (show b < 256 by omega), hb, boolOf_natOf, if_true]

theorem Round.s2v (g : Guard) (w64 : Bool) (d : Nat) (a : Nat) : Round.Statement (.s2v g w64 d a) := by
  refine roundV rfl rfl rfl ⟨by decide, by decide, by decide⟩ fun hw => ?_
  change (Wf.guard g && Wf.v (if w64 then 2 else 1) d && Wf.s a) = true at hw
  simp only [Bool.and_eq_true] at hw
  have h1 := wfG hw.1.1
  have h2 := wfV hw.1.2
  have h3 := wfS hw.2
  clear hw
  cases w64
  all_goals
    exact ⟨⟨by omega, by omega, by omega, by omega, by omega, by omega, by first | decide | omega | (simp only [natOf]; omega)⟩, fun w W => by
      show buildUni0 13 w = _
      delta buildUni0
      simp [W.head.fg, W.fd, W.fra (by omega), W.inMod, natOf]
      try simp [fld, boolOf]
      try omega⟩

theorem Round.sregR (g : Guard) (d : Nat) (sel : SregSel) : Round.Statement (.sregR g d sel) := by
  refine roundV rfl rfl rfl ⟨by decide, by decide, by decide⟩ fun hw => ?_
  change (Wf.guard g && Wf.s d && Wf.sregSel sel) = true at hw
  simp only [Bool.and_eq_true] at hw
  have hc := SregSel.code_lt sel hw.2
  have hd := wfS hw.1.2
  refine ⟨⟨wfG hw.1.1, by decide, by omega, by decide, by decide, by decide, by omega⟩, fun w W => ?_⟩
  have k1 : fld w 0 6 = sel.code := (W.inMod 0 6 (by decide)).trans (by unfold fld; omega)
  have k2 : fld w 6 1 = 0 := (W.inMod 6 1 (by decide)).trans (by unfold fld; omega)
  show buildUni0 14 w = _
  delta buildUni0
  simp [k1, k2, SregSel.back sel hw.2, W.head.fg, W.fd, boolOf]

theorem Round.sregW (g : Guard) (sel : SregSel) (a : Nat) : Round.Statement (.sregW g sel a) := by
  refine roundV rfl rfl rfl ⟨by decide, by decide, by decide⟩ fun hw => ?_
  change (Wf.guard g && sel == .fflags && Wf.s a) = true at hw
  simp only [Bool.and_eq_true, beq_iff_eq] at hw
  obtain ⟨⟨hg, rfl⟩, ha⟩ := hw
  have ha := wfS ha
  refine ⟨⟨wfG hg, by decide, by decide, by omega, by decide, by decide, by decide⟩, fun w W => ?_⟩
  have k1 : fld w 0 6 = 3 := W.inMod 0 6 (by decide)
  have k2 : fld w 6 1 = 1 := W.inMod 6 1 (by decide)
  show buildUni0 14 w = _
  delta buildUni0
  simp [k1, k2, SregSel.ofCode, W.head.fg, W.fra (by omega), boolOf]

theorem Round.tshape (g : Guard) (n : Nat) (a : Nat) : Round.Statement (.tshape g n a) := by
  refine roundV rfl rfl rfl ⟨by decide, by decide, by decide⟩ fun hw => ?_
  change (Wf.guard g && Wf.t n && Wf.s a) = true at hw
  simp only [Bool.and_eq_true] at hw
  have h1 := wfG hw.1.1
  have h2 := wfT hw.1.2
  have h3 := wfS hw.2
  exact ⟨⟨by omega, by omega, by omega, by omega, by omega, by omega, by omega⟩, fun w W => by
    show buildUni0 15 w = _
    delta buildUni0
    simp [W.head.fg, W.fd, W.fmod, W.fra (by omega)]
    try simp [fld]
    try omega⟩

theorem Round.uld (f : UldF) (d : Nat) : Round.Statement (.uld f d) := by
  refine roundVMA rfl rfl rfl ⟨by decide, by decide, by decide⟩ fun hw => ?_
  change (Wf.guard f.g && Wf.la f.la && Wf.s f.base && Wf.off12 f.off && f.size < 4 && (f.ord == .plain || f.ord == .acq) && Wf.s d) = true at hw
  simp only [Bool.and_eq_true] at hw
  have hb := wfS hw.1.1.1.1.2
  have hd := wfS hw.2
  have hz := of_decide_eq_true hw.1.1.2
  refine ⟨⟨wfG hw.1.1.1.1.1.1, wfLa hw.1.1.1.1.1.2, by omega, show f.base < 256 by omega, wfOff12 hw.1.1.1.2, show f.size < 8 by omega⟩,
    fun w e0 e1 e2 e3 e4 e5 => ?_⟩
  show buildUni1 0 w = _
  delta buildUni1
  simp [e0, e1, e2, e3, e5, show natOf false = 0 from rfl]

theorem Round.sdef (g : Guard) (a : Nat) (b : Nat) (c : Nat) : Round.Statement (.sdef g a b c) := by
  refine roundV rfl rfl rfl ⟨by decide, by decide, by decide⟩ fun hw => ?_
  change (Wf.guard g && Wf.s a && Wf.s b && Wf.s c) = true at hw
  simp only [Bool.and_eq_true] at hw
  have h1 := wfG hw.1.1.1
  have h2 := wfS hw.1.1.2
  have h3 := wfS hw.1.2
  have h4 := wfS hw.2
  exact ⟨⟨by omega, by omega, by omega, by omega, by omega, by omega, by omega⟩, fun w W => by
    show buildUni1 1 w = _
    delta buildUni1
    simp [W.head.fg, W.fmod, W.fra (by omega), W.frb (by omega), W.frc (by omega)]
    try simp [fld]
    try omega⟩

theorem Round.fence (g : Guard) (ord : Order) (scope : Scope) : Round.Statement (.fence g ord scope) := by
  refine roundV rfl rfl rfl ⟨by decide, by decide, by decide⟩ fun hw => ?_
  change (Wf.guard g && ord != .plain) = true at hw
  simp only [Bool.and_eq_true] at hw
  have h1 := wfG hw.1
  have x1 := hw.2
  clear hw
  cases ord <;> cases scope
  all_goals
    exact ⟨⟨by omega, by omega, by omega, by omega, by omega, by omega, by first | decide | omega | (simp only [Order.code, Scope.code]; omega)⟩, fun w W => by
      show buildUni1 2 w = _
      delta buildUni1
      simp [W.head.fg, W.inMod, Order.code, Scope.code]
      try simp [fld, Order.ofCode, Scope.ofCode]
      try omega⟩

theorem Round.tfence (g : Guard) (sc : TScope) : Round.Statement (.tfence g sc) := by
  refine roundV rfl rfl rfl ⟨by decide, by decide, by decide⟩ fun hw => ?_
  change (Wf.guard g) = true at hw
  have h1 := wfG hw
  clear hw
  cases sc
  all_goals
    exact ⟨⟨by omega, by omega, by omega, by omega, by omega, by omega, by first | decide | omega | (simp only [TScope.code]; omega)⟩, fun w W => by
      show buildUni1 3 w = _
      delta buildUni1
      simp [W.head.fg, W.fra (by omega), W.frb (by omega), W.inMod, TScope.code]
      try simp [fld, TScope.ofCode]
      try omega⟩

theorem Round.tfenceRange (g : Guard) (sc : TScope) (a : Nat) (b : Nat) : Round.Statement (.tfenceRange g sc a b) := by
  refine roundV rfl rfl rfl ⟨by decide, by decide, by decide⟩ fun hw => ?_
  change (Wf.guard g && Wf.s a && Wf.s b) = true at hw
  simp only [Bool.and_eq_true] at hw
  have h1 := wfG hw.1.1
  have h2 := wfS hw.1.2
  have h3 := wfS hw.2
  clear hw
  cases sc
  all_goals
    exact ⟨⟨by omega, by omega, by omega, by omega, by omega, by omega, by first | decide | omega | (simp only [TScope.code]; omega)⟩, fun w W => by
      show buildUni1 3 w = _
      delta buildUni1
      simp [W.head.fg, W.fra (by omega), W.frb (by omega), W.inMod, TScope.code]
      try simp [fld, TScope.ofCode]
      try omega⟩

theorem Round.tfenceAll (g : Guard) (sc : TScope) : Round.Statement (.tfenceAll g sc) := by
  refine roundV rfl rfl rfl ⟨by decide, by decide, by decide⟩ fun hw => ?_
  change (Wf.guard g) = true at hw
  have h1 := wfG hw
  clear hw
  cases sc
  all_goals
    exact ⟨⟨by omega, by omega, by omega, by omega, by omega, by omega, by first | decide | omega | (simp only [TScope.code]; omega)⟩, fun w W => by
      show buildUni1 3 w = _
      delta buildUni1
      simp [W.head.fg, W.fra (by omega), W.frb (by omega), W.inMod, TScope.code]
      try simp [fld, TScope.ofCode]
      try omega⟩

theorem Round.bind (g : Guard) (size : Nat) (base : Nat) (start : Nat) (len : Nat) : Round.Statement (.bind g size base start len) := by
  refine roundVMB rfl rfl rfl ⟨by decide, by decide⟩ fun hw => ?_
  change (Wf.guard g && (size == 2 || size == 3) && Wf.s base && Wf.s start && Wf.s len) = true at hw
  simp only [Bool.and_eq_true] at hw
  have hg := wfG hw.1.1.1.1
  have hz : size = 2 ∨ size = 3 := by simpa using hw.1.1.1.2
  have hb := wfS hw.1.1.2
  have hs := wfS hw.1.2
  have hl := wfS hw.2
  refine ⟨⟨hg, by omega, by omega, by omega, by omega, by omega, by omega, by omega, by omega, by omega, by omega⟩, fun w e0 e2 k => ?_⟩
  have k12_4 : fld w 12 4 = 0 := (k 12 4 (by decide)).trans (by unfold fld; simp only [show natOf false = 0 from rfl]; omega)
  have k16_2 : fld w 16 2 = 0 := (k 16 2 (by decide)).trans (by unfold fld; simp only [show natOf false = 0 from rfl]; omega)
  have k4_8 : fld w 4 8 = 0 := (k 4 8 (by decide)).trans (by unfold fld; simp only [show natOf false = 0 from rfl]; omega)
  have k0_1 : fld w 0 1 = 0 := (k 0 1 (by decide)).trans (by unfold fld; simp only [show natOf false = 0 from rfl]; omega)
  have k1_3 : fld w 1 3 = size := (k 1 3 (by decide)).trans (by unfold fld; simp only [show natOf false = 0 from rfl]; omega)
  have k29_8 : fld w 29 8 = base := (k 29 8 (by decide)).trans (by unfold fld; simp only [show natOf false = 0 from rfl]; omega)
  have k19_8 : fld w 19 8 = len := (k 19 8 (by decide)).trans (by unfold fld; simp only [show natOf false = 0 from rfl]; omega)
  show buildUni1 4 w = _
  delta buildUni1
  simp [e0, e2, W.ra, W.rb, k12_4, k16_2, k4_8, k0_1, k1_3, k29_8, k19_8]

theorem Round.unbind (g : Guard) (size : Nat) (base : Nat) : Round.Statement (.unbind g size base) := by
  refine roundVMB rfl rfl rfl ⟨by decide, by decide⟩ fun hw => ?_
  change (Wf.guard g && (size == 2 || size == 3) && Wf.s base) = true at hw
  simp only [Bool.and_eq_true] at hw
  have hg := wfG hw.1.1
  have hz : size = 2 ∨ size = 3 := by simpa using hw.1.2
  have hb := wfS hw.2
  refine ⟨⟨hg, by omega, by omega, by omega, by omega, by omega, by omega, by omega, by omega, by omega, by omega⟩, fun w e0 e2 k => ?_⟩
  have k1_3 : fld w 1 3 = size := (k 1 3 (by decide)).trans (by unfold fld; simp only [show natOf false = 0 from rfl]; omega)
  have k29_8 : fld w 29 8 = base := (k 29 8 (by decide)).trans (by unfold fld; simp only [show natOf false = 0 from rfl]; omega)
  have k4_14 : fld w 4 14 = 0 := (k 4 14 (by decide)).trans (by unfold fld; simp only [show natOf false = 0 from rfl]; omega)
  have k0_1 : fld w 0 1 = 0 := (k 0 1 (by decide)).trans (by unfold fld; simp only [show natOf false = 0 from rfl]; omega)
  show buildUni1 5 w = _
  delta buildUni1
  simp [e0, W.ra, k1_3, k29_8, k4_14, k0_1]

theorem Round.ipf (g : Guard) (a : Nat) (d : Int) (n : Nat) : Round.Statement (.ipf g a d n) := by
  refine roundVI rfl rfl rfl ⟨by decide, by decide, by decide⟩ fun hw => ?_
  change (Wf.guard g && Wf.s a && decide (-32768 ≤ d) && decide (d < 32768) && decide (1 ≤ n) && decide (n ≤ 16)) = true at hw
  simp only [Bool.and_eq_true, decide_eq_true_eq] at hw
  obtain ⟨⟨⟨⟨⟨hg, ha⟩, hd1⟩, hd2⟩, hn1⟩, hn2⟩ := hw
  have ha := wfS ha
  have hc : sCode d 16 < 65536 := sCode_lt d 16
  refine ⟨⟨wfG hg, by decide, by decide, by omega, by omega, by decide⟩, fun w W => ?_⟩
  have k1 : fld w 7 4 = n - 1 := (W.inImm 7 4 (by decide) (by decide)).trans (by unfold fld; omega)
  have k2 : sfld w 11 16 = d := sfld_eq (by decide) ((W.inImm 11 16 (by decide) (by decide)).trans (by unfold fld; omega)) (by simpa using hd1) (by simpa using hd2)
  show buildUni1 6 w = _
  delta buildUni1
  simp only [k1, k2, W.head.fg, W.fra (show a < 256 by omega), W.fmod, if_true]
  rw [show n - 1 + 1 = n by omega]

theorem Round.barSync (g : Guard) (q : Nat) (bar : Nat) (a : Nat) : Round.Statement (.barSync g q bar a) := by
  refine roundV rfl rfl rfl ⟨by decide, by decide, by decide⟩ fun hw => ?_
  change (Wf.guard g && Wf.p q && Wf.t bar && Wf.s a) = true at hw
  simp only [Bool.and_eq_true] at hw
  have h1 := wfG hw.1.1.1
  have h2 := wfP hw.1.1.2
  have h3 := wfT hw.1.2
  have h4 := wfS hw.2
  exact ⟨⟨by omega, by omega, by omega, by omega, by omega, by omega, by omega⟩, fun w W => by
    show buildUni2 0 w = _
    delta buildUni2
    simp [W.head.fg, W.fd, W.fmod, W.fra (by omega), W.frc (by omega)]
    try simp [fld]
    try omega⟩

theorem Round.barArrive (g : Guard) (q : Nat) (bar : Nat) (a : Nat) : Round.Statement (.barArrive g q bar a) := by
  refine roundV rfl rfl rfl ⟨by decide, by decide, by decide⟩ fun hw => ?_
  change (Wf.guard g && Wf.p q && Wf.t bar && Wf.s a) = true at hw
  simp only [Bool.and_eq_true] at hw
  have h1 := wfG hw.1.1.1
  have h2 := wfP hw.1.1.2
  have h3 := wfT hw.1.2
  have h4 := wfS hw.2
  exact ⟨⟨by omega, by omega, by omega, by omega, by omega, by omega, by omega⟩, fun w W => by
    show buildUni2 0 w = _
    delta buildUni2
    simp [W.head.fg, W.fd, W.fmod, W.fra (by omega), W.frc (by omega)]
    try simp [fld]
    try omega⟩

theorem Round.barWait (g : Guard) (q : Nat) (bar : Nat) : Round.Statement (.barWait g q bar) := by
  refine roundV rfl rfl rfl ⟨by decide, by decide, by decide⟩ fun hw => ?_
  change (Wf.guard g && Wf.p q && Wf.t bar) = true at hw
  simp only [Bool.and_eq_true] at hw
  have h1 := wfG hw.1.1
  have h2 := wfP hw.1.2
  have h3 := wfT hw.2
  exact ⟨⟨by omega, by omega, by omega, by omega, by omega, by omega, by omega⟩, fun w W => by
    show buildUni2 0 w = _
    delta buildUni2
    simp [W.head.fg, W.fd, W.fmod, W.fra (by omega), W.frc (by omega)]
    try simp [fld]
    try omega⟩

theorem Round.barp (g : Guard) (op : BarOp) (d : Nat) (bar : Nat) (b : Nat) (a : Nat) : Round.Statement (.barp g op d bar b a) := by
  refine roundV rfl rfl rfl ⟨by decide, by decide, by decide⟩ fun hw => ?_
  change (Wf.guard g && Wf.s d && Wf.t bar && Wf.s b && Wf.s a) = true at hw
  simp only [Bool.and_eq_true] at hw
  have h1 := wfG hw.1.1.1.1
  have h2 := wfS hw.1.1.1.2
  have h3 := wfT hw.1.1.2
  have h4 := wfS hw.1.2
  have h5 := wfS hw.2
  clear hw
  cases op
  all_goals
    exact ⟨⟨by omega, by omega, by omega, by omega, by omega, by omega, by first | decide | omega | (simp only [BarOp.code]; omega)⟩, fun w W => by
      show buildUni2 1 w = _
      delta buildUni2
      simp [W.head.fg, W.fd, W.fra (by omega), W.frb (by omega), W.frc (by omega), W.inMod, BarOp.code]
      try simp [fld, BarOp.ofCode]
      try omega⟩

theorem Round.bardrop (g : Guard) (bar : Nat) : Round.Statement (.bardrop g bar) := by
  refine roundV rfl rfl rfl ⟨by decide, by decide, by decide⟩ fun hw => ?_
  change (Wf.guard g && Wf.t bar) = true at hw
  simp only [Bool.and_eq_true] at hw
  have h1 := wfG hw.1
  have h2 := wfT hw.2
  exact ⟨⟨by omega, by omega, by omega, by omega, by omega, by omega, by omega⟩, fun w W => by
    show buildUni2 2 w = _
    delta buildUni2
    simp [W.head.fg, W.fmod, W.frc (by omega)]
    try simp [fld]
    try omega⟩

theorem Round.arrivec (g : Guard) (ord : Order) (scope : Scope) (base : Nat) (opb : Nat) (q : Nat) : Round.Statement (.arrivec g ord scope base opb q) := by
  refine roundVMB rfl rfl rfl ⟨by decide, by decide⟩ fun hw => ?_
  change (Wf.guard g && Wf.s base && Wf.s opb && Wf.p q) = true at hw
  simp only [Bool.and_eq_true] at hw
  have hg := wfG hw.1.1.1
  have hb := wfS hw.1.1.2
  have ho := wfS hw.1.2
  have hq := wfP hw.2
  have h1 := ord.code_lt
  have h2 := scope.code_lt
  refine ⟨⟨hg, by omega, by omega, by omega, by omega, by omega, by omega, by omega, by omega, by omega, by omega⟩, fun w e0 e2 k => ?_⟩
  have k9_9 : fld w 9 9 = 0 := (k 9 9 (by decide)).trans (by unfold fld; simp only [show natOf false = 0 from rfl]; omega)
  have k1_3 : fld w 1 3 = 3 := (k 1 3 (by decide)).trans (by unfold fld; simp only [show natOf false = 0 from rfl]; omega)
  have k0_1 : fld w 0 1 = 0 := (k 0 1 (by decide)).trans (by unfold fld; simp only [show natOf false = 0 from rfl]; omega)
  have k4_3 : fld w 4 3 = scope.code := (k 4 3 (by decide)).trans (by unfold fld; simp only [show natOf false = 0 from rfl]; omega)
  have k7_2 : fld w 7 2 = ord.code := (k 7 2 (by decide)).trans (by unfold fld; simp only [show natOf false = 0 from rfl]; omega)
  have k29_8 : fld w 29 8 = base := (k 29 8 (by decide)).trans (by unfold fld; simp only [show natOf false = 0 from rfl]; omega)
  have k19_8 : fld w 19 8 = opb := (k 19 8 (by decide)).trans (by unfold fld; simp only [show natOf false = 0 from rfl]; omega)
  show buildUni2 3 w = _
  delta buildUni2
  simp [e0, e2, W.ra, W.rb, k9_9, k1_3, k0_1, k4_3, k7_2, k29_8, k19_8]

theorem Round.cwait (g : Guard) (useTarget : Bool) (acq : Bool) (scope : Scope) (base : Nat) (opb : Nat) : Round.Statement (.cwait g useTarget acq scope base opb) := by
  refine roundVMB rfl rfl rfl ⟨by decide, by decide⟩ fun hw => ?_
  change (Wf.guard g && Wf.s base && Wf.s opb && (!useTarget || opb == 0)) = true at hw
  simp only [Bool.and_eq_true] at hw
  have hg := wfG hw.1.1.1
  have hb := wfS hw.1.1.2
  have ho := wfS hw.1.2
  have h1 := natOf_lt useTarget
  have h2 := scope.code_lt
  have h3 := natOf_lt acq
  have hx := hw.2
  refine ⟨⟨hg, by omega, by omega, by omega, by omega, by omega, by omega, by omega, by omega, by omega, by omega⟩, fun w e0 e2 k => ?_⟩
  have k9_3 : fld w 9 3 = 0 := (k 9 3 (by decide)).trans (by unfold fld; simp only [show natOf false = 0 from rfl]; omega)
  have k13_5 : fld w 13 5 = 0 := (k 13 5 (by decide)).trans (by unfold fld; simp only [show natOf false = 0 from rfl]; omega)
  have k1_3 : fld w 1 3 = 3 := (k 1 3 (by decide)).trans (by unfold fld; simp only [show natOf false = 0 from rfl]; omega)
  have k0_1 : fld w 0 1 = 0 := (k 0 1 (by decide)).trans (by unfold fld; simp only [show natOf false = 0 from rfl]; omega)
  have k8_1 : fld w 8 1 = 0 := (k 8 1 (by decide)).trans (by unfold fld; simp only [show natOf false = 0 from rfl]; omega)
  have k4_3 : fld w 4 3 = scope.code := (k 4 3 (by decide)).trans (by unfold fld; simp only [show natOf false = 0 from rfl]; omega)
  have k7_1 : fld w 7 1 = natOf acq := (k 7 1 (by decide)).trans (by unfold fld; simp only [show natOf false = 0 from rfl]; omega)
  have k12_1 : fld w 12 1 = natOf useTarget := (k 12 1 (by decide)).trans (by unfold fld; simp only [show natOf false = 0 from rfl]; omega)
  have k29_8 : fld w 29 8 = base := (k 29 8 (by decide)).trans (by unfold fld; simp only [show natOf false = 0 from rfl]; omega)
  have k19_8 : fld w 19 8 = opb := (k 19 8 (by decide)).trans (by unfold fld; simp only [show natOf false = 0 from rfl]; omega)
  show buildUni2 4 w = _
  delta buildUni2
  have hx' : natOf useTarget = 0 ∨ opb = 0 := by cases useTarget <;> simp [natOf] at hx ⊢; exact hx
  simp [e0, W.ra, W.rb, k9_3, k13_5, k1_3, k0_1, k8_1, k4_3, k7_1, k12_1, k29_8, k19_8, hx']

theorem Round.cwaitb (g : Guard) (acq : Bool) (scope : Scope) (base : Nat) (opb : Nat) : Round.Statement (.cwaitb g acq scope base opb) := by
  refine roundVMB rfl rfl rfl ⟨by decide, by decide⟩ fun hw => ?_
  change (Wf.guard g && Wf.s base && Wf.s opb) = true at hw
  simp only [Bool.and_eq_true] at hw
  have hg := wfG hw.1.1
  have hb := wfS hw.1.2
  have ho := wfS hw.2
  have h2 := scope.code_lt
  have h3 := natOf_lt acq
  refine ⟨⟨hg, by omega, by omega, by omega, by omega, by omega, by omega, by omega, by omega, by omega, by omega⟩, fun w e0 e2 k => ?_⟩
  have k9_9 : fld w 9 9 = 0 := (k 9 9 (by decide)).trans (by unfold fld; simp only [show natOf false = 0 from rfl]; omega)
  have k0_4 : fld w 0 4 = 0 := (k 0 4 (by decide)).trans (by unfold fld; simp only [show natOf false = 0 from rfl]; omega)
  have k8_1 : fld w 8 1 = 0 := (k 8 1 (by decide)).trans (by unfold fld; simp only [show natOf false = 0 from rfl]; omega)
  have k4_3 : fld w 4 3 = scope.code := (k 4 3 (by decide)).trans (by unfold fld; simp only [show natOf false = 0 from rfl]; omega)
  have k7_1 : fld w 7 1 = natOf acq := (k 7 1 (by decide)).trans (by unfold fld; simp only [show natOf false = 0 from rfl]; omega)
  have k29_8 : fld w 29 8 = base := (k 29 8 (by decide)).trans (by unfold fld; simp only [show natOf false = 0 from rfl]; omega)
  have k19_8 : fld w 19 8 = opb := (k 19 8 (by decide)).trans (by unfold fld; simp only [show natOf false = 0 from rfl]; omega)
  show buildUni2 5 w = _
  delta buildUni2
  simp [e0, W.ra, W.rb, k9_9, k0_4, k8_1, k4_3, k7_1, k29_8, k19_8]

theorem Round.monitor (g : Guard) (base : Nat) : Round.Statement (.monitor g base) := by
  refine roundVMB rfl rfl rfl ⟨by decide, by decide⟩ fun hw => ?_
  change (Wf.guard g && Wf.s base) = true at hw
  simp only [Bool.and_eq_true] at hw
  have hg := wfG hw.1
  have hb := wfS hw.2
  refine ⟨⟨hg, by omega, by omega, by omega, by omega, by omega, by omega, by omega, by omega, by omega, by omega⟩, fun w e0 e2 k => ?_⟩
  have k29_8 : fld w 29 8 = base := (k 29 8 (by decide)).trans (by unfold fld; simp only [show natOf false = 0 from rfl]; omega)
  have k0_18 : fld w 0 18 = 0 := (k 0 18 (by decide)).trans (by unfold fld; simp only [show natOf false = 0 from rfl]; omega)
  show buildUni2 6 w = _
  delta buildUni2
  simp [plainUm, e0, W.ra, k29_8, k0_18]

theorem Round.mwait (g : Guard) : Round.Statement (.mwait g) := by
  refine roundV rfl rfl rfl ⟨by decide, by decide, by decide⟩ fun hw => ?_
  change (Wf.guard g) = true at hw
  have h1 := wfG hw
  exact ⟨⟨by omega, by omega, by omega, by omega, by omega, by omega, by omega⟩, fun w W => by
    show buildUni2 7 w = _
    delta buildUni2
    simp [W.head.fg, W.fmod]
    try simp [fld]
    try omega⟩

theorem Round.qpush (g : Guard) (base : Nat) (opb : Nat) (q : Nat) : Round.Statement (.qpush g base opb q) := by
  refine roundVMB rfl rfl rfl ⟨by decide, by decide⟩ fun hw => ?_
  change (Wf.guard g && Wf.s base && Wf.s opb && Wf.p q) = true at hw
  simp only [Bool.and_eq_true] at hw
  have hg := wfG hw.1.1.1
  have hb := wfS hw.1.1.2
  have ho := wfS hw.1.2
  have hq := wfP hw.2
  refine ⟨⟨hg, by omega, by omega, by omega, by omega, by omega, by omega, by omega, by omega, by omega, by omega⟩, fun w e0 e2 k => ?_⟩
  have k0_18 : fld w 0 18 = 0 := (k 0 18 (by decide)).trans (by unfold fld; simp only [show natOf false = 0 from rfl]; omega)
  have k29_8 : fld w 29 8 = base := (k 29 8 (by decide)).trans (by unfold fld; simp only [show natOf false = 0 from rfl]; omega)
  have k19_8 : fld w 19 8 = opb := (k 19 8 (by decide)).trans (by unfold fld; simp only [show natOf false = 0 from rfl]; omega)
  show buildUni2 8 w = _
  delta buildUni2
  simp [e0, e2, W.ra, W.rb, plainUm, k0_18, k29_8, k19_8]

theorem Round.qpop (g : Guard) (d : Nat) (base : Nat) (q : Nat) : Round.Statement (.qpop g d base q) := by
  refine roundVMB rfl rfl rfl ⟨by decide, by decide⟩ fun hw => ?_
  change (Wf.guard g && Wf.s d && Wf.s base && Wf.p q) = true at hw
  simp only [Bool.and_eq_true] at hw
  have hg := wfG hw.1.1.1
  have hb := wfS hw.1.1.2
  have ho := wfS hw.1.2
  have hq := wfP hw.2
  refine ⟨⟨hg, by omega, by omega, by omega, by omega, by omega, by omega, by omega, by omega, by omega, by omega⟩, fun w e0 e2 k => ?_⟩
  have k0_18 : fld w 0 18 = 0 := (k 0 18 (by decide)).trans (by unfold fld; simp only [show natOf false = 0 from rfl]; omega)
  have k29_8 : fld w 29 8 = base := (k 29 8 (by decide)).trans (by unfold fld; simp only [show natOf false = 0 from rfl]; omega)
  have k19_8 : fld w 19 8 = q := (k 19 8 (by decide)).trans (by unfold fld; simp only [show natOf false = 0 from rfl]; omega)
  show buildUni2 9 w = _
  delta buildUni2
  simp [e0, e2, W.ra, W.rb, plainUm, k0_18, k29_8, k19_8]

theorem Round.park (g : Guard) (d : Nat) (base : Nat) (q : Nat) : Round.Statement (.park g d base q) := by
  refine roundVMB rfl rfl rfl ⟨by decide, by decide⟩ fun hw => ?_
  change (Wf.guard g && Wf.s d && Wf.s base && Wf.p q) = true at hw
  simp only [Bool.and_eq_true] at hw
  have hg := wfG hw.1.1.1
  have hb := wfS hw.1.1.2
  have ho := wfS hw.1.2
  have hq := wfP hw.2
  refine ⟨⟨hg, by omega, by omega, by omega, by omega, by omega, by omega, by omega, by omega, by omega, by omega⟩, fun w e0 e2 k => ?_⟩
  have k0_18 : fld w 0 18 = 0 := (k 0 18 (by decide)).trans (by unfold fld; simp only [show natOf false = 0 from rfl]; omega)
  have k29_8 : fld w 29 8 = base := (k 29 8 (by decide)).trans (by unfold fld; simp only [show natOf false = 0 from rfl]; omega)
  have k19_8 : fld w 19 8 = q := (k 19 8 (by decide)).trans (by unfold fld; simp only [show natOf false = 0 from rfl]; omega)
  show buildUni2 10 w = _
  delta buildUni2
  simp [e0, e2, W.ra, W.rb, plainUm, k0_18, k29_8, k19_8]

theorem Round.fulfil (g : Guard) (base : Nat) (opb : Nat) (q : Nat) : Round.Statement (.fulfil g base opb q) := by
  refine roundVMB rfl rfl rfl ⟨by decide, by decide⟩ fun hw => ?_
  change (Wf.guard g && Wf.s base && Wf.s opb && Wf.p q) = true at hw
  simp only [Bool.and_eq_true] at hw
  have hg := wfG hw.1.1.1
  have hb := wfS hw.1.1.2
  have ho := wfS hw.1.2
  have hq := wfP hw.2
  refine ⟨⟨hg, by omega, by omega, by omega, by omega, by omega, by omega, by omega, by omega, by omega, by omega⟩, fun w e0 e2 k => ?_⟩
  have k0_18 : fld w 0 18 = 0 := (k 0 18 (by decide)).trans (by unfold fld; simp only [show natOf false = 0 from rfl]; omega)
  have k29_8 : fld w 29 8 = base := (k 29 8 (by decide)).trans (by unfold fld; simp only [show natOf false = 0 from rfl]; omega)
  have k19_8 : fld w 19 8 = opb := (k 19 8 (by decide)).trans (by unfold fld; simp only [show natOf false = 0 from rfl]; omega)
  show buildUni2 11 w = _
  delta buildUni2
  simp [e0, e2, W.ra, W.rb, plainUm, k0_18, k29_8, k19_8]

theorem Round.launch (g : Guard) (d : Nat) (a : Nat) : Round.Statement (.launch g d a) := by
  refine roundV rfl rfl rfl ⟨by decide, by decide, by decide⟩ fun hw => ?_
  change (Wf.guard g && Wf.s d && Wf.s a) = true at hw
  simp only [Bool.and_eq_true] at hw
  have h1 := wfG hw.1.1
  have h2 := wfS hw.1.2
  have h3 := wfS hw.2
  exact ⟨⟨by omega, by omega, by omega, by omega, by omega, by omega, by omega⟩, fun w W => by
    show buildUni3 0 w = _
    delta buildUni3
    simp [W.head.fg, W.fd, W.fmod, W.fra (by omega)]
    try simp [fld]
    try omega⟩

theorem Round.vsp (g : Guard) (k : Nat) : Round.Statement (.vsp g k) := by
  refine roundVI rfl rfl rfl ⟨by decide, by decide, by decide⟩ fun hw => ?_
  change (Wf.guard g && k < 32) = true at hw
  simp only [Bool.and_eq_true] at hw
  have h1 := wfG hw.1
  have h2 := of_decide_eq_true hw.2
  exact ⟨⟨by omega, by omega, by omega, by omega, by omega, by omega⟩, fun w W => by
    show buildUni3 1 w = _
    delta buildUni3
    simp [W.head.fg, W.fmod, W.fimm]
    try simp [fld]
    try omega⟩

theorem Round.sget (g : Guard) (sel : SgetSel) (d : Nat) : Round.Statement (.sget g sel d) := by
  refine roundV rfl rfl rfl ⟨by decide, by decide, by decide⟩ fun hw => ?_
  change (Wf.guard g && Wf.s d) = true at hw
  simp only [Bool.and_eq_true] at hw
  have h1 := wfG hw.1
  have h2 := wfS hw.2
  clear hw
  cases sel
  all_goals
    exact ⟨⟨by omega, by omega, by omega, by omega, by omega, by omega, by first | decide | omega | (simp only [SgetSel.code]; omega)⟩, fun w W => by
      show buildUni3 2 w = _
      delta buildUni3
      simp [W.head.fg, W.fd, W.fmod, SgetSel.code]
      try simp [SgetSel.ofCode]
      try omega⟩

theorem Round.sput (g : Guard) (sel : SputSel) (a : Nat) : Round.Statement (.sput g sel a) := by
  refine roundV rfl rfl rfl ⟨by decide, by decide, by decide⟩ fun hw => ?_
  change (Wf.guard g && Wf.s a) = true at hw
  simp only [Bool.and_eq_true] at hw
  have h1 := wfG hw.1
  have h2 := wfS hw.2
  clear hw
  cases sel
  all_goals
    exact ⟨⟨by omega, by omega, by omega, by omega, by omega, by omega, by first | decide | omega | (simp only [SputSel.code]; omega)⟩, fun w W => by
      show buildUni3 3 w = _
      delta buildUni3
      simp [W.head.fg, W.fmod, W.fra (by omega), SputSel.code]
      try simp [SputSel.ofCode]
      try omega⟩

theorem Round.sleep (g : Guard) (n : Nat) : Round.Statement (.sleep g n) := by
  refine roundVI rfl rfl rfl ⟨by decide, by decide, by decide⟩ fun hw => ?_
  change (Wf.guard g && Wf.imm20 n) = true at hw
  simp only [Bool.and_eq_true] at hw
  have h1 := wfG hw.1
  have h2 := wfI20 hw.2
  exact ⟨⟨by omega, by omega, by omega, by omega, by omega, by omega⟩, fun w W => by
    show buildUni3 4 w = _
    delta buildUni3
    simp [W.head.fg, W.fmod, W.fimm]
    try simp [fld]
    try omega⟩

theorem Round.progrd (g : Guard) (d : Nat) (pg : Nat) : Round.Statement (.progrd g d pg) := by
  refine roundV rfl rfl rfl ⟨by decide, by decide, by decide⟩ fun hw => ?_
  change (Wf.guard g && Wf.s d && Wf.p pg) = true at hw
  simp only [Bool.and_eq_true] at hw
  have h1 := wfG hw.1.1
  have h2 := wfS hw.1.2
  have h3 := wfP hw.2
  exact ⟨⟨by omega, by omega, by omega, by omega, by omega, by omega, by omega⟩, fun w W => by
    show buildUni3 5 w = _
    delta buildUni3
    simp [W.head.fg, W.fd, W.fmod, W.fra (by omega)]
    try simp [fld]
    try omega⟩

theorem Round.cpy (g : Guard) (a : Nat) : Round.Statement (.cpy g a) := by
  refine roundV rfl rfl rfl ⟨by decide, by decide, by decide⟩ fun hw => ?_
  change (Wf.guard g && Wf.s a) = true at hw
  simp only [Bool.and_eq_true] at hw
  have h1 := wfG hw.1
  have h2 := wfS hw.2
  exact ⟨⟨by omega, by omega, by omega, by omega, by omega, by omega, by omega⟩, fun w W => by
    show buildUni4 0 w = _
    delta buildUni4
    simp [W.head.fg, W.fmod, W.fra (by omega)]
    try simp [fld]
    try omega⟩

theorem Round.cpym (g : Guard) (a : Nat) : Round.Statement (.cpym g a) := by
  refine roundV rfl rfl rfl ⟨by decide, by decide, by decide⟩ fun hw => ?_
  change (Wf.guard g && Wf.s a) = true at hw
  simp only [Bool.and_eq_true] at hw
  have h1 := wfG hw.1
  have h2 := wfS hw.2
  exact ⟨⟨by omega, by omega, by omega, by omega, by omega, by omega, by omega⟩, fun w W => by
    show buildUni4 1 w = _
    delta buildUni4
    simp [W.head.fg, W.fmod, W.fra (by omega)]
    try simp [fld]
    try omega⟩

theorem Round.redv (g : Guard) (a : Nat) : Round.Statement (.redv g a) := by
  refine roundV rfl rfl rfl ⟨by decide, by decide, by decide⟩ fun hw => ?_
  change (Wf.guard g && Wf.s a) = true at hw
  simp only [Bool.and_eq_true] at hw
  have h1 := wfG hw.1
  have h2 := wfS hw.2
  exact ⟨⟨by omega, by omega, by omega, by omega, by omega, by omega, by omega⟩, fun w W => by
    show buildUni4 2 w = _
    delta buildUni4
    simp [W.head.fg, W.fmod, W.fra (by omega)]
    try simp [fld]
    try omega⟩

theorem Round.cguardClr (g : Guard) (n : Nat) : Round.Statement (.cguardClr g n) := by
  refine roundV rfl rfl rfl ⟨by decide, by decide, by decide⟩ fun hw => ?_
  change (Wf.guard g && Wf.t n) = true at hw
  simp only [Bool.and_eq_true] at hw
  have h1 := wfG hw.1
  have h2 := wfT hw.2
  exact ⟨⟨by omega, by omega, by omega, by omega, by omega, by omega, by omega⟩, fun w W => by
    show buildUni4 3 w = _
    delta buildUni4
    simp [W.head.fg, W.fmod, W.frc (by omega)]
    try simp [fld]
    try omega⟩

theorem Round.cguardSet (g : Guard) (n : Nat) (q : Nat) : Round.Statement (.cguardSet g n q) := by
  refine roundV rfl rfl rfl ⟨by decide, by decide, by decide⟩ fun hw => ?_
  change (Wf.guard g && Wf.t n && Wf.p q) = true at hw
  simp only [Bool.and_eq_true] at hw
  have h1 := wfG hw.1.1
  have h2 := wfT hw.1.2
  have h3 := wfP hw.2
  exact ⟨⟨by omega, by omega, by omega, by omega, by omega, by omega, by omega⟩, fun w W => by
    show buildUni4 3 w = _
    delta buildUni4
    simp [W.head.fg, W.fmod, W.fra (by omega), W.frc (by omega)]
    try simp [fld]
    try omega⟩

theorem Round.cguardRd (g : Guard) (d : Nat) (n : Nat) : Round.Statement (.cguardRd g d n) := by
  refine roundV rfl rfl rfl ⟨by decide, by decide, by decide⟩ fun hw => ?_
  change (Wf.guard g && Wf.s d && Wf.t n) = true at hw
  simp only [Bool.and_eq_true] at hw
  have h1 := wfG hw.1.1
  have h2 := wfS hw.1.2
  have h3 := wfT hw.2
  exact ⟨⟨by omega, by omega, by omega, by omega, by omega, by omega, by omega⟩, fun w W => by
    show buildUni4 3 w = _
    delta buildUni4
    simp [W.head.fg, W.fd, W.fmod, W.frc (by omega)]
    try simp [fld]
    try omega⟩

theorem Round.cpres (g : Guard) (q : Nat) (pg : Nat) : Round.Statement (.cpres g q pg) := by
  refine roundV rfl rfl rfl ⟨by decide, by decide, by decide⟩ fun hw => ?_
  change (Wf.guard g && Wf.p q && Wf.p pg) = true at hw
  simp only [Bool.and_eq_true] at hw
  have h1 := wfG hw.1.1
  have h2 := wfP hw.1.2
  have h3 := wfP hw.2
  exact ⟨⟨by omega, by omega, by omega, by omega, by omega, by omega, by omega⟩, fun w W => by
    show buildUni4 4 w = _
    delta buildUni4
    simp [W.head.fg, W.fd, W.fmod, W.fra (by omega)]
    try simp [fld]
    try omega⟩

theorem Round.cabort (g : Guard) (pg : Nat) : Round.Statement (.cabort g pg) := by
  refine roundV rfl rfl rfl ⟨by decide, by decide, by decide⟩ fun hw => ?_
  change (Wf.guard g && Wf.p pg) = true at hw
  simp only [Bool.and_eq_true] at hw
  have h1 := wfG hw.1
  have h2 := wfP hw.2
  exact ⟨⟨by omega, by omega, by omega, by omega, by omega, by omega, by omega⟩, fun w W => by
    show buildUni4 5 w = _
    delta buildUni4
    simp [W.head.fg, W.fmod, W.fra (by omega)]
    try simp [fld]
    try omega⟩

theorem Round.cabortAll (g : Guard) : Round.Statement (.cabortAll g) := by
  refine roundV rfl rfl rfl ⟨by decide, by decide, by decide⟩ fun hw => ?_
  change (Wf.guard g) = true at hw
  have h1 := wfG hw
  exact ⟨⟨by omega, by omega, by omega, by omega, by omega, by omega, by omega⟩, fun w W => by
    show buildUni4 5 w = _
    delta buildUni4
    simp [W.head.fg, W.fmod]
    try simp [fld]
    try omega⟩

theorem Round.tld (g : Guard) (col : Bool) (t : Nat) (a : Nat) (b : Nat) (c : Nat) : Round.Statement (.tld g col t a b c) := by
  refine roundV rfl rfl rfl ⟨by decide, by decide, by decide⟩ fun hw => ?_
  change (Wf.guard g && Wf.t t && Wf.s a && Wf.s b && Wf.s c) = true at hw
  simp only [Bool.and_eq_true] at hw
  have h1 := wfG hw.1.1.1.1
  have h2 := wfT hw.1.1.1.2
  have h3 := wfS hw.1.1.2
  have h4 := wfS hw.1.2
  have h5 := wfS hw.2
  clear hw
  cases col
  all_goals
    exact ⟨⟨by omega, by omega, by omega, by omega, by omega, by omega, by first | decide | omega | (simp only [natOf]; omega)⟩, fun w W => by
      show buildUni5 0 w = _
      delta buildUni5
      simp [W.head.fg, W.fd, W.fmod, W.fra (by omega), W.frb (by omega), W.frc (by omega), natOf]
      try simp [fld, boolOf]
      try omega⟩

theorem Round.tst (g : Guard) (col : Bool) (t : Nat) (a : Nat) (b : Nat) (c : Nat) : Round.Statement (.tst g col t a b c) := by
  refine roundV rfl rfl rfl ⟨by decide, by decide, by decide⟩ fun hw => ?_
  change (Wf.guard g && Wf.t t && Wf.s a && Wf.s b && Wf.s c) = true at hw
  simp only [Bool.and_eq_true] at hw
  have h1 := wfG hw.1.1.1.1
  have h2 := wfT hw.1.1.1.2
  have h3 := wfS hw.1.1.2
  have h4 := wfS hw.1.2
  have h5 := wfS hw.2
  clear hw
  cases col
  all_goals
    exact ⟨⟨by omega, by omega, by omega, by omega, by omega, by omega, by first | decide | omega | (simp only [natOf]; omega)⟩, fun w W => by
      show buildUni5 1 w = _
      delta buildUni5
      simp [W.head.fg, W.fd, W.fmod, W.fra (by omega), W.frb (by omega), W.frc (by omega), natOf]
      try simp [fld, boolOf]
      try omega⟩

theorem Round.tzero (g : Guard) (t : Nat) (b : Nat) : Round.Statement (.tzero g t b) := by
  refine roundV rfl rfl rfl ⟨by decide, by decide, by decide⟩ fun hw => ?_
  change (Wf.guard g && Wf.t t && Wf.s b) = true at hw
  simp only [Bool.and_eq_true] at hw
  have h1 := wfG hw.1.1
  have h2 := wfT hw.1.2
  have h3 := wfS hw.2
  exact ⟨⟨by omega, by omega, by omega, by omega, by omega, by omega, by omega⟩, fun w W => by
    show buildUni5 2 w = _
    delta buildUni5
    simp [W.head.fg, W.fd, W.fmod, W.frb (by omega)]
    try simp [fld]
    try omega⟩

theorem Round.tcvt (g : Guard) (rm : Rm) (satf : Bool) (d : Nat) (a : Nat) (b : Nat) : Round.Statement (.tcvt g rm satf d a b) := by
  refine roundV rfl rfl rfl ⟨by decide, by decide, by decide⟩ fun hw => ?_
  change (Wf.guard g && Wf.t d && Wf.t a && Wf.s b) = true at hw
  simp only [Bool.and_eq_true] at hw
  have h1 := wfG hw.1.1.1
  have h2 := wfT hw.1.1.2
  have h3 := wfT hw.1.2
  have h4 := wfS hw.2
  clear hw
  cases rm <;> cases satf
  all_goals
    exact ⟨⟨by omega, by omega, by omega, by omega, by omega, by omega, by first | decide | omega | (simp only [Rm.code, natOf]; omega)⟩, fun w W => by
      show buildUni5 3 w = _
      delta buildUni5
      simp [W.head.fg, W.fd, W.fra (by omega), W.frb (by omega), W.inMod, Rm.code, natOf]
      try simp [fld, boolOf, Rm.ofCode]
      try omega⟩

theorem Round.msign (g : Guard) (cv : Nat) : Round.Statement (.msign g cv) := by
  refine roundV rfl rfl rfl ⟨by decide, by decide, by decide⟩ fun hw => ?_
  change (Wf.guard g && Wf.cv cv) = true at hw
  simp only [Bool.and_eq_true] at hw
  have h1 := wfG hw.1
  have h2 := wfCv hw.2
  exact ⟨⟨by omega, by omega, by omega, by omega, by omega, by omega, by omega⟩, fun w W => by
    show buildUni5 4 w = _
    delta buildUni5
    simp [W.head.fg, W.fmod, W.frc (by omega)]
    try simp [fld]
    try omega⟩

theorem Round.msignArm (g : Guard) (cv : Nat) (a : Nat) : Round.Statement (.msignArm g cv a) := by
  refine roundV rfl rfl rfl ⟨by decide, by decide, by decide⟩ fun hw => ?_
  change (Wf.guard g && Wf.cv cv && Wf.s a) = true at hw
  simp only [Bool.and_eq_true] at hw
  have h1 := wfG hw.1.1
  have h2 := wfCv hw.1.2
  have h3 := wfS hw.2
  exact ⟨⟨by omega, by omega, by omega, by omega, by omega, by omega, by omega⟩, fun w W => by
    show buildUni5 4 w = _
    delta buildUni5
    simp [W.head.fg, W.fmod, W.fra (by omega), W.frc (by omega)]
    try simp [fld]
    try omega⟩

theorem Round.msignRd (g : Guard) (d : Nat) (cv : Nat) : Round.Statement (.msignRd g d cv) := by
  refine roundV rfl rfl rfl ⟨by decide, by decide, by decide⟩ fun hw => ?_
  change (Wf.guard g && Wf.s d && Wf.cv cv) = true at hw
  simp only [Bool.and_eq_true] at hw
  have h1 := wfG hw.1.1
  have h2 := wfS hw.1.2
  have h3 := wfCv hw.2
  exact ⟨⟨by omega, by omega, by omega, by omega, by omega, by omega, by omega⟩, fun w W => by
    show buildUni5 4 w = _
    delta buildUni5
    simp [W.head.fg, W.fd, W.fmod, W.frc (by omega)]
    try simp [fld]
    try omega⟩

theorem Round.mma (g : Guard) (cv : Nat) (a : Nat) (b : Nat) : Round.Statement (.mma g cv a b) := by
  refine roundV rfl rfl rfl ⟨by decide, by decide, by decide⟩ fun hw => ?_
  change (Wf.guard g && Wf.cv cv && Wf.s a && Wf.s b) = true at hw
  simp only [Bool.and_eq_true] at hw
  have h1 := wfG hw.1.1.1
  have h2 := wfCv hw.1.1.2
  have h3 := wfS hw.1.2
  have h4 := wfS hw.2
  exact ⟨⟨by omega, by omega, by omega, by omega, by omega, by omega, by omega⟩, fun w W => by
    show buildUni5 5 w = _
    delta buildUni5
    simp [W.head.fg, W.fd, W.fmod, W.fra (by omega), W.frb (by omega)]
    try simp [fld]
    try omega⟩

theorem Round.mmax (g : Guard) (cv : Nat) (a : Nat) (b : Nat) (c : Nat) : Round.Statement (.mmax g cv a b c) := by
  refine roundV rfl rfl rfl ⟨by decide, by decide, by decide⟩ fun hw => ?_
  change (Wf.guard g && Wf.cv cv && Wf.s a && Wf.s b && Wf.s c) = true at hw
  simp only [Bool.and_eq_true] at hw
  have h1 := wfG hw.1.1.1.1
  have h2 := wfCv hw.1.1.1.2
  have h3 := wfS hw.1.1.2
  have h4 := wfS hw.1.2
  have h5 := wfS hw.2
  exact ⟨⟨by omega, by omega, by omega, by omega, by omega, by omega, by omega⟩, fun w W => by
    show buildUni5 6 w = _
    delta buildUni5
    simp [W.head.fg, W.fd, W.fmod, W.fra (by omega), W.frb (by omega), W.frc (by omega)]
    try simp [fld]
    try omega⟩

theorem Round.aclr (g : Guard) (a : Nat) (b : Nat) : Round.Statement (.aclr g a b) := by
  refine roundV rfl rfl rfl ⟨by decide, by decide, by decide⟩ fun hw => ?_
  change (Wf.guard g && Wf.s a && Wf.s b) = true at hw
  simp only [Bool.and_eq_true] at hw
  have h1 := wfG hw.1.1
  have h2 := wfS hw.1.2
  have h3 := wfS hw.2
  exact ⟨⟨by omega, by omega, by omega, by omega, by omega, by omega, by omega⟩, fun w W => by
    show buildUni5 7 w = _
    delta buildUni5
    simp [W.head.fg, W.fmod, W.fra (by omega), W.frb (by omega)]
    try simp [fld]
    try omega⟩

theorem Round.ald (g : Guard) (t : Nat) (a : Nat) (b : Nat) : Round.Statement (.ald g t a b) := by
  refine roundV rfl rfl rfl ⟨by decide, by decide, by decide⟩ fun hw => ?_
  change (Wf.guard g && Wf.t t && Wf.s a && Wf.s b) = true at hw
  simp only [Bool.and_eq_true] at hw
  have h1 := wfG hw.1.1.1
  have h2 := wfT hw.1.1.2
  have h3 := wfS hw.1.2
  have h4 := wfS hw.2
  exact ⟨⟨by omega, by omega, by omega, by omega, by omega, by omega, by omega⟩, fun w W => by
    show buildUni5 8 w = _
    delta buildUni5
    simp [W.head.fg, W.fd, W.fmod, W.fra (by omega), W.frb (by omega)]
    try simp [fld]
    try omega⟩

theorem Round.ast (g : Guard) (t : Nat) (a : Nat) (b : Nat) : Round.Statement (.ast g t a b) := by
  refine roundV rfl rfl rfl ⟨by decide, by decide, by decide⟩ fun hw => ?_
  change (Wf.guard g && Wf.t t && Wf.s a && Wf.s b) = true at hw
  simp only [Bool.and_eq_true] at hw
  have h1 := wfG hw.1.1.1
  have h2 := wfT hw.1.1.2
  have h3 := wfS hw.1.2
  have h4 := wfS hw.2
  exact ⟨⟨by omega, by omega, by omega, by omega, by omega, by omega, by omega⟩, fun w W => by
    show buildUni5 9 w = _
    delta buildUni5
    simp [W.head.fg, W.fd, W.fmod, W.fra (by omega), W.frb (by omega)]
    try simp [fld]
    try omega⟩

theorem Round.acvt (g : Guard) (rm : Rm) (satf : Bool) (t : Nat) (a : Nat) (b : Nat) : Round.Statement (.acvt g rm satf t a b) := by
  refine roundV rfl rfl rfl ⟨by decide, by decide, by decide⟩ fun hw => ?_
  change (Wf.guard g && Wf.t t && Wf.s a && Wf.s b) = true at hw
  simp only [Bool.and_eq_true] at hw
  have h1 := wfG hw.1.1.1
  have h2 := wfT hw.1.1.2
  have h3 := wfS hw.1.2
  have h4 := wfS hw.2
  clear hw
  cases rm <;> cases satf
  all_goals
    exact ⟨⟨by omega, by omega, by omega, by omega, by omega, by omega, by first | decide | omega | (simp only [Rm.code, natOf]; omega)⟩, fun w W => by
      show buildUni5 10 w = _
      delta buildUni5
      simp [W.head.fg, W.fd, W.fra (by omega), W.frb (by omega), W.inMod, Rm.code, natOf]
      try simp [fld, boolOf, Rm.ofCode]
      try omega⟩

theorem Round.eset (g : Guard) (e : Nat) (a : Nat) : Round.Statement (.eset g e a) := by
  refine roundV rfl rfl rfl ⟨by decide, by decide, by decide⟩ fun hw => ?_
  change (Wf.guard g && Wf.cv e && Wf.s a) = true at hw
  simp only [Bool.and_eq_true] at hw
  have h1 := wfG hw.1.1
  have h2 := wfCv hw.1.2
  have h3 := wfS hw.2
  exact ⟨⟨by omega, by omega, by omega, by omega, by omega, by omega, by omega⟩, fun w W => by
    show buildUni5 11 w = _
    delta buildUni5
    simp [W.head.fg, W.fmod, W.fra (by omega), W.frc (by omega)]
    try simp [fld]
    try omega⟩

theorem Round.esetRd (g : Guard) (d : Nat) (e : Nat) : Round.Statement (.esetRd g d e) := by
  refine roundV rfl rfl rfl ⟨by decide, by decide, by decide⟩ fun hw => ?_
  change (Wf.guard g && Wf.s d && Wf.cv e) = true at hw
  simp only [Bool.and_eq_true] at hw
  have h1 := wfG hw.1.1
  have h2 := wfS hw.1.2
  have h3 := wfCv hw.2
  exact ⟨⟨by omega, by omega, by omega, by omega, by omega, by omega, by omega⟩, fun w W => by
    show buildUni5 11 w = _
    delta buildUni5
    simp [W.head.fg, W.fd, W.fmod, W.frc (by omega)]
    try simp [fld]
    try omega⟩

theorem Round.csrr (g : Guard) (d : Nat) (csr : Nat) : Round.Statement (.csrr g d csr) := by
  refine roundV rfl rfl rfl ⟨by decide, by decide, by decide⟩ fun hw => ?_
  change (Wf.guard g && Wf.s d && Wf.csr csr) = true at hw
  simp only [Bool.and_eq_true] at hw
  have h1 := wfG hw.1.1
  have h2 := wfS hw.1.2
  have h3 := wfCsr hw.2
  exact ⟨⟨by omega, by omega, by omega, by omega, by omega, by omega, by omega⟩, fun w W => by
    show buildUniF 0 w = _
    delta buildUniF
    simp [W.head.fg, W.fd, W.fmod, W.inC]
    try simp [fld]
    try omega⟩

theorem Round.csrw (g : Guard) (csr : Nat) (a : Nat) : Round.Statement (.csrw g csr a) := by
  refine roundV rfl rfl rfl ⟨by decide, by decide, by decide⟩ fun hw => ?_
  change (Wf.guard g && Wf.csr csr && Wf.s a) = true at hw
  simp only [Bool.and_eq_true] at hw
  have h1 := wfG hw.1.1
  have h2 := wfCsr hw.1.2
  have h3 := wfS hw.2
  exact ⟨⟨by omega, by omega, by omega, by omega, by omega, by omega, by omega⟩, fun w W => by
    show buildUniF 1 w = _
    delta buildUniF
    simp [W.head.fg, W.fmod, W.fra (by omega), W.inC]
    try simp [fld]
    try omega⟩

theorem Round.halt (g : Guard) : Round.Statement (.halt g) := by
  refine roundV rfl rfl rfl ⟨by decide, by decide, by decide⟩ fun hw => ?_
  change (Wf.guard g) = true at hw
  have h1 := wfG hw
  exact ⟨⟨by omega, by omega, by omega, by omega, by omega, by omega, by omega⟩, fun w W => by
    show buildUniF 2 w = _
    delta buildUniF
    simp [W.head.fg, W.fmod]
    try simp [fld]
    try omega⟩

theorem Round.sealWrite (slot : Nat) (v : Byte) : Round.Statement (.sealWrite slot v) := fun _ => rfl

theorem Round.launchRecord : Round.Statement (.launchRecord) := fun _ => rfl

theorem Round.heldRecordParse : Round.Statement (.heldRecordParse) := fun _ => rfl

theorem Round.preEmpt (by' : Asker) : Round.Statement (.preEmpt by') := fun _ => rfl

theorem Round.resume (by' : Asker) : Round.Statement (.resume by') := fun _ => rfl

theorem Round.cancel (by' : Asker) : Round.Statement (.cancel by') := fun _ => rfl

theorem Round.launchComplete (launch : Nat) : Round.Statement (.launchComplete launch) := fun _ => rfl

theorem Round.blockAdmit : Round.Statement (.blockAdmit) := fun _ => rfl

theorem Round.admissionReserve : Round.Statement (.admissionReserve) := fun _ => rfl

theorem Round.quantumEnd (block : Nat) : Round.Statement (.quantumEnd block) := fun _ => rfl

theorem Round.blockSave (try_ : SaveTry) : Round.Statement (.blockSave try_) := fun _ => rfl

theorem Round.blockResume (cores : List Nat) : Round.Statement (.blockResume cores) := fun _ => rfl

theorem Round.switchRendezvous (block : Nat) : Round.Statement (.switchRendezvous block) := fun _ => rfl

theorem Round.switchMove (block : Nat) : Round.Statement (.switchMove block) := fun _ => rfl

theorem Round.issueClassUpdate (block : Nat) : Round.Statement (.issueClassUpdate block) := fun _ => rfl

theorem Round.icacheFill (core : Nat) (part : Nat) : Round.Statement (.icacheFill core part) := fun _ => rfl

theorem Round.issueSelect (core : Nat) (part : Nat) : Round.Statement (.issueSelect core part) := fun _ => rfl

theorem Round.heldClear (warp : Nat) : Round.Statement (.heldClear warp) := fun _ => rfl

theorem Round.trapDeliver (warp : Nat) (entry : Nat) : Round.Statement (.trapDeliver warp entry) := fun _ => rfl

theorem Round.asyncTrap (i : Nat) : Round.Statement (.asyncTrap i) := fun _ => rfl

theorem Round.watchdog (warp : Nat) : Round.Statement (.watchdog warp) := fun _ => rfl

theorem Round.waitmRelease (warp : Nat) (m : Nat) : Round.Statement (.waitmRelease warp m) := fun _ => rfl

theorem Round.resultArrive (warp : Nat) (result : Nat) : Round.Statement (.resultArrive warp result) := fun _ => rfl

theorem Round.poolGrant (core : Nat) (part : Nat) : Round.Statement (.poolGrant core part) := fun _ => rfl

theorem Round.spill (core : Nat) (part : Nat) : Round.Statement (.spill core part) := fun _ => rfl

theorem Round.absentLineRelease (warp : Nat) (entry : Nat) : Round.Statement (.absentLineRelease warp entry) := fun _ => rfl

theorem Round.commandQueueRelease (warp : Nat) (entry : Nat) : Round.Statement (.commandQueueRelease warp entry) := fun _ => rfl

theorem Round.guardDiscard (core : Nat) (cmd : Nat) : Round.Statement (.guardDiscard core cmd) := fun _ => rfl

theorem Round.copyCommandStart (core : Nat) (cmd : Nat) : Round.Statement (.copyCommandStart core cmd) := fun _ => rfl

theorem Round.copyUnitDone (core : Nat) (cmd : Nat) : Round.Statement (.copyUnitDone core cmd) := fun _ => rfl

theorem Round.copyFault (core : Nat) (cmd : Nat) : Round.Statement (.copyFault core cmd) := fun _ => rfl

theorem Round.cpymDestFault (core : Nat) (cmd : Nat) (dest : Nat) : Round.Statement (.cpymDestFault core cmd dest) := fun _ => rfl

theorem Round.matrixCommandStart (core : Nat) (cmd : Nat) : Round.Statement (.matrixCommandStart core cmd) := fun _ => rfl

theorem Round.gangMmaStart (core : Nat) (cmd : Nat) : Round.Statement (.gangMmaStart core cmd) := fun _ => rfl

theorem Round.matrixUnitDone (core : Nat) (cmd : Nat) : Round.Statement (.matrixUnitDone core cmd) := fun _ => rfl

theorem Round.matrixCommandComplete (core : Nat) (cmd : Nat) : Round.Statement (.matrixCommandComplete core cmd) := fun _ => rfl

theorem Round.signatureCount (warp : Nat) (i : Nat) : Round.Statement (.signatureCount warp i) := fun _ => rfl

theorem Round.matrixEccError (core : Nat) (region : Bool) (n : Nat) : Round.Statement (.matrixEccError core region n) := fun _ => rfl

theorem Round.rdS (msg : Nat) : Round.Statement (.rdS msg) := fun _ => rfl

theorem Round.rdL (msg : Nat) : Round.Statement (.rdL msg) := fun _ => rfl

theorem Round.rdN (msg : Nat) : Round.Statement (.rdN msg) := fun _ => rfl

theorem Round.ownRq (msg : Nat) : Round.Statement (.ownRq msg) := fun _ => rfl

theorem Round.upg (msg : Nat) : Round.Statement (.upg msg) := fun _ => rfl

theorem Round.wrT (msg : Nat) : Round.Statement (.wrT msg) := fun _ => rfl

theorem Round.wrN (msg : Nat) : Round.Statement (.wrN msg) := fun _ => rfl

theorem Round.atomicReq (msg : Nat) : Round.Statement (.atomicReq msg) := fun _ => rfl

theorem Round.wb (msg : Nat) : Round.Statement (.wb msg) := fun _ => rfl

theorem Round.fwd (msg : Nat) : Round.Statement (.fwd msg) := fun _ => rfl

theorem Round.rcl (msg : Nat) : Round.Statement (.rcl msg) := fun _ => rfl

theorem Round.inv (msg : Nat) : Round.Statement (.inv msg) := fun _ => rfl

theorem Round.grant (msg : Nat) (victim : Option Nat) : Round.Statement (.grant msg victim) := fun _ => rfl

theorem Round.homeAck (msg : Nat) : Round.Statement (.homeAck msg) := fun _ => rfl

theorem Round.l2MissFill (line : Nat) (victim : Option Nat) (err : MemErr) : Round.Statement (.l2MissFill line victim err) := fun _ => rfl

theorem Round.victimForce (line : Nat) (victim : Nat) : Round.Statement (.victimForce line victim) := fun _ => rfl

theorem Round.agentFence (agent : Nat) : Round.Statement (.agentFence agent) := fun _ => rfl

theorem Round.hostMemrd (kind : HostRead) (line : Nat) : Round.Statement (.hostMemrd kind line) := fun _ => rfl

theorem Round.hostMemwr (pa : Nat) (data : List Byte) : Round.Statement (.hostMemwr pa data) := fun _ => rfl

theorem Round.bisnpAnswer (msg : Nat) (data : List Byte) : Round.Statement (.bisnpAnswer msg data) := fun _ => rfl

theorem Round.hostSnoop (core : Nat) (line : Nat) (invalidate : Bool) : Round.Statement (.hostSnoop core line invalidate) := fun _ => rfl

theorem Round.cwaitRetest (warp : Nat) (entry : Nat) : Round.Statement (.cwaitRetest warp entry) := fun _ => rfl

theorem Round.arrivecRankRelease (warp : Nat) (entry : Nat) : Round.Statement (.arrivecRankRelease warp entry) := fun _ => rfl

theorem Round.monitorRegistered (warp : Nat) (entry : Nat) : Round.Statement (.monitorRegistered warp entry) := fun _ => rfl

theorem Round.monitorTimeout (warp : Nat) : Round.Statement (.monitorTimeout warp) := fun _ => rfl

theorem Round.queueSlotStep (warp : Nat) (entry : Nat) : Round.Statement (.queueSlotStep warp entry) := fun _ => rfl

theorem Round.parkRetest (core : Nat) (addr : Nat) : Round.Statement (.parkRetest core addr) := fun _ => rfl

theorem Round.sleepWake (warp : Nat) (entry : Nat) : Round.Statement (.sleepWake warp entry) := fun _ => rfl

theorem Round.launchAnswer (warp : Nat) (entry : Nat) : Round.Statement (.launchAnswer warp entry) := fun _ => rfl

theorem Round.fragmentDelivery (warp : Nat) (entry : Nat) (pick : List Nat) : Round.Statement (.fragmentDelivery warp entry pick) := fun _ => rfl

theorem Round.ordenterRelease (warp : Nat) (lane : Nat) : Round.Statement (.ordenterRelease warp lane) := fun _ => rfl

theorem Round.ordexitRelease (warp : Nat) (lane : Nat) : Round.Statement (.ordexitRelease warp lane) := fun _ => rfl

theorem Round.gateEntryFree (core : Nat) (entry : Nat) : Round.Statement (.gateEntryFree core entry) := fun _ => rfl

theorem Round.flclrRun (core : Nat) (cmd : Nat) : Round.Statement (.flclrRun core cmd) := fun _ => rfl

theorem Round.rayStep (core : Nat) (cmd : Nat) : Round.Statement (.rayStep core cmd) := fun _ => rfl

theorem Round.peerTimeout (peer : Nat) : Round.Statement (.peerTimeout peer) := fun _ => rfl

theorem Round.peerAck (id : Nat) (refused : Bool) : Round.Statement (.peerAck id refused) := fun _ => rfl

theorem Round.readySet (bit : Nat) : Round.Statement (.readySet bit) := fun _ => rfl

theorem Round.coreReset (t : ResetTarget) : Round.Statement (.coreReset t) := fun _ => rfl

theorem Round.overcurrent (on : Bool) : Round.Statement (.overcurrent on) := fun _ => rfl

theorem Round.thermalThrottle : Round.Statement (.thermalThrottle) := fun _ => rfl

theorem Round.thermalShutdown : Round.Statement (.thermalShutdown) := fun _ => rfl

theorem Round.farrierWatchdogMiss : Round.Statement (.farrierWatchdogMiss) := fun _ => rfl

theorem Round.firmwareVerify (data : List Byte) (version : Nat) (signed : ImageSig) : Round.Statement (.firmwareVerify data version signed) := fun _ => rfl

theorem Round.spdmRequest (nonce : Nat) : Round.Statement (.spdmRequest nonce) := fun _ => rfl

theorem Round.healthUpdate (hours : List Nat) (corrected : List Nat) : Round.Statement (.healthUpdate hours corrected) := fun _ => rfl

theorem Round.fatalError (cause : Nat) (pa : Nat) (agent : Nat) : Round.Statement (.fatalError cause pa agent) := fun _ => rfl

theorem Round.reset : Round.Statement (.reset) := fun _ => rfl

theorem Round.remoteWindowAccess (off : Nat) (k : WindowKind) : Round.Statement (.remoteWindowAccess off k) := fun _ => rfl

theorem Round.farrierMailboxRequest (r : MailboxReq) : Round.Statement (.farrierMailboxRequest r) := fun _ => rfl

theorem Round.haltedCoreRestart (core : Nat) : Round.Statement (.haltedCoreRestart core) := fun _ => rfl

theorem Round.writeAcknowledged (msg : Nat) : Round.Statement (.writeAcknowledged msg) := fun _ => rfl

theorem Round.translationWalk (core : Nat) (asid : Nat) (va : Nat) : Round.Statement (.translationWalk core asid va) := fun _ => rfl

end Sys2Proof.Laws
end

