-- ==== Sys2Proof/Tests/Slice0.lean ====
section
/-! SUPPORT. Tests: an ill-formed term for each check of WellFormed, words written out field by field from the encodings of R28 to R41
with the instruction that each stands for, single steps with results from the manual, and a witness for each statement that has
hypotheses. -/

namespace Sys2Proof.Tests

open Sys2Proof Sys2Proof.Machine

set_option Elab.async false

/-! ## Words, field by field -/

/-- No guard: p7 or q7, not inverted. -/
def g7 : Guard := { neg := false, n := 7 }
/-- A source register, and the same with its last-use bit. -/
def v (n : Nat) : Src := { reg := n, lu := false, keep := false }
def vlu (n : Nat) : Src := { reg := n, lu := true, keep := false }
/-- A 10-bit operand field (R29): register, last-use, keep. -/
def r (n : Nat) : Nat := 4 * n
def rlu (n : Nat) : Nat := 4 * n + 2
/-- Format V (R28), unguarded, LA 0; the uniform format U is SET = 1 of it (R38). -/
def wV (op d a b c m : Nat) : Nat := op * 2 ^ 53 + 7 * 2 ^ 49 + d * 2 ^ 37 + a * 2 ^ 27 + b * 2 ^ 17 + c * 2 ^ 7 + m
def wU (op d a b c m : Nat) : Nat := 2 ^ 63 + wV op d a b c m
/-- Format VI (R32) and UI. -/
def wVI (op d a imm m : Nat) : Nat := op * 2 ^ 53 + 7 * 2 ^ 49 + d * 2 ^ 37 + a * 2 ^ 27 + imm * 2 ^ 7 + m
def wUI (op d a imm m : Nat) : Nat := 2 ^ 63 + wVI op d a imm m
/-- LA (R28). -/
def la (n : Nat) : Nat := n * 2 ^ 45
/-- Format VB (R37). -/
def wVB (op uni prio off treg lu : Nat) : Nat :=
  op * 2 ^ 53 + 7 * 2 ^ 49 + uni * 2 ^ 48 + prio * 2 ^ 42 + off * 2 ^ 18 + treg * 2 ^ 10 + lu * 2 ^ 9
/-- Format VM-A (R35): DATA, BASE, BASE_LU, DATA_LU, OFFSET, CLASS, POLICY, ORDER, SCOPE, SIZE, SPLIT. -/
def wMA (op data base blu dlu off cls pol ord sc size split : Nat) : Nat :=
  op * 2 ^ 53 + 7 * 2 ^ 49 + data * 2 ^ 37 + base * 2 ^ 29 + blu * 2 ^ 28 + dlu * 2 ^ 27 + off * 2 ^ 15 + cls * 2 ^ 12 + pol * 2 ^ 9 +
    ord * 2 ^ 7 + sc * 2 ^ 4 + size * 2 + split
/-- Format VM-B (R35): DATA, BASE, OPB, STATUS, AOP, POLICY, ORDER, SCOPE, SIZE. -/
def wMB (op data base opb st aop pol ord sc size : Nat) : Nat :=
  op * 2 ^ 53 + 7 * 2 ^ 49 + data * 2 ^ 37 + base * 2 ^ 29 + opb * 2 ^ 19 + st * 2 ^ 16 + aop * 2 ^ 12 + pol * 2 ^ 9 + ord * 2 ^ 7 +
    sc * 2 ^ 4 + size * 2
/-- Each word decodes to the instruction beside it. -/
def reads (l : List (Nat × Instr)) : Bool := l.all fun x => decide (decodeWord (BitVec.ofNat 64 x.1) = .ok x.2)

def i32 : IntF := { g := g7, t := .s32, sat := false }
def fRn : FpF := { g := g7, la := 0, t := .f32, rm := .rn, ftz := false, sat := false }
def f8 : F8F := { g := g7, t := .e5m2x4, rm := .rn, satf := false }
def cv (fd fs : CvtFmt) : CvtF := { g := g7, la := 0, fd := fd, fs := fs, rm := .rn, ftz := false, sat := false }
def mf (base : Nat) : MemF :=
  { g := g7, base := base, baseLu := false, off := 0, cls := .dflt, pol := .dflt, ord := .plain, scope := .thread, size := 2 }
def af (op : AtomOp) (base opb : Nat) : AtomF :=
  { g := g7, op := op, base := base, baseLu := false, opb := opb, opbLu := false, pol := .dflt, ord := .plain, scope := .thread, size := 2 }
def uf : UniF := { g := g7, w32 := false, s := false }

/-! ## WellFormed: one refused term for each check -/

/-- The term is refused. -/
def bad (i : Instr) : Bool := !i.wellFormed

theorem test_wf_guard : bad (.nop { neg := false, n := 8 }) = true := by decide
theorem test_wf_v_range : bad (.movi g7 256 0) = true := by decide
theorem test_wf_v_pair : bad (.clock g7 false 3) = true := by decide
theorem test_wf_source : bad (.fraginOpen g7 (v 9)) = true ∧ bad (.bbox g7 0 8 (v 4)) = true := by decide
theorem test_wf_p : bad (.lead g7 8) = true := by decide
theorem test_wf_s : bad (.umov g7 64 0) = true ∧ bad (.umov g7 0 64) = true := by decide
theorem test_wf_m : bad (.join g7 12) = true := by decide
theorem test_wf_t : bad (.tzero g7 16 0) = true ∧ bad (.tshape g7 16 0) = true := by decide
theorem test_wf_bar : bad (.bardrop g7 16) = true := by decide
theorem test_wf_cv : bad (.msign g7 8) = true ∧ bad (.esetRd g7 0 8) = true := by decide
theorem test_wf_imm20 : bad (.trap g7 1048576) = true := by decide
theorem test_wf_imm32 : bad (.umovi g7 0 4294967296) = true := by decide
theorem test_wf_la : bad (.rqstep g7 16 0) = true := by decide
theorem test_wf_prio : bad (.bra g7 64 0) = true := by decide
theorem test_wf_off24 : bad (.call g7 0 8388608) = true ∧ bad (.call g7 0 (-8388609)) = true := by decide
theorem test_wf_off12 : bad (.ld { mf 0 with off := 2048 } 0 false 0) = true ∧ bad (.ld { mf 0 with off := -2049 } 0 false 0) = true := by decide
theorem test_wf_int_type : bad (.mulhi { i32 with t := .s8x4 } 0 (v 0) (v 0)) = true ∧ bad (.dot4 { i32 with t := .s64 } false false 0 (v 0) (v 0) (v 0)) = true ∧
    bad (.abs { i32 with t := .n32 } 0 (v 0)) = true ∧ bad (.addVi { i32 with t := .n16x2 } 0 (v 0) 0) = true := by decide
theorem test_wf_int_sat : bad (.min { i32 with sat := true } 0 (v 0) (v 0)) = true := by decide
theorem test_wf_unary_b : bad (.logic i32 .not 0 (v 0) (v 1)) = true ∧ bad (.plogic g7 .pass 0 0 1 7) = true := by decide
theorem test_wf_scale : bad (.scadd i32 8 0 (v 0) (v 0)) = true := by decide
theorem test_wf_fp_la : bad (.fadd { fRn with la := 1 } 0 (v 0) (v 0)) = true := by decide
theorem test_wf_fp_rounding : bad (.fmin { fRn with rm := .rz } 0 (v 0) (v 0)) = true := by decide
theorem test_wf_fp_immediate : bad (.faddVi { fRn with t := .f16x2 } 0 (v 0) 0) = true := by decide
theorem test_wf_fp_type : bad (.fdot2 fRn 0 (v 0) (v 0) (v 0)) = true ∧ bad (.fscale { fRn with t := .bf16 } 0 (v 0) (v 0)) = true := by decide
theorem test_wf_sfu : bad (.recip { fRn with t := .f16 } 0 (v 0)) = true ∧ bad (.sin { fRn with t := .f64 } 0 (v 0)) = true ∧
    bad (.exp2 { fRn with rm := .ru } 0 (v 0)) = true := by decide
theorem test_wf_fcmp : bad (.fcmp g7 .f16x2 .eq false 0 (v 0) (v 0) 7) = true ∧ bad (.fcmp g7 .f32 .num true 0 (v 0) (v 0) 7) = true ∧
    bad (.fcmpVi g7 .f16 .eq false 0 (v 0) 0) = true := by decide
theorem test_wf_f8 : bad (.f8min { f8 with rm := .rz } 0 (v 0) (v 0)) = true ∧ bad (.f8max { f8 with satf := true } 0 (v 0) (v 0)) = true := by decide
theorem test_wf_cvt : bad (.cvt (cv .s32 .f32) 0 (v 0)) = true ∧ bad (.cvti (cv .s32 .e4m3) 0 (v 0)) = true ∧ bad (.cvtf (cv .e4m3 .s32) 0 (v 0)) = true ∧
    bad (.cvt { cv .e4m3 .f32 with ftz := true } 0 (v 0)) = true ∧ bad (.cvti { cv .s32 .f32 with sat := true } 0 (v 0)) = true := by decide
theorem test_wf_cvtsr : bad (.cvtsr { cv .f16 .f32 with rm := .rz } 0 (v 0) (v 0)) = true ∧ bad (.cvtsr (cv .f32 .f32) 0 (v 0) (v 0)) = true := by decide
theorem test_wf_mx : bad (.mxq (cv .f16 .f32) 0 (v 0)) = true ∧ bad (.mxdq (cv .f16 .e4m3) 0 (v 0)) = true ∧ bad (.pkcvt (cv .e4m3 .f32) 0 (v 1) (v 2)) = true := by decide
theorem test_wf_reduction : bad (.wred g7 0 (.int .iadd .s8x4) 0 (v 0)) = true ∧ bad (.wscan g7 0 false (.fp .add .f16 .rn false) 0 (v 0)) = true ∧
    bad (.eqmask g7 0 .n8x4 0 (v 0)) = true := by decide
theorem test_wf_quadx : bad (.quadx g7 0 256 0 (v 0)) = true := by decide
theorem test_wf_overlap : bad (.rng g7 0 7 4 (v 6)) = true ∧ bad (.bary g7 8 (v 8) (v 0) (v 2)) = true := by decide
theorem test_wf_access_size : bad (.ld { mf 0 with size := 6 } 0 false 0) = true ∧ bad (.st { mf 0 with size := 5 } 4 false) = true := by decide
theorem test_wf_access_order : bad (.ld { mf 0 with ord := .rel } 0 false 0) = true ∧ bad (.st { mf 0 with ord := .acq } 0 false) = true ∧
    bad (.pref { mf 0 with ord := .acq }) = true := by decide
theorem test_wf_atomic_size : bad (.atom { af .add 0 0 with size := 1 } 0 0 0) = true ∧ bad (.red { af .add 0 0 with size := 4 }) = true := by decide
theorem test_wf_atomic_operands : bad (.red (af .cas 0 0)) = true ∧ bad (.red (af .exch 0 0)) = true ∧ bad (.atom (af .incw 0 3) 0 0 0) = true := by decide
theorem test_wf_atomic_status : bad (.atom (af .add 0 0) 0 1 0) = true ∧ bad (.atom (af .cas 0 0) 0 4 0) = true := by decide
theorem test_wf_atomic_order : bad (.red { af .add 0 0 with ord := .acqRel }) = true := by decide
theorem test_wf_rqinit : bad (.rqinit g7 { cb := false, cf := false, op := true, no := true, fh := false } (v 0) (v 0)) = true := by decide
theorem test_wf_sreg : bad (.sregR g7 0 (.ext 6)) = true ∧ bad (.sregR g7 0 (.m 12)) = true ∧ bad (.sregR g7 0 (.tc 16)) = true ∧ bad (.sregW g7 .warp 0) = true := by decide
theorem test_wf_v2s : bad (.v2s g7 3 false 0 (v 0) 0) = true ∧ bad (.v2s g7 0 false 0 (v 0) 1) = true := by decide
theorem test_wf_uld : bad (.uld { g := g7, la := 0, base := 0, off := 0, cls := .dflt, pol := .dflt, ord := .plain, scope := .warp, size := 4 } 0) = true := by decide
theorem test_wf_fence : bad (.fence g7 .plain .device) = true := by decide
theorem test_wf_bind : bad (.bind g7 1 0 0 0) = true ∧ bad (.unbind g7 4 0) = true := by decide
theorem test_wf_ipf : bad (.ipf g7 0 0 17) = true ∧ bad (.ipf g7 0 0 0) = true ∧ bad (.ipf g7 0 32768 1) = true := by decide
theorem test_wf_cwait : bad (.cwait g7 true false .device 4 1) = true := by decide
theorem test_wf_vsp : bad (.vsp g7 32) = true := by decide
theorem test_wf_pg : bad (.progrd g7 0 8) = true ∧ bad (.cabort g7 8) = true := by decide
theorem test_wf_csr : bad (.csrr g7 0 13) = true ∧ bad (.csrw g7 512 0) = true ∧ (Instr.csrr g7 0 16).wellFormed = true := by decide

/-! ## Decoding -/

/-- R166. -/
theorem test_words_sequencer : reads [
    (wV 0x000 0 0 0 0 0, .nop g7), (wVB 0x001 0 9 5 0 0, .bra g7 9 5), (wVB 0x001 1 9 (2 ^ 24 - 1) 0 0, .braU g7 9 (-1)),
    (wVB 0x002 0 63 0 8 1, .brx g7 63 8 true), (wVB 0x003 0 32 0x800000 0 0, .call g7 32 (-0x800000)), (wVB 0x004 0 1 0 254 0, .callx g7 1 254 false),
    (wVB 0x005 0 0 0 0 0, .ret g7), (wV 0x006 0 0 0 0 0, .land g7), (wV 0x007 11 0 0 0 0, .join g7 11), (wV 0x008 1 0 0 0 0, .leave g7 1),
    (wV 0x009 2 0 0 0 0, .waitm g7 2), (wV 0x00A 3 0 0 0 0, .mclr g7 3), (wVI 0x00B 0 0 0xFFFFF 0, .trap g7 0xFFFFF), (wV 0x00C 0 0 0 0 0, .tret g7),
    (wV 0x00C 0 0 0 0 1, .tretNext g7), (wV 0x00D 0 0 0 0 0, .tkill g7), (wV 0x00D 0 0 0 0 1, .tkillW g7), (wVI 0x00E 0 0 64 0, .wdog g7 64),
    (wV 0x00F 0 0 0 0 0, .yield g7), (wV 0x010 0 0 0 0 0, .exit g7), (wVI 0x011 0 0 5 0, .bkpt g7 5)] = true := by decide +kernel

/-- R39, R188. -/
theorem test_words_integer : reads [
    (wV 0x040 1 (rlu 2) (r 3) 0 0, .add i32 1 (vlu 2) (v 3)), (wVI 0x060 1 (r 2) 7 0, .addVi i32 1 (v 2) 7), (wV 0x041 1 (r 2) (r 3) 0 0, .sub i32 1 (v 2) (v 3)),
    (wVI 0x061 1 (r 2) 7 0, .subVi i32 1 (v 2) 7), (wV 0x042 1 (r 2) (r 3) 0 0, .mul i32 1 (v 2) (v 3)), (wVI 0x062 1 (r 2) 7 0, .mulVi i32 1 (v 2) 7),
    (wV 0x043 1 (r 2) (r 3) 0 0x10, .mulhi { i32 with t := .n32 } 1 (v 2) (v 3)), (wV 0x044 1 (r 2) (r 3) (r 4) 8, .muladd { i32 with sat := true } 1 (v 2) (v 3) (v 4)),
    (wV 0x045 1 (r 2) (r 3) (r 4) 2, .sum3 i32 true false 1 (v 2) (v 3) (v 4)), (wV 0x046 1 (r 2) (r 3) (r 4) 2, .dot4 i32 false true 1 (v 2) (v 3) (v 4)),
    (wV 0x047 1 (r 2) (r 3) 0 0x60, .min { i32 with t := .s8x4 } 1 (v 2) (v 3)), (wVI 0x067 1 (r 2) 7 0, .minVi i32 1 (v 2) 7),
    (wV 0x048 1 (r 2) (r 3) 0 0x50, .max { i32 with t := .n16x2 } 1 (v 2) (v 3)), (wVI 0x068 1 (r 2) 7 0, .maxVi i32 1 (v 2) 7),
    (wV 0x049 1 (r 2) 0 0 0x40, .abs { i32 with t := .s16x2 } 1 (v 2)), (wV 0x04A 1 (r 2) (r 3) 0 3, .logic i32 .andn 1 (v 2) (v 3)),
    (wVI 0x06A 1 (r 2) 7 2, .logicVi i32 .xor 1 (v 2) 7), (wV 0x04B 1 (r 2) (r 3) (r 7) 1, .plogic g7 .or 1 2 3 7),
    (wV 0x04C 2 (r 4) (r 6) 0 0x24, .shl { i32 with t := .s64 } true 2 (v 4) (v 6)), (wVI 0x06C 1 (r 2) 7 0, .shlVi i32 false 1 (v 2) 7),
    (wV 0x04D 1 (r 2) (r 3) 0 4, .shr i32 true 1 (v 2) (v 3)), (wVI 0x06D 1 (r 2) 7 0, .shrVi i32 false 1 (v 2) 7)] = true := by decide +kernel

theorem test_words_integer_two : reads [
    (wV 0x04E 1 (r 2) (r 3) (r 4) 4, .funnel i32 true false 1 (v 2) (v 3) (v 4)), (wV 0x04F 2 (r 4) (r 3) 0 0x15, .scadd { i32 with t := .n32 } 5 2 (v 4) (v 3)),
    (wV 0x050 1 (r 2) 0 0 0x30, .bcnt { i32 with t := .n64 } 1 (v 2)), (wV 0x051 1 (r 2) 0 0 0, .lzc i32 1 (v 2)), (wV 0x052 1 (r 2) 0 0 0, .bitrev i32 1 (v 2)),
    (wV 0x053 1 (r 2) (r 3) 0 0, .xfld i32 1 (v 2) (v 3)), (wV 0x054 1 (r 2) (r 3) (r 4) 0, .ifld i32 1 (v 2) (v 3) (v 4)), (wV 0x055 1 (r 2) (r 3) 0 0, .mkmask i32 1 (v 2) (v 3)),
    (wV 0x056 1 (r 2) (r 3) (r 7) 2, .cmp i32 .lt 1 (v 2) (v 3) 7), (wVI 0x076 1 (r 2) 7 5, .cmpVi i32 .ge 1 (v 2) 7), (wV 0x057 1 (r 2) (r 3) 0 4, .pick i32 4 1 (v 2) (v 3)),
    (wVI 0x077 1 (r 2) 7 4, .pickVi i32 4 1 (v 2) 7), (wV 0x058 1 (r 2) 0 0 0, .mov i32 1 (v 2)),
    (0x059 * 2 ^ 53 + 7 * 2 ^ 49 + 1 * 2 ^ 37 + 0xDEADBEEF * 2 ^ 5, .movi g7 1 0xDEADBEEF)] = true := by decide +kernel

/-- R39, R190 to R192. -/
theorem test_words_floating : reads [
    (wV 0x080 1 (r 2) (r 3) 0 0, .fadd fRn 1 (v 2) (v 3)), (wVI 0x0A0 1 (r 2) 0x3F800 0, .faddVi fRn 1 (v 2) 0x3F800), (wV 0x081 1 (r 2) (r 3) 0 4, .fmul { fRn with rm := .rz } 1 (v 2) (v 3)),
    (wVI 0x0A1 1 (r 2) 7 0, .fmulVi fRn 1 (v 2) 7), (wV 0x082 2 (r 4) (r 6) (r 8) 0x20 + la 3, .fma { fRn with t := .f64, la := 3 } 2 (v 4) (v 6) (v 8)),
    (wV 0x083 1 (r 2) (r 3) 0 0, .fmin fRn 1 (v 2) (v 3)), (wVI 0x0A3 1 (r 2) 7 0, .fminVi fRn 1 (v 2) 7), (wV 0x084 1 (r 2) (r 3) 0 0, .fmax fRn 1 (v 2) (v 3)),
    (wVI 0x0A4 1 (r 2) 7 0, .fmaxVi fRn 1 (v 2) 7), (wV 0x085 1 (r 2) (r 3) (r 7) 5, .fcmp g7 .f32 .lt true 1 (v 2) (v 3) 7), (wVI 0x0A5 1 (r 2) 7 0xC, .fcmpVi g7 .f32 .num false 1 (v 2) 7),
    (wV 0x086 1 (r 2) 0 0 0x50, .fclass g7 .f16 1 (v 2)), (wV 0x087 1 (r 2) 0 0 0, .fabs fRn 1 (v 2)), (wV 0x088 1 (r 2) 0 0 0x40, .fneg { fRn with t := .bf16x2 } 1 (v 2)),
    (wV 0x089 1 (r 2) 0 0 0xC, .fround { fRn with rm := .rd } 1 (v 2)), (wV 0x08A 1 (r 2) (r 3) (r 4) 0x30, .fdot2 { fRn with t := .f16x2 } 1 (v 2) (v 3) (v 4)),
    (wV 0x08B 1 (r 2) (r 3) 0 2, .fscale { fRn with ftz := true } 1 (v 2) (v 3)), (wV 0x08C 1 (r 2) (r 3) 0 0x10, .f8add f8 1 (v 2) (v 3)),
    (wV 0x08D 1 (r 2) (r 3) 0 0x11, .f8mul { f8 with satf := true } 1 (v 2) (v 3)), (wV 0x08E 1 (r 2) (r 3) (r 4) 0x18, .f8fma { f8 with rm := .ru } 1 (v 2) (v 3) (v 4)),
    (wV 0x08F 1 (r 2) (r 3) 0 0x10, .f8min f8 1 (v 2) (v 3)), (wV 0x090 1 (r 2) (r 3) 0 0x10, .f8max f8 1 (v 2) (v 3))] = true := by decide +kernel

/-- R193 to R195: SRCB holds FD in [26:22] and FS in [21:17]. -/
theorem test_words_conversion : reads [
    (wV 0x0C0 1 (r 2) 0 0 1, .recip { fRn with sat := true } 1 (v 2)), (wV 0x0C1 1 (r 2) 0 0 0, .rsqrt fRn 1 (v 2)), (wV 0x0C2 2 (r 4) 0 0 0x20, .sqrt { fRn with t := .f64 } 2 (v 4)),
    (wV 0x0C3 1 (r 2) 0 0 0, .exp2 fRn 1 (v 2)), (wV 0x0C4 1 (r 2) 0 0 0, .log2 fRn 1 (v 2)), (wV 0x0C5 1 (r 2) 0 0 0, .sin fRn 1 (v 2)), (wV 0x0C6 1 (r 2) 0 0 0, .cos fRn 1 (v 2)),
    (wV 0x0C7 1 (r 2) 0 0 0, .tanh fRn 1 (v 2)), (wV 0x0C8 1 (r 2) (2 * 32 + 0) 0 0, .cvt (cv .f16 .f32) 1 (v 2)), (wV 0x0C9 1 (r 2) (9 * 32 + 3) 0 0, .cvti (cv .s32 .bf16) 1 (v 2)),
    (wV 0x0CA 1 (r 2) (0 * 32 + 16) 0 0, .cvtf (cv .f32 .n8) 1 (v 2)), (wV 0x0CB 1 (r 2) (8 * 32 + 0) (r 4) 0, .cvtsr (cv .e2m1 .f32) 1 (v 2) (v 4)),
    (wV 0x0CC 1 (r 2) (17 * 32 + 0) 0 0, .mxq (cv .mxint8 .f32) 1 (v 2)), (wV 0x0CD 1 (r 2) (0 * 32 + 6) 0 0, .mxdq (cv .f32 .e3m2) 1 (v 2)),
    (wV 0x0CE 1 (r 2) (4 * 32 + 0) (r 4) 0, .pkcvt (cv .e4m3 .f32) 1 (v 2) (v 4))] = true := by decide +kernel

/-- R197 to R202. -/
theorem test_words_cross : reads [
    (wV 0x100 1 (r 2) (r 3) 0 (7 * 4 + 3), .xlane g7 0 .flip 7 1 (v 2) (v 3)), (wV 0x101 1 (r 2) 0 0 0, .pollMask g7 1 2), (wV 0x101 1 (r 2) 0 0 1, .pollAny g7 1 2),
    (wV 0x101 1 (r 2) 0 0 2, .pollAll g7 1 2), (wV 0x101 1 (r 2) 0 0 3, .pollSame g7 1 2), (wV 0x102 1 (r 2) 5 0 0x10, .wred g7 0 (.int .ixor .n32) 1 (v 2)),
    (wV 0x103 1 (r 2) (1 * 256 + 16 + 2) 0 6, .wscan g7 0 true (.fp .max .f32 .rz true) 1 (v 2)), (wV 0x104 1 (r 2) 0 0 0x20, .eqmask g7 0 .s64 1 (v 2)),
    (wV 0x105 1 (r 2) (r 3) (r 4) 0, .bytepSel g7 1 (v 2) (v 3) (v 4)), (wV 0x105 1 (r 4) (r 3) 0 1, .bytepLut16L g7 1 (v 4) (v 3)), (wV 0x105 1 (r 4) (r 3) 0 2, .bytepLut16H g7 1 (v 4) (v 3)),
    (wV 0x106 1 (r 2) 0xE4 0 0, .quadx g7 0 0xE4 1 (v 2)), (wV 0x107 3 0 0 0 0, .lead g7 3), (wV 0x108 8 (rlu 2) 0 0 6 + la 2, .rng g7 2 6 8 (vlu 2)),
    (wV 0x109 2 0 0 0 3, .widr g7 .tcause 2), (wV 0x10A 2 0 0 0 1, .clock g7 true 2), (wV 0x10B 1 (r 2) 0 0 0, .ptst g7 1 (v 2)), (wV 0x10B 1 (r 2) 0 0 1, .ptstClr g7 1 (v 2))] = true := by
  decide +kernel

/-- R35, R36, R250, R251. -/
theorem test_words_memory : reads [
    (wMA 0x140 10 8 1 0 4 0 1 1 5 2 0 + la 4, .ld { mf 8 with baseLu := true, off := 4, pol := .own, ord := .acq, scope := .device } 4 false 10),
    (wMA 0x140 8 6 0 0 0xFFF 6 5 0 0 5 1, .ld { mf 6 with off := -1, cls := .reuse8, pol := .nc, size := 5 } 0 true 8),
    (wMA 0x141 12 8 0 1 1 2 0 2 6 0 0, .st { mf 8 with off := 1, cls := .pinned, ord := .rel, scope := .system, size := 0 } 12 true),
    (wMB 0x142 6 10 2 0 10 0 0 0 2, .atom (af .incw 10 2) 0 0 6), (wMB 0x142 6 10 4 3 9 0 3 5 3, .atom { af .cas 10 4 with ord := .acqRel, scope := .device, size := 3 } 0 3 6),
    (wMB 0x143 0 10 3 0 15 0 2 5 1, .red { af .hadd 10 3 with ord := .rel, scope := .device, size := 1 }),
    (wV 0x144 4 (r 2) (r 3) 0 (3 * 8 + 2) + la 1, .lds g7 1 .wt .reuse1 4 (v 2) (v 3)), (wV 0x145 0 (r 2) (r 3) (rlu 4) 0, .sst g7 .dflt .dflt (v 2) (v 3) (vlu 4)),
    (wMA 0x146 0 8 0 0 2 1 0 0 0 4 0, .pref { mf 8 with off := 2, cls := .stream, size := 4 })] = true := by decide +kernel

/-- R388, R409, R427. -/
theorem test_words_graphics : reads [
    (wV 0x180 0 0 0 0 0, .ordenter g7), (wV 0x181 0 0 0 0 0, .ordexit g7), (wV 0x182 0 (r 8) 0 0 0x10, .fraginOpen g7 (v 8)), (wV 0x182 4 0 0 0 0, .fraginWave g7 4),
    (wV 0x182 5 0 0 0 0x27, .fraginRead g7 .face 5), (wV 0x183 0 0 0 0 0, .fkill g7), (wV 0x184 6 (r 7) 0 0 0, .covw g7 6 (v 7)), (wV 0x185 32 (r 16) (r 26) (r 24) 0, .bary g7 32 (v 16) (v 26) (v 24)),
    (wV 0x1C0 22 (r 17) (r 15) (r 20) 0, .flins g7 22 (v 17) (v 15) (v 20)), (wV 0x1C1 26 (r 24) 0 0 0 + la 1, .flhead g7 1 26 (v 24)), (wV 0x1C2 36 (r 28) 0 0 0, .flnode g7 0 36 (v 28)),
    (wV 0x1C3 0 (r 4) (r 6) (r 7) 1, .flclrInit g7 (v 4) (v 6) (v 7)), (wV 0x1C3 0 (r 4) 0 0 0, .flclrPix g7 (v 4)), (wV 0x1C4 0 (r 4) (r 5) 0 0, .flbudgetSet g7 (v 4) (v 5)),
    (wV 0x1C4 6 (r 4) 0 0 1, .flbudgetGet g7 6 (v 4)), (wV 0x1C4 0 (r 8) 0 0 2, .flbudgetRule g7 (v 8)), (wV 0x1C4 6 0 0 0 3, .flbudgetRrd g7 6),
    (wV 0x1C5 0 (r 17) (r 15) (r 20) 0, .flmrg g7 (v 17) (v 15) (v 20)), (wV 0x1C5 0 (r 17) (r 15) (r 20) 1, .flmrgOne g7 (v 17) (v 15) (v 20)),
    (wV 0x200 0 (r 16) (r 8) 0 0x15, .rqinit g7 { cb := true, cf := false, op := true, no := false, fh := true } (v 16) (v 8)), (wV 0x201 20 0 0 0 0 + la 2, .rqstep g7 2 20),
    (wV 0x202 26 0 0 0 0x49, .rqhit g7 0 true .faddrHi 26), (wV 0x203 0 0 0 0 0, .rqcommit g7), (wV 0x203 0 0 0 0 1, .rqcommitEnd g7), (wV 0x204 22 (r 17) 0 (r 20) 1, .rqappend g7 true 22 (v 17) (v 20)),
    (wV 0x205 40 (r 24) (r 28) (r 32) 0, .morton g7 40 (v 24) (v 28) (v 32)), (wV 0x206 48 (r 40) 0 0 0, .bbox g7 0 48 (v 40)), (wV 0x207 56 (r 40) 0 0 0, .bvpack g7 56 (v 40))] = true := by
  decide +kernel

/-- R209 to R220. -/
theorem test_words_uniform : reads [
    (wU 0x000 5 (r 6) 0 0 0, .umov g7 5 6), (wU 0x000 5 (r 6) 0 0 1, .umovQ g7 5 6), (wU 0x000 5 (r 6) 0 0 2, .umovQ2s g7 5 6), (wU 0x000 5 (r 6) 0 0 3, .umovS2q g7 5 6),
    (2 ^ 63 + 0x001 * 2 ^ 53 + 7 * 2 ^ 49 + 7 * 2 ^ 37 + 0x12345678 * 2 ^ 5, .umovi g7 7 0x12345678), (2 ^ 63 + 0x001 * 2 ^ 53 + 7 * 2 ^ 49 + 7 * 2 ^ 37 + 1 * 2 ^ 5 + 1, .umoviHi g7 7 1),
    (wU 0x002 5 (r 4) (r 3) 0 3, .uadd { uf with w32 := true, s := true } 5 4 3), (wUI 0x022 5 (r 5) 256 0, .uaddUi uf 5 5 256), (wU 0x003 5 (r 4) (r 3) 0 0, .usub uf 5 4 3),
    (wUI 0x023 5 (r 4) 9 0, .usubUi uf 5 4 9), (wU 0x004 5 (r 4) (r 3) 0 6, .umul { uf with s := true } true 5 4 3), (wUI 0x024 5 (r 4) 9 0, .umulUi uf false 5 4 9),
    (wU 0x005 5 (r 4) (r 3) 0 0, .uand uf 5 4 3), (wUI 0x025 5 (r 4) 9 0, .uandUi uf 5 4 9), (wU 0x006 5 (r 4) (r 3) 0 0, .uor uf 5 4 3), (wUI 0x026 5 (r 4) 9 0, .uorUi uf 5 4 9),
    (wU 0x007 5 (r 4) (r 3) 0 0, .uxor uf 5 4 3), (wUI 0x027 5 (r 4) 9 0, .uxorUi uf 5 4 9), (wU 0x008 5 (r 4) (r 3) 0 0, .ushl uf 5 4 3), (wUI 0x028 5 (r 4) 9 0, .ushlUi uf 5 4 9),
    (wU 0x009 5 (r 4) (r 3) 0 0, .ushr uf 5 4 3), (wUI 0x029 5 (r 4) 9 0, .ushrUi uf 5 4 9), (wU 0x00A 1 (r 2) (r 3) (r 7) 0x12, .usetp { uf with s := true } .lt 1 2 3 7),
    (wUI 0x02A 1 (r 2) 9 0, .usetpUi uf .eq 1 2 9), (wU 0x00B 5 (r 4) (r 3) 0 6, .usel g7 6 5 4 3), (wUI 0x02B 5 (r 4) 9 6, .uselUi g7 6 5 4 9),
    (wU 0x00C 6 (r 9) (r 1) 0 0x20, .v2s g7 1 false 6 (v 9) 1), (wU 0x00D 12 (r 6) 0 0 0x10, .s2v g7 true 12 6), (wU 0x00E 8 0 0 0 0x2F, .sregR g7 8 (.tc 15)),
    (wU 0x00E 0 (r 8) 0 0 0x43, .sregW g7 .fflags 8), (wU 0x00F 2 (r 9) 0 0 0, .tshape g7 2 9)] = true := by decide +kernel

/-- R238 to R259, R133, R300 to R317. -/
theorem test_words_uniform_memory : reads [
    (2 ^ 63 + wMA 0x040 6 4 0 0 3 1 0 1 4 3 0 + la 5, .uld { g := g7, la := 5, base := 4, off := 3, cls := .stream, pol := .dflt, ord := .acq, scope := .yard, size := 3 } 6),
    (wU 0x041 0 (r 1) (r 2) (r 3) 0, .sdef g7 1 2 3), (wU 0x042 0 0 0 0 0x17, .fence g7 .acqRel .device), (wU 0x043 0 0 0 0 4, .tfence g7 .yard), (wU 0x043 0 (r 1) (r 2) 0 0xD, .tfenceRange g7 .device 1 2),
    (wU 0x043 0 0 0 0 0x16, .tfenceAll g7 .system), (2 ^ 63 + wMB 0x044 5 4 6 0 0 0 0 0 3, .bind g7 3 4 5 6), (2 ^ 63 + wMB 0x045 0 4 0 0 0 0 0 0 2, .unbind g7 2 4),
    (wUI 0x046 0 (r 4) (0xFFFF * 16 + 15) 0, .ipf g7 4 (-1) 16),
    (wU 0x080 7 (r 63) 0 (r 3) 0, .barSync g7 7 3 63), (wU 0x080 1 (r 4) 0 (r 3) 1, .barArrive g7 1 3 4), (wU 0x080 1 (r 63) 0 (r 15) 2, .barWait g7 1 15), (wU 0x081 5 (r 63) (r 7) (r 0) 6, .barp g7 .smin 5 0 7 63),
    (wU 0x082 0 0 0 (r 9) 0, .bardrop g7 9), (2 ^ 63 + wMB 0x083 1 4 6 0 0 0 2 5 3, .arrivec g7 .rel .device 4 6 1), (2 ^ 63 + wMB 0x084 0 4 0 0 1 0 1 5 3, .cwait g7 true true .device 4 0),
    (2 ^ 63 + wMB 0x085 0 4 6 0 0 0 0 2 0, .cwaitb g7 false .block 4 6), (2 ^ 63 + wMB 0x086 0 1 0 0 0 0 0 0 0, .monitor g7 1), (wU 0x087 0 0 0 0 0, .mwait g7),
    (2 ^ 63 + wMB 0x088 2 4 6 0 0 0 0 0 0, .qpush g7 4 6 2), (2 ^ 63 + wMB 0x089 9 4 2 0 0 0 0 0 0, .qpop g7 9 4 2), (2 ^ 63 + wMB 0x08A 9 4 2 0 0 0 0 0 0, .park g7 9 4 2),
    (2 ^ 63 + wMB 0x08B 2 4 6 0 0 0 0 0 0, .fulfil g7 4 6 2)] = true := by decide +kernel

/-- R96, R116, R128 to R131, R347, R373, R436, R438. -/
theorem test_words_engines : reads [
    (wU 0x0C0 4 (r 2) 0 0 0, .launch g7 4 2), (wUI 0x0C1 0 0 31 0, .vsp g7 31), (wU 0x0C2 5 0 0 0 14, .sget g7 .blin 5), (wU 0x0C3 0 (r 3) 0 0 2, .sput g7 .cls 3), (wUI 0x0C4 0 0 256 0, .sleep g7 256),
    (wU 0x0C5 6 (r 2) 0 0 0, .progrd g7 6 2), (wU 0x100 0 (r 4) 0 0 0, .cpy g7 4), (wU 0x101 0 (r 4) 0 0 0, .cpym g7 4), (wU 0x102 0 (r 4) 0 0 0, .redv g7 4), (wU 0x103 0 0 0 (r 3) 0, .cguardClr g7 3),
    (wU 0x103 0 (r 2) 0 (r 3) 1, .cguardSet g7 3 2), (wU 0x103 5 0 0 (r 3) 2, .cguardRd g7 5 3), (wU 0x104 1 (r 2) 0 0 0, .cpres g7 1 2), (wU 0x105 0 (r 5) 0 0 0, .cabort g7 5), (wU 0x105 0 0 0 0 1, .cabortAll g7),
    (wU 0x140 0 (r 4) (r 5) (r 6) 0, .tld g7 false 0 4 5 6), (wU 0x141 1 (r 4) (r 5) (r 6) 1, .tst g7 true 1 4 5 6), (wU 0x142 3 0 (r 5) 0 0, .tzero g7 3 5), (wU 0x143 6 (r 2) (r 5) 0 5, .tcvt g7 .rz true 6 2 5),
    (wU 0x144 0 0 0 (r 7) 0, .msign g7 7), (wU 0x144 0 (r 7) 0 (r 0) 1, .msignArm g7 0 7), (wU 0x144 4 0 0 (r 1) 2, .msignRd g7 4 1), (wU 0x145 0 (r 18) (r 14) 0 0, .mma g7 0 18 14),
    (wU 0x146 1 (r 8) (r 9) (r 10) 0, .mmax g7 1 8 9 10), (wU 0x147 0 (r 2) (r 3) 0 0, .aclr g7 2 3), (wU 0x148 4 (r 2) (r 3) 0 0, .ald g7 4 2 3), (wU 0x149 4 (r 2) (r 3) 0 0, .ast g7 4 2 3),
    (wU 0x14A 4 (r 2) (r 3) 0 8, .acvt g7 .ru false 4 2 3), (wU 0x14B 0 (r 6) 0 (r 3) 0, .eset g7 3 6), (wU 0x14B 4 0 0 (r 2) 1, .esetRd g7 4 2),
    (wU 0x3C0 5 0 0 0x1FF 0, .csrr g7 5 0x1FF), (wU 0x3C1 0 (r 3) 0 8 0, .csrw g7 8 3), (wU 0x3C2 0 0 0 0 0, .halt g7)] = true := by decide +kernel

/-- Fates of R42: a VI form that is not there, a register that is not there (m12), a misaligned pair, MOD not defined. -/
theorem test_words_refused :
    decodeWord (BitVec.ofNat 64 (wVI 0x063 1 (r 2) 7 0)) = .error .illegalInstruction ∧
    decodeWord (BitVec.ofNat 64 (wV 0x007 12 0 0 0 0)) = .error .illegalEncoding ∧
    decodeWord (BitVec.ofNat 64 (wV 0x040 2 (r 3) (r 4) 0 0x20)) = .error .illegalEncoding ∧
    decodeWord (BitVec.ofNat 64 (wV 0x006 0 0 0 0 1)) = .error .illegalEncoding := by decide +kernel

/-! ## Small states -/

/-- The machine about to issue a word: warp 0 at PC 0, all lanes, nothing else (log entry 8). -/
def at0 (word : Nat) : State := State.reset.withFetchWord 64 word
def w0 : Warp :=
  { block := 0, idx := 0, core := 0, part := 0, slot := 0, floor := 1, ceil := 256, live := BitVec.allOnes 32
    entries := [{ eid := 0, pc := 0, prio := 32, mask := BitVec.allOnes 32, st := .ready }] }
def e0 : Entry := { eid := 0, pc := 0, prio := 32, mask := BitVec.allOnes 32, st := .ready }
theorem calm0 (n : Nat) : Calm (at0 n) 0 w0 e0 := ⟨rfl, by decide, by decide, rfl, rfl, rfl, rfl⟩
/-- The same with another warp of one entry in its place. -/
def at0w (w : Warp) : State := (at0 0).modWarp 0 fun _ => w
/-- The same with launch flags. -/
def at0f (flags : Word) : State := { at0 0 with launches := tmod (at0 0).launches 0 fun l => { l with flags := flags } }
/-- Warp 0 with lanes in their handler. -/
def wInh : Warp := { w0 with traps := [(0, { inh := true, tprio := 7, detail := 0, cause := 4, tpc := 64, taddr := 9 })] }
theorem room_of {s : State} {g : Nat} {w : Warp} {e : Entry} {o : Opnds} (h : s.issuing = some (g, w, e))
    (k : mayGrant s g w e (poolNeed w o).length = true) : Room s g w o := .inr fun e' h' => by rw [h] at h'; cases h'; exact k
def withVec (s : State) : State := s.modCore 0 fun c => { c with trapVec := 0x2000 }

/-! ## Witnesses -/

theorem test_witness_DecodeEncode : (Instr.nop g7).wellFormed = true ∧ (Instr.nop g7).isEvent = false ∧ Instr.reset.wellFormed = true ∧ Instr.reset.isEvent = true := by decide
theorem test_witness_DecodedWellFormed : decodeWord (0x00EE006000000000 : DWord) = .ok (.join g7 3) := by decide +kernel
theorem test_witness_ViForms :
    (∃ n m, ViPair (.add i32 1 (v 2) (v 3)) (.addVi i32 1 (v 2) 7) 0x040 ∧ (Instr.add i32 1 (v 2) (v 3)).wellFormed = true ∧
      (Instr.addVi i32 1 (v 2) 7).wellFormed = true ∧ encodeNat (.add i32 1 (v 2) (v 3)) = some n ∧ encodeNat (.addVi i32 1 (v 2) 7) = some m) ∧
    (∃ w : DWord, nbits w.toNat 63 1 = 0 ∧ 32 ≤ nbits w.toNat 53 6 ∧ decodeWord w ≠ .error .illegalInstruction) ∧
    (∃ w : DWord, nbits w.toNat 63 1 = 0 ∧ 32 ≤ nbits w.toNat 53 6 ∧ ¬ ∃ i j, ViPair i j (nbits w.toNat 53 11 - 32)) := by
  refine ⟨⟨_, _, .add i32 1 (v 2) (v 3) 7, by decide, by decide, rfl, rfl⟩, ⟨0x0C0E000000000000, ?_, ?_, ?_⟩, 0x0C6E000000000000, ?_, ?_, ?_⟩
  · decide +kernel
  · decide +kernel
  · decide +kernel
  · decide +kernel
  · decide +kernel
  · rintro ⟨i, j, h⟩
    have e : nbits (0x0C6E000000000000 : DWord).toNat 53 11 - 32 = 0x043 := by decide +kernel
    rw [e] at h
    cases h
theorem test_witness_StepRunsDecoded : AtWord (at0 0x00CE000000000000) 0 w0 e0 0x00CE000000000000 ∧
    decodeWord 0x00CE000000000000 = .ok (.land g7) ∧ foreignSystem (at0 0x00CE000000000000) 0 0x00CE000000000000 = false :=
  ⟨⟨rfl, rfl, by decide +kernel⟩, by decide +kernel, by decide +kernel⟩
theorem test_witness_StepDecodeFault :
    (AtWord (at0 (2 ^ 64 - 1)) 0 w0 e0 (BitVec.allOnes 64) ∧ Calm (at0 (2 ^ 64 - 1)) 0 w0 e0 ∧ decodeWord (BitVec.allOnes 64) = .error .illegalInstruction) ∧
    (AtWord (at0 0x00CE000000000001) 0 w0 e0 0x00CE000000000001 ∧ foreignSystem (at0 0x00CE000000000001) 0 0x00CE000000000001 = false ∧
      decodeWord 0x00CE000000000001 = .error .illegalEncoding) :=
  ⟨⟨⟨rfl, rfl, by decide +kernel⟩, calm0 _, by decide +kernel⟩, ⟨rfl, rfl, by decide +kernel⟩, by decide +kernel, by decide +kernel⟩
theorem between_reset (k : Nat) (l : List (Nat × Instr)) : Between { State.reset with focus := k, schedule := l } := ⟨rfl, rfl, rfl, rfl⟩
/-- A trap owed to warp 0, and a re-read owed to it on line 3. -/
def sOwed : State := { State.reset with asyncs := [{ warp := 0, lanes := 1, cause := 0x11, detail := 0, addr := 0 }], retests := [(0, .device 3)] }
theorem test_witness_StepTurns :
    (∃ (s : State) (g : Nat) (w : Warp) (e : Entry), s.powered = true ∧ s.issuing = some (g, w, e) ∧ fetchWord s g e.pc = none) ∧
    (∃ t r, sOwed.powered = true ∧ sOwed.cur = none ∧ sOwed.asyncs = t :: r) ∧
    (∃ r, ({ sOwed with asyncs := [] } : State).cur = none ∧ ({ sOwed with asyncs := [] } : State).retests.find? (retestOpen { sOwed with asyncs := [] }) = some r) ∧
    (∃ (s : State) (dt : Nat) (ev : Instr) (rest : List (Nat × Instr)), Between s ∧ s.schedule = (dt, ev) :: rest ∧ ∀ core part, ev ≠ .issueSelect core part) ∧
    (∃ (s : State) (dt core part : Nat) (rest : List (Nat × Instr)), Between s ∧ s.schedule = (dt, .issueSelect core part) :: rest) ∧
    (∃ s : State, Between s ∧ s.schedule = [] ∧ 0 < s.focus ∧ s.focus + 2 = turnCount) ∧ (∃ s : State, Between s ∧ s.schedule = [] ∧ s.focus = 0) ∧
    (∃ (s : State) (dt : Nat) (ev : Instr) (rest : List (Nat × Instr)), s.powered = false ∧ s.schedule = (dt, ev) :: rest ∧ ev ≠ Instr.reset) ∧
    ∃ s : State, s.powered = false ∧ s.schedule = [] :=
  ⟨⟨{ at0 0 with icache := [] }, 0, w0, e0, rfl, rfl, rfl⟩, ⟨_, _, rfl, rfl, rfl⟩, ⟨_, rfl, rfl⟩,
    ⟨_, 1, .heldClear 0, [], between_reset 0 [(1, .heldClear 0)], rfl, fun _ _ h => by cases h⟩,
    ⟨_, 0, 215, 15, [], between_reset 0 [(0, .issueSelect 215 15)], rfl⟩, ⟨_, between_reset 6910 [], rfl, by decide, by decide⟩,
    ⟨_, between_reset 0 [], rfl, rfl⟩, ⟨{ State.reset with powered := false, schedule := [(1, .heldClear 0)] }, 1, .heldClear 0, [], rfl, rfl, by decide⟩,
    { State.reset with powered := false }, rfl, rfl⟩
theorem test_witness_LaneResults : ∃ i x, LaneSpec i x ∧ Calm (at0 0) 0 w0 e0 ∧ Room (at0 0) 0 w0 x.o :=
  ⟨_, _, .movi g7 1 5, calm0 0, room_of rfl (by decide +kernel)⟩
theorem test_witness_LaneEffects : ∃ b w', b = (((at0 0).counted w0 {} (laneCtx 0 w0 e0 g7).act).engaged 0 {}).begun 0 e0 ∧ b.warp? 0 = some w' ∧
    LaneEffect (at0 0) b w' (bodyCtx .traps 0 w0 e0 g7) (.fkill g7) g7 .traps {} (releaseFragments b 0 (bodyCtx .traps 0 w0 e0 g7).act) [] ∧
    Calm (at0 0) 0 w0 e0 ∧ homeOpen (at0 0) 0 {} = true ∧ Room (at0 0) 0 w0 {} :=
  ⟨_, _, rfl, rfl, .fkill g7, calm0 0, rfl, .inl rfl⟩
theorem test_witness_UnmappedRead : w0.isMapped 2 = false ∧ ∃ i x, LaneSpec i x ∧ Calm (at0 0) 0 w0 e0 ∧ (laneCtx 0 w0 e0 x.g).act ≠ 0 ∧ Room (at0 0) 0 w0 x.o ∧
    (x.o.vr.filter fun r => !(w0.isMapped r)) = [2, 3] :=
  ⟨by decide, _, _, .add i32 1 (v 2) (v 3), calm0 0, by decide, room_of rfl (by decide +kernel), by decide⟩
theorem test_witness_CsrFields : csrNumber 0 = true ∧ csrNumber 0x00C = true ∧ csrNumber 0x010 = true ∧ csrNumber 0x100 = true ∧ csrNumber 0x1FF = true := by decide
theorem test_witness_UniformResults : ∃ i x, UniSpec i x ∧ Calm (at0 0) 0 w0 e0 ∧ w0.uniTrue x.g := ⟨_, _, .umovi g7 1 5, calm0 0, rfl⟩
theorem test_witness_UniformResults_false : ∃ i x, UniSpec i x ∧ Calm (at0 0) 0 w0 e0 ∧ ¬ w0.uniTrue x.g :=
  ⟨_, _, .umovi { neg := true, n := 7 } 1 5, calm0 0, fun h => by cases h⟩
theorem test_witness_UniformEffects : ∃ b w' u, b = (((at0 0).counted w0 { sr := [1], vw := regsFrom 4 2 } e0.mask).engaged 0 { sr := [1], vw := regsFrom 4 2 }).begun 0 e0 ∧ b.warp? 0 = some w' ∧
    Calm (at0 0) 0 w0 e0 ∧ UniEffect (at0 0) b w' (uniCtx 0 e0) (.s2v g7 true 4 1) g7 { sr := [1], vw := regsFrom 4 2 } u [] ∧ w0.uniTrue g7 ∧
    homeOpen (at0 0) 0 { sr := [1], vw := regsFrom 4 2 } = true ∧ Room (at0 0) 0 w0 { sr := [1], vw := regsFrom 4 2 } :=
  ⟨_, _, _, rfl, rfl, calm0 0, .s2v g7 true 4 1, rfl, by decide +kernel, room_of rfl (by decide +kernel)⟩
/-- The number 5 in v9 of lane 0. -/
def wV9 : Warp := { w0 with mapped := 2 ^ 9, v := [(9 * 32, { bits := 5, poison := false })] }
/-- An inverted q7, which is false. -/
def gOff : Guard := { neg := true, n := 7 }
theorem test_witness_FalseUniformGuard : Calm (at0 0) 0 w0 e0 ∧ ¬ w0.uniTrue gOff ∧
    (∃ b w' u o fs, UniEffect (at0 0) b w' (uniCtx 0 e0) (.unbind gOff 2 1) gOff o u fs ∧ o.lu = []) ∧
    ∃ b w' u o fs, UniEffect (at0 0) b w' (uniCtx 0 e0) (.v2s gOff 0 false 6 (vlu 9) 0) gOff o u fs ∧ o.lu ≠ [] :=
  ⟨calm0 0, (fun h => by cases h), ⟨at0 0, w0, _, _, _, .unbind gOff 2 1, rfl⟩, at0 0, wV9, _, v2sOpnds (at0 0) 0 false 6 (vlu 9) 0, _,
    .v2s gOff 0 false 6 (vlu 9) 0 5 (by decide) (fun h => by cases h), by decide +kernel⟩
theorem test_witness_FalseUniformGuard_firmware : ∃ b w' u o, FirmwareEffect b w' (uniCtx 0 e0) (.csrr gOff 5 6) gOff o u ∧
    Calm (at0 (wU 0x3C0 5 0 0 6 0)) 0 w0 e0 ∧ inFirmware (at0 (wU 0x3C0 5 0 0 6 0)) 0 = true := ⟨at0 0, w0, _, _, .csrr gOff 5 6, calm0 _, by decide +kernel⟩
theorem test_witness_FirmwareEffects : ∃ b w' u, b = (((at0 (wU 0x3C0 5 0 0 6 0)).counted w0 { sw := [5] } e0.mask).engaged 0 { sw := [5] }).begun 0 e0 ∧ b.warp? 0 = some w' ∧
    inFirmware (at0 (wU 0x3C0 5 0 0 6 0)) 0 = true ∧ Calm (at0 (wU 0x3C0 5 0 0 6 0)) 0 w0 e0 ∧ w0.uniTrue g7 ∧ FirmwareEffect b w' (uniCtx 0 e0) (.csrr g7 5 6) g7 { sw := [5] } u ∧
    homeOpen (at0 (wU 0x3C0 5 0 0 6 0)) 0 { sw := [5] } = true ∧ Room (at0 (wU 0x3C0 5 0 0 6 0)) 0 w0 { sw := [5] } :=
  ⟨_, _, _, rfl, rfl, by decide +kernel, calm0 _, rfl, .csrr g7 5 6, rfl, .inl rfl⟩
theorem test_witness_FirmwareRefused : Calm (at0 0) 0 w0 e0 ∧ inFirmware (at0 0) 0 = false ∧ (encode (.halt g7)).isSome = true := ⟨calm0 0, by decide +kernel, by decide +kernel⟩
theorem test_witness_UniformMoves : Calm (at0 0) 0 w0 e0 ∧ w0.uniTrue g7 ∧ Room (at0 0) 0 w0 { sr := [1], vw := regsFrom 4 2 } := ⟨calm0 0, rfl, room_of rfl (by decide +kernel)⟩
theorem test_witness_UmovMoves : (encodeNat (.umov g7 63 0)).isSome = true ∧ (encodeNat (.umovQ g7 7 0)).isSome = true ∧ (encodeNat (.umovQ2s g7 0 7)).isSome = true ∧
    (encodeNat (.umovS2q g7 0 63)).isSome = true ∧ nbits (0x800E000000000004 : DWord).toNat 53 11 = 0x400 ∧ nbits (0x800E000000000004 : DWord).toNat 2 5 ≠ 0 := by decide +kernel
theorem test_witness_UselSelects : (encodeNat (.usel g7 7 1 2 3)).isSome = true ∧ (encodeNat (.uselUi g7 0 1 2 (2 ^ 20 - 1))).isSome = true ∧
    nbits (BitVec.ofNat 64 (wU 0x00B 0 0 0 0 8)).toNat 53 11 = 0x40B ∧ nbits (BitVec.ofNat 64 (wU 0x00B 0 0 0 0 8)).toNat 3 4 ≠ 0 := by decide +kernel
theorem test_witness_SequencerResults : ∃ i t fs, SeqSpec (at0 0) 0 w0 e0 i t fs ∧ Calm (at0 0) 0 w0 e0 := ⟨_, _, _, .join g7 3 (by decide), calm0 0⟩
theorem test_witness_SequencerResults_none : ∃ t fs, SeqSpec (at0 0) 0 w0 e0 (.wdog gOff 7) t fs ∧ Calm (at0 0) 0 w0 e0 := ⟨_, _, .wdogNone gOff 7 (by decide), calm0 0⟩
theorem test_witness_LandMarks : ∃ word : DWord, codeWord (at0 0x00CE000000000000) 0 (nbits (0 : DWord).toNat 0 57) = some word ∧ nbits word.toNat 53 11 = 0x006 :=
  ⟨0x00CE000000000000, by decide +kernel, by decide⟩
theorem test_witness_LaneMasks : (laneCtx 0 w0 e0 g7).act ≠ 0 ∧ (laneCtx 0 w0 e0 { neg := true, n := 7 }).act = 0 ∧ (laneCtx 0 w0 e0 { neg := true, n := 7 }).pg = 0 ∧
    (∃ w', ((at0 0).endLanes 0 1).warp? 0 = some w') := ⟨by decide, by decide, by decide, _, rfl⟩
theorem test_witness_SoftwareTraps : Calm (at0f 4) 0 w0 e0 ∧ (at0f 4).flagOf 0 Launch.debug = true ∧ (at0 0).flagOf 0 Launch.debug = false := ⟨⟨rfl, by decide, by decide, rfl, rfl, rfl, rfl⟩, by decide, by decide⟩
theorem test_witness_TrapTaken : (withVec (at0 0)).warp? 0 = some w0 ∧ HasFate w0 [(1, .trap { cause := 4, detail := 0, addr := 0 })] 0 (.trap { cause := 4, detail := 0, addr := 0 }) ∧
    (w0.trapOf 0).inh = false ∧ ((withVec (at0 0)).core (coreOf 0)).vec ≠ 0 :=
  ⟨rfl, ⟨by decide, ⟨1, by decide, by decide⟩, by decide, by decide⟩, rfl, by decide⟩
theorem test_witness_TrapEndsLane : ((at0w wInh).warp? 0 = some wInh ∧ HasFate wInh [(1, .trap { cause := 4, detail := 0, addr := 0 })] 0 (.trap { cause := 4, detail := 0, addr := 0 }) ∧
    (∀ f ∈ ([(1, .trap { cause := 4, detail := 0, addr := 0 })] : Fates), f.1 &&& ~~~ wInh.live = 0) ∧ (wInh.trapOf 0).inh = true) ∧ ((at0 0).core (coreOf 0)).vec = 0 ∧ ((withVec (at0w wInh)).stepped 0 e0 [(1, .trap { cause := 4, detail := 0, addr := 0 })]).warp? 0 ≠ none :=
  ⟨⟨rfl, ⟨by decide, ⟨1, by decide, by decide⟩, by decide, by decide⟩, by decide, rfl⟩, by decide, by decide +kernel⟩
theorem test_witness_EndedLanes : HasFate w0 [(1, .ended)] 0 .ended ∧ ((at0 0).stepped 0 e0 [(1, .ended)]).warp? 0 ≠ none :=
  ⟨⟨by decide, ⟨1, by decide, by decide⟩, by decide, by decide⟩, by decide +kernel⟩
theorem test_witness_TretReturns : Calm (at0w wInh) 0 wInh e0 ∧ (laneCtx 0 wInh e0 g7).act.getLsbD 0 = true ∧ (wInh.trapOf 0).inh = true ∧ (wInh.trapOf 1).inh = false ∧
    (laneCtx 0 wInh e0 g7).act.getLsbD 31 = true ∧ ((withVec (at0w wInh)).core (coreOf 0)).vec ≠ 0 :=
  ⟨⟨rfl, by decide, by decide, rfl, rfl, rfl, rfl⟩, by decide, rfl, rfl, by decide, by decide⟩
theorem frontier_w0 : FrontierOk 1 w0 := by
  refine ⟨by decide +kernel, by decide +kernel, by decide +kernel, fun l hl => ⟨e0, by decide, hl⟩, by decide +kernel, by decide +kernel⟩
theorem test_witness_FrontierKept : (at0 0).warp? 0 = some w0 ∧ FrontierOk (at0 0).nextId w0 ∧ (∃ x ∈ w0.entries, x.eid = e0.eid ∧ x.mask = e0.mask) ∧
    FatesOf e0 [(1, .ended), (2, .trap { cause := 4, detail := 0, addr := 0 })] ∧
    (∀ x ∈ [(3, ({ cause := 4, detail := 0, addr := 0 } : TrapInfo))], x.1 < 32 ∧ w0.live.getLsbD x.1 = true) ∧
    ((at0 0).stepped 0 e0 [(1, .ended), (2, .trap { cause := 4, detail := 0, addr := 0 })]).warp? 0 ≠ none ∧ ((at0 0).endLanes 0 1).warp? 0 ≠ none ∧
    ((at0 0).releaseLanes 0 0 1 8).warp? 0 ≠ none :=
  ⟨rfl, frontier_w0, ⟨e0, by decide, rfl, rfl⟩, ⟨by decide, by decide⟩, by decide, by decide +kernel, by decide +kernel, by decide +kernel⟩
theorem test_witness_FrontierSteps : Calm (at0 0) 0 w0 e0 ∧ FrontierOk (at0 0).nextId w0 ∧ (∃ i x, UniSpec i x) ∧ ∃ i u fs, SeqSpec (at0 0) 0 w0 e0 i u fs :=
  ⟨calm0 0, frontier_w0, ⟨_, _, .umovi g7 1 5⟩, _, _, _, .join g7 3 (by decide)⟩
theorem test_witness_Merging : ∃ x ∈ w0.entries, x.mergeable = true := ⟨e0, by decide, rfl⟩
theorem test_witness_EntryChosen : w0.pick 0 = some e0 ∧ Warp.pick { w0 with entries := [{ e0 with st := .trap }] } 0 = none := by decide
theorem test_witness_WaitmReleases :
    (let w := { w0 with entries := [{ e0 with st := .parked (.waitm 11) }], m := [(11, 3)] }; w.mget 11 &&& ~~~ w.waitmLanes 11 = 0) ∧
    (let w := { w0 with entries := [{ e0 with mask := 1, st := .parked (.waitm 0) }], m := [(0, 3)] }; w.mget 0 &&& ~~~ w.waitmLanes 0 ≠ 0) := by decide
theorem test_witness_MemoryLaws : Memory.wf [] = true ∧ Memory.wf [(7, 1), (9, 2)] = true := by decide
theorem test_witness_WarpStart : freeSlot State.reset (16 * 215 + (5 + 3) % 16) < 16 := by decide
theorem test_witness_Invariants : (at0 0).memWf = true ∧ readyOrder (at0 0) ∧ ∃ t, step (at0 0) = .next t :=
  ⟨by decide +kernel, fun h => absurd h (by decide), _, rfl⟩

/-- One lane with a pointer to its scratchpad, at its last word, in v0 and v1, and data in v2. -/
def wSt : Warp := { w0 with live := 1, entries := [{ e0 with mask := 1 }], mapped := 7, v := [(0, { bits := 0x0003FFFC, poison := false }), (32, { bits := 0x80000000, poison := false }), (64, { bits := 0x01020304, poison := false })] }
theorem test_store_registers : wSt.vgetN 0 2 0 = (0x800000000003FFFC, false) ∧ wSt.vget 2 0 = { bits := 0x01020304, poison := false } := by decide
theorem test_witness_ScratchpadStore : Calm (at0w wSt) 0 wSt { e0 with mask := 1 } ∧ (mf 0).ord = .plain ∧ (at0w wSt).flagOf 0 Launch.det = false ∧
    (laneCtx 0 wSt { e0 with mask := 1 } g7).pg = 0 ∧ (laneCtx 0 wSt { e0 with mask := 1 } g7).act = 1 ∧ relMet (at0w wSt) 0 1 1 = true ∧
    readyParts ((at0w wSt).core (coreOf 0)) = [] ∧
    ∀ l ∈ lanesOf (1 : LaneMask), ∀ b w', b = ((at0w wSt).counted wSt { (baseRegs 0 false) with vr := (baseRegs 0 false).vr ++ regsFrom 2 (sizeRegs 4) } 1).begun 0 { e0 with mask := 1 } →
      b.warp? 0 = some w' → StoresAt b (laneCtx 0 wSt { e0 with mask := 1 } g7) (mf 0) 2 w' 0 l 0x3FFFC := by
  refine ⟨⟨rfl, by decide, by decide, rfl, rfl, rfl, rfl⟩, rfl, by decide, by decide, by decide, by decide +kernel, by decide +kernel, ?_⟩
  intro l hl b w' hb hw
  have h0 : l = 0 := by revert hl; decide +revert
  subst h0 hb
  obtain rfl : wSt.modEntry 0 (fun x => { x with st := .issuing }) = w' := Option.some.inj (Eq.trans (by rfl) hw)
  exact ⟨false, by decide +kernel⟩
theorem test_witness_ScratchpadLoad : Calm (at0w wSt) 0 wSt { e0 with mask := 1 } ∧ (laneCtx 0 wSt { e0 with mask := 1 } g7).act = 1 ∧
    Room (at0w wSt) 0 wSt { (baseRegs 0 false) with vw := regsFrom 4 1, async := true } ∧ ((at0w wSt).block? 0).isSome = true ∧
    ∀ l ∈ lanesOf (1 : LaneMask), ∀ b w', b = ((at0w wSt).counted wSt { (baseRegs 0 false) with vw := regsFrom 4 1 } 1).begun 0 { e0 with mask := 1 } →
      b.warp? 0 = some w' → LoadsAt b (laneCtx 0 wSt { e0 with mask := 1 } g7) (mf 0) w' 0 l 0x3FFFC := by
  refine ⟨⟨rfl, by decide, by decide, rfl, rfl, rfl, rfl⟩, by decide, room_of rfl (by decide +kernel), by decide +kernel, ?_⟩
  intro l hl b w' hb hw
  have h0 : l = 0 := by revert hl; decide +revert
  subst h0 hb
  obtain rfl : wSt.modEntry 0 (fun x => { x with st := .issuing }) = w' := Option.some.inj (Eq.trans (by rfl) hw)
  exact ⟨false, by decide +kernel⟩

/-- Two bytes of word 160, the first of line 5, for lane 4. -/
def qDev : OpPart := { sec := 20, words := 1, accs := [{ lane := 4, off := 2, size := 2, vaddr := 0x282, x := 0xABCD, y := 0 }], st := .sent 77 }
def oDev (k : OpKind) : LsuOp :=
  { id := 50, launch := 0, warp := 768, lanes := 16, kind := k, space := .device, pol := .wis, cls := .dflt, ord := .plain, scope := .thread, checked := false
    det := false, parts := [qDev], result := some 60 }
def rDev (k : ReqKind) : Req := { id := 77, agent := 3, kind := k, line := 5, words := 1, op := 50 }
/-- Core 3 with that operation, line 5 in the L2, and what agents own of it. -/
def sDev (k : OpKind) (own : List OwnRec) (l1 : Tbl L1Line) : State :=
  { State.reset with
    l2 := [(5, { valid := 15, dirty := 0, data := [], poison := 0, cls := .dflt, count := 0, pinner := 0, lru := 0 })]
    dir := [(5, { owners := own })]
    cores := [(3, { ops := [oDev k], l1 := l1 })]
    warps := [(768, { w0 with core := 3, results := [{ id := 60, dests := [.v 2], lanes := [(4, { left := 0 })] }] })] }
/-- Core 3 owns the word, in its L1. -/
def own3 : List OwnRec := [{ agent := 3, answered := true, wmask := 1 }]
def l1Own : Tbl L1Line := [(5, { words := [(0, { st := .owned, dirty := true, val := 7, poison := false })] })]
theorem inside_dev : qDev.inside := by unfold OpPart.inside; decide +kernel
theorem atHome_dev (k : OpKind) (j : ReqKind) (own : List OwnRec) (l1 : Tbl L1Line) : AtHome (sDev k own l1) (rDev j) (oDev k) qDev where
  target := rfl
  line := rfl
  words := by show ∀ i, i < 32 → (1 : BitVec 32).getLsbD i = true → i / 8 = 20 % 4; decide
  accs := inside_dev
  valid := rfl
  named n b hb := by
    have h : ((sDev k own l1).core n).wbuf = [] := by
      show (tgetD [(3, _)] n ({} : Core)).wbuf = []
      unfold tgetD tget tget
      split <;> rfl
    rw [h] at hb
    cases hb
theorem atOwner_dev (k : OpKind) : AtOwner (sDev k own3 l1Own) 3 (oDev k) qDev :=
  ⟨by decide, inside_dev, fun a ha w hw => by
    obtain rfl : a = _ := List.mem_singleton.mp ha
    obtain rfl : w = 160 := List.mem_singleton.mp hw
    rfl, .inl rfl⟩
theorem test_witness_DeviceWrites : (AtHome (sDev .store own3 []) (rDev .wrT) (oDev .store) qDev ∧ (sDev .store own3 []).ownedBy 20 [3]) ∧
    (AtHome (sDev .atomic [] []) (rDev .at) (oDev .atomic) qDev ∧ (sDev .atomic [] []).ownedBy 20 []) ∧
    AtOwner (sDev .store own3 l1Own) 3 (oDev .store) qDev ∧ AtOwner (sDev .red own3 l1Own) 3 (oDev .red) qDev :=
  ⟨⟨atHome_dev _ _ _ _, by unfold State.ownedBy; decide +kernel⟩, ⟨atHome_dev _ _ _ _, by unfold State.ownedBy; decide +kernel⟩, atOwner_dev _, atOwner_dev _⟩
theorem test_witness_DeviceReads : (∃ w r, Awaits (sDev .load own3 l1Own) (oDev .load) qDev 60 w r) ∧ (oDev .load).checked = false ∧
    AtHome (sDev .load [] []) (rDev .rdS) (oDev .load) qDev ∧
    ∃ z : Reply, z.own = 0 ∧ z.raced = 0 ∧ (∀ a ∈ qDev.accs, ∀ x ∈ accWords qDev.sec a, x ∈ qDev.wordList) ∧
      ∀ x ∈ qDev.wordList, (tget z.data (x % 32)).isSome = true :=
  ⟨⟨_, _, rfl, rfl, rfl, rfl, by decide, rfl, by decide, inside_dev⟩, rfl, atHome_dev _ _ _ _,
    { id := 90, agent := 3, req := 77, op := 50, line := 5, words := 1, data := [(0, 9)] }, rfl, rfl, by decide +kernel, by decide +kernel⟩
theorem test_witness_DeterministicAtomics : Calm (at0f 1) 0 w0 e0 ∧ (at0f 1).flagOf 0 Launch.det = true ∧ (laneCtx 0 w0 e0 g7).act ≠ 0 ∧
    relMet (at0f 1) 0 (relLevel .plain .thread) e0.mask = true ∧
    Room (at0f 1) 0 w0 { (atomOpnds (af .add 10 2)) with vw := regsFrom 6 1, pw := [], async := true } :=
  ⟨⟨rfl, by decide, by decide, rfl, rfl, rfl, rfl⟩, by decide, by decide, by decide +kernel, room_of rfl (by decide +kernel)⟩

/-- The machine with CXL.mem ready, and with a copy command queued on a guard slot that has resolved false. -/
def sReady : State := { State.reset with ready := 7 }
def sCmd : State := State.reset.modCore 0 fun c => { c with cmds := [{ id := 4, block := 0, warp := 0, kind := .tzero 3, guard := some 2, refused := true }], guards := [(2, 2)] }
theorem test_witness_DispatchEvents : ∃ t, DispatchEvent sReady (.sealWrite 255 1) t := ⟨_, .sealWrite 255 1 (by decide)⟩
theorem test_witness_SequencerEvents : ∃ t, SequencerEvent (at0 0) (.watchdog 0) t ∨ SequencerEvent (at0 0) (.heldClear 0) t := ⟨_, .inr (.heldClear 0)⟩
theorem test_witness_CommandEvents : ∃ t, CommandEvent sCmd (.guardDiscard 0 4) t :=
  ⟨_, .guardDiscard 0 4 { id := 4, block := 0, warp := 0, kind := .tzero 3, guard := some 2, refused := true } rfl rfl rfl⟩
/-- The same with line 5 in the L2. -/
def sServed : State := { sReady with l2 := [(5, { valid := 15, dirty := 0, data := [], poison := 0, cls := .dflt, count := 0, pinner := 0, lru := 0 })] }
theorem test_witness_CoherenceEvents : (∃ t, CoherenceEvent sServed (.hostMemrd .shared 5) t) ∧ ∃ t, CoherenceEvent sReady (.hostMemrd .own 5) t :=
  ⟨⟨_, .hostReads .shared 5 _ (by decide) ⟨rfl, rfl, by decide, by decide +kernel⟩⟩, _, .hostReadWaits .own 5 _ (by decide) rfl rfl (by decide) (by decide +kernel)⟩
theorem test_witness_ReleaseEvents : ∃ t, ReleaseEvent (at0w { w0 with entries := [{ e0 with st := .parked (.sleep 0) }] }) (.sleepWake 0 0) t :=
  ⟨_, .sleepWake 0 0 _ 0 ⟨rfl, rfl⟩ (by decide)⟩
theorem test_witness_SystemEvents : ∃ t, SystemEvent { State.reset with ready := 3 } (.readySet 2) t := ⟨_, .readySet 2 (by decide) (fun _ => by decide) (by decide) (by decide)⟩

/-! ## Values from the manual's examples and tables -/

/-- The example of R73: F8ADD.E4M3X4 of 0x01FF7A3C and 0x01387828. -/
theorem test_f8add : f8Val { f8 with t := .e4m3x4 } (fun fmt m s x y _ => fpAdd fmt m s false x y) 0x01FF7A3C 0x01387828 0 = (0x02FF7F3E, 0x00020200) := by decide +kernel
/-- The same with SATF. -/
theorem test_f8add_satf : (f8Val { f8 with t := .e4m3x4, satf := true } (fun fmt m s x y _ => fpAdd fmt m s false x y) 0x01FF7A3C 0x01387828 0).1 = 0x02FF7E3E := by decide +kernel
/-- The example of R70: −0.3 to N32 under RN is 0 and inexact, under RD 0 and invalid. -/
theorem test_cvti_negative : cvtiVal (cv .n32 .f32) 0xBE99999A = (0, { nx := true }) ∧ cvtiVal { cv .n32 .f32 with rm := .rd } 0xBE99999A = (0, { nv := true }) := by decide +kernel
/-- The example of R81: 2^24 and thirty-one ones, summed exactly and rounded once, are 0x4B800010. -/
theorem test_chunk_sum : chunkRound (chunkSum (some (.fin false (2 ^ 24)) :: List.replicate 31 (some (.fin false 1)))) 0x3F800000 0x3F800000 = 0x4B800010 := by decide +kernel
/-- The example of R243: INCW with x = 3 and y = 1 from 2, 3, 0, 1. -/
theorem test_incw : [2, 3, 0, 1].map (fun o => (atomNew .incw 4 o 3 1).1) = [3, 0, 1, 2] := by decide +kernel
/-- The example of R219: which tile shapes are legal. -/
theorem test_tile_shapes : tcLegal 3 0x01008003 = true ∧ tcLegal 14 0x14010024 = true ∧ tcLegal 15 0x14010024 = false ∧ tcLegal 14 0x04010024 = false := by decide +kernel
/-- R62: FMIN of −0 and +0 is −0. -/
theorem test_fmin_zero : (fpMinMax .fp32 false false 0x80000000 0).1 = 0x80000000 := by decide +kernel
/-- R9: the slice of a line is the XOR of four fields of 7 bits and one of 3. -/
theorem test_slice : sliceOf ((2 ^ 7 + 2 ^ 15 + 2 ^ 23 + 2 ^ 31 + 2 ^ 36) / 128) = (1 ^^^ 2 ^^^ 4 ^^^ 8 ^^^ 2) := by decide +kernel

/-! ## Single steps from the machine at PC 0 -/

/-- What a test looks at in warp 0 after the step. -/
def after {α : Type} (s : State) (f : State → Warp → α) : Option α :=
  match step s with
  | .next t => (t.warp? 0).map (f t)
  | _ => none
/-- The PCs and masks of the frontier. -/
def frontier (w : Warp) : List (Nat × Nat) := w.entries.map fun e => (e.pc.toNat, e.mask.toNat)
def all32 : Nat := 2 ^ 32 - 1

/-- R34: MOVI writes its immediate in every lane. -/
theorem test_step_movi : after (at0 (0x059 * 2 ^ 53 + 7 * 2 ^ 49 + 1 * 2 ^ 37 + 0xDEADBEEF * 2 ^ 5)) (fun _ w => (w.vget 1 0, w.vget 1 31, frontier w)) =
    some ({ bits := 0xDEADBEEF, poison := false }, { bits := 0xDEADBEEF, poison := false }, [(8, all32)]) := by decide +kernel
/-- R30: guarded by an inverted p7 no lane executes. -/
theorem test_step_guard_off : after (at0 (0x059 * 2 ^ 53 + 15 * 2 ^ 49 + 1 * 2 ^ 37)) (fun _ w => (w.isMapped 1, frontier w)) = some (false, [(8, all32)]) := by decide +kernel
/-- R145: BRA goes to the branch + 8 + 8 × OFFSET with the PRIO of the branch. -/
theorem test_step_bra : after (at0 (wVB 0x001 0 9 5 0 0)) (fun _ w => w.entries.map fun e => (e.pc.toNat, e.prio)) = some [(48, 9)] := by decide +kernel
/-- R143: YIELD holds its entry back. -/
theorem test_step_yield : after (at0 (wV 0x00F 0 0 0 0 0)) (fun _ w => (w.entries.map Entry.held, frontier w)) = some ([true], [(8, all32)]) := by decide +kernel
/-- R151: JOIN. -/
theorem test_step_join : after (at0 (wV 0x007 3 0 0 0 0)) (fun _ w => (w.mget 3).toNat) = some all32 := by decide +kernel
/-- R162, R154: TRAP goes to the handler with the cause, the PC and n. -/
theorem test_step_trap : after (withVec (at0 (wVI 0x00B 0 0 0x123 0))) (fun _ w => (w.trapOf 5, frontier w)) =
    some ({ inh := true, tprio := 32, detail := 0, cause := 4, tpc := 0, taddr := 0x123 }, [(0x2000, all32)]) := by decide +kernel
/-- R160: TRET.NEXT returns to TPC + 8 with TPRIO. -/
theorem test_step_tret : after (at0w { wInh with live := 1, entries := [{ e0 with mask := 1 }] }) (fun _ _ => ()) = some () ∧
    (match exec (.tretNext g7) (at0w { wInh with live := 1, entries := [{ e0 with mask := 1 }] }) with
      | .next t => (t.warp? 0).map fun w => (w.entries.map fun e => (e.pc.toNat, e.prio), (w.trapOf 0).inh)
      | _ => none) = some ([(72, 7)], false) := by decide +kernel
/-- R42: a system instruction outside firmware context traps with the word in TADDR. -/
theorem test_step_foreign : after { withVec (at0 (wU 0x3C2 0 0 0 0 0)) with blocks := tmod (at0 (wU 0x3C2 0 0 0 0 0)).blocks 0 fun b => { b with firmware := false } }
    (fun _ w => ((w.trapOf 0).cause, (w.trapOf 0).taddr.toNat)) = some (1, wU 0x3C2 0 0 0 0 0) := by decide +kernel
/-- R38: UMOVI.HI keeps the low word. -/
theorem test_step_umovi_hi : (match exec (.umoviHi g7 7 1) ((at0 0).modWarp 0 fun w => w.sput 7 0x12345678) with
    | .next t => (t.warp? 0).map fun w => w.sget 7
    | _ => none) = some 0x112345678 := by decide +kernel
/-- R236: a store of 4 B to the last word of the block's scratchpad. -/
theorem test_step_store : (match exec (.st (mf 0) 2 false) (at0w wSt) with
    | .next t => (t.block? 0).map fun b => ((mget b.spad 0x3FFFC).toNat, (mget b.spad 0x3FFFF).toNat)
    | _ => none) = some (4, 1) := by decide +kernel
/-- R437: the CSRs read as written in their fields. -/
theorem test_csr_write : csrRead (csrWrite State.reset 3 0x010 0xFFFFFFFFFFFFFFFF) 3 0x010 = 0x01FFFFFFFFFFFFF8 := by decide +kernel

end Sys2Proof.Tests
end

namespace Sys2Proof.Machine

/-! ## A memory is determined by its bytes (R2) -/

section
variable {α : Type}

/-- Below a table's first key, and at no later key, is there an entry. -/
theorem tget_of_tabove {k : Nat} : ∀ {t : Tbl α}, tsorted t = true → tabove k t = true → tget t k = none
  | [], _, _ => rfl
  | (j, _) :: r, hs, hk => by
    rw [tsorted_cons, Bool.and_eq_true] at hs
    have hj : k < j := by simpa [tabove] using hk
    rw [tget, if_neg hj.ne']
    exact tget_of_tabove hs.2 (tabove_of_sorted hj hs.1)

/-- Sorted tables with the same entries are the same list: their first keys agree, since neither has an entry below the other's. -/
theorem tsorted_ext : ∀ {m n : Tbl α}, tsorted m = true → tsorted n = true → (∀ k, tget n k = tget m k) → n = m
  | [], [], _, _, _ => rfl
  | [], (i, y) :: _, _, _, h => by simpa [tget] using h i
  | (j, x) :: _, [], _, _, h => by simpa [tget] using h j
  | (j, x) :: r, (i, y) :: q, hm, hn, h => by
    have hj : tget ((j, x) :: r) j = some x := by simp [tget]
    have hi : tget ((i, y) :: q) i = some y := by simp [tget]
    obtain hij | rfl | hji := lt_trichotomy i j
    · have : tget ((j, x) :: r) i = none := tget_of_tabove hm (by simpa [tabove] using hij)
      simp [← h i, hi] at this
    · rw [tsorted_cons, Bool.and_eq_true] at hm hn
      have hxy : y = x := by simpa [hi, hj] using h i
      have hqr : q = r := tsorted_ext hm.2 hn.2 fun k => by
        by_cases hk : k = i
        · rw [hk, tget_of_tabove hm.2 hm.1, tget_of_tabove hn.2 hn.1]
        · simpa [tget, Ne.symm hk] using h k
      rw [hxy, hqr]
    · have : tget ((i, y) :: q) j = none := tget_of_tabove hn (by simpa [tabove] using hji)
      simp [h j, hj] at this
end

/-- In canonical form an address is listed exactly where its byte is not 0x00. -/
theorem Memory.tget_eq {m : Tbl Byte} (h : Memory.wf m = true) (a : Nat) : tget m a = if mget m a = 0 then none else some (mget m a) := by
  have hne : ∀ {t : Tbl Byte} {b : Byte}, (t.all fun e => e.2 != 0) = true → tget t a = some b → b ≠ 0 := by
    intro t b ht hb
    induction t with
    | nil => cases hb
    | cons e r ih =>
      rw [List.all_cons, Bool.and_eq_true] at ht
      rw [tget] at hb
      split at hb
      · obtain rfl := Option.some.inj hb; simpa using ht.1
      · exact ih ht.2 hb
  rw [Memory.wf, Bool.and_eq_true] at h
  unfold mget tgetD
  cases hb : tget m a with
  | none => rfl
  | some b => exact (if_neg (hne h.2 hb)).symm

/-- Memories in canonical form with the same bytes are equal. -/
theorem Memory.wf_ext {m n : Tbl Byte} (hm : Memory.wf m = true) (hn : Memory.wf n = true) (h : ∀ a, mget n a = mget m a) : n = m := by
  refine tsorted_ext (Bool.and_eq_true _ _ ▸ hm).1 (Bool.and_eq_true _ _ ▸ hn).1 fun a => ?_
  rw [Memory.tget_eq hm, Memory.tget_eq hn, h]

/-- Settles O18, from the laws of `mputBytes` and the extensionality of the canonical form. -/
theorem memoryLaws : Obligations.MemoryLaws := fun m a l hm =>
  ⟨mputBytes_wf l m a hm, mget_mputBytes_inside l m a, mget_mputBytes_outside l m a, fun _ hn h => Memory.wf_ext hm hn h⟩

/-! ## CSRs (R436, R437) -/

/-- What is written to a CSR reads back in its RW bits; READY has none. -/
theorem csrRead_csrWrite_same (s : State) (core n : Nat) (v : DWord) :
    csrRead (csrWrite s core n v) core n = if n = 0 then csrRead s core n else v &&& BitVec.ofNat 64 (csrMask n) := by
  unfold csrWrite
  split
  case h_14 => simp [csrRead, csrMask, csrBits, State.modCore, State.setCore, State.core]
  case h_15 h0 _ _ _ _ _ _ _ _ _ _ _ _ _ =>
    simp only [csrRead, csrMask, csrBits, if_neg h0, tgetD_tput_same]
    simp
  all_goals simp [csrRead, csrMask, csrBits]

/-- The CSRs are those up to 0x00C, TRAP_VEC, and the address-space ids of slots from 0x100 up. -/
theorem csrNumber_cases {n : Nat} (h : csrNumber n = true) : n ≤ 0x00C ∨ n = 0x010 ∨ 0x100 ≤ n := by
  simp only [csrNumber, Bool.or_eq_true, Bool.and_eq_true, decide_eq_true_eq, beq_iff_eq] at h
  omega

/-- A write to a slot's CSR changes no CSR of another number. -/
theorem csrRead_slotAsid_other {n m : Nat} (hn : 0x100 ≤ n) (hm : csrNumber m = true) (h : m ≠ n) (s : State) (k x : Nat) :
    csrRead { s with slotAsid := tput s.slotAsid (n - 256) x 0 } k m = csrRead s k m := by
  unfold csrRead
  split
  case h_15 =>
    have hm' := csrNumber_cases hm
    simp only [imp_false] at *
    exact congrArg (BitVec.ofNat 64) (tgetD_tput_other s.slotAsid x 0 (by omega))
  all_goals rfl

/-- A write to a CSR changes no CSR of another number. -/
theorem csrRead_csrWrite_other {n m : Nat} (hn : csrNumber n = true) (hm : csrNumber m = true) (h : m ≠ n) (s : State) (core k : Nat) (v : DWord) :
    csrRead (csrWrite s core n v) k m = csrRead s k m := by
  unfold csrWrite
  split
  case h_15 =>
    have hn' := csrNumber_cases hn
    simp only [imp_false] at *
    exact csrRead_slotAsid_other (by omega) hm h s k _
  all_goals
    unfold csrRead
    split
    all_goals first | rfl | exact absurd rfl h

/-- A write to one core's TRAP_VEC leaves every other core's alone. -/
theorem csrRead_trapVec_other {core k : Nat} (h : k ≠ core) (s : State) (v : DWord) :
    csrRead (csrWrite s core 0x010 v) k 0x010 = csrRead s k 0x010 :=
  congrArg Core.trapVec (tgetD_tset_other s.cores _ _ h)

/-- A write to a CSR leaves the warps and device memory alone. -/
theorem csrWrite_frame (s : State) (core n : Nat) (v : DWord) : (csrWrite s core n v).warps = s.warps ∧ (csrWrite s core n v).dram = s.dram := by
  unfold csrWrite
  split
  all_goals exact ⟨rfl, rfl⟩

/-- Settles O24: the number read is that written, or another, or TRAP_VEC of another core. -/
theorem csrFields : Obligations.CsrFields := by
  intro s core n v hn
  refine ⟨csrRead_csrWrite_same s core n v, fun k m hm h => ?_, csrWrite_frame s core n v⟩
  by_cases hmn : m = n
  · obtain ⟨rfl, hk⟩ := h.resolve_left (absurd hmn)
    subst hmn
    exact csrRead_trapVec_other hk s v
  · exact csrRead_csrWrite_other hn hm hmn s core k v

/-! ## Reset -/

/-- Settles O52: device and host memory are empty, and no block is resident. -/
theorem resetMemory : Obligations.ResetMemory := rfl

end Sys2Proof.Machine

namespace Sys2Proof.Machine

/- The default arguments of `Kept.frame` are run where they are used: a proof that is checked beside the others would wait, in a thread of its own,
for everything before it. -/
set_option Elab.async false

/-! ## What every step keeps

A memory is written by few operations of the model (a word out of the L2 or an L1, a write at a home, a scratchpad's and the host's writes, the dump),
and every step is made of such operations and of changes beside the memories. `Kept s₀ s` says that a part of the model that has led from s₀ to s has
kept them; each function of the model that gives a state has one rule `Kept.f`, proved from the rules of the functions that it calls. -/

/-- The scratchpads of a table of blocks are in canonical form. -/
def spadsWf (bs : Tbl Block) : Bool := bs.all fun b => Memory.wf b.2.spad

theorem spadsWf_tset {bs : Tbl Block} {k : Nat} {b : Block} (h : spadsWf bs = true) (hb : Memory.wf b.spad = true) :
    spadsWf (tset bs k b) = true :=
  all_tset bs _ k b h hb

theorem spadsWf_filter {bs : Tbl Block} {p : Nat × Block → Bool} (h : spadsWf bs = true) : spadsWf (bs.filter p) = true := all_filter bs _ p h

theorem spadsWf_map {bs : Tbl Block} {f : Nat × Block → Nat × Block} (h : spadsWf bs = true) (hf : ∀ e, (f e).2.spad = e.2.spad) :
    spadsWf (bs.map f) = true := by
  simp only [spadsWf, List.all_map, List.all_eq_true, Function.comp_apply, hf] at h ⊢
  exact h

theorem spadsWf_tmod {k : Nat} {f : Block → Block} (hf : ∀ b, Memory.wf b.spad = true → Memory.wf (f b).spad = true) :
    ∀ {bs : Tbl Block}, spadsWf bs = true → spadsWf (tmod bs k f) = true
  | [], _ => rfl
  | (j, b) :: r, h => by
    unfold spadsWf at h
    rw [List.all_cons, Bool.and_eq_true] at h
    rw [tmod]
    split
    · exact Bool.and_eq_true _ _ ▸ ⟨hf b h.1, h.2⟩
    · exact Bool.and_eq_true _ _ ▸ ⟨h.1, spadsWf_tmod hf h.2⟩

/-- The scratchpad of a block in a table. -/
theorem spadsWf_tget {bs : Tbl Block} {k : Nat} {b : Block} (h : spadsWf bs = true) (hb : tget bs k = some b) : Memory.wf b.spad = true := by
  induction bs with
  | nil => cases hb
  | cons e r ih =>
    rw [spadsWf, List.all_cons, Bool.and_eq_true] at h
    rw [tget] at hb
    split at hb
    · exact Option.some.inj hb ▸ h.1
    · exact ih h.2 hb

/-- From s₀ to s the canonical form of the memories (R2) and the order of READY (R434) have been kept. -/
structure Kept (s₀ s : State) : Prop where
  mem   : s₀.memWf = true → s.memWf = true
  order : readyOrder s₀ → readyOrder s

/-- The same of the next state of a step, if there is one. -/
def KeptNext (s₀ : State) : Host.Outcome State Fault Refusal → Prop
  | .next s => Kept s₀ s
  | _ => True

/-- The same of a state that an error may stand for. -/
def KeptOk {ε : Type} (s₀ : State) : Except ε State → Prop
  | .ok s => Kept s₀ s
  | _ => True

namespace Kept

variable {s₀ s t : State}

theorem refl (a : State) : Kept a a := ⟨id, id⟩

/-- A change of state that keeps each memory in canonical form and the order of READY. -/
theorem updateReady (h : Kept s₀ s) (hd : Memory.wf s.dram = true → Memory.wf t.dram = true)
    (hh : Memory.wf s.hostMem = true → Memory.wf t.hostMem = true) (hb : spadsWf s.blocks = true → spadsWf t.blocks = true)
    (ho : readyOrder s → readyOrder t) : Kept s₀ t where
  mem ha := by
    have hs := h.mem ha
    simp only [State.memWf, Bool.and_eq_true] at hs ⊢
    exact ⟨⟨hd hs.1.1, hh hs.1.2⟩, hb hs.2⟩
  order ha := ho (h.order ha)

/-- A change of state that keeps each memory in canonical form and READY as it is. -/
theorem update (h : Kept s₀ s) (hd : Memory.wf s.dram = true → Memory.wf t.dram = true)
    (hh : Memory.wf s.hostMem = true → Memory.wf t.hostMem = true) (hb : spadsWf s.blocks = true → spadsWf t.blocks = true)
    (hr : t.ready = s.ready := by rfl) : Kept s₀ t :=
  h.updateReady hd hh hb fun ho => by
    unfold readyOrder at ho ⊢
    rwa [hr]

/-- A change of state beside the memories and READY. -/
theorem frame (h : Kept s₀ s) (hd : t.dram = s.dram := by rfl) (hh : t.hostMem = s.hostMem := by rfl) (hb : t.blocks = s.blocks := by rfl)
    (hr : t.ready = s.ready := by rfl) : Kept s₀ t :=
  h.update (hd ▸ id) (hh ▸ id) (hb ▸ id) hr

theorem ite {c : Prop} [Decidable c] {x y : State} (hx : Kept s₀ x) (hy : Kept s₀ y) : Kept s₀ (if c then x else y) := by
  split
  · exact hx
  · exact hy

theorem foldl {β : Type} {f : State → β → State} {l : List β} (h : Kept s₀ s) (hf : ∀ {s x}, Kept s₀ s → Kept s₀ (f s x)) :
    Kept s₀ (l.foldl f s) :=
  List.foldlRecOn l f h fun _ hs _ _ => hf hs

theorem forEach {β : Type} {f : State → β → State} {l : List β} (h : Kept s₀ s) (hf : ∀ {s x}, Kept s₀ s → Kept s₀ (f s x)) :
    Kept s₀ (forEach l s f) :=
  h.foldl hf

/-- A fold whose accumulator carries the state first. -/
theorem foldlFst {β γ : Type} {f : State × γ → β → State × γ} {l : List β} {z : State × γ} (h : Kept s₀ z.1)
    (hf : ∀ {z x}, Kept s₀ z.1 → Kept s₀ (f z x).1) : Kept s₀ (l.foldl f z).1 :=
  List.foldlRecOn l f (motive := fun z => Kept s₀ z.1) h fun _ hz _ _ => hf hz

theorem pair {γ : Type} {y : γ} (h : Kept s₀ s) : Kept s₀ (s, y).1 := h

theorem of_fst {γ : Type} {p : State × γ} {y : γ} (h : Kept s₀ p.1) (e : p = (t, y)) : Kept s₀ t := by subst e; exact h

theorem of_ok {ε : Type} {p : Except ε State} (h : KeptOk s₀ p) (e : p = .ok t) : Kept s₀ t := by subst e; exact h

end Kept

theorem KeptNext.ite {s₀ : State} {c : Prop} [Decidable c] {x y : Host.Outcome State Fault Refusal} (hx : KeptNext s₀ x) (hy : KeptNext s₀ y) :
    KeptNext s₀ (if c then x else y) := by
  split
  · exact hx
  · exact hy

/-! ## The parts of the state -/

namespace Kept

variable {s₀ s t : State}

theorem count {e : Ev} {n : Nat} (h : Kept s₀ s) : Kept s₀ (s.count e n) := .ite h h.frame

/-- A change of a block that keeps its scratchpad's canonical form. -/
theorem modBlockSpad {b : Nat} {f : Block → Block} (h : Kept s₀ s) (hf : ∀ x, Memory.wf x.spad = true → Memory.wf (f x).spad = true) :
    Kept s₀ (s.modBlock b f) :=
  h.update id id (spadsWf_tmod hf)

/-- A change of a block beside its scratchpad. -/
theorem modBlock {b : Nat} {f : Block → Block} (h : Kept s₀ s) (hf : ∀ x, (f x).spad = x.spad := by intros; rfl) : Kept s₀ (s.modBlock b f) :=
  h.modBlockSpad fun x hx => (hf x).symm ▸ hx

/-- A change of blocks beside their scratchpads. -/
theorem mapBlocks {f : Nat × Block → Nat × Block} (h : Kept s₀ s) (hf : ∀ e, (f e).2.spad = e.2.spad) :
    Kept s₀ { s with blocks := s.blocks.map f } :=
  h.update id id fun hb => spadsWf_map hb hf

/-! ### Accessors -/

theorem newId (h : Kept s₀ s) : Kept s₀ (State.newId s).1 := h.frame

theorem nextDraw (h : Kept s₀ s) : Kept s₀ (State.nextDraw s) := h.frame

theorem draw (h : Kept s₀ s) : Kept s₀ (State.draw s).1 := h.frame

theorem idle (h : Kept s₀ s) : Kept s₀ (State.idle s) := h.frame

theorem tell {n : Notice} (h : Kept s₀ s) : Kept s₀ (State.tell s n) := h.frame

theorem setCore {n : Nat} {c : Core} (h : Kept s₀ s) : Kept s₀ (State.setCore s n c) := h.frame

theorem modCore {n : Nat} {f : Core → Core} (h : Kept s₀ s) : Kept s₀ (State.modCore s n f) := h.setCore

theorem modPart {k : Nat} {f : Part → Part} (h : Kept s₀ s) : Kept s₀ (State.modPart s k f) := h.frame

theorem setWarp {g : Nat} {w : Warp} (h : Kept s₀ s) : Kept s₀ (State.setWarp s g w) := h.frame

theorem modWarp {g : Nat} {f : Warp → Warp} (h : Kept s₀ s) : Kept s₀ (State.modWarp s g f) := h.frame

theorem modLaunch {l : Nat} {f : Launch → Launch} (h : Kept s₀ s) : Kept s₀ (State.modLaunch s l f) := h.frame

theorem pass {dt : Nat} (h : Kept s₀ s) : Kept s₀ (State.pass s dt) := h.frame

/-! ### The frontier -/

theorem releaseLanes {g eid : Nat} {m : LaneMask} {pc : DWord} (h : Kept s₀ s) : Kept s₀ (State.releaseLanes s g eid m pc) := h.newId.modWarp

theorem fireWhere {line : MonLine} {sel : Nat → Bool} (h : Kept s₀ s) : Kept s₀ (State.fireWhere s line sel) := h.frame

theorem fireCore {core line : Nat} (h : Kept s₀ s) : Kept s₀ (State.fireCore s core line) := h.fireWhere

theorem fireScratch {block line : Nat} (h : Kept s₀ s) : Kept s₀ (State.fireScratch s block line) := h.fireWhere

/-! ### Memory -/

theorem setDir {line : Nat} {d : DirLine} (h : Kept s₀ s) : Kept s₀ (State.setDir s line d) := h.frame

theorem modDir {line : Nat} {f : DirLine → DirLine} (h : Kept s₀ s) : Kept s₀ (State.modDir s line f) := h.setDir

/-- What goes out of the L2 is written into device memory word by word. -/
theorem evictL2 {line : Nat} (h : Kept s₀ s) : Kept s₀ (evictL2 s line) := by
  unfold Machine.evictL2
  split
  · exact h
  · extract_lets bad t
    have ht : Kept s₀ t := h.forEach fun hs =>
      hs.update (fun hm => List.foldlRecOn (motive := fun m => Memory.wf m = true) _ _ hm fun m hm _ _ => mputNat_wf 4 m _ _ hm) id id
    exact ht.frame

theorem l2Room {line : Nat} (h : Kept s₀ s) : Kept s₀ (State.l2Room s line) := by
  unfold State.l2Room
  split
  · exact h.evictL2
  · exact h

theorem fillSector {w : Nat} (h : Kept s₀ s) : Kept s₀ (State.fillSector s w) := .ite h h.l2Room.frame

theorem touchLine {line : Nat} {cls : CacheClass} {launch : Nat} (h : Kept s₀ s) : Kept s₀ (touchLine s line cls launch) := by
  unfold Machine.touchLine
  split
  · exact h
  · extract_lets quota unpin set plain
    have hplain : Kept s₀ plain := by
      unfold plain
      split
      all_goals exact h.frame
    have hunpin : Kept s₀ (unpin s) := .ite h.frame h
    split
    case h_1 => exact hplain
    case h_3 => exact .ite h.frame hplain
    all_goals exact hunpin.frame

theorem wantSector {w : Nat} (h : Kept s₀ s) : Kept s₀ (State.wantSector s w) := .ite h (.ite h.frame (.ite h.frame h))

theorem accepted {line agent : Nat} (h : Kept s₀ s) : Kept s₀ (State.accepted s line agent) := h.frame

theorem send {f : Nat → Msg} (h : Kept s₀ s) : Kept s₀ (State.send s f) := h.frame

theorem unserve {line : Nat} (h : Kept s₀ s) : Kept s₀ (State.unserve s line) := h.frame

theorem homeAsk {agent : Nat} {kind : ReqKind} {whole ws : List Nat} (h : Kept s₀ s) : Kept s₀ (State.homeAsk s agent kind whole ws) :=
  h.forEach fun h1 => .ite h1 h1.send

theorem homeTaken {agent : Nat} {ws : List Nat} {cls : CacheClass} {launch : Nat} (h : Kept s₀ s) :
    Kept s₀ (State.homeTaken s agent ws cls launch) := (h.forEach (fun h1 => h1.accepted.touchLine)).frame

theorem sealSeen {line : Nat} (h : Kept s₀ s) : Kept s₀ (State.sealSeen s line) := .ite h.frame h

theorem homeMerge {w : Nat} {bs : List (Nat × Byte)} (h : Kept s₀ s) : Kept s₀ (State.homeMerge s w bs) := by
  unfold State.homeMerge
  extract_lets t line i
  have ht : Kept s₀ t := h.fillSector
  exact sealSeen (.ite ht.frame (ht.update (mputNat_wf 4 _ _ _) id id))

theorem homePut {w : Nat} {x : Word} {poison : Bool} (h : Kept s₀ s) : Kept s₀ (State.homePut s w x poison) :=
  .ite h.homeMerge (.ite h.homeMerge.frame h.homeMerge.frame)

theorem l1Drop {core w : Nat} (h : Kept s₀ s) : Kept s₀ (State.l1Drop s core w) := h.modCore

theorem l1Set {core w : Nat} {x : L1Word} (h : Kept s₀ s) : Kept s₀ (State.l1Set s core w x) := h.modCore

theorem mergeOwned {a w : Nat} (h : Kept s₀ s) : Kept s₀ (State.mergeOwned s a w) := by
  unfold State.mergeOwned
  split
  · exact h.homePut
  · exact h

theorem dropHeld {a w : Nat} (h : Kept s₀ s) : Kept s₀ (State.dropHeld s a w) := h.frame

theorem hostBack {line : Nat} (h : Kept s₀ s) : Kept s₀ (State.hostBack s line) := by
  unfold State.hostBack
  exact (h.forEach (fun h1 => h1.draw.homePut)).modDir

theorem recallNow {w : Nat} (h : Kept s₀ s) : Kept s₀ (State.recallNow s w) := by
  unfold State.recallNow
  split
  · exact h
  · exact .ite h.mergeOwned.dropHeld.l1Drop.modDir.fireCore h.hostBack

theorem aluTaken {agent : Nat} {ws : List Nat} (h : Kept s₀ s) : Kept s₀ (State.aluTaken s agent ws) :=
  h.homeTaken.forEach fun h1 => h1.recallNow

theorem dropShared {w core : Nat} (h : Kept s₀ s) : Kept s₀ (State.dropShared s w core) := by
  unfold State.dropShared
  split
  · exact .ite h.l1Drop h
  · exact h

theorem unshare {line core : Nat} (h : Kept s₀ s) : Kept s₀ (State.unshare s line core) := .ite h h.modDir

theorem invOne {w core : Nat} (h : Kept s₀ s) : Kept s₀ (State.invOne s w core) := h.dropShared.frame.unshare.fireCore

theorem invNow {w : Nat} (h : Kept s₀ s) : Kept s₀ (State.invNow s w) := by
  unfold State.invNow
  extract_lets s
  have h2 : Kept s₀ s := h.forEach (fun h1 => h1.invOne)
  exact .ite h2.modDir h2

theorem cohWrite {pa : Nat} {bs : List Byte} (h : Kept s₀ s) : Kept s₀ (State.cohWrite s pa bs) :=
  h.forEach fun h1 => h1.recallNow.homeMerge.invNow

theorem spadWrite {b off : Nat} {bs : List Byte} (h : Kept s₀ s) : Kept s₀ (spadWrite s b off bs) :=
  have hw := h.modBlockSpad fun x hx => mputBytes_wf bs x.spad off hx
  .ite hw (hw.forEach fun h1 => h1.fireScratch)

/-- The dirty words of a line that the L1s give back are written into host memory. -/
theorem hostRecall {hl : Nat} (h : Kept s₀ s) : Kept s₀ (State.hostRecall s hl) := by
  unfold State.hostRecall
  extract_lets t
  have ht : Kept s₀ t := h.forEach fun h1 => modCore (by
    split
    · exact h1.forEach fun h2 => .ite (h2.update id (mputNat_wf 4 _ _ _) id) h2
    · exact h1)
  exact ht.frame

theorem hostWrite {ha : Nat} {bs : List Byte} (h : Kept s₀ s) : Kept s₀ (State.hostWrite s ha bs) := by
  unfold State.hostWrite
  extract_lets t
  have ht : Kept s₀ t := .ite h (h.forEach fun h1 => h1.hostRecall)
  exact ht.update id (mputBytes_wf bs _ _) id

theorem writeLoc {core : Nat} {x : Loc} {bs : List Byte} (h : Kept s₀ s) : Kept s₀ (writeLoc s core x bs) := by
  unfold Machine.writeLoc
  split
  · exact (h.cohWrite.forEach (fun h1 => h1.l1Drop)).forEach (fun h2 => h2.fireCore)
  · exact h.hostWrite
  · exact h.frame
  · exact h.spadWrite
  · exact h

theorem homeClose {agent w : Nat} (h : Kept s₀ s) : Kept s₀ (State.homeClose s agent w) := h.modDir

theorem closeL1 {core req : Nat} {sel : Nat → Bool} (h : Kept s₀ s) : Kept s₀ (State.closeL1 s core req sel) := h.modCore

theorem closeDev {g : Nat} {sel : Nat × Nat → Bool} (h : Kept s₀ s) : Kept s₀ (State.closeDev s g sel) :=
  (h.closeL1.forEach (fun h2 => .ite h2.homeClose h2)).modWarp

theorem closeSpad {g : Nat} (h : Kept s₀ s) : Kept s₀ (State.closeSpad s g) :=
  h.mapBlocks fun e => by split <;> rfl

theorem closeWarp {g : Nat} (h : Kept s₀ s) : Kept s₀ (State.closeWarp s g) := h.closeDev.closeSpad

theorem closeCore {g : Nat} (h : Kept s₀ s) : Kept s₀ (State.closeCore s g) := h.closeL1.closeSpad

/-! ### The gate of a core -/

theorem gateFree {core id : Nat} (h : Kept s₀ s) : Kept s₀ (gateFree s core id) := h.modCore

theorem endSection {g l : Nat} (h : Kept s₀ s) : Kept s₀ (endSection s g l) := by
  unfold Machine.endSection
  split
  · exact h
  · exact h.gateFree.modWarp

theorem gateCov {core id cov : Nat} (h : Kept s₀ s) : Kept s₀ (gateCov s core id cov) := h.modCore

theorem leaveSection {g l : Nat} (h : Kept s₀ s) : Kept s₀ (leaveSection s g l) := by
  unfold Machine.leaveSection
  split
  · exact h
  · split
    · split
      · exact h
      · exact (Kept.ite h.closeCore.modCore h.closeCore.gateFree).modWarp
    · exact h

theorem releaseFragment {g l : Nat} (h : Kept s₀ s) : Kept s₀ (releaseFragment s g l) := by
  unfold Machine.releaseFragment
  extract_lets s
  have h3 : Kept s₀ s := h.leaveSection
  split
  · exact h3
  · exact (Kept.ite h3 h3.gateFree).modWarp

theorem leaveSections {g : Nat} {m : LaneMask} (h : Kept s₀ s) : Kept s₀ (leaveSections s g m) := h.forEach fun h1 => h1.leaveSection

theorem releaseFragments {g : Nat} {m : LaneMask} (h : Kept s₀ s) : Kept s₀ (releaseFragments s g m) := h.forEach fun h1 => h1.releaseFragment

theorem noteCmd {g : Nat} {lanes : LaneMask} {id : Nat} (h : Kept s₀ s) : Kept s₀ (State.noteCmd s g lanes id) := h.modWarp

/-! ### Commands of a core -/

theorem objPut {o : Obj} {k n x : Nat} (h : Kept s₀ s) : Kept s₀ (State.objPut s o k n x) := h.spadWrite

theorem setObjError {o : Obj} {cause : Nat} (h : Kept s₀ s) : Kept s₀ (State.setObjError s o cause) := h.objPut.objPut

theorem countBytes {o : Obj} {b : Nat} (h : Kept s₀ s) : Kept s₀ (State.countBytes s o b) := .ite h (.ite h.setObjError h.objPut.objPut)

theorem lineAbsent {b line : Nat} {objs : List Obj} (h : Kept s₀ s) : Kept s₀ (State.lineAbsent s b line objs).1 := by
  unfold State.lineAbsent
  split
  · exact h
  · exact h.modBlock

theorem linePresent {b line : Nat} (h : Kept s₀ s) : Kept s₀ (State.linePresent s b line) := h.modBlock

theorem modCmd {core id : Nat} {f : Cmd → Cmd} (h : Kept s₀ s) : Kept s₀ (State.modCmd s core id f) := h.modCore

theorem setGuard {core n v : Nat} (h : Kept s₀ s) : Kept s₀ (State.setGuard s core n v) := h.modCore

theorem cguard {core n v : Nat} (h : Kept s₀ s) : Kept s₀ (State.cguard s core n v) := h.setGuard.modCore

theorem resolveOut {core : Nat} {c : Cmd} {v : Bool} (h : Kept s₀ s) : Kept s₀ (State.resolveOut s core c v) := by
  unfold State.resolveOut
  split
  · exact (Kept.ite h h.setGuard).modCmd
  · exact h

theorem closeCmd {core : Nat} {c : Cmd} (h : Kept s₀ s) : Kept s₀ (State.closeCmd s core c) := h.forEach fun h1 => .ite h1 h1.homeClose

theorem endCmd {core : Nat} {c : Cmd} {v : Bool} (h : Kept s₀ s) : Kept s₀ (State.endCmd s core c v) := by
  unfold State.endCmd
  exact h.closeCmd.resolveOut.modCore

theorem discardCmd {core : Nat} {c : Cmd} (h : Kept s₀ s) : Kept s₀ (State.discardCmd s core c) :=
  (h.forEach (fun h1 => h1.linePresent)).endCmd

theorem abortsDone {core : Nat} (h : Kept s₀ s) : Kept s₀ (State.abortsDone s core) := h.frame

theorem endAborted {core : Nat} {c : Cmd} (h : Kept s₀ s) : Kept s₀ (State.endAborted s core c) :=
  ((h.forEach (fun h1 => h1.setObjError)).endCmd).abortsDone

theorem abortCmd {core : Nat} {c : Cmd} (h : Kept s₀ s) : Kept s₀ (State.abortCmd s core c) := .ite h.modCmd h.endAborted

theorem countRelease {id : Nat} {o : Obj} {b : Nat} (h : Kept s₀ s) : Kept s₀ (State.countRelease s id o b) :=
  .ite h.countBytes (h.countBytes.forEach (fun h2 => h2.forEach (fun h3 => h3.closeCmd.modCmd)))

theorem exitCmds {b core : Nat} (h : Kept s₀ s) : Kept s₀ (State.exitCmds s b core) := h.forEach fun h1 => by
      extract_lets unresolved
      split
      · exact .ite h1.discardCmd h1
      · exact h1.abortCmd
      · exact h1
      · exact h1
      · exact h1
      · exact .ite h1.discardCmd h1
      · exact h1

theorem cancelCmds {b core : Nat} (h : Kept s₀ s) : Kept s₀ (State.cancelCmds s b core) := h.forEach fun h1 => by
      split
      · exact h1.abortCmd
      · exact h1.discardCmd
      · exact h1.endCmd

theorem freeGuards {b : Nat} {keep : Nat → Bool} (h : Kept s₀ s) : Kept s₀ (State.freeGuards s b keep) := by
  unfold State.freeGuards
  split
  · exact h
  · exact .modBlock (h.forEach (fun h1 => h1.setGuard))

theorem nameGuards {b : Nat} {ns : List Nat} (h : Kept s₀ s) : Kept s₀ (State.nameGuards s b ns) := h.modBlock

theorem writeGuard {b n : Nat} (h : Kept s₀ s) : Kept s₀ (State.writeGuard s b n) := h.nameGuards.modBlock

/-! ### Barriers -/

theorem barComplete {b bar : Nat} {last : Option Nat} (h : Kept s₀ s) : Kept s₀ (State.barComplete s b bar last) := by
  unfold State.barComplete
  split
  · exact h
  · extract_lets br arr det res ph isDet t br' u
    have ht : Kept s₀ t := h.forEach (fun h1 => h1.closeCore)
    have hu : Kept s₀ u := ht.modBlock
    exact hu.frame

theorem barTest {b bar : Nat} {last : Option Nat} (h : Kept s₀ s) : Kept s₀ (State.barTest s b bar last) := by
  unfold State.barTest
  split
  · exact h
  · split
    · exact h
    · exact .ite h.barComplete h

theorem barContrib {b bar : Nat} (h : Kept s₀ s) : Kept s₀ (State.barContrib s b bar) := by
  unfold State.barContrib
  split
  · exact h
  · exact .ite h h.modBlock

theorem barTestAll {b : Nat} {last : Option Nat} (h : Kept s₀ s) : Kept s₀ (State.barTestAll s b last) :=
  h.forEach fun h1 => h1.barContrib.barTest

theorem barExit {b idx : Nat} (h : Kept s₀ s) : Kept s₀ (State.barExit s b idx) := h.modBlock

/-! ### Issue, faults and delivery -/

theorem wake {g : Nat} (h : Kept s₀ s) : Kept s₀ (State.wake s g) := h.modWarp

theorem holderCheck {p : Nat} (h : Kept s₀ s) : Kept s₀ (State.holderCheck s p) := by
  unfold State.holderCheck
  split
  · exact h
  · split
    · exact .ite h.modPart h.modPart
    · exact h.modPart

theorem turnDone {p : Nat} (h : Kept s₀ s) : Kept s₀ (State.turnDone s p) := by
  unfold State.turnDone
  split
  · exact h
  · exact h.modPart

theorem issueDone {p : Nat} (h : Kept s₀ s) : Kept s₀ (State.issueDone s p) := h.holderCheck.turnDone

theorem refill {g r : Nat} (h : Kept s₀ s) : KeptOk s₀ (refill s g r) := by
  unfold Machine.refill
  split
  · extract_lets a m
    split
    · exact h.modWarp
    · exact trivial
    · exact trivial
  · exact h

theorem refillAll {g : Nat} {rs : List Nat} (h : Kept s₀ s) : KeptOk s₀ (refillAll s g rs) := by
  induction rs generalizing s with
  | nil => exact h
  | cons r t ih =>
    unfold Machine.refillAll
    split
    · split
      · next hq => exact ih (of_ok h.refill hq)
      · trivial
    · exact ih h

theorem stallTidy {core : Nat} (h : Kept s₀ s) : Kept s₀ (State.stallTidy s core) := h.modCore

theorem linkTidy (h : Kept s₀ s) : Kept s₀ (State.linkTidy s) := h.forEach fun h1 => .ite h1 h1.frame.cohWrite

theorem blockFree {b : Nat} (h : Kept s₀ s) : Kept s₀ (State.blockFree s b) := by
  unfold State.blockFree
  split
  · exact h
  · extract_lets lost t close u
    have ht : Kept s₀ t := h.count.freeGuards
    have hu : Kept s₀ u := ht.update id id spadsWf_filter
    exact hu.modCore.stallTidy.modLaunch

theorem blockExitTest {b : Nat} (h : Kept s₀ s) : Kept s₀ (State.blockExitTest s b) := by
  unfold State.blockExitTest
  split
  · exact h
  · exact .ite h (.ite h.blockFree (.ite h h.freeGuards))

theorem blockExit {b : Nat} (h : Kept s₀ s) : Kept s₀ (State.blockExit s b) := by
  unfold State.blockExit
  split
  · exact h
  · exact .ite h.exitCmds.blockExitTest h

theorem warpExit {g : Nat} (h : Kept s₀ s) : Kept s₀ (State.warpExit s g) := by
  unfold State.warpExit
  split
  · exact h
  · exact h.closeWarp.modBlock.barExit.barTestAll.blockExit

theorem endLanes {g : Nat} {m : LaneMask} (h : Kept s₀ s) : Kept s₀ (State.endLanes s g m) := by
  unfold State.endLanes
  split
  · exact h
  · extract_lets +onlyGivenNames m
    split
    · exact h
    · extract_lets +onlyGivenNames s s t
      have ht : Kept s₀ t := h.releaseFragments.modWarp.stallTidy.linkTidy
      exact .ite ht.warpExit ht.barTestAll

theorem takeTraps {g : Nat} {pc : DWord} {prio : Nat} {ts : List (Nat × TrapInfo)} (h : Kept s₀ s) :
    Kept s₀ (State.takeTraps s g pc prio ts) := by
  unfold State.takeTraps
  split
  · exact h
  · exact ((((h.count.count.forEach (fun h2 => h2.tell)).leaveSections).newId).modWarp).endLanes

theorem placeFate {g : Nat} {e : Entry} {f : LaneMask × Fate} (h : Kept s₀ s) : Kept s₀ (placeFate g e s f) := by
  unfold Machine.placeFate
  split
  · exact h.newId.modWarp
  · exact h

theorem settle {g : Nat} {e : Entry} {fs : Fates} (h : Kept s₀ s) : Kept s₀ (settle s g e fs) := by
  unfold Machine.settle
  extract_lets fs s t
  have ht : Kept s₀ t := h.modWarp.forEach (fun h2 => h2.placeFate)
  exact ((Kept.ite ht ht.takeTraps).endLanes).modWarp

theorem makePending {g eid : Nat} {need : List Dest} {rel : Nat} (h : Kept s₀ s) : Kept s₀ (makePending s g eid need rel) := h.idle.modWarp

theorem holdBack {g eid : Nat} {o : Opnds} {b : List Dest × Nat} (h : Kept s₀ s) : Kept s₀ (holdBack s g eid o b) :=
  .makePending (.ite h.homeAsk h)

theorem answerAsk {o : Opnds} (h : Kept s₀ s) : KeptNext s₀ (answerAsk s o) := by
  unfold Machine.answerAsk
  split
  · exact trivial
  · exact h.holdBack

theorem finishBody {lim g : Nat} {e : Entry} {o : Opnds} {lanes act pg : LaneMask} {z : State × Fates} (h : Kept s₀ z.1) :
    Kept s₀ (finishBody lim g e o lanes act pg z) := h.modWarp.settle.idle.issueDone

theorem runBody {g : Nat} {e : Entry} {o : Opnds} {lanes act pg : LaneMask} {pre : Fates} {body : Body} (h : Kept s₀ s)
    (hbody : ∀ {s c}, Kept s₀ s → Kept s₀ (body s c).1) : Kept s₀ (runBody s g e o lanes act pg pre body) :=
  finishBody (z := (_, _)) (hbody h.modWarp)

theorem issueCore {o : Opnds} {sel : Warp → LaneMask → LaneMask × LaneMask} {kind : GuardKind} {body : Body} (h : Kept s₀ s)
    (hbody : ∀ {s c}, Kept s₀ s → Kept s₀ (body s c).1) : KeptNext s₀ (issueCore s o sel kind body) := by
  unfold Machine.issueCore
  split
  · exact h.answerAsk
  · extract_lets +onlyGivenNames b
    split
    · exact h.holdBack
    · extract_lets +onlyGivenNames bt lanes sl wr dbg dm lanes act pg readers pool lent unread
      split
      · exact h.count.frame
      · extract_lets +onlyGivenNames wdog dbgF pgF t w x
        have hw : Kept s₀ w := h.modWarp.count
        have hx : Kept s₀ x := .ite hw hw.count.count
        split
        · exact hx.runBody id
        · next u hq =>
          have hu := of_ok hx.refillAll hq
          extract_lets v z
          have hv : Kept s₀ v := .ite hu (.ite hu.aluTaken hu.homeTaken)
          have hz : Kept s₀ z := hv.runBody hbody
          exact Kept.ite hz hz.modWarp

theorem issueLane {gd : Guard} {kind : GuardKind} {o : Opnds} {body : Body} (h : Kept s₀ s)
    (hbody : ∀ {s x1}, Kept s₀ s → Kept s₀ (body s x1).1) : KeptNext s₀ (issueLane s gd kind o body) := h.issueCore fun h2 => hbody h2

theorem issueUni {gd : Guard} {o : Opnds} {body : Body} (h : Kept s₀ s) (hbody : ∀ {s x1}, Kept s₀ s → Kept s₀ (body s x1).1) :
    KeptNext s₀ (issueUni s gd o body) := h.issueCore fun h2 => by
      split
      · exact h2
      · exact hbody h2

theorem trapAll {c : Ctx} {t : TrapInfo} (h : Kept s₀ s) : Kept s₀ (trapAll s c t).1 := h

theorem decodeTrap {g : Nat} {e : Entry} {cause : Nat} {word : DWord} (h : Kept s₀ s) : Kept s₀ (decodeTrap s g e cause word) := by
  unfold Machine.decodeTrap
  split
  · exact h
  · exact h.modWarp.runBody fun h1 => h1

/-! ### Fetch -/

theorem fetchMiss {g : Nat} {pc : DWord} (h : Kept s₀ s) : Kept s₀ (fetchMiss s g pc) := h.count.frame

theorem putLine {yard asid vline : Nat} {ws : List DWord} (h : Kept s₀ s) : Kept s₀ (State.putLine s yard asid vline ws) := h.frame

/-! ### Operands -/

theorem laneOp {g : Guard} {la : Nat} {o : Opnds} {f : State → Ctx → Warp → Nat → LaneOut} (h : Kept s₀ s) :
    KeptNext s₀ (laneOp s g la o f) := h.issueLane fun h1 => by
      split
      · exact h1
      · exact h1.newId.modWarp

/-! ### Integer instructions -/

theorem execLogic {f : IntF} {op : LogicOp} {d : Nat} {a b : Src} (h : Kept s₀ s) : KeptNext s₀ (execLogic f op d a b s) := by
  unfold Machine.execLogic
  split
  · exact h.laneOp
  · exact h.laneOp
  · exact h.laneOp

/-! ### Coherence -/

theorem modOp {core id : Nat} {f : LsuOp → LsuOp} (h : Kept s₀ s) : Kept s₀ (State.modOp s core id f) := h.modCore

theorem resultData {g rid lane : Nat} {vals : List (DWord × Bool)} (h : Kept s₀ s) : Kept s₀ (State.resultData s g rid lane vals) := h.modWarp

theorem deliverLoad {o : LsuOp} {lane size x : Nat} {poison : Bool} (h : Kept s₀ s) : Kept s₀ (deliverLoad s o lane size x poison) := by
  unfold Machine.deliverLoad
  split
  · exact h
  · split
    · exact h.resultData
    · exact h.resultData

theorem deliverAtom {o : LsuOp} {lane size old : Nat} {st poison : Bool} (h : Kept s₀ s) :
    Kept s₀ (deliverAtom s o lane size old st poison) := by
  unfold Machine.deliverAtom
  split
  · exact h
  · exact h.resultData

theorem openWord {g w va : Nat} {write : Bool} (h : Kept s₀ s) : Kept s₀ (openWord s g w va write) := h.modCore.modDir.modWarp

theorem raceAcc {o : LsuOp} {q : OpPart} {a : LaneAcc} {seen : Nat → WordOpens} (h : Kept s₀ s) : Kept s₀ (raceAcc s o q a seen).1 := by
  unfold Machine.raceAcc
  split
  · exact h
  · dsimp only
    split
    · split
      · exact h.count.modOp
      · exact h.count.foldl fun h1 => h1.openWord
    · exact h.foldl fun h1 => h1.openWord

theorem acquireL1 {core : Nat} {region : Option (Nat × Nat)} (h : Kept s₀ s) : Kept s₀ (acquireL1 s core region) := by
  unfold Machine.acquireL1
  exact h.modCore

theorem releaseAct {g : Nat} {c : Scope} {region : Option (Nat × Nat)} (h : Kept s₀ s) : Kept s₀ (releaseAct s g c region) := by
  unfold Machine.releaseAct
  split
  · exact h
  · split
    · split
      · exact h.closeCore
      · exact h.closeL1
    · split
      · exact h.closeDev.closeSpad
      · exact h.closeDev

theorem acquireAct {g : Nat} {c : Scope} {region : Option (Nat × Nat)} (h : Kept s₀ s) : Kept s₀ (acquireAct s g c region) := .ite h h.acquireL1

theorem sendReq {core oid sec : Nat} {kind : ReqKind} {words : BitVec 32} (h : Kept s₀ s) : Kept s₀ (sendReq s core oid sec kind words) :=
  h.frame.modOp

theorem sendOwn {core oid : Nat} {q : OpPart} (h : Kept s₀ s) : Kept s₀ (sendOwn s core oid q) := h.sendReq

theorem l1Write {core w : Nat} {bs : List (Nat × Byte)} (h : Kept s₀ s) : Kept s₀ (l1Write s core w bs) := by
  unfold Machine.l1Write
  split
  · exact h
  · exact h.l1Set

theorem performL1 {core : Nat} {o : LsuOp} {q : OpPart} (h : Kept s₀ s) : Kept s₀ (performL1 s core o q) := by
  refine h.forEach fun {u a} hu => ?_
  have hrace := hu.raceAcc (o := o) (q := q) (a := a) (seen := l1Opens u core)
  have hwrite : ∀ {t ws bs}, Kept s₀ t →
      Kept s₀ ((Machine.forEach ws t fun s w => Machine.l1Write s core w (bytesOf bs w)).fireCore core (q.sec / 4)) :=
    fun ht => (ht.forEach fun h1 => h1.l1Write).fireCore
  split
  · exact .ite hrace hrace.deliverLoad
  · exact .ite hrace (hwrite hrace)
  · exact .ite (.ite hu.count hu.deliverAtom) (hwrite hu).deliverAtom
  · exact .ite (.ite hu.count hu.deliverAtom) (hwrite hu).deliverAtom
  · exact hu

theorem resultDone {core : Nat} {o : LsuOp} (h : Kept s₀ s) : Kept s₀ (resultDone s core o) := by
  unfold Machine.resultDone
  split
  · exact h
  · exact .ite h h.modWarp

theorem detRelease {o : LsuOp} (h : Kept s₀ s) : Kept s₀ (detRelease s o) := by
  unfold Machine.detRelease
  split
  · exact h
  · refine modWarp (.ite h (takeTraps ?_))
    split
    · exact h.modWarp
    · exact h.modWarp.modWarp

theorem completeOp {core : Nat} {o : LsuOp} (h : Kept s₀ s) : Kept s₀ (completeOp s core o) :=
  (((Kept.ite h.modCore.acquireAct h.modCore).resultDone).detRelease).wake

theorem finishPart {core oid sec : Nat} (h : Kept s₀ s) : Kept s₀ (finishPart s core oid sec) := by
  unfold Machine.finishPart
  extract_lets s
  split
  · exact h.modOp
  · exact .ite h.modOp.completeOp h.modOp

theorem ownBesides {core : Nat} {o : LsuOp} {sec : Nat} {ws : List Nat} (h : Kept s₀ s) : Kept s₀ (ownBesides s core o sec ws) :=
  .ite h h.newId.modCore.sendOwn

theorem serveHits {core : Nat} {o : LsuOp} {q : OpPart} (h : Kept s₀ s) : Kept s₀ (serveHits s core o q).1 := h.performL1.modOp.ownBesides

theorem startPart {core : Nat} {o : LsuOp} {q : OpPart} (h : Kept s₀ s) : Kept s₀ (startPart s core o q) := by
  unfold Machine.startPart
  extract_lets own need read
  split
  · exact .ite h.serveHits.finishPart (.ite h.serveHits.sendOwn h.serveHits.sendReq)
  · exact .ite h.finishPart (.ite h.sendOwn h.sendReq)
  · exact .ite (.ite h.fireCore.performL1.finishPart h.fireCore.sendOwn) h.fireCore.sendReq
  · exact .ite (.ite h.fireCore.performL1.finishPart h.fireCore.sendOwn) h.fireCore.sendReq
  · exact .ite (.ite h.fireCore.performL1.finishPart h.fireCore.sendOwn) h.fireCore.sendReq

theorem pumpN {core n : Nat} (h : Kept s₀ s) : Kept s₀ (pumpN s core n) := by
  induction n generalizing s with
  | zero => exact h
  | succ k ih =>
    unfold Machine.pumpN
    split
    · exact h
    · split
      · exact ih h.startPart
      · exact h

theorem pump {core : Nat} (h : Kept s₀ s) : Kept s₀ (pump s core) := h.pumpN

theorem modReq {id : Nat} {f : Req → Req} (h : Kept s₀ s) : Kept s₀ (State.modReq s id f) := h.frame

theorem dropReq {id : Nat} (h : Kept s₀ s) : Kept s₀ (State.dropReq s id) := h.frame

theorem unpinAll {launch : Nat} (h : Kept s₀ s) : Kept s₀ (State.unpinAll s launch) := h.frame

theorem raceHome {o : LsuOp} {q : OpPart} (h : Kept s₀ s) : Kept s₀ (raceHome s o q).1 := h.foldlFst fun h1 => h1.raceAcc

theorem finishRead {r : Req} {kind : ReqKind} {t : LsuOp × OpPart} (h : Kept s₀ s) : Kept s₀ (finishRead s r kind t) := by
  unfold Machine.finishRead
  exact (Kept.ite h.raceHome.modDir h.raceHome).send

theorem finishOwn {r : Req} (h : Kept s₀ s) : Kept s₀ (finishOwn s r) := by
  unfold Machine.finishOwn
  exact h.modDir.send

theorem ownMerge {a w : Nat} {bs : List (Nat × Byte)} (h : Kept s₀ s) : Kept s₀ (State.ownMerge s a w bs) := by
  unfold State.ownMerge
  split
  · exact h
  · extract_lets t
    have ht : Kept s₀ t := by
      unfold t
      split
      · exact h.l1Set
      · exact h
    exact ht.frame

theorem finishWrite {r : Req} {kind : ReqKind} {t : LsuOp × OpPart} (h : Kept s₀ s) : Kept s₀ (finishWrite s r kind t) := by
  unfold Machine.finishWrite
  extract_lets o q rc r t u
  have ht : Kept s₀ t := .ite (h.raceHome.forEach fun h1 => .ite h1.recallNow h1) h.raceHome
  have hu : Kept s₀ u := ht.forEach fun h1 => .ite h1 (h1.forEach fun h2 => h2.homeMerge.ownMerge)
  exact (Kept.ite hu.modDir hu).send

theorem finishAtomic {r : Req} {t : LsuOp × OpPart} (h : Kept s₀ s) : Kept s₀ (finishAtomic s r t) := by
  unfold Machine.finishAtomic
  extract_lets o q u
  have hu : Kept s₀ u.1 := h.foldlFst (fun h1 => by
      extract_lets s old
      split
      · exact .ite h1.count h1
      · exact h1.forEach (fun h3 => h3.homeMerge))
  exact .ite hu.send hu.send

theorem finishReq {r : Req} (h : Kept s₀ s) : Kept s₀ (finishReq s r) := by
  unfold Machine.finishReq
  split
  · exact .ite h.modReq h.dropReq
  · extract_lets s t
    have ht : Kept s₀ t := by
      unfold t
      split
      · exact h.fillSector.finishRead
      · exact h.fillSector.finishRead
      · exact h.fillSector.finishRead
      · exact h.fillSector.finishOwn
      · exact h.fillSector.finishOwn
      · exact h.fillSector.finishWrite
      · exact h.fillSector.finishWrite
      · exact h.fillSector.finishAtomic
      · exact h.fillSector
    exact ht.touchLine.dropReq

theorem sendSnoops {r : Req} {ps : List Plan} (h : Kept s₀ s) : Kept s₀ (sendSnoops s r ps) :=
  ((h.forEach (fun h1 => h1.send)).modDir).modReq

theorem tryServe {id : Nat} (h : Kept s₀ s) : Kept s₀ (tryServe s id) := by
  unfold Machine.tryServe
  split
  · exact h
  · exact .ite h (.ite h.modReq.wantSector (.ite h.modReq.finishReq (.ite h.modReq h.modReq.sendSnoops)))

theorem kick {line : Nat} (h : Kept s₀ s) : Kept s₀ (kick s line) := h.forEach fun h1 => h1.tryServe

theorem proceed {id : Nat} (h : Kept s₀ s) : Kept s₀ (proceed s id) := by
  unfold Machine.proceed
  split
  · exact h
  · exact .ite h.setDir.modReq.tryServe.modReq.kick h

theorem answered {id agent : Nat} {inv : Bool} (h : Kept s₀ s) : Kept s₀ (answered s id agent inv) := h.modReq.proceed

/-! ### Homes -/

theorem dropMsg {id : Nat} (h : Kept s₀ s) : Kept s₀ (State.dropMsg s id) := h.frame

theorem serveWb {r : Req} (h : Kept s₀ s) : Kept s₀ (serveWb s r) :=
  have hp := h.forEach fun h1 => by
    split
    · exact h1.homePut
    · exact h1
  .ite h.dropReq (hp.modDir.dropReq.send.forEach fun h1 => h1.answered).kick

theorem homeRequest {id : Nat} {k : ReqKind} (h : Kept s₀ s) : Kept s₀ (homeRequest s id k) := by
  unfold Machine.homeRequest
  split
  · exact h
  · split
    · exact h
    · split
      · exact h.tryServe
      · split
        · extract_lets t
          have ht : Kept s₀ t.1 := h.accepted.newId
          exact .ite ht.modReq.serveWb ht.modReq.tryServe
        · exact h

theorem setOthers {core line : Nat} {words : BitVec 32} {others : Tbl WordOpens} (h : Kept s₀ s) :
    Kept s₀ (setOthers s core line words others) := h.modCore

theorem execFwd {msg : Nat} (h : Kept s₀ s) : KeptNext s₀ (execFwd msg s) := by
  unfold Machine.execFwd
  split
  · exact .ite h.dropMsg.setOthers.send h
  · exact h

theorem execRcl {msg : Nat} (h : Kept s₀ s) : KeptNext s₀ (execRcl msg s) := by
  unfold Machine.execRcl
  split
  · exact .ite (((h.dropMsg.forEach (fun h1 => h1.l1Drop)).fireCore).send) h
  · exact h

theorem execInv {msg : Nat} (h : Kept s₀ s) : KeptNext s₀ (execInv msg s) := by
  unfold Machine.execInv
  split
  · exact .ite (((h.dropMsg.forEach (fun h1 => h1.dropShared)).fireCore).send) h
  · exact h

theorem takeAnswer {r : HomeAns} (h : Kept s₀ s) : Kept s₀ (takeAnswer s r) := by
  unfold Machine.takeAnswer
  extract_lets t s u
  have ht : Kept s₀ t := .ite h.unshare h
  have hu : Kept s₀ u := (Kept.ite ht.frame ht).forEach (fun h3 => h3.homePut)
  split
  · exact hu.modDir
  · exact hu.modDir
  · exact hu

theorem execHomeAck {msg : Nat} (h : Kept s₀ s) : KeptNext s₀ (execHomeAck msg s) := by
  unfold Machine.execHomeAck
  split
  · exact .ite h (.ite h.dropMsg h.dropMsg.takeAnswer.answered)
  · exact h

/-- The dirty words of a host line that leaves an L1 are written into host memory. -/
theorem evictL1 {core line : Nat} (h : Kept s₀ s) : Kept s₀ (evictL1 s core line) := by
  unfold Machine.evictL1
  split
  · exact h
  · split
    · extract_lets t left u
      have ht : Kept s₀ t := h.forEach fun h1 => .ite (h1.update id (mputNat_wf 4 _ _ _) id) h1
      have hu : Kept s₀ u := ht.modCore
      exact hu.frame
    · exact .ite h.frame h.frame

theorem l1Room {core line : Nat} {victim : Option Nat} (h : Kept s₀ s) : Kept s₀ (l1Room s core line victim) := by
  unfold Machine.l1Room
  split
  · exact h
  · exact h.evictL1

theorem l1Shrink {core : Nat} (h : Kept s₀ s) : Kept s₀ (l1Shrink s core) := h.forEach fun h1 => h1.evictL1

theorem takeOwn {core w : Nat} (h : Kept s₀ s) : Kept s₀ (takeOwn s core w) :=
  .ite h h.recallNow.fillSector.invNow.l1Room.l1Set.modDir.setOthers

theorem engineOwn {core : Nat} {ws : List Nat} (h : Kept s₀ s) : Kept s₀ (engineOwn s core ws) := .ite (h.forEach (fun h1 => h1.takeOwn)) h

theorem engineWrite {core : Nat} {x : Loc} {bs : List Byte} (h : Kept s₀ s) : Kept s₀ (engineWrite s core x bs) := by
  unfold Machine.engineWrite
  split
  · exact .ite (h.forEach (fun h1 => h1.takeOwn.l1Write.fireCore)) h.writeLoc
  · exact h.writeLoc

theorem fillWord {r : Reply} {i : Nat} (h : Kept s₀ s) : Kept s₀ (fillWord s r i) := by
  unfold Machine.fillWord
  dsimp only
  repeat' split
  all_goals exact h.frame

theorem setLease {r : Reply} {live : Bool} {vline : Nat} (h : Kept s₀ s) : Kept s₀ (setLease s r live vline) := .ite h h.modCore

theorem dropExpired {core line : Nat} (h : Kept s₀ s) : Kept s₀ (dropExpired s core line) := h.modCore

theorem fillReply {r : Reply} {vline : Nat} (h : Kept s₀ s) : Kept s₀ (fillReply s r vline) :=
  ((h.dropExpired.forEach (fun h2 => h2.fillWord)).setOthers).setLease

theorem completePart {r : Reply} {o : LsuOp} {q : OpPart} (h : Kept s₀ s) : Kept s₀ (completePart s r o q) := by
  unfold Machine.completePart
  extract_lets again own val
  split
  · exact h.finishPart
  · exact .ite (.ite h.performL1.finishPart h.modOp) (.ite ((h.forEach (fun h1 => .ite h1 h1.deliverLoad)).finishPart) h.modOp)
  · exact .ite h.performL1.finishPart h.modOp
  all_goals
    exact .ite (.ite h.performL1.finishPart h.modOp)
      (finishPart ((fireCore (h.forEach fun h1 => h1.l1Drop)).forEach fun h1 => h1.deliverAtom))

theorem execGrant {msg : Nat} {victim : Option Nat} (h : Kept s₀ s) : KeptNext s₀ (execGrant msg victim s) := by
  unfold Machine.execGrant
  split
  · extract_lets s t
    have ht : Kept s₀ t := .ite h.dropMsg h.dropMsg.l1Room
    split
    · exact ht
    · exact ht.fillReply.completePart.pump
  · exact h

theorem ackedStore {r : WriteAck} {q : OpPart} (h : Kept s₀ s) : Kept s₀ (ackedStore s r q) := ((Kept.ite h h.l1Room).forEach (fun h2 => by
  extract_lets i fresh
  split
  · exact .ite h2.l1Drop (.ite h2 (.ite h2.l1Set h2.l1Set))
  · exact .ite h2.l1Set h2)).fireCore

theorem execWriteAcknowledged {msg : Nat} (h : Kept s₀ s) : KeptNext s₀ (execWriteAcknowledged msg s) := by
  unfold Machine.execWriteAcknowledged
  split
  · extract_lets s
    split
    · exact h.dropMsg.modCore
    · split
      · exact h.dropMsg
      · exact h.dropMsg.ackedStore.finishPart.pump
  · exact h

theorem kickSlice {slice : Nat} (h : Kept s₀ s) : Kept s₀ (kickSlice s slice) := h.forEach fun h1 => h1.tryServe

theorem evictL2For {victim : Option Nat} (h : Kept s₀ s) : Kept s₀ (State.evictL2For s victim) := by
  unfold State.evictL2For
  split
  · exact h.evictL2
  · exact h

theorem sectorsLost {line : Nat} {secs : List Nat} (h : Kept s₀ s) : Kept s₀ (State.sectorsLost s line secs) := .ite h h.frame

theorem secdedLost {line chunk : Nat} (h : Kept s₀ s) : Kept s₀ (secdedLost s line chunk) := .ite h.frame h

theorem execL2MissFill {line : Nat} {victim : Option Nat} {err : MemErr} (h : Kept s₀ s) : KeptNext s₀ (execL2MissFill line victim err s) := by
  unfold Machine.execL2MissFill
  split
  · exact h.secdedLost
  · split
    · exact h
    · exact .ite h ((((Kept.ite h.evictL2For.sectorsLost h.evictL2For).forEach (fun h3 => h3.fillSector)).frame).kickSlice)

theorem execVictimForce {line victim : Nat} (h : Kept s₀ s) : KeptNext s₀ (execVictimForce line victim s) := by
  unfold Machine.execVictimForce
  split
  · extract_lets lost s t
    have ht : Kept s₀ t := ((h.forEach (fun h1 => h1.recallNow.invNow)).modDir).count
    exact (Kept.ite ht ht.tell).evictL2
  · exact h

theorem fence {agent : Nat} (h : Kept s₀ s) : Kept s₀ (State.fence s agent) := h.frame

theorem fenceLost {agent : Nat} (h : Kept s₀ s) : Kept s₀ (State.fenceLost s agent) := .ite h.frame.modCore h.frame

theorem execAgentFence {agent : Nat} (h : Kept s₀ s) : KeptNext s₀ (execAgentFence agent s) := by
  unfold Machine.execAgentFence
  split
  · exact h
  · exact h.fence.tell.fenceLost.forEach fun h2 => h2.answered.answered

theorem forwardNow {reader : Option Nat} {w : Nat} (h : Kept s₀ s) : Kept s₀ (forwardNow s reader w) := by
  unfold Machine.forwardNow
  split
  · exact h
  · extract_lets t o u
    have ht : Kept s₀ t := by
      unfold t
      split
      · exact h.homePut
      · exact h
    have hu : Kept s₀ u := by
      unfold u
      split
      · exact .ite ht.setOthers ht
      · exact ht
    exact hu.modDir

theorem loadNow {core : Nat} {pol : Policy} {vline w : Nat} (h : Kept s₀ s) : Kept s₀ (loadNow s core pol vline w).1 := by
  unfold Machine.loadNow
  split
  · exact h
  · split
    · exact h.takeOwn
    · extract_lets line t v
      have ht : Kept s₀ t := h.forwardNow.fillSector
      split
      · exact ht
      · exact ((Kept.ite ht.modDir ht).l1Room).fillReply

theorem hostReads {kind : HostRead} {line : Nat} (h : Kept s₀ s) : Kept s₀ (hostReads s kind line) := by
  unfold Machine.hostReads
  extract_lets ws
  split
  · exact h.forEach (fun h1 => h1.forwardNow)
  · exact .modDir (h.forEach (fun h1 => h1.forwardNow))
  · exact .ite h (.modDir (h.unserve.forEach (fun h1 => h1.recallNow.invNow)))

theorem hostWrites {line : Nat} {es : Tbl (List (Nat × Byte))} (h : Kept s₀ s) : Kept s₀ (hostWrites s line es) :=
  .ite (.modDir (h.forEach (fun h1 => h1.homeMerge))) (.modDir (h.forEach (fun h1 => h1.recallNow.homeMerge.invNow)))

theorem hostTry {acc : State × List HostReq} {q : HostReq} (h : Kept s₀ acc.1) : Kept s₀ (hostTry acc q).1 := by
  unfold Machine.hostTry
  split
  · exact h
  · split
    · extract_lets s
      split
      · exact h.homeTaken.hostReads
      · exact h.homeTaken.hostWrites
    · exact h.homeAsk

theorem hostPump (h : Kept s₀ s) : Kept s₀ (State.hostPump s) := .ite h (.ite h.frame (.ite h ((h.foldlFst (fun h1 => h1.hostTry)).frame)))

theorem hostAsks {q : HostReq} (h : Kept s₀ s) : Kept s₀ (State.hostAsks s q) := h.frame.hostPump

theorem execHostMemrd {kind : HostRead} {line : Nat} (h : Kept s₀ s) : KeptNext s₀ (execHostMemrd kind line s) := Kept.ite h h.hostAsks

theorem execHostMemwr {pa : Nat} {data : List (Option Byte)} (h : Kept s₀ s) : KeptNext s₀ (execHostMemwr pa data s) := Kept.ite h h.hostAsks

theorem hostAnswer {r : Snoop} {data : List Byte} (h : Kept s₀ s) : Kept s₀ (hostAnswer s r data) := by
  unfold Machine.hostAnswer
  exact (Kept.ite (h.forEach (fun h1 => h1.homePut)) h).modDir

theorem execBisnpAnswer {msg : Nat} {data : List Byte} (h : Kept s₀ s) : KeptNext s₀ (execBisnpAnswer msg data s) := by
  unfold Machine.execBisnpAnswer
  split
  · exact .ite h h.dropMsg.hostAnswer.answered
  · exact h

theorem execHostSnoop {core line : Nat} {invalidate : Bool} (h : Kept s₀ s) : KeptNext s₀ (execHostSnoop core line invalidate s) := by
  unfold Machine.execHostSnoop
  split
  · exact h
  · split
    · exact h.evictL1
    · extract_lets t
      have ht : Kept s₀ t := h.forEach fun h1 => .ite (h1.update id (mputNat_wf 4 _ _ _) id) h1
      exact ht.modCore

/-! ### The sequencer -/

theorem eachLane {m : LaneMask} {f : State → Nat → State × Fate} (h : Kept s₀ s) (hf : ∀ {s x1}, Kept s₀ s → Kept s₀ (f s x1).1) :
    Kept s₀ (eachLane s m f).1 := h.foldlFst fun h2 => hf h2

theorem laneFates {m : LaneMask} {f : State → Nat → State × Fate} (h : Kept s₀ s) (hf : ∀ {s x1}, Kept s₀ s → Kept s₀ (f s x1).1) :
    Kept s₀ (laneFates s m f).1 := h.eachLane fun h2 => hf h2

theorem someFates {m : LaneMask} {f : State → Nat → State × Option Fate} (h : Kept s₀ s) (hf : ∀ {s x1}, Kept s₀ s → Kept s₀ (f s x1).1) :
    Kept s₀ (someFates s m f).1 := h.foldlFst fun h2 => hf h2

theorem pushReturn {c : Ctx} {lane : Nat} (h : Kept s₀ s) : KeptOk s₀ (pushReturn s c lane) := by
  unfold Machine.pushReturn
  split
  · extract_lets d
    split
    · exact trivial
    · split
      · exact trivial
      · exact h.engineWrite.modWarp
  · exact h

theorem slotOwned {core : Nat} {x : Loc} (h : Kept s₀ s) : Kept s₀ (slotOwned s core x) := by
  unfold Machine.slotOwned
  split
  · exact h.engineOwn
  · exact h

theorem popReturn {c : Ctx} {lane : Nat} (h : Kept s₀ s) : Kept s₀ (popReturn s c lane).1 := by
  unfold Machine.popReturn
  split
  · extract_lets +onlyGivenNames d
    split
    · exact h
    · extract_lets +onlyGivenNames p
      split
      · exact h
      · extract_lets +onlyGivenNames s r v
        split
        · exact h.slotOwned
        · split
          · exact h.slotOwned
          · exact h.slotOwned.modWarp
  · exact h

theorem execNop {g : Guard} (h : Kept s₀ s) : KeptNext s₀ (execNop g s) := h.issueLane fun h1 => h1

theorem execLand {g : Guard} (h : Kept s₀ s) : KeptNext s₀ (execLand g s) := h.issueLane fun h1 => h1

theorem execBra {g : Guard} {prio : Nat} {off : ℤ} (h : Kept s₀ s) : KeptNext s₀ (execBra g prio off s) := h.issueLane fun h1 => h1

theorem execBraU {g : Guard} {prio : Nat} {off : ℤ} (h : Kept s₀ s) : KeptNext s₀ (execBraU g prio off s) := h.issueLane fun h1 => by
  extract_lets t all
  split
  · split
    · exact h1.pair
    · exact h1.count.pair
  · exact h1.pair

theorem brxLane {c : Ctx} {prio treg l : Nat} (h : Kept s₀ s) : Kept s₀ (brxLane c prio treg s l).1 := by
  unfold Machine.brxLane
  split
  · exact h
  · extract_lets x
    split
    · exact h
    · exact h

theorem execBrx {g : Guard} {prio treg : Nat} {lu : Bool} (h : Kept s₀ s) : KeptNext s₀ (execBrx g prio treg lu s) :=
  h.issueLane fun h1 => h1.laneFates fun h2 => h2.brxLane

theorem callLane {c : Ctx} {target : DWord} {prio l : Nat} (h : Kept s₀ s) : Kept s₀ (callLane c target prio s l).1 := by
  unfold Machine.callLane
  split
  · exact h
  · next hq => exact of_ok h.pushReturn hq

theorem execCall {g : Guard} {prio : Nat} {off : ℤ} (h : Kept s₀ s) : KeptNext s₀ (execCall g prio off s) :=
  h.issueLane fun h1 => h1.laneFates fun h2 => h2.callLane

theorem callxLane {c : Ctx} {prio treg l : Nat} (h : Kept s₀ s) : Kept s₀ (callxLane c prio treg s l).1 := by
  unfold Machine.callxLane
  split
  · exact h
  · extract_lets x
    split
    · exact h
    · exact h.callLane

theorem execCallx {g : Guard} {prio treg : Nat} {lu : Bool} (h : Kept s₀ s) : KeptNext s₀ (execCallx g prio treg lu s) :=
  h.issueLane fun h1 => h1.laneFates fun h2 => h2.callxLane

theorem execRet {g : Guard} (h : Kept s₀ s) : KeptNext s₀ (execRet g s) := h.issueLane fun h1 => h1.laneFates fun h2 => h2.popReturn

theorem maskOp {g : Guard} {m : Nat} {f : LaneMask → LaneMask → LaneMask} (h : Kept s₀ s) : KeptNext s₀ (maskOp s g m f) :=
  h.issueLane fun h1 => .ite h1 h1.modWarp

theorem execWaitm {g : Guard} {m : Nat} (h : Kept s₀ s) : KeptNext s₀ (execWaitm g m s) := h.issueLane fun h1 => h1

theorem execTrap {g : Guard} {n : Nat} (h : Kept s₀ s) : KeptNext s₀ (execTrap g n s) := h.issueLane fun h1 => h1

theorem execBkpt {g : Guard} {n : Nat} (h : Kept s₀ s) : KeptNext s₀ (execBkpt g n s) := h.issueLane fun h1 => h1

theorem tretLane {g : Nat} {next : Bool} {l : Nat} (h : Kept s₀ s) : Kept s₀ (tretLane g next s l).1 := by
  unfold Machine.tretLane
  split
  · exact h
  · split
    · exact h.modWarp
    · exact h

theorem trapReturns {g : Guard} {next : Bool} (h : Kept s₀ s) : KeptNext s₀ (trapReturns s g next) :=
  h.issueLane fun h1 => h1.laneFates fun h2 => h2.tretLane

theorem execExit {g : Guard} (h : Kept s₀ s) : KeptNext s₀ (execExit g s) := h.issueLane fun h1 => h1

theorem execTkill {g : Guard} (h : Kept s₀ s) : KeptNext s₀ (execTkill g s) := h.issueLane fun h1 => h1.count

theorem execTkillW {g : Guard} (h : Kept s₀ s) : KeptNext s₀ (execTkillW g s) := h.issueLane fun h1 => by
  split
  · exact h1
  · exact h1.count.endLanes

theorem execWdog {g : Guard} {n : Nat} (h : Kept s₀ s) : KeptNext s₀ (execWdog g n s) := h.issueLane fun h1 => by
  split
  · exact h1.modWarp
  · exact h1

theorem execYield {g : Guard} (h : Kept s₀ s) : KeptNext s₀ (execYield g s) := h.issueLane fun h1 => h1

theorem chooseTurn {k g : Nat} (h : Kept s₀ s) : Kept s₀ (chooseTurn s k g) := by
  unfold Machine.chooseTurn
  exact h.modPart

theorem settleTurn {k : Nat} (h : Kept s₀ s) : Kept s₀ (State.settleTurn s k) := by
  unfold State.settleTurn
  split
  · exact h
  · exact .ite h.modPart h.modPart

theorem ccEnds (h : Kept s₀ s) : Kept s₀ (State.ccEnds s) := h.frame

theorem execIssueSelect {core part : Nat} (h : Kept s₀ s) : KeptNext s₀ (execIssueSelect core part s) := by
  unfold Machine.execIssueSelect
  extract_lets k
  split
  · exact h
  · split
    · exact h
    · extract_lets t
      have ht : Kept s₀ t := h.chooseTurn
      exact ht.frame

theorem fetchTraps {g pc d : Nat} (h : Kept s₀ s) : Kept s₀ (fetchTraps s g pc d) :=
  h.forEach fun h1 => .ite h1.count.endLanes h1.modWarp.takeTraps

theorem execIcacheFill {core part : Nat} (h : Kept s₀ s) : KeptNext s₀ (execIcacheFill core part s) := by
  unfold Machine.execIcacheFill
  extract_lets +onlyGivenNames k
  split
  · exact h
  · extract_lets +onlyGivenNames ws
    split
    · exact h.homeAsk
    · extract_lets +onlyGivenNames t
      have ht : Kept s₀ t := h.homeTaken.modPart
      split
      · exact ht.putLine
      · exact ht.fetchTraps

theorem execTrapDeliver {warp entry : Nat} (h : Kept s₀ s) : KeptNext s₀ (execTrapDeliver warp entry s) := by
  unfold Machine.execTrapDeliver
  split
  · exact h
  · split
    · split
      · exact h.modWarp
      · exact h.fetchMiss
      · exact h
    · exact h

theorem asyncAt {g : Nat} {t : AsyncTrap} {at_ : Entry} {m : LaneMask} (h : Kept s₀ s) : Kept s₀ (asyncAt s g t at_ m) :=
  .ite h h.modWarp.takeTraps.modWarp

theorem asyncEntry {g : Nat} {t : AsyncTrap} {e : Entry} (h : Kept s₀ s) : Kept s₀ (asyncEntry s g t e) :=
  (h.foldlFst (fun h1 => h1.asyncAt)).asyncAt

theorem execAsyncTrap {i : Nat} (h : Kept s₀ s) : KeptNext s₀ (execAsyncTrap i s) := by
  unfold Machine.execAsyncTrap
  split
  · exact h
  · extract_lets s
    split
    · exact h.frame
    · exact ((h.frame.forEach (fun h2 => h2.asyncEntry)).stallTidy).linkTidy

theorem execWatchdog {warp : Nat} (h : Kept s₀ s) : KeptNext s₀ (execWatchdog warp s) := by
  unfold Machine.execWatchdog
  split
  · exact h
  · exact .ite h.modWarp.takeTraps h

theorem execResultArrive {warp result : Nat} (h : Kept s₀ s) : KeptNext s₀ (execResultArrive warp result s) := by
  unfold Machine.execResultArrive
  split
  · exact h
  · extract_lets +onlyGivenNames away
    split
    · exact h
    · extract_lets +onlyGivenNames s
      split
      · exact h.modCore.modWarp.takeTraps.wake
      · exact h.modCore.modWarp.wake

theorem chooseHolder {k : Nat} (h : Kept s₀ s) : Kept s₀ (chooseHolder s k) := by
  unfold Machine.chooseHolder
  extract_lets t
  have ht : Kept s₀ t := h.holderCheck
  split
  · exact ht
  · split
    · exact ht
    · exact ht.modPart

theorem execPoolGrant {core part : Nat} (h : Kept s₀ s) : KeptNext s₀ (execPoolGrant core part s) := by
  unfold Machine.execPoolGrant
  extract_lets k t
  have ht : Kept s₀ t := h.chooseHolder
  split
  · exact ht
  · split
    · exact ht.modWarp
    · next hq => exact (of_ok ht.refillAll hq).count.modWarp.holderCheck

theorem spillWrite {g : Nat} {w : Warp} {r : Nat} {p : Nat × Nat} (h : Kept s₀ s) : Kept s₀ (spillWrite s g w r p) := by
  unfold Machine.spillWrite
  exact h.homeTaken.engineWrite.engineWrite

theorem execSpill {core part : Nat} (h : Kept s₀ s) : KeptNext s₀ (execSpill core part s) := by
  unfold Machine.execSpill
  extract_lets k t
  have ht : Kept s₀ t := h.chooseHolder
  split
  · exact ht
  · split
    · exact ht
    · split
      · exact ht
      · split
        · exact ht.frame
        · exact .ite ht.homeAsk ht.spillWrite.modWarp

theorem execCommandQueueRelease {warp entry : Nat} (h : Kept s₀ s) : KeptNext s₀ (execCommandQueueRelease warp entry s) := by
  unfold Machine.execCommandQueueRelease
  split
  · exact h
  · exact .ite h.modWarp h

/-! ### Loads and stores -/

theorem spadOpen {b off n g : Nat} {write : Bool} (h : Kept s₀ s) : Kept s₀ (spadOpen s b off n g write) := h.modBlock

theorem hostFill {core ha : Nat} {own : Bool} (h : Kept s₀ s) : Kept s₀ (hostFill s core ha own) := by
  unfold Machine.hostFill
  extract_lets hl t u v
  have ht : Kept s₀ t := .ite h.hostRecall h
  have hu : Kept s₀ u := ht.l1Room
  have hv : Kept s₀ v := hu.forEach fun h1 => by
    dsimp only
    split
    · exact h1
    · exact h1.l1Set
  clear_value v
  exact .ite ht hv.frame

theorem hostStore {core ha : Nat} {pol : Policy} {bs : List Byte} (h : Kept s₀ s) : Kept s₀ (hostStore s core ha pol bs) := by
  unfold Machine.hostStore
  extract_lets hl rest t u v w
  have ht : Kept s₀ t := .ite (.ite h h.hostRecall) (.ite h.modCore h.hostFill)
  have hu : Kept s₀ u := .ite ht (ht.forEach fun h1 => by
    split
    · exact h1.update id (mputNat_wf 4 _ _ _) id
    · exact h1)
  have hv : Kept s₀ v := hu.update id (mputBytes_wf bs _ _) id
  have hw : Kept s₀ w := hv.forEach fun h1 => by
    dsimp only
    split
    · exact h1
    · exact .ite h1.l1Drop h1.l1Set
  exact hw.fireCore

theorem hostAtomic {core ha : Nat} {bs : List Byte} (h : Kept s₀ s) : Kept s₀ (hostAtomic s core ha bs) :=
  .ite (h.hostFill.update id (mputBytes_wf bs _ _) id) (h.hostFill.forEach fun h1 => h1.l1Write)

theorem peerStore {core op peer off : Nat} {bs : List Byte} (h : Kept s₀ s) : Kept s₀ (peerStore s core op peer off bs) := h.frame

theorem peerOp {o : LsuOp} {lane peer off : Nat} {p : DWord} (h : Kept s₀ s) : Kept s₀ (peerOp s o lane peer off p).1 := h.newId.modCore.pair

theorem accessNow {o : LsuOp} {lane : Nat} {p : DWord} {size : Nat} {loc : Loc} {x y : Nat} (h : Kept s₀ s) :
    Kept s₀ (accessNow s o lane p size loc x y).1 := by
  unfold Machine.accessNow
  extract_lets +onlyGivenNames g core write bad first s
  split
  · exact h.count
  · extract_lets +onlyGivenNames t
    have ht : Kept s₀ t := by
      unfold t
      split
      · exact .ite h.count.spadOpen h.count
      · exact h.count
    split
    · exact ht
    · extract_lets +onlyGivenNames u
      have hu : Kept s₀ u := by
        unfold u
        split
        · exact .ite ht ht.hostFill
        · exact ht.peerOp
        · exact ht
      exact hu.deliverLoad
    · split
      · exact ht.peerOp.peerStore
      · exact ht.hostStore
      · exact ht.writeLoc
    · extract_lets +onlyGivenNames r old
      split
      · exact .ite ht.count ht.deliverAtom
      · extract_lets +onlyGivenNames n v
        have hv : Kept s₀ v := by
          unfold v
          split
          · exact ht.hostAtomic
          · exact ht.writeLoc
        exact hv.deliverAtom
    · extract_lets +onlyGivenNames r old
      split
      · exact .ite ht.count ht.deliverAtom
      · extract_lets +onlyGivenNames n w
        have hw : Kept s₀ w := by
          unfold w
          split
          · exact ht.hostAtomic
          · exact ht.writeLoc
        exact hw.deliverAtom

theorem acceptOp {o : LsuOp} (h : Kept s₀ s) : Kept s₀ (acceptOp s o).1 := h.newId.modCore.pair

theorem unhold {core id : Nat} (h : Kept s₀ s) : Kept s₀ (unhold s core id).1 := by
  unfold Machine.unhold
  split
  · exact h
  · extract_lets s left waits
    split
    · exact h.modOp.completeOp
    · exact h.modOp

theorem openResult {g la : Nat} {dests : List Dest} {lanes : LaneMask} (h : Kept s₀ s) : Kept s₀ (openResult s g la dests lanes).1 := by
  unfold Machine.openResult
  split
  · exact h
  · exact h.newId.modWarp

theorem splitResult {g rid : Nat} {hit : LaneMask} (h : Kept s₀ s) : Kept s₀ (splitResult s g rid hit) := h.newId.modWarp

theorem runAccesses {c : Ctx} {o : LsuOp} {dests : List Dest} {la : Nat} {split : Bool} {lanes : LaneMask} {req : Nat → LaneReq} (h : Kept s₀ s) :
    Kept s₀ (runAccesses s c o dests la split lanes req).1 := by
  unfold Machine.runAccesses
  extract_lets +onlyGivenNames g core gos stops go
  split
  · exact h.pair
  · extract_lets +onlyGivenNames regions region s rs o hits devs im t peers s u s raced traps trapped v s w waits waiting all missed done
      hit late x
    have ht : Kept s₀ t.1 := (((Kept.ite h.releaseAct h).openResult).pair.foldlFst (fun h3 => by
      split
      · exact h3.accessNow.pair
      · split
        · exact h3.resultData
        · exact h3
      · exact h3)).pair.foldlFst (fun h4 => h4.acceptOp.pair)
    have hu : Kept s₀ u.1 := (Kept.pump (.ite ht.nextDraw ht)).pair.foldlFst (fun h6 => h6.unhold.pair)
    have hv : Kept s₀ v := by
      unfold v
      split
      · exact hu.modWarp
      · exact hu
    have hw : Kept s₀ w := (Kept.ite hv.acquireAct hv).resultDone
    have hx : Kept s₀ x := by
      unfold x
      split
      · exact .ite hw hw.splitResult
      · exact hw
    exact hx.pair

theorem memberAccess {lin : Nat} {o : LsuOp} {a : LaneAcc} (h : Kept s₀ s) : Kept s₀ (memberAccess s lin o a).1 := by
  unfold Machine.memberAccess
  dsimp only
  split
  · split
    · exact h
    · split
      · exact h
      · dsimp only
        split
        · exact h.frame
        · exact h.frame.modWarp
  · split
    · split
      · exact h
      · dsimp only
        split
        · exact h.frame
        · exact h.frame.modWarp
    · split
      · exact h
      · dsimp only
        split
        · exact h.accessNow.modOp
        · exact h.accessNow

theorem runMember {core id : Nat} (h : Kept s₀ s) : Kept s₀ (runMember s core id) := by
  unfold Machine.runMember
  split
  · exact h
  · split
    · extract_lets t
      have ht : Kept s₀ t.1 := h.foldlFst (fun h1 => h1.memberAccess)
      exact .ite ht.modOp.finishPart ht.modOp
    · exact h

theorem runMembers (h : Kept s₀ s) : Kept s₀ (runMembers s) := h.forEach fun h1 => h1.runMember

theorem execAbsentLineRelease {warp entry : Nat} (h : Kept s₀ s) : KeptNext s₀ (execAbsentLineRelease warp entry s) := by
  unfold Machine.execAbsentLineRelease
  split
  · exact h.runMember
  · split
    · split
      · exact h.modWarp.takeTraps
      · exact .ite h h.modWarp
    · exact h

theorem execLd {f : MemF} {la : Nat} {split : Bool} {d : Nat} (h : Kept s₀ s) : KeptNext s₀ (execLd f la split d s) := h.issueLane fun h1 => by
  split
  · exact h1
  · exact h1.runAccesses

theorem execSt {f : MemF} {data : Nat} {dataLu : Bool} (h : Kept s₀ s) : KeptNext s₀ (execSt f data dataLu s) := h.issueLane fun h1 => by
  split
  · exact h1
  · exact h1.runAccesses

theorem prefetch {c : Ctx} {w : Warp} {f : MemF} (h : Kept s₀ s) : Kept s₀ (prefetch s c w f) :=
  ((Kept.ite h (h.forEach (fun h1 => .ite h1 h1.hostFill))).forEach (fun h2 => h2.newId.modCore)).pump

theorem execPref {f : MemF} (h : Kept s₀ s) : KeptNext s₀ (execPref f s) := h.issueLane fun h1 => by
  split
  · exact h1
  · exact h1.prefetch

theorem atomAccesses {c : Ctx} {f : AtomF} {kind : OpKind} {dests : List Dest} {la : Nat} (h : Kept s₀ s) :
    Kept s₀ (atomAccesses s c f kind dests la).1 := by
  unfold Machine.atomAccesses
  split
  · exact h
  · split
    · exact h
    · exact h.runAccesses

theorem execAtom {f : AtomF} {la status d : Nat} (h : Kept s₀ s) : KeptNext s₀ (execAtom f la status d s) :=
  h.issueLane fun h1 => h1.atomAccesses

theorem execRed {f : AtomF} (h : Kept s₀ s) : KeptNext s₀ (execRed f s) := h.issueLane fun h1 => h1.atomAccesses

theorem plainRead {g lane : Nat} {p : DWord} {n : Nat} (h : Kept s₀ s) : Kept s₀ (plainRead s g lane p n).1 := by
  unfold Machine.plainRead
  split
  · exact h
  · exact h
  · extract_lets +onlyGivenNames det core pol span bad gone
    clear_value det core pol span bad gone
    split
    · exact h
    · extract_lets +onlyGivenNames t
      have ht : Kept s₀ t := h.count
      split
      · exact ht
      · extract_lets +onlyGivenNames u
        have hu : Kept s₀ u := by
          unfold u
          split
          · exact ht.spadOpen
          · exact ht.forEach (fun h2 => h2.openWord)
          · exact ht
        split
        · extract_lets +onlyGivenNames vline v
          clear_value vline
          have hv : Kept s₀ v.1 := hu.foldlFst (fun h3 => by
            extract_lets +onlyGivenNames w
            have hw : Kept s₀ w.1 := h3.loadNow
            exact hw)
          exact hv
        · exact hu

theorem streamReq {c : Ctx} {lane off i : Nat} {poison : Bool} {reg : Nat} {load : Bool} {data : Nat → Nat × Bool} (h : Kept s₀ s) :
    Kept s₀ (streamReq s c lane off i poison reg load data).1 := by
  unfold Machine.streamReq
  split
  · exact h
  · extract_lets w b size x bad t u n v r
    have ht : Kept s₀ t := h.count
    clear_value t
    have hu : Kept s₀ u := ht.spadOpen
    clear_value u
    have hr : Kept s₀ r.1 := hu.plainRead
    clear_value r v n bad x size b
    split
    · exact h
    · split
      · exact h
      · split
        · exact h
        · split
          · exact ht
          · split
            · exact hu
            · split
              · exact hu
              · split
                · exact hu
                · split
                  · exact hu
                  · split
                    · obtain ⟨r, f | ⟨bs, _ | _⟩⟩ := r
                      all_goals exact hr
                    · exact hu

theorem streamReqs {c : Ctx} {w : Warp} {a b : Src} {reg : Nat} {load : Bool} (h : Kept s₀ s) :
    Kept s₀ (streamReqs s c w a b reg load).1 := h.nextDraw.foldlFst fun h1 => h1.streamReq

theorem execLds {g : Guard} {la : Nat} {pol : Policy} {cls : CacheClass} {d : Nat} {a b : Src} (h : Kept s₀ s) :
    KeptNext s₀ (execLds g la pol cls d a b s) := h.issueLane fun h1 => by
  split
  · exact h1
  · exact h1.streamReqs.runAccesses

theorem execSst {g : Guard} {pol : Policy} {cls : CacheClass} {a b c : Src} (h : Kept s₀ s) : KeptNext s₀ (execSst g pol cls a b c s) :=
  h.issueLane fun h1 => by
  split
  · exact h1
  · exact h1.streamReqs.runAccesses

theorem uldFinish {lim : Nat} {c : Ctx} {d la : Nat} {r : State × Fates} (h : Kept s₀ r.1) : Kept s₀ (uldFinish lim c d la r).1 := by
  unfold Machine.uldFinish
  extract_lets +onlyGivenNames lanesOfOp t
  split
  · extract_lets +onlyGivenNames widen u res
    have hu : Kept s₀ u := h.modCore.modWarp
    split
    · exact hu.modWarp
    · exact hu
  · exact h.modCore.modWarp

theorem execUld {f : UldF} {d : Nat} (h : Kept s₀ s) : KeptNext s₀ (execUld f d s) := h.issueUni fun h1 => by
  split
  · exact h1
  · exact h1.runAccesses.uldFinish

theorem execSdef {g : Guard} {a b cc : Nat} (h : Kept s₀ s) : KeptNext s₀ (execSdef g a b cc s) := h.issueUni fun h1 => by
  split
  · extract_lets +onlyGivenNames p base off
    split
    · exact h1.trapAll
    · split
      · exact h1.trapAll
      · extract_lets +onlyGivenNames r
        split
        · exact h1.plainRead
        · extract_lets +onlyGivenNames s okBase
          split
          · exact h1.plainRead.trapAll
          · split
            · exact h1.plainRead.trapAll
            · split
              · exact h1.plainRead.trapAll
              · split
                · exact h1.plainRead
                · extract_lets +onlyGivenNames bad s
                  split
                  · exact h1.plainRead.count.trapAll
                  · exact h1.plainRead.count.spadOpen.spadWrite
  · exact h1

theorem execFence {g : Guard} {ord : Order} {scope : Scope} (h : Kept s₀ s) : KeptNext s₀ (execFence g ord scope s) :=
  h.issueUni fun h1 => by
  extract_lets t
  have ht : Kept s₀ t := .ite h1.releaseAct h1
  exact .ite ht.acquireAct ht

theorem discard {sc : TScope} {core asid : Nat} {hit : TlbEntry → Bool} (h : Kept s₀ s) : Kept s₀ (discard s sc core asid hit) := h.frame

theorem execTfence {g : Guard} {sc : TScope} (h : Kept s₀ s) : KeptNext s₀ (execTfence g sc s) := h.issueUni fun h1 => h1

theorem execTfenceRange {g : Guard} {sc : TScope} {a b : Nat} (h : Kept s₀ s) : KeptNext s₀ (execTfenceRange g sc a b s) :=
  h.issueUni fun h1 => by
  split
  · exact h1
  · extract_lets p n
    split
    · exact h1.trapAll
    · exact h1.discard

theorem execTfenceAll {g : Guard} {sc : TScope} (h : Kept s₀ s) : KeptNext s₀ (execTfenceAll g sc s) := h.issueUni fun h1 => h1.discard

theorem execBind {g : Guard} {size base start len : Nat} (h : Kept s₀ s) : KeptNext s₀ (execBind g size base start len s) :=
  h.issueUni fun h1 => by
  split
  · exact h1.pair
  · extract_lets +onlyGivenNames p a n
    split
    · exact h1.trapAll
    · split
      · exact h1.trapAll
      · extract_lets +onlyGivenNames core rest
        split
        · exact h1.modCore.pair
        · exact h1.count.pair

theorem execUnbind {g : Guard} {size base : Nat} (h : Kept s₀ s) : KeptNext s₀ (execUnbind g size base s) := h.issueUni fun h1 => by
  split
  · exact h1.pair
  · exact h1.modCore.pair

theorem ipfLine {g : Nat} {first : ℤ} {i : Nat} (h : Kept s₀ s) : Kept s₀ (ipfLine g first s i) := by
  unfold Machine.ipfLine
  extract_lets vl
  split
  · exact h.putLine
  · exact h

theorem execIpf {g : Guard} {a : Nat} {d : ℤ} {n : Nat} (h : Kept s₀ s) : KeptNext s₀ (execIpf g a d n s) := h.issueUni fun h1 => by
  split
  · exact h1
  · exact h1.forEach fun h2 => h2.ipfLine

theorem execTranslationWalk {core asid va : Nat} (h : Kept s₀ s) : KeptNext s₀ (execTranslationWalk core asid va s) := by
  unfold Machine.execTranslationWalk
  extract_lets +onlyGivenNames z ws
  split
  · exact h.homeAsk
  · extract_lets +onlyGivenNames s
    split
    · exact h.homeTaken
    · exact h.homeTaken.frame

/-! ### Synchronization -/

theorem arrive {b : Nat} {w : Warp} {bar : Nat} {m : LaneMask} {cnt : Option Nat} {op : Option BarOp} {x : DWord} {drop : Bool} (h : Kept s₀ s) :
    Kept s₀ (arrive s b w bar m cnt op x drop) := h.modBlock.barContrib.barTest

theorem vacant {g bar : Nat} (h : Kept s₀ s) : Kept s₀ (vacant s g bar) := by
  unfold Machine.vacant
  split
  · exact .ite h.barComplete h
  · exact h

theorem waitPhase {g : Nat} {m : LaneMask} {bar phase : Nat} {qd sd : Option Nat} (h : Kept s₀ s) :
    Kept s₀ (waitPhase s g m bar phase qd sd).1 := by
  unfold Machine.waitPhase
  split
  · exact h
  · extract_lets t
    have ht : Kept s₀ t := .ite h.vacant h
    split
    · exact ht
    · exact ht.modWarp

theorem syncArrive {c : Ctx} {m : LaneMask} {bar : Nat} {cnt : Option Nat} {op : Option BarOp} {x : DWord} {qd sd : Option Nat} (h : Kept s₀ s) :
    Kept s₀ (syncArrive s c m bar cnt op x qd sd).1 := by
  unfold Machine.syncArrive
  split
  · extract_lets ks back rest used s t
    have ht : Kept s₀ t.1 := h.modWarp.foldlFst (fun h2 => h2.waitPhase)
    split
    · exact ht
    · split
      · exact ht
      · exact ht.modWarp.arrive.waitPhase
  · exact h

theorem outsideOnly {c : Ctx} {f : State → LaneMask → State × Fates} (h : Kept s₀ s) (hf : ∀ {s x1}, Kept s₀ s → Kept s₀ (f s x1).1) :
    Kept s₀ (outsideOnly s c f).1 := by
  unfold Machine.outsideOnly
  extract_lets i
  split
  · exact h
  · exact hf h

theorem execBarSync {g : Guard} {q bar a : Nat} (h : Kept s₀ s) : KeptNext s₀ (execBarSync g q bar a s) :=
  h.issueUni fun h1 => h1.outsideOnly fun h2 => by
  split
  · exact h2.syncArrive
  · exact h2

theorem execBarArrive {g : Guard} {q bar a : Nat} (h : Kept s₀ s) : KeptNext s₀ (execBarArrive g q bar a s) := h.issueUni fun h1 => by
  split
  · split
    · exact h1.trapAll
    · exact h1.modWarp.arrive.modWarp
  · exact h1

theorem execBarWait {g : Guard} {q bar : Nat} (h : Kept s₀ s) : KeptNext s₀ (execBarWait g q bar s) :=
  h.issueUni fun h1 => h1.outsideOnly fun h2 => by
  split
  · exact h2.waitPhase
  · exact h2

theorem execBarp {g : Guard} {op : BarOp} {d bar b a : Nat} (h : Kept s₀ s) : KeptNext s₀ (execBarp g op d bar b a s) :=
  h.issueUni fun h1 => h1.outsideOnly fun h2 => by
  split
  · exact h2.syncArrive
  · exact h2

theorem execBardrop {g : Guard} {bar : Nat} (h : Kept s₀ s) : KeptNext s₀ (execBardrop g bar s) := h.issueUni fun h1 => by
  split
  · split
    · exact h1.trapAll
    · exact h1.modWarp.arrive
  · exact h1

theorem onObject {c : Ctx} {p : DWord} {n : Nat} {k : AccKind} {ok : Nat → Bool} {f : Loc → State × Fates} (h : Kept s₀ s)
    (hf : ∀ {x0}, Kept s₀ (f x0).1) : Kept s₀ (onObject s c p n k ok f).1 := by
  unfold Machine.onObject
  split
  · exact h
  · exact hf

theorem registerWords {core line : Nat} {ws : BitVec 32} (h : Kept s₀ s) : Kept s₀ (registerWords s core line ws) := by
  unfold Machine.registerWords
  exact (h.l1Room.forEach (fun h1 => by
  extract_lets t
  have ht : Kept s₀ t := h1.fillSector
  split
  · exact .ite ht ht.forwardNow
  · split
    · exact ht
    · exact ht.l1Set)).modDir

theorem watch {g : Nat} {x : Loc} {n : Nat} (h : Kept s₀ s) : Kept s₀ (watch s g x n) := by
  unfold Machine.watch
  split
  · exact h.registerWords
  · exact h

theorem trapParked {g : Nat} {e : Entry} {t : TrapInfo} (h : Kept s₀ s) : Kept s₀ (trapParked s g e t) := h.modWarp.takeTraps

theorem releaseWith {g eid : Nat} {sd : Option (Nat × DWord)} {qd : Option (Nat × Bool)} (h : Kept s₀ s) :
    Kept s₀ (releaseWith s g eid sd qd) := h.modWarp

theorem arrivecAct {c : Ctx} {w : Warp} {ord : Order} {scope : Scope} {base opb : Nat} {x : Loc} (h : Kept s₀ s) :
    Kept s₀ (arrivecAct s c w ord scope base opb x) := by
  unfold Machine.arrivecAct
  extract_lets region cnt s t
  have ht : Kept s₀ t := (Kept.ite h.releaseAct h).writeLoc
  exact .ite ht.acquireAct ht

theorem execArrivec {g : Guard} {ord : Order} {scope : Scope} {base opb q : Nat} (h : Kept s₀ s) :
    KeptNext s₀ (execArrivec g ord scope base opb q s) := h.issueUni fun h1 => by
  split
  · exact h1
  · exact h1.onObject fun {_} => by
      split
      · exact h1.trapAll
      · split
        · exact h1.trapAll
        · extract_lets cnt t region u
          have hu : Kept s₀ u := h1.arrivecAct
          split
          · exact hu.modWarp
          · split
            · split
              · exact hu.acquireAct.modWarp
              · exact hu.watch
            · exact hu.modWarp

theorem execCwait {g : Guard} {useTarget acq : Bool} {scope : Scope} {base opb : Nat} (h : Kept s₀ s) :
    KeptNext s₀ (execCwait g useTarget acq scope base opb s) := h.issueUni fun h1 => by
  split
  · exact h1
  · exact h1.onObject fun {_} => by
      split
      · exact h1.trapAll
      · extract_lets thr
        split
        · exact .ite h1.acquireAct h1
        · exact h1.watch

theorem execCwaitb {g : Guard} {acq : Bool} {scope : Scope} {base opb : Nat} (h : Kept s₀ s) :
    KeptNext s₀ (execCwaitb g acq scope base opb s) := h.issueUni fun h1 => by
  split
  · exact h1
  · exact h1.onObject fun {_} => by
      extract_lets ph
      split
      · exact h1.trapAll
      · split
        · exact .ite h1.acquireAct h1
        · exact h1

theorem againOpen {core : Nat} {ws : List Nat} {f : State → State} (h : Kept s₀ s) (hf : ∀ {s}, Kept s₀ s → Kept s₀ (f s)) :
    Kept s₀ (againOpen s core ws f) := .ite (hf (.ite h h.aluTaken)) h.homeAsk

theorem countAgain {g : Nat} {e : Entry} (h : Kept s₀ s) : Kept s₀ (countAgain s g e) := by
  unfold Machine.countAgain
  split
  · split
    · exact h.trapParked
    · split
      · exact h.trapParked
      · exact .ite (.releaseWith (.ite h.acquireAct h)) h.watch
  · split
    · exact h.trapParked
    · exact .ite h.trapParked (.ite (.releaseWith (.ite h.acquireAct h)) h)
  · split
    · exact h.trapParked
    · split
      · exact h.trapParked
      · exact .ite h.acquireAct.releaseWith h.watch
  · exact h

theorem execCwaitRetest {warp entry : Nat} (h : Kept s₀ s) : KeptNext s₀ (execCwaitRetest warp entry s) := by
  unfold Machine.execCwaitRetest
  split
  · exact h
  · exact h.againOpen fun h1 => h1.countAgain

theorem execArrivecRankRelease {warp entry : Nat} (h : Kept s₀ s) : KeptNext s₀ (execArrivecRankRelease warp entry s) := by
  unfold Machine.execArrivecRankRelease
  split
  · exact h
  · exact h.againOpen fun h1 => h1.countAgain

theorem unlessDet {c : Ctx} {f : State → State × Fates} (h : Kept s₀ s) (hf : ∀ {s}, Kept s₀ s → Kept s₀ (f s).1) :
    Kept s₀ (unlessDet s c f).1 := by
  unfold Machine.unlessDet
  split
  · exact h.trapAll
  · exact hf h

theorem execMonitor {g : Guard} {base : Nat} (h : Kept s₀ s) : KeptNext s₀ (execMonitor g base s) :=
  h.issueUni fun h1 => h1.unlessDet fun h2 => by
  split
  · exact h2
  · exact h2.onObject fun {_} => by
      extract_lets arm
      split
      · exact h2.modWarp
      · exact h2.modWarp
      · exact h2

theorem execMonitorRegistered {warp entry : Nat} (h : Kept s₀ s) : KeptNext s₀ (execMonitorRegistered warp entry s) := by
  unfold Machine.execMonitorRegistered
  split
  · exact h
  · split
    · exact .ite h.homeAsk h.homeTaken.registerWords.releaseWith
    · exact h

theorem execMwait {g : Guard} (h : Kept s₀ s) : KeptNext s₀ (execMwait g s) := h.issueUni fun h1 => h1.unlessDet fun h2 => by
  split
  · exact h2
  · split
    · exact h2
    · exact h2.modWarp

theorem putWaiters {core : Nat} {x : Loc} {l : List (Nat × Nat)} (h : Kept s₀ s) : Kept s₀ (putWaiters s core x l) := by
  unfold Machine.putWaiters
  extract_lets s t
  have ht : Kept s₀ t := h.frame.writeLoc
  exact ht.frame.writeLoc

theorem pushStep {g : Nat} {slot : DWord} {i : Nat} {item : DWord} {t : State} (h : Kept s₀ s) (e : pushStep s g slot i item = .ok (some t)) :
    Kept s₀ t := by
  unfold Machine.pushStep at e
  split at e
  · cases e
  · split at e
    · cases e
    · dsimp only at e
      split at e
      · cases e
      · split at e
        · obtain rfl := Option.some.inj (Except.ok.inj e)
          exact h.aluTaken.writeLoc
        · cases e

theorem popStep {g : Nat} {slot : DWord} {i cap : Nat} {r : State × DWord} (h : Kept s₀ s) (e : popStep s g slot i cap = .ok (some r)) :
    Kept s₀ r.1 := by
  unfold Machine.popStep at e
  split at e
  · cases e
  · split at e
    · cases e
    · dsimp only at e
      split at e
      · cases e
      · split at e
        · split at e
          · cases e
          · obtain rfl := Option.some.inj (Except.ok.inj e)
            exact h.aluTaken.writeLoc.acquireAct.pair
        · cases e

theorem handOff {core : Nat} {x : Loc} {item : DWord} {l : List (Nat × Nat)} {t : State} (h : Kept s₀ s) (e : handOff s core x item l = some t) :
    Kept s₀ t := by
  induction l with
  | nil => cases e
  | cons a r ih =>
    unfold Machine.handOff at e
    dsimp only at e
    split at e
    · split at e
      · obtain rfl := Option.some.inj e
        exact h.putWaiters.releaseWith.acquireAct
      · cases e
    · exact ih e

theorem onQueue {c : Ctx} {p : DWord} {f : Loc → QueueHdr → State × Fates} (h : Kept s₀ s) (hf : ∀ {x0 x1}, Kept s₀ (f x0 x1).1) :
    Kept s₀ (onQueue s c p f).1 := by
  unfold Machine.onQueue
  exact h.onObject fun {_} => by
    split
    · exact h.trapAll
    · exact h.trapAll
    · dsimp only
      split
      · exact hf
      · exact h.trapAll

theorem execQpush {g : Guard} {base opb q : Nat} (h : Kept s₀ s) : KeptNext s₀ (execQpush g base opb q s) := by
  unfold Machine.execQpush
  exact h.issueUni fun h1 => h1.unlessDet fun h2 => by
    split
    · exact h2.pair
    · exact h2.onQueue fun {_ _} => by
        extract_lets t u
        have ht : Kept s₀ t := h2.releaseAct
        have hu : Kept s₀ u := ht.writeLoc
        clear_value u t
        split
        · next hv =>
            split at hv
            · exact (ht.handOff hv).modWarp.pair
            · cases hv
        · split
          · split
            · exact hu.trapAll
            · next hv => exact (hu.pushStep hv).modWarp.pair
            · exact hu.pair
          · exact ht.modWarp.pair

theorem execQpop {g : Guard} {d base q : Nat} (h : Kept s₀ s) : KeptNext s₀ (execQpop g d base q s) := by
  unfold Machine.execQpop
  exact h.issueUni fun h1 => h1.unlessDet fun h2 => by
    split
    · exact h2.pair
    · exact h2.onQueue fun {_ _} => by
        extract_lets t n u
        have ht : Kept s₀ t := h2.writeLoc
        have hn : Kept s₀ n.1 := h2.newId
        have hu : Kept s₀ u := hn.putWaiters
        clear_value t u n
        split
        · split
          · exact ht.trapAll
          · next hv => exact (ht.popStep hv).modWarp.pair
          · exact ht.pair
        · split
          · exact hu.pair
          · exact h2.modWarp.pair

theorem slotAsk {g : Nat} {slot : DWord} (h : Kept s₀ s) : Kept s₀ (slotAsk s g slot) := by
  unfold Machine.slotAsk
  split
  · exact h.homeAsk
  · exact h

theorem execQueueSlotStep {warp entry : Nat} (h : Kept s₀ s) : KeptNext s₀ (execQueueSlotStep warp entry s) := by
  unfold Machine.execQueueSlotStep
  split
  · exact h
  · split
    · split
      · exact h.trapParked
      · next ht => exact (h.pushStep ht).releaseWith
      · exact h.slotAsk
    · split
      · exact h.trapParked
      · next hr => exact (h.popStep hr).releaseWith
      · exact h.slotAsk
    · exact h

theorem fulfilActs {core : Nat} {x : Loc} (h : Kept s₀ s) : Kept s₀ (fulfilActs s core x) := by
  unfold Machine.fulfilActs
  split
  · exact h.forEach (fun h1 => h1.invNow)
  · exact h.frame
  · exact h

theorem execFulfil {g : Guard} {base opb q : Nat} (h : Kept s₀ s) : KeptNext s₀ (execFulfil g base opb q s) :=
  h.issueUni fun h1 => h1.unlessDet fun h2 => by
  split
  · exact h2
  · exact h2.onObject fun {_} => by
      split
      · exact h2.trapAll
      · extract_lets t
        have ht : Kept s₀ t := h2.releaseAct.fulfilActs
        split
        · exact ht.writeLoc.modWarp
        · exact ht.modWarp

theorem execPark {g : Guard} {d base q : Nat} (h : Kept s₀ s) : KeptNext s₀ (execPark g d base q s) :=
  h.issueUni fun h1 => h1.unlessDet fun h2 => by
  split
  · exact h2.pair
  · exact h2.onObject fun {_} => by
      extract_lets +onlyGivenNames s
      split
      · exact h2.watch.trapAll
      · split
        · split
          · exact h2.watch.trapAll
          · exact h2.watch.acquireAct.modWarp.pair
        · extract_lets +onlyGivenNames core
          split
          · exact h2.watch.pair
          · split
            · exact h2.watch.modCore.pair
            · exact h2.watch.count.modWarp.pair

theorem parkAgain {x : Nat × Entry} (h : Kept s₀ s) : Kept s₀ (parkAgain s x) := by
  unfold Machine.parkAgain
  split
  · split
    · exact h.trapParked
    · split
      · exact h.trapParked
      · split
        · split
          · exact h.trapParked
          · exact h.releaseWith.acquireAct
        · exact h.watch
  · exact h

theorem execParkRetest {core addr : Nat} (h : Kept s₀ s) : KeptNext s₀ (execParkRetest core addr s) :=
  h.againOpen fun h1 => .stallTidy (h1.forEach (fun h2 => h2.parkAgain))

theorem retestAsks (h : Kept s₀ s) : Kept s₀ (State.retestAsks s) := h.forEach fun h1 => h1.homeAsk

theorem retest {r : Nat × MonLine} (h : Kept s₀ s) : Kept s₀ (State.retest s r) := by
  unfold State.retest
  extract_lets s
  split
  · exact h.frame
  · exact (h.frame.aluTaken.forEach (fun h3 => by
      split
      · exact h3
      · exact .ite h3.countAgain.parkAgain h3)).stallTidy

theorem execSleepWake {warp entry : Nat} (h : Kept s₀ s) : KeptNext s₀ (execSleepWake warp entry s) := by
  unfold Machine.execSleepWake
  split
  · exact h
  · split
    · exact .ite h.releaseWith h
    · exact h

/-! ### Uniform instructions -/

theorem uniOp {g : Guard} {o : Opnds} {f : State → Ctx → Warp → Warp} (h : Kept s₀ s) : KeptNext s₀ (uniOp s g o f) :=
  h.issueUni fun h1 => h1.modWarp

theorem execV2s {g : Guard} {mode : Nat} {w64 : Bool} {d : Nat} {a : Src} {b : Nat} (h : Kept s₀ s) :
    KeptNext s₀ (execV2s g mode w64 d a b s) := h.issueUni fun h1 => by
  split
  · exact h1
  · extract_lets +onlyGivenNames k x uneven
    split
    · exact h1.trapAll
    · extract_lets +onlyGivenNames t
      have ht : Kept s₀ t := .ite h1.count h1
      split
      · exact ht.trapAll
      · exact ht.modWarp

theorem execTshape {g : Guard} {n a : Nat} (h : Kept s₀ s) : KeptNext s₀ (execTshape g n a s) := h.issueUni fun h1 => by
  split
  · exact h1.pair
  · extract_lets x
    split
    · exact h1.trapAll
    · split
      · exact h1.trapAll
      · exact h1.modCore.pair

/-! ### The copy engine -/

theorem acceptCopy {core : Nat} {c : Cmd} {k : CopyKind} {r : CopyReq} (h : Kept s₀ s) : Kept s₀ (acceptCopy s core c k r) := by
  unfold Machine.acceptCopy
  exact (h.foldlFst (fun h1 => by
  split
  · exact h1
  · exact h1.lineAbsent)).modCore

theorem postCopy {g : Guard} {k : CopyKind} {a : Nat} (h : Kept s₀ s) : KeptNext s₀ (postCopy s g k a) := h.issueUni fun h1 => by
  split
  · exact h1.onObject fun {_} => by
        extract_lets +onlyGivenNames r
        split
        · exact h1.trapAll
        · split
          · exact h1.trapAll
          · extract_lets +onlyGivenNames feet t
            have ht : Kept s₀ t := h1.releaseAct
            split
            · exact ht
            · exact ht.newId.nameGuards.noteCmd.acceptCopy
  · exact h1

theorem openCmd {core id : Nat} {ws : List Nat} {write : Bool} (h : Kept s₀ s) : Kept s₀ (openCmd s core id ws write).1 := by
  unfold Machine.openCmd
  extract_lets agent raced t
  have ht : Kept s₀ t := h.forEach (fun h1 => h1.modDir)
  exact .modCmd (.ite ht.count ht)

/-- A step of a unit that succeeds is made of two that succeed. -/
theorem unitRes_bind_ok {α β : Type} {x : UnitRes α} {f : α → UnitRes β} {b : β} (e : x.bind f = .ok b) : ∃ a, x = .ok a ∧ f a = .ok b := by
  cases x with
  | ok a => exact ⟨a, rfl, e⟩
  | fault => cases e
  | wait => cases e

theorem cmdRead {core : Nat} {c : Cmd} {det : Bool} {p : DWord} {n : Nat} {z : State × List Byte} (h : Kept s₀ s)
    (e : cmdRead s core c det p n = .ok z) : Kept s₀ z.1 := by
  unfold Machine.cmdRead at e
  obtain ⟨xs, -, e⟩ := unitRes_bind_ok e
  extract_lets ps t vs y raced held byte at e
  have ht : Kept s₀ t := h.forEach fun h1 => h1.forwardNow
  have hy : Kept s₀ y.1 := ht.openCmd
  clear_value y raced vs held byte t
  split at e
  · cases e
  · split at e
    · cases e
    · obtain rfl := UnitRes.ok.inj e
      exact hy.modCmd.nextDraw.pair

theorem cmdWrite {core : Nat} {c : Cmd} {det : Bool} {p : DWord} {bs : List Byte} {red : Option Nat} {t : State} (h : Kept s₀ s)
    (e : cmdWrite s core c det p bs red = .ok t) : Kept s₀ t := by
  unfold Machine.cmdWrite at e
  obtain ⟨xs, -, e⟩ := unitRes_bind_ok e
  extract_lets z es u v n w at e
  have hz : Kept s₀ z.1 := by
    unfold z
    split
    · exact h.pair
    · exact h.openCmd
  have hu : Kept s₀ u := hz.forEach fun h1 => h1.recallNow.homeMerge.invNow
  have hv : Kept s₀ v := hu.forEach fun h1 => by
    split
    · exact h1.modCore
    · exact h1.hostWrite
    · exact h1.spadWrite
    · exact h1
  have hn : Kept s₀ n.1 := hv.newId
  have hw : Kept s₀ w := hn.frame
  clear_value w n v u z
  split at e
  · cases e
  · split at e
    · obtain rfl := UnitRes.ok.inj e
      exact hw.frame.modCmd
    · obtain rfl := UnitRes.ok.inj e
      exact hv

theorem putUnit {core : Nat} {c : Cmd} {det : Bool} {k : CopyKind} {r : CopyReq} {p : DWord} {bs : List Byte} {t : State} (h : Kept s₀ s)
    (e : putUnit s core c det k r p bs = .ok t) : Kept s₀ t := by
  unfold Machine.putUnit at e
  split at e
  · obtain ⟨old, -, e⟩ := unitRes_bind_ok e
    split at e
    · exact h.cmdWrite e
    · exact h.cmdWrite e
  · exact h.cmdWrite e

theorem unitData {core : Nat} {c : Cmd} {det : Bool} {r : CopyReq} {i : Nat} {z : State × List Byte} (h : Kept s₀ s)
    (e : unitData s core c det r i = .ok z) : Kept s₀ z.1 := by
  obtain ⟨y, hy, e⟩ := unitRes_bind_ok e
  obtain rfl := UnitRes.ok.inj e
  exact (h.cmdRead hy).pair

theorem copyUnit {core : Nat} {c : Cmd} {det : Bool} {k : CopyKind} {r : CopyReq} {t : State} (h : Kept s₀ s)
    (e : copyUnit s core c det k r = .ok t) : Kept s₀ t := by
  obtain ⟨_, -, e⟩ := unitRes_bind_ok e
  obtain ⟨z, hz, e⟩ := unitRes_bind_ok e
  exact (h.unitData hz).putUnit e

theorem unitTaken {core : Nat} {c : Cmd} {k : CopyKind} {r : CopyReq} {rs ws : List Nat} (h : Kept s₀ s) :
    Kept s₀ (unitTaken s core c k r rs ws).2 := by
  unfold Machine.unitTaken
  extract_lets agent whole
  split
  · exact h.homeTaken
  · exact h.homeAsk.homeAsk

theorem unitWritten {c : Cmd} {r : CopyReq} {i : Nat} {n : Option Nat} (h : Kept s₀ s) : Kept s₀ (unitWritten s c r i n) := by
  unfold Machine.unitWritten
  extract_lets at_ t u
  have ht : Kept s₀ t := h.forEach (fun h1 => .ite h1 h1.linePresent)
  have hu : Kept s₀ u := by
    unfold u
    split
    · exact ht.countRelease
    · exact ht
  split
  · exact hu.countRelease
  · exact hu

theorem copyEnds {core id : Nat} (h : Kept s₀ s) : Kept s₀ (copyEnds s core id) := by
  unfold Machine.copyEnds
  split
  · exact .ite h.endCmd.blockExitTest h
  · exact h

theorem advanceCopy {core : Nat} {c : Cmd} {r : CopyReq} (h : Kept s₀ s) : Kept s₀ (advanceCopy s core c r) := h.unitWritten.modCmd.copyEnds

theorem leastMark {core id : Nat} {r : CopyReq} (h : Kept s₀ s) : Kept s₀ (leastMark s core id r) := h.modCmd

theorem deliverTo {core id : Nat} {r : CopyReq} {d : Nat} (h : Kept s₀ s) : Kept s₀ (deliverTo s core id r d) := by
  unfold Machine.deliverTo
  split
  · exact h
  · split
    · exact h
    · split
      · exact h
      · split
        · next ht => exact (h.cmdWrite ht).unitWritten.modCmd
        · exact h

theorem readUnit {core : Nat} {c : Cmd} {r : CopyReq} {z : State × List Byte} (h : Kept s₀ s) (e : readUnit s core c r = .ok z) :
    Kept s₀ z.1 := by
  obtain ⟨_, -, e⟩ := unitRes_bind_ok e
  exact h.unitData e

theorem multicastStep {core : Nat} {c : Cmd} {r : CopyReq} (h : Kept s₀ s) : Kept s₀ (multicastStep s core c r) := by
  unfold Machine.multicastStep
  extract_lets t u
  have hu : Kept s₀ u := by
    unfold u
    have ht : Kept s₀ t.2 := h.unitTaken
    clear_value t
    split
    · exact h
    · split
      · exact ht
      · split
        · next hz => exact (ht.readUnit hz).modCmd
        · exact h
  exact (hu.forEach fun h1 => h1.deliverTo).leastMark.copyEnds

theorem testGuards (h : Kept s₀ s) : Kept s₀ (State.testGuards s) := h.frame

theorem elapse {dt : Nat} (h : Kept s₀ s) : Kept s₀ (State.elapse s dt) := by
  unfold State.elapse
  extract_lets t u
  have ht : Kept s₀ t := .ite h h.testGuards.ccEnds
  have hu : Kept s₀ u := ht.pass
  exact hu.frame.retestAsks.hostPump

theorem execCopyCommandStart {core cmd : Nat} (h : Kept s₀ s) : KeptNext s₀ (execCopyCommandStart core cmd s) := by
  unfold Machine.execCopyCommandStart
  split
  · exact h
  · exact .ite h.modCmd h

theorem execGuardDiscard {core cmd : Nat} (h : Kept s₀ s) : KeptNext s₀ (execGuardDiscard core cmd s) := by
  unfold Machine.execGuardDiscard
  split
  · exact h
  · exact .ite h.discardCmd.blockExitTest h

theorem execCopyUnitDone {core cmd : Nat} (h : Kept s₀ s) : KeptNext s₀ (execCopyUnitDone core cmd s) := by
  unfold Machine.execCopyUnitDone
  split
  · exact h
  · split
    · split
      · exact h
      · split
        · exact h.multicastStep
        · extract_lets t
          have ht : Kept s₀ t.2 := h.unitTaken
          clear_value t
          split
          · exact ht
          · split
            · next hu =>
                have hu := ht.copyUnit hu
                split
                · exact Kept.ite hu hu.advanceCopy
                · exact hu
            · exact h
    · exact h

theorem faultCopy {core : Nat} {c : Cmd} {cause races : Nat} (h : Kept s₀ s) : Kept s₀ (faultCopy s core c cause races) := by
  unfold Machine.faultCopy
  extract_lets s s t
  have ht : Kept s₀ t := (h.count.count.modCmd.forEach (fun h2 => h2.setObjError)).resolveOut
  split
  · split
    · exact ht.abortCmd.blockExitTest
    · exact ht
  · exact ht

theorem putFailed {core : Nat} {c : Cmd} {cause : Nat} (h : Kept s₀ s) : Kept s₀ (putFailed s core c cause) :=
  .ite h.endAborted.blockExitTest h.faultCopy

theorem putAcked {core : Nat} {c : Cmd} {r : CopyReq} (h : Kept s₀ s) : Kept s₀ (putAcked s core c r) :=
  .ite h.unitWritten.endAborted.blockExitTest h.advanceCopy

theorem execCopyFault {core cmd : Nat} (h : Kept s₀ s) : KeptNext s₀ (execCopyFault core cmd s) := by
  unfold Machine.execCopyFault
  split
  · exact h
  · split
    · split
      · exact h
      · extract_lets +onlyGivenNames t
        have ht : Kept s₀ t.2 := by
          unfold t
          split
          · exact h.unitTaken
          · exact h.unitTaken
        split
        · exact ht
        · extract_lets +onlyGivenNames res
          clear_value res
          split
          · exact ht.faultCopy
          · exact h
    · exact h

theorem destFailed {core : Nat} {c : Cmd} {r : CopyReq} {dest n : Nat} (h : Kept s₀ s) : Kept s₀ (destFailed s core c r dest n) := by
  unfold Machine.destFailed
  extract_lets s t u
  have ht : Kept s₀ t := by
    unfold t
    split
    · exact h.count.setObjError
    · exact h.count
  have hu : Kept s₀ u := by
    unfold u
    split
    · exact ht.objPut.setObjError
    · exact ht
  exact hu.modCmd

theorem execCpymDestFault {core cmd dest : Nat} (h : Kept s₀ s) : KeptNext s₀ (execCpymDestFault core cmd dest s) := by
  unfold Machine.execCpymDestFault
  split
  · exact h
  · split
    · split
      · exact h
      · split
        · exact h.destFailed.leastMark.copyEnds
        · exact h
    · exact h

theorem execCguardClr {g : Guard} {n : Nat} (h : Kept s₀ s) : KeptNext s₀ (execCguardClr g n s) := h.issueUni fun h1 => h1.writeGuard.cguard

theorem execCguardSet {g : Guard} {n q : Nat} (h : Kept s₀ s) : KeptNext s₀ (execCguardSet g n q s) := h.issueUni fun h1 => by
  split
  · exact h1
  · exact h1.writeGuard.cguard

theorem execCguardRd {g : Guard} {d n : Nat} (h : Kept s₀ s) : KeptNext s₀ (execCguardRd g d n s) := h.issueUni fun h1 => by
  split
  · exact h1
  · exact h1.nameGuards.modWarp

theorem execCpres {g : Guard} {q pg : Nat} (h : Kept s₀ s) : KeptNext s₀ (execCpres g q pg s) := h.issueUni fun h1 => by
  split
  · exact h1.pair
  · exact h1.modWarp.modCore.pair

theorem abortAll {c : Ctx} {xs : List Cmd} (h : Kept s₀ s) : Kept s₀ (abortAll s c xs).1 := h.forEach fun h1 => h1.abortCmd

theorem execCabort {g : Guard} {pg : Nat} (h : Kept s₀ s) : KeptNext s₀ (execCabort g pg s) := h.issueUni fun h1 => by
  split
  · exact h1
  · exact h1.abortAll

theorem execCabortAll {g : Guard} (h : Kept s₀ s) : KeptNext s₀ (execCabortAll g s) := h.issueUni fun h1 => by
  split
  · exact h1
  · exact h1.abortAll

theorem execProgrd {g : Guard} {d pg : Nat} (h : Kept s₀ s) : KeptNext s₀ (execProgrd g d pg s) := h.issueUni fun h1 => h1.modWarp

/-! ### Admission -/

theorem acceptLaunch {l : Launch} (h : Kept s₀ s) : Kept s₀ (acceptLaunch s l).1 := h.frame

theorem submitLaunch {asid depth : Nat} {child : Bool} {bs : List Byte} (h : Kept s₀ s) : Kept s₀ (submitLaunch s asid depth child bs).1 := by
  unfold Machine.submitLaunch
  split
  · exact h
  · exact h.acceptLaunch

/-! ### The dispatch engine -/

theorem discardSaved {b : Nat} (h : Kept s₀ s) : Kept s₀ (discardSaved s b) := by
  unfold Machine.discardSaved
  extract_lets s t
  have ht : Kept s₀ t := h.modBlock.blockFree
  exact ht.frame

theorem stopBlock {b core : Nat} {counted : Bool} (h : Kept s₀ s) : Kept s₀ (stopBlock s b core counted) :=
  ((Kept.ite h.cancelCmds.count h.cancelCmds).forEach (fun h3 => h3.endLanes)).blockExitTest

theorem endLaunch {id : Nat} {counted : Bool} (h : Kept s₀ s) : Kept s₀ (endLaunch s id counted) := h.frame.forEach fun h2 => by
  split
  · exact h2.discardSaved
  · exact h2.stopBlock

theorem cancelLaunch {id : Nat} (h : Kept s₀ s) : Kept s₀ (cancelLaunch s id) := h.modLaunch.endLaunch

theorem loseLaunch {id : Nat} (h : Kept s₀ s) : Kept s₀ (loseLaunch s id) := h.modLaunch.endLaunch

theorem execMatrixEccError {core : Nat} {region : Bool} {n : Nat} (h : Kept s₀ s) : KeptNext s₀ (execMatrixEccError core region n s) := by
  unfold Machine.execMatrixEccError
  split
  · exact h
  · split
    · exact h
    · exact h.loseLaunch.frame.tell

theorem answerSlot {i code id : Nat} (h : Kept s₀ s) : Kept s₀ (answerSlot s i code id) := by
  unfold Machine.answerSlot
  extract_lets a t u v
  have ht : Kept s₀ t := .ite h h.cohWrite
  have hu : Kept s₀ u := ht.cohWrite
  have hv : Kept s₀ v := hu.cohWrite
  clear_value v
  exact hv.frame

theorem execSealWrite {slot : Nat} {v : Byte} (h : Kept s₀ s) : KeptNext s₀ (execSealWrite slot v s) := .ite h h.hostAsks

theorem parseSlot {i : Nat} (h : Kept s₀ s) : Kept s₀ (parseSlot s i) := h.submitLaunch.answerSlot

theorem execLaunchRecord (h : Kept s₀ s) : KeptNext s₀ (execLaunchRecord s) := by
  unfold Machine.execLaunchRecord
  split
  · exact h
  · exact .ite h (.ite (.ite h.frame h.parseSlot) (.ite h.answerSlot h))

theorem execHeldRecordParse (h : Kept s₀ s) : KeptNext s₀ (execHeldRecordParse s) := by
  unfold Machine.execHeldRecordParse
  split
  · exact h
  · exact .ite h h.parseSlot

theorem control {kind : Nat} {by' : Asker} {act : State → Nat → State} (h : Kept s₀ s) (hact : ∀ {s x1}, Kept s₀ s → Kept s₀ (act s x1)) :
    Kept s₀ (control s kind by' act) := by
  unfold Machine.control
  split
  · exact .ite (hact h) h
  · split
    · exact h
    · exact .ite h (.ite (.answerSlot (hact h)) h.answerSlot)

theorem preEmptAct {id : Nat} (h : Kept s₀ s) : Kept s₀ (preEmptAct s id) :=
  h.modLaunch.mapBlocks fun e => by split <;> rfl

theorem resumeAct {id : Nat} (h : Kept s₀ s) : Kept s₀ (resumeAct s id) :=
  h.modLaunch.mapBlocks fun e => by split <;> rfl

theorem execPreEmpt {by' : Asker} (h : Kept s₀ s) : KeptNext s₀ (execPreEmpt by' s) := h.control fun h1 => h1.preEmptAct

theorem execResume {by' : Asker} (h : Kept s₀ s) : KeptNext s₀ (execResume by' s) := h.control fun h1 => h1.resumeAct

theorem execCancel {by' : Asker} (h : Kept s₀ s) : KeptNext s₀ (execCancel by' s) := h.control fun h1 => h1.cancelLaunch

theorem writeCompletion {l : Launch} (h : Kept s₀ s) : Kept s₀ (writeCompletion s l) := by
  unfold Machine.writeCompletion
  extract_lets p v
  split
  · exact h
  · split
    · exact h.tell
    · split
      · exact h.tell
      · exact .ite h.cohWrite h.hostWrite

theorem execLaunchComplete {launch : Nat} (h : Kept s₀ s) : KeptNext s₀ (execLaunchComplete launch s) := by
  unfold Machine.execLaunchComplete
  split
  · exact h
  · split
    · exact h
    · extract_lets s t
      have ht : Kept s₀ t := h.writeCompletion.unpinAll
      exact ht.frame

theorem setSplit {p : Place} (h : Kept s₀ s) : Kept s₀ (setSplit s p) := .ite h h.modCore.l1Shrink

theorem startWarp {l : Launch} {p : Place} {bid i : Nat} (h : Kept s₀ s) : Kept s₀ (startWarp s l p bid i) := h.newId.setWarp

theorem releaseMembers {l : Launch} {gang : Nat} (h : Kept s₀ s) : Kept s₀ (releaseMembers s l gang) := h.runMembers.frame

theorem setClasses {bid : Nat} (h : Kept s₀ s) : Kept s₀ (setClasses s bid) := by
  unfold Machine.setClasses
  split
  · exact .ite h h.frame
  · exact h

theorem admitOne {id : Nat} {p : Place} (h : Kept s₀ s) : Kept s₀ (admitOne s id p) := by
  unfold Machine.admitOne
  split
  · exact h
  · extract_lets t slot n b src u v w x
    have hn : Kept s₀ n.1 := h.setSplit.newId
    have hu : Kept s₀ u := hn.update (fun hd => hd) (fun hm => hm) fun hb => spadsWf_tset hb rfl
    have hv : Kept s₀ v := hu.modLaunch
    have hw : Kept s₀ w := hv.forEach fun h1 => h1.startWarp
    have hx : Kept s₀ x := .ite hw hw.acquireL1
    exact hx.setClasses.releaseMembers

theorem codeRefresh {id : Nat} (h : Kept s₀ s) : Kept s₀ (codeRefresh s id) := by
  unfold Machine.codeRefresh
  split
  · exact .ite ((h.frame.forEach (fun h2 => h2.acquireL1)).modLaunch) h
  · exact h

theorem tidyWaiting {id : Nat} (h : Kept s₀ s) : Kept s₀ (tidyWaiting s id) := by
  unfold Machine.tidyWaiting
  split
  · exact h
  · split
    · exact h.modLaunch
    · exact h.frame

theorem endReserve {w : Waiter} (h : Kept s₀ s) : Kept s₀ (endReserve s w) := .ite h.frame h

theorem execBlockAdmit (h : Kept s₀ s) : KeptNext s₀ (execBlockAdmit s) := by
  unfold Machine.execBlockAdmit
  split
  · split
    · exact Kept.endReserve (.tidyWaiting (h.codeRefresh.forEach (fun h1 => h1.admitOne)))
    · exact h
  · exact h

theorem execAdmissionReserve (h : Kept s₀ s) : KeptNext s₀ (execAdmissionReserve s) := by
  unfold Machine.execAdmissionReserve
  split
  · exact h
  · exact .ite h h.frame

theorem execQuantumEnd {block : Nat} (h : Kept s₀ s) : KeptNext s₀ (execQuantumEnd block s) := by
  unfold Machine.execQuantumEnd
  split
  · exact h
  · exact .ite h (h.forEach (fun h1 => h1.modBlock))

theorem freeSaveBytes {n : Nat} (h : Kept s₀ s) : Kept s₀ (freeSaveBytes s n).1 := h.frame

theorem saveBody {bid : Nat} {b : Block} {size : Nat} (h : Kept s₀ s) : Kept s₀ (saveBody s bid b size).1 := by
  unfold Machine.saveBody
  extract_lets t at_
  have ht : Kept s₀ t.1 := h.freeSaveBytes
  split
  · exact ht
  · exact ht

theorem saveOne {bid : Nat} {b : Block} {area : Nat × Nat} (h : Kept s₀ s) : Kept s₀ (saveOne s bid b area) := by
  unfold Machine.saveOne
  extract_lets kept ws cmds body t u v others w x y z
  have ht : Kept s₀ t := h.saveBody.cohWrite
  have hu : Kept s₀ u := ht.forEach (fun h3 => h3.releaseAct.closeWarp)
  have hv : Kept s₀ v := hu.forEach (fun h4 => h4.closeCmd)
  have hw : Kept s₀ w := hv.freeGuards.modBlock
  have hx : Kept s₀ x := hw.modCore
  have hy : Kept s₀ y := hx.forEach (fun h7 => h7.modPart)
  have hz : Kept s₀ z := hy.frame
  exact hz.stallTidy.linkTidy

theorem setStopping {gang : Tbl Block} {v : Bool} (h : Kept s₀ s) : Kept s₀ (setStopping s gang v) := h.forEach fun h1 => h1.modBlock

theorem execBlockSave {try_ : SaveTry} (h : Kept s₀ s) : KeptNext s₀ (execBlockSave try_ s) := by
  unfold Machine.execBlockSave
  split
  · exact h
  · extract_lets gang
    split
    · exact h
    · split
      · exact h.setStopping
      · exact .ite h.setStopping (.ite h (.ite h.loseLaunch.tell ((h.forEach (fun h1 => h1.saveOne)).frame)))

theorem resumeWarp {b : Block} {p : Place} {gates : Tbl Nat} {w : Warp} (h : Kept s₀ s) : Kept s₀ (resumeWarp s b p gates w) := h.setWarp

theorem resumeOne {p : Place} (h : Kept s₀ s) : Kept s₀ (resumeOne s p) := by
  unfold Machine.resumeOne
  extract_lets +onlyGivenNames bid
  split
  · exact h
  · extract_lets +onlyGivenNames kept other s gates t u key cmds v w x
    have ht : Kept s₀ t := h.setSplit.frame
    have hu : Kept s₀ u := ht.forEach (fun h3 => h3.resumeWarp)
    have hv : Kept s₀ v := hu.modCore
    have hw : Kept s₀ w := hv.modBlock
    have hx : Kept s₀ x := hw.frame
    exact hx.acquireL1

theorem rejoinStall {g : Nat} {e : Entry} (h : Kept s₀ s) : Kept s₀ (rejoinStall s g e) := by
  unfold Machine.rejoinStall
  split
  · exact .ite h (.ite h.modCore h.count.modWarp)
  · exact h

theorem retestBlock {b : Nat} (h : Kept s₀ s) : Kept s₀ (retestBlock s b) :=
  h.forEach fun h1 => ((h1.forEach (fun h2 => h2.rejoinStall)).forEach (fun h3 => h3.countAgain.parkAgain)).stallTidy

theorem execBlockResume {cores : List Nat} (h : Kept s₀ s) : KeptNext s₀ (execBlockResume cores s) := by
  unfold Machine.execBlockResume
  split
  · exact h
  · split
    · split
      · exact h.loseLaunch.tell
      · extract_lets named fixed
        split
        · exact h
        · extract_lets t u v
          have ht : Kept s₀ t := h.forEach (fun h1 => h1.resumeOne)
          have hu : Kept s₀ u := ht.forEach (fun h2 => h2.retestBlock)
          have hv : Kept s₀ v := hu.releaseMembers
          exact hv.frame.endReserve
    · exact h

theorem execVsp {g : Guard} {k : Nat} (h : Kept s₀ s) : KeptNext s₀ (execVsp g k s) := h.issueUni fun h1 => h1.outsideOnly fun h2 => by
  split
  · exact h2
  · exact h2

theorem execSwitchRendezvous {block : Nat} (h : Kept s₀ s) : KeptNext s₀ (execSwitchRendezvous block s) := by
  unfold Machine.execSwitchRendezvous
  split
  · exact h
  · exact .ite h (.ite h.modBlock (h.forEach (fun h1 => h1.forEach (fun h2 => h2.trapParked))))

/-- A memory of which some bytes are dropped. -/
theorem memory_wf_filter {m : Tbl Byte} {p : Nat × Byte → Bool} (h : Memory.wf m = true) : Memory.wf (m.filter p) = true := by
  rw [Memory.wf, Bool.and_eq_true] at h ⊢
  exact ⟨(tsorted_filter m p h.1).1, all_filter m _ p h.2⟩

theorem moveBlock {bid : Nat} {b : Block} {l : Launch} {n at_ pc : Nat} (h : Kept s₀ s) : Kept s₀ (moveBlock s bid b l n at_ pc) := by
  unfold Machine.moveBlock
  extract_lets var bound ws t u v bars w
  have ht : Kept s₀ t := h.forEach fun h1 => h1.releaseFragments
  have hu : Kept s₀ u := ht.forEach fun h1 => by
    extract_lets k
    have hk : Kept s₀ k.1 := h1.newId
    exact hk.modWarp
  have hv : Kept s₀ v := hu.forEach fun h1 => h1.modPart
  have hw : Kept s₀ w := hv.modBlockSpad fun _ hx => memory_wf_filter hx
  exact hw.modCore

theorem execSwitchMove {block : Nat} (h : Kept s₀ s) : KeptNext s₀ (execSwitchMove block s) := by
  unfold Machine.execSwitchMove
  split
  · split
    · extract_lets +onlyGivenNames ws
      split
      · exact h
      · extract_lets +onlyGivenNames t fit
        split
        · exact h.moveBlock
        · exact (h.forEach (fun h1 => h1.forEach (fun h2 => h2.releaseWith))).modBlock
    · exact h
  · exact h

theorem childAsked {c : Ctx} {x : Loc} {d : Nat} {p : DWord} (h : Kept s₀ s) : Kept s₀ (childAsked s c x d p).1 := h.acquireAct.frame

theorem execLaunch {g : Guard} {d a : Nat} (h : Kept s₀ s) : KeptNext s₀ (execLaunch g d a s) := h.issueUni fun h1 => by
  split
  · exact h1
  · exact h1.onObject fun {_} => by
        split
        · exact h1.trapAll
        · exact h1.releaseAct.childAsked

theorem execLaunchAnswer {warp entry : Nat} (h : Kept s₀ s) : KeptNext s₀ (execLaunchAnswer warp entry s) := by
  unfold Machine.execLaunchAnswer
  split
  · exact h
  · split
    · split
      · extract_lets s k t
        have ht : Kept s₀ t.1 := by
          unfold t
          split
          · exact h.frame
          · exact h.frame.submitLaunch
        exact ht.releaseWith
      · exact h
    · exact h

theorem execSget {g : Guard} {sel : SgetSel} {d : Nat} (h : Kept s₀ s) : KeptNext s₀ (execSget g sel d s) := h.issueUni fun h1 => by
  split
  · split
    · exact h1.modLaunch.modWarp
    · exact h1.modWarp
  · exact h1

theorem execSput {g : Guard} {sel : SputSel} {a : Nat} (h : Kept s₀ s) : KeptNext s₀ (execSput g sel a s) := h.issueUni fun h1 => by
  split
  · extract_lets x
    split
    · exact h1.modBlock
    · exact .ite h1.modBlock h1
    · exact .ite h1.modWarp h1
  · exact h1

theorem execSleep {g : Guard} {n : Nat} (h : Kept s₀ s) : KeptNext s₀ (execSleep g n s) := h.issueUni fun h1 => h1

/-! ### Passes -/

/-- The state of a pair, by what the pair comes to. -/
theorem fst_of_eq {γ : Type} {p : State × γ} (h : ∀ q, p = q → Kept s₀ q.1) : Kept s₀ p.1 := h p rfl

theorem readPrims {core : Nat} {l : Launch} {p : Pass} (h : Kept s₀ s) : Kept s₀ (readPrims s core l p).1 :=
  h.pair.foldlFst fun h1 => fst_of_eq fun q e => by
    extract_lets a at e
    split at e
    · subst e
      exact h1.count.tell.pair
    · split at e
      · subst e
        exact h1.pair
      · subst e
        exact h1.count.pair

theorem startPass {id core : Nat} {l : Launch} (h : Kept s₀ s) : Kept s₀ (startPass s id core l) := by
  unfold Machine.startPass
  split
  · exact h
  · exact .ite h h.readPrims.count.frame

theorem joinPass {bid : Nat} {b : Block} {l : Launch} {p : Pass} (h : Kept s₀ s) : Kept s₀ (joinPass s bid b l p) := by
  unfold Machine.joinPass
  extract_lets f k src n t u
  have hk : Kept s₀ k.1 := h.newId
  clear_value f
  have hn : Kept s₀ n.1 := by
    unfold n
    split
    · exact h.pair
    · exact hk.frame.pair
  have ht : Kept s₀ t := hn.modBlock
  have hu : Kept s₀ u := ht.frame
  exact hu.startPass

theorem execFraginOpen {g : Guard} {a : Src} (h : Kept s₀ s) : KeptNext s₀ (execFraginOpen g a s) := h.issueLane fun h1 => by
  split
  · split
    · exact h1
    · extract_lets ptr
      split
      · split
        · exact h1
        · exact h1.trapAll
      · split
        · exact h1.trapAll
        · exact h1.onObject fun {_} => by
              split
              · exact h1.trapAll
              · extract_lets p
                split
                · exact h1.trapAll
                · exact h1.acquireL1.joinPass
  · exact h1

theorem waveAgain {id : Nat} {w : Warp} (h : Kept s₀ s) : Kept s₀ (waveAgain s id w) := h.frame

theorem execFraginWave {g : Guard} {d : Nat} (h : Kept s₀ s) : KeptNext s₀ (execFraginWave g d s) := h.issueLane fun h1 => by
  split
  · split
    · exact h1
    · split
      · exact h1.trapAll
      · exact h1.releaseFragments.waveAgain.modWarp
  · exact h1

theorem giveFrag {g pass member lane : Nat} {f : Frag} (h : Kept s₀ s) : Kept s₀ (giveFrag s g pass member lane f) := h.newId.modCore.modWarp

theorem waveStatus {g : Nat} {e : Entry} {d : Nat} {v : Nat → Word} (h : Kept s₀ s) : Kept s₀ (waveStatus s g e d v) := h.modWarp

theorem putMember {id : Nat} {m : PassMember} (h : Kept s₀ s) : Kept s₀ (putMember s id m) := h.frame

theorem execFragmentDelivery {warp entry : Nat} {pick : List Nat} (h : Kept s₀ s) : KeptNext s₀ (execFragmentDelivery warp entry pick s) := by
  unfold Machine.execFragmentDelivery
  split
  · split
    · split
      · exact h
      · split
        · exact h
        · extract_lets +onlyGivenNames m
          split
          · exact h.putMember.waveStatus
          · split
            · exact h.putMember.waveStatus
            · extract_lets +onlyGivenNames lanes free
              split
              · exact .ite h ((h.putMember.forEach (fun h2 => h2.giveFrag)).waveStatus)
              · exact h
    · exact h
  · exact h

theorem execFraginRead {g : Guard} {sel : FragSel} {d : Nat} (h : Kept s₀ s) : KeptNext s₀ (execFraginRead g sel d s) :=
  h.issueLane fun h1 => by
  split
  · exact h1
  · split
    · exact h1.trapAll
    · exact h1.modWarp

theorem enterSection {g l : Nat} (h : Kept s₀ s) : Kept s₀ (enterSection s g l) := by
  unfold Machine.enterSection
  split
  · exact h
  · exact h.modCore.modWarp

theorem ordenterLane {g l : Nat} (h : Kept s₀ s) : Kept s₀ (ordenterLane g s l).1 := by
  unfold Machine.ordenterLane
  split
  · exact h
  · split
    · exact h
    · split
      · exact h
      · split
        · exact h
        · split
          · exact h
          · exact h.enterSection

theorem execOrdenter {g : Guard} (h : Kept s₀ s) : KeptNext s₀ (execOrdenter g s) :=
  h.issueLane fun h1 => h1.someFates fun h2 => h2.ordenterLane

theorem execOrdenterRelease {warp lane : Nat} (h : Kept s₀ s) : KeptNext s₀ (execOrdenterRelease warp lane s) := by
  unfold Machine.execOrdenterRelease
  split
  · exact .ite (Kept.ite h h.releaseLanes) (.ite h h.enterSection.releaseLanes)
  · exact h

theorem ordexitLane {g l : Nat} (h : Kept s₀ s) : Kept s₀ (ordexitLane g s l).1 := by
  unfold Machine.ordexitLane
  extract_lets cmds
  split
  · exact h
  · exact h.endSection

theorem execOrdexit {g : Guard} (h : Kept s₀ s) : KeptNext s₀ (execOrdexit g s) := h.issueLane fun h1 => by
  extract_lets ins
  split
  · exact h1
  · exact h1.releaseAct.someFates fun h2 => h2.ordexitLane

theorem execOrdexitRelease {warp lane : Nat} (h : Kept s₀ s) : KeptNext s₀ (execOrdexitRelease warp lane s) := by
  unfold Machine.execOrdexitRelease
  split
  · exact h
  · exact .ite h h.endSection.releaseLanes

theorem execGateEntryFree {core entry : Nat} (h : Kept s₀ s) : KeptNext s₀ (execGateEntryFree core entry s) := by
  unfold Machine.execGateEntryFree
  split
  · exact h
  · exact .ite h.gateFree h

theorem execFkill {g : Guard} (h : Kept s₀ s) : KeptNext s₀ (execFkill g s) := h.issueLane fun h1 => h1.releaseFragments

theorem covwLane {g l mask : Nat} (h : Kept s₀ s) : Kept s₀ (covwLane s g l mask).1 := by
  unfold Machine.covwLane
  split
  · exact h
  · extract_lets cov s t
    have ht : Kept s₀ t := h.modWarp.gateCov
    exact .ite ht.releaseFragment ht

theorem covwStep {g d : Nat} {a : Src} {w0 : Warp} {l : Nat} (h : Kept s₀ s) : Kept s₀ (covwStep g d a w0 s l).1 := by
  unfold Machine.covwStep
  extract_lets x
  split
  · exact h
  · exact h.covwLane.modWarp

theorem execCovw {g : Guard} {d : Nat} {a : Src} (h : Kept s₀ s) : KeptNext s₀ (execCovw g d a s) := h.issueLane fun h1 => by
  split
  · exact h1
  · exact h1.someFates fun h2 => h2.covwStep

theorem execBary {g : Guard} {d : Nat} {a b c : Src} (h : Kept s₀ s) : KeptNext s₀ (execBary g d a b c s) := h.issueLane fun h1 => by
  split
  · exact h1
  · exact h1.modWarp

/-! ### Fragment lists -/

/-- What a part of a list operation gives, if it gives anything. -/
def Gives {α : Type} (P : α → Prop) (m : FlM α) : Prop := ∀ ws a, (m.run.run ws).1 = .ok a → P a

theorem gives_pure {α : Type} {P : α → Prop} {a : α} (h : P a) : Gives P (pure a) := fun _ _ e => Except.ok.inj e ▸ h

theorem gives_throw {α : Type} {P : α → Prop} {x : FlStop} : Gives P (throw x : FlM α) := fun _ _ e => nomatch e

theorem gives_bind_of {α β : Type} {P : α → Prop} {Q : β → Prop} {m : FlM β} {f : β → FlM α} (hm : Gives Q m)
    (hf : ∀ b, Q b → Gives P (f b)) : Gives P (m >>= f) := by
  intro ws a e
  rw [ExceptT.run_bind, StateT.run_bind] at e
  have hq := hm ws
  rcases hr : m.run.run ws with ⟨x | b, us⟩
  · rw [hr] at e
    exact nomatch e
  · rw [hr] at e hq
    exact hf b (hq b rfl) us a e

theorem gives_bind {α β : Type} {P : α → Prop} {m : FlM β} {f : β → FlM α} (hf : ∀ b, Gives P (f b)) : Gives P (m >>= f) :=
  gives_bind_of (Q := fun _ => True) (fun _ _ _ => trivial) fun b _ => hf b

theorem gives_ite {α : Type} {P : α → Prop} {c : Prop} [Decidable c] {m n : FlM α} (hm : c → Gives P m) (hn : ¬ c → Gives P n) :
    Gives P (if c then m else n) := iteInduction hm hn

/-! The operations on an area keep the state that they have begun with: their writes are in the buffer. -/

theorem foldl_tx {β : Type} {f : FlTx → β → FlTx} {l : List β} {t : FlTx} (hf : ∀ t x, (f t x).s = t.s) : (l.foldl f t).s = t.s :=
  List.foldlRecOn l f (motive := fun u => u.s = t.s) rfl fun u hu x _ => (hf u x).trans hu

theorem push_tx {t : FlTx} {h : FlHdr} {ns : List Nat} : (t.push h ns).1.s = t.s :=
  List.foldlRecOn ns _ (motive := fun a : FlTx × FlHdr => a.1.s = t.s) rfl fun _ ha _ _ => ha

theorem putList_tx {t : FlTx} {h : FlHdr} {p : Nat} {l : List FlNode} : (t.putList h p l).s = t.s :=
  foldl_tx fun _ _ => rfl

theorem putHdr_tx {t : FlTx} {h : FlHdr} : (t.putHdr h).s = t.s := rfl

theorem listWritten_tx {t : FlTx} {h u v : FlHdr} {ns : List Nat} {p : Nat} {l : List FlNode} :
    (((t.push h ns).1.putList u p l).putHdr v).s = t.s :=
  putHdr_tx.trans (putList_tx.trans push_tx)

theorem flInsert_tx {t : FlTx} {mrule p d x : Nat} : Gives (fun z => z.tx.s = t.s) (flInsert t mrule p d x) := by
  refine gives_bind fun h => gives_bind fun hi => gives_bind fun l => ?_
  extract_lets
  refine gives_ite (fun _ => gives_pure rfl) fun _ => gives_bind fun r => ?_
  extract_lets write
  have hd : ∀ z, Gives (fun z => z.tx.s = t.s) (write z) := fun z => gives_pure listWritten_tx
  exact gives_ite (fun _ => gives_bind fun _ => gives_bind hd) fun _ => gives_bind hd

theorem flMerge_tx {t : FlTx} {one : Bool} {p d x : Nat} : Gives (fun z => z.tx.s = t.s) (flMerge t one p d x) := by
  refine gives_bind fun h => gives_bind fun l => gives_ite (fun _ => gives_throw) fun _ => gives_pure listWritten_tx

theorem flHead_tx {t : FlTx} {pg p : Nat} : Gives (fun z => z.tx.s = t.s) (flHead t pg p) :=
  gives_bind fun _ => gives_bind fun _ => gives_pure rfl

theorem flNode_tx {t : FlTx} {pg n : Nat} : Gives (fun z => z.tx.s = t.s) (flNode t pg n) :=
  gives_ite (fun _ => gives_pure rfl) fun _ => gives_bind fun _ => gives_bind fun _ => gives_bind fun _ => gives_bind fun _ => gives_bind fun _ =>
    gives_ite (fun _ => gives_throw) fun _ => gives_pure rfl

theorem flSetBudget_tx {t : FlTx} {pg p b : Nat} : Gives (fun z => z.tx.s = t.s) (flSetBudget t pg p b) :=
  gives_bind fun _ => gives_bind fun _ => gives_pure rfl

theorem flGetBudget_tx {t : FlTx} {pg mrule p : Nat} : Gives (fun z => z.tx.s = t.s) (flGetBudget t pg mrule p) :=
  gives_bind fun _ => gives_bind fun _ => gives_bind fun _ => gives_bind fun _ => gives_pure rfl

theorem flClear_tx {t : FlTx} {p : Nat} : Gives (fun z => z.tx.s = t.s) (flClear t p) :=
  gives_bind fun _ => gives_bind fun _ => gives_pure listWritten_tx

theorem flCommit {t : FlTx} (h : Kept s₀ t.s) : Gives (Kept s₀) t.commit := by
  unfold FlTx.commit
  extract_lets core locs
  split
  · exact gives_throw
  · exact gives_bind fun _ => gives_pure (h.forEach fun h1 => by
      split
      · exact h1.engineWrite
      · exact h1)

/-- An operation of a list instruction leaves the state to its writes. -/
def Buffered (x : ListForm) : Prop := ∀ t b y, Gives (fun z => z.tx.s = t.s) (x.op t b y)

theorem listRun {x : ListForm} {t : FlTx} {b : Block} {y : FlOps} (hx : Buffered x) (h : Kept s₀ t.s) :
    Gives (fun r => Kept s₀ r.1) (x.run t b y) :=
  gives_bind_of (hx t b y) fun _ hd => gives_bind_of (flCommit (hd ▸ h)) fun _ hs => gives_pure hs

theorem flLane {g bid : Nat} {b : Block} {w : Warp} {x : ListForm} {l : Nat} (hx : Buffered x) (h : Kept s₀ s) :
    Kept s₀ (flLane s g bid b w x l).s := by
  unfold Machine.flLane
  extract_lets t y ranges z ws
  split
  · exact h
  · split
    · exact h.engineOwn
    · exact h
    · next r e =>
        have hr : Kept s₀ r.1 := listRun hx h [] r e
        exact (hr.forEach fun h1 => h1.count).engineOwn

theorem flLanes {g bid : Nat} {b : Block} {w : Warp} {x : ListForm} {ls : List Nat} (hx : Buffered x) (h : Kept s₀ s) :
    Kept s₀ (flLanes s g bid b w x ls).s := by
  induction ls generalizing s with
  | nil => exact h
  | cons l r ih => exact ih (flLane hx h)

theorem flAfter {z : FlRun} {g bid : Nat} {x : ListForm} {out : List Nat} (h : Kept s₀ z.s) : Kept s₀ (flAfter z g bid x out) := by
  unfold Machine.flAfter
  extract_lets t
  have ht : Kept s₀ t := .ite h.modBlock h
  split
  · exact ht
  · exact ht.newId.modWarp

theorem flDirect {gd : Guard} {x : ListForm} (hx : Buffered x) (h : Kept s₀ s) : KeptNext s₀ (flDirect s gd x) :=
  h.issueLane fun h1 => by
    split
    · exact (flAfter (flLanes hx h1)).pair
    · exact h1.pair

theorem execFlins {g : Guard} {d : Nat} {a b c : Src} (h : Kept s₀ s) : KeptNext s₀ (execFlins g d a b c s) :=
  flDirect (fun _ _ _ => flInsert_tx) h

theorem execFlmrg {g : Guard} {a b c : Src} (h : Kept s₀ s) : KeptNext s₀ (execFlmrg g a b c s) := flDirect (fun _ _ _ => flMerge_tx) h

theorem execFlmrgOne {g : Guard} {a b c : Src} (h : Kept s₀ s) : KeptNext s₀ (execFlmrgOne g a b c s) :=
  flDirect (fun _ _ _ => flMerge_tx) h

theorem execFlhead {g : Guard} {la d : Nat} {a : Src} (h : Kept s₀ s) : KeptNext s₀ (execFlhead g la d a s) :=
  flDirect (fun _ _ _ => flHead_tx) h

theorem execFlnode {g : Guard} {la d : Nat} {a : Src} (h : Kept s₀ s) : KeptNext s₀ (execFlnode g la d a s) :=
  flDirect (fun _ _ _ => flNode_tx) h

theorem execFlbudgetSet {g : Guard} {a b : Src} (h : Kept s₀ s) : KeptNext s₀ (execFlbudgetSet g a b s) :=
  flDirect (fun _ _ _ => flSetBudget_tx) h

theorem execFlbudgetGet {g : Guard} {d : Nat} {a : Src} (h : Kept s₀ s) : KeptNext s₀ (execFlbudgetGet g d a s) :=
  flDirect (fun _ _ _ => flGetBudget_tx) h

theorem execFlbudgetRule {g : Guard} {a : Src} (h : Kept s₀ s) : KeptNext s₀ (execFlbudgetRule g a s) := h.issueLane fun h1 => by
  split
  · extract_lets c pre x
    split
    · exact h1
    · split
      · exact h1
      · split
        · exact h1
        · exact h1.modBlock
  · exact h1

theorem execFlbudgetRrd {g : Guard} {d : Nat} (h : Kept s₀ s) : KeptNext s₀ (execFlbudgetRrd g d s) := h.issueLane fun h1 => by
  split
  · exact h1
  · exact h1.modWarp

theorem postFlclr {c : Ctx} {w : Warp} {b : Block} {l : Launch} {kind : CmdKind} {area : DWord} {size units : Nat} (h : Kept s₀ s) :
    Kept s₀ (postFlclr s c w b l kind area size units) := by
  unfold Machine.postFlclr
  exact h.releaseAct.newId.noteCmd.modCore

theorem initPosted {c : Ctx} {w : Warp} {blk : Block} {l : Launch} {p : DWord} {px pg : Nat} (h : Kept s₀ s) :
    Kept s₀ (initPosted s c w blk l p px pg) := (Kept.ite (h.modBlock.forEach (fun h2 => h2.lineAbsent)) h.modBlock).postFlclr

theorem execFlclrInit {g : Guard} {a b c : Src} (h : Kept s₀ s) : KeptNext s₀ (execFlclrInit g a b c s) := h.issueLane fun h1 => by
  split
  · extract_lets x pre lane pa px pg p
    split
    · exact h1
    · split
      · exact h1
      · split
        · exact h1
        · split
          · exact h1
          · exact h1.initPosted
  · exact h1

theorem execFlclrPix {g : Guard} {a : Src} (h : Kept s₀ s) : KeptNext s₀ (execFlclrPix g a s) := h.issueLane fun h1 => by
  split
  · extract_lets pre area t bad good fates
    split
    · exact h1
    · split
      · exact h1
      · exact h1.postFlclr
  · exact h1

theorem endFlclr {core : Nat} {c : Cmd} (h : Kept s₀ s) : Kept s₀ (endFlclr s core c) := (h.endCmd.forEach (fun h2 => h2.wake)).blockExitTest

theorem failFlclr {core : Nat} {c : Cmd} {a : DWord} (h : Kept s₀ s) : Kept s₀ (failFlclr s core c a) := h.count.tell.endFlclr

theorem stepFlclr {core : Nat} {c : Cmd} (h : Kept s₀ s) : Kept s₀ (stepFlclr s core c) := .ite h.modCmd h.modCmd.endFlclr

theorem initWritten {core : Nat} {x : Loc} {px pg n : Nat} (h : Kept s₀ s) : Kept s₀ (initWritten s core x px pg n) := by
  unfold Machine.initWritten
  extract_lets t
  have ht : Kept s₀ t := h.engineWrite
  split
  · exact ht.linePresent
  · exact ht

theorem engineTurn {core : Nat} {kind : ReqKind} {whole ws : List Nat} (h : Kept s₀ s) : Kept s₀ (engineTurn s core kind whole ws).2 := by
  unfold Machine.engineTurn
  extract_lets ws
  split
  · exact h
  · split
    · exact h.homeTaken
    · exact h.homeAsk

theorem pixTurn {c : Cmd} {area : DWord} {p : Nat} {t : State} (h : Kept s₀ s) (e : (pixTurn s c area p).1 = .ok t) : Kept s₀ t :=
  gives_bind_of (m := flClear { s := s, bid := c.block, base := area } p) flClear_tx (fun _ hd => flCommit (hd ▸ h)) [] t e

theorem execFlclrRun {core cmd : Nat} (h : Kept s₀ s) : KeptNext s₀ (execFlclrRun core cmd s) := by
  unfold Machine.execFlclrRun
  split
  · exact h
  · split
    · exact h
    · split
      · extract_lets p
        split
        · exact h.failFlclr
        · extract_lets ws t
          have ht : Kept s₀ t.2 := h.engineTurn
          clear_value t
          exact Kept.ite ht.initWritten.stepFlclr ht
      · split
        · exact h.endFlclr
        · extract_lets t z
          have ht : Kept s₀ t.2 := h.engineTurn
          split
          · exact ht
          · split
            · next hu => exact (ht.pixTurn hu).engineOwn.stepFlclr
            · exact ht.failFlclr
            · exact ht
      · exact h

/-! ### Matrix instructions -/

theorem narrowGang {core cmd : Nat} (h : Kept s₀ s) : Kept s₀ (narrowGang s core cmd) := by
  unfold Machine.narrowGang
  split
  · exact h
  · exact .ite h (h.forEach (fun h1 => by
      split
      · exact h1.modCmd
      · exact h1))

theorem acceptMatrix {g : Nat} {lanes : LaneMask} {w : Warp} {m : MatCmd} (h : Kept s₀ s) : Kept s₀ (acceptMatrix s g lanes w m) :=
  (((h.modCore.nameGuards.newId.pair.foldlFst (fun h4 => h4.lineAbsent.pair)).noteCmd).modCore).narrowGang

theorem postMatrix {g : Guard} {sr : List Nat} {check : MatCheck} (h : Kept s₀ s) : KeptNext s₀ (postMatrix s g sr check) :=
  h.issueUni fun h1 => by
  split
  · split
    · exact h1.trapAll
    · extract_lets t
      have ht : Kept s₀ t := h1.releaseAct
      split
      · exact ht
      · exact ht.acceptMatrix
  · exact h1

theorem cvTest {bid core n : Nat} (h : Kept s₀ s) : Kept s₀ (cvTest s bid core n) :=
  .ite (.ite h.modCore h) (.ite (h.forEach (fun h1 => h1.modCore)) h)

theorem cvCount {bid core n : Nat} (h : Kept s₀ s) : Kept s₀ (cvCount s bid core n) := h.modCore.cvTest

theorem cvCounts {bid core n k : Nat} (h : Kept s₀ s) : Kept s₀ (cvCounts s bid core n k) := h.foldl fun h1 => h1.cvCount

theorem execMsign {g : Guard} {cv : Nat} (h : Kept s₀ s) : KeptNext s₀ (execMsign g cv s) := h.issueUni fun h1 => by
  split
  · exact h1
  · extract_lets core
    split
    · exact h1.trapAll
    · split
      · exact h1.trapAll
      · exact h1.modWarp

theorem execMsignArm {g : Guard} {cv a : Nat} (h : Kept s₀ s) : KeptNext s₀ (execMsignArm g cv a s) := h.issueUni fun h1 => by
  split
  · extract_lets x core
    split
    · exact h1.trapAll
    · split
      · exact h1.trapAll
      · split
        · exact h1.trapAll
        · exact (((h1.forEach (fun h2 => h2.modCore)).modCore).forEach (fun h4 => h4.cvCounts)).cvTest
  · exact h1

theorem execMsignRd {g : Guard} {d cv : Nat} (h : Kept s₀ s) : KeptNext s₀ (execMsignRd g d cv s) := h.issueUni fun h1 => by
  split
  · exact h1
  · split
    · exact h1.trapAll
    · exact h1.modWarp

theorem execEset {g : Guard} {e a : Nat} (h : Kept s₀ s) : KeptNext s₀ (execEset g e a s) := h.issueUni fun h1 => by
  split
  · exact h1.pair
  · split
    · exact h1.trapAll
    · exact h1.modCore.pair

theorem execEsetRd {g : Guard} {d e : Nat} (h : Kept s₀ s) : KeptNext s₀ (execEsetRd g d e s) := h.issueUni fun h1 => by
  split
  · exact h1
  · split
    · exact h1.trapAll
    · exact h1.modWarp

theorem execSignatureCount {warp i : Nat} (h : Kept s₀ s) : KeptNext s₀ (execSignatureCount warp i s) := by
  unfold Machine.execSignatureCount
  split
  · exact h
  · split
    · exact h
    · exact .ite h h.modWarp.cvCount

theorem execMatrixCommandStart {core cmd : Nat} (h : Kept s₀ s) : KeptNext s₀ (execMatrixCommandStart core cmd s) := by
  unfold Machine.execMatrixCommandStart
  split
  · exact h
  · exact .ite h.modCmd h

theorem gangStart {ms : List (Nat × Nat × Cmd)} {t : Nat} {m : Nat × Nat × Cmd} (h : Kept s₀ s) : Kept s₀ (gangStart ms t s m) := h.modCmd

theorem execGangMmaStart {core cmd : Nat} (h : Kept s₀ s) : KeptNext s₀ (execGangMmaStart core cmd s) := by
  unfold Machine.execGangMmaStart
  split
  · exact h
  · exact .ite (h.forEach (fun h1 => h1.gangStart)) h

theorem mmaStep {ms : List (Nat × Nat × Cmd)} {core : Nat} {c : Cmd} (h : Kept s₀ s) : Kept s₀ (mmaStep s ms core c) := by
  unfold Machine.mmaStep
  split
  · exact h.frame.modCmd
  · exact h

theorem nextUnit {core : Nat} {c : Cmd} {err : Option Nat} (h : Kept s₀ s) : Kept s₀ (nextUnit s core c err) := h.modCmd

theorem storeRow {core : Nat} {c : Cmd} {col : Bool} {t : Nat} {ptr : DWord} {pitch : Nat} (h : Kept s₀ s) :
    Kept s₀ (storeRow s core c col t ptr pitch) := by
  unfold Machine.storeRow
  extract_lets shape len at_ p
  split
  · exact .ite h h.nextUnit
  · exact (h.frame.spadWrite.forEach (fun h2 => h2.linePresent)).nextUnit

theorem matUnit {core : Nat} {c : Cmd} (h : Kept s₀ s) : Kept s₀ (matUnit s core c) := by
  unfold Machine.matUnit
  extract_lets r0 rows
  split
  · extract_lets shape p
    split
    · exact h
    · exact h.count.modCore.nextUnit
  · exact h.storeRow
  · exact h.modCore.nextUnit
  · exact ((Kept.ite h h.modCore).frame).nextUnit
  · exact h.modCore.nextUnit
  · exact h.frame.nextUnit
  · exact h.modCore.nextUnit
  · exact h.modCore.nextUnit
  · exact h

theorem execMatrixUnitDone {core cmd : Nat} (h : Kept s₀ s) : KeptNext s₀ (execMatrixUnitDone core cmd s) := by
  unfold Machine.execMatrixUnitDone
  split
  · exact h
  · exact .ite h (.ite h.matUnit (.ite h.mmaStep (.ite (h.forEach (fun h1 => h1.mmaStep)) h)))

theorem finishMatrix {core : Nat} {c : Cmd} {n : Nat} (h : Kept s₀ s) : Kept s₀ (finishMatrix s core c n) := ((h.forEach (fun h1 => by
  extract_lets t
  have ht : Kept s₀ t := by
    unfold t
    split
    · exact h1.setObjError
    · exact h1
  exact ht.countRelease)).endCmd).blockExitTest

theorem execMatrixCommandComplete {core cmd : Nat} (h : Kept s₀ s) : KeptNext s₀ (execMatrixCommandComplete core cmd s) := by
  unfold Machine.execMatrixCommandComplete
  split
  · exact h
  · exact .ite h (.ite h.finishMatrix (.ite (h.forEach (fun h1 => h1.finishMatrix)) h))

/-! ### Ray queries -/

/-! A step of a query carries the state within its run. -/

theorem inRun {ws : List Nat} (h : Kept s₀ s) : Kept s₀ ({ s := s, words := ws } : RayRun).s := h

theorem inRunPair {γ : Type} {ws : List Nat} {y : γ} (h : Kept s₀ s) : Kept s₀ (({ s := s, words := ws } : RayRun), y).1.s := h

theorem rayLoad {x : RayRun} {core vline w : Nat} {pol : Policy} (h : Kept s₀ x.s) : Kept s₀ (x.load core pol vline w).1.s :=
  h.loadNow

theorem rayWord {e : RayEnv} {x : RayRun} {p : DWord} (h : Kept s₀ x.s) : Kept s₀ (rayWord e x p).1.s := by
  unfold Machine.rayWord
  split
  · exact h
  · extract_lets pol r
    have hr : Kept s₀ r.1.s := rayLoad h
    clear_value r
    split
    · exact h.count.inRunPair
    · exact hr

theorem rayWords {e : RayEnv} {x : RayRun} {p : DWord} {n : Nat} (h : Kept s₀ x.s) : Kept s₀ (rayWords e x p n).1.s := by
  induction n generalizing x p with
  | zero => exact h
  | succ n ih =>
    unfold Machine.rayWords
    extract_lets r z
    have hr : Kept s₀ r.1.s := rayWord h
    have hz : Kept s₀ z.1.s := ih hr
    clear_value z r
    split
    · exact hr
    · exact hz

theorem stackGet {e : RayEnv} {x : RayRun} {k : Nat} (h : Kept s₀ x.s) : Kept s₀ (stackGet e x k).1.s := by
  unfold Machine.stackGet
  split
  · exact h
  · exact rayLoad (rayLoad h)

theorem stackPut {e : RayEnv} {x y : RayRun} {k target te : Nat} (h : Kept s₀ x.s) (eq : stackPut e x k target te = .ok y) : Kept s₀ y.s := by
  unfold Machine.stackPut at eq
  split at eq
  · cases eq
  · obtain rfl := Except.ok.inj eq
    exact h.engineWrite.inRun

theorem rayPush {e : RayEnv} {x : RayRun} {q : RayQuery} {target te : Nat} (h : Kept s₀ x.s) : Kept s₀ (rayPush e x q target te).1.s := by
  unfold Machine.rayPush
  split
  · exact h
  · split
    · exact h
    · split
      · exact h
      · next hy => exact stackPut h hy

theorem rayNode {e : RayEnv} {x : RayRun} {q : RayQuery} {k n : Nat} (h : Kept s₀ x.s) : Kept s₀ (rayNode e x q k n).1.s := by
  unfold Machine.rayNode
  split
  · exact h
  · extract_lets r
    have hr : Kept s₀ r.1.s := rayWords h
    clear_value r
    split
    · exact hr
    · exact List.foldlRecOn (motive := fun z : RayRun × RayQuery => Kept s₀ z.1.s) _ _ hr fun _ hz _ _ => rayPush hz

theorem rayLeaf {e : RayEnv} {x : RayRun} {q : RayQuery} {k te n j : Nat} (h : Kept s₀ x.s) : Kept s₀ (rayLeaf e k te n j x q).1.s := by
  induction n generalizing x q j with
  | zero => exact h
  | succ n ih =>
    unfold Machine.rayLeaf
    extract_lets r
    have hr : Kept s₀ r.1.s := rayWords h
    clear_value r
    split
    · exact h
    · split
      · exact hr
      · split
        · exact ih hr
        · split
          · split
            · exact hr
            · exact ih hr
          · dsimp only
            split
            · exact hr
            · exact rayPush hr

theorem rayVisit {e : RayEnv} {x : RayRun} {q : RayQuery} (h : Kept s₀ x.s) : Kept s₀ (rayVisit e x q).1.s := by
  unfold Machine.rayVisit
  extract_lets k z y
  have hy : Kept s₀ y.s := stackGet h
  clear_value y z
  split
  · exact hy
  · split
    · exact hy
    · split
      · exact rayLeaf hy
      · exact rayNode hy

theorem rayRun {e : RayEnv} {n : Nat} {x : RayRun} {q : RayQuery} (h : Kept s₀ x.s) : Kept s₀ (rayRun e n x q).1.s := by
  induction n generalizing x q with
  | zero => exact h
  | succ n ih =>
    unfold Machine.rayRun
    split
    · exact ih (rayVisit h)
    · exact h

theorem rayStepLane {e : RayEnv} {x : RayRun} {q : RayQuery} (h : Kept s₀ x.s) : Kept s₀ (rayStepLane e x q).1.s := by
  unfold Machine.rayStepLane
  extract_lets q r p
  have hr : Kept s₀ r.1.s := rayRun h
  clear_value p r
  split
  · exact hr.count.inRunPair
  · exact hr

theorem setRay {g lane : Nat} {q : RayQuery} (h : Kept s₀ s) : Kept s₀ (State.setRay s g lane q) := h.modWarp

theorem rayLane {g : Nat} {w : Warp} {b : Block} {l : Launch} {rid : Nat} {x : RayRun} {lane : Nat} (h : Kept s₀ x.s) :
    Kept s₀ (rayLane g w b l rid x lane).s := by
  unfold Machine.rayLane
  extract_lets y q
  have hy : Kept s₀ y.s := by
    unfold y
    split
    · exact h
    · exact (rayStepLane h).setRay.inRun
  exact hy.resultData.inRun

theorem rayLanes {g : Nat} {w : Warp} {b : Block} {l : Launch} {rid : Nat} {lanes : LaneMask} (h : Kept s₀ s) :
    Kept s₀ (rayLanes s g w b l rid lanes).s :=
  List.foldlRecOn (motive := fun x : RayRun => Kept s₀ x.s) _ _ h fun _ hx _ _ => rayLane hx

theorem rqWords {g lane : Nat} {p : DWord} {n : Nat} (h : Kept s₀ s) : Kept s₀ (rqWords s g lane p n).1 := by
  induction n generalizing s p with
  | zero => exact h
  | succ n ih =>
    unfold Machine.rqWords
    extract_lets r z
    have hr : Kept s₀ r.1 := h.plainRead
    have hz : Kept s₀ z.1 := ih hr
    clear_value z r
    split
    · exact hr.pair
    · split
      · exact hr.pair
      · exact hz.pair

theorem rqInitLane {g lane : Nat} {fl : RayFlags} {w : Warp} {b : Block} {l : Launch} {a : Src} {p : DWord} (h : Kept s₀ s) :
    Kept s₀ (rqInitLane s g lane fl w b l a p).1 := by
  unfold Machine.rqInitLane
  split
  · exact h
  · extract_lets r ray bits
    have hr : Kept s₀ r.1 := h.rqWords
    clear_value r
    split
    · exact hr.pair
    · split
      · exact hr.pair
      · split
        · exact hr.pair
        · exact hr.pair
        · next hx => exact (stackPut hr hx).setRay

theorem execRayStep {core cmd : Nat} (h : Kept s₀ s) : KeptNext s₀ (execRayStep core cmd s) := by
  unfold Machine.execRayStep
  split
  · exact h
  · split
    · split
      · exact h
      · split
        · extract_lets t u
          have ht : Kept s₀ t.2 := h.engineTurn
          have hu : Kept s₀ u := (rayLanes ht).modWarp
          clear_value u t
          exact .ite ht hu.endCmd.wake.blockExitTest
        · exact h.endCmd.blockExitTest
    · exact h

theorem rqInitStep {g : Nat} {fl : RayFlags} {w : Warp} {blk : Block} {l : Launch} {a b : Src} {k : Nat} (h : Kept s₀ s) :
    Kept s₀ (rqInitStep g fl w blk l a b s k).1 := by
  unfold Machine.rqInitStep
  extract_lets p
  split
  · exact h
  · exact h.rqInitLane

theorem execRqinit {g : Guard} {fl : RayFlags} {a b : Src} (h : Kept s₀ s) : KeptNext s₀ (execRqinit g fl a b s) := h.issueLane fun h1 => by
  split
  · exact h1.someFates (fun h2 => h2.rqInitStep)
  · exact h1

theorem stepPosted {c : Ctx} {w : Warp} {b : Block} {l : Launch} {la d : Nat} (h : Kept s₀ s) : Kept s₀ (stepPosted s c w b l la d) := by
  unfold Machine.stepPosted
  exact h.releaseAct.openResult.newId.noteCmd.modCore

theorem execRqstep {g : Guard} {la d : Nat} (h : Kept s₀ s) : KeptNext s₀ (execRqstep g la d s) := h.issueLane fun h1 => by
  split
  · split
    · exact h1
    · split
      · exact h1
      · exact h1.stepPosted
  · exact h1

theorem commitLane {g : Nat} {end_ : Bool} {k : Nat} (h : Kept s₀ s) : Kept s₀ (commitLane g end_ s k) := by
  unfold Machine.commitLane
  split
  · exact h.setRay
  · exact h

theorem rqCommit {g : Guard} {end_ : Bool} (h : Kept s₀ s) : KeptNext s₀ (rqCommit s g end_) :=
  h.issueLane fun h1 => h1.forEach fun h2 => h2.commitLane

theorem execRqhit {g : Guard} {la : Nat} {cand : Bool} {sel : HitSel} {d : Nat} (h : Kept s₀ s) :
    KeptNext s₀ (execRqhit g la cand sel d s) := h.issueLane fun h1 => by
  split
  · exact h1
  · exact h1.newId.modWarp

theorem execMorton {g : Guard} {d : Nat} {a b c : Src} (h : Kept s₀ s) : KeptNext s₀ (execMorton g d a b c s) := h.issueLane fun h1 => by
  split
  · exact h1
  · exact h1.modWarp

theorem execBbox {g : Guard} {la d : Nat} {a : Src} (h : Kept s₀ s) : KeptNext s₀ (execBbox g la d a s) := h.issueLane fun h1 => by
  split
  · exact h1
  · exact h1.newId.modWarp

theorem execBvpack {g : Guard} {d : Nat} {a : Src} (h : Kept s₀ s) : KeptNext s₀ (execBvpack g d a s) := h.issueLane fun h1 => by
  split
  · exact h1
  · extract_lets v bad
    split
    · exact h1.trapAll
    · exact h1.modWarp

/-! ### System events -/

theorem csrWrite {core n : Nat} {v : DWord} (h : Kept s₀ s) : Kept s₀ (csrWrite s core n v) := by
  unfold Machine.csrWrite
  split
  · exact h
  · exact h.frame
  · exact h.frame
  · exact h.frame
  · exact h.frame
  · exact h.frame
  · exact h.frame
  · exact h.frame
  · exact h.frame
  · exact h.frame
  · exact h.frame
  · exact h.frame
  · exact h.frame
  · exact h.modCore
  · exact h.frame

theorem firmwareOnly {i : Instr} {run : Host.Outcome State Fault Refusal} (h : Kept s₀ s) (h1 : KeptNext s₀ run) :
    KeptNext s₀ (firmwareOnly s i run) := by
  unfold Machine.firmwareOnly
  split
  · exact h1
  · exact .ite h1 h.decodeTrap

theorem execCsrr {g : Guard} {d csr : Nat} (h : Kept s₀ s) : KeptNext s₀ (execCsrr g d csr s) :=
  h.firmwareOnly (h.issueUni (fun h1 => h1.modWarp))

theorem execCsrw {g : Guard} {csr a : Nat} (h : Kept s₀ s) : KeptNext s₀ (execCsrw g csr a s) := h.firmwareOnly (h.issueUni (fun h1 => by
  split
  · exact h1.csrWrite
  · exact h1))

theorem execHalt {g : Guard} (h : Kept s₀ s) : KeptNext s₀ (execHalt g s) := h.firmwareOnly (h.issueUni (fun h1 => h1.modCore.pair))

theorem execHaltedCoreRestart {core : Nat} (h : Kept s₀ s) : KeptNext s₀ (execHaltedCoreRestart core s) := .ite h.modCore h

theorem failPeerOp {core : Nat} {o : LsuOp} {cause detail : Nat} {addr : DWord} (h : Kept s₀ s) :
    Kept s₀ (failPeerOp s core o cause detail addr) := by
  unfold Machine.failPeerOp
  extract_lets s t
  have ht : Kept s₀ t := by
    unfold t
    split
    · exact h.frame
    · exact ((h.frame.forEach (fun h2 => h2.asyncEntry)).stallTidy).linkTidy
  exact ht.completeOp

theorem execPeerTimeout {peer : Nat} (h : Kept s₀ s) : KeptNext s₀ (execPeerTimeout peer s) :=
  (h.forEach (fun h1 => h1.failPeerOp)).forEach fun h2 => h2.frame.putFailed

theorem putAnswered {q : PeerPut} {refused : Bool} (h : Kept s₀ s) : Kept s₀ (putAnswered s q refused) := by
  unfold Machine.putAnswered
  extract_lets s
  split
  · split
    · exact h.frame
    · split
      · exact h.frame
      · split
        · exact h.frame.putFailed
        · split
          · exact h.frame.putAcked
          · exact h.frame
  · split
    · exact h.frame
    · exact .ite h.frame.failPeerOp (.ite h.frame h.frame.completeOp)

theorem execPeerAck {id : Nat} {refused : Bool} (h : Kept s₀ s) : KeptNext s₀ (execPeerAck id refused s) := by
  unfold Machine.execPeerAck
  split
  · exact h
  · split
    · exact h.putAnswered
    · split
      · exact h
      · split
        · exact h.failPeerOp
        · split
          · exact h.faultCopy
          · exact h

theorem execRemoteWindowAccess {off : Nat} {k : WindowKind} (h : Kept s₀ s) : KeptNext s₀ (execRemoteWindowAccess off k s) := by
  unfold Machine.execRemoteWindowAccess
  extract_lets pa n
  split
  · exact h
  · split
    · exact h.forEach (fun h1 => h1.fillSector)
    · exact h.cohWrite
    · exact Kept.ite h.count h.cohWrite

/-- CXLMEM becomes 1 after its two predecessors (R434). -/
theorem readyOrder_readySet {bit : Nat} (hm : readyMay s bit = true) (ht : t.ready = s.ready ||| BitVec.ofNat 64 (2 ^ bit)) (ho : readyOrder s) :
    readyOrder t := by
  unfold readyOrder at ho ⊢
  simp only [ht, BitVec.getLsbD_or, Bool.or_eq_true]
  intro h2
  by_cases hb : bit = 2
  · subst hb
    rw [readyMay, Bool.and_eq_true] at hm
    exact hm.imp .inl .inl
  · have hs : s.ready.getLsbD 2 = true := h2.resolve_right fun h2 => by
      rw [BitVec.getLsbD_ofNat, Nat.testBit_two_pow] at h2
      simp [hb] at h2
    exact (ho hs).imp .inl .inl

theorem execReadySet {bit : Nat} (h : Kept s₀ s) : KeptNext s₀ (execReadySet bit s) := by
  unfold Machine.execReadySet
  show Kept s₀ _
  split
  · next hm => exact Kept.hostPump (h.updateReady (fun hd => hd) (fun hm => hm) (fun hb => hb) (readyOrder_readySet hm rfl))
  · exact h

theorem execOvercurrent {on : Bool} (h : Kept s₀ s) : KeptNext s₀ (execOvercurrent on s) := h.frame

theorem execThermalThrottle (h : Kept s₀ s) : KeptNext s₀ (execThermalThrottle s) := Kept.ite h h.frame

theorem execThermalShutdown (h : Kept s₀ s) : KeptNext s₀ (execThermalShutdown s) := h.frame

theorem execFarrierWatchdogMiss (h : Kept s₀ s) : KeptNext s₀ (execFarrierWatchdogMiss s) := h.frame

theorem forgetAgent {agent : Nat} (h : Kept s₀ s) : Kept s₀ (forgetAgent s agent) := h.frame

theorem execCoreReset {t : ResetTarget} (h : Kept s₀ s) : KeptNext s₀ (execCoreReset t s) := by
  unfold Machine.execCoreReset
  split
  · split
    · exact h
    · extract_lets u left v
      have hu : Kept s₀ u := h.forgetAgent
      have hv : Kept s₀ v := hu.frame
      exact hv.modCore
  · exact .ite h.frame h

theorem measure {digest : Nat} (h : Kept s₀ s) : Kept s₀ (State.measure s digest) := h.frame

/-- A step back of FIRMWARE leaves the order of READY. -/
theorem readyOrder_firmwareCleared (ho : readyOrder s) : readyOrder { s with svcMode := 3, ready := s.ready &&& ~~~ 0x10#64 } := by
  unfold readyOrder at ho ⊢
  simpa using ho

theorem execFirmwareVerify {data : List Byte} {version : Nat} {signed : ImageSig} (h : Kept s₀ s) :
    KeptNext s₀ (execFirmwareVerify data version signed s) := by
  unfold Machine.execFirmwareVerify
  extract_lets ok image u
  have hu : Kept s₀ u := h.tell
  clear_value image
  exact Kept.ite hu.frame.measure (.ite (hu.updateReady (fun hd => hd) (fun hm => hm) (fun hb => hb) readyOrder_firmwareCleared) hu)

theorem execSpdmRequest {nonce : Nat} (h : Kept s₀ s) : KeptNext s₀ (execSpdmRequest nonce s) := .ite h h.frame

theorem execHealthUpdate {hours corrected : List Nat} (h : Kept s₀ s) : KeptNext s₀ (execHealthUpdate hours corrected s) :=
  h.frame.count.forEach fun h2 => h2.tell

theorem startFirmware {asid pc : Nat} (h : Kept s₀ s) : Kept s₀ (startFirmware s asid pc) := h.acceptLaunch

theorem mailed (h : Kept s₀ s) : Kept s₀ (mailed s) := h.frame

theorem execFarrierMailboxRequest {r : MailboxReq} (h : Kept s₀ s) : KeptNext s₀ (execFarrierMailboxRequest r s) := by
  unfold Machine.execFarrierMailboxRequest
  split
  · exact h.frame.mailed
  · exact h.discard.mailed
  · exact h.discard.mailed
  · exact h.frame.mailed
  · exact h.frame.mailed
  · exact h.frame
  · exact Kept.ite h.frame h.frame.mailed
  · exact Kept.ite h.frame h.frame.mailed
  · exact Kept.ite h.frame h.frame.mailed
  · exact Kept.ite h.frame h.startFirmware.mailed

theorem execFatalError {cause pa agent : Nat} (h : Kept s₀ s) : KeptNext s₀ (execFatalError cause pa agent s) := by
  unfold Machine.execFatalError
  split
  · exact h
  · extract_lets u bs base
    have hu : Kept s₀ u := h.frame.tell
    clear_value bs u
    split
    · exact hu
    · exact hu.update (mputBytes_wf bs _ _) (fun hm => hm) fun hb => hb

theorem execReset (h : Kept s₀ s) : KeptNext s₀ (execReset s) :=
  h.updateReady (fun _ => rfl) (fun hm => hm) (fun _ => rfl) fun _ h2 =>
    absurd (show BitVec.getLsbD State.reset.ready 2 = true from h2) (by decide)

/-! ### Every instruction and event -/

theorem exec {i : Instr} (h : Kept s₀ s) : KeptNext s₀ (exec i s) := by
  cases i
  all_goals dsimp only [Machine.exec]
  case nop => exact h.execNop
  case bra => exact h.execBra
  case braU => exact h.execBraU
  case brx => exact h.execBrx
  case call => exact h.execCall
  case callx => exact h.execCallx
  case ret => exact h.execRet
  case land => exact h.execLand
  case join | leave | mclr => exact h.maskOp
  case waitm => exact h.execWaitm
  case trap => exact h.execTrap
  case tret | tretNext => exact h.trapReturns
  case tkill => exact h.execTkill
  case tkillW => exact h.execTkillW
  case wdog => exact h.execWdog
  case yield => exact h.execYield
  case exit => exact h.execExit
  case bkpt => exact h.execBkpt
  case add | addVi | sub | subVi | mul | mulVi | mulhi | muladd | sum3 | dot4 | min | minVi | max | maxVi | abs | logicVi | plogic | shl |
      shlVi | shr | shrVi | funnel | scadd | bcnt | lzc | bitrev | xfld | ifld | mkmask | cmp | cmpVi | pick | pickVi | mov | movi | fadd |
      faddVi | fmul | fmulVi | fma | fmin | fminVi | fmax | fmaxVi | fcmp | fcmpVi | fclass | fabs | fneg | fround | fdot2 | fscale | f8add
      | f8mul | f8fma | f8min | f8max | recip | rsqrt | sqrt | exp2 | log2 | sin | cos | tanh | cvt | cvti | cvtf | cvtsr | mxq | mxdq |
      pkcvt | xlane | pollMask | pollAny | pollAll | pollSame | wred | wscan | eqmask | bytepSel | bytepLut16L | bytepLut16H | quadx | lead
      | rng | widr | clock | ptst | ptstClr => exact h.laneOp
  case logic => exact h.execLogic
  case ld => exact h.execLd
  case st => exact h.execSt
  case atom => exact h.execAtom
  case red => exact h.execRed
  case lds => exact h.execLds
  case sst => exact h.execSst
  case pref => exact h.execPref
  case ordenter => exact h.execOrdenter
  case ordexit => exact h.execOrdexit
  case fraginOpen => exact h.execFraginOpen
  case fraginWave => exact h.execFraginWave
  case fraginRead => exact h.execFraginRead
  case fkill => exact h.execFkill
  case covw => exact h.execCovw
  case bary => exact h.execBary
  case flins => exact h.execFlins
  case flhead => exact h.execFlhead
  case flnode => exact h.execFlnode
  case flclrInit => exact h.execFlclrInit
  case flclrPix => exact h.execFlclrPix
  case flbudgetSet => exact h.execFlbudgetSet
  case flbudgetGet => exact h.execFlbudgetGet
  case flbudgetRule => exact h.execFlbudgetRule
  case flbudgetRrd => exact h.execFlbudgetRrd
  case flmrg => exact h.execFlmrg
  case flmrgOne => exact h.execFlmrgOne
  case rqinit => exact h.execRqinit
  case rqstep => exact h.execRqstep
  case rqhit => exact h.execRqhit
  case rqcommit | rqcommitEnd => exact h.rqCommit
  case rqappend => exact flDirect (fun _ _ _ => flInsert_tx) h
  case morton => exact h.execMorton
  case bbox => exact h.execBbox
  case bvpack => exact h.execBvpack
  case umov | umovQ | umovQ2s | umovS2q | umovi | umoviHi | uadd | uaddUi | usub | usubUi | umul | umulUi | uand | uandUi | uor | uorUi |
      uxor | uxorUi | ushl | ushlUi | ushr | ushrUi | usetp | usetpUi | usel | uselUi | s2v | sregR | sregW => exact h.uniOp
  case v2s => exact h.execV2s
  case tshape => exact h.execTshape
  case uld => exact h.execUld
  case sdef => exact h.execSdef
  case fence => exact h.execFence
  case tfence => exact h.execTfence
  case tfenceRange => exact h.execTfenceRange
  case tfenceAll => exact h.execTfenceAll
  case bind => exact h.execBind
  case unbind => exact h.execUnbind
  case ipf => exact h.execIpf
  case barSync => exact h.execBarSync
  case barArrive => exact h.execBarArrive
  case barWait => exact h.execBarWait
  case barp => exact h.execBarp
  case bardrop => exact h.execBardrop
  case arrivec => exact h.execArrivec
  case cwait => exact h.execCwait
  case cwaitb => exact h.execCwaitb
  case monitor => exact h.execMonitor
  case mwait => exact h.execMwait
  case qpush => exact h.execQpush
  case qpop => exact h.execQpop
  case park => exact h.execPark
  case fulfil => exact h.execFulfil
  case launch => exact h.execLaunch
  case vsp => exact h.execVsp
  case sget => exact h.execSget
  case sput => exact h.execSput
  case sleep => exact h.execSleep
  case progrd => exact h.execProgrd
  case cpy | cpym | redv => exact h.postCopy
  case cguardClr => exact h.execCguardClr
  case cguardSet => exact h.execCguardSet
  case cguardRd => exact h.execCguardRd
  case cpres => exact h.execCpres
  case cabort => exact h.execCabort
  case cabortAll => exact h.execCabortAll
  case tld | tst | tzero | tcvt | mma | mmax | aclr | ald | ast | acvt => exact h.postMatrix
  case msign => exact h.execMsign
  case msignArm => exact h.execMsignArm
  case msignRd => exact h.execMsignRd
  case eset => exact h.execEset
  case esetRd => exact h.execEsetRd
  case csrr => exact h.execCsrr
  case csrw => exact h.execCsrw
  case halt => exact h.execHalt
  case sealWrite => exact h.execSealWrite
  case launchRecord => exact h.execLaunchRecord
  case heldRecordParse => exact h.execHeldRecordParse
  case preEmpt => exact h.execPreEmpt
  case resume => exact h.execResume
  case cancel => exact h.execCancel
  case launchComplete => exact h.execLaunchComplete
  case blockAdmit => exact h.execBlockAdmit
  case admissionReserve => exact h.execAdmissionReserve
  case quantumEnd => exact h.execQuantumEnd
  case blockSave => exact h.execBlockSave
  case blockResume => exact h.execBlockResume
  case switchRendezvous => exact h.execSwitchRendezvous
  case switchMove => exact h.execSwitchMove
  case issueClassUpdate => exact h.setClasses
  case icacheFill => exact h.execIcacheFill
  case issueSelect => exact h.execIssueSelect
  case heldClear | waitmRelease | monitorTimeout => exact h.modWarp
  case trapDeliver => exact h.execTrapDeliver
  case asyncTrap => exact h.execAsyncTrap
  case watchdog => exact h.execWatchdog
  case resultArrive => exact h.execResultArrive
  case poolGrant => exact h.execPoolGrant
  case spill => exact h.execSpill
  case absentLineRelease => exact h.execAbsentLineRelease
  case commandQueueRelease => exact h.execCommandQueueRelease
  case guardDiscard => exact h.execGuardDiscard
  case copyCommandStart => exact h.execCopyCommandStart
  case copyUnitDone => exact h.execCopyUnitDone
  case copyFault => exact h.execCopyFault
  case cpymDestFault => exact h.execCpymDestFault
  case matrixCommandStart => exact h.execMatrixCommandStart
  case gangMmaStart => exact h.execGangMmaStart
  case matrixUnitDone => exact h.execMatrixUnitDone
  case matrixCommandComplete => exact h.execMatrixCommandComplete
  case signatureCount => exact h.execSignatureCount
  case matrixEccError => exact h.execMatrixEccError
  case rdS | rdL | rdN | ownRq | upg | wrT | wrN | atomicReq | wb => exact h.homeRequest
  case fwd => exact h.execFwd
  case rcl => exact h.execRcl
  case inv => exact h.execInv
  case grant => exact h.execGrant
  case homeAck => exact h.execHomeAck
  case l2MissFill => exact h.execL2MissFill
  case victimForce => exact h.execVictimForce
  case agentFence => exact h.execAgentFence
  case hostMemrd => exact h.execHostMemrd
  case hostMemwr => exact h.execHostMemwr
  case bisnpAnswer => exact h.execBisnpAnswer
  case hostSnoop => exact h.execHostSnoop
  case cwaitRetest => exact h.execCwaitRetest
  case arrivecRankRelease => exact h.execArrivecRankRelease
  case monitorRegistered => exact h.execMonitorRegistered
  case queueSlotStep => exact h.execQueueSlotStep
  case parkRetest => exact h.execParkRetest
  case sleepWake => exact h.execSleepWake
  case launchAnswer => exact h.execLaunchAnswer
  case fragmentDelivery => exact h.execFragmentDelivery
  case ordenterRelease => exact h.execOrdenterRelease
  case ordexitRelease => exact h.execOrdexitRelease
  case gateEntryFree => exact h.execGateEntryFree
  case flclrRun => exact h.execFlclrRun
  case rayStep => exact h.execRayStep
  case peerTimeout => exact h.execPeerTimeout
  case peerAck => exact h.execPeerAck
  case readySet => exact h.execReadySet
  case coreReset => exact h.execCoreReset
  case overcurrent => exact h.execOvercurrent
  case thermalThrottle => exact h.execThermalThrottle
  case thermalShutdown => exact h.execThermalShutdown
  case farrierWatchdogMiss => exact h.execFarrierWatchdogMiss
  case firmwareVerify => exact h.execFirmwareVerify
  case spdmRequest => exact h.execSpdmRequest
  case healthUpdate => exact h.execHealthUpdate
  case fatalError => exact h.execFatalError
  case reset => exact h.execReset
  case remoteWindowAccess => exact h.execRemoteWindowAccess
  case farrierMailboxRequest => exact h.execFarrierMailboxRequest
  case haltedCoreRestart => exact h.execHaltedCoreRestart
  case writeAcknowledged => exact h.execWriteAcknowledged
  case translationWalk => exact h.execTranslationWalk

/-! ### A step -/

theorem stepIssue {g : Nat} {e : Entry} (h : Kept s₀ s) : KeptNext s₀ (stepIssue s g e) := by
  unfold Machine.stepIssue
  split
  · exact h.fetchMiss
  · split
    · exact h.exec
    · exact h.decodeTrap

theorem of_next {r : Host.Outcome State Fault Refusal} (h : KeptNext s₀ r) (e : r = .next t) : Kept s₀ t := by
  subst e
  exact h

theorem endTurn {k : Nat} {r : Host.Outcome State Fault Refusal} (h : KeptNext s₀ r) : KeptNext s₀ (endTurn k r) := by
  cases r with
  | next s => exact Kept.settleTurn h
  | fault f => trivial
  | refused x => trivial

theorem askEntry {g eid : Nat} (h : Kept s₀ s) : Kept s₀ (askEntry g eid s) := by
  unfold Machine.askEntry
  split
  · exact h
  · split
    · split
      · next ht => exact of_next (exec h.frame) ht
      · exact h
    · exact h

theorem askPart {k : Nat} (h : Kept s₀ s) : Kept s₀ (askPart k s) := h.forEach fun h1 => h1.forEach fun h2 => h2.askEntry

theorem focusTurn (h : Kept s₀ s) : KeptNext s₀ (focusTurn s) := (((Kept.ite h.elapse h).frame).askPart).execIssueSelect

theorem stepEvent {i : Instr} (h : Kept s₀ s) : KeptNext s₀ (stepEvent i s) := by
  unfold Machine.stepEvent
  split
  · exact h.askPart.exec
  · exact h.exec

theorem step (h : Kept s₀ s) : KeptNext s₀ (step s) := by
  unfold Machine.step
  split
  · split
    · exact h.frame.pass.execReset
    · exact trivial
  · split
    · split
      · exact endTurn h.stepIssue
      · exact h.frame
    · split
      · exact h.execAsyncTrap
      · exact h.retest
      · exact h.frame.elapse.stepEvent
      · exact h.focusTurn

end Kept

/-- Settles O53: a step keeps each memory's canonical form, for each of its operations does. -/
theorem memoryCanonical : Obligations.MemoryCanonical := fun s _ hs e =>
  (Kept.of_next (Kept.refl s).step e).mem hs

end Sys2Proof.Machine

namespace Sys2Proof.Machine

/-! ## The step of a split that is about to issue (R10, R42, R43) -/

/-- A split that is about to issue is the machine's current one. -/
theorem cur_of_issuing {s : State} {x : Nat × Warp × Entry} (h : s.issuing = some x) : ∃ c, s.cur = some c := by
  obtain ⟨c, hc, _⟩ := Option.bind_eq_some_iff.mp h
  exact ⟨c, hc⟩

/-- The step of a powered machine with an issuing split is that split's, at the end of its partition's turn. -/
theorem step_of_issuing {s : State} {g : Nat} {w : Warp} {e : Entry} (hp : s.powered = true) (hs : s.issuing = some (g, w, e)) :
    step s = endTurn (partOf g) (stepIssue s g e) := by
  obtain ⟨c, hc⟩ := cur_of_issuing hs
  unfold step
  simp [hp, hc, hs]

theorem stepIssue_miss {s : State} {g : Nat} {e : Entry} (hf : fetchWord s g e.pc = none) : stepIssue s g e = .next (fetchMiss s g e.pc) := by
  simp [stepIssue, hf]

theorem stepIssue_ok {s : State} {g : Nat} {e : Entry} {word : DWord} {i : Instr} (hf : fetchWord s g e.pc = some word)
    (hd : decodeAt s g word = .ok i) : stepIssue s g e = exec i s := by
  simp [stepIssue, hf, hd]

theorem stepIssue_error {s : State} {g : Nat} {e : Entry} {word : DWord} {cause : Nat} (hf : fetchWord s g e.pc = some word)
    (hd : decodeAt s g word = .error cause) : stepIssue s g e = .next (decodeTrap s g e cause word) := by
  simp [stepIssue, hf, hd]

/-- The decoder at a PC and the statement name the same words of the system group (R42). -/
theorem foreignSystem_eq (s : State) (g : Nat) (word : DWord) : foreignSystem s g word = (isSystemWord word.toNat && !inFirmware s g) := by
  rw [BitVec.natCast_eq_ofNat, BitVec.ofNat_toNat, BitVec.setWidth_eq]
  rfl

/-- A word of the system group has no meaning outside firmware context (R42, R438). -/
theorem decodeAt_foreign {s : State} {g : Nat} {word : DWord} (h : foreignSystem s g word = true) : decodeAt s g word = .error 0x01 := by
  simp only [decodeAt, ← foreignSystem_eq, h, if_true]

theorem decodeAt_ok {s : State} {g : Nat} {word : DWord} {i : Instr} (h : foreignSystem s g word = false) (hd : decodeWord word = .ok i) :
    decodeAt s g word = .ok i := by
  simp only [decodeAt, ← foreignSystem_eq, h, Bool.false_eq_true, if_false, hd]

theorem decodeAt_illegalInstruction {s : State} {g : Nat} {word : DWord} (hd : decodeWord word = .error .illegalInstruction) :
    decodeAt s g word = .error 0x01 := by
  simp [decodeAt, hd]

theorem decodeAt_illegalEncoding {s : State} {g : Nat} {word : DWord} (h : foreignSystem s g word = false)
    (hd : decodeWord word = .error .illegalEncoding) : decodeAt s g word = .error 0x02 := by
  simp only [decodeAt, ← foreignSystem_eq, h, Bool.false_eq_true, if_false, hd]

/-- Settles O6: the word at hand is decoded to an instruction, and the turn ends with its outcome. -/
theorem stepRunsDecoded : Obligations.StepRunsDecoded := by
  refine ⟨fun s g w e word i ha hd hf => ?_, fun _ _ => rfl, fun _ _ => rfl, fun _ _ => rfl⟩
  rw [step_of_issuing ha.power ha.split, stepIssue_ok ha.fetch (decodeAt_ok hf hd)]

/-- A word that is no instruction traps every lane of a calm split. -/
theorem step_of_decodeAt_error {s : State} {g : Nat} {w : Warp} {e : Entry} {word : DWord} {cause : Nat} (ha : AtWord s g w e word)
    (hc : Calm s g w e) (hd : decodeAt s g word = .error cause) :
    step s = .next (((s.begun g e).stepped g e [(e.mask, .trap { cause := cause, detail := 0, addr := word })]).settleTurn (partOf g)) := by
  rw [step_of_issuing ha.power ha.split, stepIssue_error ha.fetch hd, decodeTrap_calm hc]
  rfl

/-- Settles O7: each decode fault has its cause, and the trap that a cause raises does not depend on the word's guard. -/
theorem stepDecodeFault : Obligations.StepDecodeFault := fun _ _ _ _ _ ha hc =>
  ⟨fun h => step_of_decodeAt_error ha hc (h.elim decodeAt_foreign decodeAt_illegalInstruction),
    fun hf hd => step_of_decodeAt_error ha hc (decodeAt_illegalEncoding hf hd)⟩

/-! ## Steps without a word (log entry 1) -/

/-- With no split about to issue, a pending asynchronous trap comes first (R167). -/
theorem step_of_asyncs {s : State} {t : AsyncTrap} {r : List AsyncTrap} (hp : s.powered = true) (hc : s.cur = none) (ha : s.asyncs = t :: r) :
    step s = execAsyncTrap 0 s := by
  unfold step
  simp [hp, hc, ha]

/-- Next comes a re-read that is owed and can take place (R306, R317). -/
theorem step_of_retest {s : State} {r : Nat × MonLine} (hp : s.powered = true) (hc : s.cur = none) (ha : s.asyncs = [])
    (hr : s.retests.find? (retestOpen s) = some r) : step s = .next (s.retest r) := by
  unfold step
  simp [hp, hc, ha, hr]

theorem Between.step_scheduled {s : State} {dt : Nat} {ev : Instr} {rest : List (Nat × Instr)} (h : Between s)
    (hs : s.schedule = (dt, ev) :: rest) : step s = stepEvent ev ({ s with schedule := rest }.elapse dt) := by
  unfold step
  simp [h.power, h.idle, h.asyncs, h.retests, hs]

theorem Between.step_unscheduled {s : State} (h : Between s) (hs : s.schedule = []) : step s = focusTurn s := by
  unfold step
  simp [h.power, h.idle, h.asyncs, h.retests, hs]

/-- An event other than a partition's choice takes place at once. -/
theorem stepEvent_other {ev : Instr} (h : ∀ core part, ev ≠ .issueSelect core part) (s : State) : stepEvent ev s = exec ev s := by
  unfold stepEvent
  split
  · next core part => exact absurd rfl (h core part)
  · rfl

/-- The turn of a partition that is not the first of its cc. -/
theorem focusTurn_inner {s : State} (h0 : 0 < s.focus) (h1 : s.focus + 1 < turnCount) :
    focusTurn s = execIssueSelect (s.focus / 2 / 16) (s.focus / 2 % 16) (askPart (s.focus / 2) { s with focus := s.focus + 1 }) := by
  simp only [focusTurn, if_neg h0.ne', Nat.mod_eq_of_lt h1]

/-- The first turn of a cc comes after the cc has passed. -/
theorem focusTurn_first {s : State} (h : s.focus = 0) : focusTurn s = execIssueSelect 0 0 (askPart 0 { s.elapse 1 with focus := 1 }) := by
  have h1 : (0 + 1) % turnCount = 1 := Nat.mod_eq_of_lt (by decide)
  simp only [focusTurn, h, if_true, h1, Nat.zero_div, Nat.zero_mod]

/-- Without power a step takes place only where a reset is scheduled. -/
theorem step_of_unpowered {s : State} (hp : s.powered = false) (hs : ∀ dt rest, s.schedule ≠ (dt, .reset) :: rest) : step s = .fault .poweredOff := by
  unfold step
  rw [if_pos (by simp [hp])]
  split
  · next dt rest h => exact absurd h (hs dt rest)
  · rfl

/-- Settles O8: a clause for each way in which a step finds no word to issue. -/
theorem stepTurns : Obligations.StepTurns := by
  refine ⟨fun s g w e hp hs hf => ?miss, fun s t r hp hc ha => step_of_asyncs hp hc ha, fun s r hp hc ha hr => step_of_retest hp hc ha hr,
    fun s dt ev rest h hs hn => ?event, fun s dt core part rest h hs => ?choice, fun s h hs h0 h1 => ?turn, fun s h hs h0 => ?first,
    fun s dt ev rest hp hs hn => ?noReset, fun s hp hs => ?noEvent⟩
  case miss => rw [step_of_issuing hp hs, stepIssue_miss hf]; rfl
  case event => rw [h.step_scheduled hs, stepEvent_other hn]
  case choice => rw [h.step_scheduled hs]; rfl
  case turn => rw [h.step_unscheduled hs, focusTurn_inner h0 h1]; rfl
  case first => rw [h.step_unscheduled hs, focusTurn_first h0]; rfl
  case noReset =>
    refine step_of_unpowered hp fun dt' rest' h => hn ?_
    rw [hs] at h
    cases h
    rfl
  case noEvent => exact step_of_unpowered hp fun dt rest h => by simp [hs] at h

end Sys2Proof.Machine

namespace Sys2Proof.Machine

section
variable {s b t u : State} {core cmd : Nat} {c : Cmd}

/-! ## Copy commands (R331, R333, R335, R337, R338) -/

/-- A queued command whose guard has been found false is discarded. -/
theorem execGuardDiscard_refused (hc : s.cmd? core cmd = some c) (hq : c.st = .queued) (hr : c.refused = true) :
    execGuardDiscard core cmd s = .next ((s.discardCmd core c).blockExitTest c.block) := by
  simp [execGuardDiscard, hc, hq, hr]

/-- A queued copy command that nothing holds back starts. -/
theorem execCopyCommandStart_free (hc : s.cmd? core cmd = some c) (hq : c.st = .queued) (hk : c.kind.isCopy = true) (hh : s.heldBack core c = false)
    (hg : c.guard = none) (he : s.edgeInto core c = false) (hp : s.pgBusy core c = false) :
    execCopyCommandStart core cmd s = .next (s.modCmd core cmd fun c => { c with st := .running, since := s.devNs }) := by
  simp [execCopyCommandStart, guardOpen, hc, hq, hk, hh, hg, he, hp]

section
variable {k : CopyKind} {r : CopyReq}

/-- The engine's own test for a unit to move. -/
theorem UnitAt.goes_eq (h : UnitAt s core cmd c k r) : (c.st == .running && c.sent.isNone && decide (c.next < c.units)) = true := by
  obtain ⟨hst, hsent, hnext⟩ := h.goes
  simp [hst, hsent, hnext]

/-- A unit waits while the homes have not taken its words. -/
theorem execCopyUnitDone_waits (h : UnitAt s core cmd c k r) (hk : k ≠ .cpym)
    (ht : unitTaken s core c k r (readWords s c r c.next) (writeWords s c r) = (false, b)) : execCopyUnitDone core cmd s = .next b := by
  simp [execCopyUnitDone, h.cmd, h.kind, h.goes_eq, hk, ht]

/-- A unit that the homes have taken moves; the command goes on unless the unit is a put that waits for its answer. -/
theorem execCopyUnitDone_moves {c' : Cmd} (h : UnitAt s core cmd c k r) (hk : k ≠ .cpym)
    (ht : unitTaken s core c k r (readWords s c r c.next) (writeWords s c r) = (true, b)) (hu : copyUnit b core c (cmdDet s c) k r = .ok t)
    (hc : t.cmd? core cmd = some c') : execCopyUnitDone core cmd s = .next (if c'.sent.isSome then t else advanceCopy t core c' r) := by
  simp [execCopyUnitDone, h.cmd, h.kind, h.goes_eq, hk, ht, hu, hc]

/-- A multicast command takes its own kind of step. -/
theorem execCopyUnitDone_multicast (h : UnitAt s core cmd c .cpym r) : execCopyUnitDone core cmd s = .next (multicastStep s core c r) := by
  simp [execCopyUnitDone, h.cmd, h.kind, h.goes_eq]

/-- A unit that faults ends its command with the fault. -/
theorem execCopyFault_unit {n x : Nat} (h : UnitAt s core cmd c k r) (hk : k ≠ .cpym)
    (ht : unitTaken s core c k r (readWords s c r c.next) (writeWords s c r) = (true, b))
    (hu : copyUnit b core c (cmdDet s c) k r = .fault n x) : execCopyFault core cmd s = .next (faultCopy b core c n x) := by
  simp [execCopyFault, h.cmd, h.kind, h.goes_eq, hk, ht, hu]

/-- So does the read of a multicast command that must read. -/
theorem execCopyFault_multicast {n x : Nat} (h : UnitAt s core cmd c .cpym r) (hm : mustRead s c r = true)
    (ht : unitTaken s core c .cpym r (readWords s c r c.readTo) [] = (true, b)) (hu : readUnit b core c r = .fault n x) :
    execCopyFault core cmd s = .next (faultCopy b core c n x) := by
  simp [execCopyFault, h.cmd, h.kind, h.goes_eq, hm, ht, hu]

/-- A destination of a multicast command whose next unit faults fails by itself. -/
theorem execCpymDestFault_reach {dest n x : Nat} (hc : s.cmd? core cmd = some c) (hk : c.kind = .copy .cpym r) (hs : c.st = .running)
    (hd : (c.dests r).contains dest = true ∧ c.mark dest < c.units) (hu : destReach s c r dest (c.mark dest) = .fault n x) :
    execCpymDestFault core cmd dest s = .next (copyEnds (leastMark (destFailed s core c r dest n) core cmd r) core cmd) := by
  obtain ⟨hdest, hmark⟩ := hd
  simp only [execCpymDestFault, hc, hk, hs, hdest, hmark, hu, beq_self_eq_true, decide_true, Bool.and_self, Bool.not_true, Bool.false_eq_true, if_false]

end

/-! ## Matrix commands and signatures (R356–R370) -/

/-- A matrix command outside a gang starts when it is ready and the first of its core. -/
theorem execMatrixCommandStart_first (hc : s.cmd? core cmd = some c) (hn : c.gang = none) (hr : matReady s core c = true)
    (hf : matFirst s core c = true) :
    execMatrixCommandStart core cmd s = .next (s.modCmd core cmd fun c => { c with st := .running, since := s.devNs }) := by
  simp [execMatrixCommandStart, hc, hn, hr, hf]

/-- The MMAs of a gang start together. -/
theorem execGangMmaStart_go (hc : s.cmd? core cmd = some c) (hg : gangGo s c = true) :
    execGangMmaStart core cmd s = .next (forEach (gangMmas s c c.st) s (gangStart (gangMmas s c c.st) s.devNs)) := by
  simp [execGangMmaStart, hc, hg]

theorem execMatrixUnitDone_plain (hc : s.cmd? core cmd = some c) (hs : c.st = .running ∧ c.next < c.units)
    (hk : c.kind.isMatrix = true ∧ c.kind.isMma = false) : execMatrixUnitDone core cmd s = .next (matUnit s core c) := by
  simp [execMatrixUnitDone, hc, hs, hk]

theorem execMatrixUnitDone_mma (hc : s.cmd? core cmd = some c) (hs : c.st = .running ∧ c.next < c.units)
    (hk : c.kind.isMatrix = true ∧ c.kind.isMma = true) (hg : c.gang = none) : execMatrixUnitDone core cmd s = .next (mmaStep s [] core c) := by
  simp [execMatrixUnitDone, hc, hs, hk, hg]

/-- A gang of four takes a unit of each of its MMAs that has one left. -/
theorem execMatrixUnitDone_gang (hc : s.cmd? core cmd = some c) (hs : c.st = .running ∧ c.next < c.units)
    (hk : c.kind.isMatrix = true ∧ c.kind.isMma = true) (hg : c.gang ≠ none) (h4 : (gangMmas s c .running).length = 4) :
    execMatrixUnitDone core cmd s = .next (forEach ((gangMmas s c .running).filter fun m => m.2.2.next < m.2.2.units) s fun t m =>
      mmaStep t (gangMmas s c .running) m.2.1 m.2.2) := by
  simp [execMatrixUnitDone, hc, hs, hk, hg, h4]

theorem execMatrixCommandComplete_plain (hc : s.cmd? core cmd = some c) (hs : c.st = .running ∧ c.units ≤ c.next) (hk : c.kind.isMatrix = true)
    (hg : c.gang = none) : execMatrixCommandComplete core cmd s = .next (finishMatrix s core c (matBytes [] core c)) := by
  simp [execMatrixCommandComplete, hc, hs, hk, hg]

/-- A gang of four completes when each of its MMAs has done its units. -/
theorem execMatrixCommandComplete_gang (hc : s.cmd? core cmd = some c) (hs : c.st = .running ∧ c.units ≤ c.next) (hk : c.kind.isMatrix = true)
    (hg : c.gang ≠ none) (h4 : (gangMmas s c .running).length = 4) (ha : ∀ m ∈ gangMmas s c .running, m.2.2.units ≤ m.2.2.next) :
    execMatrixCommandComplete core cmd s =
      .next (forEach (gangMmas s c .running) s fun t m => finishMatrix t m.2.1 m.2.2 (matBytes (gangMmas s c .running) m.2.1 m.2.2)) := by
  have hall : ((gangMmas s c .running).all fun m => decide (m.2.2.units ≤ m.2.2.next)) = true := by simpa using ha
  simp [execMatrixCommandComplete, hc, hs, hk, hg, h4, hall]

/-- A signature counts once none of the commands before it is left. -/
theorem execSignatureCount_clear {warp i : Nat} {w : Warp} {p : PendingSig} (hw : s.warp? warp = some w) (hp : w.sigs[i]? = some p)
    (hc : ∀ c ∈ (s.core (coreOf warp)).cmds, c.id ∉ p.cmds) :
    execSignatureCount warp i s = .next (cvCount (s.modWarp warp fun w => { w with sigs := w.sigs.eraseIdx i }) w.block (coreOf warp) p.cv) := by
  have hany : ((s.core (coreOf warp)).cmds.any fun c => p.cmds.contains c.id) = false := by simpa using hc
  simp only [execSignatureCount, hw, hp, hany, Bool.false_eq_true, if_false]

/-! ## Clears of fragment lists (R404) -/

section
variable {area : DWord} {px pg n : Nat} {list : List Nat}

/-- A clear that runs, or has no edge into it, goes on. -/
theorem flclr_open (hq : c.st ≠ .queued ∨ s.edgeInto core c = false) : (c.st == .queued && s.edgeInto core c) = false := by
  rcases hq with h | h <;> simp [h]

/-- A line of the area is written once its home has taken it; until then the command waits. -/
theorem execFlclrRun_init {x : Loc} {r : Bool × State} (hc : s.cmd? core cmd = some c) (hq : c.st ≠ .queued ∨ s.edgeInto core c = false)
    (hk : c.kind = .flclr true area px pg n list) (hx : flLoc s c.block (addOffset area ((128 * c.next : Nat) : Int)) .write = .ok x)
    (ht : engineTurn s core .ownRq (x.homeWords 128) (x.homeWords 128) = r) :
    execFlclrRun core cmd s = .next (if r.1 then stepFlclr (initWritten r.2 core x px pg c.next) core c else r.2) := by
  simp only [execFlclrRun, hc, flclr_open hq, hk, hx, ht, Bool.false_eq_true, if_false]

theorem execFlclrRun_initFault {f : TrapInfo} (hc : s.cmd? core cmd = some c) (hq : c.st ≠ .queued ∨ s.edgeInto core c = false)
    (hk : c.kind = .flclr true area px pg n list) (hx : flLoc s c.block (addOffset area ((128 * c.next : Nat) : Int)) .write = .error f) :
    execFlclrRun core cmd s = .next (failFlclr s core c f.addr) := by
  simp only [execFlclrRun, hc, flclr_open hq, hk, hx, Bool.false_eq_true, if_false]

/-- A pixel's list is cleared in one transaction once the homes have taken its words. -/
theorem execFlclrRun_pixel {p : Nat} (hc : s.cmd? core cmd = some c) (hq : c.st ≠ .queued ∨ s.edgeInto core c = false)
    (hk : c.kind = .flclr false area px pg n list) (hp : list[c.next]? = some p)
    (ht : engineTurn s core .ownRq [] (pixTurn s c area p).2.dedup = (true, b)) (hx : (pixTurn b c area p).1 = .ok t) :
    execFlclrRun core cmd s = .next (stepFlclr (engineOwn t core (pixTurn b c area p).2.dedup) core c) := by
  simp [execFlclrRun, hc, flclr_open hq, hk, hp, ht, hx]

theorem execFlclrRun_pixelWaits {p : Nat} (hc : s.cmd? core cmd = some c) (hq : c.st ≠ .queued ∨ s.edgeInto core c = false)
    (hk : c.kind = .flclr false area px pg n list) (hp : list[c.next]? = some p)
    (ht : engineTurn s core .ownRq [] (pixTurn s c area p).2.dedup = (false, b)) : execFlclrRun core cmd s = .next b := by
  simp [execFlclrRun, hc, flclr_open hq, hk, hp, ht]

theorem execFlclrRun_pixelFault {p : Nat} {f : TrapInfo} (hc : s.cmd? core cmd = some c) (hq : c.st ≠ .queued ∨ s.edgeInto core c = false)
    (hk : c.kind = .flclr false area px pg n list) (hp : list[c.next]? = some p)
    (ht : engineTurn s core .ownRq [] (pixTurn s c area p).2.dedup = (true, b)) (hx : (pixTurn b c area p).1 = .error (.trap f)) :
    execFlclrRun core cmd s = .next (failFlclr b core c f.addr) := by
  simp [execFlclrRun, hc, flclr_open hq, hk, hp, ht, hx]

theorem execFlclrRun_end (hc : s.cmd? core cmd = some c) (hq : c.st ≠ .queued ∨ s.edgeInto core c = false)
    (hk : c.kind = .flclr false area px pg n list) (hp : list[c.next]? = none) : execFlclrRun core cmd s = .next (endFlclr s core c) := by
  simp [execFlclrRun, hc, flclr_open hq, hk, hp]

end

/-! ## Ray steps (R417, R418) -/

section
variable {lanes : LaneMask} {rid : Nat}

/-- The lanes of a ray command take their step together once the homes have taken the words that they read; until then it waits. -/
theorem execRayStep_warp {g : Nat} {w : Warp} {bk : Block} {l : Launch} {r : Bool × State} (hc : s.cmd? core cmd = some c)
    (hk : c.kind = .rqstep lanes rid) (hq : c.st = .queued) (he : s.edgeInto core c = false) (hb : rayBefore s core c lanes = false)
    (hw : cmdWarp s c = some (g, w)) (hbk : s.block? c.block = some bk) (hl : s.launch? bk.launch = some l)
    (ht : engineTurn s core .rdS [] (rayLanes s g w bk l rid lanes).words.dedup = r) :
    execRayStep core cmd s = .next (if r.1 then
      (((((rayLanes r.2 g w bk l rid lanes).s.modWarp g fun w => w.modResult rid fun x => { x with done := true }).endCmd core c true).wake g
        ).blockExitTest c.block) else r.2) := by
  obtain ⟨done, v⟩ := r
  cases done <;> simp [execRayStep, hc, hk, hq, he, hb, hw, hbk, hl, ht]

/-- A ray command whose warp is gone ends. -/
theorem execRayStep_gone (hc : s.cmd? core cmd = some c) (hk : c.kind = .rqstep lanes rid) (hq : c.st = .queued)
    (he : s.edgeInto core c = false) (hb : rayBefore s core c lanes = false) (hw : cmdWarp s c = none) :
    execRayStep core cmd s = .next ((s.endCmd core c true).blockExitTest c.block) := by
  simp [execRayStep, hc, hk, hq, he, hb, hw]

end
end

/-- Settles O46: under each event's conditions its engine takes the branch that the event names. -/
theorem commandEvents : Obligations.CommandEvents := by
  intro s i t h
  cases h with
  | guardDiscard core cmd c hc hq hr => exact execGuardDiscard_refused hc hq hr
  | copyStart core cmd c hc hq hk hh hg he hp => exact execCopyCommandStart_free hc hq hk hh hg he hp
  | unitWaits core cmd c k r b h hk ht => exact execCopyUnitDone_waits h hk ht
  | copyUnit core cmd c k r b t c' h hk ht hu hc hn => exact (execCopyUnitDone_moves h hk ht hu hc).trans (by simp [hn])
  | copyPut core cmd c k r b t c' h hk ht hu hc hn => exact (execCopyUnitDone_moves h hk ht hu hc).trans (by simp [hn])
  | multicast core cmd c r h => exact execCopyUnitDone_multicast h
  | copyFault core cmd c k r b n x h hk ht hu => exact execCopyFault_unit h hk ht hu
  | cpymFault core cmd c r b n x h hm ht hu => exact execCopyFault_multicast h hm ht hu
  | destFault core cmd dest c r n x hc hk hs hd hu => exact execCpymDestFault_reach hc hk hs hd hu
  | matrixStart core cmd c hc hn hr hf => exact execMatrixCommandStart_first hc hn hr hf
  | gangStart core cmd c hc hg => exact execGangMmaStart_go hc hg
  | matrixUnit core cmd c hc hs hk => exact execMatrixUnitDone_plain hc hs hk
  | mmaUnit core cmd c hc hs hk hg => exact execMatrixUnitDone_mma hc hs hk hg
  | gangUnit core cmd c hc hs hk hg h4 => exact execMatrixUnitDone_gang hc hs hk hg h4
  | matrixComplete core cmd c hc hs hk hg => exact execMatrixCommandComplete_plain hc hs hk hg
  | gangComplete core cmd c hc hs hk hg h4 ha => exact execMatrixCommandComplete_gang hc hs hk hg h4 ha
  | signatureCount warp i w p hw hp hc => exact execSignatureCount_clear hw hp hc
  | flclrInit core cmd c area px pg n list x b hc hq hk hx ht => exact execFlclrRun_init hc hq hk hx ht
  | flclrInitWaits core cmd c area px pg n list x b hc hq hk hx ht => exact execFlclrRun_init hc hq hk hx ht
  | flclrInitFault core cmd c area px pg n list f hc hq hk hx => exact execFlclrRun_initFault hc hq hk hx
  | flclrPix core cmd c area px pg n list p b t hc hq hk hp ht hx => exact execFlclrRun_pixel hc hq hk hp ht hx
  | flclrPixWaits core cmd c area px pg n list p b hc hq hk hp ht => exact execFlclrRun_pixelWaits hc hq hk hp ht
  | flclrPixFault core cmd c area px pg n list p b f hc hq hk hp ht hx => exact execFlclrRun_pixelFault hc hq hk hp ht hx
  | flclrEnd core cmd c area px pg n list hc hq hk hp => exact execFlclrRun_end hc hq hk hp
  | rayStep core cmd c lanes rid g w b l u hc hk hq he hb hw hbk hl ht => exact execRayStep_warp hc hk hq he hb hw hbk hl ht
  | rayWaits core cmd c lanes rid g w b l u hc hk hq he hb hw hbk hl ht => exact execRayStep_warp hc hk hq he hb hw hbk hl ht
  | rayGone core cmd c lanes rid hc hk hq he hb hw => exact execRayStep_gone hc hk hq he hb hw

end Sys2Proof.Machine

namespace Sys2Proof.Machine

open Laws

/-! ## The decoder reads back what the encoder wrote (R27–R41) -/

/-- Every row of the opcode table: a program instruction is read back by the lemma of its own row, an event has no word. -/
theorem round_trip (i : Instr) : Round.Statement i := by
  cases i with
  -- lane group 0x0, sequencer (R145–R166)
  | nop => apply Round.nop | bra => apply Round.bra | braU => apply Round.braU | brx => apply Round.brx | call => apply Round.call
  | callx => apply Round.callx | ret => apply Round.ret | land => apply Round.land | join => apply Round.join
  | leave => apply Round.leave | waitm => apply Round.waitm | mclr => apply Round.mclr | trap => apply Round.trap
  | tret => apply Round.tret | tretNext => apply Round.tretNext | tkill => apply Round.tkill | tkillW => apply Round.tkillW
  | wdog => apply Round.wdog | yield => apply Round.yield | exit => apply Round.exit | bkpt => apply Round.bkpt
  -- lane group 0x1, integer (R188, R189)
  | add => apply Round.add | addVi => apply Round.addVi | sub => apply Round.sub | subVi => apply Round.subVi
  | mul => apply Round.mul | mulVi => apply Round.mulVi | mulhi => apply Round.mulhi | muladd => apply Round.muladd
  | sum3 => apply Round.sum3 | dot4 => apply Round.dot4 | min => apply Round.min | minVi => apply Round.minVi
  | max => apply Round.max | maxVi => apply Round.maxVi | abs => apply Round.abs | logic => apply Round.logic
  | logicVi => apply Round.logicVi | plogic => apply Round.plogic | shl => apply Round.shl | shlVi => apply Round.shlVi
  | shr => apply Round.shr | shrVi => apply Round.shrVi | funnel => apply Round.funnel | scadd => apply Round.scadd
  | bcnt => apply Round.bcnt | lzc => apply Round.lzc | bitrev => apply Round.bitrev | xfld => apply Round.xfld
  | ifld => apply Round.ifld | mkmask => apply Round.mkmask | cmp => apply Round.cmp | cmpVi => apply Round.cmpVi
  | pick => apply Round.pick | pickVi => apply Round.pickVi | mov => apply Round.mov | movi => apply Round.movi
  -- lane group 0x2, floating point (R190–R192)
  | fadd => apply Round.fadd | faddVi => apply Round.faddVi | fmul => apply Round.fmul | fmulVi => apply Round.fmulVi
  | fma => apply Round.fma | fmin => apply Round.fmin | fminVi => apply Round.fminVi | fmax => apply Round.fmax
  | fmaxVi => apply Round.fmaxVi | fcmp => apply Round.fcmp | fcmpVi => apply Round.fcmpVi | fclass => apply Round.fclass
  | fabs => apply Round.fabs | fneg => apply Round.fneg | fround => apply Round.fround | fdot2 => apply Round.fdot2
  | fscale => apply Round.fscale | f8add => apply Round.f8add | f8mul => apply Round.f8mul | f8fma => apply Round.f8fma
  | f8min => apply Round.f8min | f8max => apply Round.f8max
  -- lane group 0x3, special functions and conversions (R193–R196)
  | recip => apply Round.recip | rsqrt => apply Round.rsqrt | sqrt => apply Round.sqrt | exp2 => apply Round.exp2
  | log2 => apply Round.log2 | sin => apply Round.sin | cos => apply Round.cos | tanh => apply Round.tanh | cvt => apply Round.cvt
  | cvti => apply Round.cvti | cvtf => apply Round.cvtf | cvtsr => apply Round.cvtsr | mxq => apply Round.mxq
  | mxdq => apply Round.mxdq | pkcvt => apply Round.pkcvt
  -- lane group 0x4, cross-lane and identity (R197–R202)
  | xlane => apply Round.xlane | pollMask => apply Round.pollMask | pollAny => apply Round.pollAny | pollAll => apply Round.pollAll
  | pollSame => apply Round.pollSame | wred => apply Round.wred | wscan => apply Round.wscan | eqmask => apply Round.eqmask
  | bytepSel => apply Round.bytepSel | bytepLut16L => apply Round.bytepLut16L | bytepLut16H => apply Round.bytepLut16H
  | quadx => apply Round.quadx | lead => apply Round.lead | rng => apply Round.rng | widr => apply Round.widr
  | clock => apply Round.clock | ptst => apply Round.ptst | ptstClr => apply Round.ptstClr
  -- lane group 0x5, memory (R235–R237, R240, R250, R251)
  | ld => apply Round.ld | st => apply Round.st | atom => apply Round.atom | red => apply Round.red | lds => apply Round.lds
  | sst => apply Round.sst | pref => apply Round.pref
  -- lane group 0x6, raster and order (R379–R387)
  | ordenter => apply Round.ordenter | ordexit => apply Round.ordexit | fraginOpen => apply Round.fraginOpen
  | fraginWave => apply Round.fraginWave | fraginRead => apply Round.fraginRead | fkill => apply Round.fkill | covw => apply Round.covw
  | bary => apply Round.bary
  -- lane group 0x7, fragment lists (R402–R406)
  | flins => apply Round.flins | flhead => apply Round.flhead | flnode => apply Round.flnode | flclrInit => apply Round.flclrInit
  | flclrPix => apply Round.flclrPix | flbudgetSet => apply Round.flbudgetSet | flbudgetGet => apply Round.flbudgetGet
  | flbudgetRule => apply Round.flbudgetRule | flbudgetRrd => apply Round.flbudgetRrd | flmrg => apply Round.flmrg
  | flmrgOne => apply Round.flmrgOne
  -- lane group 0x8, ray (R416–R424)
  | rqinit => apply Round.rqinit | rqstep => apply Round.rqstep | rqhit => apply Round.rqhit | rqcommit => apply Round.rqcommit
  | rqcommitEnd => apply Round.rqcommitEnd | rqappend => apply Round.rqappend | morton => apply Round.morton | bbox => apply Round.bbox
  | bvpack => apply Round.bvpack
  -- uniform group 0x0 (R209–R220)
  | umov => apply Round.umov | umovQ => apply Round.umovQ | umovQ2s => apply Round.umovQ2s | umovS2q => apply Round.umovS2q
  | umovi => apply Round.umovi | umoviHi => apply Round.umoviHi | uadd => apply Round.uadd | uaddUi => apply Round.uaddUi
  | usub => apply Round.usub | usubUi => apply Round.usubUi | umul => apply Round.umul | umulUi => apply Round.umulUi
  | uand => apply Round.uand | uandUi => apply Round.uandUi | uor => apply Round.uor | uorUi => apply Round.uorUi
  | uxor => apply Round.uxor | uxorUi => apply Round.uxorUi | ushl => apply Round.ushl | ushlUi => apply Round.ushlUi
  | ushr => apply Round.ushr | ushrUi => apply Round.ushrUi | usetp => apply Round.usetp | usetpUi => apply Round.usetpUi
  | usel => apply Round.usel | uselUi => apply Round.uselUi | v2s => apply Round.v2s | s2v => apply Round.s2v
  | sregR => apply Round.sregR | sregW => apply Round.sregW | tshape => apply Round.tshape
  -- uniform group 0x1, load-store (R238, R239, R248, R257–R259, R133)
  | uld => apply Round.uld | sdef => apply Round.sdef | fence => apply Round.fence | tfence => apply Round.tfence
  | tfenceRange => apply Round.tfenceRange | tfenceAll => apply Round.tfenceAll | bind => apply Round.bind
  | unbind => apply Round.unbind | ipf => apply Round.ipf
  -- uniform group 0x2, sync (R300–R317)
  | barSync => apply Round.barSync | barArrive => apply Round.barArrive | barWait => apply Round.barWait | barp => apply Round.barp
  | bardrop => apply Round.bardrop | arrivec => apply Round.arrivec | cwait => apply Round.cwait | cwaitb => apply Round.cwaitb
  | monitor => apply Round.monitor | mwait => apply Round.mwait | qpush => apply Round.qpush | qpop => apply Round.qpop
  | park => apply Round.park | fulfil => apply Round.fulfil
  -- uniform group 0x3, dispatch (R96, R116, R128–R131)
  | launch => apply Round.launch | vsp => apply Round.vsp | sget => apply Round.sget | sput => apply Round.sput
  | sleep => apply Round.sleep | progrd => apply Round.progrd
  -- uniform group 0x4, copy (R330–R343)
  | cpy => apply Round.cpy | cpym => apply Round.cpym | redv => apply Round.redv | cguardClr => apply Round.cguardClr
  | cguardSet => apply Round.cguardSet | cguardRd => apply Round.cguardRd | cpres => apply Round.cpres | cabort => apply Round.cabort
  | cabortAll => apply Round.cabortAll
  -- uniform group 0x5, matrix (R358–R369)
  | tld => apply Round.tld | tst => apply Round.tst | tzero => apply Round.tzero | tcvt => apply Round.tcvt
  | msign => apply Round.msign | msignArm => apply Round.msignArm | msignRd => apply Round.msignRd | mma => apply Round.mma
  | mmax => apply Round.mmax | aclr => apply Round.aclr | ald => apply Round.ald | ast => apply Round.ast | acvt => apply Round.acvt
  | eset => apply Round.eset | esetRd => apply Round.esetRd
  -- uniform group 0xF, system (R438)
  | csrr => apply Round.csrr | csrw => apply Round.csrw | halt => apply Round.halt
  | _ => exact fun _ => rfl

/-- A number below 2^64 is decoded as the word that it is. -/
theorem decodeWord_ofNat {n : Nat} (h : n < 2 ^ 64) : decodeWord (BitVec.ofNat 64 n) = decodeNat n := by
  rw [decodeWord, BitVec.toNat_ofNat, Nat.mod_eq_of_lt h]

/-- Settles O1: by rows, each with the format of its word. -/
theorem decodeEncode : Obligations.DecodeEncode := by
  intro i hi
  have h := round_trip i hi
  split at h
  · next hv => rw [if_pos hv, encode, h, Option.map_none]
  · next hv =>
    obtain ⟨n, he, hn, hd⟩ := h
    rw [if_neg hv]
    exact ⟨BitVec.ofNat 64 n, by rw [encode, he, Option.map_some], (decodeWord_ofNat hn).trans hd⟩

/-! ## What the decoder answers (R42, R43) -/

/-- The opcode of a number is one of R40 and R41. -/
def assignedNat (n : Nat) : Bool := opcodeAssigned (boolOf (fld n 63 1)) (fld n 59 4) (fld n 53 6)

/-- The instruction that a number's opcode and fields name, before its operands are checked. -/
def buildNat (n : Nat) : Option Instr := buildInstr (boolOf (fld n 63 1)) (fld n 59 4) (fld n 53 6) n

/-- The three answers of the decoder, each with its reason. -/
theorem decodeNat_cases (n : Nat) :
    (assignedNat n = false ∧ decodeNat n = .error .illegalInstruction) ∨
    (assignedNat n = true ∧ decodeNat n = .error .illegalEncoding) ∨
    (assignedNat n = true ∧ ∃ i, buildNat n = some i ∧ i.wellFormed = true ∧ decodeNat n = .ok i) := by
  simp only [decodeNat]
  split
  next ha =>
    split
    next i hb =>
      split
      next hw => exact .inr (.inr ⟨ha, i, hb, hw, rfl⟩)
      next => exact .inr (.inl ⟨ha, rfl⟩)
    next => exact .inr (.inl ⟨ha, rfl⟩)
  next ha => exact .inl ⟨Bool.eq_false_iff.2 ha, rfl⟩

theorem decodeNat_ok {n : Nat} {i : Instr} (h : decodeNat n = .ok i) : buildNat n = some i ∧ i.wellFormed = true := by
  obtain ⟨_, hd⟩ | ⟨_, hd⟩ | ⟨_, j, hb, hw, hd⟩ := decodeNat_cases n <;> rw [h] at hd
  · cases hd
  · cases hd
  · cases hd
    exact ⟨hb, hw⟩

theorem decodeNat_illegalInstruction (n : Nat) : decodeNat n = .error .illegalInstruction ↔ assignedNat n = false := by
  obtain ⟨ha, hd⟩ | ⟨ha, hd⟩ | ⟨ha, j, _, _, hd⟩ := decodeNat_cases n <;> simp [ha, hd]

/-! ### No group builds an event -/

/-- An answer of a group's decoder is no event. -/
def NoEvent (o : Option Instr) : Prop := ∀ i, o = some i → i.isEvent = false

@[simp] theorem noEvent_none : NoEvent none := fun _ h => nomatch h

@[simp] theorem noEvent_some {i : Instr} : NoEvent (some i) ↔ i.isEvent = false :=
  ⟨fun h => h i rfl, fun h _ e => Option.some.inj e ▸ h⟩

@[simp] theorem noEvent_map {α : Type} {o : Option α} {f : α → Instr} :
    NoEvent (o.map f) ↔ ∀ x, o = some x → (f x).isEvent = false := by
  cases o <;> simp

/-- Each opcode of a group has its own instruction, chosen further by fields of the word where the group's map says so. -/
theorem noEvent_buildInstr (uni : Bool) (grp ix w : Nat) : NoEvent (buildInstr uni grp ix w) := by
  unfold buildInstr
  split
  all_goals split
  all_goals simp only [noEvent_none, buildUni0, buildUni1, buildUni2, buildUni3, buildUni4, buildUni5, buildUniF,
    buildLane0, buildLane1, buildLane2, buildLane3, buildLane4, buildLane5, buildLane6, buildLane7, buildLane8]
  all_goals repeat' split
  all_goals simp [Instr.isEvent]

/-- Settles O2: an accepted word's instruction has passed the check, and no group builds an event. -/
theorem decodedWellFormed : Obligations.DecodedWellFormed := by
  intro w i h
  obtain ⟨hb, hw⟩ := decodeNat_ok h
  exact ⟨hw, noEvent_buildInstr _ _ _ _ i hb⟩

/-! ### The assigned opcodes (R40, R41) -/

/-- Bits [62:53] are the group and the index. -/
theorem nbits_opcode (n : Nat) : nbits n 53 10 = fld n 59 4 * 64 + fld n 53 6 := by
  unfold nbits fld
  omega

theorem nbits_eq_fld (n lo k : Nat) : nbits n lo k = fld n lo k := rfl

/-- The opcodes of the lane set by group and index (R40). -/
theorem laneOpcodes_any {grp ix : Nat} (hg : grp < 16) (hx : ix < 64) :
    (laneOpcodes.any fun r => r.1 ≤ grp * 64 + ix && grp * 64 + ix ≤ r.2) = opcodeAssigned false grp ix := by
  rw [Bool.eq_iff_iff]
  unfold laneOpcodes opcodeAssigned
  rw [if_neg Bool.false_ne_true]
  simp only [List.any_cons, List.any_nil, Bool.or_false, Bool.or_eq_true, Bool.and_eq_true, decide_eq_true_eq]
  split
  all_goals
    simp only [List.contains_eq_mem, List.mem_cons, List.not_mem_nil, or_false, Bool.or_eq_true, decide_eq_true_eq, Bool.false_eq_true,
      iff_false, imp_false] at *
    omega

/-- The opcodes of the uniform set by group and index (R41). -/
theorem uniformOpcodes_any {grp ix : Nat} (hg : grp < 16) (hx : ix < 64) :
    (uniformOpcodes.any fun r => r.1 ≤ grp * 64 + ix && grp * 64 + ix ≤ r.2) = opcodeAssigned true grp ix := by
  rw [Bool.eq_iff_iff]
  unfold uniformOpcodes opcodeAssigned
  rw [if_pos rfl]
  simp only [List.any_cons, List.any_nil, Bool.or_false, Bool.or_eq_true, Bool.and_eq_true, decide_eq_true_eq]
  split
  all_goals
    simp only [Bool.or_eq_true, Bool.and_eq_true, decide_eq_true_eq, Bool.false_eq_true, iff_false, imp_false] at *
    omega

theorem fld_lt (n lo k : Nat) : fld n lo k < 2 ^ k := Nat.mod_lt _ (Nat.two_pow_pos k)

/-- The statement's list of opcodes and the decoder's are one. -/
theorem assignedWord_eq (w : DWord) : assignedWord w = assignedNat w.toNat := by
  unfold assignedWord assignedNat
  rw [nbits_opcode]
  have hg := fld_lt w.toNat 59 4
  have hx := fld_lt w.toNat 53 6
  obtain hs | hs : fld w.toNat 63 1 = 0 ∨ fld w.toNat 63 1 = 1 := by have := fld_lt w.toNat 63 1; omega
  · rw [nbits_eq_fld, hs]
    exact laneOpcodes_any hg hx
  · rw [nbits_eq_fld, hs]
    exact uniformOpcodes_any hg hx

/-- Settles O3: the opcode alone decides the first fault, and the decoder has no other answer than the three. -/
theorem decodeFaults : Obligations.DecodeFaults := by
  refine ⟨fun w => ?opcode, fun w => ?answers, rfl, rfl⟩
  case opcode => rw [assignedWord_eq]; exact decodeNat_illegalInstruction w.toNat
  case answers =>
    obtain ⟨_, hd⟩ | ⟨_, hd⟩ | ⟨_, i, _, _, hd⟩ := decodeNat_cases w.toNat
    · exact .inr (.inl hd)
    · exact .inr (.inr hd)
    · exact .inl ⟨i, hd⟩

/-! ## The VI forms (R33) -/

/-- Bits [63:53] of a word are its set, group and index. -/
theorem head_opcode {n set grp ix : Nat} {g : Guard} {body : Nat} (h : Head n set grp ix g body) :
    nbits n 53 11 = set * 1024 + grp * 64 + ix := by
  have h1 := h.fset
  have h2 := h.fgrp
  have h3 := h.fix
  unfold fld at h1 h2 h3
  unfold nbits
  omega

section
variable {i : Instr} {n ix d imm lo k l : Nat} {a b : Src} {x y z : Bool}

/-- The opcode of an instruction whose word has the given head. -/
theorem opcode_of_head {w set grp : Nat} {g : Guard} {body : Nat} (h : Head w set grp ix g body) (he : encodeNat i = some w)
    (hn : encodeNat i = some n) : nbits n 53 11 = set * 1024 + grp * 64 + ix := by
  obtain rfl := Option.some.inj (he.symm.trans hn)
  exact head_opcode h

/-- The opcode of a V form of the integer class. -/
theorem opcode_int {f : IntF} {c : Nat} (he : encodeNat i = some (encI ix f d a.code b.code c lo)) (hn : encodeNat i = some n)
    (hx : ix < 64) (hf : Wf.int f x y = true) (hd : d < 256) (ha : Wf.src k a = true) (hb : Wf.src l b = true) (hc : c < 1024) (hl : lo < 8) :
    nbits n 53 11 = 64 + ix := by
  have h := opcode_of_head (VWord.mk' (by decide) (by decide) hx (wfInt hf) (by decide) hd (a.code_lt (wfSrc ha)) (b.code_lt (wfSrc hb)) hc
    (f.mod_lt lo hl)).head he hn
  omega

/-- The opcode of a VI form of the integer class. -/
theorem opcode_intVi {f : IntF} (he : encodeNat i = some (encIVi ix f d a.code imm lo)) (hn : encodeNat i = some n)
    (hx : ix < 64) (hf : Wf.int f x y = true) (hd : d < 256) (ha : Wf.src k a = true) (hm : Wf.imm20 imm = true) (hl : lo < 8) :
    nbits n 53 11 = 64 + ix := by
  have h := opcode_of_head (VIWord.mk' (by decide) (by decide) hx (wfInt hf) (by decide) hd (a.code_lt (wfSrc ha)) (wfI20 hm)
    (f.mod_lt lo hl)).head he hn
  omega

/-- The opcode of a V form of the floating-point class. -/
theorem opcode_fp {f : FpF} (he : encodeNat i = some (encF 2 ix f d a.code b.code 0)) (hn : encodeNat i = some n)
    (hx : ix < 64) (hf : Wf.fp f x y z = true) (hd : Wf.v k d = true) (ha : Wf.src k a = true) (hb : Wf.src k b = true) :
    nbits n 53 11 = 128 + ix := by
  obtain ⟨hg, hla⟩ := wfFp hf
  have h := opcode_of_head (VWord.mk' (by decide) (by decide) hx hg hla (wfV hd) (a.code_lt (wfSrc ha)) (b.code_lt (wfSrc hb)) (by decide)
    f.mod_lt).head he hn
  omega

/-- The opcode of a VI form of the floating-point class. -/
theorem opcode_fpVi {f : FpF} (he : encodeNat i = some (encFVi ix f d a.code imm)) (hn : encodeNat i = some n)
    (hx : ix < 64) (hf : Wf.fp f x y z = true) (hd : Wf.v k d = true) (ha : Wf.src k a = true) (hm : Wf.imm20 imm = true) :
    nbits n 53 11 = 128 + ix := by
  obtain ⟨hg, hla⟩ := wfFp hf
  have h := opcode_of_head (VIWord.mk' (by decide) (by decide) hx hg hla (wfV hd) (a.code_lt (wfSrc ha)) (wfI20 hm) f.mod_lt).head he hn
  omega
end

theorem logicOp_code_lt (o : LogicOp) : o.code < 8 := by cases o <;> decide
theorem cmpOp_code_lt (o : CmpOp) : o.code < 8 := by cases o <;> decide
theorem fCmpOp_code_lt (o : FCmpOp) : o.code < 8 := by cases o <;> decide

/-- The MOD field of FCMP (R191). -/
theorem fcmp_mod_lt (t : FpTy) (o : FCmpOp) (u : Bool) : t.code * 16 + o.code * 2 + natOf u < 128 := by
  have := t.code_lt
  have := fCmpOp_code_lt o
  have := natOf_lt u
  omega

/-- The V form and the VI form of a pair have their opcodes (R40). -/
theorem ViPair.opcodes {i j : Instr} {k n m : Nat} (hp : ViPair i j k) (hi : i.wellFormed = true) (hj : j.wellFormed = true)
    (hn : encodeNat i = some n) (hm : encodeNat j = some m) : nbits n 53 11 = k ∧ nbits m 53 11 = k + 0x020 := by
  cases hp with
  | add f d a b imm | sub f d a b imm | mul f d a b imm | min f d a b imm | max f d a b imm =>
    simp only [Instr.wellFormed, Bool.and_eq_true] at hi hj
    obtain ⟨⟨⟨hf, hd⟩, ha⟩, hb⟩ := hi
    exact ⟨opcode_int rfl hn (by decide) hf (wfV hd) ha hb (by decide) (by decide),
      opcode_intVi rfl hm (by decide) hf (wfV hd) ha hj.2 (by decide)⟩
  | logic f op d a b imm =>
    simp only [Instr.wellFormed, Bool.and_eq_true] at hi hj
    obtain ⟨⟨⟨⟨hf, hd⟩, ha⟩, hb⟩, _⟩ := hi
    have hl := logicOp_code_lt op
    exact ⟨opcode_int rfl hn (by decide) hf (wfV hd) ha hb (by decide) hl, opcode_intVi rfl hm (by decide) hf (wfV hd) ha hj.2 hl⟩
  | shl f wr d a b imm | shr f wr d a b imm =>
    simp only [Instr.wellFormed, Bool.and_eq_true] at hi hj
    obtain ⟨⟨⟨hf, hd⟩, ha⟩, hb⟩ := hi
    have hl : natOf wr * 4 < 8 := by have := natOf_lt wr; omega
    exact ⟨opcode_int rfl hn (by decide) hf (wfV hd) ha hb (by decide) hl, opcode_intVi rfl hm (by decide) hf (wfV hd) ha hj.2 hl⟩
  | cmp f op d a b c imm =>
    simp only [Instr.wellFormed, Bool.and_eq_true] at hi hj
    obtain ⟨⟨⟨⟨hf, hd⟩, ha⟩, hb⟩, hc⟩ := hi
    have hd := wfP hd
    have hc := wfP hc
    have hl := cmpOp_code_lt op
    exact ⟨opcode_int rfl hn (by decide) hf (by omega) ha hb (by omega) hl, opcode_intVi rfl hm (by decide) hf (by omega) ha hj.2 hl⟩
  | pick f p d a b imm =>
    simp only [Instr.wellFormed, Bool.and_eq_true] at hi hj
    obtain ⟨⟨⟨⟨hf, hp⟩, hd⟩, ha⟩, hb⟩ := hi
    exact ⟨opcode_int rfl hn (by decide) hf (wfV hd) ha hb (by decide) (wfP hp), opcode_intVi rfl hm (by decide) hf (wfV hd) ha hj.2 (wfP hp)⟩
  | fadd f d a b imm | fmul f d a b imm | fmin f d a b imm | fmax f d a b imm =>
    simp only [Instr.wellFormed, Bool.and_eq_true] at hi hj
    obtain ⟨⟨⟨hf, hd⟩, ha⟩, hb⟩ := hi
    exact ⟨opcode_fp rfl hn (by decide) hf hd ha hb, opcode_fpVi rfl hm (by decide) hf hd ha hj.2⟩
  | fcmp g t op u d a b c imm =>
    simp only [Instr.wellFormed, Bool.and_eq_true] at hi hj
    obtain ⟨⟨⟨⟨⟨⟨hg, _⟩, _⟩, hd⟩, ha⟩, hb⟩, hc⟩ := hi
    have hg := wfG hg
    have hd := wfP hd
    have ha := a.code_lt (wfSrc ha)
    have hb := b.code_lt (wfSrc hb)
    have hc := wfP hc
    have hl := fcmp_mod_lt t op u
    exact ⟨opcode_of_head (VWord.mk' (by decide) (by decide) (by decide) hg (by decide) (by omega) ha hb (by omega) hl).head rfl hn,
      opcode_of_head (VIWord.mk' (by decide) (by decide) (by decide) hg (by decide) (by omega) ha (wfI20 hj.2) hl).head rfl hm⟩

/-- Only the V forms that have a VI form have an opcode in the range index + 32 of the lane set; the fields of the pair are free. -/
theorem viPair_of_assigned {grp ix : Nat} (ha : opcodeAssigned false grp ix = true) (hx : 32 ≤ ix) (g : Guard) (f : IntF) (ff : FpF) (s : Src) :
    ∃ i j, ViPair i j (grp * 64 + ix - 32) := by
  unfold opcodeAssigned at ha
  rw [if_neg Bool.false_ne_true] at ha
  split at ha
  case h_2 =>
    have h : ix = 32 ∨ ix = 33 ∨ ix = 34 ∨ ix = 39 ∨ ix = 40 ∨ ix = 42 ∨ ix = 44 ∨ ix = 45 ∨ ix = 54 ∨ ix = 55 := by
      simp only [List.contains_eq_mem, List.mem_cons, List.not_mem_nil, or_false, Bool.or_eq_true, decide_eq_true_eq] at ha
      omega
    obtain rfl | rfl | rfl | rfl | rfl | rfl | rfl | rfl | rfl | rfl := h
    · exact ⟨_, _, .add f 0 s s 0⟩
    · exact ⟨_, _, .sub f 0 s s 0⟩
    · exact ⟨_, _, .mul f 0 s s 0⟩
    · exact ⟨_, _, .min f 0 s s 0⟩
    · exact ⟨_, _, .max f 0 s s 0⟩
    · exact ⟨_, _, .logic f .and 0 s s 0⟩
    · exact ⟨_, _, .shl f false 0 s s 0⟩
    · exact ⟨_, _, .shr f false 0 s s 0⟩
    · exact ⟨_, _, .cmp f .eq 0 s s 0 0⟩
    · exact ⟨_, _, .pick f 0 0 s s 0⟩
  case h_3 =>
    have h : ix = 32 ∨ ix = 33 ∨ ix = 35 ∨ ix = 36 ∨ ix = 37 := by
      simp only [List.contains_eq_mem, List.mem_cons, List.not_mem_nil, or_false, Bool.or_eq_true, decide_eq_true_eq] at ha
      omega
    obtain rfl | rfl | rfl | rfl | rfl := h
    · exact ⟨_, _, .fadd ff 0 s s 0⟩
    · exact ⟨_, _, .fmul ff 0 s s 0⟩
    · exact ⟨_, _, .fmin ff 0 s s 0⟩
    · exact ⟨_, _, .fmax ff 0 s s 0⟩
    · exact ⟨_, _, .fcmp g .f32 .eq false 0 s s 0 0⟩
  case h_10 => cases ha
  all_goals
    have ha := of_decide_eq_true ha
    omega

/-- A lane-set word whose opcode lies in the range index + 32 and is assigned has that of a VI form. -/
theorem viPair_of_word {w : DWord} (hs : nbits w.toNat 63 1 = 0) (hx : 32 ≤ nbits w.toNat 53 6) (h : decodeWord w ≠ .error .illegalInstruction) :
    ∃ i j, ViPair i j (nbits w.toNat 53 11 - 32) := by
  have ha : assignedNat w.toNat = true := by
    rw [← Bool.not_eq_false, ← decodeNat_illegalInstruction]
    exact h
  have hop : nbits w.toNat 53 11 = fld w.toNat 59 4 * 64 + fld w.toNat 53 6 := by
    unfold nbits at hs ⊢
    unfold fld
    omega
  rw [nbits_eq_fld] at hs
  rw [assignedNat, hs] at ha
  rw [hop]
  exact viPair_of_assigned ha hx ⟨false, 7⟩ ⟨⟨false, 7⟩, .s32, false⟩ ⟨⟨false, 7⟩, 0, .f32, .rn, false, false⟩ ⟨0, false, false⟩

/-- Settles O4: the words of each pair, and the assigned opcodes of the range. -/
theorem viForms : Obligations.ViForms :=
  ⟨fun _ _ _ _ _ hp hi hj hn hm => hp.opcodes hi hj hn hm, fun _ hs hx h => viPair_of_word hs hx h,
    fun _ hs hx h => by_contra fun hd => h (viPair_of_word hs hx hd)⟩

/-! ## Firmware instructions outside firmware context (R42, R438) -/

/-- A firmware instruction's word is a decode fault of the issuing split. -/
theorem firmwareOnly_refused {s : State} {g : Nat} {w : Warp} {e : Entry} {i : Instr} {word : DWord} {run : Host.Outcome State Fault Refusal}
    (hc : Calm s g w e) (hf : inFirmware s g = false) (he : encode i = some word) :
    firmwareOnly s i run = .next ((s.begun g e).stepped g e [(e.mask, .trap { cause := 0x01, detail := 0, addr := word })]) := by
  rw [firmwareOnly, hc.split, he, Option.getD_some]
  simp only [hf, Bool.false_eq_true, if_false, decodeTrap_calm hc]

/-- Settles O23: each of the three asks for firmware context before it evaluates its guard. -/
theorem firmwareRefused : Obligations.FirmwareRefused := by
  intro s g w e i word hc hf hi he
  obtain ⟨gd, d, n, rfl⟩ | ⟨gd, n, a, rfl⟩ | ⟨gd, rfl⟩ := hi
  · exact firmwareOnly_refused hc hf he
  · exact firmwareOnly_refused hc hf he
  · exact firmwareOnly_refused hc hf he

/-! ## Words written out -/

/-- Settles O5: the decoder, run on each word. -/
theorem decodeWords : Obligations.DecodeWords :=
  ⟨rfl, rfl, rfl, rfl, rfl, rfl, rfl, rfl, rfl, rfl, rfl, rfl, rfl, rfl, rfl, rfl, rfl⟩

end Sys2Proof.Machine

namespace Sys2Proof.Machine

/-! ## FMIN and FMAX (R61, R62) -/

theorem pow2_pos (e : Int) : 0 < pow2 e := by
  unfold pow2
  split <;> positivity

@[simp] theorem ftzIn_off (f : FpFmt) (v : FVal) : ftzIn f false v = v := by
  cases v <;> simp [ftzIn]

@[simp] theorem fpEncodeMag_zero (f : FpFmt) (neg : Bool) : fpEncodeMag f neg 0 = if neg then 2 ^ (f.mbits + f.ebits) else 0 := by
  simp [fpEncodeMag]

theorem FVal.isSig_of_not_isNan {v : FVal} (h : v.isNan = false) : v.isSig = false := by
  cases v with
  | nan => cases h
  | inf | fin => rfl

/-- A finite value has the encoding's sign, and it is 0 only where both fields are: a normal magnitude is positive. -/
theorem fpDecode_fin {f : FpFmt} {x : Nat} {n : Bool} {m : ℚ} (h : fpDecode f x = .fin n m) :
    (nbits x (f.mbits + f.ebits) 1 == 1) = n ∧ (m = 0 → nbits x 0 f.mbits = 0 ∧ nbits x f.mbits f.ebits = 0) := by
  have normal {s : Bool} {e : Int} (h : FVal.fin s ((1 + (nbits x 0 f.mbits : ℚ) / ((2 ^ f.mbits : Nat) : ℚ)) * pow2 e) = .fin n m) :
      s = n ∧ (m = 0 → nbits x 0 f.mbits = 0 ∧ nbits x f.mbits f.ebits = 0) := by
    obtain ⟨rfl, rfl⟩ := FVal.fin.inj h
    have := pow2_pos e
    exact ⟨rfl, fun h0 => absurd h0 (by positivity)⟩
  rw [fpDecode] at h
  split at h
  case isTrue he =>
    obtain ⟨rfl, rfl⟩ := FVal.fin.inj h
    exact ⟨rfl, fun h0 => ⟨by simpa [(pow2_pos _).ne'] using h0, he⟩⟩
  split at h
  · split at h
    · split at h <;> cases h
    · split at h
      · cases h
      · exact normal h
    · exact normal h
  · exact normal h

/-- An encoding is its sign bit, its exponent field and its fraction. -/
theorem encoding_eq_fields {m e x : Nat} (hx : x < 2 ^ (m + e + 1)) :
    x = 2 ^ (m + e) * nbits x (m + e) 1 + (2 ^ m * nbits x m e + nbits x 0 m) := by
  have low : 2 ^ m * nbits x m e + nbits x 0 m = x % 2 ^ (m + e) := by
    rw [pow_add, Nat.mod_mul]
    simp [nbits, Nat.add_comm]
  have sign : nbits x (m + e) 1 = x / 2 ^ (m + e) :=
    Nat.mod_eq_of_lt (Nat.div_lt_of_lt_mul (by rwa [← pow_add]))
  rw [low, sign, Nat.div_add_mod]

/-- A zero of either sign, written again, is the encoding that was read. -/
theorem fpEncodeMag_of_decoded_zero {f : FpFmt} {x : Nat} {n : Bool} (hx : x < 2 ^ (f.mbits + f.ebits + 1))
    (h : fpDecode f x = .fin n 0) : fpEncodeMag f n 0 = x := by
  obtain ⟨rfl, hz⟩ := fpDecode_fin h
  obtain ⟨hm, he⟩ := hz rfl
  have hw := encoding_eq_fields hx
  rw [hm, he] at hw
  obtain hs | hs : nbits x (f.mbits + f.ebits) 1 = 0 ∨ nbits x (f.mbits + f.ebits) 1 = 1 := Nat.mod_two_eq_zero_or_one _
  all_goals simpa [hs] using hw.symm

/-- Without .FTZ, FMIN and FMAX choose among their operands as they stand. -/
theorem fpMinMax_eq {f : FpFmt} {x y : Nat} (isMax : Bool) (hx : x < 2 ^ (f.mbits + f.ebits + 1)) (hy : y < 2 ^ (f.mbits + f.ebits + 1)) :
    fpMinMax f false isMax x y =
      if (fpDecode f x).isNan && (fpDecode f y).isNan then
        (f.canonNan (fpDecode f x).neg, { nv := (fpDecode f x).isSig || (fpDecode f y).isSig })
      else if (fpDecode f x).isNan then (y, { nv := (fpDecode f x).isSig || (fpDecode f y).isSig })
      else if (fpDecode f y).isNan then (x, { nv := (fpDecode f x).isSig || (fpDecode f y).isSig })
      else if isMax then (if fltOrd (fpDecode f x) (fpDecode f y) then y else x, {})
      else (if fltOrd (fpDecode f y) (fpDecode f x) then y else x, {}) := by
  have kept {z : Nat} (hz : z < 2 ^ (f.mbits + f.ebits + 1)) {n : Bool} {m : ℚ} (h : fpDecode f z = .fin n m) :
      (if m = 0 then fpEncodeMag f n 0 else z) = z :=
    ite_eq_right_iff.2 fun h0 => fpEncodeMag_of_decoded_zero hz (h0 ▸ h)
  unfold fpMinMax
  simp only [ftzIn_off]
  cases ha : fpDecode f x with
  | fin =>
    cases hb : fpDecode f y with
    | fin => simp only [kept hx ha, kept hy hb]
    | _ => simp only [kept hx ha]
  | _ =>
    cases hb : fpDecode f y with
    | fin => simp only [kept hy hb]
    | _ => rfl

theorem fpDecode_zero (f : FpFmt) : fpDecode f 0 = .fin false 0 := by
  simp [fpDecode, nbits]

theorem fpDecode_signBit (f : FpFmt) : fpDecode f (2 ^ (f.mbits + f.ebits)) = .fin true 0 := by
  have hf : nbits (2 ^ (f.mbits + f.ebits)) 0 f.mbits = 0 := by simp [nbits, pow_add]
  have he : nbits (2 ^ (f.mbits + f.ebits)) f.mbits f.ebits = 0 := by simp [nbits, pow_add]
  have hs : nbits (2 ^ (f.mbits + f.ebits)) (f.mbits + f.ebits) 1 = 1 := by simp [nbits]
  simp [fpDecode, hf, he, hs]

/-- R62 orders −0 before +0. -/
theorem fltOrd_zeros (n m : Bool) : fltOrd (.fin n 0) (.fin m 0) = (n && !m) := by
  simp [fltOrd, FVal.isZero, FVal.neg]

/-- Of −0 and +0, in either order, FMIN is −0 and FMAX is +0. -/
theorem fpMinMax_opposite_zeros {f : FpFmt} {x y : Nat} {n : Bool} (isMax : Bool) (hx : fpDecode f x = .fin n 0) (hy : fpDecode f y = .fin (!n) 0) :
    (fpMinMax f false isMax x y).1 = if isMax then 0 else 2 ^ (f.mbits + f.ebits) := by
  simp only [fpMinMax, ftzIn_off, hx, hy, FVal.isNan, fltOrd_zeros, fpEncodeMag_zero]
  cases n <;> cases isMax <;> rfl

/-- Only a signalling NaN raises a flag, whatever is chosen. -/
theorem fpMinMax_nv (f : FpFmt) (isMax : Bool) (x y : Nat) :
    (fpMinMax f false isMax x y).2.nv = ((fpDecode f x).isSig || (fpDecode f y).isSig) := by
  simp only [fpMinMax, ftzIn_off]
  cases ha : (fpDecode f x).isNan with
  | true => cases (fpDecode f y).isNan <;> rfl
  | false =>
    cases hb : (fpDecode f y).isNan with
    | true => rfl
    | false => cases isMax <;> simp [FVal.isSig_of_not_isNan ha, FVal.isSig_of_not_isNan hb]

/-- Settles O56: a NaN gives way to the other operand as it stands, and the two zeros are the encodings of opposite zeros. -/
theorem minMaxNumbers : Obligations.MinMaxNumbers := by
  intro f _ isMax
  refine ⟨fun x y hx hy => ?_, ?_, ?_⟩
  · have choice := fpMinMax_eq isMax hx hy
    exact ⟨fun ha hb => by simp [choice, ha, hb], fun ha hb => by simp [choice, ha, hb], fun ha hb => by simp [choice, ha, hb],
      fpMinMax_nv f isMax x y⟩
  · exact fpMinMax_opposite_zeros isMax (fpDecode_signBit f) (fpDecode_zero f)
  · exact fpMinMax_opposite_zeros isMax (fpDecode_zero f) (fpDecode_signBit f)

end Sys2Proof.Machine

namespace Sys2Proof.Machine

section
variable {s : State}

/-! ## Records in the launch window (R86, R90, R93) -/

/-- A control record acts on its launch and is answered; one that names no launch is answered with an error. -/
theorem control_record {kind i : Nat} {r : List Nat} (act : State → Nat → State) (hs : s.sealedSlots = i :: r) (hp : parsing s = true)
    (hk : recKind (slotRec s i) = kind) : control s kind .record act =
      if (s.launch? (recNat (slotRec s i) 0xA0 8)).isSome then answerSlot (act s (recNat (slotRec s i) 0xA0 8)) i 0 0 else answerSlot s i 0x0D 0 := by
  simp [control, hs, hp, hk]

/-- A control event is the control action of its asker. -/
theorem ControlEvent.exec_eq {ev : Instr} {by' : Asker} {k : Nat} {act : State → Nat → State} (h : ControlEvent ev by' k act) :
    exec ev s = .next (control s k by' act) := by
  cases h <;> rfl

/-! ## Saves (R123, R126) -/

section
variable {block : Nat} {b : Block} {used : Tbl (Nat × Nat)}

/-- Once every block of the gang has stopped and come to rest the save is made, or meets the error of its memory. -/
theorem execBlockSave_quiet (err : Bool) (hb : s.block? block = some b) (hr : b.saveReq = true) (hg : gangResident s b ≠ [])
    (ha : saveAlloc s (gangResident s b) s.saveUsed = some used) (hp : ∀ e ∈ gangResident s b, e.2.stopping = true)
    (hq : ∀ e ∈ gangResident s b, blockQuiet s e = true) :
    execBlockSave ⟨block, err⟩ s =
      if err then .next ((loseLaunch s b.launch).tell (.contextLost b.launch))
      else
        let t := forEach (gangResident s b) s fun s e => saveOne s e.1 e.2 (tgetD used e.1 (0, 0))
        .next { t with waiting := t.waiting ++ [.saved ((gangResident s b).map fun e => e.1) t.devNs] } := by
  have hall : ((gangResident s b).all fun e => e.2.stopping) = true := List.all_eq_true.mpr hp
  have hrest : (gangResident s b).all (blockQuiet s) = true := List.all_eq_true.mpr hq
  simp [execBlockSave, hb, hr, hg, ha, hall, hrest]

end

/-! ## Resumption (R99, R124) -/

section
variable {w : Waiter} {ps : List Place} {bs : List Nat} {t : Nat} {l : Launch}

/-- The earliest waiting unit that fits is a saved one whose areas can be read: it resumes on the cores that the rules fix, else on the named ones. -/
theorem execBlockResume_saved {cores : List Nat} {qs : List Place} (hw : firstFit s s.waiters1 = some (w, ps)) (hi : w.item = .saved bs t)
    (hl : s.launch? w.launch = some l) (hs : bs.any (saveBroken s) = false)
    (hq : (if l.det || l.yardGang then (if cores = ps.map Place.core then some ps else none) else
      placeSeq s l (roomOf s fun _ => false) (fun _ acc =>
        (cores.drop acc.length).take 1 |>.filter fun c => c < 216 && coreReady s c && openTo s w c) true [] w.members []) = some qs) :
    execBlockResume cores s =
      .next (endReserve { resumed s w bs l qs with waiting := (resumed s w bs l qs).waiting.filter fun i => i != w.item } w) := by
  simp only [execBlockResume, hw, hi, hl, hs, hq, Bool.false_eq_true, if_false, resumed]

end

/-! ## Switch points (R116–R119) -/

section
variable {block k : Nat} {b : Block}

/-- Every thread of a running block stands at a switch point: at one point the block has its rendezvous, at different ones the threads trap. -/
theorem execSwitchRendezvous_all {r : List Nat} (hb : s.block? block = some b) (hr : b.st = .running)
    (hw : ((s.warpsOf block).filter fun w => w.2.live != 0) ≠ [])
    (ha : ∀ w ∈ (s.warpsOf block).filter fun w => w.2.live != 0, w.2.allAtSwitch = true)
    (hk : (((s.warpsOf block).filter fun w => w.2.live != 0).flatMap fun w => w.2.atSwitch.map fun e => e.2) = k :: r) :
    execSwitchRendezvous block s =
      if r.all fun x => x == k then .next (s.modBlock block fun x => { x with st := .rendezvous k })
      else .next (forEach ((s.warpsOf block).filter fun w => w.2.live != 0) s fun s w => forEach w.2.atSwitch s fun s e =>
        trapParked s w.1 e.1 { cause := 0x0D, detail := 0, addr := BitVec.ofNat 64 e.2 }) := by
  have hall := List.all_eq_true.mpr ha
  have hne := List.isEmpty_eq_false_iff.mpr hw
  unfold execSwitchRendezvous
  simp only [hb, hr, hk, hall, hne]
  simp

end

end

/-- Settles O44: under each event's conditions the dispatch engine takes the branch that the event names. -/
theorem dispatchEvents : Obligations.DispatchEvents := by
  intro s i t h
  cases h with
  | sealWrite slot v h => exact if_neg (Nat.not_le.mpr h)
  | launchHeld i r hs hp hk hf =>
    show execLaunchRecord s = _
    rcases hf with hf | hf <;> simp [execLaunchRecord, hs, hp, hk, hf]
  | launchRecord i r hs hp hk hf =>
    obtain ⟨hq, hh⟩ := hf
    show execLaunchRecord s = _
    simp [execLaunchRecord, hs, hp, hk, hq, hh]
  | unknownRecord i r hs hp hk =>
    show execLaunchRecord s = _
    have h0 : recKind (slotRec s i) ≠ 0 := by omega
    simp [execLaunchRecord, hs, hp, hk, h0]
  | heldRecordParse i r hs hp hf =>
    show execHeldRecordParse s = _
    simp [execHeldRecordParse, hs, hp, hf]
  | asked ev id k act hi hl => rw [hi.exec_eq]; exact congrArg _ (if_pos hl)
  | recorded ev k act i r hi hs hp hk hl => rw [hi.exec_eq, control_record act hs hp hk, if_pos hl]
  | unknownLaunch ev k act i r hi hs hp hk hl => rw [hi.exec_eq, control_record act hs hp hk, hl]; rfl
  | launchComplete id l hl hf hd =>
    show execLaunchComplete id s = _
    simp [execLaunchComplete, hl, hf, hd]
  | blockAdmit w ps id hw hi =>
    show execBlockAdmit s = _
    simp only [execBlockAdmit, hw, hi]
  | admissionReserve w r hw hn hf ht =>
    show execAdmissionReserve s = _
    simp [execAdmissionReserve, hw, hn, hf, Nat.not_lt.mpr ht]
  | quantumEnd block b hb hs ht ha hw =>
    show execQuantumEnd block s = _
    simp [execQuantumEnd, hb, hs, Nat.not_lt.mpr ht, ha, hw]
  | saveNoRoom block err b hb hr hg ha =>
    show execBlockSave ⟨block, err⟩ s = _
    simp [execBlockSave, hb, hr, hg, ha]
  | saveBegins block err b used hb hr ha hp =>
    obtain ⟨e, he, hn⟩ := hp
    have hall : ((gangResident s b).all fun e => e.2.stopping) = false := List.all_eq_false.mpr ⟨e, he, by simp [hn]⟩
    show execBlockSave ⟨block, err⟩ s = _
    simp [execBlockSave, hb, hr, List.ne_nil_of_mem he, ha, hall]
  | saveLost block b used hb hr hg ha hp hq => exact execBlockSave_quiet true hb hr hg ha hp hq
  | blockSave block b used hb hr hg ha hp hq => exact execBlockSave_quiet false hb hr hg ha hp hq
  | blockResume w ps bs t l hw hi hl hs hf =>
    have hfix : (l.det || l.yardGang) = true := by simpa using hf
    exact execBlockResume_saved hw hi hl hs ((if_pos hfix).trans (if_pos rfl))
  | blockResumeNamed cores w ps qs bs t l hw hi hl hs hf hq =>
    obtain ⟨hd, hy⟩ := hf
    have hfree : ¬ (l.det || l.yardGang) = true := by simp [hd, hy]
    exact execBlockResume_saved hw hi hl hs ((if_neg hfree).trans hq)
  | blockResumeLost cores w ps bs t l hw hi hl hs =>
    show execBlockResume cores s = _
    simp only [execBlockResume, hw, hi, hl, hs, if_true]
  | rendezvous block b k hb hr hw ha hk =>
    obtain ⟨r, hk, he⟩ := hk
    exact (execSwitchRendezvous_all hb hr hw ha hk).trans (if_pos (by simpa using he))
  | mixedPoints block b hb hr hw ha hk =>
    obtain ⟨k, r, hk, x, hx, hn⟩ := hk
    exact (execSwitchRendezvous_all hb hr hw ha hk).trans (if_neg fun h => hn (by simpa using List.all_eq_true.mp h x hx))
  | switchMove block b l k f pc hb hl hr hq ht hf hp =>
    show execSwitchMove block s = _
    simp [execSwitchMove, hb, hl, hr, hq, ht, hf, hp]
  | switchStay block b l k hb hl hr hq ht =>
    show execSwitchMove block s = _
    rcases ht with ht | ht <;> simp [execSwitchMove, hb, hl, hr, hq, ht]
  | issueClassUpdate block => rfl
  | launchAnswer warp entry e id x d p bs l hp hq hl hk =>
    show execLaunchAnswer warp entry s = _
    simp [execLaunchAnswer, hp.entry, hp.wait, hq, hl, hk]
  | launchRefused warp entry e id x d p bs l hp hq hl hk =>
    show execLaunchAnswer warp entry s = _
    simp [execLaunchAnswer, hp.entry, hp.wait, hq, hl, hk, nbits]
  | matrixEccError core region n k b hc hb =>
    show execMatrixEccError core region n s = _
    simp only [execMatrixEccError, hc, hb]

end Sys2Proof.Machine

namespace Sys2Proof.Machine

/-! ## Parked splits -/

/-- A split is found by its name. -/
theorem Warp.eid_of_entry? {w : Warp} {k : Nat} {e : Entry} (h : w.entry? k = some e) : e.eid = k := by
  simpa using List.find?_some h

section
variable {s b : State} {warp entry : Nat} {e : Entry} {k : Wait}

/-- The entry of a parked split, in its warp. -/
theorem ParkedAt.entry? {w : Warp} (h : ParkedAt s warp entry e k) (hw : s.warp? warp = some w) : w.entry? entry = some e := by
  simpa [hw] using h.entry

theorem ParkedAt.eid (h : ParkedAt s warp entry e k) : e.eid = entry := by
  obtain ⟨w, -, he⟩ := Option.bind_eq_some_iff.mp h.entry
  exact Warp.eid_of_entry? he

end

/-! ## Results (R185, R207, R234) -/

section
variable {s : State} {warp id : Nat} {r : Result}

/-- A result arrives when it is done and none of its accesses is at a peer that the fabric does not reach. -/
theorem resultHere {ops : List LsuOp} (hd : r.done = true) (hf : s.fabUp = true ∨ ∀ o ∈ ops, o.result = some id → ∀ n, o.space ≠ .remote n) :
    ¬ (!r.done || (!s.fabUp && ops.any fun o => o.result == some id && match o.space with | .remote _ => true | _ => false)) = true := by
  rcases hf with hf | hf
  · simp [hd, hf]
  · have hany : (ops.any fun o => o.result == some id && match o.space with | .remote _ => true | _ => false) = false := by
      refine List.any_eq_false.mpr fun o ho => ?_
      cases hx : o.space with
      | remote n => simpa using fun hr => hf o ho hr n hx
      | _ => simp
    simp [hd, hany]

/-- A result that is no uniform load's, or brings no poison, traps no lane. -/
theorem uldTrap_none (hu : r.uld = none ∨ ∀ x ∈ r.data, ∀ v ∈ x.2, v.2 = false) :
    (r.uld.filter fun _ => r.data.any fun x => x.2.any fun v => v.2) = none := by
  rcases hu with hu | hu
  · rw [hu]; rfl
  · have hany : (r.data.any fun x => x.2.any fun v => v.2) = false := by simpa using hu
    rw [hany]
    cases r.uld <;> rfl

/-- A uniform load's result that brings poison traps at the load's own place. -/
theorem uldTrap_some {at_ : DWord × Nat} (hu : r.uld = some at_) (hp : ∃ x ∈ r.data, ∃ v ∈ x.2, v.2 = true) :
    (r.uld.filter fun _ => r.data.any fun x => x.2.any fun v => v.2) = some at_ := by
  have hany : (r.data.any fun x => x.2.any fun v => v.2) = true := by simpa using hp
  rw [hu, hany]
  rfl

end

/-- Settles O45: under each event's conditions the sequencer and the register pool take the branch that the event names. -/
theorem sequencerEvents : Obligations.SequencerEvents := by
  intro s i t h
  cases h with
  | icacheFill core part asid vline g pc ws hf hv hr =>
    show execIcacheFill core part s = _
    simp only [execIcacheFill, hf, hv, hr, Bool.not_true, Bool.false_eq_true, if_false]
  | icacheWaits core part asid vline x hf hv =>
    show execIcacheFill core part s = _
    simp [execIcacheFill, hf, hv]
  | fetchTrap core part asid vline g pc d hf hv hr =>
    show execIcacheFill core part s = _
    simp only [execIcacheFill, hf, hv, hr, Bool.not_true, Bool.false_eq_true, if_false]
  | issueSelect core part g w e hc hs hf hu hl hb =>
    show execIssueSelect core part s = _
    simp [execIssueSelect, hc, hs, hf, Nat.not_le.mpr hu, hl, hb]
  | heldClear warp => rfl
  | trapDeliver warp entry e x he ht hi =>
    show execTrapDeliver warp entry s = _
    simp [execTrapDeliver, he, ht, hi]
  | trapMiss warp entry e he ht hi hf =>
    show execTrapDeliver warp entry s = _
    simp [execTrapDeliver, he, ht, hi, hf]
  | asyncTrap i t w ht hw =>
    show execAsyncTrap i s = _
    have hw' : ({ s with asyncs := s.asyncs.eraseIdx i } : State).warp? t.warp = some w := hw
    simp only [execAsyncTrap, ht, hw']
  | watchdog warp w e hw hp hb hu =>
    show execWatchdog warp s = _
    simp only [execWatchdog, hw, Option.bind_some, hp, Option.map_some, hb]
    exact if_pos (by simpa using hu)
  | waitmRelease warp m => rfl
  | resultArrive warp id w r hw hr hd hf hu =>
    show execResultArrive warp id s = _
    simp only [execResultArrive, hw, Option.bind_some, hr, uldTrap_none hu]
    exact if_neg (resultHere hd hf)
  | uniformPoison warp id w r pc prio hw hr hd hf hu hp =>
    show execResultArrive warp id s = _
    simp only [execResultArrive, hw, Option.bind_some, hr, uldTrap_some hu hp]
    exact if_neg (resultHere hd hf)
  | poolGrant core part g w e rs t hb ht =>
    show execPoolGrant core part s = _
    simp only [execPoolGrant, hb, ht]
  | poolFault core part g w e rs f hb ht =>
    show execPoolGrant core part s = _
    simp only [execPoolGrant, hb, ht]
  | spill core part t req v g w r p h hq hb hr hp hv =>
    subst h
    show execSpill core part s = _
    simp [execSpill, hq, hb, hr, hp, hv]
  | spillWaits core part t req v g w r p h hq hb hr hp hv =>
    subst h
    show execSpill core part s = _
    simp [execSpill, hq, hb, hr, hp, hv]
  | spillFault core part t req v g w r f h hq hb hr hp =>
    subst h
    show execSpill core part s = _
    simp only [execSpill, hq, hb, hr, hp]
  | absentLineRelease warp entry w e lines hw hp ht hl =>
    have hall : (lines.any fun l => s.isAbsent l.1 l.2) = false := List.any_eq_false.mpr fun l h => by simp [hl l h]
    show execAbsentLineRelease warp entry s = _
    simp [execAbsentLineRelease, hp.entry? hw, hp.wait, hw, ht, hall]
  | absentLineTrap warp entry w e lines t hw hp ht =>
    show execAbsentLineRelease warp entry s = _
    simp [execAbsentLineRelease, hp.entry? hw, hp.wait, hw, ht]
  | memberLine warp op he =>
    show execAbsentLineRelease warp op s = _
    simp only [execAbsentLineRelease, he]
  | commandQueueRelease warp entry e hp hq =>
    show execCommandQueueRelease warp entry s = _
    simp [execCommandQueueRelease, hp.entry, hp.wait, hq]
  | walkWaits core asid va hv =>
    show execTranslationWalk core asid va s = _
    simp [execTranslationWalk, hv]
  | walkFails core asid va d hv hw =>
    show execTranslationWalk core asid va s = _
    simp [execTranslationWalk, hv, hw]
  | translationWalk core asid va l t hv hw ht =>
    subst ht
    show execTranslationWalk core asid va s = _
    simp [execTranslationWalk, hv, hw]

end Sys2Proof.Machine

namespace Sys2Proof.Machine

/-! ## Reading a parked split's object again (R305–R307) -/

section
variable {s b : State} {warp entry : Nat} {e : Entry} {k : Wait}

/-- The homes serve the object's words: the test goes again in the state in which they have been taken. -/
theorem AgainAt.againOpen (h : AgainAt s warp entry e k b) (f : State → State) :
    againOpen s (coreOf warp) (e.watchWords s warp) f = f b := by
  rw [Machine.againOpen, if_pos h.served, ← h.taken]

theorem execCwaitRetest_again (h : AgainAt s warp entry e k b) (hr : e.isRank = false) :
    execCwaitRetest warp entry s = .next (countAgain b warp e) := by
  simp [execCwaitRetest, h.parked.entry, Option.filter_some, hr, h.againOpen]

theorem execArrivecRankRelease_again (h : AgainAt s warp entry e k b) (hr : e.isRank = true) :
    execArrivecRankRelease warp entry s = .next (countAgain b warp e) := by
  simp [execArrivecRankRelease, h.parked.entry, Option.filter_some, hr, h.againOpen]

end

/-- Settles O48: under each event's conditions the re-test or release takes the branch that the event names. -/
theorem releaseEvents : Obligations.ReleaseEvents := by
  intro s i t h
  cases h with
  | counter warp entry e p thr acq scope b x h hx hp hn =>
    refine (execCwaitRetest_again h (by simp [Entry.isRank, h.parked.wait])).trans ?_
    simp only [countAgain, h.parked.wait, h.parked.eid, hx, hp, hn, if_true]
  | counterTrap warp entry e p thr acq scope b t h hx =>
    refine (execCwaitRetest_again h (by simp [Entry.isRank, h.parked.wait])).trans ?_
    simp [countAgain, h.parked.wait, hx]
  | byteCount warp entry e p ph acq scope b x h hx he hn =>
    refine (execCwaitRetest_again h (by simp [Entry.isRank, h.parked.wait])).trans ?_
    simp [countAgain, h.parked.wait, h.parked.eid, hx, he, hn]
  | byteCountFault warp entry e p ph acq scope b x h hx he =>
    refine (execCwaitRetest_again h (by simp [Entry.isRank, h.parked.wait])).trans ?_
    simp [countAgain, h.parked.wait, hx, he]
  | rank warp entry e p k scope q b x h hx hp hn =>
    refine (execArrivecRankRelease_again h (by simp [Entry.isRank, h.parked.wait])).trans ?_
    simp [countAgain, h.parked.wait, h.parked.eid, hx, hp, hn]
  | counterWaits warp entry e p thr acq scope b x h hx hp hn =>
    refine (execCwaitRetest_again h (by simp [Entry.isRank, h.parked.wait])).trans ?_
    simp only [countAgain, h.parked.wait, hx, hp, Nat.not_le.mpr hn, if_false]
  | retestWaits warp entry e p thr acq scope h hv =>
    show execCwaitRetest warp entry s = _
    simp [execCwaitRetest, h.entry, Option.filter_some, Entry.isRank, h.wait, againOpen, hv]
  | registers warp entry e line h hv =>
    show execMonitorRegistered warp entry s = _
    simp only [execMonitorRegistered, h.entry, h.wait, hv, Bool.not_true, Bool.false_eq_true, if_false]
  | registerWaits warp entry e line h hv =>
    show execMonitorRegistered warp entry s = _
    simp only [execMonitorRegistered, h.entry, h.wait, hv, Bool.not_false, if_true]
  | timeout warp w m hw hm ha ht =>
    obtain ⟨harmed, hfired⟩ := ha
    refine congrArg _ (modWarp_congr hw ?_)
    simp [Warp.fireLate, hm, harmed, hfired, ht]
  | pushed warp entry e slot i item q t h hs =>
    show execQueueSlotStep warp entry s = _
    simp [execQueueSlotStep, h.entry, h.wait, hs]
  | popped warp entry e slot i cap d q t v h hs =>
    show execQueueSlotStep warp entry s = _
    simp [execQueueSlotStep, h.entry, h.wait, hs]
  | slotWaits warp entry e slot i item q h hs =>
    show execQueueSlotStep warp entry s = _
    simp [execQueueSlotStep, h.entry, h.wait, hs]
  | parkRetest core addr xs ws b hx hw hv hb =>
    subst hx hw hb
    exact congrArg _ (if_pos hv)
  | parkWaits core addr ws hw hv =>
    subst hw
    exact congrArg _ (if_neg (by simp [hv]))
  | sleepWake warp entry e u h hu =>
    show execSleepWake warp entry s = _
    simp [execSleepWake, h.entry, h.wait, hu]
  | waveEnds warp entry w e d b id p m m' hw h hb hp hm hs ht he =>
    obtain ⟨hid, hpass⟩ := hp
    show execFragmentDelivery warp entry [] s = _
    simp [execFragmentDelivery, hw, h.entry? hw, hb, h.wait, hid, hpass, hm, hs, ← ht, he]
  | tileEnds warp entry w e d b id p m m' hw h hb hp hm hs ht he ho =>
    obtain ⟨hid, hpass⟩ := hp
    have howed : (p.tileMode && m'.owed.contains w.idx) = true := (Bool.and_eq_true _ _).mpr ho
    show execFragmentDelivery warp entry [] s = _
    simp only [execFragmentDelivery, hw, Option.bind_some, h.entry? hw, hb, h.wait, hid, hpass, Option.map_some, hm, hs, ← ht, he, howed, Bool.not_true,
      Bool.false_eq_true, if_false, if_true]
  | wave warp entry pick w e d b id p m m' fr rest hw h hb hp hm hs ht he ho hf hn =>
    obtain ⟨hid, hpass⟩ := hp
    obtain ⟨hne, hlanes, hfree⟩ := hn
    have hgo : (fr.isEmpty || decide ((lanesOf e.mask).length < fr.length) || decide (4096 - (s.core (coreOf warp)).gate.length < fr.length)) = false := by
      simp [hne, hlanes, hfree]
    show execFragmentDelivery warp entry pick s = _
    simp only [execFragmentDelivery, hw, Option.bind_some, h.entry? hw, hb, h.wait, hid, hpass, Option.map_some, hm, hs, ← ht, he, ho, hf, hgo,
      Bool.not_true, Bool.false_eq_true, if_false]
  | ordenter warp lane e f h hs hf hb =>
    show execOrdenterRelease warp lane s = _
    simp [execOrdenterRelease, h, hs, hf, hb]
  | listOrder warp lane e f h hs hf hb =>
    show execOrdenterRelease warp lane s = _
    simp [execOrdenterRelease, h, hs, hf, hb]
  | ordexit warp lane e h hc =>
    show execOrdexitRelease warp lane s = _
    simp [execOrdexitRelease, h, hc]
  | gateEntryFree core entry e h hl hc ho =>
    show execGateEntryFree core entry s = _
    simp [execGateEntryFree, h, hl, hc, ho]

end Sys2Proof.Machine

namespace Sys2Proof.Machine

/-- Instruction i issues as a uniform one, and its body makes of b the state u with the fates fs. Where lanes inside an ordered section may not execute
it, their trap stands before the fates; here it is a trap of no lanes (R384). -/
def UniRuns (s b : State) (c : Ctx) (i : Instr) (gd : Guard) (o : Opnds) (u : State) (fs : Fates) : Prop :=
  ∃ body, exec i s = issueUni s gd o body ∧ (body b c = (u, fs) ∨ body b c = (u, (0, orderBarrier) :: fs))

section
variable {s b u : State} {w : Warp} {c : Ctx} {i : Instr} {gd : Guard} {o : Opnds} {fs : Fates}

theorem UniRuns.of {body : Body} (hi : exec i s = issueUni s gd o body) (hb : body b c = (u, fs)) : UniRuns s b c i gd o u fs := ⟨body, hi, .inl hb⟩

/-- None of the lanes is inside an ordered section, where the instruction may not execute. -/
theorem UniRuns.outside {f : State → LaneMask → State × Fates} {body : Body} (hi : exec i s = issueUni s gd o body)
    (hf : body b c = outsideOnly b c f) (hw : b.warp? c.g = some w) (hn : c.act &&& w.inside = 0) (ha : c.act ≠ 0) (hb : f b c.act = (u, fs)) :
    UniRuns s b c i gd o u fs :=
  ⟨body, hi, .inr (hf.trans (outsideOnly_out hw hn ha hb))⟩

/-! ## Objects, queues and what deterministic mode forbids (R291, R312, R318) -/

section
variable {p : DWord} {n m : Nat} {k : AccKind} {ok : Nat → Bool} {x : Loc}

theorem onObject_at (h : objLoc b c.g p n k ok = .ok x) (f : Loc → State × Fates) : onObject b c p n k ok f = f x := by
  rw [onObject, h]

theorem ObjAt.onObject (h : ObjAt b c p n m k ok x) (f : Loc → State × Fates) : onObject b c p n k ok f = f x := onObject_at h.lies f

theorem QueueAt.onQueue {h : QueueHdr} (hq : QueueAt b c p x h) (f : Loc → QueueHdr → State × Fates) : onQueue b c p f = f x h := by
  simp only [Machine.onQueue, onObject_at hq.lies, hq.low, hq.high, hq.hdr, hq.ok, if_true]

theorem State.claimable.conflictOf {n : Nat × Nat} (h : b.claimable c w n) : conflictOf (b.core (coreOf c.g)) w.block [n] = none := h

theorem unlessDet_off (h : b.flagOf c.g Launch.det = false) (f : State → State × Fates) : unlessDet b c f = f b := by
  simp [unlessDet, h]

end

end

/-- A lane differs from the one that V2S reads where it does not read the same number without poison. -/
theorem any_differs {w : Warp} {a : Src} {n k x : Nat} (hx : vread w a n k = (x, false)) (ls : List Nat) :
    (ls.any fun m => m != k && ((vread w a n m).2 || (vread w a n m).1 != x)) = ls.any fun m => vread w a n m != (x, false) := by
  refine congrArg ls.any (funext fun m => Bool.eq_iff_iff.mpr ?_)
  by_cases hm : m = k
  · simp [hm, hx]
  · cases hv : vread w a n m with
    | mk y poison => cases poison <;> simp [hm]

/-- A copy request that is accepted stands in the queue, or waits for a place there. -/
theorem CopyInstr.runs {s b u : State} {w : Warp} {c : Ctx} {fs : Fates} {i : Instr} {g : Guard} {k : CopyKind} {a : Nat} {blk : Block} {l : Launch}
    {r : CopyReq} (hi : CopyInstr i g k a) (hr : CopyAt b c w blk l k (w.sget a) r) (hw : b.warp? c.g = some w)
    (hu : (if 64 ≤ ((copyReleased b c w blk l k r).core (coreOf c.g)).cmds.length then (copyReleased b c w blk l k r, [(c.act, .park .commandQueue)])
      else (copyPosted (copyReleased b c w blk l k r) c w blk l k r, [])) = (u, fs)) :
    UniRuns s b c i g { sr := [a], rel := postLevel s k a } u fs := by
  obtain ⟨n, off, yard, hx, hreq⟩ := hr.record
  have hexec : exec i s = postCopy s g k a := by cases hi <;> rfl
  refine .of hexec ?_
  simp only [hw, hr.block, hr.launch, onObject_at hx, hreq, hr.check, hr.fixed, Bool.false_eq_true, if_false]
  exact hu

/-- So does a matrix command whose checks hold. -/
theorem MatrixInstr.runs {s b u : State} {w : Warp} {c : Ctx} {fs : Fates} {i : Instr} {g : Guard} {sr : List Nat} {check : MatCheck} {blk : Block}
    {l : Launch} {m : MatCmd} (hi : MatrixInstr i g sr check) (hb : b.blockOf c.g = some blk) (hl : b.launchOf c.g = some l)
    (hc : check b c.g w blk l = .ok m) (hw : b.warp? c.g = some w)
    (hu : (if 64 ≤ ((releaseAct b c.g .block none).core (coreOf c.g)).cmds.length then (releaseAct b c.g .block none, [(c.act, .park .commandQueue)])
      else (acceptMatrix (releaseAct b c.g .block none) c.g c.lanes w m, [])) = (u, fs)) :
    UniRuns s b c i g { sr := sr, rel := relLevel .rel .block } u fs := by
  have hexec : exec i s = postMatrix s g sr check := by cases hi <;> rfl
  refine .of hexec ?_
  simp only [hw, hb, hl, hc]
  exact hu

theorem abortAll_eq (b : State) (c : Ctx) (xs : List Cmd) : abortAll b c xs = (aborted b c xs, abortFates b c xs) := by
  simp only [abortAll, abortFates, abortLeft, List.isEmpty_iff]
  rfl

/-! ## The instructions -/

/-- Each effect is what the body of its instruction makes. -/
theorem UniEffect.runs {s b u : State} {w : Warp} {c : Ctx} {i : Instr} {gd : Guard} {o : Opnds} {fs : Fates} (h : UniEffect s b w c i gd o u fs)
    (hw : b.warp? c.g = some w) (ha : c.act ≠ 0) : UniRuns s b c i gd o u fs := by
  cases h with
  -- moves between lanes and uniform registers, tile shapes (R214–R221)
  | v2s g mode w64 d a k x hx he =>
    have heven : (decide (mode = 2) && (lanesOf c.lanes).any fun m => vread w a (if w64 then 2 else 1) m != (x, false)) = false := by
      by_cases hm : mode = 2
      · simpa [hm] using he hm
      · simp [hm]
    exact .of rfl (by simp only [hw, hx, any_differs hx, heven, Bool.false_and, Bool.false_eq_true, if_false])
  | v2sUneven g w64 d a k x hx he hs =>
    have hany : ((lanesOf c.lanes).any fun m => vread w a (if w64 then 2 else 1) m != (x, false)) = true := by simpa using he
    exact .of rfl (by simp only [hw, hx, any_differs hx, hany, hs, decide_true, Bool.and_false, Bool.and_true, Bool.false_eq_true, if_false, if_true])
  | v2sStrict g w64 d a k x hx he hs =>
    have hany : ((lanesOf c.lanes).any fun m => vread w a (if w64 then 2 else 1) m != (x, false)) = true := by simpa using he
    exact .of rfl (by simp only [hw, hx, any_differs hx, hany, hs, decide_true, Bool.and_true, if_true]; rfl)
  | s2v g w64 d a => exact .of rfl (congrArg (·, _) (modWarp_congr hw rfl))
  | tshape g n a hc hl =>
    have hlegal : (w.sget a != 0 && !tcLegal n (w.sget a).toNat) = false := by rcases hl with hl | hl <;> simp [hl]
    exact .of rfl (by simp only [hw, hc, hlegal, Bool.false_eq_true, if_false])
  -- loads, descriptors, fences, translations (R238, R239, R248, R257–R259, R133)
  | uld f d => exact .of rfl (by simp only [hw])
  | sdef g p q r blk t bs poison hb hp hr hv ho habs hn =>
    obtain ⟨hspace, halign⟩ := hp
    obtain ⟨hsize, hoff⟩ := ho
    have hread : (decide (3 < spaceOf (w.sget p)) && spaceOf (w.sget p) != 8) = false := by
      rcases hspace with h | h <;> simp [h]
    have haligned : (decide ((w.sget p).toNat % 64 ≠ 0) && (spaceFault b c.g (w.sget p) 64).isNone) = false := by
      rcases halign with h | h <;> simp [h, Option.isSome_iff_ne_none]
    have hbase : (!(streamOf bs).valid || !(spaceOf (w.sget q) != 10 && spaceOf (w.sget q) != 12)) = false := by simp [hv]
    refine .of rfl ?_
    simp only [hw, hb, gt_iff_lt, hread, haligned, hr, hbase, Nat.not_lt.mpr hsize, hoff, habs, hn, List.length_nil, Nat.min_zero, State.count_zero,
      List.isEmpty_nil, ne_eq, not_true_eq_false, Bool.not_true, Bool.and_false, Bool.false_eq_true, if_false]
  | fenceRel g scope => exact .of rfl rfl
  | fenceAcq g scope => exact .of rfl rfl
  | fenceBoth g scope => exact .of rfl rfl
  | tfence g sc => exact .of rfl rfl
  | tfenceRange g sc p q hp =>
    have hrange : (decide ((w.sget q).toNat ≠ 0) && !(ptrWellFormed (w.sget p) && decide (spaceOf (w.sget p) ≤ 5))) = false := by
      rcases hp with hp | hp <;> simp [hp]
    exact .of rfl (by simp only [hw, hrange, Bool.false_eq_true, if_false])
  | tfenceAll g sc => exact .of rfl rfl
  | bind g size p q r hp hq hr hn => exact .of rfl (by simp [-Nat.reducePow, hw, hp, hq, hr, hn])
  | bindFull g size p q r hp hq hr hn => exact .of rfl (by simp [-Nat.reducePow, hw, hp, hq, hr, Nat.not_lt.mpr hn])
  | unbind g size p => exact .of rfl (by simp only [hw])
  | ipf g a d n => exact .of rfl (by simp only [hw])
  -- barriers (R294–R303)
  | barSync g q bar a blk hb hi hm hf =>
    exact .outside rfl rfl hw hi ha (by simp only [hw]; exact syncArrive_fresh hw hb hm ha hf)
  | barp g op d bar k a blk hb hi hm hf =>
    exact .outside rfl rfl hw hi ha (by simp only [hw]; exact syncArrive_fresh hw hb hm ha hf)
  | barArrive g q bar a blk hb hf => exact .of rfl (by simp only [hw, hb, hf]; rfl)
  | barWait g q bar hi => exact .outside rfl rfl hw hi ha (by simp only [hw])
  | bardrop g bar blk hb hf => exact .of rfl (by simp only [hw, hb, hf])
  -- counted waits and monitors (R304–R310)
  | arrivec g ord scope p k q x hx hd => exact .of rfl (by simp [hw, hx.onObject, hx.sound, hd])
  | arrivecDet g ord scope p k q x hx hd h1 hk => exact .of rfl (by simp [hw, hx.onObject, hx.sound, hd, h1, hk])
  | cwaitTarget g acq scope p k x hx hn => exact .of rfl (by simp [hw, hx.onObject, hx.sound, hn])
  | cwaitTargetParks g acq scope p k x hx hn => exact .of rfl (by simp [hw, hx.onObject, hx.sound, Nat.not_le.mpr hn])
  | cwait g acq scope p k x hx hn => exact .of rfl (by simp [hw, hx.onObject, hx.sound, hn])
  | cwaitParks g acq scope p k x hx hn => exact .of rfl (by simp [hw, hx.onObject, hx.sound, Nat.not_le.mpr hn])
  | cwaitb g acq scope p k x hx he hn => exact .of rfl (by simp [hw, onObject_at hx, he, hn])
  | cwaitbParks g acq scope p k x hx he hn => exact .of rfl (by simp [hw, onObject_at hx, he, hn])
  | monitorSpad g p blk off yard hd hx => exact .of rfl (by simp only [unlessDet_off hd, hw, onObject_at hx])
  | monitorDev g p pa loc hd hx => exact .of rfl (by simp only [unlessDet_off hd, hw, onObject_at hx])
  | mwaitParks g m hd hm hp => exact .of rfl (by simp [unlessDet_off hd, hw, hm, hp])
  | mwaitGoes g m hd hm hp =>
    refine .of rfl ?_
    rcases hp with hp | hp <;> simp [unlessDet_off hd, hw, hm, hp]
  | mwaitNone g hd hm => exact .of rfl (by simp [unlessDet_off hd, hw, hm])
  -- queues and futures (R311–R317)
  | qpush g p k q x h t hd hx hwait hr hs => exact .of rfl (by simp [-Nat.reducePow, unlessDet_off hd, hw, hx.onQueue, hwait, hr, hs])
  | qpushFull g p k q x h hd hx hwait hr => exact .of rfl (by simp [-Nat.reducePow, unlessDet_off hd, hw, hx.onQueue, hwait, Nat.not_lt.mpr hr])
  | qpop g d p q x h t v hd hx hn hs => exact .of rfl (by simp [-Nat.reducePow, unlessDet_off hd, hw, hx.onQueue, hn, hs])
  | qpopEmpty g d p q x h hd hx hn hm =>
    refine .of rfl ?_
    rcases hm with hm | hm <;> simp [unlessDet_off hd, hw, hx.onQueue, hn, hm]
  | qpopLinks g d p q x h hd hx hn hm => exact .of rfl (by simp [unlessDet_off hd, hw, hx.onQueue, hn, hm, State.newId])
  | fulfil g p k q x hd hx hf => exact .of rfl (by simp only [unlessDet_off hd, hw, onObject_at hx, hf, if_true])
  | fulfilled g p k q x hd hx hf => exact .of rfl (by simp [unlessDet_off hd, hw, onObject_at hx, hf])
  | park g d p q x hd hx hf hp => exact .of rfl (by simp only [unlessDet_off hd, hw, onObject_at hx, hf, hp, if_true])
  | parkWaits g d p q x hd hx hf he hr =>
    exact .of rfl (by simp only [unlessDet_off hd, hw, onObject_at hx, hf, Nat.zero_ne_one, he, Bool.false_eq_true, hr, if_true, if_false])
  | parkJoins g d p q x hd hx hf he =>
    exact .of rfl (by simp only [unlessDet_off hd, hw, onObject_at hx, hf, Nat.zero_ne_one, he, if_true, if_false])
  | parkFull g d p q x hd hx hf he hr =>
    exact .of rfl (by simp only [unlessDet_off hd, hw, onObject_at hx, hf, Nat.zero_ne_one, he, Bool.false_eq_true, Nat.not_lt.mpr hr, if_false])
  -- launches, switch points, dealing, sleeping (R96–R98, R111, R112, R116, R128–R131)
  | launch g d p x hx => exact .of rfl (by simp only [hw, hx.onObject, hx.sound])
  | vsp g k hi _ => exact .outside rfl rfl hw hi ha (by simp only [hw])
  | sget g sel d blk l hb hl hs => exact .of rfl (by simp only [hw, hb, hl, hs, if_false])
  | sgetChunk g d blk l hb hl => exact .of rfl (by simp only [hw, hb, hl, if_true])
  | sputHint g a l hl => exact .of rfl (by simp only [hw, hl])
  | sputYield g a l hl h1 => exact .of rfl (by simp only [hw, hl, h1, if_true])
  | sputStay g a l hl h1 => exact .of rfl (by simp [hw, hl, h1])
  | sputCls g a l hl hr => exact .of rfl (by simp only [hw, hl, hr, if_true])
  | sputRole g a l hl hr => exact .of rfl (by simp only [hw, hl, hr, if_false])
  | sleepNot g => exact .of rfl rfl
  | sleep g n hn => exact .of rfl (by simp only [hn, if_false])
  | progrd g d pg => exact .of rfl rfl
  -- copies and their guard slots (R330–R343)
  | copy i g k a blk l r hi hr hq => exact hi.runs hr hw (if_neg (Nat.not_le.mpr hq))
  | copyFull i g k a blk l r hi hr hq => exact hi.runs hr hw (if_pos (Nat.not_lt.mp hq))
  | cguardClr g n => exact .of rfl (by simp only [hw, Option.map_some, Option.getD_some])
  | cguardSet g n q => exact .of rfl (by simp only [hw])
  | cguardRd g d n => exact .of rfl (by simp only [hw])
  | cpres g q pg => exact .of rfl (by simp only [hw])
  | cabort g pg => exact .of rfl (by simp only [hw, abortAll_eq])
  | cabortAll g => exact .of rfl (by simp only [hw, abortAll_eq])
  -- the matrix unit (R350–R369)
  | matrix i g sr check blk l m hi hb hl hc hq => exact hi.runs hb hl hc hw (if_neg (Nat.not_le.mpr hq))
  | matrixFull i g sr check blk l m hi hb hl hc hq => exact hi.runs hb hl hc hw (if_pos (Nat.not_lt.mp hq))
  | msign g cv hc he => exact .of rfl (by simp only [hw, hc.conflictOf, he, if_false])
  | msignArm g cv a blk l hb hl hc hx hg =>
    have hword : (decide (nbits (w.sget a).toNat 9 55 ≠ 0) || decide (128 < nbits (w.sget a).toNat 0 8)) = false := by simp [hx]
    have hgang : ((w.sget a).toNat.testBit 8 && !(l.yardGang && decide (gangSize l = 4))) = false := by
      cases h8 : (w.sget a).toNat.testBit 8 with
      | false => rfl
      | true => simp [hg h8]
    refine .of rfl ?_
    simp only [hw, hb, hl, hword, hc.conflictOf, hgang, Bool.false_eq_true, if_false]
    rfl
  | msignRd g d cv hc => exact .of rfl (by simp only [hw, hc.conflictOf])
  | eset g e a hc => exact .of rfl (by simp only [hw, hc.conflictOf])
  | esetRd g d e hc => exact .of rfl (by simp only [hw, hc.conflictOf])

/-- Settles O20: a uniform instruction with a true guard does in a calm split what its body makes, and a fate of no lane changes nothing. -/
theorem uniformEffects : Obligations.UniformEffects := by
  intro s b g w w' e i gd o u fs hc hb hw h hg hrel hhome hroom
  obtain ⟨body, hi, hu | hu⟩ := h.runs hw hc.lanes
  · exact hi.trans (issueUni_body hc hg hrel hhome hroom hb hu)
  · exact hi.trans ((issueUni_body hc hg hrel hhome hroom hb hu).trans (congrArg _ (finishBody_zero ..)))

end Sys2Proof.Machine

namespace Sys2Proof.Machine

/-! ## The sequencer's instructions (R143–R164) -/

section
variable {s u : State} {g : Nat} {w : Warp} {e : Entry} {gd : Guard} {kind : GuardKind} {body : Body} {fs : Fates}

/-- A lane instruction without v registers whose body keeps the results and the held last-use bits of its warp: its body's state and fates. -/
theorem issueLane_keeping {o : Opnds} (hc : Calm s g w e) (ho : o.rel = 0 ∧ o.vr = [] ∧ o.vw = [] ∧ o.lu = []) (hhome : homeOpen s g o = true)
    (hb : body ((s.engaged g o).begun g e) (bodyCtx kind g w e gd) = (u, fs)) (hk : KeepsHeld g ((s.engaged g o).begun g e) u) :
    issueLane s gd kind o body = .next (u.stepped g e (guardFate kind (laneCtx g w e gd).pg ++ fs)) := by
  obtain ⟨hrel, hvr, hvw, hlu⟩ := ho
  obtain ⟨w₁, hw₁, hr₁, hh₁⟩ := (still_engaged s g o).keeps g w hc.warp
  obtain ⟨w₂, hw₂, hr₂, hh₂⟩ := hk _ (warp?_begun hw₁)
  exact issueLane_homed hc (.inl hrel) hhome hvr hvw hlu hb hw₂ (hh₂.trans (hh₁.trans hc.held)) (hr₂.trans (hr₁.trans hc.results))

/-- The same of one that names no operands at all. -/
theorem issueLane_bare (hc : Calm s g w e) (hb : body (s.begun g e) (bodyCtx kind g w e gd) = (u, fs)) (hk : KeepsHeld g (s.begun g e) u) :
    issueLane s gd kind {} body = .next (u.stepped g e (guardFate kind (laneCtx g w e gd).pg ++ fs)) :=
  issueLane_keeping hc ⟨rfl, rfl, rfl, rfl⟩ rfl hb hk

end

theorem keeps_count (g : Nat) (s : State) (ev : Ev) (n : Nat) : KeepsHeld g s (s.count ev n) := fun w hw => ⟨w, by simpa using hw, rfl, rfl⟩

theorem keeps_leavesHandler (s : State) (g : Nat) (ls : List Nat) : KeepsHeld g s (s.modWarp g fun w => w.leavesHandler ls) :=
  keeps_modWarp _ _ _ fun w => by rw [leavesHandler_frame]; exact ⟨rfl, rfl⟩

/-- The lanes of BRA.U agree: none branches, or all that its poisoned guard leaves (R145). -/
theorem braU_agrees {a m : LaneMask} (h : a = 0 ∨ a = m) : (a != 0 && a != m) = false := by
  rcases h with h | h <;> simp [h]

theorem braU_diverges {a m : LaneMask} (h : a ≠ 0 ∧ a ≠ m) : (a != 0 && a != m) = true := by
  rw [bne_iff_ne.mpr h.1, bne_iff_ne.mpr h.2]; rfl

/-- Settles O28: each instruction's body, run in a calm split, makes the state and the fates that its row names. -/
theorem sequencerResults : Obligations.SequencerResults := by
  intro s g w e i t fs hc h
  have hw := hc.warp
  have hkeep := KeepsHeld.refl g (s.begun g e)
  cases h with
  | nop gd => exact issueLane_bare (gd := gd) (kind := .ignored) hc rfl hkeep
  | land gd => exact issueLane_bare (gd := gd) (kind := .ignored) hc rfl hkeep
  | yield gd => exact issueLane_bare (gd := gd) (kind := .ignored) hc rfl hkeep
  | bra gd prio off => exact issueLane_bare (kind := .traps) hc rfl hkeep
  | braU gd prio off h =>
    exact issueLane_bare (kind := .traps) hc (by
      simp only [bodyCtx, laneCtx, warp?_begun hw, guardLanes_marked] at h ⊢
      simp only [braU_agrees h, Bool.false_eq_true, if_false]) hkeep
  | braUSplit gd prio off h hs =>
    exact issueLane_bare (kind := .traps) hc (by
      simp only [bodyCtx, laneCtx, warp?_begun hw, guardLanes_marked, flagOf_begun hw, hs] at h ⊢
      simp only [braU_diverges h, Bool.false_eq_true, if_false, if_true]) (keeps_count _ _ _ _)
  | braUStrict gd prio off h hs =>
    exact issueLane_bare (kind := .traps) hc (by
      simp only [bodyCtx, laneCtx, warp?_begun hw, guardLanes_marked, flagOf_begun hw, hs] at h ⊢
      simp only [braU_diverges h, if_true]) hkeep
  | call gd prio off u fs hh h =>
    exact issueLane_keeping hc ⟨rfl, rfl, rfl, rfl⟩ hh (laneFates_of (R := CallLane g e.prio e.pc (branchTarget e.pc off) prio)
      (fun _ _ _ _ h => (callLane_of (c := bodyCtx .traps g w e gd) h).1) h)
      (eachLane_keeps (fun _ _ _ _ h => (callLane_of (c := bodyCtx .traps g w e gd) h).2) h)
  | ret gd u fs hh h =>
    exact issueLane_keeping hc ⟨rfl, rfl, rfl, rfl⟩ hh (laneFates_of (R := RetLane g) (fun _ _ _ _ h => (retLane_of (c := bodyCtx .traps g w e gd) h).1) h)
      (eachLane_keeps (fun _ _ _ _ h => (retLane_of (c := bodyCtx .traps g w e gd) h).2) h)
  | join gd m h => exact issueLane_bare (kind := .traps) hc (congrArg (·, _) (if_neg h)) (keeps_modWarp _ _ _ fun _ => ⟨rfl, rfl⟩)
  | leave gd m h => exact issueLane_bare (kind := .traps) hc (congrArg (·, _) (if_neg h)) (keeps_modWarp _ _ _ fun _ => ⟨rfl, rfl⟩)
  | mclr gd m h => exact issueLane_bare (kind := .traps) hc (congrArg (·, _) (if_neg h)) (keeps_modWarp _ _ _ fun _ => ⟨rfl, rfl⟩)
  | joinNone gd m h => exact issueLane_bare (kind := .traps) hc (congrArg (·, _) (if_pos h)) hkeep
  | leaveNone gd m h => exact issueLane_bare (kind := .traps) hc (congrArg (·, _) (if_pos h)) hkeep
  | mclrNone gd m h => exact issueLane_bare (kind := .traps) hc (congrArg (·, _) (if_pos h)) hkeep
  | waitm gd m =>
    exact issueLane_bare (kind := .traps) hc (by
      simp only [bodyCtx, laneCtx, insideOf_begun hw]
      rfl) hkeep
  | trap gd n => exact issueLane_bare (kind := .traps) hc rfl hkeep
  | bkpt gd n h => exact issueLane_bare (kind := .traps) hc (congrArg (_, ·) (if_pos ((flagOf_begun hw _).trans h))) hkeep
  | bkptOff gd n h => exact issueLane_bare (kind := .traps) hc (congrArg (_, ·) (if_neg (ne_true_of_eq_false ((flagOf_begun hw _).trans h)))) hkeep
  | tret gd => exact issueLane_bare (kind := .traps) hc (laneFates_tret (warp?_begun hw)) (keeps_leavesHandler _ _ _)
  | tretNext gd => exact issueLane_bare (kind := .traps) hc (laneFates_tret (warp?_begun hw)) (keeps_leavesHandler _ _ _)
  | tkill gd => exact issueLane_bare (kind := .traps) hc rfl (keeps_count _ _ _ _)
  | exit gd => exact issueLane_bare (kind := .traps) hc rfl hkeep
  | wdog gd n x h hl =>
    have ha : ((bodyCtx .traps g w e gd).act == 0) = false := beq_eq_false_iff_ne.mpr h
    have hl' : (s.begun g e).launchOf (bodyCtx .traps g w e gd).g = some x := (launchOf_begun hw).trans hl
    exact issueLane_bare (kind := .traps) hc (by
      simp only [ha, hl']
      rfl) (keeps_modWarp _ _ _ fun _ => ⟨rfl, rfl⟩)
  | wdogNone gd n h =>
    exact issueLane_bare (kind := .traps) hc (by simp only [bodyCtx, h, beq_self_eq_true]) hkeep

end Sys2Proof.Machine

namespace Sys2Proof.Machine

/-! ## Words of the sequencer's group (R28, R32, R166) -/

section
variable {gd : Guard} {ix d imm : Nat}

/-- A word of format V in lane group 0x0 whose one operand is DEST. -/
theorem encV_sequencer (hg : gd.n < 8) (hx : ix < 64) (hd : d < 256) :
    nbits (encV 0 0 ix gd 0 d 0 0 0 0) 53 11 = ix ∧ nbits (encV 0 0 ix gd 0 d 0 0 0 0) 0 7 = 0 ∧ nbits (encV 0 0 ix gd 0 d 0 0 0 0) 37 8 = d := by
  have h := VWord.mk' (set := 0) (grp := 0) (la := 0) (a := 0) (b := 0) (c := 0) (mod := 0) (by decide) (by decide) hx hg (by decide) hd (by decide)
    (by decide) (by decide) (by decide)
  exact ⟨by simpa using head_opcode h.head, h.inMod 0 7 (by decide), h.fd⟩

/-- A word of format VI in lane group 0x0 whose one operand is IMM20. -/
theorem encVI_sequencer (hg : gd.n < 8) (hx : ix < 64) (hi : imm < 2 ^ 20) :
    nbits (encVI 0 0 ix gd 0 0 0 imm 0) 53 11 = ix ∧ nbits (encVI 0 0 ix gd 0 0 0 imm 0) 7 20 = imm ∧ nbits (encVI 0 0 ix gd 0 0 0 imm 0) 0 7 = 0 := by
  have h := VIWord.mk' (set := 0) (grp := 0) (la := 0) (d := 0) (a := 0) (mod := 0) (by decide) (by decide) hx hg (by decide) (by decide) (by decide)
    hi (by decide)
  exact ⟨by simpa using head_opcode h.head, (h.inImm 7 20 (by decide) (by decide)).trans (fld_whole imm 20 hi), h.inMod 0 7 (by decide)⟩

/-- A word of the sequencer's group whose MOD field its instruction does not have is no instruction (R43). -/
theorem decodeWord_sequencer_none {w : DWord} (ho : nbits w.toNat 53 11 = ix) (hx : ix < 18) (hb : buildLane0 ix w.toNat = none) :
    decodeWord w = .error .illegalEncoding := by
  have hset : fld w.toNat 63 1 = 0 := by unfold nbits at ho; unfold fld; omega
  have hgrp : fld w.toNat 59 4 = 0 := by unfold nbits at ho; unfold fld; omega
  have hix : fld w.toNat 53 6 = ix := by unfold nbits at ho; unfold fld; omega
  have hassigned : opcodeAssigned (boolOf 0) 0 ix = true := decide_eq_true hx
  have hbuild : buildInstr (boolOf 0) 0 ix w.toNat = none := hb
  rw [decodeWord, decodeNat]
  simp only [hset, hgrp, hix, hassigned, hbuild, if_true]

end

/-! ## Splits of which no lane has a fate -/

/-- The split goes on as if its entry had not been marked. -/
theorem begun_stepped_nil {s : State} {g : Nat} {w : Warp} {e : Entry} (hc : Calm s g w e) : (s.begun g e).stepped g e [] = s.passed g e := by
  rw [stepped_nil]
  exact passed_markedAt s g e fun v hv => by rw [hc.warp] at hv; cases hv; exact hc.alone

theorem exec_nop {s : State} {g : Nat} {w : Warp} {e : Entry} (hc : Calm s g w e) (gd : Guard) : exec (.nop gd) s = .next (s.passed g e) :=
  (sequencerResults _ _ _ _ _ _ _ hc (.nop gd)).trans (congrArg _ (begun_stepped_nil hc))

theorem exec_land {s : State} {g : Nat} {w : Warp} {e : Entry} (hc : Calm s g w e) (gd : Guard) : exec (.land gd) s = .next (s.passed g e) :=
  (sequencerResults _ _ _ _ _ _ _ hc (.land gd)).trans (congrArg _ (begun_stepped_nil hc))

theorem passed_onlyWarp (s : State) (g : Nat) (e : Entry) : OnlyWarp s (s.passed g e) g ∧ (s.passed g e).events = s.events := by
  have h := passed_frame s g e
  refine ⟨⟨?_, fun h' hn => passed_warp_other s e hn⟩, by rw [h]⟩
  generalize s.passed g e = t at h ⊢
  rw [h]

/-- Settles O29: the words of both, and the entry that moves. -/
theorem nopPasses : Obligations.NopPasses := by
  refine ⟨fun gd n hwf hn => ?nop, fun gd n hwf hn => ?yield, fun w ho hm => ?mod, fun s g w e gd hc => ?runs⟩
  case nop =>
    obtain rfl := Option.some.inj hn
    obtain ⟨ho, hm, -⟩ := encV_sequencer (ix := 0x000) (d := 0) (Laws.wfG hwf) (by decide) (by decide)
    exact ⟨ho, hm⟩
  case yield =>
    obtain rfl := Option.some.inj hn
    obtain ⟨ho, hm, -⟩ := encV_sequencer (ix := 0x00F) (d := 0) (Laws.wfG hwf) (by decide) (by decide)
    exact ⟨ho, hm⟩
  case mod =>
    rcases ho with ho | ho
    · exact decodeWord_sequencer_none ho (by decide) (if_neg hm)
    · exact decodeWord_sequencer_none ho (by decide) (if_neg hm)
  case runs =>
    obtain ⟨honly, hev⟩ := passed_onlyWarp s g e
    refine ⟨_, _, exec_nop hc gd, passed_warp s g e w hc.warp, honly, ?_, hev, fun l _ hl => ?_⟩
    · have h := stepped_frame w e s.now
      generalize ((w.aged e.eid s.now).stepOff e 0).tidy = v at h ⊢
      rw [OnlyFrontier, h]
    · exact stepped_runs w e e s.now l hc.mem rfl hl

/-! ## LAND (R149, R150) -/

/-- The checks of an indirect target whose pointer is in order: the word there is LAND or it is not. -/
theorem targetTrap_none_iff {s : State} {g a : Nat} {word : DWord} (hs : nbits a 60 4 ≤ 3) (hr : nbits a 57 3 = 0) (hl : nbits a 0 3 = 0)
    (hw : codeWord s g (nbits a 0 57) = some word) : targetTrap s g a false = none ↔ nbits word.toNat 53 11 = 0x006 := by
  have hbad : (decide (3 < nbits a 60 4) || decide (nbits a 57 3 ≠ 0) || decide (nbits a 0 3 ≠ 0)) = false := by simp [hr, hl, Nat.not_lt.mpr hs]
  unfold targetTrap
  simp only [hbad, hw, Bool.false_eq_true, if_false]
  split <;> simp_all

/-- Settles O30: its word, its body, and the checks of BRA and of BRX. -/
theorem landMarks : Obligations.LandMarks := by
  refine ⟨fun gd n hwf hn => ?_, fun s g w e gd hc => exec_land hc gd, fun s g w e gd prio off hc => ?_, fun s g a word hs hr hl hw => ?_⟩
  · obtain rfl := Option.some.inj hn
    obtain ⟨ho, hm, -⟩ := encV_sequencer (ix := 0x006) (d := 0) (Laws.wfG hwf) (by decide) (by decide)
    exact ⟨ho, hm⟩
  · exact sequencerResults _ _ _ _ _ _ _ hc (.bra gd prio off)
  · exact targetTrap_none_iff hs hr hl hw

/-! ## TRAP and BKPT (R162) -/

/-- Settles O32: the words of both, and what their lanes come to. -/
theorem softwareTraps : Obligations.SoftwareTraps := by
  refine ⟨fun gd n k hg hn hk => ?_, fun gd n k hg hn hk => ?_, fun w ho hm => ?_, fun s g w e gd n hc => ⟨?_, fun h => ?_, fun h => ?_⟩⟩
  · obtain rfl := Option.some.inj hk
    exact encVI_sequencer (ix := 0x00B) hg (by decide) hn
  · obtain rfl := Option.some.inj hk
    exact encVI_sequencer (ix := 0x011) hg (by decide) hn
  · rcases ho with ho | ho
    · exact decodeWord_sequencer_none ho (by decide) (if_neg hm)
    · exact decodeWord_sequencer_none ho (by decide) (if_neg hm)
  · exact sequencerResults _ _ _ _ _ _ _ hc (.trap gd n)
  · exact sequencerResults _ _ _ _ _ _ _ hc (.bkpt gd n h)
  · exact sequencerResults _ _ _ _ _ _ _ hc (.bkptOff gd n h)

end Sys2Proof.Machine

namespace Sys2Proof.Machine

/-! ## Sets of lanes -/

theorem mask_sub_iff (a b : LaneMask) : a &&& ~~~ b = 0 ↔ ∀ l, a.getLsbD l = true → b.getLsbD l = true := by
  refine ⟨fun h l hl => ?_, fun h => BitVec.eq_of_getLsbD_eq fun i hi => ?_⟩
  · have hlt := BitVec.lt_of_getLsbD hl
    have hbit : (a &&& ~~~ b).getLsbD l = false := by rw [h]; exact BitVec.getLsbD_zero
    simpa [hl, hlt] using hbit
  · have := h i
    simp only [BitVec.getLsbD_and, BitVec.getLsbD_not, hi, decide_true, Bool.true_and]
    cases ha : a.getLsbD i <;> simp_all

theorem mask_disjoint_iff (a b : LaneMask) : a &&& b = 0 ↔ ∀ l, a.getLsbD l = true → b.getLsbD l = false := by
  refine ⟨fun h l hl => ?_, fun h => BitVec.eq_of_getLsbD_eq fun i hi => ?_⟩
  · have hbit : (a &&& b).getLsbD l = false := by rw [h]; exact BitVec.getLsbD_zero
    simpa [hl] using hbit
  · have := h i
    simp only [BitVec.getLsbD_and]
    cases ha : a.getLsbD i <;> simp_all

theorem mask_ne_zero_iff (a : LaneMask) : a ≠ 0 ↔ ∃ l, a.getLsbD l = true := by
  refine ⟨fun h => ?_, fun ⟨l, hl⟩ h0 => by rw [h0] at hl; simp at hl⟩
  by_contra hn
  refine h (BitVec.eq_of_getLsbD_eq fun i _ => ?_)
  have := fun h => hn ⟨i, h⟩
  simpa using this

/-- A lane of a difference of masks. -/
theorem getLsbD_diff (a b : LaneMask) (l : Nat) : (a &&& ~~~ b).getLsbD l = (a.getLsbD l && !b.getLsbD l) := by
  by_cases h : l < 32
  · simp [h]
  · have : a.getLsbD l = false := BitVec.getLsbD_of_ge _ _ (by omega)
    simp [this]

/-! ## Merging (R138) -/

/-- The two entries may merge. -/
def Entry.meets (x y : Entry) : Prop := x.mergeable = true ∧ y.mergeable = true ∧ x.pc = y.pc

/-- An entry that is added either stands at the end, for no entry may merge with it, or joins one that may. -/
theorem addEntry_cases (l : List Entry) (e : Entry) :
    ((∀ x ∈ l, ¬ x.meets e) ∧ addEntry l e = l ++ [e]) ∨
    ∃ p x q, l = p ++ x :: q ∧ x.meets e ∧ addEntry l e = p ++ x.merge e :: q := by
  induction l with
  | nil => exact .inl ⟨by simp, rfl⟩
  | cons z r ih =>
    simp only [addEntry, Bool.and_eq_true, beq_iff_eq]
    split
    · next h =>
      obtain ⟨⟨hz, he⟩, hp⟩ := h
      exact .inr ⟨[], z, r, rfl, ⟨hz, he, hp⟩, rfl⟩
    · next h =>
      obtain ⟨hn, ha⟩ | ⟨p, x, q, hl, hm, ha⟩ := ih
      · refine .inl ⟨fun x hx => ?_, by rw [ha]; rfl⟩
        rcases List.mem_cons.mp hx with rfl | hr
        · exact fun ⟨hx, he, hp⟩ => h ⟨⟨hx, he⟩, hp⟩
        · exact hn x hr
      · exact .inr ⟨z :: p, x, q, by rw [hl]; rfl, hm, by rw [ha]; rfl⟩

/-- What holds of every entry, and of the merger of two entries of which it holds, holds after merging. -/
theorem mergeAll_all {P : Entry → Prop} {l : List Entry} (hl : ∀ x ∈ l, P x) (hm : ∀ a b : Entry, P a → P b → a.meets b → P (a.merge b)) :
    ∀ y ∈ mergeAll l, P y := by
  have key : ∀ (l acc : List Entry), (∀ x ∈ acc, P x) → (∀ x ∈ l, P x) → ∀ y ∈ l.foldl addEntry acc, P y := by
    intro l
    induction l with
    | nil => exact fun acc ha _ => ha
    | cons e r ih =>
      intro acc ha hl
      have he := hl e (by simp)
      refine ih _ (fun y hy => ?_) fun x hx => hl x (by simp [hx])
      obtain ⟨-, h⟩ | ⟨p, x, q, rfl, hx, h⟩ := addEntry_cases acc e
      · rw [h] at hy
        rcases List.mem_append.mp hy with hy | hy
        · exact ha y hy
        · rw [List.mem_singleton.mp hy]; exact he
      · rw [h] at hy
        rcases List.mem_append.mp hy with hy | hy
        · exact ha y (by simp [hy])
        · rcases List.mem_cons.mp hy with rfl | hy
          · exact hm x e (ha x (by simp)) he hx
          · exact ha y (by simp [hy])
  exact key l [] (by simp) hl

/-- Every entry has one after merging in which it goes on, for a relation that holds between an entry and its merger with another. -/
theorem mergeAll_each {R : Entry → Entry → Prop} (refl : ∀ x, R x x) (trans : ∀ x y z, R z y → R y x → R z x)
    (left : ∀ a b : Entry, a.meets b → R (a.merge b) a) (right : ∀ a b : Entry, a.meets b → R (a.merge b) b) {l : List Entry} :
    ∀ x ∈ l, ∃ y ∈ mergeAll l, R y x := by
  have add : ∀ (acc : List Entry) (e x : Entry), x = e ∨ x ∈ acc → ∃ y ∈ addEntry acc e, R y x := by
    intro acc e x hx
    obtain ⟨-, h⟩ | ⟨p, z, q, rfl, hz, h⟩ := addEntry_cases acc e
    · exact ⟨x, by rw [h]; rcases hx with rfl | hx <;> simp_all, refl x⟩
    · rw [h]
      rcases hx with rfl | hx
      · exact ⟨z.merge x, by simp, right z x hz⟩
      · rcases List.mem_append.mp hx with hx | hx
        · exact ⟨x, by simp [hx], refl x⟩
        · rcases List.mem_cons.mp hx with rfl | hx
          · exact ⟨x.merge e, by simp, left x e hz⟩
          · exact ⟨x, by simp [hx], refl x⟩
  have key : ∀ (l acc : List Entry) (x : Entry), x ∈ acc ∨ x ∈ l → ∃ y ∈ l.foldl addEntry acc, R y x := by
    intro l
    induction l with
    | nil => exact fun acc x hx => ⟨x, by simpa using hx, refl x⟩
    | cons e r ih =>
      intro acc x hx
      rcases hx with hx | hx
      · obtain ⟨y, hy, hyx⟩ := add acc e x (.inr hx)
        obtain ⟨z, hz, hzy⟩ := ih _ y (.inl hy)
        exact ⟨z, hz, trans _ _ _ hzy hyx⟩
      · rcases List.mem_cons.mp hx with rfl | hx
        · obtain ⟨y, hy, hyx⟩ := add acc x x (.inl rfl)
          obtain ⟨z, hz, hzy⟩ := ih _ y (.inl hy)
          exact ⟨z, hz, trans _ _ _ hzy hyx⟩
        · exact ih _ x (.inr hx)
  exact fun x hx => key l [] x (.inr hx)

/-- Entries that take no part in merges stay as they are, in their order. -/
theorem filter_mergeAll {p : Entry → Bool} (hp : ∀ x, p x = true → x.mergeable = false) (l : List Entry) : (mergeAll l).filter p = l.filter p := by
  have hno : ∀ x : Entry, x.mergeable = true → p x = false := fun x hx => by
    by_contra h
    rw [hp x (by simpa using h)] at hx; cases hx
  have key : ∀ (l acc : List Entry), (l.foldl addEntry acc).filter p = acc.filter p ++ l.filter p := by
    intro l
    induction l with
    | nil => simp
    | cons e r ih =>
      intro acc
      rw [List.foldl_cons, ih]
      obtain ⟨-, h⟩ | ⟨q, x, q', rfl, ⟨hx, he, -⟩, h⟩ := addEntry_cases acc e
      · rw [h, List.filter_append, List.append_assoc, ← List.filter_append]; rfl
      · rw [h]
        simp [hno x hx, hno e he, hno _ (Entry.merge_mergeable x e)]
  exact key l []

theorem mem_mergeAll_of_unmergeable {l : List Entry} {x : Entry} (hx : x ∈ l) (hm : x.mergeable = false) : x ∈ mergeAll l := by
  have h : x ∈ (mergeAll l).filter fun y => !y.mergeable := by
    rw [filter_mergeAll (by simp)]
    simp [hx, hm]
  exact (List.mem_filter.mp h).1

/-- No two entries that may merge are left. -/
theorem mergeAll_apart (l : List Entry) : (mergeAll l).Pairwise fun x y => ¬ x.meets y := by
  have key : ∀ (l acc : List Entry), acc.Pairwise (fun x y => ¬ x.meets y) → (l.foldl addEntry acc).Pairwise fun x y => ¬ x.meets y := by
    intro l
    induction l with
    | nil => exact fun _ h => h
    | cons e r ih =>
      intro acc ha
      refine ih _ ?_
      obtain ⟨hn, h⟩ | ⟨p, x, q, rfl, hx, h⟩ := addEntry_cases acc e
      · rw [h, List.pairwise_append]
        exact ⟨ha, List.pairwise_singleton _ _, fun y hy z hz => by rw [List.mem_singleton.mp hz]; exact hn y hy⟩
      · have hf : ∀ l : List Entry, l.Pairwise (fun x y => ¬ x.meets y) ↔
            (l.map fun y => (y.mergeable, y.pc)).Pairwise fun a b => ¬ (a.1 = true ∧ b.1 = true ∧ a.2 = b.2) := fun l => by
          rw [List.pairwise_map]; rfl
        rw [h, hf]
        rw [hf] at ha
        have hsame : ((x.merge e).mergeable, (x.merge e).pc) = (x.mergeable, x.pc) := by rw [Entry.merge_mergeable, hx.1]; rfl
        simpa only [List.map_append, List.map_cons, hsame] using ha
  exact key l [] .nil

/-- Where the lanes of an entry go by merging: one PC, more lanes, no less priority and age, and results still awaited. -/
structure Entry.JoinsIn (y x : Entry) : Prop where
  pc      : y.pc = x.pc
  lanes   : x.mask &&& ~~~ y.mask = 0
  prio    : x.prio ≤ y.prio
  age     : x.age ≤ y.age
  pending : x.st = .pending → y.st = .pending
  merges  : x.mergeable = true → y.mergeable = true

theorem Entry.JoinsIn.refl (x : Entry) : x.JoinsIn x := ⟨rfl, by simp, le_rfl, le_rfl, id, id⟩

theorem Entry.JoinsIn.trans (x y z : Entry) (h : z.JoinsIn y) (k : y.JoinsIn x) : z.JoinsIn x where
  pc := h.pc.trans k.pc
  lanes := (mask_sub_iff _ _).mpr fun l hl => (mask_sub_iff _ _).mp h.lanes l ((mask_sub_iff _ _).mp k.lanes l hl)
  prio := k.prio.trans h.prio
  age := k.age.trans h.age
  pending := h.pending ∘ k.pending
  merges := h.merges ∘ k.merges

theorem Entry.joinsIn_merge_left (a b : Entry) : (a.merge b).JoinsIn a :=
  ⟨rfl, (mask_sub_iff _ _).mpr fun l hl => by simp [Entry.merge, hl], Nat.le_max_left _ _, Nat.le_max_left _ _,
    fun h => by simp [Entry.merge, h], fun _ => Entry.merge_mergeable a b⟩

theorem Entry.joinsIn_merge_right (a b : Entry) (h : a.meets b) : (a.merge b).JoinsIn b :=
  ⟨h.2.2, (mask_sub_iff _ _).mpr fun l hl => by simp [Entry.merge, hl], Nat.le_max_right _ _, Nat.le_max_right _ _,
    fun h => by simp [Entry.merge, h], fun _ => Entry.merge_mergeable a b⟩

theorem mergeAll_joins {l : List Entry} {x : Entry} (hx : x ∈ l) : ∃ y ∈ mergeAll l, y.JoinsIn x :=
  mergeAll_each .refl .trans (fun a b _ => a.joinsIn_merge_left b) Entry.joinsIn_merge_right x hx

/-- An entry after merging has its lanes from entries at its PC. -/
theorem mergeAll_lanes {l : List Entry} : ∀ y ∈ mergeAll l, ∀ k, y.mask.getLsbD k = true → ∃ x ∈ l, x.pc = y.pc ∧ x.mask.getLsbD k = true := by
  refine mergeAll_all (fun x hx k hk => ⟨x, hx, rfl, hk⟩) fun a b ha hb hab k hk => ?_
  have hk : (a.mask ||| b.mask).getLsbD k = true := hk
  rw [BitVec.getLsbD_or, Bool.or_eq_true] at hk
  rcases hk with hk | hk
  · exact ha k hk
  · obtain ⟨x, hx, hp, hm⟩ := hb k hk
    exact ⟨x, hx, hp.trans hab.2.2.symm, hm⟩

/-- The greater of two numbers that entries at one PC have is one of them. -/
theorem exists_max {l : List Entry} {f : Entry → Nat} {a b : Entry} (ha : ∃ x ∈ l, x.pc = a.pc ∧ f x = f a) (hb : ∃ x ∈ l, x.pc = b.pc ∧ f x = f b)
    (hab : a.pc = b.pc) : ∃ x ∈ l, x.pc = a.pc ∧ f x = max (f a) (f b) := by
  rcases Nat.le_total (f a) (f b) with h | h
  · obtain ⟨x, hx, hp, hf⟩ := hb
    exact ⟨x, hx, hp.trans hab.symm, by omega⟩
  · obtain ⟨x, hx, hp, hf⟩ := ha
    exact ⟨x, hx, hp, by omega⟩

/-- Settles O41: each clause of the list of entries that an entry is added to, one after another. -/
theorem merging : Obligations.Merging := by
  intro w
  refine ⟨mergeAll_apart w.entries, fun x hx hm => ?_, fun x hx hm => mem_mergeAll_of_unmergeable hx hm, mergeAll_lanes, fun y hy => ⟨?_, ?_⟩⟩
  · obtain ⟨y, hy, hj⟩ := mergeAll_joins hx
    exact ⟨y, hy, hj.merges hm, hj.pc, hj.lanes, hj.prio, hj.age, hj.pending⟩
  · exact mergeAll_all (P := fun y => ∃ x ∈ w.entries, x.pc = y.pc ∧ x.prio = y.prio) (fun x hx => ⟨x, hx, rfl, rfl⟩)
      (fun a b ha hb hab => exists_max ha hb hab.2.2) y hy
  · exact mergeAll_all (P := fun y => ∃ x ∈ w.entries, x.pc = y.pc ∧ x.age = y.age) (fun x hx => ⟨x, hx, rfl, rfl⟩)
      (fun a b ha hb hab => exists_max ha hb hab.2.2) y hy

/-! ## The test of WAITM (R152) -/

/-- The entries of a warp that wait on mN. -/
def Warp.waiting (w : Warp) (n : Nat) : List Entry := w.entries.filter fun e => e.st == .parked (.waitm n)

theorem Warp.mem_waiting {w : Warp} {n : Nat} {x : Entry} : x ∈ w.waiting n ↔ x ∈ w.entries ∧ x.st = .parked (.waitm n) := by
  simp [Warp.waiting]

theorem waitmLanes_eq (w : Warp) (n : Nat) : w.waitmLanes n = (w.waiting n).foldl (fun m e => m ||| e.mask) 0 := rfl

/-- The test of one mask has two outcomes. -/
theorem waitmTest_cases (w : Warp) (n : Nat) :
    (¬ (w.waitmLanes n ≠ 0 ∧ w.mget n &&& ~~~ w.waitmLanes n = 0) ∧ w.waitmTest n = w) ∨
    ((w.waitmLanes n ≠ 0 ∧ w.mget n &&& ~~~ w.waitmLanes n = 0) ∧ w.waitmTest n =
      ({ w with left := w.left ++ w.waiting n
                entries := w.entries.map fun e => if e.st == .parked (.waitm n) then { e with st := .ready, pc := e.pc + 8 } else e } : Warp).merge) := by
  by_cases h : w.waitmLanes n ≠ 0 ∧ w.mget n &&& ~~~ w.waitmLanes n = 0
  · refine .inr ⟨h, ?_⟩
    unfold Warp.waitmTest
    simp only
    rw [if_pos (by simpa using h)]
    rfl
  · refine .inl ⟨h, ?_⟩
    unfold Warp.waitmTest
    simp only
    rw [if_neg (by simpa using h)]

/-- The test of another mask leaves the splits that wait on mN, and mN. -/
theorem waiting_waitmTest (w : Warp) {n k : Nat} (h : k ≠ n) : (w.waitmTest k).waiting n = w.waiting n ∧ (w.waitmTest k).mget n = w.mget n := by
  obtain ⟨-, hw⟩ | ⟨-, hw⟩ := waitmTest_cases w k
  · rw [hw]; exact ⟨rfl, rfl⟩
  · rw [hw]
    refine ⟨?_, rfl⟩
    refine (filter_mergeAll (fun x hx => ?_) _).trans ?_
    · simp [Entry.mergeable, eq_of_beq hx]
    · rw [List.filter_map]
      have hsame : ∀ x : Entry, ((fun e => e.st == EntryState.parked (.waitm n)) ∘ fun e =>
          if e.st == EntryState.parked (.waitm k) then { e with st := .ready, pc := e.pc + 8 } else e) x = (x.st == .parked (.waitm n)) := by
        intro x
        by_cases hx : x.st = .parked (.waitm k)
        · simp [hx, h]
        · simp [hx]
      rw [List.filter_congr fun x _ => hsame x]
      conv => rhs; rw [Warp.waiting, ← List.map_id (List.filter _ _)]
      refine List.map_congr_left fun x hx => if_neg ?_
      rw [eq_of_beq (List.mem_filter.mp hx).2]
      simpa using Ne.symm h

/-- The tests of masks other than mN. -/
theorem waiting_foldl (w : Warp) {n : Nat} (ks : List Nat) (h : n ∉ ks) :
    (ks.foldl (fun w k => w.waitmTest k) w).waiting n = w.waiting n ∧ (ks.foldl (fun w k => w.waitmTest k) w).mget n = w.mget n := by
  induction ks generalizing w with
  | nil => exact ⟨rfl, rfl⟩
  | cons k r ih =>
    obtain ⟨h1, h2⟩ := ih (w.waitmTest k) fun hr => h (by simp [hr])
    obtain ⟨h3, h4⟩ := waiting_waitmTest w (n := n) (k := k) fun he => h (by simp [he])
    exact ⟨h1.trans h3, h2.trans h4⟩

theorem foldl_or_of_mem {l : List Entry} {x : Entry} (hx : x ∈ l) (a : LaneMask) {k : Nat} (hk : x.mask.getLsbD k = true) :
    (l.foldl (fun m e => m ||| e.mask) a).getLsbD k = true := by
  have keep : ∀ (l : List Entry) (a : LaneMask), a.getLsbD k = true → (l.foldl (fun m e => m ||| e.mask) a).getLsbD k = true := by
    intro l
    induction l with
    | nil => exact fun _ h => h
    | cons e r ih => exact fun a h => ih _ (by simp [h])
  induction l generalizing a with
  | nil => cases hx
  | cons e r ih =>
    rcases List.mem_cons.mp hx with rfl | hx
    · exact keep r _ (by simp [hk])
    · exact ih hx _

theorem waitmTests_split (w : Warp) {n : Nat} (hn : n < 12) :
    ∃ v : Warp, v.waiting n = w.waiting n ∧ v.mget n = w.mget n ∧ ∃ ks : List Nat, n ∉ ks ∧ w.waitmTests = ks.foldl (fun w k => w.waitmTest k) (v.waitmTest n) := by
  have hsplit : List.range 12 = List.range n ++ n :: (List.range' (n + 1) (11 - n)) := by
    rw [List.range_eq_range', List.range_eq_range', ← List.range'_succ, show 11 - n + 1 = 12 - n by omega]
    have := List.range'_append (s := 0) (m := n) (n := 12 - n) (step := 1)
    rw [show n + (12 - n) = 12 by omega] at this
    simpa using this.symm
  obtain ⟨h1, h2⟩ := waiting_foldl w (n := n) (List.range n) (by simp)
  refine ⟨_, h1, h2, List.range' (n + 1) (11 - n), by simp [List.mem_range'_1], ?_⟩
  unfold Warp.waitmTests
  rw [hsplit, List.foldl_append, List.foldl_cons]

theorem runs_foldl_waitmTest (w : Warp) {l : Nat} {pc : DWord} (h : w.runs l pc) (ks : List Nat) : (ks.foldl (fun w k => w.waitmTest k) w).runs l pc := by
  induction ks generalizing w with
  | nil => exact h
  | cons k r ih => exact ih _ (w.runs_waitmTest k l pc h)

/-- Settles O43: the tests of the other masks leave the splits that wait on mN, and its own releases all of them or none. -/
theorem waitmReleases : Obligations.WaitmReleases := by
  intro w n hn
  obtain ⟨v, hv, hm, ks, hk, ht⟩ := waitmTests_split w hn
  have hlanes : v.waitmLanes n = w.waitmLanes n := by rw [waitmLanes_eq, waitmLanes_eq, hv]
  rw [ht, ← hlanes, ← hm]
  refine ⟨fun h0 x hx hst hne l hl => ?_, fun h0 x hx hst => ?_⟩
  · have hxv : x ∈ v.waiting n := by rw [hv]; exact Warp.mem_waiting.mpr ⟨hx, hst⟩
    have hsome : v.waitmLanes n ≠ 0 := (mask_ne_zero_iff _).mpr ⟨l, by rw [waitmLanes_eq]; exact foldl_or_of_mem hxv 0 hl⟩
    refine runs_foldl_waitmTest _ ?_ ks
    obtain ⟨hno, -⟩ | ⟨-, heq⟩ := waitmTest_cases v n
    · exact absurd ⟨hsome, h0⟩ hno
    · rw [heq]
      refine Warp.runs_merge _ _ _ ⟨{ x with st := .ready, pc := x.pc + 8 }, ?_, hl, rfl, rfl⟩
      exact List.mem_map.mpr ⟨x, (Warp.mem_waiting.mp hxv).1, by simp [hst]⟩
  · have hstay : v.waitmTest n = v := by
      obtain ⟨-, h⟩ | ⟨⟨-, h⟩, -⟩ := waitmTest_cases v n
      · exact h
      · exact absurd h h0
    have : x ∈ (ks.foldl (fun w k => w.waitmTest k) (v.waitmTest n)).waiting n := by
      rw [(waiting_foldl _ ks hk).1, hstay, hv]
      exact Warp.mem_waiting.mpr ⟨hx, hst⟩
    exact (Warp.mem_waiting.mp this).1

/-! ## The entry that issues (R140–R143) -/

section
variable {now : Nat} {x y z : Entry}

theorem entryBefore_trans (h : entryBefore now x y = true) (k : entryBefore now y z = true) : entryBefore now x z = true := by
  unfold entryBefore at *
  simp only at *
  generalize x.heldAt now = hx at *
  generalize y.heldAt now = hy at *
  generalize z.heldAt now = hz at *
  grind

/-- Of two entries of which one goes before the other, one goes before or behind any third. -/
theorem entryBefore_between (h : entryBefore now x z = true) (y : Entry) : entryBefore now x y = true ∨ entryBefore now y z = true := by
  unfold entryBefore at *
  simp only at *
  generalize x.heldAt now = hx at *
  generalize y.heldAt now = hy at *
  generalize z.heldAt now = hz at *
  grind

theorem entryBefore_irrefl (now : Nat) (x : Entry) : entryBefore now x x = false := by
  unfold entryBefore; simp

end

/-- The better of two entries (R140). -/
def better (now : Nat) (best : Option Entry) (e : Entry) : Option Entry :=
  match best with
  | none => some e
  | some b => if entryBefore now e b then some e else some b

/-- No entry of a list goes before the best of it. -/
def BestOf (now : Nat) (l : List Entry) (y : Entry) : Prop := y ∈ l ∧ ∀ x ∈ l, entryBefore now x y = false

theorem foldl_better_some (now : Nat) (l : List Entry) (b : Entry) : ∃ y, l.foldl (better now) (some b) = some y ∧ BestOf now (b :: l) y := by
  induction l generalizing b with
  | nil => exact ⟨b, rfl, by simp, by simpa using entryBefore_irrefl now b⟩
  | cons e r ih =>
    rw [List.foldl_cons]
    by_cases h : entryBefore now e b = true
    · rw [show better now (some b) e = some e from if_pos h]
      obtain ⟨y, hy, hmem, hall⟩ := ih e
      refine ⟨y, hy, List.mem_cons_of_mem _ hmem, fun x hx => ?_⟩
      rcases List.mem_cons.mp hx with rfl | hx
      · by_contra hc
        have := entryBefore_trans h (by simpa using hc)
        rw [hall e (by simp)] at this; cases this
      · exact hall x hx
    · rw [show better now (some b) e = some b from if_neg h]
      obtain ⟨y, hy, hmem, hall⟩ := ih b
      refine ⟨y, hy, ?_, fun x hx => ?_⟩
      · rcases List.mem_cons.mp hmem with rfl | hmem <;> simp [*]
      · rcases List.mem_cons.mp hx with rfl | hx
        · exact hall x (by simp)
        · rcases List.mem_cons.mp hx with rfl | hx
          · by_contra hc
            rcases entryBefore_between (by simpa using hc) b with hb | hb
            · exact h hb
            · rw [hall b (by simp)] at hb; cases hb
          · exact hall x (by simp [hx])

/-- The entry that a warp issues: none of its ready entries, or the best of them. -/
theorem pick_cases (w : Warp) (now : Nat) :
    (w.pick now = none ∧ w.entries.filter Entry.open = []) ∨ ∃ y, w.pick now = some y ∧ BestOf now (w.entries.filter Entry.open) y := by
  have hp : w.pick now = (w.entries.filter Entry.open).foldl (better now) none := by
    unfold Warp.pick Warp.pickOf
    simp only [Bool.and_true]
    rfl
  rw [hp]
  cases hl : w.entries.filter Entry.open with
  | nil => exact .inl ⟨rfl, rfl⟩
  | cons b r => exact .inr (foldl_better_some now r b)

theorem mem_open {w : Warp} {x : Entry} : x ∈ w.entries.filter Entry.open ↔ x ∈ w.entries ∧ x.st = .ready ∧ x.rel = 0 := by
  simp [Entry.open]

theorem heldAt_iff (x : Entry) (now : Nat) : x.heldAt now = true ↔ x.held = true ∧ now < x.heldUntil := by simp [Entry.heldAt]

/-- What the order of R140 says of two entries of which the second does not go before the first. -/
theorem entryBefore_false {now : Nat} {x y : Entry} (h : entryBefore now x y = false) :
    (x.age = 1024 → y.age = 1024 ∧ y.pc.toNat ≤ x.pc.toNat) ∧
    (y.age ≠ 1024 → ¬ (x.held = true ∧ now < x.heldUntil) →
      ¬ (y.held = true ∧ now < y.heldUntil) ∧ x.prio ≤ y.prio ∧ (x.prio = y.prio → y.pc.toNat ≤ x.pc.toNat)) := by
  rw [← heldAt_iff, ← heldAt_iff]
  unfold entryBefore at h
  simp only at h
  generalize x.heldAt now = hx at *
  generalize y.heldAt now = hy at *
  grind

/-- Settles O42: the entry that issues is the best of the ready ones in the order of R140. -/
theorem entryChosen : Obligations.EntryChosen := by
  intro w now
  obtain ⟨hp, hl⟩ | ⟨y, hp, hy, hbest⟩ := pick_cases w now
  · rw [hp]
    refine ⟨⟨fun _ x hx hopen => ?_, fun _ => rfl⟩, fun y hy => by cases hy⟩
    have : x ∈ w.entries.filter Entry.open := mem_open.mpr ⟨hx, hopen⟩
    rw [hl] at this; cases this
  · obtain ⟨hmem, hst, hrel⟩ := mem_open.mp hy
    rw [hp]
    refine ⟨⟨fun h => (by cases h), fun h => absurd ⟨hst, hrel⟩ (h y hmem)⟩, fun z hz => ?_⟩
    cases hz
    exact ⟨hmem, hst, hrel, fun x hx hs hr => entryBefore_false (hbest x (mem_open.mpr ⟨hx, hs, hr⟩))⟩

end Sys2Proof.Machine

namespace Sys2Proof.Machine

/-! ## The handler's address and the start of a warp (R136, R157) -/

/-- A word with some of its low bits shifted back in place. -/
theorem nbits_mul_pow (n lo k : Nat) : nbits n lo k * 2 ^ lo = n &&& (2 ^ (lo + k) - 2 ^ lo) := by
  refine Nat.eq_of_testBit_eq fun i => ?_
  have hm : 2 ^ (lo + k) - 2 ^ lo = 2 ^ lo * (2 ^ k - 1) := by rw [Nat.mul_sub, Nat.mul_one, Nat.pow_add]
  rw [hm, Nat.testBit_and, Nat.mul_comm, Nat.testBit_two_pow_mul, Nat.testBit_two_pow_mul, Nat.testBit_two_pow_sub_one,
    nbits, Nat.testBit_mod_two_pow, Nat.testBit_div_two_pow]
  by_cases hi : lo ≤ i
  · rw [Nat.sub_add_cancel hi]
    simp [hi, Bool.and_comm]
  · simp [hi]

/-- Settles O34: the field of 54 bits, shifted back in place. -/
theorem trapVector : Obligations.TrapVector := by
  unfold Obligations.TrapVector
  intro c
  refine BitVec.eq_of_toNat_eq ?_
  have hv : c.vec.toNat = c.trapVec.toNat &&& (2 ^ 57 - 2 ^ 3) := by
    unfold Core.vec
    rw [BitVec.toNat_ofNat, show (8 : Nat) = 2 ^ 3 from rfl, nbits_mul_pow]
    exact Nat.mod_eq_of_lt (Nat.and_lt_two_pow _ (by decide))
  rw [hv, BitVec.toNat_and]
  rfl

theorem wdogBudget_zero (s : State) (l : Launch) :
    wdogBudget s l 0 = (let v := if s.wdogMax ≠ 0 ∧ (l.wdog = 0 ∨ s.wdogMax < l.wdog) then s.wdogMax else l.wdog
      if v = 0 then none else some v) := by
  simp [wdogBudget]

/-- Settles O50: the registers of a fresh warp are empty tables. -/
theorem warpStart : Obligations.WarpStart := by
  unfold Obligations.WarpStart
  intro s l p bid i _ _
  refine ⟨_, warp?_setWarp _ _ _, ⟨_, rfl, rfl, rfl, rfl, rfl, rfl⟩, fun k => ⟨rfl, rfl, rfl⟩, fun k => ?_, fun k hk => ?_, fun r k => ?_, rfl,
    wdogBudget_zero s l⟩
  · exact ite_self 0
  · have h7 : k ≠ 7 := by omega
    simp [Warp.qget, h7]
  · simp [Warp.vget, Warp.isMapped, LaneVal.unmapped]

end Sys2Proof.Machine

namespace Sys2Proof.Machine

/-! ## The lane instructions that reach beyond their warp's registers (R149, R224–R251, R375–R424) -/

/-- Instruction i issues as a lane instruction, and its body makes of b the state u with the fates fs. An instruction that acts on its poisoned guards
itself may put fates of no lanes before them. -/
def LaneRuns (s b : State) (c : Ctx) (i : Instr) (gd : Guard) (kind : GuardKind) (o : Opnds) (u : State) (fs : Fates) : Prop :=
  ∃ body, exec i s = issueLane s gd kind o body ∧ (body b c = (u, fs) ∨ kind = .own ∧ ∃ zs : Fates, (∀ z ∈ zs, z.1 = 0) ∧ body b c = (u, zs ++ fs))

section
variable {s b u : State} {w : Warp} {c : Ctx} {i : Instr} {gd : Guard} {kind : GuardKind} {o : Opnds} {fs : Fates}

theorem LaneRuns.of {body : Body} (hi : exec i s = issueLane s gd kind o body) (hb : body b c = (u, fs)) : LaneRuns s b c i gd kind o u fs :=
  ⟨body, hi, .inl hb⟩

theorem LaneRuns.zeros {body : Body} {zs : Fates} (hi : exec i s = issueLane s gd .own o body) (hz : ∀ z ∈ zs, z.1 = 0)
    (hb : body b c = (u, zs ++ fs)) : LaneRuns s b c i gd .own o u fs :=
  ⟨body, hi, .inr ⟨rfl, zs, hz, hb⟩⟩

/-- In a calm split the instruction completes with what its body makes. -/
theorem LaneRuns.completes {g : Nat} {w₀ : Warp} {e : Entry} (h : LaneRuns s b (bodyCtx kind g w₀ e gd) i gd kind o u fs) (hc : Calm s g w₀ e)
    (hb : b = ((s.counted w₀ o (laneCtx g w₀ e gd).act).engaged g o).begun g e) (hrel : o.rel = 0 ∨ relMet s g o.rel e.mask = true)
    (hhome : homeOpen s g o = true) (hroom : Room s g w₀ o) :
    exec i s = .next (finishBody b.nextId g e o e.mask (laneCtx g w₀ e gd).act (bodyCtx kind g w₀ e gd).pg
      (u, guardFate kind (laneCtx g w₀ e gd).pg ++ fs)) := by
  obtain ⟨body, hi, hu | ⟨rfl, zs, hz, hu⟩⟩ := h
  · exact hi.trans (issueLane_body hc hrel hhome hroom hb hu)
  · exact hi.trans (issueOwn_body hc hrel hhome hroom hb hz hu)

/-! ### What one lane does -/

theorem brxLane_of {prio treg : Nat} {t : State} {l : Nat} {x : Fate} (h : BrxLane c.g prio treg s l t x) : brxLane c prio treg s l = (t, x) := by
  cases h with
  | traps w t hw h => simp only [brxLane, hw, h]
  | goes w hw h => simp only [brxLane, hw, h]

theorem callxLane_of {prio treg : Nat} {t : State} {l : Nat} {x : Fate} (h : CallxLane c.g c.e.prio c.e.pc prio treg s l t x) :
    callxLane c prio treg s l = (t, x) := by
  cases h with
  | traps w t hw h => simp only [callxLane, hw, h]
  | goes w _ _ hw h hc =>
    simp only [callxLane, hw, h]
    exact (callLane_of hc).1

theorem ordenterLane_of {g l : Nat} {t : State} {x : Option Fate} (h : OrdenterLane g s l t x) : ordenterLane g s l = (t, x) := by
  cases h with
  | bare w hw h => simp only [ordenterLane, hw, h]; rfl
  | inside w f hw h hi => simp only [ordenterLane, hw, h, hi, if_true]
  | closed w f hw h hi hc => simp only [ordenterLane, hw, h, hi, hc, Bool.false_eq_true, if_false, if_true]; rfl
  | waits w f hw h hi hc hb => simp only [ordenterLane, hw, h, hi, hc, hb, Bool.false_eq_true, if_false, if_true]
  | enters w f hw h hi hc hb => simp only [ordenterLane, hw, h, hi, hc, hb, Bool.false_eq_true, if_false, enterSection, Option.bind_some]

theorem ordexitLane_of {g l : Nat} {t : State} {x : Option Fate} (h : OrdexitLane g s l t x) : ordexitLane g s l = (t, x) := by
  cases h with
  | waits w hw h => simp only [ordexitLane, hw, Option.map_some, Option.getD_some, h, if_true]
  | leaves w hw h => simp only [ordexitLane, hw, Option.map_some, Option.getD_some, h, Bool.false_eq_true, if_false]

theorem covwStep_of {g d l : Nat} {a : Src} {w₀ : Warp} {t : State} {x : Option Fate} (h : CovwLane g d a w₀ s l t x) : covwStep g d a w₀ s l = (t, x) := by
  cases h with
  | poison hp => simp only [covwStep, hp, if_true]
  | bare w hp hw h =>
    simp only [covwStep, covwLane, hp, hw, h, Option.bind_some, Bool.false_eq_true, if_false]
    rfl
  | writes w f hp hw h hc => simp only [covwStep, covwLane, hp, hw, h, hc, Option.bind_some, Bool.false_eq_true, if_false]
  | releases w f hp hw h hc =>
    simp only [covwStep, covwLane, hp, hw, h, hc, Option.bind_some, Bool.false_eq_true, if_false, if_true]
    rfl

theorem rqInitStep_of {g k : Nat} {fl : RayFlags} {blk : Block} {l : Launch} {x y : Src} {t : State} {z : Option Fate}
    (h : RqinitLane g fl w blk l x y s k t z) : rqInitStep g fl w blk l x y s k = (t, z) := by
  cases h with
  | poison hp => simp only [rqInitStep, hp, if_true]
  | stops t i hp h => simp only [rqInitStep, hp, h, Bool.false_eq_true, if_false]
  | starts t v ws hp hc hw hh hs =>
    have hray : ((List.range 8).map fun i => (w.vget (x.reg + i) k).bits.toNat).getD 3 0 = (w.vget (x.reg + 3) k).bits.toNat := rfl
    simp only [rqInitStep, rqInitLane, hp, hc, hw, hh, hs, List.map_map, List.any_map, Function.comp_def, hray, Bool.false_eq_true, if_false]

theorem commitLane_of {g k : Nat} {last : Bool} {t : State} {x : Option Fate} (h : CommitLane g last s k t x) : commitLane g last s k = t := by
  cases h with
  | bare w hw h => simp only [commitLane, hw, Option.bind_some, h]
  | query w q hw h => simp only [commitLane, hw, Option.bind_some, h]

/-! ### Fragment lists (R400) -/

theorem ListSpec.exec_eq {x : ListForm} (h : ListSpec i gd x) : exec i s = flDirect s gd x := by cases h <;> rfl

theorem lowFails_of_plain (hp : c.pg = 0) : c.lowFails = c := by
  unfold Ctx.lowFails
  rw [hp, if_neg (by simp)]

/-- Outside deterministic mode, where the guard is nowhere poisoned, every lane that is not skipped is performed. -/
theorem perform_plain {x : ListForm} {blk : Block} {base : DWord} (hn : blk.flBinding = some base) (hd : b.flagOf c.g Launch.det = false) (hp : c.pg = 0) :
    x.perform b c w blk = { x.done b c w blk with
      fates := [(0, .trap detForbidden), (0, .trap (poisonTrap 0)), (0, .park .listOrder)] ++ (x.done b c w blk).fates } := by
  have hpre := flPre_plain (c := { c with act := c.act &&& ~~~ maskOf (x.out c w) }) (w := w) (blk := blk) (forbid := x.forbid blk) (bind := true) hp
    (.inr (by simp [hn]))
  simp only [ListForm.perform, hd, hpre, Bool.and_false, Bool.false_eq_true, if_false, mask_full]
  rfl

end

/-! ### The instructions -/

/-- Each effect is what the body of its instruction makes. -/
theorem LaneEffect.runs {s b u : State} {w w₀ : Warp} {c : Ctx} {i : Instr} {gd : Guard} {kind : GuardKind} {o : Opnds} {fs : Fates}
    (h : LaneEffect s b w c i gd kind o u fs) (hw : b.warp? c.g = some w) (hl : s.looking = some (c.g, w₀, c.e))
    (hin : o.home = [] → s.insideOf c.g c.e.mask = c.lanes &&& w.inside) : LaneRuns s b c i gd kind o u fs := by
  cases h with
  -- the sequencer (R147, R149, R161)
  | brx g prio treg lu u fs h => exact .of rfl (laneFates_of (fun _ _ _ _ h => brxLane_of h) h)
  | callx g prio treg lu u fs h => exact .of rfl (laneFates_of (fun _ _ _ _ h => callxLane_of h) h)
  | tkillW g h => exact .of rfl (by simp only [h, if_false, hw, Option.map_some, Option.getD_some])
  -- memory (R224–R251)
  | ld f la split d => exact .of rfl (by simp only [hw])
  | st f data dataLu => exact .of rfl (by simp only [hw])
  | atom f la status d hd => exact .of rfl (by simp only [atomAccesses, hw, hd, Bool.false_and, Bool.false_eq_true, if_false])
  | red f hd =>
    refine .of rfl ?_
    have hdet : (b.flagOf c.g Launch.det && (OpKind.red == .atomic || fpAtom f.op)) = false := by rcases hd with h | h <;> simp [h]
    simp only [atomAccesses, hw, hdet, Bool.false_eq_true, if_false]
  | lds g la pol cls d x y t rs h => exact .of rfl (by simp only [hw, h])
  | sst g pol cls x y z t rs h => exact .of rfl (by simp only [hw, h])
  | pref f => exact .of rfl (by simp only [hw])
  -- fragments and ordered sections (R379–R387)
  | fraginOpen g a blk l x hb hl ha hn hp hx hq hd => exact .of rfl (by simp only [hw, hb, hl, ha, hn, hp, onObject_at hx, hq, hd, if_false, Bool.not_true, Bool.false_eq_true])
  | fraginAgain g a blk l id hb hl ha hn hp => exact .of rfl (by simp only [hw, hb, hl, ha, hn, hp, if_false, if_true])
  | fraginWave g d blk id hb ha hp => exact .of rfl (by simp only [hw, hb, ha, hp, if_false])
  | fraginRead g sel d blk hb hp =>
    have hnone : blk.pass.isNone = false := by rw [Option.isNone_eq_false_iff]; exact Option.isSome_iff_ne_none.mpr hp
    exact .of rfl (by simp only [hb, hnone, Bool.false_eq_true, if_false])
  | ordenter g u fs h => exact .of rfl (someFates_of (fun _ _ _ _ h => ordenterLane_of h) h)
  | ordexit g u fs hi ha h =>
    have hany : (s.insideOf c.g c.e.mask != 0) = true := by simpa [hin rfl] using hi
    have hins : b.insideOf c.g c.act = c.act &&& w.inside := by simp only [State.insideOf, hw, Option.map_some, Option.getD_some]
    refine .of (body := fun s c => if s.insideOf c.g c.act = 0 then (s, []) else
      someFates (releaseAct s c.g .core none) (s.insideOf c.g c.act) (ordexitLane c.g)) ?_ ?_
    · show execOrdexit gd s = _
      simp only [execOrdexit, hl, hany, if_true]
    · simp only [hins, ha, if_false]
      exact someFates_of (fun _ _ _ _ h => ordexitLane_of h) h
  | fkill g => exact .of rfl rfl
  | covw g d a u fs h => exact .of rfl (by simp only [hw]; exact someFates_of (fun _ _ _ _ h => covwStep_of h) h)
  | bary g d x y z => exact .of rfl (by simp only [hw])
  -- fragment lists (R400–R407)
  | list i g x blk base hi hb hn hd hp =>
    exact .zeros hi.exec_eq (zs := [(0, .trap detForbidden), (0, .trap (poisonTrap 0)), (0, .park .listOrder)]) (by simp) (by simp only [hw, hb, perform_plain hn hd hp]; rfl)
  | flbudgetRule g a blk hb hd hp ha hx hr =>
    refine .zeros rfl (zs := [(0, .trap detForbidden), (0, .trap (poisonTrap 0))]) (by simp) ?_
    simp only [hw, hb, lowFails_of_plain hp, hd, flPre_plain (forbid := blk.mact) (blk := blk) (w := w) hp (.inl rfl), ha, hx, hr, Bool.not_true,
      Bool.false_eq_true, if_false, List.append_nil]
  | flbudgetRrd g d blk hb => exact .of rfl (by simp only [hb])
  | flclrInit g x y z blk l hb hl hp ha hv hd hq =>
    refine .zeros rfl (zs := [(0, .trap (poisonTrap 0))]) (by simp) ?_
    simp only [hw, hb, hl, lowFails_of_plain hp, hp, ha, hv, hd, Nat.not_le.mpr hq, Bool.false_eq_true, if_false, List.append_nil]
  | flclrPix g a blk l base hb hl hn hd hp ha hv hq =>
    refine .zeros rfl (zs := [(0, .trap detForbidden), (0, .trap (poisonTrap 0))]) (by simp) ?_
    have hbad : (lanesOf c.act).filterMap (fun k => (pixelTrap { s := b, bid := w.block, base := base } blk (onePix a w k)).map
        fun e => (laneBit k, Fate.trap e)) = [] := List.filterMap_eq_nil_iff.mpr fun k hk => by rw [hv k hk]; rfl
    have hgood : (lanesOf c.act).filter (fun k => (pixelTrap { s := b, bid := w.block, base := base } blk (onePix a w k)).isNone) = lanesOf c.act :=
      List.filter_eq_self.mpr fun k hk => by rw [hv k hk]; rfl
    have hsome : (lanesOf c.act).isEmpty = false := by
      rw [List.isEmpty_eq_false_iff]
      exact fun h => ha (lanesOf_eq_nil h)
    simp only [hw, hb, hl, hd, flPre_plain (forbid := true) (bind := true) (blk := blk) (w := w) hp (.inr (by simp [hn])), hn, Option.getD_some, hbad, hgood,
      hsome, Nat.not_le.mpr hq, Bool.false_eq_true, if_false, List.append_nil]
  -- rays and build helpers (R416–R424)
  | rqinit g fl x y blk l u fs hb hl h => exact .of rfl (by simp only [hw, hb, hl]; exact someFates_of (fun _ _ _ _ h => rqInitStep_of h) h)
  | rqstep g la d blk l hb hl ha hq => exact .of rfl (by simp only [hw, hb, hl, ha, Nat.not_le.mpr hq, if_false])
  | rqstepFull g la d blk l hb hl ha hq => exact .of rfl (by simp only [hw, hb, hl, ha, hq, if_false, if_true])
  | rqhit g la cand sel d => exact .of rfl (by simp only [hw]; rfl)
  | rqcommit g u h => exact .of rfl (congrArg (·, []) (forEach_of (fun _ _ _ _ h => commitLane_of h) h))
  | rqcommitEnd g u h => exact .of rfl (congrArg (·, []) (forEach_of (fun _ _ _ _ h => commitLane_of h) h))
  | morton g d x y z => exact .of rfl (by simp only [hw])
  | bbox g la d a => exact .of rfl (by simp only [hw]; rfl)
  | bvpack g d a h =>
    have hfits : (if packBad w a c.act = true then none else packDetail (packChildren w a c.act)) = none := by
      rcases h with h | h <;> simp [h]
    exact .of rfl (by simp only [hw, hfits])

/-- Settles O10: a lane instruction does in a calm split what its body makes, and a fate of no lane changes nothing. -/
theorem laneEffects : Obligations.LaneEffects := by
  unfold Obligations.LaneEffects
  intro s b g w w' e i gd kind o u fs hc hb hw h hrel hhome hroom
  refine (h.runs (by rw [← hw]; rfl) hc.looking fun ho => ?_).completes hc hb hrel hhome hroom
  have hw' : w' = w.marked e.eid := by
    rw [engaged_none _ _ ho] at hb
    rw [hb, warp?_began hc.warp] at hw
    exact (Option.some.inj hw).symm
  rw [hw']
  show s.insideOf g e.mask = e.mask &&& w.inside
  simp only [State.insideOf, hc.warp, Option.map_some, Option.getD_some]

end Sys2Proof.Machine

namespace Sys2Proof.Machine

/-! ## A table of warps with two entries of one key

The keys of a table are meant to rise strictly, and a lookup finds the first entry of a key. The statements about the ends of lanes (R135, R151, R161) speak of
every state and do not say that the table of warps has one entry of a key: as the block of the first exits, its warps go (R134), and the lookup finds a second
one, a warp of another block in whatever state it is. -/

/-- A split of all lanes of its warp. -/
def wholeEntry : Entry := { eid := 0, pc := 0, prio := 32, mask := BitVec.allOnes 32, st := .ready }

/-- The only warp of block 0. -/
def lastWarp : Warp :=
  { block := 0, idx := 0, core := 0, part := 0, slot := 0, floor := 1, ceil := 256, live := BitVec.allOnes 32, entries := [wholeEntry] }

/-- A warp of another block, with an entry of no lanes, and with lane 0 in a mask. -/
def hiddenWarp : Warp := { lastWarp with block := 1, m := [(0, 1)], entries := [{ wholeEntry with mask := 0 }] }

/-- Both under one key, and the first about to issue. -/
def twoOfOneKey : State :=
  { State.reset with
    blocks := [(0, { launch := 0, lin := 0, wid := 0, core := 0, base := 0, variant := 0, warps := 1, slot := 0, spadBase := 0, spadBytes := 0, quantumEnd := 0 })]
    warps := [(0, lastWarp), (0, hiddenWarp)]
    cur := some (0, 0)
    nextId := 1 }

theorem warp?_twoOfOneKey : twoOfOneKey.warp? 0 = some lastWarp := rfl

theorem calm_twoOfOneKey : Calm twoOfOneKey 0 lastWarp wholeEntry := ⟨rfl, by decide, by decide, rfl, rfl, rfl, rfl⟩

theorem frontierOk_lastWarp : FrontierOk twoOfOneKey.nextId lastWarp where
  full   := by decide
  apart  := List.pairwise_singleton _ _
  living := by decide
  placed := fun _ hl => ⟨wholeEntry, List.mem_singleton_self _, hl⟩
  names  := List.pairwise_singleton _ _
  given  := by decide

theorem not_frontierOk_hiddenWarp (n : Nat) : ¬ FrontierOk n hiddenWarp := fun h => h.full _ (List.mem_singleton_self _) rfl

/-- The last lanes of block 0 end. -/
theorem endLanes_twoOfOneKey : (twoOfOneKey.endLanes 0 (BitVec.allOnes 32)).warp? 0 = some hiddenWarp := by decide +kernel

theorem stepped_twoOfOneKey : (twoOfOneKey.stepped 0 wholeEntry [(BitVec.allOnes 32, .ended)]).warp? 0 = some hiddenWarp := by decide +kernel

theorem exit_twoOfOneKey : ∃ t, exec (.exit { neg := false, n := 7 }) twoOfOneKey = .next t ∧ t.warp? 0 = some hiddenWarp :=
  ⟨_, sequencerResults _ _ _ _ _ _ _ calm_twoOfOneKey (.exit _), by decide +kernel⟩

/-- Refutes O31: the last clause fails where the table of warps holds a second warp of the same key, whose masks no lane's end has changed. -/
theorem not_laneMasks : ¬ Obligations.LaneMasks := by
  unfold Obligations.LaneMasks
  rintro ⟨-, -, -, -, hends⟩
  exact absurd (hends _ _ _ _ _ warp?_twoOfOneKey endLanes_twoOfOneKey 0) (by decide)

/-- Refutes O36: all lanes of the last warp of a block end, and the lookup finds a second warp of the same key, whose lanes live. -/
theorem not_endedLanes : ¬ Obligations.EndedLanes := by
  unfold Obligations.EndedLanes
  intro h
  have hfate : HasFate lastWarp [(BitVec.allOnes 32, .ended)] 0 .ended := ⟨by decide, ⟨_, List.mem_singleton_self _, by decide⟩, by decide, by decide⟩
  obtain ⟨hlive, -⟩ := h _ _ _ _ _ _ warp?_twoOfOneKey hfate _ stepped_twoOfOneKey
  exact absurd hlive (by decide)

/-- Refutes O39: the third clause fails where the lookup after the end of a warp finds a second one of the same key, whose frontier is in disorder. -/
theorem not_frontierKept : ¬ Obligations.FrontierKept := by
  unfold Obligations.FrontierKept
  rintro ⟨-, -, hends, -, -⟩
  exact not_frontierOk_hiddenWarp _ (hends _ _ _ _ warp?_twoOfOneKey frontierOk_lastWarp _ endLanes_twoOfOneKey)

/-- Refutes O40: EXIT of the last lanes of a block, where the lookup then finds a second warp of the same key, whose frontier is in disorder. -/
theorem not_frontierSteps : ¬ Obligations.FrontierSteps := by
  unfold Obligations.FrontierSteps
  intro h
  obtain ⟨t, hexec, hw⟩ := exit_twoOfOneKey
  exact not_frontierOk_hiddenWarp _ (h _ _ _ _ _ _ _ calm_twoOfOneKey frontierOk_lastWarp (.inr (.inr ⟨_, _, .exit _⟩)) hexec hw)

end Sys2Proof.Machine

namespace Sys2Proof.Machine

/-! ## Warps whose waits end (R138, R152, R167, R295, R309) -/

/-- The frontier, the living lanes and the trap registers of a warp do not change. -/
structure Warp.SameLanes (w w' : Warp) : Prop where
  live    : w'.live = w.live
  traps   : w'.traps = w.traps
  entries : w'.entries = w.entries

/-- From w to w' only entries that wait become ready, and entries merge: splits that may merge go on where they are, those in a handler stay, and no lane
ends or leaves its handler. -/
structure Warp.Eased (w w' : Warp) : Prop where
  live  : w'.live = w.live
  traps : w'.traps = w.traps
  trap  : ∀ x ∈ w.entries, x.st = .trap → x ∈ w'.entries
  runs  : ∀ x ∈ w.entries, x.mergeable = true → ∃ y ∈ w'.entries, y.JoinsIn x

namespace Warp.SameLanes

theorem refl (w : Warp) : w.SameLanes w := ⟨rfl, rfl, rfl⟩

theorem trans {a b c : Warp} (h : a.SameLanes b) (k : b.SameLanes c) : a.SameLanes c where
  live    := k.live.trans h.live
  traps   := k.traps.trans h.traps
  entries := k.entries.trans h.entries

theorem foldl {α : Type} {f : Warp → α → Warp} (h : ∀ w x, Warp.SameLanes w (f w x)) (l : List α) (w : Warp) : w.SameLanes (l.foldl f w) :=
  List.foldlRecOn l f (motive := w.SameLanes) (.refl w) fun _ hb _ _ => hb.trans (h _ _)

/-- A change that takes place or not. -/
theorem option {α : Type} {f : Warp → α → Warp} (h : ∀ w x, Warp.SameLanes w (f w x)) (w : Warp) (o : Option α) : w.SameLanes (o.elim w (f w)) := by
  cases o with
  | none => exact .refl w
  | some x => exact h w x

theorem eased {w w' : Warp} (h : w.SameLanes w') : w.Eased w' where
  live  := h.live
  traps := h.traps
  trap  := fun x hx _ => by rw [h.entries]; exact hx
  runs  := fun x hx _ => ⟨x, by rw [h.entries]; exact hx, .refl x⟩

theorem vput (w : Warp) (r l : Nat) (x : LaneVal) : w.SameLanes (w.vput r l x) := by
  unfold Warp.vput
  split
  · exact ⟨rfl, rfl, rfl⟩
  · exact .refl w

theorem pput (w : Warp) (r l : Nat) (b poison : Bool) : w.SameLanes (w.pput r l b poison) := by
  unfold Warp.pput
  split
  · exact ⟨rfl, rfl, rfl⟩
  · exact .refl w

theorem sput (w : Warp) (r : Nat) (x : DWord) : w.SameLanes (w.sput r x) := by
  unfold Warp.sput
  split
  · exact ⟨rfl, rfl, rfl⟩
  · exact .refl w

theorem qput (w : Warp) (r : Nat) (x : Bool) : w.SameLanes (w.qput r x) := by
  unfold Warp.qput
  split
  · exact ⟨rfl, rfl, rfl⟩
  · exact .refl w

theorem writeResult (w : Warp) (ds : List Dest) (lane : Nat) (r : LaneRes) : w.SameLanes (w.writeResult ds lane r) := by
  unfold Warp.writeResult
  split
  · exact .refl w
  · refine foldl (fun w x => ?_) _ w
    split
    · exact .refl w
    · split
      · exact vput w _ _ _
      · exact pput w _ _ _ _
      · exact sput w _ _

theorem settleStep (acc : Warp × List Result) (r : Result) : acc.1.SameLanes (settleStep acc r).1 := by
  unfold Machine.settleStep
  dsimp only
  split
  · exact .refl _
  · exact (writeResult acc.1 _ _ _).trans (foldl (fun w x => writeResult w _ _ _) _ _)

theorem settleResults (w : Warp) : w.SameLanes w.settleResults := by
  have hfold : ∀ (rs : List Result) (acc : Warp × List Result), acc.1.SameLanes (rs.foldl Machine.settleStep acc).1 := fun rs acc =>
    List.foldlRecOn rs _ (motive := fun z => acc.1.SameLanes z.1) (.refl _) fun z hz r _ => hz.trans (settleStep z r)
  have hw := hfold w.results ({ w with results := [] }, [])
  exact ⟨hw.live, hw.traps, hw.entries⟩

theorem closeWindows (w : Warp) (m : LaneMask) : w.SameLanes (w.closeWindows m) := by
  unfold Warp.closeWindows
  exact ⟨(settleResults _).live, (settleResults _).traps, (settleResults _).entries⟩

end Warp.SameLanes

namespace Warp.Eased

theorem refl (w : Warp) : w.Eased w := (SameLanes.refl w).eased

theorem trans {a b c : Warp} (h : a.Eased b) (k : b.Eased c) : a.Eased c where
  live  := k.live.trans h.live
  traps := k.traps.trans h.traps
  trap  := fun x hx hst => k.trap x (h.trap x hx hst) hst
  runs  := fun x hx hm => by
    obtain ⟨y, hy, hyx⟩ := h.runs x hx hm
    obtain ⟨z, hz, hzy⟩ := k.runs y hy (hyx.merges hm)
    exact ⟨z, hz, .trans _ _ _ hzy hyx⟩

theorem foldl {α : Type} {f : Warp → α → Warp} (h : ∀ w x, Warp.Eased w (f w x)) (l : List α) (w : Warp) : w.Eased (l.foldl f w) :=
  List.foldlRecOn l f (motive := w.Eased) (.refl w) fun _ hb _ _ => hb.trans (h _ _)

theorem merge (w : Warp) : w.Eased w.merge where
  live  := rfl
  traps := rfl
  trap  := fun _ hx hst => mem_mergeAll_of_unmergeable hx (by simp [Entry.mergeable, hst])
  runs  := fun _ hx _ => mergeAll_joins hx

theorem merged {w v : Warp} (h : w.Eased v) : w.Eased v.merge := h.trans (merge v)

end Warp.Eased

/-- An entry waits or issues: it neither may merge nor is it in a handler. -/
def Entry.waits (x : Entry) : Prop := x.mergeable = false ∧ x.st ≠ .trap

theorem Entry.waits_of_parked {x : Entry} {k : Wait} (h : x.st = .parked k) : x.waits := by simp [Entry.waits, Entry.mergeable, h]

/-- Entries that wait change. -/
theorem Warp.Eased.awake {w w' : Warp} {p : Entry → Bool} {f : Entry → Entry} (hl : w'.live = w.live) (ht : w'.traps = w.traps)
    (he : w'.entries = w.entries.map fun x => if p x then f x else x) (hp : ∀ x, p x = true → x.waits) : w.Eased w' := by
  have hstay : ∀ x ∈ w.entries, x.mergeable = true ∨ x.st = .trap → x ∈ w'.entries := fun x hx hst => by
    rw [he]
    refine List.mem_map.mpr ⟨x, hx, if_neg fun h => ?_⟩
    obtain ⟨hmerge, htrap⟩ := hp x h
    rcases hst with hst | hst
    · rw [hst] at hmerge; cases hmerge
    · exact htrap hst
  exact ⟨hl, ht, fun x hx hst => hstay x hx (.inr hst), fun x hx hm => ⟨x, hstay x hx (.inl hm), .refl x⟩⟩

theorem Warp.eased_waitmTest (w : Warp) (n : Nat) : w.Eased (w.waitmTest n) := by
  obtain ⟨-, h⟩ | ⟨-, h⟩ := waitmTest_cases w n
  · rw [h]; exact .refl w
  · rw [h]
    exact .merged (.awake rfl rfl rfl fun x hx => Entry.waits_of_parked (eq_of_beq hx))

theorem Warp.eased_waitmTests (w : Warp) : w.Eased w.waitmTests := Warp.Eased.foldl (fun w n => w.eased_waitmTest n) _ w

theorem Warp.eased_tidy (w : Warp) : w.Eased w.tidy := (Warp.Eased.merge w).trans w.merge.eased_waitmTests

theorem Warp.eased_fire (w : Warp) : w.Eased w.fire := by
  unfold Warp.fire
  split
  · exact .refl w
  · split
    · split
      · exact .merged (.awake rfl rfl rfl fun x hx => Entry.waits_of_parked (eq_of_beq hx))
      · exact SameLanes.eased ⟨rfl, rfl, rfl⟩
    · exact .refl w

/-- What a split that a barrier releases receives (R295, R298). -/
def Warp.barGive (w : Warp) (bar : Nat) (q : Bool) (res : DWord) (e : Entry) : Warp :=
  match e.st with
  | .parked (.barrier _ _ qd sd consume) =>
    let v := qd.elim w fun d => w.qput d q
    let u := sd.elim v fun d => v.sput d res
    if consume then { u with tokens := tdel u.tokens bar } else u
  | _ => w

theorem Warp.sameLanes_barGive (w : Warp) (bar : Nat) (q : Bool) (res : DWord) (e : Entry) : w.SameLanes (w.barGive bar q res e) := by
  unfold Warp.barGive
  split
  · next qd sd consume _ =>
    have hgive := (SameLanes.option (f := fun w d => w.qput d q) (fun w d => .qput w d q) w qd).trans
      (SameLanes.option (f := fun w d => w.sput d res) (fun w d => .sput w d res) _ sd)
    cases consume with
    | false => exact hgive
    | true => exact hgive.trans ⟨rfl, rfl, rfl⟩
  · exact .refl w

/-- The split waits on a phase of a barrier. -/
def Entry.awaits (bar phase : Nat) (e : Entry) : Bool :=
  match e.st with
  | .parked (.barrier b p _ _ _) => b == bar && p == phase
  | _ => false

theorem Entry.waits_of_awaits {x : Entry} {bar phase : Nat} (h : x.awaits bar phase = true) : x.waits := by
  unfold Entry.awaits at h
  split at h
  · next hst => exact waits_of_parked hst
  · cases h

theorem barRelease_eq (w : Warp) (bar phase : Nat) (q : Bool) (res : DWord) : w.barRelease bar phase q res =
    (let v := (w.entries.filter (Entry.awaits bar phase)).foldl (fun w e => w.barGive bar q res e) w
     ({ v with left := v.left ++ v.entries.filter (Entry.awaits bar phase)
               entries := v.entries.map fun e => if e.awaits bar phase then { e with st := .ready, pc := e.pc + 8 } else e } : Warp).merge) := by
  have hg : (fun (w : Warp) (e : Entry) => w.barGive bar q res e) = fun (w : Warp) (e : Entry) => match e.st with
      | .parked (.barrier _ _ qd sd consume) =>
        let w := match qd with | some d => w.qput d q | none => w
        let w := match sd with | some d => w.sput d res | none => w
        if consume then { w with tokens := tdel w.tokens bar } else w
      | _ => w := by
    funext w e
    unfold Warp.barGive
    split
    · next qd sd _ _ => cases qd <;> cases sd <;> rfl
    · rfl
  rw [hg]
  rfl

theorem Warp.eased_barRelease (w : Warp) (bar phase : Nat) (q : Bool) (res : DWord) : w.Eased (w.barRelease bar phase q res) := by
  rw [barRelease_eq]
  exact .merged (.trans (SameLanes.foldl (fun w e => w.sameLanes_barGive bar q res e) _ w).eased
    (.awake rfl rfl rfl fun _ hx => Entry.waits_of_awaits hx))

/-! ## Where one lane stands -/

/-- Lane l stands at pc in an entry that may merge, at a priority or above. -/
def Warp.goesOn (w : Warp) (l : Nat) (pc : DWord) (prio : Nat) : Prop :=
  ∃ y ∈ w.entries, y.mask.getLsbD l = true ∧ y.mergeable = true ∧ prio ≤ y.prio ∧ y.pc = pc

/-- From w to w' lane l neither ends nor leaves the place where it goes on or its handler, and its trap registers stay. -/
structure Warp.Carries (l : Nat) (w w' : Warp) : Prop where
  live    : w'.live.getLsbD l = w.live.getLsbD l
  trap    : w'.trapOf l = w.trapOf l
  handler : ∀ pc, w.atHandler l pc → w'.atHandler l pc
  goesOn  : ∀ pc prio, w.goesOn l pc prio → w'.goesOn l pc prio

namespace Warp.Carries

variable {l : Nat} {w w' : Warp}

theorem refl (l : Nat) (w : Warp) : Warp.Carries l w w := ⟨rfl, rfl, fun _ => id, fun _ _ => id⟩

theorem trans {a b c : Warp} (h : Warp.Carries l a b) (k : Warp.Carries l b c) : Warp.Carries l a c where
  live    := k.live.trans h.live
  trap    := k.trap.trans h.trap
  handler := fun pc hp => k.handler pc (h.handler pc hp)
  goesOn  := fun pc prio hp => k.goesOn pc prio (h.goesOn pc prio hp)

end Warp.Carries

theorem Warp.Eased.carries {w w' : Warp} (h : w.Eased w') (l : Nat) : Warp.Carries l w w' where
  live    := by rw [h.live]
  trap    := by unfold Warp.trapOf; rw [h.traps]
  handler := fun _ ⟨x, hx, hl, hpc, hprio, hst⟩ => ⟨x, h.trap x hx hst, hl, hpc, hprio, hst⟩
  goesOn  := fun _ _ ⟨x, hx, hl, hm, hprio, hpc⟩ => by
    obtain ⟨y, hy, hyx⟩ := h.runs x hx hm
    exact ⟨y, hy, (mask_sub_iff _ _).mp hyx.lanes l hl, hyx.merges hm, hprio.trans hyx.prio, hyx.pc.trans hpc⟩

/-- Entries come in besides those that stand. -/
theorem Warp.Carries.more {l : Nat} {w w' : Warp} (hl : w'.live = w.live) (ht : w'.trapOf l = w.trapOf l) (he : ∀ x ∈ w.entries, x ∈ w'.entries) :
    Warp.Carries l w w' where
  live    := by rw [hl]
  trap    := ht
  handler := fun _ ⟨x, hx, hp⟩ => ⟨x, he x hx, hp⟩
  goesOn  := fun _ _ ⟨x, hx, hp⟩ => ⟨x, he x hx, hp⟩

/-- Other lanes leave the frontier. -/
theorem Warp.Carries.dropped {l : Nat} {m : LaneMask} {w w' : Warp} (hm : m.getLsbD l = false) (hl : w'.live = w.live &&& ~~~ m) (ht : w'.traps = w.traps)
    (he : w'.entries = (w.dropLanes m).entries) : Warp.Carries l w w' := by
  have hstay : ∀ x ∈ w.entries, x.mask.getLsbD l = true →
      { x with mask := x.mask &&& ~~~ m } ∈ w'.entries ∧ (x.mask &&& ~~~ m).getLsbD l = true := fun x hx hxl => by
    have hk : (x.mask &&& ~~~ m).getLsbD l = true := by rw [getLsbD_diff, hxl, hm]; rfl
    rw [he]
    exact ⟨List.mem_filter.mpr ⟨List.mem_map_of_mem hx, by simpa using (mask_ne_zero_iff _).mpr ⟨l, hk⟩⟩, hk⟩
  refine ⟨?_, ?_, fun _ ⟨x, hx, hxl, hp⟩ => ?_, fun _ _ ⟨x, hx, hxl, hp⟩ => ?_⟩
  · rw [hl, getLsbD_diff, hm, Bool.not_false, Bool.and_true]
  · unfold Warp.trapOf; rw [ht]
  · exact ⟨_, (hstay x hx hxl).1, (hstay x hx hxl).2, hp⟩
  · exact ⟨_, (hstay x hx hxl).1, (hstay x hx hxl).2, hp⟩

end Sys2Proof.Machine

namespace Sys2Proof.Machine

/-! ## What the end of lanes does to other warps, and to the lanes that live (R161)

`State.Eases s₀ s` says that a part of the model that has led from s₀ to s has eased warps only; each function of the model that the end of lanes or a trap
calls has one rule, proved from the rules of the functions that it calls. -/

/-- From s to t no warp goes, and each is eased. -/
def State.Eases (s t : State) : Prop := ∀ g w, s.warp? g = some w → ∃ w', t.warp? g = some w' ∧ w.Eased w'

namespace State.Eases

variable {s₀ s t : State}

theorem refl (s : State) : s.Eases s := fun _ w hw => ⟨w, hw, .refl w⟩

/-- A change beside the warps. -/
theorem frame (h : s₀.Eases s) (ht : t.warps = s.warps := by rfl) : s₀.Eases t := fun g w hw => by
  obtain ⟨w', hw', he⟩ := h g w hw
  exact ⟨w', (warp?_of_warps ht g).trans hw', he⟩

theorem ite {c : Prop} [Decidable c] {x y : State} (hx : s₀.Eases x) (hy : s₀.Eases y) : s₀.Eases (if c then x else y) := by
  split
  · exact hx
  · exact hy

theorem forEach {β : Type} {f : State → β → State} {l : List β} (h : s₀.Eases s) (hf : ∀ {s x}, s₀.Eases s → s₀.Eases (f s x)) :
    s₀.Eases (forEach l s f) :=
  List.foldlRecOn l f h fun _ hs _ _ => hf hs

/-- Warps that are eased, by their keys and what they are. -/
theorem mapWarps {p : Nat → Warp → Bool} {f : Warp → Warp} (h : s₀.Eases s) (ht : t.warps = s.warps.map fun e => if p e.1 e.2 then (e.1, f e.2) else e)
    (hf : ∀ w, Warp.Eased w (f w)) : s₀.Eases t := fun g w hw => by
  obtain ⟨w', hw', he⟩ := h g w hw
  have hget : t.warp? g = (s.warp? g).map fun x => if p g x then f x else x := by
    unfold State.warp?
    rw [ht]
    exact tget_map_snd p f s.warps g
  rw [hget, hw']
  refine ⟨_, rfl, he.trans ?_⟩
  show w'.Eased (if p g w' = true then f w' else w')
  split
  · exact hf w'
  · exact .refl w'

theorem modWarp {g : Nat} {f : Warp → Warp} (h : s₀.Eases s) (hf : ∀ w, Warp.Eased w (f w)) : s₀.Eases (s.modWarp g f) := fun k w hw => by
  obtain ⟨w', hw', he⟩ := h k w hw
  by_cases hk : k = g
  · subst hk
    exact ⟨f w', by rw [warp?_modWarp, hw']; rfl, he.trans (hf w')⟩
  · exact ⟨w', (warp?_modWarp_other s f hk).trans hw', he⟩

theorem count {e : Ev} {n : Nat} (h : s₀.Eases s) : s₀.Eases (s.count e n) := .ite h h.frame

/-! ### Memory -/

theorem fireWhere {line : MonLine} {sel : Nat → Bool} (h : s₀.Eases s) : s₀.Eases (s.fireWhere line sel) :=
  h.mapWarps (p := fun k x => sel k && (match x.monitor with | some m => m.line == line | none => false)) rfl Warp.eased_fire

theorem fireCore {core line : Nat} (h : s₀.Eases s) : s₀.Eases (s.fireCore core line) := h.fireWhere

theorem dropHeld {a w : Nat} (h : s₀.Eases s) : s₀.Eases (s.dropHeld a w) := h.frame

theorem l1Drop {core w : Nat} (h : s₀.Eases s) : s₀.Eases (s.l1Drop core w) := h.frame

theorem modDir {line : Nat} {f : DirLine → DirLine} (h : s₀.Eases s) : s₀.Eases (s.modDir line f) := h.frame

theorem recallNow {w : Nat} (h : s₀.Eases s) : s₀.Eases (s.recallNow w) := by
  unfold State.recallNow
  split
  · exact h
  · next a _ =>
    have howned : s₀.Eases (s.mergeOwned a w) := h.frame (warps_mergeOwned s a w)
    split
    · exact howned.dropHeld.l1Drop.modDir.fireCore
    · exact h.frame (warps_hostBack s (w / 32))

theorem dropShared {w core : Nat} (h : s₀.Eases s) : s₀.Eases (s.dropShared w core) := by
  unfold State.dropShared
  split
  · exact .ite h.frame h
  · exact h

theorem unshare {line core : Nat} (h : s₀.Eases s) : s₀.Eases (s.unshare line core) := .ite h h.frame

theorem invOne {w core : Nat} (h : s₀.Eases s) : s₀.Eases (s.invOne w core) := h.dropShared.frame.unshare.fireCore

theorem invNow {w : Nat} (h : s₀.Eases s) : s₀.Eases (s.invNow w) := by
  unfold State.invNow
  extract_lets t
  have ht : s₀.Eases t := h.forEach fun h1 => h1.invOne
  exact .ite ht.frame ht

theorem cohWrite {pa : Nat} {bs : List Byte} (h : s₀.Eases s) : s₀.Eases (s.cohWrite pa bs) :=
  h.forEach fun h1 => (h1.recallNow.frame (warps_homeMerge _ _ _)).invNow

/-! ### Opens and the gate -/

theorem closeDev {g : Nat} {sel : Nat × Nat → Bool} (h : s₀.Eases s) : s₀.Eases (s.closeDev g sel) :=
  modWarp (forEach (frame h) fun h1 => .ite h1.frame h1) fun _ => Warp.SameLanes.eased ⟨rfl, rfl, rfl⟩

theorem closeCore {g : Nat} (h : s₀.Eases s) : s₀.Eases (s.closeCore g) := h.frame

theorem leaveSection {g l : Nat} (h : s₀.Eases s) : s₀.Eases (leaveSection s g l) := by
  unfold Machine.leaveSection
  split
  · exact h
  · split
    · split
      · exact h
      · have hclose : s₀.Eases (s.closeCore g) := h.closeCore
        exact modWarp (.ite hclose.frame hclose.frame) fun _ => Warp.SameLanes.eased ⟨rfl, rfl, rfl⟩
    · exact h

theorem leaveSections {g : Nat} {m : LaneMask} (h : s₀.Eases s) : s₀.Eases (leaveSections s g m) := h.forEach fun h1 => h1.leaveSection

theorem releaseFragment {g l : Nat} (h : s₀.Eases s) : s₀.Eases (releaseFragment s g l) := by
  unfold Machine.releaseFragment
  extract_lets t
  have ht : s₀.Eases t := h.leaveSection
  split
  · exact ht
  · exact modWarp (.ite ht ht.frame) fun _ => Warp.SameLanes.eased ⟨rfl, rfl, rfl⟩

theorem releaseFragments {g : Nat} {m : LaneMask} (h : s₀.Eases s) : s₀.Eases (releaseFragments s g m) := h.forEach fun h1 => h1.releaseFragment

/-! ### Barriers -/

theorem barComplete {b bar : Nat} {last : Option Nat} (h : s₀.Eases s) : s₀.Eases (s.barComplete b bar last) := by
  unfold State.barComplete
  split
  · exact h
  · extract_lets br arr det res ph isDet t br' u
    have ht : s₀.Eases t := h.forEach fun h1 => h1.closeCore
    have hu : s₀.Eases u := ht.frame
    exact hu.mapWarps (p := fun _ w => w.block == b) (f := fun w => w.barRelease bar ph ((if isDet then det else last) == some w.idx) res) rfl
      fun w => w.eased_barRelease _ _ _ _

theorem barContrib {b bar : Nat} (h : s₀.Eases s) : s₀.Eases (s.barContrib b bar) := by
  unfold State.barContrib
  split
  · exact h
  · exact .ite h h.frame

theorem barTest {b bar : Nat} {last : Option Nat} (h : s₀.Eases s) : s₀.Eases (s.barTest b bar last) := by
  unfold State.barTest
  split
  · exact h
  · split
    · exact h
    · exact .ite h.barComplete h

theorem barTestAll {b : Nat} {last : Option Nat} (h : s₀.Eases s) : s₀.Eases (s.barTestAll b last) := h.forEach fun h1 => h1.barContrib.barTest

/-! ### Waiters -/

theorem stallTidy {core : Nat} (h : s₀.Eases s) : s₀.Eases (s.stallTidy core) := h.frame

theorem linkTidy (h : s₀.Eases s) : s₀.Eases s.linkTidy := h.forEach fun h1 => .ite h1 h1.frame.cohWrite

end State.Eases

/-! ## One lane of a warp -/

/-- A warp without lanes that end: they leave its frontier, its results, masks, rays, held last-use bits and marks (R161). -/
def Warp.withoutLanes (w : Warp) (m : LaneMask) : Warp :=
  let v := (w.dropLanes m).dropResults m
  { v with live := v.live &&& ~~~ m
           m := (v.m.map fun e => (e.1, e.2 &&& ~~~ m)).filter fun e => e.2 != 0
           rays := v.rays.filter fun e => !m.getLsbD e.1
           heldFrees := v.heldFrees.map fun h => { h with lanes := h.lanes &&& ~~~ m }
           marks := (v.marks.map fun k => { k with lanes := k.lanes &&& ~~~ m }).filter fun k => k.lanes != 0 }

/-- Lanes of a warp have ended, and WAITM is tested (R152, R161). -/
def Warp.ended (w : Warp) (m : LaneMask) : Warp := (w.withoutLanes m).waitmTests

/-- Living lanes end where others of the warp go on. -/
theorem endLanes_some {s : State} {g : Nat} {w : Warp} {m : LaneMask} (hw : s.warp? g = some w) (hm : m &&& w.live ≠ 0)
    (hk : w.live &&& ~~~ (m &&& w.live) ≠ 0) : s.endLanes g m =
      ((((releaseFragments s g (m &&& w.live)).modWarp g fun v => v.ended (m &&& w.live)).stallTidy (coreOf g)).linkTidy).barTestAll w.block (some w.idx) := by
  simp only [State.endLanes, Warp.ended, Warp.withoutLanes, hw, if_neg hm, if_neg hk]

theorem Warp.carries_ended {l : Nat} {m : LaneMask} (hm : m.getLsbD l = false) (w : Warp) : Warp.Carries l w (w.ended m) :=
  (Warp.Carries.dropped (w := w) (w' := w.withoutLanes m) hm rfl rfl rfl).trans ((Warp.eased_waitmTests _).carries l)

/-- From s to t, where lane l of warp g lives, the warp stands and carries the lane. -/
def State.Carries (g l : Nat) (s t : State) : Prop :=
  ∀ w, s.warp? g = some w → w.live.getLsbD l = true → ∃ w', t.warp? g = some w' ∧ Warp.Carries l w w'

theorem State.Eases.carries {s t : State} (h : s.Eases t) (g l : Nat) : State.Carries g l s t := fun w hw _ => by
  obtain ⟨w', hw', he⟩ := h g w hw
  exact ⟨w', hw', he.carries l⟩

namespace State.Carries

variable {g l : Nat} {s₀ s t : State}

theorem refl (s : State) : State.Carries g l s s := (State.Eases.refl s).carries g l

theorem trans {a b c : State} (h : State.Carries g l a b) (k : State.Carries g l b c) : State.Carries g l a c := fun w hw hl => by
  obtain ⟨w', hw', hc⟩ := h w hw hl
  obtain ⟨w'', hw'', hc'⟩ := k w' hw' (hc.live.trans hl)
  exact ⟨w'', hw'', hc.trans hc'⟩

theorem modWarp {f : Warp → Warp} (hf : ∀ w, Warp.Carries l w (f w)) : State.Carries g l s (s.modWarp g f) := fun w hw _ =>
  ⟨f w, by rw [warp?_modWarp, hw]; rfl, hf w⟩

/-- Other lanes end. -/
theorem endLanes {m : LaneMask} (hm : m.getLsbD l = false) : State.Carries g l s (s.endLanes g m) := by
  intro w hw hl
  have hk : (m &&& w.live).getLsbD l = false := by rw [BitVec.getLsbD_and, hm, Bool.false_and]
  have hrest : w.live &&& ~~~ (m &&& w.live) ≠ 0 := (mask_ne_zero_iff _).mpr ⟨l, by rw [getLsbD_diff, hl, hk]; rfl⟩
  by_cases h0 : m &&& w.live = 0
  · have hsame : s.endLanes g m = s := by simp [State.endLanes, hw, h0]
    rw [hsame]
    exact refl s w hw hl
  · rw [endLanes_some hw h0 hrest]
    have hfrag := ((State.Eases.refl s).releaseFragments (g := g) (m := m &&& w.live)).carries g l
    refine ((hfrag.trans (modWarp (Warp.carries_ended hk))).trans (State.Eases.carries ?_ g l)) w hw hl
    exact (State.Eases.refl _).stallTidy.linkTidy.barTestAll

end State.Carries

end Sys2Proof.Machine

namespace Sys2Proof.Machine

/-! ## Lanes that take a trap (R154–R158) -/

theorem getLsbD_maskOf (ls : List Nat) (l : Nat) : (maskOf ls).getLsbD l = true ↔ l < 32 ∧ l ∈ ls := by
  have key : ∀ (ls : List Nat) (m : LaneMask), (ls.foldl (fun m k => m ||| laneBit k) m).getLsbD l = true ↔ m.getLsbD l = true ∨ l < 32 ∧ l ∈ ls := by
    intro ls
    induction ls with
    | nil => simp
    | cons k r ih =>
      intro m
      rw [List.foldl_cons, ih, BitVec.getLsbD_or, laneBit_get]
      simp only [Bool.or_eq_true, Bool.and_eq_true, decide_eq_true_eq, List.mem_cons, eq_comm (a := k)]
      tauto
  simp [maskOf, key]

/-- The trap registers of a lane that takes a trap (R155). -/
def trapRegs (pc : DWord) (prio : Nat) (x : TrapInfo) : LaneTrap :=
  { inh := true, tprio := prio, detail := x.detail, cause := x.cause, tpc := pc, taddr := x.addr }

/-- The trap registers of lanes are written (R155). -/
def Warp.setTraps (w : Warp) (pc : DWord) (prio : Nat) (ts : List (Nat × TrapInfo)) : Warp :=
  ts.foldl (fun (w : Warp) t => w.setTrap t.1 (trapRegs pc prio t.2)) w

/-- Lanes enter their handler: their trap registers are written, their windows close, and they stand at the vector (R154, R185). -/
def Warp.entersHandler (w : Warp) (pc vec : DWord) (prio name : Nat) (ts : List (Nat × TrapInfo)) : Warp :=
  let v := (w.setTraps pc prio ts).closeWindows (maskOf (ts.map Prod.fst))
  if maskOf (ts.map Prod.fst) = 0 then v
  else { v with entries := v.entries ++ [{ eid := name, pc := vec, prio := 63, mask := maskOf (ts.map Prod.fst), st := .trap }] }

/-- The traps that lanes take outside their handler, where the core has one (R154), and the lanes that end instead (R158). -/
def Warp.takers (w : Warp) (vec : DWord) (ts : List (Nat × TrapInfo)) : List (Nat × TrapInfo) :=
  if vec = 0 then [] else ts.filter fun t => !(w.trapOf t.1).inh
def Warp.doomed (w : Warp) (vec : DWord) (ts : List (Nat × TrapInfo)) : LaneMask :=
  maskOf (((ts.filter fun t => (w.trapOf t.1).inh) ++ if vec = 0 then ts.filter fun t => !(w.trapOf t.1).inh else []).map Prod.fst)

theorem Warp.mem_doomed {w : Warp} {vec : DWord} {ts : List (Nat × TrapInfo)} {l : Nat} (h : (w.doomed vec ts).getLsbD l = true) :
    l ∈ ts.map Prod.fst ∧ ((w.trapOf l).inh = true ∨ vec = 0) := by
  obtain ⟨t, ht, rfl⟩ := List.mem_map.mp ((getLsbD_maskOf _ _).mp h).2
  rcases List.mem_append.mp ht with ht | ht
  · exact ⟨List.mem_map_of_mem (List.mem_filter.mp ht).1, .inl (List.mem_filter.mp ht).2⟩
  · split at ht
    · next hvec => exact ⟨List.mem_map_of_mem (List.mem_filter.mp ht).1, .inr hvec⟩
    · cases ht

theorem Warp.mem_takers {w : Warp} {vec : DWord} {ts : List (Nat × TrapInfo)} {t : Nat × TrapInfo} :
    t ∈ w.takers vec ts ↔ vec ≠ 0 ∧ t ∈ ts ∧ (w.trapOf t.1).inh = false := by
  unfold Warp.takers
  split
  · next h => simp [h]
  · next h => simp only [List.mem_filter, Bool.not_eq_true', ne_eq, h, not_false_eq_true, true_and]

/-- The events and notices of traps, and the ends of the ordered sections of lanes that enter their handler (R158, R384). -/
def State.trapsNoted (s : State) (g : Nat) (w : Warp) (pc : DWord) (ts : List (Nat × TrapInfo)) : State :=
  let vec := (s.core (coreOf g)).vec
  let unhandled := if vec = 0 then ts.filter fun t => !(w.trapOf t.1).inh else []
  let t := (s.count .doubleTrap (ts.filter fun t => (w.trapOf t.1).inh).length).count .unhandledTrap unhandled.length
  let u := forEach unhandled t fun s t => s.tell (.unhandledTrap (((s.blockOf g).map Block.launch).getD 0) t.2.cause pc)
  leaveSections u g (maskOf ((w.takers vec ts).map Prod.fst))

theorem State.eases_trapsNoted (s : State) (g : Nat) (w : Warp) (pc : DWord) (ts : List (Nat × TrapInfo)) : s.Eases (s.trapsNoted g w pc ts) :=
  .leaveSections (.forEach (State.Eases.refl s).count.count fun h => h.frame)

theorem takeTraps_some {s : State} {g : Nat} {w : Warp} (hw : s.warp? g = some w) (pc : DWord) (prio : Nat) (ts : List (Nat × TrapInfo)) :
    s.takeTraps g pc prio ts = ((s.trapsNoted g w pc ts).newId.1.modWarp g fun v =>
      v.entersHandler pc (s.core (coreOf g)).vec prio (s.trapsNoted g w pc ts).nextId (w.takers (s.core (coreOf g)).vec ts)).endLanes g
        (w.doomed (s.core (coreOf g)).vec ts) := by
  simp only [State.takeTraps, hw]
  rfl

theorem Warp.sameLanes_setTraps (w : Warp) (pc : DWord) (prio : Nat) (ts : List (Nat × TrapInfo)) :
    (w.setTraps pc prio ts).entries = w.entries ∧ (w.setTraps pc prio ts).live = w.live :=
  List.foldlRecOn ts _ (motive := fun v : Warp => v.entries = w.entries ∧ v.live = w.live) ⟨rfl, rfl⟩ fun _ h _ _ => h

theorem Warp.trapOf_setTraps {pc : DWord} {prio l : Nat} {x : TrapInfo} {ts : List (Nat × TrapInfo)} (hx : ∀ y, (l, y) ∈ ts → y = x) (w : Warp) :
    (w.setTraps pc prio ts).trapOf l = if l ∈ ts.map Prod.fst then trapRegs pc prio x else w.trapOf l := by
  induction ts generalizing w with
  | nil => rfl
  | cons t r ih =>
    obtain ⟨k, y⟩ := t
    have hr := ih (fun z hz => hx z (List.mem_cons_of_mem _ hz)) (w.setTrap k (trapRegs pc prio y))
    show Warp.trapOf (Warp.setTraps _ pc prio r) l = _
    rw [hr]
    by_cases hk : l = k
    · subst hk
      obtain rfl := hx y (by simp)
      simp [Warp.trapOf, Warp.setTrap]
    · have hother : (w.setTrap k (trapRegs pc prio y)).trapOf l = w.trapOf l := tgetD_tput_other w.traps (trapRegs pc prio y) {} hk
      rw [hother, List.map_cons]
      simp only [List.mem_cons, hk, false_or]

section
variable (w : Warp) (pc vec : DWord) (prio name : Nat) (ts : List (Nat × TrapInfo)) (l : Nat)

theorem Warp.trapOf_entersHandler {x : TrapInfo} (hx : ∀ y, (l, y) ∈ ts → y = x) :
    (w.entersHandler pc vec prio name ts).trapOf l = if l ∈ ts.map Prod.fst then trapRegs pc prio x else w.trapOf l := by
  have htraps : (w.entersHandler pc vec prio name ts).traps = (w.setTraps pc prio ts).traps := by
    unfold Warp.entersHandler
    dsimp only
    split <;> exact (Warp.SameLanes.closeWindows _ _).traps
  rw [← Warp.trapOf_setTraps hx w]
  unfold Warp.trapOf
  rw [htraps]

theorem Warp.live_entersHandler : (w.entersHandler pc vec prio name ts).live = w.live := by
  unfold Warp.entersHandler
  dsimp only
  split <;> exact (Warp.SameLanes.closeWindows _ _).live.trans (w.sameLanes_setTraps pc prio ts).2

theorem Warp.mem_entersHandler {x : Entry} (hx : x ∈ w.entries) : x ∈ (w.entersHandler pc vec prio name ts).entries := by
  have hclosed : ((w.setTraps pc prio ts).closeWindows (maskOf (ts.map Prod.fst))).entries = w.entries :=
    (Warp.SameLanes.closeWindows _ _).entries.trans (w.sameLanes_setTraps pc prio ts).1
  unfold Warp.entersHandler
  dsimp only
  split
  · rw [hclosed]; exact hx
  · rw [hclosed]; exact List.mem_append_left _ hx

/-- The lanes stand in one entry at the vector with priority 63 (R154). -/
theorem Warp.atHandler_entersHandler (hl : l < 32) (h : l ∈ ts.map Prod.fst) : (w.entersHandler pc vec prio name ts).atHandler l vec := by
  have hm : (maskOf (ts.map Prod.fst)).getLsbD l = true := (getLsbD_maskOf _ _).mpr ⟨hl, h⟩
  unfold Warp.entersHandler
  dsimp only
  rw [if_neg ((mask_ne_zero_iff _).mpr ⟨l, hm⟩)]
  exact ⟨_, List.mem_append_right _ (List.mem_singleton_self _), hm, rfl, rfl, rfl⟩

end

/-- A lane that takes no trap goes on. -/
theorem carries_takeTraps {s : State} {g l prio : Nat} {pc : DWord} {ts : List (Nat × TrapInfo)} (h : l ∉ ts.map Prod.fst) :
    State.Carries g l s (s.takeTraps g pc prio ts) := by
  intro w hw hl
  have hnone : l ∉ (w.takers (s.core (coreOf g)).vec ts).map Prod.fst := fun hc => by
    obtain ⟨t, ht, rfl⟩ := List.mem_map.mp hc
    exact h (List.mem_map_of_mem (Warp.mem_takers.mp ht).2.1)
  have hspared : (w.doomed (s.core (coreOf g)).vec ts).getLsbD l = false := Bool.eq_false_iff.mpr fun hc => h (Warp.mem_doomed hc).1
  have henter : ∀ v k, Warp.Carries l v (v.entersHandler pc (s.core (coreOf g)).vec prio k (w.takers (s.core (coreOf g)).vec ts)) := fun v k => by
    refine .more (v.live_entersHandler _ _ _ _ _) ?_ fun x hx => v.mem_entersHandler _ _ _ _ _ hx
    rw [v.trapOf_entersHandler _ _ _ _ _ _ (x := { cause := 0, detail := 0, addr := 0 }) fun y hy => absurd (List.mem_map_of_mem hy) hnone, if_neg hnone]
  rw [takeTraps_some hw]
  exact ((((s.eases_trapsNoted g w pc ts).frame).carries g l).trans (.modWarp fun v => henter v _)).trans (.endLanes hspared) w hw hl

/-- A lane outside its handler, where the core has one, takes its trap (R154). -/
theorem takesTrap {s : State} {g l prio : Nat} {w : Warp} {pc : DWord} {ts : List (Nat × TrapInfo)} {x : TrapInfo} (hw : s.warp? g = some w)
    (hl : l < 32) (hlive : w.live.getLsbD l = true) (hmem : (l, x) ∈ ts) (hx : ∀ y, (l, y) ∈ ts → y = x) (hinh : (w.trapOf l).inh = false)
    (hvec : (s.core (coreOf g)).vec ≠ 0) :
    ∃ w', (s.takeTraps g pc prio ts).warp? g = some w' ∧ w'.live.getLsbD l = true ∧ w'.atHandler l (s.core (coreOf g)).vec ∧
      w'.trapOf l = trapRegs pc prio x := by
  obtain ⟨v, hv, hvw⟩ := s.eases_trapsNoted g w pc ts g w hw
  have hkey : l ∈ (w.takers (s.core (coreOf g)).vec ts).map Prod.fst := List.mem_map_of_mem (Warp.mem_takers.mpr ⟨hvec, hmem, hinh⟩)
  have hspared : (w.doomed (s.core (coreOf g)).vec ts).getLsbD l = false := Bool.eq_false_iff.mpr fun hc => by
    rcases (Warp.mem_doomed hc).2 with h | h
    · rw [hinh] at h; cases h
    · exact hvec h
  have hentered := v.live_entersHandler pc (s.core (coreOf g)).vec prio (s.trapsNoted g w pc ts).nextId (w.takers (s.core (coreOf g)).vec ts)
  have hstands : v.live.getLsbD l = true := by rw [hvw.live]; exact hlive
  have hin := (warp?_modWarp (s.trapsNoted g w pc ts).newId.1 g fun v => v.entersHandler pc (s.core (coreOf g)).vec prio (s.trapsNoted g w pc ts).nextId
    (w.takers (s.core (coreOf g)).vec ts)).trans (congrArg _ hv)
  rw [takeTraps_some hw]
  obtain ⟨w', hw', hc⟩ := State.Carries.endLanes (g := g) hspared _ hin (by rw [hentered]; exact hstands)
  refine ⟨w', hw', ?_, hc.handler _ (v.atHandler_entersHandler _ _ _ _ _ _ hl hkey), ?_⟩
  · rw [hc.live, hentered]; exact hstands
  · rw [hc.trap, v.trapOf_entersHandler _ _ _ _ _ _ fun y hy => hx y (Warp.mem_takers.mp hy).2.1, if_pos hkey]

end Sys2Proof.Machine

namespace Sys2Proof.Machine

/-! ## The places of lanes after an instruction (R137, R154) -/

theorem mem_fateTraps {fs : Fates} {l : Nat} {x : TrapInfo} : (l, x) ∈ fateTraps fs ↔ ∃ m, (m, .trap x) ∈ fs ∧ l < 32 ∧ m.getLsbD l = true := by
  unfold fateTraps
  rw [List.mem_flatMap]
  constructor
  · rintro ⟨⟨m, f⟩, hf, hl⟩
    cases f with
    | trap t =>
      obtain ⟨k, hk, heq⟩ := List.mem_map.mp hl
      cases heq
      exact ⟨m, hf, (mem_lanesOf m l).mp hk⟩
    | _ => cases hl
  · rintro ⟨m, hf, hl⟩
    exact ⟨_, hf, List.mem_map.mpr ⟨l, (mem_lanesOf m l).mpr hl, rfl⟩⟩

theorem getLsbD_fateLanes (fs : Fates) (p : Fate → Bool) (l : Nat) :
    (fateLanes fs p).getLsbD l = true ↔ ∃ f ∈ fs, p f.2 = true ∧ f.1.getLsbD l = true := by
  have key : ∀ (fs : Fates) (m : LaneMask), (fs.foldl (fun m f => if p f.2 then m ||| f.1 else m) m).getLsbD l = true ↔
      m.getLsbD l = true ∨ ∃ f ∈ fs, p f.2 = true ∧ f.1.getLsbD l = true := by
    intro fs
    induction fs with
    | nil => simp
    | cons f r ih =>
      intro m
      rw [List.foldl_cons, ih]
      cases hp : p f.2 <;> simp [hp, or_assoc]
  simp [fateLanes, key]

/-- A lane has one fate. -/
theorem fate_unique {fs : Fates} (h : fs.Pairwise fun a b => a.1 &&& b.1 = 0) {a b : LaneMask × Fate} (ha : a ∈ fs) (hb : b ∈ fs) {l : Nat}
    (hal : a.1.getLsbD l = true) (hbl : b.1.getLsbD l = true) : a = b := by
  by_contra hne
  have hsymm : Std.Symm fun x y : LaneMask × Fate => x.1 &&& y.1 = 0 := ⟨fun x y hxy => by rw [BitVec.and_comm]; exact hxy⟩
  have hdis := h.forall ha hb hne
  rw [(mask_disjoint_iff _ _).mp hdis l hal] at hbl
  cases hbl

/-- From s to t warp g stands with all its entries, living lanes and trap registers; and no core changes. -/
structure State.Grows (g : Nat) (s t : State) : Prop where
  warp  : ∀ w, s.warp? g = some w → ∃ w', t.warp? g = some w' ∧ w'.live = w.live ∧ w'.traps = w.traps ∧ ∀ x ∈ w.entries, x ∈ w'.entries
  cores : t.cores = s.cores

namespace State.Grows

variable {g : Nat}

theorem refl (s : State) : State.Grows g s s := ⟨fun w hw => ⟨w, hw, rfl, rfl, fun _ => id⟩, rfl⟩

theorem trans {a b c : State} (h : State.Grows g a b) (k : State.Grows g b c) : State.Grows g a c where
  warp := fun w hw => by
    obtain ⟨v, hv, hl, ht, he⟩ := h.warp w hw
    obtain ⟨u, hu, hl', ht', he'⟩ := k.warp v hv
    exact ⟨u, hu, hl'.trans hl, ht'.trans ht, fun x hx => he' x (he x hx)⟩
  cores := k.cores.trans h.cores

theorem placeFate (e : Entry) (s : State) (f : LaneMask × Fate) : State.Grows g s (placeFate g e s f) := by
  unfold Machine.placeFate
  split
  · next x _ =>
    refine ⟨fun w hw => ⟨{ w with entries := w.entries ++ [x] }, ?_, rfl, rfl, fun y hy => List.mem_append_left _ hy⟩, rfl⟩
    rw [warp?_modWarp, warp?_newId, hw]
    rfl
  · exact .refl s

theorem places (e : Entry) (fs : Fates) (s : State) : State.Grows g s (forEach fs s (Machine.placeFate g e)) := by
  induction fs generalizing s with
  | nil => exact .refl s
  | cons f r ih => exact (placeFate e s f).trans (ih _)

end State.Grows

/-- A lane that goes to a PC stands there (R137). -/
theorem goesOn_places {g l prio : Nat} {e : Entry} {pc : DWord} {m : LaneMask} (hl : m.getLsbD l = true) {fs : Fates} (hf : (m, .to pc prio) ∈ fs) (s : State)
    {w : Warp} (hw : s.warp? g = some w) : ∃ w', (forEach fs s (placeFate g e)).warp? g = some w' ∧ w'.goesOn l pc prio := by
  induction fs generalizing s w with
  | nil => cases hf
  | cons f r ih =>
    rcases List.mem_cons.mp hf with rfl | hf
    · obtain ⟨v, hv, -, -, he⟩ := (State.Grows.places e r (placeFate g e s (m, .to pc prio))).warp
        { w with entries := w.entries ++ [{ eid := s.nextId, pc := pc, prio := prio, mask := m, st := .ready, held := e.held, heldUntil := e.heldUntil }] }
        (by rw [placeFate]; simp only [fateEntry]; rw [warp?_modWarp, warp?_newId, hw]; rfl)
      exact ⟨v, hv, _, he _ (List.mem_append_right _ (List.mem_singleton_self _)), hl, rfl, le_rfl, rfl⟩
    · obtain ⟨v, hv, -⟩ := (State.Grows.placeFate e s f).warp w hw
      exact ih hf _ hv

/-- The fates of lanes of a split, the empty ones left out. -/
def Fates.present (fs : Fates) : Fates := fs.filter fun f => f.1 != 0

theorem Fates.mem_present {fs : Fates} {f : LaneMask × Fate} {l : Nat} (hf : f ∈ fs) (hl : f.1.getLsbD l = true) : f ∈ Fates.present fs :=
  List.mem_filter.mpr ⟨hf, by simpa using (mask_ne_zero_iff _).mpr ⟨l, hl⟩⟩

/-- The lanes have left the issuing entry, and those that stay in the frontier have their entries (R137). -/
def State.placed (u : State) (g : Nat) (e : Entry) (fs : Fates) : State :=
  forEach fs ((u.modWarp g fun w => w.aged e.eid u.now).modWarp g fun w => w.stepOff e (fateLanes fs fun _ => true)) (placeFate g e)

/-- The traps that living lanes of the split take. -/
def State.trapsOf (u : State) (g : Nat) (fs : Fates) : List (Nat × TrapInfo) :=
  (fateTraps fs).filter fun t => ((u.warp? g).map Warp.live).any fun m => m.getLsbD t.1

/-- They have taken them. -/
def State.trapped (t : State) (g : Nat) (e : Entry) (fs : Fates) : State :=
  if (t.trapsOf g fs).isEmpty then t else t.takeTraps g e.pc e.prio (t.trapsOf g fs)

/-- What comes after the places: traps, ends, the tests of the frontier (R138, R152, R154, R161). -/
theorem warp?_stepped (u : State) (g : Nat) (e : Entry) (fs : Fates) : (u.stepped g e fs).warp? g =
    ((((u.placed g e (Fates.present fs)).trapped g e (Fates.present fs)).endLanes g (fateLanes (Fates.present fs) Fate.isEnd)).modWarp g Warp.tidy).warp? g := by
  unfold State.stepped
  rw [warp?_issueDone]
  rfl

section
variable {u : State} {g l : Nat} {w : Warp} {e : Entry} {fs : Fates} {f : Fate}

theorem warp?_placed (hw : u.warp? g = some w) (fs : Fates) :
    ∃ v, (u.placed g e fs).warp? g = some v ∧ v.live = w.live ∧ v.traps = w.traps ∧ (u.placed g e fs).cores = u.cores := by
  obtain ⟨hwarp, hcores⟩ := State.Grows.places (g := g) e fs
    ((u.modWarp g fun w => w.aged e.eid u.now).modWarp g fun w => w.stepOff e (fateLanes fs fun _ => true))
  obtain ⟨v, hv, hlive, htraps, -⟩ := hwarp _ (by rw [warp?_modWarp, warp?_modWarp, hw]; rfl)
  exact ⟨v, hv, hlive, htraps, hcores⟩

/-- A lane that does not end goes on through the ends of others and the tests of the frontier. -/
theorem carries_ends {t : State} (h : HasFate w fs l f) (hf : f ≠ .ended) :
    State.Carries g l t ((t.endLanes g (fateLanes (Fates.present fs) Fate.isEnd)).modWarp g Warp.tidy) := by
  obtain ⟨m, hm, hml⟩ := h.among
  refine (State.Carries.endLanes (Bool.eq_false_iff.mpr fun hc => ?_)).trans (.modWarp fun w => w.eased_tidy.carries l)
  obtain ⟨⟨m', f'⟩, hmem, hend, hl⟩ := (getLsbD_fateLanes _ _ _).mp hc
  obtain rfl : f = f' := congrArg Prod.snd (fate_unique h.apart hm (List.mem_filter.mp hmem).1 hml hl)
  cases f with
  | ended => exact hf rfl
  | _ => cases hend

theorem mem_trapsOf {v : Warp} {t : State} (ht : t.warp? g = some v) (hlive : v.live = w.live) (h : HasFate w fs l f) {x : TrapInfo} :
    (l, x) ∈ t.trapsOf g (Fates.present fs) ↔ f = .trap x := by
  obtain ⟨m, hm, hml⟩ := h.among
  unfold State.trapsOf
  rw [List.mem_filter, mem_fateTraps]
  constructor
  · rintro ⟨⟨m', hm', -, hl⟩, -⟩
    exact congrArg Prod.snd (fate_unique h.apart hm (List.mem_filter.mp hm').1 hml hl)
  · rintro rfl
    exact ⟨⟨m, Fates.mem_present hm hml, h.lane, hml⟩, by simpa [ht, hlive] using h.live⟩

/-- A lane outside its handler, where the core has one, takes its trap (R154, R155, R157). -/
theorem stepped_trap {x : TrapInfo} (hw : u.warp? g = some w) (h : HasFate w fs l (.trap x)) (hinh : (w.trapOf l).inh = false)
    (hvec : (u.core (coreOf g)).vec ≠ 0) :
    ∃ w', (u.stepped g e fs).warp? g = some w' ∧ w'.atHandler l (u.core (coreOf g)).vec ∧ w'.live.getLsbD l = true ∧
      w'.trapOf l = trapRegs e.pc e.prio x := by
  obtain ⟨v, hv, hlive, htraps, hcores⟩ := warp?_placed (e := e) hw (Fates.present fs)
  have hcore : (u.placed g e (Fates.present fs)).core = u.core := by unfold State.core; rw [hcores]
  have hmem := (mem_trapsOf hv hlive h).mpr rfl
  have honly : ∀ y, (l, y) ∈ (u.placed g e (Fates.present fs)).trapsOf g (Fates.present fs) → y = x := fun y hy => by
    cases (mem_trapsOf hv hlive h).mp hy; rfl
  obtain ⟨w₁, hw₁, hlive₁, hat₁, htrap₁⟩ := takesTrap (prio := e.prio) (pc := e.pc) hv h.lane (by rw [hlive]; exact h.live) hmem honly
    (by unfold Warp.trapOf; rw [htraps]; exact hinh) (by rw [hcore]; exact hvec)
  obtain ⟨w₂, hw₂, hc⟩ := carries_ends (g := g) h (fun hc => by cases hc) w₁ hw₁ hlive₁
  refine ⟨w₂, ?_, hc.handler _ (hcore ▸ hat₁), hc.live.trans hlive₁, hc.trap.trans htrap₁⟩
  rw [warp?_stepped, State.trapped, if_neg (by rw [List.isEmpty_iff]; exact List.ne_nil_of_mem hmem)]
  exact hw₂

/-- A lane that goes to a PC stands there, and its trap registers stay (R137, R138). -/
theorem stepped_to {pc : DWord} {prio : Nat} (hw : u.warp? g = some w) (h : HasFate w fs l (.to pc prio)) :
    ∃ w', (u.stepped g e fs).warp? g = some w' ∧ w'.goesOn l pc prio ∧ w'.trapOf l = w.trapOf l := by
  obtain ⟨v, hv, hlive, htraps, -⟩ := warp?_placed (e := e) hw (Fates.present fs)
  obtain ⟨m, hm, hml⟩ := h.among
  obtain ⟨v', hv', hgoes⟩ := goesOn_places (g := g) (e := e) hml (Fates.mem_present hm hml)
    ((u.modWarp g fun w => w.aged e.eid u.now).modWarp g fun w => w.stepOff e (fateLanes (Fates.present fs) fun _ => true)) (by rw [warp?_modWarp, warp?_modWarp, hw]; rfl)
  obtain rfl : v = v' := Option.some.inj (hv.symm.trans hv')
  have hnone : l ∉ ((u.placed g e (Fates.present fs)).trapsOf g (Fates.present fs)).map Prod.fst := fun hc => by
    obtain ⟨⟨k, x⟩, hx, rfl⟩ := List.mem_map.mp hc
    cases (mem_trapsOf hv hlive h).mp hx
  have htaken : State.Carries g l (u.placed g e (Fates.present fs)) ((u.placed g e (Fates.present fs)).trapped g e (Fates.present fs)) := by
    unfold State.trapped
    split
    · exact .refl _
    · exact carries_takeTraps hnone
  obtain ⟨w', hw', hc⟩ := (htaken.trans (carries_ends h fun hc => by cases hc)) v hv (by rw [hlive]; exact h.live)
  refine ⟨w', by rw [warp?_stepped]; exact hw', hc.goesOn _ _ hgoes, hc.trap.trans ?_⟩
  unfold Warp.trapOf
  rw [htraps]

end

/-- Settles O33: the lanes outside their handler form one entry there, and neither the ends of other lanes nor the tests of the frontier move it. -/
theorem trapTaken : Obligations.TrapTaken := by
  unfold Obligations.TrapTaken
  intro u g w e fs l x hw h hinh hvec
  exact stepped_trap hw h hinh hvec

end Sys2Proof.Machine

namespace Sys2Proof.Machine

/-! ## Lanes with a common fate -/

/-- A fate other than a park on absent scratchpad lines, which lanes with other lines join (R14). -/
def Fate.plain (f : Fate) : Prop := ∀ ls, f ≠ .park (.absentLine ls)

theorem joinFate_plain {a f j : Fate} (hf : f.plain) (h : joinFate a f = some j) : a = f ∧ j = f := by
  unfold joinFate at h
  split at h
  · exact absurd rfl (hf _)
  · split at h
    · next hab => cases h; exact ⟨hab, hab⟩
    · cases h

/-- Lanes with a plain fate form a set of their own, or join the lanes with that fate. -/
theorem addFate_plain {f : Fate} (hf : f.plain) (m : LaneMask) (fs : Fates) :
    addFate fs m f = fs ++ [(m, f)] ∨ ∃ p k q, fs = p ++ (k, f) :: q ∧ addFate fs m f = p ++ (k ||| m, f) :: q := by
  induction fs with
  | nil => exact .inl rfl
  | cons x r ih =>
    unfold addFate
    split
    · next j hj =>
      obtain ⟨hx, rfl⟩ := joinFate_plain hf hj
      exact .inr ⟨[], x.1, r, by rw [← hx]; rfl, rfl⟩
    · rcases ih with h | ⟨p, k, q, rfl, h⟩
      · exact .inl (by rw [h]; rfl)
      · exact .inr ⟨x :: p, k, q, rfl, by rw [h]; rfl⟩

/-- The sets of lanes with fates are disjoint. -/
def Fates.apart (fs : Fates) : Prop := fs.Pairwise fun a b => a.1 &&& b.1 = 0

/-- Lane l has fate f. -/
def Fates.gives (fs : Fates) (l : Nat) (f : Fate) : Prop := ∃ m, (m, f) ∈ fs ∧ m.getLsbD l = true

theorem Fates.apart_perm {a b : Fates} (h : a.Perm b) : Fates.apart a ↔ Fates.apart b :=
  h.pairwise_iff fun {x y} hxy => by rw [BitVec.and_comm]; exact hxy

theorem Fates.apart_join {f : Fate} {k m : LaneMask} {fs : Fates} (h : Fates.apart ((k, f) :: (m, f) :: fs)) : Fates.apart ((k ||| m, f) :: fs) := by
  simp only [Fates.apart, List.pairwise_cons, List.mem_cons, forall_eq_or_imp] at h ⊢
  obtain ⟨⟨-, hk⟩, hm, hfs⟩ := h
  refine ⟨fun x hx => (mask_disjoint_iff _ _).mpr fun l hl => ?_, hfs⟩
  rw [BitVec.getLsbD_or, Bool.or_eq_true] at hl
  rcases hl with hl | hl
  · exact (mask_disjoint_iff _ _).mp (hk x hx) l hl
  · exact (mask_disjoint_iff _ _).mp (hm x hx) l hl

theorem Fates.gives_append (a b : Fates) (l : Nat) (f : Fate) : Fates.gives (a ++ b) l f ↔ Fates.gives a l f ∨ Fates.gives b l f := by
  simp only [Fates.gives, List.mem_append, or_and_right, exists_or]

theorem Fates.gives_cons (a : LaneMask × Fate) (b : Fates) (l : Nat) (f : Fate) :
    Fates.gives (a :: b) l f ↔ (a.2 = f ∧ a.1.getLsbD l = true) ∨ Fates.gives b l f := by
  obtain ⟨m, x⟩ := a
  simp only [Fates.gives, List.mem_cons, Prod.mk.injEq, or_and_right, exists_or]
  constructor
  · rintro (⟨_, ⟨rfl, rfl⟩, h⟩ | h)
    · exact .inl ⟨rfl, h⟩
    · exact .inr h
  · rintro (⟨rfl, h⟩ | h)
    · exact .inl ⟨_, ⟨rfl, rfl⟩, h⟩
    · exact .inr h

/-- One more set of lanes with a plain fate, among what is still to come. -/
theorem addFate_keeps {f : Fate} (hf : f.plain) (m : LaneMask) (fs r : Fates) (h : Fates.apart (fs ++ (m, f) :: r)) :
    Fates.apart (addFate fs m f ++ r) ∧ ∀ l x, Fates.gives (addFate fs m f ++ r) l x ↔ Fates.gives (fs ++ (m, f) :: r) l x := by
  rcases addFate_plain hf m fs with ha | ⟨p, k, q, rfl, ha⟩
  · rw [ha, List.append_assoc]
    exact ⟨h, fun _ _ => .rfl⟩
  · rw [ha]
    refine ⟨?_, fun l x => ?_⟩
    · have h1 : (p ++ (k, f) :: q ++ (m, f) :: r).Perm ((k, f) :: (m, f) :: (p ++ q ++ r)) := by
        have := (List.perm_middle (a := (m, f)) (l₁ := p ++ (k, f) :: q) (l₂ := r)).trans
          (.cons (m, f) ((List.perm_middle (a := (k, f)) (l₁ := p) (l₂ := q)).append_right r))
        exact this.trans (.swap _ _ _)
      exact (Fates.apart_perm (List.perm_middle.append_right r)).mpr (Fates.apart_join ((Fates.apart_perm h1).mp h))
    · simp only [Fates.gives_append, Fates.gives_cons, BitVec.getLsbD_or, Bool.or_eq_true]
      tauto

/-- Grouping keeps each lane's fate, where no lane waits for absent lines. -/
theorem groupFates_plain {fs : Fates} (hp : ∀ f ∈ fs, f.2.plain) (h : Fates.apart fs) :
    Fates.apart (groupFates fs) ∧ ∀ l x, Fates.gives (groupFates fs) l x ↔ Fates.gives fs l x := by
  have key : ∀ (fs acc : Fates), (∀ f ∈ fs, f.2.plain) → Fates.apart (acc ++ fs) →
      Fates.apart (fs.foldl (fun acc f => addFate acc f.1 f.2) acc) ∧
      ∀ l x, Fates.gives (fs.foldl (fun acc f => addFate acc f.1 f.2) acc) l x ↔ Fates.gives (acc ++ fs) l x := by
    intro fs
    induction fs with
    | nil => intro acc _ h; rw [List.append_nil] at h ⊢; exact ⟨h, fun _ _ => .rfl⟩
    | cons f r ih =>
      intro acc hp h
      obtain ⟨hadd, hgives⟩ := addFate_keeps (hp f (by simp)) f.1 acc r h
      obtain ⟨happ, hg⟩ := ih _ (fun x hx => hp x (List.mem_cons_of_mem _ hx)) hadd
      exact ⟨happ, fun l x => (hg l x).trans (hgives l x)⟩
  exact key fs [] hp h

/-! ## Returning from the handler (R160) -/

theorem trapOf_leavesHandler_list (ls : List Nat) (l : Nat) (w : Warp) :
    (w.leavesHandler ls).trapOf l = if l ∈ ls then { w.trapOf l with inh := false } else w.trapOf l := by
  induction ls generalizing w with
  | nil => rfl
  | cons k r ih =>
    have hone : (w.leavesHandler [k]).trapOf l = if l = k then { w.trapOf l with inh := false } else w.trapOf l := by
      by_cases hk : l = k
      · subst hk
        rw [if_pos rfl]
        show Warp.trapOf (if (w.trapOf l).inh then w.setTrap l { w.trapOf l with inh := false } else w) l = _
        split
        · exact tgetD_tput_same w.traps l _ {}
        · next h => rw [← Bool.eq_false_iff.mpr h]
      · rw [trapOf_leavesHandler w k l hk, if_neg hk]
    show ((w.leavesHandler [k]).leavesHandler r).trapOf l = _
    rw [ih, hone]
    by_cases hk : l = k <;> by_cases hr : l ∈ r <;> simp [hk, hr]

theorem live_leavesHandler (w : Warp) (ls : List Nat) : (w.leavesHandler ls).live = w.live := by rw [leavesHandler_frame]

theorem tretFate_plain (w : Warp) (next : Bool) (l : Nat) : (tretFate w next l).plain := by
  intro ls
  unfold tretFate
  split <;> exact fun h => by cases h

theorem apart_lanes (m : LaneMask) (f : Nat → Fate) : Fates.apart ((lanesOf m).map fun l => (laneBit l, f l)) := by
  refine List.pairwise_map.mpr ((lanesOf_nodup m).imp fun {a b} hab => (mask_disjoint_iff _ _).mpr fun l hl => ?_)
  rw [laneBit_get, Bool.and_eq_true, decide_eq_true_eq, decide_eq_true_eq] at hl
  rw [laneBit_get]
  simp [← hl.2, Ne.symm hab]

theorem gives_lanes {m : LaneMask} {f : Nat → Fate} {l : Nat} {x : Fate} :
    Fates.gives ((lanesOf m).map fun l => (laneBit l, f l)) l x ↔ l < 32 ∧ m.getLsbD l = true ∧ f l = x := by
  simp only [Fates.gives, List.mem_map, Prod.mk.injEq, mem_lanesOf]
  constructor
  · rintro ⟨_, ⟨k, ⟨hk, hm⟩, rfl, rfl⟩, hl⟩
    rw [laneBit_get, Bool.and_eq_true, decide_eq_true_eq, decide_eq_true_eq] at hl
    obtain ⟨hl, rfl⟩ := hl
    exact ⟨hl, hm, rfl⟩
  · rintro ⟨hl, hm, hx⟩
    exact ⟨_, ⟨l, ⟨hl, hm⟩, rfl, hx⟩, by simp [laneBit_get, hl]⟩

section
variable {s : State} {g : Nat} {w : Warp} {e : Entry} (gd : Guard) (next : Bool)

/-- The fates of a return: lanes with a poisoned guard trap (R144), the active ones go where they return to, or trap. -/
def returnFates (g : Nat) (w : Warp) (e : Entry) (gd : Guard) (next : Bool) : Fates :=
  ((laneCtx g w e gd).pg, .trap (poisonTrap 0)) :: groupFates ((lanesOf (laneCtx g w e gd).act).map fun l => (laneBit l, tretFate w next l))

/-- The state in which the active lanes have left their handlers. -/
def State.returned (s : State) (g : Nat) (w : Warp) (e : Entry) (gd : Guard) : State :=
  (s.begun g e).modWarp g fun w' => w'.leavesHandler (lanesOf (laneCtx g w e gd).act)

theorem exec_return (hc : Calm s g w e) : exec (if next then .tretNext gd else .tret gd) s =
    .next ((s.returned g w e gd).stepped g e (returnFates g w e gd next)) := by
  cases next with
  | false => exact sequencerResults _ _ _ _ _ _ _ hc (.tret gd)
  | true => exact sequencerResults _ _ _ _ _ _ _ hc (.tretNext gd)

theorem warp?_returned (hw : s.warp? g = some w) :
    (s.returned g w e gd).warp? g = some ((w.marked e.eid).leavesHandler (lanesOf (laneCtx g w e gd).act)) := by
  rw [State.returned, warp?_modWarp, warp?_begun hw]
  rfl

/-- An active lane has the fate of its own return. -/
theorem hasFate_return {l : Nat} (hl : l < 32) (ha : (laneCtx g w e gd).act.getLsbD l = true) (hlive : w.live.getLsbD l = true) :
    HasFate ((w.marked e.eid).leavesHandler (lanesOf (laneCtx g w e gd).act)) (returnFates g w e gd next) l (tretFate w next l) := by
  have hplain : ∀ f ∈ (lanesOf (laneCtx g w e gd).act).map (fun l => (laneBit l, tretFate w next l)), f.2.plain := fun f hf => by
    obtain ⟨k, -, rfl⟩ := List.mem_map.mp hf
    exact tretFate_plain w next k
  obtain ⟨happ, hgives⟩ := groupFates_plain hplain (apart_lanes _ _)
  obtain ⟨m, hm, hml⟩ := (hgives l _).mpr (gives_lanes.mpr ⟨hl, ha, rfl⟩)
  refine ⟨List.pairwise_cons.mpr ⟨fun f hf => (mask_disjoint_iff _ _).mpr fun k hk => Bool.eq_false_iff.mpr fun hfk => ?_, happ⟩,
    ⟨m, List.mem_cons_of_mem _ hm, hml⟩, hl, by rw [live_leavesHandler]; exact hlive⟩
  obtain ⟨-, hact, -⟩ := gives_lanes.mp ((hgives k f.2).mp ⟨f.1, hf, hfk⟩)
  have hoff : (laneCtx g w e gd).pg.getLsbD k = false := (mask_disjoint_iff _ _).mp (guardLanes_disjoint w gd e.mask) k hact
  cases hk.symm.trans hoff

end

/-- Settles O37: a lane in its handler goes to the PC of its return; one outside it takes its trap. -/
theorem tretReturns : Obligations.TretReturns := by
  unfold Obligations.TretReturns
  intro s g w e gd next l hc hl ha hlive
  have hw := warp?_returned (e := e) gd hc.warp
  have hfate := hasFate_return gd next hl ha hlive
  have hregs : ((w.marked e.eid).leavesHandler (lanesOf (laneCtx g w e gd).act)).trapOf l = { w.trapOf l with inh := false } := by
    rw [trapOf_leavesHandler_list, if_pos ((mem_lanesOf _ _).mpr ⟨hl, ha⟩)]
    rfl
  refine ⟨_, exec_return gd next hc, fun hinh => ?_, fun hinh hvec => ?_⟩
  · have hto : tretFate w next l = .to ((w.trapOf l).tpc + (if next then 8 else 0)) (w.trapOf l).tprio := by
      rw [tretFate, if_pos hinh]
      cases next <;> simp
    rw [hto] at hfate
    obtain ⟨w', hw', ⟨y, hy, hyl, hmerge, hprio, hpc⟩, htrap⟩ := stepped_to (e := e) hw hfate
    exact ⟨w', hw', htrap.trans hregs, y, hy, hyl, hmerge, hprio, hpc⟩
  · have htrap : tretFate w next l = .trap { cause := 0x0C, detail := 0, addr := 0 } := by
      rw [tretFate, if_neg (by rw [hinh]; decide)]
    rw [htrap] at hfate
    obtain ⟨w', hw', hat, -, hregs'⟩ := stepped_trap (e := e) hw hfate (by rw [hregs]) hvec
    exact ⟨w', hw', hat, hregs'⟩

end Sys2Proof.Machine

namespace Sys2Proof.Machine

/-! ## The lane instructions that change their warp's registers alone (R171–R173, R187–R202) -/

/-- Settles O9: each form runs as `laneOp`, and what that does in a calm split is the form's own effect on the warp. -/
theorem laneResults : Obligations.LaneResults := by
  unfold Obligations.LaneResults
  intro i x s g w e h hc hroom
  obtain ⟨sn, pt, hrun⟩ := laneSpec_run h s
  rw [hrun]
  exact laneOp_calm sn pt x (laneSpec_blind h) (laneSpec_rel h) (laneSpec_home h) hc hroom

/-! ### The registers that a lane's results write -/

/-- The v registers that a lane's results write are among rs. -/
def LaneOut.Within (o : LaneOut) (rs : List Nat) : Prop := ∀ y ∈ o.v, regsFrom y.1 y.2.1 ⊆ rs

@[simp] theorem within_vout (d n x : Nat) (b : Bool) (rs : List Nat) : (vout d n x b).Within rs ↔ regsFrom d n ⊆ rs := by
  simp [LaneOut.Within, vout]

@[simp] theorem within_fout (d n : Nat) (b : Bool) (r : Nat × Word) (rs : List Nat) : (fout d n b r).Within rs ↔ regsFrom d n ⊆ rs := by
  simp [LaneOut.Within, fout]

@[simp] theorem within_p (ps : List (Nat × Bool × Bool)) (f : Word) (rs : List Nat) : ({ p := ps, flags := f } : LaneOut).Within rs := by
  simp [LaneOut.Within]

@[simp] theorem within_redOut (op : RedForm) (d : Nat) (r : Option RedVal) (rs : List Nat) :
    (redOut op d r).Within rs ↔ regsFrom d (redRegs op) ⊆ rs := by
  cases r <;> simp [redOut]

@[simp] theorem within_scanFlags (own : Option RedVal) (o : LaneOut) (rs : List Nat) : (scanFlags own o).Within rs ↔ o.Within rs := by
  cases own <;> rfl

theorem mem_words_v (o : LaneOut) (r : Nat) : Dest.v r ∈ o.words.map (fun e => e.1) ↔ ∃ y ∈ o.v, r ∈ regsFrom y.1 y.2.1 := by
  simp only [LaneOut.words, regsFrom, List.map_append, List.map_flatMap, List.map_map, List.mem_append, List.mem_flatMap, List.mem_map,
    Function.comp_def, Dest.v.injEq, reduceCtorEq, and_false, exists_false, or_false]

@[simp] theorem toV_vw (o : Opnds) (d n : Nat) : (o.toV d n).vw = o.vw ++ regsFrom d n := rfl
@[simp] theorem toP_vw (o : Opnds) (d : Nat) : (o.toP d).vw = o.vw := rfl
@[simp] theorem fromP_vw (o : Opnds) (p : Nat) : (o.fromP p).vw = o.vw := rfl

/-- A lane instruction writes no v register but the destinations that it names. -/
theorem laneSpec_within {i : Instr} {x : LaneForm} (h : LaneSpec i x) (s : State) (c : Ctx) (w : Warp) (l : Nat) :
    (x.val s c w l).Within x.o.vw := by
  cases h
  case xlane => simp [LaneOut.Within]
  case rng => simp [LaneOut.Within]
  case wscan g la ex op d a => cases ex <;> simp
  case eqmask g la t d a =>
    dsimp only
    split <;> simp
  all_goals simp [LaneForm.v1, LaneForm.v2, LaneForm.v3, LaneForm.f1, LaneForm.f2, LaneForm.f3, LaneForm.cv, LaneForm.p]

/-! ### What an instruction maps (R171, R185) -/

/-- Of the registers outside rs, no more are mapped in z than in w. -/
def Warp.MapsOnly (rs : List Nat) (w z : Warp) : Prop := ∀ r, r ∉ rs → z.isMapped r = true → w.isMapped r = true

namespace Warp.MapsOnly

variable {rs : List Nat}

theorem refl (w : Warp) : Warp.MapsOnly rs w w := fun _ _ h => h

theorem trans {a b c : Warp} (h : Warp.MapsOnly rs a b) (k : Warp.MapsOnly rs b c) : Warp.MapsOnly rs a c :=
  fun r hr hm => h r hr (k r hr hm)

theorem of_eq {w z : Warp} (h : z.mapped = w.mapped) : Warp.MapsOnly rs w z := fun r _ hm => by
  rwa [Warp.isMapped, h] at hm

theorem foldl {α : Type} (f : Warp → α → Warp) : ∀ (l : List α) (w : Warp), (∀ x ∈ l, ∀ w, Warp.MapsOnly rs w (f w x)) → Warp.MapsOnly rs w (l.foldl f w)
  | [], w, _ => refl w
  | x :: t, w, h => (h x List.mem_cons_self w).trans (foldl f t (f w x) fun y hy => h y (List.mem_cons_of_mem _ hy))

theorem vmap (w : Warp) {r : Nat} (hr : r ∈ rs) : Warp.MapsOnly rs w (w.vmap r) := fun j hj hm => by
  rwa [Warp.vmap_isMapped, if_neg (by rintro ⟨rfl, -⟩; exact hj hr)] at hm

theorem vput (w : Warp) {r : Nat} (hr : r ∈ rs) (l : Nat) (x : LaneVal) : Warp.MapsOnly rs w (w.vput r l x) := fun j hj hm => by
  rwa [Warp.vput_isMapped, if_neg (by rintro ⟨rfl, -⟩; exact hj hr)] at hm

theorem vputN (n : Nat) : ∀ (w : Warp) (r l x : Nat) (b : Bool), regsFrom r n ⊆ rs → Warp.MapsOnly rs w (w.vputN r n l x b) := by
  induction n with
  | zero => exact fun w _ _ _ _ _ => refl w
  | succ n ih =>
    intro w r l x b h
    have hfirst : r ∈ rs := h (by simp [regsFrom])
    have hrest : regsFrom (r + 1) n ⊆ rs := fun j hj => by
      obtain ⟨i, hi, rfl⟩ := List.mem_map.mp hj
      exact h (List.mem_map.mpr ⟨i + 1, by simpa using hi, by omega⟩)
    exact (vput w hfirst l _).trans (ih _ _ _ _ _ hrest)

theorem putOut (w : Warp) (l : Nat) {o : LaneOut} (h : o.Within rs) : Warp.MapsOnly rs w (w.putOut l o) := by
  refine (foldl _ o.v w fun y hy w => vputN y.2.1 w _ _ _ _ (h y hy)).trans ((foldl _ o.p _ fun y _ w => ?_).trans (of_eq rfl))
  exact of_eq (Warp.pput_mapped w _ _ _ _)

theorem mapDests {ds : List Dest} (w : Warp) (h : ∀ r, .v r ∈ ds → r ∈ rs) : Warp.MapsOnly rs w (mapDests w ds) :=
  foldl _ ds w fun d hd w => match d with
    | .v r => vmap w (h r hd)
    | .p _ => refl w
    | .s _ => refl w

/-- Behind a window the destinations are mapped at once, and their values come later (R185). -/
theorem deliver (w : Warp) (id la : Nat) (f : Nat → LaneOut) (ls : List Nat) (h : ∀ l, (f l).Within rs) :
    Warp.MapsOnly rs w (w.deliver id la (ls.map fun l => (l, f l))) := by
  by_cases hnow : la = 0 ∨ ls = []
  · rw [deliver_now _ _ _ _ (hnow.imp_right fun hl => by rw [hl]; rfl)]
    refine foldl _ _ w fun y hy w => ?_
    obtain ⟨l, -, rfl⟩ := List.mem_map.mp hy
    exact putOut w l (h l)
  · obtain ⟨hla, hls⟩ := not_or.mp hnow
    obtain ⟨l, t, rfl⟩ := List.exists_cons_of_ne_nil hls
    rw [deliver_later _ _ _ _ _ _ hla]
    refine (mapDests w fun r hr => ?_).trans (of_eq rfl)
    obtain ⟨y, hy, hr⟩ := (mem_words_v _ _).mp hr
    exact h l y hy hr

theorem poisonDests (w : Warp) (m : LaneMask) {o : Opnds} (h : o.vw ⊆ rs) : Warp.MapsOnly rs w (w.poisonDests m o) :=
  foldl _ _ w fun l _ w => (foldl _ o.vw w fun _ hr w => vput w (h hr) l _).trans
    (foldl _ o.pw _ fun r _ w => of_eq (Warp.ppoisonAt_mapped w r l))

theorem vfree (w : Warp) (r : Nat) : Warp.MapsOnly rs w (w.vfree r) := fun j _ hm => by
  have hset : (setBit256 w.mapped r false).getLsbD j = true := hm
  rw [setBit256_get] at hset
  split at hset
  · cases hset
  · exact hset

theorem lastUse (w : Warp) (lim : Nat) (o : Opnds) (done : LaneMask) : Warp.MapsOnly rs w (w.lastUse lim o done) :=
  foldl _ _ w fun r _ w => by
    split
    · exact of_eq rfl
    · exact vfree w r

end Warp.MapsOnly

/-- Delivery, poisoned guards and last-use bits map destinations alone. -/
theorem out_mapsOnly (sn pt : List (Nat × LaneMask)) (x : LaneForm) (id : Nat) {f : Nat → LaneOut} (act pg : LaneMask) (w : Warp)
    (h : ∀ l, (f l).Within x.o.vw) : Warp.MapsOnly x.o.vw w (x.out sn pt id f act pg w) :=
  ((Warp.MapsOnly.deliver w id x.la f _ h).trans (.poisonDests _ pg (List.Subset.refl _))).trans (.lastUse _ _ _ _)

/-! ### The events of an instruction (R49, R173) -/

theorem tgetD_count (s : State) (v : Ev) (n : Nat) : tgetD (s.count v n).events v.code 0 = tgetD s.events v.code 0 + n := by
  unfold State.count
  split
  · next hn => simp [hn]
  · simp

theorem tgetD_count_other (s : State) {v v' : Ev} (h : v'.code ≠ v.code) (n : Nat) :
    tgetD (s.count v n).events v'.code 0 = tgetD s.events v'.code 0 := by
  unfold State.count
  split
  · rfl
  · exact tgetD_tset_other _ _ _ h

/-- With an active lane and nothing spilled, one event for each source register that is not mapped. -/
theorem counted_unmappedRead (s : State) {w : Warp} (o : Opnds) {act : LaneMask} (ha : act ≠ 0) (hs : w.spilled = 0) :
    tgetD (s.counted w o act).events Ev.unmappedRead.code 0 =
      tgetD s.events Ev.unmappedRead.code 0 + (o.vr.filter fun r => !(w.isMapped r)).length := by
  have hunspilled : ∀ r, w.isSpilled r = false := fun r => by simp [Warp.isSpilled, hs]
  rw [State.counted, if_neg ha, tgetD_count_other _ (by decide), tgetD_count]
  simp [hunspilled]

/-! ### The state of a lane instruction in a calm split -/

theorem laterOf_own {la id : Nat} {f : Nat → LaneOut} {act : LaneMask} {r : Result} (h : r ∈ laterOf la id f act) :
    id ≤ r.id ∧ r.lanes ≠ [] ∧ ∀ l ∈ r.lanes, (l.2.left == 0 && l.2.vals.isSome) = false := by
  unfold laterOf at h
  split at h
  · cases h
  · next hla =>
    split at h
    · cases h
    · cases List.mem_singleton.mp h
      refine ⟨Nat.le_refl _, by simp, fun l hl => ?_⟩
      obtain ⟨k, -, rfl⟩ := List.mem_map.mp hl
      simp [hla]

/-- With no lane parked, trapped or held back, the last-use bits act at once (R172). -/
theorem spent_calm {w : Warp} (h : w.heldFrees = []) (lim : Nat) (e : Entry) (o : Opnds) (done : LaneMask) :
    w.spent lim e o [] done = w.lastUse lim o done := by
  have hnone : ∀ p, fateLanes [] p = 0 := fun _ => rfl
  simp only [Warp.spent, hnone, mask_full]
  exact lastUseHeld_calm w lim e.pc o e.mask done h

/-- The warp after delivery and poisoned guards. -/
def LaneForm.written (x : LaneForm) (id : Nat) (f : Nat → LaneOut) (act pg : LaneMask) (w : Warp) : Warp :=
  (w.deliver id x.la ((lanesOf act).map fun l => (l, f l))).poisonDests pg x.o

theorem heldFrees_written (x : LaneForm) (id : Nat) (f : Nat → LaneOut) (act pg : LaneMask) {w : Warp} (hr : w.results = []) :
    (x.written id f act pg w).heldFrees = w.heldFrees := by
  obtain ⟨hdel, -⟩ := deliver_law w id x.la f act hr
  exact (regsOnly_poisonDests _ pg x.o).heldFrees.trans (by rw [hdel])

/-- The flags that are raised stand apart from the last-use bits. -/
theorem spent_raise_written (sn pt : List (Nat × LaneMask)) (x : LaneForm) (id now lat : Nat) (f : Nat → LaneOut) (fl : Word) (act pg : LaneMask) {w : Warp}
    (e : Entry) (hr : w.results = []) (hh : w.heldFrees = []) :
    ((x.written id f act pg w).raise now lat fl).spent id e (x.issued sn pt) [] (act ||| pg) =
      { x.out sn pt id f act pg w with due := ((x.written id f act pg w).raise now lat fl).due } := by
  have hraise := raise_eq (w := x.written id f act pg w) now lat fl rfl
  have hheld : ((x.written id f act pg w).raise now lat fl).heldFrees = [] :=
    (congrArg Warp.heldFrees hraise).trans ((heldFrees_written x id f act pg hr).trans hh)
  rw [spent_calm hheld]
  exact (congrArg (fun z : Warp => z.lastUse id (x.issued sn pt) (act ||| pg)) hraise).trans (lastUse_due _ _ _ _ _)

/-- The results that a lane instruction leaves are its own. -/
theorem ownResults_out (sn pt : List (Nat × LaneMask)) (x : LaneForm) (id : Nat) (f : Nat → LaneOut) {act pg : LaneMask} {w : Warp}
    (hr : w.results = []) (hs : w.spilled = 0) (hd : act &&& pg = 0) : (x.out sn pt id f act pg w).ownResults id := by
  obtain ⟨-, hlater, -⟩ := out_law sn pt x id f act pg w hr hs hd
  intro r h
  rw [hlater] at h
  exact laterOf_own h

/-- The body of a lane instruction counts no event, and writes its warp. -/
theorem laneBody_law (x : LaneForm) {b : State} {c : Ctx} {w : Warp} (h : b.warp? c.g = some w) :
    ∃ u now lat fl, laneBody x.o x.la x.val b c = (u, []) ∧ u.events = b.events ∧
      u.warp? c.g = some ((x.written b.nextId (x.val b c w) c.act c.pg w).raise now lat fl) :=
  ⟨_, _, _, _, laneBody_some h, rfl, (warp?_modWarp _ _ _).trans (congrArg _ h)⟩

/-- The state in which the body of a lane instruction runs in a calm split. -/
def LaneForm.began (x : LaneForm) (s : State) (g : Nat) (w : Warp) (e : Entry) : State := (s.counted w x.o (laneCtx g w e x.g).act).begun g e

/-- The warp of a lane instruction in a calm split before the frontier moves. -/
def LaneForm.outIn (x : LaneForm) (sn pt : List (Nat × LaneMask)) (s : State) (g : Nat) (w : Warp) (e : Entry) : Warp :=
  x.out sn pt (x.began s g w e).nextId (x.val (x.began s g w e) (laneCtx g w e x.g) (w.marked e.eid)) (laneCtx g w e x.g).act
    (laneCtx g w e x.g).pg (w.marked e.eid)

/-- A lane instruction in a calm split counts the events of its operands and no others. -/
theorem laneOp_next (sn pt : List (Nat × LaneMask)) (x : LaneForm) (hrel : x.o.rel = 0) (hhome : x.o.home = []) {s : State} {g : Nat} {w : Warp}
    {e : Entry} (hc : Calm s g w e) (hroom : Room s g w x.o) :
    ∃ (u : State) (d : List (Nat × Word)), laneOp s x.g x.la { x.o with seen := sn, put := pt } x.val = .next (u.passed g e) ∧
      u.events = (s.counted w x.o (laneCtx g w e x.g).act).events ∧ u.warp? g = some { x.outIn sn pt s g w e with due := d } := by
  obtain ⟨u, now, lat, fl, hbody, hevents, hw⟩ := laneBody_law x (b := x.began s g w e) (c := laneCtx g w e x.g) (warp?_began hc.warp _ _)
  have hspent := spent_raise_written sn pt x (x.began s g w e).nextId now lat (x.val (x.began s g w e) (laneCtx g w e x.g) (w.marked e.eid)) fl
    (laneCtx g w e x.g).act (laneCtx g w e x.g).pg (w := w.marked e.eid) e hc.results hc.held
  have hown : (x.outIn sn pt s g w e).ownResults (x.began s g w e).nextId :=
    ownResults_out sn pt x _ _ (w := w.marked e.eid) hc.results hc.spilled (guardLanes_disjoint w x.g e.mask)
  have hnext : laneOp s x.g x.la { x.o with seen := sn, put := pt } x.val = .next ((u.modWarp g fun z =>
      z.spent (x.began s g w e).nextId e (x.issued sn pt) [] ((laneCtx g w e x.g).act ||| (laneCtx g w e x.g).pg)).stepped g e []) :=
    issueLane_calm hc (kind := .poisons) (o := { x.o with async := x.la != 0, seen := sn, put := pt }) (.inl hrel) (homeOpen_none s g hhome)
      hroom (congrArg (·.begun g e) (engaged_none _ _ hhome).symm) hbody hw (hspent.symm ▸ hown)
  rw [stepped_nil] at hnext
  exact ⟨_, _, hnext, hevents, (warp?_modWarp _ _ _).trans ((congrArg _ hw).trans (congrArg some hspent))⟩

/-- The tests of the frontier map nothing. -/
theorem mapped_stepped (w : Warp) (e : Entry) (now : Nat) : (((w.aged e.eid now).stepOff e 0).tidy).mapped = w.mapped := by
  rw [stepped_frame]

/-- Settles O11: the one count of an issue is that of its operands, and it maps its destinations alone. -/
theorem unmappedRead : Obligations.UnmappedRead := by
  unfold Obligations.UnmappedRead
  refine ⟨Warp.vget_unmapped, fun i x s g w e h hc ha hroom => ?_⟩
  obtain ⟨sn, pt, hrun⟩ := laneSpec_run h s
  obtain ⟨u, d, hnext, hevents, hw⟩ := laneOp_next sn pt x (laneSpec_rel h) (laneSpec_home h) hc hroom
  have hmaps : Warp.MapsOnly x.o.vw w (x.outIn sn pt s g w e) := out_mapsOnly sn pt x _ _ _ _ fun l => laneSpec_within h _ _ _ l
  refine ⟨_, _, hrun.trans hnext, passed_warp u g e _ hw, ?_, fun r _ hr hm => ?_⟩
  · rw [(passed_onlyWarp u g e).2, hevents]
    exact counted_unmappedRead s x.o ha hc.spilled
  · rw [Warp.isMapped, mapped_stepped] at hm
    exact hmaps r hr hm

end Sys2Proof.Machine

namespace Sys2Proof.Machine

/-! ## The uniform instructions that change their warp alone, and false guards (R205, R172) -/

section
variable {s b u : State} {g : Nat} {w : Warp} {e : Entry} {c : Ctx} {i : Instr} {gd : Guard} {o : Opnds} {fs : Fates}

/-- A uniform instruction that changes its warp alone makes its own change of the warp under a true guard, and none under a false one. -/
theorem UniSpec.completes {x : UniForm} (h : UniSpec i x) (hc : Calm s g w e) :
    (w.uniTrue x.g → exec i s = .next ((s.modWarp g (x.f s (uniCtx g e))).passed g e)) ∧
      (¬ w.uniTrue x.g → exec i s = .next (s.passed g e)) := by
  obtain ⟨o, ⟨hrel, hvr, hvw, hlu, hhome⟩, hrun⟩ := uniSpec_run h
  rw [hrun]
  exact ⟨fun hg => uniOp_calm hc x o (uniSpec_blind h) hg hrel hvr hvw hlu hhome, fun hg => issueUni_false hc hg (.inl hrel) hlu⟩

/-- Settles O19: each form runs as `uniOp` with operands that name no v register, no level and no home. -/
theorem uniformResults : Obligations.UniformResults := by
  unfold Obligations.UniformResults
  exact fun i x s g w e h hc => h.completes hc

theorem regsOnly_lastUse (lim : Nat) (o : Opnds) (done : LaneMask) (hr : w.results = []) (hs : w.spilled = 0) : RegsOnly w (w.lastUse lim o done) := by
  rw [lastUse_eq _ _ _ _ (by simp [hr])]
  exact regsOnly_freeAll _ _ _ _ hs

/-- Where no lane's destination has been written, the last-use bits free whole registers (R172). -/
theorem lastUse_unwritten (lim : Nat) (o : Opnds) (hr : w.results = []) : w.lastUse lim o 0 = o.lu.dedup.foldl Warp.vfree w := by
  have hstep : freeStep o 0 = Warp.vfree := by
    funext w r
    simp [freeStep]
  rw [lastUse_eq _ _ _ _ (by simp [hr]), hstep]

theorem regsOnly_vfrees (hs : w.spilled = 0) (rs : List Nat) : RegsOnly w (rs.foldl Warp.vfree w) :=
  regsOnly_freeAll {} 0 rs w hs

theorem vfrees_marked (k : Nat) (rs : List Nat) (w : Warp) : rs.foldl Warp.vfree (w.marked k) = (rs.foldl Warp.vfree w).marked k :=
  List.foldl_hom (Warp.marked · k) (fun _ _ => rfl)

/-- The last-use bits of an instruction that has written nothing act through the mark of its entry. -/
theorem modWarp_lastUse_markedAt (hc : Calm s g w e) (lim : Nat) (o : Opnds) :
    (s.markedAt g e.eid).modWarp g (fun w => w.lastUse lim o 0) = (s.modWarp g fun w => o.lu.dedup.foldl Warp.vfree w).markedAt g e.eid := by
  have hlast : (w.marked e.eid).lastUse lim o 0 = (o.lu.dedup.foldl Warp.vfree w).marked e.eid := by
    rw [lastUse_unwritten (w := w.marked e.eid) _ _ hc.results, vfrees_marked]
  rw [State.markedAt, State.markedAt, modWarp_modWarp, modWarp_modWarp]
  exact modWarp_congr hc.warp hlast

/-- Finishing the issue of a body that did nothing, with no lane active. -/
theorem finishBody_idle (hc : Calm s g w e) (lim : Nat) (o : Opnds) (lanes : LaneMask) :
    finishBody lim g e o lanes 0 0 (s.markedAt g e.eid, preFates .own 0 ++ []) = (s.modWarp g fun w => o.lu.dedup.foldl Warp.vfree w).passed g e := by
  have hw : (s.markedAt g e.eid).warp? g = some (w.marked e.eid) := warp?_begun hc.warp
  have hresults : (w.marked e.eid).results = [] := hc.results
  have hspilled : (w.marked e.eid).spilled = 0 := hc.spilled
  rw [finishBody_plain (w := w.marked e.eid) ownFates hw hc.held (by simp [hresults]) fun m => (regsOnly_lastUse _ _ m hresults hspilled).results,
    show (0 ||| 0 : LaneMask) = 0 from rfl, modWarp_lastUse_markedAt hc]
  refine passed_markedAt _ g e fun v hv => ?_
  rw [warp?_modWarp, hc.warp] at hv
  obtain rfl := Option.some.inj hv
  rw [(regsOnly_vfrees hc.spilled _).entries]
  exact hc.alone

/-- Under a false guard nothing of an instruction acts but its last-use bits. -/
theorem issueUni_idle {body : Body} (hc : Calm s g w e) (hg : ¬ w.uniTrue gd) (hrel : o.rel = 0 ∨ relMet s g o.rel e.mask = true) :
    issueUni s gd o body = .next ((s.modWarp g fun w => o.lu.dedup.foldl Warp.vfree w).passed g e) := by
  have hsel := uniSel_false hg e.mask
  have hcount : s.counted w (o.under s gd) 0 = s := if_pos rfl
  have hbody : uniBody body (s.markedAt g e.eid) { g := g, e := e, lanes := e.mask, act := 0, pg := 0 } = (s.markedAt g e.eid, []) := if_pos rfl
  have hfinish := finishBody_idle hc s.nextId (o.under s gd) e.mask
  rw [under_lu] at hfinish
  rw [issueUni_eq, issueCore_local hc _ _ _ _ (by rwa [under_rel]) (under_false hc hg o) (.inl ⟨by rw [hsel], fun h => by cases h⟩), hsel, own_pg,
    hcount, runBody]
  exact congrArg _ ((congrArg (fun z : State × Fates => finishBody _ g e _ _ 0 0 (z.1, _ ++ z.2)) hbody).trans hfinish)

theorem CopyInstr.posts {k : CopyKind} {a : Nat} (h : CopyInstr i gd k a) : exec i s = postCopy s gd k a := by
  cases h <;> rfl

theorem MatrixInstr.posts {sr : List Nat} {check : MatCheck} (h : MatrixInstr i gd sr check) : exec i s = postMatrix s gd sr check := by
  cases h <;> rfl

/-- Whatever its effect would be, the instruction issues as a uniform one. -/
theorem UniEffect.issues {w' : Warp} (h : UniEffect s b w' c i gd o u fs) : ∃ body, exec i s = issueUni s gd o body := by
  cases h with
  | copy i g k a blk l r hi hr hq => exact ⟨_, hi.posts⟩
  | copyFull i g k a blk l r hi hr hq => exact ⟨_, hi.posts⟩
  | matrix i g sr check blk l m hi hb hl hc hq => exact ⟨_, hi.posts⟩
  | matrixFull i g sr check blk l m hi hb hl hc hq => exact ⟨_, hi.posts⟩
  | _ => exact ⟨_, rfl⟩

theorem firmwareOnly_inside {run : Host.Outcome State Fault Refusal} (hc : Calm s g w e) (hf : inFirmware s g = true) :
    firmwareOnly s i run = run := by
  rw [firmwareOnly, hc.split]
  exact if_pos hf

/-- In firmware context so does one of the firmware's, and it names no level and no last use (R438). -/
theorem FirmwareEffect.issues {w' : Warp} (h : FirmwareEffect b w' c i gd o u) (hc : Calm s g w e) (hf : inFirmware s g = true) :
    o.rel = 0 ∧ o.lu = [] ∧ ∃ body, exec i s = issueUni s gd o body := by
  cases h
  · exact ⟨rfl, rfl, _, firmwareOnly_inside hc hf⟩
  · exact ⟨rfl, rfl, _, firmwareOnly_inside hc hf⟩
  · exact ⟨rfl, rfl, _, firmwareOnly_inside hc hf⟩

end

/-- Settles O21: each instruction issues as a uniform one, whose last-use bits alone act under a false guard. -/
theorem falseUniformGuard : Obligations.FalseUniformGuard := by
  unfold Obligations.FalseUniformGuard
  refine ⟨fun s b g w w' e i gd o u fs h hc hg hrel hlu => ?none, fun s b g w w' e i gd o u fs h hc hg hrel _ => ?some,
    fun s b g w w' e i gd o u h hc hf hg => ?firmware⟩
  case none =>
    obtain ⟨body, hi⟩ := h.issues
    exact hi.trans (issueUni_false hc hg hrel hlu)
  case some =>
    obtain ⟨body, hi⟩ := h.issues
    exact hi.trans (issueUni_idle hc hg hrel)
  case firmware =>
    obtain ⟨hrel, hlu, body, hi⟩ := h.issues hc hf
    exact hi.trans (issueUni_false hc hg (.inl hrel) hlu)

end Sys2Proof.Machine

namespace Sys2Proof.Machine

/-! ## Words of uniform group 0x0 (R38, R209, R213, R215) -/

section
variable {gd : Guard} {ix d a b mod q : Nat}

/-- A word of format U in group 0x0. -/
theorem encU_group0 (hg : gd.n < 8) (hx : ix < 64) (hd : d < 256) (ha : a < 256) (hb : b < 256) (hm : mod < 128) :
    VWord (encU 0 ix gd d a b 0 mod) 1 0 ix gd 0 d (a * 4) (b * 4) 0 mod :=
  .mk' (by decide) (by decide) hx hg (by decide) hd (by omega) (by omega) (by decide) hm

/-- A number of three bits lies in the low bits of its field, and the bits above are zero (R209). -/
theorem nbits_low3 {n lo k : Nat} (h : nbits n lo 8 = k) (hk : k < 8) : nbits n lo 3 = k ∧ nbits n (lo + 3) 3 = 0 := by
  unfold nbits at *
  rw [Nat.pow_add, ← Nat.div_div_eq_div_mul]
  generalize n / 2 ^ lo = m at *
  omega

/-- A q register's number lies in the low bits of MOD, and the bits above are zero (R213). -/
theorem nbits_mod_q {n : Nat} (h : nbits n 0 7 = q) (hq : q < 8) : nbits n 0 3 = q ∧ nbits n 3 4 = 0 := by
  unfold nbits at *
  omega

/-- UMOV in form mod: its opcode, MOD, DEST and SRCA. -/
theorem encU_umov (hg : gd.n < 8) (hd : d < 256) (ha : a < 256) (hm : mod < 4) :
    nbits (encU 0 0 gd d a 0 0 mod) 53 11 = 0x400 ∧ nbits (encU 0 0 gd d a 0 0 mod) 0 7 = mod ∧ nbits (encU 0 0 gd d a 0 0 mod) 37 8 = d ∧
      nbits (encU 0 0 gd d a 0 0 mod) 29 8 = a := by
  have h := encU_group0 (ix := 0) (b := 0) (mod := mod) hg (by decide) hd ha (by decide) (by omega)
  exact ⟨head_opcode h.head, h.fmod, h.fd, h.fra ha⟩

/-- A word of group 0x0 whose MOD field its instruction does not have is no instruction (R43). -/
theorem decodeWord_uniform_none {w : DWord} (ho : nbits w.toNat 53 11 = 0x400 + ix) (ha : opcodeAssigned true 0 ix = true) (hx : ix < 64)
    (hb : buildUni0 ix w.toNat = none) : decodeWord w = .error .illegalEncoding := by
  have hset : fld w.toNat 63 1 = 1 := by unfold nbits at ho; unfold fld; omega
  have hgrp : fld w.toNat 59 4 = 0 := by unfold nbits at ho; unfold fld; omega
  have hix : fld w.toNat 53 6 = ix := by unfold nbits at ho; unfold fld; omega
  have hassigned : opcodeAssigned (boolOf 1) 0 ix = true := ha
  have hbuild : buildInstr (boolOf 1) 0 ix w.toNat = none := hb
  rw [decodeWord, decodeNat]
  simp only [hset, hgrp, hix, hassigned, hbuild, if_true]

/-- UMOV has four forms. -/
theorem buildUni0_umov_none {n : Nat} (h : nbits n 2 5 ≠ 0) : buildUni0 0 n = none := by
  have hm : 4 ≤ W.mod n := by unfold nbits at h; unfold W.mod fld; omega
  obtain ⟨k, hk⟩ := Nat.exists_eq_add_of_le' hm
  simp [buildUni0, hk]

/-- USEL and its UI form name a q register alone in MOD. -/
theorem buildUni0_usel_none {n : Nat} (h : nbits n 3 4 ≠ 0) : buildUni0 11 n = none ∧ buildUni0 43 n = none := ⟨if_neg h, if_neg h⟩

/-- S2V has W64 alone in MOD. -/
theorem buildUni0_s2v_none {n : Nat} (h0 : nbits n 0 7 ≠ 0) (h16 : nbits n 0 7 ≠ 16) : buildUni0 13 n = none :=
  if_neg fun h => by unfold nbits at h0 h16; unfold fld at h; omega

end

/-- Settles O25: the words of the four forms, and what each makes of the warp. -/
theorem umovMoves : Obligations.UmovMoves := by
  unfold Obligations.UmovMoves
  refine ⟨fun gd d a n hwf hn => ?umov, fun gd d a n hwf hn => ?umovQ, fun gd d a n hwf hn => ?umovQ2s, fun gd d a n hwf hn => ?umovS2q,
    fun w ho hm => decodeWord_uniform_none (ix := 0) ho rfl (by decide) (buildUni0_umov_none hm), fun s g w e gd d a hc hg => ?moves⟩
  case umov =>
    obtain rfl := Option.some.inj hn
    simp only [Instr.wellFormed, Bool.and_eq_true] at hwf
    obtain ⟨⟨hg, hd⟩, ha⟩ := hwf
    have hd := Laws.wfS hd
    have ha := Laws.wfS ha
    exact encU_umov (Laws.wfG hg) (by omega) (by omega) (by decide)
  case umovQ =>
    obtain rfl := Option.some.inj hn
    simp only [Instr.wellFormed, Bool.and_eq_true] at hwf
    obtain ⟨⟨hg, hd⟩, ha⟩ := hwf
    have hd := Laws.wfP hd
    have ha := Laws.wfP ha
    obtain ⟨ho, hm, hfd, hfa⟩ := encU_umov (mod := 1) (Laws.wfG hg) (show d < 256 by omega) (show a < 256 by omega) (by decide)
    obtain ⟨hd3, hd0⟩ := nbits_low3 hfd hd
    obtain ⟨ha3, ha0⟩ := nbits_low3 hfa ha
    exact ⟨ho, hm, hd3, hd0, ha3, ha0⟩
  case umovQ2s =>
    obtain rfl := Option.some.inj hn
    simp only [Instr.wellFormed, Bool.and_eq_true] at hwf
    obtain ⟨⟨hg, hd⟩, ha⟩ := hwf
    have hd := Laws.wfS hd
    have ha := Laws.wfP ha
    obtain ⟨ho, hm, hfd, hfa⟩ := encU_umov (mod := 2) (Laws.wfG hg) (show d < 256 by omega) (show a < 256 by omega) (by decide)
    exact ⟨ho, hm, hfd, nbits_low3 hfa ha⟩
  case umovS2q =>
    obtain rfl := Option.some.inj hn
    simp only [Instr.wellFormed, Bool.and_eq_true] at hwf
    obtain ⟨⟨hg, hd⟩, ha⟩ := hwf
    have hd := Laws.wfP hd
    have ha := Laws.wfS ha
    obtain ⟨ho, hm, hfd, hfa⟩ := encU_umov (mod := 3) (Laws.wfG hg) (show d < 256 by omega) (show a < 256 by omega) (by decide)
    obtain ⟨hd3, hd0⟩ := nbits_low3 hfd hd
    exact ⟨ho, hm, hd3, hd0, hfa⟩
  case moves =>
    refine ⟨(uniformResults _ _ _ _ _ _ (.umov gd d a) hc).1 hg, (uniformResults _ _ _ _ _ _ (.umovQ gd d a) hc).1 hg,
      (uniformResults _ _ _ _ _ _ (.umovQ2s gd d a) hc).1 hg, ?_⟩
    have h := (uniformResults _ _ _ _ _ _ (.umovS2q gd d a) hc).1 hg
    have hnonzero : ∀ x : DWord, (x != 0) = decide (x ≠ 0) := fun _ => (decide_not ..).symm
    simpa only [UniForm.q, hnonzero] using h

/-- A 20-bit immediate of a UI form is sign-extended (R32). -/
theorem uniImm_signExtend {imm : Nat} (h : imm < 2 ^ 20) : uniImm imm = (BitVec.ofNat 20 imm).signExtend 64 := by
  have hmod : imm % 2 ^ 20 = imm := Nat.mod_eq_of_lt h
  refine BitVec.eq_of_toNat_eq ?_
  rw [uniImm, immInt, BitVec.toNat_signExtend, BitVec.msb_eq_decide, BitVec.toNat_setWidth, BitVec.toNat_ofNat, BitVec.toNat_ofNat, hmod]
  by_cases hi : imm < 2 ^ 19
  · have hpos : ¬ 2 ^ (20 - 1) ≤ imm := Nat.not_le.mpr hi
    rw [if_pos hi, if_neg (by simpa using hpos)]
    omega
  · have hneg : 2 ^ (20 - 1) ≤ imm := Nat.not_lt.mp hi
    rw [if_neg hi, if_pos (by simpa using hneg)]
    omega

/-- Settles O26: the words of both forms, and the operand that the q register chooses. -/
theorem uselSelects : Obligations.UselSelects := by
  unfold Obligations.UselSelects
  refine ⟨fun gd q d a b n hwf hn => ?usel, fun gd q d a imm n hwf hn => ?uselUi, fun w ho hm => ?mod,
    fun s g w e gd q d a b imm hc hg => ⟨(uniformResults _ _ _ _ _ _ (.usel gd q d a b) hc).1 hg, fun hi => ?immediate⟩⟩
  case usel =>
    obtain rfl := Option.some.inj hn
    simp only [Instr.wellFormed, Bool.and_eq_true] at hwf
    obtain ⟨⟨⟨⟨hg, hq⟩, hd⟩, ha⟩, hb⟩ := hwf
    have hq := Laws.wfP hq
    have hd := Laws.wfS hd
    have ha := Laws.wfS ha
    have hb := Laws.wfS hb
    have h := encU_group0 (ix := 11) (mod := q) (Laws.wfG hg) (by decide) (show d < 256 by omega) (show a < 256 by omega) (show b < 256 by omega)
      (by omega)
    exact ⟨head_opcode h.head, nbits_mod_q h.fmod hq⟩
  case uselUi =>
    obtain rfl := Option.some.inj hn
    simp only [Instr.wellFormed, Bool.and_eq_true] at hwf
    obtain ⟨⟨⟨⟨hg, hq⟩, hd⟩, ha⟩, hi⟩ := hwf
    have hq := Laws.wfP hq
    have hd := Laws.wfS hd
    have ha := Laws.wfS ha
    have h := VIWord.mk' (set := 1) (grp := 0) (ix := 43) (la := 0) (mod := q) (by decide) (by decide) (by decide) (Laws.wfG hg) (by decide)
      (show d < 256 by omega) (show a * 4 < 1024 by omega) (Laws.wfI20 hi) (by omega)
    obtain ⟨hq, hz⟩ := nbits_mod_q h.fmod hq
    exact ⟨head_opcode h.head, hq, hz, h.fimm⟩
  case mod =>
    obtain ⟨husel, huselUi⟩ := buildUni0_usel_none hm
    rcases ho with ho | ho
    · exact decodeWord_uniform_none (ix := 11) ho rfl (by decide) husel
    · exact decodeWord_uniform_none (ix := 43) ho rfl (by decide) huselUi
  case immediate =>
    rw [← uniImm_signExtend hi]
    exact (uniformResults _ _ _ _ _ _ (.uselUi gd q d a imm) hc).1 hg

end Sys2Proof.Machine

namespace Sys2Proof.Machine

/-! ## Writing one value to every lane of a split (R215) -/

/-- A group of n v registers receives a value in the lanes of m. -/
def Warp.spread (w : Warp) (d n x : Nat) (m : LaneMask) : Warp := (lanesOf m).foldl (fun (v : Warp) l => v.vputN d n l x false) w

theorem putOut_vout (w : Warp) (l d n x : Nat) (p : Bool) : w.putOut l (vout d n x p) = w.vputN d n l x p := by
  have hflags : (w.vputN d n l x p).fflags ||| 0 = (w.vputN d n l x p).fflags := BitVec.or_zero
  simp only [Warp.putOut, vout, List.foldl_cons, List.foldl_nil, hflags]

/-- It is what a lane instruction delivers that makes the value in each lane. -/
theorem spread_eq_deliver (w : Warp) (d n x : Nat) (m : LaneMask) (id : Nat) :
    w.spread d n x m = w.deliver id 0 ((lanesOf m).map fun l => (l, vout d n x false)) := by
  rw [deliver_now _ _ _ _ (.inl rfl), List.foldl_map]
  simp only [putOut_vout, Warp.spread]

theorem vAt_vout (d n x : Nat) (p : Bool) (r : Nat) : (vout d n x p).vAt r =
    if d ≤ r ∧ r < d + n then some { bits := BitVec.ofNat 32 (x / 2 ^ (32 * (r - d))), poison := p } else none := by
  by_cases h : d ≤ r ∧ r < d + n <;> simp [LaneOut.vAt, vout, h]

/-- The two words of a value, and the registers that receive them. -/
theorem vAt_vout_dword (d r : Nat) (w64 : Bool) (x : DWord) : (vout d (if w64 then 2 else 1) x.toNat false).vAt r =
    if r = d then some { bits := x.extractLsb' 0 32, poison := false }
    else if w64 = true ∧ r = d + 1 then some { bits := x.extractLsb' 32 32, poison := false }
    else none := by
  have hword : ∀ k, x.extractLsb' k 32 = BitVec.ofNat 32 (x.toNat / 2 ^ k) := fun k => by
    rw [BitVec.extractLsb', Nat.shiftRight_eq_div_pow]
  rw [vAt_vout, hword, hword]
  by_cases hlow : r = d
  · subst hlow
    cases w64 <;> simp
  by_cases hhigh : r = d + 1
  · subst hhigh
    cases w64 <;> simp
  have hout : ¬ (d ≤ r ∧ r < d + if w64 then 2 else 1) := by
    cases w64 <;> simp <;> omega
  rw [if_neg hout, if_neg hlow, if_neg fun h => hhigh h.2]

theorem pget_spread (w : Warp) (d n x : Nat) (m : LaneMask) (r l : Nat) :
    (w.spread d n x m).pget r l = w.pget r l ∧ (w.spread d n x m).ppoison r l = w.ppoison r l := by
  unfold Warp.spread
  induction lanesOf m generalizing w with
  | nil => exact ⟨rfl, rfl⟩
  | cons k ks ih =>
    obtain ⟨hbit, hpoison⟩ := ih (w.vputN d n k x false)
    obtain ⟨hbit', hpoison'⟩ := pget_vputN n w d k x false r l
    exact ⟨hbit.trans hbit', hpoison.trans hpoison'⟩

section
variable {s : State} {g : Nat} {w : Warp} {e : Entry}

/-- What spreading a value leaves, and what the lanes read afterwards. -/
theorem spread_law (w : Warp) (d n x : Nat) (m : LaneMask) (hr : w.results = []) :
    ResOnly w (w.spread d n x m) ∧ (w.spread d n x m).results = [] ∧ (w.spread d n x m).fflags = w.fflags ∧
    (∀ r l, r < 256 → l < 32 → (w.spread d n x m).vget r l =
      if m.getLsbD l = true ∧ r < w.ceil then ((vout d n x false).vAt r).getD (w.vget r l) else w.vget r l) ∧
    ∀ r l, (w.spread d n x m).pget r l = w.pget r l ∧ (w.spread d n x m).ppoison r l = w.ppoison r l := by
  obtain ⟨honly, hres, hflags, hv, -⟩ := deliver_law w 0 0 (fun _ => vout d n x false) m hr
  rw [← spread_eq_deliver] at honly hres hflags
  simp only [← spread_eq_deliver, true_and] at hv
  refine ⟨honly, hres, hflags.trans ?_, hv, fun r l => pget_spread w d n x m r l⟩
  simp [vout]

/-- An instruction without last-use bits, after whose body no result is outstanding: the split goes on. -/
theorem finishBody_quiet {lim : Nat} {o : Opnds} {lanes act pg : LaneMask} {u : State} (hw : u.warp? g = some w) (hh : w.heldFrees = [])
    (hr : w.results = []) (hlu : o.lu = []) : finishBody lim g e o lanes act pg (u, []) = u.passed g e := by
  have hlast : ∀ m, w.lastUse lim o m = w := fun m => lastUse_none w lim o m hlu
  have hstay : (u.modWarp g fun w => w.lastUse lim o (act ||| pg)) = u := modWarp_id hw (hlast _)
  rw [finishBody_plain (by simp) hw hh (by simp [hr]) fun m => by rw [hlast]]
  exact congrArg (·.passed g e) hstay

/-- Counting operands and changing its own warp, an instruction whose split goes on changes no other. -/
theorem onlyWarp_passed (o : Opnds) (act : LaneMask) (f : Warp → Warp) :
    OnlyWarp s ((((s.counted w o act).begun g e).modWarp g f).passed g e) g := by
  obtain ⟨hframe, hother⟩ := (passed_onlyWarp (((s.counted w o act).begun g e).modWarp g f) g e).1
  obtain ⟨ev, hev⟩ : ∃ ev, s.counted w o act = { s with events := ev } := ⟨_, counted_eq s w o act⟩
  rw [hev] at hframe hother ⊢
  refine ⟨hframe, fun h hn => (hother h hn).trans ?_⟩
  exact (warp?_modWarp_other _ f hn).trans (warp?_modWarp_other _ _ hn)

/-- The operands of S2V. -/
def s2vOpnds (w64 : Bool) (d a : Nat) : Opnds := { sr := [a], vw := regsFrom d (if w64 then 2 else 1) }

/-- S2V with a true guard: the value is spread over the split, which goes on. -/
theorem exec_s2v {gd : Guard} {w64 : Bool} {d a : Nat} (hc : Calm s g w e) (hg : w.uniTrue gd) (hroom : Room s g w (s2vOpnds w64 d a)) :
    ∃ t now, exec (.s2v gd w64 d a) s = .next t ∧ OnlyWarp s t g ∧ t.warp? g =
      some (((((w.marked e.eid).spread d (if w64 then 2 else 1) (w.sget a).toNat e.mask).aged e.eid now).stepOff e 0).tidy) := by
  have hw := warp?_began hc.warp (e := e) (s2vOpnds w64 d a) e.mask
  have hrun := uniformEffects s _ g w _ e _ gd _ _ _ hc (congrArg (·.begun g e) (engaged_none _ _ rfl).symm) hw (.s2v gd w64 d a) hg (.inl rfl) rfl
    hroom
  have hspread := (warp?_modWarp ((s.counted w (s2vOpnds w64 d a) e.mask).begun g e) g fun w' =>
    w'.spread d (if w64 then 2 else 1) (w.sget a).toNat e.mask).trans (congrArg _ hw)
  obtain ⟨honly, hres, -⟩ := spread_law (w.marked e.eid) d (if w64 then 2 else 1) (w.sget a).toNat e.mask hc.results
  have hheld : ((w.marked e.eid).spread d (if w64 then 2 else 1) (w.sget a).toNat e.mask).heldFrees = [] := by
    rw [honly]
    exact hc.held
  exact ⟨_, _, hrun.trans (congrArg _ (finishBody_quiet hspread hheld hres rfl)), onlyWarp_passed _ _ _, passed_warp _ g e _ hspread⟩

end

/-- The word of S2V (R215). -/
theorem encU_s2v {gd : Guard} {w64 : Bool} {d a : Nat} (hg : gd.n < 8) (hd : d < 256) (ha : a < 64) :
    nbits (encU 0 13 gd d a 0 0 (natOf w64 * 16)) 53 11 = 0x40D ∧ nbits (encU 0 13 gd d a 0 0 (natOf w64 * 16)) 37 8 = d ∧
      nbits (encU 0 13 gd d a 0 0 (natOf w64 * 16)) 0 7 = if w64 then 16 else 0 := by
  have hm : natOf w64 * 16 = if w64 then 16 else 0 := by cases w64 <;> rfl
  have h := encU_group0 (ix := 13) (b := 0) (mod := natOf w64 * 16) hg (by decide) hd (show a < 256 by omega) (by decide)
    (by have := natOf_lt w64; omega)
  exact ⟨head_opcode h.head, h.fd, h.fmod.trans hm⟩

/-- Settles O27: the word, and the registers of every lane after the value has been spread over the split. -/
theorem s2vBroadcasts : Obligations.S2vBroadcasts := by
  unfold Obligations.S2vBroadcasts
  refine ⟨fun gd w64 d a n hwf hn => ?word, fun w ho h0 h16 => ?mod, fun s g w e gd w64 d a hc hg hroom => ?runs⟩
  case word =>
    obtain rfl := Option.some.inj hn
    simp only [Instr.wellFormed, Bool.and_eq_true] at hwf
    obtain ⟨⟨hg, hd⟩, ha⟩ := hwf
    obtain ⟨ho, hdest, hmod⟩ := encU_s2v (w64 := w64) (Laws.wfG hg) (Laws.wfV hd) (Laws.wfS ha)
    refine ⟨ho, hdest, hmod, fun h64 => ?_⟩
    rw [if_pos h64, Wf.v, Bool.and_eq_true, beq_iff_eq] at hd
    exact hd.2
  case mod => exact decodeWord_uniform_none (ix := 13) ho rfl (by decide) (buildUni0_s2v_none h0 h16)
  case runs =>
    obtain ⟨t, now, hrun, hother, hw⟩ := exec_s2v (d := d) hc hg hroom
    obtain ⟨honly, -, hflags, hv, hp⟩ := spread_law (w.marked e.eid) d (if w64 then 2 else 1) (w.sget a).toNat e.mask hc.results
    generalize (w.marked e.eid).spread d (if w64 then 2 else 1) (w.sget a).toNat e.mask = z at hw honly hflags hv hp
    have hframe := stepped_frame z e now
    have hentries : z.entries = (w.marked e.eid).entries := by rw [honly]
    refine ⟨t, _, hrun, hw, hother, ?_, ?_, fun r l => ?_, fun l _ hl => ?_, fun r l hr hl => ?_⟩
    · rw [hframe]
      exact onlyLane_of_res honly
    · rw [hframe, fflags_stepped]
      exact hflags
    · rw [hframe, pget_stepped, ppoison_stepped]
      exact hp r l
    · refine stepped_runs z e { e with st := .issuing } now l ?_ rfl hl
      rw [hentries]
      exact modEntry_mem w e (fun x => { x with st := .issuing }) hc.parts.2.1
    · rw [hframe, vget_stepped, hv r l hr hl, vAt_vout_dword, vget_marked]
      have hceil : (w.marked e.eid).ceil = w.ceil := rfl
      by_cases hin : e.mask.getLsbD l = true ∧ r < w.ceil
      · simp only [hceil, hin, and_self, true_and, if_true]
        split
        · rfl
        · split <;> rfl
      · rw [hceil, if_neg hin, if_neg fun h => hin ⟨h.2.1, h.1⟩, if_neg fun h => hin ⟨h.2.1, h.1⟩]

end Sys2Proof.Machine

namespace Sys2Proof.Machine

/-! ## Atomics in a deterministic launch (R245) -/

section
variable {s b : State} {g : Nat} {w : Warp} {e : Entry} {c : Ctx} {gd : Guard} {o : Opnds} {f : AtomF}

/-- An atomic that deterministic mode forbids does nothing but trap its lanes. -/
theorem atomAccesses_forbidden {kind : OpKind} (dests : List Dest) (la : Nat) (hw : s.warp? c.g = some w) (hd : s.flagOf c.g Launch.det = true)
    (hk : kind = .atomic ∨ fpAtom f.op = true) : atomAccesses s c f kind dests la = (s, [(c.act ||| c.pg, .trap detForbidden)]) := by
  have hforbidden : (s.flagOf c.g Launch.det && (kind == .atomic || fpAtom f.op)) = true := by
    rcases hk with rfl | hk <;> simp [*]
  simp only [atomAccesses, hw, hforbidden, if_true]
  rfl

/-- Where lanes trap at the instruction, its last-use bits have no effect (R172). -/
theorem spent_trap (h : w.heldFrees = []) (lim : Nat) (e : Entry) (o : Opnds) {m : LaneMask} (hm : m ≠ 0) (t : TrapInfo) (done : LaneMask) :
    w.spent lim e o [(m, .trap t)] done = w := by
  have htrapped : fateLanes [(m, .trap t)] Fate.isTrap = m := BitVec.zero_or
  have hagain : fateLanes [(m, .trap t)] Fate.isAgain = 0 := rfl
  have hsome : (m != 0) = true := bne_iff_ne.mpr hm
  simp only [Warp.spent, htrapped, hagain, hsome, Warp.lastUseHeld, h, List.find?_nil, bne_self_eq_false, Bool.false_eq_true, if_false, if_true, ite_self]

/-- A lane instruction whose every lane traps: nothing else of it takes place. -/
theorem issueLane_trap {body : Body} {t : TrapInfo} (hc : Calm s g w e) (hrel : relMet s g o.rel e.mask = true) (hhome : o.home = [])
    (hroom : Room s g w o) (hb : b = (s.counted w o (laneCtx g w e gd).act).begun g e) (hact : (laneCtx g w e gd).act ≠ 0)
    (hbody : body b (laneCtx g w e gd) = (b, [((laneCtx g w e gd).act ||| (laneCtx g w e gd).pg, .trap t)])) :
    issueLane s gd .own o body = .next (b.stepped g e [((laneCtx g w e gd).act ||| (laneCtx g w e gd).pg, .trap t)]) := by
  have hw : b.warp? g = some (w.marked e.eid) := hb ▸ warp?_began hc.warp o _
  have hsome : (laneCtx g w e gd).act ||| (laneCtx g w e gd).pg ≠ 0 := fun h => hact (BitVec.or_eq_zero_iff.mp h).1
  have hspent : ∀ lim o done, (w.marked e.eid).spent lim e o [((laneCtx g w e gd).act ||| (laneCtx g w e gd).pg, .trap t)] done = w.marked e.eid :=
    fun lim o done => spent_trap (w := w.marked e.eid) hc.held lim e o hsome t done
  have hown : ∀ lim, (w.marked e.eid).ownResults lim := fun lim r hr => by
    have hr' : r ∈ w.results := hr
    rw [hc.results] at hr'
    cases hr'
  have hbegan : b = ((s.counted w o (laneCtx g w e gd).act).engaged g o).begun g e := by rw [engaged_none _ _ hhome, hb]
  have hrun := issueLane_calm (kind := .own) hc (.inr hrel) (homeOpen_none s g hhome) hroom hbegan hbody hw ((hspent _ _ _).symm ▸ hown _)
  rw [modWarp_id hw (hspent _ _ _)] at hrun
  exact hrun

/-- The flags of the launch while the instruction executes. -/
theorem flagOf_began (hw : s.warp? g = some w) (o : Opnds) (act : LaneMask) (fl : Launch → Bool) :
    ((s.counted w o act).begun g e).flagOf g fl = s.flagOf g fl := by
  rw [counted_eq]
  exact flagOf_begun (s := { s with events := _ }) hw fl

end

/-- Settles O17: in both instructions the check comes before every access, and the trap of all lanes undoes the rest. -/
theorem deterministicAtomics : Obligations.DeterministicAtomics := by
  unfold Obligations.DeterministicAtomics
  intro s g w e f hc hd hact hrel
  refine ⟨fun la st d hroom => ?atom, fun hop => ?red⟩
  case atom =>
    exact issueLane_trap hc hrel rfl hroom rfl hact
      (atomAccesses_forbidden _ _ (warp?_began hc.warp _ _) ((flagOf_began hc.warp _ _ _).trans hd) (.inl rfl))
  case red =>
    have hfp : fpAtom f.op = true := by rcases hop with h | h | h | h <;> simp [fpAtom, h]
    have hneed : poolNeed w (atomOpnds f) = [] := by simp [poolNeed, Warp.isSpilled, hc.spilled, atomOpnds, baseRegs]
    exact issueLane_trap hc hrel rfl (.inl hneed) rfl hact
      (atomAccesses_forbidden _ _ (warp?_began hc.warp _ _) ((flagOf_began hc.warp _ _ _).trans hd) (.inr hfp))

end Sys2Proof.Machine

namespace Sys2Proof.Machine

/-! ## A load whose result an older operation claims (R20, R235)

The names of results are given one after another, and no operation names a result that has still to be made. The statement about loads from a scratchpad
(R224, R229, R235) speaks of every state and does not say so: where an operation of the core names the number that comes next, the load's own result
counts as that operation's, and is not done before the operation is. -/

/-- A split of lane 0. -/
def loneEntry : Entry := { eid := 0, pc := 0, prio := 32, mask := 1, st := .ready }

/-- Its warp: v0 and v1 hold the pointer to the first byte of the block's scratchpad, and v4 is mapped. -/
def loadingWarp : Warp :=
  { block := 0, idx := 0, core := 0, part := 0, slot := 0, floor := 1, ceil := 256, live := 1, entries := [loneEntry], mapped := 0x13
    v := [(0, { bits := 0, poison := false }), (32, { bits := 0x80000000, poison := false })] }

/-- An access of warp 1 with nothing left to do, for the result that is named next. -/
def claimingOp : LsuOp :=
  { id := 0, launch := 0, warp := 1, lanes := 0, kind := .load, space := .device, pol := .dflt, cls := .dflt, ord := .plain, scope := .thread
    checked := false, det := false, result := some 1, parts := [] }

/-- The split is about to issue, and the access is in its core's engine. -/
def claimedLoad : State := (({ State.reset with nextId := 1 }.withSplit false).modWarp 0 fun _ => loadingWarp).modCore 0 fun c => { c with ops := [claimingOp] }

/-- A load of four bytes at v0, and its operands but for the guard. -/
def plainLoad : MemF :=
  { g := { neg := false, n := 7 }, base := 0, baseLu := false, off := 0, cls := .dflt, pol := .dflt, ord := .plain, scope := .thread, size := 2 }
def plainLoadOpnds : Opnds := { (baseRegs 0 false) with vw := regsFrom 4 1 }

theorem calm_claimedLoad : Calm claimedLoad 0 loadingWarp loneEntry := ⟨rfl, by decide, by decide, rfl, rfl, rfl, rfl⟩

theorem room_claimedLoad : Room claimedLoad 0 loadingWarp { plainLoadOpnds with async := true } := .inl (by decide)

theorem loadsAt_claimedLoad {l : Nat} (hl : l ∈ lanesOf (1 : LaneMask)) {b : State} {w : Warp}
    (hb : b = (claimedLoad.counted loadingWarp plainLoadOpnds 1).begun 0 loneEntry) (hw : b.warp? 0 = some w) :
    LoadsAt b (laneCtx 0 loadingWarp loneEntry plainLoad.g) plainLoad w 0 l 0 := by
  obtain rfl : l = 0 := List.mem_singleton.mp hl
  subst hb
  obtain rfl := Option.some.inj ((warp?_began calm_claimedLoad.warp plainLoadOpnds 1).symm.trans hw)
  exact ⟨false, by decide +kernel⟩

/-- The load leaves its result outstanding. -/
theorem exec_claimedLoad {t : State} {w : Warp} (h : exec (.ld plainLoad 0 false 4) claimedLoad = .next t) (hw : t.warp? 0 = some w) :
    w.results.map Result.done = [false] := by
  have hrun : (match exec (.ld plainLoad 0 false 4) claimedLoad with
      | .next t => (t.warp? 0).map fun w => w.results.map Result.done
      | _ => none) = some [false] := by decide +kernel
  rw [h] at hrun
  simpa [hw] using hrun

/-- Refutes O14: with an operation that names the load's result the result is not done. -/
theorem not_scratchpadLoad : ¬ Obligations.ScratchpadLoad := by
  unfold Obligations.ScratchpadLoad
  intro h
  obtain ⟨t, w, r, hrun, hw, hres, hdone, -⟩ := h claimedLoad 0 loadingWarp loneEntry plainLoad 0 4 0 (fun _ => 0) _ calm_claimedLoad rfl (by decide)
    (by decide) (by decide) (by decide +kernel) (by decide +kernel) room_claimedLoad rfl
    fun l hl b w hb hw => loadsAt_claimedLoad hl hb hw
  have hleft := exec_claimedLoad hrun hw
  rw [hres, List.map_singleton, hdone] at hleft
  cases hleft

end Sys2Proof.Machine

namespace Sys2Proof.Machine

/-! ## A reply at a core whose operation of that name is another warp's (R20, R134, R235)

The part that a reply completes is marked done in the operation of that name in the core's engine, and with its last part that operation ends. The
statement about loads from device memory (R230, R235, R271) speaks of every state and every operation, and does not say that the operation is the one in the
engine. Where the engine's is another warp's, its race trap may end the last lanes of a block, and with the block goes the warp that awaits the data. -/

/-- Word 0 of device memory, for lane 0. -/
def firstWord : OpPart := { sec := 0, words := 1, accs := [{ lane := 0, off := 0, size := 4, vaddr := 0, x := 0, y := 0 }], st := .sent 77 }

/-- The load of warp 0 that the reply is for. -/
def awaitedOp : LsuOp :=
  { id := 50, launch := 0, warp := 0, lanes := 1, kind := .load, space := .device, pol := .dflt, cls := .dflt, ord := .plain, scope := .thread
    checked := false, det := false, result := some 60, parts := [firstWord] }

/-- A load of warp 1 under the same name, which has found a race in lane 0. -/
def racedOp : LsuOp := { awaitedOp with warp := 1, checked := true, det := true, result := none, raced := [(0, 0)] }

def awaitedResult : Result := { id := 60, dests := [.v 2], lanes := [(0, { left := 0 })] }

/-- Warp 0 awaits its data, and warp 1 waits for the answer to its race check. -/
def awaitingWarp : Warp :=
  { block := 0, idx := 0, core := 0, part := 0, slot := 0, floor := 1, ceil := 256, live := 1, results := [awaitedResult]
    entries := [{ eid := 0, pc := 8, prio := 32, mask := 1, st := .ready }] }
def racedWarp : Warp :=
  { awaitingWarp with slot := 1, results := [], entries := [{ eid := 1, pc := 0, prio := 32, mask := 1, st := .parked (.detAccess 50) }] }

/-- Both warps stand for the one warp of block 0, and the engine has the operation of warp 1. -/
def foreignReply : State :=
  { State.reset with
    blocks := [(0, { launch := 0, lin := 0, wid := 0, core := 0, base := 0, variant := 0, warps := 1, slot := 0, spadBase := 0, spadBytes := 0, quantumEnd := 0 })]
    warps := [(0, awaitingWarp), (1, racedWarp)]
    cores := [(0, { ops := [racedOp] })] }

def firstReply : Reply := { id := 90, agent := 0, req := 77, op := 50, line := 0, words := 1, data := [(0, 9)] }

theorem inside_firstWord : firstWord.inside := by
  unfold OpPart.inside
  decide

theorem awaits_foreignReply : Awaits foreignReply awaitedOp firstWord 60 awaitingWarp awaitedResult where
  kind  := rfl
  named := rfl
  warp  := rfl
  res   := rfl
  lanes := by decide
  dests := rfl
  once  := by decide
  accs  := inside_firstWord

/-- With warp 1 its block goes, and warp 0 with the block. -/
theorem warp?_foreignReply : (completePart foreignReply firstReply awaitedOp firstWord).warp? 0 = none := by decide +kernel

/-- Refutes O16: the reply is delivered to no warp. -/
theorem not_deviceReads : ¬ Obligations.DeviceReads := by
  unfold Obligations.DeviceReads
  rintro ⟨-, -, h⟩
  obtain ⟨w, r, hw, -⟩ := h foreignReply firstReply awaitedOp firstWord 60 awaitingWarp awaitedResult awaits_foreignReply rfl rfl (by decide)
    (by decide +kernel) (by decide +kernel)
  have hnone : (completePart foreignReply firstReply awaitedOp firstWord).warp? 0 = some w := hw
  rw [warp?_foreignReply] at hnone
  cases hnone

end Sys2Proof.Machine

namespace Sys2Proof.Machine

/-! ## Numbers as bytes -/

@[simp] theorem length_leOfNat (n x : Nat) : (leOfNat n x).length = n := by
  induction n generalizing x with
  | zero => rfl
  | succ n ih => simp [leOfNat, ih]

theorem getElem_leOfNat (n x i : Nat) (h : i < (leOfNat n x).length) : (leOfNat n x)[i] = BitVec.ofNat 8 (x / 256 ^ i) := by
  induction n generalizing x i with
  | zero => simp [leOfNat] at h
  | succ n ih =>
    cases i with
    | zero => simp [leOfNat]
    | succ i =>
      simp only [leOfNat, List.getElem_cons_succ]
      rw [ih, Nat.div_div_eq_div_mul, pow_succ, Nat.mul_comm]

/-- A number written to a memory. -/
theorem mget_mputBytes_leOfNat (m : Tbl Byte) (a n x : Nat) : mget (mputBytes m a (leOfNat n x)) = putAt (mget m) a n x := by
  funext c
  unfold putAt
  split
  case isTrue h =>
    obtain ⟨i, rfl⟩ := Nat.exists_eq_add_of_le h.1
    have hi : i < (leOfNat n x).length := by rw [length_leOfNat]; omega
    rw [mget_mputBytes_inside _ _ _ _ hi, getElem_leOfNat, Nat.add_sub_cancel_left]
  case isFalse h =>
    refine mget_mputBytes_outside _ _ _ _ ?_
    rw [length_leOfNat]
    omega

theorem lastAt_concat (ls : List Nat) (l : Nat) (off : Nat → Nat) (n a : Nat) :
    lastAt (ls ++ [l]) off n a = if off l ≤ a ∧ a < off l + n then some l else lastAt ls off n a := by
  rw [lastAt, List.reverse_append, List.reverse_singleton, List.singleton_append, List.find?_cons]
  by_cases h : off l ≤ a ∧ a < off l + n
  · simp [h]
  · rw [if_neg h, ← Bool.decide_and, decide_eq_false h]
    rfl

/-- Of the numbers that lanes write, one after another, a byte holds that of the last one that reaches it. -/
theorem foldl_putAt (off x : Nat → Nat) (n : Nat) (m : Nat → Byte) (a : Nat) (ls : List Nat) :
    ls.foldl (fun m l => putAt m (off l) n (x l)) m a =
      (lastAt ls off n a).elim (m a) fun l => BitVec.ofNat 8 (x l / 256 ^ (a - off l)) := by
  induction ls using List.reverseRecOn with
  | nil => rfl
  | append_singleton ls l ih =>
    rw [List.foldl_append, List.foldl_cons, List.foldl_nil, putAt, ih, lastAt_concat]
    split <;> rfl

/-! ## Stores to a scratchpad (R224, R229, R236) -/

/-- A lane's store of n bytes at an offset of block k's scratchpad: the race check, the words opened for warp g, the bytes (R229, R282). -/
def State.storeSpad (s : State) (g k n off x : Nat) : State :=
  spadWrite (spadOpen (s.count .race (min 1 (spadRaces s k off n g true).length)) k off n g true) k off (leOfNat n x)

/-- An operation whose accesses to a scratchpad are plain stores that do not stop at races. -/
structure LsuOp.PlainStore (o : LsuOp) : Prop where
  kind    : o.kind = .store
  checked : o.checked = true
  free    : o.det = false
  order   : o.ord = .plain

theorem accessNow_storeSpad {o : LsuOp} (h : o.PlainStore) (s : State) (lane : Nat) (p : DWord) (n k off : Nat) (yard : Bool) (x y : Nat) :
    accessNow s o lane p n (.spad k off yard) x y = (s.storeSpad o.warp k n off x, none) := by
  simp only [accessNow, h.kind, h.checked, h.free, Bool.false_and, Bool.false_eq_true, if_false, if_true]
  rfl

/-- A fold that carries a second component along. -/
theorem foldl_fst {σ τ α : Type} (f : σ → α → σ) (s : σ) (z : τ) (ls : List α) :
    ls.foldl (fun (acc : σ × τ) l => (f acc.1 l, acc.2)) (s, z) = (ls.foldl f s, z) := by
  induction ls generalizing s with
  | nil => rfl
  | cons l ls ih => exact ih (f s l)

/-- With no part that can start, the engine starts none. -/
theorem pump_idle {s : State} {core : Nat} (h : readyParts (s.core core) = []) : pump s core = s := by
  unfold pump
  cases partTotal (s.core core) with
  | zero => rfl
  | succ n => rw [pumpN, h]

theorem devGroup_now (o : LsuOp) (l : Nat) (p : DWord) (n : Nat) (loc : Loc) (x y : Nat) (acc : List LsuOp) :
    devGroup o (l, .now p n loc x y) acc = acc := rfl

theorem memberGroup_now (lin : Nat) (o : LsuOp) (ls : List Nat) (p : Nat → DWord) (n : Nat) (loc : Nat → Loc) (x : Nat → Nat) :
    memberGroup lin o (ls.map fun l => (l, .now (p l) n (loc l) (x l) 0)) = [] := by
  simp [memberGroup, List.filterMap_map]

theorem openResult_nil (s : State) (g la : Nat) (m : LaneMask) : openResult s g la [] m = (s, none) := rfl

/-- The body of a store whose lanes all go to one block's scratchpad. -/
theorem runAccesses_storeSpad {b t : State} {c : Ctx} {o : LsuOp} {lanes : LaneMask} {req : Nat → LaneReq} {n k : Nat} {p : Nat → DWord} {off x : Nat → Nat}
    (h : o.PlainStore) (hwarp : o.warp = c.g) (hlanes : lanes ≠ 0)
    (hgo : ∀ l ∈ lanesOf lanes, ∃ yard, laneGo b c.g l o (req l) = .now (p l) n (.spad k (off l) yard) (x l) 0)
    (ht : t = (lanesOf lanes).foldl (fun s l => s.storeSpad c.g k n (off l) (x l)) b) (hidle : readyParts (t.core (coreOf c.g)) = []) :
    runAccesses b c o [] 0 false lanes req = (t, []) := by
  choose! yard hyard using hgo
  have hgos : ((lanesOf lanes).map fun l => (l, laneGo b c.g l o (req l))) =
      (lanesOf lanes).map fun l => (l, LaneGo.now (p l) n (.spad k (off l) (yard l)) (x l) 0) :=
    List.map_congr_left fun l hl => by rw [hyard l hl]
  have hsome : ((lanesOf lanes).map fun l => (l, LaneGo.now (p l) n (.spad k (off l) (yard l)) (x l) 0)).isEmpty = false := by
    simpa using fun h => hlanes (lanesOf_eq_nil h)
  have hplain : isRel o.ord = false ∧ isAcq o.ord = false := by rw [h.order]; exact ⟨rfl, rfl⟩
  have haccess : ∀ r s l p off yard x, accessNow s { o with result := none, region := r } l p n (.spad k off yard) x 0 =
      (s.storeSpad c.g k n off x, none) := fun r s l p off yard x => hwarp ▸ accessNow_storeSpad (o := { o with result := none, region := r })
        ⟨h.kind, h.checked, h.free, h.order⟩ s l p n k off yard x 0
  have hfold : (lanesOf lanes).foldl (fun (acc : State × Fates) l => (acc.1.storeSpad c.g k n (off l) (x l), acc.2)) (b, []) = (t, []) :=
    (foldl_fst (fun s l => State.storeSpad s c.g k n (off l) (x l)) b [] _).trans (by rw [ht])
  have hany : ((lanesOf lanes).any fun _ => false) = false := by simp
  simp only [runAccesses]
  rw [hgos]
  simp only [hsome, hplain, haccess, hany, openResult_nil, devGroup_now, memberGroup_now, List.filter_map, List.filterMap_map, Function.comp_def,
    List.filter_true, List.foldl_map, List.foldl_fixed, List.filterMap_none, List.any_map, List.append_nil, List.foldl_nil, List.filter_nil,
    List.map_nil, List.flatMap_nil, Bool.false_eq_true, Bool.false_and, if_false]
  simp only [hfold, pump_idle hidle]
  rfl

/-! ## What stores to a scratchpad leave alone -/

section
variable {s t u : State} {g : Nat} {w z : Warp} {x : Entry}

/-- From s to t only blocks, warps, what waits for a re-test and the event counters change. -/
def Scratched (s t : State) : Prop := t = { s with blocks := t.blocks, warps := t.warps, retests := t.retests, events := t.events }

theorem Scratched.trans (h : Scratched s t) (k : Scratched t u) : Scratched s u := by
  unfold Scratched at *
  rw [k, h]

theorem Scratched.cohWord (h : Scratched s t) (a : Nat) : t.cohWord a = s.cohWord a := by
  rw [h]
  rfl

theorem Scratched.hostMem (h : Scratched s t) : t.hostMem = s.hostMem := by rw [h]

theorem Scratched.cores (h : Scratched s t) : t.cores = s.cores := by rw [h]

/-- Splits that are issuing stay in the entries of their warps. -/
def KeepsIssuing (s t : State) : Prop :=
  ∀ g w, s.warp? g = some w → ∃ z, t.warp? g = some z ∧ ∀ x ∈ w.entries, x.st = .issuing → x ∈ z.entries

theorem keepsIssuing_of_warps (h : t.warps = s.warps) : KeepsIssuing s t :=
  fun g w hw => ⟨w, (warp?_of_warps h g).trans hw, fun _ hx _ => hx⟩

theorem KeepsIssuing.trans (h : KeepsIssuing s t) (k : KeepsIssuing t u) : KeepsIssuing s u := by
  intro g w hw
  obtain ⟨z, hz, hkeep⟩ := h g w hw
  obtain ⟨v, hv, hkeep'⟩ := k g z hz
  exact ⟨v, hv, fun x hx hst => hkeep' x (hkeep x hx hst) hst⟩

theorem Warp.fire_issuing (hx : x ∈ w.entries) (hst : x.st = .issuing) : x ∈ w.fire.entries := by
  have hmerge : x.mergeable = false := by simp [Entry.mergeable, hst]
  unfold Warp.fire
  split
  · exact hx
  · split
    · split
      · exact mem_mergeAll_of_unmergeable (List.mem_map.mpr ⟨x, hx, by simp [hst]⟩) hmerge
      · exact hx
    · exact hx

theorem warp?_fireWhere (s : State) (line : MonLine) (sel : Nat → Bool) (g : Nat) :
    ∃ p : Warp → Bool, (s.fireWhere line sel).warp? g = (s.warp? g).map fun w => if p w then w.fire else w :=
  ⟨_, tget_map_snd (fun k (w : Warp) => sel k && (match w.monitor with | some m => m.line == line | none => false)) Warp.fire s.warps g⟩

theorem keepsIssuing_fireWhere (s : State) (line : MonLine) (sel : Nat → Bool) : KeepsIssuing s (s.fireWhere line sel) := by
  intro g w hw
  obtain ⟨p, hp⟩ := warp?_fireWhere s line sel g
  rw [hw] at hp
  refine ⟨_, hp, fun x hx hst => ?_⟩
  dsimp only
  split
  · exact Warp.fire_issuing hx hst
  · exact hx

/-- Stores from s to t left everything alone but the bytes of block k's scratchpad, which f gives. -/
structure SpadStored (k : Nat) (f : (Nat → Byte) → Nat → Byte) (s t : State) : Prop where
  frame  : Scratched s t
  still  : Still s t
  issues : KeepsIssuing s t
  bytes  : ∀ j x, s.block? j = some x → ∃ y, t.block? j = some y ∧ mget y.spad = if j = k then f (mget x.spad) else mget x.spad

variable {k : Nat} {f f' : (Nat → Byte) → Nat → Byte}

theorem SpadStored.trans (h : SpadStored k f s t) (h' : SpadStored k f' t u) : SpadStored k (fun m => f' (f m)) s u := by
  refine ⟨h.frame.trans h'.frame, h.still.trans h'.still, h.issues.trans h'.issues, fun j x hx => ?_⟩
  obtain ⟨y, hy, hbytes⟩ := h.bytes j x hx
  obtain ⟨z, hz, hbytes'⟩ := h'.bytes j y hy
  refine ⟨z, hz, ?_⟩
  rw [hbytes', hbytes]
  split <;> rfl

/-- A change of other parts of the state than its blocks. -/
theorem spadStored_of_blocks (k : Nat) (hframe : Scratched s t) (hstill : Still s t) (hissues : KeepsIssuing s t) (h : t.blocks = s.blocks) : SpadStored k id s t :=
  ⟨hframe, hstill, hissues, fun j x hx => ⟨x, by rw [State.block?, h]; exact hx, by split <;> rfl⟩⟩

theorem spadStored_fireScratch (k : Nat) (s : State) (b line : Nat) : SpadStored k id s (s.fireScratch b line) :=
  spadStored_of_blocks k rfl (still_fireWhere _ _ _) (keepsIssuing_fireWhere _ _ _) rfl

theorem spadStored_count (k : Nat) (s : State) (e : Ev) (n : Nat) : SpadStored k id s (s.count e n) := by
  unfold State.count
  split
  · exact spadStored_of_blocks k rfl (.refl s) (keepsIssuing_of_warps rfl) rfl
  · exact spadStored_of_blocks k rfl (still_of_warps rfl) (keepsIssuing_of_warps rfl) rfl

theorem spadStored_modBlock (s : State) (k : Nat) (fb : Block → Block) (h : ∀ x, mget (fb x).spad = f (mget x.spad)) : SpadStored k f s (s.modBlock k fb) := by
  refine ⟨rfl, still_modBlock _ _ _, keepsIssuing_of_warps rfl, fun j x hx => ?_⟩
  by_cases hj : j = k
  · subst hj
    exact ⟨fb x, (tget_tmod_same _ _ _).trans (congrArg _ hx), by rw [if_pos rfl, h]⟩
  · exact ⟨x, (tget_tmod_other _ _ hj).trans hx, by rw [if_neg hj]⟩

theorem spadStored_forEach {α : Type} {fs : State → α → State} (h : ∀ s a, SpadStored k id s (fs s a)) (ls : List α) (s : State) :
    SpadStored k id s (forEach ls s fs) := by
  unfold forEach
  induction ls generalizing s with
  | nil => exact spadStored_of_blocks k rfl (.refl s) (keepsIssuing_of_warps rfl) rfl
  | cons l ls ih => exact (h s l).trans (ih _)

theorem spadStored_spadWrite (s : State) (k off : Nat) (bs : List Byte) :
    SpadStored k id ((s.modBlock k fun x => { x with spad := mputBytes x.spad off bs })) (spadWrite s k off bs) := by
  unfold spadWrite
  dsimp only
  split
  · exact spadStored_of_blocks k rfl (.refl _) (keepsIssuing_of_warps rfl) rfl
  · exact spadStored_forEach (fun s l => spadStored_fireScratch k s k l) _ _

/-- A store of a lane writes the low bytes of its number. -/
theorem spadStored_storeSpad (s : State) (g k n off x : Nat) : SpadStored k (fun m => putAt m off n x) s (s.storeSpad g k n off x) := by
  have hopen (u : State) : SpadStored k id u (spadOpen u k off n g true) := spadStored_modBlock u k _ fun y => rfl
  have hput (u : State) := spadStored_modBlock (f := fun m => putAt m off n x) u k (fun y => { y with spad := mputBytes y.spad off (leOfNat n x) })
    fun y => mget_mputBytes_leOfNat y.spad off n x
  exact (((spadStored_count k s _ _).trans (hopen _)).trans (hput _)).trans (spadStored_spadWrite _ k off _)

theorem spadStored_storeSpads (g k n : Nat) (off x : Nat → Nat) (ls : List Nat) (s : State) :
    SpadStored k (fun m => ls.foldl (fun m l => putAt m (off l) n (x l)) m) s (ls.foldl (fun s l => s.storeSpad g k n (off l) (x l)) s) := by
  induction ls generalizing s with
  | nil => exact spadStored_of_blocks k rfl (.refl s) (keepsIssuing_of_warps rfl) rfl
  | cons l ls ih => exact (spadStored_storeSpad s g k n (off l) (x l)).trans (ih _)

end

section
variable {s u : State} {g : Nat} {w z : Warp} {e : Entry} {o : Opnds}

/-- What is left of an instruction that has written no register: the last-use bits, and the split goes on. -/
theorem passed_lastUse (lim : Nat) (done : LaneMask) (hw : u.warp? g = some z) (hresults : z.results = []) (hspilled : z.spilled = 0)
    (hissuing : { e with st := .issuing } ∈ z.entries) :
    ∃ w', ((u.modWarp g fun w => w.lastUse lim o done).passed g e).warp? g = some w' ∧
      (∀ l, l < 32 → e.mask.getLsbD l = true → w'.runs l (e.pc + 8)) ∧
      (∀ r l, r < 256 → l < 32 → r ∉ o.lu → w'.vget r l = z.vget r l) ∧
      (∀ r l, l < 32 → w'.pget r l = z.pget r l ∧ w'.ppoison r l = z.ppoison r l) ∧
      w'.s = z.s ∧ w'.q = z.q ∧ w'.m = z.m ∧ w'.fflags = z.fflags ∧ w'.traps = z.traps := by
  have hregs := regsOnly_lastUse lim o done hresults hspilled
  have hfree := lastUse_eq z lim o done (by simp [hresults])
  obtain ⟨hpv, hpp, hflags⟩ := freeAll_p o done o.lu.dedup z
  have hv := fun r l hr hl => vget_freeAll o done r l hr hl o.lu.dedup z
  rw [← hfree] at hpv hpp hflags hv
  have hx : { e with st := .issuing } ∈ (z.lastUse lim o done).entries := by rwa [hregs.entries]
  have hlast : (u.modWarp g fun w => w.lastUse lim o done).warp? g = some (z.lastUse lim o done) := (warp?_modWarp _ _ _).trans (congrArg _ hw)
  have hpass := passed_warp _ g e _ hlast
  refine ⟨_, hpass, fun l _ hl => stepped_runs _ e _ _ l hx rfl hl, ?_⟩
  rw [stepped_frame]
  generalize z.lastUse lim o done = y at hregs hpv hpp hflags hv
  refine ⟨fun r l hr hl hlu => ?_, fun r l _ => ?_, ?_, ?_, ?_, hflags, ?_⟩
  · rw [vget_stepped, hv r l hr hl, if_neg fun h => hlu (List.mem_dedup.mp h.1)]
  · rw [pget_stepped, ppoison_stepped]
    unfold Warp.pget Warp.ppoison
    rw [hpv, hpp]
    exact ⟨rfl, rfl⟩
  all_goals rw [hregs]

theorem cohWord_passed (s : State) (g : Nat) (e : Entry) (a : Nat) : (s.passed g e).cohWord a = s.cohWord a := by
  rw [passed_frame]
  rfl

theorem hostMem_passed (s : State) (g : Nat) (e : Entry) : (s.passed g e).hostMem = s.hostMem := by rw [passed_frame]

theorem block?_passed (s : State) (g : Nat) (e : Entry) (j : Nat) : (s.passed g e).block? j = s.block? j := by
  rw [passed_frame]
  rfl

/-- Two warps with the same registers, traps and outstanding results. -/
structure Warp.SameRegs (w z : Warp) : Prop where
  v       : ∀ r l, z.vget r l = w.vget r l
  p       : ∀ r l, z.pget r l = w.pget r l ∧ z.ppoison r l = w.ppoison r l
  s       : z.s = w.s
  q       : z.q = w.q
  m       : z.m = w.m
  fflags  : z.fflags = w.fflags
  traps   : z.traps = w.traps
  results : z.results = w.results
  held    : z.heldFrees = w.heldFrees
  spilled : z.spilled = w.spilled

theorem Still.sameRegs (h : Still s u) (hw : s.warp? g = some w) : ∃ z, u.warp? g = some z ∧ w.SameRegs z := by
  obtain ⟨es, mo, lf, hz⟩ := h g w hw
  exact ⟨_, hz, fun _ _ => rfl, fun _ _ => ⟨rfl, rfl⟩, rfl, rfl, rfl, rfl, rfl, rfl, rfl, rfl⟩

/-- What a store writes for a lane. -/
def stNum (w : Warp) (f : MemF) (data l : Nat) : Nat := (w.vgetN data (sizeRegs (memBytes f)) l).1

theorem stNum_marked (w : Warp) (k : Nat) (f : MemF) (data l : Nat) : stNum (w.marked k) f data l = stNum w f data l :=
  congrArg Prod.fst (vgetN_marked k l _ data w)

/-- The operands of a plain store. -/
def stOpnds (f : MemF) (data : Nat) (lu : Bool) : Opnds :=
  { (baseRegs f.base f.baseLu) with
    vr := (baseRegs f.base f.baseLu).vr ++ regsFrom data (sizeRegs (memBytes f))
    lu := (baseRegs f.base f.baseLu).lu ++ (if lu then regsFrom data (sizeRegs (memBytes f)) else [])
    rel := relLevel f.ord f.scope }

/-- The body of a plain store in a calm split, whose lanes all go to one block's scratchpad. -/
theorem st_storeSpad {f : MemF} {data k : Nat} {off : Nat → Nat} {b : State} {c : Ctx} (hord : f.ord = .plain)
    (hdet : b.flagOf c.g Launch.det = false) (hpg : c.pg = 0) (hact : c.act ≠ 0) (hgo : ∀ l ∈ lanesOf c.act, StoresAt b c f data w k l (off l))
    (hu : u = (lanesOf c.act).foldl (fun s l => s.storeSpad c.g k (memBytes f) (off l) (stNum w f data l)) b) (hidle : readyParts (u.core (coreOf c.g)) = []) :
    runAccesses b c (opOf b c .store f.pol f.cls f.ord f.scope) [] 0 false (c.act ||| c.pg) (stReq f data c w) = (u, []) := by
  have hplain : (opOf b c .store f.pol f.cls f.ord f.scope).PlainStore := ⟨rfl, by rw [opOf, hord]; rfl, hdet, hord⟩
  rw [hpg, show c.act ||| (0 : LaneMask) = c.act from BitVec.or_zero]
  refine runAccesses_storeSpad (p := memPtr f w) hplain rfl hact (fun l hl => ?_) hu hidle
  obtain ⟨yard, hyard⟩ := hgo l hl
  exact ⟨yard, hyard⟩

/-- A plain store in a calm split executes the stores of its lanes. -/
theorem exec_st_storeSpad {f : MemF} {data k : Nat} {lu : Bool} {off : Nat → Nat} {b : State} (hc : Calm s g w e) (hord : f.ord = .plain)
    (hdet : s.flagOf g Launch.det = false) (hpg : (laneCtx g w e f.g).pg = 0) (hact : (laneCtx g w e f.g).act ≠ 0)
    (hrel : relMet s g 1 e.mask = true) (hidle : readyParts (s.core (coreOf g)) = [])
    (hb : b = (s.counted w (stOpnds f data lu) (laneCtx g w e f.g).act).begun g e)
    (hgo : ∀ l ∈ lanesOf (laneCtx g w e f.g).act, StoresAt b (laneCtx g w e f.g) f data (w.marked e.eid) k l (off l))
    (hu : u = (lanesOf (laneCtx g w e f.g).act).foldl (fun s l => s.storeSpad g k (memBytes f) (off l) (stNum w f data l)) b) :
    exec (.st f data lu) s = .next ((u.modWarp g fun w => w.lastUse b.nextId (stOpnds f data lu) (laneCtx g w e f.g).act).passed g e) := by
  have hw : b.warp? g = some (w.marked e.eid) := hb ▸ warp?_began hc.warp _ _
  have hneed : poolNeed w (stOpnds f data lu) = [] := by simp [poolNeed, Warp.isSpilled, hc.spilled, stOpnds, baseRegs]
  have hlevel : (stOpnds f data lu).rel = 1 := by simp [stOpnds, relLevel, hord, isRel]
  have hstored : SpadStored k _ b u := hu ▸ spadStored_storeSpads g k (memBytes f) off _ _ b
  obtain ⟨z, hz, hsame⟩ := hstored.still.sameRegs hw
  have hcores : u.cores = s.cores := by
    rw [hstored.frame.cores, hb, counted_eq]
    rfl
  have hbody := st_storeSpad (c := laneCtx g w e f.g) hord (by rw [hb]; exact (flagOf_began hc.warp _ _ _).trans hdet) hpg hact hgo (hu.trans (by simp only [stNum_marked]; rfl))
    (by rwa [State.core, hcores])
  have heffect : LaneEffect s b (w.marked e.eid) (bodyCtx .own g w e f.g) (.st f data lu) f.g .own (stOpnds f data lu) u [] := by
    have h := LaneEffect.st (s := s) (b := b) (w := w.marked e.eid) (c := laneCtx g w e f.g) f data lu
    rw [hbody] at h
    exact h
  have hrun := laneEffects s b g w _ e _ _ _ _ _ _ hc (hb.trans (congrArg (·.begun g e) (engaged_none _ g rfl).symm)) hw heffect
    (.inr (hlevel ▸ hrel)) (homeOpen_none s g rfl) (.inl hneed)
  have hresults : z.results = [] := hsame.results.trans hc.results
  have hmask : (laneCtx g w e f.g).act ||| (0 : LaneMask) = (laneCtx g w e f.g).act := BitVec.or_zero
  rw [show bodyCtx .own g w e f.g = laneCtx g w e f.g from rfl, hpg] at hrun
  rw [hrun, finishBody_plain (by simp [guardFate]) hz (hsame.held.trans hc.held) (fun r hr => by rw [hresults] at hr; cases hr) fun m =>
    (regsOnly_lastUse _ _ m hresults (hsame.spilled.trans hc.spilled)).results, hmask]
  rfl

end

/-- Settles O13: the lanes store one after another into one block's scratchpad and leave all else alone; then the last-use bits act. -/
theorem scratchpadStore : Obligations.ScratchpadStore := by
  unfold Obligations.ScratchpadStore
  intro s g w e f data lu k off hc hord hdet hpg hact hrel hidle hgo
  have hw := warp?_began hc.warp (e := e) (stOpnds f data lu) (laneCtx g w e f.g).act
  have hrun := exec_st_storeSpad (lu := lu) hc hord hdet hpg hact hrel hidle rfl (fun l hl => hgo l hl _ _ rfl hw) rfl
  have hstored := spadStored_storeSpads g k (memBytes f) off (stNum w f data) (lanesOf (laneCtx g w e f.g).act)
    ((s.counted w (stOpnds f data lu) (laneCtx g w e f.g).act).begun g e)
  have hframe : Scratched s ((s.counted w (stOpnds f data lu) (laneCtx g w e f.g).act).begun g e) := by
    rw [counted_eq]
    rfl
  have hblocks : ((s.counted w (stOpnds f data lu) (laneCtx g w e f.g).act).begun g e).blocks = s.blocks := by
    rw [counted_eq]
    rfl
  generalize (s.counted w (stOpnds f data lu) (laneCtx g w e f.g).act).begun g e = b at hw hrun hstored hframe hblocks
  generalize (lanesOf (laneCtx g w e f.g).act).foldl (fun s l => s.storeSpad g k (memBytes f) (off l) _) b = u at hrun hstored
  obtain ⟨z, hz, hsame⟩ := hstored.still.sameRegs hw
  obtain ⟨z', hz', hissues⟩ := hstored.issues g _ hw
  obtain rfl := Option.some.inj (hz.symm.trans hz')
  obtain ⟨w', hw', hruns, hv, hp, hs, hq, hm, hflags, htraps⟩ := passed_lastUse (o := stOpnds f data lu) b.nextId (laneCtx g w e f.g).act hz
    (hsame.results.trans hc.results) (hsame.spilled.trans hc.spilled) (hissues _ (modEntry_mem w e _ hc.parts.2.1) rfl)
  refine ⟨_, hrun, fun a => ?_, ?_, fun j x hx => ?_, w', hw', hruns, fun r l hr hl hlu => ?_, fun r l hl => ?_, hs.trans hsame.s, hq.trans hsame.q,
    hm.trans hsame.m, hflags.trans hsame.fflags, htraps.trans hsame.traps⟩
  · rw [cohWord_passed]
    exact (hstored.frame.cohWord a).trans (hframe.cohWord a)
  · rw [hostMem_passed]
    exact hstored.frame.hostMem.trans hframe.hostMem
  · obtain ⟨y, hy, hbytes⟩ := hstored.bytes j x ((congrArg (tget · j) hblocks).trans hx)
    refine ⟨y, (block?_passed _ _ _ _).trans hy, fun a => ?_⟩
    rw [hbytes]
    split
    · rw [foldl_putAt]
      cases lastAt (lanesOf (laneCtx g w e f.g).act) off (memBytes f) a <;> rfl
    · rfl
  · exact (hv r l hr hl hlu).trans (hsame.v r l)
  · exact ⟨(hp r l hl).1.trans (hsame.p r l).1, (hp r l hl).2.trans (hsame.p r l).2⟩

end Sys2Proof.Machine

namespace Sys2Proof.Machine

/-! ## Bytes of words (R2, R227) -/

section
variable {x : Word} {j k w : Nat} {b : Byte} {bs : List (Nat × Byte)} {sec : Nat} {a : LaneAcc} {v : Nat}

theorem wordByte_setByte (x : Word) (b : Byte) (hj : j < 4) (hk : k < 4) : wordByte (setByte x j b) k = if j = k then b else wordByte x k := by
  have hx : x.toNat < 2 ^ 32 := x.isLt
  have hb : b.toNat < 2 ^ 8 := b.isLt
  apply BitVec.eq_of_toNat_eq
  interval_cases j <;> interval_cases k <;> simp [wordByte, setByte, nbits, setBits] <;> omega

theorem wordByte_mergeBytes_other (x : Word) (hk : k < 4) (hbs : ∀ p ∈ bs, p.1 < 4) (h : ∀ p ∈ bs, p.1 ≠ k) :
    wordByte (mergeBytes x bs) k = wordByte x k := by
  unfold mergeBytes
  induction bs generalizing x with
  | nil => rfl
  | cons p bs ih =>
    rw [List.foldl_cons, ih _ (fun q hq => hbs q (.tail _ hq)) fun q hq => h q (.tail _ hq), wordByte_setByte x _ (hbs p (.head _)) hk,
      if_neg (h p (.head _))]

theorem wordByte_mergeBytes_same (x : Word) (hk : k < 4) (hbs : ∀ p ∈ bs, p.1 < 4) (h : ∀ p ∈ bs, p.1 = k → p.2 = b) (hmem : ∃ p ∈ bs, p.1 = k) :
    wordByte (mergeBytes x bs) k = b := by
  unfold mergeBytes
  induction bs generalizing x with
  | nil => simp at hmem
  | cons p bs ih =>
    have hrest : ∀ q ∈ bs, q.1 < 4 := fun q hq => hbs q (.tail _ hq)
    rw [List.foldl_cons]
    by_cases hin : ∃ q ∈ bs, q.1 = k
    · exact ih _ hrest (fun q hq => h q (.tail _ hq)) hin
    · obtain ⟨q, hq, hqk⟩ := hmem
      obtain rfl : q = p := (List.mem_cons.mp hq).resolve_right fun hq => hin ⟨q, hq, hqk⟩
      have hlast := wordByte_mergeBytes_other (setByte x q.1 q.2) hk hrest fun q hq hk => hin ⟨q, hq, hk⟩
      rw [mergeBytes] at hlast
      rw [hlast, wordByte_setByte x _ (hbs q (.head _)) hk, if_pos hqk, h q (.head _) hqk]

/-- The bytes of an access in one word. -/
theorem mem_bytesOf {p : Nat × Byte} : p ∈ bytesOf (accBytes sec a v) w ↔
    ∃ i < a.size, 8 * sec + (a.off + i) / 4 = w ∧ p = ((a.off + i) % 4, BitVec.ofNat 8 (v / 256 ^ i)) := by
  unfold bytesOf accBytes
  simp only [List.mem_map, List.mem_filter, List.mem_zipIdx_iff_getElem?, beq_iff_eq]
  constructor
  · rintro ⟨_, ⟨⟨⟨c, i⟩, hc, rfl⟩, hw⟩, rfl⟩
    obtain ⟨hi, hci⟩ := List.getElem?_eq_some_iff.mp hc
    rw [getElem_leOfNat] at hci
    exact ⟨i, by simpa using hi, hw, by rw [← hci]⟩
  · rintro ⟨i, hi, hw, rfl⟩
    exact ⟨_, ⟨⟨(BitVec.ofNat 8 (v / 256 ^ i), i), List.getElem?_eq_some_iff.mpr ⟨by simpa using hi, getElem_leOfNat ..⟩, rfl⟩, hw⟩, rfl⟩

theorem mem_accWords (h : 0 < a.size) : w ∈ accWords sec a ↔ 8 * sec + a.off / 4 ≤ w ∧ w ≤ 8 * sec + (a.off + a.size - 1) / 4 := by
  unfold accWords
  simp only [List.mem_map, List.mem_range]
  constructor
  · rintro ⟨i, hi, rfl⟩
    omega
  · intro h
    exact ⟨w - (8 * sec + a.off / 4), by omega, by omega⟩

theorem nodup_accWords (sec : Nat) (a : LaneAcc) : (accWords sec a).Nodup :=
  List.nodup_range.map fun i j h => by simpa using h

/-- An access that writes a word in full (R266). -/
theorem wholeWord_bytesOf : wholeWord (bytesOf (accBytes sec a v) w) = true ↔ 32 * sec + a.off ≤ 4 * w ∧ 4 * w + 4 ≤ 32 * sec + a.off + a.size := by
  unfold wholeWord
  simp only [List.all_eq_true, List.mem_range, List.any_eq_true, beq_iff_eq]
  constructor
  · intro h
    obtain ⟨_, hp, hk⟩ := h 0 (by decide)
    obtain ⟨i, hi, hw, rfl⟩ := mem_bytesOf.mp hp
    obtain ⟨_, hp', hk'⟩ := h 3 (by decide)
    obtain ⟨i', hi', hw', rfl⟩ := mem_bytesOf.mp hp'
    dsimp only at hk hk'
    omega
  · intro h k hk
    exact ⟨_, mem_bytesOf.mpr ⟨4 * w + k - (32 * sec + a.off), by omega, by omega, rfl⟩, by dsimp only; omega⟩

end

/-! ## Values of words -/

/-- A word with bytes merged into it: it is poisoned no more once all its bytes are written (R266). -/
def mergeWord (x : Word × Bool) (bs : List (Nat × Byte)) : Word × Bool := (mergeBytes x.1 bs, x.2 && !wholeWord bs)

/-- Words after an access has written its number. -/
def accMerge (sec : Nat) (a : LaneAcc) (v : Nat) (m : Nat → Word × Bool) (w : Nat) : Word × Bool :=
  if w ∈ accWords sec a then mergeWord (m w) (bytesOf (accBytes sec a v) w) else m w

/-- The bytes of words. -/
def bytesIn (m : Nat → Word × Bool) (c : Nat) : Byte := wordByte (m (c / 4)).1 (c % 4)

section
variable {m : Nat → Word × Bool} {sec v : Nat} {a : LaneAcc}

theorem bytesIn_accMerge (h : 0 < a.size) : bytesIn (accMerge sec a v m) = putAt (bytesIn m) (32 * sec + a.off) a.size v := by
  funext c
  have hc : c % 4 < 4 := Nat.mod_lt _ (by decide)
  have hlt : ∀ p ∈ bytesOf (accBytes sec a v) (c / 4), p.1 < 4 := fun p hp => by
    obtain ⟨i, -, -, rfl⟩ := mem_bytesOf.mp hp
    exact Nat.mod_lt _ (by decide)
  unfold bytesIn putAt
  by_cases hin : 32 * sec + a.off ≤ c ∧ c < 32 * sec + a.off + a.size
  · rw [if_pos hin, accMerge, if_pos ((mem_accWords h).mpr (by omega)), mergeWord]
    refine wordByte_mergeBytes_same _ hc hlt (fun p hp hk => ?_) ?_
    · obtain ⟨i, hi, hw, rfl⟩ := mem_bytesOf.mp hp
      dsimp only at hk
      obtain rfl : i = c - (32 * sec + a.off) := by omega
      rfl
    · exact ⟨_, mem_bytesOf.mpr ⟨c - (32 * sec + a.off), by omega, by omega, rfl⟩, by dsimp only; omega⟩
  · rw [if_neg hin]
    unfold accMerge mergeWord
    split
    · refine wordByte_mergeBytes_other _ hc hlt fun p hp hk => ?_
      obtain ⟨i, hi, hw, rfl⟩ := mem_bytesOf.mp hp
      dsimp only at hk
      omega
    · rfl

theorem accMerge_poison (h : 0 < a.size) (w : Nat) :
    (accMerge sec a v m w).2 = ((m w).2 && !(32 * sec + a.off ≤ 4 * w && 4 * w + 4 ≤ 32 * sec + a.off + a.size)) := by
  have hwhole := wholeWord_bytesOf (sec := sec) (a := a) (v := v) (w := w)
  unfold accMerge mergeWord
  split
  · rw [← Bool.decide_and, Bool.eq_iff_iff.mpr (hwhole.trans (decide_eq_true_iff).symm)]
  · next hin =>
    rw [mem_accWords h] at hin
    rw [← Bool.decide_and, decide_eq_false (by omega)]
    simp

/-- The number that an access reads from words, and whether it is poisoned. -/
theorem accValue_eq (m : Nat → Word × Bool) (sec off n : Nat) :
    accValue m sec off n = (numAt (bytesIn m) (32 * sec + off) n, (List.range n).any fun i => (m ((32 * sec + off + i) / 4)).2) := by
  have hword (i : Nat) : (32 * sec + off + i) / 4 = 8 * sec + (off + i) / 4 := by omega
  have hbyte (i : Nat) : (32 * sec + off + i) % 4 = (off + i) % 4 := by omega
  simp only [accValue, numAt, bytesIn, hword, hbyte]

end

/-! ## What a word's value in coherence order rests on (R285) -/

/-- A request or an answer to a recall: the messages that a word's value may rest on. -/
def Msg.tells (m : Msg) : Bool := match m with | .req _ | .answer _ => true | _ => false

/-- Two states with the same values of words: the words of the L1s, the write-backs, the owners, the homes and the messages that tell values are the
same; a sector that is valid stays so. -/
structure Alike (s t : State) : Prop where
  l1     : ∀ n, (t.core n).l1 = (s.core n).l1
  wbuf   : ∀ n, (t.core n).wbuf = (s.core n).wbuf
  owners : ∀ line, (t.dirLine line).owners = (s.dirLine line).owners
  home   : ∀ w, t.homeWord w = s.homeWord w
  valid  : ∀ w, s.sectorValid w = true → t.sectorValid w = true
  net    : t.net.filter Msg.tells = s.net.filter Msg.tells

section
variable {s t u : State} {core w : Nat}

theorem Alike.refl (s : State) : Alike s s := ⟨fun _ => rfl, fun _ => rfl, fun _ => rfl, fun _ => rfl, fun _ h => h, rfl⟩

theorem Alike.trans (h : Alike s t) (k : Alike t u) : Alike s u :=
  ⟨fun n => (k.l1 n).trans (h.l1 n), fun n => (k.wbuf n).trans (h.wbuf n), fun n => (k.owners n).trans (h.owners n), fun w => (k.home w).trans (h.home w),
    fun w hw => k.valid w (h.valid w hw), k.net.trans h.net⟩

/-- The words of one word's L2 line, of DRAM and of its poisoned sectors make the word at its home. -/
theorem homeWord_congr (hl2 : t.l2 = s.l2) (hdram : t.dram = s.dram) (hpoison : t.dramPoison = s.dramPoison) (w : Nat) : t.homeWord w = s.homeWord w := by
  unfold State.homeWord State.dramWord
  rw [hl2, hdram, hpoison]

theorem alike_of_same (hcores : t.cores = s.cores) (hdir : t.dir = s.dir) (hl2 : t.l2 = s.l2) (hdram : t.dram = s.dram)
    (hpoison : t.dramPoison = s.dramPoison) (hnet : t.net = s.net) : Alike s t :=
  ⟨fun n => by rw [State.core, hcores]; rfl, fun n => by rw [State.core, hcores]; rfl, fun line => by rw [State.dirLine, hdir]; rfl,
    homeWord_congr hl2 hdram hpoison, fun w h => by rwa [State.sectorValid, hl2], by rw [hnet]⟩

theorem alike_forEach {α : Type} {f : State → α → State} (h : ∀ s a, Alike s (f s a)) (ls : List α) (s : State) : Alike s (forEach ls s f) := by
  unfold forEach
  induction ls generalizing s with
  | nil => exact .refl s
  | cons a ls ih => exact (h s a).trans (ih _)

/-! ### Values of owners -/

theorem any_filter_of {α : Type} {p f : α → Bool} (h : ∀ x, p x = false → f x = false) (l : List α) : l.any f = (l.filter p).any f := by
  induction l with
  | nil => rfl
  | cons x l ih =>
    cases hx : p x with
    | true => simp [hx, ih]
    | false => simp [hx, h x hx, ih]

theorem findSome?_filter_of {α β : Type} {p : α → Bool} {f : α → Option β} (h : ∀ x, p x = false → f x = none) (l : List α) :
    l.findSome? f = (l.filter p).findSome? f := by
  induction l with
  | nil => rfl
  | cons x l ih =>
    cases hx : p x with
    | true => rw [List.filter_cons_of_pos hx, List.findSome?_cons, List.findSome?_cons, ih]
    | false => simp [hx, h x hx, ih]

/-- A message is a request of a name. -/
def Msg.asks (id : Nat) (m : Msg) : Bool := match m with | .req r => r.id == id | _ => false

/-- A request of a name is on its way. -/
def State.asked (s : State) (id : Nat) : Bool := s.net.any (Msg.asks id)

/-- The value of a word in a core's answer to a recall. -/
def Msg.answerValue (core w : Nat) (m : Msg) : Option (Word × Bool) :=
  match m with
  | .answer r => if r.agent == core && r.line == w / 32 && r.kind == .rcl then (tget r.data (w % 32)).map fun v => (v, r.poison.getLsbD (w % 32)) else none
  | _ => none

/-- The value of a word in a write-back. -/
def WbLine.value (b : WbLine) (w : Nat) : Option (Word × Bool) := (tget b.data (w % 32)).map fun v => (v, b.poison.getLsbD (w % 32))

/-- The value of a word that a core's L1 holds under OWN. -/
def State.l1Owned (s : State) (core w : Nat) : Option (Word × Bool) := ((s.l1Word core w).filter fun x => x.st == .owned).map fun x => (x.val, x.poison)

/-- The value that an owner holds: in its L1, in its write-back buffer, or in its answer on the way. -/
theorem ownedValue_eq (s : State) (core w : Nat) : s.ownedValue core w =
    (s.l1Owned core w).or (((s.core core).wbuf.find? fun b => b.line == w / 32 && b.words.getLsbD (w % 32) && s.asked b.req).elim
      (s.net.findSome? (Msg.answerValue core w)) fun b => b.value w) := by
  unfold State.ownedValue State.l1Owned
  cases (s.l1Word core w).filter fun x => x.st == .owned with
  | some x => rfl
  | none =>
    change (match (s.core core).wbuf.find? fun b => b.line == w / 32 && b.words.getLsbD (w % 32) && s.asked b.req with
      | some b => b.value w
      | none => s.net.findSome? (Msg.answerValue core w)) = Option.elim _ _ _
    cases (s.core core).wbuf.find? fun b => b.line == w / 32 && b.words.getLsbD (w % 32) && s.asked b.req <;> rfl

theorem Alike.asked (h : Alike s t) (id : Nat) : t.asked id = s.asked id := by
  unfold State.asked
  rw [any_filter_of (p := Msg.tells) (fun m hm => by cases m <;> simp_all [Msg.tells, Msg.asks]),
    any_filter_of (p := Msg.tells) (fun m hm => by cases m <;> simp_all [Msg.tells, Msg.asks]) s.net, h.net]

theorem Alike.answers (h : Alike s t) (core w : Nat) : t.net.findSome? (Msg.answerValue core w) = s.net.findSome? (Msg.answerValue core w) := by
  rw [findSome?_filter_of (p := Msg.tells) (fun m hm => by cases m <;> simp_all [Msg.tells, Msg.answerValue]),
    findSome?_filter_of (p := Msg.tells) (fun m hm => by cases m <;> simp_all [Msg.tells, Msg.answerValue]) s.net, h.net]

theorem Alike.l1Word (h : Alike s t) (core w : Nat) : t.l1Word core w = s.l1Word core w := by
  unfold State.l1Word State.l1Line
  rw [h.l1]

theorem Alike.ownedValue (h : Alike s t) (core w : Nat) : t.ownedValue core w = s.ownedValue core w := by
  simp only [ownedValue_eq, State.l1Owned, h.l1Word, h.wbuf, h.asked, h.answers]

/-- The owner of a word in the directory. -/
def State.owner (s : State) (w : Nat) : Option Nat := (s.dirLine (w / 32)).ownerOf (w % 32)

theorem Alike.owner (h : Alike s t) (w : Nat) : t.owner w = s.owner w := by
  unfold State.owner DirLine.ownerOf
  rw [h.owners]

theorem cohWord_eq (s : State) (w : Nat) : s.cohWord w =
    match s.owner w with
    | some a => if a < 216 then (s.ownedValue a w).getD (s.homeWord w) else s.homeWord w
    | none => s.homeWord w := rfl

theorem Alike.cohWord (h : Alike s t) : t.cohWord = s.cohWord := by
  funext w
  simp only [cohWord_eq, h.owner, h.ownedValue, h.home]

theorem Alike.holdsOwn (h : Alike s t) (core w : Nat) : holdsOwn t core w = holdsOwn s core w := by
  show (t.owner w == _ && _) = (s.owner w == _ && _)
  rw [h.owner, h.l1Word]

/-- A word's value in terms of the directory, where its owner is a core or there is none. -/
theorem cohWord_unowned (h : s.owner w = none) : s.cohWord w = s.homeWord w := by
  rw [cohWord_eq, h]

theorem cohWord_owned (h : s.owner w = some core) (hcore : core < 216) : s.cohWord w = (s.ownedValue core w).getD (s.homeWord w) := by
  rw [cohWord_eq, h]
  exact if_pos hcore

end

/-! ## What changes no value of a word -/

section
variable {s : State} {n w line : Nat} {o : LsuOp} {q : OpPart} {a : LaneAcc}

theorem core_modCore_eq (s : State) (n m : Nat) (f : Core → Core) : (s.modCore n f).core m = if m = n then f (s.core n) else s.core m := by
  unfold State.core State.modCore State.setCore
  split
  · next h => rw [h, tgetD_tset_same]; rfl
  · next h => exact tgetD_tset_other _ _ _ h

theorem dirLine_modDir (s : State) (n m : Nat) (f : DirLine → DirLine) : (s.modDir n f).dirLine m = if m = n then f (s.dirLine n) else s.dirLine m :=
  tgetD_tput s.dir n m _ {}

theorem alike_count (s : State) (e : Ev) (n : Nat) : Alike s (s.count e n) := by
  rw [State.count_eq]
  exact alike_of_same rfl rfl rfl rfl rfl rfl

theorem alike_modCore (f : Core → Core) (hl1 : (f (s.core n)).l1 = (s.core n).l1) (hwbuf : (f (s.core n)).wbuf = (s.core n).wbuf) :
    Alike s (s.modCore n f) := by
  refine ⟨fun m => ?_, fun m => ?_, fun _ => rfl, fun _ => rfl, fun _ h => h, rfl⟩
  all_goals
    rw [core_modCore_eq]
    split
    · next h => rwa [h]
    · rfl

theorem alike_modDir (f : DirLine → DirLine) (h : (f (s.dirLine n)).owners = (s.dirLine n).owners) : Alike s (s.modDir n f) := by
  refine ⟨fun _ => rfl, fun _ => rfl, fun m => ?_, fun _ => rfl, fun _ h => h, rfl⟩
  rw [dirLine_modDir]
  split
  · next hm => rwa [hm]
  · rfl

theorem alike_modWarp (s : State) (g : Nat) (f : Warp → Warp) : Alike s (s.modWarp g f) := alike_of_same rfl rfl rfl rfl rfl rfl

theorem alike_fireCore (s : State) (core line : Nat) : Alike s (s.fireCore core line) := alike_of_same rfl rfl rfl rfl rfl rfl

theorem alike_send {f : Nat → Msg} (h : (f s.nextId).tells = false) : Alike s (s.send f) :=
  ⟨fun _ => rfl, fun _ => rfl, fun _ => rfl, fun _ => rfl, fun _ h => h, by simp [State.send, State.newId, h]⟩

theorem alike_deliverAtom (s : State) (o : LsuOp) (lane size old : Nat) (st poison : Bool) : Alike s (deliverAtom s o lane size old st poison) := by
  unfold deliverAtom State.resultData
  split
  · exact .refl s
  · exact alike_modWarp _ _ _

theorem alike_openWord (s : State) (g w va : Nat) (write : Bool) : Alike s (openWord s g w va write) :=
  ((alike_modCore _ rfl rfl).trans (alike_modDir _ rfl)).trans (alike_modWarp _ _ _)

/-- Race checks that stop no lane change no value. -/
theorem alike_raceAcc (h : o.det = false ∨ o.checked = false) (s : State) (q : OpPart) (a : LaneAcc) (seen : Nat → WordOpens) :
    Alike s (raceAcc s o q a seen).1 := by
  have hopen (s : State) (l : List (Nat × Nat)) (va : Nat × Nat → Nat) :
      Alike s (l.foldl (fun s w => openWord s o.warp w.1 (va w) (o.kind == .store)) s) := alike_forEach (fun s w => alike_openWord s _ _ _ _) l s
  unfold raceAcc
  split
  · exact .refl s
  · next hchecked =>
    have hdet : o.det = false := h.resolve_right fun h => hchecked (by rw [h]; rfl)
    dsimp only
    split
    · simp only [hdet, Bool.false_eq_true, if_false]
      exact (alike_count _ _ _).trans (hopen _ _ fun w => nbits (accVa a w.2).toNat 0 57 / 4)
    · exact hopen _ _ fun w => nbits (accVa a w.2).toNat 0 57 / 4

theorem raceHome_fst (s : State) (o : LsuOp) (q : OpPart) : (raceHome s o q).1 =
    forEach q.accs s fun s a => (raceAcc s o q a fun w => openGet (s.dirLine (w / 32)).opens w).1 := by
  unfold raceHome forEach
  exact (List.foldl_hom Prod.fst fun _ _ => rfl).symm

theorem alike_raceHome (h : o.det = false ∨ o.checked = false) (s : State) (q : OpPart) : Alike s (raceHome s o q).1 := by
  rw [raceHome_fst]
  exact alike_forEach (fun s a => alike_raceAcc h s q a _) _ _

/-- No lane is left out where the accesses do not stop at races. -/
theorem raceHome_skips (h : o.det = false ∨ o.checked = false) (s : State) (q : OpPart) (l : Nat) : (o.det && (raceHome s o q).2.getLsbD l) = false := by
  rcases h with h | h
  · rw [h]; rfl
  · have hnone : raceHome s o q = (s, 0) := by
      have hfst : ∀ (ls : List LaneAcc) (acc : State × LaneMask), ls.foldl (fun (acc : State × LaneMask) a =>
          let r := raceAcc acc.1 o q a fun w => openGet (acc.1.dirLine (w / 32)).opens w
          (r.1, if r.2 then acc.2 ||| laneBit a.lane else acc.2)) acc = acc := fun ls acc => by
        simp only [raceAcc, h, Bool.not_false, if_true, Bool.false_eq_true, if_false, List.foldl_fixed]
      exact hfst _ _
    rw [hnone]
    simp

/-- A word of an L2 line. -/
def L2Line.word (l : L2Line) (i : Nat) : Word × Bool := (tgetD l.data i 0, l.poison.getLsbD i)

theorem homeWord_line {l : L2Line} (h : tget s.l2 (w / 32) = some l) :
    s.homeWord w = if l.valid.getLsbD (w % 32 / 8) then l.word (w % 32) else s.dramWord w := by
  unfold State.homeWord
  rw [h]
  rfl

theorem sectorValid_line {l : L2Line} (h : tget s.l2 (w / 32) = some l) : s.sectorValid w = l.valid.getLsbD (w % 32 / 8) := by
  unfold State.sectorValid
  rw [h]

/-- One L2 line changes, and its words read as before. -/
theorem alike_line {t : State} {l' : L2Line} (ht : t.l2 = tset s.l2 line l') (hcores : t.cores = s.cores) (hdir : t.dir = s.dir) (hdram : t.dram = s.dram)
    (hpoison : t.dramPoison = s.dramPoison) (hnet : t.net = s.net) (hhome : ∀ w, w / 32 = line → t.homeWord w = s.homeWord w)
    (hvalid : ∀ w, w / 32 = line → s.sectorValid w = true → t.sectorValid w = true) : Alike s t := by
  refine ⟨fun n => by rw [State.core, hcores]; rfl, fun n => by rw [State.core, hcores]; rfl, fun n => by rw [State.dirLine, hdir]; rfl,
    fun w => ?_, fun w hw => ?_, by rw [hnet]⟩
  · by_cases hline : w / 32 = line
    · exact hhome w hline
    · unfold State.homeWord State.dramWord
      rw [ht, tget_tset_other _ _ hline, hdram, hpoison]
  · by_cases hline : w / 32 = line
    · exact hvalid w hline hw
    · unfold State.sectorValid at hw ⊢
      rwa [ht, tget_tset_other _ _ hline]

/-- A line of the L2 whose words, poison and valid sectors stay. -/
theorem alike_relabel {t : State} {l l' : L2Line} (hl : tget s.l2 line = some l) (ht : t.l2 = tset s.l2 line l') (hcores : t.cores = s.cores)
    (hdir : t.dir = s.dir) (hdram : t.dram = s.dram) (hpoison : t.dramPoison = s.dramPoison) (hnet : t.net = s.net)
    (hsame : l'.data = l.data ∧ l'.poison = l.poison ∧ l'.valid = l.valid) : Alike s t := by
  obtain ⟨hdata, hbad, hvalid⟩ := hsame
  refine alike_line ht hcores hdir hdram hpoison hnet (fun w hw => ?_) fun w hw h => ?_ <;> subst hw <;> have hl' := ht ▸ tget_tset_same s.l2 (w / 32) l'
  · rw [homeWord_line hl, homeWord_line hl', L2Line.word, hdata, hbad, hvalid, State.dramWord, hdram, hpoison]
    rfl
  · rwa [sectorValid_line hl', hvalid, ← sectorValid_line hl]

theorem alike_touchLine (s : State) (line : Nat) (cls : CacheClass) (launch : Nat) : Alike s (touchLine s line cls launch) := by
  unfold touchLine
  split
  · exact .refl s
  · next l hl =>
    cases cls
    all_goals
      dsimp only
      repeat' split
    all_goals exact alike_relabel hl rfl rfl rfl rfl rfl rfl ⟨rfl, rfl, rfl⟩

/-- A line that has a way in the L2 gets its sector without another line having to go. -/
theorem fullSet_of_line {l : L2Line} (h : tget s.l2 line = some l) : s.fullSet line = [] := by simp [State.fullSet, h]

theorem l2Room_of_line {l : L2Line} (h : tget s.l2 line = some l) : s.l2Room line = s := by
  unfold State.l2Room
  rw [fullSet_of_line h]
  rfl

theorem l2Open_of_line {l : L2Line} (h : tget s.l2 line = some l) : s.l2Open line = true := by
  unfold State.l2Open
  rw [fullSet_of_line h]
  rfl

/-- An L2 line that has taken a word. -/
def L2Line.put (l : L2Line) (i : Nat) (v : Word × Bool) : L2Line :=
  { l with data := tput l.data i v.1 0, poison := if v.2 then l.poison ||| bit32 i else l.poison &&& ~~~ bit32 i }

theorem getLsbD_bit32 {i j : Nat} (hj : j < 32) : (bit32 i).getLsbD j = decide (i = j) := by
  unfold bit32
  rw [BitVec.getLsbD_ofNat, Nat.testBit_two_pow]
  simp [hj]

theorem getLsbD_or_bit32 (m : BitVec 32) {i j : Nat} (hj : j < 32) : (m ||| bit32 i).getLsbD j = (m.getLsbD j || decide (i = j)) := by
  rw [BitVec.getLsbD_or, getLsbD_bit32 hj]

theorem getLsbD_clear_bit32 (m : BitVec 32) {i j : Nat} (hj : j < 32) : (m &&& ~~~ bit32 i).getLsbD j = (m.getLsbD j && !decide (i = j)) := by
  rw [BitVec.getLsbD_and, BitVec.getLsbD_not, getLsbD_bit32 hj, decide_eq_true hj, Bool.true_and]

theorem L2Line.word_put (l : L2Line) {i j : Nat} (v : Word × Bool) (hj : j < 32) : (l.put i v).word j = if j = i then v else l.word j := by
  have hpoison : (l.put i v).poison.getLsbD j = if j = i then v.2 else l.poison.getLsbD j := by
    unfold L2Line.put
    cases hv : v.2
    · rw [if_neg (by simp), getLsbD_clear_bit32 _ hj]
      by_cases h : j = i <;> simp [h, eq_comm (a := i)]
    · rw [if_pos rfl, getLsbD_or_bit32 _ hj]
      by_cases h : j = i <;> simp [h, eq_comm (a := i)]
  rw [L2Line.word, hpoison]
  show (tgetD (tput l.data i v.1 0) j 0, _) = _
  rw [tgetD_tput]
  split <;> rfl

theorem L2Line.valid_puts (s : State) (ws : List Nat) (l : L2Line) : (ws.foldl (fun l w => l.put (w % 32) (s.dramWord w)) l).valid = l.valid := by
  induction ws generalizing l with
  | nil => rfl
  | cons x ws ih => exact ih _

theorem L2Line.word_puts (s : State) (ws : List Nat) (l : L2Line) (w : Nat) (hline : ∀ x ∈ ws, x / 32 = w / 32) :
    (ws.foldl (fun l w => l.put (w % 32) (s.dramWord w)) l).word (w % 32) = if w ∈ ws then s.dramWord w else l.word (w % 32) := by
  induction ws generalizing l with
  | nil => rfl
  | cons x ws ih =>
    have hx := hline x (.head _)
    rw [List.foldl_cons, ih _ fun y hy => hline y (.tail _ hy), L2Line.word_put _ _ (Nat.mod_lt _ (by decide))]
    by_cases hw : w = x
    · subst hw
      simp
    · simp [hw, show w % 32 ≠ x % 32 by omega]

theorem tget_tset_of_eq {α : Type} (t : Tbl α) (x : α) {j k : Nat} (h : j = k) : tget (tset t k x) j = some x := by rw [h, tget_tset_same]

/-- The words of a word's sector. -/
def sectorWords (w : Nat) : List Nat := (List.range 8).map fun i => 32 * (w / 32) + 8 * (w % 32 / 8) + i

theorem mem_sectorWords {w x : Nat} (h : x / 32 = w / 32) : x ∈ sectorWords w ↔ w % 32 / 8 = x % 32 / 8 := by
  simp only [sectorWords, List.mem_map, List.mem_range]
  constructor
  · omega
  · exact fun hx => ⟨x % 8, by omega, by omega⟩

/-- Filling a sector of a line that has a way in the L2. -/
theorem fillSector_line {l : L2Line} (h : tget s.l2 (w / 32) = some l) (hnew : l.valid.getLsbD (w % 32 / 8) = false) :
    s.fillSector w = { s with l2 := tset s.l2 (w / 32) { (sectorWords w).foldl (fun l w => l.put (w % 32) (s.dramWord w)) l with
      valid := l.valid ||| BitVec.ofNat 4 (2 ^ (w % 32 / 8)), lru := s.now } } := by
  have hl : tgetD s.l2 (w / 32) L2Line.fresh = l := by rw [tgetD, h]; rfl
  have hvalid := L2Line.valid_puts s (sectorWords w) l
  unfold State.fillSector
  dsimp only
  rw [hl, hnew, l2Open_of_line h, l2Room_of_line h]
  simp only [Bool.not_true, Bool.or_false, Bool.false_eq_true, if_false]
  rw [← hvalid]
  rfl

theorem alike_fillSector {l : L2Line} (h : tget s.l2 (w / 32) = some l) : Alike s (s.fillSector w) := by
  cases hnew : l.valid.getLsbD (w % 32 / 8) with
  | true =>
    have hskip : s.fillSector w = s := by
      unfold State.fillSector
      exact if_pos (by rw [tgetD, h, Option.getD_some, hnew]; rfl)
    rw [hskip]
    exact .refl s
  | false =>
    have hbits (x : Nat) : (l.valid ||| BitVec.ofNat 4 (2 ^ (w % 32 / 8))).getLsbD (x % 32 / 8) =
        (l.valid.getLsbD (x % 32 / 8) || decide (w % 32 / 8 = x % 32 / 8)) := by
      rw [BitVec.getLsbD_or, BitVec.getLsbD_ofNat, Nat.testBit_two_pow, decide_eq_true (by omega : x % 32 / 8 < 4), Bool.true_and]
    rw [fillSector_line h hnew]
    refine alike_line rfl rfl rfl rfl rfl rfl (fun x hx => ?_) fun x hx hold => ?_
    · have hword := L2Line.word_puts s (sectorWords w) l x fun y hy => by
        simp only [sectorWords, List.mem_map, List.mem_range] at hy
        omega
      rw [homeWord_line (w := x) (by exact tget_tset_of_eq _ _ hx), homeWord_line (hx ▸ h)]
      refine (if_congr (Bool.eq_iff_iff.mp (hbits x)) hword rfl).trans ?_
      simp only [mem_sectorWords hx, Bool.or_eq_true, decide_eq_true_eq]
      by_cases hsec : w % 32 / 8 = x % 32 / 8
      · have hold : l.valid.getLsbD (x % 32 / 8) = false := hsec ▸ hnew
        simp [hsec, hold]
      · simp [hsec]
        rfl
    · rw [sectorValid_line (hx ▸ h)] at hold
      rw [sectorValid_line (w := x) (by exact tget_tset_of_eq _ _ hx)]
      exact (hbits x).trans (by rw [hold]; rfl)

end

/-! ## Writes at the home (R265, R266, R271) -/

section
variable {s t u : State} {w x a sec id : Nat} {v : Word × Bool} {bs : List (Nat × Byte)} {l : List Nat}

/-- The home's value of one word changes from s to t. -/
structure HomeSet (w : Nat) (v : Word × Bool) (s t : State) : Prop where
  cores : t.cores = s.cores
  dir   : t.dir = s.dir
  net   : t.net = s.net
  home  : t.homeWord = Function.update s.homeWord w v
  valid : ∀ x, s.sectorValid x = true → t.sectorValid x = true

theorem HomeSet.trans {v' : Word × Bool} (h : HomeSet w v s t) (k : HomeSet w v' t u) : HomeSet w v' s u :=
  ⟨k.cores.trans h.cores, k.dir.trans h.dir, k.net.trans h.net, by rw [k.home, h.home, Function.update_idem], fun x hx => k.valid x (h.valid x hx)⟩

/-- The L2 line of a valid sector. -/
theorem exists_line (h : s.sectorValid w = true) : ∃ l, tget s.l2 (w / 32) = some l ∧ l.valid.getLsbD (w % 32 / 8) = true := by
  cases hl : tget s.l2 (w / 32) with
  | none => rw [State.sectorValid, hl] at h; cases h
  | some l => exact ⟨l, rfl, sectorValid_line hl ▸ h⟩

/-- One word of a valid sector changes in its L2 line. -/
theorem homeSet_line {f : L2Line → L2Line} (hv : s.sectorValid w = true) (ht : t.l2 = tmod s.l2 (w / 32) f) (hcores : t.cores = s.cores)
    (hdir : t.dir = s.dir) (hdram : t.dram = s.dram) (hpoison : t.dramPoison = s.dramPoison) (hnet : t.net = s.net)
    (hf : ∀ l : L2Line, tget s.l2 (w / 32) = some l → (f l).valid = l.valid ∧
      ∀ i, i < 32 → (f l).word i = if i = w % 32 then v else l.word i) : HomeSet w v s t := by
  obtain ⟨l, hl, hv⟩ := exists_line hv
  obtain ⟨hvalid, hword⟩ := hf l hl
  have hl' : tget t.l2 (w / 32) = some (f l) := by rw [ht, tget_tmod_same, hl]; rfl
  refine ⟨hcores, hdir, hnet, funext fun x => ?_, fun x hx => ?_⟩
  · by_cases hx : x / 32 = w / 32
    · rw [homeWord_line (hx ▸ hl'), hvalid, hword _ (Nat.mod_lt _ (by decide)), State.dramWord, hdram, hpoison]
      by_cases hxw : x = w
      · subst hxw
        rw [Function.update_self, if_pos hv, if_pos rfl]
      · rw [Function.update_of_ne hxw, if_neg (show ¬ x % 32 = w % 32 by omega), homeWord_line (hx ▸ hl)]
        rfl
    · rw [Function.update_of_ne (by rintro rfl; exact hx rfl)]
      unfold State.homeWord State.dramWord
      rw [ht, tget_tmod_other _ _ hx, hdram, hpoison]
  · by_cases hxw : x / 32 = w / 32
    · rw [sectorValid_line (hxw ▸ hl)] at hx
      rwa [sectorValid_line (hxw ▸ hl'), hvalid]
    · unfold State.sectorValid at hx ⊢
      rwa [ht, tget_tmod_other _ _ hxw]

theorem fillSector_valid (h : s.sectorValid w = true) : s.fillSector w = s := by
  obtain ⟨l, hl, hvalid⟩ := exists_line h
  unfold State.fillSector
  exact if_pos (by rw [tgetD, hl, Option.getD_some, hvalid]; rfl)

theorem sealSeen_eq (s : State) (line : Nat) : s.sealSeen line = { s with sealedSlots := (s.sealSeen line).sealedSlots } := by
  unfold State.sealSeen
  dsimp only
  split <;> rfl

theorem homeSet_sealSeen {line : Nat} (h : HomeSet w v s t) : HomeSet w v s (t.sealSeen line) := by
  rw [sealSeen_eq]
  exact ⟨h.cores, h.dir, h.net, h.home, h.valid⟩

/-- Bytes merged into the home's copy of a word of a valid sector. -/
theorem homeSet_homeMerge (bs : List (Nat × Byte)) (h : s.sectorValid w = true) : HomeSet w (mergeWord (s.homeWord w) bs) s (s.homeMerge w bs) := by
  unfold State.homeMerge
  rw [fillSector_valid h]
  dsimp only
  refine homeSet_sealSeen ?_
  rw [if_pos h]
  refine homeSet_line h rfl rfl rfl rfl rfl rfl fun l hl => ⟨rfl, fun i hi => ?_⟩
  rw [sectorValid_line hl] at h
  rw [homeWord_line hl, if_pos h, L2Line.word, tgetD_tput, L2Line.word, L2Line.word, mergeWord]
  have hpoison : (if wholeWord bs = true then l.poison &&& ~~~ bit32 (w % 32) else l.poison).getLsbD i =
      (l.poison.getLsbD i && !(wholeWord bs && decide (w % 32 = i))) := by
    cases wholeWord bs
    · simp
    · rw [if_pos rfl, getLsbD_clear_bit32 _ hi, Bool.true_and]
  rw [hpoison]
  by_cases hw : i = w % 32
  · subst hw
    simp
  · simp [hw, Ne.symm hw]

/-- Words with the same bytes are the same. -/
theorem word_ext {y z : Word} (h : ∀ k, k < 4 → wordByte y k = wordByte z k) : y = z := by
  have hy : y.toNat < 2 ^ 32 := y.isLt
  have hz : z.toNat < 2 ^ 32 := z.isLt
  have hbyte (k : Nat) (hk : k < 4) : nbits y.toNat (8 * k) 8 % 2 ^ 8 = nbits z.toNat (8 * k) 8 % 2 ^ 8 := congrArg BitVec.toNat (h k hk)
  have h0 := hbyte 0 (by decide)
  have h1 := hbyte 1 (by decide)
  have h2 := hbyte 2 (by decide)
  have h3 := hbyte 3 (by decide)
  simp only [nbits] at h0 h1 h2 h3
  apply BitVec.eq_of_toNat_eq
  omega

/-- All four bytes of a word, merged into another one, make it that word. -/
theorem mergeWord_whole (z : Word × Bool) (y : Word) : mergeWord z ((List.range 4).map fun k => (k, wordByte y k)) = (y, false) := by
  have hwhole : wholeWord ((List.range 4).map fun k => (k, wordByte y k)) = true := by simp [wholeWord, List.range_succ]
  have hval : mergeBytes z.1 ((List.range 4).map fun k => (k, wordByte y k)) = y := word_ext fun k hk =>
    wordByte_mergeBytes_same _ hk (by simp [List.range_succ]) (by rintro p hp rfl; obtain ⟨j, -, rfl⟩ := List.mem_map.mp hp; rfl) ⟨(k, wordByte y k), by simpa using hk, rfl⟩
  rw [mergeWord, hval, hwhole]
  simp

/-- A whole word written at the home. -/
theorem homeSet_homePut (y : Word) (poison : Bool) (h : s.sectorValid w = true) : HomeSet w (y, poison) s (s.homePut w y poison) := by
  have hmerge := homeSet_homeMerge ((List.range 4).map fun k => (k, wordByte y k)) h
  rw [mergeWord_whole] at hmerge
  unfold State.homePut
  dsimp only
  cases poison with
  | false => exact hmerge
  | true =>
    have hvalid := hmerge.valid w h
    rw [if_neg (by simp), if_pos hvalid]
    refine hmerge.trans (homeSet_line hvalid rfl rfl rfl rfl rfl rfl fun l hl => ⟨rfl, fun i hi => ?_⟩)
    have hword := (homeWord_line hl).symm.trans (congrFun hmerge.home w)
    rw [← sectorValid_line hl, if_pos hvalid, Function.update_self] at hword
    rw [L2Line.word, getLsbD_or_bit32 _ hi]
    by_cases hw : i = w % 32
    · subst hw
      rw [if_pos rfl]
      exact Prod.ext (show tgetD l.data _ 0 = y from congrArg Prod.fst hword) (by simp)
    · simp [hw, Ne.symm hw, L2Line.word]

end

/-! ## Values that owners hold (R271, R278) -/

section
variable {s t u : State} {w x a c sec id : Nat} {v : Word × Bool} {bs : List (Nat × Byte)} {l : List Nat}

/-- Changes of the write-backs and messages, one by one, that change the value of a word that each holds in the same way. -/
theorem ownedValue_map {φ : Word × Bool → Word × Bool} {fb : WbLine → WbLine} {fm : Msg → Msg}
    (hl1 : u.l1Owned c x = (s.l1Owned c x).map φ) (hwbuf : (u.core c).wbuf = (s.core c).wbuf.map fb)
    (hname : ∀ b, (fb b).req = b.req ∧ (fb b).line = b.line ∧ (fb b).words = b.words) (hvalue : ∀ b, b.line = x / 32 → (fb b).value x = (b.value x).map φ)
    (hnet : u.net = s.net.map fm) (hasks : ∀ m id, (fm m).asks id = m.asks id)
    (hanswer : ∀ m, (fm m).answerValue c x = (m.answerValue c x).map φ) : u.ownedValue c x = (s.ownedValue c x).map φ := by
  have hasked (id : Nat) : u.asked id = s.asked id := by
    simp only [State.asked, hnet, List.any_map, Function.comp_def, hasks]
  have hanswers : u.net.findSome? (Msg.answerValue c x) = (s.net.findSome? (Msg.answerValue c x)).map φ := by
    rw [hnet, List.findSome?_map, List.map_findSome?]
    exact congrArg (List.findSome? · s.net) (funext hanswer)
  have hfind : ((u.core c).wbuf.find? fun b => b.line == x / 32 && b.words.getLsbD (x % 32) && u.asked b.req) =
      ((s.core c).wbuf.find? fun b => b.line == x / 32 && b.words.getLsbD (x % 32) && s.asked b.req).map fb := by
    rw [hwbuf, List.find?_map]
    simp only [Function.comp_def, hasked, (hname _).1, (hname _).2.1, (hname _).2.2]
  rw [ownedValue_eq, ownedValue_eq, hl1, hfind, hanswers]
  cases hfound : (s.core c).wbuf.find? fun b => b.line == x / 32 && b.words.getLsbD (x % 32) && s.asked b.req with
  | none => cases s.l1Owned c x <;> rfl
  | some b =>
    have hline : b.line = x / 32 := by
      have := List.find?_some hfound
      simp only [Bool.and_eq_true, beq_iff_eq] at this
      exact this.1.1
    have hb := hvalue b hline
    cases s.l1Owned c x with
    | none => exact hb
    | some y => rfl

/-- A change of a core's write-backs and of the messages, one by one. -/
def State.mapHeld (s : State) (a : Nat) (fb : WbLine → WbLine) (fm : Msg → Msg) : State :=
  { s.modCore a (fun k => { k with wbuf := k.wbuf.map fb }) with net := s.net.map fm }

theorem core_mapHeld (s : State) (a : Nat) (fb : WbLine → WbLine) (fm : Msg → Msg) (c : Nat) :
    (s.mapHeld a fb fm).core c = if c = a then { s.core a with wbuf := (s.core a).wbuf.map fb } else s.core c :=
  core_modCore_eq s a c fun k => { k with wbuf := k.wbuf.map fb }

theorem l1Word_mapHeld (s : State) (a : Nat) (fb : WbLine → WbLine) (fm : Msg → Msg) (c x : Nat) : (s.mapHeld a fb fm).l1Word c x = s.l1Word c x := by
  unfold State.l1Word State.l1Line
  rw [core_mapHeld]
  split
  · next h => rw [h]
  · rfl

theorem ownedValue_mapHeld {φ : Word × Bool → Word × Bool} {fb : WbLine → WbLine} {fm : Msg → Msg} (hφ : c ≠ a → ∀ v, φ v = v)
    (hname : ∀ b, (fb b).req = b.req ∧ (fb b).line = b.line ∧ (fb b).words = b.words) (hvalue : ∀ b, b.line = x / 32 → c = a → (fb b).value x = (b.value x).map φ)
    (hasks : ∀ m id, (fm m).asks id = m.asks id) (hanswer : ∀ m, (fm m).answerValue c x = (m.answerValue c x).map φ)
    (hl1 : u.l1Owned c x = (s.l1Owned c x).map φ) (hwbuf : (u.core c).wbuf = (s.core c).wbuf) (hnet : u.net = s.net) :
    (u.mapHeld a fb fm).ownedValue c x = (s.ownedValue c x).map φ := by
  have hl1' : (u.mapHeld a fb fm).l1Owned c x = (s.l1Owned c x).map φ := by rw [← hl1, State.l1Owned, l1Word_mapHeld]; rfl
  have hnet' : (u.mapHeld a fb fm).net = s.net.map fm := by rw [← hnet]; rfl
  by_cases hc : c = a
  · have hwbuf' : ((u.mapHeld a fb fm).core c).wbuf = (s.core c).wbuf.map fb := by
      rw [core_mapHeld, if_pos hc, ← hwbuf, hc]
    exact ownedValue_map hl1' hwbuf' hname (fun b hb => hvalue b hb hc) hnet' hasks hanswer
  · have hwbuf' : ((u.mapHeld a fb fm).core c).wbuf = (s.core c).wbuf.map id := by
      rw [core_mapHeld, if_neg hc, hwbuf, List.map_id]
    refine ownedValue_map hl1' hwbuf' (fun _ => ⟨rfl, rfl, rfl⟩) (fun b _ => ?_) hnet' hasks hanswer
    rw [funext (hφ hc), Option.map_id']
    rfl

/-- Two words of one line have different places in it. -/
theorem word_ne {x w : Nat} (h : x ≠ w) (hline : x / 32 = w / 32) : x % 32 ≠ w % 32 := by omega

theorem l1Word_l1Set (s : State) (a w : Nat) (y : L1Word) (c x : Nat) :
    (s.l1Set a w y).l1Word c x = if c = a ∧ x = w then some y else s.l1Word c x := by
  unfold State.l1Word State.l1Line State.l1Set
  rw [core_modCore_eq]
  by_cases hc : c = a
  · rw [if_pos hc]
    subst hc
    dsimp only
    by_cases hline : x / 32 = w / 32
    · rw [tget_tset_of_eq _ _ hline, Option.bind_some, tget_tset]
      by_cases hx : x = w
      · rw [if_pos (by rw [hx]), if_pos ⟨rfl, hx⟩]
      · rw [if_neg (word_ne hx hline), if_neg fun h => hx h.2, hline, tgetD]
        cases tget (s.core c).l1 (w / 32) <;> rfl
    · rw [tget_tset_other _ _ hline, if_neg]
      rintro ⟨-, rfl⟩
      exact hline rfl
  · rw [if_neg hc, if_neg fun h => hc h.1]

theorem l1Word_l1Drop (s : State) (a w c x : Nat) : (s.l1Drop a w).l1Word c x = if c = a ∧ x = w then none else s.l1Word c x := by
  unfold State.l1Word State.l1Line State.l1Drop
  rw [core_modCore_eq]
  by_cases hc : c = a
  · rw [if_pos hc]
    subst hc
    cases hl : tget (s.core c).l1 (w / 32) with
    | none =>
      dsimp only
      split
      · next h => rw [h.2, hl]; rfl
      · rfl
    | some l =>
      have hwords : (tget (if (tdel l.words (w % 32)).isEmpty then tdel (s.core c).l1 (w / 32)
          else tset (s.core c).l1 (w / 32) { l with words := tdel l.words (w % 32) }) (x / 32)).bind (fun l => tget l.words (x % 32)) =
          if x / 32 = w / 32 then tget (tdel l.words (w % 32)) (x % 32) else (tget (s.core c).l1 (x / 32)).bind fun l => tget l.words (x % 32) := by
        by_cases hline : x / 32 = w / 32
        · rw [if_pos hline, hline]
          split
          · next hempty => rw [List.isEmpty_iff.mp hempty, tget_tdel_same]; rfl
          · rw [tget_tset_same]; rfl
        · rw [if_neg hline]
          split
          · rw [tget_tdel_other _ hline]
          · rw [tget_tset_other _ _ hline]
      refine hwords.trans ?_
      by_cases hx : x = w
      · rw [if_pos (by rw [hx]), if_pos ⟨rfl, hx⟩, hx, tget_tdel_same]
      · rw [if_neg (show ¬ (c = c ∧ x = w) from fun h => hx h.2)]
        split
        · next hline => rw [tget_tdel_other _ (word_ne hx hline), hline, hl]; rfl
        · rfl
  · rw [if_neg hc, if_neg fun h => hc h.1]

/-! ### A write of an owner -/

/-- A write-back with bytes merged into the value of a word. -/
def WbLine.merge (w : Nat) (bs : List (Nat × Byte)) (b : WbLine) : WbLine :=
  match tget b.data (w % 32) with
  | some v => if b.line != w / 32 then b else
    { b with data := tset b.data (w % 32) (mergeBytes v bs), poison := if wholeWord bs then b.poison &&& ~~~ bit32 (w % 32) else b.poison }
  | none => b

theorem WbLine.merge_names (w : Nat) (bs : List (Nat × Byte)) (b : WbLine) :
    (b.merge w bs).req = b.req ∧ (b.merge w bs).line = b.line ∧ (b.merge w bs).words = b.words := by
  unfold WbLine.merge
  split
  · split <;> exact ⟨rfl, rfl, rfl⟩
  · exact ⟨rfl, rfl, rfl⟩

/-- Poison of a word after bytes have been merged into one. -/
theorem getLsbD_mergePoison (p : BitVec 32) (bs : List (Nat × Byte)) {i j : Nat} (hj : j < 32) :
    (if wholeWord bs then p &&& ~~~ bit32 i else p).getLsbD j = if i = j then p.getLsbD j && !wholeWord bs else p.getLsbD j := by
  cases wholeWord bs
  · simp
  · rw [if_pos rfl, getLsbD_clear_bit32 _ hj]
    by_cases h : i = j <;> simp [h]

/-- The data of a line's words with bytes merged into one that it has. -/
def mergeData (d : Tbl Word) (i : Nat) (bs : List (Nat × Byte)) : Tbl Word := match tget d i with | some v => tset d i (mergeBytes v bs) | none => d

theorem map_if_neg {α : Type} {p : Prop} [Decidable p] (h : ¬ p) (f : α → α) (o : Option α) : (o.map fun v => if p then f v else v) = o := by
  simp only [h, if_false, Option.map_id']

theorem value_mergeData (d : Tbl Word) (p : BitVec 32) (bs : List (Nat × Byte)) {x w : Nat} (hline : x / 32 = w / 32) :
    ((tget (mergeData d (w % 32) bs) (x % 32)).map fun v => (v, (if wholeWord bs then p &&& ~~~ bit32 (w % 32) else p).getLsbD (x % 32))) =
      ((tget d (x % 32)).map fun v => (v, p.getLsbD (x % 32))).map fun v => if x = w then mergeWord v bs else v := by
  rw [getLsbD_mergePoison _ _ (Nat.mod_lt _ (by decide)), mergeData]
  by_cases hx : x = w
  · subst hx
    cases hd : tget d (x % 32) with
    | none => simp [hd]
    | some y => simp [mergeWord]
  · have hne := word_ne hx hline
    rw [map_if_neg hx, if_neg (Ne.symm hne)]
    split
    · rw [tget_tset_other _ _ hne]
    · rfl

theorem WbLine.value_merge (w : Nat) (bs : List (Nat × Byte)) (b : WbLine) (hb : b.line = x / 32) :
    (b.merge w bs).value x = (b.value x).map fun v => if x = w then mergeWord v bs else v := by
  by_cases hline : x / 32 = w / 32
  · refine Eq.trans ?_ (value_mergeData b.data b.poison bs hline)
    unfold WbLine.merge mergeData
    cases hd : tget b.data (w % 32) with
    | some y =>
      dsimp only
      rw [if_neg (by simp [hb, hline])]
      rfl
    | none =>
      dsimp only
      rw [getLsbD_mergePoison _ _ (Nat.mod_lt _ (by decide)), WbLine.value]
      split
      · next h => rw [← h, hd]; rfl
      · rfl
  · have hx : x ≠ w := by
      rintro rfl
      exact hline rfl
    rw [map_if_neg hx, WbLine.merge]
    split
    · rw [if_pos (by simp [hb, hline])]
    · rfl

theorem Msg.asks_ownMerge (a w : Nat) (bs : List (Nat × Byte)) (m : Msg) (id : Nat) : (m.ownMerge a w bs).asks id = m.asks id := by
  cases m with
  | req r =>
    unfold Msg.ownMerge
    dsimp only
    split <;> rfl
  | answer r =>
    unfold Msg.ownMerge
    dsimp only
    split <;> rfl
  | reply r =>
    unfold Msg.ownMerge
    dsimp only
    split <;> rfl
  | _ => rfl

/-- An answer to a recall with bytes merged into the value of a word. -/
theorem Msg.answerValue_ownMerge (a w : Nat) (bs : List (Nat × Byte)) (c x : Nat) (m : Msg) :
    (m.ownMerge a w bs).answerValue c x = (m.answerValue c x).map fun v => if c = a ∧ x = w then mergeWord v bs else v := by
  cases m with
  | req r =>
    unfold Msg.ownMerge
    dsimp only
    split <;> rfl
  | reply r =>
    unfold Msg.ownMerge
    dsimp only
    split <;> rfl
  | answer r =>
    unfold Msg.ownMerge
    dsimp only
    by_cases hat : (r.agent == a && r.line == w / 32) = true
    · rw [if_pos hat]
      simp only [Bool.and_eq_true, beq_iff_eq] at hat
      obtain ⟨rfl, hline⟩ := hat
      unfold Msg.answerValue
      dsimp only
      by_cases hmine : (r.agent == c && r.line == x / 32 && r.kind == .rcl) = true
      · rw [if_pos hmine, if_pos hmine]
        simp only [Bool.and_eq_true, beq_iff_eq] at hmine
        obtain ⟨⟨rfl, hx⟩, -⟩ := hmine
        simp only [true_and]
        exact value_mergeData r.data r.poison bs (hx.symm.trans hline)
      · rw [if_neg hmine, if_neg hmine]
        rfl
    · rw [if_neg hat]
      by_cases hcx : c = a ∧ x = w
      · obtain ⟨rfl, rfl⟩ := hcx
        have hnone : (Msg.answer r).answerValue c x = none := if_neg fun h => hat (by
          simp only [Bool.and_eq_true] at h ⊢
          exact h.1)
        rw [hnone]
        rfl
      · exact (map_if_neg hcx _ _).symm
  | _ => rfl

/-- An owned word of an L1 with bytes merged into it. -/
def State.l1Merge (s : State) (a w : Nat) (bs : List (Nat × Byte)) : State :=
  match (s.l1Word a w).filter fun x => x.st == .owned with
  | some x => s.l1Set a w { x with val := mergeBytes x.val bs, poison := x.poison && !wholeWord bs }
  | none => s

theorem l1Owned_l1Merge (s : State) (a w : Nat) (bs : List (Nat × Byte)) (c x : Nat) :
    (s.l1Merge a w bs).l1Owned c x = (s.l1Owned c x).map fun v => if c = a ∧ x = w then mergeWord v bs else v := by
  unfold State.l1Merge
  cases hown : (s.l1Word a w).filter fun x => x.st == .owned with
  | none =>
    by_cases hcx : c = a ∧ x = w
    · obtain ⟨rfl, rfl⟩ := hcx
      have hnone : s.l1Owned c x = none := by rw [State.l1Owned, hown]; rfl
      dsimp only
      rw [hnone]
      rfl
    · exact (map_if_neg hcx _ _).symm
  | some y =>
    obtain ⟨hy, hst⟩ := Option.filter_eq_some_iff.mp hown
    unfold State.l1Owned
    rw [l1Word_l1Set]
    by_cases hcx : c = a ∧ x = w
    · obtain ⟨rfl, rfl⟩ := hcx
      rw [if_pos ⟨rfl, rfl⟩, hown]
      simpa [mergeWord] using hst
    · rw [if_neg hcx, map_if_neg hcx]

theorem ownMerge_skip (h : s.owner w ≠ some a) : s.ownMerge a w bs = s := if_pos (bne_iff_ne.mpr h)

theorem ownMerge_eq (h : s.owner w = some a) : s.ownMerge a w bs = (s.l1Merge a w bs).mapHeld a (WbLine.merge w bs) (Msg.ownMerge a w bs) :=
  if_neg fun hne => bne_iff_ne.mp hne h

theorem l1Merge_frame (s : State) (a w : Nat) (bs : List (Nat × Byte)) : s.l1Merge a w bs = { s with cores := (s.l1Merge a w bs).cores } := by
  unfold State.l1Merge
  split <;> rfl

theorem wbuf_l1Set (s : State) (a w : Nat) (y : L1Word) (c : Nat) : ((s.l1Set a w y).core c).wbuf = (s.core c).wbuf := by
  rw [State.l1Set, core_modCore_eq]
  split
  · next h => rw [h]
  · rfl

theorem wbuf_l1Merge (s : State) (a w : Nat) (bs : List (Nat × Byte)) (c : Nat) : ((s.l1Merge a w bs).core c).wbuf = (s.core c).wbuf := by
  unfold State.l1Merge
  split
  · exact wbuf_l1Set _ _ _ _ _
  · rfl

/-- What an owner's write makes of the values that owners hold. -/
theorem ownedValue_ownMerge (h : s.owner w = some a) (bs : List (Nat × Byte)) (c x : Nat) :
    (s.ownMerge a w bs).ownedValue c x = (s.ownedValue c x).map fun v => if c = a ∧ x = w then mergeWord v bs else v := by
  rw [ownMerge_eq h]
  refine ownedValue_mapHeld (fun hc v => if_neg fun h => hc h.1) (WbLine.merge_names w bs) (fun b hb hc => ?_) (Msg.asks_ownMerge a w bs)
    (Msg.answerValue_ownMerge a w bs c x) (l1Owned_l1Merge s a w bs c x) (wbuf_l1Merge s a w bs c) (by rw [l1Merge_frame])
  simp only [WbLine.value_merge w bs b hb, hc, true_and]

end

/-! ## The home serves a sector (R265, R271) -/

section
variable {s t u : State} {w x a c sec id : Nat} {v : Word × Bool} {bs : List (Nat × Byte)} {l : List Nat}

/-- A home serves a request of a name for words of a sector: the sector is in the L2, its words have no owners but the given ones, and no write-back
bears the name. -/
structure Serves (sec : Nat) (l : List Nat) (id : Nat) (s : State) : Prop where
  valid : ∀ w, w / 8 = sec → s.sectorValid w = true
  owned : s.ownedBy sec l
  named : ∀ n, ∀ b ∈ (s.core n).wbuf, b.req ≠ id

theorem Serves.alike (h : Serves sec l id s) (k : Alike s t) : Serves sec l id t := by
  refine ⟨fun w hw => k.valid w (h.valid w hw), fun i hi hsec x hx => ?_, fun n b hb => ?_⟩
  · rw [k.owners] at hx
    exact h.owned i hi hsec x hx
  · rw [k.wbuf] at hb
    exact h.named n b hb

/-- The owner of a word is an agent of its sector's owner records. -/
theorem owner_mem (h : s.ownedBy sec l) (hw : w / 8 = sec) (ho : s.owner w = some a) : a ∈ l := by
  unfold State.owner DirLine.ownerOf at ho
  cases hfind : (s.dirLine (w / 32)).owners.find? fun o => o.wmask.getLsbD (w % 32) with
  | none => rw [hfind] at ho; cases ho
  | some o =>
    rw [hfind] at ho
    obtain rfl := Option.some.inj ho
    have hline : w / 32 = sec / 4 := by omega
    exact h (w % 32) (Nat.mod_lt _ (by decide)) (by omega) o (hline ▸ List.mem_of_find?_eq_some hfind)
      (by simpa using List.find?_some hfind)

/-! ### What the home's value of a word makes of its value in coherence order -/

theorem HomeSet.owner (h : HomeSet w v s t) (x : Nat) : t.owner x = s.owner x := by
  unfold State.owner State.dirLine
  rw [h.dir]

theorem ownedValue_of_same (hcores : t.cores = s.cores) (hnet : t.net = s.net) (c x : Nat) : t.ownedValue c x = s.ownedValue c x := by
  simp only [ownedValue_eq, State.l1Owned, State.l1Word, State.l1Line, State.core, State.asked, hcores, hnet]

theorem HomeSet.core (h : HomeSet w v s t) (n : Nat) : t.core n = s.core n := by
  unfold State.core
  rw [h.cores]

theorem HomeSet.ownedValue (h : HomeSet w v s t) (c x : Nat) : t.ownedValue c x = s.ownedValue c x := ownedValue_of_same h.cores h.net c x

theorem HomeSet.cohWord_ne (h : HomeSet w v s t) (hx : x ≠ w) : t.cohWord x = s.cohWord x := by
  simp only [cohWord_eq, h.owner, h.ownedValue, h.home, Function.update_of_ne hx]

theorem HomeSet.cohWord_unowned (h : HomeSet w v s t) (ho : s.owner w = none) : t.cohWord = Function.update s.cohWord w v := by
  funext x
  by_cases hx : x = w
  · subst hx
    rw [cohWord_unowned ((h.owner x).trans ho), h.home, Function.update_self, Function.update_self]
  · rw [h.cohWord_ne hx, Function.update_of_ne hx]

theorem HomeSet.serves (h : HomeSet w v s t) (k : Serves sec l id s) : Serves sec l id t := by
  refine ⟨fun x hx => h.valid x (k.valid x hx), fun i hi hsec o ho => ?_, fun n b hb => ?_⟩
  · rw [State.dirLine, h.dir] at ho
    exact k.owned i hi hsec o ho
  · rw [h.core] at hb
    exact k.named n b hb

/-! ### Stores -/

theorem ownMerge_frame (s : State) (a w : Nat) (bs : List (Nat × Byte)) :
    s.ownMerge a w bs = { s with cores := (s.ownMerge a w bs).cores, net := (s.ownMerge a w bs).net } := by
  by_cases h : s.owner w = some a
  · rw [ownMerge_eq h, l1Merge_frame]
    rfl
  · rw [ownMerge_skip h]

theorem serves_ownMerge (h : Serves sec l id s) (a w : Nat) (bs : List (Nat × Byte)) : Serves sec l id (s.ownMerge a w bs) := by
  have hframe := ownMerge_frame s a w bs
  refine ⟨fun x hx => ?_, ?_, fun n b hb => ?_⟩
  · rw [hframe]
    exact h.valid x hx
  · rw [hframe]
    exact h.owned
  · by_cases ho : s.owner w = some a
    · rw [ownMerge_eq ho, core_mapHeld] at hb
      split at hb
      · obtain ⟨b', hb', rfl⟩ := List.mem_map.mp hb
        rw [wbuf_l1Merge] at hb'
        rw [(WbLine.merge_names w bs b').1]
        exact h.named a b' hb'
      · rw [wbuf_l1Merge] at hb
        exact h.named n b hb
    · rw [ownMerge_skip ho] at hb
      exact h.named n b hb

/-- A store to a word of a sector whose owner, if it has one, is the storing agent: the word takes the bytes, no other word changes. -/
theorem cohWord_homeStore (h : Serves sec [a] id s) (ha : a < 216) (hw : w / 8 = sec) (bs : List (Nat × Byte)) :
    ((s.homeMerge w bs).ownMerge a w bs).cohWord = Function.update s.cohWord w (mergeWord (s.cohWord w) bs) := by
  have hset := homeSet_homeMerge bs (h.valid w hw)
  cases ho : s.owner w with
  | none =>
    rw [ownMerge_skip (by rw [hset.owner, ho]; simp), hset.cohWord_unowned ho, cohWord_unowned ho]
  | some k =>
    obtain rfl : k = a := by simpa using owner_mem h.owned hw ho
    have ho' := (hset.owner w).trans ho
    have hframe := ownMerge_frame (s.homeMerge w bs) k w bs
    have howner (x : Nat) : ((s.homeMerge w bs).ownMerge k w bs).owner x = s.owner x := by
      rw [← hset.owner, hframe]
      rfl
    have hhome (x : Nat) : ((s.homeMerge w bs).ownMerge k w bs).homeWord x = Function.update s.homeWord w (mergeWord (s.homeWord w) bs) x := by
      rw [← hset.home, hframe]
      rfl
    have hval (c x : Nat) : ((s.homeMerge w bs).ownMerge k w bs).ownedValue c x =
        (s.ownedValue c x).map fun v => if c = k ∧ x = w then mergeWord v bs else v := by
      rw [ownedValue_ownMerge ho', hset.ownedValue]
    funext x
    by_cases hx : x = w
    · subst hx
      rw [Function.update_self, cohWord_owned ((howner x).trans ho) ha, cohWord_owned ho ha, hval, hhome, Function.update_self]
      cases s.ownedValue k x <;> simp
    · rw [Function.update_of_ne hx, cohWord_eq, cohWord_eq, howner, hhome, Function.update_of_ne hx]
      simp only [hval, hx, and_false, if_false, Option.map_id']

theorem serves_homeStore (h : Serves sec l id s) (hw : w / 8 = sec) (bs : List (Nat × Byte)) : Serves sec l id ((s.homeMerge w bs).ownMerge a w bs) :=
  serves_ownMerge ((homeSet_homeMerge bs (h.valid w hw)).serves h) a w bs

end

/-! ## A word comes back from its owner (R271) -/

section
variable {s t u : State} {w x a c sec id : Nat} {v : Word × Bool} {l : List Nat}

/-- A write-back without the value of a word. -/
def WbLine.drop (w : Nat) (b : WbLine) : WbLine := if b.line == w / 32 then { b with data := tdel b.data (w % 32) } else b

theorem WbLine.drop_names (w : Nat) (b : WbLine) : (b.drop w).req = b.req ∧ (b.drop w).line = b.line ∧ (b.drop w).words = b.words := by
  unfold WbLine.drop
  split <;> exact ⟨rfl, rfl, rfl⟩

theorem WbLine.value_drop (hx : x ≠ w) (b : WbLine) (hb : b.line = x / 32) : (b.drop w).value x = b.value x := by
  unfold WbLine.drop
  split
  · next h =>
    have hline : x / 32 = w / 32 := by simpa [hb] using h
    rw [WbLine.value, WbLine.value, tget_tdel_other _ (word_ne hx hline)]
  · rfl

theorem Msg.asks_without (a w : Nat) (m : Msg) (id : Nat) : (m.without a w).asks id = m.asks id := by
  cases m with
  | req r =>
    unfold Msg.without
    dsimp only
    split <;> rfl
  | answer r =>
    unfold Msg.without
    dsimp only
    split <;> rfl
  | reply r =>
    unfold Msg.without
    dsimp only
    split <;> rfl
  | _ => rfl

theorem Msg.answerValue_without (a c : Nat) (hx : x ≠ w) (m : Msg) : (m.without a w).answerValue c x = m.answerValue c x := by
  cases m with
  | req r =>
    unfold Msg.without
    dsimp only
    split <;> rfl
  | reply r =>
    unfold Msg.without
    dsimp only
    split <;> rfl
  | answer r =>
    unfold Msg.without
    dsimp only
    split
    · next h =>
      have hline : r.line = w / 32 := by simpa using (Bool.and_eq_true_iff.mp h).2
      unfold Msg.answerValue
      dsimp only
      split
      · next h' =>
        have hx' : r.line = x / 32 := by simpa using (Bool.and_eq_true_iff.mp (Bool.and_eq_true_iff.mp h').1).2
        rw [tget_tdel_other _ (word_ne hx (hx'.symm.trans hline))]
      · rfl
    · rfl
  | _ => rfl

theorem dropHeld_eq (s : State) (a w : Nat) : s.dropHeld a w = s.mapHeld a (WbLine.drop w) (Msg.without a w) := rfl

theorem ownedValue_dropHeld (s : State) (a c : Nat) (hx : x ≠ w) : (s.dropHeld a w).ownedValue c x = s.ownedValue c x := by
  rw [dropHeld_eq]
  have h := ownedValue_mapHeld (s := s) (u := s) (c := c) (a := a) (x := x) (φ := id) (fun _ _ => rfl) (WbLine.drop_names w)
    (fun b hb _ => by rw [Option.map_id]; exact WbLine.value_drop hx b hb) (Msg.asks_without a w)
    (fun m => by rw [Option.map_id]; exact Msg.answerValue_without a c hx m) (by rw [Option.map_id]; rfl) rfl rfl
  rwa [Option.map_id] at h

theorem wbuf_l1Drop (s : State) (a w c : Nat) : ((s.l1Drop a w).core c).wbuf = (s.core c).wbuf := by
  rw [State.l1Drop, core_modCore_eq]
  split
  · next h =>
    rw [h]
    split <;> rfl
  · rfl

theorem ownedValue_l1Drop (s : State) (a c : Nat) (hx : x ≠ w) : (s.l1Drop a w).ownedValue c x = s.ownedValue c x := by
  simp only [ownedValue_eq, State.l1Owned, l1Word_l1Drop, hx, and_false, if_false, wbuf_l1Drop]
  rfl

theorem sectorValid_congr (hl2 : t.l2 = s.l2) (x : Nat) : t.sectorValid x = s.sectorValid x := by rw [State.sectorValid, hl2]; rfl

/-- A word that goes from its owner and from the directory leaves the homes as they are. -/
theorem l2_taken (s : State) (a w n : Nat) (f : DirLine → DirLine) : (((s.dropHeld a w).l1Drop a w).modDir n f).l2 = s.l2 := by
  have hdrop (u : State) : (u.l1Drop a w).l2 = u.l2 := State.modCore_l2 _ _ _
  have hdir (u : State) : (u.modDir n f).l2 = u.l2 := rfl
  have hheld : (s.dropHeld a w).l2 = s.l2 := rfl
  rw [hdir, hdrop, hheld]

theorem homeWord_taken (s : State) (a w n : Nat) (f : DirLine → DirLine) : (((s.dropHeld a w).l1Drop a w).modDir n f).homeWord = s.homeWord := by
  have hdrop (u : State) : (u.l1Drop a w).homeWord = u.homeWord := funext (homeWord_congr (State.modCore_l2 _ _ _) (State.modCore_dram _ _ _)
    (State.modCore_dramPoison _ _ _))
  have hdir (u : State) : (u.modDir n f).homeWord = u.homeWord := funext (homeWord_congr rfl rfl rfl)
  have hheld : (s.dropHeld a w).homeWord = s.homeWord := funext (homeWord_congr rfl rfl rfl)
  rw [hdir, hdrop, hheld]

/-! ### The owner's record -/

/-- The record of an owner that gives words back. -/
def OwnRec.less (a : Nat) (ws : BitVec 32) (o : OwnRec) : OwnRec := if o.agent == a then { o with wmask := o.wmask &&& ~~~ ws } else o

theorem OwnRec.less_agent (a : Nat) (ws : BitVec 32) (o : OwnRec) : (o.less a ws).agent = o.agent := by
  unfold OwnRec.less
  split <;> rfl

theorem OwnRec.less_bit (a i : Nat) (o : OwnRec) {j : Nat} (hj : j < 32) :
    (o.less a (bit32 i)).wmask.getLsbD j = (o.wmask.getLsbD j && !(o.agent == a && decide (i = j))) := by
  unfold OwnRec.less
  split
  · next h => rw [getLsbD_clear_bit32 _ hj, h, Bool.true_and]
  · next h => simp [h]

theorem ownerOf_disown (d : DirLine) (a i : Nat) {j : Nat} (hj : j < 32) :
    (d.disown a (bit32 i)).ownerOf j = (d.owners.find? fun o => o.wmask.getLsbD j && !(o.agent == a && decide (i = j))).map OwnRec.agent := by
  have hkeep : ((d.owners.map (OwnRec.less a (bit32 i))).filter fun o => o.wmask != 0).find? (fun o => o.wmask.getLsbD j) =
      (d.owners.map (OwnRec.less a (bit32 i))).find? fun o => o.wmask.getLsbD j := by
    rw [List.find?_filter]
    refine congrArg (List.find? · _) (funext fun o => ?_)
    cases hbit : o.wmask.getLsbD j with
    | false => simp
    | true =>
      have hsome : o.wmask ≠ 0#32 := fun h => by simp [h] at hbit
      simp [hsome]
  refine (congrArg (Option.map OwnRec.agent) hkeep).trans ?_
  rw [List.find?_map, Option.map_map]
  simp only [Function.comp_def, OwnRec.less_agent, OwnRec.less_bit a i _ hj]

theorem mem_disown {d : DirLine} {o : OwnRec} (h : o ∈ (d.disown a (bit32 (w % 32))).owners) {j : Nat} (hj : j < 32) (hbit : o.wmask.getLsbD j = true) :
    ∃ o' ∈ d.owners, o'.agent = o.agent ∧ o'.wmask.getLsbD j = true := by
  obtain ⟨o', ho', rfl⟩ := List.mem_map.mp (List.mem_filter.mp h).1
  refine ⟨o', ho', (OwnRec.less_agent _ _ _).symm, ?_⟩
  have hbit' : (o'.less a (bit32 (w % 32))).wmask.getLsbD j = true := hbit
  rw [OwnRec.less_bit _ _ _ hj, Bool.and_eq_true] at hbit'
  exact hbit'.1

/-- A word that no other agent owns has no owner once its owner has given it back. -/
theorem owner_disowned (howned : s.ownedBy sec [a]) (hw : w / 8 = sec) :
    (s.modDir (w / 32) fun d => d.disown a (bit32 (w % 32))).owner w = none := by
  have hi : w % 32 < 32 := Nat.mod_lt _ (by decide)
  unfold State.owner
  rw [dirLine_modDir, if_pos rfl, ownerOf_disown _ _ _ hi, Option.map_eq_none_iff, List.find?_eq_none]
  intro o ho
  by_cases hbit : o.wmask.getLsbD (w % 32) = true
  · have hline : w / 32 = sec / 4 := by omega
    have hmine := howned (w % 32) hi (by omega) o (hline ▸ ho) hbit
    simp [List.mem_singleton.mp hmine]
  · simp [hbit]

theorem owner_disown_ne (s : State) (a : Nat) (hx : x ≠ w) : (s.modDir (w / 32) fun d => d.disown a (bit32 (w % 32))).owner x = s.owner x := by
  unfold State.owner
  rw [dirLine_modDir]
  split
  · next hline =>
    rw [ownerOf_disown _ _ _ (Nat.mod_lt _ (by decide)), hline]
    simp [Ne.symm (word_ne hx hline), DirLine.ownerOf]
  · rfl

/-! ### The recall -/

/-- What the home takes back from an owner. -/
theorem homeSet_mergeOwned (h : s.sectorValid w = true) (ho : s.owner w = some a) (ha : a < 216) : HomeSet w (s.cohWord w) s (s.mergeOwned a w) := by
  unfold State.mergeOwned
  rw [cohWord_owned ho ha]
  cases s.ownedValue a w with
  | none => exact ⟨rfl, rfl, rfl, (Function.update_eq_self _ _).symm, fun _ h => h⟩
  | some v => exact homeSet_homePut v.1 v.2 h

theorem recallNow_eq (ho : s.owner w = some a) (ha : a < 216) : s.recallNow w =
    (((((s.mergeOwned a w).dropHeld a w).l1Drop a w).modDir (w / 32) fun d => d.disown a (bit32 (w % 32)))).fireCore a (w / 32) := by
  unfold State.recallNow
  rw [show (s.dirLine (w / 32)).ownerOf (w % 32) = some a from ho]
  exact if_pos ha

/-- A recall changes no word's value. -/
theorem cohWord_recallNow (h : Serves sec [a] id s) (hw : w / 8 = sec) (ho : s.owner w = some a) (ha : a < 216) : (s.recallNow w).cohWord = s.cohWord := by
  have hset := homeSet_mergeOwned (h.valid w hw) ho ha
  rw [recallNow_eq ho ha, (alike_fireCore _ _ _).cohWord]
  generalize s.mergeOwned a w = b at hset
  have hhome : (((b.dropHeld a w).l1Drop a w).modDir (w / 32) fun d => d.disown a (bit32 (w % 32))).homeWord = b.homeWord := homeWord_taken _ _ _ _ _
  have howned : ((b.dropHeld a w).l1Drop a w).ownedBy sec [a] := by
    intro i hi hsec o hmem
    rw [show ((b.dropHeld a w).l1Drop a w).dirLine (sec / 4) = s.dirLine (sec / 4) by rw [State.dirLine, State.dirLine, ← hset.dir]; rfl] at hmem
    exact h.owned i hi hsec o hmem
  funext x
  by_cases hx : x = w
  · subst hx
    rw [cohWord_unowned (owner_disowned howned hw), hhome, hset.home, Function.update_self]
  · have howner : (((b.dropHeld a w).l1Drop a w).modDir (w / 32) fun d => d.disown a (bit32 (w % 32))).owner x = b.owner x := owner_disown_ne _ _ hx
    have hval (c : Nat) : (((b.dropHeld a w).l1Drop a w).modDir (w / 32) fun d => d.disown a (bit32 (w % 32))).ownedValue c x = b.ownedValue c x :=
      (ownedValue_of_same rfl rfl c x).trans ((ownedValue_l1Drop _ a c hx).trans (ownedValue_dropHeld b a c hx))
    rw [← hset.cohWord_ne hx]
    simp only [cohWord_eq, howner, hval, hhome]

theorem serves_recallNow (h : Serves sec [a] id s) (hw : w / 8 = sec) (ho : s.owner w = some a) (ha : a < 216) : Serves sec [a] id (s.recallNow w) := by
  have hset := homeSet_mergeOwned (h.valid w hw) ho ha
  have hserves := hset.serves h
  rw [recallNow_eq ho ha]
  generalize s.mergeOwned a w = b at hset hserves
  refine Serves.alike ⟨fun x hx => ?_, fun i hi hsec o hmem hbit => ?_, fun n k hk => ?_⟩ (alike_fireCore _ _ _)
  · rw [sectorValid_congr (l2_taken _ _ _ _ _)]
    exact hserves.valid x hx
  · rw [dirLine_modDir] at hmem
    split at hmem
    · next hline =>
      obtain ⟨o', ho', hagent, hbit'⟩ := mem_disown hmem hi hbit
      rw [← hagent]
      exact hserves.owned i hi hsec o' (hline ▸ ho') hbit'
    · exact hserves.owned i hi hsec o hmem hbit
  · have hk' : k ∈ (((b.dropHeld a w).l1Drop a w).core n).wbuf := hk
    rw [wbuf_l1Drop, dropHeld_eq, core_mapHeld] at hk'
    split at hk'
    · obtain ⟨k', hmem, rfl⟩ := List.mem_map.mp hk'
      rw [(WbLine.drop_names w k').1]
      exact hserves.named a k' hmem
    · exact hserves.named n k hk'

end

/-! ## Requests that write at the home (R265, R271) -/

/-- A fold that keeps an invariant, seen through a projection. -/
theorem foldl_sim {σ τ α : Type} {I : σ → Prop} {π : σ → τ} {f : σ → α → σ} {g : τ → α → τ} (ls : List α) {s : σ} (hs : I s)
    (h : ∀ s, I s → ∀ a ∈ ls, I (f s a) ∧ π (f s a) = g (π s) a) : I (ls.foldl f s) ∧ π (ls.foldl f s) = ls.foldl g (π s) := by
  induction ls generalizing s with
  | nil => exact ⟨hs, rfl⟩
  | cons a ls ih =>
    obtain ⟨hI, hπ⟩ := h s hs a (.head _)
    rw [List.foldl_cons, List.foldl_cons, ← hπ]
    exact ih hI fun s hs b hb => h s hs b (.tail _ hb)

/-- Words that are changed one after another, each once. -/
theorem foldl_update {α : Type} (f : Nat → α → α) (ls : List Nat) (hnodup : ls.Nodup) (m : Nat → α) :
    ls.foldl (fun m w => Function.update m w (f w (m w))) m = fun w => if w ∈ ls then f w (m w) else m w := by
  induction ls generalizing m with
  | nil => simp
  | cons x ls ih =>
    obtain ⟨hx, hrest⟩ := List.nodup_cons.mp hnodup
    rw [List.foldl_cons, ih hrest]
    funext w
    by_cases hw : w = x
    · subst hw
      simp [hx]
    · simp [hw]

section
variable {s t : State} {w a sec id : Nat} {l : List Nat} {r : Req} {o : LsuOp} {q : OpPart} {acc : LaneAcc}

theorem sector_of_mem (hsize : 0 < acc.size) (hin : acc.off + acc.size ≤ 32) (hw : w ∈ accWords sec acc) : w / 8 = sec := by
  rw [mem_accWords hsize] at hw
  omega

theorem accMerge_eq_foldl (sec : Nat) (acc : LaneAcc) (v : Nat) (m : Nat → Word × Bool) :
    (accWords sec acc).foldl (fun m w => Function.update m w (mergeWord (m w) (bytesOf (accBytes sec acc v) w))) m = accMerge sec acc v m :=
  foldl_update (fun w x => mergeWord x (bytesOf (accBytes sec acc v) w)) _ (nodup_accWords sec acc) m

/-- A lane's store at the home. -/
theorem homeStore (h : Serves sec [a] id s) (ha : a < 216) (hsize : 0 < acc.size) (hin : acc.off + acc.size ≤ 32) (v : Nat) :
    Serves sec [a] id (forEach (accWords sec acc) s fun s w =>
      (s.homeMerge w (bytesOf (accBytes sec acc v) w)).ownMerge a w (bytesOf (accBytes sec acc v) w)) ∧
    (forEach (accWords sec acc) s fun s w =>
      (s.homeMerge w (bytesOf (accBytes sec acc v) w)).ownMerge a w (bytesOf (accBytes sec acc v) w)).cohWord = accMerge sec acc v s.cohWord := by
  rw [← accMerge_eq_foldl]
  exact foldl_sim (I := Serves sec [a] id) (π := State.cohWord) (accWords sec acc) h fun s hs w hw =>
    ⟨serves_homeStore hs (sector_of_mem hsize hin hw) _, cohWord_homeStore hs ha (sector_of_mem hsize hin hw) _⟩

/-- A lane's write at the home to words that have no owner. -/
theorem homeWrite (h : Serves sec [] id s) (hsize : 0 < acc.size) (hin : acc.off + acc.size ≤ 32) (v : Nat) :
    Serves sec [] id (forEach (accWords sec acc) s fun s w => s.homeMerge w (bytesOf (accBytes sec acc v) w)) ∧
    (forEach (accWords sec acc) s fun s w => s.homeMerge w (bytesOf (accBytes sec acc v) w)).cohWord = accMerge sec acc v s.cohWord := by
  rw [← accMerge_eq_foldl]
  refine foldl_sim (I := Serves sec [] id) (π := State.cohWord) (accWords sec acc) h fun s hs w hw => ?_
  have hsec := sector_of_mem hsize hin hw
  have hset := homeSet_homeMerge (bytesOf (accBytes sec acc v) w) (hs.valid w hsec)
  have hnone : s.owner w = none := Option.eq_none_iff_forall_ne_some.mpr fun k hk => by cases owner_mem hs.owned hsec hk
  rw [← cohWord_unowned hnone] at hset
  exact ⟨hset.serves hs, hset.cohWord_unowned hnone⟩

/-! ### The end of a request -/

/-- A request that is done and names no write-back takes no value with it. -/
theorem cohWord_dropReq (h : ∀ n, ∀ b ∈ (s.core n).wbuf, b.req ≠ id) : (s.dropReq id).cohWord = s.cohWord := by
  have hasked (k : Nat) (hk : k ≠ id) : (s.dropReq id).asked k = s.asked k := by
    refine (any_filter_of (fun m hm => ?_) s.net).symm
    cases m with
    | req r =>
      have hid : r.id = id := by simpa using hm
      simp [Msg.asks, hid, Ne.symm hk]
    | _ => rfl
  have hanswers (c x : Nat) : (s.dropReq id).net.findSome? (Msg.answerValue c x) = s.net.findSome? (Msg.answerValue c x) := by
    refine (findSome?_filter_of (fun m hm => ?_) s.net).symm
    cases m <;> simp_all [Msg.answerValue]
  have hval (c x : Nat) : (s.dropReq id).ownedValue c x = s.ownedValue c x := by
    rw [ownedValue_eq, ownedValue_eq, hanswers, List.find?_congr fun b hb => by rw [hasked _ (h c b hb)]]
    rfl
  funext x
  rw [cohWord_eq, cohWord_eq]
  simp only [hval]
  rfl

theorem cohWord_finished (h : Serves sec l id s) (line : Nat) (cls : CacheClass) (launch : Nat) :
    ((touchLine s line cls launch).dropReq id).cohWord = s.cohWord := by
  have htouch := alike_touchLine s line cls launch
  rw [cohWord_dropReq (h.alike htouch).named, htouch.cohWord]

theorem Alike.view {m : Nat → Word × Bool} (k : Alike s t) (h : Serves sec l id s ∧ s.cohWord = m) : Serves sec l id t ∧ t.cohWord = m :=
  ⟨h.1.alike k, k.cohWord.trans h.2⟩

/-! ### Stores -/

theorem AtHome.serves (h : AtHome s r o q) (howned : s.ownedBy q.sec l) : Serves q.sec l r.id s := by
  refine ⟨fun w hw => ?_, howned, h.named⟩
  have hline : w / 32 = 8 * q.sec / 32 := by omega
  have hsec : w % 32 / 8 = 8 * q.sec % 32 / 8 := by omega
  have hvalid := h.valid
  unfold State.sectorValid at hvalid ⊢
  rwa [hline, hsec]

theorem word0_line (r : Req) : r.word0 / 32 = r.line := by
  unfold Req.word0
  cases hfind : (List.range 32).find? fun i => r.words.getLsbD i with
  | none =>
    simp only [Option.getD_none]
    omega
  | some i =>
    have hi : i < 32 := List.mem_range.mp (List.mem_of_find?_eq_some hfind)
    simp only [Option.getD_some]
    omega

theorem AtHome.alike_fill (h : AtHome s r o q) : Alike s (s.fillSector r.word0) := by
  obtain ⟨l, hl, -⟩ := exists_line h.valid
  refine alike_fillSector (l := l) ?_
  rw [word0_line, h.line, ← hl]
  congr 1
  omega

theorem AtHome.agent (h : AtHome s r o q) : r.agent < 216 := by
  have ht := h.target
  unfold Req.target at ht
  split at ht
  · assumption
  · cases ht

theorem AtHome.word_sector (h : AtHome s r o q) (hw : w ∈ maskWords r.line r.words) : w / 8 = q.sec ∧ w / 32 = r.line := by
  unfold maskWords at hw
  obtain ⟨i, hi, rfl⟩ := List.mem_map.mp hw
  obtain ⟨hlt, hbit⟩ := List.mem_filter.mp hi
  have hlt := List.mem_range.mp hlt
  have hsec := h.words i hlt hbit
  have hline := h.line
  omega

/-- The home takes back the words that the requesting agent owns, and no word changes. -/
theorem recallMine (h : Serves sec [a] id s) (ha : a < 216) (line : Nat) (ws : List Nat) (hws : ∀ w ∈ ws, w / 8 = sec ∧ w / 32 = line) :
    Serves sec [a] id (forEach ws s fun s w => if (s.dirLine line).ownerOf (w % 32) == some a then s.recallNow w else s) ∧
    (forEach ws s fun s w => if (s.dirLine line).ownerOf (w % 32) == some a then s.recallNow w else s).cohWord = s.cohWord := by
  have hsim := foldl_sim (I := Serves sec [a] id) (π := State.cohWord) (g := fun m _ => m) ws h
    (f := fun s w => if (s.dirLine line).ownerOf (w % 32) == some a then s.recallNow w else s) fun s hs w hw => by
      obtain ⟨hsec, rfl⟩ := hws w hw
      split
      · next ho =>
        have ho' : s.owner w = some a := eq_of_beq ho
        exact ⟨serves_recallNow hs hsec ho' ha, cohWord_recallNow hs hsec ho' ha⟩
      · exact ⟨hs, rfl⟩
  rwa [List.foldl_fixed] at hsim

/-- A store at the home writes its lanes' bytes, one lane after another. -/
theorem finishWrite_view (h : Serves q.sec [r.agent] r.id s) (ha : r.agent < 216) (hwords : ∀ w ∈ maskWords r.line r.words, w / 8 = q.sec ∧ w / 32 = r.line)
    (hin : q.inside) (hfree : o.det = false ∨ o.checked = false) (kind : ReqKind) :
    Serves q.sec [r.agent] r.id (finishWrite s r kind (o, q)) ∧
      (finishWrite s r kind (o, q)).cohWord = q.accs.foldl (fun m a => accMerge q.sec a a.x m) s.cohWord := by
  unfold finishWrite
  dsimp only
  simp only [raceHome_skips hfree, Bool.false_eq_true, if_false]
  have hrace := alike_raceHome hfree s q
  generalize (raceHome s o q).1 = b at hrace
  have hrecall : Serves q.sec [r.agent] r.id (if kind == .wrN then forEach (maskWords r.line r.words) b fun s w =>
      if (s.dirLine r.line).ownerOf (w % 32) == some r.agent then s.recallNow w else s else b) ∧
      (if kind == .wrN then forEach (maskWords r.line r.words) b fun s w =>
        if (s.dirLine r.line).ownerOf (w % 32) == some r.agent then s.recallNow w else s else b).cohWord = s.cohWord := by
    rw [← hrace.cohWord]
    split
    · exact recallMine (h.alike hrace) ha r.line _ hwords
    · exact ⟨h.alike hrace, rfl⟩
  generalize (if kind == .wrN then forEach (maskWords r.line r.words) b _ else b) = c at hrecall
  obtain ⟨hserves, hcoh⟩ := hrecall
  have hstores := foldl_sim (I := Serves q.sec [r.agent] r.id) (π := State.cohWord) (g := fun m a => accMerge q.sec a a.x m) q.accs hserves
    (f := fun s a => forEach (accWords q.sec a) s fun s w =>
      (s.homeMerge w (bytesOf (accBytes q.sec a a.x) w)).ownMerge r.agent w (bytesOf (accBytes q.sec a a.x) w))
    fun s hs a ha' => homeStore hs ha (hin a ha').1 (hin a ha').2 a.x
  rw [hcoh] at hstores
  change Serves _ _ _ (State.send (if _ then State.modDir (q.accs.foldl _ c) _ _ else q.accs.foldl _ c) _) ∧
    (State.send (if _ then State.modDir (q.accs.foldl _ c) _ _ else q.accs.foldl _ c) _).cohWord = _
  generalize q.accs.foldl _ c = d at hstores
  have hshare (p : Bool) : Alike d (if p then d.modDir r.line fun k => k.addSharer r.agent else d) := by
    cases p
    · exact .refl d
    · exact alike_modDir (fun k => k.addSharer r.agent) rfl
  exact Alike.view ((hshare _).trans (alike_send rfl)) hstores

end

/-! ## Atomics on words (R242, R243) -/

/-- Words after an atomic: it leaves poisoned ones alone. -/
def accAtom (op : AtomOp) (sec : Nat) (m : Nat → Word × Bool) (a : LaneAcc) : Nat → Word × Bool :=
  let old := accValue m sec a.off a.size
  if old.2 then m else accMerge sec a (atomNew op a.size old.1 a.x a.y).1 m

/-- What a lane gets from its atomic: the number before, the status, and whether a word was poisoned. -/
def accOld (op : AtomOp) (sec : Nat) (m : Nat → Word × Bool) (a : LaneAcc) : DWord × Bool × Bool :=
  let old := accValue m sec a.off a.size
  if old.2 then (BitVec.ofNat 64 old.1, false, true) else (BitVec.ofNat 64 old.1, (atomNew op a.size old.1 a.x a.y).2, false)

section
variable {q : OpPart} {op : AtomOp} {m : Nat → Word × Bool} {sec : Nat} {a : LaneAcc}

/-- An atomic changes no poison: a word that it writes in full was not poisoned before. -/
theorem accAtom_poison (h : 0 < a.size) (w : Nat) : (accAtom op sec m a w).2 = (m w).2 := by
  unfold accAtom
  split
  · rfl
  · next hclean =>
    rw [accMerge_poison h]
    rw [accValue_eq, Bool.not_eq_true, List.any_eq_false] at hclean
    by_cases hcover : 32 * sec + a.off ≤ 4 * w ∧ 4 * w + 4 ≤ 32 * sec + a.off + a.size
    · have hw := hclean (4 * w - (32 * sec + a.off)) (List.mem_range.mpr (by omega))
      rw [show (32 * sec + a.off + (4 * w - (32 * sec + a.off))) / 4 = w by omega, Bool.not_eq_true] at hw
      rw [hw]
      rfl
    · rw [← Bool.decide_and, decide_eq_false hcover]
      simp

/-- The words after a part's atomics, lane by lane, and what the lanes get. -/
def OpPart.atomWords (q : OpPart) (op : AtomOp) (m : Nat → Word × Bool) : (Nat → Word × Bool) × Tbl (DWord × Bool × Bool) :=
  q.accs.foldl (fun z a => (accAtom op q.sec z.1 a, tset z.2 a.lane (accOld op q.sec z.1 a))) (m, [])

theorem atomWords_fst (q : OpPart) (op : AtomOp) (m : Nat → Word × Bool) : (q.atomWords op m).1 = q.accs.foldl (accAtom op q.sec) m :=
  (List.foldl_hom Prod.fst fun _ _ => rfl).symm

/-- Atomics on words are atomics on their bytes. -/
theorem atomWords_bytes (hin : q.inside) (op : AtomOp) (m : Nat → Word × Bool) :
    (∀ w, ((q.atomWords op m).1 w).2 = (m w).2) ∧
      (bytesIn (q.atomWords op m).1, (q.atomWords op m).2) = q.atoms op (fun w => (m w).2) (bytesIn m) := by
  refine foldl_sim (I := fun z : (Nat → Word × Bool) × Tbl (DWord × Bool × Bool) => ∀ w, (z.1 w).2 = (m w).2) (π := fun z => (bytesIn z.1, z.2)) q.accs
    (s := (m, [])) (fun _ => rfl) fun z hz a ha => ?_
  have hsize := (hin a ha).1
  refine ⟨fun w => (accAtom_poison hsize w).trans (hz w), ?_⟩
  have hpoison : (List.range a.size).any (fun i => (z.1 ((32 * q.sec + a.off + i) / 4)).2) =
      (List.range a.size).any fun i => (m ((32 * q.sec + a.off + i) / 4)).2 := by simp only [hz]
  unfold accAtom accOld
  dsimp only
  rw [accValue_eq, hpoison]
  split
  · rfl
  · rw [bytesIn_accMerge hsize]

/-- Stores on words are stores on their bytes; a word that one of them covers is poisoned no more (R266). -/
theorem stores_bytes (hin : q.inside) (m : Nat → Word × Bool) :
    bytesIn (q.accs.foldl (fun m a => accMerge q.sec a a.x m) m) = q.stored (bytesIn m) :=
  (foldl_sim (I := fun _ => True) (π := bytesIn) q.accs trivial fun _ _ a ha => ⟨trivial, bytesIn_accMerge (hin a ha).1⟩).2

theorem stores_poison (hin : q.inside) (m : Nat → Word × Bool) (w : Nat) :
    (q.accs.foldl (fun m a => accMerge q.sec a a.x m) m w).2 = ((m w).2 && !q.cleans w) := by
  have h := (foldl_sim (I := fun _ => True) (π := fun m => (m w).2) (f := fun m a => accMerge q.sec a a.x m)
    (g := fun b a => b && !(32 * q.sec + a.off ≤ 4 * w && 4 * w + 4 ≤ 32 * q.sec + a.off + a.size)) q.accs (s := m) trivial
    fun m _ a ha => ⟨trivial, accMerge_poison (hin a ha).1 w⟩).2
  rw [h, OpPart.cleans]
  generalize (m w).2 = b
  induction q.accs generalizing b with
  | nil => simp
  | cons a ls ih => rw [List.foldl_cons, ih, List.any_cons, Bool.not_or, Bool.and_assoc]

end

/-! ## Atomics at the home (R265) -/

section
variable {s : State} {r : Req} {o : LsuOp} {q : OpPart} {a : LaneAcc} {sec id : Nat}

theorem accValue_congr {m m' : Nat → Word × Bool} {off n : Nat} (h : ∀ i, i < n → m (8 * sec + (off + i) / 4) = m' (8 * sec + (off + i) / 4)) :
    accValue m sec off n = accValue m' sec off n := by
  unfold accValue
  refine Prod.ext (congrArg natOfLe (List.map_congr_left fun i hi => ?_)) ?_
  · rw [h i (List.mem_range.mp hi)]
  · rw [Bool.eq_iff_iff, List.any_eq_true, List.any_eq_true]
    exact exists_congr fun i => and_congr_right fun hi => by rw [h i (List.mem_range.mp hi)]

/-- An agent reads at the home what a word of a sector without owners is worth. -/
theorem accValue_home (h : Serves sec [] id s) (hin : a.off + a.size ≤ 32) : accValue s.homeWord sec a.off a.size = accValue s.cohWord sec a.off a.size :=
  accValue_congr fun i hi => (cohWord_unowned (Option.eq_none_iff_forall_ne_some.mpr fun k hk => by
    cases owner_mem h.owned (show (8 * sec + (a.off + i) / 4) / 8 = sec by omega) hk)).symm

/-- A lane's step of the atomics at the home. -/
def homeAtom (o : LsuOp) (q : OpPart) (z : State × Tbl (DWord × Bool × Bool)) (a : LaneAcc) : State × Tbl (DWord × Bool × Bool) :=
  let old := accValue z.1.homeWord q.sec a.off a.size
  if old.2 then ((if o.kind == .red then z.1.count .poisonDrop 1 else z.1), tset z.2 a.lane (BitVec.ofNat 64 old.1, false, true))
  else
    let n := atomNew o.aop a.size old.1 a.x a.y
    (forEach (accWords q.sec a) z.1 fun s w => s.homeMerge w (bytesOf (accBytes q.sec a n.1) w), tset z.2 a.lane (BitVec.ofNat 64 old.1, n.2, false))

/-- The answer to an atomic at the home. -/
def atomReply (r : Req) (id : Nat) (olds : Tbl (DWord × Bool × Bool)) : Reply :=
  { id := id, agent := r.agent, req := r.id, op := r.op, line := r.line, words := r.words, olds := olds }

theorem finishAtomic_eq (s : State) (r : Req) (o : LsuOp) (q : OpPart) : finishAtomic s r (o, q) =
    if o.kind == .red then
      (q.accs.foldl (homeAtom o q) (s, [])).1.send fun n =>
        .ack { id := n, agent := r.agent, line := r.line, req := r.id, op := r.op, kind := .at, words := r.words }
    else (q.accs.foldl (homeAtom o q) (s, [])).1.send fun n =>
      .reply (atomReply r n (q.accs.foldl (homeAtom o q) (s, [])).2) := rfl

theorem homeAtom_view (h : Serves q.sec [] id s) (hin : q.inside) (o : LsuOp) :
    Serves q.sec [] id (q.accs.foldl (homeAtom o q) (s, [])).1 ∧
      ((q.accs.foldl (homeAtom o q) (s, [])).1.cohWord, (q.accs.foldl (homeAtom o q) (s, [])).2) = q.atomWords o.aop s.cohWord := by
  refine foldl_sim (I := fun z : State × Tbl (DWord × Bool × Bool) => Serves q.sec [] id z.1) (π := fun z => (z.1.cohWord, z.2)) q.accs (s := (s, [])) h
    fun z hz a ha => ?_
  obtain ⟨hsize, hfit⟩ := hin a ha
  unfold homeAtom accAtom accOld
  dsimp only
  rw [accValue_home hz hfit]
  split
  · have hdrop : Alike z.1 (if o.kind == .red then z.1.count .poisonDrop 1 else z.1) := by
      split
      · exact alike_count _ _ _
      · exact .refl _
    exact ⟨hz.alike hdrop, by rw [hdrop.cohWord]⟩
  · have hwrite := homeWrite hz hsize hfit (atomNew o.aop a.size (accValue z.1.cohWord q.sec a.off a.size).1 a.x a.y).1
    exact ⟨hwrite.1, by rw [hwrite.2]⟩

end

/-! ## Writes in the L1 that owns the words (R272) -/

section
variable {s t : State} {core w : Nat} {o : LsuOp} {q : OpPart} {a : LaneAcc}

theorem exists_l1Word (h : holdsOwn s core w = true) : s.owner w = some core ∧ ∃ y, s.l1Word core w = some y ∧ y.st = .owned := by
  obtain ⟨howner, hl1⟩ := Bool.and_eq_true_iff.mp h
  refine ⟨eq_of_beq howner, ?_⟩
  cases hy : s.l1Word core w with
  | none => rw [hy] at hl1; cases hl1
  | some y =>
    rw [hy] at hl1
    exact ⟨y, rfl, eq_of_beq hl1⟩

theorem cohWord_l1Word {y : L1Word} (ho : s.owner w = some core) (hcore : core < 216) (hy : s.l1Word core w = some y) (hst : y.st = .owned) :
    s.cohWord w = (y.val, y.poison) := by
  have hown : s.l1Owned core w = some (y.val, y.poison) := by simp [State.l1Owned, hy, hst]
  rw [cohWord_owned ho hcore, ownedValue_eq, hown]
  rfl

/-- A core that holds a word under OWN reads its value. -/
theorem l1Value_held (hcore : core < 216) (h : holdsOwn s core w = true) : l1Value s core w = s.cohWord w := by
  obtain ⟨ho, y, hy, hst⟩ := exists_l1Word h
  rw [cohWord_l1Word ho hcore hy hst, l1Value, hy]

theorem holdsOwn_l1Set {y y' : L1Word} (hy : s.l1Word core w = some y) (hst : y'.st = y.st) (c x : Nat) :
    holdsOwn (s.l1Set core w y') c x = holdsOwn s c x := by
  unfold holdsOwn
  rw [l1Word_l1Set]
  refine congrArg₂ (· && ·) rfl ?_
  split
  · next h => rw [h.1, h.2, hy, Option.any_some, Option.any_some, hst]
  · rfl

/-- A change of the value of a word that a core holds under OWN is a change of the word. -/
theorem cohWord_l1Set {y' : L1Word} (ho : s.owner w = some core) (hcore : core < 216) (hst : y'.st = .owned) :
    (s.l1Set core w y').cohWord = Function.update s.cohWord w (y'.val, y'.poison) := by
  have howner (x : Nat) : (s.l1Set core w y').owner x = s.owner x := rfl
  have hhome : (s.l1Set core w y').homeWord = s.homeWord := funext (homeWord_congr rfl rfl rfl)
  funext x
  by_cases hx : x = w
  · subst hx
    rw [Function.update_self]
    exact cohWord_l1Word ((howner x).trans ho) hcore (by rw [l1Word_l1Set, if_pos ⟨rfl, rfl⟩]) hst
  · have hval (c : Nat) : (s.l1Set core w y').ownedValue c x = s.ownedValue c x := by
      simp only [ownedValue_eq, State.l1Owned, l1Word_l1Set, hx, and_false, if_false, wbuf_l1Set]
      rfl
    rw [Function.update_of_ne hx, cohWord_eq, cohWord_eq]
    simp only [howner, hval, hhome]

/-- A core holds the words of a part under OWN. -/
def HoldsPart (core : Nat) (q : OpPart) (s : State) : Prop := ∀ a ∈ q.accs, ∀ w ∈ accWords q.sec a, holdsOwn s core w = true

theorem HoldsPart.alike (h : HoldsPart core q s) (k : Alike s t) : HoldsPart core q t := fun a ha w hw => (k.holdsOwn core w).trans (h a ha w hw)

theorem l1Write_view (h : HoldsPart core q s) (hcore : core < 216) (ha : a ∈ q.accs) (hw : w ∈ accWords q.sec a) (bs : List (Nat × Byte)) :
    HoldsPart core q (l1Write s core w bs) ∧ (l1Write s core w bs).cohWord = Function.update s.cohWord w (mergeWord (s.cohWord w) bs) := by
  obtain ⟨ho, y, hy, hst⟩ := exists_l1Word (h a ha w hw)
  have hwrite : l1Write s core w bs = s.l1Set core w { y with val := mergeBytes y.val bs, dirty := true, poison := y.poison && !wholeWord bs } := by
    unfold l1Write
    rw [hy]
  rw [hwrite, cohWord_l1Word ho hcore hy hst, cohWord_l1Set ho hcore (by exact hst)]
  exact ⟨fun b hb x hx => (holdsOwn_l1Set hy (by exact rfl) core x).trans (h b hb x hx), rfl⟩

/-- A lane's write in the L1. -/
theorem l1Access (h : HoldsPart core q s) (hcore : core < 216) (ha : a ∈ q.accs) (v line : Nat) :
    HoldsPart core q ((forEach (accWords q.sec a) s fun s w => l1Write s core w (bytesOf (accBytes q.sec a v) w)).fireCore core line) ∧
      ((forEach (accWords q.sec a) s fun s w => l1Write s core w (bytesOf (accBytes q.sec a v) w)).fireCore core line).cohWord =
        accMerge q.sec a v s.cohWord := by
  have hsim := foldl_sim (I := HoldsPart core q) (π := State.cohWord)
    (g := fun m w => Function.update m w (mergeWord (m w) (bytesOf (accBytes q.sec a v) w)))
    (f := fun s w => l1Write s core w (bytesOf (accBytes q.sec a v) w)) (accWords q.sec a) h fun s hs w hw => l1Write_view hs hcore ha hw _
  rw [accMerge_eq_foldl] at hsim
  have hfire := alike_fireCore ((accWords q.sec a).foldl (fun s w => l1Write s core w (bytesOf (accBytes q.sec a v) w)) s) core line
  exact ⟨hsim.1.alike hfire, hfire.cohWord.trans hsim.2⟩

theorem accValue_l1 (h : HoldsPart core q s) (hcore : core < 216) (ha : a ∈ q.accs) (hsize : 0 < a.size) :
    accValue (l1Value s core) q.sec a.off a.size = accValue s.cohWord q.sec a.off a.size :=
  accValue_congr fun i hi => l1Value_held hcore (h a ha _ ((mem_accWords hsize).mpr (by omega)))

theorem raceAcc_free (h : o.det = false ∨ o.checked = false) (s : State) (q : OpPart) (a : LaneAcc) (seen : Nat → WordOpens) :
    ((raceAcc s o q a seen).2 && o.det) = false := by
  rcases h with h | h
  · rw [h, Bool.and_false]
  · simp [raceAcc, h]

theorem AtOwner.holds (h : AtOwner s core o q) : HoldsPart core q s := h.own

/-- A store in the L1 that owns its words writes its lanes' bytes, one lane after another. -/
theorem performL1_store (h : AtOwner s core o q) (hk : o.kind = .store) :
    (performL1 s core o q).cohWord = q.accs.foldl (fun m a => accMerge q.sec a a.x m) s.cohWord := by
  refine (foldl_sim (I := HoldsPart core q) (π := State.cohWord) q.accs h.holds fun s hs a ha => ?_).2
  rw [hk]
  dsimp only
  have hrace := alike_raceAcc h.free s q a (l1Opens s core)
  rw [raceAcc_free h.free, if_neg (by simp), ← hrace.cohWord]
  exact l1Access (hs.alike hrace) h.real ha a.x _

/-- A lane's atomic in the L1. -/
def l1Atom (core : Nat) (o : LsuOp) (q : OpPart) (s : State) (a : LaneAcc) : State :=
  let old := accValue (l1Value s core) q.sec a.off a.size
  if old.2 then
    if o.kind == .red then s.count .poisonDrop 1 else deliverAtom s o a.lane a.size old.1 false true
  else
    let n := atomNew o.aop a.size old.1 a.x a.y
    deliverAtom ((forEach (accWords q.sec a) s fun s w => l1Write s core w (bytesOf (accBytes q.sec a n.1) w)).fireCore core (q.sec / 4))
      o a.lane a.size old.1 n.2 false

theorem performL1_atoms (hk : o.kind = .atomic ∨ o.kind = .red) : performL1 s core o q = q.accs.foldl (l1Atom core o q) s := by
  unfold performL1 l1Atom forEach
  rcases hk with hk | hk <;> rw [hk]

/-- Atomics in the L1 that owns their words, one lane after another. -/
theorem performL1_atomic (h : AtOwner s core o q) (hk : o.kind = .atomic ∨ o.kind = .red) :
    (performL1 s core o q).cohWord = q.accs.foldl (accAtom o.aop q.sec) s.cohWord := by
  rw [performL1_atoms hk]
  refine (foldl_sim (I := HoldsPart core q) (π := State.cohWord) q.accs h.holds fun s hs a ha => ?_).2
  unfold accAtom l1Atom
  dsimp only
  rw [accValue_l1 hs h.real ha (h.accs a ha).1]
  generalize accValue s.cohWord q.sec a.off a.size = old
  split
  · have hdrop : Alike s (if o.kind == .red then s.count .poisonDrop 1 else deliverAtom s o a.lane a.size old.1 false true) := by
      split
      · exact alike_count _ _ _
      · exact alike_deliverAtom _ _ _ _ _ _ _
    exact ⟨hs.alike hdrop, hdrop.cohWord⟩
  · generalize atomNew o.aop a.size old.1 a.x a.y = n
    obtain ⟨hholds, hcoh⟩ := l1Access hs h.real ha n.1 (q.sec / 4)
    have hdeliver := alike_deliverAtom ((forEach (accWords q.sec a) s fun s w => l1Write s core w (bytesOf (accBytes q.sec a n.1) w)).fireCore core
      (q.sec / 4)) o a.lane a.size old.1 n.2 false
    exact ⟨hholds.alike hdeliver, hdeliver.cohWord.trans hcoh⟩

end

/-! ## Both together -/

section
variable {s : State} {r : Req} {o : LsuOp} {q : OpPart}

theorem finishReq_store (h : AtHome s r o q) (hk : r.kind = .wrT ∨ r.kind = .wrN) :
    finishReq s r = (touchLine (finishWrite (s.fillSector r.word0) r r.kind (o, q)) r.line o.cls o.launch).dropReq r.id := by
  unfold finishReq
  rw [h.target]
  rcases hk with hk | hk <;> rw [hk]

theorem finishReq_atomic (h : AtHome s r o q) (hk : r.kind = .at) :
    finishReq s r = (touchLine (finishAtomic (s.fillSector r.word0) r (o, q)) r.line o.cls o.launch).dropReq r.id := by
  unfold finishReq
  rw [h.target, hk]

/-- A request to store at the home makes its part's stores. -/
theorem cohWord_finishReq_store (h : AtHome s r o q) (hk : r.kind = .wrT ∨ r.kind = .wrN) (hfree : o.det = false ∨ o.checked = false)
    (howned : s.ownedBy q.sec [r.agent]) : (finishReq s r).cohWord = q.accs.foldl (fun m a => accMerge q.sec a a.x m) s.cohWord := by
  obtain ⟨hserves, hcoh⟩ := finishWrite_view ((h.serves howned).alike h.alike_fill) h.agent (fun w hw => h.word_sector hw) h.accs hfree r.kind
  rw [finishReq_store h hk, cohWord_finished hserves, hcoh, h.alike_fill.cohWord]

theorem finishAtomic_view (h : Serves q.sec [] r.id s) (hin : q.inside) (o : LsuOp) :
    Serves q.sec [] r.id (finishAtomic s r (o, q)) ∧ (finishAtomic s r (o, q)).cohWord = (q.atomWords o.aop s.cohWord).1 := by
  obtain ⟨hserves, hview⟩ := homeAtom_view h hin o
  rw [finishAtomic_eq]
  split
  · exact Alike.view (alike_send rfl) ⟨hserves, congrArg Prod.fst hview⟩
  · exact Alike.view (alike_send rfl) ⟨hserves, congrArg Prod.fst hview⟩

/-- A request for atomics at the home makes its part's atomics. -/
theorem cohWord_finishReq_atomic (h : AtHome s r o q) (hk : r.kind = .at) (howned : s.ownedBy q.sec []) :
    (finishReq s r).cohWord = (q.atomWords o.aop s.cohWord).1 := by
  obtain ⟨hserves, hcoh⟩ := finishAtomic_view ((h.serves howned).alike h.alike_fill) h.accs o
  rw [finishReq_atomic h hk, cohWord_finished hserves, hcoh, h.alike_fill.cohWord]

theorem net_touchLine (s : State) (line : Nat) (cls : CacheClass) (launch : Nat) : (touchLine s line cls launch).net = s.net := by
  unfold touchLine
  split
  · rfl
  · cases cls
    all_goals
      dsimp only
      repeat' split
    all_goals rfl

/-- The reply of an atomic at the home, with what its lanes get. -/
theorem reply_finishReq (h : AtHome s r o q) (hr : r.kind = .at) (hk : o.kind = .atomic) (howned : s.ownedBy q.sec []) :
    ∃ z, Msg.reply z ∈ (finishReq s r).net ∧ z.req = r.id ∧ z.agent = r.agent ∧ z.olds = (q.atomWords o.aop s.cohWord).2 := by
  obtain ⟨-, hview⟩ := homeAtom_view ((h.serves howned).alike h.alike_fill) h.accs o
  rw [h.alike_fill.cohWord] at hview
  rw [finishReq_atomic h hr, finishAtomic_eq, if_neg (by simp [hk]), ← hview]
  generalize q.accs.foldl (homeAtom o q) (s.fillSector r.word0, []) = z
  refine ⟨atomReply r z.1.nextId z.2, List.mem_filter.mpr ⟨?_, rfl⟩, rfl, rfl, rfl⟩
  rw [net_touchLine]
  exact List.mem_append_right _ (List.mem_singleton_self _)

end

theorem cohByte_eq (s : State) (a : Nat) : s.cohByte a = bytesIn s.cohWord a := rfl

/-- Settles O15: at the home and in the owning L1 alike, a part's lanes change words one after another, and words' bytes with them. -/
theorem deviceWrites : Obligations.DeviceWrites := by
  unfold Obligations.DeviceWrites
  refine ⟨fun s r o q h _ hr hfree howned => ?homeStore, fun s r o q h _ hr howned => ?homeAtomic, fun s core o q h hk => ?ownerStore,
    fun s core o q h hk => ?ownerAtomic⟩
  case homeStore =>
    have hcoh := cohWord_finishReq_store h hr hfree howned
    refine ⟨fun a => ?_, fun w => ?_⟩
    · rw [cohByte_eq, hcoh, stores_bytes h.accs]
      rfl
    · rw [hcoh, stores_poison h.accs]
  case homeAtomic =>
    obtain ⟨hpoison, hbytes⟩ := atomWords_bytes h.accs o.aop s.cohWord
    have hcoh := cohWord_finishReq_atomic h hr howned
    refine ⟨fun a => ?_, fun w => ?_, fun hk => ?_⟩
    · rw [cohByte_eq, hcoh]
      exact congrFun (congrArg Prod.fst hbytes) a
    · rw [hcoh, hpoison]
    · obtain ⟨z, hz, hreq, hagent, holds⟩ := reply_finishReq h hr hk howned
      exact ⟨z, hz, hreq, hagent, holds.trans (congrArg Prod.snd hbytes)⟩
  case ownerStore =>
    have hcoh := performL1_store h hk
    refine ⟨fun a => ?_, fun w => ?_⟩
    · rw [cohByte_eq, hcoh, stores_bytes h.accs]
      rfl
    · rw [hcoh, stores_poison h.accs]
  case ownerAtomic =>
    obtain ⟨hpoison, hbytes⟩ := atomWords_bytes h.accs o.aop s.cohWord
    have hcoh := (performL1_atomic h hk).trans (atomWords_fst q o.aop s.cohWord).symm
    refine ⟨fun a => ?_, fun w => ?_⟩
    · rw [cohByte_eq, hcoh]
      exact congrFun (congrArg Prod.fst hbytes) a
    · rw [hcoh, hpoison]

end Sys2Proof.Machine

namespace Sys2Proof.Machine

section
variable {s b t : State} {msg : Nat} {k : ReqKind} {r : Req}

/-! ## Requests at their home (R271, R272) -/

/-- Each message that a home takes from an agent is a request of its kind. -/
theorem HomeMsg.exec_eq {ev : Instr} (h : HomeMsg ev msg k) : exec ev s = .next (homeRequest s msg k) := by
  cases h <;> rfl

/-- A request whose turn it is arrives: a write-back is merged, any other request is served as far as it can be. -/
theorem homeRequest_arrives (hr : s.req? msg = some r) (hk : r.kind = k) (ha : r.arrived = none ∧ r.served = false)
    (hf : firstOnWay s msg Msg.toHome (r.agent, r.line) = true) (hm : s.mayAccept r.line r.agent = true) :
    homeRequest s msg k =
      let b := (s.accepted r.line r.agent).newId.1.modReq msg fun q => { q with arrived := some (s.accepted r.line r.agent).nextId }
      if k == .wb then serveWb b r else tryServe b msg := by
  obtain ⟨harrived, hserved⟩ := ha
  simp only [homeRequest, hr, hk, harrived, hserved, hf, hm, bne_self_eq_false, Bool.not_false, Bool.and_self, Bool.false_eq_true, if_false, if_true,
    State.newId]

/-- A request that has arrived is tried again. -/
theorem homeRequest_again {n : Nat} (hr : s.req? msg = some r) (hk : r.kind = k) (ha : r.arrived = some n) :
    homeRequest s msg k = tryServe s msg := by
  simp [homeRequest, hr, hk, ha]

/-! ## Answers and acknowledgements (R272, R274, R278) -/

/-- An answer that the home waits for is taken, unless its words are in a write-back on its way. -/
theorem execHomeAck_waited {a : HomeAns} {q : Req} (h : s.net.find? (fun m => m.ident == msg) = some (.answer a))
    (hf : firstOnWay s msg Msg.toHome (a.agent, a.line) = true) (hq : (s.dropMsg msg).req? a.txn = some q)
    (hw : q.waiting.contains (a.agent, a.kind == .inv) = true) (hn : s.fenced.contains a.agent = false) (hb : a.inWb = false ∨ a.kind = .fwd) :
    execHomeAck msg s = .next (answered (takeAnswer (s.dropMsg msg) a) a.txn a.agent (a.kind == .inv)) := by
  have hfenced : (s.dropMsg msg).fenced.contains a.agent = false := hn
  have hdata : (a.inWb && a.kind != .fwd) = false := by rcases hb with hb | hb <;> simp [hb]
  simp only [execHomeAck, h, hf, hq, hw, hfenced, hdata, Bool.not_true, Bool.or_false, Bool.false_eq_true, if_false]

/-- A reply fills the L1 and completes the part of the access that waits for it. -/
theorem execGrant_part {victim : Option Nat} {a : Reply} {o : LsuOp} {q : OpPart} (h : s.fromHome? msg = some (.reply a))
    (ht : t = if (a.own ||| a.share ||| a.lease) = 0 then s.dropMsg msg else l1Room (s.dropMsg msg) a.agent a.line victim)
    (ho : t.op? a.agent a.op = some o) (hq : o.parts.find? (fun q => q.st == .sent a.req) = some q) :
    execGrant msg victim s =
      .next (pump (completePart (fillReply t a ((q.accs.head?.map fun a => nbits a.vaddr.toNat 0 57 / 128).getD 0)) a o q) a.agent) := by
  subst ht
  simp only [execGrant, h, ho, hq, Option.bind_some, Option.map_some]

/-- An acknowledgement of a store finishes the part of it that waits. -/
theorem execWriteAcknowledged_part {a : WriteAck} {o : LsuOp} {q : OpPart} (h : s.fromHome? msg = some (.ack a)) (hk : a.kind ≠ .wb)
    (ho : (s.dropMsg msg).op? a.agent a.op = some o) (hq : o.parts.find? (fun q => q.st == .sent a.req) = some q) :
    execWriteAcknowledged msg s = .next (pump (finishPart (ackedStore (s.dropMsg msg) a q) a.agent o.id q.sec) a.agent) := by
  simp [execWriteAcknowledged, h, hk, ho, hq]

/-! ## Misses (R262–R264, R266) -/

/-- A miss whose victim may go is filled; with an error of the DRAM its sectors are lost first. -/
theorem execL2MissFill_miss {line : Nat} {victim : Option Nat} {err : MemErr} {m : Miss} (he : ∀ chunk, err ≠ .l2 chunk)
    (h : s.misses.find? (fun m => m.line == line) = some m) (hv : victimOk s line victim = true)
    (hb : b = if err = .dram then (s.evictL2For victim).sectorsLost line (missSectors (s.evictL2For victim) m) else s.evictL2For victim)
    (ht : t = forEach (missSectors (s.evictL2For victim) m) b fun s k => s.fillSector (32 * line + 8 * k)) :
    execL2MissFill line victim err s = .next (kickSlice { t with misses := t.misses.filter fun x => x.line != line } (sliceOf line)) := by
  subst hb ht
  cases err with
  | none => simp [execL2MissFill, h, hv]
  | dram => simp [execL2MissFill, h, hv]
  | l2 chunk => exact absurd rfl (he chunk)

end

/-! ## Requests of the host (R263, R272, R279, R280, R435) -/

section
variable {s b : State} {q : HostReq}

/-- A request joins those that the device holds: a link that refuses loses them all, before CXLMEM is 1 they wait, and then each is tried. -/
theorem hostAsks_eq (s : State) (q : HostReq) :
    s.hostAsks q =
      let b := { s with hostHeld := s.hostHeld ++ [q] }
      if s.hostLinkRefused then { s with hostHeld := [] } else if !s.ready.getLsbD 2 then b
      else { (b.hostHeld.foldl hostTry (b, [])).1 with hostHeld := (b.hostHeld.foldl hostTry (b, [])).2 } :=
  if_neg (by simp)

theorem hostAsks_refused (h : s.hostLinkRefused = true) : s.hostAsks q = { s with hostHeld := [] } :=
  (hostAsks_eq s q).trans (if_pos h)

theorem hostAsks_held (h : s.hostLinkRefused = false ∧ s.ready.getLsbD 2 = false) : s.hostAsks q = { s with hostHeld := s.hostHeld ++ [q] } := by
  obtain ⟨hlink, hready⟩ := h
  rw [hostAsks_eq, hlink, hready]
  rfl

/-- Where the device holds no other request and takes requests, it tries this one alone. -/
theorem hostAsks_alone (h0 : s.hostHeld = []) (hb : b = { s with hostHeld := [q] }) (h : s.hostLinkRefused = false ∧ s.ready.getLsbD 2 = true) :
    s.hostAsks q = { (hostTry (b, []) q).1 with hostHeld := (hostTry (b, []) q).2 } := by
  obtain ⟨hlink, hready⟩ := h
  subst hb
  simp only [hostAsks_eq, h0, hlink, hready, List.nil_append, List.foldl_cons, List.foldl_nil, Bool.not_true, Bool.false_eq_true, if_false]

/-- A read is served if its home can serve it; else it asks for its sectors and is held. -/
theorem hostTry_read (b : State) (kind : HostRead) (line : Nat) :
    hostTry (b, []) (.rd kind line) =
      if b.homeReady 255 [] (maskWords line (BitVec.allOnes 32)) then (hostReads (b.homeTaken 255 (maskWords line (BitVec.allOnes 32))) kind line, [])
      else (b.homeAsk 255 (HostReq.rd kind line).kind [] (maskWords line (BitVec.allOnes 32)), [.rd kind line]) := rfl

/-- A write that its home can serve is served. -/
theorem hostTry_write {pa : Nat} {data : List (Option Byte)} (h : b.homeReady 255 (HostReq.wr pa data).whole (HostReq.wr pa data).words = true) :
    hostTry (b, []) (.wr pa data) = (hostWrites (b.homeTaken 255 ((enabledBytes pa data).map fun e => e.1)) (pa / 128) (enabledBytes pa data), []) :=
  (if_neg (by simp)).trans (if_pos ((congrArg _ h).trans (Bool.or_true _)))

theorem execHostMemrd_asks {kind : HostRead} {line : Nat} (h : line < 2 ^ 31) : execHostMemrd kind line s = .next (s.hostAsks (.rd kind line)) :=
  congrArg _ (if_neg (Nat.not_le.mpr h))

theorem execHostMemwr_asks {pa : Nat} {data : List (Option Byte)} (h : pa < 2 ^ 38 ∧ pa % 128 + data.length ≤ 128) :
    execHostMemwr pa data s = .next (s.hostAsks (.wr pa data)) := by
  obtain ⟨haddr, hline⟩ := h
  simp only [execHostMemwr, Nat.not_le.mpr haddr, Nat.not_lt.mpr hline, decide_false, Bool.or_self, Bool.false_eq_true, if_false]

end

/-! ## The remote window (R336, R431) -/

/-- The checks of a window access, which one of some bytes within the window passes. -/
theorem window_open {s : State} {off n : Nat} (h0 : n ≠ 0) (hu : s.fabUp = true) (h : off + n ≤ s.windowBytes ∧ s.windowBase + off + n ≤ 2 ^ 38) :
    ¬ (!s.fabUp || decide (n = 0) || decide (s.windowBytes < off + n) || decide (2 ^ 38 < s.windowBase + off + n)) = true := by
  obtain ⟨hsize, hmem⟩ := h
  simp only [hu, h0, Nat.not_lt.mpr hsize, Nat.not_lt.mpr hmem, decide_false, Bool.not_true, Bool.or_self, Bool.false_eq_true, not_false_eq_true]

/-- A reduction acts on words without poison, and is counted where it meets poison. -/
theorem execRemoteWindowAccess_reduce {s : State} {off op x : Nat} (h0 : windowSize (.reduce op x) ≠ 0) (hu : s.fabUp = true)
    (h : off + windowSize (.reduce op x) ≤ s.windowBytes ∧ s.windowBase + off + windowSize (.reduce op x) ≤ 2 ^ 38) :
    execRemoteWindowAccess off (.reduce op x) s =
      let old := s.cohRead (s.windowBase + off) (windowSize (.reduce op x))
      .next (if old.2 then s.count .poisonDrop 1
        else s.cohWrite (s.windowBase + off) (leOfNat (windowSize (.reduce op x)) (redNew op (natOfLe old.1) x))) := by
  simp only [execRemoteWindowAccess, if_neg (window_open h0 hu h)]

/-- Settles O47: under each event's conditions the home, the L1 or the device takes the branch that the event names. -/
theorem coherenceEvents : Obligations.CoherenceEvents := by
  intro s i t h
  cases h with
  | arrives ev msg k r hi hr hk ha hf hm =>
    obtain ⟨hkind, hwb⟩ := hk
    rw [hi.exec_eq, homeRequest_arrives hr hkind ha hf hm]
    exact congrArg _ (if_neg (by simpa using hwb))
  | wb msg r hr hk ha hf hm => exact congrArg _ (homeRequest_arrives hr hk ha hf hm)
  | again ev msg k r n hi hr hk ha => rw [hi.exec_eq, homeRequest_again hr hk ha]
  | fwd msg r h =>
    show execFwd msg s = _
    simp [execFwd, h.first, h.kind, h.agent]
  | rcl msg r h =>
    show execRcl msg s = _
    simp [execRcl, h.first, h.kind, h.agent]
  | inv msg r t h ht =>
    subst ht
    show execInv msg s = _
    simp [execInv, h.first, h.kind, h.agent]
  | grant msg victim r t o q h ht ho hq => exact execGrant_part h ht ho hq
  | homeAck msg r q h hf hq hw hn hb => exact execHomeAck_waited h hf hq hw hn hb
  | l2MissFill line victim m h hv => exact execL2MissFill_miss (err := .none) (fun _ => nofun) h hv rfl rfl
  | l2MissError line victim m t h hv ht => exact execL2MissFill_miss (err := .dram) (fun _ => nofun) h hv rfl ht
  | l2Error line victim chunk h hv =>
    show Host.Outcome.next (secdedLost s line chunk) = _
    simp [secdedLost, h, hv]
  | victimForce line victim t h hf ht =>
    subst ht
    exact if_pos ((Bool.and_eq_true _ _).mpr ⟨h, hf⟩)
  | agentFence agent line t h ht =>
    subst ht
    show execAgentFence agent s = _
    simp only [execAgentFence, h]
  | writeAcknowledgedWb msg r h hk =>
    show execWriteAcknowledged msg s = _
    simp [execWriteAcknowledged, h, hk]
  | writeAcknowledged msg r o q h hk ho hq => exact execWriteAcknowledged_part h hk ho hq
  | hostReads kind line b hl h =>
    refine (execHostMemrd_asks hl).trans ?_
    rw [hostAsks_alone h.first h.held h.link, (hostTry_read b kind line).trans (if_pos h.served)]
  | hostWrites pa data b hp h =>
    refine (execHostMemwr_asks hp).trans ?_
    rw [hostAsks_alone h.first h.held h.link, hostTry_write h.served]
  | hostReadWaits kind line b hl h0 hb hr h =>
    refine (execHostMemrd_asks hl).trans ?_
    rw [hostAsks_alone h0 hb hr, (hostTry_read b kind line).trans (if_neg (Bool.eq_false_iff.mp h))]
  | hostReadHeld kind line hl h => exact (execHostMemrd_asks hl).trans (congrArg _ (hostAsks_held h))
  | hostWriteHeld pa data hp h => exact (execHostMemwr_asks hp).trans (congrArg _ (hostAsks_held h))
  | hostReadRefused kind line hl h => exact (execHostMemrd_asks hl).trans (congrArg _ (hostAsks_refused h))
  | hostWriteRefused pa data hp h => exact (execHostMemwr_asks hp).trans (congrArg _ (hostAsks_refused h))
  | bisnpAnswer msg data r t h ha ht =>
    subst ht
    show execBisnpAnswer msg data s = _
    simp [execBisnpAnswer, h, ha]
  | hostSnoopInv core line l h =>
    show execHostSnoop core line true s = _
    simp only [execHostSnoop, h, if_true]
  | hostSnoop core line l h =>
    show execHostSnoop core line false s = _
    simp only [execHostSnoop, h, Bool.false_eq_true, if_false]
  | remoteGet off n h0 hu h => exact if_neg (window_open h0 hu h)
  | remotePut off d h0 hu h => exact if_neg (window_open (mt List.eq_nil_of_length_eq_zero h0) hu h)
  | remoteReduce off op x h0 hu h hp => exact (execRemoteWindowAccess_reduce h0 hu h).trans (by simp [hp])
  | remoteReducePoison off op x h0 hu h hp => exact (execRemoteWindowAccess_reduce h0 hu h).trans (by simp [hp])

end Sys2Proof.Machine

namespace Sys2Proof.Machine

section
variable {s : State}

/-! ## Answers of peers (R333, R346, R431) -/

/-- The answer to a put goes to its command or access. -/
theorem execPeerAck_put {id : Nat} {refused : Bool} {q : PeerPut} (hu : s.fabUp = true) (h : s.puts.find? (fun q => q.id == id) = some q) :
    execPeerAck id refused s = .next (putAnswered s q refused) := by
  simp [execPeerAck, hu, h]

/-- A refusal that names no put and an access fails the access. -/
theorem execPeerAck_opRefused {id core : Nat} {o : LsuOp} (hu : s.fabUp = true) (h : s.puts.find? (fun q => q.id == id) = none)
    (ho : (peerOps s).find? (fun e => e.2.id == id) = some (core, o)) :
    execPeerAck id true s = .next (failPeerOp s core o 0x10 2 o.peerPtr) := by
  simp [execPeerAck, hu, h, ho]

/-- A refusal that names neither is that of a command's get, and the command faults. -/
theorem execPeerAck_getRefused {id core : Nat} {c : Cmd} (hu : s.fabUp = true) (h : s.puts.find? (fun q => q.id == id) = none)
    (ho : (peerOps s).find? (fun e => e.2.id == id) = none)
    (hc : (s.cores.findSome? fun c => (c.2.cmds.find? fun x => x.id == id && x.srcPeer.isSome).map fun x => (c.1, x)) = some (core, c)) :
    execPeerAck id true s = .next (faultCopy s core c 0x10 0) := by
  simp only [execPeerAck, hu, h, ho, hc, Bool.not_true, Bool.false_eq_true, if_false]

/-! ## Readiness (R434) -/

/-- A bit of READY may be set where its own condition holds. -/
theorem readyMay_of {bit : Nat} (h : bit ≤ 36) (hm : bit = 2 → s.ready.getLsbD 0 = true ∧ s.ready.getLsbD 1 = true)
    (hd : bit = 4 → s.image.isSome = true) (ha : bit = 9 → s.stages ≠ 0) : readyMay s bit = true := by
  unfold readyMay
  split
  · simpa using hm rfl
  · exact hd rfl
  · simpa using ha rfl
  · simpa using h

/-! ## Firmware (R439, R440) -/

/-- What the verification of an image leaves: an accepted one runs, a refused one matters where none runs. -/
theorem execFirmwareVerify_eq (data : List Byte) (version : Nat) (signed : ImageSig) :
    execFirmwareVerify data version signed s =
      let t := s.tell (.firmware (sha256 data) (imageOk s version signed))
      .next (if imageOk s version signed then ({ t with image := some (sha256 data, version), hwCapped := false } : State).measure (sha256 data)
        else if s.image.isNone then { t with svcMode := 3, ready := s.ready &&& ~~~ 0x10#64 } else t) := rfl

/-! ## Fatal errors (R442) -/

/-- The first fatal error of one of the four causes is taken. -/
theorem fatal_taken {cause : Nat} (hc : cause ≠ 0 ∧ cause ≤ 4) (hf : s.fatal = false) :
    ¬ (decide (cause = 0) || decide (4 < cause) || s.fatal) = true := by
  obtain ⟨hnone, hlast⟩ := hc
  simp [hnone, Nat.not_lt.mpr hlast, hf]

/-! ## The mailbox (R256, R431, R432, R438, R439, R441) -/

/-- A request that is within its bounds is done and reported. -/
theorem MailboxDone.exec_eq {r : MailboxReq} {t : State} (h : MailboxDone s r t) : execFarrierMailboxRequest r s = .next t := by
  cases h with
  | clearHealth | discardAll | discardRange | raiseVersion | readHealth | revokeKey => rfl
  | addPeer p a h => exact congrArg _ (if_neg (Nat.not_le.mpr h))
  | dropPeer p h => exact congrArg _ (if_neg (Nat.not_le.mpr h))
  | setWindow base bytes h => exact congrArg _ (if_neg (Nat.not_lt.mpr h))
  | setPowerCap w h => exact congrArg _ (if_neg (Nat.not_lt.mpr h))
  | startFirmware asid pc h =>
    obtain ⟨hqueue, hfatal, himage⟩ := h
    have hgo : (s.queueFull || s.fatal || s.image.isNone) = false := by simp [hqueue, hfatal, himage]
    exact congrArg _ (if_neg (Bool.eq_false_iff.mp hgo))

end

/-- Settles O49: under each event's conditions the system takes the branch that the event names. -/
theorem systemEvents : Obligations.SystemEvents := by
  intro s i t h
  cases h with
  | peerTimeout | overcurrent | shutdown | watchdogMiss | health | reset => rfl
  | putAck id refused q hu h => exact execPeerAck_put hu h
  | opRefused id core o hu h ho => exact execPeerAck_opRefused hu h ho
  | getRefused id core c hu h ho hc => exact execPeerAck_getRefused hu h ho hc
  | readySet bit h hm hd ha => exact congrArg _ (if_pos (readyMay_of h hm hd ha))
  | coreReset n h hf =>
    have hgo : (!s.fenced.contains n || decide (216 ≤ n)) = false := by simp only [hf, Nat.not_le.mpr h, decide_false, Bool.not_true, Bool.or_self]
    exact if_neg (Bool.eq_false_iff.mp hgo)
  | linkReset h => exact if_pos h
  | throttle h => exact congrArg _ (if_neg (Nat.not_le.mpr h))
  | verified data version signed h =>
    refine (execFirmwareVerify_eq data version signed).trans ?_
    simp only [h, if_true]
  | rejected data version signed h hi =>
    refine (execFirmwareVerify_eq data version signed).trans ?_
    simp only [h, hi, Option.isNone_none, Bool.false_eq_true, if_false, if_true]
  | rejectedLater data version signed x h hi =>
    refine (execFirmwareVerify_eq data version signed).trans ?_
    simp only [h, hi, Option.isNone_some, Bool.false_eq_true, if_false]
  | spdm nonce h => exact if_neg (by simp [h])
  | fatal cause pa agent hc hf hd => exact (if_neg (fatal_taken hc hf)).trans (if_pos ((Bool.not_eq_true' _).mpr hd))
  | fatalDump cause pa agent hc hf hd => exact (if_neg (fatal_taken hc hf)).trans (if_neg (by rw [hd]; decide))
  | mailbox r t h => exact h.exec_eq
  | restarted core h => exact if_pos h

end Sys2Proof.Machine

namespace Sys2Proof.Machine

/-! ## Firmware instructions in firmware context (R438) -/

/-- In firmware context each effect is what the body of its instruction makes, with a fate for no lane. -/
theorem FirmwareEffect.runs {s b u : State} {g : Nat} {w w' : Warp} {e : Entry} {c : Ctx} {i : Instr} {gd : Guard} {o : Opnds}
    (h : FirmwareEffect b w' c i gd o u) (hc : Calm s g w e) (hf : inFirmware s g = true) (hw : b.warp? c.g = some w') :
    ∃ body, exec i s = issueUni s gd o body ∧ body b c = (u, []) := by
  cases h with
  | csrr gd d n => exact ⟨_, firmwareOnly_inside hc hf, rfl⟩
  | csrw gd n a => exact ⟨_, firmwareOnly_inside hc hf, by simp only [hw]⟩
  | halt gd => exact ⟨_, firmwareOnly_inside hc hf, rfl⟩

/-- Settles O22: in firmware context each instruction issues as a uniform one, whose body makes the effect. -/
theorem firmwareEffects : Obligations.FirmwareEffects := by
  intro s b g w w' e i gd o u hc hf hb hw h hg hrel hhome hroom
  obtain ⟨body, hi, hu⟩ := h.runs hc hf hw
  exact hi.trans (issueUni_body hc hg hrel hhome hroom hb hu)

/-! ## The order of READY (R434) -/

/-- Settles O54: after reset no bit of READY is set, that of CXLMEM neither. -/
theorem resetReady : Obligations.ResetReady := by
  intro hcxl
  have hclear : State.reset.ready.getLsbD 2 = false := by decide
  exact absurd hcxl (Bool.eq_false_iff.mp hclear)

/-- Settles O55: READY_SET alone sets a bit of READY, CXLMEM's only after MEM's and L2's; apart from that a step at most clears DISPATCH (R439) or
resets READY. -/
theorem readyOrderKept : Obligations.ReadyOrderKept := by
  intro s t hs hstep
  have hkept : Kept s t := Kept.of_next (Kept.refl s).step hstep
  exact hkept.order hs

end Sys2Proof.Machine
